-- ==== Sys2Proof/Word.lean ====
section
/-! DEFINITION. The word types of the Traivo and the plainest arithmetic on them. -/

namespace Sys2Proof

/-- A 32-bit word: register words, scratchpad words, code words (spec 00_scope.md R7, 02_number_formats.md R34). -/
abbrev Word := BitVec 32

/-- A byte of memory. -/
abbrev Byte := BitVec 8

/-- A word of a store whose words carry one poison bit each (spec 04_register_space.md R102, 08_scratchpad.md R185). -/
structure PWord where
  /-- data bits -/
  val : Word
  /-- poison bit -/
  psn : Bool
  deriving DecidableEq, Repr

/-- The word 0, not poisoned: what frames and scratchpad hold when a team starts (R91, R182). -/
def PWord.zero : PWord := ⟨0, false⟩

/-- A poisoned word has data bits 0 (R49, R106). -/
def PWord.poison : PWord := ⟨0, true⟩

/-- A clean word. -/
def PWord.ok (w : Word) : PWord := ⟨w, false⟩

/-- Bits lo to lo + n - 1 of w, as a number. -/
def bitsOf (w lo n : Nat) : Nat := w / 2 ^ lo % 2 ^ n

/-- Bit k of w. -/
def bitOf (w k : Nat) : Bool := w / 2 ^ k % 2 == 1

/-- Low 32 bits of an integer (spec 05_integer.md R108, Lo). -/
def loWord (v : Int) : Word := BitVec.ofInt 32 v

/-- Bits 63 to 32 of an integer (R108, Hi). -/
def hiWord (v : Int) : Word := BitVec.ofInt 32 (v / 4294967296)

/-- The field of n bits read as two's complement (R65, R108 SignExtend). -/
def signExt (n v : Nat) : Int := if v < 2 ^ (n - 1) then (v : Int) else (v : Int) - 2 ^ n

end Sys2Proof
end

