-- ==== Sys2Proof/Syntax.lean ====
section
/-! DEFINITION. The instructions and events of the Traivo: one constructor of Instr for each row of the opcode
table. Encoded instructions carry the operand fields of their layout (spec 03_encoding.md Tables 3-2 to 3-9);
events, which have no encoding, carry what they act on (95_what_each_step_holds.md). -/

namespace Sys2Proof

/-- A 5-bit register field: 0 to 27 name v0 to v27, 28 to 31 name q0 to q3 (R55). -/
abbrev Reg := Fin 32
/-- A predicate p0 to p15 (R55). -/
abbrev Pred := Fin 16
/-- An accumulator tile a0 to a15 (R55). -/
abbrev Tile := Fin 16

/-- Layout R (Table 3-2). -/
structure OpR where
  d : Reg
  ap : Fin 8
  ar : Reg
  bp : Fin 4
  br : Reg
  deriving DecidableEq, Repr

/-- Layout R-v without its variant. -/
structure OpV where
  d : Reg
  ap : Fin 8
  ar : Reg
  br : Reg
  deriving DecidableEq, Repr

/-- Layout R-c without Z and CND. -/
structure OpC where
  pd : Pred
  ar : Reg
  bp : Fin 4
  br : Reg
  deriving DecidableEq, Repr

/-- Layout R-p: three predicates. -/
structure OpP where
  pd : Pred
  pa : Pred
  pb : Pred
  deriving DecidableEq, Repr

/-- D, AP, AR of layout M. -/
structure OpM where
  d : Reg
  ap : Fin 8
  ar : Reg
  deriving DecidableEq, Repr

/-- AP and AR of layout M: one source operand. -/
structure OpA where
  ap : Fin 8
  ar : Reg
  deriving DecidableEq, Repr

/-- Layout IS with a 7-bit immediate. -/
structure OpIS where
  d : Reg
  ap : Fin 8
  ar : Reg
  imm : Fin 128
  deriving DecidableEq, Repr

/-- Layout IS of the shift immediates: a count of 0 to 31 (R65). -/
structure OpSh where
  d : Reg
  ap : Fin 8
  ar : Reg
  n : Fin 32
  deriving DecidableEq, Repr

/-- Signed or unsigned reading of a source (R109). -/
inductive Sign where
  | sx
  | zx
  deriving DecidableEq, Repr

/-- Conditions of ISETP (Table 3-6). -/
inductive ICond where
  | eq | ne | lt | le | gt | ge
  deriving DecidableEq, Repr

/-- Conditions of FSETP (Table 3-6). -/
inductive FCond where
  | eq | ne | lt | le | gt | ge | num | nan
  deriving DecidableEq, Repr

/-- Rounding modes (R51). -/
inductive Rnd where
  | rne | ef | rz
  deriving DecidableEq, Repr

/-- Rounding of FRND (Table 6-2). -/
inductive RndInt where
  | rne | rz | rm | rp
  deriving DecidableEq, Repr

/-- Formats of Table 2-1. -/
inductive Fmt where
  | f32 | bf16 | f16 | e4m3 | e5m2 | e2m1 | rn8 | rn16 | i8 | i16 | i32
  deriving DecidableEq, Repr

/-- LEA scales (R116). -/
inductive Scale where
  | x1 | x2 | x4 | x8
  deriving DecidableEq, Repr

/-- SHFL modes (R153). -/
inductive ShflMode where
  | idx | up | down | xor
  deriving DecidableEq, Repr

/-- VOTE forms that write a predicate (R148). -/
inductive VoteOp where
  | all | any | uni
  deriving DecidableEq, Repr

/-- REDUX operations (Table 6-8). -/
inductive ReduxOp where
  | add | minSx | maxSx | minZx | maxZx | and | or | xor
  deriving DecidableEq, Repr

/-- FREDUX operations (Table 6-8). -/
inductive FReduxOp where
  | add | min | max
  deriving DecidableEq, Repr

/-- SCAN operations (Table 6-8). -/
inductive ScanOp where
  | add | fadd | maxSx | minSx
  deriving DecidableEq, Repr

/-- Atomic operations (Table 3-7). -/
inductive AtomOp where
  | add | exch | min | max | and | or | xor
  deriving DecidableEq, Repr

/-- Types of ATOMS and ATOMX (Table 3-5). -/
inductive AtomTy where
  | i32 | u32 | f32 | i64
  deriving DecidableEq, Repr

/-- Widths of CASS and CASX (Table 3-5). -/
inductive CasTy where
  | b32 | b64 | b128
  deriving DecidableEq, Repr

/-- Layout R-m: loads and stores. Bit 12 is Z in a load and SAT in a store (R187). -/
structure OpMem where
  d : Reg
  rnd : Rnd
  bit12 : Bool
  ar : Reg
  fmt : Fmt
  cnt : Fin 4
  e : Bool
  deriving DecidableEq, Repr

/-- Layout R-a of ATOMS and ATOMX (R195). -/
structure OpAtom where
  d : Reg
  op : AtomOp
  ar : Reg
  ty : AtomTy
  br : Reg
  deriving DecidableEq, Repr

/-- Layout R-a of CASS and CASX (R195). -/
structure OpCas where
  d : Reg
  ar : Reg
  ty : CasTy
  br : Reg
  deriving DecidableEq, Repr

/-- Layout Q: the queue register and the first register of a command (R73). -/
structure OpQ where
  q : Fin 4
  ar : Reg
  deriving DecidableEq, Repr

/-- Layout R-t without SIG and SHAPE (R64): FS names slots 2 FS and 2 FS + 1. -/
structure OpT where
  t : Tile
  fs : Fin 4
  ar : Reg
  br : Reg
  deriving DecidableEq, Repr

/-- Fields of the conversion group: SAT and the rounding field (R143). -/
structure OpCvt where
  d : Reg
  ap : Fin 8
  ar : Reg
  sat : Bool
  rnd : Rnd
  deriving DecidableEq, Repr

/-- ASTS and ASTC (Table 12-5). -/
structure OpAst where
  t : Tile
  ar : Reg
  sat : Bool
  rnd : Rnd
  deriving DecidableEq, Repr

/-- Scopes of Table 11-1. -/
inductive Scope where
  | thread | group | team | cluster | die | device | system
  deriving DecidableEq, Repr

/-- Kinds of FENCE (R274). -/
inductive FenceKind where
  | acq | rel | ar | sc
  deriving DecidableEq, Repr

/-- Sizes of a reflection (Table 13-3): 8, 16, 32 or 64 bytes. -/
inductive ReflSize where
  | sz8 | sz16 | sz32 | sz64
  deriving DecidableEq, Repr

/-- A management command: the entry at index `idx` of the management queue of die `die` in host function `func`
(21_host_firmware.md R450, R452). -/
structure MgmtRef where
  func : Nat
  die : Nat
  idx : Nat
  deriving DecidableEq, Repr

/-- What an uncorrectable error in a core struck (17_faults.md R396). -/
inductive CoreArray where
  /-- register space or shade bank or tile store: frame word of a group -/
  | frame (gid word : Nat)
  /-- a predicate of a thread -/
  | predicate (gid lane p : Nat)
  /-- a scratchpad word -/
  | spad (core word : Nat)
  /-- the accumulator tile of a group, element index -/
  | tile (gid t elem : Nat)
  deriving DecidableEq, Repr

/-- One constructor per row of spec/opcode_table.json. (log 59) -/
inductive Instr where
  -- I pipe (05_integer.md, 04_register_space.md)
  | iadd (o : OpR)
  | iaddImm (o : OpIS)
  | isub (o : OpR)
  | iaddc (o : OpR)
  | imul (o : OpV)
  | imulh (z : Sign) (o : OpV)
  | imad (o : OpV)
  | imadw (z : Sign) (o : OpV)
  | iadd64 (o : OpV)
  | isub64 (o : OpV)
  | shl64 (o : OpV)
  | shr64 (z : Sign) (o : OpV)
  | lea (v : Scale) (o : OpV)
  | imin (z : Sign) (o : OpV)
  | imax (z : Sign) (o : OpV)
  | and (o : OpV)
  | or (o : OpV)
  | xor (o : OpV)
  | andn (o : OpV)
  | orn (o : OpR)
  | shl (o : OpV)
  | shr (o : OpV)
  | sar (o : OpV)
  | rotl (o : OpV)
  | shlImm (o : OpSh)
  | shrImm (o : OpSh)
  | sarImm (o : OpSh)
  | rotlImm (o : OpSh)
  | bfx (z : Sign) (o : OpV)
  | bfi (o : OpV)
  | popc (o : OpM)
  | clz (o : OpM)
  | ctz (o : OpM)
  | brev (o : OpM)
  | prmt (o : OpR)
  | isetp (z : Sign) (c : ICond) (o : OpC)
  | sel (o : OpR)
  | iabs (o : OpM)
  | ineg (o : OpM)
  | mov (o : OpM)
  | movi (d : Reg) (imm : Fin 32768)
  | movl (d : Reg) (lit : Word)
  | pand (o : OpP)
  | por (o : OpP)
  | pxor (o : OpP)
  | pnot (pd pa : Pred)
  | pget (d : Reg)
  | pset (o : OpA)
  | winImm (n : Fin 16)
  | winReg (o : OpA)
  | ptn (e : Fin 8) (o : OpA)
  | qbind (n : Fin 4) (o : OpA)
  -- F pipes (06_float.md)
  | fadd (o : OpR)
  | fsub (o : OpR)
  | fmul (o : OpR)
  | ffma (o : OpR)
  | ffms (o : OpR)
  | fmin (o : OpV)
  | fmax (o : OpV)
  | bmin2 (o : OpV)
  | bmax2 (o : OpV)
  | fsetp (c : FCond) (o : OpC)
  | badd2 (o : OpR)
  | bmul2 (o : OpR)
  | bfma2 (o : OpR)
  | fpack (r : Rnd) (o : OpV)
  | shfl (m : ShflMode) (o : OpV)
  | fabs (o : OpM)
  | fneg (o : OpM)
  | fclass (o : OpM)
  | frnd (r : RndInt) (o : OpM)
  | frcp (o : OpM)
  | frsq (o : OpM)
  | fsqrt (o : OpM)
  | fexp2 (o : OpM)
  | flog2 (o : OpM)
  | fsin (o : OpM)
  | fcos (o : OpM)
  | ftanh (o : OpM)
  | f2i (z : Sign) (o : OpCvt)
  | i2f (z : Sign) (o : OpCvt)
  | fcvtBf16F32 (o : OpCvt)
  | fcvtF32Bf16 (o : OpCvt)
  | fcvtF16F32 (o : OpCvt)
  | fcvtE4m3F32 (o : OpCvt)
  | fcvtE5m2F32 (o : OpCvt)
  | funpack (o : OpCvt)
  | vote (x : VoteOp) (pd pa : Pred)
  | voteBallot (d : Reg) (pa : Pred)
  | redux (x : ReduxOp) (o : OpM)
  | fredux (x : FReduxOp) (o : OpM)
  | scan (excl : Bool) (x : ScanOp) (o : OpM)
  | matchLanes (o : OpM)
  -- L pipe (08_scratchpad.md, 09_copy_command.md)
  | lds (o : OpMem)
  | sts (o : OpMem)
  | ldx (o : OpMem)
  | stx (o : OpMem)
  | ldt (o : OpMem)
  | stt (o : OpMem)
  | ldr (o : OpMem)
  | str (o : OpMem)
  | atoms (o : OpAtom)
  | cass (o : OpCas)
  | atomx (o : OpAtom)
  | casx (o : OpCas)
  | copy (o : OpQ)
  | copyl (o : OpQ)
  | gath (o : OpQ)
  | scat (o : OpQ)
  | bgath (o : OpQ)
  | bscat (o : OpQ)
  | mcast (o : OpQ)
  | cfence (o : OpQ)
  | atomc (o : OpQ)
  | redc (o : OpQ)
  | fill (o : OpQ)
  | waitc (o : OpQ)
  | signal (o : OpQ)
  | txload (o : OpQ)
  | txrun (o : OpQ)
  | pref (o : OpQ)
  -- M pipe (12_accumulator.md)
  | mmaK16 (o : OpT)
  | mmaK8 (o : OpT)
  | mmas (o : OpT)
  | mmaSig (k8 : Bool) (o : OpT) (dep : Fin 256)
  | mmasSig (o : OpT) (dep : Fin 256)
  | agive (t : Tile) (i64 : Bool) (o : OpA)
  | atake (t : Tile) (i64 : Bool)
  | azero (t : Tile) (o : OpA)
  | mfmt (n : Fin 8) (o : OpA)
  | msld (o : OpM)
  | asts (o : OpAst)
  | astc (o : OpAst)
  | ainfo (d : Reg) (t : Tile)
  -- C pipe (07_group.md, 10_barrier.md, 11_memory_model.md, 13 to 17)
  | bra (imm : Fin 32768)
  | call (d : Reg) (imm : Fin 32768)
  | nop
  | brx (o : OpA)
  | ret (o : OpA)
  | join (ar : Reg)
  | exit
  | trap (n : Fin 32)
  | sleep (o : OpA)
  | ppt (offs : Fin 16) (more : Bool) (live : Fin 268435456) (granules : Word)
  | fence (k : FenceKind) (sc : Scope)
  | tlwait (d : Reg) (sc : Scope) (e : Fin 4)
  | bar (n : Fin 16)
  | barc (n : Fin 4)
  | boinit (o : OpM)
  | boarr (rlx : Bool) (o : OpM)
  | bowait (o : OpM)
  | botest (acq : Bool) (o : OpM)
  | rainit (o : OpM)
  | rawait (o : OpM)
  | rawaitFree (o : OpM)
  | rarel (o : OpA)
  | wpwait (d : Reg) (ch : Fin 4)
  | refl (pd : Pred) (ar : Reg) (z : ReflSize)
  | unrefl (o : OpA)
  | rseq (acq : Bool) (o : OpM)
  | rack (o : OpM)
  | tkget (try_ : Bool) (d : Reg)
  | tkput (ar : Reg)
  | tkdone (ar : Reg)
  | dcset (ar : Reg)
  | dcdec (o : OpA)
  | launch (o : OpM)
  | gcond (n : Fin 8) (o : OpA)
  | lend (o : OpA)
  | recall (d : Reg)
  | srd (d : Reg) (sr : Reg)
  | swr (sr : Reg) (o : OpA)
  | tres (o : OpA)
  | tkill (team : Bool)
  | pchkReg (pd : Pred) (o : OpA)
  | pchkPred (pd pa : Pred)
  | pclrReg (o : OpM)
  | pclrPred (pd pa : Pred)
  -- events of the issue of words and of groups
  | illegalPacket (lowest : Fin 3)
  | resultWriteback (g : Nat)
  | activeSetEntry (core : Nat) (shade : Bool)
  | unpark (core : Nat) (shade : Bool)
  | eviction (core : Nat)
  | groupRetire (g : Nat)
  | sleepWake (g lane : Nat)
  | handlerGroupStart (g : Nat)
  | groupSave (g : Nat)
  | flushByContextTag (g : Nat)
  | flushAcknowledge (g : Nat)
  | remoteAccessComplete (n : Nat)
  | queuePushLands (g : Nat)
  -- events of copy engines, stacks and the matrix engine
  | commandStart (n : Nat)
  | elementLands (n : Nat)
  | mcastReceiverArrival (n : Nat)
  | stackAtomicApply (n : Nat)
  | txLaneStart (lane : Nat)
  | mmaApply (core : Nat)
  | tileConversionEnd (g t : Nat)
  | msldTransferEnd (core : Nat)
  -- events of reflections
  | pushCoalesceExpiry (n : Nat)
  | pushApply (n : Nat)
  | reflLoadLands (n : Nat)
  | unreflRetire (n : Nat)
  -- events of work queues, kernels and graphs
  | wqEnable (q : Nat)
  | wqDisable (q : Nat)
  | wqSuspend (q : Nat)
  | wqUnsuspend (q : Nat)
  | doorbell (q : Nat) (wr : Word)
  | registerWrite (func off : Nat) (w : Word)
  | wqEntryFetch (q : Nat)
  | nopEntry (q idx : Nat)
  | kernelEntry (q idx : Nat)
  | graphEntry (q idx : Nat)
  | waitvEntry (q idx : Nat)
  | writevEntry (q idx : Nat)
  | waitvReread (q idx : Nat)
  | hostRingWrite (ctx ring : Nat)
  | hostRingDeadline (ctx ring : Nat)
  | clusterAdmission (k : Nat)
  | graphNodeStart (gr node : Nat)
  | graphNodeComplete (gr node : Nat)
  | teamEnd (t : Nat)
  -- events of contexts
  | preemptionWatchdog (ctx : Nat)
  | contextSaveComplete (ctx : Nat)
  | contextRestoreComplete (ctx : Nat)
  | contextTeardownDone (ctx : Nat)
  | granuleZeroingEnd (core : Nat)
  | granulesReturn (n : Nat)
  -- pages
  | pageWalkComplete (n : Nat)
  | invalComplete (n : Nat)
  | accessCountHalving (die : Nat)
  | priResponse (func id : Nat) (ok : Bool)
  | pageDrainComplete (n : Nat)
  -- links
  | linkEnable (l : Nat)
  | linkTrainingDone (l lanes : Nat)
  | retrainDone (l : Nat)
  | linkDrained (l : Nat)
  | quiesceTimeout (l : Nat)
  -- management commands
  | faultringRetry (die : Nat)
  -- boot, life cycle, outside world
  | coldReset (die : Nat)
  | wipeComplete (die : Nat)
  | hostPortLinkDown (port : Nat) (state : Nat)
  | tokenBucketRefill (ctx die : Nat)
  | hostPortLinkUp (port : Nat)
  | hostWrite (func addr : Nat) (bytes : List Byte)
  -- events of work queues, kernels and graphs (continued)
  | dependenceCounterDecrement (cl dc : Nat)
  -- errors
  | correctableEcc (die : Nat)
  | hbmSectorUncorrectable (addr : Nat)
  | l2DataUncorrectable (die addr : Nat)
  | registerSpaceUncorrectable (a : CoreArray)
  | schedulingStateUncorrectable (g : Nat)
  | instructionCacheError (core : Nat)
  | parkingRegionUncorrectable (g word : Nat)
  | l2SliceTagError (die slice : Nat)
  | copyEngineInternalError (n : Nat)
  | managementControllerFault (die : Nat)
  | dieFatal (die : Nat)
  -- pages (continued)
  | atsInvalidation (func addr len : Nat)
  -- links (continued)
  | linkTrainingFails (l : Nat)
  | flitReceived (l : Nat) (good : Bool) (flit : List Byte)
  | replayRequest (l seq : Nat)
  | retrainFails (l : Nat)
  -- management commands (continued)
  | ctxcreate (m : MgmtRef)
  | ctxdestroy (m : MgmtRef)
  | ctxkill (m : MgmtRef)
  | preempt (m : MgmtRef)
  | ctxresume (m : MgmtRef)
  | handler (m : MgmtRef)
  | inval (m : MgmtRef)
  | resume (m : MgmtRef)
  | faultring (m : MgmtRef)
  | pageattr (m : MgmtRef)
  | errlog (m : MgmtRef)
  | linkstat (m : MgmtRef)
  | diereset (m : MgmtRef)
  | policy (m : MgmtRef)
  | fwload (m : MgmtRef)
  | attest (m : MgmtRef)
  -- boot, life cycle, outside world (continued)
  | lifecycleTransition (die state : Nat)
  | thermalThrottle (die : Nat) (on : Bool)
  | coolantLimit (on : Bool)
  deriving DecidableEq, Repr

end Sys2Proof
end

