-- ==== Sys2Proof/WellFormed.lean ====
section
/-! DEFINITION. The conditions on an instruction that its operand fields alone decide: register groups, formats and
format uses (spec 03_encoding.md R74 items 3, 10 and 11). -/

namespace Sys2Proof

/-- Bytes of one element of a format; E2M1 is half a byte and is listed as 0 (Table 2-1). -/
def Fmt.size : Fmt → Nat
  | .f32 | .i32 => 4
  | .bf16 | .f16 | .rn16 | .i16 => 2
  | .e4m3 | .e5m2 | .rn8 | .i8 => 1
  | .e2m1 => 0

/-- CNT gives 1, 2, 4 or 8 register words (R64). -/
def cntWords (c : Fin 4) : Nat := 2 ^ c.val

/-- Operand width of ATOMS and ATOMX in register words (R195). -/
def AtomTy.words : AtomTy → Nat
  | .i64 => 2
  | _ => 1

/-- Operand width of CASS and CASX in register words (R195). -/
def CasTy.words : CasTy → Nat
  | .b32 => 1
  | .b64 => 2
  | .b128 => 4

/-- Special registers of 64 bits: numbers 11 to 19 (16_context.md Table 16-6). -/
def srWide (n : Nat) : Bool := 11 ≤ n

/-- The registers and register groups that must lie within v0 to v27: first register and length (R74 item 10). -/
def Instr.groups : Instr → List (Reg × Nat)
  | .iaddc o => [(o.d, 2)]
  | .imad o => [(o.d, 1)]
  | .imadw _ o => [(o.d, 2)]
  | .iadd64 o | .isub64 o => [(o.d, 2), (o.ar, 2), (o.br, 2)]
  | .shl64 o | .shr64 _ o => [(o.d, 2), (o.ar, 2)]
  | .bfi o => [(o.d, 1)]
  | .prmt o | .ffma o | .ffms o | .bfma2 o => [(o.d, 1)]
  | .funpack o => [(o.d, 2)]
  | .lds o | .sts o | .ldx o | .stx o | .ldt o | .stt o | .ldr o | .str o =>
    if o.cnt.val = 0 then [] else [(o.d, cntWords o.cnt)]
  | .atoms o | .atomx o => [(o.d, o.ty.words), (o.ar, 1), (o.br, o.ty.words)]
  | .cass o | .casx o => [(o.d, o.ty.words), (o.ar, 1), (o.br, o.ty.words)]
  | .copy o | .mcast o | .redc o => [(o.ar, 7)]
  | .copyl o | .gath o | .scat o | .bgath o | .bscat o | .txrun o => [(o.ar, 8)]
  | .cfence o => [(o.ar, 1)]
  | .atomc o | .fill o => [(o.ar, 6)]
  | .waitc o => [(o.ar, 3)]
  | .signal o | .pref o => [(o.ar, 4)]
  | .txload o => [(o.ar, 5)]
  | .mmaK16 o | .mmaK8 o | .mmaSig _ o _ => [(o.ar, 8), (o.br, 8)]
  | .mmas o | .mmasSig o _ => [(o.ar, 9), (o.br, 16)]
  | .msld o => [(o.d, 1)]
  | .asts o => [(o.ar, 2)]
  | .astc o => [(o.ar, 5)]
  | .call d _ => [(d, 1)]
  | .brx o | .ret o | .sleep o => [(o.ar, 1)]
  | .join ar => [(ar, 1)]
  | .tlwait d _ _ => [(d, 2)]
  | .boinit o => [(o.d, 2)]
  | .boarr _ o | .botest _ o => [(o.d, 1)]
  | .bowait o | .rainit o | .rawait o | .rawaitFree o => [(o.d, 1)]
  | .wpwait d _ => [(d, 2)]
  | .refl _ ar _ => [(ar, 3)]
  | .unrefl o => [(o.ar, 1)]
  | .rseq _ o => [(o.d, 2), (o.ar, 1)]
  | .rack o => [(o.d, 1), (o.ar, 1)]
  | .tkget _ d => [(d, 5)]
  | .tkput ar => [(ar, 5)]
  | .tkdone ar => [(ar, 2)]
  | .dcset ar => [(ar, 7)]
  | .launch o => [(o.d, 1)]
  | .recall d => [(d, 1)]
  | .srd d sr => [(d, if srWide sr.val then 2 else 1)]
  | .swr _ o => [(o.ar, 2)]
  | .tres o => [(o.ar, 1)]
  | .pchkReg _ o => [(o.ar, 1)]
  | .pclrReg o => [(o.d, 1), (o.ar, 1)]
  | _ => []

/-- No register group runs past v27 or holds a queue register. -/
def Instr.groupsOk (i : Instr) : Bool := i.groups.all fun p => p.1.val + p.2 ≤ 28

/-- Formats of plain scratchpad loads and stores: any but E2M1, and FP32 only with E = 0 (R189). -/
def OpMem.plainOk (o : OpMem) : Bool :=
  o.fmt != .e2m1 && !(o.fmt == .f32 && o.e)

/-- Z = 1 only with INT8 or INT16 (R189). -/
def OpMem.zOk (o : OpMem) : Bool := !o.bit12 || o.fmt == .i8 || o.fmt == .i16

/-- Formats of LDR and STR (R189). -/
def OpMem.frameOk (o : OpMem) : Bool := o.fmt == .f32 || o.fmt == .bf16 || o.fmt == .i32

/-- Formats of LDT and STT: 8 or 16 bits wide (R189). -/
def OpMem.transOk (o : OpMem) : Bool := o.fmt.size == 1 || o.fmt.size == 2

/-- Format and format-use checks (R33, R189), atomic operations (R71) and special registers (R381). -/
def Instr.usesOk : Instr → Bool
  | .lds o | .ldx o => o.plainOk && o.zOk
  | .sts o | .stx o => o.plainOk
  | .ldt o => o.plainOk && o.transOk && o.zOk
  | .stt o => o.plainOk && o.transOk
  | .ldr o => o.plainOk && o.frameOk && o.zOk
  | .str o => o.plainOk && o.frameOk
  | .atoms o | .atomx o =>
    !(o.ty == .f32 && (o.op == .and || o.op == .or || o.op == .xor))
  | .srd _ sr => sr.val < 20
  | .swr sr _ => sr.val == 18
  | _ => true

/-- The instruction's fields break none of the rules that can be told from the word alone. (log 60) -/
def Instr.wellFormed (i : Instr) : Bool := i.groupsOk && i.usesOk

end Sys2Proof
end

