-- ==== Sys2Proof/Machine/Numbers.lean ====
section
/-! DEFINITION. Number formats, rounding and exact arithmetic (spec 02_number_formats.md R32 to R53, 06_float.md
R132 to R137). Values are exact dyadic numbers; every result is encoded once. -/

namespace Sys2Proof.Machine

/-- A decoded value (R47): a finite number (-1)^neg * m * 2^e, an infinity, a NaN, or poison. -/
inductive Val where
  | fin (neg : Bool) (m : Nat) (e : Int)
  | inf (neg : Bool)
  | nan
  | psn
  deriving DecidableEq, Repr

/-- Fields of a floating-point format (Table 2-2): exponent bits, fraction bits, bias, the largest significand at the
largest exponent field that holds finite values, that exponent field, and whether there are infinities and NaNs. -/
structure FloatSpec where
  eb : Nat
  fb : Nat
  bias : Nat
  topE : Nat
  topM : Nat
  hasInf : Bool
  nanCode : Option Nat
  deriving DecidableEq, Repr

def fp32Spec : FloatSpec := ⟨8, 23, 127, 254, 16777215, true, some 0x7FC00000⟩
def bf16Spec : FloatSpec := ⟨8, 7, 127, 254, 255, true, some 0x7FC0⟩
def fp16Spec : FloatSpec := ⟨5, 10, 15, 30, 2047, true, some 0x7E00⟩
def e5m2Spec : FloatSpec := ⟨5, 2, 15, 30, 7, true, some 0x7E⟩
/-- E4M3 keeps exponent field 15 for finite values up to 448 (R36). -/
def e4m3Spec : FloatSpec := ⟨4, 3, 7, 15, 14, false, some 0x7F⟩
def e2m1Spec : FloatSpec := ⟨2, 1, 1, 3, 3, false, none⟩

/-- Value of a floating-point code (R35, R36). -/
def decodeFloat (q : FloatSpec) (c : Nat) : Val :=
  let neg := c / 2 ^ (q.eb + q.fb) % 2 == 1
  let e := c / 2 ^ q.fb % 2 ^ q.eb
  let f := c % 2 ^ q.fb
  if e == 0 then .fin neg f (1 - (q.bias : Int) - q.fb)
  else if q.hasInf && e == 2 ^ q.eb - 1 then (if f == 0 then .inf neg else .nan)
  else if !q.hasInf && q.nanCode.isSome && e == 2 ^ q.eb - 1 && f == 2 ^ q.fb - 1 then .nan
  else .fin neg (2 ^ q.fb + f) ((e : Int) - q.bias - q.fb)

/-- Two's complement value of an n-bit code, or its unsigned value (R38). -/
def decodeInt (n : Nat) (zx : Bool) (c : Nat) : Int :=
  if zx then ((c % 2 ^ n : Nat) : Int) else signExt n (c % 2 ^ n)

/-- An integer as a value. -/
def Val.ofInt (i : Int) : Val := .fin (i < 0) i.natAbs 0

/-- Crt8 and Crt16 (R41). -/
def crt8 (c : Nat) : Nat := (70 * (c / 64 % 4) + 21 * (c / 8 % 8) + 15 * (c % 8)) % 105
def crt16 (c : Nat) : Nat := (16896 * (c / 2048 % 32) + 31713 * (c / 64 % 32) + 16864 * (c % 64)) % 32736
/-- CrtSigned (R41): the signed range is the symmetric half. -/
def crtSigned (x m : Nat) : Int := if m ≤ 2 * x then (x : Int) - m else x
def valid8 (c : Nat) : Bool := c / 64 % 4 < 3 && c / 8 % 8 < 5 && c % 8 < 7
def valid16 (c : Nat) : Bool := c / 2048 % 32 < 31 && c % 64 < 33
/-- Res8 and Res16 (R41). -/
def res8 (i : Int) : Nat := (i % 3).toNat * 64 + (i % 5).toNat * 8 + (i % 7).toNat
def res16 (i : Int) : Nat := (i % 31).toNat * 2048 + (i % 32).toNat * 64 + (i % 33).toNat

/-- Decode (R47) without scale and poison bit: an invalid residue code is poison (R42). -/
def decode (f : Fmt) (zx : Bool) (c : Nat) : Val :=
  match f with
  | .f32 => decodeFloat fp32Spec c
  | .bf16 => decodeFloat bf16Spec c
  | .f16 => decodeFloat fp16Spec c
  | .e4m3 => decodeFloat e4m3Spec c
  | .e5m2 => decodeFloat e5m2Spec c
  | .e2m1 => decodeFloat e2m1Spec c
  | .rn8 => if valid8 c then .ofInt (crtSigned (crt8 c) 105) else .psn
  | .rn16 => if valid16 c then .ofInt (crtSigned (crt16 c) 32736) else .psn
  | .i8 => .ofInt (decodeInt 8 zx c)
  | .i16 => .ofInt (decodeInt 16 zx c)
  | .i32 => .ofInt (decodeInt 32 zx c)

/-- Multiply a value by 2^k. (log 15) -/
def Val.scale (v : Val) (k : Int) : Val :=
  match v with
  | .fin n m e => .fin n m (e + k)
  | v => v

/-- Decode of a scaled element (R45, R47); under `.zx` the unsigned value is scaled (R38). -/
def decodeScaled (f : Fmt) (zx : Bool) (c s : Nat) : Val :=
  if s == 255 then .psn else (decode f zx c).scale ((s : Int) - 127)

/-- An encoded result: the code, whether it is poisoned, and whether it is finite and no overflow (R52). -/
structure Enc where
  code : Nat
  psn : Bool
  exact : Bool
  deriving DecidableEq, Repr

/-- m * 2^e as a multiple of 2^g, rounded to nearest even, or toward zero (R48). -/
def roundTo (m : Nat) (e g : Int) (rz : Bool) : Nat :=
  if g ≤ e then m * 2 ^ (e - g).toNat
  else
    let d := (g - e).toNat
    let q := m / 2 ^ d
    let r := m % 2 ^ d
    if rz then q
    else if 2 * r > 2 ^ d || (2 * r == 2 ^ d && q % 2 == 1) then q + 1 else q

/-- Floor(Log2 (m * 2^e)) for m > 0. -/
def floorLog2 (m : Nat) (e : Int) : Int := (m.log2 : Int) + e

/-- Grid exponent of a floating-point format at m * 2^e (R48). -/
def gridExp (q : FloatSpec) (m : Nat) (e : Int) : Int := max (floorLog2 m e) (1 - (q.bias : Int)) - q.fb

/-- Largest finite code of a floating-point format, without its sign. -/
def FloatSpec.maxCode (q : FloatSpec) : Nat := q.topE * 2 ^ q.fb + (q.topM - 2 ^ q.fb)

/-- m * 2^e exceeds the largest finite value. -/
def FloatSpec.tooBig (q : FloatSpec) (m : Nat) (e : Int) : Bool :=
  let te : Int := (q.topE : Int) - q.bias - q.fb
  if te ≤ e then m * 2 ^ (e - te).toNat > q.topM else m > q.topM * 2 ^ (te - e).toNat

/-- The code of the exact value m * 2^g of the format, with m at most 2^(fb + 1). -/
def FloatSpec.pack (q : FloatSpec) (m : Nat) (g : Int) : Nat :=
  if m < 2 ^ q.fb then m
  else if m == 2 ^ (q.fb + 1) then (g + 1 + q.fb + q.bias).toNat * 2 ^ q.fb
  else (g + q.fb + q.bias).toNat * 2 ^ q.fb + (m - 2 ^ q.fb)

/-- Encoding into a floating-point format (R48, Table 2-3). E2M1 is handled with its block (R46). -/
def encodeFloat (q : FloatSpec) (v : Val) (rz sat : Bool) : Enc :=
  let sgn (neg : Bool) : Nat := if neg then 2 ^ (q.eb + q.fb) else 0
  let infCode (neg : Bool) : Nat :=
    if q.hasInf then sgn neg + (2 ^ q.eb - 1) * 2 ^ q.fb
    else match q.nanCode with
      | some c => c
      | none => sgn neg + q.maxCode
  match v with
  | .psn => ⟨0, true, false⟩
  | .nan => ⟨q.nanCode.getD 0, false, false⟩
  | .inf neg => if sat then ⟨sgn neg + q.maxCode, false, false⟩ else ⟨infCode neg, false, false⟩
  | .fin neg m e =>
    if m == 0 then ⟨sgn neg, false, true⟩
    else
      let g := gridExp q m e
      let w := roundTo m e g rz
      if q.tooBig w g then
        (if sat || rz then ⟨sgn neg + q.maxCode, false, false⟩ else ⟨infCode neg, false, false⟩)
      else ⟨sgn neg + q.pack w g, false, true⟩

/-- The value rounded to an integer, with its sign. -/
def roundInt (neg : Bool) (m : Nat) (e : Int) (rz : Bool) : Int :=
  let w : Int := roundTo m e 0 rz
  if neg then -w else w

/-- Encoding into an integer format of n bits with range lo to hi (Table 2-3). -/
def encodeInt (n : Nat) (lo hi : Int) (v : Val) (rz sat : Bool) : Enc :=
  let code (i : Int) : Nat := (i % 2 ^ n).toNat
  match v with
  | .psn => ⟨0, true, false⟩
  | .nan => if sat then ⟨0, false, false⟩ else ⟨2 ^ (n - 1), false, false⟩
  | .inf neg => if sat then ⟨code (if neg then lo else hi), false, false⟩ else ⟨2 ^ (n - 1), false, false⟩
  | .fin neg m e =>
    let w := roundInt neg m e rz
    if w < lo || hi < w then
      (if sat then ⟨code (if neg then lo else hi), false, false⟩ else ⟨2 ^ (n - 1), false, false⟩)
    else ⟨code w, false, true⟩

/-- Encoding into a residue format (Table 2-3): poison is the canonical invalid code (R42). -/
def encodeRes (bad : Nat) (lo hi : Int) (res : Int → Nat) (v : Val) (rz sat : Bool) : Enc :=
  match v with
  | .psn => ⟨bad, false, false⟩
  | .nan => ⟨bad, false, false⟩
  | .inf neg => if sat then ⟨res (if neg then lo else hi), false, false⟩ else ⟨bad, false, false⟩
  | .fin neg m e =>
    let w := roundInt neg m e rz
    if w < lo || hi < w then
      (if sat then ⟨res (if neg then lo else hi), false, false⟩ else ⟨bad, false, false⟩)
    else ⟨res w, false, true⟩

/-- Encode (R48, R49): `.ef` rounds each element as `.rne`. (log 15) -/
def encodeVal (f : Fmt) (v : Val) (r : Rnd) (sat : Bool) : Enc :=
  let rz := r == .rz
  match f with
  | .f32 => encodeFloat fp32Spec v rz sat
  | .bf16 => encodeFloat bf16Spec v rz sat
  | .f16 => encodeFloat fp16Spec v rz sat
  | .e4m3 => encodeFloat e4m3Spec v rz sat
  | .e5m2 => encodeFloat e5m2Spec v rz sat
  | .e2m1 => encodeFloat e2m1Spec v rz sat
  | .rn8 => encodeRes 0xFF (-52) 52 res8 v rz sat
  | .rn16 => encodeRes 0xFFFF (-16368) 16367 res16 v rz sat
  | .i8 => encodeInt 8 (-128) 127 v rz sat
  | .i16 => encodeInt 16 (-32768) 32767 v rz sat
  | .i32 => encodeInt 32 (-2147483648) 2147483647 v rz sat

/-- Unsigned 32-bit destination of F2I.zx (06_float.md R144). -/
def encodeU32 (v : Val) (r : Rnd) (sat : Bool) : Enc := encodeInt 32 0 4294967295 v (r == .rz) sat

/-! Exact arithmetic (R132). -/

/-- Signed significand. -/
def sig (neg : Bool) (m : Nat) : Int := if neg then -(m : Int) else m

/-- Exact sum; an exact zero takes the sign of round-to-nearest (R132). -/
def Val.add (a b : Val) : Val :=
  match a, b with
  | .psn, _ => .psn
  | _, .psn => .psn
  | .nan, _ => .nan
  | _, .nan => .nan
  | .inf x, .inf y => if x == y then .inf x else .nan
  | .inf x, .fin _ _ _ => .inf x
  | .fin _ _ _, .inf y => .inf y
  | .fin n m e, .fin n' m' e' =>
    let g := min e e'
    let s := sig n m * 2 ^ (e - g).toNat + sig n' m' * 2 ^ (e' - g).toNat
    if s == 0 then .fin (m == 0 && m' == 0 && n && n') 0 g
    else .fin (s < 0) s.natAbs g

def Val.neg (a : Val) : Val :=
  match a with
  | .fin n m e => .fin (!n) m e
  | .inf n => .inf (!n)
  | v => v

def Val.sub (a b : Val) : Val := a.add b.neg

/-- Exact product; 0 times infinity is NaN (R135). -/
def Val.mul (a b : Val) : Val :=
  match a, b with
  | .psn, _ => .psn
  | _, .psn => .psn
  | .nan, _ => .nan
  | _, .nan => .nan
  | .inf x, .inf y => .inf (x != y)
  | .inf x, .fin n m _ => if m == 0 then .nan else .inf (x != n)
  | .fin n m _, .inf y => if m == 0 then .nan else .inf (n != y)
  | .fin n m e, .fin n' m' e' => .fin (n != n') (m * m') (e + e')

/-- Order of two numbers, infinities included; NaN and poison compare as none. -/
def Val.cmp (a b : Val) : Option Ordering :=
  match a, b with
  | .inf x, .inf y => some (if x == y then .eq else if x then .lt else .gt)
  | .inf x, .fin _ _ _ => some (if x then .lt else .gt)
  | .fin _ _ _, .inf y => some (if y then .gt else .lt)
  | .fin n m e, .fin n' m' e' =>
    let g := min e e'
    some (compare (sig n m * 2 ^ (e - g).toNat) (sig n' m' * 2 ^ (e' - g).toNat))
  | _, _ => none

def Val.isZero : Val → Bool
  | .fin _ m _ => m == 0
  | _ => false

def Val.isNan : Val → Bool
  | .nan => true
  | _ => false

def Val.isFinite : Val → Bool
  | .fin _ _ _ => true
  | _ => false

def Val.isNeg : Val → Bool
  | .fin n _ _ => n
  | .inf n => n
  | _ => false

/-- An FP32 word as a value. -/
def f32 (w : Word) : Val := decodeFloat fp32Spec w.toNat

/-- F32(v) (R132). -/
def toF32 (v : Val) : Word := BitVec.ofNat 32 (encodeFloat fp32Spec v false false).code

/-- BF(v) (R132). -/
def toBF (v : Val) : Nat := (encodeFloat bf16Spec v false false).code

/-- a is below b, taking −0 < +0, for numbers that are no NaN (R136). -/
def Val.below (a b : Val) : Bool :=
  match a.cmp b with
  | some .lt => true
  | some .eq => a.isZero && a.isNeg && !b.isNeg
  | _ => false

/-- FMIN and FMAX (R136) on codes: the selected operand is copied bit for bit. -/
def floatMinMax (q : FloatSpec) (mx : Bool) (a b : Nat) : Nat :=
  let va := decodeFloat q a
  let vb := decodeFloat q b
  if va.isNan && vb.isNan then q.nanCode.getD 0
  else if va.isNan then b
  else if vb.isNan then a
  else if mx then (if va.below vb then b else a)
  else (if vb.below va then b else a)

/-- Conditions of FSETP (R137). -/
def floatCond (c : FCond) (a b : Val) : Bool :=
  let o := a.cmp b
  match c with
  | .eq => o == some .eq
  | .lt => o == some .lt
  | .le => o == some .lt || o == some .eq
  | .gt => o == some .gt
  | .ge => o == some .gt || o == some .eq
  | .ne => o != some .eq
  | .num => o.isSome
  | .nan => o.isNone

/-! Error feedback (R52). -/

/-- The rounding mode that has effect in an unscaled conversion: into the source's own format nothing is rounded, and
INT32 would otherwise pass through the FP32 sums of `.ef` (R50, Table 8-2). The other exact conversions of R50 round
nothing under any mode, since FP32 holds their values. -/
def rndUsed (src dst : Fmt) (r : Rnd) : Rnd := if src == dst then .rne else r

/-- One element of a feedback block: residual in, code and residual out. -/
def efStep (f : Fmt) (sat : Bool) (e v : Val) : Enc × Val :=
  match v with
  | .fin _ _ _ =>
    let y := if v.isZero && e.isZero then v else f32 (toF32 (v.add e))
    let w := encodeVal f y .rne sat
    if w.exact then (w, f32 (toF32 (y.sub (decode f false w.code)))) else (w, .fin false 0 0)
  | v => (encodeVal f v .rne sat, .fin false 0 0)

/-- The elements of one feedback block, from residual e; the residual after them is the second component. -/
def efBlock (f : Fmt) (sat : Bool) : Val → List Val → List Enc × Val
  | e, [] => ([], e)
  | e, v :: vs =>
    let r := efStep f sat e v
    let t := efBlock f sat r.2 vs
    (r.1 :: t.1, t.2)

/-- The elements of one conversion: `.ef` carries the residual through them, other modes round each alone. -/
def encodeRun (f : Fmt) (r : Rnd) (sat : Bool) (vs : List Val) : List Enc :=
  match r with
  | .ef => (efBlock f sat (.fin false 0 0) vs).1
  | r => vs.map fun v => encodeVal f v r sat

/-! Block scales (R44 to R46). -/

/-- Emax of a scaled format (R46). -/
def scaleEmax : Fmt → Int
  | .e4m3 => 8
  | .e5m2 => 15
  | .e2m1 => 2
  | _ => 6

/-- Formats that may carry block scales (R44). -/
def Fmt.scalable : Fmt → Bool
  | .e4m3 | .e5m2 | .e2m1 | .i8 => true
  | _ => false

/-- Largest Floor(Log2 |v|) over the finite non-zero elements. -/
def blockLog (vs : List Val) : Option Int :=
  vs.foldl (fun a v => match v with
    | .fin _ m e => if m == 0 then a else
        match a with
        | none => some (floorLog2 m e)
        | some x => some (max x (floorLog2 m e))
    | _ => a) none

/-- The scale byte of a block (R46). -/
def blockScale (f : Fmt) (vs : List Val) : Nat :=
  if vs.any (· == .psn) || (vs.any Val.isNan && (f == .e2m1 || f == .i8)) then 255
  else match blockLog vs with
    | none => 127
    | some l => (max 0 (min 254 (l - scaleEmax f + 127))).toNat

/-- A block encoded with its scale byte: elements of a poisoned block are 0 (R46). (log 15) -/
def encodeBlock (f : Fmt) (r : Rnd) (vs : List Val) : Nat × List Enc :=
  let s := blockScale f vs
  if s == 255 then (255, vs.map fun _ => ⟨0, false, false⟩)
  else (s, encodeRun f r true (vs.map fun v => v.scale (127 - (s : Int))))

end Sys2Proof.Machine
end

