-- ==== Sys2Proof/Config.lean ====
section
/-! DEFINITION. What an implementation fixes, and the free values: constants without a body, of which nothing can
be proved (assumption log 2 and 3). -/

namespace Sys2Proof.Config

/-- Which of the actions that may happen next does happen: the order of agents that no rule orders
(spec 11_memory_model.md R271, 09_copy_command.md R226). The step applies it to a counter (log 2). -/
opaque freeChoice : Nat → Nat

/-- The bits a special function returns for an input, where the accuracy bound leaves them open
(06_float.md R140, R141): function number of Table 6-2, input word (log 3). -/
opaque sfu : Nat → BitVec 32 → BitVec 32

/-- A free 32-bit word, for data bits that the spec leaves open (17_faults.md R393; log 3). -/
opaque freeWord : Nat → BitVec 32

/-- The 64-bit marker of a stack's logic, redrawn at every reset (19_stack_logic.md R424): applied to the free
counter (log 3). -/
opaque marker : Nat → Nat

/-- The set of an L2 slice that a line of a stack falls in, which the spec does not give (19_stack_logic.md R418;
log 29). -/
opaque l2Set : Nat → Nat → Nat

/-- This package's identifier on its Fercy ports (20_link.md R446, Table 21-3; log 3). -/
opaque packageId : Nat

/-- Coolant inlet limit of a CT-4880's module, in °C (Table 21-3, R459; log 3). -/
opaque coolantLimit : Nat

/-- SM3 digest of a byte string (21_host_firmware.md R455; log 3). -/
opaque sm3 : List (BitVec 8) → List (BitVec 8)

/-- The parts of a firmware image, whose layout the spec does not give: its digest, security version, signature, and the
bytes that the digest covers (R455; log 3). -/
opaque fwDigest : List (BitVec 8) → List (BitVec 8)
opaque fwSvn : List (BitVec 8) → Nat
opaque fwSignature : List (BitVec 8) → List (BitVec 8)
opaque fwBody : List (BitVec 8) → List (BitVec 8)

/-- The firmware image that is stored in a die at a cold reset (R455, R457; log 3). -/
opaque storedImage : Nat → List (BitVec 8)

/-- SM3 digest of the boot ROM (R455; log 3). -/
opaque romDigest : List (BitVec 8)

/-- MSI-X vector that reports an error log at its threshold (17_faults.md R398; log 3). (log 49) -/
opaque errorVector : Nat

/-- Whether an SM2 signature verifies for a digest under the vendor key fused into a die (R455; log 3). -/
opaque sm2Verify : Nat → List (BitVec 8) → List (BitVec 8) → Bool

/-- The SM2 signature a die's identity key makes of a byte string (R455; log 3). -/
opaque sm2Sign : Nat → List (BitVec 8) → List (BitVec 8)

end Sys2Proof.Config
end

