-- ==== Sys2Proof/Decode.lean ====
section
/-! DEFINITION. Decoding of instruction words and packets, and the encoder (spec 03_encoding.md R54 to R75). Words
are natural numbers below 2^32; fields are read with division and remainder. -/

namespace Sys2Proof

/-- An instruction word with its common fields (Table 3-1). -/
structure Insn where
  chain : Bool
  sw : Bool
  guard : Pred
  op : Instr
  deriving DecidableEq, Repr

/-- Why a word or packet is illegal (R74). -/
inductive DecErr where
  /-- unassigned primary opcode, minor code, variant, condition, operation or command code (item 1) -/
  | unassigned
  /-- a reserved field or bit is non-zero (item 2) -/
  | reserved
  /-- a register group, format, format use or special register that no encoding allows (items 3, 10, 11) -/
  | operand
  /-- the last instruction word has C = 1 (item 4) -/
  | chain
  /-- a K word at word 2 (item 5) -/
  | literal
  /-- PPT outside word 0, or with C or G non-zero (item 6) -/
  | ppt
  /-- an issue unit breaks the pipe rules (item 7) -/
  | pipes
  /-- two control transfers (item 8) -/
  | control
  /-- a branch target that is no packet address (item 9) -/
  | target
  deriving DecidableEq, Repr

-- fields of the layouts (Table 3-2)
/-- D -/
def fD (w : Nat) : Fin 32 := Fin.ofNat 32 (w / 32768)
/-- AP -/
def fAP (w : Nat) : Fin 8 := Fin.ofNat 8 (w / 4096)
/-- AR -/
def fAR (w : Nat) : Fin 32 := Fin.ofNat 32 (w / 128)
/-- BP -/
def fBP (w : Nat) : Fin 4 := Fin.ofNat 4 (w / 32)
/-- BR -/
def fBR (w : Nat) : Fin 32 := Fin.ofNat 32 w
/-- the low four bits of D: PD, TILE of layout M, PD of R-c and R-p -/
def fD4 (w : Nat) : Fin 16 := Fin.ofNat 16 (w / 32768)
/-- PA: the low four bits of AR -/
def fA4 (w : Nat) : Fin 16 := Fin.ofNat 16 (w / 128)
/-- PB -/
def fB4 (w : Nat) : Fin 16 := Fin.ofNat 16 w
/-- the low three bits of D -/
def fD3 (w : Nat) : Fin 8 := Fin.ofNat 8 (w / 32768)
/-- the low two bits of D -/
def fD2 (w : Nat) : Fin 4 := Fin.ofNat 4 (w / 32768)
/-- V, FS of R-m's CNT excepted: bits 6 and 5 -/
def fV (w : Nat) : Nat := w / 32 % 4
/-- MINOR -/
def fMinor (w : Nat) : Nat := w / 8 % 16
/-- X -/
def fX (w : Nat) : Nat := w % 8
/-- a bit -/
def fBit (w k : Nat) : Bool := w / 2 ^ k % 2 == 1

def rdR (w : Nat) : OpR := ⟨fD w, fAP w, fAR w, fBP w, fBR w⟩
def rdV (w : Nat) : OpV := ⟨fD w, fAP w, fAR w, fBR w⟩
def rdC (w : Nat) : OpC := ⟨fD4 w, fAR w, fBP w, fBR w⟩
def rdP (w : Nat) : OpP := ⟨fD4 w, fA4 w, fB4 w⟩
def rdM (w : Nat) : OpM := ⟨fD w, fAP w, fAR w⟩
def rdA (w : Nat) : OpA := ⟨fAP w, fAR w⟩
def rdIS (w : Nat) : OpIS := ⟨fD w, fAP w, fAR w, Fin.ofNat 128 w⟩
def rdSh (w : Nat) : OpSh := ⟨fD w, fAP w, fAR w, fBR w⟩
def rdQ (w : Nat) : OpQ := ⟨Fin.ofNat 4 (w / 128), fBR w⟩
def rdT (w : Nat) : OpT := ⟨Fin.ofNat 16 (w / 65536), Fin.ofNat 4 (w / 4096), fAR w, fBR w⟩

/-- The rounding field (R51). -/
def rdRnd : Nat → Option Rnd
  | 0 => some .rne
  | 1 => some .ef
  | 2 => some .rz
  | _ => none

/-- Format codes (Table 2-1). -/
def rdFmt : Nat → Option Fmt
  | 0 => some .f32
  | 1 => some .bf16
  | 2 => some .f16
  | 3 => some .e4m3
  | 4 => some .e5m2
  | 5 => some .e2m1
  | 6 => some .rn8
  | 7 => some .rn16
  | 8 => some .i8
  | 9 => some .i16
  | 10 => some .i32
  | _ => none

def rdMem (w : Nat) : Option OpMem := do
  let r ← rdRnd (w / 8192 % 4)
  let f ← rdFmt (w / 8 % 16)
  some ⟨fD w, r, fBit w 12, fAR w, f, Fin.ofNat 4 (w / 2), fBit w 0⟩

def rdCvt (w : Nat) : Option OpCvt := do
  let r ← rdRnd (w % 4)
  some ⟨fD w, fAP w, fAR w, fBit w 2, r⟩

def rdAst (w : Nat) : Option OpAst := do
  let r ← rdRnd (w % 4)
  some ⟨fD4 w, fAR w, fBit w 2, r⟩

def rdAtomOp : Nat → Option AtomOp
  | 0 => some .add
  | 1 => some .exch
  | 2 => some .min
  | 3 => some .max
  | 4 => some .and
  | 5 => some .or
  | 6 => some .xor
  | _ => none

def rdAtomTy : Nat → AtomTy
  | 0 => .i32
  | 1 => .u32
  | 2 => .f32
  | _ => .i64

def rdCasTy : Nat → Option CasTy
  | 0 => some .b32
  | 1 => some .b64
  | 2 => some .b128
  | _ => none

def rdAtom (w : Nat) : Option OpAtom := do
  let op ← rdAtomOp (w / 4096 % 8)
  some ⟨fD w, op, fAR w, rdAtomTy (fV w), fBR w⟩

def rdCas (w : Nat) : Option OpCas := do
  let ty ← rdCasTy (fV w)
  some ⟨fD w, fAR w, ty, fBR w⟩

def rdICond : Nat → Option ICond
  | 0 => some .eq
  | 1 => some .ne
  | 2 => some .lt
  | 3 => some .le
  | 4 => some .gt
  | 5 => some .ge
  | _ => none

def rdFCond : Nat → FCond
  | 0 => .eq
  | 1 => .ne
  | 2 => .lt
  | 3 => .le
  | 4 => .gt
  | 5 => .ge
  | 6 => .num
  | _ => .nan

def rdSign (b : Bool) : Sign := if b then .zx else .sx

def rdScope : Nat → Option Scope
  | 0 => some .thread
  | 1 => some .group
  | 2 => some .team
  | 3 => some .cluster
  | 4 => some .die
  | 5 => some .device
  | 6 => some .system
  | _ => none

def rdFenceKind : Nat → FenceKind
  | 0 => .acq
  | 1 => .rel
  | 2 => .ar
  | _ => .sc

def rdRedux : Nat → ReduxOp
  | 0 => .add
  | 1 => .minSx
  | 2 => .maxSx
  | 3 => .minZx
  | 4 => .maxZx
  | 5 => .and
  | 6 => .or
  | _ => .xor

def rdFRedux : Nat → Option FReduxOp
  | 0 => some .add
  | 1 => some .min
  | 2 => some .max
  | _ => none

def rdScanOp : Nat → ScanOp
  | 0 => .add
  | 1 => .fadd
  | 2 => .maxSx
  | _ => .minSx

def rdVote : Nat → Option VoteOp
  | 0 => some .all
  | 1 => some .any
  | 2 => some .uni
  | _ => none

def rdReflSize : Nat → ReflSize
  | 0 => .sz8
  | 1 => .sz16
  | 2 => .sz32
  | _ => .sz64

def rdRndInt : Nat → Option RndInt
  | 0 => some .rne
  | 1 => some .rz
  | 2 => some .rm
  | 3 => some .rp
  | _ => none

/-- Integer unary group, opcode 0x16 (Table 3-8). -/
def rdIntUnary (w : Nat) : Option Instr :=
  match fMinor w with
  | 0 => some (.mov (rdM w))
  | 1 => some (.iabs (rdM w))
  | 2 => some (.ineg (rdM w))
  | 3 => some (.popc (rdM w))
  | 4 => some (.clz (rdM w))
  | 5 => some (.ctz (rdM w))
  | 6 => some (.brev (rdM w))
  | 7 => some (.pget (fD w))
  | 8 => some (.pset (rdA w))
  | 9 => match fX w with
    | 0 => some (.winImm (fD4 w))
    | 1 => some (.winReg (rdA w))
    | _ => none
  | 10 => some (.ptn (fD3 w) (rdA w))
  | 11 => some (.qbind (fD2 w) (rdA w))
  | _ => none

/-- Float unary group, opcode 0x24 (Table 6-2). -/
def rdFloatUnary (w : Nat) : Option Instr :=
  match fMinor w with
  | 0 => some (.fabs (rdM w))
  | 1 => some (.fneg (rdM w))
  | 2 => some (.fclass (rdM w))
  | 3 => (rdRndInt (fX w)).map fun r => .frnd r (rdM w)
  | 4 => some (.frcp (rdM w))
  | 5 => some (.frsq (rdM w))
  | 6 => some (.fsqrt (rdM w))
  | 7 => some (.fexp2 (rdM w))
  | 8 => some (.flog2 (rdM w))
  | 9 => some (.fsin (rdM w))
  | 10 => some (.fcos (rdM w))
  | 11 => some (.ftanh (rdM w))
  | _ => none

/-- Conversion group, opcode 0x25 (Table 6-7). -/
def rdConversion (w : Nat) : Option Instr :=
  match fMinor w with
  | 0 => (rdCvt w).map (.f2i .sx ·)
  | 1 => (rdCvt w).map (.f2i .zx ·)
  | 2 => (rdCvt w).map (.i2f .sx ·)
  | 3 => (rdCvt w).map (.i2f .zx ·)
  | 4 => (rdCvt w).map .fcvtBf16F32
  | 5 => (rdCvt w).map .fcvtF32Bf16
  | 6 => (rdCvt w).map .fcvtF16F32
  | 7 => (rdCvt w).map .fcvtE4m3F32
  | 8 => (rdCvt w).map .fcvtE5m2F32
  | 9 => (rdCvt w).map .funpack
  | _ => none

/-- Cross-lane group, opcode 0x26 (Table 6-8). -/
def rdCrossLane (w : Nat) : Option Instr :=
  match fMinor w with
  | 0 => match rdVote (fX w) with
    | some x => some (.vote x (fD4 w) (fA4 w))
    | none => if fX w == 3 then some (.voteBallot (fD w) (fA4 w)) else none
  | 1 => some (.redux (rdRedux (fX w)) (rdM w))
  | 2 => (rdFRedux (fX w)).map fun x => .fredux x (rdM w)
  | 3 => some (.scan (fBit w 2) (rdScanOp (w % 4)) (rdM w))
  | 4 => some (.matchLanes (rdM w))
  | _ => none

/-- Command post, opcode 0x34 (Table 3-9). -/
def rdCommand (w : Nat) : Option Instr :=
  match w / 4096 % 256 with
  | 1 => some (.copy (rdQ w))
  | 2 => some (.copyl (rdQ w))
  | 3 => some (.gath (rdQ w))
  | 4 => some (.scat (rdQ w))
  | 5 => some (.bgath (rdQ w))
  | 6 => some (.bscat (rdQ w))
  | 7 => some (.mcast (rdQ w))
  | 8 => some (.cfence (rdQ w))
  | 9 => some (.atomc (rdQ w))
  | 10 => some (.redc (rdQ w))
  | 11 => some (.fill (rdQ w))
  | 12 => some (.waitc (rdQ w))
  | 13 => some (.signal (rdQ w))
  | 14 => some (.txload (rdQ w))
  | 15 => some (.txrun (rdQ w))
  | 16 => some (.pref (rdQ w))
  | _ => none

/-- Matrix group, opcode 0x37 (Table 12-5). -/
def rdMatrix (w : Nat) : Option Instr :=
  match fMinor w with
  | 0 => some (.agive (fD4 w) (fBit w 0) (rdA w))
  | 1 => some (.atake (fD4 w) (fBit w 0))
  | 2 => some (.azero (fD4 w) (rdA w))
  | 3 => some (.mfmt (fD3 w) (rdA w))
  | 4 => some (.msld (rdM w))
  | 5 => (rdAst w).map .asts
  | 6 => (rdAst w).map .astc
  | 7 => some (.ainfo (fD w) (fA4 w))
  | _ => none

/-- Control group, opcode 0x3A (Table 7-4). -/
def rdControl (w : Nat) : Option Instr :=
  match fMinor w with
  | 0 => some .nop
  | 1 => some (.brx (rdA w))
  | 2 => some (.ret (rdA w))
  | 3 => some (.join (fAR w))
  | 4 => some .exit
  | 5 => some (.trap (fD w))
  | 6 => some (.sleep (rdA w))
  | _ => none

/-- Synchronisation group, opcode 0x3C (Tables 10-1, R274, R276). -/
def rdSync (w : Nat) : Option Instr :=
  match fMinor w with
  | 0 => (rdScope (w / 131072 % 8)).map fun sc => .fence (rdFenceKind (w / 32768 % 4)) sc
  | 1 => (rdScope (w / 4096 % 8)).map fun sc => .tlwait (fD w) sc (Fin.ofNat 4 w)
  | 2 => some (.bar (fD4 w))
  | 3 => some (.barc (fD2 w))
  | 4 => some (.boinit (rdM w))
  | 5 => some (.boarr (fBit w 0) (rdM w))
  | 6 => some (.bowait (rdM w))
  | 7 => some (.botest (fBit w 0) (rdM w))
  | 8 => some (.rainit (rdM w))
  | 9 => if fBit w 0 then some (.rawaitFree (rdM w)) else some (.rawait (rdM w))
  | 10 => some (.rarel (rdA w))
  | 11 => some (.wpwait (fD w) (Fin.ofNat 4 w))
  | _ => none

/-- Object group, opcode 0x3D (Tables 13-3, 14-5). -/
def rdObject (w : Nat) : Option Instr :=
  match fMinor w with
  | 0 => some (.refl (fD4 w) (fAR w) (rdReflSize (w % 4)))
  | 1 => some (.unrefl (rdA w))
  | 2 => some (.rseq (fBit w 0) (rdM w))
  | 3 => some (.rack (rdM w))
  | 4 => some (.tkget (fBit w 0) (fD w))
  | 5 => some (.tkput (fAR w))
  | 6 => some (.tkdone (fAR w))
  | _ => none

/-- System group, opcode 0x3E (Tables 15-2, 16-5, 17-4). -/
def rdSystem (w : Nat) : Option Instr :=
  match fMinor w with
  | 0 => some (.dcset (fAR w))
  | 1 => some (.dcdec (rdA w))
  | 2 => some (.launch (rdM w))
  | 3 => some (.gcond (fD3 w) (rdA w))
  | 4 => some (.lend (rdA w))
  | 5 => some (.recall (fD w))
  | 6 => some (.srd (fD w) (fAR w))
  | 7 => some (.swr (fD w) (rdA w))
  | 8 => some (.tres (rdA w))
  | 9 => some (.tkill (fBit w 0))
  | 10 => if fBit w 0 then some (.pchkPred (fD4 w) (fA4 w)) else some (.pchkReg (fD4 w) (rdA w))
  | 11 => if fBit w 0 then some (.pclrPred (fD4 w) (fA4 w)) else some (.pclrReg (rdM w))
  | _ => none

/-- Two-variant and four-variant opcodes (Table 3-5). -/
def rdVariant (v : Nat) (a b c d : Option Instr) : Option Instr :=
  match v with
  | 0 => a
  | 1 => b
  | 2 => c
  | _ => d

/-- The instruction that the fields of word w name; x1 and x2 are the words after it, which are its literal or its
bitmap words where it has any. Reserved fields are not looked at here. -/
def rawOp (w x1 x2 : Nat) : Option Instr :=
  match w / 1048576 % 64 with
  | 0x01 => some (.iadd (rdR w))
  | 0x02 => some (.isub (rdR w))
  | 0x03 => some (.iaddc (rdR w))
  | 0x04 => rdVariant (fV w) (some (.imul (rdV w))) none (some (.imulh .sx (rdV w))) (some (.imulh .zx (rdV w)))
  | 0x05 => rdVariant (fV w) (some (.imad (rdV w))) none (some (.imadw .sx (rdV w))) (some (.imadw .zx (rdV w)))
  | 0x06 => rdVariant (fV w) (some (.iadd64 (rdV w))) (some (.isub64 (rdV w))) none none
  | 0x07 => rdVariant (fV w) (some (.shl64 (rdV w))) none (some (.shr64 .zx (rdV w))) (some (.shr64 .sx (rdV w)))
  | 0x08 => rdVariant (fV w) (some (.lea .x1 (rdV w))) (some (.lea .x2 (rdV w)))
      (some (.lea .x4 (rdV w))) (some (.lea .x8 (rdV w)))
  | 0x09 => rdVariant (fV w) (some (.imin .sx (rdV w))) (some (.imin .zx (rdV w)))
      (some (.imax .sx (rdV w))) (some (.imax .zx (rdV w)))
  | 0x0A => rdVariant (fV w) (some (.and (rdV w))) (some (.or (rdV w))) (some (.xor (rdV w))) (some (.andn (rdV w)))
  | 0x0B => some (.orn (rdR w))
  | 0x0C => rdVariant (fV w) (some (.shl (rdV w))) (some (.shr (rdV w))) (some (.sar (rdV w))) (some (.rotl (rdV w)))
  | 0x0D => rdVariant (fV w) (some (.bfx .sx (rdV w))) (some (.bfx .zx (rdV w))) (some (.bfi (rdV w))) none
  | 0x0E => some (.prmt (rdR w))
  | 0x0F => (rdICond (w / 4096 % 8)).map fun c => .isetp (rdSign (fBit w 19)) c (rdC w)
  | 0x10 => some (.sel (rdR w))
  | 0x11 => rdVariant (fV w) (some (.pand (rdP w))) (some (.por (rdP w))) (some (.pxor (rdP w)))
      (some (.pnot (fD4 w) (fA4 w)))
  | 0x12 => some (.iaddImm (rdIS w))
  | 0x13 => rdVariant (fV w) (some (.shlImm (rdSh w))) (some (.shrImm (rdSh w))) (some (.sarImm (rdSh w)))
      (some (.rotlImm (rdSh w)))
  | 0x14 => some (.movi (fD w) (Fin.ofNat 32768 w))
  | 0x15 => if fMinor w == 0 then some (.movl (fD w) (BitVec.ofNat 32 x1)) else none
  | 0x16 => rdIntUnary w
  | 0x18 => some (.fadd (rdR w))
  | 0x19 => some (.fsub (rdR w))
  | 0x1A => some (.fmul (rdR w))
  | 0x1B => some (.ffma (rdR w))
  | 0x1C => some (.ffms (rdR w))
  | 0x1D => rdVariant (fV w) (some (.fmin (rdV w))) (some (.fmax (rdV w))) (some (.bmin2 (rdV w)))
      (some (.bmax2 (rdV w)))
  | 0x1E => some (.fsetp (rdFCond (w / 4096 % 8)) (rdC w))
  | 0x1F => some (.badd2 (rdR w))
  | 0x20 => some (.bmul2 (rdR w))
  | 0x21 => some (.bfma2 (rdR w))
  | 0x22 => (rdRnd (fV w)).map fun r => .fpack r (rdV w)
  | 0x23 => rdVariant (fV w) (some (.shfl .idx (rdV w))) (some (.shfl .up (rdV w))) (some (.shfl .down (rdV w)))
      (some (.shfl .xor (rdV w)))
  | 0x24 => rdFloatUnary w
  | 0x25 => rdConversion w
  | 0x26 => rdCrossLane w
  | 0x28 => (rdMem w).map .lds
  | 0x29 => (rdMem w).map .sts
  | 0x2A => (rdMem w).map .ldx
  | 0x2B => (rdMem w).map .stx
  | 0x2C => (rdMem w).map .ldt
  | 0x2D => (rdMem w).map .stt
  | 0x2E => (rdMem w).map .ldr
  | 0x2F => (rdMem w).map .str
  | 0x30 => (rdAtom w).map .atoms
  | 0x31 => (rdCas w).map .cass
  | 0x32 => (rdAtom w).map .atomx
  | 0x33 => (rdCas w).map .casx
  | 0x34 => rdCommand w
  | 0x35 => match fV w with
    | 0 => if fBit w 15 then some (.mmaSig false (rdT w) (Fin.ofNat 256 x1)) else some (.mmaK16 (rdT w))
    | 1 => if fBit w 15 then some (.mmaSig true (rdT w) (Fin.ofNat 256 x1)) else some (.mmaK8 (rdT w))
    | _ => none
  | 0x36 => if fV w == 2 then
      (if fBit w 15 then some (.mmasSig (rdT w) (Fin.ofNat 256 x1)) else some (.mmas (rdT w))) else none
  | 0x37 => rdMatrix w
  | 0x38 => some (.bra (Fin.ofNat 32768 w))
  | 0x39 => some (.call (fD w) (Fin.ofNat 32768 w))
  | 0x3A => rdControl w
  | 0x3B => some (.ppt (Fin.ofNat 16 (w / 65536)) (fBit w 15) (Fin.ofNat 268435456 x1) (BitVec.ofNat 32 x2))
  | 0x3C => rdSync w
  | 0x3D => rdObject w
  | 0x3E => rdSystem w
  | _ => none

/-! The encoder. -/

def Rnd.code : Rnd → Nat
  | .rne => 0
  | .ef => 1
  | .rz => 2
def RndInt.code : RndInt → Nat
  | .rne => 0
  | .rz => 1
  | .rm => 2
  | .rp => 3
def Fmt.code : Fmt → Nat
  | .f32 => 0
  | .bf16 => 1
  | .f16 => 2
  | .e4m3 => 3
  | .e5m2 => 4
  | .e2m1 => 5
  | .rn8 => 6
  | .rn16 => 7
  | .i8 => 8
  | .i16 => 9
  | .i32 => 10
def ICond.code : ICond → Nat
  | .eq => 0
  | .ne => 1
  | .lt => 2
  | .le => 3
  | .gt => 4
  | .ge => 5
def FCond.code : FCond → Nat
  | .eq => 0
  | .ne => 1
  | .lt => 2
  | .le => 3
  | .gt => 4
  | .ge => 5
  | .num => 6
  | .nan => 7
def Scale.code : Scale → Nat
  | .x1 => 0
  | .x2 => 1
  | .x4 => 2
  | .x8 => 3
def ShflMode.code : ShflMode → Nat
  | .idx => 0
  | .up => 1
  | .down => 2
  | .xor => 3
def VoteOp.code : VoteOp → Nat
  | .all => 0
  | .any => 1
  | .uni => 2
def ReduxOp.code : ReduxOp → Nat
  | .add => 0
  | .minSx => 1
  | .maxSx => 2
  | .minZx => 3
  | .maxZx => 4
  | .and => 5
  | .or => 6
  | .xor => 7
def FReduxOp.code : FReduxOp → Nat
  | .add => 0
  | .min => 1
  | .max => 2
def ScanOp.code : ScanOp → Nat
  | .add => 0
  | .fadd => 1
  | .maxSx => 2
  | .minSx => 3
def AtomOp.code : AtomOp → Nat
  | .add => 0
  | .exch => 1
  | .min => 2
  | .max => 3
  | .and => 4
  | .or => 5
  | .xor => 6
def AtomTy.code : AtomTy → Nat
  | .i32 => 0
  | .u32 => 1
  | .f32 => 2
  | .i64 => 3
def CasTy.code : CasTy → Nat
  | .b32 => 0
  | .b64 => 1
  | .b128 => 2
def Scope.code : Scope → Nat
  | .thread => 0
  | .group => 1
  | .team => 2
  | .cluster => 3
  | .die => 4
  | .device => 5
  | .system => 6
def FenceKind.code : FenceKind → Nat
  | .acq => 0
  | .rel => 1
  | .ar => 2
  | .sc => 3
def ReflSize.code : ReflSize → Nat
  | .sz8 => 0
  | .sz16 => 1
  | .sz32 => 2
  | .sz64 => 3
def Sign.code : Sign → Nat
  | .sx => 0
  | .zx => 1

/-- Opcode and the fields of layout R. -/
def enR (op : Nat) (o : OpR) : Nat :=
  op * 1048576 + o.d.val * 32768 + o.ap.val * 4096 + o.ar.val * 128 + o.bp.val * 32 + o.br.val
def enV (op v : Nat) (o : OpV) : Nat :=
  op * 1048576 + o.d.val * 32768 + o.ap.val * 4096 + o.ar.val * 128 + v * 32 + o.br.val
def enC (op z c : Nat) (o : OpC) : Nat :=
  op * 1048576 + z * 524288 + o.pd.val * 32768 + c * 4096 + o.ar.val * 128 + o.bp.val * 32 + o.br.val
def enP (v : Nat) (pd pa pb : Pred) : Nat :=
  0x11 * 1048576 + pd.val * 32768 + pa.val * 128 + v * 32 + pb.val
/-- Layout M with every field as a number. -/
def enM (op minor x d ap ar : Nat) : Nat :=
  op * 1048576 + d * 32768 + ap * 4096 + ar * 128 + minor * 8 + x
def enOpM (op minor x : Nat) (o : OpM) : Nat := enM op minor x o.d.val o.ap.val o.ar.val
def enA (op minor x d : Nat) (o : OpA) : Nat := enM op minor x d o.ap.val o.ar.val
def enCvt (minor : Nat) (o : OpCvt) : Nat :=
  enM 0x25 minor (o.sat.toNat * 4 + o.rnd.code) o.d.val o.ap.val o.ar.val
def enMem (op : Nat) (o : OpMem) : Nat :=
  op * 1048576 + o.d.val * 32768 + o.rnd.code * 8192 + o.bit12.toNat * 4096 + o.ar.val * 128 + o.fmt.code * 8 +
    o.cnt.val * 2 + o.e.toNat
def enAtom (op : Nat) (o : OpAtom) : Nat :=
  op * 1048576 + o.d.val * 32768 + o.op.code * 4096 + o.ar.val * 128 + o.ty.code * 32 + o.br.val
def enCas (op : Nat) (o : OpCas) : Nat :=
  op * 1048576 + o.d.val * 32768 + o.ar.val * 128 + o.ty.code * 32 + o.br.val
def enQ (cmd nw : Nat) (o : OpQ) : Nat :=
  0x34 * 1048576 + cmd * 4096 + nw * 512 + o.q.val * 128 + o.ar.val
def enT (op sig shape : Nat) (o : OpT) : Nat :=
  op * 1048576 + o.t.val * 65536 + sig * 32768 + o.fs.val * 4096 + o.ar.val * 128 + shape * 32 + o.br.val
def enSh (v : Nat) (o : OpSh) : Nat :=
  0x13 * 1048576 + o.d.val * 32768 + o.ap.val * 4096 + o.ar.val * 128 + v * 32 + o.n.val
def enAst (minor : Nat) (o : OpAst) : Nat :=
  enM 0x37 minor (o.sat.toNat * 4 + o.rnd.code) o.t.val 0 o.ar.val

/-- Bits 25 to 0 of an instruction's first word; 0, an unassigned opcode, for events, which have no encoding. -/
def Instr.bits : Instr → Nat
  | .iadd o => enR 0x01 o
  | .iaddImm o => 0x12 * 1048576 + o.d.val * 32768 + o.ap.val * 4096 + o.ar.val * 128 + o.imm.val
  | .isub o => enR 0x02 o
  | .iaddc o => enR 0x03 o
  | .imul o => enV 0x04 0 o
  | .imulh z o => enV 0x04 (2 + z.code) o
  | .imad o => enV 0x05 0 o
  | .imadw z o => enV 0x05 (2 + z.code) o
  | .iadd64 o => enV 0x06 0 o
  | .isub64 o => enV 0x06 1 o
  | .shl64 o => enV 0x07 0 o
  | .shr64 z o => enV 0x07 (3 - z.code) o
  | .lea v o => enV 0x08 v.code o
  | .imin z o => enV 0x09 z.code o
  | .imax z o => enV 0x09 (2 + z.code) o
  | .and o => enV 0x0A 0 o
  | .or o => enV 0x0A 1 o
  | .xor o => enV 0x0A 2 o
  | .andn o => enV 0x0A 3 o
  | .orn o => enR 0x0B o
  | .shl o => enV 0x0C 0 o
  | .shr o => enV 0x0C 1 o
  | .sar o => enV 0x0C 2 o
  | .rotl o => enV 0x0C 3 o
  | .shlImm o => enSh 0 o
  | .shrImm o => enSh 1 o
  | .sarImm o => enSh 2 o
  | .rotlImm o => enSh 3 o
  | .bfx z o => enV 0x0D z.code o
  | .bfi o => enV 0x0D 2 o
  | .popc o => enOpM 0x16 3 0 o
  | .clz o => enOpM 0x16 4 0 o
  | .ctz o => enOpM 0x16 5 0 o
  | .brev o => enOpM 0x16 6 0 o
  | .prmt o => enR 0x0E o
  | .isetp z c o => enC 0x0F z.code c.code o
  | .sel o => enR 0x10 o
  | .iabs o => enOpM 0x16 1 0 o
  | .ineg o => enOpM 0x16 2 0 o
  | .mov o => enOpM 0x16 0 0 o
  | .movi d imm => 0x14 * 1048576 + d.val * 32768 + imm.val
  | .movl d _ => enM 0x15 0 0 d.val 0 0
  | .pand o => enP 0 o.pd o.pa o.pb
  | .por o => enP 1 o.pd o.pa o.pb
  | .pxor o => enP 2 o.pd o.pa o.pb
  | .pnot pd pa => enP 3 pd pa 0
  | .pget d => enM 0x16 7 0 d.val 0 0
  | .pset o => enA 0x16 8 0 0 o
  | .winImm n => enM 0x16 9 0 n.val 0 0
  | .winReg o => enA 0x16 9 1 0 o
  | .ptn e o => enA 0x16 10 0 e.val o
  | .qbind n o => enA 0x16 11 0 n.val o
  | .fadd o => enR 0x18 o
  | .fsub o => enR 0x19 o
  | .fmul o => enR 0x1A o
  | .ffma o => enR 0x1B o
  | .ffms o => enR 0x1C o
  | .fmin o => enV 0x1D 0 o
  | .fmax o => enV 0x1D 1 o
  | .bmin2 o => enV 0x1D 2 o
  | .bmax2 o => enV 0x1D 3 o
  | .fsetp c o => enC 0x1E 0 c.code o
  | .badd2 o => enR 0x1F o
  | .bmul2 o => enR 0x20 o
  | .bfma2 o => enR 0x21 o
  | .fpack r o => enV 0x22 r.code o
  | .shfl m o => enV 0x23 m.code o
  | .fabs o => enOpM 0x24 0 0 o
  | .fneg o => enOpM 0x24 1 0 o
  | .fclass o => enOpM 0x24 2 0 o
  | .frnd r o => enOpM 0x24 3 r.code o
  | .frcp o => enOpM 0x24 4 0 o
  | .frsq o => enOpM 0x24 5 0 o
  | .fsqrt o => enOpM 0x24 6 0 o
  | .fexp2 o => enOpM 0x24 7 0 o
  | .flog2 o => enOpM 0x24 8 0 o
  | .fsin o => enOpM 0x24 9 0 o
  | .fcos o => enOpM 0x24 10 0 o
  | .ftanh o => enOpM 0x24 11 0 o
  | .f2i z o => enCvt z.code o
  | .i2f z o => enCvt (2 + z.code) o
  | .fcvtBf16F32 o => enCvt 4 o
  | .fcvtF32Bf16 o => enCvt 5 o
  | .fcvtF16F32 o => enCvt 6 o
  | .fcvtE4m3F32 o => enCvt 7 o
  | .fcvtE5m2F32 o => enCvt 8 o
  | .funpack o => enCvt 9 o
  | .vote x pd pa => enM 0x26 0 x.code pd.val 0 pa.val
  | .voteBallot d pa => enM 0x26 0 3 d.val 0 pa.val
  | .redux x o => enOpM 0x26 1 x.code o
  | .fredux x o => enOpM 0x26 2 x.code o
  | .scan e x o => enOpM 0x26 3 (e.toNat * 4 + x.code) o
  | .matchLanes o => enOpM 0x26 4 0 o
  | .lds o => enMem 0x28 o
  | .sts o => enMem 0x29 o
  | .ldx o => enMem 0x2A o
  | .stx o => enMem 0x2B o
  | .ldt o => enMem 0x2C o
  | .stt o => enMem 0x2D o
  | .ldr o => enMem 0x2E o
  | .str o => enMem 0x2F o
  | .atoms o => enAtom 0x30 o
  | .cass o => enCas 0x31 o
  | .atomx o => enAtom 0x32 o
  | .casx o => enCas 0x33 o
  | .copy o => enQ 0x01 6 o
  | .copyl o => enQ 0x02 7 o
  | .gath o => enQ 0x03 7 o
  | .scat o => enQ 0x04 7 o
  | .bgath o => enQ 0x05 7 o
  | .bscat o => enQ 0x06 7 o
  | .mcast o => enQ 0x07 6 o
  | .cfence o => enQ 0x08 0 o
  | .atomc o => enQ 0x09 5 o
  | .redc o => enQ 0x0A 6 o
  | .fill o => enQ 0x0B 5 o
  | .waitc o => enQ 0x0C 2 o
  | .signal o => enQ 0x0D 3 o
  | .txload o => enQ 0x0E 4 o
  | .txrun o => enQ 0x0F 7 o
  | .pref o => enQ 0x10 3 o
  | .mmaK16 o => enT 0x35 0 0 o
  | .mmaK8 o => enT 0x35 0 1 o
  | .mmas o => enT 0x36 0 2 o
  | .mmaSig k8 o _ => enT 0x35 1 k8.toNat o
  | .mmasSig o _ => enT 0x36 1 2 o
  | .agive t x o => enA 0x37 0 x.toNat t.val o
  | .atake t x => enM 0x37 1 x.toNat t.val 0 0
  | .azero t o => enA 0x37 2 0 t.val o
  | .mfmt n o => enA 0x37 3 0 n.val o
  | .msld o => enOpM 0x37 4 0 o
  | .asts o => enAst 5 o
  | .astc o => enAst 6 o
  | .ainfo d t => enM 0x37 7 0 d.val 0 t.val
  | .bra imm => 0x38 * 1048576 + imm.val
  | .call d imm => 0x39 * 1048576 + d.val * 32768 + imm.val
  | .nop => enM 0x3A 0 0 0 0 0
  | .brx o => enA 0x3A 1 0 0 o
  | .ret o => enA 0x3A 2 0 0 o
  | .join ar => enM 0x3A 3 0 0 0 ar.val
  | .exit => enM 0x3A 4 0 0 0 0
  | .trap n => enM 0x3A 5 0 n.val 0 0
  | .sleep o => enA 0x3A 6 0 0 o
  | .ppt offs more _ _ => 0x3B * 1048576 + offs.val * 65536 + more.toNat * 32768
  | .fence k sc => enM 0x3C 0 0 (sc.code * 4 + k.code) 0 0
  | .tlwait d sc e => enM 0x3C 1 e.val d.val sc.code 0
  | .bar n => enM 0x3C 2 0 n.val 0 0
  | .barc n => enM 0x3C 3 0 n.val 0 0
  | .boinit o => enOpM 0x3C 4 0 o
  | .boarr x o => enOpM 0x3C 5 x.toNat o
  | .bowait o => enOpM 0x3C 6 0 o
  | .botest x o => enOpM 0x3C 7 x.toNat o
  | .rainit o => enOpM 0x3C 8 0 o
  | .rawait o => enOpM 0x3C 9 0 o
  | .rawaitFree o => enOpM 0x3C 9 1 o
  | .rarel o => enA 0x3C 10 0 0 o
  | .wpwait d ch => enM 0x3C 11 ch.val d.val 0 0
  | .refl pd ar z => enM 0x3D 0 z.code pd.val 0 ar.val
  | .unrefl o => enA 0x3D 1 0 0 o
  | .rseq x o => enOpM 0x3D 2 x.toNat o
  | .rack o => enOpM 0x3D 3 0 o
  | .tkget t d => enM 0x3D 4 t.toNat d.val 0 0
  | .tkput ar => enM 0x3D 5 0 0 0 ar.val
  | .tkdone ar => enM 0x3D 6 0 0 0 ar.val
  | .dcset ar => enM 0x3E 0 0 0 0 ar.val
  | .dcdec o => enA 0x3E 1 0 0 o
  | .launch o => enOpM 0x3E 2 0 o
  | .gcond n o => enA 0x3E 3 0 n.val o
  | .lend o => enA 0x3E 4 0 0 o
  | .recall d => enM 0x3E 5 0 d.val 0 0
  | .srd d sr => enM 0x3E 6 0 d.val 0 sr.val
  | .swr sr o => enA 0x3E 7 0 sr.val o
  | .tres o => enA 0x3E 8 0 0 o
  | .tkill t => enM 0x3E 9 t.toNat 0 0 0
  | .pchkReg pd o => enA 0x3E 10 0 pd.val o
  | .pchkPred pd pa => enM 0x3E 10 1 pd.val 0 pa.val
  | .pclrReg o => enOpM 0x3E 11 0 o
  | .pclrPred pd pa => enM 0x3E 11 1 pd.val 0 pa.val
  | _ => 0

/-- The words after the first: the literal of a K word (R61), the bitmaps of PPT (R62). -/
def Instr.tailWords : Instr → List Nat
  | .movl _ lit => [lit.toNat]
  | .mmaSig _ _ dep => [dep.val]
  | .mmasSig _ dep => [dep.val]
  | .ppt _ _ live g => [live.val, g.toNat]
  | _ => []

/-- Whether the instruction has an encoding: every row of the opcode table but the events. -/
def Instr.encoded (i : Instr) : Bool := i.bits != 0

/-- The word that carries C, S, G and the instruction's own bits (R54). -/
def Insn.word (n : Insn) : Nat :=
  n.chain.toNat * 2147483648 + n.sw.toNat * 1073741824 + n.guard.val * 67108864 + n.op.bits

/-- The words of an instruction. -/
def encode (n : Insn) : List Nat := n.word :: n.op.tailWords

/-- Decode one instruction at word w with the words x1 and x2 behind it, rejecting by name. A word whose reserved
fields, or whose literal's or bitmaps' reserved bits, are not zero differs from the encoding of the fields it
names, and is rejected as reserved (R67). -/
def decodeInsn (w x1 x2 : Nat) : Except DecErr Insn :=
  match rawOp w x1 x2 with
  | none => .error .unassigned
  | some i =>
    if i.bits != w % 67108864 then .error .reserved
    else if (i.tailWords.zip [x1, x2]).any (fun p => p.1 != p.2) then .error .reserved
    else if i.wellFormed then
      .ok ⟨fBit w 31, fBit w 30, Fin.ofNat 16 (w / 67108864), i⟩
    else .error .operand

/-! Packets. -/

/-- Pipes of a core (R26). -/
inductive Pipe where
  | i | f | l | m | c
  deriving DecidableEq, Repr

/-- The pipe of an opcode (Table 3-4). -/
def pipeOfOp (op : Nat) : Pipe :=
  if op < 0x18 then .i
  else if op < 0x28 then .f
  else if op < 0x35 then .l
  else if op < 0x38 then .m
  else .c

/-- The pipe of an encoded instruction. -/
def Instr.pipe (i : Instr) : Pipe := pipeOfOp (i.bits / 1048576)

/-- Register operands that may name a queue register: destination first. Group operands never do (R74 item 10). -/
def Instr.singles : Instr → List Reg
  | .iadd o | .isub o | .orn o | .sel o | .fadd o | .fsub o | .fmul o | .badd2 o | .bmul2 o => [o.d, o.ar, o.br]
  | .iaddc o | .prmt o | .ffma o | .ffms o | .bfma2 o => [o.ar, o.br]
  | .imul o | .imulh _ o | .lea _ o | .imin _ o | .imax _ o | .and o | .or o | .xor o | .andn o | .shl o | .shr o
  | .sar o | .rotl o | .bfx _ o | .fmin o | .fmax o | .bmin2 o | .bmax2 o | .fpack _ o | .shfl _ o =>
    [o.d, o.ar, o.br]
  | .imad o | .imadw _ o | .bfi o => [o.ar, o.br]
  | .shl64 o | .shr64 _ o => [o.br]
  | .iaddImm o => [o.d, o.ar]
  | .shlImm o | .shrImm o | .sarImm o | .rotlImm o => [o.d, o.ar]
  | .popc o | .clz o | .ctz o | .brev o | .iabs o | .ineg o | .mov o | .fabs o | .fneg o | .fclass o | .frnd _ o
  | .frcp o | .frsq o | .fsqrt o | .fexp2 o | .flog2 o | .fsin o | .fcos o | .ftanh o | .redux _ o | .fredux _ o
  | .scan _ _ o | .matchLanes o => [o.d, o.ar]
  | .isetp _ _ o | .fsetp _ o => [o.ar, o.br]
  | .movi d _ | .movl d _ | .pget d | .voteBallot d _ | .ainfo d _ => [d]
  | .pset o | .winReg o | .ptn _ o | .qbind _ o => [o.ar]
  | .f2i _ o | .i2f _ o | .fcvtBf16F32 o | .fcvtF32Bf16 o | .fcvtF16F32 o | .fcvtE4m3F32 o | .fcvtE5m2F32 o =>
    [o.d, o.ar]
  | .funpack o => [o.ar]
  | .lds o | .sts o | .ldx o | .stx o | .ldt o | .stt o | .ldr o | .str o => [o.d, o.ar]
  | .agive _ _ o | .azero _ o | .mfmt _ o => [o.ar]
  | .msld o => [o.ar]
  | .boinit o | .boarr _ o | .bowait o | .botest _ o | .rainit o | .rawait o | .rawaitFree o => [o.ar]
  | .rarel o | .dcdec o | .gcond _ o | .lend o | .swr _ o => [o.ar]
  | .launch o => [o.d, o.ar]
  | _ => []

/-- The word names a queue register as a source or destination (R57). -/
def Instr.namesQueue (i : Instr) : Bool := i.singles.any fun r => 28 ≤ r.val

/-- The word uses the L pipe in its issue cycle (R57). -/
def Instr.usesL (i : Instr) : Bool := i.pipe == .l || i.namesQueue

/-- A second word of kind p fits beside the earlier words of its unit: two F words at most, else one a pipe (R57). -/
def pipeFits (earlier : List Instr) (i : Instr) : Bool :=
  (earlier.countP fun j => j.pipe == i.pipe) < (if i.pipe == .f then 2 else 1) &&
    !(i.usesL && earlier.any Instr.usesL)

/-- Control transfers (R59). -/
def Instr.isControl : Instr → Bool
  | .bra _ | .call _ _ | .brx _ | .ret _ | .join _ | .exit | .trap _ => true
  | _ => false

/-- A BRA or CALL at word position pos of a packet has a target that is a multiple of 3 (R66). -/
def Instr.targetOk (pos : Nat) : Instr → Bool
  | .bra imm | .call _ imm => ((pos : Int) + signExt 15 imm.val) % 3 == 0
  | _ => true

/-- Checks of one word at position pos, after the instructions `earlier` of its unit, in a packet that already
holds a control transfer if ctl; `last` says that no instruction word follows it (R74 items 4 to 9). Of two words that
conflict the later is charged, which R75 leaves open. (DESIGN CHOICE, log 9) -/
def wordCheck (pos : Nat) (earlier : List Instr) (ctl last : Bool) (n : Insn) : Except DecErr Unit :=
  if (n.op.tailWords.length == 1) && pos == 2 then .error .literal
  else if n.op.tailWords.length == 2 then .error .ppt
  else if last && n.chain then .error .chain
  else if !pipeFits earlier n.op then .error .pipes
  else if ctl && n.op.isControl then .error .control
  else if !n.op.targetOk pos then .error .target
  else .ok ()

/-- A word of a packet that PPT does not fill. -/
def decodeAt (ws : List Nat) (pos : Nat) (earlier : List Instr) (ctl : Bool) : Except (Nat × DecErr) Insn :=
  match decodeInsn (ws.getD pos 0) (ws.getD (pos + 1) 0) (ws.getD (pos + 2) 0) with
  | .error e =>
    -- a K word at word 2 has no literal to check and is illegal all the same (R61)
    .error (pos, e)
  | .ok n =>
    match wordCheck pos earlier ctl (3 ≤ pos + 1 + n.op.tailWords.length) n with
    | .error e => .error (pos, e)
    | .ok _ => .ok n

/-- The words from position pos on; fuel counts the positions left. -/
def decodeFrom (ws : List Nat) : Nat → Nat → List Instr → Bool → Except (Nat × DecErr) (List (Nat × Insn))
  | 0, _, _, _ => .ok []
  | fuel + 1, pos, earlier, ctl =>
    if 3 ≤ pos then .ok []
    else
      match decodeAt ws pos earlier ctl with
      | .error e => .error e
      | .ok n =>
        match decodeFrom ws fuel (pos + 1 + n.op.tailWords.length)
            (if n.chain then earlier ++ [n.op] else []) (ctl || n.op.isControl) with
        | .error e => .error e
        | .ok rest => .ok ((pos, n) :: rest)

/-- Decode the packet of three words: its instruction words with their positions, or the position of its lowest
illegal word and why it is illegal (R74, R75). (log 60) -/
def decodePacket (w0 w1 w2 : Nat) : Except (Nat × DecErr) (List (Nat × Insn)) :=
  if w0 / 1048576 % 64 == 0x3B then
    match decodeInsn w0 w1 w2 with
    | .error e => .error (0, e)
    | .ok n => if n.chain || n.guard != 0 then .error (0, .ppt) else .ok [(0, n)]
  else decodeFrom [w0, w1, w2] 3 0 [] false

/-- The instruction the decoder reads from a table word; the bits above nbits, and the words behind it, are 0. (log 59, 60) -/
def decodeTableWord (nbits w : Nat) : Option Instr :=
  match decodeInsn (w % 2 ^ nbits % 4294967296) (w % 2 ^ nbits / 4294967296 % 4294967296)
      (w % 2 ^ nbits / 18446744073709551616 % 4294967296) with
  | .error _ => none
  | .ok n => some n.op

end Sys2Proof
end

