-- ==== Sys2Proof/Machine/Sparse.lean ====
section
/-! DEFINITION. Sparse tables: lists of (key, value) pairs with strictly rising keys. Registers, scratchpad, memory
and every table of objects are held in this form. -/

namespace Sys2Proof.Machine

/-- The value at a key, if there is one. -/
def lookup {α : Type} (k : Nat) : List (Nat × α) → Option α
  | [] => none
  | p :: m => if p.1 == k then some p.2 else lookup k m

/-- Put a value at a key. -/
def insertAt {α : Type} (k : Nat) (v : α) : List (Nat × α) → List (Nat × α)
  | [] => [(k, v)]
  | p :: m =>
    if k < p.1 then (k, v) :: p :: m
    else if p.1 == k then (k, v) :: m
    else p :: insertAt k v m

/-- Take a key out. -/
def eraseAt {α : Type} (k : Nat) (m : List (Nat × α)) : List (Nat × α) := m.filter fun p => p.1 != k

/-- Put a value at a key, or take the key out. -/
def update {α : Type} (k : Nat) (v : Option α) (m : List (Nat × α)) : List (Nat × α) :=
  match v with
  | some x => insertAt k x m
  | none => eraseAt k m

/-- Change the value at a key, where there is one. -/
def modifyAt {α : Type} (k : Nat) (f : α → α) (m : List (Nat × α)) : List (Nat × α) :=
  m.map fun p => if p.1 == k then (k, f p.2) else p

/-- The value at a key, or the default that unlisted keys read as. -/
def readAt {α : Type} (dflt : α) (m : List (Nat × α)) (k : Nat) : α := (lookup k m).getD dflt

/-- Write a value; the default is not listed. -/
def writeAt {α : Type} [DecidableEq α] (dflt : α) (k : Nat) (v : α) (m : List (Nat × α)) : List (Nat × α) :=
  if v = dflt then eraseAt k m else insertAt k v m

/-- Keys strictly rising from a bound. -/
def risingFrom {α : Type} : Nat → List (Nat × α) → Bool
  | _, [] => true
  | b, p :: m => decide (b ≤ p.1) && risingFrom (p.1 + 1) m

/-- The canonical form: keys strictly rising, and no entry equal to what an unlisted key reads as. -/
def canonical {α : Type} [DecidableEq α] (dflt : α) (m : List (Nat × α)) : Bool :=
  risingFrom 0 m && m.all fun p => !decide (p.2 = dflt)

/-- Fold a function over the naturals below n, ascending. -/
def upTo {σ : Type} (n : Nat) (f : σ → Nat → σ) (s : σ) : σ := (List.range n).foldl f s

end Sys2Proof.Machine
end

