-- ==== Sys2Proof/Machine/State.lean ====
section
/-! DEFINITION. The state of the machine: plain data, holding every piece of state the spec gives the package, its
dies, cores, groups, teams, clusters, contexts, engines, memories, queues and links; the faults and refusals; and
the state after reset. INVENTORY.md lists each field with the rule that names it. -/

namespace Sys2Proof.Machine

/-! Faults and refusals. -/

/-- Why the machine stops. Every fault here is safe: it stops a run that no rule of the spec describes. (log 57) -/
inductive Fault where
  /-- an instruction is executed while no group is issuing a word: raised by every instruction of a thread when
  `State.cur` names no group (safe: the step never does this) -/
  | noIssue
  /-- an event names an object that does not exist or stands in no state in which the event can happen: raised by
  the events (safe: the step offers only events that can happen) -/
  | noSuchObject
  deriving DecidableEq, Repr

/-- Why an instruction has no meaning in the model. -/
inductive Refusal where
  /-- the instruction has no meaning yet: raised by an arm of `exec` only (safe: nothing is claimed of it) -/
  | notModelled (mnemonic : String)
  deriving DecidableEq, Repr

/-! Threads and groups (04_register_space.md, 07_group.md). -/

/-- Thread states (Table 7-1). -/
inductive ThreadSt where
  | ready | joining | sleeping | held | exited
  deriving DecidableEq, Repr

/-- Codes of Table 7-1. -/
def ThreadSt.code : ThreadSt → Nat
  | .ready => 0
  | .joining => 1
  | .sleeping => 2
  | .held => 3
  | .exited => 4

/-- A word being issued: the group, the active set of its packet, and the word with its place (R54 to R60). -/
structure Issue where
  gid : Nat
  /-- active set -/
  act : Word
  /-- address of the packet -/
  k : Nat
  /-- position of the word in its packet -/
  pos : Nat
  /-- position of the first word of its issue unit -/
  unit : Nat
  guard : Pred
  chain : Bool
  /-- S of the word; of a REFL that waits, whether its unit holds an S word (R77) -/
  sw : Bool
  /-- the word itself and its literal, as the trap record shows them -/
  insn : Word
  lit : Word
  /-- the second F word of its unit: it goes to FB (R57) -/
  fb : Bool
  /-- operands A and B of the lanes as read at issue; empty where the word has none (R386) -/
  opa : List PWord := []
  opb : List PWord := []
  deriving DecidableEq, Repr

/-- A control transfer that a thread's packet has taken, performed after the packet's last unit (R59): to a target
(R170), a join at the word's address (R172), an exit, or a software trap with the word that raised it. -/
inductive Transfer where
  | jump (target : Nat)
  | join (addr : Nat)
  | exit
  | trap (n : Nat) (o : Issue)
  deriving DecidableEq, Repr

/-- The scheduling state of a thread (R154), its window base (R93) and its predicates (R55, R102). -/
structure Thread where
  /-- program counter, a word offset from the code base -/
  pc : Nat := 0
  st : ThreadSt := .ready
  /-- join address while joining -/
  joinAddr : Nat := 0
  /-- wake cycle while sleeping, in the core's CYC -/
  wake : Nat := 0
  /-- wait count (R165) -/
  waitCount : Nat := 0
  /-- resume word (R387) -/
  rword : Nat := 0
  /-- the control transfer that its packet has taken (R59) -/
  transfer : Option Transfer := none
  /-- window base -/
  wbase : Nat := 0
  /-- p0 to p15; p0 reads true whatever bit 0 holds -/
  preds : BitVec 16 := 1
  /-- poison bits of p0 to p15 -/
  predPsn : BitVec 16 := 0
  /-- live allotment registers of the pre-emption point reached (R177) -/
  live : BitVec 128 := 0
  /-- live scratchpad granules of the pre-emption point reached (R177) -/
  granules : Word := 0
  deriving DecidableEq, Repr

/-- Group states (Table 7-2). -/
inductive GroupSt where
  | parked | pending | active | waiting | trapped | exiting
  deriving DecidableEq, Repr

/-- What an issued result writes (R78). -/
inductive Target where
  /-- a frame word: 32 n + L for allotment register n of lane L, and on through tile store and tiles (R88) -/
  | word (i : Nat)
  /-- a predicate of a lane -/
  | pred (lane p : Nat)
  /-- nothing: an UNREFL whose retirement is outstanding (R320) -/
  | mark
  deriving DecidableEq, Repr

/-- An issued result that is not yet available (R78). -/
structure Result where
  /-- cycle at which its latency has passed; none while an event must still deliver it -/
  due : Option Nat
  /-- identifier of the access or reflection that delivers it -/
  src : Nat := 0
  target : Target
  /-- the word, or a predicate in bit 0 -/
  val : PWord
  /-- bits of the word that are written (R89) -/
  mask : Word := 0xFFFFFFFF
  deriving DecidableEq, Repr

/-- Words pushed to a queue register and not landed (R96), or the words of an ASTC (R304). -/
structure Push where
  /-- binding code in force at issue (Table 4-3) -/
  code : Byte
  words : List PWord
  /-- cycle at which the words are available; none while a remote load must still return -/
  due : Option Nat
  /-- identifiers of the remote accesses that deliver words -/
  srcs : List Nat := []
  /-- lanes the words come from -/
  lanes : List Nat := []
  /-- the pushing word -/
  origin : Issue
  /-- order of issue among the pushes of a core (R342) -/
  seq : Nat := 0
  /-- an ASTC: captured elements, offset, code and poison, and their size in bytes; 0 for other pushes -/
  plan : List (Nat × Nat × Bool) := []
  esize : Nat := 0
  deriving DecidableEq, Repr

/-- A format slot (R288). -/
structure FmtSlot where
  word : Word
  kpos : Nat
  deriving DecidableEq, Repr

/-- Who holds a tile's token, and the conversions under way (R285, R306). -/
inductive TileSt where
  | held | engine | taking
  deriving DecidableEq, Repr

/-- What a tile carries beside its elements (R285, R305, R306). -/
structure TileInfo where
  st : TileSt := .held
  /-- wide class: seven range channels -/
  wide : Bool := false
  /-- quantum -/
  q : Int := 0
  ginex : Bool := false
  gsat : Bool := false
  xsat : Bool := false
  xinv : Bool := false
  xpsn : Bool := false
  deriving DecidableEq, Repr

/-- Effects of WIN, PTN, QBIND and of a tile's change of hands on the words after their unit (R94, R98, R101,
R306). -/
inductive Deferred where
  | win (lane n : Nat)
  | ptn (e : Nat) (code : Byte)
  | qbind (n : Nat) (code : Byte)
  | token (t : Nat) (i : TileInfo)
  deriving DecidableEq, Repr

/-- The packet in progress (R58). -/
structure Progress where
  k : Nat
  act : Word
  /-- position of the first word of the next unit -/
  next : Nat
  deriving DecidableEq, Repr

/-- A ring that a lane waits for (R254): where its header lies, the address as the lane named it, and the producer
count of the free form. -/
structure RingWait where
  lane : Nat
  core : Nat
  off : Nat
  addr : Word
  count : Nat
  /-- frame word of the lane's destination -/
  dst : Nat
  deriving DecidableEq, Repr

/-- A barrier object that a lane waits for (R247): where it lies and the phase waited for. -/
structure ObjWait where
  lane : Nat
  core : Nat
  off : Nat
  phase : Bool
  deriving DecidableEq, Repr

/-- What a Waiting group waits for (R158). Waits that follow the issue of their word carry the word and what ends
them; `again` waits hold back the issue of a unit. -/
inductive Wait where
  | none
  /-- the earliest wake cycle of its sleeping threads -/
  | sleepers
  /-- every outstanding result has been written (R79, park) -/
  | outstanding
  /-- a pop: the queue of this binding holds n words (R96) -/
  | pop (code : Byte) (n : Nat)
  /-- a push: the queue of this binding has n free entries (R96) -/
  | push (code : Byte) (n : Nat)
  /-- a copy-command push stalled by the token bucket of a die (R447) -/
  | bucket (die : Nat)
  /-- scale memory of the core is owned by another context (R289) -/
  | scale
  /-- the first acquire of a moved group (R181) -/
  | acquire
  /-- a principal access to granules of a core that are lent: they return first (R371) -/
  | granules (core : Nat) (map : Word)
  /-- a shade access to granules of a core that are not yet zeroed (R373) -/
  | zeroing (core : Nat)
  /-- a release: the group's remote stores and atomics have been performed (R275) -/
  | release
  /-- BAR n -/
  | bar (n : Nat)
  /-- BARC n -/
  | barc (n : Nat)
  /-- BOWAIT: the objects of the lanes (R247) -/
  | bowait (o : Issue) (objs : List ObjWait)
  /-- RAWAIT: whether the free form, and the rings (R254) -/
  | rawait (o : Issue) (free : Bool) (objs : List RingWait)
  /-- WPWAIT: write pointer of a channel (R258) -/
  | wpwait (o : Issue) (engine ch : Nat) (lanes : List (Nat × Nat))
  /-- TLWAIT: engine context, thresholds by lane (R277) -/
  | tlwait (o : Issue) (sc : Scope) (engine : Nat) (lanes : List (Nat × Nat))
  /-- TKGET: the first destination word of each enabled lane in the frame, and whether `.try` (R337) -/
  | tkget (o : Issue) (dsts : List Nat) (try_ : Bool)
  /-- TKPUT waits for a free task slot (R336) -/
  | tkput
  /-- LAUNCH waits for ring room in a queue (R353) -/
  | launch (q : Nat)
  /-- RECALL waits for the granules to return (R374): destination words in the frame, and the map -/
  | recall (o : Issue) (dsts : List Nat) (map : Word)
  /-- the trap view of a trapped group that is not resident (R388) -/
  | view (g : Nat)
  /-- REFL waits for a walk, or for the page-fault service: predicate, size, lanes with slot address and device
  address, the fault record, 0 while the die's fault queue is full, and the pages that the service has refused (R318) -/
  | refl (o : Issue) (pd size : Nat) (lanes : List (Nat × Word × Nat)) (fault : Option Nat) (lost : List Nat)
  /-- a REFL that holds one of these slots of the core: it must subscribe first (R326) -/
  | reflSlots (offs : List Nat)
  /-- RACK waits for the loads of these reflections to land (R326) -/
  | reflLoad (ids : List Nat)
  /-- words that touch a tile being converted for the group (Table 12-11) -/
  | tile (t : Nat)
  /-- an M-pipe word that reads scale memory during a transfer (R289) -/
  | msld
  deriving DecidableEq, Repr

/-- Waits of words that park: when they end, the group is ready once its results have been written, as after an S word
(Table 3-10, R79). -/
def Wait.parks : Wait → Bool
  | .outstanding | .bar _ | .barc _ | .bowait _ _ | .rawait _ _ _ | .wpwait _ _ _ _ | .tlwait _ _ _ _ | .tkget _ _ _
  | .recall _ _ _ => true
  | _ => false

/-- A 64 KiB page of physical memory that code occupies: host memory or the device's (18_page.md R401). -/
structure PPage where
  host : Bool
  pa : Nat
  deriving DecidableEq, Repr

/-- A code region whose translations the dispatcher holds (R345). -/
structure Code where
  /-- device address of word 0 -/
  base : Nat
  /-- CodeWords -/
  words : Nat
  /-- the 64 KiB pages from base on -/
  pages : List PPage
  /-- mode and device of the context: where physical addresses lie (R415) -/
  mode : Nat
  dev : Nat
  /-- the function of the context, for pages in host memory (R449) -/
  func : Nat := 0
  deriving DecidableEq, Repr

/-- The handler of a trapped group (R383, R384). -/
inductive HandlerSt where
  | none
  /-- the record is written and the handler group not yet created -/
  | due
  /-- a page of its code suspends: the die and number of the fault record -/
  | held (fault : Nat)
  | running (gid : Nat)
  deriving DecidableEq, Repr

/-- A group (R157 to R163). -/
structure Group where
  core : Nat
  /-- scheduling slot -/
  slot : Nat
  team : Nat
  /-- number within its team -/
  num : Nat
  ctx : Nat
  shade : Bool := false
  priv : Bool := false
  /-- the group whose trap a handler group serves -/
  handles : Option Nat := none
  st : GroupSt := .pending
  /-- the frame lies in register space or the shade bank -/
  resident : Bool := true
  /-- a Parked group without an open dependence -/
  woken : Bool := false
  /-- it owns a parking image (R161) -/
  image : Bool := false
  /-- cycle at which it entered its state, or was woken -/
  since : Nat := 0
  /-- cycle of its last issue, plus one; 0 if it has not issued -/
  lastIssue : Nat := 0
  /-- active-set slot -/
  aslot : Nat := 0
  /-- REGS, TSZ and ACCN of the view register (R87) -/
  regs : Nat := 28
  tsz : Nat := 0
  accn : Nat := 0
  code : Code
  ptab : List Byte := [0, 0, 0, 0, 0, 0, 0, 0]
  qbind : List Byte := [0x20, 0x40, 0x60, 0x80]
  slots : List (Option FmtSlot) := [none, none, none, none, none, none, none, none]
  /-- frame words that are not 0 -/
  frame : List (Nat × PWord) := []
  tiles : List (Nat × TileInfo) := []
  threads : List Thread
  /-- issued results not yet available, in issue order -/
  outstanding : List Result := []
  /-- queue pushes not yet landed, in issue order -/
  pushes : List Push := []
  unit : Option Progress := none
  /-- effects of WIN, PTN and QBIND that wait for the end of their unit -/
  deferred : List Deferred := []
  /-- a unit is held at issue until this cycle, as on an occupied pipe (R76, R306) -/
  holdUntil : Nat := 0
  /-- a switch wait is open, as after an S word or a word that parks (R77, R79) -/
  switching : Bool := false
  wait : Wait := .none
  /-- the trap record, 16 words (R386) -/
  record : Option (List PWord) := none
  /-- a second trap recorded while Trapped (R385) -/
  second : Option (List PWord) := none
  handler : HandlerSt := .none
  /-- a handler group's writes to the frame of the group it serves, not yet applied (R388) -/
  viewFrame : List (Nat × PWord) := []
  /-- words of the thread-state blocks it has written, by 4 * lane + word -/
  viewWords : List (Nat × PWord) := []
  /-- remote scratchpad accesses not yet performed (R163) -/
  remote : Nat := 0
  /-- an open FENCE (R275) -/
  fence : Option (FenceKind × Scope) := none
  /-- the cores whose flush acknowledgements the first acquire awaits (R181), and whether the first flush has been sent -/
  acqHold : List Nat := []
  flushSent : Bool := false
  /-- the save engine has saved the group (R178), with its whole allotment -/
  saved : Bool := false
  whole : Bool := false
  deriving DecidableEq, Repr

/-! Teams, clusters and kernels (10_barrier.md, 15_kernel.md). -/

/-- A kernel descriptor as the dispatcher reads it (Table 15-1). -/
structure KDesc where
  const : Nat
  prio : Nat
  /-- CKP = 1: no checkpoints -/
  noCkpt : Bool
  arglen : Nat
  argoff : Nat
  /-- SCRATCH in granules -/
  scratch : Nat
  w : Nat
  h : Nat
  g : Nat
  qbind : List Byte
  /-- entries 1 to 7 -/
  ptab : List Byte
  regs : Nat
  tsz : Nat
  accn : Nat
  entry : Nat
  codew : Nat
  code : Nat
  deriving DecidableEq, Repr

/-- What a checkpoint keeps of a group beside the undo log (R394). (log 56) -/
structure GroupCkpt where
  gid : Nat
  threads : List Thread
  ptab : List Byte
  qbind : List Byte
  slots : List (Option FmtSlot)
  tiles : List (Nat × TileInfo)
  unit : Option Progress
  /-- the barrier at which a saved group waits, and pushes that had not landed -/
  wait : Wait
  pushes : List Push
  deriving DecidableEq, Repr

/-- A block of 32 bytes that the undo log names (R394). -/
inductive LogName where
  /-- group and first frame word -/
  | frame (gid word : Nat)
  /-- first word of the allotment on the core -/
  | spad (word : Nat)
  deriving DecidableEq, Repr

/-- An entry of the undo log (R394). -/
structure LogEntry where
  name : LogName
  /-- words of the block by index; those of a live reflection's slot are left out (R315) -/
  old : List (Nat × PWord)
  deriving DecidableEq, Repr

/-- An operand value as it enters the engine (R294): an integer, and whether it saturated. -/
inductive Ent where
  | num (y : Int) (sat : Bool)
  | invalid
  | poison
  deriving DecidableEq, Repr

/-- Work of the engine on a tile (R292, R293, R297). -/
inductive MKind where
  /-- AGIVE of the words captured at issue, by index in the tile -/
  | give (i64 : Bool) (words : List (Nat × PWord))
  | zero
  | take (i64 : Bool)
  /-- rows of A as (k, value), columns of B by k, the counter of `.sig` -/
  | mma (a : List (Nat × List (Nat × Ent))) (b : List (List Ent)) (sig : Option Nat)
  deriving DecidableEq, Repr

/-- One such work, with the tile mode that it acts under. -/
structure MWork where
  gid : Nat
  tile : Nat
  wide : Bool
  q : Int
  kind : MKind
  /-- cycle at which it became the first of its tile -/
  ready : Option Nat
  deriving DecidableEq, Repr

/-- A team checkpoint (R394, R395). -/
structure Ckpt where
  spent : Bool := false
  groups : List GroupCkpt := []
  /-- TLPOSTED of the engine contexts, by engine key -/
  posted : List (Nat × Nat) := []
  /-- the matrix works of the team that were outstanding then -/
  works : List MWork := []
  log : List LogEntry := []
  /-- barrier arrivals made since the checkpoint: barrier and group (R241) -/
  arrivals : List (Bool × Nat × Nat) := []
  /-- reflections consumed by a RACK since the checkpoint (R315) -/
  racked : List Nat := []
  deriving DecidableEq, Repr

/-- A team on its core (R346 to R348). -/
structure Team where
  core : Nat
  rank : Nat
  clx : Nat
  cly : Nat
  cluster : Nat
  kernel : Nat
  ctx : Nat
  shade : Bool
  ngroups : Nat
  /-- first granule of the allotment, and its granules -/
  base : Nat
  granules : Nat
  /-- arrivals at the 16 team barriers: barrier and groups that have arrived (R239) -/
  bars : List (Nat × List Nat) := []
  /-- none when its kernel has CKP = 1 -/
  ckpt : Option Ckpt := none
  /-- groups that have not retired -/
  left : Nat
  live : Bool := true
  deriving DecidableEq, Repr

/-- A range-task slot (R332). -/
structure TaskSlot where
  full : Bool := false
  task : List Word := []
  /-- next iteration to grant, and iterations not reported done -/
  next : Nat := 0
  remain : Nat := 0
  gen : Nat := 0
  seq : Nat := 0
  deriving DecidableEq, Repr

/-- A dependence counter that is not Idle (R349). -/
structure Counter where
  count : Nat
  task : Option (List Word)
  deriving DecidableEq, Repr

/-- A cluster (R346 to R349). -/
structure Cluster where
  kernel : Nat
  ctx : Nat
  index : Nat
  die : Nat
  /-- column and row of its origin on the die -/
  x : Nat
  y : Nat
  w : Nat
  h : Nat
  /-- teams by rank -/
  teams : List Nat
  /-- arrivals at the 4 cluster barriers (R239) -/
  bars : List (Nat × List Nat) := []
  tasks : List (Nat × TaskSlot) := []
  /-- SEQ of the next posting (R332) -/
  taskSeq : Nat := 0
  /-- armed counters -/
  counters : List (Nat × Counter) := []
  deriving DecidableEq, Repr

/-- What launched a kernel (R346, R353, R355). -/
inductive Owner where
  | entry (q idx : Nat)
  | node (graph node : Nat)
  deriving DecidableEq, Repr

/-- A kernel launch (R344 to R348, R359). -/
structure Kernel where
  desc : KDesc
  code : Code
  gx : Nat
  gy : Nat
  gz : Nat
  arga : Nat
  ctx : Nat
  owner : Owner
  /-- order of fetch (R369) -/
  seq : Nat
  /-- no die of the device fitted its next cluster: it waits until a team ends (R347) -/
  missed : Bool := false
  /-- die and origin that an admission in progress has reserved (R348) -/
  place : Option (Nat × Nat × Nat) := none
  /-- next cluster index to be admitted -/
  next : Nat := 0
  /-- clusters admitted and not ended -/
  live : Nat := 0
  failed : Bool := false
  /-- ring descriptors read so far (R341) -/
  rings : List (Nat × List Nat × Bool) := []
  /-- cores that have run a team of it (R359) -/
  cores : List Nat := []
  /-- the fault record that its argument read waits for (R348): die * 2^32 + identifier -/
  fault : Option Nat := none
  /-- the pages of its argument read that the service has answered with Fail -/
  argsLost : List Nat := []
  deriving DecidableEq, Repr

/-! Work queues, graphs and host rings (14_queue.md, 15_kernel.md). -/

/-- States of Table 14-4. -/
inductive QueueSt where
  | disabled | idle | active | suspended | error
  deriving DecidableEq, Repr

/-- STATE of Table 14-1. -/
def QueueSt.code : QueueSt → Nat
  | .disabled => 0
  | .idle => 1
  | .active => 2
  | .suspended => 3
  | .error => 4

/-- A queue entry that has been fetched and has not left the queue (R330). -/
structure QEntry where
  words : List Word
  /-- order of fetch (R369) -/
  seq : Nat := 0
  /-- the kernel descriptor as it was when the entry was fetched; none where it could not be read (R344) -/
  desc : Option (List Word) := none
  started : Bool := false
  /-- complete, above DONE -/
  finished : Bool := false
  /-- it failed or was killed: it runs no more, and never completes -/
  ended : Bool := false
  /-- a pre-emption save has recorded its kernel (R494) -/
  saved : Bool := false
  /-- cycle by which a WAITV reads again -/
  reread : Nat := 0
  /-- the line a WAITV watches: stack and line -/
  line : Option (Nat × Nat) := none
  /-- the fault record that its address waits for -/
  fault : Option Nat := none
  deriving DecidableEq, Repr

/-- A work queue, or a management queue (R328, R450). -/
structure Queue where
  st : QueueSt := .disabled
  susp : Bool := false
  prio : Nat := 0
  ctx : Nat := 0
  space : Bool := false
  log2n : Nat := 0
  base : Nat := 0
  wr : Nat := 0
  rd : Nat := 0
  done : Nat := 0
  err : Nat := 0
  erridx : Nat := 0
  /-- entries fetched, by index -/
  entries : List (Nat × QEntry) := []
  /-- the fault record that a fetch waits for -/
  fault : Option Nat := none
  deriving DecidableEq, Repr

/-- States of Table 15-4. -/
inductive GraphSt where
  | running | evaluating | failing
  deriving DecidableEq, Repr

/-- A running command graph (R354 to R358). -/
structure Graph where
  q : Nat
  idx : Nat
  ctx : Nat
  /-- graph address -/
  addr : Nat
  /-- nodes, 16 words each; none while the graph stands at its program index (R358) -/
  nodes : List (List Word)
  cond : List Word
  passes : Nat := 0
  /-- predecessors still to complete, by node -/
  waits : List Nat
  started : List Nat := []
  /-- nodes whose launch waits for a fault record -/
  faults : List (Nat × Nat) := []
  /-- nodes that have ended and whose completion has not been taken: node and error code, 0 for success -/
  ended : List (Nat × Nat) := []
  /-- completed nodes of the pass -/
  done : List Nat := []
  st : GraphSt := .running
  /-- first error code (Table 14-3) -/
  cause : Nat := 0
  deriving DecidableEq, Repr

/-- A host ring (R341 to R343): words written, words not yet reported, when the first of those was counted, and the
descriptor and vector it was last written under. -/
structure HRing where
  w : Nat := 0
  u : Nat := 0
  since : Nat := 0
  desc : List Nat := []
  vec : Nat := 0
  deriving DecidableEq, Repr

/-! Contexts (16_context.md). -/

/-- Context states (Table 16-3); a Dead context is no longer listed. -/
inductive CtxSt where
  | ready | running | saving | saved | restoring | killing | failed
  deriving DecidableEq, Repr

/-- The host ring of a context that takes its fault records (R453): ring, vector, and the descriptor as last read. -/
structure FaultRing where
  ring : Nat
  vec : Nat
  desc : List Nat
  ok : Bool
  /-- cycle of that reading -/
  at_ : Nat := 0
  deriving DecidableEq, Repr

/-- A context: the fields of its record (Table 16-1) and its state. -/
structure Ctx where
  /-- layout of its device: 1, 2 or 4 (Table 16-2; `Part.layout`) -/
  mode : Nat
  dev : Nat
  shade : Bool := false
  priv : Bool := false
  prio : Nat := 0
  emask : Nat := 1
  /-- w, 1 to 4 -/
  weight : Nat := 1
  princ : Nat := 0
  park : Nat := 1
  qfirst : Nat := 0
  qcount : Nat := 1
  ptroot : Nat := 0
  hrtab : Nat := 0
  savesz : Nat := 0
  savea : Nat := 0
  /-- the host function it was created through (R449) -/
  func : Nat := 0
  st : CtxSt := .ready
  preq : Bool := false
  preqAt : Nat := 0
  /-- a request recorded while Restoring -/
  preqNext : Bool := false
  /-- the watchdog has forced the save (R376) -/
  forced : Bool := false
  /-- the fault record that its save or restore waits for -/
  fault : Option Nat := none
  /-- the registered handler descriptor and its code (R383) -/
  handler : Option (KDesc × Code) := none
  /-- where its fault records go (R453) -/
  faultRing : Option FaultRing := none
  /-- bytes of the parking region in use, by die (R161) -/
  parkUsed : List (Nat × Nat) := []
  /-- a failed fault makes its save use the whole save area (R408) -/
  wholeArea : Bool := false
  deriving DecidableEq, Repr

/-- A loan of a principal on a core (R371 to R374). -/
structure Loan where
  isOpen : Bool := false
  idle : Bool := false
  map : Word := 0
  lost : Bool := false
  ecl : Nat := 0
  /-- an eclipse under way: the granules returning and the cycle of the eclipse -/
  returning : Option (Word × Nat) := none
  /-- granules still to be zeroed, and the cycle by which they are -/
  zeroing : Option (Word × Nat) := none
  /-- map that a LEND puts in force after its eclipse -/
  after : Word := 0
  deriving DecidableEq, Repr

/-! Copy engines (09_copy_command.md). -/

/-- A word in a command queue, with what posted it (R198). -/
structure QWord where
  val : Word
  gid : Nat
  team : Nat
  ctx : Nat
  deriving DecidableEq, Repr

/-- States of Table 9-7. -/
inductive CmdSt where
  | posted | translating | moving | suspended | complete | failed
  deriving DecidableEq, Repr

/-- A translation that a requester holds: one 64 KiB page (R231). -/
structure Xl where
  /-- virtual address / 65536 -/
  page : Nat
  /-- host memory (LOC = 1) -/
  host : Bool
  /-- physical or bus address of the page -/
  pa : Nat
  /-- write-poisoned: reads deliver poison (R402) -/
  psn : Bool
  deriving DecidableEq, Repr

/-- One side of a transfer (R203, R205 to R208). -/
structure SideD where
  spad : Bool := false
  base : Nat := 0
  fmt : Fmt := .f32
  /-- 0 strided, 1 Morton 2-D, 2 Morton 3-D -/
  kind : Nat := 0
  str : List Int := []
  /-- block length of a scaled side, or 0 -/
  blk : Nat := 0
  /-- scale-array address -/
  scale : Nat := 0
  deriving DecidableEq, Repr

/-- How an index list enters the addresses (Table 9-6). -/
inductive Indexing where
  | none | gath | scat | bgath | bscat
  deriving DecidableEq, Repr

/-- A transfer as its command started it (R205 to R217). -/
structure Shape where
  /-- RANK extents, innermost first -/
  ext : List Nat := []
  src : SideD := {}
  dst : SideD := {}
  rnd : Rnd := .rne
  sat : Bool := false
  zx : Bool := false
  tr : Bool := false
  idx : Indexing := .none
  /-- index-list address -/
  list : Word := 0
  /-- 0 store, 1 add, 2 min, 3 max -/
  rop : Nat := 0
  /-- FILL: the code of every element -/
  fill : Option Nat := none
  deriving DecidableEq, Repr

/-- Run of a transducer table (R435). -/
structure TxRun where
  st : Nat := 0
  o : Nat := 0
  steps : Nat := 0
  halted : Bool := false
  full : Bool := false
  psn : Bool := false
  deriving DecidableEq, Repr

/-- What the element of a command needs before it can go on (R231). -/
structure Want where
  /-- 0 source, 1 destination, 2 source scales, 3 destination scales, 4 layout record, 7 run record; 5 and 6 a further page
  that a step reads or writes through the copy TLB, whose leaf it does not hold -/
  side : Nat
  va : Nat
  write : Bool
  deriving DecidableEq, Repr

/-- A write applied at a home: bytes by offset in the line, sectors written poisoned, and whether a release push
follows from it (R312, R313). -/
structure HomeWrite where
  stack : Nat
  line : Nat
  bytes : List (Nat × Byte)
  psn : List Nat
  rel : Bool
  /-- applied at the stack, where its line is kept out of the slice (R421) -/
  atStack : Bool := false
  deriving DecidableEq, Repr

/-- Sectors of the line that a write touches. -/
def HomeWrite.sectors (w : HomeWrite) : List Nat :=
  (List.range 4).filter fun k => w.psn.contains k || w.bytes.any fun b => b.1 / 32 == k

/-- Sector k is covered whole. -/
def HomeWrite.whole (w : HomeWrite) (k : Nat) : Bool :=
  (List.range 32).all fun i => w.bytes.any fun b => b.1 == 32 * k + i

/-- A write of one line that waits for the elements of its run: a home write (R312), or one into the near copy of the
line. -/
structure LineW where
  w : HomeWrite
  pa : Nat
  bytes : Nat
  near : Bool := false
  deriving DecidableEq, Repr

/-- A scratchpad word, at one receiver or more, of which a run has written the bits of `mask`: the elements of a
command that follow each other in one word land as one write of it (R185, R186). -/
structure WordRun where
  /-- team, core and word of each receiver -/
  places : List (Nat × Nat × Nat)
  mask : Nat
  psn : Bool
  deriving DecidableEq, Repr

/-- A copy command accepted by an engine (R198), or the copy of a graph node. -/
structure Cmd where
  core : Nat
  /-- engine context 0 to 3 -/
  e : Nat
  /-- timeline number -/
  num : Nat
  words : List Word
  gid : Nat
  team : Nat
  ctx : Nat
  /-- the graph node whose copy this is: graph and node (R355) -/
  node : Option (Nat × Nat) := none
  st : CmdSt := .posted
  /-- lowest element not yet delivered -/
  k : Nat := 0
  /-- start mark (R228) -/
  mark : Nat := 0
  /-- element count N -/
  n : Nat := 0
  /-- destination byte count (R493) -/
  bytes : Nat := 0
  /-- completing status so far, then the final status -/
  code : Nat := 0
  shape : Shape := {}
  /-- the operand block of ATOMC, and the words a command read at its start -/
  aux : List PWord := []
  /-- captured elements of ASTC: offset, code and poison (R304), and their size in bytes -/
  plan : List (Nat × Nat × Bool) := []
  esize : Nat := 0
  /-- a COPYL whose layout record has not been read (R210) -/
  unread : Bool := false
  /-- held translations, one by side: 0 source, 1 destination -/
  xls : List (Nat × Xl) := []
  /-- elements delivered in the chunk run -/
  run : Nat := 0
  /-- the home write that gathers the elements of an open run (R312) -/
  line : Option LineW := none
  /-- the scratchpad word that an open run has written in part -/
  word : Option WordRun := none
  /-- entries of the index list that have been read (R215) -/
  entries : List (Nat × PWord) := []
  /-- the source block whose scale byte has been read, the byte, and whether a die in reset answered -/
  srcScale : Option (Nat × Nat × Bool) := none
  want : Option Want := none
  /-- source values read ahead for the open destination block -/
  vals : List Val := []
  /-- `.ef` residual of the open feedback block (R53) -/
  resid : Val := .fin false 0 0
  /-- scale of the open destination block -/
  scale : Nat := 127
  demoted : Bool := false
  /-- receivers of an MCAST that have arrived (R250) -/
  arrived : Nat := 0
  tx : TxRun := {}
  /-- it hits its die's fault queue: the record it waits for; 0 while it waits for a place (R407) -/
  fault : Option Nat := none
  /-- posted before a save of its context (R179) -/
  carried : Bool := false
  /-- completion updates are discarded (R234, R396) -/
  mute : Bool := false
  /-- it has ended with a status, and its completion update waits for granules (R371, R373) -/
  late : Option Nat := none
  deriving DecidableEq, Repr

/-- An engine context of a core's copy engine (R198, R229, R235, R256). -/
structure Engine where
  /-- words pushed and not yet accepted as part of a command -/
  queue : List QWord := []
  posted : Nat := 0
  /-- TLDONE -/
  done : Nat := 0
  /-- finished numbers above TLDONE -/
  finished : List Nat := []
  wp : List Nat := [0, 0, 0, 0]
  /-- status queue, and OVF -/
  status : List Word := []
  ovf : Bool := false
  deriving DecidableEq, Repr

/-- A push to a host ring in a core's outbound buffer (R342). -/
structure RingPush where
  ctx : Nat
  ring : Nat
  /-- the descriptor that its kernel holds -/
  desc : List Nat
  words : List PWord
  deriving DecidableEq, Repr

/-- A token bucket (Table 20-6): LEVEL at the end of cycle `at_` - 1, and the bytes injected in cycle `at_`. -/
structure Bucket where
  rate : Nat := 4096
  size : Nat := 1048576
  level : Int := 1048576
  inj : Nat := 0
  at_ : Nat := 0
  deriving DecidableEq, Repr

/-- A step at a barrier or ring object (R245, R246, R252, R254). -/
inductive ObjAct where
  | boinit (c : Nat) (t : Word)
  | arrive (delta : Int) (bad : Bool)
  | rainit (w : Word)
  | release
  deriving DecidableEq, Repr

/-- What a remote scratchpad access does at its target core (R187, R196). -/
inductive RemoteOp where
  /-- an LDX: lanes with the byte offset each reads from -/
  | load (mem : OpMem) (lanes : List (Nat × Nat))
  /-- words written under masks -/
  | store (writes : List (Nat × PWord × Word))
  /-- an ATOMX: lanes with byte offset and operand words -/
  | atom (op : OpAtom) (lanes : List (Nat × Nat × List PWord))
  /-- a CASX: lanes with byte offset, new words and expected words -/
  | cas (op : OpCas) (lanes : List (Nat × Nat × List PWord × List PWord))
  /-- a BOTEST: lane, core and byte offset of the objects still to be read, in lane order, and the words read so far (R238) -/
  | test (lanes : List (Nat × Nat × Nat)) (read : List (Nat × List PWord))
  /-- steps at barrier and ring objects, lane by lane: the word, whether a poisoned object stops it, and lane, core, byte
  offset and step (R238) -/
  | objects (o : Issue) (check : Bool) (acts : List (Nat × Nat × Nat × ObjAct))
  deriving DecidableEq, Repr

/-- A scratchpad access on the mesh (R187): issued and not yet performed at its target core. -/
structure Remote where
  gid : Nat
  /-- the core it goes to; of steps at objects, the core of the next step -/
  target : Nat
  op : RemoteOp
  /-- cycles of the L pipe that it takes there, and those by which its result is late (R194, R196) -/
  busy : Nat := 1
  late : Nat := 0
  /-- the core that issued it, and whether a save has come between (R179) -/
  home : Nat := 0
  carried : Bool := false
  /-- the second pass of a shade's atomic at its own core, and the cycle at which the first one ends (R370) -/
  pass : Option Nat := none
  deriving DecidableEq, Repr

/-! The matrix engine (12_accumulator.md). -/

/-- Scale memory of a core (R289): owner, bytes, and MSLD transfers under way: end, offset, bytes. -/
structure ScaleMem where
  owner : Option Nat := none
  /-- what bytes that are not listed hold: 0 since the wipe (R456), 0x7F since an owner took it -/
  fill : Byte := 0
  bytes : List (Nat × Byte) := []
  xfers : List (Nat × Nat × List Byte) := []
  deriving DecidableEq, Repr

/-! Errors (17_faults.md). -/

/-- An error-log entry (R398). -/
structure ErrEntry where
  die : Nat
  /-- 0: the log that no context owns -/
  ctx : Nat
  code : Nat
  ovf : Bool
  rep : Nat
  /-- core or slice number -/
  unit : Nat
  addr : Nat
  cyc : Nat
  detail : Word
  deriving DecidableEq, Repr

/-! Caches and pages (11_memory_model.md R269, 18_page.md, 19_stack_logic.md). -/

/-- A near copy or a replica of a line (R269, R418). -/
structure CopyLine where
  near : Bool
  ctx : Nat
  die : Nat
  /-- slice that holds it -/
  slice : Nat
  stack : Nat
  /-- line number in the stack -/
  line : Nat
  /-- sectors that hold data -/
  valid : BitVec 4 := 0
  psn : BitVec 4 := 0
  /-- bytes written and not yet home -/
  dirty : BitVec 128 := 0
  /-- a REL command at device or system scope made a store to it that is not yet home (R280) -/
  rel : Bool := false
  /-- bytes by offset, zeros not listed -/
  data : List (Nat × Byte) := []
  /-- its last use among the lines of the L2 -/
  used : Nat := 0
  deriving DecidableEq, Repr

/-- A home line in its home slice (R418). -/
structure HomeLine where
  stack : Nat
  /-- line number in the stack -/
  line : Nat
  valid : BitVec 4 := 0
  dirty : BitVec 4 := 0
  psn : BitVec 4 := 0
  /-- bytes by offset, zeros not listed -/
  data : List (Nat × Byte) := []
  used : Nat := 0
  deriving DecidableEq, Repr

/-- A leaf in a copy TLB (R403, R404). -/
structure TlbEntry where
  core : Nat
  ctx : Nat
  base : Nat
  size : Nat
  host : Bool
  pa : Nat
  r : Bool
  w : Bool
  x : Bool
  psn : Bool
  deriving DecidableEq, Repr

/-- A non-leaf entry in a walk cache: the table of a level that a prefix of the address leads to (R403, R404). -/
structure WalkEntry where
  die : Nat
  ctx : Nat
  level : Nat
  /-- virtual address / span of the table -/
  prefix_ : Nat
  table : Nat
  deriving DecidableEq, Repr

/-- Who asked for a translation (Table 18-5 SRC). -/
inductive Requester where
  | cmd (n : Nat)
  | refl (n : Nat)
  | queue (q : Nat)
  | admission (k : Nat)
  | save (ctx : Nat)
  deriving DecidableEq, Repr

/-- A walk in flight (R403). -/
structure Walk where
  die : Nat
  core : Nat
  ctx : Nat
  va : Nat
  write : Bool
  /-- an invalidation discards its result (R406) -/
  stale : Bool := false
  req : Requester
  deriving DecidableEq, Repr

/-- An outstanding fault record (R407). -/
structure FaultRec where
  die : Nat
  id : Nat
  ctx : Nat
  page : Nat
  words : List Word
  reason : Nat
  /-- written to the driver's ring -/
  sent : Bool := false
  deriving DecidableEq, Repr

/-- A page request of a bridge to its host (R451): function, and the fault record that waits for its answer. -/
structure PageReq where
  func : Nat
  die : Nat
  fault : Nat
  /-- page of the faulting address -/
  page : Nat
  deriving DecidableEq, Repr

/-- An INVAL or ATS invalidation under way (R406, R451). -/
structure Inval where
  /-- context, or none for every context of a function -/
  ctx : Option Nat
  func : Nat
  /-- first page and pages of 64 KiB; ATS: bus addresses -/
  first : Nat
  count : Nat
  ats : Bool
  flush : Bool
  /-- management command that waits, if any -/
  mgmt : Option MgmtRef
  /-- commands that still hold a translation of the range -/
  holders : List Nat
  deriving DecidableEq, Repr

/-- An entry of an access-counter table (R413). -/
structure CountEntry where
  page : Nat
  count : Nat
  armed : Bool
  deriving DecidableEq, Repr

/-- A migration request sent to the driver: counter table, page, count (R413). -/
structure MigReq where
  table : Nat
  page : Nat
  count : Nat
  deriving DecidableEq, Repr

/-- A transducer lane (R431, Table 19-6). -/
structure TxLane where
  owner : Option Nat := none
  table : List Byte := []
  /-- commands that have reached the lane, in order -/
  queue : List Nat := []
  /-- the first of them runs -/
  busy : Bool := false
  deriving DecidableEq, Repr

/-- A logical block of 1 KiB: its bytes, and the poison of its sectors (R425). -/
structure Block where
  bytes : List Byte
  psn : BitVec 32
  deriving DecidableEq, Repr

/-- A page drain under way (R428): stack, first block of the page there, blocks. -/
structure Drain where
  stack : Nat
  first : Nat
  blocks : Nat
  /-- a collision caused it: it is reported to the driver -/
  overflow : Bool
  /-- the first slot that has not been rewritten -/
  next : Nat
  /-- its attribute is 2 already; it waits otherwise (R409) -/
  begun : Bool := true
  /-- blocks that found the collision table full, by slot: they are stored when the page has drained -/
  waiting : List (Nat × Block) := []
  deriving DecidableEq, Repr

/-! Reflections (13_reflection.md). -/

/-- Phases of Table 13-5. -/
inductive ReflSt where
  | registering | live | unsubscribing | lost
  deriving DecidableEq, Repr

/-- A reflection (R309, R310). -/
structure Refl where
  core : Nat
  /-- byte offset of the slot in its core -/
  off : Nat
  size : Nat
  team : Nat
  ctx : Nat
  /-- device virtual address -/
  va : Nat
  st : ReflSt
  /-- where the range lies -/
  stack : Nat
  soff : Nat
  /-- its page is write-poisoned: the load delivers poison (R402) -/
  bad : Bool := false
  count : Word := 0
  pend : Bool := false
  ovr : Bool := false
  gap : Bool := false
  relp : Bool := false
  /-- stores that its home held when it was registered: they are in the loaded bytes (R319) -/
  skip : Nat := 0
  /-- re-established after a save: the load keeps COUNT and sets GAP (R325) -/
  again : Bool := false
  /-- the results of the UNREFLs that wait for it -/
  unrefs : List Nat := []
  /-- an UNREFL, or the end of its team, applies after its load -/
  leaving : Bool := false
  /-- the device ends it after its load (R326) -/
  doomed : Bool := false
  deriving DecidableEq, Repr

/-- A watched range at its home (R313). -/
structure WRange where
  stack : Nat
  off : Nat
  size : Nat
  /-- cycle of the last push, if one has left -/
  last : Option Nat := none
  /-- stores held since then -/
  held : Nat := 0
  rel : Bool := false
  deriving DecidableEq, Repr

/-- A push in flight to a core (R313, R314). -/
structure RPush where
  home : Nat
  core : Nat
  /-- reflections it goes to, each with the stores it covers -/
  to_ : List (Nat × Nat)
  data : List Byte
  /-- poison of each 32-byte sector of the range -/
  psn : Bool × Bool
  rel : Bool
  /-- the line of the range, by which its way goes (R19) -/
  line : Nat
  deriving DecidableEq, Repr

/-! Saved contexts (16_context.md R377). -/

/-- What a pre-emption save holds of a context. -/
structure Image where
  /-- 1 mid-kernel, 2 phase image -/
  kind : Nat
  teams : List (Nat × Team) := []
  groups : List (Nat × Group) := []
  clusters : List (Nat × Cluster) := []
  refls : List (Nat × Refl) := []
  /-- engine contexts by key, and the commands on them -/
  engines : List (Nat × Engine) := []
  cmds : List (Nat × Cmd) := []
  /-- words of live granules that are not 0, by team * 65536 + word of the allotment -/
  spad : List (Nat × PWord) := []
  /-- live granules, by team: granules of the allotment -/
  live : List (Nat × Word) := []
  /-- stores to other cores that were on the mesh at the save, with the team of their target; words from its allotment -/
  stores : List (Nat × Nat × Remote) := []
  /-- program indexes of graphs that stand at phase boundaries (R358) -/
  graphs : List (Nat × Graph) := []
  /-- words of the cores' slots as the save wrote them, in pieces by address (R378) -/
  slots : List (Nat × List Nat) := []
  deriving DecidableEq, Repr

/-! Dies (20_link.md, 21_host_firmware.md). -/

/-- Phases of a die (R448, R455, R457): before its firmware is verified, wiping, training its links, ready, fenced
off in a warm reset, and in recovery. -/
inductive DiePhase where
  | boot | wiping | training | ready | warm | recovery
  deriving DecidableEq, Repr

/-- A die. -/
structure Die where
  phase : DiePhase := .boot
  /-- layout of the mode it carries; 0: none (R364) -/
  mode : Nat := 0
  /-- 0 manufacturing, 1 provisioned, 2 deployed, 3 returned (R456) -/
  life : Nat := 2
  svn : Nat := 0
  digest : List Byte := []
  minSvn : Nat := 0
  identity : Bool := true
  throttled : Bool := false
  /-- last fault identifier given (R407) -/
  faultSeq : Nat := 0
  /-- the stored firmware image did not verify, and no other has been accepted since (R455) -/
  rejected : Bool := false
  /-- HI and LO of its counter tables (R413) -/
  hi : Nat := 65535
  lo : Nat := 1
  lastHalf : Nat := 0
  /-- entries of an error log at which the driver is interrupted; 0: never (R398) -/
  logAt : Nat := 0
  /-- power limit set as policy, in watts; 0: none set, and the envelope bounds alone (R454) -/
  power : Nat := 0
  /-- retired slices, 16 * stack + u (R420) -/
  retired : List Nat := []
  /-- a warm reset is under way (R448) -/
  warmed : Bool := false
  /-- cycle at which its quiesce begins and traffic routed through it switches paths -/
  switchAt : Nat := 0
  /-- markers of its stacks are drawn from this count (R424) -/
  draw : Nat := 0
  deriving DecidableEq, Repr

/-- Link states of Table 20-4. -/
inductive LinkSt where
  | down | training | up | quiescing | quiesced | retraining | failed
  deriving DecidableEq, Repr

/-- A flit in a replay buffer (R440, R441). -/
structure Flit where
  seq : Nat
  bytes : List Byte
  /-- times it has been replayed -/
  replays : Nat := 0
  deriving DecidableEq, Repr

/-- A link (R440 to R443). -/
structure Link where
  st : LinkSt := .down
  lanes : Nat := 0
  crc : Nat := 0
  retrains : Nat := 0
  /-- failures in a row -/
  fails : Nat := 0
  /-- a quiesce recorded while Retraining -/
  recorded : Bool := false
  /-- cycle at which quiescing, or the attempt, began -/
  since : Nat := 0
  /-- next sequence number to send, and next expected -/
  tx : Nat := 0
  rx : Nat := 0
  /-- a replay has been requested and not yet answered -/
  gap : Bool := false
  /-- flits sent and not acknowledged -/
  replay : List Flit := []
  /-- replays of the missing flit that have been refused (R441) -/
  refused : Nat := 0
  /-- flits that wait until the link is Up, with the die that holds each -/
  waiting : List (Nat × List Byte) := []
  deriving DecidableEq, Repr

/-- What links have handed on (R440, R446): a flit delivered here, sent on a link, or dropped with an error reply; a request to
replay from a sequence number. -/
inductive Handed where
  | here (flit : List Byte)
  | replay (link seq : Nat)
  | out (link : Nat) (flit : List Byte)
  | dropped (flit : List Byte)
  deriving DecidableEq, Repr

/-! The whole. -/

/-- A core (R24 to R26). -/
structure Core where
  /-- CYC − now, modulo 2^64 -/
  cycBase : Nat := 0
  /-- first cycle at which pipes I, FA, FB, M, L, C accept a word (R79) -/
  pipes : List Nat := [0, 0, 0, 0, 0, 0]
  /-- out of service (R396) -/
  out : Bool := false
  /-- pass of each principal context (R368), by tag -/
  passes : List (Nat × Nat) := []
  /-- layout records cached: address, version, words (R210) -/
  layouts : List (Nat × Nat × List Nat) := []
  /-- the context whose team took the core last (R210) -/
  taken : Nat := 0
  /-- the instruction cache: 16,384 words by where they lie, the latest first (R26) -/
  icache : List (Nat × Nat) := []
  /-- outbound buffer of host-ring pushes (R342) -/
  outbound : List RingPush := []
  /-- principal contexts that could issue when the core last looked, and that cycle plus one -/
  issuable : List Nat := []
  looked : Nat := 0
  deriving DecidableEq, Repr

/-- What a trap says beside its place and its word: kind and cause (Table 17-1), DETAIL and TMASK. -/
structure Trap where
  kind : Nat
  cause : Nat := 0
  detail : Word := 0
  tmask : Word := 0
  deriving DecidableEq, Repr

/-- What the last executed word did (R60, R76): the step reads it. -/
inductive Signal where
  | issued
  | stalled (w : Wait)
  | trapped (t : Trap)
  deriving DecidableEq, Repr

/-! Parts (00_scope.md R1 to R3). -/

/-- The parts of Table 0-1. -/
inductive Part where
  | ct4810 | ct4840 | ct4880
  deriving DecidableEq, Repr

/-- The dies of a part. -/
def Part.dies : Part → List Nat
  | .ct4810 => [0]
  | _ => [0, 1, 2, 3]

/-- Its host ports, one function each (R449). -/
def Part.ports : Part → Nat
  | .ct4810 => 1
  | _ => 2

/-- Its work queues (R327). -/
def Part.queues : Part → Nat
  | .ct4810 => 2048
  | _ => 8192

/-- It offers a device mode (R364). (log 7) -/
def Part.offers : Part → Nat → Bool
  | .ct4810, mode => mode == 1
  | _, mode => mode == 1 || mode == 2 || mode == 4

/-- How the devices of a mode are laid out, as one of the modes 1, 2 and 4 of four dies: the mode-1 device of a CT-4810 is
die 0 alone with its four stacks and 2,048 queues, as device 0 of mode 4 is (R2, Table 16-2). (log 7) -/
def Part.layout : Part → Nat → Nat
  | .ct4810, _ => 4
  | _, mode => mode

structure State where
  /-- the part that the machine is (R1); no event changes it (log 7) -/
  part : Part := .ct4840
  /-- cycles of the core clock since reset -/
  now : Nat := 0
  /-- next core to be offered its issue slot in this cycle -/
  turn : Nat := 0
  /-- free-value counter -/
  free : Nat := 0
  /-- next identifier of an object -/
  nextId : Nat := 1
  /-- outside events not yet applied -/
  inputs : List Instr := []
  cur : Option Issue := none
  signal : Signal := .issued
  cores : List (Nat × Core) := []
  groups : List (Nat × Group) := []
  teams : List (Nat × Team) := []
  clusters : List (Nat × Cluster) := []
  kernels : List (Nat × Kernel) := []
  ctxs : List (Nat × Ctx) := []
  /-- loans, by tag * 1024 + core -/
  loans : List (Nat × Loan) := []
  /-- scratchpad words that are not 0, by core * 65536 + word -/
  spad : List (Nat × PWord) := []
  /-- engine contexts, by (tag * 1024 + core) * 4 + number -/
  engines : List (Nat × Engine) := []
  /-- remote scratchpad accesses issued and not performed (R187) -/
  inflight : List (Nat × Remote) := []
  cmds : List (Nat × Cmd) := []
  /-- token buckets, by tag * 4 + die -/
  buckets : List (Nat × Bucket) := []
  errlog : List ErrEntry := []
  /-- DL, the die-local reserve of every stack in GiB (R414) -/
  dl : Nat := 4
  /-- bytes that the stacks store, where not 0, by stack * 2^36 + offset, stack = die * 4 + stack on that die -/
  mem : List Host.Cell := []
  /-- poisoned 32-byte sectors as they are stored, by stack * 2^31 + sector -/
  memPsn : List (Nat × Bool) := []
  /-- host memory bytes that are not 0, by bus address -/
  host : List Host.Cell := []
  /-- bytes of host memory whose completions carry EP = 1 (R391) -/
  hostPsn : List (Nat × Bool) := []
  dies : List (Nat × Die) := []
  links : List (Nat × Link) := []
  /-- route tables of dies 2 and 3, by die * 262144 + package; 0 is invalid (R446) -/
  routes : List (Nat × Nat) := []
  handed : List Handed := []
  /-- host ports that are neither in L0 nor in L0p (R449) -/
  portDown : List (Nat × Nat) := []
  /-- the module's management interface has lowered the power limit (R459) -/
  powerLow : Bool := false
  /-- interrupts raised: function and vector, newest first (R343, R449) -/
  msix : List (Nat × Nat) := []
  /-- near copies and replicas -/
  copies : List CopyLine := []
  /-- home lines (R418) -/
  homes : List HomeLine := []
  /-- uses of L2 lines so far, for the order of their use (R418) (log 29) -/
  l2Uses : Nat := 0
  tlb : List TlbEntry := []
  walkCache : List WalkEntry := []
  walks : List (Nat × Walk) := []
  faults : List FaultRec := []
  invals : List (Nat × Inval) := []
  /-- translations of bus pages that a function's bridge has from the host: function and page (R451) -/
  atsHeld : List (Nat × Nat) := []
  pri : List (Nat × PageReq) := []
  /-- attributes of 4 KiB blocks, by stack * 2^24 + block; 3, never written, is not listed (R423) -/
  attr : List (Nat × Nat) := []
  /-- collision tables: slot numbers by stack (R426) -/
  collisions : List (Nat × List Nat) := []
  drains : List (Nat × Drain) := []
  /-- collision overflows reported to the driver: stack and block (R428) -/
  overflows : List (Nat × Nat) := []
  txlanes : List (Nat × TxLane) := []
  /-- counter tables: stacks 0 to 15, host-port bridges 16 and 17 (R413) -/
  counters : List (Nat × List CountEntry) := []
  migreqs : List MigReq := []
  refls : List (Nat × Refl) := []
  ranges : List WRange := []
  rpushes : List (Nat × RPush) := []
  /-- work queues by package number; the management queue of die d in function f is 8192 + 4 f + d -/
  queues : List (Nat × Queue) := []
  /-- host rings, by tag * 32 + ring -/
  hrings : List (Nat × HRing) := []
  graphs : List (Nat × Graph) := []
  /-- saved contexts, by tag -/
  images : List (Nat × Image) := []
  /-- work of each core's matrix engine, in issue order (R298) -/
  mwork : List (Nat × List MWork) := []
  scales : List (Nat × ScaleMem) := []
  /-- scale memory that a pre-emption saved and no core has installed again, by tag * 1024 + core (R289) -/
  savedScales : List (Nat × List (Nat × Byte)) := []
  /-- the queue that each die's dispatcher served last (R330) -/
  lastQueue : List (Nat × Nat) := []
  deriving DecidableEq, Repr

/-- The machine right after reset. (log 1, 4) -/
def State.reset : State := {}

end Sys2Proof.Machine
end

