-- ==== Sys2Proof/Machine/Stacks.lean ====
section
/-! DEFINITION. What the stacks store and the L2 holds over them: slots, raw and compressed, their index and streams, and
the byte that a home has (spec 17_faults.md R391, 19_stack_logic.md R418, R423 to R430). -/

namespace Sys2Proof.Machine

/-- The word whose bit L is p L, for L below n. -/
def maskUpTo (p : Nat → Bool) : Nat → Nat
  | 0 => 0
  | n + 1 => maskUpTo p n + (if p n then 2 ^ n else 0)

/-- A little-endian number of n bytes (R7). -/
def leNat (f : Nat → Byte) : Nat → Nat
  | 0 => 0
  | n + 1 => (f 0).toNat + 256 * leNat (fun i => f (i + 1)) n

/-- Byte i of a number, little-endian. -/
def byteOf (v i : Nat) : Byte := BitVec.ofNat 8 (v / 256 ^ i)

/-! The stored bytes and the poison of stored sectors (R391). -/

/-- The byte stored at an offset of a stack. (log 5) -/
def State.slotByte (s : State) (stack off : Nat) : Byte := readAt 0 s.mem (stack * 68719476736 + off)

/-- Store a byte at an offset of a stack. -/
def State.setSlotByte (s : State) (stack off : Nat) (b : Byte) : State :=
  { s with mem := writeAt 0 (stack * 68719476736 + off) b s.mem }

/-- The stored 32-byte sector at an offset of a stack is poisoned. -/
def State.slotPsn (s : State) (stack off : Nat) : Bool := readAt false s.memPsn (stack * 2147483648 + off / 32)

def State.setSlotPsn (s : State) (stack off : Nat) (p : Bool) : State :=
  { s with memPsn := writeAt false (stack * 2147483648 + off / 32) p s.memPsn }

/-- Attribute of the 4 KiB block at a stack offset (R423). (log 4) -/
def State.attrAt (s : State) (stack off : Nat) : Nat := readAt 3 s.attr (stack * 16777216 + off / 4096)

/-- The page at a stack offset may hold compressed slots: attribute 1 or 2 (R423). -/
def State.mayPack (s : State) (stack off : Nat) : Bool := s.attrAt stack off == 1 || s.attrAt stack off == 2

/-- The marker of a stack (R424). (log 31) -/
def State.markerOf (s : State) (stack : Nat) : Nat :=
  Config.marker (((lookup (stack / 4) s.dies).getD {}).draw * 16 + stack) % 18446744073709551616

/-! Sectors as streams (R425). -/

/-- KIND and stream of a logical sector. -/
def sectorStream (psn : Bool) (bytes : List Byte) : Nat × List Byte :=
  let full := bytes.filter (· != 0)
  if psn || full.isEmpty then (0, [])
  else if full.length ≤ 27 then
    let mask := maskUpTo (fun k => bytes.getD k 0 != 0) 32
    (1, (List.range 4).map (byteOf mask) ++ full)
  else (2, bytes)

/-- The bytes that a mask names, from a stream in order; the others are 0. -/
def spread : List Bool → List Byte → List Byte
  | [], _ => []
  | true :: ms, b :: bs => b :: spread ms bs
  | true :: ms, [] => 0 :: spread ms []
  | false :: ms, bs => 0 :: spread ms bs

/-- The mask of a KIND 1 stream, bit by bit. -/
def streamMask (stream : List Byte) : List Bool := (List.range 32).map (leNat (fun i => stream.getD i 0) 4).testBit

/-- A sector from its KIND and its stream. -/
def expandStream (kind : Nat) (stream : List Byte) : List Byte :=
  match kind with
  | 1 => spread (streamMask stream) (stream.drop 4)
  | 2 => stream
  | _ => List.replicate 32 0

/-! Index entries (Table 19-1). -/

/-- The entry of a sector: its poison, and the offset and the KIND of its stream. -/
def indexEntry (psn : Bool) (off kind len : Nat) : Nat :=
  if psn then 2147483648 else (if kind == 0 then 0 else off * 262144) + kind * 65536 + len

def entryPsn (w : Nat) : Bool := w.testBit 31
def entryOff (w : Nat) : Nat := w / 262144 % 1024
def entryKind (w : Nat) : Nat := w / 65536 % 4
def entryLen (w : Nat) : Nat := w % 64

/-- A LEN fits its KIND. -/
def kindOk (kind len : Nat) : Bool :=
  match kind with
  | 0 => len == 0
  | 1 => 5 ≤ len && len ≤ 31
  | 2 => len == 32
  | _ => false

/-- An entry keeps the layout that R430 asks for. -/
def entryOk (w : Nat) : Bool :=
  w / 64 % 1024 == 0 && w / 268435456 % 8 == 0 && kindOk (entryKind w) (entryLen w) && entryOff w + entryLen w ≤ 1016

/-! Blocks. -/

/-- Sector i of a block. -/
def Block.sector (b : Block) (i : Nat) : List Byte := (b.bytes.drop (32 * i)).take 32

/-- KIND and stream of every sector of a block, ascending. -/
def Block.streams (b : Block) : List (Nat × List Byte) := (List.range 32).map fun i => sectorStream (b.psn.getLsbD i) (b.sector i)

/-- A block is stored compressed: 136 plus its LEN values is below 1024 (R426). -/
def Block.packs (b : Block) : Bool := 136 + (b.streams.map fun x => x.2.length).sum < 1024

/-- The index of a block whose streams follow one another from an offset on. -/
def indexFrom (psn : Nat → Bool) : Nat → Nat → List (Nat × List Byte) → List Nat
  | _, _, [] => []
  | i, off, x :: xs => indexEntry (psn i) off x.1 x.2.length :: indexFrom psn (i + 1) (off + x.2.length) xs

/-- The index of a compressed block. -/
def Block.index (b : Block) : List Nat := indexFrom b.psn.getLsbD 0 128 b.streams

/-- The slot of a compressed block: index, streams, zeros, marker (R424). -/
def Block.packed (b : Block) (marker : Nat) : List Byte :=
  let body := (b.index.flatMap fun w => (List.range 4).map (byteOf w)) ++ b.streams.flatMap (·.2)
  body ++ List.replicate (1016 - body.length) 0 ++ (List.range 8).map (byteOf marker)

/-- A block with the bytes and the poison of a write of one of its lines (R391, R429). -/
def Block.merge (b : Block) (w : HomeWrite) : Block :=
  let base := 128 * (w.line % 8)
  { bytes := w.bytes.foldl (fun bs x => bs.set (base + x.1) x.2) b.bytes
    psn := w.sectors.foldl (fun m k =>
      let bit : BitVec 32 := 1#32 <<< (base / 32 + k)
      if w.psn.contains k then m ||| bit else if w.whole k then m &&& ~~~bit else m) b.psn }

/-! What a slot means. -/

/-- Bytes 1016 to 1023 of a slot equal the marker of its stack (R424). (log 31) -/
def State.holdsMarker (s : State) (stack off : Nat) : Bool :=
  leNat (fun i => s.slotByte stack (off / 1024 * 1024 + 1016 + i)) 8 == s.markerOf stack

/-- The slot at an offset is compressed (R424). -/
def State.compressed (s : State) (stack off : Nat) : Bool := s.mayPack stack off && s.holdsMarker stack off

/-- The index entry of the logical sector at an offset. -/
def State.entryAt (s : State) (stack off : Nat) : Nat :=
  leNat (fun i => s.slotByte stack (off / 1024 * 1024 + 4 * (off % 1024 / 32) + i)) 4

/-- The stream of the logical sector at an offset. -/
def State.streamAt (s : State) (stack off : Nat) : List Byte :=
  let w := s.entryAt stack off
  (List.range (entryLen w)).map fun i => s.slotByte stack (off / 1024 * 1024 + entryOff w + i)

/-- The logical sector at an offset of a compressed slot has no good entry: its entry breaks the layout, or its stream lies
in the index or has not the bytes that its mask names (R430). (log 31) -/
def State.malformed (s : State) (stack off : Nat) : Bool :=
  let w := s.entryAt stack off
  !entryOk w || (entryKind w != 0 && entryOff w < 128) ||
    (entryKind w == 1 && (streamMask (s.streamAt stack off)).countP id + 4 != entryLen w)

/-- A stored sector that the logical sector at an offset of a compressed slot is read from is poisoned: that of the marker,
that of its index entry, or one of its stream (R430). -/
def State.struck (s : State) (stack off : Nat) : Bool :=
  let slot := off / 1024 * 1024
  let w := s.entryAt stack off
  s.slotPsn stack (slot + 992) || s.slotPsn stack (slot + off % 1024 / 256 * 32) ||
    (List.range (entryLen w)).any fun i => s.slotPsn stack (slot + entryOff w + i)

/-- The block that waits for its page to drain (R428). -/
def State.waitingBlock (s : State) (stack slot : Nat) : Option Block :=
  s.drains.findSome? fun p => if p.2.stack == stack then lookup slot p.2.waiting else none

/-- The slot at an offset is a collision that the table of its stack lists (R426). -/
def State.listed (s : State) (stack off : Nat) : Bool := (readAt [] s.collisions stack).contains (off / 1024)

/-- The byte at an offset of a stack as its slot gives it. A sector that is stored poisoned keeps no bytes: they are free.
(log 31) -/
def State.unpackedByte (s : State) (stack off : Nat) : Byte :=
  if s.compressed stack off then
    if entryPsn (s.entryAt stack off) || s.malformed stack off then
      (Config.freeWord (stack * 68719476736 + off)).truncate 8
    else (expandStream (entryKind (s.entryAt stack off)) (s.streamAt stack off)).getD (off % 32) 0
  else if 1016 ≤ off % 1024 && s.listed stack off then ~~~ s.slotByte stack off
  else s.slotByte stack off

/-- The byte at an offset of a stack, behind the slices. (log 5) -/
def State.stackByte (s : State) (stack off : Nat) : Byte :=
  if s.mayPack stack off then
    match s.waitingBlock stack (off / 1024) with
    | some b => b.bytes.getD (off % 1024) 0
    | none => s.unpackedByte stack off
  else s.slotByte stack off

/-- The poison of the logical sector at an offset of a stack, behind the slices. -/
def State.stackPsn (s : State) (stack off : Nat) : Bool :=
  if s.mayPack stack off then
    match s.waitingBlock stack (off / 1024) with
    | some b => b.psn.getLsbD (off % 1024 / 32)
    | none =>
      if s.compressed stack off then entryPsn (s.entryAt stack off) || s.malformed stack off || s.struck stack off
      else s.slotPsn stack off
  else s.slotPsn stack off

/-! The home lines over the stacks (R418). -/

/-- The home line that holds a line of a stack. -/
def State.homeLine (s : State) (stack line : Nat) : Option HomeLine := s.homes.find? fun h => h.stack == stack && h.line == line

/-- The byte at an offset of a stack as its home has it. -/
def State.homeByte (s : State) (stack off : Nat) : Byte :=
  match s.homeLine stack (off / 128) with
  | some h => if h.valid.getLsbD (off % 128 / 32) then readAt 0 h.data (off % 128) else s.stackByte stack off
  | none => s.stackByte stack off

/-- The poison of the 32-byte sector at an offset of a stack as its home has it. -/
def State.sectorPsn (s : State) (stack off : Nat) : Bool :=
  match s.homeLine stack (off / 128) with
  | some h => if h.valid.getLsbD (off % 128 / 32) then h.psn.getLsbD (off % 128 / 32) else s.stackPsn stack off
  | none => s.stackPsn stack off

end Sys2Proof.Machine
end

