-- ==== Sys2Proof/Machine/Ops.lean ====
section
/-! DEFINITION. The named operations over memory, frames, scratchpad, groups and teams; taking a trap and the end
of a handler; error log and checkpoints (spec 04, 07, 08, 17, 19). -/

namespace Sys2Proof.Machine

/-- Outcome of an instruction. -/
abbrev Out := Host.Outcome State Fault Refusal

/-! Bit sets of lanes. -/

/-- The set of the lanes L with p L. -/
def maskOf (p : Nat → Bool) : Word := BitVec.ofNat 32 (maskUpTo p 32)

/-- The lanes of a set, ascending. -/
def lanesOf (m : Word) : List Nat := (List.range 32).filter fun L => m.getLsbD L

/-- All 32 lanes. -/
def allLanes : List Nat := List.range 32

/-! Tables of the state. -/

/-- Byte i of a core's scale memory (R289). -/
def ScaleMem.byte (m : ScaleMem) (i : Nat) : Byte := readAt m.fill m.bytes i

/-- See assumption log 4. -/
def State.core (s : State) (c : Nat) : Core := (lookup c s.cores).getD {}
def State.setCore (s : State) (c : Nat) (x : Core) : State := { s with cores := writeAt {} c x s.cores }
def State.setGroup (s : State) (gid : Nat) (g : Group) : State := { s with groups := insertAt gid g s.groups }
def State.modGroup (s : State) (gid : Nat) (f : Group → Group) : State := { s with groups := modifyAt gid f s.groups }
def State.modTeam (s : State) (t : Nat) (f : Team → Team) : State := { s with teams := modifyAt t f s.teams }
def State.modCluster (s : State) (k : Nat) (f : Cluster → Cluster) : State :=
  { s with clusters := modifyAt k f s.clusters }
def State.modKernel (s : State) (k : Nat) (f : Kernel → Kernel) : State := { s with kernels := modifyAt k f s.kernels }
def State.modCtx (s : State) (t : Nat) (f : Ctx → Ctx) : State := { s with ctxs := modifyAt t f s.ctxs }
/-- The key of engine context e of a core as a context holds it (R363). (log 42) -/
def engineId (ctx core e : Nat) : Nat := (ctx * 1024 + core) * 4 + e

/-- See assumption log 42. -/
def State.engine (s : State) (e : Nat) : Engine := (lookup e s.engines).getD {}
def State.setEngine (s : State) (e : Nat) (x : Engine) : State := { s with engines := writeAt {} e x s.engines }

/-- A core's CYC (R20); the counts of all cores advance with the one cycle count `now`. (log 8) -/
def State.cyc (s : State) (c : Nat) : Nat := (s.now + (s.core c).cycBase) % 18446744073709551616

/-- Die of a core (R18). (log 7) -/
def dieOf (c : Nat) : Nat := c / 256
/-- The part has a die (R1, R2). (log 7) -/
def State.hasDie (s : State) (d : Nat) : Bool := s.part.dies.contains d
/-- The device mode that a context shows (Table 16-2): MODE of its record, where `Ctx.mode` holds the layout. (log 7) -/
def State.shownMode (s : State) (c : Ctx) : Nat := if s.part = .ct4810 then 1 else c.mode
/-- Mesh column and row of a core (R18). -/
def coreX (c : Nat) : Nat := c % 16
def coreY (c : Nat) : Nat := c % 256 / 16

/-- The dies of device `dev` of a mode, ascending (Table 16-2). (log 7) -/
def deviceDies (mode dev : Nat) : List Nat :=
  match mode with
  | 1 => [0, 1, 2, 3]
  | 2 => [2 * dev, 2 * dev + 1]
  | _ => [dev]

/-! Physical memory (R414, R415). -/

/-- Where a byte of physical memory lies. -/
inductive Place where
  /-- stack number in the package, die * 4 + stack, and offset in it -/
  | dev (stack off : Nat)
  | host (addr : Nat)
  deriving DecidableEq, Repr

/-- Stack and offset of physical address pa for a device; none where R415 fails it as MALFORMED. (log 7) -/
def physPlace (dl mode dev pa : Nat) : Option (Nat × Nat) :=
  let loc := pa / 2251799813685248 % 2 == 1
  let dies := if loc then [pa / 562949953421312 % 4] else deviceDies mode dev
  let b := (if loc then pa % 562949953421312 else pa % 2251799813685248) / 4096
  let n := 4 * dies.length
  let j := Nat.xor (b % n) (b / n % n)
  let off := b / n * 4096 + pa % 4096 + (if loc then (64 - dl) * 1073741824 else 0)
  let top := if loc then 64 * 1073741824 else (64 - dl) * 1073741824
  let die := dies.getD (j / 4) 0
  if top ≤ off then none
  else if loc && !(deviceDies mode dev).contains die then none
  else some (die * 4 + j % 4, off)

/-- See assumption log 5. -/
def State.hostByte (s : State) (a : Nat) : Byte := readAt 0 s.host a
def State.setHostByte (s : State) (a : Nat) (b : Byte) : State := { s with host := writeAt 0 a b s.host }

/-- A sector of host memory that holds one of n bytes is marked poisoned (R49). (log 5) -/
def State.hostBad (s : State) (x n : Nat) : Bool :=
  s.hostPsn.any fun p => p.2 && x / 32 ≤ p.1 / 32 && p.1 / 32 ≤ (x + n - 1) / 32

/-! Threads and frames. -/

def Group.thread (g : Group) (L : Nat) : Thread := g.threads.getD L {}

/-- Change thread L. -/
def Group.modThread (g : Group) (L : Nat) (f : Thread → Thread) : Group :=
  { g with threads := g.threads.modify L f }

/-- Change the threads of a lane set. -/
def Group.modLanes (g : Group) (m : Word) (f : Nat → Thread → Thread) : Group :=
  { g with threads := g.threads.mapIdx fun L t => if m.getLsbD L then f L t else t }

/-- The lanes whose thread satisfies p. -/
def Group.lanesWith (g : Group) (p : Thread → Bool) : Word := maskOf fun L => p (g.thread L)

/-- Frame word i; frame words start at 0, unpoisoned (R91). -/
def Group.word (g : Group) (i : Nat) : PWord := readAt PWord.zero g.frame i

/-- Frame word of allotment register n of lane L (Table 4-2). -/
def frameIdx (n L : Nat) : Nat := 32 * n + L

/-- Bytes of the frame (R88). -/
def Group.frameSize (g : Group) : Nat := 128 * g.regs + 256 * g.tsz + 8192 * g.accn

/-- First frame word of tile t (Table 4-2). -/
def Group.tileBase (g : Group) (t : Nat) : Nat := 32 * g.regs + 64 * g.tsz + 2048 * t

/-- The frame word that register name r means in lane L (R93). -/
def Group.regIdx (g : Group) (L r : Nat) : Nat := frameIdx (8 * (g.thread L).wbase + r) L

/-- A register as a thread's lane holds it now (R78). -/
def Group.reg (g : Group) (L r : Nat) : PWord := g.word (g.regIdx L r)

/-- A predicate: p0 reads true (R55). -/
def Thread.pred (t : Thread) (p : Nat) : Bool := p == 0 || t.preds.getLsbD p
/-- A predicate's poison bit (R102). -/
def Thread.predBad (t : Thread) (p : Nat) : Bool := p != 0 && t.predPsn.getLsbD p

/-- Set bit p to v. -/
def setBit16 (b : BitVec 16) (p : Nat) (v : Bool) : BitVec 16 :=
  (b &&& ~~~(1#16 <<< p)) ||| (if v then 1#16 <<< p else 0#16)

/-- Write a predicate; a write to p0 is discarded (R55). -/
def Thread.setPred (t : Thread) (p : Nat) (v psn : Bool) : Thread :=
  if p == 0 then t
  else { t with
    preds := setBit16 t.preds p v
    predPsn := setBit16 t.predPsn p psn }

/-- Merge a write of the bits of `mask` into a word (R89, R185): a write of part of a word keeps a set poison bit. -/
def mergeWord (old new : PWord) (mask : Word) : PWord :=
  if mask == 0xFFFFFFFF then new
  else ⟨(old.val &&& ~~~mask) ||| (new.val &&& mask), old.psn || new.psn⟩

/-! Checkpoints and the undo log (R394, R395). -/

/-- Entries of the undo log that the teams of a core hold. -/
def State.logUse (s : State) (core : Nat) : Nat :=
  s.teams.foldl (fun n p => if p.2.core == core then
    n + (match p.2.ckpt with
      | some c => c.log.length
      | none => 0) else n) 0

/-- Spend a team's checkpoint: its log entries are freed (R395). (log 56) -/
def State.spend (s : State) (t : Nat) : State :=
  s.modTeam t fun x => { x with ckpt := x.ckpt.map fun c => { c with spent := true, log := [] } }

/-- The words of a block by index. -/
def loggedBlock (f : Nat → PWord) : List (Nat × PWord) := (List.range 8).map fun k => (k, f k)

/-- An entry keeps the words that it names already, and takes those that it has left out. -/
def LogEntry.extend (e : LogEntry) (old : List (Nat × PWord)) : LogEntry :=
  { e with old := e.old ++ old.filter fun w => e.old.all fun v => v.1 != w.1 }

/-- Record the old contents of a block before its first write since the checkpoint (R394). (log 56) -/
def State.logBlock (s : State) (t : Nat) (nm : LogName) (old : List (Nat × PWord)) : State :=
  match lookup t s.teams with
  | none => s
  | some x =>
    match x.ckpt with
    | none => s
    | some c =>
      if c.spent then s
      else if c.log.any (fun e => e.name == nm) then
        s.modTeam t fun y => { y with ckpt := some { c with log := c.log.map fun e => if e.name == nm then e.extend old else e } }
      else if 819 ≤ s.logUse x.core then s.spend t
      else s.modTeam t fun y => { y with ckpt := some { c with log := ⟨nm, old⟩ :: c.log } }

/-- Write frame words of a group: the bits of each mask (R78, R394). -/
def State.writeFrame (s : State) (gid i : Nat) (v : PWord) (mask : Word) : State :=
  match lookup gid s.groups with
  | none => s
  | some g =>
    let b := i / 8 * 8
    let s1 := s.logBlock g.team (.frame gid b) (loggedBlock fun k => g.word (b + k))
    s1.setGroup gid { g with frame := writeAt PWord.zero i (mergeWord (g.word i) v mask) g.frame }

/-! Scratchpad (R182, R185). -/

/-- A scratchpad word of a core. -/
def State.spadWord (s : State) (core w : Nat) : PWord := readAt PWord.zero s.spad (core * 65536 + w)

/-- The team on a core whose allotment holds a scratchpad word. -/
def State.spadTeam (s : State) (core w : Nat) : Option Nat :=
  (s.teams.find? fun p => p.2.live && p.2.core == core && p.2.base ≤ w / 2048 &&
    w / 2048 < p.2.base + p.2.granules).map (·.1)

/-- A scratchpad word lies in the slot of a live reflection, which no undo log covers (R315, R394). -/
def State.inSlot (s : State) (core w : Nat) : Bool :=
  s.refls.any fun p => p.2.core == core && p.2.st == .live && p.2.off ≤ 4 * w && 4 * w < p.2.off + p.2.size

/-- Write the bits of `mask` of a scratchpad word on behalf of a team (R185, R394). -/
def State.writeSpad (s : State) (team : Nat) (core w : Nat) (v : PWord) (mask : Word) : State :=
  let b := w / 8 * 8
  let s1 := match lookup team s.teams with
    | some t => if t.core == core && t.base ≤ w / 2048 && w / 2048 < t.base + t.granules && !s.inSlot core w then
        s.logBlock team (.spad b) ((loggedBlock fun k => s.spadWord core (b + k)).filter fun x => !s.inSlot core (b + x.1)) else s
    | none => s
  { s1 with spad := writeAt PWord.zero (core * 65536 + w) (mergeWord (s.spadWord core w) v mask) s1.spad }

/-! Error log (R398). -/

/-- The cycle field of an entry: CYC of a core, or the model's cycle count for errors outside the cores. -/
def ErrEntry.same (a b : ErrEntry) : Bool :=
  a.die == b.die && a.code == b.code && a.ctx == b.ctx && a.unit == b.unit && a.addr == b.addr

/-- The driver is interrupted when a log comes to hold as many entries as firmware has set for its die (R398). (log 49) -/
def State.logInterrupt (s : State) (die ctx : Nat) : State :=
  let at_ := ((lookup die s.dies).map (·.logAt)).getD 0
  if at_ != 0 && s.errlog.countP (fun x => x.die == die && x.ctx == ctx) == at_ then
    { s with msix := (((lookup ctx s.ctxs).map (·.func)).getD 0, Config.errorVector % 2048) :: s.msix }
  else s

/-- Append an error to the log of its die and context, or raise the repeat count of the last entry there. The list
is kept newest first. (log 48, 49) -/
def State.logError (s : State) (e : ErrEntry) : State :=
  let mine := fun x : ErrEntry => x.die == e.die && x.ctx == e.ctx
  let full := 256 ≤ s.errlog.countP mine
  match s.errlog.find? mine with
  | some last =>
    if last.same e then
      { s with errlog := (s.errlog.takeWhile fun x => !mine x) ++
          ({ last with rep := min 65535 (last.rep + 1) } :: (s.errlog.dropWhile fun x => !mine x).drop 1) }
    else if full then
      let old := (s.errlog.reverse.takeWhile fun x => !mine x).reverse
      let front := (s.errlog.reverse.dropWhile fun x => !mine x).drop 1 |>.reverse
      { s with errlog := { e with ovf := true } :: (front ++ old) }
    else { s with errlog := e :: s.errlog }.logInterrupt e.die e.ctx
  | none => { s with errlog := e :: s.errlog }.logInterrupt e.die e.ctx

/-! Results in flight (R77, R78). -/

/-- Write one result. -/
def State.landOne (s : State) (gid : Nat) (r : Result) : State :=
  match r.target with
  | .word i => s.writeFrame gid i r.val r.mask
  | .pred L p => s.modGroup gid fun g => g.modThread L fun t => t.setPred p (r.val.val.getLsbD 0) r.val.psn
  | .mark => s

/-- Some earlier write to the same place is still outstanding. -/
def blockedBy (kept : List Result) (r : Result) : Bool :=
  kept.any fun k => k.target == r.target && r.target != .mark

/-- A result may land now: its latency has passed and no earlier write to its target is outstanding (R78). -/
def landsNow (now : Nat) (kept : List Result) (r : Result) : Bool :=
  match r.due with
  | some d => d ≤ now && !blockedBy kept r
  | none => false

/-- Land what may land, in issue order; `kept` holds the earlier results that stay outstanding, newest first. -/
def landList (gid : Nat) : List Result → List Result → State → State × List Result
  | [], kept, s => (s, kept.reverse)
  | r :: rs, kept, s =>
    if landsNow s.now kept r then landList gid rs kept (s.landOne gid r) else landList gid rs (r :: kept) s

/-- Some result of the group can land now. -/
def dueIn (now : Nat) : List Result → List Result → Bool
  | [], _ => false
  | r :: rs, kept => landsNow now kept r || dueIn now rs (r :: kept)

/-- RESULT_WRITEBACK: every result that has become available is written; a switch wait ends when none is left. -/
def State.land (s : State) (gid : Nat) : State :=
  match lookup gid s.groups with
  | none => s
  | some g =>
    let r := landList gid g.outstanding [] s
    r.1.modGroup gid fun g => { g with outstanding := r.2, switching := g.switching && !r.2.isEmpty }

/-- Add issued results (R78). -/
def Group.issue (g : Group) (rs : List Result) : Group := { g with outstanding := g.outstanding ++ rs }

/-! Group states (Table 7-3). -/

/-- Move a group to a state; the cycle is recorded for the order of R159. -/
def Group.enter (g : Group) (st : GroupSt) (now : Nat) : Group := { g with st := st, since := now }

/-- End a group: every thread has exited, outstanding work drains (Exiting). -/
def Group.ending (g : Group) (now : Nat) : Group :=
  { g with
    st := .exiting, since := now, unit := none, deferred := [], wait := .none, switching := false
    fence := none, record := none, second := none
    handler := .none, viewFrame := [], viewWords := []
    threads := g.threads.map fun t => { t with st := .exited, transfer := none } }

/-- Put the groups of a list into Exiting. -/
def State.endGroups (s : State) (gids : List Nat) : State :=
  { s with groups := s.groups.map fun p =>
      if gids.contains p.1 && p.2.st != .exiting then (p.1, p.2.ending s.now) else p }

/-- The handler group of a trapped group, if it runs. -/
def Group.handlerGroup (g : Group) : List Nat :=
  match g.handler with
  | .running h => [h]
  | _ => []

/-! Traps (17_faults.md R383 to R387). -/

/-- The cluster index of a group's team. -/
def State.clusterIndex (s : State) (g : Group) : Nat :=
  match lookup g.team s.teams with
  | some t => match lookup t.cluster s.clusters with
    | some k => k.index
    | none => 0
  | none => 0

/-- The register operand A of a word, its pattern entry and its register; none where AR names no source register
(Table 3-2). -/
def Instr.srcA : Instr → Option (Nat × Nat)
  | .iadd o | .isub o | .iaddc o | .orn o | .prmt o | .sel o | .fadd o | .fsub o | .fmul o | .ffma o | .ffms o
  | .badd2 o | .bmul2 o | .bfma2 o => some (o.ap.val, o.ar.val)
  | .imul o | .imulh _ o | .imad o | .imadw _ o | .iadd64 o | .isub64 o | .shl64 o | .shr64 _ o | .lea _ o | .imin _ o
  | .imax _ o | .and o | .or o | .xor o | .andn o | .shl o | .shr o | .sar o | .rotl o | .bfx _ o | .bfi o | .fmin o
  | .fmax o | .bmin2 o | .bmax2 o | .fpack _ o | .shfl _ o => some (o.ap.val, o.ar.val)
  | .iaddImm o => some (o.ap.val, o.ar.val)
  | .shlImm o | .shrImm o | .sarImm o | .rotlImm o => some (o.ap.val, o.ar.val)
  | .isetp _ _ o | .fsetp _ o => some (0, o.ar.val)
  | .popc o | .clz o | .ctz o | .brev o | .iabs o | .ineg o | .mov o | .fabs o | .fneg o | .fclass o | .frnd _ o | .frcp o
  | .frsq o | .fsqrt o | .fexp2 o | .flog2 o | .fsin o | .fcos o | .ftanh o | .redux _ o | .fredux _ o | .scan _ _ o
  | .matchLanes o | .msld o | .boinit o | .boarr _ o | .bowait o | .botest _ o | .rainit o | .rawait o | .rawaitFree o
  | .rseq _ o | .rack o | .launch o | .pclrReg o => some (o.ap.val, o.ar.val)
  | .f2i _ o | .i2f _ o | .fcvtBf16F32 o | .fcvtF32Bf16 o | .fcvtF16F32 o | .fcvtE4m3F32 o | .fcvtE5m2F32 o
  | .funpack o => some (o.ap.val, o.ar.val)
  | .pset o | .winReg o | .ptn _ o | .qbind _ o | .agive _ _ o | .azero _ o | .mfmt _ o | .brx o | .ret o | .sleep o
  | .rarel o | .unrefl o | .dcdec o | .gcond _ o | .lend o | .swr _ o | .tres o | .pchkReg _ o => some (o.ap.val, o.ar.val)
  | .lds o | .sts o | .ldx o | .stx o | .ldt o | .stt o | .ldr o | .str o => some (0, o.ar.val)
  | .atoms o | .atomx o => some (0, o.ar.val)
  | .cass o | .casx o => some (0, o.ar.val)
  | .copy o | .copyl o | .gath o | .scat o | .bgath o | .bscat o | .mcast o | .cfence o | .atomc o | .redc o | .fill o
  | .waitc o | .signal o | .txload o | .txrun o | .pref o => some (0, o.ar.val)
  | .mmaK16 o | .mmaK8 o | .mmas o | .mmaSig _ o _ | .mmasSig o _ => some (0, o.ar.val)
  | .asts o | .astc o => some (0, o.ar.val)
  | .join r | .refl _ r _ | .tkput r | .tkdone r | .dcset r => some (0, r.val)
  | _ => none

/-- The register operand B of a word. -/
def Instr.srcB : Instr → Option (Nat × Nat)
  | .iadd o | .isub o | .iaddc o | .orn o | .prmt o | .sel o | .fadd o | .fsub o | .fmul o | .ffma o | .ffms o
  | .badd2 o | .bmul2 o | .bfma2 o => some (o.bp.val, o.br.val)
  | .imul o | .imulh _ o | .imad o | .imadw _ o | .iadd64 o | .isub64 o | .shl64 o | .shr64 _ o | .lea _ o | .imin _ o
  | .imax _ o | .and o | .or o | .xor o | .andn o | .shl o | .shr o | .sar o | .rotl o | .bfx _ o | .bfi o | .fmin o
  | .fmax o | .bmin2 o | .bmax2 o | .fpack _ o | .shfl _ o => some (0, o.br.val)
  | .isetp _ _ o | .fsetp _ o => some (o.bp.val, o.br.val)
  | .atoms o | .atomx o => some (0, o.br.val)
  | .cass o | .casx o => some (0, o.br.val)
  | .mmaK16 o | .mmaK8 o | .mmas o | .mmaSig _ o _ | .mmasSig o _ => some (0, o.br.val)
  | _ => none

/-- The trap record (Table 17-2); `mask` is the active set of the issue, or 0. (log 13) -/
def trapRecord (s : State) (g : Group) (o : Issue) (mask : Word) (t : Trap) : List PWord :=
  let w := fun n : Nat => PWord.ok (BitVec.ofNat 32 n)
  let lane := fun ps : List PWord => match lanesOf t.tmask with
    | L :: _ => ps.getD L PWord.zero
    | [] => PWord.zero
  [w (t.kind + 256 * t.cause + 65536 * o.pos),
   w (g.slot + 128 * g.num + 4194304 * g.core),
   PWord.ok mask, PWord.ok t.tmask, w o.k, PWord.ok o.insn, lane o.opa, lane o.opb, PWord.ok t.detail, PWord.ok o.lit,
   w (s.clusterIndex g), w g.ctx, w (s.cyc g.core % 4294967296), w (s.cyc g.core / 4294967296),
   PWord.ok (g.lanesWith fun t => t.st == .joining), PWord.zero]

/-- An unhandled trap of a group is logged (R383, class 16). (log 13) -/
def State.logUnhandled (s : State) (g : Group) (rcd : List PWord) : State :=
  s.logError ⟨dieOf g.core, g.ctx, 16, false, 0, g.core, 0, s.cyc g.core, (rcd.getD 0 PWord.zero).val⟩

/-- TAKING A TRAP (R383 to R385). The group enters Trapped with the record, and its handler group is due. A second
trap of a Trapped group is recorded; a trap of an Exiting group is ignored. A trap is unhandled where the context
has registered no handler, and ends the group; the trap of a handler group ends it and the group it serves. (log 13) -/
def State.takeTrap (s : State) (gid : Nat) (rcd : List PWord) : State :=
  match lookup gid s.groups with
  | none => s
  | some g =>
    if g.st == .exiting then s
    else if g.st == .trapped then
      s.setGroup gid { g with second := if g.second.isSome then g.second else some rcd }
    else match g.handles with
      | some h => (s.logUnhandled g rcd).endGroups [gid, h]
      | none =>
        match lookup g.ctx s.ctxs with
        | none => (s.logUnhandled g rcd).endGroups [gid]
        | some c =>
          if c.handler.isSome then
            s.setGroup gid { g with
              st := .trapped, since := if g.st == .waiting then g.since else s.now, unit := none, record := some rcd
              handler := .due }
          else (s.logUnhandled g rcd).endGroups [gid]

/-- The threads of the active set stand at the packet with the resume word of their unit (R387). -/
def Group.standAt (g : Group) (o : Issue) (rw : Nat) : Group :=
  g.modLanes o.act fun _ t => { t with pc := o.k, rword := max t.rword rw }

/-- The transfer that a thread has taken in the packet at k, which has ended: it takes effect again after the packet's
last unit when the packet goes on from a later word (R59, R387). -/
def Thread.takenAt (t : Thread) (k : Nat) : Option Transfer :=
  match t.st with
  | .joining => if t.joinAddr / 3 * 3 == k then some (.join t.joinAddr) else none
  | .ready => if t.pc == k + 3 then none else some (.jump t.pc)
  | _ => none

/-- The threads of the active set of a word that waits stand at that word again. A packet that has ended is taken up
where the word stands, with the transfers that its threads have taken. (log 13) -/
def Group.standWaiting (g : Group) (o : Issue) : Group :=
  let g1 := if g.unit.isSome then g else g.modLanes o.act fun _ t =>
    { t with transfer := t.takenAt o.k
             st := if (t.takenAt o.k).isSome && t.st == .joining then .ready else t.st }
  g1.standAt o o.pos

/-- A trap raised at issue (R387): nothing of the unit has taken effect. -/
def State.trapAtIssue (s : State) (o : Issue) (t : Trap) : State :=
  match lookup o.gid s.groups with
  | none => s
  | some g =>
    let rcd := trapRecord s g o o.act t
    { (s.setGroup o.gid (g.standAt o o.unit)).takeTrap o.gid rcd with signal := .trapped t }

/-- A trap raised while the group waits on an issued word (R387): its threads resume at that word. (log 13) -/
def State.trapInWait (s : State) (o : Issue) (t : Trap) : State :=
  match lookup o.gid s.groups with
  | none => s
  | some g =>
    let rcd := trapRecord s g o o.act t
    (s.setGroup o.gid { g.standWaiting o with wait := .none, unit := none }).takeTrap o.gid rcd

/-- A trap raised when pushed words land (R387): the threads of a packet in progress resume at its next unit. (log 13) -/
def State.trapAtLanding (s : State) (o : Issue) (t : Trap) : State :=
  match lookup o.gid s.groups with
  | none => s
  | some g =>
    let rcd := trapRecord s g o o.act t
    let g1 := match g.unit with
      | some u => g.modLanes u.act fun _ t => { t with pc := u.k, rword := max t.rword u.next }
      | none => g
    (s.setGroup o.gid g1).takeTrap o.gid rcd

/-! Executing a word (R60). -/

/-- The word being issued and its group. -/
structure View where
  o : Issue
  g : Group

/-- Why a word does not take effect at issue. -/
inductive Stop where
  | trap (t : Trap)
  | stall (w : Wait)

/-- Lane L is in the active set and its guard reads true (R60, R96). -/
def View.on (v : View) (L : Nat) : Bool := v.o.act.getLsbD L && (v.g.thread L).pred v.o.guard.val

/-- The enabled set. -/
def View.en (v : View) : Word := maskOf v.on

/-- The enabled lanes, ascending. -/
def View.lanes (v : View) : List Nat := allLanes.filter v.on

/-- The lowest enabled lane. -/
def View.first (v : View) : Option Nat := v.lanes.head?

/-- The lanes of the active set whose guard is poisoned. (log 9) -/
def View.badGuard (v : View) : Word := maskOf fun L => v.o.act.getLsbD L && (v.g.thread L).predBad v.o.guard.val

/-- A poisoned guard raises the poison-consumption trap (R60). -/
def View.guard (v : View) : Except Stop Unit :=
  match lanesOf v.badGuard with
  | [] => .ok ()
  | L :: _ => .error (.trap { kind := 2, detail := BitVec.ofNat 32 L, tmask := v.badGuard })

/-- The loan a shade or principal context has on a core: that of the principal. -/
def State.princOf (s : State) (ctx : Nat) : Nat :=
  match lookup ctx s.ctxs with
  | some c => if c.shade then c.princ else ctx
  | none => ctx

def State.loan (s : State) (princ core : Nat) : Loan := (lookup (princ * 1024 + core) s.loans).getD {}
def State.setLoan (s : State) (princ core : Nat) (l : Loan) : State :=
  { s with loans := insertAt (princ * 1024 + core) l s.loans }

/-- The granules of an open loan begin to return (R371); `after` is the map that a LEND puts in force then, which a later
event withdraws (Table 16-4). (log 43) -/
def State.startEclipse (s : State) (princ core : Nat) (after : Word) : State :=
  let l := s.loan princ core
  if l.isOpen then
    s.setLoan princ core { l with
      returning := some (l.map, match l.returning with
        | some (_, t) => t
        | none => s.now)
      after := after }
  else s

/-- A principal access to granules m of a core eclipses the loan (event 4). While the granules return already, it waits, and
it withdraws the map of a LEND that would lend them again (Table 16-4). (log 43) -/
def State.accessEclipse (s : State) (princ core : Nat) (m : Word) : State :=
  let l := s.loan princ core
  if l.returning.isNone then s.startEclipse princ core 0
  else if l.after &&& m != 0 then s.setLoan princ core { l with after := 0 }
  else s

/-- A unit that cannot issue yet leaves its group Waiting; the unit is issued again when the wait ends (R76, R158).
Waits for a tile or for an MSLD transfer are held at issue instead, and the group stays Active (R306). -/
def State.stallAt (s : State) (o : Issue) (w : Wait) : State :=
  let ctx := match lookup o.gid s.groups with
    | some g => g.ctx
    | none => 0
  let s1 := match w with
    | .granules core m => s.accessEclipse (s.princOf ctx) core m
    | _ => s
  match w with
  | .tile _ | .msld => { s1.modGroup o.gid fun g => { g with holdUntil := s.now + 1 } with signal := .stalled w }
  | _ => { s1.modGroup o.gid fun g => { g.enter .waiting s.now with wait := w } with signal := .stalled w }

/-- The state after a word's meaning. -/
def State.wordDone (s : State) (o : Issue) (r : Except Stop State) : State :=
  match r with
  | .ok t => { t with signal := .issued }
  | .error (.trap t) => s.trapAtIssue o t
  | .error (.stall w) => s.stallAt o w

/-- Execute the word being issued without looking at its guard (SEL, R60). -/
def runBare (s : State) (body : View → Except Stop State) : Out :=
  match s.cur with
  | none => .fault .noIssue
  | some o =>
    match lookup o.gid s.groups with
    | none => .fault .noIssue
    | some g => .next (s.wordDone o (body ⟨o, g⟩))

/-- Execute the word being issued where only some groups may: a group that may not takes the privilege trap, whether
or not any thread is enabled, as an illegal encoding traps (R97, R390). (log 9) -/
def runPrivileged (s : State) (may : Group → Bool) (body : View → Except Stop State) : Out :=
  runBare s fun v =>
    if !may v.g then .error (.trap { kind := 5, tmask := v.en })
    else match v.guard with
      | .error e => .error e
      | .ok _ => body v

/-- Execute the word being issued: a poisoned guard traps first (R60). -/
def runWord (s : State) (body : View → Except Stop State) : Out :=
  runBare s fun v =>
    match v.guard with
    | .error e => .error e
    | .ok _ => body v

/-- Change the issuing group. -/
def State.modSelf (s : State) (v : View) (f : Group → Group) : State := s.modGroup v.o.gid f

/-- The issuing group enters Waiting on an issued word (R158). A remote scratchpad access leaves the wait of another word
of its unit in force: its own results hold the group back as well (R77, R79). -/
def State.waitFor (s : State) (v : View) (w : Wait) : State :=
  s.modSelf v fun g => { g.enter .waiting s.now with wait := if w == .outstanding && g.wait != .none then g.wait else w }

/-- A push still awaits words of a remote load (R187). -/
def Group.awaitsPush (g : Group) : Bool := g.pushes.any fun p => !p.srcs.isEmpty

/-- The results of a group are all written (R77, R79). -/
def Group.quiet (g : Group) : Bool := g.outstanding.isEmpty && !g.awaitsPush

/-- The dependence of a group ends (Table 7-3): a Waiting group becomes Pending, a Parked one is woken, and for a
Trapped one it is recorded. -/
def Group.wake (g : Group) (now : Nat) : Group :=
  match g.st with
  | .waiting => { g.enter .pending now with wait := .none }
  | .parked => { g with wait := .none, woken := true, since := now }
  | _ => { g with wait := .none }

/-- A wait ends with results: they are written behind the group's earlier results (R78), and the group is ready once that
has happened (R79). -/
def State.wakeWith (s : State) (gid : Nat) (rs : List (Nat × PWord)) : State :=
  s.modGroup gid fun g =>
    { (g.wake s.now).issue (rs.map fun x => { due := some s.now, target := .word x.1, val := x.2 }) with
      switching := g.switching || !rs.isEmpty }

/-- A release by a thread of the group waits until the group's remote accesses have been performed (R275). Local
accesses are performed when they issue. (log 9) -/
def View.release (v : View) : Except Stop Unit :=
  if v.g.remote == 0 then .ok () else .error (.stall .release)

/-- The first acquire of a group moved to another core waits for the flush acknowledgement (R181). -/
def View.acquire (v : View) : Except Stop Unit :=
  if v.g.acqHold.isEmpty then .ok () else .error (.stall .acquire)

/-! Scratchpad addresses (R183, R191). -/

/-- The core of a cluster that a rank names, and its team there. -/
def State.rankTeam (s : State) (k : Cluster) (rank : Nat) : Option (Nat × Team) :=
  match k.teams[rank]? with
  | none => none
  | some t => (lookup t s.teams).map fun x => (t, x)

/-- Where a scratchpad address leads: team, core and core offset in bytes. -/
structure SpadRef where
  team : Nat
  core : Nat
  off : Nat
  deriving DecidableEq, Repr

/-- The granules that n bytes at a core offset touch. -/
def granulesOf (off n : Nat) : List Nat :=
  (List.range ((off + n - 1) / 8192 - off / 8192 + 1)).map fun i => off / 8192 + i

/-- n bytes at a core offset lie within the granules of a map. -/
def inGranules (map : Word) (off n : Nat) : Bool :=
  off + n ≤ 262144 && (granulesOf off n).all fun g => map.getLsbD g

/-- n bytes at a core offset touch a granule of a map. (log 16) -/
def touchesMap (map : Word) (off n : Nat) : Bool := (granulesOf off n).any fun g => map.getLsbD g

/-- The granules of an access, as a map. -/
def granuleMap (off n : Nat) : Word := maskOf fun g => (granulesOf off n).contains g

/-- The bounds check of a scratchpad address for n bytes on behalf of a team (R191 item 2): the place, or none. -/
def State.spadRef (s : State) (team : Nat) (shade localOnly : Bool) (n : Nat) (a : Word) : Option SpadRef :=
  let x := a.toNat
  let rank := bitsOf x 18 7
  let off := x % 262144
  match lookup team s.teams with
  | none => none
  | some t =>
    if bitsOf x 25 7 != 0 then none
    else if shade then
      -- a shade's clusters are 1 x 1, and its offsets are core offsets in lent granules (R370)
      if (rank == 127 || rank == 0) && inGranules (s.loan (s.princOf t.ctx) t.core).map off n then
        some ⟨team, t.core, off⟩
      else none
    else if t.granules * 8192 < off + n then none
    else if rank == 127 || rank == t.rank then some ⟨team, t.core, t.base * 8192 + off⟩
    else if localOnly then none
    else
      match lookup t.cluster s.clusters with
      | none => none
      | some k =>
        match s.rankTeam k rank with
        | none => none
        | some (i, u) => some ⟨i, u.core, u.base * 8192 + off⟩

/-- The check of R191 that an address fails first: 1 poison, 2 bounds, 3 access, 4 alignment. (log 16) -/
def spadCheck (s : State) (v : View) (localOnly : Bool) (n align : Nat) (a : PWord) : Option Nat :=
  if a.psn then some 1
  else if (s.spadRef v.g.team v.g.shade localOnly n a.val).isNone then some 2
  else if a.val.toNat % 262144 % align != 0 then some 4
  else none

/-- Kinds of Table 17-1 for the checks of R191. (log 16) -/
def checkKind : Nat → Nat
  | 1 => 2
  | 2 => 14
  | 3 => 15
  | _ => 16

/-- Of the checks that lanes fail, the lowest decides the trap, and TMASK holds the lanes whose first failing check
it is (R191). DETAIL is the offending address, or the lane for poison. (log 16) -/
def addressTrap (lanes : List Nat) (check : Nat → Option Nat) (a : Nat → PWord) : Except Stop Unit :=
  match [1, 2, 3, 4].find? fun k => lanes.any fun L => check L == some k with
  | none => .ok ()
  | some k =>
    let m := maskOf fun L => lanes.contains L && check L == some k
    let L := (lanesOf m).headD 0
    .error (.trap { kind := checkKind k, detail := if k == 1 then BitVec.ofNat 32 L else (a L).val, tmask := m })

/-- The reference of an address that has passed its checks. -/
def State.ref (s : State) (v : View) (n : Nat) (a : Word) : SpadRef :=
  (s.spadRef v.g.team v.g.shade false n a).getD ⟨v.g.team, v.g.core, 0⟩

/-- Granules of a core that accesses of a group must wait for: a principal's access waits for lent granules to
return (R371), a shade's for lent granules to be zeroed (R373). (log 55) -/
def State.heldBack (s : State) (v : View) (r : SpadRef) (n : Nat) : Option Wait :=
  let l := s.loan (s.princOf v.g.ctx) r.core
  let touches := fun m : Word => touchesMap m r.off n
  if v.g.shade then
    match l.zeroing with
    | some (m, _) => if touches m then some (.zeroing r.core) else none
    | none => none
  else if touches l.map || (match l.returning with
      | some (m, _) => touches m
      | none => false) then some (.granules r.core (granuleMap r.off n))
  else none

/-- The granules that references name on the core of a wait for lent granules. -/
def Wait.gather (n : Nat) (rs : List SpadRef) : Wait → Wait
  | .granules core _ => .granules core ((rs.filter fun r => r.core == core).foldl (fun m r => m ||| granuleMap r.off n) 0)
  | w => w

/-- The granules of every reference are free to use. -/
def State.granulesFree (s : State) (v : View) (n : Nat) (rs : List SpadRef) : Except Stop Unit :=
  match rs.findSome? fun r => s.heldBack v r n with
  | some w => .error (.stall (w.gather n rs))
  | none => .ok ()

end Sys2Proof.Machine
end

