-- ==== Sys2Proof/Machine/TaskQueue.lean ====
section
/-! DEFINITION. Range-task queues and dependence counters of a cluster, shared by TKPUT, TKGET, TKDONE, queue
registers, DCSET, DCDEC, SIGNAL and `.sig` (spec 14_queue.md R332 to R340, 15_kernel.md R349). -/

namespace Sys2Proof.Machine

def Cluster.slot (c : Cluster) (n : Nat) : TaskSlot := readAt {} c.tasks n
def Cluster.setSlot (c : Cluster) (n : Nat) (x : TaskSlot) : Cluster := { c with tasks := writeAt {} n x c.tasks }

/-- The lowest free task slot (R336). -/
def Cluster.freeSlot (c : Cluster) : Option Nat := (List.range 64).find? fun n => !(c.slot n).full

/-- Free task slots. -/
def Cluster.freeSlots (c : Cluster) : Nat := (List.range 64).countP fun n => !(c.slot n).full

/-- Words of a task record (R333). -/
def recWord (r : List Word) (i : Nat) : Nat := (r.getD i 0).toNat

/-- The checks of TKPUT on a record, against CodeWords (R336). -/
def recordOk (codeWords : Nat) (r : List Word) : Bool :=
  recWord r 0 % 3 == 0 && recWord r 0 < codeWords && recWord r 1 ≤ recWord r 2 &&
    bitsOf (recWord r 3) 21 10 == 0 && bitsOf (recWord r 3) 8 8 == 0

/-- A cluster and the number of decrements that were discarded (R349). -/
abbrev Posting := Cluster × Nat

/-- Which counter's attached task waits for a slot: the lowest. (log 22) -/
def Cluster.waitingCounter (c : Cluster) : Option (Nat × List Word) :=
  c.counters.findSome? fun p => if p.2.count == 0 then p.2.task.map fun r => (p.1, r) else none

/-- What remains to be done in a chain of postings, retirements and decrements. -/
inductive Chore where
  | post (r : List Word)
  | retire (slot : Nat)
  | decrement (dc : Nat)
  | fill
  deriving DecidableEq, Repr

/-- Take the lowest free slot for a record (R336). -/
def Cluster.take (c : Cluster) (n : Nat) (r : List Word) : Cluster :=
  { c.setSlot n { full := true, task := r, next := recWord r 1, remain := recWord r 2 - recWord r 1,
                  gen := ((c.slot n).gen + 1) % 65536, seq := c.taskSeq }
    with taskSeq := c.taskSeq + 1 }

/-- One chore, and the chores it leaves (R336, R338, R349), where pushes under way have reserved `kept` of the free slots
(R96). A slot freed goes first to a counter whose task waits. -/
def chore (kept : Nat) (p : Posting) : Chore → Posting × List Chore
  | .post r =>
    match p.1.freeSlot with
    | none => (p, [])
    | some n => ((p.1.take n r, p.2), if recWord r 1 == recWord r 2 then [.retire n] else [])
  | .retire n =>
    let t := p.1.slot n
    ((p.1.setSlot n { t with full := false }, p.2),
      .fill :: (if bitOf (recWord t.task 3) 31 then [.decrement (recWord t.task 3 % 256)] else []))
  | .fill =>
    match p.1.waitingCounter with
    | some (dc, r) => if kept < p.1.freeSlots then
        (({ p.1 with counters := eraseAt dc p.1.counters }, p.2), [.post r, .fill]) else (p, [])
    | none => (p, [])
  | .decrement dc =>
    match lookup dc p.1.counters with
    | none => ((p.1, p.2 + 1), [])
    | some k =>
      if k.count == 0 then ((p.1, p.2 + 1), [])
      else if k.count == 1 then
        match k.task with
        | none => (({ p.1 with counters := eraseAt dc p.1.counters }, p.2), [])
        | some _ => (({ p.1 with counters := insertAt dc { k with count := 0 } p.1.counters }, p.2), [.fill])
      else (({ p.1 with counters := insertAt dc { k with count := k.count - 1 } p.1.counters }, p.2), [])

/-- Do the chores in order. Each post takes an armed counter to Idle or is the one asked for, so the fuel is never
used up. (log 22) -/
def chores (kept : Nat) : Nat → List Chore → Posting → Posting
  | 0, _, p => p
  | _, [], p => p
  | fuel + 1, c :: cs, p => let r := chore kept p c; chores kept fuel (r.2 ++ cs) r.1

/-- Fuel for the chores of one act. (log 22) -/
def choreFuel : Nat := 4096

/-- The discarded decrements are counted in the context's error log (R349, class 17), on the core of rank 0. (log 22) -/
def State.logDiscards (s : State) (k : Cluster) : Nat → State
  | 0 => s
  | n + 1 =>
    let core := match lookup (k.teams.headD 0) s.teams with
      | some t => t.core
      | none => k.die * 256
    (s.logError ⟨k.die, k.ctx, 17, false, 0, core, 0, s.cyc core, 0⟩).logDiscards k n

/-- The cluster of a group. -/
def State.clusterOf (s : State) (g : Group) : Nat :=
  match lookup g.team s.teams with
  | some t => t.cluster
  | none => 0

/-- Words reserved by pushes that have not landed, in the groups that p selects. -/
def State.reserved (s : State) (p : Group → Byte → Bool) : Nat :=
  s.groups.foldl (fun n x => x.2.pushes.foldl (fun n u => if p x.2 u.code then n + u.words.length else n) n) 0

/-- Task slots of a cluster that pushes have reserved (R96, R339). -/
def State.slotsKept (s : State) (cl : Nat) : Nat := (s.reserved fun g c => s.clusterOf g == cl && c.toNat / 32 == 3) / 5

/-- Free task slots of a cluster beyond those. -/
def State.slotRoom (s : State) (cl : Nat) : Nat :=
  match lookup cl s.clusters with
  | none => 0
  | some k => k.freeSlots - s.slotsKept cl

/-- Do chores at a cluster. -/
def State.doChores (s : State) (cl : Nat) (cs : List Chore) : State :=
  match lookup cl s.clusters with
  | none => s
  | some k =>
    let r := chores (s.slotsKept cl) choreFuel cs (k, 0)
    (s.modCluster cl fun _ => r.1).logDiscards r.1 r.2

/-- One decrement of a dependence counter (R349). -/
def State.decrement (s : State) (cl dc : Nat) : State := s.doChores cl [.decrement dc]

/-- Post a task record that has passed TKPUT's checks, a slot being free (R336). -/
def State.postTask (s : State) (cl : Nat) (r : List Word) : State := s.doChores cl [.post r]

/-- The slot that TKGET takes from: most iterations pending, then the lowest SEQ (R337). -/
def Cluster.best (c : Cluster) : Option Nat :=
  c.tasks.foldl (fun b p =>
    let len := recWord p.2.task 2 - p.2.next
    if !p.2.full || len == 0 then b
    else match b with
      | none => some p.1
      | some m =>
        let t := c.slot m
        let l := recWord t.task 2 - t.next
        if l < len || (l == len && p.2.seq < t.seq) then some p.1 else b) none

/-- No slot is live (R337). -/
def Cluster.drained (c : Cluster) : Bool := c.tasks.all fun p => !p.2.full

/-- The grant that says there is no work (R337). -/
def noGrant : List Word := [0, 0, 0, 0, 0xFFFFFFFF]

/-- A grant from slot n (R337): half the pending range in grains, rounded down, from its end; PE is kept as the END
word of the slot's record. -/
def Cluster.grant (c : Cluster) (n : Nat) : List Word × Cluster :=
  let t := c.slot n
  let pe := recWord t.task 2
  let len := pe - t.next
  let g := 2 ^ bitsOf (recWord t.task 3) 16 5
  let units := (len + g - 1) / g
  let b := if units ≤ 1 then t.next else pe - g * (units / 2)
  let t1 : TaskSlot := if units ≤ 1 then { t with next := pe } else { t with task := t.task.set 2 (BitVec.ofNat 32 b) }
  ([t.task.getD 0 0, BitVec.ofNat 32 b, BitVec.ofNat 32 pe, t.task.getD 4 0,
    BitVec.ofNat 32 (n + 65536 * t.gen)], c.setSlot n t1)

/-- One try of TKGET: a grant, or none where there is nothing and `try_` or no slot is live; otherwise it waits. -/
def Cluster.get (c : Cluster) (try_ : Bool) : Option (List Word × Cluster) :=
  match c.best with
  | some n => some (c.grant n)
  | none => if try_ || c.drained then some (noGrant, c) else none

/-- The queue has n words for a pop: one grant for each five (R339). -/
def Cluster.holds (c : Cluster) (n : Nat) : Bool :=
  ((List.range (n / 5)).foldl (fun (k : Option Cluster) _ => (k.bind fun x => x.get false).map (·.2)) (some c)).isSome

end Sys2Proof.Machine
end

