-- ==== Sys2Proof/Machine/Operands.lean ====
section
/-! DEFINITION. Operands and results of words: registers through the window and the crossbar, queue registers, and
results with their latency (spec 03_encoding.md R76 to R79, 04_register_space.md R93 to R100, 14_queue.md R339,
R341). -/

namespace Sys2Proof.Machine

/-- A value in each lane. -/
abbrev Lanes := Nat → PWord

/-- The lane that lane L receives from under a pattern code (Table 4-4). -/
def patLane (code : Byte) (L : Nat) : Nat :=
  let k := code.toNat % 32
  match code.toNat / 32 % 4 with
  | 0 => (L + k) % 32
  | 1 => k
  | 2 => Nat.xor L k
  | _ => Nat.xor L (2 ^ min k 5 - 1)

/-- The source lane of lane L under pattern entry e; entry 0 is the identity (R99). -/
def View.src (v : View) (e L : Nat) : Nat := if e == 0 then L else patLane (v.g.ptab.getD e 0) L

/-- A register name that is a queue register (R55). -/
def isQueue (r : Nat) : Bool := 28 ≤ r

/-- The binding code of queue register r (R95). -/
def Group.binding (g : Group) (r : Nat) : Byte := g.qbind.getD (r - 28) 0

/-- A binding code that Table 4-3 allows. -/
def bindOk (c : Byte) : Bool :=
  let i := c.toNat % 32
  match c.toNat / 32 with
  | 0 => i == 0
  | 1 => i < 4
  | 2 => i < 4
  | 3 => i == 0
  | 4 => true
  | _ => false

/-- The queue-binding trap of a word (R97). (log 9) -/
def bindTrap (v : View) (c : Byte) : Stop := .trap { kind := 3, detail := c.zeroExtend 32, tmask := v.en }

/-- The engine context that a copy binding names on a group's core. -/
def engineKey (g : Group) (c : Byte) : Nat := engineId g.ctx g.core (c.toNat % 4)

/-- The kernel of a group. -/
def State.kernelOf (s : State) (g : Group) : Nat :=
  match lookup g.team s.teams with
  | some t => t.kernel
  | none => 0

/-! Pops (R96, R97, R339). -/

/-- Take n words from the queue that a binding names. (log 12) -/
def State.pop (s : State) (v : View) (c : Byte) (n : Nat) : Except Stop (List PWord × State) :=
  match c.toNat / 32 with
  | 2 =>
    let e := s.engine (engineKey v.g c)
    if e.status.length < n then .error (.stall (.pop c n))
    else .ok ((e.status.take n).map .ok, s.setEngine (engineKey v.g c) { e with status := e.status.drop n })
  | 3 =>
    if n != 5 then .error (bindTrap v c)
    else match lookup (s.clusterOf v.g) s.clusters with
      | none => .error (bindTrap v c)
      | some k => match k.get false with
        | none => .error (.stall (.pop c n))
        | some (ws, k1) => .ok (ws.map .ok, (s.modCluster (s.clusterOf v.g) fun _ => k1).spend v.g.team)
  | _ => .error (bindTrap v c)

/-- The popped words as the enabled lanes receive them, in ascending order; other lanes hold 0 (R96, R100). -/
def dealt (lanes : List Nat) (ws : List PWord) : Lanes := fun L =>
  match (lanes.zip ws).find? (·.1 == L) with
  | some p => p.2
  | none => PWord.zero

/-- One source operand: pattern entry and register name; the state after its pops. (log 9) -/
def State.operand (s : State) (v : View) (e : Nat) (r : Nat) : Except Stop (Lanes × State) :=
  if isQueue r then
    if v.lanes.isEmpty then .ok (fun _ => PWord.zero, s)
    else match s.pop v (v.g.binding r) v.lanes.length with
      | .error x => .error x
      | .ok (ws, s1) => .ok (fun L => dealt v.lanes ws (v.src e L), s1)
  else .ok (fun L => v.g.reg (v.src e L) r, s)

/-- A word that waits for n words of a queue which its operand A pops as well waits for n more. -/
def Stop.more : Stop → Stop
  | .stall (.pop c n) => .stall (.pop c (2 * n))
  | x => x

/-- Two source operands; A pops first (R96). Where both pop one queue, the word issues when it holds the words of both.
(log 12) -/
def State.operands (s : State) (v : View) (ea ra eb rb : Nat) : Except Stop (Lanes × Lanes × State) :=
  match s.operand v ea ra with
  | .error x => .error x
  | .ok (a, s1) =>
    match s1.operand v eb rb with
    | .error x => .error (if isQueue ra && isQueue rb && v.g.binding ra == v.g.binding rb then x.more else x)
    | .ok (b, s2) => .ok (a, b, s2)

/-- Some register of the list is a queue register, and it is popped: 4 cycles more for each register or predicate result
(R79). (log 12) -/
def popDelay (v : View) (rs : List Nat) : Nat := if rs.any isQueue && !v.lanes.isEmpty then 4 else 0

/-- The same for a word whose destination is register d: a push is no register result (R79). (log 12) -/
def popDelayTo (v : View) (d : Nat) (rs : List Nat) : Nat := if isQueue d then 0 else popDelay v rs

/-! Pushes (R96, R97, R198, R200, R339, R341, R342). -/

/-- Free entries of a command queue (R96, R198): accepted commands keep their words until they start. -/
def State.commandRoom (s : State) (ctx core e : Nat) : Nat :=
  512 - (s.engine (engineId ctx core e)).queue.length
    - s.cmds.foldl (fun n p => if p.2.ctx == ctx && p.2.core == core && p.2.e == e && p.2.st == .posted then n + p.2.words.length else n) 0
    - s.reserved fun g c => g.ctx == ctx && g.core == core && c.toNat / 32 == 1 && c.toNat % 4 == e

/-- Free words of a core's outbound buffer (R342). -/
def State.outboundRoom (s : State) (core : Nat) : Nat :=
  64 - (s.core core).outbound.foldl (fun n p => n + p.words.length) 0
    - s.reserved fun g c => g.core == core && c.toNat / 32 == 4

/-- The token bucket of a context on a die (R447). (log 4) -/
def State.bucket (s : State) (ctx die : Nat) : Bucket := (lookup (ctx * 4 + die) s.buckets).getD {}

/-- A host-ring descriptor obeys Table 14-7 and is enabled (R341). -/
def ringOk (ws : List Nat) (psn : Bool) : Bool :=
  let w := fun i => ws.getD i 0
  !psn && bitOf (w 6) 31 && bitsOf (w 6) 29 2 == 0 && 10 ≤ bitsOf (w 6) 24 5 && bitsOf (w 6) 24 5 ≤ 24 &&
    w 0 % 4096 == 0 && w 2 % 4 == 0 && w 4 % 4 == 0

/-- A host-ring descriptor read from the table at HRTAB (R341); with the port down the reply is poisoned (R449). (log 19) -/
def State.readRing (s : State) (ctx ring : Nat) : List Nat × Bool :=
  match lookup ctx s.ctxs with
  | none => ([], true)
  | some c =>
    let a := c.hrtab + 32 * ring
    ((List.range 8).map fun i => leNat (fun j => s.hostByte (a + 4 * i + j)) 4,
      (lookup c.func s.portDown).isSome || s.hostBad a 32)

/-- The descriptor a kernel holds of a ring, read at its first use in the launch (R341). (log 19) -/
def State.ringOf (s : State) (v : View) (ring : Nat) : List Nat × Bool :=
  match lookup (s.kernelOf v.g) s.kernels with
  | some k => match lookup ring k.rings with
    | some d => d
    | none => s.readRing v.g.ctx ring
  | none => s.readRing v.g.ctx ring

/-- The checks of a push of n words at issue: direction, counts, room and the token bucket. (log 9, 12) -/
def State.pushCheck (s : State) (v : View) (c : Byte) (n : Nat) : Except Stop State :=
  let i := c.toNat % 32
  match c.toNat / 32 with
  | 1 =>
    if (s.bucket v.g.ctx (dieOf v.g.core)).level ≤ 0 then .error (.stall (.bucket (dieOf v.g.core)))
    else if s.commandRoom v.g.ctx v.g.core (i % 4) < n then .error (.stall (.push c n)) else .ok s
  | 3 =>
    if n != 5 then .error (bindTrap v c)
    else if s.slotRoom (s.clusterOf v.g) == 0 then .error (.stall (.push c n)) else .ok s
  | 4 =>
    let d := s.ringOf v i
    if !ringOk d.1 d.2 then .error (bindTrap v c)
    else if s.outboundRoom v.g.core < n then .error (.stall (.push c n))
    else .ok (s.modKernel (s.kernelOf v.g) fun k => { k with rings := insertAt i d k.rings })
  | _ => .error (bindTrap v c)

/-- Occupy a pipe of a core for n cycles (R79): pipes I, FA, FB, M, L, C are 0 to 5. -/
def State.occupy (s : State) (core pipe n : Nat) : State :=
  s.setCore core { s.core core with
    pipes := (s.core core).pipes.set pipe (max ((s.core core).pipes.getD pipe 0) (s.now + n)) }

/-- An access from another core takes a pipe for n cycles, behind the words that hold it (R194). -/
def State.occupyNext (s : State) (core pipe n : Nat) : State :=
  s.setCore core { s.core core with
    pipes := (s.core core).pipes.set pipe (max ((s.core core).pipes.getD pipe 0) s.now + n) }

/-- Reserve the entries of a push and hold its words until they land; the L pipe is occupied for each word (R79). A push
to a host ring spends the checkpoint (R395). (log 12) -/
def State.push (s : State) (v : View) (c : Byte) (due : Option Nat) (srcs : List Nat) (ws : List PWord) :
    Except Stop State :=
  match s.pushCheck v c ws.length with
  | .error x => .error x
  | .ok s1 =>
    let s2 := s1.modSelf v fun g => { g with pushes := g.pushes ++ [{ code := c, words := ws, due := due, srcs := srcs, lanes := v.lanes, origin := v.o, seq := s1.nextId }] }
    .ok ((if c.toNat / 32 == 4 then { s2 with nextId := s2.nextId + 1 }.spend v.g.team else s2).occupy v.g.core 4 ws.length)

/-! Results (R78, R96). -/

/-- Results of the enabled lanes in register r, n cycles from now. -/
def View.results (v : View) (now r n : Nat) (f : Lanes) : List Result :=
  v.lanes.map fun L => { due := some (now + n), target := .word (v.g.regIdx L r), val := f L }

/-- Write a result to register r in every enabled lane: a frame word after n cycles, or a push (R96). -/
def State.put (s : State) (v : View) (r n : Nat) (f : Lanes) : Except Stop State :=
  if isQueue r then
    if v.lanes.isEmpty then .ok s
    else s.push v (v.g.binding r) (some (s.now + n)) [] (v.lanes.map f)
  else .ok (s.modSelf v fun g => g.issue (v.results s.now r n f))

/-- Write predicate p in every enabled lane after n cycles: value and poison bit (R55, R102). -/
def State.putPred (s : State) (v : View) (p n : Nat) (f : Nat → Bool × Bool) : State :=
  if p == 0 then s
  else s.modSelf v fun g => g.issue (v.lanes.map fun L =>
    { due := some (s.now + n), target := .pred L p
      val := ⟨if (f L).1 then 1 else 0, (f L).2⟩ })

/-- A pair of results in registers r and r + 1. -/
def State.put2 (s : State) (v : View) (r n : Nat) (f : Nat → PWord × PWord) : Except Stop State :=
  match s.put v r n (fun L => (f L).1) with
  | .error x => .error x
  | .ok s1 => s1.put v (r + 1) n (fun L => (f L).2)

/-- Values of several registers, poison in any making all poisoned (R106). -/
def PWord.map1 (f : Word → Word) (a : PWord) : PWord := if a.psn then PWord.poison else PWord.ok (f a.val)
def PWord.map2 (f : Word → Word → Word) (a b : PWord) : PWord :=
  if a.psn || b.psn then PWord.poison else PWord.ok (f a.val b.val)
def PWord.map3 (f : Word → Word → Word → Word) (a b c : PWord) : PWord :=
  if a.psn || b.psn || c.psn then PWord.poison else PWord.ok (f a.val b.val c.val)

/-- The poison-consumption trap of an operand in the lanes `bad` (R392). -/
def poisonTrap (bad : Word) : Stop := .trap { kind := 2, detail := BitVec.ofNat 32 ((lanesOf bad).headD 0), tmask := bad }

/-- The operand of the lowest enabled lane, which must not be poisoned; none with no enabled lane. -/
def View.single (v : View) (a : Lanes) : Except Stop (Option (Nat × Word)) :=
  match v.first with
  | none => .ok none
  | some L => if (a L).psn then .error (poisonTrap (maskOf (· == L))) else .ok (some (L, (a L).val))

end Sys2Proof.Machine
end

