-- ==== Sys2Proof/Machine/Flags.lean ====
section
/-! DEFINITION. Conditions and predicates, and the shapes of words that compute a result from operands
(spec 03_encoding.md R70, R76 to R79, 05_integer.md R103 to R108, R124). -/

namespace Sys2Proof.Machine

/-- Ext (R108): signed or unsigned reading of a word. -/
def extOf (z : Sign) (x : Word) : Int :=
  match z with
  | .sx => x.toInt
  | .zx => x.toNat

/-- The conditions of Table 3-6 on two integers. -/
def intCond (c : ICond) (a b : Int) : Bool :=
  match c with
  | .eq => a == b
  | .ne => a != b
  | .lt => a < b
  | .le => a ≤ b
  | .gt => a > b
  | .ge => a ≥ b

/-- A word with operands A and B and one result per lane. -/
def aluWord (s : State) (ea ra eb rb d lat : Nat) (f : View → Nat → PWord → PWord → PWord) : Out :=
  runWord s fun v =>
    match s.operands v ea ra eb rb with
    | .error x => .error x
    | .ok (a, b, s1) => s1.put v d (lat + popDelayTo v d [ra, rb]) fun L => f v L (a L) (b L)

/-- Layout R, one result. -/
def wordR (o : OpR) (lat : Nat) (f : Word → Word → Word) (s : State) : Out :=
  aluWord s o.ap.val o.ar.val o.bp.val o.br.val o.d.val lat fun _ _ => PWord.map2 f

/-- Layout R-v, one result: B is read without permutation. -/
def wordV (o : OpV) (lat : Nat) (f : Word → Word → Word) (s : State) : Out :=
  aluWord s o.ap.val o.ar.val 0 o.br.val o.d.val lat fun _ _ => PWord.map2 f

/-- Layout R with D as a third source. -/
def wordRD (o : OpR) (lat : Nat) (f : Word → Word → Word → Word) (s : State) : Out :=
  aluWord s o.ap.val o.ar.val o.bp.val o.br.val o.d.val lat fun v L a b => PWord.map3 f a b (v.g.reg L o.d.val)

/-- Layout R-v with D as a third source. -/
def wordVD (o : OpV) (lat : Nat) (f : Word → Word → Word → Word) (s : State) : Out :=
  aluWord s o.ap.val o.ar.val 0 o.br.val o.d.val lat fun v L a b => PWord.map3 f a b (v.g.reg L o.d.val)

/-- A word with one operand and one result. -/
def unaryWord (s : State) (ea ra d lat : Nat) (f : Nat → PWord → PWord) : Out :=
  runWord s fun v =>
    match s.operand v ea ra with
    | .error x => .error x
    | .ok (a, s1) => s1.put v d (lat + popDelayTo v d [ra]) fun L => f L (a L)

/-- Layout M, one result. -/
def wordM (o : OpM) (lat : Nat) (f : Word → Word) (s : State) : Out :=
  unaryWord s o.ap.val o.ar.val o.d.val lat fun _ => PWord.map1 f

/-- A word with no operand but what its lane holds. -/
def sourceWord (s : State) (d lat : Nat) (f : View → Nat → PWord) : Out :=
  runWord s fun v => s.put v d lat fun L => f v L

/-- A 64-bit result, low word first, from values that may be poisoned. -/
def pairOf (psn : Bool) (n : Int) : PWord × PWord :=
  if psn then (PWord.poison, PWord.poison) else (PWord.ok (loWord n), PWord.ok (hiWord n))

/-- A word with operands A and B and a result pair. -/
def pairWord (s : State) (ea ra eb rb d lat : Nat) (f : View → Nat → PWord → PWord → PWord × PWord) : Out :=
  runWord s fun v =>
    match s.operands v ea ra eb rb with
    | .error x => .error x
    | .ok (a, b, s1) => s1.put2 v d (lat + popDelay v [ra, rb]) fun L => f v L (a L) (b L)

/-- Pair (R108) of the registers r and r + 1 of a group, in lane L. -/
def Group.pairAt (g : Group) (L r : Nat) : Bool × Nat :=
  ((g.reg L r).psn || (g.reg L (r + 1)).psn, (g.reg L r).val.toNat + 4294967296 * (g.reg L (r + 1)).val.toNat)

/-- A word whose sources are groups of registers and whose result is a pair: each lane computes from the group. -/
def groupPairWord (s : State) (d lat : Nat) (f : View → Nat → PWord × PWord) : Out :=
  runWord s fun v => s.put2 v d lat fun L => f v L

/-- A compare: operand A without pattern, B with BP; the result is a predicate, false when poisoned (R106). -/
def compareWord (o : OpC) (f : Word → Word → Bool) (s : State) : Out :=
  runWord s fun v =>
    match s.operands v 0 o.ar.val o.bp.val o.br.val with
    | .error x => .error x
    | .ok (a, b, s1) => .ok (s1.putPred v o.pd.val (2 + popDelay v [o.ar.val, o.br.val]) fun L =>
        let bad := (a L).psn || (b L).psn
        (!bad && f (a L).val (b L).val, bad))

/-- A combination of predicates (R128). -/
def predWord (pd pa pb : Nat) (f : Bool → Bool → Bool) (s : State) : Out :=
  runWord s fun v => .ok (s.putPred v pd 2 fun L =>
    let t := v.g.thread L
    let bad := t.predBad pa || t.predBad pb
    (!bad && f (t.pred pa) (t.pred pb), bad))

end Sys2Proof.Machine
end

