-- ==== Sys2Proof/Machine/Special.lean ====
section
/-! DEFINITION. The special functions (spec 06_float.md R140, R141). The result bits that the accuracy bounds leave
open are the free values Config.sfu (log 3), taken where they lie within the bound; where a free value would break the
bound, the value is the reference computed here in fixed point with 400 fraction bits. Special inputs and exact
values are as Tables 6-4 and 6-5 give them. -/

namespace Sys2Proof.Machine

/-- Fraction bits of the fixed-point reference. -/
def fixBits : Nat := 400

/-- Floor(pi * 2^400). -/
def fixPi : Int := 8112377246730971238862271351300894519161151600179265203591191037615230905373990498745523360926816815427566779727327576236

/-- Floor(ln 2 * 2^400). -/
def fixLn2 : Int := 1789879222497203190815761498240779176894896805856420935579692301363062920687047601279850318367644315849030039181347319086

/-- Product of two fixed-point numbers. -/
def fixMul (a b : Int) : Int := (a * b) / 2 ^ fixBits

/-- A dyadic number in fixed point; bits below 2^-400 are dropped. -/
def toFix (neg : Bool) (m : Nat) (e : Int) : Int :=
  let s := e + fixBits
  if 0 ≤ s then sig neg m * 2 ^ s.toNat else sig neg m / 2 ^ (-s).toNat

/-- Terms t, t x / k, t x^2 / (k (k + 1)), ... summed: exp by its series. -/
def fixExpSum (x : Int) : Nat → Nat → Int → Int → Int
  | 0, _, _, acc => acc
  | n + 1, k, t, acc =>
    let t' := fixMul t x / (k : Int)
    fixExpSum x n (k + 1) t' (acc + t')

/-- e^x for a fixed-point x of magnitude at most 1. -/
def fixExp (x : Int) : Int := fixExpSum x 100 1 (2 ^ fixBits) (2 ^ fixBits)

/-- Alternating series of sine (k = 2) and cosine (k = 1) in x^2. -/
def fixTrigSum (x2 : Int) : Nat → Nat → Int → Int → Int
  | 0, _, _, acc => acc
  | n + 1, k, t, acc =>
    let t' := -(fixMul t x2) / ((k : Int) * (k + 1))
    fixTrigSum x2 n (k + 2) t' (acc + t')

def fixSin (x : Int) : Int := fixTrigSum (fixMul x x) 60 2 x x
def fixCos (x : Int) : Int := fixTrigSum (fixMul x x) 60 1 (2 ^ fixBits) (2 ^ fixBits)

/-- The quadrant of a fixed-point angle and the angle within it. -/
def fixReduce (x : Int) : Int × Int :=
  let k := (2 * x) / fixPi
  (k % 4, x - k * fixPi / 2)

/-- Bits of log2 of a fixed-point y in [1, 2), most significant first, by repeated squaring. -/
def fixLogBits : Nat → Int → Int → Int
  | 0, _, acc => acc
  | n + 1, y, acc =>
    let y2 := fixMul y y
    if 2 ^ (fixBits + 1) ≤ y2 then fixLogBits n (y2 / 2) (2 * acc + 1) else fixLogBits n y2 (2 * acc)

/-- Integer square root, one bit of the result at a time. -/
def isqrtBits (n : Nat) : Nat → Nat → Nat
  | 0, r => r
  | k + 1, r =>
    let c := r + 2 ^ k
    if c * c ≤ n then isqrtBits n k c else isqrtBits n k r

/-- Floor of the square root. -/
def isqrt (n : Nat) : Nat := isqrtBits n (n.log2 / 2 + 1) 0

/-- The special functions, in the order of Table 6-2. -/
inductive Sfu where
  | rcp | rsq | sqrt | exp2 | log2 | sin | cos | tanh
  deriving DecidableEq, Repr

/-- Number of the function in Table 6-2. -/
def Sfu.code : Sfu → Nat
  | .rcp => 4
  | .rsq => 5
  | .sqrt => 6
  | .exp2 => 7
  | .log2 => 8
  | .sin => 9
  | .cos => 10
  | .tanh => 11

/-- A high-precision value as an integer multiple of 2^(-e). -/
structure Approx where
  num : Int
  bits : Nat
  deriving DecidableEq, Repr

/-- The value of an approximation. -/
def Approx.val (a : Approx) : Val := .fin (a.num < 0) a.num.natAbs (-(a.bits : Int))

/-- f(x) for a finite non-zero x = (-1)^neg m 2^e, to more than 2^-100 of its size. -/
def sfuApprox (k : Sfu) (neg : Bool) (m : Nat) (e : Int) : Approx :=
  match k with
  | .rcp => -- 1 / (m 2^e) = 2^(-e) / m
    let q : Int := (2 ^ (600 + (max 0 (-e)).toNat) / (m * 2 ^ (max 0 e).toNat) : Nat)
    ⟨if neg then -q else q, 600⟩
  | .rsq =>
    let n := 2 ^ (800 + (max 0 (-e)).toNat) / (m * 2 ^ (max 0 e).toNat)
    ⟨isqrt n, 400⟩
  | .sqrt =>
    let n := m * 2 ^ ((800 : Int) + e).toNat
    ⟨isqrt n, 400⟩
  | .exp2 => -- 2^n e^(r ln 2)
    let x := toFix neg m e
    let n := x / 2 ^ fixBits
    let v := fixExp (fixMul (x % 2 ^ fixBits) fixLn2)
    if 0 ≤ n then ⟨v * 2 ^ n.toNat, fixBits⟩ else ⟨v, fixBits + (-n).toNat⟩
  | .log2 =>
    let l := m.log2
    let y := toFix false m (-(l : Int))
    let f := fixLogBits 100 y 0
    ⟨((l : Int) + e) * 2 ^ 100 + f, 100⟩
  | .sin =>
    let q := fixReduce (toFix neg m e)
    let v := if q.1 == 0 then fixSin q.2 else if q.1 == 1 then fixCos q.2 else if q.1 == 2 then -fixSin q.2
      else -fixCos q.2
    ⟨v, fixBits⟩
  | .cos =>
    let q := fixReduce (toFix neg m e)
    let v := if q.1 == 0 then fixCos q.2 else if q.1 == 1 then -fixSin q.2 else if q.1 == 2 then -fixCos q.2
      else fixSin q.2
    ⟨v, fixBits⟩
  | .tanh =>
    let x := toFix false m e
    if 2 ^ (fixBits + 5) ≤ x then ⟨(if neg then -1 else 1) * 2 ^ fixBits, fixBits⟩
    else
      -- 1 - 2 / (e^(2x) + 1), with e^(2x) = 2^n e^r; for small x, (e^(2x) - 1) / (e^(2x) + 1)
      let n := (2 * x) / fixLn2
      let ex := fixExp (2 * x - n * fixLn2) * 2 ^ n.toNat
      let v := ((ex - 2 ^ fixBits) * 2 ^ fixBits) / (ex + 2 ^ fixBits)
      ⟨if neg then -v else v, fixBits⟩

/-- Exponent of Ulp(v) for a value (R132). -/
def ulpExp (v : Val) : Int :=
  match v with
  | .fin _ m e => if m == 0 then -149 else gridExp fp32Spec m e
  | _ => -149

/-- |v| is at most n * 2^e. -/
def Val.within (v : Val) (n : Nat) (e : Int) : Bool :=
  match v with
  | .fin _ m e' =>
    let g := min e e'
    m * 2 ^ (e' - g).toNat ≤ n * 2 ^ (e - g).toNat
  | _ => false

/-- The FP32 reciprocal y of a divisor serves the software divide for d (R129): the estimate z that FMUL and F2I.zx.rz
make of it, refined once, is at most 2^32 / d and too small by less than two quotients. (log 3) -/
def divides (y : Word) (d : Nat) : Bool :=
  let z := (encodeU32 (f32 (toF32 ((f32 y).mul (f32 0x4F7FFFFE)))) .rz false).code
  let z' := (z + z * ((4294967296 - d * z % 4294967296) % 4294967296) / 4294967296) % 4294967296
  z' * d ≤ 4294967296 && 4294967296 ≤ z' * d + 2 * d

/-- It serves for every divisor that I2F.zx turns into x (R129). (log 3) -/
def dividesAll (x y : Word) : Bool :=
  match f32 x with
  | .fin false m e =>
    let n := if 0 ≤ e then m * 2 ^ e.toNat else m / 2 ^ (-e).toNat
    (List.range 257).all fun i =>
      let d := n + i - 128
      d == 0 || 4294967296 ≤ d || toF32 (.ofInt d) != x || divides y d
  | _ => true

/-- The candidate y meets the accuracy bound of Table 6-4 for the high-precision value r, with a margin of one part
in 2^20 of the bound, which covers the error of r. -/
def sfuOk (k : Sfu) (xSmall xMid : Bool) (r y : Val) : Bool :=
  let d := y.sub r
  -- a shade below r, so that a value just under a power of two keeps the finer ulp
  let u := match r with
    | .fin n m e => ulpExp (.fin n (m * 2 ^ 60 - m) (e - 60))
    | v => ulpExp v
  let ulps (n : Nat) : Bool := d.within (n * (2 ^ 20 - 1)) (u - 20)
  let abs (e : Int) : Bool := d.within (2 ^ 20 - 1) (e - 20)
  let one := y.within 1 0
  match k with
  | .rcp | .rsq => ulps 1
  | .sqrt => false
  | .exp2 => ulps 2 && (match y with
    | .fin false m _ => m != 0
    | _ => false)
  | .log2 => if xMid then abs (-22) else ulps 2
  | .sin => one && (if xSmall then ulps 1 && abs (-21) else abs (-21))
  | .cos => one && abs (-21)
  | .tanh => one && ulps 2

/-- The significand is a power of two. -/
def isPow2 (m : Nat) : Bool := m != 0 && m == 2 ^ m.log2

/-- Inputs with exact results that Table 6-4 lists, and the infinities that R141 gives for finite inputs. -/
def sfuExact (k : Sfu) (neg : Bool) (m : Nat) (e : Int) : Option Word :=
  let l := floorLog2 m e
  match k with
  | .rcp =>
    if isPow2 m && -127 ≤ l && l ≤ 149 then some (toF32 (.fin neg 1 (-l)))
    -- F32(1/x) is an infinity when (2 - 2^-24) |x| is at most 2^-127
    else if (Val.fin false (m * 33554431) (e - 24)).within 1 (-127) then
      some (if neg then 0xFF800000 else 0x7F800000)
    else none
  | .rsq => if isPow2 m && l % 2 == 0 then some (toF32 (.fin false 1 (-(l / 2)))) else none
  | .sqrt => none
  | .exp2 =>
    if !neg && 7 ≤ l then some 0x7F800000
    else
      -- integer n from -149 to 127, and +0 below half of 2^-149
      let x := toFix neg m e
      if x % 2 ^ fixBits == 0 && e + fixBits ≥ 0 && -149 ≤ x / 2 ^ fixBits && x / 2 ^ fixBits ≤ 127 then
        some (toF32 (.fin false 1 (x / 2 ^ fixBits)))
      else if x < -150 * 2 ^ fixBits then some 0
      else none
  | .log2 => if isPow2 m then some (toF32 (.ofInt l)) else none
  | .sin | .cos | .tanh => none

/-- Special inputs (Table 6-5), then exact values, then a value within the bound. (log 3) -/
def sfuResult (k : Sfu) (x : Word) : Word :=
  let canon : Word := 0x7FC00000
  let pinf : Word := 0x7F800000
  let ninf : Word := 0xFF800000
  match f32 x with
  | .psn => canon
  | .nan => canon
  | .inf neg =>
    match k with
    | .rcp => if neg then 0x80000000 else 0
    | .rsq => if neg then canon else 0
    | .sqrt => if neg then canon else pinf
    | .exp2 => if neg then 0 else pinf
    | .log2 => if neg then canon else pinf
    | .sin | .cos => canon
    | .tanh => if neg then 0xBF800000 else 0x3F800000
  | .fin neg m e =>
    if m == 0 then
      match k with
      | .rcp => if neg then ninf else pinf
      | .rsq => if neg then ninf else pinf
      | .sqrt | .sin | .tanh => x
      | .exp2 | .cos => 0x3F800000
      | .log2 => ninf
    else if neg && (k == .rsq || k == .sqrt || k == .log2) then canon
    else
      match sfuExact k neg m e with
      | some w => w
      | none =>
        let r := (sfuApprox k neg m e).val
        -- a reciprocal cut off below 1/x serves every division of R129
        -- FEXP2 gives a subnormal number down to half of 2^-149 itself
        let ref := if k == .rcp then BitVec.ofNat 32 (encodeFloat fp32Spec r true false).code
          else if k == .exp2 && toF32 r == 0 then 1 else toF32 r
        let cand := Config.sfu k.code x
        let small := floorLog2 m e < -10
        let mid := (Val.fin false m e).within 2 0 && -1 ≤ floorLog2 m e
        if sfuOk k small mid r (f32 cand) && (k != .rcp || dividesAll x cand) then cand else ref

end Sys2Proof.Machine
end

