-- ==== Sys2Proof/Machine/Float.lean ====
section
/-! DEFINITION. FP32, packed BF16, special functions and conversions (spec 06_float.md R130 to R145). -/

namespace Sys2Proof.Machine

/-! FP32 arithmetic (R135, R136). -/

def execFadd (o : OpR) (s : State) : Out := wordR o 4 (fun a b => toF32 ((f32 a).add (f32 b))) s
def execFsub (o : OpR) (s : State) : Out := wordR o 4 (fun a b => toF32 ((f32 a).sub (f32 b))) s
def execFmul (o : OpR) (s : State) : Out := wordR o 4 (fun a b => toF32 ((f32 a).mul (f32 b))) s

/-- FFMA: the product is not rounded. -/
def execFfma (o : OpR) (s : State) : Out :=
  wordRD o 4 (fun a b d => toF32 (((f32 a).mul (f32 b)).add (f32 d))) s

def execFfms (o : OpR) (s : State) : Out :=
  wordRD o 4 (fun a b d => toF32 (((f32 a).mul (f32 b)).sub (f32 d))) s

/-- FMIN and FMAX on FP32 words. -/
def fminWord (mx : Bool) (a b : Word) : Word := BitVec.ofNat 32 (floatMinMax fp32Spec mx a.toNat b.toNat)

def execFmin (o : OpV) (s : State) : Out := wordV o 2 (fminWord false) s
def execFmax (o : OpV) (s : State) : Out := wordV o 2 (fminWord true) s

/-- FSETP (R137). -/
def execFsetp (c : FCond) (o : OpC) (s : State) : Out :=
  compareWord o (fun a b => floatCond c (f32 a) (f32 b)) s

/-! The float unary group (R139 to R141). -/

def execFabs (o : OpM) (s : State) : Out := wordM o 2 (fun a => a &&& 0x7FFFFFFF) s
def execFneg (o : OpM) (s : State) : Out := wordM o 2 (fun a => a ^^^ 0x80000000) s

/-- The class bit of Table 6-3. -/
def classBit (a : Word) : Nat :=
  let neg := a.getLsbD 31
  let e := bitsOf a.toNat 23 8
  let f := a.toNat % 8388608
  if e == 255 then
    (if f == 0 then (if neg then 0 else 7) else if a.getLsbD 22 then 9 else 8)
  else if e == 0 then
    (if f == 0 then (if neg then 3 else 4) else if neg then 2 else 5)
  else if neg then 1 else 6

def execFclass (o : OpM) (s : State) : Out := wordM o 2 (fun a => BitVec.ofNat 32 (2 ^ classBit a)) s

/-- The integer that FRND selects for a finite value, as a magnitude. -/
def frndMag (r : RndInt) (neg : Bool) (m : Nat) (e : Int) : Nat :=
  let down := roundTo m e 0 true
  let inexact := Val.cmp (.fin false down 0) (.fin false m e) != some .eq
  match r with
  | .rne => roundTo m e 0 false
  | .rz => down
  | .rm => if neg && inexact then down + 1 else down
  | .rp => if !neg && inexact then down + 1 else down

/-- FRND (R139). -/
def frndWord (r : RndInt) (a : Word) : Word :=
  match f32 a with
  | .fin neg m e => toF32 (.fin neg (frndMag r neg m e) 0)
  | .inf _ => a
  | _ => 0x7FC00000

def execFrnd (r : RndInt) (o : OpM) (s : State) : Out := wordM o 4 (frndWord r) s

def execFrcp (o : OpM) (s : State) : Out := wordM o 12 (sfuResult .rcp) s
def execFrsq (o : OpM) (s : State) : Out := wordM o 12 (sfuResult .rsq) s
def execFsqrt (o : OpM) (s : State) : Out := wordM o 12 (sfuResult .sqrt) s
def execFexp2 (o : OpM) (s : State) : Out := wordM o 12 (sfuResult .exp2) s
def execFlog2 (o : OpM) (s : State) : Out := wordM o 12 (sfuResult .log2) s
def execFsin (o : OpM) (s : State) : Out := wordM o 12 (sfuResult .sin) s
def execFcos (o : OpM) (s : State) : Out := wordM o 12 (sfuResult .cos) s
def execFtanh (o : OpM) (s : State) : Out := wordM o 12 (sfuResult .tanh) s

/-! Packed BF16 (R142). -/

/-- Half h of a word. -/
def halfOf (a : Word) (h : Nat) : Nat := bitsOf a.toNat (16 * h) 16

/-- A word of two halves. -/
def pack2 (h0 h1 : Nat) : Word := BitVec.ofNat 32 (h0 % 65536 + 65536 * (h1 % 65536))

/-- A BF16 half as a value. -/
def bf (a : Word) (h : Nat) : Val := decodeFloat bf16Spec (halfOf a h)

def execBadd2 (o : OpR) (s : State) : Out :=
  wordR o 4 (fun a b => pack2 (toBF ((bf a 0).add (bf b 0))) (toBF ((bf a 1).add (bf b 1)))) s

def execBmul2 (o : OpR) (s : State) : Out :=
  wordR o 4 (fun a b => pack2 (toBF ((bf a 0).mul (bf b 0))) (toBF ((bf a 1).mul (bf b 1)))) s

def execBfma2 (o : OpR) (s : State) : Out :=
  wordRD o 4 (fun a b d => pack2 (toBF (((bf a 0).mul (bf b 0)).add (bf d 0)))
    (toBF (((bf a 1).mul (bf b 1)).add (bf d 1)))) s

/-- BMIN2 and BMAX2. -/
def bmin2Word (mx : Bool) (a b : Word) : Word :=
  pack2 (floatMinMax bf16Spec mx (halfOf a 0) (halfOf b 0)) (floatMinMax bf16Spec mx (halfOf a 1) (halfOf b 1))

def execBmin2 (o : OpV) (s : State) : Out := wordV o 2 (bmin2Word false) s
def execBmax2 (o : OpV) (s : State) : Out := wordV o 2 (bmin2Word true) s

/-! Conversions (R143 to R145). -/

/-- A conversion of layout M: 4 cycles. -/
def wordCvt (o : OpCvt) (f : Word → Word) (s : State) : Out :=
  unaryWord s o.ap.val o.ar.val o.d.val 4 fun _ => PWord.map1 f

/-- F2I (R144). -/
def f2iWord (z : Sign) (r : Rnd) (sat : Bool) (a : Word) : Word :=
  BitVec.ofNat 32 (match z with
    | .sx => (encodeVal .i32 (f32 a) r sat).code
    | .zx => (encodeU32 (f32 a) r sat).code)

def execF2i (z : Sign) (o : OpCvt) (s : State) : Out := wordCvt o (f2iWord z o.rnd o.sat) s

/-- I2F: SAT has no effect. -/
def execI2f (z : Sign) (o : OpCvt) (s : State) : Out :=
  wordCvt o (fun a => BitVec.ofNat 32 (encodeVal .f32 (.ofInt (extOf z a)) o.rnd false).code) s

def execFcvtBf16F32 (o : OpCvt) (s : State) : Out :=
  wordCvt o (fun a => BitVec.ofNat 32 (encodeVal .bf16 (f32 a) o.rnd o.sat).code) s

def execFcvtF32Bf16 (o : OpCvt) (s : State) : Out := wordCvt o (fun a => toF32 (bf a 0)) s

/-- Value rounding: the FP32 word of the value that the narrow code stands for. -/
def valueRound (q : Fmt) (r : Rnd) (sat : Bool) (a : Word) : Word :=
  toF32 (decode q false (encodeVal q (f32 a) r sat).code)

def execFcvtF16F32 (o : OpCvt) (s : State) : Out := wordCvt o (valueRound .f16 o.rnd o.sat) s
def execFcvtE4m3F32 (o : OpCvt) (s : State) : Out := wordCvt o (valueRound .e4m3 o.rnd o.sat) s
def execFcvtE5m2F32 (o : OpCvt) (s : State) : Out := wordCvt o (valueRound .e5m2 o.rnd o.sat) s

/-- FUNPACK: both halves as FP32 words in a pair. -/
def execFunpack (o : OpCvt) (s : State) : Out :=
  runWord s fun v =>
    match s.operand v o.ap.val o.ar.val with
    | .error x => .error x
    | .ok (a, s1) => s1.put2 v o.d.val (4 + popDelay v [o.ar.val]) fun L =>
        (PWord.map1 (fun w => toF32 (bf w 0)) (a L), PWord.map1 (fun w => toF32 (bf w 1)) (a L))

/-- The two halves FPACK makes; under `.ef` the second carries the first's residual (R145, R52). -/
def fpackWord (r : Rnd) (a b : Word) : Word :=
  let es := encodeRun .bf16 r false [f32 a, f32 b]
  pack2 ((es.map Enc.code).getD 0 0) ((es.map Enc.code).getD 1 0)

def execFpack (r : Rnd) (o : OpV) (s : State) : Out := wordV o 4 (fpackWord r) s

end Sys2Proof.Machine
end

