-- ==== Sys2Proof/Machine/Scratchpad.lean ====
section
/-! DEFINITION. Scratchpad and tile-store loads and stores, atomics, the trap view, and the completion of remote
accesses (spec 08_scratchpad.md R182 to R196, 17_faults.md R388). -/

namespace Sys2Proof

/-! Elements and register forms (R188). -/

/-- The register form of a memory format. -/
def OpMem.regForm (o : OpMem) : Fmt :=
  match o.fmt with
  | .f32 => .f32
  | .bf16 | .f16 | .e4m3 | .e5m2 | .e2m1 => if o.e then .bf16 else .f32
  | .rn8 | .rn16 | .i8 | .i16 | .i32 => if o.e then .f32 else .i32

/-- Elements per register word. -/
def OpMem.epw (o : OpMem) : Nat := if o.regForm == .bf16 then 2 else 1

/-- Elements per lane. -/
def OpMem.elems (o : OpMem) : Nat := cntWords o.cnt * o.epw

/-- Bytes per lane. -/
def OpMem.bytes (o : OpMem) : Nat := o.elems * o.fmt.size

/-- The alignment of a plain access (R191). -/
def OpMem.align (o : OpMem) : Nat := min o.bytes 16

end Sys2Proof

namespace Sys2Proof.Machine

/-- A store of words: scratchpad of a core, or a frame. -/
abbrev WordStore := Nat → PWord

/-- The element of `size` bytes at byte p: its code and its word's poison bit. -/
def elemAt (m : WordStore) (p size : Nat) : Nat × Bool :=
  let w := m (p / 4)
  (bitsOf w.val.toNat (8 * (p % 4)) (8 * size), w.psn)

/-- Decode a memory element; an element of a poisoned word is poisoned (R185). -/
def decodeElem (f : Fmt) (zx : Bool) (e : Nat × Bool) : Val := if e.2 then .psn else decode f zx e.1

/-- Register words from encoded elements: pairs or single words; poison in either half poisons the word. -/
def packElems (epw : Nat) : List Enc → List PWord
  | [] => []
  | e :: es =>
    if epw == 2 then
      match es with
      | [] => [⟨BitVec.ofNat 32 e.code, e.psn⟩]
      | d :: ds =>
        (if e.psn || d.psn then PWord.poison else PWord.ok (pack2 e.code d.code)) :: packElems epw ds
    else ⟨BitVec.ofNat 32 e.code, e.psn⟩ :: packElems epw es

/-- The register words of a lane from its elements' values. (log 15) -/
def loadWords (o : OpMem) (vs : List Val) : List PWord := packElems o.epw (encodeRun o.regForm (rndUsed o.fmt o.regForm o.rnd) false vs)

/-- The words a lane loads from bytes p on. -/
def loadLane (o : OpMem) (m : WordStore) (p : Nat) : List PWord :=
  loadWords o ((List.range o.elems).map fun i =>
    decodeElem o.fmt o.bit12 (elemAt m (p + i * o.fmt.size) o.fmt.size))

/-- The values of the elements in a lane's register words. -/
def regValues (o : OpMem) (ws : List PWord) : List Val :=
  (List.range o.elems).map fun i =>
    let w := ws.getD (i / o.epw) PWord.zero
    if w.psn then .psn
    else if o.epw == 2 then decodeFloat bf16Spec (halfOf w.val (i % 2))
    else decode o.regForm false w.val.toNat

/-- The write of one encoded element: word, data and mask (R185). -/
def elemWrite (p size : Nat) (e : Enc) : Nat × PWord × Word :=
  let sh := 8 * (p % 4)
  (p / 4, ⟨BitVec.ofNat 32 (e.code * 2 ^ sh), e.psn⟩, BitVec.ofNat 32 ((2 ^ (8 * size) - 1) * 2 ^ sh))

/-- The writes of a thread's store, word by word: what it writes to one word is one write, which sets or clears the
poison bit when it covers the word (R185, R186). (log 16) -/
def joinWrites : List (Nat × PWord × Word) → List (Nat × PWord × Word)
  | [] => []
  | w :: ws =>
    match joinWrites ws with
    | [] => [w]
    | x :: xs =>
      if x.1 == w.1 then (w.1, ⟨w.2.1.val ||| x.2.1.val, w.2.1.psn || x.2.1.psn⟩, w.2.2 ||| x.2.2) :: xs
      else w :: x :: xs

/-- The encoded elements a lane stores. -/
def storeElems (o : OpMem) (ws : List PWord) : List Enc :=
  encodeRun o.fmt (rndUsed o.regForm o.fmt o.rnd) o.bit12 (regValues o ws)

/-- The words, for a store from byte p on, that take a poisoned element in RN8 or RN16 form: it is written as the canonical
invalid code and leaves the poison bit as it stands (R185). (log 16) -/
def bitKept (o : OpMem) (vs : List Val) (p : Nat) : List Nat :=
  if o.fmt == .rn8 || o.fmt == .rn16 then
    (vs.mapIdx fun i x => ((p + i * o.fmt.size) / 4, x == .psn)).filterMap fun y => if y.2 then some y.1 else none
  else []

/-- The writes of a lane's store from byte p on: one a word, but element by element in a word whose poison bit an element
leaves unchanged. (log 16) -/
def storeLane (o : OpMem) (ws : List PWord) (p : Nat) : List (Nat × PWord × Word) :=
  let kept := bitKept o (regValues o ws) p
  let each := (storeElems o ws).mapIdx fun i e => elemWrite (p + i * o.fmt.size) o.fmt.size e
  joinWrites (each.filter fun w => !kept.contains w.1) ++ each.filter fun w => kept.contains w.1

/-- Perform writes to the scratchpad of a core. -/
def State.spadWrites (s : State) (team core : Nat) (ws : List (Nat × PWord × Word)) : State :=
  ws.foldl (fun t w => t.writeSpad team core w.1 w.2.1 w.2.2) s

/-! Bank timing (R194). -/

/-- The largest number of distinct words in one bank. -/
def bankLoad (ws : List Nat) : Nat :=
  let d := ws.eraseDups
  (List.range 32).foldl (fun m b => max m (d.countP fun w => w % 32 == b)) 0

/-- The words that bytes p to p + n - 1 touch. -/
def wordsOf (p n : Nat) : List Nat := (List.range ((p + n - 1) / 4 - p / 4 + 1)).map fun i => p / 4 + i

/-! Checks and places. -/

/-- The data words a lane stores from registers d on. -/
def View.words (v : View) (d n L : Nat) : List PWord := (List.range n).map fun j => v.g.reg L (d + j)

/-- The references of the enabled lanes, after R191 has passed for all of them. -/
def State.checked (s : State) (v : View) (localOnly : Bool) (n align : Nat) (a : Lanes) :
    Except Stop (List (Nat × SpadRef)) :=
  match addressTrap v.lanes (fun L => spadCheck s v localOnly n align (a L)) a with
  | .error x => .error x
  | .ok _ =>
    let rs := v.lanes.map fun L => (L, s.ref v n (a L).val)
    match s.granulesFree v n (rs.map (·.2)) with
    | .error x => .error x
    | .ok _ => .ok rs

/-- Other cores that references name. -/
def otherCores (core : Nat) (rs : List (Nat × SpadRef)) : List Nat :=
  ((rs.map fun r => r.2.core).filter (· != core)).eraseDups

/-- A new object identifier. -/
def State.fresh (s : State) : Nat × State := (s.nextId, { s with nextId := s.nextId + 1 })

/-- Send an access to another core, where it takes the L pipe for `busy` cycles and its result is late by `late` (R187,
R194). (log 16) -/
def State.sendRemote (s : State) (v : View) (target : Nat) (op : RemoteOp) (busy late : Nat) : State :=
  { s.modSelf v fun g => { g with remote := g.remote + 1 } with
    inflight := insertAt s.nextId { gid := v.o.gid, target, op, busy, late, home := v.g.core } s.inflight, nextId := s.nextId + 1 }

/-- Leave lanes of an atomic to a second pass at the issuing core, which the L pipe takes when the first has ended
(R370). -/
def State.sendPass (s : State) (v : View) (op : RemoteOp) (busy late : Nat) : State :=
  { s.modSelf v fun g => { g with remote := g.remote + 1 } with
    inflight := insertAt s.nextId { gid := v.o.gid, target := v.g.core, op, busy, late, home := v.g.core
                                    pass := some (s.now + 32) } s.inflight
    nextId := s.nextId + 1 }

/-- The references at one core. -/
def atCore (rs : List (Nat × SpadRef)) (c : Nat) : List (Nat × SpadRef) := rs.filter fun r => r.2.core == c

/-- Cycles of the L pipe for accesses of n bytes from w register words, at the core of the references (R194). -/
def accessCycles (w n : Nat) (rs : List (Nat × SpadRef)) : Nat := max w (bankLoad (rs.flatMap fun r => wordsOf r.2.off n))

/-- Cycles of the L pipe at the issuing core: those of its own accesses, or one where every lane names another core
(Table 3-10, R194). -/
def issueCycles (own : Nat) (near : List (Nat × SpadRef)) : Nat := if near.isEmpty then 1 else own

/-! Loads. -/

/-- Results of a load: register words d on, of the lanes that f knows; lanes that wait for a remote access have no
due cycle. -/
def loadResults (v : View) (d n : Nat) (due : Nat → Option Nat) (src : Nat → Nat) (f : Nat → List PWord) :
    List Result :=
  v.lanes.flatMap fun L => (List.range n).map fun j =>
    { due := due L, src := src L, target := .word (v.g.regIdx L (d + j)), val := (f L).getD j PWord.zero }

/-- LDS and LDX. Lanes at the issuing core load at once; other cores answer later and the group parks (R79). -/
def loadWord (o : OpMem) (localOnly : Bool) (s : State) : Out :=
  runWord s fun v =>
    match s.operand v 0 o.ar.val with
    | .error x => .error x
    | .ok (a, s1) =>
      match s.checked v localOnly o.bytes o.align a with
      | .error x => .error x
      | .ok rs =>
        let near := atCore rs v.g.core
        let n := cntWords o.cnt
        let c0 := accessCycles n o.bytes near
        let due := s.now + 10 + (c0 - n) + popDelayTo v o.d.val [o.ar.val]
        let cores := otherCores v.g.core rs
        let at_ := fun L => (rs.find? (·.1 == L)).map (·.2)
        let idOf := fun L => match at_ L with
          | some r => if r.core == v.g.core then 0 else s1.nextId + cores.idxOf r.core
          | none => 0
        let isNear := fun L => match at_ L with
          | some r => r.core == v.g.core
          | none => true
        let vals := fun L => match at_ L with
          | some r => if r.core == v.g.core then loadLane o (s.spadWord r.core) r.off else []
          | none => []
        let s2 := cores.foldl (fun t c =>
          let k := accessCycles n o.bytes (atCore rs c)
          t.sendRemote v c (.load o ((atCore rs c).map fun r => (r.1, r.2.off))) k (k - n)) s1
        let s3 := if v.lanes.isEmpty then s2 else s2.occupy v.g.core 4 (issueCycles c0 near)
        let s4 := if isQueue o.d.val then
            (if v.lanes.isEmpty then .ok s3
             else s3.push v (v.g.binding o.d.val) (if cores.isEmpty then some due else none)
               (cores.mapIdx fun i _ => s1.nextId + i) (v.lanes.map fun L => (vals L).getD 0 PWord.zero))
          else .ok (s3.modSelf v fun g => g.issue (loadResults v o.d.val n
            (fun L => if isNear L then some due else none) idOf vals))
        match s4 with
        | .error x => .error x
        | .ok t => .ok (if cores.isEmpty then t else t.waitFor v .outstanding)

def execLds (o : OpMem) (s : State) : Out := loadWord o true s
def execLdx (o : OpMem) (s : State) : Out := loadWord o false s

/-! Stores. -/

/-- The data of a store: a group of registers, or a popped word. (log 15) -/
def storeData (v : View) (o : OpMem) (b : Lanes) (L : Nat) : List PWord :=
  if isQueue o.d.val then [b L] else v.words o.d.val (cntWords o.cnt) L

/-- The operands of a load or store: the address, then data popped from a queue. -/
def State.storeOperands (s : State) (v : View) (o : OpMem) : Except Stop (Lanes × Lanes × State) :=
  if isQueue o.d.val then s.operands v 0 o.ar.val 0 o.d.val
  else match s.operand v 0 o.ar.val with
    | .error x => .error x
    | .ok (a, s1) => .ok (a, fun L => v.g.reg L o.d.val, s1)

/-- STS and STX: lanes store in ascending order; stores to other cores are performed later (R187). -/
def storeWord (o : OpMem) (localOnly : Bool) (s : State) : Out :=
  runWord s fun v =>
    match s.storeOperands v o with
    | .error x => .error x
    | .ok (a, b, s1) =>
      match s.checked v localOnly o.bytes o.align a with
      | .error x => .error x
      | .ok rs =>
        let near := atCore rs v.g.core
        let cores := otherCores v.g.core rs
        let n := cntWords o.cnt
        let s2 := near.foldl (fun t r => t.spadWrites v.g.team r.2.core (storeLane o (storeData v o b r.1) r.2.off)) s1
        let s3 := cores.foldl (fun t c =>
          t.sendRemote v c (.store ((atCore rs c).flatMap fun r => storeLane o (storeData v o b r.1) r.2.off))
            (accessCycles n o.bytes (atCore rs c)) 0) s2
        let s4 := if v.lanes.isEmpty then s3 else s3.occupy v.g.core 4 (issueCycles (accessCycles n o.bytes near) near)
        .ok (if cores.isEmpty then s4 else s4.waitFor v .outstanding)

def execSts (o : OpMem) (s : State) : Out := storeWord o true s
def execStx (o : OpMem) (s : State) : Out := storeWord o false s

/-! Transposing loads and stores (R193). -/

/-- The row references: the address of row r comes from lane r, enabled or not; the first failing check over the
rows decides. -/
def State.rows (s : State) (v : View) (o : OpMem) (a : Lanes) : Except Stop (List SpadRef) :=
  let n := 32 * o.fmt.size
  if v.lanes.isEmpty then .ok []
  else
    let rows := List.range o.elems
    match addressTrap rows (fun r => spadCheck s v true n n (a r)) a with
    | .error x => .error x
    | .ok _ =>
      let rs := rows.map fun r => s.ref v n (a r).val
      match s.granulesFree v n rs with
      | .error x => .error x
      | .ok _ => .ok rs

def execLdt (o : OpMem) (s : State) : Out :=
  runWord s fun v =>
    match s.operand v 0 o.ar.val with
    | .error x => .error x
    | .ok (a, s1) =>
      match s.rows v o a with
      | .error x => .error x
      | .ok rs =>
        let n := cntWords o.cnt
        let p := bankLoad (rs.flatMap fun r => v.lanes.flatMap fun L => wordsOf (r.off + L * o.fmt.size) o.fmt.size)
        let lane := fun L => loadWords o (rs.map fun r =>
          decodeElem o.fmt o.bit12 (elemAt (s.spadWord r.core) (r.off + L * o.fmt.size) o.fmt.size))
        let lat := 10 + (max n p - n) + popDelayTo v o.d.val [o.ar.val]
        let s2 := if v.lanes.isEmpty then s1 else s1.occupy v.g.core 4 (max n p)
        if isQueue o.d.val then s2.put v o.d.val lat fun L => (lane L).getD 0 PWord.zero
        else .ok (s2.modSelf v fun g => g.issue (loadResults v o.d.val n (fun _ => some (s.now + lat)) (fun _ => 0) lane))

def execStt (o : OpMem) (s : State) : Out :=
  runWord s fun v =>
    match s.storeOperands v o with
    | .error x => .error x
    | .ok (a, b, s1) =>
      match s.rows v o a with
      | .error x => .error x
      | .ok rs =>
        let p := bankLoad (rs.flatMap fun r => v.lanes.flatMap fun L => wordsOf (r.off + L * o.fmt.size) o.fmt.size)
        let s2 := v.lanes.foldl (fun t L =>
          let es := storeElems o (storeData v o b L)
          t.spadWrites v.g.team v.g.core ((rs.zip es).map fun x => elemWrite (x.1.off + L * o.fmt.size) o.fmt.size x.2)) s1
        .ok (if v.lanes.isEmpty then s2 else s2.occupy v.g.core 4 (max (cntWords o.cnt) p))

/-! The tile store and the trap view (R184, R388). -/

/-- Where a tile-store address leads. -/
inductive TileRef where
  /-- byte of the group's own frame -/
  | own (p : Nat)
  /-- byte of the trapped group's frame -/
  | frame (p : Nat)
  /-- byte of the thread-state blocks -/
  | block (p : Nat)
  /-- byte of the trap record -/
  | record (p : Nat)
  deriving DecidableEq, Repr

/-- The region of n bytes at a tile-store address; none out of bounds (R191 item 2, R388). -/
def tileRef (v : View) (served : Option Group) (store : Bool) (n : Nat) (a : Nat) : Option TileRef :=
  if a + n ≤ v.g.frameSize then some (.own a)
  else match served with
    | none => none
    | some h =>
      if 0x100000 ≤ a && a + n ≤ 0x100000 + h.frameSize then some (.frame (a - 0x100000))
      else if 0x180000 ≤ a && a + n ≤ 0x180200 then some (.block (a - 0x180000))
      else if 0x190000 ≤ a && a + n ≤ 0x190040 && !store then some (.record (a - 0x190000))
      else none

/-- n bytes at byte p of a group's frame touch a tile whose token the group does not hold (R191 item 3). -/
def Group.tileBarred (g : Group) (p n : Nat) : Bool :=
  (List.range g.accn).any fun t =>
    p < 4 * g.tileBase t + 8192 && 4 * g.tileBase t < p + n &&
      (match (readAt {} g.tiles t).st with
        | .held => false
        | .taking => false
        | _ => true)

/-- The group that a handler serves. -/
def State.served (s : State) (g : Group) : Option Group :=
  match g.handles with
  | none => none
  | some h => lookup h s.groups

/-- The first failing check of a tile-store address. -/
def tileCheck (v : View) (served : Option Group) (store : Bool) (n align : Nat) (a : PWord) : Option Nat :=
  if a.psn then some 1
  else match tileRef v served store n a.val.toNat with
    | none => some 2
    | some r =>
      let barred := match r, served with
        | .own p, _ => v.g.tileBarred p n
        | .frame p, some h => h.tileBarred p n
        | _, _ => false
      if barred then some 3
      else if a.val.toNat % align != 0 then some 4
      else none

/-- The words of a trapped thread's state block (Table 17-3), before the handler's writes. -/
def blockWord (cyc : Nat) (h : Group) (i : Nat) : PWord :=
  let t := h.thread (i / 4)
  match i % 4 with
  | 0 => PWord.ok (BitVec.ofNat 32 t.pc)
  | 1 => PWord.ok (BitVec.ofNat 32 (t.st.code + 16 * t.rword + 256 * t.wbase))
  | 2 => if t.predPsn >>> 1 != 0 then PWord.poison else PWord.ok ((t.preds ||| 1).zeroExtend 32)
  | _ => PWord.ok (BitVec.ofNat 32 (match t.st with
      | .joining => t.joinAddr
      | .sleeping => min (t.wake - cyc) 1048575
      | _ => 0))

/-- A word of the state blocks as the handler sees it: its own writes where a field can be written, and RWORD, which
a write of word 0 clears (Table 17-3). (log 14) -/
def viewBlock (v : View) (cyc : Nat) (h : Group) (i : Nat) : PWord :=
  let w := blockWord cyc h i
  let out := (lookup i v.g.viewWords).getD w
  if i % 4 == 1 then
    let rw : Word := if (lookup (i - 1) v.g.viewWords).isSome then 0 else w.val &&& 0x30
    { out with val := (out.val &&& 0xF07) ||| rw }
  else out

/-- The word store that a tile-store reference reads. -/
def State.tileStore (s : State) (v : View) (h : Group) : TileRef → WordStore × Nat
  | .own p => (v.g.word, p)
  | .frame p => (fun i => (lookup i v.g.viewFrame).getD (h.word i), p)
  | .block p => (viewBlock v (s.cyc v.g.core) h, p)
  | .record p => (fun i => (h.record.getD []).getD i PWord.zero, p)

/-- The trapped group must be resident for its view (R388). -/
def State.viewReady (v : View) (served : Option Group) (rs : List TileRef) : Except Stop Unit :=
  match served with
  | none => .ok ()
  | some h =>
    if !h.resident && rs.any (fun r => match r with
      | .own _ => false
      | _ => true) then .error (.stall (.view (v.g.handles.getD 0)))
    else .ok ()

/-- Checks and references of a tile-store access in the enabled lanes. -/
def State.tileRefs (s : State) (v : View) (store : Bool) (o : OpMem) (a : Lanes) :
    Except Stop (List (Nat × TileRef)) :=
  let h := s.served v.g
  match addressTrap v.lanes (fun L => tileCheck v h store o.bytes o.align (a L)) a with
  | .error x => .error x
  | .ok _ =>
    let rs := v.lanes.map fun L => (L, (tileRef v h store o.bytes (a L).val.toNat).getD (.own 0))
    match State.viewReady v h (rs.map (·.2)) with
    | .error x => .error x
    | .ok _ => .ok rs

/-- A group-held tile still being converted for the group holds the access back (Table 12-11). -/
def Group.takingAt (g : Group) (p n : Nat) : Option Nat :=
  (List.range g.accn).find? fun t =>
    p < 4 * g.tileBase t + 8192 && 4 * g.tileBase t < p + n && (readAt {} g.tiles t).st == .taking

/-- Accesses to a tile in conversion wait for its end: a tile of the group, or of the group that a handler serves. -/
def State.tileReady (v : View) (served : Option Group) (n : Nat) (rs : List (Nat × TileRef)) : Except Stop Unit :=
  match rs.findSome? fun r => match r.2, served with
    | .own p, _ => v.g.takingAt p n
    | .frame p, some h => h.takingAt p n
    | _, _ => none with
  | some t => .error (.stall (.tile t))
  | none => .ok ()

/-- Banks of tile-store words: as a frame is laid out (R184, R194). -/
def tileWords (n : Nat) (r : TileRef) : List Nat :=
  match r with
  | .own p => wordsOf p n
  | .frame p => wordsOf (p + 0x100000) n
  | .block p => wordsOf (p + 0x180000) n
  | .record p => wordsOf (p + 0x190000) n

def execLdr (o : OpMem) (s : State) : Out :=
  runWord s fun v =>
    match s.operand v 0 o.ar.val with
    | .error x => .error x
    | .ok (a, s1) =>
      match s.tileRefs v false o a with
      | .error x => .error x
      | .ok rs =>
        match State.tileReady v (s.served v.g) o.bytes rs with
        | .error x => .error x
        | .ok _ =>
          let n := cntWords o.cnt
          let p := bankLoad (rs.flatMap fun r => tileWords o.bytes r.2)
          let h := (s.served v.g).getD v.g
          let lane := fun L => match rs.find? (·.1 == L) with
            | some r => let m := s.tileStore v h r.2; loadLane o m.1 m.2
            | none => []
          let lat := 4 + (max n p - n) + popDelayTo v o.d.val [o.ar.val]
          let s2 := if v.lanes.isEmpty then s1 else s1.occupy v.g.core 4 (max n p)
          if isQueue o.d.val then s2.put v o.d.val lat fun L => (lane L).getD 0 PWord.zero
          else .ok (s2.modSelf v fun g => g.issue (loadResults v o.d.val n (fun _ => some (s.now + lat)) (fun _ => 0) lane))

/-- A handler's write to the trap view, kept until TRES (R388). (log 14) -/
def Group.viewWrite (g : Group) (cyc : Nat) (v : View) (h : Group) (r : TileRef) (w : Nat × PWord × Word) : Group :=
  match r with
  | .frame _ =>
    let old := (lookup w.1 g.viewFrame).getD (h.word w.1)
    { g with viewFrame := insertAt w.1 (mergeWord old w.2.1 w.2.2) g.viewFrame }
  | .block _ =>
    let old := viewBlock { v with g := g } cyc h w.1
    { g with viewWords := insertAt w.1 (mergeWord old w.2.1 w.2.2) g.viewWords }
  | _ => g

/-- The byte a reference names in its own store. -/
def TileRef.byte : TileRef → Nat
  | .own p | .frame p | .block p | .record p => p

/-- STR: writes to the group's own frame land in issue order with its other results, in the next cycle (R89). (log 61) -/
def execStr (o : OpMem) (s : State) : Out :=
  runWord s fun v =>
    match s.storeOperands v o with
    | .error x => .error x
    | .ok (a, b, s1) =>
      match s.tileRefs v true o a with
      | .error x => .error x
      | .ok rs =>
        match State.tileReady v (s.served v.g) o.bytes rs with
        | .error x => .error x
        | .ok _ =>
          let p := bankLoad (rs.flatMap fun r => tileWords o.bytes r.2)
          let h := (s.served v.g).getD v.g
          let s2 := rs.foldl (fun t r =>
            let ws := storeLane o (storeData v o b r.1) r.2.byte
            match r.2 with
            | .own _ => t.modSelf v fun g => g.issue (ws.map fun w =>
                { due := some (s.now + 1), target := .word w.1, val := w.2.1, mask := w.2.2 })
            | x => t.modSelf v fun g => ws.foldl (fun g w => g.viewWrite (s.cyc v.g.core) v h x w) g) s1
          .ok (if v.lanes.isEmpty then s2 else s2.occupy v.g.core 4 (max (cntWords o.cnt) p))

/-! Atomics (R195, R196). -/

/-- The number of little-endian words, and whether any is poisoned. -/
def wordsNat (ws : List PWord) : Nat := ws.foldr (fun w n => w.val.toNat + 4294967296 * n) 0
def wordsPsn (ws : List PWord) : Bool := ws.any fun w => w.psn

/-- A value of several words is poisoned, in every word, when any of its words is (R196). -/
def oneValue (ws : List PWord) : List PWord := if wordsPsn ws then ws.map fun _ => PWord.poison else ws

/-- n words of a number. -/
def natWords (n v : Nat) : List PWord := (List.range n).map fun i => PWord.ok (BitVec.ofNat 32 (v / 4294967296 ^ i))

/-- The new value of an atomic, from old and operand, as numbers of W bytes. -/
def atomValue (ty : AtomTy) (op : AtomOp) (a b : Nat) : Nat :=
  let bits := 32 * ty.words
  let sx := fun x => signExt bits x
  match op with
  | .add => match ty with
    | .f32 => (toF32 ((f32 (BitVec.ofNat 32 a)).add (f32 (BitVec.ofNat 32 b)))).toNat
    | _ => (a + b) % 2 ^ bits
  | .exch => b
  | .min => match ty with
    | .f32 => floatMinMax fp32Spec false a b
    | .u32 => min a b
    | _ => if sx a ≤ sx b then a else b
  | .max => match ty with
    | .f32 => floatMinMax fp32Spec true a b
    | .u32 => max a b
    | _ => if sx a ≥ sx b then a else b
  | .and => Nat.land a b
  | .or => Nat.lor a b
  | .xor => Nat.xor a b

/-- n words of a core's scratchpad from byte p. -/
def State.spadWords (s : State) (core p n : Nat) : List PWord := (List.range n).map fun i => s.spadWord core (p / 4 + i)

/-- Write words from byte p. -/
def State.putWords (s : State) (team core p : Nat) (ws : List PWord) : State :=
  s.spadWrites team core (ws.mapIdx fun i w => (p / 4 + i, w, 0xFFFFFFFF))

/-- One lane's atomic step: the old words, and the state after it. -/
def atomStep (s : State) (team core p : Nat) (o : OpAtom) (b : List PWord) : List PWord × State :=
  let old := s.spadWords core p o.ty.words
  let new := if wordsPsn old || wordsPsn b then List.replicate o.ty.words PWord.poison
    else natWords o.ty.words (atomValue o.ty o.op (wordsNat old) (wordsNat b))
  (oneValue old, s.putWords team core p new)

/-- One lane's compare-and-swap step: poison or a difference writes nothing. -/
def casStep (s : State) (team core p : Nat) (o : OpCas) (b d : List PWord) : List PWord × State :=
  let old := s.spadWords core p o.ty.words
  if wordsPsn old || wordsPsn d || wordsNat old != wordsNat d then (oneValue old, s)
  else (old, s.putWords team core p (oneValue b))

/-- Several lanes' steps in order, collecting each lane's old words. -/
def stepLanes {α : Type} (f : State → α → List PWord × State) : List (Nat × α) → State → List (Nat × List PWord) × State
  | [], s => ([], s)
  | x :: xs, s =>
    let r := f s x.2
    let t := stepLanes f xs r.2
    ((x.1, r.1) :: t.1, t.2)

/-- Lanes in the busiest bank of an atomic (R196). -/
def bankLanes (rs : List (Nat × SpadRef)) : Nat :=
  (List.range 32).foldl (fun m b => max m (rs.countP fun r => r.2.off / 4 % 32 == b)) 0

/-- The lanes of a shade's atomic that a first pass of 32 cycles performs, 16 of each bank, and those left to a second
(R370). (log 16) -/
def passes (rs : List (Nat × SpadRef)) : List (Nat × SpadRef) × List (Nat × SpadRef) :=
  rs.partition fun r => rs.countP (fun q => q.2.off / 4 % 32 == r.2.off / 4 % 32 && q.1 < r.1) < 16

/-- An atomic word: the lanes at the issuing core act at once, in ascending order; other cores' lanes act when their
access arrives, and the group parks. A shade's second pass waits for the pipe (R370). -/
def atomicWord (s : State) (localOnly : Bool) (d ar w : Nat)
    (near : View → Nat → SpadRef → State → List PWord × State)
    (far : View → List (Nat × SpadRef) → RemoteOp) : Out :=
  runWord s fun v =>
    let a : Lanes := fun L => v.g.reg L ar
    match s.checked v localOnly (4 * w) (min (4 * w) 16) a with
    | .error x => .error x
    | .ok rs =>
      let all_ := atCore rs v.g.core
      let two := if v.g.shade && 16 < bankLanes all_ then passes all_ else (all_, [])
      let here := two.1
      let cores := otherCores v.g.core rs
      let p := max 1 (bankLanes here)
      let due := s.now + 14 + 2 * (p - 1)
      let r := stepLanes (fun t (x : Nat × SpadRef) => near v x.1 x.2 t) (here.map fun x => (x.1, x)) s
      let at_ := fun L => (rs.find? (·.1 == L)).map (·.2)
      let isNear := fun L => match at_ L with
        | some x => x.core == v.g.core && !two.2.any (·.1 == L)
        | none => true
      let idOf := fun L => match at_ L with
        | some x => if isNear L then 0 else s.nextId + cores.idxOf x.core
        | none => 0
      let s1 := cores.foldl (fun t c =>
        let k := max 1 (bankLanes (atCore rs c))
        t.sendRemote v c (far v (atCore rs c)) (2 * k) (2 * (k - 1))) r.2
      let q := bankLanes two.2
      let s2 := if two.2.isEmpty then s1
        else s1.sendPass v (far v two.2) (2 * q) (12 + 2 * q)
      let s3 := s2.modSelf v fun g => g.issue (loadResults v d w (fun L => if isNear L then some due else none) idOf
        fun L => ((r.1.find? (·.1 == L)).map (·.2)).getD [])
      let s4 := if v.lanes.isEmpty then s3 else s3.occupy v.g.core 4 (issueCycles (2 * p) all_)
      .ok (if cores.isEmpty then s4 else (s4.waitFor v .outstanding).spend v.g.team)

/-- ATOMS and ATOMX. -/
def atomWord (o : OpAtom) (localOnly : Bool) (s : State) : Out :=
  let n := o.ty.words
  atomicWord s localOnly o.d.val o.ar.val n
    (fun v L r t => atomStep t v.g.team r.core r.off o (v.words o.br.val n L))
    (fun v rs => .atom o (rs.map fun x => (x.1, x.2.off, v.words o.br.val n x.1)))

/-- CASS and CASX. -/
def casWord (o : OpCas) (localOnly : Bool) (s : State) : Out :=
  let n := o.ty.words
  atomicWord s localOnly o.d.val o.ar.val n
    (fun v L r t => casStep t v.g.team r.core r.off o (v.words o.br.val n L) (v.words o.d.val n L))
    (fun v rs => .cas o (rs.map fun x => (x.1, x.2.off, v.words o.br.val n x.1, v.words o.d.val n x.1)))

def execAtoms (o : OpAtom) (s : State) : Out := atomWord o true s
def execCass (o : OpCas) (s : State) : Out := casWord o true s
def execAtomx (o : OpAtom) (s : State) : Out := atomWord o false s
def execCasx (o : OpCas) (s : State) : Out := casWord o false s

end Sys2Proof.Machine
end

