-- ==== Sys2Proof/Machine/Barrier.lean ====
section
/-! DEFINITION. Barriers, barrier objects, ring objects, write pointers, and the completion of remote accesses
(spec 10_barrier.md R237 to R258, 08_scratchpad.md R187). -/

namespace Sys2Proof.Machine

/-! Barrier objects (R243 to R245): four words at a byte offset of a core. -/

/-- The words of an object as numbers. -/
def objNat (ws : List PWord) (i : Nat) : Nat := (ws.getD i PWord.zero).val.toNat

/-- A barrier object after BOINIT with count c and bytes t (R245). -/
def boInitWords (c : Nat) (t : Word) : List PWord := [PWord.ok (BitVec.ofNat 32 c), PWord.zero, PWord.ok t, PWord.ok t]

/-- Arrive (R244): an arrival on the words of an object, delta modulo 2^32. A poisoned object discards it. -/
def arriveWords (ws : List PWord) (delta : Int) (bad : Bool) : List PWord :=
  if wordsPsn ws then ws
  else
    let expect := objNat ws 0 % 65536
    let w1 := objNat ws 1
    let arrived := w1 % 65536
    let excess := expect ≤ arrived
    let n := if excess then arrived else arrived + 1
    let ovr := bitOf w1 28 || excess
    let pending := (BitVec.ofNat 32 (objNat ws 2) : Word) + BitVec.ofInt 32 delta
    let err := bitOf w1 30 || bad
    let phase := bitOf w1 31
    let word1 := fun (ph er le : Bool) (k : Nat) =>
      PWord.ok (BitVec.ofNat 32 (k + 268435456 * ovr.toNat + 536870912 * le.toNat + 1073741824 * er.toNat +
        2147483648 * ph.toNat))
    if n == expect && pending == 0 then
      [PWord.ok (BitVec.ofNat 32 expect), word1 (!phase) false err 0, ws.getD 3 PWord.zero, ws.getD 3 PWord.zero]
    else
      [PWord.ok (BitVec.ofNat 32 expect), word1 phase err (bitOf w1 29) n, PWord.ok pending, ws.getD 3 PWord.zero]

/-- The four words of an object. -/
def State.object (s : State) (core off : Nat) : List PWord := s.spadWords core off 4

/-- An arrival at a barrier object (R244). A discarded one writes nothing. -/
def State.arrive (s : State) (team core off : Nat) (delta : Int) (bad : Bool) : State :=
  let ws := s.object core off
  if wordsPsn ws then s else s.putWords team core off (arriveWords ws delta bad)

/-! Ring objects (R251 to R254). -/

/-- SLOTS and SIZE of a ring header. -/
def ringSlots (ws : List PWord) : Nat := 2 ^ bitsOf (objNat ws 2) 19 3
def ringSize (ws : List PWord) : Nat := objNat ws 2 % 65536

/-- Word 2 of a ring header with its reserved bits 0, as every update writes it (R243, R251). -/
def ringConfig (ws : List PWord) : Word := (ws.getD 2 PWord.zero).val &&& 0x00F8FFFF

/-- Lo(WR − RD). -/
def ringFilled (ws : List PWord) : Nat := (objNat ws 0 + 4294967296 - objNat ws 1) % 4294967296

/-- Fill (R253): what a finishing command does to a ring header. -/
def fillWords (ws : List PWord) (bad : Bool) : List PWord :=
  if wordsPsn ws then ws
  else
    let sl := objNat ws 0 % ringSlots ws
    let fail := objNat ws 3
    let fail1 := fail - (if bitOf fail sl then 2 ^ sl else 0) + (if bad then 2 ^ sl else 0)
    let full := ringSlots ws ≤ ringFilled ws
    let w2 := ringConfig ws
    [PWord.ok (BitVec.ofNat 32 (objNat ws 0 + 1)), ws.getD 1 PWord.zero,
      PWord.ok (if full then w2 ||| 0x400000 else w2), PWord.ok (BitVec.ofNat 32 fail1)]

/-- RAREL (R254). -/
def releaseWords (ws : List PWord) : List PWord :=
  if wordsPsn ws then ws
  else
    let fail := ws.getD 3 PWord.zero
    if objNat ws 0 == objNat ws 1 then
      [ws.getD 0 PWord.zero, ws.getD 1 PWord.zero, PWord.ok (ringConfig ws ||| 0x800000), fail]
    else [ws.getD 0 PWord.zero, PWord.ok (BitVec.ofNat 32 (objNat ws 1 + 1)), PWord.ok (ringConfig ws), fail]

/-- A fill of a ring on a core (R253). -/
def State.fillRing (s : State) (team core off : Nat) (bad : Bool) : State :=
  let ws := s.object core off
  if wordsPsn ws then s else s.putWords team core off (fillWords ws bad)

/-- One lane's step at its object (R238). -/
def objStep (s : State) (team core off : Nat) (a : ObjAct) : State :=
  match a with
  | .boinit c t => s.putWords team core off (boInitWords c t)
  | .arrive d bad => s.arrive team core off d bad
  | .rainit w => s.putWords team core off [PWord.zero, PWord.zero, PWord.ok w, PWord.zero]
  | .release => if wordsPsn (s.object core off) then s else s.putWords team core off (releaseWords (s.object core off))

/-! The object instructions (R238). -/

/-- Lanes with a poisoned D source raise the poison-consumption trap. -/
def cleanD (v : View) (d : Lanes) : Except Stop Unit :=
  let bad := maskOf fun L => v.on L && (d L).psn
  if bad == 0 then .ok () else .error (poisonTrap bad)

/-- The object-operand trap where some enabled lane fails a check; it names the enabled set (R386). -/
def operandTrap (v : View) (bad : Nat → Bool) : Except Stop Unit :=
  if v.lanes.any bad then .error (.trap { kind := 10, tmask := v.en }) else .ok ()

/-- The cores that an access reaches. -/
def Remote.cores (r : Remote) : List Nat :=
  match r.op with
  | .objects _ _ acts => acts.map fun x => x.2.1
  | .test lanes _ => lanes.map fun x => x.2.1
  | _ => [r.target]

/-- An access of the group is under way to one of these cores: it sees what lies there after them (R186). -/
def State.reaching (s : State) (gid : Nat) (cores : List Nat) : Bool :=
  s.inflight.any fun p => p.2.gid == gid && p.2.cores.any (cores.contains ·)

/-- Every object lies at the issuing core, with no access of the group on its way there: the word acts when it issues. -/
def State.allHere (s : State) (v : View) (rs : List (Nat × SpadRef)) : Bool :=
  rs.all (fun r => r.2.core == v.g.core) && !s.reaching v.o.gid [v.g.core]

/-- The lanes that act when the word issues, in order, and those that follow on the way to their cores. (log 23) -/
def State.splitHere (s : State) (v : View) (rs : List (Nat × SpadRef)) : List (Nat × SpadRef) × List (Nat × SpadRef) :=
  if s.reaching v.o.gid [v.g.core] then ([], rs) else rs.span fun r => r.2.core == v.g.core

/-- A named object is poisoned: BOARR and RAREL trap (R246, R254). Where some object is reached later, this is found when
the word is performed. -/
def objectsClean (s : State) (v : View) (rs : List (Nat × SpadRef)) : Except Stop Unit :=
  let m := maskOf fun L => rs.any fun r => r.1 == L && wordsPsn (s.object r.2.core r.2.off)
  if m == 0 || !s.allHere v rs then .ok () else .error (poisonTrap m)

/-- Send the steps of lanes to the cores of their objects, to be performed lane by lane, and wait for them (R79, R237):
the word then has one outstanding result, which writes nothing. (log 23) -/
def State.sendObjects (s : State) (v : View) (check : Bool) (acts : List (Nat × Nat × Nat × ObjAct)) : State :=
  match acts with
  | [] => s
  | x :: _ =>
    ((s.sendRemote v x.2.1 (.objects v.o check acts) 1 0).modSelf v fun g =>
      g.issue [{ due := none, src := s.nextId, target := .mark, val := PWord.zero }]).waitFor v .outstanding

/-- Perform one step per lane, ascending (R238). With every object at the issuing core this is done at once. Otherwise the
group parks: the steps from the first lane on that names another core, or all of them where poison stops the word, go to
the cores. The checkpoint is spent where the rule says so (R395). (log 23) -/
def State.objectActs (s : State) (v : View) (rs : List (Nat × SpadRef)) (check spends : Bool) (act : Nat → ObjAct) : State :=
  let near := if s.allHere v rs then rs else if check then [] else (s.splitHere v rs).1
  let s1 := near.foldl (fun t r => objStep t v.g.team r.2.core r.2.off (act r.1)) s
  let far := rs.drop near.length
  (if spends && !far.isEmpty then s1.spend v.g.team else s1).sendObjects v check
    (far.map fun r => (r.1, r.2.core, r.2.off, act r.1))

/-- The address operand of an object instruction, checked for n bytes. -/
def State.objects (s : State) (v : View) (o : OpM) (n : Nat) :
    Except Stop (Lanes × List (Nat × SpadRef) × State) :=
  match s.operand v o.ap.val o.ar.val with
  | .error x => .error x
  | .ok (a, s1) =>
    match s.checked v false n 16 a with
    | .error x => .error x
    | .ok rs => .ok (a, rs, s1)

/-- Register d in each lane. -/
def View.lanesReg (v : View) (d : Nat) : Lanes := fun L => v.g.reg L d

/-- The first register of a pair in each lane, poisoned where either is. -/
def View.pairReg (v : View) (d : Nat) : Lanes := fun L => ⟨(v.g.reg L d).val, (v.g.reg L d).psn || (v.g.reg L (d + 1)).psn⟩

def execBoinit (o : OpM) (s : State) : Out :=
  runWord s fun v => do
    let c := v.lanesReg o.d.val
    let t := v.lanesReg (o.d.val + 1)
    let (_, rs, s1) ← s.objects v o 16
    cleanD v (v.pairReg o.d.val)
    operandTrap v (fun L => (c L).val.toNat == 0 || 65535 < (c L).val.toNat)
    .ok (s1.objectActs v rs false false fun L => .boinit (c L).val.toNat (t L).val)

def execBoarr (rlx : Bool) (o : OpM) (s : State) : Out :=
  runWord s fun v => do
    let d := v.lanesReg o.d.val
    let (_, rs, s1) ← s.objects v o 16
    cleanD v d
    objectsClean s v rs
    if !rlx && !v.lanes.isEmpty then v.release
    .ok (s1.objectActs v rs true true fun L => .arrive (d L).val.toInt false)

/-- BOWAIT parks; the wait is tested from then on (R247). -/
def execBowait (o : OpM) (s : State) : Out :=
  runWord s fun v => do
    let d := v.lanesReg o.d.val
    let (_, rs, s1) ← s.objects v o 16
    cleanD v d
    if v.lanes.isEmpty then .ok s1
    else
      v.acquire
      .ok (s1.waitFor v (.bowait v.o (rs.map fun r => ⟨r.1, r.2.core, r.2.off, (d r.1).val.getLsbD 0⟩)))

/-- What BOTEST reads of an object: word 1, poisoned where the object is (R248). -/
def State.testWord (s : State) (core off : Nat) : PWord :=
  if wordsPsn (s.object core off) then PWord.poison else s.spadWord core (off / 4 + 1)

/-- BOTEST reads word 1, lane after lane; with `.acq` it is an acquire. From the first lane on that names another core the
objects are read there, in their place among the thread's accesses, and the group parks (R79, R186, R238). (log 23) -/
def execBotest (acq : Bool) (o : OpM) (s : State) : Out :=
  runWord s fun v => do
    let (_, rs, s1) ← s.objects v o 16
    if acq && !v.lanes.isEmpty then v.acquire
    let lat := 6 + popDelay v [o.ar.val]
    let two := s.splitHere v rs
    let near := fun L => match two.1.find? (·.1 == L) with
      | some r => s.testWord r.2.core r.2.off
      | none => PWord.zero
    match two.2 with
    | [] => s1.put v o.d.val lat near
    | x :: _ =>
      let late := fun L => two.2.any (·.1 == L)
      let s2 := s1.sendRemote v x.2.core (.test (two.2.map fun r => (r.1, r.2.core, r.2.off)) []) 1 0
      let s3 ← if isQueue o.d.val then s2.push v (v.g.binding o.d.val) none [s1.nextId] (v.lanes.map near)
        else .ok (s2.modSelf v fun g => g.issue (loadResults v o.d.val 1
          (fun L => if late L then none else some (s.now + lat)) (fun L => if late L then s1.nextId else 0)
          fun L => [near L]))
      .ok (s3.waitFor v .outstanding)

/-- A configuration word that RAINIT refuses (R252). -/
def ringBad (w : Word) : Bool :=
  let x := w.toNat
  x % 65536 == 0 || x % 16 != 0 || 5 < bitsOf x 19 3 || bitsOf x 22 10 != 0 || bitsOf x 16 3 != 0

/-- RAINIT checks the whole extent of each lane's ring (R238, R252). (log 23) -/
def execRainit (o : OpM) (s : State) : Out :=
  runWord s fun v => do
    let d := v.lanesReg o.d.val
    let (a, s1) ← s.operand v o.ap.val o.ar.val
    let ext := fun L => 16 + 2 ^ bitsOf (d L).val.toNat 19 3 * ((d L).val.toNat % 65536)
    addressTrap v.lanes (fun L => spadCheck s v false (ext L) 16 (a L)) a
    let rs := v.lanes.map fun L => (L, s.ref v (ext L) (a L).val)
    s.granulesFree v 16 (rs.map (·.2))
    cleanD v d
    operandTrap v (fun L => ringBad (d L).val)
    .ok (s1.objectActs v rs false true fun L => .rainit (d L).val)

/-- RAWAIT and RAWAIT.free park; the wait is tested from then on (R254). -/
def ringWait (free : Bool) (o : OpM) (s : State) : Out :=
  runWord s fun v => do
    let d := v.lanesReg o.d.val
    let (a, rs, s1) ← s.objects v o 16
    if free then cleanD v d
    if v.lanes.isEmpty then .ok s1
    else
      v.acquire
      .ok (s1.waitFor v (.rawait v.o free
        (rs.map fun r => ⟨r.1, r.2.core, r.2.off, (a r.1).val, (d r.1).val.toNat, v.g.regIdx r.1 o.d.val⟩)))

def execRawait (o : OpM) (s : State) : Out := ringWait false o s
def execRawaitFree (o : OpM) (s : State) : Out := ringWait true o s

def execRarel (o : OpA) (s : State) : Out :=
  runWord s fun v => do
    let (_, rs, s1) ← s.objects v ⟨0, o.ap, o.ar⟩ 16
    objectsClean s v rs
    if !v.lanes.isEmpty then v.release
    .ok (s1.objectActs v rs true true fun _ => .release)

/-- WPWAIT waits on the engine context that q0 binds (R258). (log 23) -/
def execWpwait (d : Reg) (ch : Fin 4) (s : State) : Out :=
  runWord s fun v => do
    let c := v.g.binding 28
    if v.lanes.isEmpty then .ok s
    else if c.toNat / 32 != 1 then .error (bindTrap v c)
    else
      cleanD v (v.pairReg d.val)
      v.acquire
      .ok (s.waitFor v (.wpwait v.o (engineKey v.g c) ch.val
        (v.lanes.map fun L => (L, (v.g.pairAt L d.val).2))))

/-! Team and cluster barriers (R239). -/

/-- BAR and BARC: a handler group may not arrive (R384); every non-exited thread must be enabled. -/
def barWord (s : State) (n : Nat) (arrive : State → View → State) (w : Wait) : Out :=
  runPrivileged s (fun g => g.handles.isNone) fun v => do
    if v.lanes.isEmpty then .ok s
    else if allLanes.any fun L => (v.g.thread L).st != .exited && !v.on L then
      .error (.trap { kind := 9, detail := BitVec.ofNat 32 n, tmask := v.en })
    else
      v.acquire
      v.release
      .ok ((arrive s v).waitFor v w)

/-- An arrival in a table of barriers. -/
def arriveAt (bars : List (Nat × List Nat)) (n gid : Nat) : List (Nat × List Nat) :=
  insertAt n (gid :: (readAt [] bars n).filter (· != gid)) bars

/-- Note an arrival for the rollback of the team (R241). -/
def Ckpt.arrival (c : Ckpt) (cluster : Bool) (n gid : Nat) : Ckpt :=
  { c with arrivals := (cluster, n, gid) :: c.arrivals }

def execBar (n : Fin 16) (s : State) : Out :=
  barWord s n.val (fun t v => t.modTeam v.g.team fun x =>
    { x with bars := arriveAt x.bars n.val v.o.gid
             ckpt := x.ckpt.map fun c => c.arrival false n.val v.o.gid }) (.bar n.val)

def execBarc (n : Fin 4) (s : State) : Out :=
  barWord s n.val (fun t v =>
    (t.modCluster (s.clusterOf v.g) fun k => { k with bars := arriveAt k.bars n.val v.o.gid }).modTeam v.g.team
      fun x => { x with ckpt := x.ckpt.map fun c => c.arrival true n.val v.o.gid }) (.barc n.val)

/-- The groups of a team that take part in its barriers: neither handler groups nor Exiting. -/
def State.barGroups (s : State) (team : Nat) : List Nat :=
  (s.groups.filter fun p => p.2.team == team && p.2.handles.isNone && p.2.st != .exiting).map (·.1)

/-- What a checkpoint keeps of a group (R394). -/
def Group.checkpoint (gid : Nat) (g : Group) : GroupCkpt :=
  ⟨gid, g.threads, g.ptab, g.qbind, g.slots, g.tiles, g.unit, g.wait, g.pushes⟩

/-- Take the team's checkpoint, unless its kernel takes none (R394). (log 56) -/
def State.renew (s : State) (t : Nat) : State :=
  let gs := s.groups.filterMap fun p =>
    if p.2.team == t && p.2.handles.isNone then some (p.2.checkpoint p.1) else none
  s.modTeam t fun x => { x with ckpt := x.ckpt.map fun _ =>
    { groups := gs, works := (readAt [] s.mwork x.core).filter fun w => gs.any fun g => g.gid == w.gid
      posted := (List.range 4).map fun e => (engineId x.ctx x.core e, (s.engine (engineId x.ctx x.core e)).posted) } }

/-- Every group of a list has arrived at a barrier and has its results written, so that the groups can resume: the
checkpoint stands where they do (R79, R239, R241). (log 56) -/
def State.gathered (s : State) (gs arrived : List Nat) : Bool :=
  !arrived.isEmpty && gs.all fun n => arrived.contains n && (match lookup n s.groups with
    | some g => g.quiet
    | none => true)

/-- The groups of a list leave their barrier. -/
def State.wakeGroups (s : State) (gids : List Nat) : State :=
  gids.foldl (fun t g => t.modGroup g fun x => x.wake s.now) s

/-- Complete the team barriers of a team whose groups have all arrived (R239, R241). (log 23) -/
def State.finishBars (s : State) (team : Nat) : State :=
  match lookup team s.teams with
  | none => s
  | some t =>
    let gs := s.barGroups team
    t.bars.foldl (fun u b =>
      if s.gathered gs b.2 then
        ((u.wakeGroups b.2).modTeam team fun x => { x with bars := eraseAt b.1 x.bars }).renew team
      else u) s

/-- Complete the cluster barriers of a cluster where every live team has arrived. -/
def State.finishBarcs (s : State) (cl : Nat) : State :=
  match lookup cl s.clusters with
  | none => s
  | some k =>
    let gs := k.teams.flatMap s.barGroups
    k.bars.foldl (fun u b =>
      if s.gathered gs b.2 then
        k.teams.foldl State.renew ((u.wakeGroups b.2).modCluster cl fun x => { x with bars := eraseAt b.1 x.bars })
      else u) s

/-! REMOTE_ACCESS_COMPLETE (R187, R196). -/

/-- The first frame word that an access must still write in lane L: its destination register there. -/
def Group.firstOf (g : Group) (id L : Nat) : Nat :=
  ((g.outstanding.filterMap fun r => match r.target with
    | .word i => if r.src == id && r.due.isNone && i % 32 == L then some i else none
    | _ => none).min?).getD 0

/-- Give the outstanding results of an access their words; register words of a lane lie 32 frame words apart. -/
def Group.deliver (g : Group) (now id : Nat) (vals : List (Nat × List PWord)) : Group :=
  let word := fun (i : Nat) => (vals.find? fun x => x.1 == i % 32).bind fun x => x.2[(i - g.firstOf id (i % 32)) / 32]?
  { g with
    outstanding := g.outstanding.map fun r =>
      if r.src == id && r.due.isNone then
        match r.target with
        | .word i => { r with due := some now, val := (word i).getD r.val }
        | _ => { r with due := some now }
      else r
    pushes := g.pushes.map fun u =>
      if u.srcs.contains id then
        let left := u.srcs.filter (· != id)
        { u with
          words := (u.lanes.zip u.words).map fun x =>
            ((vals.find? (·.1 == x.1)).map fun y => y.2.getD 0 x.2).getD x.2
          srcs := left
          due := if left.isEmpty then some now else none }
      else u }

/-- An access is the first of its group to the cores it reaches: accesses of one thread to one byte keep their order, but
those of a moved group are not ordered after what it left under way from its old core (R181). -/
def State.remoteFirst (s : State) (n : Nat) (r : Remote) : Bool :=
  s.inflight.all fun p => n ≤ p.1 || p.2.gid != r.gid || (p.2.carried && !r.carried && p.2.home != r.home) ||
    !p.2.cores.any (r.cores.contains ·)

/-- Steps at objects (R238): those of the lanes up to the next change of core. Where the objects must be clean, no lane acts
if any object is not, and the waiting word takes the poison-consumption trap; all its lanes act together (R246, R254).
(log 23) -/
def State.performObjects (s : State) (n : Nat) (r : Remote) (o : Issue) (check : Bool)
    (acts : List (Nat × Nat × Nat × ObjAct)) : State :=
  let owner := ((lookup r.gid s.groups).map (·.team)).getD 0
  let bad := if check then maskOf fun L => acts.any fun x => x.1 == L && wordsPsn (s.object x.2.1 x.2.2.1) else 0
  let s0 := { s with inflight := eraseAt n s.inflight }
  if bad != 0 then
    (s0.modGroup r.gid fun g => { g with
      remote := g.remote - 1, outstanding := g.outstanding.filter fun x => x.src != n || x.due.isSome }).trapInWait o
        { kind := 2, detail := BitVec.ofNat 32 ((lanesOf bad).headD 0), tmask := bad }
  else
    let parts := acts.span fun x => check || x.2.1 == r.target
    let t := parts.1.foldl (fun t x => objStep t owner x.2.1 x.2.2.1 x.2.2.2) s0
    match parts.2 with
    | [] => t.modGroup r.gid fun g => { g.deliver s.now n [] with remote := g.remote - 1 }
    | x :: rest => { t with inflight := insertAt n { r with target := x.2.1, op := .objects o false (x :: rest) } t.inflight }

/-- A BOTEST reads the objects of its lanes up to the next change of core; its results come with the last (R238, R248). -/
def State.performTest (s : State) (n : Nat) (r : Remote) (lanes : List (Nat × Nat × Nat)) (read : List (Nat × List PWord)) : State :=
  let parts := lanes.span fun x => x.2.1 == r.target
  let got := read ++ parts.1.map fun x => (x.1, [s.testWord x.2.1 x.2.2])
  let s0 := { s with inflight := eraseAt n s.inflight }
  match parts.2 with
  | [] => s0.modGroup r.gid fun g => { g.deliver (s.now + r.late) n got with remote := g.remote - 1 }
  | x :: rest => { s0 with inflight := insertAt n { r with target := x.2.1, op := .test (x :: rest) got } s0.inflight }

/-- Perform a remote access at its target core, on behalf of the team that issued it: no undo log there covers it
(R394). It takes the L pipe there, and its result is late by as much as it conflicts in a bank (R194, R196). (log 6, 23) -/
def performRemote (s : State) (n : Nat) (r : Remote) : State :=
  let s0 := { s with inflight := eraseAt n s.inflight }.occupyNext r.target 4 r.busy
  let less := fun g : Group => { g with remote := g.remote - 1 }
  let owner := ((lookup r.gid s.groups).map (·.team)).getD 0
  match r.op with
  | .load o lanes => s0.modGroup r.gid fun g =>
      less (g.deliver (s.now + r.late) n (lanes.map fun x => (x.1, loadLane o (s.spadWord r.target) x.2)))
  | .test lanes read => s.performTest n r lanes read
  | .store ws => (s0.spadWrites owner r.target ws).modGroup r.gid less
  | .atom o lanes =>
    let t := stepLanes (fun t (x : Nat × List PWord) => atomStep t owner r.target x.1 o x.2) lanes s0
    t.2.modGroup r.gid fun g => less (g.deliver (s.now + r.late) n t.1)
  | .cas o lanes =>
    let t := stepLanes (fun t (x : Nat × List PWord × List PWord) => casStep t owner r.target x.1 o x.2.1 x.2.2)
      lanes s0
    t.2.modGroup r.gid fun g => less (g.deliver (s.now + r.late) n t.1)
  | .objects o check acts => s.performObjects n r o check acts

/-- Perform what a group has under way, in its order. -/
def State.performAll (s : State) (gid : Nat) : State :=
  s.inflight.foldl (fun t p => if p.2.gid == gid then performRemote t p.1 p.2 else t) s

/-- The L pipe takes a second pass: the first has ended, and no word holds the pipe (R370). (log 16) -/
def State.passMay (s : State) (r : Remote) : Bool :=
  match r.pass with
  | some t => t ≤ s.now && (s.core r.target).pipes.getD 4 0 ≤ s.now
  | none => true

/-- Second passes that wait at a core. -/
def State.passesAt (s : State) (core : Nat) : List (Nat × Remote) :=
  s.inflight.filter fun p => p.2.pass.isSome && p.2.target == core

/-- An eclipse leaves nothing of the shade waiting on a core: its second passes are performed (R371). -/
def State.performPasses (s : State) (core : Nat) : State :=
  (s.passesAt core).foldl (fun t p => performRemote t p.1 p.2) s

/-- REMOTE_ACCESS_COMPLETE. -/
def execRemoteAccessComplete (n : Nat) (s : State) : Out :=
  match lookup n s.inflight with
  | none => .fault .noSuchObject
  | some r => if s.remoteFirst n r && s.passMay r then .next (performRemote s n r) else .fault .noSuchObject

end Sys2Proof.Machine
end

