-- ==== Sys2Proof/Machine/Memory.lean ====
section
/-! DEFINITION. Device and host memory as the agents reach it: routes, home reads and home writes, near copies and
replicas, compression, access counters, and the pushes that stores cause (spec 11_memory_model.md R269, 13 R312 to
R314, 17 R391, 18 R413, 19 R414 to R429, 20 R444 to R447, 21 R449). -/

namespace Sys2Proof.Machine

/-! Dies and routes (R442, R444). -/

/-- See assumption log 4. -/
def State.die (s : State) (d : Nat) : Die := (lookup d s.dies).getD {}
def State.setDie (s : State) (d : Nat) (x : Die) : State := { s with dies := insertAt d x s.dies }
def State.modDie (s : State) (d : Nat) (f : Die → Die) : State := s.setDie d (f (s.die d))
/-- See assumption log 4. -/
def State.link (s : State) (l : Nat) : Link := (lookup l s.links).getD {}
def State.setLink (s : State) (l : Nat) (x : Link) : State := { s with links := insertAt l x s.links }

/-- A die serves requests. -/
def State.dieReady (s : State) (d : Nat) : Bool := (s.die d).phase == .ready

/-- What becomes of a request. -/
inductive Reach where
  | ok
  /-- it waits at its source until a link is Up again (R442) -/
  | wait
  /-- it receives the partition-down reply (R236) -/
  | down
  deriving DecidableEq, Repr

/-- The edge that joins two dies (Table 20-1). -/
def edgeOf (a b : Nat) : Nat :=
  match min a b, max a b with
  | 0, 1 => 0
  | 0, 2 => 1
  | 1, 3 => 2
  | _, _ => 3

/-- A request on a link: sent, held at its source, or not carried. -/
def State.linkReach (s : State) (l : Nat) : Reach :=
  match (s.link l).st with
  | .up => .ok
  | .down | .failed => .down
  | _ => .wait

def Reach.both : Reach → Reach → Reach
  | .ok, r => r
  | .wait, .down => .down
  | .wait, _ => .wait
  | .down, _ => .down

def Reach.either : Reach → Reach → Reach
  | .ok, _ => .ok
  | .wait, .ok => .ok
  | .wait, _ => .wait
  | .down, r => r

/-- A path over dies, the first at its source. (log 30) -/
def State.pathReach (s : State) : List Nat → Reach
  | [] => .ok
  | [_] => .ok
  | a :: b :: rest =>
    ((s.linkReach (edgeOf a b)).both (if s.dieReady b then .ok else .down)).both (s.pathReach (b :: rest))

/-- The ways from die a to die b: the edge and the long way, or the two diagonals (R19, R444). (log 30) -/
def ways (a b : Nat) : List (List Nat) :=
  if a == b then [[a]]
  else if Nat.xor a b == 3 then [[a, Nat.xor a 1, b], [a, Nat.xor a 2, b]]
  else if Nat.xor a b == 1 then [[a, b], [a, Nat.xor a 2, Nat.xor b 2, b]]
  else [[a, b], [a, Nat.xor a 1, Nat.xor b 1, b]]

/-- The die that a request for a line crosses between diagonal dies: the horizontal neighbour of its source, or the
vertical one where bit 7 of the line address is 1 (R19). (log 30) -/
def crossing (a line : Nat) : Nat := Nat.xor a (if line % 2 == 1 then 2 else 1)

/-- A die is fenced off, and traffic through it has not yet switched paths (R448). -/
def State.fenced (s : State) (d : Nat) : Bool := (s.die d).phase == .warm && s.now < (s.die d).switchAt

/-- A request for a line, or its reply, crosses a die that is fenced off and that traffic still goes through (R448, R490).
(log 30) -/
def State.unswitched (s : State) (a b line : Nat) : Bool :=
  Nat.xor a b == 3 && (s.fenced (crossing a line) || s.fenced (crossing b line))

/-- How a request from die a for a line fares at die b. (log 30) -/
def State.reach (s : State) (a b line : Nat) : Reach :=
  if !s.dieReady b || s.unswitched a b line then .down
  else (ways a b).foldl (fun r w => r.either (s.pathReach w)) .down

/-- LEVEL at the start of cycle `now` (R447). -/
def Bucket.refill (b : Bucket) (now : Nat) : Bucket :=
  if now ≤ b.at_ then b
  else
    let first := max (-2147483648) (min (b.size : Int) (b.level + b.rate - b.inj))
    { b with level := min (b.size : Int) (first + b.rate * (now - b.at_ - 1 : Nat)), inj := 0, at_ := now }

/-- Debit a context's bucket on a die (R447), brought to this cycle. (log 30) -/
def State.debit (s : State) (ctx die n : Nat) : State :=
  let b := (s.bucket ctx die).refill s.now
  { s with buckets := insertAt (ctx * 4 + die) { b with inj := b.inj + n } s.buckets }

/-- A device request to a byte of host memory through function f from a die (R449). (log 58) -/
def State.portReach (s : State) (die f x : Nat) : Reach :=
  if (lookup f s.portDown).isSome then .down else s.reach die f (x / 128)

/-! Homes (R416, R420). -/

/-- Home slice of a stack offset: 16 * stack + u, past retired slices. -/
def State.homeOf (s : State) (stack off : Nat) : Nat :=
  let l := off / 128
  let u := Nat.xor (l % 16) (l / 16 % 16)
  let gone := fun v : Nat => (s.die (stack / 4)).retired.contains (16 * (stack % 4) + v)
  let v := if !gone u then u
    else if !gone (Nat.xor u 1) then Nat.xor u 1
    else ((List.range 16).map fun i => (u + i) % 16).find? (fun w => !gone w) |>.getD u
  16 * stack + v

/-- Nearest slice of a core (R419). -/
def nearestSlice (core : Nat) : Nat := 64 * dieOf core + 8 * (coreY core / 2) + coreX core / 2

/-! Access counters (R413). -/

/-- The entry that a new page replaces: that of the lowest count. (log 34) -/
def lowestCount (es : List CountEntry) : Nat :=
  ((es.mapIdx fun i e => (i, e.count)).foldl (fun (b : Nat × Nat) p => if p.2 < b.2 then p else b)
    (0, ((es.head?.map fun e => e.count).getD 0))).1

/-- One request for a page at a counter table of a die. (log 34) -/
def State.countAccess (s : State) (die table page : Nat) : State :=
  let es := readAt [] s.counters table
  let es1 := if es.any (·.page == page) then es
    else if es.length < 4096 then ⟨page, 0, true⟩ :: es
    else es.set (lowestCount es) ⟨page, 0, true⟩
  let hi := (s.die die).hi
  let hits := es1.any fun e => e.page == page && e.armed && hi ≤ e.count + 1
  let es2 := es1.map fun e =>
    if e.page == page then { e with count := e.count + 1, armed := e.armed && !(hi ≤ e.count + 1) } else e
  let count := ((es2.find? (·.page == page)).map (·.count)).getD 0
  { s with counters := writeAt [] table es2 s.counters
           migreqs := if hits then s.migreqs ++ [⟨table, page, count⟩] else s.migreqs }

/-! Stacks (R423 to R430). -/

/-- The devices' dies that share the interleaved memory of a die's stacks, by the mode of the die (R414). -/
def State.sharers (s : State) (die : Nat) : List Nat :=
  match (s.die die).mode with
  | 1 => deviceDies 1 0
  | 2 => deviceDies 2 (die / 2)
  | _ => [die]

/-- The 64 KiB physical page that holds a stack offset, numbered as physical addresses are (R415). -/
def State.pageOf (s : State) (stack off : Nat) : Nat :=
  let base := (64 - s.dl) * 1073741824
  let block := fun n j q : Nat => q * n + Nat.xor j (q % n)
  if base ≤ off then 34359738368 + stack / 4 * 8589934592 + block 4 (stack % 4) ((off - base) / 4096) / 16
  else
    let dies := s.sharers (stack / 4)
    block (4 * dies.length) (4 * dies.idxOf (stack / 4) + stack % 4) (off / 4096) / 16

/-- Blocks of 4 KiB of a 64 KiB page that lie on one stack (R415): four of a page of the die-local window. -/
def State.pagePart (s : State) (stack off : Nat) : Nat × Nat :=
  let n := if (64 - s.dl) * 1073741824 ≤ off then 4 else 4 / (s.sharers (stack / 4)).length
  (off / 4096 / n * n, n)

/-- Set the attribute of blocks. (log 31) -/
def State.setAttr (s : State) (stack first n a : Nat) : State :=
  { s with attr := (List.range n).foldl (fun m i => writeAt 3 (stack * 16777216 + first + i) a m) s.attr }

/-- Set the attribute of a page's blocks on a stack. -/
def State.setPageAttr (s : State) (stack off a : Nat) : State :=
  s.setAttr stack (s.pagePart stack off).1 (s.pagePart stack off).2 a

/-- A request reaches a stack (R413). (log 34) -/
def State.stackRequest (s : State) (stack off : Nat) : State := s.countAccess (stack / 4) stack (s.pageOf stack off)

/-- Malformed entries of logical sectors are logged as class 2 (R430). -/
def State.logMalformed (s : State) (stack : Nat) (offs : List Nat) : State :=
  (offs.filter fun o => s.compressed stack o && (s.waitingBlock stack (o / 1024)).isNone && s.malformed stack o).foldl (fun t o =>
    t.logError ⟨stack / 4, 0, 2, false, 0, t.homeOf stack o % 64, stack * 68719476736 + o, t.now, 0⟩) s

/-- The sectors of the block that holds a stack offset. -/
def blockSectors (off : Nat) : List Nat := (List.range 32).map fun i => off / 1024 * 1024 + 32 * i

/-- The block that holds a stack offset, expanded. -/
def State.loadBlock (s : State) (stack off : Nat) : Block :=
  ⟨(List.range 1024).map fun i => s.stackByte stack (off / 1024 * 1024 + i),
    maskOf fun i => s.stackPsn stack (off / 1024 * 1024 + 32 * i)⟩

/-- Fill a slot: its bytes, and the poison of its stored sectors. -/
def State.fillSlot (s : State) (stack slot : Nat) (bytes : List Byte) (psn : BitVec 32) : State :=
  let s1 := (bytes.mapIdx fun i b => (i, b)).foldl (fun t x => t.setSlotByte stack (1024 * slot + x.1) x.2) s
  (List.range 32).foldl (fun t i => t.setSlotPsn stack (1024 * slot + 32 * i) (psn.getLsbD i)) s1

/-- Bytes 1016 to 1023 inverted (R426). -/
def invertTail (bytes : List Byte) : List Byte := bytes.mapIdx fun i b => if 1016 ≤ i then ~~~b else b

/-- Take a slot out of a collision table. (log 31) -/
def State.freeCollision (s : State) (stack slot : Nat) : State :=
  { s with collisions := writeAt [] stack ((readAt [] s.collisions stack).filter (· != slot)) s.collisions }

/-- A page's drain holds a slot. -/
def Drain.covers (d : Drain) (stack slot : Nat) : Bool := d.stack == stack && d.first ≤ slot / 4 && slot / 4 < d.first + d.blocks

/-- A slot waits no longer for its page's drain. -/
def State.dropWaiting (s : State) (stack slot : Nat) : State :=
  { s with drains := s.drains.map fun p => if p.2.covers stack slot then (p.1, { p.2 with waiting := eraseAt slot p.2.waiting }) else p }

/-- The drain of the page at a stack offset begins, or is recorded (R423, R428). (log 31) -/
def State.startDrain (s : State) (stack off : Nat) (begun : Bool) : State :=
  let p := s.pagePart stack off
  { (if begun then s.setPageAttr stack off 2 else s) with
    drains := insertAt s.nextId { stack := stack, first := p.1, blocks := p.2, overflow := !begun, next := 4 * p.1, begun := begun } s.drains
    nextId := s.nextId + 1 }

/-- A collision that finds the table full: the block waits for the drain of its page (R428). (log 31) -/
def State.overflow (s : State) (stack slot : Nat) (b : Block) : State :=
  let s1 := if s.drains.any fun p => p.2.covers stack slot then s else s.startDrain stack (1024 * slot) false
  { s1 with drains := s1.drains.map fun p =>
      if p.2.covers stack slot then (p.1, { p.2 with overflow := true, waiting := insertAt slot b p.2.waiting }) else p }

/-- Store a block of a page of attribute 1 or 2 (R425, R426). One that the page's drain has passed is stored raw, or the drain
would leave it compressed in a page of attribute 0. (log 31) -/
def State.storeBlock (s : State) (stack slot : Nat) (b : Block) : State :=
  let tab := readAt [] s.collisions stack
  let passed := s.drains.any fun p => p.2.covers stack slot && slot < p.2.next
  let s1 := s.dropWaiting stack slot
  if b.packs && !passed then (s1.freeCollision stack slot).fillSlot stack slot (b.packed (s.markerOf stack)) 0
  else if leNat (fun i => b.bytes.getD (1016 + i) 0) 8 != s.markerOf stack then
    (s1.freeCollision stack slot).fillSlot stack slot b.bytes b.psn
  else if tab.contains slot then s1.fillSlot stack slot (invertTail b.bytes) b.psn
  else if tab.length < 4096 then
    { s1.fillSlot stack slot (invertTail b.bytes) b.psn with collisions := writeAt [] stack (slot :: tab) s1.collisions }
  else s1.overflow stack slot b

/-- Store the bytes of a write where slots are not packed. -/
def State.storeRaw (s : State) (w : HomeWrite) : State :=
  let s1 := w.bytes.foldl (fun t b => t.setSlotByte w.stack (128 * w.line + b.1) b.2) s
  w.sectors.foldl (fun t k =>
    if w.psn.contains k then t.setSlotPsn w.stack (128 * w.line + 32 * k) true
    else if w.whole k then t.setSlotPsn w.stack (128 * w.line + 32 * k) false else t) s1

/-- A write reaches the stack of its line: one step on its block in a page of attribute 1 or 2 (R429); a page never written
becomes raw (R423). (log 31) -/
def State.stackWrite (s : State) (w : HomeWrite) : State :=
  let off := 128 * w.line
  if s.mayPack w.stack off then
    (s.logMalformed w.stack (blockSectors off)).storeBlock w.stack (off / 1024) ((s.loadBlock w.stack off).merge w)
  else
    let s1 := s.storeRaw w
    if s.attrAt w.stack off == 3 then s1.setPageAttr w.stack off 0 else s1

/-! Home reads and writes. -/

/-- Bytes read, their poison, and whether the partition-down reply came. -/
structure Got where
  bytes : List Byte
  psn : Bool
  down : Bool := false
  deriving DecidableEq, Repr

/-- The partition-down reply: poisoned (R236). -/
def Got.lost (n : Nat) : Got := ⟨List.replicate n 0, true, true⟩

/-- n bytes at a stack offset, within one sector, as their home has them. -/
def State.homeGot (s : State) (stack off n : Nat) : Got :=
  ⟨(List.range n).map fun i => s.homeByte stack (off + i), s.sectorPsn stack off, false⟩

/-! Pushes (R312, R313). -/

/-- Reflections registered for a range. -/
def State.subscribers (s : State) (r : WRange) : List (Nat × Refl) :=
  s.refls.filter fun p => p.2.st == .live && p.2.stack == r.stack && p.2.soff == r.off && p.2.size == r.size

/-- Send a push of a range to every core that watches it. A subscriber counts the stores applied since its
registration (R310, R319). (log 47) -/
def State.sendPush (s : State) (r : WRange) (n : Nat) (rel : Bool) : State :=
  let subs := (s.subscribers r).filter fun p => p.2.skip < n
  let all := (s.subscribers r).map (·.1)
  let cores := (subs.map fun p => p.2.core).eraseDups
  let data := (List.range r.size).map fun i => s.homeByte r.stack (r.off + i)
  let psn := (s.sectorPsn r.stack r.off, s.sectorPsn r.stack (r.off + 32))
  let s0 := { s with refls := s.refls.map fun p => if all.contains p.1 then (p.1, { p.2 with skip := 0 }) else p }
  cores.foldl (fun t c =>
    let mine := subs.filter fun p => p.2.core == c
    let p : RPush := ⟨s.homeOf r.stack r.off, c, mine.map fun q => (q.1, n - q.2.skip), data, psn, rel, r.off / 128⟩
    let t1 := { t with rpushes := insertAt t.nextId p t.rpushes, nextId := t.nextId + 1 }
    if dieOf c == r.stack / 4 then t1
    else mine.foldl (fun u q => u.debit q.2.ctx (r.stack / 4) r.size) t1) s0

/-- A push that covers n stores of a range goes to some subscriber. -/
def State.sends (s : State) (r : WRange) (n : Nat) : Bool := (s.subscribers r).any fun p => p.2.skip < n

/-- Put a range back. -/
def State.setRange (s : State) (r : WRange) : State :=
  { s with ranges := s.ranges.map fun y => if y.stack == r.stack && y.off == r.off && y.size == r.size then r else y }

/-- Send a range's push of n stores, and remember when it left, if it goes to anyone. -/
def State.pushRange (s : State) (r : WRange) (n : Nat) (rel : Bool) : State :=
  (s.setRange { r with last := if s.sends r n then some s.now else r.last }).sendPush r n rel

/-- A store to a range: a push at once, or held until 64 cycles after the last push (R313). -/
def State.storeRange (s : State) (r : WRange) (rel : Bool) : State :=
  match r.last with
  | some c =>
    if s.now < c + 64 || r.held != 0 then s.setRange { r with held := r.held + 1, rel := r.rel || rel }
    else s.pushRange r 1 rel
  | none => s.pushRange r 1 rel

/-- A write touches bytes of a range. -/
def HomeWrite.touches (w : HomeWrite) (r : WRange) : Bool :=
  w.stack == r.stack && w.bytes.any fun b => r.off ≤ 128 * w.line + b.1 && 128 * w.line + b.1 < r.off + r.size

/-- A WAITV whose line is written reads again within 64 cycles (R330). -/
def State.touchLine (s : State) (stack line : Nat) : State :=
  let touched := fun e : Nat × QEntry => e.2.line == some (stack, line)
  let soon := fun e : Nat × QEntry => if touched e then (e.1, { e.2 with reread := min e.2.reread (s.now + 64) }) else e
  if s.queues.any (fun p => p.2.entries.any touched) then
    { s with queues := s.queues.map fun p => (p.1, { p.2 with entries := p.2.entries.map soon }) }
  else s

/-- What follows a home write: reflections are pushed to, and a WAITV reads again (R312, R330). (log 28) -/
def State.homeEffects (s : State) (w : HomeWrite) : State :=
  let s1 := s.touchLine w.stack w.line
  (s1.ranges.filter w.touches).foldl (fun t r => t.storeRange r w.rel) s1

/-! The lines of the L2 (R418). -/

/-- A line of the L2: a home line, or a copy. -/
inductive L2Line where
  | home (h : HomeLine)
  | copy (c : CopyLine)
  deriving DecidableEq, Repr

def L2Line.used : L2Line → Nat
  | .home h => h.used
  | .copy c => c.used

def L2Line.isCopy : L2Line → Bool
  | .home _ => false
  | .copy _ => true

/-- The set of its slice that a line falls in. (log 29) -/
def L2Line.set : L2Line → Nat
  | .home h => Config.l2Set h.stack h.line % 768
  | .copy c => Config.l2Set c.stack c.line % 768

/-- The lines that a slice holds. -/
def State.sliceLines (s : State) (slice : Nat) : List L2Line :=
  ((s.homes.filter fun h => s.homeOf h.stack (128 * h.line) == slice).map .home) ++ (s.copies.filter (·.slice == slice)).map .copy

/-- The line used least recently. -/
def oldest : List L2Line → Option L2Line
  | [] => none
  | x :: xs => some (xs.foldl (fun b y => if y.used < b.used then y else b) x)

/-- The line that a new one of a slice displaces: of a set with 8 copies, a new copy displaces a copy; of 16 lines, any line
displaces the oldest. (log 29) -/
def State.displaced (s : State) (slice stack line : Nat) (copy : Bool) : Option L2Line :=
  let here := s.sliceLines slice
  if (here.filter L2Line.isCopy).length < 8 && here.length < 16 then none
  else
    let same := here.filter fun x => x.set == Config.l2Set stack line % 768
    let copies := same.filter L2Line.isCopy
    if copy && 8 ≤ copies.length then oldest copies else if 16 ≤ same.length then oldest same else none

/-! Home lines. -/

/-- The bytes of the sectors of a line that a bit set names, as a write of the line. -/
def sectorBytes (data : List (Nat × Byte)) (ks : List Nat) : List (Nat × Byte) :=
  ks.flatMap fun k => (List.range 32).map fun i => (32 * k + i, readAt 0 data (32 * k + i))

/-- A home line's dirty sectors reach their stack. -/
def State.cleanHome (s : State) (h : HomeLine) : State :=
  let ks := (List.range 4).filter h.dirty.getLsbD
  if ks.isEmpty then s
  else (s.stackRequest h.stack (128 * h.line)).stackWrite
    { stack := h.stack, line := h.line, bytes := sectorBytes h.data ks, psn := ks.filter h.psn.getLsbD, rel := false }

/-- A home line leaves its slice, its dirty sectors written to the stack. -/
def State.evictHome (s : State) (h : HomeLine) : State :=
  let s1 := s.cleanHome h
  { s1 with homes := s1.homes.filter fun x => !(x.stack == h.stack && x.line == h.line) }

/-- The home line of a line, new if there is none. -/
def State.homeOr (s : State) (stack line : Nat) : HomeLine := (s.homeLine stack line).getD { stack := stack, line := line }

/-- Fetch sector k of a home line from its stack, where the line has it not. -/
def State.fetchHome (s : State) (h : HomeLine) (k : Nat) : HomeLine × State :=
  if h.valid.getLsbD k then (h, s)
  else
    let off := 128 * h.line + 32 * k
    let data := (List.range 32).foldl (fun d j => writeAt 0 (32 * k + j) (s.stackByte h.stack (off + j)) d) h.data
    let bit : BitVec 4 := 1#4 <<< k
    ({ h with data := data, valid := h.valid ||| bit, psn := if s.stackPsn h.stack off then h.psn ||| bit else h.psn &&& ~~~bit },
      (s.stackRequest h.stack off).logMalformed h.stack [off])

/-- A home line after a write whose partly written sectors it holds (R391). -/
def HomeLine.apply (h : HomeLine) (w : HomeWrite) : HomeLine :=
  w.sectors.foldl (fun x k =>
    let bit : BitVec 4 := 1#4 <<< k
    { x with
      valid := x.valid ||| bit, dirty := x.dirty ||| bit
      psn := if w.psn.contains k then x.psn ||| bit else if w.whole k then x.psn &&& ~~~bit else x.psn })
    { h with data := w.bytes.foldl (fun d b => writeAt 0 b.1 b.2 d) h.data }

/-- A home line with what a write of it needs from the stack, and with the write. -/
def State.writeHome (s : State) (h : HomeLine) (w : HomeWrite) : HomeLine × State :=
  let r := (w.sectors.filter fun k => !w.whole k).foldl (fun (r : HomeLine × State) k => r.2.fetchHome r.1 k) (h, s)
  (r.1.apply w, r.2)

/-- Put a home line back as the line used last; nothing makes room. -/
def State.keepHome (s : State) (h : HomeLine) : State :=
  { s with l2Uses := s.l2Uses + 1
           homes := { h with used := s.l2Uses } :: s.homes.filter fun x => !(x.stack == h.stack && x.line == h.line) }

/-- A home write whose line takes no new way: a slice that holds the line keeps the write, otherwise its stack takes it.
So are the lines written home that another line displaces. (log 29) -/
def State.writeThrough (s : State) (w : HomeWrite) : State :=
  let s1 := match s.homeLine w.stack w.line with
    | some h => let r := s.writeHome h w; r.2.keepHome r.1
    | none => (s.stackRequest w.stack (128 * w.line)).stackWrite w
  s1.homeEffects w

/-- The write of a near copy's dirty bytes home: bytes that nobody wrote are not written (R264). One release flag covers the line:
plain stores of one watched range beside REL stores of another make both pushes release pushes (DESIGN CHOICE, log 29). -/
def CopyLine.homeWrite (c : CopyLine) : HomeWrite :=
  { stack := c.stack, line := c.line, rel := c.rel
    bytes := ((List.range 128).filter fun i => c.dirty.getLsbD i).map fun i => (i, readAt 0 c.data i)
    psn := (List.range 4).filter fun k => c.psn.getLsbD k && (List.range 32).any fun i => c.dirty.getLsbD (32 * k + i) }

/-- A near copy has something to write home, and a way there (R236, R442). (log 30) -/
def State.goesHome (s : State) (c : CopyLine) : Bool := c.dirty != 0 && s.reach c.die (c.stack / 4) c.line != .down

/-- A displaced line leaves (R418). (log 29) -/
def State.leaveL2 (s : State) : L2Line → State
  | .home h => s.evictHome h
  | .copy c =>
    let s1 := { s with copies := s.copies.erase c }
    if s.goesHome c then s1.writeThrough c.homeWrite else s1

/-- Put a home line into its slice; a line that it displaces leaves. (log 29) -/
def State.putHome (s : State) (h : HomeLine) : State :=
  if (s.homeLine h.stack h.line).isSome then s.keepHome h
  else
    let s1 := match s.displaced (s.homeOf h.stack (128 * h.line)) h.stack h.line false with
      | some v => s.leaveL2 v
      | none => s
    s1.keepHome h

/-- The home has the sector at a stack offset: its slice holds it from now on. (log 29) -/
def State.touchHome (s : State) (stack off : Nat) : State :=
  let r := s.fetchHome (s.homeOr stack (off / 128)) (off % 128 / 32)
  r.2.putHome r.1

/-- The home has the bytes of a range of up to two sectors (R310). -/
def State.touchRange (s : State) (stack off n : Nat) : State :=
  if off / 32 == (off + n - 1) / 32 then s.touchHome stack off else (s.touchHome stack off).touchHome stack (off + 32)

/-- The line of an atomic leaves its slice: it is at the stack (R421). -/
def State.toStack (s : State) (stack line : Nat) : State :=
  match s.homeLine stack line with
  | some h => s.evictHome h
  | none => s

/-- A home write (R312): the home line takes it, or the stack where an atomic acts (R421). (log 28) -/
def State.homeWrite (s : State) (w : HomeWrite) : State :=
  let s1 := if w.atStack then (s.toStack w.stack w.line).stackWrite w
    else
      let r := s.writeHome (s.homeOr w.stack w.line) w
      r.2.putHome r.1
  s1.homeEffects w

/-- Read n bytes at a stack offset, within one sector, at their home, or at the stack. -/
def State.homeRead (s : State) (stack off n : Nat) (atStack : Bool) : Got × State :=
  (s.homeGot stack off n, if atStack then (s.toStack stack (off / 128)).stackRequest stack off else s.touchHome stack off)

/-! Near copies and replicas (R269, R418). -/

/-- Who accesses memory: context, core, hints, and whether the write may cause release pushes. -/
structure Agent where
  ctx : Nat
  core : Nat
  ro : Bool := false
  nc : Bool := false
  rel : Bool := false
  /-- traffic that no token bucket counts (R447) -/
  free : Bool := false
  /-- it acts at the stack (R421) -/
  atStack : Bool := false
  deriving DecidableEq, Repr

/-- Debit an agent's bucket on a die, unless its traffic is not counted (R447). -/
def State.charge (s : State) (a : Agent) (die n : Nat) : State := if a.free then s else s.debit a.ctx die n

/-- The copy of a line that serves an agent. -/
def serves (near : Bool) (a : Agent) (stack line : Nat) (c : CopyLine) : Bool :=
  c.near == near && c.ctx == a.ctx && c.stack == stack && c.line == line && c.die == dieOf a.core &&
    (near || c.slice == nearestSlice a.core)

/-- Write home the dirty bytes of a copy; no way there, and they are discarded as any write is (R236). (log 29, 30) -/
def State.writeBack (s : State) (c : CopyLine) : State := if s.goesHome c then s.homeWrite c.homeWrite else s

/-- WriteBack of the near copies that p selects; they stay, clean. -/
def State.writeBackWhere (s : State) (p : CopyLine → Bool) : State :=
  (s.copies.filter p).foldl State.writeBack
    { s with copies := s.copies.map fun c => if p c then { c with dirty := 0, rel := false } else c }

/-- DropCopies of the copies that p selects. (log 6) -/
def State.dropWhere (s : State) (p : CopyLine → Bool) : State :=
  let s1 := s.writeBackWhere p
  { s1 with copies := s1.copies.filter fun c => !p c }

/-- WriteBack(ctx, die) and DropCopies(ctx, die). -/
def State.writeBackDie (s : State) (ctx die : Nat) : State := s.writeBackWhere fun c => c.ctx == ctx && c.die == die
def State.dropDie (s : State) (ctx die : Nat) : State := s.dropWhere fun c => c.ctx == ctx && c.die == die

/-- Bits lo to lo + n - 1 of a mask of bytes. -/
def byteMask (lo n : Nat) : BitVec 128 := BitVec.ofNat 128 ((2 ^ n - 1) * 2 ^ lo)

/-- Fill the sector of a copy that holds byte i of the line; its dirty bytes stay. -/
def CopyLine.fill (c : CopyLine) (s : State) (i : Nat) : CopyLine :=
  let k := i / 32
  if c.valid.getLsbD k then c
  else
    let data := (List.range 32).foldl (fun d j =>
      if c.dirty.getLsbD (32 * k + j) then d
      else writeAt 0 (32 * k + j) (s.homeByte c.stack (128 * c.line + 32 * k + j)) d) c.data
    let psn := c.psn.getLsbD k || (s.sectorPsn c.stack (128 * c.line + 32 * k) &&
      !(List.range 32).all fun j => c.dirty.getLsbD (32 * k + j))
    { c with data := data, valid := c.valid ||| (1 <<< k), psn := if psn then c.psn ||| (1 <<< k) else c.psn }

/-- The copy of a line for an agent, new if there is none. -/
def State.copyOf (s : State) (near : Bool) (a : Agent) (stack line : Nat) : CopyLine :=
  (s.copies.find? (serves near a stack line)).getD
    { near := near, ctx := a.ctx, die := dieOf a.core, slice := nearestSlice a.core, stack := stack, line := line }

/-- Put a copy back as the line used last; a displaced replica is dropped, a displaced near copy written home first (R418).
(log 29) -/
def State.putCopy (s : State) (near : Bool) (a : Agent) (c : CopyLine) : State :=
  let held := s.copies.any (serves near a c.stack c.line)
  let s1 := { s with copies := s.copies.filter fun x => !serves near a c.stack c.line x }
  let s2 := if held then s1 else match s1.displaced c.slice c.stack c.line true with
    | some v => s1.leaveL2 v
    | none => s1
  { s2 with copies := { c with used := s2.l2Uses } :: s2.copies, l2Uses := s2.l2Uses + 1 }

/-- Read n bytes of one sector through a copy, and whether the sector comes from its home. (log 29) -/
def State.copyRead (s : State) (near : Bool) (a : Agent) (stack off n : Nat) : Got × State × Bool :=
  let c0 := s.copyOf near a stack (off / 128)
  let fresh := !c0.valid.getLsbD (off % 128 / 32)
  let c := c0.fill s (off % 128)
  let s1 := if fresh then s.touchHome stack off else s
  (⟨(List.range n).map fun i => readAt 0 c.data (off % 128 + i), c.psn.getLsbD (off % 128 / 32), false⟩,
    s1.putCopy near a c, fresh)

/-- The poison and the valid bits of a copy's sector after a write of its line (R391). -/
def CopyLine.mark (c : CopyLine) (w : HomeWrite) (k : Nat) : CopyLine :=
  let whole := (List.range 32).all fun j => c.dirty.getLsbD (32 * k + j)
  { c with
    valid := if whole then c.valid ||| (1 <<< k) else c.valid
    psn := if w.psn.contains k then c.psn ||| (1#4 <<< k) else if w.whole k then c.psn &&& ~~~(1#4 <<< k) else c.psn }

/-- Apply a write of one line to the near copy that an agent uses: it clears the poison of the sectors that it covers (R391).
(log 29) -/
def State.copyWrite (s : State) (a : Agent) (w : HomeWrite) : State :=
  let c := s.copyOf true a w.stack w.line
  s.putCopy true a (w.sectors.foldl (fun x k => x.mark w k) { c with
    data := w.bytes.foldl (fun d x => writeAt 0 x.1 x.2 d) c.data
    dirty := w.bytes.foldl (fun m b => m ||| byteMask b.1 1) c.dirty
    rel := c.rel || w.rel })

/-! Access by an agent. -/

/-- Function of a context. -/
def State.funcOf (s : State) (ctx : Nat) : Nat := ((lookup ctx s.ctxs).map (·.func)).getD 0

/-- How an access from a die fares. -/
def State.placeReach (s : State) (ctx die : Nat) : Place → Reach
  | .dev stack off => s.reach die (stack / 4) (off / 128)
  | .host x => s.portReach die (s.funcOf ctx) x

/-- The hints that an agent's accesses act under: a retired slice allocates no copies (R420). -/
def State.hints (s : State) (a : Agent) : Agent :=
  if (s.die (dieOf a.core)).retired.contains (nearestSlice a.core % 64) then { a with ro := false, nc := false } else a

/-- Read n bytes, at most 16 and naturally aligned, at a place. (log 6, 29) -/
def State.read (s : State) (a0 : Agent) (n : Nat) (p : Place) : Got × State :=
  let a := s.hints a0
  match p with
  | .host x =>
    match s.placeReach a.ctx (dieOf a.core) (.host x) with
    | .ok =>
      let f := s.funcOf a.ctx
      (⟨(List.range n).map fun i => s.hostByte (x + i), s.hostBad x n, false⟩,
        (if f == dieOf a.core then s else s.charge a f n).countAccess f (16 + f) (x / 65536))
    | _ => (Got.lost n, s)
  | .dev stack off =>
    let d := dieOf a.core
    match s.reach d (stack / 4) (off / 128) with
    | .ok =>
      if (a.nc && stack / 4 != d) || a.ro then
        let r := s.copyRead (a.nc && stack / 4 != d) a stack off n
        (r.1, if r.2.2 && stack / 4 != d then r.2.1.charge a (stack / 4) 32 else r.2.1)
      else (if stack / 4 == d then s else s.charge a (stack / 4) n).homeRead stack off n a.atStack
    | _ => (Got.lost n, s)

/-- Write bytes of one sector to host memory; a poisoned element is sent with EP = 1 and data 0, and its whole sector
reads as poisoned until it has been written over (R49, R391). (log 5) -/
def State.hostWrite (s : State) (x : Nat) (bytes : List Byte) (psn : Bool) : State :=
  let s1 := (bytes.mapIdx fun i b => (x + i, b)).foldl (fun t p => t.setHostByte p.1 (if psn then 0 else p.2)) s
  let marks := if psn then List.range' (x / 32 * 32) 32 else List.range' x bytes.length
  { s1 with hostPsn := marks.foldl (fun m i => writeAt false i psn m) s1.hostPsn }

/-- The write of an element to a stack: its line and its place there. -/
def lineWrite (a : Agent) (stack off : Nat) (bytes : List Byte) (psn : Bool) : HomeWrite :=
  { stack := stack, line := off / 128, bytes := bytes.mapIdx fun i b => (off % 128 + i, b)
    psn := if psn then [off % 128 / 32] else [], rel := a.rel, atStack := a.atStack }

/-- One home write or its like: bytes of one sector, at a place that the agent's die reaches. (log 6, 29) -/
def State.write (s : State) (a0 : Agent) (bytes : List Byte) (psn : Bool) (p : Place) : State :=
  let a := s.hints a0
  match p with
  | .host x =>
    let f := s.funcOf a.ctx
    ((if f == dieOf a.core then s else s.charge a (dieOf a.core) bytes.length).hostWrite x bytes psn).countAccess f (16 + f) (x / 65536)
  | .dev stack off =>
    let d := dieOf a.core
    if a.nc && stack / 4 != d then s.copyWrite a (lineWrite a stack off bytes psn)
    else (if stack / 4 == d then s else s.charge a d bytes.length).homeWrite (lineWrite a stack off bytes psn)

/-! Instruction fetch (R26, R56, R345). -/

/-- Where code word w of a region lies; none where no stack holds it. (log 10) -/
def State.codePlace (s : State) (c : Code) (w : Nat) : Option Place :=
  let va := c.base + 4 * w
  let p := c.pages.getD (va / 65536 - c.base / 65536) ⟨false, 0⟩
  if p.host then some (.host (p.pa + va % 65536))
  else (physPlace s.dl c.mode c.dev (p.pa + va % 65536)).map fun x => .dev x.1 x.2

/-- How a core's fetch of a code word fares; the stacks of its own die are always in reach. -/
def State.codeReach (s : State) (core : Nat) (c : Code) : Place → Reach
  | .host x => s.portReach (dieOf core) c.func x
  | .dev stack off => if stack / 4 == dieOf core then .ok else s.reach (dieOf core) (stack / 4) (off / 128)

/-- The number of a place, by which the instruction cache keeps its word. -/
def Place.key : Place → Nat
  | .dev stack off => 2 * (stack * 68719476736 + off)
  | .host x => 2 * x + 1

/-- Byte i from a place on. -/
def State.placeByte (s : State) (p : Place) (i : Nat) : Byte :=
  match p with
  | .dev stack off => s.homeByte stack (off + i)
  | .host x => s.hostByte (x + i)

/-- A code word as a core has it: from its instruction cache, else from memory; a fetch that gets the partition-down reply has
data 0 (R236). (DESIGN CHOICE, log 10) -/
def State.codeWord (s : State) (core : Nat) (c : Code) (w : Nat) : Nat :=
  match s.codePlace c w with
  | none => 0
  | some p =>
    match lookup p.key (s.core core).icache with
    | some v => v
    | none => if s.codeReach core c p == .down then 0 else leNat (s.placeByte p) 4

/-- A fetch of code words waits for a link (R442). -/
def State.codeWaits (s : State) (core : Nat) (c : Code) (ws : List Nat) : Bool :=
  ws.any fun w => match s.codePlace c w with
    | some p => (lookup p.key (s.core core).icache).isNone && s.codeReach core c p == .wait
    | none => false

/-- The instruction cache of a core once it has fetched code words: 64 KiB, the words fetched longest ago leaving.
(DESIGN CHOICE, log 10) -/
def State.fetched (s : State) (core : Nat) (c : Code) (ws : List Nat) : List (Nat × Nat) :=
  let new := ws.filterMap fun w => (s.codePlace c w).map fun p => (p.key, s.codeWord core c w)
  (new ++ (s.core core).icache.filter fun x => !new.any fun y => y.1 == x.1).take 16384

end Sys2Proof.Machine
end

