-- ==== Sys2Proof/Machine/RegisterSpace.lean ====
section
/-! DEFINITION. WIN, PTN and QBIND (spec 04_register_space.md R94, R98, R101). Their effect is deferred to the end
of their issue unit. -/

namespace Sys2Proof.Machine

/-- Record effects for the words after the unit. (log 11) -/
def State.defer (s : State) (v : View) (ds : List Deferred) : State :=
  s.modSelf v fun g => { g with deferred := g.deferred ++ ds }

/-- One deferred effect. (log 11) -/
def Group.applyDeferred (g : Group) : Deferred → Group
  | .win L n => g.modThread L fun t => { t with wbase := n }
  | .ptn e c => { g with ptab := g.ptab.set e c }
  | .qbind n c => { g with qbind := g.qbind.set n c }
  | .token t i => { g with tiles := writeAt {} t i g.tiles }

/-- The effects deferred by a unit, at its end. -/
def Group.endUnit (g : Group) : Group :=
  { g.deferred.foldl Group.applyDeferred g with deferred := [] }

/-- WIN: the bases asked for, checked for every enabled thread before any changes. The first lane that fails decides
the trap (R94). (log 11) -/
def winBases (s : State) (v : View) (a : Lanes) : Except Stop State :=
  let fails := fun L => if (a L).psn then 1 else if v.g.regs < 8 * (a L).val.toNat + 28 then 2 else 0
  match v.lanes.find? fun L => fails L != 0 with
  | some L =>
    let m := maskOf fun x => v.on x && fails x == fails L
    if fails L == 1 then .error (poisonTrap m) else .error (.trap { kind := 4, detail := (a L).val, tmask := m })
  | none => .ok (s.defer v (v.lanes.map fun L => .win L (a L).val.toNat))

def execWinImm (n : Fin 16) (s : State) : Out :=
  runWord s fun v => winBases s v fun _ => PWord.ok (BitVec.ofNat 32 n.val)

def execWinReg (o : OpA) (s : State) : Out :=
  runWord s fun v =>
    match s.operand v o.ap.val o.ar.val with
    | .error x => .error x
    | .ok (a, s1) => winBases s1 v a

/-- PTN sets a pattern entry; with e = 0 it has no effect but the trap on a poisoned value. (DESIGN CHOICE, log 11) -/
def execPtn (e : Fin 8) (o : OpA) (s : State) : Out :=
  runWord s fun v =>
    match s.operand v o.ap.val o.ar.val with
    | .error x => .error x
    | .ok (a, s1) =>
      match v.single a with
      | .error x => .error x
      | .ok none => .ok s1
      | .ok (some (_, w)) => .ok (if e.val == 0 then s1 else s1.defer v [.ptn e.val (w.truncate 8)])

/-- QBIND is privileged: handler groups and groups of privileged contexts may execute it. (log 11) -/
def execQbind (n : Fin 4) (o : OpA) (s : State) : Out :=
  runPrivileged s (fun g => g.priv) fun v =>
    match s.operand v o.ap.val o.ar.val with
    | .error x => .error x
    | .ok (a, s1) =>
      match v.single a with
      | .error x => .error x
      | .ok none => .ok s1
      | .ok (some (_, w)) =>
        if bindOk (w.truncate 8) then .ok (s1.defer v [.qbind n.val (w.truncate 8)])
        else .error (.trap { kind := 3, detail := (v.g.binding (28 + n.val)).zeroExtend 32, tmask := v.en })

end Sys2Proof.Machine
end

