-- ==== Sys2Proof/Machine/Control.lean ====
section
/-! DEFINITION. Control instructions, joins, and the end of a packet (spec 07_group.md R154 to R177). -/

namespace Sys2Proof.Machine

/-! Joins (R167, R168). -/

/-- The issue that a JOIN word at address a stands for in a trap record of its evaluation. -/
def joinIssue (s : State) (gid : Nat) (g : Group) (a : Nat) : Issue :=
  let w := s.codeWord g.core g.code a
  ⟨gid, 0, a / 3 * 3, a % 3, a % 3, Fin.ofNat 16 (w / 67108864), fBit w 31, fBit w 30, BitVec.ofNat 32 w, 0, false,
    allLanes.map fun L => g.reg L (fAR w).val, []⟩

/-- The register that the JOIN word at address a names. -/
def joinReg (s : State) (g : Group) (a : Nat) : Nat := (fAR (s.codeWord g.core g.code a)).val

/-- The mask word of each joining lane. -/
def joinMask (s : State) (g : Group) (a L : Nat) : PWord := g.reg L (joinReg s g a)

/-- Remove from a set every lane whose need names a lane neither in the set nor exited; n rounds. -/
def shrink (need : Nat → Word) (gone : Word) : Nat → Word → Word
  | 0, r => r
  | n + 1, r => shrink need gone n (maskOf fun L => r.getLsbD L && (need L &&& ~~~(r ||| gone)) == 0)

/-- The threads that an evaluation at address a releases; the lanes with a poisoned mask. -/
def joinRelease (s : State) (g : Group) (a : Nat) : Word × Word :=
  let j := g.lanesWith fun t => t.st == .joining && t.joinAddr == a
  let bad := maskOf fun L => j.getLsbD L && (joinMask s g a L).psn
  let need := fun L => (joinMask s g a L).val ||| (1 <<< L)
  (shrink need (g.lanesWith fun t => t.st == .exited) 32 j, bad)

/-- A thread becomes ready: its wait count starts again (R165). -/
def Thread.wakeUp (t : Thread) : Thread := { t with st := .ready, waitCount := 0 }

/-- JOIN_EVALUATION at address a (R167). (log 11) -/
def State.evalJoin (s : State) (gid a : Nat) : State :=
  match lookup gid s.groups with
  | none => s
  | some g =>
    let r := joinRelease s g a
    match lanesOf r.2 with
    | L :: _ =>
      s.takeTrap gid (trapRecord s g (joinIssue s gid g a) 0
        { kind := 2, detail := BitVec.ofNat 32 L, tmask := r.2 })
    | [] => s.setGroup gid (g.modLanes r.1 fun _ t => t.wakeUp)

/-- The join addresses of a group's joining threads. -/
def Group.joinAddrs (g : Group) : List Nat :=
  ((g.threads.filter fun t => t.st == .joining).map (·.joinAddr)).eraseDups

/-- Every join of the group that has joining threads is evaluated. -/
def State.evalJoins (s : State) (gid : Nat) : State :=
  match lookup gid s.groups with
  | none => s
  | some g => g.joinAddrs.foldl (fun t a => t.evalJoin gid a) s

/-- JOIN_DEADLOCK (R168): every non-exited thread is joining and none was released. -/
def State.checkDeadlock (s : State) (gid : Nat) : State :=
  match lookup gid s.groups with
  | none => s
  | some g =>
    let j := g.lanesWith fun t => t.st == .joining
    if g.st != .trapped && g.st != .exiting && j != 0 && g.threads.all (fun t => t.st == .joining || t.st == .exited) then
      let a := (g.thread ((lanesOf j).headD 0)).joinAddr
      s.takeTrap gid (trapRecord s g (joinIssue s gid g a) 0 { kind := 7, tmask := j })
    else s

/-- A group whose last thread has exited enters Exiting (R173). -/
def State.checkExit (s : State) (gid : Nat) : State :=
  match lookup gid s.groups with
  | none => s
  | some g => if g.threads.all (fun t => t.st == .exited) && g.st != .exiting then
      s.setGroup gid (g.ending s.now) else s

/-! The end of a packet (R59, R170 to R174). -/

/-- A thread of the active set moves on: as its transfer says, or to the next packet. -/
def Thread.advance (t : Thread) (k : Nat) : Thread :=
  let on := { t with pc := k + 3, rword := 0, transfer := none }
  match t.transfer with
  | some (.jump a) => { on with pc := a }
  | some (.join a) => { on with st := .joining, joinAddr := a }
  | some .exit => { on with st := .exited }
  | some (.trap _ _) => on
  | none => on

/-- The active set moves on. -/
def Group.advance (g : Group) (u : Progress) : Group :=
  { g.modLanes u.act fun _ t => t.advance u.k with unit := none }

/-- The transfers that the active set has taken. -/
def Group.transfers (g : Group) (u : Progress) : List Transfer := (lanesOf u.act).filterMap fun L => (g.thread L).transfer

/-- The lanes whose packet has taken a software trap. -/
def Group.trapLanes (g : Group) (u : Progress) : Word :=
  maskOf fun L => u.act.getLsbD L && (match (g.thread L).transfer with
    | some (.trap _ _) => true
    | _ => false)

/-- The last issue unit of a packet has issued. A packet holds one control transfer, so its threads agree on it. -/
def State.finishPacket (s : State) (gid : Nat) : State :=
  match lookup gid s.groups with
  | none => s
  | some g =>
    match g.unit with
    | none => s
    | some u =>
      let s1 := s.setGroup gid (g.advance u)
      match (g.transfers u).head? with
      | some (.join a) => (s1.evalJoin gid a).checkDeadlock gid
      | some .exit => ((s1.evalJoins gid).checkDeadlock gid).checkExit gid
      | some (.trap n o) =>
        match lookup gid s1.groups with
        | none => s1
        | some g1 => s1.takeTrap gid (trapRecord s g1 o o.act { kind := 8, cause := n, tmask := g.trapLanes u })
      | _ => s1

/-- Record a control transfer in the lanes of a list (R59). -/
def State.transferTo (s : State) (v : View) (f : Nat → Transfer) : State :=
  s.modSelf v fun g => g.modLanes v.en fun L t => { t with transfer := some (f L) }

/-! Branches (R170). -/

/-- The targets of the enabled lanes, checked before anything changes; the first lane that fails decides the trap. -/
def branchTargets (s : State) (v : View) (t : Lanes) : Except Stop State :=
  let target := fun L => (t L).val.toNat
  let fails := fun L => if (t L).psn then 1 else if target L % 3 != 0 || decide (v.g.code.words ≤ target L) then 2 else 0
  match v.lanes.find? fun L => fails L != 0 with
  | some L =>
    let m := maskOf fun x => v.on x && fails x == fails L
    if fails L == 1 then .error (poisonTrap m) else .error (.trap { kind := 6, detail := (t L).val, tmask := m })
  | none => .ok (if v.lanes.isEmpty then s else s.transferTo v fun L => .jump (target L))

/-- Target of BRA and CALL: the word's address plus the immediate (R66). -/
def relTarget (v : View) (imm : Fin 32768) : PWord :=
  PWord.ok (BitVec.ofInt 32 (((v.o.k + v.o.pos : Nat) : Int) + signExt 15 imm.val))

def execBra (imm : Fin 32768) (s : State) : Out :=
  runWord s fun v => branchTargets s v fun _ => relTarget v imm

/-- CALL also writes the link: the address of the next packet, after one cycle. -/
def execCall (d : Reg) (imm : Fin 32768) (s : State) : Out :=
  runWord s fun v => do
    let s1 ← branchTargets s v fun _ => relTarget v imm
    s1.put v d.val 1 fun _ => PWord.ok (BitVec.ofNat 32 (v.o.k + 3))

/-- BRX and RET: the target is the register's value. (log 11) -/
def computedJump (o : OpA) (s : State) : Out :=
  runWord s fun v => do
    let (a, s1) ← s.operand v o.ap.val o.ar.val
    branchTargets s1 v a

/-- See assumption log 11. -/
def execBrx (o : OpA) (s : State) : Out := computedJump o s
def execRet (o : OpA) (s : State) : Out := computedJump o s

/-! JOIN, EXIT, TRAP, SLEEP, NOP (R172 to R176). -/

def execJoin (_ar : Reg) (s : State) : Out :=
  runWord s fun v => .ok (if v.lanes.isEmpty then s else s.transferTo v fun _ => .join (v.o.k + v.o.pos))

def execExit (s : State) : Out :=
  runWord s fun v => .ok (if v.lanes.isEmpty then s else s.transferTo v fun _ => .exit)

def execTrap (n : Fin 32) (s : State) : Out :=
  runWord s fun v => .ok (if v.lanes.isEmpty then s else s.transferTo v fun _ => .trap n.val v.o)

/-- SLEEP: the largest count of the enabled lanes, at most 1,048,575 (R175). (log 21) -/
def execSleep (o : OpA) (s : State) : Out :=
  runWord s fun v => do
    let (a, s1) ← s.operand v o.ap.val o.ar.val
    let bad := maskOf fun L => v.on L && (a L).psn
    if bad != 0 then .error (poisonTrap bad)
    else
      let n := min (v.lanes.foldl (fun m L => max m (a L).val.toNat) 0) 1048575
      .ok (s1.modSelf v fun g => g.modLanes v.en fun _ t =>
        { t with st := .sleeping, wake := s.cyc v.g.core + n })

def execNop (s : State) : Out := runWord s fun _ => .ok s

/-- The wake cycle of a thread of a group has come; no thread wakes in the cycle in which it slept (R175). -/
def Group.wakeDue (g : Group) (now cyc L : Nat) : Bool :=
  (g.thread L).st == .sleeping && (g.thread L).wake ≤ cyc && g.lastIssue ≤ now

/-- SLEEP_WAKE: a sleeping thread's wake cycle has come; a group that waited for it leaves Waiting. A Parked group that
waited is woken and its threads sleep on until it returns, as a Trapped group's do (R175). (log 21) -/
def execSleepWake (gid L : Nat) (s : State) : Out :=
  match lookup gid s.groups with
  | none => .fault .noSuchObject
  | some g =>
    if g.wakeDue s.now (s.cyc g.core) L && g.st != .trapped && (g.st != .parked || g.wait == .sleepers) then
      let g1 := if g.st == .parked then g else g.modThread L Thread.wakeUp
      .next (s.setGroup gid (if g.wait == .sleepers then g1.wake s.now else g1))
    else .fault .noSuchObject

/-! Pre-emption points (R62, R177). -/

/-- A pre-emption request is pending for a group's context. -/
def State.preqOf (s : State) (g : Group) : Bool :=
  match lookup g.ctx s.ctxs with
  | some c => c.preq
  | none => false

/-- PPT: the run's bitmaps are united; at its last packet, under a request, the threads become held. (log 17) -/
def execPpt (offs : Fin 16) (more : Bool) (live : Fin 268435456) (granules : Word) (s : State) : Out :=
  runWord s fun v =>
    let regs := BitVec.ofNat 128 (live.val * 2 ^ (8 * offs.val))
    let pending := s.preqOf v.g
    .ok (s.modSelf v fun g => g.modLanes v.en fun _ t =>
      let t1 := { t with live := t.live ||| regs, granules := t.granules ||| granules }
      if more then t1
      else if pending then { t1 with st := .held }
      else { t with live := 0, granules := 0 })

/-! Illegal packets (R75). -/

/-- ILLEGAL_PACKET: one trap for the lowest illegal word; nothing issues. The operand is that word's position. (log 10) -/
def execIllegalPacket (lowest : Fin 3) (s : State) : Out :=
  match s.cur with
  | none => .fault .noIssue
  | some o =>
    match lookup o.gid s.groups with
    | none => .fault .noIssue
    | some g => .next (s.trapAtIssue { o with pos := lowest.val } { kind := 1, tmask := (View.mk o g).en })

end Sys2Proof.Machine
end

