-- ==== Sys2Proof/Machine/Pages.lean ====
section
/-! DEFINITION. Translation of device addresses: the table walk and its outcomes, copy TLBs and walk caches, and
fault records (spec 18_page.md R400 to R408). -/

namespace Sys2Proof.Machine

/-! Entries and outcomes (Tables 18-1 to 18-3). -/

/-- Leaf fields that a translation uses. -/
structure Leaf where
  base : Nat
  size : Nat
  host : Bool
  pa : Nat
  r : Bool
  w : Bool
  x : Bool
  psn : Bool
  deriving DecidableEq, Repr

/-- Kinds of access; `modify` reads and writes. -/
inductive Access where
  | read | write | exec | modify
  deriving DecidableEq, Repr

/-- Outcome of a translation, with the reason codes of Table 18-3; inside a walk, 8 marks an entry read poisoned, and
9 a host page for which ATS returns no translation (R451). -/
inductive Outcome where
  | ok (l : Leaf)
  | suspend (reason : Nat)
  | fail (reason : Nat)
  deriving DecidableEq, Repr

/-- Bytes that one entry of a level spans. -/
def levelSpan : Nat → Nat
  | 0 => 65536
  | 1 => 2097152
  | 2 => 1073741824
  | 3 => 549755813888
  | _ => 281474976710656

/-- Alignment of the table below an entry of a level. -/
def tableAlign (level : Nat) : Nat := if level ≤ 1 then 256 else 4096

/-- Index of an address in a table of a level. -/
def levelIndex (level va : Nat) : Nat := va / levelSpan level % (if level == 0 then 32 else 512)

/-- An access writes. -/
def Access.writes : Access → Bool
  | .write | .modify => true
  | _ => false

/-- Rules 5 to 10 of Table 18-3 on a leaf. (log 35) -/
def leafOutcome (e level va : Nat) (a : Access) : Outcome :=
  let psn := bitsOf e 8 2
  if psn == 3 then .fail 6
  else if psn == 2 || (psn == 1 && a.writes) then .fail 5
  else if bitOf e 7 then .suspend 3
  else if bitOf e 6 then .suspend 2
  else if !(match a with
      | .read => bitOf e 2
      | .write => bitOf e 3
      | .exec => bitOf e 4
      | .modify => bitOf e 2 && bitOf e 3) then .fail 4
  else .ok ⟨va / levelSpan level * levelSpan level, levelSpan level, bitOf e 5, bitsOf e 16 36 * 65536,
    bitOf e 2, bitOf e 3, bitOf e 4, psn == 1⟩

/-- A leaf entry with V = 1 breaks its layout (rule 4). -/
def leafBad (e level : Nat) : Bool :=
  bitsOf e 52 12 != 0 || bitsOf e 10 6 != 0 || 3 ≤ level || bitsOf e 16 36 * 65536 % levelSpan level != 0

/-- A non-leaf entry with V = 1 breaks its layout (rule 4). -/
def tableBad (e level : Nat) : Bool :=
  bitsOf e 52 12 != 0 || bitsOf e 2 6 != 0 || level == 0 || bitsOf e 8 44 * 256 % tableAlign level != 0

/-- A walker of a die reads an entry at a physical address, at its home: none where the address is malformed; its value and
its poison, or the partition-down reply (R236). -/
def State.readEntry (s : State) (die mode dev pa : Nat) : Option (Nat × Bool) :=
  (physPlace s.dl mode dev pa).map fun p =>
    if s.reach die (p.1 / 4) (p.2 / 128) == .down then (0, true)
    else (leNat (fun i => s.homeByte p.1 (p.2 + i)) 8, s.sectorPsn p.1 p.2)

/-- Walk the levels from a table on: the outcome, and the tables found by level. (log 35) -/
def State.walkFrom (s : State) (die mode dev va : Nat) (a : Access) : List Nat → Nat → Outcome × List (Nat × Nat)
  | [], _ => (.fail 6, [])
  | l :: ls, table =>
    match s.readEntry die mode dev (table + 8 * levelIndex l va) with
    | none => (.fail 6, [])
    | some (e, bad) =>
      if bad then (.fail 8, [])
      else if !bitOf e 0 then (.suspend 1, [])
      else if bitOf e 1 then (if leafBad e l then .fail 6 else leafOutcome e l va a, [])
      else if tableBad e l then (.fail 6, [])
      else
        let t := bitsOf e 8 44 * 256
        let r := s.walkFrom die mode dev va a ls t
        (r.1, (l - 1, t) :: r.2)

/-- Levels below and including l. (log 35) -/
def levelsFrom : Nat → List Nat
  | 0 => [0]
  | n + 1 => (n + 1) :: levelsFrom n

/-- The table of the lowest level that a die's walk cache gives for an address (R403). -/
def State.cachedTable (s : State) (die ctx va : Nat) : Option (Nat × Nat) :=
  (s.walkCache.filter fun w => w.die == die && w.ctx == ctx && w.prefix_ == va / levelSpan (w.level + 1)).foldl
    (fun b w => match b with
      | none => some (w.level, w.table)
      | some x => if w.level < x.1 then some (w.level, w.table) else b) none

/-- Add a walk's tables to the walk cache of a die. -/
def State.cacheTables (s : State) (die ctx va : Nat) (ts : List (Nat × Nat)) : State :=
  let new := ts.map fun t => (⟨die, ctx, t.1, va / levelSpan (t.1 + 1), t.2⟩ : WalkEntry)
  { s with walkCache := new ++ s.walkCache.filter fun w =>
      !new.any fun x => x.die == w.die && x.ctx == w.ctx && x.level == w.level && x.prefix_ == w.prefix_ }

/-- The places of the entries that a walk reads, level by level from where it starts. -/
def State.entriesRead (s : State) (c : Ctx) (va : Nat) (tables : List (Nat × Nat)) : List (Nat × Nat) :=
  tables.filterMap fun t => physPlace s.dl c.mode c.dev (t.2 + 8 * levelIndex t.1 va)

/-- The home slices have the entries that a walk has read (R403, R413). -/
def State.touchEntries (s : State) (die : Nat) (ps : List (Nat × Nat)) : State :=
  (ps.filter fun p => s.reach die (p.1 / 4) (p.2 / 128) != .down).foldl (fun t p => t.touchHome p.1 p.2) s

/-- The walk of a context on a die: where it starts, its outcome, and the tables that it finds. -/
def State.walkTables (s : State) (die ctx va : Nat) (c : Ctx) (a : Access) : (Nat × Nat) × Outcome × List (Nat × Nat) :=
  let start := (s.cachedTable die ctx va).getD (4, c.ptroot)
  (start, s.walkFrom die c.mode c.dev va a (levelsFrom start.1) start.2)

/-- A walk cannot end while an entry of it is out of reach (R442). -/
def State.walkWaits (s : State) (die ctx va : Nat) (a : Access) : Bool :=
  match lookup ctx s.ctxs with
  | none => false
  | some c =>
    let r := s.walkTables die ctx va c a
    (s.entriesRead c va (r.1 :: r.2.2)).any fun p => s.reach die (p.1 / 4) (p.2 / 128) == .wait

/-- A walk on a die for a context, before the log: outcome and the state after it. (log 33) -/
def State.walkRead (s : State) (die ctx va : Nat) (a : Access) : Outcome × State :=
  match lookup ctx s.ctxs with
  | none => (.fail 6, s)
  | some c =>
    if 144115188075855872 ≤ va then (.fail 7, s)
    else
      let x := s.walkTables die ctx va c a
      let r := x.2
      let place := fun l : Leaf => l.host || (physPlace s.dl c.mode c.dev (l.pa + (va - l.base))).isSome
      let s1 := (s.touchEntries die (s.entriesRead c va (x.1 :: r.2))).cacheTables die ctx va r.2
      match r.1 with
      | .ok l =>
        if !place l then (.fail 6, s1)
        else if l.host && !s.atsHeld.contains (c.func, (l.pa + (va - l.base)) / 65536) then
          -- the bridge asks the host, which gives the page or does not
          let s2 := { s1 with free := s1.free + 1 }
          if Config.freeChoice s1.free % 2 == 0 then
            (.ok l, { s2 with atsHeld := (c.func, (l.pa + (va - l.base)) / 65536) :: s2.atsHeld })
          else (.suspend 9, s2)
        else (.ok l, s1)
      | o => (o, s1)

/-- The end of a walk: an entry read poisoned gives POISON and is logged (class 2), once for a walk that serves several
requests. -/
def endWalk (die ctx va : Nat) (log : Bool) (r : Outcome × State) : Outcome × State :=
  if r.1 == .fail 8 then
    (.fail 5, if log then r.2.logError ⟨die, ctx, 2, false, 0, 0, va, r.2.now, 0⟩ else r.2)
  else r

/-- A walk on a die for a context: outcome and the state after it. -/
def State.walk (s : State) (die ctx va : Nat) (a : Access) : Outcome × State :=
  endWalk die ctx va true (s.walkRead die ctx va a)

/-- The state after the walks of a list of pages (R402). -/
def State.walkAll (s : State) (die ctx : Nat) (a : Access) (pages : List Nat) : State :=
  pages.foldl (fun t va => (t.walk die ctx va a).2) s

/-- The 64 KiB pages of a code region, each translated for execute on every die of the device; none where one is not
translated. (log 38) -/
def State.codePages (s : State) (ctx : Nat) (dies : List Nat) (base words : Nat) : Option (List PPage) × State :=
  let first := base / 65536
  let last := (base + 4 * words - 1) / 65536
  (List.range (last - first + 1)).foldl (fun r i =>
    let va := max base ((first + i) * 65536)
    dies.foldl (fun (q : Option (List PPage) × State) die =>
      match q.1 with
      | none => q
      | some ps =>
        match q.2.walk die ctx va .exec with
        | (.ok l, t) => (some (if ps.length ≤ i then ps ++ [⟨l.host, l.pa + (va / 65536 * 65536 - l.base)⟩] else ps), t)
        | (_, t) => (none, t)) r) (some [], s)

/-- The first page of a code region that is not translated: its die, its address and the reason, if it suspends. -/
def State.codeStop (s : State) (ctx : Nat) (dies : List Nat) (base words : Nat) : Option (Nat × Nat × Nat) :=
  let first := base / 65536
  let pages := (List.range ((base + 4 * words - 1) / 65536 - first + 1)).map fun i => max base ((first + i) * 65536)
  match (pages.flatMap fun va => dies.map fun d => (d, va)).findSome? fun x => match (s.walk x.1 ctx x.2 .exec).1 with
      | .ok _ => none
      | o => some (x, o) with
  | some (x, .suspend r) => some (x.1, x.2, r)
  | _ => none

/-! TLBs (R403, R404). -/

/-- The physical page of 64 KiB that a leaf gives an address. -/
def Leaf.xl (l : Leaf) (va : Nat) : Xl :=
  ⟨va / 65536, l.host, l.pa + (va / 65536 * 65536 - l.base), l.psn⟩

def TlbEntry.leaf (e : TlbEntry) : Leaf := ⟨e.base, e.size, e.host, e.pa, e.r, e.w, e.x, e.psn⟩

/-- A leaf permits an access; a write through a write-poisoned leaf fails (R402). -/
def Leaf.permits (l : Leaf) : Access → Bool
  | .read => l.r
  | .write => l.w
  | .exec => l.x
  | .modify => l.r && l.w

/-- A TLB entry of a core that serves an access: an entry that does not permit it is walked again, and so is one of a host page
that the bridge has no translation of (R451). (log 35) -/
def State.tlbHit (s : State) (core ctx va : Nat) (a : Access) : Option Leaf :=
  ((s.tlb.find? fun e => e.core == core && e.ctx == ctx && e.base ≤ va && va < e.base + e.size && e.leaf.permits a &&
    (!e.host || s.atsHeld.contains (s.funcOf ctx, (e.pa + (va - e.base)) / 65536))).map TlbEntry.leaf)

/-- Enter a leaf in a core's TLB of 128 entries. (log 35) -/
def State.tlbAdd (s : State) (core ctx : Nat) (l : Leaf) : State :=
  let e : TlbEntry := ⟨core, ctx, l.base, l.size, l.host, l.pa, l.r, l.w, l.x, l.psn⟩
  let rest := s.tlb.filter fun x => !(x.core == core && x.ctx == ctx && x.base == l.base && x.size == l.size)
  let mine := rest.filter fun x => x.core == core
  { s with tlb := e :: (if mine.length < 128 then rest else match mine.getLast? with
      | some old => rest.erase old
      | none => rest) }

/-- Translate at once: through the TLB of a core, or by a walk (R405). (log 35) -/
def State.translate (s : State) (core ctx va : Nat) (a : Access) : Outcome × State :=
  match s.tlbHit core ctx va a with
  | some l => (if l.psn && a.writes then .fail 5 else .ok l, s)
  | none =>
    let r := s.walk (dieOf core) ctx va a
    match r.1 with
    | .ok l => (.ok l, r.2.tlbAdd core ctx l)
    | o => (o, r.2)

/-- The place of an address of a context under a held translation. -/
def State.placeOf (s : State) (ctx : Nat) (x : Xl) (va : Nat) : Option Place :=
  if x.host then some (.host (x.pa + va % 65536))
  else match lookup ctx s.ctxs with
    | none => none
    | some c => (physPlace s.dl c.mode c.dev (x.pa + va % 65536)).map fun p => .dev p.1 p.2

/-! Fault records (R407). -/

/-- A record for a context's page is outstanding on a die. -/
def State.faultOf (s : State) (die ctx page : Nat) : Option FaultRec :=
  s.faults.find? fun f => f.die == die && f.ctx == ctx && f.page == page

/-- Words of a fault record (Table 18-5). (log 53) -/
def faultWords (id ctx va : Nat) (write : Bool) (core die ch e src reason num count : Nat) : List Word :=
  [reason + 16 * src + 256 * e + 1024 * ch + 4096 * die + 16384 * core + 16777216 * write.toNat,
   ctx, va % 4294967296, va / 4294967296, num % 4294967296, num / 4294967296, count, id].map (BitVec.ofNat 32)

/-- A faulting requester joins the record of its page or writes one: the identifier, or 0 while the die's queue of
1,024 records is full. (log 53) -/
def State.fault (s : State) (die ctx va : Nat) (write : Bool) (core ch e src reason num count : Nat) : Nat × State :=
  match s.faultOf die ctx (va / 65536) with
  | some f => (f.id, s)
  | none =>
    if 1024 ≤ s.faults.countP fun f => f.die == die then (0, s)
    else
      let last := (s.die die).faultSeq
      let id := if last + 1 < 4294967296 then last + 1 else 1
      let code := if reason == 9 then 1 else reason
      let ws := faultWords id ctx va write core die ch e src code num count
      let s1 := { s.modDie die fun d => { d with faultSeq := id } with
        faults := s.faults ++ [⟨die, id, ctx, va / 65536, ws, code, false⟩] }
      (id, if reason == 9 then
        { s1 with pri := insertAt s1.nextId ⟨s1.funcOf ctx, die, id, va / 65536⟩ s1.pri, nextId := s1.nextId + 1 }
        else s1)

end Sys2Proof.Machine
end

