-- ==== Sys2Proof/Machine/Copy.lean ====
section
/-! DEFINITION. Copy commands: posting, acceptance, the checks at their start, and their finish (spec
09_copy_command.md R197 to R236, 14_queue.md R339, 19_stack_logic.md R434, R435). -/

namespace Sys2Proof.Machine

/-! Posting (R197). -/

/-- Post a command of nw + 1 words: every enabled lane pushes its own. A shade's word holds the L pipe for 32 cycles at most
(R370). (log 16) -/
def postWord (cmd nw : Nat) (o : OpQ) (s : State) : Out :=
  runWord s fun v =>
    let c := v.g.binding (28 + o.q.val)
    if v.lanes.isEmpty then .ok s
    else if c.toNat / 32 != 1 then .error (bindTrap v c)
    else
      let one := fun L => (List.range (nw + 1)).map fun i =>
        let w := v.g.reg L (o.ar.val + i)
        if i == 0 then ({ w with val := BitVec.ofNat 32 (cmd * 16777216 + w.val.toNat % 16777216) } : PWord) else w
      let ws := v.lanes.flatMap one
      match s.pushCheck v c ws.length with
      | .error x => .error x
      | .ok s1 =>
        let lanes := v.lanes.flatMap fun L => List.replicate (nw + 1) L
        let p : Push := { code := c, words := ws, due := some (s.now + 1), lanes := lanes, origin := v.o }
        .ok ((s1.modSelf v fun g => { g with pushes := g.pushes ++ [p] }).occupy v.g.core 4
          (if v.g.shade then min 32 ws.length else ws.length))

def execCopy (o : OpQ) (s : State) : Out := postWord 1 6 o s
def execCopyl (o : OpQ) (s : State) : Out := postWord 2 7 o s
def execGath (o : OpQ) (s : State) : Out := postWord 3 7 o s
def execScat (o : OpQ) (s : State) : Out := postWord 4 7 o s
def execBgath (o : OpQ) (s : State) : Out := postWord 5 7 o s
def execBscat (o : OpQ) (s : State) : Out := postWord 6 7 o s
def execMcast (o : OpQ) (s : State) : Out := postWord 7 6 o s
def execCfence (o : OpQ) (s : State) : Out := postWord 8 0 o s
def execAtomc (o : OpQ) (s : State) : Out := postWord 9 5 o s
def execRedc (o : OpQ) (s : State) : Out := postWord 10 6 o s
def execFill (o : OpQ) (s : State) : Out := postWord 11 5 o s
def execWaitc (o : OpQ) (s : State) : Out := postWord 12 2 o s
def execSignal (o : OpQ) (s : State) : Out := postWord 13 3 o s
def execTxload (o : OpQ) (s : State) : Out := postWord 14 4 o s
def execTxrun (o : OpQ) (s : State) : Out := postWord 15 7 o s
def execPref (o : OpQ) (s : State) : Out := postWord 16 3 o s

/-! Words of a command (R201 to R203). -/

/-- Word i of a command. -/
def Cmd.w (c : Cmd) (i : Nat) : Nat := (c.words.getD i 0).toNat

/-- CMD, CH, REL, ACQ, SCOPE, RO, NC, RPT of word 0 (Table 9-2). -/
def Cmd.op (c : Cmd) : Nat := bitsOf (c.w 0) 24 8
def Cmd.ch (c : Cmd) : Nat := bitsOf (c.w 0) 22 2
def Cmd.rel (c : Cmd) : Bool := bitOf (c.w 0) 21
def Cmd.acq (c : Cmd) : Bool := bitOf (c.w 0) 20
def Cmd.scope (c : Cmd) : Nat := bitsOf (c.w 0) 17 3
def Cmd.ro (c : Cmd) : Bool := bitOf (c.w 0) 16
def Cmd.nc (c : Cmd) : Bool := bitOf (c.w 0) 15
def Cmd.rpt (c : Cmd) : Bool := bitOf (c.w 0) 14

/-- Words of a command by opcode (Table 9-1); 0 for an opcode that is no command. -/
def cmdWords : Nat → Nat
  | 1 => 7 | 2 => 8 | 3 => 8 | 4 => 8 | 5 => 8 | 6 => 8 | 7 => 7 | 8 => 1 | 9 => 6 | 10 => 7 | 11 => 6 | 12 => 3
  | 13 => 4 | 14 => 5 | 15 => 8 | 16 => 4 | _ => 0

/-- Opcode that status records of ASTC carry (R304). (log 24) -/
def astcOp : Nat := 128

/-- Position of the completion word. -/
def completionAt : Nat → Option Nat
  | 1 => some 6 | 2 => some 6 | 3 => some 6 | 4 => some 6 | 5 => some 6 | 6 => some 6 | 7 => some 6 | 9 => some 5
  | 10 => some 6 | 11 => some 5 | 14 => some 4 | 15 => some 7 | 128 => some 5 | _ => none

/-- The completion word, 0 where there is none. -/
def Cmd.completion (c : Cmd) : Nat :=
  match completionAt c.op with
  | some i => c.w i
  | none => 0

/-- A completion word breaks its layout (R202). -/
def completionBad (x : Nat) : Bool := bitsOf x 30 2 == 3 || bitsOf x 25 5 != 0 || (bitsOf x 30 2 == 0 && x != 0)

/-- A data address in words i and i + 1 (R203). -/
def Cmd.addr (c : Cmd) (spad : Bool) (i : Nat) : Nat := if spad then c.w i else c.w (i + 1) * 4294967296 + c.w i

/-- A data address breaks its layout. -/
def Cmd.addrBad (c : Cmd) (spad : Bool) (i : Nat) : Bool := if spad then c.w (i + 1) != 0 else bitsOf (c.w (i + 1)) 25 7 != 0

/-- SSP and DSP: the source, or the destination, is scratchpad. -/
def Cmd.ssp (c : Cmd) : Bool := bitOf (c.w 0) 13
def Cmd.dsp (c : Cmd) : Bool := bitOf (c.w 0) 12

/-- The agent that accesses memory for a command; stores of a REL command at device or system scope make release
pushes (R280). -/
def Cmd.agent (c : Cmd) : Agent :=
  { ctx := c.ctx, core := c.core, ro := c.ro, nc := c.nc, rel := c.rel && 5 ≤ c.scope, free := c.node.isSome }

def State.cmd (s : State) (n : Nat) : Option Cmd := lookup n s.cmds
def State.setCmd (s : State) (n : Nat) (c : Cmd) : State := { s with cmds := insertAt n c s.cmds }
def Cmd.key (c : Cmd) : Nat := engineId c.ctx c.core c.e

/-- The context of a command is a shade. -/
def State.isShade (s : State) (ctx : Nat) : Bool :=
  match lookup ctx s.ctxs with
  | some c => c.shade
  | none => false

/-- The place of n bytes at a scratchpad address of a command: its team's addresses (R183, R204). -/
def State.cmdRef (s : State) (c : Cmd) (localOnly : Bool) (n : Nat) (a : Nat) : Option SpadRef :=
  s.spadRef c.team (s.isShade c.ctx) localOnly n (BitVec.ofNat 32 a)

/-! Lent granules (R371, R373). -/

/-- What holds an access to scratchpad back: a shade's granule that is still zeroed, or a lent granule of a principal,
whose loan is then eclipsed. (log 25) -/
def State.spadHold (s : State) (c : Cmd) (r : SpadRef) (n : Nat) : Option State :=
  let p := s.princOf c.ctx
  let l := s.loan p r.core
  if s.isShade c.ctx then
    match l.zeroing with
    | some (m, _) => if touchesMap m r.off n then some s else none
    | none => none
  else if touchesMap l.map r.off n then some (s.accessEclipse p r.core (granuleMap r.off n)) else none

/-! Running (R228, R312). -/

/-- Apply a run's write. -/
def State.flush (s : State) (c : Cmd) : Option LineW → State
  | none => s
  | some l =>
    let d := dieOf c.core
    if l.near then s.copyWrite c.agent l.w
    else (if l.w.stack / 4 == d then s else s.charge c.agent d l.bytes).homeWrite l.w

/-- Bits of an element (Table 2-1). -/
def Fmt.bits (f : Fmt) : Nat := if f == .e2m1 then 4 else 8 * f.size

/-- Bits that an element of a command lands. -/
def Cmd.elemBits (c : Cmd) : Nat := if c.op == astcOp then 8 * c.esize else Fmt.bits c.shape.dst.fmt

/-- Write pointer of a running command: start mark and the bytes of the elements below k (R228, R232). It stands so after a
posted command of the channel has been cancelled meanwhile too, which had advanced it; R228 lets no pointer decrease, and the
spec does not say which of the two holds then. (DESIGN CHOICE, log 28) -/
def State.setPointer (s : State) (c : Cmd) (bits : Nat) : State :=
  let e := s.engine c.key
  if c.node.isSome then s else s.setEngine c.key { e with wp := e.wp.set c.ch (c.mark + c.k * bits / 8) }

/-- The open run of a command ends: its home write is applied, and the write pointer counts its elements. -/
def State.closeRun (s : State) (n : Nat) : State :=
  match s.cmd n with
  | none => s
  | some c =>
    if c.line.isNone then s
    else ((s.flush c c.line).setPointer c c.elemBits).setCmd n { c with line := none }

/-- Close the open runs of commands. (log 28) -/
def State.closeRuns (s : State) (p : Cmd → Bool) : State :=
  ((s.cmds.filter fun x => p x.2 && x.2.line.isSome).map (·.1)).foldl State.closeRun s

/-! Destination byte counts that words alone give (R493). -/

/-- Width of an ATOMC in bytes; 0 for a reserved OP or TY (R218). (log 24) -/
def atomcWidth (op ty : Nat) : Nat :=
  if op == 7 then (match ty with
    | 0 => 4
    | 1 => 8
    | 2 => 16
    | _ => 0)
  else if 8 ≤ op then 0 else if ty == 3 then 8 else 4

/-- The format of a REDC, within its limits (R219). -/
def Cmd.redcFmt (c : Cmd) : Option Fmt := (rdFmt (bitsOf (c.w 0) 8 4)).filter [Fmt.f32, .bf16, .f16, .i32].contains

/-- The destination format of an ASTC, within its limits (R304). -/
def Cmd.astcFmt (c : Cmd) : Option Fmt := (rdFmt (c.w 3 / 268435456)).filter (· != .e2m1)

/-- Ceiling(N * bits / 8). -/
def bytesOf (n bits : Nat) : Nat := (n * bits + 7) / 8

/-- The destination byte count of a command whose words alone give it; 0 of one that also needs a shape block or a
record, which a command that never starts does not read. (log 24) -/
def Cmd.wordCount (c : Cmd) : Nat :=
  match c.op with
  | 9 => atomcWidth (bitsOf (c.w 0) 10 4) (bitsOf (c.w 0) 8 2)
  | 10 => match c.redcFmt with
    | some f => bytesOf (c.w 5) (Fmt.bits f)
    | none => 0
  | 13 => if bitsOf (c.w 0) 12 2 == 2 then 4 else 0
  | 128 => if c.astcFmt.isSome then c.plan.length * c.esize else 0
  | _ => 0

/-! Finishing (R228, R229, R234, R235). -/

/-- A status is failing (Table 9-8). -/
def failing (code : Nat) : Bool := code != 0 && code != 8 && code != 9

/-- A status that the program caused. -/
def statusT (code : Nat) : Bool := (1 ≤ code && code ≤ 7) || code == 13

/-- Push a status record to an engine context's status queue (R235). -/
def Engine.report (e : Engine) (c : Cmd) (code : Nat) : Engine :=
  if 256 < e.status.length + 4 then { e with ovf := true }
  else { e with
    ovf := false
    status := e.status ++ ([c.num, code + 256 * c.op + 65536 * c.ch + 1073741824 * e.ovf.toNat +
      2147483648 * (statusT code).toNat, c.k, c.k / 4294967296 % 65536].map (BitVec.ofNat 32)) }

/-- Numbers finished beyond TLDONE move it (R229). -/
def advanceDone : Nat → Nat → List Nat → Nat × List Nat
  | 0, d, f => (d, f)
  | fuel + 1, d, f => if f.contains (d + 1) then advanceDone fuel (d + 1) (f.filter (· != d + 1)) else (d, f)

def Engine.finishNum (e : Engine) (n : Nat) : Engine :=
  let r := advanceDone (e.finished.length + 1) e.done (n :: e.finished)
  { e with done := r.1, finished := r.2 }

/-- Where the completion object of a command lies: nowhere if the completion word failed its checks, or if the object lies in
granules that an eclipse has returned. -/
def State.completionPlace (s : State) (c : Cmd) : Option SpadRef :=
  let x := c.completion
  if c.mute || completionBad x || bitsOf x 30 2 == 0 || x % 16 != 0 then none
  else s.cmdRef c false 16 (x % 33554432)

/-- Copy arrival or ring fill of a finishing command (step 2 of R234). -/
def State.completionUpdate (s : State) (c : Cmd) (code : Nat) : State :=
  match s.completionPlace c with
  | none => s
  | some r =>
    if bitsOf c.completion 30 2 == 1 then s.arrive c.team r.core r.off (-(c.bytes : Int)) (code != 0)
    else s.fillRing c.team r.core r.off (failing code)

/-- The receivers of an MCAST in chain order (R216): team and core. The cores of a rectangle that leaves the cluster are
those inside it; a core whose team has ended is left out. (log 26) -/
def State.chain (s : State) (c : Cmd) : List (Nat × Nat) :=
  match lookup c.team s.teams with
  | none => []
  | some t =>
    match lookup t.cluster s.clusters with
    | none => []
    | some k =>
      let x := c.w 4
      let w := bitsOf x 8 4 + 1
      ((List.range (bitsOf x 12 4 + 1)).flatMap fun j =>
        (((if j % 2 == 0 then List.range w else (List.range w).reverse).map fun i => bitsOf x 0 4 + i).filter (· < k.w)).map
          fun i => (bitsOf x 4 4 + j) * k.w + i).filterMap fun rank =>
            (s.rankTeam k rank).map fun p => (p.1, p.2.core)

/-- Where a receiver's own object lies. -/
def State.receiverPlace (s : State) (c : Cmd) (r : Nat × Nat) : Option SpadRef :=
  if c.mute || bitsOf (c.w 6) 30 2 != 1 || completionBad (c.w 6) || bitsOf (c.w 6) 18 7 != 127 || c.w 6 % 16 != 0 then none
  else s.spadRef r.1 (s.isShade c.ctx) true 16 (BitVec.ofNat 32 (33292288 + c.w 6 % 262144))

/-- One receiver's own arrival (R250). -/
def State.receiverArrives (s : State) (c : Cmd) (code : Nat) (r : Nat × Nat) : State :=
  match s.receiverPlace c r with
  | none => s
  | some p => s.arrive c.team p.core p.off (-(c.bytes : Int)) (code != 0)

/-- What holds a command's completion update back: its object lies in lent granules, or in granules not yet zeroed (R371,
R373). (log 43) -/
def State.completionHold (s : State) (c : Cmd) : Option State :=
  (if c.op == 7 then ((s.chain c).drop c.arrived).filterMap (s.receiverPlace c) else (s.completionPlace c).toList).findSome?
    fun r => s.spadHold c r 16

/-- What a copy node ends with that fails though the program did not cause it: its graph fails, and its queue does not enter
Error (R355). (log 40) -/
def failedQuietly : Nat := 255

/-- Put an end to a node of a graph, with an error code or 0. -/
def State.nodeEnds (s : State) (gr node code : Nat) : State :=
  { s with graphs := modifyAt gr (fun g => { g with ended := g.ended ++ [(node, code)] }) s.graphs }

/-- A command that ends leaves its lane: the next one there may start, and a table that it was loading is dropped (R434 to
R436). (log 32) -/
def State.leaveLanes (s : State) (n : Nat) : State :=
  { s with txlanes := s.txlanes.map fun p =>
      if p.2.queue.contains n then
        let runs := p.2.busy && p.2.queue.head? == some n
        (p.1, { p.2 with queue := p.2.queue.filter (· != n), busy := p.2.busy && !runs
                         table := if runs && p.2.owner.isNone then [] else p.2.table })
      else p }

/-- What comes before the finish actions: the open run lands; the near-copy writes of REL at die scope or wider reach
home (R269); ACQ at die scope or wider drops copies (R227). -/
def State.settleLines (s : State) (c : Cmd) : State :=
  let s1 := s.flush c c.line
  let s2 := if c.rel && c.nc && 4 ≤ c.scope && c.st != .posted then s1.writeBackDie c.ctx (dieOf c.core) else s1
  if c.acq && 4 ≤ c.scope && c.st != .posted then s2.dropDie c.ctx (dieOf c.core) else s2

/-- Steps 2 to 4 of the finish actions (R234): completion object, timeline, status record. They wait while the object cannot be
reached; the command has then ended but for them. -/
def State.complete (s : State) (n : Nat) (c : Cmd) (code : Nat) : State :=
  match s.completionHold c with
  | some t => t.setCmd n { c with st := .moving, late := some code, line := none, want := none, fault := none }
  | none =>
    let s1 := if c.op == 7 then ((s.chain c).drop c.arrived).foldl (fun t r => t.receiverArrives c code r) s
      else s.completionUpdate c code
    let e := (s1.engine c.key).finishNum c.num
    { s1.setEngine c.key (if code != 0 || c.rpt then e.report c code else e) with cmds := eraseAt n s1.cmds }

/-- The finish actions (R234): write pointer, completion object, timeline, status record. A BADCMD word and a command
that never started take the pointer as it stands as their start mark, and the byte count that their words give. -/
def State.finish (s : State) (n : Nat) (code : Nat) : State :=
  match s.cmd n with
  | none => s
  | some c1 =>
    match c1.late with
    | some x => s.complete n c1 x
    | none =>
      let c := if c1.st == .posted then { c1 with bytes := c1.wordCount } else c1
      let s0 := (s.settleLines c).leaveLanes n
      match c.node with
      | some (gr, node) => { s0 with cmds := eraseAt n s0.cmds }.nodeEnds gr node (if !failing code then 0 else if statusT code then 5 else failedQuietly)
      | none =>
        let e := s0.engine c.key
        let mark := if c.st == .posted then e.wp.getD c.ch 0 else c.mark
        let s1 := if c.op == 8 then s0 else s0.setEngine c.key { e with wp := e.wp.set c.ch (mark + c.bytes) }
        s1.complete n { c with mark := mark } code

/-! Acceptance (R198). -/

/-- Acceptance of a command spends its team's checkpoint (R395). -/
def spendsAtAccept (c : Cmd) (rank : Nat) : Bool :=
  let op := c.op
  let x := c.completion
  let remote := bitsOf x 18 7 != 127 && bitsOf x 18 7 != rank
  [7, 9, 10, 13, 14, 15].contains op || ((op == 4 || op == 6) && bitsOf (c.w 0) 10 2 != 0) ||
    bitsOf x 30 2 == 2 || (bitsOf x 30 2 == 1 && remote)

/-- Give a command its number and place. -/
def State.accept (s : State) (key : Nat) (c : Cmd) : State :=
  let e := s.engine key
  let c1 := { c with num := e.posted + 1 }
  let s1 := { s.setEngine key { e with posted := e.posted + 1 } with
    cmds := insertAt s.nextId c1 s.cmds, nextId := s.nextId + 1 }
  let rank := ((lookup c.team s.teams).map (·.rank)).getD 0
  let s2 := if spendsAtAccept c1 rank then s1.spend c.team else s1
  if cmdWords c.op == 0 && c.esize == 0 then s2.finish s.nextId 2 else s2

/-- Accept every command whose words are all present. -/
def acceptAll : Nat → Nat → State → State
  | 0, _, s => s
  | fuel + 1, key, s =>
    let e := s.engine key
    match e.queue with
    | [] => s
    | q :: _ =>
      let n := max 1 (cmdWords (q.val.toNat / 16777216))
      if e.queue.length < n then s
      else
        let c : Cmd := { core := key / 4 % 1024, e := key % 4, num := 0, words := (e.queue.take n).map (·.val)
                         gid := q.gid, team := q.team, ctx := q.ctx }
        acceptAll fuel key ((s.setEngine key { e with queue := e.queue.drop n }).accept key c)

/-! QUEUE_PUSH_LANDS (R96, R97, R198, R339, R342). -/

/-- The first push that may land, with no earlier push of its queue left. -/
def landingPush (may : Push → Bool) : List Push → List Byte → Option Push
  | [], _ => none
  | p :: ps, seen => if !seen.contains p.code && may p then some p else landingPush may ps (p.code :: seen)

/-- A push of a group may land: its words are there; a task record makes a release at cluster scope first (R339), and a
core's pushes to one ring land in the order of their issue (R342). -/
def State.pushMay (s : State) (g : Group) (p : Push) : Bool :=
  (match p.due with
    | some d => d ≤ s.now
    | none => false) &&
  match p.code.toNat / 32 with
  | 3 => g.remote == 0
  | 4 => s.groups.all fun x => x.2.core != g.core || x.2.ctx != g.ctx ||
      x.2.pushes.all fun u => u.code.toNat != p.code.toNat || p.seq ≤ u.seq
  | _ => true

/-- The lanes whose word is poisoned. -/
def Push.badLanes (p : Push) : Word := maskOf fun L => (p.lanes.zip p.words).any fun x => x.1 == L && x.2.psn

/-- The words of a push land. A record for the range-task queue is checked as TKPUT checks it, whatever word pushed it
(R339, against R134's list; DESIGN CHOICE, log 12). -/
def State.landPush (s : State) (gid : Nat) (g : Group) (p : Push) : State :=
  let s1 := s.setGroup gid { g with pushes := g.pushes.erase p }
  let bad := p.badLanes
  let poison : Trap := { kind := 2, detail := BitVec.ofNat 32 ((lanesOf bad).headD 0), tmask := bad }
  match p.code.toNat / 32 with
  | 1 =>
    let key := engineId g.ctx g.core (p.code.toNat % 4)
    if p.esize != 0 then
      s1.accept key { core := g.core, e := p.code.toNat % 4, num := 0, words := p.words.map (·.val), gid := gid, team := g.team
                      ctx := g.ctx, plan := p.plan, esize := p.esize }
    else if bad != 0 then s1.trapAtLanding p.origin poison
    else
      let e := s1.engine key
      acceptAll 1024 key (s1.setEngine key { e with queue := e.queue ++ p.words.map fun w => ⟨w.val, gid, g.team, g.ctx⟩ })
  | 3 =>
    if bad != 0 then s1.trapAtLanding p.origin poison
    else
      let r := p.words.map (·.val)
      if !recordOk g.code.words r then
        s1.trapAtLanding p.origin { kind := 10, tmask := maskOf fun L => p.lanes.contains L }
      else (s1.postTask (s.clusterOf g) r).spend g.team
  | 4 =>
    let ring := p.code.toNat % 32
    let d := match lookup (s.kernelOf g) s.kernels with
      | some k => (readAt ([], true) k.rings ring).1
      | none => []
    s1.setCore g.core { s1.core g.core with outbound := (s1.core g.core).outbound ++ [⟨g.ctx, ring, d, p.words⟩] }
  | _ => s1

/-- See assumption log 12. -/
def execQueuePushLands (gid : Nat) (s : State) : Out :=
  match lookup gid s.groups with
  | none => .fault .noSuchObject
  | some g =>
    match landingPush (s.pushMay g) g.pushes [] with
    | none => .fault .noSuchObject
    | some p => .next (s.landPush gid g p)

/-! Start conditions (R221 to R227). -/

/-- Commands of the same engine context with a lower number, not finished. -/
def State.earlier (s : State) (c : Cmd) : List Cmd :=
  (s.cmds.filter fun p => p.2.key == c.key && p.2.node.isNone && p.2.num < c.num).map (·.2)

/-- The commands of a context stand still: its save has been forced (R376). -/
def State.stopped (s : State) (ctx : Nat) : Bool :=
  match lookup ctx s.ctxs with
  | some x => x.forced
  | none => false

/-- A command may start. One without REL does not wait for the remote stores of the thread that posted it: R199 does not order
them by the push, and R227 names no such condition; item 1 of R278 reads otherwise. (DESIGN CHOICE, log 20) -/
def State.mayStart (s : State) (c : Cmd) : Bool :=
  let es := s.earlier c
  let cmask := fun x : Cmd => bitsOf (x.w 0) 10 4
  c.st == .posted && !s.stopped c.ctx && (c.node.isSome ||
    ((if c.op == 8 then es.all fun x => x.op == 8 || !bitOf (cmask c) x.ch
      else es.all fun x => x.op == 8 || x.ch != c.ch) &&
    (c.op == 8 || es.all fun x => !(x.op == 8 && bitOf (cmask x) c.ch)) &&
    es.all (fun x => !x.acq) &&
    (!c.rel || (es.isEmpty && (match lookup c.gid s.groups with
      | some g => g.remote == 0
      | none => true)))))

/-! Start checks (R204 to R206). -/

/-- The checks of R204, in the order in which a failure is reported. -/
structure Checks where
  field : Bool := false
  format : Bool := false
  align : Bool := false
  bounds : Bool := false
  psn : Bool := false

def Checks.status (k : Checks) : Nat :=
  if k.field then 3 else if k.format then 1 else if k.align then 4 else if k.bounds then 5 else if k.psn then 14 else 0

def Checks.or (a b : Checks) : Checks :=
  ⟨a.field || b.field, a.format || b.format, a.align || b.align, a.bounds || b.bounds, a.psn || b.psn⟩

/-- Reserved bits [13:0] of word 0 by command. -/
def lowReserved (op : Nat) : Nat :=
  16383 - (match op with
    | 1 => 12288 | 2 => 8192 | 3 => 12288 | 4 => 15360 | 5 => 12288 | 6 => 15360 | 8 => 15360 | 9 => 16128
    | 10 => 16256 | 11 => 8192 | 12 => 15360 | 13 => 12288 | 14 => 16256 | 15 => 16256 | _ => 0)

/-- Field limits of word 0 and of the completion word. -/
def Cmd.headBad (c : Cmd) : Bool :=
  let w := c.w 0
  Nat.land w (lowReserved c.op) != 0 || c.scope == 7 || (!c.rel && !c.acq && c.scope != 0) ||
    ([8, 9, 10, 12, 13, 14, 15].contains c.op && (c.ro || c.nc)) || (c.op == 8 && c.ch != 0) || completionBad c.completion

/-- Alignment and bounds of the completion object. -/
def State.completionCheck (s : State) (c : Cmd) : Checks :=
  let x := c.completion
  if completionBad x || bitsOf x 30 2 == 0 then {}
  else if c.op == 7 then { align := x % 16 != 0 }
  else { align := x % 16 != 0, bounds := (s.cmdRef c false 16 (x % 33554432)).isNone }

/-- A local block of n bytes at a scratchpad address: its checks. (log 24) -/
def State.blockCheck (s : State) (c : Cmd) (a n align : Nat) : Checks :=
  { align := a % align != 0, bounds := (s.cmdRef c true n a).isNone }

/-- Words of a local block that has passed its checks. -/
def State.blockWords (s : State) (c : Cmd) (a n : Nat) : List PWord :=
  match s.cmdRef c true (4 * n) a with
  | none => []
  | some r => s.spadWords r.core r.off n

/-- A number of a block's words. -/
def nw (ws : List PWord) (i : Nat) : Nat := (ws.getD i PWord.zero).val.toNat

/-- A stride of 64 bits, and whether it is the sign extension of its low 48 bits. -/
def strideOf (ws : List PWord) (i : Nat) : Int × Bool :=
  let v := nw ws i + 4294967296 * nw ws (i + 1)
  (signExt 48 (v % 281474976710656), signExt 64 v == signExt 48 (v % 281474976710656))

/-- A Morton dimension's extent: a power of two up to 2^16. -/
def mortonExt (e : Nat) : Bool := e ≤ 65536 && e != 0 && 2 ^ e.log2 == e

/-- Extents or RANK break the limits of a side's Morton kind (R206). -/
def mortonBad (kind : Nat) (ext : List Nat) : Bool :=
  match kind with
  | 1 => ext.length < 2 || !(ext.take 2).all mortonExt
  | 2 => ext.length < 3 || !(ext.take 3).all mortonExt
  | _ => false

/-- Limits of a side's kind (R206). -/
def kindBad (kind : Nat) (ext : List Nat) : Bool := 3 ≤ kind || mortonBad kind ext

/-- Dimensions whose strides count. -/
def strideDims (kind rank : Nat) : List Nat := (List.range rank).drop (if kind == 0 then 0 else kind + 1)

/-- A scaled side's format limits (R44, R206): block length and innermost extent on that side. -/
def scaleBad (f : Fmt) (blk inner : Nat) : Bool :=
  (blk != 0 && (!Fmt.scalable f || inner % blk != 0)) || (f == .e2m1 && blk == 0)

/-- Block length of a code (Table 9-4). -/
def blkLen : Nat → Nat
  | 1 => 16
  | 2 => 32
  | _ => 0

/-- The product of extents. -/
def extProd (ext : List Nat) : Nat := ext.foldl (· * ·) 1

/-- A shape block as a command reads it: shape, checks, whether RANK, extents, N and the destination format are within
their limits (R493). (log 24) -/
structure Parsed where
  shape : Shape := {}
  checks : Checks := {}
  counted : Bool := false
  /-- a block was read, and held no poison -/
  read : Bool := false

/-- Read a shape block (Table 9-4, R206). FILL ignores the source fields. -/
def parseShape (ws : List PWord) (fill ssp dsp : Bool) : Parsed :=
  let b20 := nw ws 5 % 256
  let rank := b20 % 8
  let skind := bitsOf b20 3 2
  let dkind := bitsOf b20 5 2
  let fmts := bitsOf (nw ws 5) 8 8
  let b22 := bitsOf (nw ws 5) 16 8
  let b23 := bitsOf (nw ws 5) 24 8
  let tr := bitsOf b22 3 2
  let ext := (List.range (min rank 5)).map fun d => nw ws d
  let sf := rdFmt (fmts % 16)
  let df := rdFmt (fmts / 16)
  let sfm := sf.getD .f32
  let dfm := df.getD .f32
  let inner := ext.headD 0
  let sinner := if tr != 0 then ext.getD 1 0 else inner
  let sblk := blkLen (b23 % 4)
  let dblk := blkLen (b23 / 4 % 4)
  let sstr := (List.range rank).map fun d => strideOf ws (6 + 2 * d)
  let dstr := (List.range rank).map fun d => strideOf ws (16 + 2 * d)
  let strBad := fun (ss : List (Int × Bool)) (k : Nat) => (strideDims k rank).any fun d => !((ss.getD d (0, true)).2)
  let scaleAt := fun (i : Nat) (sp : Bool) => if sp then nw ws i else nw ws i + 4294967296 * nw ws (i + 1)
  let scaleAddrBad := fun (i : Nat) (sp : Bool) => if sp then nw ws (i + 1) != 0 else bitsOf (nw ws (i + 1)) 25 7 != 0
  let n := extProd ext
  let rankBad := rank == 0 || 5 < rank
  let field := rankBad || bitOf b20 7 || b22 / 64 != 0 || b23 / 16 != 0 || nw ws 30 != 0 || nw ws 31 != 0 ||
    b23 / 4 % 4 == 3 || kindBad dkind ext || strBad dstr dkind || 1099511627776 < n ||
    (dblk != 0 && scaleAddrBad 28 dsp) ||
    (!fill && (b23 % 4 == 3 || tr == 3 || (tr != 0 && rank < 2) || kindBad skind ext || strBad sstr skind ||
      (sblk != 0 && scaleAddrBad 26 ssp)))
  let format := df.isNone || b22 % 4 == 3 ||
    (!fill && (sf.isNone || (tr == 1 && Fmt.bits sfm != 8) || (tr == 2 && Fmt.bits sfm != 16) ||
      (bitOf b22 5 && sfm != .i8 && sfm != .i16) || scaleBad sfm sblk sinner || scaleBad dfm dblk inner)) ||
    (fill && (dblk != 0 || dfm == .e2m1))
  { shape :=
      { ext := ext
        src := { spad := ssp, fmt := sfm, kind := skind, str := sstr.map (·.1), blk := sblk, scale := scaleAt 26 ssp }
        dst := { spad := dsp, fmt := dfm, kind := dkind, str := dstr.map (·.1), blk := dblk, scale := scaleAt 28 dsp }
        rnd := if b22 % 4 == 1 then .ef else if b22 % 4 == 2 then .rz else .rne
        sat := bitOf b22 2, zx := bitOf b22 5, tr := tr != 0 }
    checks := { field := field, format := format }
    counted := !rankBad && n ≤ 1099511627776 && df.isSome && !mortonBad dkind ext && !(fill && dfm == .e2m1) &&
      (fill || (!mortonBad skind ext && !(tr != 0 && rank < 2)))
    read := true }

/-- A data address is no multiple of its element size. -/
def misaligned (f : Fmt) (a : Nat) : Bool := a % max 1 f.size != 0

/-- What a start finds: its checks, and the command with its transfer and counts. -/
structure Start where
  checks : Checks
  cmd : Cmd

/-- Start of a command with a shape block at word i: source at words 1 and 2, destination at words d and d + 1. -/
def State.startShaped (s : State) (c : Cmd) (i : Nat) (fill ssp dsp : Bool) (dst : Option Nat)
    (more : Parsed → Checks) (finish : Shape → Shape) (rankMin : Nat := 1) : Start :=
  let a := c.w i
  let bk := s.blockCheck c a 128 128
  let read := !bk.align && !bk.bounds
  let ws := if read then s.blockWords c a 32 else []
  let bad := wordsPsn ws
  let p := if read && !bad then parseShape ws fill ssp dsp else {}
  let sh := finish
    { p.shape with
      src := { p.shape.src with base := c.addr ssp 1 }
      dst := { p.shape.dst with base := match dst with
        | some d => c.addr dsp d
        | none => 0 } }
  let addrField := (!fill && c.addrBad ssp 1) || (match dst with
    | some d => c.addrBad dsp d
    | none => false)
  let al : Checks := if read && !bad then
      { align := (!fill && misaligned sh.src.fmt sh.src.base) || misaligned sh.dst.fmt sh.dst.base } else {}
  let n := extProd sh.ext
  let counted := p.counted && rankMin ≤ sh.ext.length
  { checks := (((((⟨c.headBad || addrField, false, false, false, bad⟩ : Checks).or bk).or p.checks).or al).or
      (s.completionCheck c)).or (more (if read && !bad then p else {}))
    cmd := { c with
      shape := sh
      n := if counted then n else 0
      bytes := if counted then bytesOf n (Fmt.bits sh.dst.fmt) else 0 } }

/-- Extent d of a shape, 0 where it has none. -/
def Shape.e (sh : Shape) (d : Nat) : Nat := sh.ext.getD d 0

/-- Start of GATH, SCAT, BGATH, BSCAT (R213). (log 24) -/
def State.startIndexed (s : State) (c : Cmd) : Start :=
  let ix := match c.op with
    | 3 => Indexing.gath
    | 4 => .scat
    | 5 => .bgath
    | _ => .bscat
  let blockwise := c.op == 5 || c.op == 6
  let scatter := c.op == 4 || c.op == 6
  let rop := if scatter then bitsOf (c.w 0) 10 2 else 0
  s.startShaped c 5 false c.ssp c.dsp (some 3)
    (fun p =>
      let sh := p.shape
      let low := sh.ext.length < (if blockwise then 3 else 2)
      let len := if p.counted && !low then (if blockwise then 2 * sh.e 2 else sh.e 1) else 0
      ({ field := p.read && (low || (if scatter then sh.dst.kind else sh.src.kind) != 0 || sh.tr)
         format := rop != 0 && sh.dst.blk != 0 } : Checks).or
        { align := c.w 7 % 4 != 0
          bounds := if len == 0 then !(bitsOf (c.w 7) 25 7 == 0 && (s.cmdRef c true 0 (c.w 7)).isSome)
            else (s.cmdRef c true (4 * len) (c.w 7)).isNone })
    (fun sh => { sh with idx := ix, list := BitVec.ofNat 32 (c.w 7), rop := rop })
    (if blockwise then 3 else 2)

/-- Start of MCAST (R216). -/
def State.startMcast (s : State) (c : Cmd) : Start :=
  let x := c.w 4
  let k := match lookup c.team s.teams with
    | some t => lookup t.cluster s.clusters
    | none => none
  let out := match k with
    | some k => k.w < bitsOf x 0 4 + bitsOf x 8 4 + 1 || k.h < bitsOf x 4 4 + bitsOf x 12 4 + 1
    | none => true
  let comp := c.w 6
  s.startShaped c 5 false false true none
    (fun p => { field := bitsOf (c.w 3) 18 14 != 0 || bitsOf x 16 16 != 0 || out ||
                  bitsOf comp 30 2 == 2 || (bitsOf comp 30 2 == 1 && bitsOf comp 18 7 != 127)
                align := p.read && misaligned p.shape.dst.fmt (c.w 3)
                bounds := !out && bitsOf comp 30 2 == 1 && (s.chain c).any fun r =>
                  (s.spadRef r.1 (s.isShade c.ctx) true 16 (BitVec.ofNat 32 (33292288 + comp % 262144))).isNone })
    fun sh => { sh with dst := { sh.dst with base := 33292288 + c.w 3 % 262144 } }

/-- A code that does not fit an element. -/
def codeBad (f : Fmt) (v : Nat) : Bool := 2 ^ Fmt.bits f ≤ v

/-- Start of ATOMC (R218): its operand block is read now. -/
def State.startAtomc (s : State) (c : Cmd) : Start :=
  let op := bitsOf (c.w 0) 10 4
  let ty := bitsOf (c.w 0) 8 2
  let w := atomcWidth op ty
  let ob := if op == 7 then 2 * w else w
  let fld := c.headBad || c.addrBad false 1 || w == 0 || (ty == 2 && op != 7 && 4 ≤ op)
  let blocks : Checks := if w == 0 then {} else
    (s.blockCheck c (c.w 3) ob (min (2 * w) 16)).or (s.blockCheck c (c.w 4) w (min w 16))
  { checks := ((({ field := fld, align := w != 0 && c.addr false 1 % w != 0 } : Checks).or blocks).or (s.completionCheck c))
    cmd := { c with n := 1, bytes := w, aux := s.blockWords c (c.w 3) (ob / 4) } }

/-- Start of REDC (R219). -/
def State.startRedc (s : State) (c : Cmd) : Start :=
  let fm := c.redcFmt.getD .f32
  let ok := c.redcFmt.isSome
  let ssp := bitOf (c.w 0) 7
  { checks := (({ field := c.headBad || c.addrBad ssp 1 || c.addrBad false 3 || bitsOf (c.w 0) 12 2 == 0 || c.w 5 == 0
                  format := !ok
                  align := ok && (misaligned fm (c.addr ssp 1) || misaligned fm (c.addr false 3)) } : Checks).or
      (s.completionCheck c))
    cmd := { c with
      n := c.w 5, bytes := c.wordCount
      shape := { ext := [c.w 5], rop := bitsOf (c.w 0) 12 2
                 src := { spad := ssp, base := c.addr ssp 1, fmt := fm, str := [1] }
                 dst := { base := c.addr false 3, fmt := fm, str := [1] } } } }

/-- Start of WAITC (R222). (log 24) -/
def State.startWaitc (s : State) (c : Cmd) : Start :=
  let kind := bitsOf (c.w 0) 12 2
  let x := bitsOf (c.w 0) 10 2
  let val := c.w 2 * 4294967296 + c.w 1
  { checks := { field := c.headBad || 2 ≤ kind || (kind == 0 && x == c.e && c.num ≤ val) || (kind == 1 && c.w 2 / 2 != 0)
                align := kind == 1 && c.w 1 % 16 != 0
                bounds := kind == 1 && (s.cmdRef c false 16 (c.w 1)).isNone }
    cmd := c }

/-- Start of SIGNAL (R223). (log 24, 62) -/
def State.startSignal (s : State) (c : Cmd) : Start :=
  let kind := bitsOf (c.w 0) 12 2
  { checks := { field := c.headBad || kind == 3 || (kind ≤ 1 && (c.w 2 != 0 || c.w 3 != 0)) ||
                  (kind == 1 && c.w 1 / 256 != 0) || (kind == 2 && c.addrBad false 1)
                align := (kind == 0 && c.w 1 % 16 != 0) || (kind == 2 && c.w 1 % 4 != 0)
                bounds := kind == 0 && (s.cmdRef c false 16 (c.w 1)).isNone }
    cmd := { c with n := if kind == 2 then 1 else 0, bytes := if kind == 2 then 4 else 0 } }

/-- Start of TXLOAD, TXRUN and PREF (R220, R224, R434, R435). -/
def State.startStream (s : State) (c : Cmd) : Start :=
  let run := c.op == 15
  let pref := c.op == 16
  { checks := ({ field := c.headBad || c.addrBad false 1 || (run && c.addrBad false 4) ||
                   (pref && (c.w 3 == 0 || 67108864 < c.w 3))
                 align := (!run && !pref && c.w 1 % 16 != 0) || (run && c.w 4 % 16 != 0) } : Checks).or (s.completionCheck c)
    cmd := { c with n := c.w 3 } }

/-! Layout records (R209, R210, R212). -/

/-- CRC-32C of a byte string (R209). -/
def crcStep (c : Nat) (b : Byte) : Nat :=
  (List.range 8).foldl (fun x _ => if x % 2 == 1 then Nat.xor (x / 2) 0x82F63B78 else x / 2) (Nat.xor c b.toNat)

def crc32c (bs : List Byte) : Nat := Nat.xor (bs.foldl crcStep 0xFFFFFFFF) 0xFFFFFFFF

/-- The bytes of words. -/
def bytesOfWords (ws : List Nat) : List Byte := ws.flatMap fun w => (List.range 4).map fun i => byteOf w i

/-- A number of n bytes at byte p of words. -/
def wordBytes (ws : List Nat) (p n : Nat) : Nat :=
  leNat (fun i => byteOf (ws.getD ((p + i) / 4) 0) ((p + i) % 4)) n

/-- Dense row-major strides of extents. -/
def denseStrides : Nat → List Nat → List Int
  | _, [] => []
  | m, e :: es => (m : Int) :: denseStrides (m * e) es

/-- Exchange the two innermost extents. -/
def swap01 {α : Type} : List α → List α
  | a :: b :: r => b :: a :: r
  | l => l

/-- The transfer of a COPYL under its record (R212): checks of R206, then seal and version. -/
def State.startCopyl (s : State) (c : Cmd) (rec_ : Option (List Nat × Bool)) : Start :=
  let conv := c.w 7
  let dir := bitOf (c.w 0) 13
  let sfmt := rdFmt (conv / 268435456)
  let tr := bitsOf conv 23 2
  let rnd := bitsOf conv 26 2
  let bad := match rec_ with
    | some (_, b) => b
    | none => false
  let ws := match rec_ with
    | some (ws, false) => ws
    | _ => []
  let read := !ws.isEmpty
  let b50 := wordBytes ws 50 1
  let b51 := wordBytes ws 51 1
  let rank := b51 % 8
  let rf := rdFmt (b50 % 16)
  let ext := (List.range (min rank 5)).map fun d => ws.getD d 0
  let kind := bitsOf b50 4 2
  let n := extProd ext
  let spadF := sfmt.getD .f32
  let devF := rf.getD .f32
  let spadExt := if tr != 0 then swap01 ext else ext
  let dev : SideD :=
    { base := c.addr false 1, fmt := devF, kind := kind
      str := (List.range rank).map fun d => signExt 48 (wordBytes ws (20 + 6 * d) 6) }
  let pad : SideD := { spad := true, base := c.w 5, fmt := spadF, str := denseStrides 1 spadExt }
  let src := if dir then pad else dev
  let dst := if dir then dev else pad
  let rankBad := rank == 0 || 5 < rank
  let recField := read && (rankBad || b51 / 8 != 0 || b50 / 64 != 0 || wordBytes ws 54 6 != 0 || kindBad kind ext ||
    1099511627776 < n || (tr != 0 && rank < 2))
  let recFormat := read && (rf.isNone || devF == .e2m1 || (tr == 1 && Fmt.bits src.fmt != 8) || (tr == 2 && Fmt.bits src.fmt != 16) ||
    (bitOf conv 22 && src.fmt != .i8 && src.fmt != .i16))
  let counted := read && !rankBad && n ≤ 1099511627776 && !mortonBad kind ext && !(tr != 0 && rank < 2) &&
    (if dir then rf.isSome && devF != .e2m1 else sfmt.isSome && spadF != .e2m1)
  { checks := (({ field := c.headBad || c.addrBad false 1 || c.addrBad false 3 || bitsOf conv 16 6 != 0 || tr == 3 || recField
                  format := sfmt.isNone || spadF == .e2m1 || rnd == 3 || recFormat
                  align := c.w 3 % 64 != 0 || misaligned spadF (c.w 5) || (read && misaligned devF (c.addr false 1))
                  psn := bad } : Checks).or (s.completionCheck c))
    cmd := { c with
      n := if counted then n else 0
      bytes := if counted then bytesOf n (Fmt.bits dst.fmt) else 0
      shape := { ext := if dir then ext else spadExt, src := src, dst := dst, tr := tr != 0, sat := bitOf conv 25
                 zx := bitOf conv 22, rnd := if rnd == 1 then .ef else if rnd == 2 then .rz else .rne } } }

/-- Seal and version of a record (R210). (log 24) -/
def sealBad (c : Cmd) (ws : List Nat) : Bool :=
  crc32c (bytesOfWords (ws.take 15)) != ws.getD 15 0 || wordBytes ws 52 2 != c.w 7 % 65536

/-- Scratchpad that a command reads or acts on as it starts: address and bytes. -/
def Cmd.startBlocks (c : Cmd) : List (Nat × Nat) :=
  match c.op with
  | 1 | 3 | 4 | 5 | 6 | 7 => [(c.w 5, 128)]
  | 9 => let w := atomcWidth (bitsOf (c.w 0) 10 4) (bitsOf (c.w 0) 8 2)
    [(c.w 3, if bitsOf (c.w 0) 10 4 == 7 then 2 * w else w), (c.w 4, w)]
  | 11 => [(c.w 3, 128)]
  | 12 => if bitsOf (c.w 0) 12 2 == 1 then [(c.w 1, 16)] else []
  | 13 => if bitsOf (c.w 0) 12 2 == 0 then [(c.w 1, 16)] else []
  | _ => []

/-- What holds the start of a command back. (log 25) -/
def State.startHold (s : State) (c : Cmd) : Option State :=
  if c.node.isSome then none
  else c.startBlocks.findSome? fun b => (s.cmdRef c false b.2 b.1).bind fun r => s.spadHold c r b.2

/-! COMMAND_START (R230). -/

/-- ASTC's checks (R304, Table 12-9). I64 = 1 with a reserved FMT code gives FORMAT alone, and with E2M1 FIELD, where two
sentences of R304 name a status each. (DESIGN CHOICE, log 24) -/
def State.startAstc (s : State) (c : Cmd) : Start :=
  let x := c.w 3
  let fm := rdFmt (x / 268435456)
  let kind := bitsOf x 26 2
  let i64 := bitOf x 23
  let opts := c.w 6
  { checks := (({ field := c.scope == 7 || (!c.rel && c.scope != 0) || bitsOf (c.w 0) 20 1 != 0 || bitsOf (c.w 0) 16 1 != 0 ||
                    bitsOf (c.w 0) 0 14 != 0 || bitsOf (c.w 4) 24 8 != 0 || c.addrBad false 1 || completionBad c.completion ||
                    bitsOf x 16 7 != 0 || (kind == 3 && bitsOf x 24 2 == 3) || (kind != 3 && bitsOf x 24 2 != 0) ||
                    (kind ≤ 1 && x % 65536 < 32) || (2 ≤ kind && x % 65536 != 0) ||
                    (i64 && fm.isSome && fm != some .i32) || (i64 && opts != 0)
                  format := c.astcFmt.isNone
                  align := c.addr false 1 % max 1 c.esize != 0 } : Checks).or (s.completionCheck c))
    cmd := { c with n := c.plan.length, bytes := c.wordCount } }

/-- The checks of every command but COPYL. -/
def State.startChecks (s : State) (c : Cmd) : Start :=
  if c.node.isSome then ⟨{}, c⟩
  else match c.op with
    | 1 => s.startShaped c 5 false c.ssp c.dsp (some 3) (fun _ => {}) id
    | 7 => s.startMcast c
    | 8 => ⟨{ field := c.headBad }, c⟩
    | 9 => s.startAtomc c
    | 10 => s.startRedc c
    | 11 =>
      s.startShaped c 3 true false (bitOf (c.w 0) 13) (some 1)
        (fun p => { field := p.read && codeBad p.shape.dst.fmt (c.w 4) }) fun sh => { sh with fill := some (c.w 4) }
    | 12 => s.startWaitc c
    | 13 => s.startSignal c
    | 128 => s.startAstc c
    | 3 | 4 | 5 | 6 => s.startIndexed c
    | _ => s.startStream c

/-- A lane of the transducers: the stack of the issuing die, and the lane in it (R224). -/
def Cmd.lane (c : Cmd) : Nat := (dieOf c.core * 4 + bitsOf (c.w 0) 12 2) * 32 + bitsOf (c.w 0) 7 5

/-- Start a command that has passed its checks. -/
def State.begin_ (s : State) (n : Nat) (c : Cmd) : State :=
  match c.op with
  | 8 =>
    -- CFENCE: release, acquire, done (R221)
    (s.setCmd n { c with st := .moving }).finish n 0
  | 13 =>
    match bitsOf (c.w 0) 12 2 with
    | 0 => match s.cmdRef c false 16 (c.w 1) with
      | some r => ((s.setCmd n { c with st := .moving }).arrive c.team r.core r.off 0 false).finish n 0
      | none => (s.setCmd n { c with st := .moving }).finish n 5
    | 1 =>
      match lookup c.team s.teams with
      | some t => ((s.setCmd n { c with st := .moving }).decrement t.cluster (c.w 1 % 256)).finish n 0
      | none => (s.setCmd n { c with st := .moving }).finish n 0
    | _ => s.setCmd n { c with st := .moving }
  | 14 | 15 =>
    let x := (lookup c.lane s.txlanes).getD {}
    { s.setCmd n { c with st := .moving } with txlanes := insertAt c.lane { x with queue := x.queue ++ [n] } s.txlanes }
  | 12 | 16 => s.setCmd n { c with st := .moving }
  | _ => if c.n == 0 then (s.setCmd n { c with st := .moving }).finish n 0 else s.setCmd n { c with st := .moving }

/-- The start mark, and the release of REL at die scope or wider: the command is no longer Posted. -/
def State.marked (s : State) (c : Cmd) : State × Cmd :=
  let s1 := if c.rel && 4 ≤ c.scope then s.writeBackDie c.ctx (dieOf c.core) else s
  (s1, { c with mark := (s1.engine c.key).wp.getD c.ch 0, st := .moving })

/-- COPYL with its record: all checks, and the seal after them. -/
def State.resolveCopyl (s : State) (n : Nat) (c : Cmd) (ws : List Nat) (psn : Bool) : State :=
  let r := s.startCopyl c (some (ws, psn))
  let code := r.checks.status
  if code != 0 then (s.setCmd n r.cmd).finish n code
  else if sealBad c ws then (s.setCmd n { r.cmd with bytes := 0 }).finish n 6
  else s.begin_ n r.cmd

/-- COMMAND_START: the command leaves Posted. -/
def execCommandStart (n : Nat) (s : State) : Out :=
  match s.cmd n with
  | none => .fault .noSuchObject
  | some c0 =>
    if !s.mayStart c0 then .fault .noSuchObject
    else match s.startHold c0 with
    | some t => .next t
    | none =>
      let (s1, c) := s.marked c0
      if c.op == 2 then
        let r := s1.startCopyl c none
        if c.addrBad false 3 || c.w 3 % 64 != 0 then .next ((s1.setCmd n r.cmd).finish n r.checks.status)
        else
          let a := c.addr false 3
          match (s1.core c.core).layouts.find? fun x => x.1 == a && x.2.1 == c.w 7 % 65536 with
          | some x => .next (s1.resolveCopyl n c x.2.2 false)
          | none => .next (s1.setCmd n { c with unread := true, n := 0 })
      else
        let r := s1.startChecks c
        let code := r.checks.status
        .next (if code != 0 then (s1.setCmd n r.cmd).finish n code else s1.begin_ n r.cmd)

end Sys2Proof.Machine
end

