-- ==== Sys2Proof/Machine/Traps.lean ====
section
/-! DEFINITION. The end of a handler, poison tests, and special registers (spec 17_faults.md R388 to R393,
16_context.md R381, R382). -/

namespace Sys2Proof.Machine

/-! TRES (R390). -/

/-- A word of lane L's state block as the handler's view gives it. -/
def viewWord (s : State) (v : View) (h : Group) (L k : Nat) : Nat := (viewBlock v (s.cyc v.g.core) h (4 * L + k)).val.toNat

/-- A lane that TRES may not resume as its view stands. -/
def tresBad (s : State) (v : View) (h : Group) (L : Nat) : Bool :=
  let st := viewWord s v h L 1 % 8
  let pc := viewWord s v h L 0
  st != 4 && ((st == 3 && !s.preqOf h) || 5 ≤ st || pc % 3 != 0 || h.code.words ≤ pc ||
    (st == 1 && !(viewWord s v h L 3 < h.code.words &&
      s.codeWord h.core h.code (viewWord s v h L 3) / 1048576 % 64 == 0x3A &&
      fMinor (s.codeWord h.core h.code (viewWord s v h L 3)) == 3)))

/-- Thread state of a code of Table 7-1. -/
def stOf : Nat → ThreadSt
  | 0 => .ready
  | 1 => .joining
  | 2 => .sleeping
  | 3 => .held
  | _ => .exited

/-- The handler's writes to lane L's block, applied (R388): a write of word 0 clears RWORD, and a window base is taken
as written, past REGS too. (DESIGN CHOICE, log 14) -/
def applyBlock (g : Group) (cyc L : Nat) (t : Thread) : Thread :=
  let w := fun k => lookup (4 * L + k) g.viewWords
  let t1 := match w 0 with
    | some x => { t with pc := x.val.toNat, rword := 0, transfer := none }
    | none => t
  let t2 := match w 1 with
    | some x => { t1 with st := stOf (x.val.toNat % 8), wbase := bitsOf x.val.toNat 8 4 }
    | none => t1
  let t3 := match w 2 with
    | some x => if x.psn then { t2 with preds := 1, predPsn := 0xFFFE }
        else { t2 with preds := x.val.truncate 16 ||| 1, predPsn := 0 }
    | none => t2
  match w 3 with
  | some x => match t3.st with
    | .joining => { t3 with joinAddr := x.val.toNat }
    | .sleeping => { t3 with wake := cyc + min x.val.toNat 1048575 }
    | _ => t3
  | none => t3

/-- The trapped group with dropped lanes exited and the handler's writes applied, in the listed order (R390). (log 14) -/
def applyView (g h : Group) (cyc : Nat) (keep : Word) : Group :=
  { h with
    frame := g.viewFrame.foldl (fun f x => writeAt PWord.zero x.1 x.2 f) h.frame
    threads := h.threads.mapIdx fun L t =>
      applyBlock g cyc L (if keep.getLsbD L then t else { t with st := .exited }) }

/-- The frame writes of a handler enter the undo log as writes of the trapped group (R394). (log 14) -/
def State.logView (s : State) (gid : Nat) (g h : Group) : State :=
  g.viewFrame.foldl (fun t x => t.logBlock h.team (.frame gid (x.1 / 8 * 8))
    (loggedBlock fun k => h.word (x.1 / 8 * 8 + k))) s

/-- A Trapped group leaves Trapped by Table 7-3, or takes the trap recorded meanwhile (R385). (log 13) -/
def Group.resume (g : Group) (cyc now : Nat) : Group :=
  match g.second with
  | some r =>
    { g with record := some ((r.set 12 (PWord.ok (BitVec.ofNat 32 cyc))).set 13
               (PWord.ok (BitVec.ofNat 32 (cyc / 4294967296)))), second := none, handler := .due }
  | none =>
    let g1 := { g with record := none, handler := .none, unit := none, since := now }
    if !g.resident then { g1 with st := .parked, woken := g.wait == .none }
    else if g.wait == .none then { g1 with st := .pending } else { g1 with st := .waiting }

/-- The handler group ends. -/
def State.endHandler (s : State) (v : View) : State := s.endGroups [v.o.gid]

/-- See assumption log 14. -/
def execTres (o : OpA) (s : State) : Out :=
  runPrivileged s (fun g => g.handles.isSome) fun v => do
    let (a, s1) ← s.operand v o.ap.val o.ar.val
    match ← v.single a with
    | none => .ok s1
    | some (_, keep) =>
      let hid := v.g.handles.getD 0
      match lookup hid s.groups with
      | none => .ok (s1.endHandler v)
      | some h =>
        if h.st != .trapped || h.handler != .running v.o.gid then .ok (s1.endHandler v)
        else if allLanes.any fun L => keep.getLsbD L && tresBad s v h L then
          .error (.trap { kind := 10, tmask := v.en })
        else
          v.release
          let h1 := (applyView v.g h (s.cyc v.g.core) keep).resume (s.cyc v.g.core) s.now
          .ok (((((s1.logView hid v.g h).setGroup hid h1).endHandler v).evalJoins hid).checkDeadlock hid |>.checkExit hid)

def execTkill (team : Bool) (s : State) : Out :=
  runPrivileged s (fun g => g.handles.isSome) fun v =>
    if v.lanes.isEmpty then .ok s
    else
      let hid := v.g.handles.getD 0
      let s1 := s.endHandler v
      match lookup hid s.groups with
      | none => .ok s1
      | some h =>
        if h.st != .trapped || h.handler != .running v.o.gid then .ok s1
        else .ok (s1.endGroups (if team then s.barGroups h.team else [hid]))

/-! PCHK and PCLR (R393). -/

def execPchkReg (pd : Pred) (o : OpA) (s : State) : Out :=
  runWord s fun v => do
    let (a, s1) ← s.operand v o.ap.val o.ar.val
    .ok (s1.putPred v pd.val (2 + popDelay v [o.ar.val]) fun L => ((a L).psn, false))

def execPchkPred (pd pa : Pred) (s : State) : Out :=
  runWord s fun v => .ok (s.putPred v pd.val 2 fun L => ((v.g.thread L).predBad pa.val, false))

def execPclrReg (o : OpM) (s : State) : Out :=
  unaryWord s o.ap.val o.ar.val o.d.val 2 fun _ a => PWord.ok a.val

/-- PCLR of a predicate writes false, whatever the source holds. (log 13) -/
def execPclrPred (pd _pa : Pred) (s : State) : Out :=
  runWord s fun v => .ok (s.putPred v pd.val 2 fun _ => (false, false))

/-! Special registers (R381, R382, Table 16-6). -/

/-- LEASE of the loan on a core as a context reads it. -/
def leaseValue (l : Loan) (shade : Bool) : Nat :=
  l.map.toNat + 4294967296 * l.isOpen.toNat + 8589934592 * (shade && l.lost).toNat +
    17179869184 * l.idle.toNat + 281474976710656 * (l.ecl % 65536)

/-- The value of a special register in lane L; the queue-binding trap is raised elsewhere. (log 14) -/
def srValue (s : State) (v : View) (sr L : Nat) : Nat :=
  let t := lookup v.g.team s.teams
  let e := s.engine (engineKey v.g (v.g.binding 28))
  let c := lookup v.g.ctx s.ctxs
  match sr with
  | 0 => L
  | 1 => v.g.num
  | 2 => s.clusterIndex v.g
  | 3 => v.g.core
  | 4 => dieOf v.g.core
  | 5 => (t.map (·.clx)).getD 0
  | 6 => (t.map (·.cly)).getD 0
  | 7 => (t.map (·.rank)).getD 0
  | 8 => match c with
    | some x => s.shownMode x + 16 * x.dev + 256 * (deviceDies x.mode x.dev).foldl (fun m d => m + 2 ^ d) 0
    | none => 0
  | 9 => match c with
    | some x => v.g.ctx + 65536 * x.shade.toNat + 131072 * x.priv.toNat + 262144 * x.prio
    | none => v.g.ctx
  | 10 => (s.preqOf v.g).toNat
  | 11 => s.cyc v.g.core
  | 12 => e.posted
  | 13 => e.done
  | 14 => e.wp.getD 0 0
  | 15 => e.wp.getD 1 0
  | 16 => e.wp.getD 2 0
  | 17 => e.wp.getD 3 0
  | 18 => leaseValue (s.loan (s.princOf v.g.ctx) v.g.core) v.g.shade
  | 19 => match lookup (s.kernelOf v.g) s.kernels with
    | some k => k.arga
    | none => 0
  | _ => 0

/-- Registers that the engine context bound to q0 answers. -/
def srEngine (sr : Nat) : Bool := 12 ≤ sr && sr ≤ 17

def execSrd (d sr : Reg) (s : State) : Out :=
  runWord s fun v =>
    if !v.lanes.isEmpty && srEngine sr.val && (v.g.binding 28).toNat / 32 != 1 then
      .error (bindTrap v (v.g.binding 28))
    else if srWide sr.val then s.put2 v d.val 6 fun L =>
      (PWord.ok (BitVec.ofNat 32 (srValue s v sr.val L)), PWord.ok (BitVec.ofNat 32 (srValue s v sr.val L / 4294967296)))
    else s.put v d.val 6 fun L => PWord.ok (BitVec.ofNat 32 (srValue s v sr.val L))

/-- SWR of LEASE: a 1 in bit 33 from any enabled lane clears LOST, which a principal's loan does not show. -/
def execSwr (_sr : Reg) (o : OpA) (s : State) : Out :=
  runWord s fun v =>
    let a := fun L => v.g.pairAt (v.src o.ap.val L) o.ar.val
    let bad := maskOf fun L => v.on L && (a L).1
    if bad != 0 then .error (poisonTrap bad)
    else
      let p := s.princOf v.g.ctx
      let l := s.loan p v.g.core
      .ok (if v.g.shade && v.lanes.any (fun L => bitOf (a L).2 33) then
        s.setLoan p v.g.core { l with lost := false } else s)

end Sys2Proof.Machine
end

