-- ==== Sys2Proof/Machine/Groups.lean ====
section
/-! DEFINITION. The events that move groups between their states (spec 07_group.md R157 to R163, 17_faults.md R384,
04_register_space.md R90, R92). -/

namespace Sys2Proof.Machine

/-! Room (R90, R92, R161). -/

/-- The resident groups of a core, principal or shade. -/
def State.residents (s : State) (core : Nat) (shade : Bool) : List (Nat × Group) :=
  s.groups.filter fun p => p.2.core == core && p.2.shade == shade && p.2.resident

/-- Bytes of register space, or of the shade bank. -/
def bankBytes (shade : Bool) : Nat := if shade then 131072 else 393216

/-- A frame of F bytes and a resident slot are free. -/
def State.roomFor (s : State) (core : Nat) (shade : Bool) (f : Nat) : Bool :=
  let rs := s.residents core shade
  rs.length < 32 && rs.foldl (fun n p => n + p.2.frameSize) 0 + f ≤ bankBytes shade

/-- Bytes of a parking image (R161). -/
def imageBytes (f : Nat) : Nat := (f + f / 32 + 2048 + 255) / 256 * 256

/-- Take or free bytes of a context's parking region on a die. -/
def State.usePark (s : State) (ctx die : Nat) (n : Int) : State :=
  s.modCtx ctx fun c => { c with parkUsed := writeAt 0 die (((readAt 0 c.parkUsed die : Nat) : Int) + n).toNat c.parkUsed }

/-- The parking region of a context on a die has room for n bytes. -/
def State.parkRoom (s : State) (ctx die n : Nat) : Bool :=
  match lookup ctx s.ctxs with
  | none => false
  | some c => readAt 0 c.parkUsed die + n ≤ c.park * 1048576

/-- Free a group's parking image. -/
def State.freeImage (s : State) (g : Group) : State :=
  if g.image then s.usePark g.ctx (dieOf g.core) (-(imageBytes g.frameSize : Int)) else s

/-! Promotion (R159). -/

/-- The entry with the least `since`, the lowest group number on a tie, and among teams the one admitted first.
(log 21) -/
def earliest (ps : List (Nat × Group)) : Option (Nat × Group) :=
  ps.foldl (fun b p => match b with
    | none => some p
    | some q =>
      if p.2.since < q.2.since || (p.2.since == q.2.since && p.2.num < q.2.num) then some p else b) none

/-- The active set of a core, principal or shade. -/
def State.activeSet (s : State) (core : Nat) (shade : Bool) : List (Nat × Group) :=
  s.groups.filter fun p => p.2.core == core && p.2.shade == shade && p.2.st == .active

/-- The Pending group that has been Pending longest, when an active-set slot is free. (log 21) -/
def State.promotable (s : State) (core : Nat) (shade : Bool) : Option (Nat × Group) :=
  if 8 ≤ (s.activeSet core shade).length then none
  else earliest (s.groups.filter fun p => p.2.core == core && p.2.shade == shade && p.2.st == .pending)

/-- The lowest free active-set slot. -/
def freeSlotOf (used : List Nat) (n : Nat) : Nat := ((List.range n).find? fun k => !used.contains k).getD 0

/-- ACTIVE_SET_ENTRY. -/
def execActiveSetEntry (core : Nat) (shade : Bool) (s : State) : Out :=
  match s.promotable core shade with
  | none => .fault .noSuchObject
  | some (gid, g) =>
    let slot := freeSlotOf ((s.activeSet core shade).map fun p => p.2.aslot) 8
    .next (s.setGroup gid { g.enter .active s.now with aslot := slot })

/-- Some handler waits for the trap view of group gid (R388). -/
def State.viewWanted (s : State) (gid : Nat) : Bool := s.groups.any fun p => p.2.wait == .view gid

/-- The group that waits longest for a frame: woken Parked groups, and trapped groups whose view is wanted. (log 21) -/
def State.unparkable (s : State) (core : Nat) (shade : Bool) : Option (Nat × Group) :=
  earliest (s.groups.filter fun p => p.2.core == core && p.2.shade == shade && !p.2.resident && !p.2.saved &&
    ((p.2.st == .parked && p.2.woken) || (p.2.st == .trapped && s.viewWanted p.1)))

/-- UNPARK: frame and state come back; the image is freed. -/
def execUnpark (core : Nat) (shade : Bool) (s : State) : Out :=
  match s.unparkable core shade with
  | none => .fault .noSuchObject
  | some (gid, g) =>
    if !s.roomFor core shade g.frameSize then .fault .noSuchObject
    else
      let g1 := { g with resident := true, image := false, woken := false }
      .next ((s.freeImage g).setGroup gid (if g.st == .parked then g1.enter .pending s.now else g1))

/-- A group with a frame that entered Waiting and whose dependence is open: Waiting, or Trapped since (Table 7-3).
(log 21) -/
def Group.waits (g : Group) : Bool :=
  g.st == .waiting || (g.st == .trapped && g.resident && !g.saved && g.wait != .none)

/-- The group that EVICTION parks: while some group is Waiting, the one that entered Waiting earliest, when the group
that waits longest for a frame finds no room and the parking region has room for the image. While that group has
matrix work outstanding, the eviction waits (Table 12-11). (log 21) -/
def State.evictable (s : State) (core : Nat) : Option (Nat × Group) :=
  match s.unparkable core false with
  | none => none
  | some (_, w) =>
    let ps := s.groups.filter fun p => p.2.core == core && !p.2.shade && p.2.waits
    if s.roomFor core false w.frameSize || !ps.any (fun p => p.2.st == .waiting) then none
    else match earliest ps with
      | none => none
      | some p =>
        if s.parkRoom p.2.ctx (dieOf core) (imageBytes p.2.frameSize) &&
            !(readAt [] s.mwork core).any (fun x => x.gid == p.1) then some p
        else none

/-- EVICTION: the frame is parked, and a Trapped group stays Trapped (Table 7-3). The image's bytes and its place in the
parking region, which R90 does not give, are not held: the frame stays with the group. (DESIGN CHOICE, log 21) -/
def execEviction (core : Nat) (s : State) : Out :=
  match s.evictable core with
  | none => .fault .noSuchObject
  | some (gid, g) =>
    let g1 := if g.st == .trapped then g else g.enter .parked s.now
    .next ((s.usePark g.ctx (dieOf core) (imageBytes g.frameSize)).setGroup gid
      { g1 with resident := false, image := true, woken := false })

/-! Retirement (R162, R163). -/

/-- Drained (R163). -/
def Group.drained (g : Group) : Bool := g.outstanding.isEmpty && g.pushes.isEmpty && g.remote == 0

/-- GROUP_RETIRE: with its results, pushes, remote accesses and matrix work drained (Table 7-3), the group's frame,
 resident slot and scheduling slot are freed. (log 45) -/
def execGroupRetire (gid : Nat) (s : State) : Out :=
  match lookup gid s.groups with
  | none => .fault .noSuchObject
  | some g =>
    if g.st == .exiting && g.drained && (readAt [] s.mwork g.core).all (fun w => w.gid != gid) then
      let s1 := { s.freeImage g with groups := eraseAt gid s.groups }
      .next (if g.handles.isSome then s1 else s1.modTeam g.team fun t => { t with left := t.left - 1 })
    else .fault .noSuchObject

/-! Handler groups (R383, R384). -/

/-- A new thread of a team (R156, R91). -/
def newThread (entry : Nat) : Thread := { pc := entry }

/-- The lowest free scheduling slot of a core (R162). -/
def State.freeSchedSlot (s : State) (core : Nat) : Option Nat :=
  let used := (s.groups.filter fun p => p.2.core == core).map fun p => p.2.slot
  (List.range 128).find? fun k => !used.contains k

/-- HANDLER_GROUP_START: the handler group of a trap starts as a team starts, and waits for its frame as a woken
Parked group does. Its code is translated then, and the translations are held until it ends (R345, R405). A page of it that
suspends is reported as an admission's is, and the start waits; where one fails, the trap is unhandled. (log 14) -/
def execHandlerGroupStart (gid : Nat) (s : State) : Out :=
  match lookup gid s.groups with
  | none => .fault .noSuchObject
  | some g =>
    match lookup g.ctx s.ctxs, s.freeSchedSlot g.core with
    | some c, some slot =>
      match c.handler with
      | some (d, code) =>
        match s.codePages g.ctx (deviceDies code.mode code.dev) code.base code.words with
        | (none, t) =>
          if g.st != .trapped || g.handler != .due then .fault .noSuchObject
          else match s.codeStop g.ctx (deviceDies code.mode code.dev) code.base code.words with
            | some (die, va, r) =>
              let f := t.fault die g.ctx va false g.core 0 0 3 r 0 0
              .next (f.2.setGroup gid { g with handler := .held (die * 4294967296 + f.1) })
            | none => .next ((t.logUnhandled g (g.record.getD [])).endGroups [gid])
        | (some pages, t) =>
        if g.st == .trapped && g.handler == .due then
          let hid := s.nextId
          let h : Group :=
            { core := g.core, slot := slot, team := g.team, num := g.num, ctx := g.ctx, shade := g.shade, priv := true
              handles := some gid, st := .parked, resident := false, woken := true, since := s.now
              regs := d.regs, tsz := d.tsz, accn := d.accn, code := { code with pages := pages }, ptab := 0 :: d.ptab, qbind := d.qbind
              threads := List.replicate 32 (newThread d.entry) }
          .next (({ t with nextId := t.nextId + 1 }.setGroup gid { g with handler := .running hid }).setGroup hid h)
        else .fault .noSuchObject
      | none => .fault .noSuchObject
    | _, _ => .fault .noSuchObject

/-! RESULT_WRITEBACK (R78). -/

def execResultWriteback (gid : Nat) (s : State) : Out :=
  match lookup gid s.groups with
  | none => .fault .noSuchObject
  | some _ => .next (s.land gid)

end Sys2Proof.Machine
end

