-- ==== Sys2Proof/Machine/Queues.lean ====
section
/-! DEFINITION. Hardware work queues: register blocks, fetches, the order in which a dispatcher serves entries, NOP,
WAITV and WRITEV entries (spec 14_queue.md R327 to R331, R494, 21_host_firmware.md R450). -/

namespace Sys2Proof.Machine

/-! Names (R327, R328, R450). -/

/-- The management queue of a die in a function. -/
def mgmtKey (func die : Nat) : Nat := 8192 + 4 * func + die
def isMgmt (q : Nat) : Bool := 8192 ≤ q

/-- The part has the queue (R2, R327, R450). (log 7) -/
def Part.hasQueue (p : Part) (q : Nat) : Bool :=
  if isMgmt q then q < 8192 + 4 * p.ports && q % 4 < p.dies.length else q < p.queues

def State.queue (s : State) (q : Nat) : Queue := (lookup q s.queues).getD {}
def State.setQueue (s : State) (q : Nat) (x : Queue) : State := { s with queues := writeAt {} q x s.queues }

/-- Queues of a device: the package number of local queue n. -/
def packageQueue (mode dev n : Nat) : Nat := dev * (8192 / mode) + n

/-- The home die of a queue in a device mode. (log 7, 37) -/
def queueDie (mode q : Nat) : Nat :=
  let per := 8192 / mode
  (deviceDies mode (q / per)).getD (q % per % (4 / mode)) 0

/-- The layout of the device that holds a queue: that of its dies, or mode 1 where they carry none. -/
def State.queueMode (s : State) (q : Nat) : Nat :=
  match lookup (s.queue q).ctx s.ctxs with
  | some c => c.mode
  | none => let m := (s.die (q / 2048 % 4)).mode
    if m == 2 || m == 4 then m else s.part.layout 1

/-- The die whose dispatcher, or controller, serves a queue. (log 37) -/
def State.homeDie (s : State) (q : Nat) : Nat := if isMgmt q then q % 4 else queueDie (s.queueMode q) q

/-- The host function that reaches a ring in host memory. -/
def State.queueFunc (s : State) (q : Nat) : Nat := if isMgmt q then (q - 8192) / 4 else s.funcOf (s.queue q).ctx

/-! States (Tables 14-1, 14-4). -/

/-- Lo(WR − RD) and Lo(WR − DONE). -/
def Queue.pending (x : Queue) : Nat := (x.wr + 4294967296 - x.rd) % 4294967296
def Queue.outstanding (x : Queue) : Nat := (x.wr + 4294967296 - x.done) % 4294967296

/-- A started entry that is neither complete nor ended. -/
def QEntry.live (e : QEntry) : Bool := e.started && !e.finished && !e.ended

/-- The fetched entry that has not started. -/
def Queue.next (x : Queue) : Option (Nat × QEntry) := x.entries.find? fun p => !p.2.started

/-- TYPE of an entry. -/
def QEntry.type (e : QEntry) : Nat := bitsOf (e.words.getD 0 0).toNat 24 8

/-- No kernel or copy node of a graph runs (R358). -/
def Graph.boundary (g : Graph) : Bool :=
  g.started.all fun n => g.done.contains n || g.ended.any (fun e => e.1 == n) ||
    2 ≤ bitsOf ((g.nodes.getD n []).getD 0 0).toNat 28 4

/-- The graph of an entry. -/
def State.graphOf (s : State) (q idx : Nat) : Option (Nat × Graph) :=
  s.graphs.find? fun p => p.2.q == q && p.2.idx == idx

/-- A started entry stands at a phase boundary (R494). (log 39) -/
def State.atBoundary (s : State) (q idx : Nat) (e : QEntry) : Bool :=
  !e.live || e.saved || e.type == 3 ||
    (e.type == 2 && (match s.graphOf q idx with
      | some g => g.2.boundary && g.2.ended.isEmpty
      | none => true))

/-- Enter Error; the first code is kept, and entries not yet started are dropped. (log 38) -/
def Queue.fail (x : Queue) (code idx : Nat) : Queue :=
  if x.st == .error then x
  else { x with st := .error, err := code, erridx := idx % 4294967296, fault := none
                entries := x.entries.filter fun p => p.2.started }

/-- OVERRUN (R329). (log 39) -/
def Queue.checkRun (x : Queue) : Queue :=
  if (x.st == .idle || x.st == .active || x.st == .suspended) && 2 ^ x.log2n < x.outstanding then x.fail 2 x.done else x

/-- Of a graph at a phase boundary its program index stays: address, completed nodes, condition words and passes (R358). (log 18) -/
def Graph.index (g : Graph) : Graph :=
  { q := g.q, idx := g.idx, ctx := g.ctx, addr := g.addr, nodes := [], cond := g.cond, waits := [], passes := g.passes
    started := g.done, done := g.done }

/-- Active passes to Suspended when it may (R331, R494); the graphs of its entries then stand at phase boundaries. -/
def State.settleQueue (s : State) (q : Nat) : State :=
  let x := s.queue q
  if x.st == .active && x.fault.isNone && x.susp && x.entries.all fun p => s.atBoundary q p.1 p.2 then
    { s.setQueue q { x with st := .suspended } with graphs := s.graphs.map fun p => if p.2.q == q then (p.1, p.2.index) else p }
  else s

/-- Active passes to Idle as its last started entry completes, where nothing is pending (Table 14-4). -/
def State.idleQueue (s : State) (q : Nat) : State :=
  let x := s.queue q
  if x.st == .active && x.fault.isNone && !x.susp && x.pending == 0 && x.next.isNone && x.entries.all (fun p => !p.2.live) then
    s.setQueue q { x with st := .idle }
  else s

/-- DONE follows the lowest entry that is not complete. -/
def Queue.advance : Nat → Queue → Queue
  | 0, x => x
  | fuel + 1, x =>
    match lookup x.done x.entries with
    | some e => if e.finished then
        Queue.advance fuel { x with entries := eraseAt x.done x.entries, done := (x.done + 1) % 4294967296 } else x
    | none => x

/-- An entry completes. -/
def State.completeEntry (s : State) (q idx : Nat) : State :=
  let x := s.queue q
  let x1 := { x with entries := modifyAt idx (fun e => { e with started := true, finished := true }) x.entries }
  ((s.setQueue q (Queue.advance (x1.entries.length + 1) x1)).idleQueue q).settleQueue q

/-- An entry error of a queue: Error, but for one that is Idle or Disabled, which does not change (Table 14-4). (log 38) -/
def Queue.entryError (x : Queue) (code idx : Nat) : Queue :=
  if x.st == .idle || x.st == .disabled then x else x.fail code idx

/-- An entry ends without completing. -/
def Queue.endEntry (x : Queue) (idx : Nat) : Queue :=
  { x with entries := modifyAt idx (fun e => { e with started := true, ended := true, fault := none }) x.entries }

/-- An entry fails: it never completes, and its queue enters Error. (log 38) -/
def State.failEntry (s : State) (q idx code : Nat) : State := s.setQueue q (((s.queue q).endEntry idx).entryError code idx)

/-! Register writes (Table 14-4). -/

/-- EN := 1. -/
def State.enableQueue (s : State) (q : Nat) : State :=
  let x := s.queue q
  if x.st != .disabled then s
  else if x.log2n < 4 || 16 < x.log2n || (if isMgmt q then x.space else x.ctx == 0) then s.setQueue q (x.fail 3 0)
  else
    let st := if x.pending != 0 then QueueSt.active else .idle
    (s.setQueue q ({ x with st := st }.checkRun)).settleQueue q

/-- EN := 0. -/
def State.disableQueue (s : State) (q : Nat) : State :=
  let x := s.queue q
  match x.st with
  | .idle => s.setQueue q { x with st := .disabled }
  | .error =>
    if x.entries.any fun p => p.2.live then s
    else s.setQueue q { x with st := .disabled, rd := x.wr, done := x.wr, err := 0, erridx := 0, entries := [], fault := none }
  | _ => s

/-- SUSP := 1. (log 39) -/
def State.suspendQueue (s : State) (q : Nat) : State :=
  let x := { s.queue q with susp := true }
  (s.setQueue q (if x.st == .idle then { x with st := .suspended } else x)).settleQueue q

/-- SUSP := 0. -/
def State.unsuspendQueue (s : State) (q : Nat) : State :=
  let x := { s.queue q with susp := false }
  (s.setQueue q (if x.st == .suspended then { x with st := if x.pending != 0 then .active else .idle } else x)).settleQueue q

/-- The doorbell (R329). -/
def State.ring (s : State) (q : Nat) (wr : Word) : State :=
  let x := { s.queue q with wr := wr.toNat }
  let y : Queue := { x with st := if x.st == .idle then .active else x.st }
  (s.setQueue q y.checkRun).settleQueue q

/-! Writes of a register of a queue; a write to the block of a queue that the part lacks is ignored (R450). -/

def execWqEnable (q : Nat) (s : State) : Out := .next (if s.part.hasQueue q then s.enableQueue q else s)
def execWqDisable (q : Nat) (s : State) : Out := .next (if s.part.hasQueue q then s.disableQueue q else s)
def execWqSuspend (q : Nat) (s : State) : Out := .next (if s.part.hasQueue q then s.suspendQueue q else s)
def execWqUnsuspend (q : Nat) (s : State) : Out := .next (if s.part.hasQueue q then s.unsuspendQueue q else s)
def execDoorbell (q : Nat) (wr : Word) (s : State) : Out := .next (if s.part.hasQueue q then s.ring q wr else s)

/-- A write of a word of a register block; reserved bits and read-only words are ignored (R11). -/
def State.writeBlock (s : State) (q off : Nat) (w : Word) : State :=
  let x := s.queue q
  let v := w.toNat
  match off with
  | 0 =>
    let s1 := if isMgmt q then s else s.setQueue q { x with prio := bitsOf v 16 3 }
    let s2 := if bitOf v 31 then s1.enableQueue q else s1.disableQueue q
    if bitOf v 30 then s2.suspendQueue q else s2.unsuspendQueue q
  | 4 => if x.st == .disabled then s.setQueue q { x with space := bitOf v 31, log2n := v % 32 } else s
  | 8 => if x.st == .disabled then s.setQueue q { x with base := x.base / 4294967296 * 4294967296 + v } else s
  | 12 => if x.st == .disabled then s.setQueue q { x with base := v * 4294967296 + x.base % 4294967296 } else s
  | 16 => s.ring q w
  | _ => s

/-- The block that an offset of a function's BAR lies in, and the offset there (R450); no block of a queue, die or
function that the part lacks. (log 7) -/
def blockAt (part : Part) (func off : Nat) : Option (Nat × Nat) :=
  if part.ports ≤ func then none
  else if 0x10000 ≤ off && off < 0x10000 + 64 * part.dies.length then some (mgmtKey func ((off - 0x10000) / 64), off % 64)
  else if 0x100000 ≤ off && off < 0x100000 + 64 * part.queues then some ((off - 0x100000) / 64, off % 64)
  else none

/-- REGISTER_WRITE: the host writes a word of a function's BAR. -/
def execRegisterWrite (func off : Nat) (w : Word) (s : State) : Out :=
  .next (match blockAt s.part func off with
    | some (q, o) => s.writeBlock q (o / 4 * 4) w
    | none => s)

/-- What a word of a register block reads as (Table 14-1). -/
def State.readBlock (s : State) (q off : Nat) : Nat :=
  let x := s.queue q
  match off with
  | 0 => (x.st != .disabled).toNat * 2147483648 + x.susp.toNat * 1073741824 +
      (if isMgmt q then 0 else x.prio * 65536 + x.ctx)
  | 4 => x.space.toNat * 2147483648 + x.log2n
  | 8 => x.base % 4294967296
  | 12 => x.base / 4294967296
  | 16 => x.wr
  | 20 => x.rd
  | 24 => x.done
  | 28 => x.err * 16777216 + x.st.code
  | 32 => x.erridx
  | _ => 0

/-! Reads and writes of a dispatcher (R329, R405, R447). -/

/-- What became of a read. -/
inductive Fetched where
  | got (bytes : List Byte) (psn : Bool) (s : State)
  | suspend (reason : Nat) (s : State)
  | fail (s : State)
  /-- no path is Up now -/
  | hold

/-- The dispatcher of a die as an agent: its traffic is not debited. -/
def dispatcher (die ctx : Nat) : Agent := { ctx := ctx, core := die * 256, free := true }

/-- Read n bytes at a place, in pieces of 32. -/
def State.readPieces (s : State) (a : Agent) (n : Nat) (p : Place) : List Byte × Bool × State :=
  (List.range ((n + 31) / 32)).foldl (fun r i =>
    let q := match p with
      | .dev st o => Place.dev st (o + 32 * i)
      | .host x => Place.host (x + 32 * i)
    let g := r.2.2.read a (min 32 (n - 32 * i)) q
    (r.1 ++ g.1.bytes, r.2.1 || g.1.psn, g.2)) ([], false, s)

/-- Read n bytes of host memory through a function, by bus address: no page of a context, so no counter table counts it
(R413). (log 33) -/
def State.fetchHost (s : State) (die func a n : Nat) : Fetched :=
  match s.portReach die func a with
  | .wait => .hold
  | .down => .fail s
  | .ok => .got ((List.range n).map fun i => s.hostByte (a + i)) (s.hostBad a n) s

/-- Read n bytes, within one 4 KiB block and 32-byte aligned or short, at a device address under its translation. -/
def Agent.fetch (a : Agent) (va n : Nat) (r : Outcome × State) : Fetched :=
  match r with
  | (.suspend r, t) => .suspend r t
  | (.fail _, t) => .fail t
  | (.ok l, t) =>
    match t.placeOf a.ctx (l.xl va) va with
    | none => .fail t
    | some p =>
      match t.placeReach a.ctx (dieOf a.core) p with
      | .wait => .hold
      | .down => .fail t
      | .ok => let r := t.readPieces a n p
        .got r.1 (r.2.1 || l.psn) r.2.2

/-- A dispatcher's reading of n bytes of a context. -/
def State.fetchDev (s : State) (die ctx va n : Nat) : Fetched := (dispatcher die ctx).fetch va n (s.walk die ctx va .read)

/-- Write up to 32 bytes at a device address. A write that no route carries is discarded (R236). -/
def State.storeDev (s : State) (die ctx va : Nat) (bytes : List Byte) (psn : Bool) : Fetched :=
  match s.walk die ctx va .write with
  | (.suspend r, t) => .suspend r t
  | (.fail _, t) => .fail t
  | (.ok l, t) =>
    match t.placeOf ctx (l.xl va) va with
    | none => .fail t
    | some p =>
      match t.placeReach ctx die p with
      | .wait => .hold
      | .down => .got [] false t
      | .ok => .got [] false (t.write (dispatcher die ctx) bytes psn p)

/-- The words of a byte string. -/
def wordsOfBytes (bs : List Byte) : List Word :=
  (List.range (bs.length / 4)).map fun i => BitVec.ofNat 32 (leNat (fun j => bs.getD (4 * i + j) 0) 4)

/-- The fault record of a queue's fetch, or of an entry's address (SRC 2). (log 37) -/
def State.queueFault (s : State) (q ctx va : Nat) (write : Bool) (reason : Nat) : Nat × State :=
  s.fault (s.homeDie q) ctx va write 0 0 0 2 reason 0 0

/-- Entry words hold the 64-bit number at word i. -/
def QEntry.num (e : QEntry) (i : Nat) : Nat := (e.words.getD i 0).toNat + 4294967296 * (e.words.getD (i + 1) 0).toNat

/-! WQ_ENTRY_FETCH (R329, R330). -/

/-- Reserved words of an entry by TYPE. -/
def reservedWords : Nat → List Nat
  | 0 => [2, 3, 4, 5, 6, 7, 8, 9]
  | 1 => [9]
  | 2 => [4, 5, 6, 7, 8, 9]
  | _ => [6, 7, 8, 9]

/-- Alignment of the address that an entry of a TYPE names (R330, R344, R354). -/
def entryAlign : Nat → Nat
  | 0 => 1
  | 1 => 128
  | 2 => 64
  | _ => 8

/-- BADENTRY (R330). -/
def entryBad (e : QEntry) : Bool :=
  let w := fun i => (e.words.getD i 0).toNat
  5 ≤ e.type || w 0 % 8388608 != 0 || w 1 != 0 || (List.range 6).any (fun i => w (10 + i) != 0) ||
    (reservedWords e.type).any (fun i => w i != 0) || w 2 % entryAlign e.type != 0

/-- Address of an entry. -/
def Queue.entryAddr (x : Queue) (idx : Nat) : Nat := x.base + 64 * (idx % 2 ^ x.log2n)

/-- The management controller of a die runs: its firmware is verified and its memories are wiped, or it is in recovery
(R455, R457). -/
def Die.controls (d : Die) : Bool := d.phase != .boot && d.phase != .wiping

/-- The status that a die's state gives a management command, if it does (R453, R455). -/
def Die.refuses (d : Die) (code : Nat) : Option Nat :=
  if d.warmed then some 3 else if (d.phase == .recovery || d.rejected) && code != 15 then some 1 else none

/-- A controller reaches host memory through a port that is up, whatever the dies' other logic does. (log 33) -/
def State.portUp (s : State) (func : Nat) : Bool := (lookup func s.portDown).isNone

/-- Bytes of host memory as a controller reads them, and whether any is poisoned. (log 5) -/
def State.hostBytes (s : State) (a n : Nat) : List Byte × Bool :=
  ((List.range n).map fun i => s.hostByte (a + i), s.hostBad a n)

/-- A controller writes bytes of host memory; with the port down they are discarded (R236). -/
def State.mgmtWrite (s : State) (func a : Nat) (bytes : List Byte) : State :=
  if s.portUp func then s.hostWrite a bytes false else s

/-- A management entry completes: STATUS goes to word 12 and results to words 13 to 15 (R452). -/
def State.answer (s : State) (q idx status : Nat) (results : List Nat) : State :=
  let at_ := (s.queue q).entryAddr idx + 48
  let words := (status :: results) ++ List.replicate (3 - results.length) 0
  let bytes := words.flatMap fun w => (List.range 4).map fun i => byteOf w i
  (s.mgmtWrite (s.queueFunc q) at_ bytes).completeEntry q idx

/-- A queue's dispatcher may fetch its next entry: the one before it has started. (log 37) -/
def State.mayFetch (s : State) (q : Nat) : Bool :=
  let x := s.queue q
  x.st == .active && !x.susp && x.fault.isNone && x.pending != 0 &&
    (if isMgmt q then x.entries.isEmpty && (s.die (q % 4)).controls else x.next.isNone && s.dieReady (s.homeDie q))

/-- WQ_ENTRY_FETCH: the next entry, and with a KERNEL entry its descriptor, which is read here and not again (R344).
(log 37) -/
def execWqEntryFetch (q : Nat) (s : State) : Out :=
  if !s.mayFetch q then .fault .noSuchObject
  else
    let x := s.queue q
    let d := s.homeDie q
    let a := x.entryAddr x.rd
    let x1 := { x with rd := (x.rd + 1) % 4294967296 }
    let got := if isMgmt q then
        (if s.portUp (s.queueFunc q) then .got (s.hostBytes a 64).1 (s.hostBytes a 64).2 s else .fail s)
      else if x.space then s.fetchDev d x.ctx a 64 else s.fetchHost d (s.queueFunc q) a 64
    match got with
    | .hold => .next s
    | .suspend r t => let f := t.queueFault q x.ctx a false r
      .next (f.2.setQueue q { x with fault := some f.1 })
    | .fail t => .next (t.setQueue q (x1.fail 5 x.rd))
    | .got bs psn t =>
      let e : QEntry := { words := wordsOfBytes bs, seq := t.nextId }
      let put := fun (u : State) (e : QEntry) =>
        ({ u with nextId := t.nextId + 1 } : State).setQueue q { x1 with entries := insertAt x.rd e x.entries }
      if psn then .next (t.setQueue q (x1.fail 5 x.rd))
      else if isMgmt q then
        -- an unlisted CODE is answered as it is fetched (R453)
        .next (if e.type == 0 || 16 < e.type then (put t e).answer q x.rd (((s.die d).refuses e.type).getD 2) [] else put t e)
      else if entryBad e then .next (t.setQueue q (x1.fail 1 x.rd))
      else if e.type != 1 then .next (put t e)
      else match t.fetchDev d x.ctx (e.num 2) 128 with
        | .hold => .next s
        | .suspend r u => let f := u.queueFault q x.ctx (e.num 2) false r
          .next (f.2.setQueue q { x with fault := some f.1 })
        | .fail u => .next (put u e)
        | .got ds dpsn u => .next (put u { e with desc := if dpsn then none else some (wordsOfBytes ds) })

/-! The order of starts (R330). -/

/-- The fetched entry of a queue is ready to start: BAR entries and WRITEV wait for all before them. (log 37) -/
def State.startable (s : State) (q : Nat) : Bool :=
  let x := s.queue q
  !isMgmt q && (x.st == .active || x.st == .idle) && !x.susp && s.dieReady (s.homeDie q) &&
    match x.next with
    | some (idx, e) => e.fault.isNone && (!(bitOf (e.words.getD 0 0).toNat 23 || e.type == 4) || x.done == idx)
    | none => false

/-- The queue that a die's dispatcher serves next: highest PRIO, equal ones in rotation. (log 37) -/
def State.chosenQueue (s : State) (die : Nat) : Option Nat :=
  let ready := s.queues.filter fun p => s.homeDie p.1 == die && s.startable p.1
  let top := ready.foldl (fun m p => max m p.2.prio) 0
  let best := (ready.filter fun p => p.2.prio == top).map (·.1)
  match best.find? fun q => readAt 0 s.lastQueue die < q with
  | some q => some q
  | none => best.head?

/-- Start the fetched entry of a queue, if its dispatcher has come to it and it has the type given. -/
def State.startEntry (s : State) (q idx ty : Nat) (go : QEntry → State → State) : Out :=
  match (s.queue q).next with
  | some (i, e) =>
    if i == idx && e.type == ty && s.chosenQueue (s.homeDie q) == some q then
      .next (go e { s with lastQueue := insertAt (s.homeDie q) q s.lastQueue })
    else .fault .noSuchObject
  | none => .fault .noSuchObject

/-- An entry has started. -/
def State.entryStarted (s : State) (q idx : Nat) : State :=
  let x := s.queue q
  s.setQueue q { x with entries := modifyAt idx (fun e => { e with started := true }) x.entries }

/-- An address of an entry suspends: the entry waits for its fault record. -/
def State.entryFault (s : State) (q idx ctx va : Nat) (write : Bool) (reason : Nat) : State :=
  let f := s.queueFault q ctx va write reason
  let x := f.2.queue q
  f.2.setQueue q { x with entries := modifyAt idx (fun e => { e with fault := some f.1 }) x.entries }

def execNopEntry (q idx : Nat) (s : State) : Out := s.startEntry q idx 0 (fun _ t => t.completeEntry q idx)

/-- WAITV starts; its first reading follows. -/
def execWaitvEntry (q idx : Nat) (s : State) : Out :=
  s.startEntry q idx 3 fun _ t =>
    let x := t.queue q
    t.setQueue q { x with entries := modifyAt idx (fun e => { e with started := true, reread := t.now }) x.entries }

/-- WriteBack, or DropCopies, on every die of a context's device: a release, or an acquire, at system scope by a
dispatcher. (log 20) -/
def State.releaseAll (s : State) (ctx : Nat) : State := s.writeBackWhere fun c => c.ctx == ctx
/-- See assumption log 20. -/
def State.acquireAll (s : State) (ctx : Nat) : State := s.dropWhere fun c => c.ctx == ctx

/-- WRITEV writes its value, as a release at system scope. (log 38) -/
def execWritevEntry (q idx : Nat) (s : State) : Out :=
  s.startEntry q idx 4 fun e t =>
    let ctx := (t.queue q).ctx
    match (t.releaseAll ctx).storeDev (t.homeDie q) ctx (e.num 2) ((List.range 8).map fun i => byteOf (e.num 4) i) false with
    | .hold => t
    | .suspend r u => u.entryFault q idx ctx (e.num 2) true r
    | .fail u => u.failEntry q idx 5
    | .got _ _ u => u.completeEntry q idx

/-- The line that a WAITV watches: the home line of its address. -/
def State.waitLine (s : State) (die ctx va : Nat) : Option (Nat × Nat) :=
  match s.walk die ctx va .read with
  | (.ok l, _) => match s.placeOf ctx (l.xl va) va with
    | some (.dev st o) => some (st, o / 128)
    | _ => none
  | _ => none

/-- A started WAITV may read its address. (log 39) -/
def State.mayReread (s : State) (q idx : Nat) : Bool :=
  let x := s.queue q
  match lookup idx x.entries with
  | some e => e.live && e.type == 3 && e.fault.isNone && !isMgmt q && s.dieReady (s.homeDie q) &&
      (((x.st == .active || x.st == .idle) && !x.susp) || x.st == .error)
  | none => false

/-- WAITV_REREAD. -/
def execWaitvReread (q idx : Nat) (s : State) : Out :=
  match lookup idx (s.queue q).entries with
  | none => .fault .noSuchObject
  | some e =>
    if !s.mayReread q idx then .fault .noSuchObject
    else
      let ctx := (s.queue q).ctx
      let d := s.homeDie q
      match s.fetchDev d ctx (e.num 2) 8 with
      | .hold =>
        let x := s.queue q
        .next (s.setQueue q { x with entries := modifyAt idx (fun e : QEntry => { e with reread := s.now + 1 }) x.entries })
      | .suspend r u => .next (u.entryFault q idx ctx (e.num 2) false r)
      | .fail u => .next (u.failEntry q idx 5)
      | .got bs psn u =>
        if psn then .next (u.failEntry q idx 5)
        else if e.num 4 ≤ leNat (fun i => bs.getD i 0) 8 then .next ((u.acquireAll ctx).completeEntry q idx)
        else
          let line := u.waitLine d ctx (e.num 2)
          let x := u.queue q
          let es := modifyAt idx (fun e : QEntry => { e with reread := u.now + 4096, line := line }) x.entries
          .next (u.setQueue q { x with entries := es })

end Sys2Proof.Machine
end

