-- ==== Sys2Proof/Machine/Tasks.lean ====
section
/-! DEFINITION. The task instructions, and the instructions over dependence counters and condition words (spec
14_queue.md R334 to R340, 15_kernel.md R349 to R352, R356). -/

namespace Sys2Proof.Machine

/-- The operand words of the lowest enabled lane; none with no enabled lane. A poisoned word traps (R335, R350). -/
def View.lowest (v : View) (r n : Nat) : Except Stop (Option (List Word)) :=
  match v.first with
  | none => .ok none
  | some L =>
    let ws := (List.range n).map fun i => v.g.reg L (r + i)
    match ws.find? (·.psn) with
    | some _ => .error (poisonTrap (maskOf (· == L)))
    | none => .ok (some (ws.map (·.val)))

/-- The object-operand trap of a word that acts for the whole group. -/
def objectTrap (v : View) : Stop := .trap { kind := 10, tmask := v.en }

/-- TKPUT waits for the release and for a free slot (R336). (log 22) -/
def execTkput (ar : Reg) (s : State) : Out :=
  runWord s fun v => do
    match ← v.lowest ar.val 5 with
    | none => .ok s
    | some r =>
      if !recordOk v.g.code.words r then .error (objectTrap v)
      else
        v.release
        if s.slotRoom (s.clusterOf v.g) == 0 then .error (.stall .tkput)
        else .ok ((s.postTask (s.clusterOf v.g) r).spend v.g.team)

/-- TKGET parks; its grant is taken when the wait ends (R337). (log 22) -/
def execTkget (try_ : Bool) (d : Reg) (s : State) : Out :=
  runWord s fun v => do
    if v.lanes.isEmpty then .ok s
    else
      v.acquire
      .ok ((s.spend v.g.team).waitFor v (.tkget v.o (v.lanes.map fun L => v.g.regIdx L d.val) try_))

/-- TKDONE reports iterations done (R338); a count that would reach 0 in a slot with a pending range traps (Table 14-6).
-/
def execTkdone (ar : Reg) (s : State) : Out :=
  runWord s fun v => do
    match ← v.lowest ar.val 2 with
    | none => .ok s
    | some r =>
      let hd := recWord r 0
      let n := recWord r 1
      match lookup (s.clusterOf v.g) s.clusters with
      | none => .error (objectTrap v)
      | some k =>
        let t := k.slot (hd % 64)
        let pending := recWord t.task 2 - t.next
        if !t.full || t.gen != hd / 65536 || t.remain < n || (n != 0 && t.remain == n && pending != 0) then .error (objectTrap v)
        else
          v.release
          let s1 := s.modCluster (s.clusterOf v.g) fun c => c.setSlot (hd % 64) { t with remain := t.remain - n }
          .ok ((if n != 0 && t.remain == n then s1.doChores (s.clusterOf v.g) [.retire (hd % 64)] else s1).spend v.g.team)

/-- A try of a waiting TKGET: the grant is written to every lane of its word (R337). (log 22) -/
def State.tryTkget (s : State) (gid : Nat) (g : Group) (dsts : List Nat) (try_ : Bool) : State :=
  match lookup (s.clusterOf g) s.clusters with
  | none => s
  | some k =>
    match k.get try_ with
    | none => s
    | some (ws, k1) =>
      (s.modCluster (s.clusterOf g) fun _ => k1).wakeWith gid
        (dsts.flatMap fun d => (List.range 5).map fun i => (d + 32 * i, PWord.ok (ws.getD i 0)))

/-! Dependence counters. -/

/-- DCSET arms a counter, or posts its task at once, for which it waits as TKPUT does (R336, R351). (log 22) -/
def execDcset (ar : Reg) (s : State) : Out :=
  runWord s fun v => do
    match ← v.lowest ar.val 7 with
    | none => .ok s
    | some ws =>
      let w := recWord ws 0
      let n := recWord ws 1
      let r := ws.drop 2
      let cl := s.clusterOf v.g
      let armed := match lookup cl s.clusters with
        | some k => (lookup (w % 256) k.counters).isSome
        | none => true
      if bitsOf w 8 23 != 0 || 16777216 ≤ n || (bitOf w 31 && !recordOk v.g.code.words r) || armed then
        .error (objectTrap v)
      else
        v.release
        let task := if bitOf w 31 then some r else none
        if n != 0 then
          .ok ((s.modCluster cl fun k => { k with counters := insertAt (w % 256) ⟨n, task⟩ k.counters }).spend v.g.team)
        else match task with
          | none => .ok (s.spend v.g.team)
          | some r => if s.slotRoom cl == 0 then .error (.stall .tkput) else .ok ((s.postTask cl r).spend v.g.team)

/-- DCDEC: every enabled lane decrements its counter, ascending (R352). -/
def execDcdec (o : OpA) (s : State) : Out :=
  runWord s fun v => do
    let (a, s1) ← s.operand v o.ap.val o.ar.val
    let bad := maskOf fun L => v.on L && (a L).psn
    if bad != 0 then .error (poisonTrap bad)
    else
      operandTrap v (fun L => 256 ≤ (a L).val.toNat)
      if v.lanes.isEmpty then .ok s1
      else
        v.release
        .ok ((v.lanes.foldl (fun t L => t.decrement (s.clusterOf v.g) (a L).val.toNat) s1).spend v.g.team)

/-- GCOND writes a condition word of the graph that launched the kernel (R356). -/
def execGcond (n : Fin 8) (o : OpA) (s : State) : Out :=
  runWord s fun v => do
    let (a, s1) ← s.operand v o.ap.val o.ar.val
    match ← v.single a with
    | none => .ok s1
    | some (_, x) =>
      .ok (match lookup (s.kernelOf v.g) s.kernels with
        | some k => match k.owner with
          | .node gr _ => { s1 with graphs := modifyAt gr (fun g => { g with cond := g.cond.set n.val x }) s1.graphs }
          | .entry _ _ => s1
        | none => s1)

end Sys2Proof.Machine
end

