-- ==== Sys2Proof/Machine/Kernels.lean ====
section
/-! DEFINITION. Kernels: descriptors and their checks, launches, admission and placement of clusters, LAUNCH, the end
of teams, clusters and kernels (spec 15_kernel.md R344 to R348, R353, R359, R360, 01_machine.md R29, 16 R363, R369,
R370). -/

namespace Sys2Proof.Machine

/-! Descriptors (R344, R345). -/

/-- A descriptor's words as a kernel descriptor, whatever they hold. -/
def parseDesc (w : Nat → Nat) : KDesc :=
  { const := w 16 + 4294967296 * w 17, prio := w 12 % 8, noCkpt := bitsOf (w 12) 4 2 == 1
    arglen := w 11, argoff := w 10 % 262144, scratch := w 9 % 64
    w := w 8 % 16 + 1, h := bitsOf (w 8) 4 4 + 1, g := bitsOf (w 8) 8 5 + 1
    qbind := (List.range 4).map fun i => byteOf (w 7) i
    ptab := (List.range 7).map fun i => byteOf (w (5 + i / 4)) (i % 4)
    regs := bitsOf (w 4) 8 8, tsz := bitsOf (w 4) 23 9, accn := bitsOf (w 4) 18 5
    entry := w 3, codew := w 2, code := w 0 + 4294967296 * w 1 }

/-- Bytes of a frame (R88). -/
def KDesc.frame (d : KDesc) : Nat := 128 * d.regs + 256 * d.tsz + 8192 * d.accn

/-- A binding that Table 4-3 and the context's EMASK allow (R363). -/
def bindingOk (emask : Nat) (c : Byte) : Bool :=
  bindOk c && (!(c.toNat / 32 == 1 || c.toNat / 32 == 2) || bitOf emask (c.toNat % 4))

/-- A view word breaks its limits (R87). -/
def viewBad (v : Nat) : Bool :=
  256 < bitsOf v 23 9 || 16 < bitsOf v 18 5 || bitsOf v 16 2 != 0 || v % 256 != 0 ||
    bitsOf v 8 8 % 4 != 0 || bitsOf v 8 8 < 28 || 128 < bitsOf v 8 8

/-- The descriptor error (R345, R363, R370); the code region is checked apart. -/
def descBad (emask : Nat) (shade : Bool) (w : Nat → Nat) : Bool :=
  let d := parseDesc w
  viewBad (w 4) || w 6 / 16777216 != 0 || w 13 != 0 || w 14 != 0 || w 15 != 0 ||
    (List.range 14).any (fun i => w (18 + i) != 0) ||
    w 0 % 256 != 0 || d.codew % 3 != 0 || d.codew < 3 || 16777216 < d.codew || d.entry % 3 != 0 || d.codew ≤ d.entry ||
    w 8 / 8192 != 0 || 96 < d.w * d.h || 32 < w 9 || 262144 ≤ w 10 || w 10 % 16 != 0 || d.arglen % 16 != 0 ||
    4096 < d.arglen || w 12 % 64 != w 12 || bitOf (w 12) 3 || 1 < bitsOf (w 12) 4 2 || 393216 < d.frame ||
    (d.arglen != 0 && d.scratch == 0) || (d.scratch != 0 && 8192 * d.scratch < d.argoff + 16 + d.arglen) ||
    d.qbind.any (fun c => !bindingOk emask c) || (shade && (d.w * d.h != 1 || d.scratch != 0 || d.arglen != 0))

/-- What became of a launch. -/
inductive Launched where
  | ok (s : State)
  | refused (s : State)
  | suspend (va reason : Nat) (s : State)
  | hold

/-- A descriptor of a context at an address: its fields and code, checked. -/
inductive Described where
  | ok (d : KDesc) (c : Code) (s : State)
  | refused (s : State)
  | suspend (va reason : Nat) (s : State)
  | hold

/-- Check the words of a descriptor and hold the translations of its code (R345). (log 38) -/
def State.checkDesc (s : State) (ctx : Nat) (ws : List Word) : Described :=
  match lookup ctx s.ctxs with
  | none => .refused s
  | some c =>
    let w := fun i => (ws.getD i 0).toNat
    if descBad c.emask c.shade w then .refused s
    else
      let d := parseDesc w
      match s.codePages ctx (deviceDies c.mode c.dev) d.code d.codew with
      | (none, u) => .refused u
      | (some ps, u) => .ok d ⟨d.code, d.codew, ps, c.mode, c.dev, c.func⟩ u

/-- Read and check a descriptor. (log 38) -/
def State.describe (s : State) (die ctx va : Nat) : Described :=
  if va % 128 != 0 then .refused s
  else match s.fetchDev die ctx va 128 with
    | .hold => .hold
    | .suspend r t => .suspend va r t
    | .fail t => .refused t
    | .got bs psn t => if psn then .refused t else t.checkDesc ctx (wordsOfBytes bs)

/-- A launch of a descriptor over a grid (R346), in the order of fetch that `seq` gives (R369). -/
def Described.launch (r : Described) (ctx arga gx gy gz seq : Nat) (o : Owner) : Launched :=
  match r with
  | .hold => .hold
  | .suspend a r t => .suspend a r t
  | .refused t => .refused t
  | .ok d c t =>
    let dim := fun n => n == 0 || 65536 < n
    if dim gx || dim gy || dim gz || 2147483648 < gx * gy * gz then .refused t
    else
      let k : Kernel := { desc := d, code := c, gx := gx, gy := gy, gz := gz, arga := arga, ctx := ctx, owner := o, seq := seq }
      .ok { t with kernels := insertAt t.nextId k t.kernels, nextId := t.nextId + 1 }

/-- KERNEL_ENTRY: the launch of the descriptor that was read with the entry. -/
def execKernelEntry (q idx : Nat) (s : State) : Out :=
  s.startEntry q idx 1 fun e t =>
    let ctx := (t.queue q).ctx
    let w := fun i => (e.words.getD i 0).toNat
    let r : Described := match e.desc with
      | none => .refused t
      | some ws => t.checkDesc ctx ws
    match r.launch ctx (e.num 4) (w 6) (w 7) (w 8) e.seq (.entry q idx) with
    | .hold => t
    | .suspend va r u => u.entryFault q idx ctx va false r
    | .refused u => u.failEntry q idx 4
    | .ok u => u.entryStarted q idx

/-! Placement (R347, R363). -/

/-- Granules of a core that live teams hold. -/
def State.granulesHeld (s : State) (core : Nat) : List (Nat × Nat) :=
  s.teams.filterMap fun p =>
    if p.2.live && p.2.core == core && p.2.granules != 0 then some (p.2.base, p.2.granules) else none

/-- The lowest free run of n granules. -/
def State.freeRun (s : State) (core n : Nat) : Option Nat :=
  let held := s.granulesHeld core
  (List.range (33 - n)).find? fun b => held.all fun h => b + n ≤ h.1 || h.1 + h.2 ≤ b

/-- Groups of a team that admission places Pending on a core; the rest start Parked. -/
def State.placed (s : State) (core : Nat) (shade : Bool) (d : KDesc) : Nat :=
  let rs := s.residents core shade
  let room := bankBytes shade - rs.foldl (fun n p => n + p.2.frameSize) 0
  min d.g (min (32 - rs.length) (room / d.frame))

/-- No other context with an overlapping EMASK has a team on a core (R363). (log 42) -/
def State.enginesFree (s : State) (core ctx : Nat) : Bool :=
  let mask := fun t => match lookup t s.ctxs with
    | some c => c.emask
    | none => 0
  s.teams.all fun p => !p.2.live || p.2.core != core || p.2.ctx == ctx || Nat.land (mask p.2.ctx) (mask ctx) == 0

/-- A core can take a team (R347). -/
def State.coreFits (s : State) (core ctx : Nat) (shade : Bool) (d : KDesc) : Bool :=
  !(s.core core).out && s.groups.countP (fun p => p.2.core == core) + d.g ≤ 128 &&
    (s.freeRun core d.scratch).isSome && 1 ≤ s.placed core shade d && s.enginesFree core ctx

/-- Cores of a rectangle on a die, by rank. -/
def rectangle (die x y w h : Nat) : List Nat :=
  (List.range (w * h)).map fun r => die * 256 + (y + r / w) * 16 + x + r % w

/-- The cores that admissions in progress have reserved (R348). (log 41) -/
def State.reservedCores (s : State) : List Nat :=
  s.kernels.flatMap fun p => match p.2.place with
    | some q => rectangle q.1 q.2.1 q.2.2 p.2.desc.w p.2.desc.h
    | none => []

/-- Cores of a die can take the teams of a cluster, and the parking region the images (R347). -/
def State.coresFit (s : State) (die ctx : Nat) (shade : Bool) (d : KDesc) (cs : List Nat) : Bool :=
  cs.all (fun c => s.coreFits c ctx shade d) && (shade ||
    s.parkRoom ctx die (cs.foldl (fun n c => n + (d.g - s.placed c shade d) * imageBytes d.frame) 0))

/-- The first fitting origin on a die, by row, then column. -/
def State.origin (s : State) (die ctx : Nat) (shade : Bool) (d : KDesc) : Option (Nat × Nat) :=
  let taken := s.reservedCores
  let fits := fun (p : Nat × Nat) =>
    let cs := rectangle die p.1 p.2 d.w d.h
    cs.all (fun c => !taken.contains c) && s.coresFit die ctx shade d cs
  ((List.range (17 - d.h)).flatMap fun y => (List.range (17 - d.w)).map fun x => (x, y)).find? fits

/-- Live teams of a die. -/
def State.teamCount (s : State) (die : Nat) : Nat := s.teams.countP fun p => p.2.live && dieOf p.2.core == die

/-- The die and origin of a kernel's next cluster (R29, R347): the fitting die with the fewest teams, or the place that
its admission has reserved (R348). (log 41) -/
def State.placeFor (s : State) (k : Kernel) : Option (Nat × Nat × Nat) :=
  match lookup k.ctx s.ctxs, k.place with
  | none, _ => none
  | some c, some p =>
    if s.dieReady p.1 && s.coresFit p.1 k.ctx c.shade k.desc (rectangle p.1 p.2.1 p.2.2 k.desc.w k.desc.h) then some p
    else none
  | some c, none =>
    ((deviceDies c.mode c.dev).filter s.dieReady).foldl (fun b die =>
      match s.origin die k.ctx c.shade k.desc with
      | none => b
      | some o => match b with
        | none => some (die, o)
        | some x => if s.teamCount die < s.teamCount x.1 then some (die, o) else b) none

/-- The clusters of a kernel's grid. -/
def Kernel.total (k : Kernel) : Nat := k.gx * k.gy * k.gz

/-- A live team on a die of the device of kernel k. -/
def State.deviceBusy (s : State) (k : Kernel) : Bool :=
  match lookup k.ctx s.ctxs with
  | some c => s.teams.any fun p => p.2.live && (deviceDies c.mode c.dev).contains (dieOf p.2.core)
  | none => false

/-- A kernel waits for admission of a cluster, and its context admits work (Table 16-3); one that has found no room
waits for a team to end on its device, while it has any (R347). -/
def State.admitting (s : State) (k : Kernel) : Bool :=
  !k.failed && k.next < k.total && k.fault.isNone && !(k.missed && s.deviceBusy k) &&
    match lookup k.ctx s.ctxs with
    | some c => (c.st == .ready || c.st == .running) && !c.preq
    | none => false

/-- Kernel a comes before kernel b (R369): context PRIO, kernel PRIO, order of fetch. (log 41) -/
def State.outranks (s : State) (a b : Kernel) : Bool :=
  let prio := fun k : Kernel => match lookup k.ctx s.ctxs with
    | some c => c.prio
    | none => 0
  prio b < prio a || (prio a == prio b && (b.desc.prio < a.desc.prio || (a.desc.prio == b.desc.prio && a.seq < b.seq)))

/-- Kernel n's next cluster is the next to be admitted on its die. (log 41) -/
def State.mayAdmit (s : State) (n : Nat) : Bool :=
  match lookup n s.kernels with
  | none => false
  | some k =>
    s.admitting k && match s.placeFor k with
      | none => false
      | some p => s.kernels.all fun q => q.1 == n || !s.admitting q.2 || !s.outranks q.2 k ||
          (match s.placeFor q.2 with
            | some r => r.1 != p.1
            | none => true)

/-! Admission (R348). -/

/-- Argument bytes with their poison; a page that suspends stops the reading. Those of a page that the service has refused are
poisoned without being read (R408). -/
inductive Args where
  | got (bytes : List (Byte × Bool)) (s : State)
  | suspend (va reason : Nat) (s : State)
  | hold

/-- A core reads n argument bytes from address a on, through its TLB (R403). -/
def readArgs (core ctx : Nat) (lost : List Nat) : Nat → Nat → Nat → State → List (Byte × Bool) → Args
  | 0, _, _, s, acc => .got acc s
  | fuel + 1, a, n, s, acc =>
    if n == 0 then .got acc s
    else
      let m := min n (32 - a % 32)
      let bad := (List.range m).map fun _ => ((0 : Byte), true)
      if lost.contains (a / 65536) then readArgs core ctx lost fuel (a + m) (n - m) s (acc ++ bad)
      else match Agent.fetch { ctx := ctx, core := core, free := true } a m (s.translate core ctx a .read) with
      | .hold => .hold
      | .suspend r t => .suspend a r t
      | .fail t => readArgs core ctx lost fuel (a + m) (n - m) t (acc ++ bad)
      | .got bs psn t =>
        readArgs core ctx lost fuel (a + m) (n - m) t (acc ++ if psn then bad else bs.map fun b => (b, false))

/-- What the cores of a rectangle read: the bytes of each, or the first core that cannot go on. -/
inductive ArgsAll where
  | got (bytes : List (List (Byte × Bool))) (s : State)
  | suspend (core va reason : Nat) (s : State)
  | hold

/-- Each core reads the argument block of a kernel. -/
def readAllArgs (k : Kernel) : List Nat → State → List (List (Byte × Bool)) → ArgsAll
  | [], s, acc => .got acc s
  | core :: cores, s, acc =>
    match readArgs core k.ctx k.argsLost (k.desc.arglen + 1) k.arga k.desc.arglen s [] with
    | .hold => .hold
    | .suspend va r t => .suspend core va r t
    | .got bs t => readAllArgs k cores t (acc ++ [bs])

/-- The words of the argument header and block (R348). -/
def argWords (const arga : Nat) (bytes : List (Byte × Bool)) : List PWord :=
  natWords 2 const ++ natWords 2 arga ++ (List.range (bytes.length / 4)).map fun i =>
    let bs := (List.range 4).map fun j => bytes.getD (4 * i + j) (0, false)
    if bs.any (·.2) then PWord.poison else PWord.ok (BitVec.ofNat 32 (leNat (fun j => (bs.getD j (0, false)).1) 4))

/-- Zero granules of a core (R182). -/
def State.zeroGranules (s : State) (core base n : Nat) : State :=
  let lo := core * 65536 + base * 2048
  { s with spad := s.spad.filter fun p => p.1 < lo || lo + n * 2048 ≤ p.1 }

/-- A group of a new team (R91, R156). -/
def newGroup (k : Kernel) (core slot team num : Nat) (c : Ctx) (now : Nat) : Group :=
  { core := core, slot := slot, team := team, num := num, ctx := k.ctx, shade := c.shade, priv := c.priv, since := now
    regs := k.desc.regs, tsz := k.desc.tsz, accn := k.desc.accn, code := k.code, ptab := 0 :: k.desc.ptab, qbind := k.desc.qbind
    threads := List.replicate 32 (newThread k.desc.entry) }

/-- Place the groups of a team (R159): Pending while there is room, then Parked and woken. -/
def State.addGroups (s : State) (k : Kernel) (c : Ctx) (core team : Nat) : State :=
  upTo k.desc.g (fun t i =>
    let slot := (t.freeSchedSlot core).getD 0
    let g := newGroup k core slot team i c t.now
    let gid := t.nextId
    let t1 := { t with nextId := gid + 1 }
    if t.roomFor core c.shade k.desc.frame then t1.setGroup gid g
    else
      let t2 := if c.shade then t1 else t1.usePark k.ctx (dieOf core) (imageBytes k.desc.frame)
      t2.setGroup gid { g with st := .parked, resident := false, woken := true, image := !c.shade }) s

/-- A team of a context takes a core: another context's layout records leave its cache (R210), and its instruction cache
starts empty (DESIGN CHOICE, log 10). -/
def State.takeCore (s : State) (core ctx : Nat) : State :=
  let c := s.core core
  s.setCore core { c with taken := ctx, layouts := if c.taken == ctx then c.layouts else [], icache := [] }

/-- Admit one team on a core: allotment, argument header, groups, checkpoint. -/
def State.addTeam (s : State) (k : Kernel) (c : Ctx) (cl rank core : Nat) (args : List PWord) : State :=
  let n := s.nextId
  let base := (s.freeRun core k.desc.scratch).getD 0
  let t : Team :=
    { core := core, rank := rank, clx := rank % k.desc.w, cly := rank / k.desc.w, cluster := cl, kernel := 0, ctx := k.ctx
      shade := c.shade, ngroups := k.desc.g, base := base, granules := k.desc.scratch
      ckpt := if k.desc.noCkpt then none else some {}, left := k.desc.g }
  let s1 := { ((s.takeCore core k.ctx).zeroGranules core base k.desc.scratch) with teams := insertAt n t s.teams, nextId := n + 1 }
  let s2 := if k.desc.scratch == 0 then s1
    else (args.mapIdx fun i w => (i, w)).foldl (fun u x =>
      { u with spad := writeAt PWord.zero (core * 65536 + base * 2048 + k.desc.argoff / 4 + x.1) x.2 u.spad }) s1
  let s3 := if c.shade then s2 else s2.startEclipse k.ctx core 0
  (s3.addGroups k c core n).renew n

/-- Admit a cluster at a place, with the argument words that each core has read. -/
def State.admitCluster (s : State) (n : Nat) (k : Kernel) (c : Ctx) (die x y : Nat) (args : List (List PWord)) : State :=
  let cl := s.nextId
  let cores := rectangle die x y k.desc.w k.desc.h
  let s1 := (cores.mapIdx fun r core => (r, core)).foldl (fun t p => t.addTeam k c cl p.1 p.2 (args.getD p.1 [])) { s with nextId := cl + 1 }
  let teams := (s1.teams.filter fun p => p.2.cluster == cl).map (·.1)
  let s2 := teams.foldl (fun t i => t.modTeam i fun m => { m with kernel := n }) s1
  let ks : Cluster := { kernel := n, ctx := k.ctx, index := k.next, die := die, x := x, y := y, w := k.desc.w, h := k.desc.h, teams := teams }
  let s3 := s2.modKernel n fun m =>
    { m with next := m.next + 1, live := m.live + 1, argsLost := [], place := none, cores := (m.cores ++ cores).eraseDups }
  { s3.modCtx k.ctx fun m => { m with st := if m.st == .ready then .running else m.st } with
    clusters := insertAt cl ks s3.clusters }

/-- A kernel whose next cluster no die fits waits for the end of a team (R347). Where the device has no team, it goes on
trying. (log 41) -/
def State.settleKernel (s : State) (n : Nat) : State :=
  match lookup n s.kernels with
  | none => s
  | some k =>
    if s.admitting k && k.place.isNone && s.deviceBusy k && (s.placeFor k).isNone then
      s.modKernel n fun m => { m with missed := true }
    else s

/-- A team has ended on a die: the kernels of its device that found no room try again (R347). -/
def State.retryAdmissions (s : State) (die : Nat) : State :=
  { s with kernels := s.kernels.map fun p => match lookup p.2.ctx s.ctxs with
      | some c => if (deviceDies c.mode c.dev).contains die then (p.1, { p.2 with missed := false }) else p
      | none => p }

/-- CLUSTER_ADMISSION: the cores of the place found stay reserved while an argument page suspends (R348). (log 41) -/
def execClusterAdmission (n : Nat) (s : State) : Out :=
  match lookup n s.kernels with
  | none => .fault .noSuchObject
  | some k =>
    match lookup k.ctx s.ctxs, s.placeFor k with
    | some c, some p =>
      if !s.mayAdmit n then .fault .noSuchObject
      else
        match readAllArgs k (rectangle p.1 p.2.1 p.2.2 k.desc.w k.desc.h) s [] with
        | .hold => .next s
        | .suspend core va r t =>
          let f := t.fault p.1 k.ctx va false core 0 0 3 r 0 0
          .next (f.2.modKernel n fun m => { m with fault := some (p.1 * 4294967296 + f.1), place := some p })
        | .got bs t => .next (t.admitCluster n k c p.1 p.2.1 p.2.2 (bs.map (argWords k.desc.const k.arga)))
    | _, _ => .fault .noSuchObject

/-! LAUNCH (R353). -/

/-- The entry of a LAUNCH as written: bytes of two sectors; in host memory each poisoned word is sent as such (R391).
(log 41) -/
def State.launchWrite (s : State) (q ctx a : Nat) (ws : List PWord) : Fetched :=
  let x := s.queue q
  let bytes := fun w : PWord => (List.range 4).map fun j => byteOf w.val.toNat j
  let half := fun i => (((ws.drop (8 * i)).take 8).flatMap bytes, wordsPsn ((ws.drop (8 * i)).take 8))
  if x.space then
    match s.storeDev (s.homeDie q) ctx a (half 0).1 (half 0).2 with
    | .got _ _ t => t.storeDev (t.homeDie q) ctx (a + 32) (half 1).1 (half 1).2
    | r => r
  else match s.portReach (s.homeDie q) (s.funcOf ctx) a with
    | .wait => .hold
    | .down => .got [] false s
    | .ok => .got [] false ((ws.mapIdx fun i w => (a + 4 * i, w)).foldl (fun t x => t.hostWrite x.1 (bytes x.2) x.2.psn) s)

/-- See assumption log 41. -/
def execLaunch (o : OpM) (s : State) : Out :=
  runWord s fun v => do
    let d := v.lanesReg o.d.val
    let (a, s1) ← s.operand v o.ap.val o.ar.val
    match ← v.single d with
    | none => .ok s1
    | some (L, ql) =>
      addressTrap [L] (fun L => spadCheck s v true 64 64 (a L)) a
      let r := s.ref v 64 (a L).val
      s.granulesFree v 64 [r]
      let c := (lookup v.g.ctx s.ctxs).getD { mode := 1, dev := 0 }
      let q := packageQueue c.mode c.dev ql.toNat
      let x := s.queue q
      if 8192 / c.mode ≤ ql.toNat || x.ctx != v.g.ctx || x.st == .disabled || x.st == .error then
        .error (.trap { kind := 10, tmask := v.en })
      else
        v.release
        if 2 ^ x.log2n ≤ x.outstanding || x.fault.isSome then .error (.stall (.launch q))
        else
          let s2 := s1.writeBackDie v.g.ctx (dieOf v.g.core)
          match s2.launchWrite q v.g.ctx (x.entryAddr x.wr) (s2.spadWords r.core r.off 16) with
          | .hold | .suspend _ _ => .error (.stall (.launch q))
          | .fail t | .got _ _ t => .ok ((t.ring q (BitVec.ofNat 32 (x.wr + 1))).spend v.g.team)

/-- A group that waits in LAUNCH for a queue: it wakes when there is room. A ring page that suspends is reported as a
queue fetch, and the wait goes on. (log 41) -/
def State.tryLaunch (s : State) (gid : Nat) (g : Group) (q : Nat) : State :=
  let x := s.queue q
  let wake := s.modGroup gid fun y => y.wake s.now
  if x.st == .disabled || x.st == .error then wake
  else if 2 ^ x.log2n ≤ x.outstanding || x.fault.isSome then s
  else if !x.space then (if s.portReach (s.homeDie q) (s.funcOf g.ctx) (x.entryAddr x.wr) == .wait then s else wake)
  else match s.walk (s.homeDie q) g.ctx (x.entryAddr x.wr) .write with
    | (.suspend r, t) => let f := t.queueFault q g.ctx (x.entryAddr x.wr) true r
      f.2.setQueue q { (f.2.queue q) with fault := some f.1 }
    | (.ok l, t) => match t.placeOf g.ctx (l.xl (x.entryAddr x.wr)) (x.entryAddr x.wr) with
      | some p => if t.placeReach g.ctx (s.homeDie q) p == .wait then s else wake
      | none => wake
    | _ => wake

/-! The end of teams, clusters and kernels (R359). -/

/-- A kernel's launch is over: its entry or node completes, or fails with a code. -/
def State.ownerEnds (s : State) (o : Owner) (code : Nat) : State :=
  match o with
  | .entry q idx => if code == 0 then s.completeEntry q idx else s.failEntry q idx code
  | .node gr node => s.nodeEnds gr node code

/-- A context none of whose kernels is left becomes Ready (Table 16-3). -/
def State.idleCtx (s : State) (ctx : Nat) : State :=
  if s.kernels.any fun p => p.2.ctx == ctx then s
  else s.modCtx ctx fun c => { c with st := if c.st == .running then .ready else c.st }

/-- The layout records that cores hold leave their caches, as at the end of a kernel (R210). -/
def State.dropLayouts (s : State) (cores : List Nat) : State :=
  cores.foldl (fun t c => t.setCore c { t.core c with layouts := [] }) s

/-- End actions (R359): near copies written home, replicas and layout records dropped, entry or node completed. -/
def State.endKernel (s : State) (n : Nat) (k : Kernel) : State :=
  let s1 := (s.writeBackWhere fun c => c.ctx == k.ctx).dropWhere fun c => c.ctx == k.ctx && !c.near
  let s2 := s1.dropLayouts k.cores
  ({ s2 with kernels := eraseAt n s2.kernels }.ownerEnds k.owner 0).idleCtx k.ctx

/-- A failed kernel ends without end actions; its layout records leave their caches all the same (R210). -/
def State.dropKernel (s : State) (n : Nat) (k : Kernel) : State :=
  let s1 := s.dropLayouts k.cores
  { s1 with kernels := eraseAt n s1.kernels }

/-- The reflections of a team that have not retired. -/
def State.teamRefls (s : State) (t : Nat) : List (Nat × Refl) := s.refls.filter fun p => p.2.team == t

/-- A team may end. -/
def State.mayEnd (s : State) (t : Nat) : Bool :=
  match lookup t s.teams with
  | none => false
  | some x => x.live && x.left == 0 && s.cmds.all (fun p => p.2.team != t || p.2.node.isSome) && (s.teamRefls t).isEmpty

/-- A cluster all of whose teams have ended. -/
def State.endCluster (s : State) (cl : Nat) : State :=
  match lookup cl s.clusters with
  | none => s
  | some c =>
    if c.teams.any fun i => match lookup i s.teams with
      | some t => t.live
      | none => false
    then s
    else
      let s1 := { s with clusters := eraseAt cl s.clusters, teams := s.teams.filter fun p => p.2.cluster != cl }
      let s2 := s1.modKernel c.kernel fun k => { k with live := k.live - 1 }
      match lookup c.kernel s2.kernels with
      | none => s2
      | some k =>
        if k.live != 0 then s2
        else if k.failed then (s2.dropKernel c.kernel k).idleCtx k.ctx
        else if k.total ≤ k.next then s2.endKernel c.kernel k else s2

/-- TEAM_END. A principal team whose allotment holds a lent granule eclipses the loan (R371). -/
def execTeamEnd (t : Nat) (s : State) : Out :=
  match lookup t s.teams with
  | none => .fault .noSuchObject
  | some x =>
    if !s.mayEnd t then .fault .noSuchObject
    else
      let l := s.loan x.ctx x.core
      let lent := !x.shade && (List.range x.granules).any fun i => l.map.getLsbD (x.base + i)
      let s1 := if lent then s.startEclipse x.ctx x.core 0 else s
      .next (((s1.modTeam t fun y => { y with live := false, ckpt := none }).endCluster x.cluster).retryAdmissions (dieOf x.core))

end Sys2Proof.Machine
end

