-- ==== Sys2Proof/Machine/Transfer.lean ====
section
/-! DEFINITION. The work of running copy commands: element addresses, the delivery of elements, stack atomics,
multicast arrivals, waits, suspension and resumption (spec 09_copy_command.md R207 to R236, 10_barrier.md R250,
18_page.md R402, R408, 19_stack_logic.md R421, R422). -/

namespace Sys2Proof.Machine

/-! Element addresses (R207). -/

/-- Coordinates of element n over extents. -/
def coordsOf : List Nat → Nat → List Nat
  | [], _ => []
  | e :: es, n => n % e :: coordsOf es (n / e)

/-- Interleave coordinates of given widths, level by level (Inter2, Inter3). (log 25) -/
def interleave (xs : List (Nat × Nat)) : Nat :=
  ((List.range 17).foldl (fun (p : Nat × Nat) k =>
    xs.foldl (fun (q : Nat × Nat) x =>
      if k < x.1 then (q.1 + (if bitOf x.2 k then 2 ^ q.2 else 0), q.2 + 1) else q) p) (0, 0)).1

/-- Σ of coordinates times strides. -/
def strideSum : List Int → List Int → Int
  | c :: cs, s :: ss => c * s + strideSum cs ss
  | _, _ => 0

/-- Off (R207): the offset of an element in elements, from the side's coordinates and extents. -/
def SideD.off (d : SideD) (ext : List Nat) (cs : List Int) : Int :=
  match d.kind with
  | 0 => strideSum cs d.str
  | k => (interleave ((ext.take (k + 1)).zip (cs.take (k + 1)) |>.map fun p => (p.1.log2, p.2.toNat)) : Nat) +
      strideSum (cs.drop (k + 1)) (d.str.drop (k + 1))

/-- What an access waits for or fails with. -/
inductive Need where
  | want (w : Want)
  | fail (code : Nat)
  /-- nothing happens yet; an eclipse may have begun -/
  | hold (s : State)

/-! Scratchpad bytes of a command. -/

/-- A byte of a core's scratchpad. -/
def State.spadByte (s : State) (core p : Nat) : Byte := byteOf (s.spadWord core (p / 4)).val.toNat (p % 4)

/-- Any of n bytes lies in a poisoned word. (log 16) -/
def State.spadBad (s : State) (core p n : Nat) : Bool := (wordsOf p n).any fun w => (s.spadWord core w).psn

/-- Where n bytes at a byte offset from a scratchpad data address lie; BOUNDS outside the allotment. An access to
granules that are lent, or not yet zeroed, waits (R371, R373). -/
def State.spadPlace (s : State) (c : Cmd) (base : Nat) (delta : Int) (n : Nat) : Except Need SpadRef :=
  let off := ((base % 262144 : Nat) : Int) + delta
  if off < 0 || 262144 < off + n then .error (.fail 5)
  else match s.cmdRef c false n (base / 262144 * 262144 + off.toNat) with
    | none => .error (.fail 5)
    | some r =>
      match s.spadHold c r n with
      | some t => .error (.hold t)
      | none => .ok r

/-! Device bytes of a command (R231, R402). -/

/-- The side whose translation serves a slot: a side holds one, which its data and its scales share (R231). (log 27) -/
def xlSide (slot : Nat) : Nat := slot % 2

/-- A slot that no command holds a translation for: it takes the leaf from the copy TLB in the event that uses it, beside
the translation that its side holds (R231, R404). (log 27, 32) -/
def passing (slot : Nat) : Bool := slot == 5 || slot == 6

/-- The access that a need asks for: the destination of a reduction or of an atomic is read and written (R402). -/
def Cmd.access (c : Cmd) (w : Want) : Access :=
  if !w.write then .read
  else if c.op == 9 || c.op == 10 || (c.shape.rop != 0 && w.side == 1) then .modify
  else .write

/-- The translation that serves a slot now. -/
def State.slotXl (s : State) (c : Cmd) (w : Want) : Option Xl :=
  if passing w.side then
    match s.tlbHit c.core c.ctx w.va (c.access w) with
    | some l => if l.psn && w.write then none else some (l.xl w.va)
    | none => none
  else lookup (xlSide w.side) c.xls

/-- The place of a device address that `slot` accesses. -/
def State.devPlace (s : State) (c : Cmd) (slot : Nat) (write : Bool) (a : Int) : Except Need (Place × Xl) :=
  if a < 0 || 144115188075855872 ≤ a then .error (.fail 7)
  else
    let va := a.toNat
    match s.slotXl c ⟨slot, va, write⟩ with
    | none => .error (.want ⟨slot, va, write⟩)
    | some x =>
      if x.page != va / 65536 then .error (.want ⟨slot, va, write⟩)
      else match s.placeOf c.ctx x va with
        | none => .error (.fail 7)
        | some p =>
          match s.placeReach c.ctx (dieOf c.core) p with
          | .wait => .error (.hold s)
          | _ => .ok (p, x)

/-- A place answers with the partition-down reply. -/
def State.placeDown (s : State) (c : Cmd) (p : Place) : Bool := s.placeReach c.ctx (dieOf c.core) p == .down

/-- Read n bytes of a side at a byte offset from its base. -/
def State.sideRead (s : State) (c : Cmd) (d : SideD) (slot : Nat) (base : Nat) (delta : Int) (n : Nat) :
    Except Need (Got × State) :=
  if d.spad then
    match s.spadPlace c base delta n with
    | .error e => .error e
    | .ok r => .ok (⟨(List.range n).map fun i => s.spadByte r.core (r.off + i), s.spadBad r.core r.off n, false⟩, s)
  else
    match s.devPlace c slot false ((base : Int) + delta) with
    | .error e => .error e
    | .ok (p, x) =>
      let r := s.read c.agent n p
      .ok ({ r.1 with psn := r.1.psn || x.psn }, r.2)

/-- The code of an element of a format at an element offset: code, poison, partition-down. -/
def State.readElem (s : State) (c : Cmd) (d : SideD) (slot : Nat) (o : Int) : Except Need (Nat × Bool × Bool × State) :=
  if d.fmt == .e2m1 then
    match s.sideRead c d slot d.base (o / 2) 1 with
    | .error e => .error e
    | .ok (g, s1) =>
      let b := ((g.bytes.headD 0).toNat)
      .ok (if o % 2 == 0 then b % 16 else b / 16, g.psn, g.down, s1)
  else
    match s.sideRead c d slot d.base (o * (d.fmt.size : Int)) d.fmt.size with
    | .error e => .error e
    | .ok (g, s1) => .ok (leNat (fun i => g.bytes.getD i 0) d.fmt.size, g.psn, g.down, s1)

/-- The scale byte of block b of a side; 0xFF where it lies in poison (R208). (log 25) -/
def State.readScale (s : State) (c : Cmd) (d : SideD) (slot b : Nat) : Except Need (Nat × Bool × State) :=
  match s.sideRead c d slot d.scale (b : Int) 1 with
  | .error e => .error e
  | .ok (g, s1) => .ok (if g.psn then 255 else (g.bytes.headD 0).toNat, g.down, s1)

/-! Index lists (R213, R215). -/

/-- The entries of the index list that an element uses (Table 9-6). -/
def Shape.entriesOf (sh : Shape) (cs : List Nat) : List Nat :=
  match sh.idx with
  | .none => []
  | .gath | .scat => [cs.getD 1 0]
  | .bgath | .bscat => [2 * cs.getD 2 0, 2 * cs.getD 2 0 + 1]

/-- Read entries of the index list that have not been read yet: each is read once (R215). -/
def State.takeEntries (s : State) (c : Cmd) : List Nat → Cmd × Option Need
  | [] => (c, none)
  | i :: is =>
    if (lookup i c.entries).isSome then s.takeEntries c is
    else match s.cmdRef c true 4 (c.shape.list.toNat + 4 * i) with
      | none => (c, some (.fail 5))
      | some r => match s.spadHold c r 4 with
        | some t => (c, some (.hold t))
        | none => s.takeEntries { c with entries := insertAt i (s.spadWord r.core (r.off / 4)) c.entries } is

/-- Coordinates changed by the entries read for element coordinates cs; none where an entry is poisoned. (log 25) -/
def Cmd.indexed (c : Cmd) (cs : List Nat) : Option (List Int) :=
  let as := cs.map Int.ofNat
  let xs := (c.shape.entriesOf cs).map fun i => (lookup i c.entries).getD PWord.zero
  if xs.any PWord.psn then none
  else match xs with
    | [x] => some (as.set 1 (x.val.toNat : Int))
    | [b0, b1] => some (((as.set 0 ((b0.val.toNat * c.shape.e 0 + cs.getD 0 0 : Nat) : Int)).set 1
        ((b1.val.toNat * c.shape.e 1 + cs.getD 1 0 : Nat) : Int)).set 2 0)
    | _ => some as

/-- Extents as the source sees them. -/
def Shape.srcExt (sh : Shape) : List Nat := if sh.tr then swap01 sh.ext else sh.ext

/-- Linear index of coordinates over extents. -/
def linear : List Nat → List Nat → Nat
  | c :: cs, e :: es => c + e * linear cs es
  | _, _ => 0

/-- Record a completing status; the first stands. (log 24) -/
def Cmd.note (c : Cmd) (code : Nat) : Cmd := if c.code == 0 then { c with code := code } else c

/-- The scale byte of source block b, read once for the block, and whether a die in reset answered (R208). -/
def State.srcScale (s : State) (c : Cmd) (b : Nat) : Except Need (Nat × Bool × State) :=
  match c.srcScale with
  | some (b', x, down) => if b' == b then .ok (x, down, s) else s.readScale c c.shape.src 2 b
  | none => s.readScale c c.shape.src 2 b

/-- The data of element n at the source, at coordinates `at_`: its value, given its scale byte. -/
def State.srcData (s : State) (c : Cmd) (at_ : List Int) (scale : Option Nat) : State × Cmd × Except Need Val :=
  let sh := c.shape
  match s.readElem c sh.src 0 (sh.src.off sh.srcExt at_) with
  | .error e => (s, c, .error e)
  | .ok (code, psn, down, s1) =>
    (s1, if down then c.note 9 else c, .ok (if psn then .psn else match scale with
      | none => decode sh.src.fmt sh.zx code
      | some x => decodeScaled sh.src.fmt sh.zx code x))

/-- The value of element n at the source (R208, R214, R215, R236): index entries, the scale of its block, the element. -/
def State.srcValue (s : State) (c : Cmd) (n : Nat) : State × Cmd × Except Need Val :=
  let sh := c.shape
  let cs := coordsOf sh.ext n
  let own := if sh.tr then swap01 cs else cs
  let gather := sh.idx == .gath || sh.idx == .bgath
  let r := if gather then s.takeEntries c (sh.entriesOf cs) else (c, none)
  match r.2 with
  | some e => (s, r.1, .error e)
  | none =>
    match (if gather then r.1.indexed cs else some (own.map Int.ofNat)) with
    | none => (s, r.1.note 8, .ok .psn)
    | some at_ =>
      if sh.src.blk == 0 then s.srcData r.1 at_ none
      else
        let b := linear own sh.srcExt / sh.src.blk
        match s.srcScale r.1 b with
        | .error e => (s, r.1, .error e)
        | .ok (x, down, s1) =>
          s1.srcData { (if down then r.1.note 9 else r.1) with srcScale := some (b, x, down) } at_ (some x)

/-- Read source values ahead until `n` are held: all of the open block of a scaled destination, or one. -/
def fillVals : Nat → Nat → State → Cmd → State × Cmd × Option Need
  | 0, _, s, c => (s, c, none)
  | fuel + 1, n, s, c =>
    if n ≤ c.vals.length then (s, c, none)
    else match s.srcValue c (c.k + c.vals.length) with
      | (s1, c1, .error e) => (s1, c1, some e)
      | (s1, c1, .ok v) => fillVals fuel n s1 { c1 with vals := c1.vals ++ [v] }

/-! Destinations. -/

/-- The smaller or larger of two values (R136, signed compare for integers). -/
def valMinMax (mx : Bool) (a b : Val) : Val :=
  if a.isNan && b.isNan then .nan
  else if a.isNan then b
  else if b.isNan then a
  else if mx then (if a.below b then b else a)
  else (if b.below a then b else a)

/-- The result of a reduction (R214). -/
def reduce (rop : Nat) (o v : Val) : Val :=
  match o, v with
  | .psn, _ => .psn
  | _, .psn => .psn
  | o, v => if rop == 1 then o.add v else valMinMax (rop == 3) o v

/-- Where an element goes. -/
inductive Dest where
  /-- the team of the command, core and byte -/
  | spad (team core p : Nat)
  | dev (p : Place) (pa : Nat)
  deriving DecidableEq, Repr

/-- The places of n bytes at a byte offset of the destination: one, or every receiver of an MCAST. -/
def State.destAt (s : State) (c : Cmd) (base slot : Nat) (delta : Int) (n : Nat) : Except Need (List Dest) :=
  if c.op == 7 then
    (s.chain c).foldl (fun r x => match r with
      | .error e => .error e
      | .ok ds =>
        let off := ((base % 262144 : Nat) : Int) + delta
        if off < 0 || 262144 < off + n then .error (.fail 5)
        else match s.spadRef x.1 (s.isShade c.ctx) true n (BitVec.ofNat 32 (33292288 + off.toNat)) with
          | none => .error (.fail 5)
          | some p => match s.spadHold c p n with
            | some t => .error (.hold t)
            | none => .ok (ds ++ [.spad c.team p.core p.off])) (.ok [])
  else if c.shape.dst.spad then
    match s.spadPlace c base delta n with
    | .error e => .error e
    | .ok r => .ok [.spad c.team r.core r.off]
  else
    match s.devPlace c slot true ((base : Int) + delta) with
    | .error e => .error e
    | .ok (p, x) => .ok [.dev p (x.pa + ((base : Int) + delta).toNat % 65536)]

/-- Bytes that an element's write puts at a place, or the nibble of a byte (R207). -/
structure Piece where
  bytes : List Byte
  psn : Bool
  /-- high nibble only, or low nibble only -/
  nibble : Option Bool := none
  deriving DecidableEq, Repr

/-- Write a piece to a scratchpad. -/
def State.pieceSpad (s : State) (team core p : Nat) (x : Piece) : State :=
  x.bytes.mapIdx (fun i b => (p + i, b)) |>.foldl (fun t q =>
    let sh := 8 * (q.1 % 4) + (if x.nibble == some true then 4 else 0)
    let m := (if x.nibble.isSome then 15 else 255) * 2 ^ sh
    t.writeSpad team core (q.1 / 4) ⟨BitVec.ofNat 32 ((if x.psn then 0 else q.2.toNat) * 2 ^ sh), x.psn⟩
      (BitVec.ofNat 32 m)) s

/-- The byte that a nibble's write leaves, given the byte there. -/
def Piece.over (x : Piece) (old : Byte) : List Byte :=
  match x.nibble with
  | none => x.bytes
  | some hi =>
    let v := (x.bytes.headD 0).toNat
    [BitVec.ofNat 8 (if hi then old.toNat % 16 + 16 * v else old.toNat / 16 * 16 + v)]

/-- The byte of a line as a run leaves it so far. -/
def LineW.byte (l : Option LineW) (stack line i : Nat) : Option Byte :=
  match l with
  | none => none
  | some x =>
    if x.w.stack == stack && x.w.line == line then (x.w.bytes.reverse.find? (·.1 == i)).map (·.2) else none

/-- A run with a further write of its line; none where the write is to another line or to another copy of it. -/
def LineW.join (run : Option LineW) (near : Bool) (w : HomeWrite) (pa n : Nat) : Option LineW :=
  match run with
  | none => some ⟨w, pa, n, near⟩
  | some l =>
    if l.w.stack == w.stack && l.w.line == w.line && l.near == near then
      some { l with
        w := { l.w with bytes := (l.w.bytes.filter fun b => !w.bytes.any fun y => y.1 == b.1) ++ w.bytes
                        psn := l.w.psn ++ w.psn }
        bytes := l.bytes + n }
    else none

/-- The byte at a place that a nibble is written into, and the state after it has been read: as the open run leaves it, or as
the home or the near copy has it. -/
def State.nibbleOver (s : State) (c : Cmd) (run : Option LineW) (near : Bool) (stack off : Nat) : Byte × State :=
  match LineW.byte run stack (off / 128) (off % 128) with
  | some b => (b, s)
  | none =>
    if near then
      let r := s.read c.agent 1 (.dev stack off)
      (r.1.bytes.headD 0, r.2)
    else (s.homeByte stack off, s)

/-- Deliver a piece to its places. A device piece joins the run of its line; none when the run must be applied first. -/
def State.deliverPiece (s : State) (c : Cmd) (run : Option LineW) (x : Piece) : List Dest → Option (State × Option LineW)
  | [] => some (s, run)
  | .spad t core p :: ds => (s.pieceSpad t core p x).deliverPiece c run x ds
  | .dev p pa :: ds =>
    if s.placeDown c p then s.deliverPiece c run x ds
    else match p with
      | .host a => (s.write c.agent (x.over (s.hostByte a)) x.psn p).deliverPiece c run x ds
      | .dev stack off =>
        let near := (s.hints c.agent).nc && stack / 4 != dieOf c.core
        let old := if x.nibble.isSome then s.nibbleOver c run near stack off else (0, s)
        let bytes := x.over old.1
        match LineW.join run near (lineWrite c.agent stack off bytes x.psn) pa bytes.length with
        | some l => old.2.deliverPiece c (some l) x ds
        | none => none

/-- An element's encoded result as a piece. -/
def pieceOf (f : Fmt) (o : Int) (e : Enc) : Piece :=
  if f == .e2m1 then ⟨[BitVec.ofNat 8 e.code], e.psn, some (o % 2 == 1)⟩
  else ⟨(List.range f.size).map fun i => byteOf e.code i, e.psn, none⟩

/-- Byte offset of an element. -/
def elemByte (f : Fmt) (o : Int) : Int := if f == .e2m1 then o / 2 else o * (f.size : Int)

/-- Bytes of an element. -/
def elemBytes (f : Fmt) : Nat := if f == .e2m1 then 1 else f.size

/-- The rounding that an element's encoding uses: none where source and destination have one unscaled format (R50). -/
def Shape.rounding (sh : Shape) : Rnd :=
  if sh.rop == 0 && sh.src.blk == 0 && sh.dst.blk == 0 then rndUsed sh.src.fmt sh.dst.fmt sh.rnd else sh.rnd

/-- Elements of a feedback block (R208). -/
def Shape.feedback (sh : Shape) : Nat := if sh.dst.blk == 0 then 32 else sh.dst.blk

/-- The residual that element k meets: 0 at the start of its feedback block (R52). -/
def Cmd.residual (c : Cmd) : Val := if c.k % c.shape.feedback == 0 then .fin false 0 0 else c.resid

/-- The encoding of the smaller or larger of two values: as it stands where the format holds it, else converted under RND
and SAT with no feedback (R214). (log 25) -/
def Shape.encodeChosen (sh : Shape) (v : Val) : Enc :=
  let f := sh.dst.fmt
  let e := encodeVal f v .rne false
  let w := if e.psn then Val.psn else decode f false e.code
  if w == v || (w.cmp v == some .eq) then e
  else encodeVal f v (if sh.rnd == .rz then .rz else .rne) sh.sat

/-- One element's encoding under the command's rounding, with its feedback block (R52, R208). -/
def Cmd.encodeNext (c : Cmd) (v : Val) : Enc × Cmd :=
  let sh := c.shape
  let scaled := sh.dst.blk != 0
  if scaled && c.scale == 255 then (⟨0, false, false⟩, c)
  else
    let v1 := if scaled then v.scale (127 - (c.scale : Int)) else v
    let sat := sh.sat || scaled
    match sh.rounding with
    | .ef =>
      let r := efStep sh.dst.fmt sat c.residual v1
      (r.1, { c with resid := r.2 })
    | m => (encodeVal sh.dst.fmt v1 m sat, c)

/-- The word that a piece at scratchpad places lies in; none for device places and for pieces of several words. -/
def WordRun.of (ds : List Dest) (x : Piece) : Option WordRun :=
  ds.foldr (fun d r => match d with
    | .dev _ _ => none
    | .spad t core p =>
      if 4 < p % 4 + x.bytes.length then none
      else r.map fun w => { w with
        places := (t, core, p / 4) :: w.places
        mask := (match x.nibble with
          | none => 2 ^ (8 * x.bytes.length) - 1
          | some hi => if hi then 240 else 15) * 2 ^ (8 * (p % 4)) }) (some ⟨[], 0, x.psn⟩)

/-- The run's word with a further piece of it; none where the piece lies elsewhere. -/
def WordRun.join (w : Option WordRun) (x : Option WordRun) : Option (Option WordRun) :=
  match w, x with
  | none, x => some x
  | some _, none => none
  | some w, some x => if w.places == x.places then some (some { x with mask := w.mask ||| x.mask, psn := w.psn || x.psn })
      else none

/-- A word that a run has covered takes the poison state of what was written (R185); another run stays open. (log 26) -/
def State.closeWord (s : State) (w : Option WordRun) : State × Option WordRun :=
  match w with
  | none => (s, none)
  | some x =>
    if x.mask == 4294967295 then
      (x.places.foldl (fun t q => t.writeSpad q.1 q.2.1 q.2.2 ⟨(t.spadWord q.2.1 q.2.2).val, x.psn⟩ (BitVec.allOnes 32)) s, none)
    else (s, some x)

/-- What became of an element. -/
inductive Landed where
  | ok (s : State) (c : Cmd) (run : Option LineW) (word : Option WordRun)
  | stop (s : State) (c : Cmd) (why : Need)
  /-- the run before it must be applied first -/
  | flush

/-- The coordinates of element k at the destination; none where a scatter's entry is poisoned. -/
def State.dstCoords (s : State) (c : Cmd) : Cmd × Except Need (Option (List Int)) :=
  let cs := coordsOf c.shape.ext c.k
  if c.shape.idx == .scat || c.shape.idx == .bscat then
    match s.takeEntries c (c.shape.entriesOf cs) with
    | (c1, some e) => (c1, .error e)
    | (c1, none) => (c1, .ok (c1.indexed cs))
  else (c, .ok (some (cs.map Int.ofNat)))

/-- A reduction acts at the home of its destination, whatever the hints (R214). -/
def Cmd.atHome (c : Cmd) : Cmd :=
  if c.shape.rop == 0 then c
  else { c with words := c.words.set 0 ((c.words.headD 0) &&& 0xFFFE7FFF) }

/-- A place that a piece goes to answers with the partition-down reply. -/
def State.anyDown (s : State) (c : Cmd) (ds : List Dest) : Bool := ds.any fun d => match d with
  | .dev p _ => s.placeDown c p
  | _ => false

/-- Where element k goes, found through the translation that its side holds; with `also`, through the copy TLB where the
side holds another page: the page of the scale array. -/
def State.elemPlace (s : State) (c : Cmd) (o : Int) (also : Bool) : Except Need (List Dest) :=
  let sh := c.shape
  let at_ := fun slot => s.destAt c sh.dst.base slot (elemByte sh.dst.fmt o) (elemBytes sh.dst.fmt)
  match at_ 1 with
  | .ok ds => .ok ds
  | .error (.want w) => if also then (match at_ 6 with
      | .ok ds => .ok ds
      | .error _ => .error (.want w)) else .error (.want w)
  | .error e => .error e

/-- The command with the scale of the block that element k opens, and where its scale byte goes: it is written with the
block's first element, once the places of both are known (R208). (log 27) -/
def State.scalePlace (s : State) (c : Cmd) : Except Need (Cmd × List Dest) :=
  let sh := c.shape
  match s.destAt c sh.dst.scale 3 ((c.k / sh.dst.blk : Nat) : Int) 1 with
  | .error e => .error e
  | .ok es =>
    let c1 := { c with scale := blockScale sh.dst.fmt c.vals }
    .ok (if s.anyDown c es then c1.note 9 else c1, es)

/-- The places of element k and of the scale byte that is written with it. -/
def State.elemPlaces (s : State) (c : Cmd) (o : Int) : Except Need (Cmd × List Dest × List Dest) :=
  let opens := c.shape.dst.blk != 0 && c.k % c.shape.dst.blk == 0
  match s.elemPlace c o opens with
  | .error e => .error e
  | .ok ds =>
    if opens then (s.scalePlace c).map fun x => (x.1, ds, x.2) else .ok (c, ds, [])

/-- Write the scale byte of the block that element k opens, apart from the run of its elements. -/
def State.putScale (s : State) (c : Cmd) (es : List Dest) : State :=
  match s.deliverPiece c none ⟨[BitVec.ofNat 8 c.scale], false, none⟩ es with
  | some (s1, r) => s1.flush c r
  | none => s

/-- The destination element that a reduction reads (R214), as the open run leaves it. -/
def State.oldValue (s : State) (c : Cmd) (run : Option LineW) (o : Int) (ds : List Dest) : Except Need (Val × State) :=
  let sh := c.shape
  let f := sh.dst.fmt
  let held := match ds with
    | [.dev (.dev stack off) _] =>
      if (LineW.byte run stack (off / 128) (off % 128)).isSome then
        let code := leNat (fun i => (LineW.byte run stack (off / 128) (off % 128 + i)).getD 0) f.size
        let psn := match run with
          | some l => l.w.psn.contains (off % 128 / 32)
          | none => false
        some (if psn then Val.psn else decode f false code)
      else none
    | _ => none
  match held with
  | some v => .ok (v, s)
  | none => match s.readElem c.atHome sh.dst 1 o with
    | .error e => .error e
    | .ok (code, psn, _, s1) => .ok (if psn then .psn else decode f false code, s1)

/-- The piece that element k leaves, and the command after its encoding; with it, whether it leaves the poison bits of its
word as they stand (R185). -/
def Cmd.elemPiece (c : Cmd) (o : Int) (ov v : Val) : Piece × Bool × Cmd :=
  let sh := c.shape
  let w := if sh.rop == 0 then v else reduce sh.rop ov v
  let enc := match sh.fill with
    | some code => ((⟨code, false, true⟩ : Enc), c)
    | none => if 2 ≤ sh.rop then (sh.encodeChosen w, c) else c.encodeNext w
  (pieceOf sh.dst.fmt o enc.1, (sh.dst.fmt == .rn8 || sh.dst.fmt == .rn16) && w == .psn && sh.fill.isNone, enc.2)

/-- Put element k, its source value read, at its destination. An element whose index entry is poisoned is not written and
takes no part in the feedback of its block (R52, R215; DESIGN CHOICE, log 25). -/
def State.putElement (s : State) (c0 : Cmd) (run : Option LineW) (word : Option WordRun) (v : Val) : Landed :=
  let sh := c0.shape
  let next := fun (c : Cmd) => { c with k := c.k + 1, vals := c.vals.drop 1, run := c.run + 1 }
  match s.dstCoords c0 with
  | (c, .error e) => .stop s c e
  | (c, .ok none) => .ok s (next { (c.note 8) with resid := c.residual }) run word
  | (c, .ok (some cs)) =>
    let o := sh.dst.off sh.ext cs
    match s.elemPlaces c o with
    | .error e => .stop s c e
    | .ok (c1, ds, es) =>
      match (if sh.rop == 0 then .ok (.psn, s) else s.oldValue c1 run o ds) with
      | .error e => .stop s c1 e
      | .ok (ov, s1) =>
        let x := c1.elemPiece o ov v
        match s1.deliverPiece c.atHome run x.1 ds, WordRun.join word (if x.2.1 then none else WordRun.of ds x.1) with
        | none, _ => .flush
        | _, none => .flush
        | some (s2, run1), some word1 =>
          let r := (s2.putScale c1 es).closeWord word1
          .ok r.1 (next (if s1.anyDown c ds then x.2.2.note 9 else x.2.2)) run1 r.2

/-- Element k of an element-moving command. -/
def State.landElement (s : State) (c : Cmd) (run : Option LineW) (word : Option WordRun) : Landed :=
  let sh := c.shape
  if sh.fill.isSome then s.putElement c run word .psn
  else
    let need := if sh.dst.blk == 0 then 1 else min (sh.dst.blk - c.k % sh.dst.blk) (c.n - c.k)
    match fillVals need need s c with
    | (s1, c1, some e) => .stop s1 c1 e
    | (s1, c1, none) => s1.putElement c1 run word (c1.vals.headD .psn)

/-- Element k of an ASTC (R304). -/
def State.landPlan (s : State) (c : Cmd) (run : Option LineW) : Landed :=
  let x := c.plan.getD c.k (0, 0, false)
  match s.devPlace c 1 true ((c.addr false 1 + x.1 * c.esize : Nat) : Int) with
  | .error e => .stop s c e
  | .ok (p, t) =>
    let d := [Dest.dev p (t.pa + (c.addr false 1 + x.1 * c.esize) % 65536)]
    match s.deliverPiece c run ⟨(List.range c.esize).map fun i => byteOf x.2.1 i, x.2.2, none⟩ d with
    | none => .flush
    | some (s1, run1) =>
      .ok s1 { (if s.placeDown c p then c.note 9 else c) with k := c.k + 1, run := c.run + 1 } run1 none

/-- The open run stays open while its command asks for a translation: of another side, or again of the chunk that may hold
its line (R312). -/
def Need.keepsRun (run : Option LineW) : Need → Bool
  | .want w => w.side != 1 || run.any fun l => w.va % 65536 / 128 == l.pa % 65536 / 128
  | _ => false

/-- End a delivery: the open run lands, and the write pointer counts the elements so far. -/
def State.landed (s : State) (c : Cmd) (run : Option LineW) (word : Option WordRun) (e : Option Need) : State × Cmd × Option Need :=
  ((s.flush c run).setPointer c c.elemBits, { c with line := none, word := word }, e)

/-- Leave a delivery with its run open. -/
def State.kept (s : State) (c : Cmd) (run : Option LineW) (word : Option WordRun) (e : Option Need) : State × Cmd × Option Need :=
  if run.isNone then s.landed c run word e else (s, { c with line := run, word := word }, e)

/-- Deliver elements until the line or the scratchpad word of the run ends, the chunk run or the command ends, or an
element stops. (log 26, 28) -/
def landRun : Nat → State → Cmd → Option LineW → Option WordRun → State × Cmd × Option Need
  | 0, s, c, run, word => s.kept c run word none
  | fuel + 1, s, c, run, word =>
    if c.n ≤ c.k then s.landed c run word none
    else if 4096 ≤ c.run then s.kept c run word none
    else match (if c.op == 128 then s.landPlan c run else s.landElement c run word) with
      | .flush => s.landed c run none none
      | .stop s1 c1 e =>
        if e.keepsRun run then s1.kept c1 run word (some e)
        else if run.isSome then s1.landed c1 run word none
        else s1.landed c1 run word (some e)
      | .ok s1 c1 none none => s1.landed c1 none none none
      | .ok s1 c1 run1 word1 => landRun fuel s1 c1 run1 word1

/-! Translating, suspending, finishing (Table 9-7). -/

/-- A fault source code (Table 18-5). -/
def Cmd.src (c : Cmd) : Nat := if c.node.isSome then 5 else 0

/-- Record of a suspending translation: the command is Suspended at k. (log 27) -/
def State.suspendCmd (s : State) (n : Nat) (c : Cmd) (va : Nat) (write : Bool) (reason : Nat) : State :=
  let core := if c.node.isSome then 0 else c.core
  let s := (s.setCmd n c).closeRun n
  let r := s.fault (dieOf c.core) c.ctx va write core c.ch c.e c.src reason c.num c.k
  r.2.setCmd n { c with st := .suspended, fault := some r.1, line := none, run := 0, xls := [] }

/-- The status of a failure: that of a COPYL's words, where its record cannot be read and they break a limit. (log 24) -/
def State.failCode (s : State) (c : Cmd) (code : Nat) : Nat :=
  let words := (s.startCopyl c none).checks.status
  if c.unread && words != 0 then words else code

/-- The translations that a command holds with a further one: a passing slot holds none. -/
def Cmd.holding (c : Cmd) (w : Want) (x : Xl) : List (Nat × Xl) := if passing w.side then c.xls else insertAt (xlSide w.side) x c.xls

/-- A translation has an outcome for a command (PAGE_WALK_COMPLETE, or a TLB hit). -/
def State.cmdTranslated (s : State) (n : Nat) (c : Cmd) (w : Want) (o : Outcome) : State :=
  match o with
  | .ok l =>
    if (c.op == 9 || (c.op == 10 && w.side == 1)) && l.host then (s.setCmd n { c with want := none }).finish n 7
    else s.setCmd n { c with st := .moving, want := none, xls := c.holding w (l.xl w.va) }
  | .suspend r => s.suspendCmd n c w.va w.write r
  | .fail _ => (s.setCmd n { c with want := none }).finish n (s.failCode c 7)

/-- Ask for a translation: the TLB answers, or a walk begins. (log 27) -/
def State.askXl (s : State) (n : Nat) (c : Cmd) (w : Want) : State :=
  match s.tlbHit c.core c.ctx w.va (c.access w) with
  | some l => s.cmdTranslated n c w (if l.psn && w.write then .fail 5 else .ok l)
  | none =>
    let xls := if passing w.side then c.xls else eraseAt (xlSide w.side) c.xls
    { s.setCmd n { c with st := .translating, want := some w, xls := xls } with
      walks := insertAt s.nextId ⟨dieOf c.core, c.core, c.ctx, w.va, w.write, false, .cmd n⟩ s.walks
      nextId := s.nextId + 1 }

/-- A chunk run ends after at most 4,096 elements, between two lines of the destination where it can: the translations
are released (R231). -/
def Cmd.endChunk (c : Cmd) : Cmd :=
  if 4096 ≤ c.run || (c.line.isNone && 4096 < c.run + 1024 / c.elemBits) then { c with run := 0, xls := [] } else c

/-- The end of a delivery: the need of the next element, or the finish. -/
def State.afterLanding (s : State) (n : Nat) (c : Cmd) (e : Option Need) : State :=
  match e with
  | some (.want w) => s.askXl n c w
  | some (.fail code) => (s.setCmd n c).finish n (s.failCode c code)
  | some (.hold t) => t.setCmd n c
  | none =>
    if c.n ≤ c.k then (if c.op == 7 then s.setCmd n c.endChunk else (s.setCmd n c).finish n c.code)
    else s.setCmd n c.endChunk

/-! WAITC, SIGNAL KIND 2, PREF, layout records, transducer lanes. -/

/-- The context that holds engine context e of a core: the given one if its EMASK names it, or the context of a team there
whose EMASK does (R363). (log 42) -/
def State.holderOf (s : State) (ctx core e : Nat) : Option Nat :=
  let holds := fun t => match lookup t s.ctxs with
    | some x => bitOf x.emask e
    | none => false
  if holds ctx then some ctx else (s.teams.find? fun p => p.2.live && p.2.core == core && holds p.2.ctx).map (·.2.ctx)

/-- The condition of a WAITC: some code to finish with (R222). -/
def State.waitcDone (s : State) (c : Cmd) : Option Nat :=
  if bitsOf (c.w 0) 12 2 == 0 then
    match s.holderOf c.ctx c.core (bitsOf (c.w 0) 10 2) with
    | some t => if c.w 2 * 4294967296 + c.w 1 ≤ (s.engine (engineId t c.core (bitsOf (c.w 0) 10 2))).done then some 0 else none
    | none => none
  else match s.cmdRef c false 16 (c.w 1) with
    | none => some 5
    | some r =>
      let ws := s.object r.core r.off
      if wordsPsn ws then some 14 else if bitOf (objNat ws 1) 31 != bitOf (c.w 2) 0 then some 0 else none

/-- PREF (R220): the lines of one 64 KiB chunk, if it has a translation; k counts the chunks. (log 27) -/
def State.prefetch (s : State) (n : Nat) (c : Cmd) : State :=
  let a := c.addr false 1
  let first := (a / 65536 + c.k) * 65536
  let last := a + c.w 3 - 1
  let lo := max a first / 128 * 128
  let hi := min last (first + 65535)
  let r := match s.translate c.core c.ctx first .read with
    | (.ok l, t) =>
      let sectors := (List.range ((hi - lo) / 32 + 1)).map fun i => lo + 32 * i
      let place := fun a => t.placeOf c.ctx (l.xl first) a
      let down := sectors.any fun a => match place a with
        | some p => t.placeDown c p
        | none => false
      (if !c.ro then t else sectors.foldl (fun u a => match place a with
        | some p => (u.read c.agent 1 p).2
        | none => u) t, down)
    | (_, t) => (t, false)
  let c1 := { (if r.2 then c.note 9 else c) with k := c.k + 1 }
  if last < first + 65536 then (r.1.setCmd n { c1 with k := 0 }).finish n c1.code else r.1.setCmd n c1

/-- Cache a sealed record; of 32, the one cached longest ago leaves (R210). (log 27) -/
def State.keepRecord (s : State) (c : Cmd) (a : Nat) (ws : List Nat) (bad : Bool) : State :=
  if bad || sealBad c ws then s
  else s.setCore c.core { s.core c.core with
    layouts := ((a, c.w 7 % 65536, ws) :: (s.core c.core).layouts).take 32 }

/-- A layout record through its translation (R210). -/
def State.fetchRecord (s : State) (n : Nat) (c : Cmd) : State :=
  let a := c.addr false 3
  match s.devPlace c 4 false (a : Int) with
  | .error e => s.afterLanding n c (some e)
  | .ok (p, x) =>
    match p with
    | .host h =>
      let r := s.read c.agent 64 (.host h)
      let ws := (List.range 16).map fun i => leNat (fun j => r.1.bytes.getD (4 * i + j) 0) 4
      (r.2.keepRecord c a ws (r.1.psn || x.psn)).resolveCopyl n { c with unread := false } ws (r.1.psn || x.psn)
    | .dev stack off =>
      let g1 := s.read c.agent 32 (.dev stack off)
      let g2 := g1.2.read c.agent 32 (.dev stack (off + 32))
      let bytes := g1.1.bytes ++ g2.1.bytes
      let bad := g1.1.psn || g2.1.psn || x.psn
      let ws := (List.range 16).map fun i => leNat (fun j => bytes.getD (4 * i + j) 0) 4
      (g2.2.keepRecord c a ws bad).resolveCopyl n { c with unread := false } ws bad

/-- SIGNAL KIND 2 stores its word (R223). (log 62) -/
def State.signalStore (s : State) (n : Nat) (c : Cmd) : State :=
  match s.devPlace c 1 true (c.addr false 1 : Int) with
  | .error e => s.afterLanding n c (some e)
  | .ok (p, _) =>
    let c1 := { (if s.placeDown c p then c.note 9 else c) with k := 1 }
    let bytes := (List.range 4).map fun i => byteOf (c.w 3) i
    let s1 := if s.placeDown c p then s else s.write c.agent bytes false p
    ((s1.setPointer c1 32).setCmd n c1).finish n c1.code

/-! ATOMC and REDC at the stack (R218, R219, R421, R422). -/

/-- The type of an ATOMC and its operation as those of scratchpad atomics. -/
def atomcTy : Nat → AtomTy
  | 0 => .i32
  | 1 => .u32
  | 2 => .f32
  | _ => .i64

def atomcOp : Nat → AtomOp
  | 0 => .add
  | 1 => .exch
  | 2 => .min
  | 3 => .max
  | 4 => .and
  | 5 => .or
  | _ => .xor

/-- Words of a number of bytes. -/
def bytesNat (bs : List Byte) : Nat := leNat (fun i => bs.getD i 0) bs.length

/-- STACK_ATOMIC_APPLY of an ATOMC: the old value goes to the result block; a compare-and-swap that fails, and one
that meets poison, writes nothing. (log 28) -/
def State.applyAtomc (s : State) (n : Nat) (c : Cmd) : State :=
  let op := bitsOf (c.w 0) 10 4
  let ty := bitsOf (c.w 0) 8 2
  let w := c.bytes
  match s.devPlace c 1 true (c.addr false 1 : Int) with
  | .error e => s.afterLanding n c (some e)
  | .ok (p, _) =>
    match s.cmdRef c true w (c.w 4) with
    | none => (s.setCmd n c).finish n 5
    | some r => match s.spadHold c r w with
    | some t => t.setCmd n c
    | none =>
      let down := s.placeDown c p
      let a : Agent := { c.agent with ro := false, nc := false, atStack := true }
      let old := s.read a w p
      let opn := c.aux
      let bad := old.1.psn || wordsPsn (opn.take (w / 4)) || (op == 7 && wordsPsn opn)
      let oldN := bytesNat old.1.bytes
      let opN := wordsNat (opn.take (w / 4))
      let out := fun (v : Nat) => (List.range w).map fun i => byteOf v i
      let s1 := if down then s
        else if op == 7 then
          if old.1.psn || wordsPsn (opn.take (w / 4)) || oldN != opN then old.2
          else old.2.write a (out (wordsNat (opn.drop (w / 4)))) (wordsPsn (opn.drop (w / 4))) p
        else if bad then old.2.write a (out 0) true p
        else old.2.write a (out (atomValue (atomcTy ty) (atomcOp op) oldN opN)) false p
      let res := if old.1.psn then List.replicate (w / 4) PWord.poison else natWords (w / 4) oldN
      let c1 := { (if down then c.note 9 else c) with k := 1 }
      (((s1.putWords c.team r.core r.off res).setPointer c1 (8 * w)).setCmd n c1).finish n c1.code

/-- STACK_ATOMIC_APPLY of one REDC element. (log 26, 28) -/
def State.applyRedc (s : State) (n : Nat) (c : Cmd) : State :=
  let f := c.shape.dst.fmt
  match s.readElem c c.shape.src 0 (c.k : Int) with
  | .error e => s.afterLanding n c (some e)
  | .ok (code, psn, down, s1) =>
    match s1.devPlace c 1 true ((c.shape.dst.base + c.k * f.size : Nat) : Int) with
    | .error e => s1.afterLanding n c (some e)
    | .ok (p, _) =>
      let gone := s1.placeDown c p
      let a : Agent := { c.agent with ro := false, nc := false, atStack := true }
      let old := s1.read a f.size p
      let v := if psn then Val.psn else decode f false code
      let o := if old.1.psn then Val.psn else decode f false (bytesNat old.1.bytes)
      let w := reduce c.shape.rop o v
      let enc := match f, c.shape.rop with
        | .i32, 1 => if w == Val.psn then (⟨0, true, false⟩ : Enc)
            else ⟨(code + bytesNat old.1.bytes) % 4294967296, false, true⟩
        | _, _ => encodeVal f w .rne false
      let s2 := if gone then s1
        else old.2.write a ((List.range f.size).map fun i => byteOf enc.code i) enc.psn p
      let c1 := { (if down || gone then c.note 9 else c) with k := c.k + 1, run := c.run + 1 }
      (s2.setPointer c1 (Fmt.bits f)).afterLanding n c1 none

/-- See assumption log 26. -/
def execStackAtomicApply (n : Nat) (s : State) : Out :=
  match s.cmd n with
  | none => .fault .noSuchObject
  | some c =>
    if c.st != .moving || c.late.isSome then .fault .noSuchObject
    else match c.op with
      | 9 => .next (s.applyAtomc n c)
      | 10 => .next (s.applyRedc n c)
      | _ => .fault .noSuchObject

/-! MCAST_RECEIVER_ARRIVAL (R250). -/

/-- See assumption log 26. -/
def execMcastReceiverArrival (n : Nat) (s : State) : Out :=
  match s.cmd n with
  | none => .fault .noSuchObject
  | some c =>
    if c.op != 7 || c.st != .moving || c.late.isSome || c.k < c.n then .fault .noSuchObject
    else match (s.chain c)[c.arrived]? with
      | none => .next ((s.setCmd n c).finish n c.code)
      | some r =>
        match (s.receiverPlace c r).bind fun p => s.spadHold c p 16 with
        | some t => .next t
        | none =>
          let s1 := s.receiverArrives c c.code r
          let c1 := { c with arrived := c.arrived + 1 }
          .next (if (s.chain c).length ≤ c1.arrived then (s1.setCmd n c1).finish n c1.code else s1.setCmd n c1)

/-! Cancellation (R232, R233). -/

/-- Fail a command that has not finished; its lane, walks and faults are left. -/
def State.cancel (s : State) (n code : Nat) : State :=
  { s with walks := s.walks.filter fun (w : Nat × Walk) => w.2.req != Requester.cmd n }.finish n code

/-- A fault of a command is answered with Retry: it translates again at k (Table 9-7). (log 27) -/
def State.retryCmd (s : State) (n : Nat) (c : Cmd) : State :=
  match c.want with
  | some w => s.askXl n { c with fault := none } w
  | none => s.setCmd n { c with st := .moving, fault := none }

/-- A command whose fault found the queue full translates again once there is room, and writes its record (R407). -/
def State.placeFault (s : State) (n : Nat) (c : Cmd) : State :=
  match c.want with
  | some w => s.askXl n { c with fault := none } w
  | none => s

end Sys2Proof.Machine
end

