-- ==== Sys2Proof/Machine/Graphs.lean ====
section
/-! DEFINITION. Command graphs (spec 15_kernel.md R354 to R358). -/

namespace Sys2Proof.Machine

/-! Nodes (Table 15-3). -/

/-- Word i of a node. -/
def nodeWord (n : List Word) (i : Nat) : Nat := (n.getD i 0).toNat
def nodeKind (n : List Word) : Nat := bitsOf (nodeWord n 0) 28 4
def nodeSuccs (n : List Word) : List Nat :=
  (List.range (bitsOf (nodeWord n 0) 24 4)).map fun k => bitsOf (nodeWord n (1 + k / 2)) (16 * (k % 2)) 16
def nodePreds (n : List Word) : Nat := bitsOf (nodeWord n 0) 12 12
def nodeNum (n : List Word) (i : Nat) : Nat := nodeWord n i + 4294967296 * nodeWord n (i + 1)

/-- First unused word of a node's body by KIND. -/
def bodyEnd : Nat → Nat
  | 0 => 13
  | 1 => 12
  | 2 => 8
  | _ => 11

/-- A node breaks its layout. -/
def nodeBad (count : Nat) (n : List Word) : Bool :=
  let w := nodeWord n
  let k := nodeKind n
  let ns := bitsOf (w 0) 24 4
  3 < k || w 0 % 4096 != 0 || 8 < ns || w 5 != 0 ||
    (List.range 8).any (fun i => ns ≤ i && bitsOf (w (1 + i / 2)) (16 * (i % 2)) 16 != 0) ||
    (List.range 16).any (fun i => bodyEnd k ≤ i && w i != 0) || (nodeSuccs n).any (fun x => count ≤ x) ||
    (k == 1 && (nodeNum n 10 == 0 || 1099511627776 < nodeNum n 10)) || (k == 2 && (8 ≤ w 6 || ns != 0)) ||
    (k == 3 && 256 ≤ w 10)

/-- A graph is refused (R354). -/
def graphBad (nodes : List (List Word)) : Bool :=
  nodes.any (nodeBad nodes.length) || 1 < nodes.countP (fun n => nodeKind n == 2) ||
    (List.range nodes.length).any fun i =>
      nodePreds (nodes.getD i []) != nodes.foldl (fun m n => m + (nodeSuccs n).countP (· == i)) 0

/-- Read pieces of 64 bytes at a device address: the bytes, or what stopped the reading. -/
def readBlocks (die ctx : Nat) : Nat → Nat → State → List Byte → Fetched × Nat
  | 0, a, s, acc => (.got acc false s, a)
  | n + 1, a, s, acc =>
    match s.fetchDev die ctx a 64 with
    | .got bs psn t => if psn then (.fail t, a) else readBlocks die ctx n (a + 64) t (acc ++ bs)
    | r => (r, a)

/-- Split words into nodes. -/
def splitNodes : Nat → List Word → List (List Word)
  | 0, _ => []
  | n + 1, ws => ws.take 16 :: splitNodes n (ws.drop 16)

/-- Begin a pass (R355). -/
def Graph.pass (g : Graph) : Graph := { g with waits := g.nodes.map nodePreds, started := [], ended := [], done := [] }

/-- What the reading of a graph gives: its condition words and nodes, a refusal, or what it waits for. -/
inductive GraphRead where
  | got (cond : List Word) (nodes : List (List Word)) (s : State)
  | refused (s : State)
  | suspend (va reason : Nat) (s : State)
  | hold

/-- Read and check a graph at an address (R354). (log 38) -/
def State.readGraph (s : State) (die ctx a : Nat) : GraphRead :=
  if a % 64 != 0 then .refused s
  else match readBlocks die ctx 1 a s [] with
    | (.hold, _) => .hold
    | (.suspend r u, va) => .suspend va r u
    | (.fail u, _) => .refused u
    | (.got hb _ u, _) =>
      let h := wordsOfBytes hb
      let n := nodeWord h 0
      if n == 0 || 4096 < n || (List.range 7).any (fun i => nodeWord h (1 + i) != 0) then .refused u
      else match readBlocks die ctx n (a + 64) u [] with
        | (.hold, _) => .hold
        | (.suspend r x, va) => .suspend va r x
        | (.fail x, _) => .refused x
        | (.got nb _ x, _) =>
          let nodes := splitNodes n (wordsOfBytes nb)
          if graphBad nodes then .refused x else .got (h.drop 8) nodes x

/-- GRAPH_ENTRY. (log 38) -/
def execGraphEntry (q idx : Nat) (s : State) : Out :=
  s.startEntry q idx 2 fun e t =>
    let ctx := (t.queue q).ctx
    match t.readGraph (t.homeDie q) ctx (e.num 2) with
    | .hold => t
    | .suspend va r u => u.entryFault q idx ctx va false r
    | .refused u => u.failEntry q idx 4
    | .got cond nodes x =>
      let g : Graph := { q := q, idx := idx, ctx := ctx, addr := e.num 2, nodes := nodes, cond := cond, waits := nodes.map nodePreds }
      { x with graphs := insertAt x.nextId g x.graphs, nextId := x.nextId + 1 }.entryStarted q idx

/-! Starts (R355, R494). -/

/-- A node may start; under SUSP a graph at a phase boundary starts none. (log 39) -/
def State.mayStartNode (s : State) (gr node : Nat) : Bool :=
  match lookup gr s.graphs with
  | none => false
  | some g =>
    if g.nodes.isEmpty then
      -- at its program index: the graph is read again first
      g.st == .running && node == 0 && g.faults.isEmpty && !(s.queue g.q).susp && s.dieReady (s.homeDie g.q)
    else
    g.st == .running && node < g.nodes.length && nodeKind (g.nodes.getD node []) != 2 && g.waits.getD node 1 == 0 &&
      !g.started.contains node && (lookup node g.faults).isNone && !((s.queue g.q).susp && g.boundary) &&
      s.dieReady (s.homeDie g.q)

/-- The copy of a node: bytes from one device address to another (R355). (log 40) -/
def nodeCopy (gr node : Nat) (g : Graph) (die : Nat) : Cmd :=
  let n := g.nodes.getD node []
  let len := nodeNum n 10
  let side := fun a => ({ base := a, fmt := .i8, str := [1] } : SideD)
  { core := die * 256, e := 0, num := 0, words := [0x01000000], gid := 0, team := 0, ctx := g.ctx, node := some (gr, node)
    n := len, bytes := len, shape := { ext := [len], src := side (nodeNum n 6), dst := side (nodeNum n 8) } }

/-- A node has started. -/
def State.nodeStarted (s : State) (gr node : Nat) : State :=
  { s with graphs := modifyAt gr (fun g => { g with started := g.started ++ [node] }) s.graphs }

/-- A node waits for a fault record. -/
def State.nodeFault (s : State) (gr node : Nat) (g : Graph) (va r : Nat) : State :=
  let f := s.queueFault g.q g.ctx va false r
  { f.2 with graphs := modifyAt gr (fun g => { g with faults := insertAt node f.1 g.faults }) f.2.graphs }

/-- What each node waits for, given the completed ones. -/
def waitsAfter (nodes : List (List Word)) (done : List Nat) : List Nat :=
  done.foldl (fun w n => (nodeSuccs (nodes.getD n [])).foldl (fun w x => w.modify x (· - 1)) w) (nodes.map nodePreds)

/-- A graph goes on from its program index: its nodes are read again (R358, R494). (log 40) -/
def State.reloadGraph (s : State) (gr : Nat) (g : Graph) : State :=
  match s.readGraph (s.homeDie g.q) g.ctx g.addr with
  | .hold => s
  | .suspend va r t => t.nodeFault gr 0 g va r
  | .refused t => { t with graphs := eraseAt gr t.graphs }.failEntry g.q g.idx 4
  | .got _ nodes t => { t with graphs := insertAt gr { g with nodes := nodes, waits := waitsAfter nodes g.done } t.graphs }

/-- GRAPH_NODE_START; of a graph at its program index, the nodes are read again first. (log 40) -/
def execGraphNodeStart (gr node : Nat) (s : State) : Out :=
  match lookup gr s.graphs with
  | none => .fault .noSuchObject
  | some g =>
    if !s.mayStartNode gr node then .fault .noSuchObject
    else if g.nodes.isEmpty then .next (s.reloadGraph gr g)
    else
      let n := g.nodes.getD node []
      let die := s.homeDie g.q
      match nodeKind n with
      | 0 =>
        match ((s.acquireAll g.ctx).describe die g.ctx (nodeNum n 6)).launch g.ctx (nodeNum n 8) (nodeWord n 10) (nodeWord n 11)
            (nodeWord n 12) s.nextId (.node gr node) with
        | .hold => .next s
        | .suspend va r t => .next (t.nodeFault gr node g va r)
        | .refused t => .next ((t.nodeStarted gr node).nodeEnds gr node 4)
        | .ok t => .next (t.nodeStarted gr node)
      | 1 =>
        let t := (s.acquireAll g.ctx).nodeStarted gr node
        .next { t with cmds := insertAt t.nextId (nodeCopy gr node g die) t.cmds, nextId := t.nextId + 1 }
      | _ =>
        let f := s.funcOf g.ctx
        match s.portReach die f (nodeNum n 6) with
        | .wait => .next s
        | .down => .next ((s.nodeStarted gr node).nodeEnds gr node 0)
        | .ok =>
          let t := ((s.acquireAll g.ctx).hostWrite (nodeNum n 6) ((List.range 8).map fun i => byteOf (nodeNum n 8) i) false).nodeStarted
            gr node
          .next ({ t with msix := (f, nodeWord n 10) :: t.msix }.nodeEnds gr node 0)

/-! Completions (Table 15-4). -/

/-- No started node of the graph runs. -/
def Graph.quiet (g : Graph) : Bool := g.ended.isEmpty && g.started.all (g.done.contains ·)

/-- The conditional node. -/
def Graph.conditional (g : Graph) : Option Nat := g.nodes.findIdx? fun n => nodeKind n == 2

/-- Every node but the conditional one has completed. -/
def Graph.passDone (g : Graph) : Bool :=
  !g.nodes.isEmpty && (List.range g.nodes.length).all fun i => nodeKind (g.nodes.getD i []) == 2 || g.done.contains i

/-- The graph has exited, or failed: its entry completes, or ends. Its queue is in Error from the failure of the node on. -/
def State.endGraph (s : State) (gr : Nat) (g : Graph) (failed : Bool) : State :=
  let t := { s with graphs := eraseAt gr s.graphs }
  if failed then t.setQueue g.q ((t.queue g.q).endEntry g.idx) else t.completeEntry g.q g.idx

/-- A node has failed: its graph's queue enters Error where the program caused it (R355). (log 40) -/
def State.nodeFails (s : State) (g : Graph) (code : Nat) : State :=
  if code == 0 || code == failedQuietly || g.st != .running then s else s.setQueue g.q ((s.queue g.q).entryError code g.idx)

/-- What follows the completion of a node. (log 40) -/
def State.graphGoes (s : State) (gr : Nat) : State :=
  match lookup gr s.graphs with
  | none => s
  | some g =>
    if g.st == .failing then (if g.quiet then s.endGraph gr g true else s)
    else if g.passDone && g.quiet then
      (if g.conditional.isSome then { s with graphs := modifyAt gr (fun g => { g with st := .evaluating }) s.graphs }
       else s.endGraph gr g false)
    else s

/-- A completion may be taken: of a node that has ended, or of the conditional node. -/
def State.mayComplete (s : State) (gr node : Nat) : Bool :=
  match lookup gr s.graphs with
  | none => false
  | some g => g.ended.any (fun e => e.1 == node) ||
      (g.conditional == some node && (g.st == .evaluating || (g.st == .running && g.passDone)) &&
        !((s.queue g.q).susp && g.boundary))

/-- GRAPH_NODE_COMPLETE. (log 40) -/
def execGraphNodeComplete (gr node : Nat) (s : State) : Out :=
  match lookup gr s.graphs with
  | none => .fault .noSuchObject
  | some g =>
    if !s.mayComplete gr node then .fault .noSuchObject
    else match g.ended.find? (fun e => e.1 == node) with
      | some (_, code) =>
        let t := (s.releaseAll g.ctx).nodeFails g code
        let first := g.st == .running && code != 0
        let succs := if code == 0 then nodeSuccs (g.nodes.getD node []) else []
        let g1 : Graph := { g with
          ended := g.ended.filter fun e => e.1 != node
          done := g.done ++ [node]
          waits := succs.foldl (fun w x => w.modify x (· - 1)) g.waits
          st := if code != 0 then .failing else g.st
          cause := if first then code else g.cause }
        .next (({ t with graphs := insertAt gr g1 t.graphs }.graphGoes gr).settleQueue g.q)
      | none =>
        let n := g.nodes.getD node []
        if g.cond.getD (nodeWord n 6 % 8) 0 != 0 && (nodeWord n 7 == 0 || g.passes + 1 < nodeWord n 7) then
          .next { s with graphs := modifyAt gr (fun g => { g.pass with st := .running, passes := g.passes + 1 }) s.graphs }
        else .next ((s.endGraph gr g false).settleQueue g.q)

end Sys2Proof.Machine
end

