-- ==== Sys2Proof/Machine/Lanes.lean ====
section
/-! DEFINITION. Transducer lanes: tables, runs, and the delivery of elements of every command (spec
19_stack_logic.md R431 to R436, 09_copy_command.md R228, R230). -/

namespace Sys2Proof.Machine

/-! Tables (R432, R433). -/

/-- The word at byte p of a table. -/
def tableWord (t : List Byte) (p : Nat) : Nat := leNat (fun i => t.getD (p + i) 0) 4

/-- States and entries of a table. -/
def nstOf (t : List Byte) : Nat := tableWord t 0 % 256 + 1
def ntransOf (t : List Byte) : Nat := tableWord t 4 % 4096

/-- Word i of state record s. -/
def stateWord (t : List Byte) (s i : Nat) : Nat := tableWord t (64 + 16 * s + 4 * i)
/-- Word i of transition entry e. -/
def entryWord (t : List Byte) (e i : Nat) : Nat := tableWord t (64 + 16 * nstOf t + 24 * e + 4 * i)

/-- Dispatch width of a state. -/
def widthOf (t : List Byte) (s : Nat) : Nat := bitsOf (stateWord t s 0) 24 2 + 1

/-- FIRST and COUNT of a state. -/
def firstOf (t : List Byte) (s : Nat) : Nat := stateWord t s 1 % 65536
def countOf (t : List Byte) (s : Nat) : Nat := stateWord t s 1 / 65536

/-- A state record breaks its layout. -/
def stateBad (t : List Byte) (s : Nat) : Bool :=
  let w := stateWord t s 0
  bitsOf w 26 4 != 0 || bitsOf w 12 3 != 0 || w % 256 != 0 || nstOf t ≤ bitsOf w 16 8 ||
    8 < bitsOf w 8 4 || (bitOf w 15 && bitsOf w 8 4 != 0) || ntransOf t < firstOf t s + countOf t s || 2048 < countOf t s

/-- An entry breaks its layout, as an entry of a state of width n. -/
def transBad (t : List Byte) (n e : Nat) : Bool :=
  let w := entryWord t e 2
  entryWord t e 5 != 0 || w / 65536 != 0 || bitsOf w 12 3 == 0 || n < bitsOf w 12 3 || 8 < bitsOf w 8 4 ||
    (bitOf w 15 && bitsOf w 8 4 != 0) || nstOf t ≤ w % 256 || entryWord t e 1 < entryWord t e 0 ||
    2 ^ (8 * n) ≤ entryWord t e 1

/-- The entries of a state are not in strictly ascending ranges. -/
def orderBad (t : List Byte) (s : Nat) : Bool :=
  (List.range (countOf t s - 1)).any fun i => entryWord t (firstOf t s + i + 1) 0 ≤ entryWord t (firstOf t s + i) 1

/-- Fields of an entry that no state of the table uses: reserved fields, NEXT and OLEN hold for it too. -/
def entryFieldBad (t : List Byte) (e : Nat) : Bool :=
  let w := entryWord t e 2
  entryWord t e 5 != 0 || w / 65536 != 0 || bitsOf w 12 3 == 0 || 4 < bitsOf w 12 3 || 8 < bitsOf w 8 4 ||
    (bitOf w 15 && bitsOf w 8 4 != 0) || nstOf t ≤ w % 256 || entryWord t e 1 < entryWord t e 0

/-- A table is accepted (R433). (log 32) -/
def tableOk (t : List Byte) : Bool :=
  64 ≤ t.length && t.length == 64 + 16 * nstOf t + 24 * ntransOf t &&
    tableWord t 60 == crc32c (t.take 60 ++ t.drop 64) &&
    (List.range 13).all (fun i => tableWord t (8 + 4 * i) == 0) && tableWord t 4 < 4096 && ntransOf t ≤ 2048 &&
    tableWord t 0 / 65536 == 0 && bitsOf (tableWord t 0) 8 8 < nstOf t &&
    (List.range (ntransOf t)).all (fun e => !entryFieldBad t e) &&
    (List.range (nstOf t)).all fun s => !stateBad t s && !orderBad t s &&
      (List.range (countOf t s)).all fun i => !transBad t (widthOf t s) (firstOf t s + i)

/-! Lane starts (R434 to R436). -/

def State.lane (s : State) (l : Nat) : TxLane := (lookup l s.txlanes).getD {}
def State.setLane (s : State) (l : Nat) (x : TxLane) : State := { s with txlanes := insertAt l x s.txlanes }

/-- A context that is neither destroyed nor killed. -/
def State.ctxLive (s : State) (t : Nat) : Bool :=
  match lookup t s.ctxs with
  | some c => c.st != .killing && c.st != .failed
  | none => false

/-- TX_LANE_START: the first command waiting at an idle lane starts there. (log 32) -/
def execTxLaneStart (l : Nat) (s : State) : Out :=
  let x := s.lane l
  match x.queue with
  | [] => .fault .noSuchObject
  | n :: _ =>
    match s.cmd n with
    | none => .fault .noSuchObject
    | some c =>
      if x.busy then .fault .noSuchObject
      else if c.op == 14 then
        match x.owner with
        | some o => if o != c.ctx && s.ctxLive o then .next (s.finish n 13)
            else .next (s.setLane l { x with owner := none, table := [], busy := true })
        | none => .next (s.setLane l { x with owner := none, table := [], busy := true })
      else if x.owner != some c.ctx then .next (s.finish n 13)
      else .next ((s.setLane l { x with busy := true }).setCmd n
        { c with tx := { st := bitsOf (tableWord x.table 0) 8 8 } })

/-! Bytes of a run. -/

/-- The side under which a byte is translated: a step may straddle two pages. -/
def slotFor (first other : Nat) (base a : Nat) : Nat := if a / 65536 == base / 65536 then first else other

/-- Input bytes from address a on, up to the end of the input; bytes past it read 0. Poison, and a partition-down
reply, among them. -/
def State.inputBytes (s : State) (c : Cmd) (i : Nat) : Nat → Except Need (List Byte × Bool × Bool × State)
  | 0 => .ok ([], false, false, s)
  | w + 1 =>
    match s.inputBytes c i w with
    | .error e => .error e
    | .ok (bs, bad, down, s1) =>
      if c.n ≤ i + w then .ok (bs ++ [0], bad, down, s1)
      else
        let a := c.addr false 1 + i + w
        match s1.sideRead c {} (slotFor 0 5 (c.addr false 1 + i) a) a 0 1 with
        | .error e => .error e
        | .ok (g, s2) => .ok (bs ++ g.bytes, bad || g.psn, down || g.down, s2)

/-- Write bytes from an address on, one home write for each line. -/
def State.outputBytes (s : State) (c : Cmd) (first other base : Nat) (psn : Bool) :
    List Byte → Option LineW → Nat → Except Need State
  | [], run, _ => .ok (s.flush c run)
  | b :: bs, run, a =>
    match s.devPlace c (slotFor first other base a) true (a : Int) with
    | .error e => .error e
    | .ok (p, x) =>
      match s.deliverPiece c run ⟨[b], psn, none⟩ [.dev p (x.pa + a % 65536)] with
      | some (s1, run1) => s1.outputBytes c first other base psn bs run1 (a + 1)
      | none =>
        match (s.flush c run).deliverPiece c none ⟨[b], psn, none⟩ [.dev p (x.pa + a % 65536)] with
        | some (s1, run1) => s1.outputBytes c first other base psn bs run1 (a + 1)
        | none => .ok s

/-- The pages that n bytes from an address need are held: whether a die in reset discards some of the bytes. -/
def State.outputReady (s : State) (c : Cmd) (first other a n : Nat) : Except Need Bool :=
  (List.range n).foldl (fun r i => match r with
    | .error e => .error e
    | .ok down => (s.devPlace c (slotFor first other a (a + i)) true ((a + i : Nat) : Int)).map fun p =>
        down || s.placeDown c p.1) (.ok false)

/-- The transition that a key takes: an entry, or the default step. -/
def transitionOf (t : List Byte) (st key : Nat) : Option Nat :=
  ((List.range (countOf t st)).map fun i => firstOf t st + i).find? fun e =>
    entryWord t e 0 ≤ key && key ≤ entryWord t e 1

/-- The run record (Table 19-5). -/
def runRecord (t : List Byte) (c : Cmd) : List Byte :=
  let x := c.tx
  bytesOfWords [c.k, x.o, x.st + 256 * (bitOf (stateWord t x.st 0) 30).toNat + 512 * x.halted.toNat + 1024 * x.full.toNat +
    2048 * x.psn.toNat, x.steps % 4294967296]

/-- The translations after a step of n elements, where the next one has at most m: they are released before 4,096 elements
have passed (R231). -/
def Cmd.released (c : Cmd) (n m : Nat) : Cmd :=
  if 4096 < c.run + n + m then { c with run := 0, xls := [] } else { c with run := c.run + n }

/-- The end of a run: its record, then the finish. -/
def State.endRun (s : State) (n : Nat) (c : Cmd) (t : List Byte) : State :=
  let a := c.addr false 4
  match s.outputReady c 7 7 a 16 with
  | .error e => s.afterLanding n c (some e)
  | .ok down =>
    match s.outputBytes c 7 7 a false (runRecord t c) none a with
    | .error e => s.afterLanding n c (some e)
    | .ok s1 =>
      let c1 := { (if down then c.note 9 else c) with bytes := c.tx.o + 16 }
      (s1.setCmd n c1).finish n c1.code

/-- One step of a run (R435). (log 32) -/
def State.runStep (s : State) (n : Nat) (c : Cmd) : State :=
  let t := (s.lane c.lane).table
  let x := c.tx
  let sw := stateWord t x.st 0
  if x.full then s.endRun n c t
  else if bitOf sw 31 then s.endRun n { c with tx := { x with halted := true } } t
  else if c.n ≤ c.k then s.endRun n c t
  else
    let w := widthOf t x.st
    match s.inputBytes c c.k w with
    | .error e => s.afterLanding n c (some e)
    | .ok (bs, bad, lost, s1) =>
      let key := bs.foldl (fun k b => k * 256 + b.toNat) 0
      let tr := if bad then none else transitionOf t x.st key
      let cons := min (match tr with
        | some e => bitsOf (entryWord t e 2) 12 3
        | none => 1) (c.n - c.k)
      let echo := match tr with
        | some e => bitOf (entryWord t e 2) 15
        | none => bitOf sw 15
      let text := match tr with
        | some e => (List.range (bitsOf (entryWord t e 2) 8 4)).map fun i => byteOf (entryWord t e (3 + i / 4)) (i % 4)
        | none => (List.range (bitsOf sw 8 4)).map fun i => byteOf (stateWord t x.st (2 + i / 4)) (i % 4)
      let out := if echo then bs.take cons else text
      let next := match tr with
        | some e => entryWord t e 2 % 256
        | none => bitsOf sw 16 8
      if c.w 6 < x.o + out.length then
        s1.setCmd n { (if lost then c.note 9 else c) with tx := { x with full := true, psn := x.psn || bad } }
      else
        let a := c.addr false 4 + 16 + x.o
        match s1.outputReady c 1 6 a out.length with
        | .error e => s1.afterLanding n c (some e)
        | .ok down =>
          match s1.outputBytes c 1 6 a bad out none a with
          | .error e => s1.afterLanding n c (some e)
          | .ok s2 =>
            let c1 := { (if lost || down then c.note 9 else c).released cons 4 with
              k := c.k + cons, bytes := x.o + out.length
              tx := { x with st := next, o := x.o + out.length, steps := x.steps + 1, psn := x.psn || bad } }
            let e := s2.engine c.key
            (s2.setEngine c.key { e with wp := e.wp.set c.ch (c.mark + c1.tx.o) }).setCmd n c1

/-- One byte of a load (R434); after the last one the table is checked. A table with a poisoned byte is refused; one
that a die in reset did not deliver is not kept either, and the load completes with PARTDOWN (R236). (log 32) -/
def State.loadStep (s : State) (n : Nat) (c : Cmd) : State :=
  let l := s.lane c.lane
  if c.n ≤ c.k then
    if tableOk l.table && c.code == 0 then (s.setLane c.lane { l with owner := some c.ctx }).finish n 0
    else (s.setLane c.lane { l with table := [] }).finish n (if c.code == 9 then 9 else 13)
  else match s.sideRead c {} 0 (c.addr false 1 + c.k) 0 1 with
    | .error e => s.afterLanding n c (some e)
    | .ok (g, s1) =>
      (s1.setLane c.lane { l with table := l.table ++ g.bytes }).setCmd n
        { c.released 1 1 with k := c.k + 1, code := if g.psn && !g.down then 13 else if g.down && c.code == 0 then 9 else c.code }

/-! ELEMENT_LANDS. -/

/-- The next work of a Moving command: an element with its run, a byte or step of a lane, a chunk of PREF, a record, a
condition that now holds. -/
def State.landNext (s : State) (n : Nat) (c : Cmd) : State :=
  if c.late.isSome then s.finish n 0
  else if c.unread then s.fetchRecord n c
  else match c.op with
    | 12 => match s.waitcDone c with
      | some code => s.finish n code
      | none => s
    | 13 => s.signalStore n c
    | 14 => s.loadStep n c
    | 15 => s.runStep n c
    | 16 => s.prefetch n c
    | _ =>
      let r := landRun 256 s c c.line c.word
      r.1.afterLanding n r.2.1 r.2.2

/-- ELEMENT_LANDS may happen for a command. -/
def State.landable (s : State) (n : Nat) (c : Cmd) : Bool :=
  c.st == .moving && (c.late.isSome || (c.op != 9 && c.op != 10 && !(c.op == 7 && c.n ≤ c.k && !c.unread) &&
    (c.op != 12 || (s.waitcDone c).isSome) &&
    ((c.op != 14 && c.op != 15) || ((s.lane c.lane).busy && (s.lane c.lane).queue.head? == some n))))

/-- See assumption log 26. -/
def execElementLands (n : Nat) (s : State) : Out :=
  match s.cmd n with
  | none => .fault .noSuchObject
  | some c => if s.landable n c then .next (s.landNext n c) else .fault .noSuchObject

end Sys2Proof.Machine
end

