-- ==== Sys2Proof/Machine/Fences.lean ====
section
/-! DEFINITION. FENCE and TLWAIT (spec 11_memory_model.md R272 to R277). -/

namespace Sys2Proof.Machine

/-- SCOPE codes (Table 11-1). -/
def scopeCode : Scope → Nat
  | .thread => 0
  | .group => 1
  | .team => 2
  | .cluster => 3
  | .die => 4
  | .device => 5
  | .system => 6

/-- An acquire: at die scope or wider, DropCopies (R269). (log 6, 20) -/
def State.acquireAt (s : State) (ctx core : Nat) (sc : Scope) : State :=
  if 4 ≤ scopeCode sc then s.dropDie ctx (dieOf core) else s

/-- A release: at die scope or wider, WriteBack (R269). (log 6) -/
def State.releaseAt (s : State) (ctx core : Nat) (sc : Scope) : State :=
  if 4 ≤ scopeCode sc then s.writeBackDie ctx (dieOf core) else s

def FenceKind.acquires : FenceKind → Bool
  | .rel => false
  | _ => true

def FenceKind.releases : FenceKind → Bool
  | .acq => false
  | _ => true

/-- FENCE opens a switch wait; it is complete when `fenceDone` holds (R275). (log 20) -/
def execFence (k : FenceKind) (sc : Scope) (s : State) : Out :=
  runWord s fun v =>
    if v.lanes.isEmpty then .ok s
    else do
      if FenceKind.acquires k then v.acquire
      .ok (s.modSelf v fun g => { g with fence := some (k, sc), switching := true })

/-- The reads of a group have returned, and, for a release, its remote stores, atomics and pushes have been
performed. (log 20) -/
def fenceDone (g : Group) (k : FenceKind) : Bool :=
  g.outstanding.isEmpty && (!FenceKind.releases k || (g.remote == 0 && g.pushes.isEmpty))

/-- Complete the open fence of a group. (log 20) -/
def State.finishFence (s : State) (gid : Nat) : State :=
  match lookup gid s.groups with
  | none => s
  | some g =>
    match g.fence with
    | none => s
    | some (k, sc) =>
      if !fenceDone g k then s
      else
        let s1 := if FenceKind.releases k then s.releaseAt g.ctx g.core sc else s
        let s2 := if FenceKind.acquires k then s1.acquireAt g.ctx g.core sc else s1
        s2.modGroup gid fun g => { g with fence := none, switching := false }

/-- The group's context holds engine context e on its cores (R363). (log 20) -/
def State.holdsEngine (s : State) (ctx e : Nat) : Bool :=
  match lookup ctx s.ctxs with
  | some c => bitOf c.emask e
  | none => false

/-- TLWAIT waits until TLDONE has reached every lane's threshold (R277). (log 20) -/
def execTlwait (d : Reg) (sc : Scope) (e : Fin 4) (s : State) : Out :=
  runWord s fun v => do
    if v.lanes.isEmpty then .ok s
    else
      cleanD v (v.pairReg d.val)
      if !s.holdsEngine v.g.ctx e.val then .error (bindTrap v (BitVec.ofNat 8 (32 + e.val)))
      else
        v.acquire
        .ok (s.waitFor v (.tlwait v.o sc (engineId v.g.ctx v.g.core e.val) (v.lanes.map fun L => (L, (v.g.pairAt L d.val).2))))

end Sys2Proof.Machine
end

