-- ==== Sys2Proof/Machine/Reflections.lean ====
section
/-! DEFINITION. Reflections: REFL, UNREFL, RSEQ, RACK, their loads, pushes and retirement (spec 13_reflection.md R309
to R326). -/

namespace Sys2Proof.Machine

def State.modRefl (s : State) (n : Nat) (f : Refl → Refl) : State := { s with refls := modifyAt n f s.refls }

/-- The flag word of Table 13-1. -/
def Refl.flags (r : Refl) : Word :=
  BitVec.ofNat 32 ((r.st == .live).toNat * 2147483648 + r.pend.toNat * 1073741824 + r.ovr.toNat * 536870912 +
    (r.st == .lost).toNat * 268435456 + r.gap.toNat * 134217728 + r.relp.toNat * 67108864)

/-- Write the bytes of a range into a slot: whole words, those of a poisoned sector poisoned with data 0 (R314).
No undo log entry is made (R315). -/
def State.writeSlot (s : State) (r : Refl) (data : List Byte) (psn : Bool × Bool) : State :=
  upTo (r.size / 4) (fun t i =>
    let bad := if i < 8 then psn.1 else psn.2
    let w := if bad then PWord.poison else PWord.ok (BitVec.ofNat 32 (leNat (fun j => data.getD (4 * i + j) 0) 4))
    { t with spad := writeAt PWord.zero (r.core * 65536 + r.off / 4 + i) w t.spad }) s

/-- An outstanding result receives its value, wherever its group is. -/
def State.deliverResult (s : State) (src : Nat) (v : PWord) : State :=
  { s with groups := s.groups.map fun p =>
      if p.2.outstanding.any fun r => r.src == src && r.due.isNone then
        (p.1, { p.2 with outstanding := p.2.outstanding.map fun r =>
          if r.src == src && r.due.isNone then { r with due := some s.now, val := v } else r })
      else p }

/-- The UNREFLs of a reflection retire, and its entry is free (R320). -/
def State.freeRefl (s : State) (n : Nat) (r : Refl) : State :=
  r.unrefs.foldl (fun t u => t.deliverResult u PWord.zero) { s with refls := eraseAt n s.refls }

/-- Unsubscribe a reflection, as UNREFL does or for the device; `mark` is the result that waits for it (Table 13-5). -/
def State.unsubscribe (s : State) (n : Nat) (mark : Option Nat) : State :=
  match lookup n s.refls with
  | none => s
  | some r =>
    let r1 := { r with unrefs := r.unrefs ++ mark.toList }
    match r.st with
    | .registering => s.modRefl n fun _ => { r1 with leaving := true }
    | .live => s.modRefl n fun _ => { r1 with st := .unsubscribing }
    | .unsubscribing => s.modRefl n fun _ => r1
    | .lost => s.freeRefl n r1

/-! Entries (R311). -/

/-- The cluster of a reflection's team. -/
def State.reflCluster (s : State) (r : Refl) : Nat := ((lookup r.team s.teams).map (·.cluster)).getD 0

/-- Reflections that hold entries in the facet filters and mirror tables. (log 29) -/
def State.tracked (s : State) : List Refl := (s.refls.map (·.2)).filter fun r => r.st != .lost

/-- Entries are free, or cover the range already. (log 29) -/
def State.entriesFree (s : State) (core cl stack soff : Nat) : Bool :=
  let line := fun r : Refl => (r.stack, r.soff / 128)
  let lines := ((s.tracked.filter fun r => s.reflCluster r == cl).map line).eraseDups
  let slice := s.homeOf stack soff
  let region := fun r : Refl => (r.stack, r.soff / 512, s.reflCluster r)
  let regions := ((s.tracked.filter fun r => s.homeOf r.stack r.soff == slice).map region).eraseDups
  s.refls.countP (fun p => p.2.core == core) < 64 &&
    (s.reach (dieOf core) (stack / 4) (soff / 128) == .down ||
      ((lines.contains (stack, soff / 128) || lines.length < 2048) &&
        (regions.contains (stack, soff / 512, cl) || regions.length < 4096)))

/-! REFL (R317 to R319). -/

/-- Subscribe the lanes of a REFL, each with its slot's offset, its device address and its place (R319). -/
def State.subscribe (s : State) (gid : Nat) (pd size : Nat) (lanes : List (Nat × Nat × Nat × Nat × Nat × Bool)) : State :=
  lanes.foldl (fun t x =>
    match lookup gid t.groups with
    | none => t
    | some g =>
      let (L, off, va, stack, soff, bad) := x
      let target := if pd == 0 then Target.mark else Target.pred L pd
      if t.entriesFree g.core (t.clusterOf g) stack soff then
        let n := t.nextId
        let r : Refl := { core := g.core, off := off, size := size, team := g.team, ctx := g.ctx, va := va, st := .registering
                          stack := stack, soff := soff, bad := bad }
        { t.setGroup gid (g.issue [{ due := none, src := n, target := target, val := PWord.ok 1 }]) with
          refls := insertAt n r t.refls, nextId := n + 1 }
      else t.setGroup gid (g.issue [{ due := some (t.now + 1), target := target, val := PWord.zero }])) s

/-- Translate the lanes of a REFL: each with its outcome, and the state. A page that the service has refused fails. -/
def State.reflOutcomes (s : State) (core ctx : Nat) (lanes : List (Nat × Word × Nat)) (lost : List Nat) :
    List ((Nat × Word × Nat) × Outcome) × State :=
  lanes.foldl (fun r x =>
    let q := if lost.contains (x.2.2 / 65536) then (.fail 0, r.2) else r.2.translate core ctx x.2.2 .read
    (r.1 ++ [(x, q.1)], q.2)) ([], s)

/-- The cause of Table 13-4 that an outcome gives. -/
def reflCause : Outcome → Nat
  | .ok l => if l.host then 5 else 0
  | .fail _ => 4
  | .suspend _ => 0

/-- The reflection-operand trap for the lanes that p selects. -/
def reflTrap (cause : Nat) (lanes : List (Nat × Word × Nat)) (p : Nat → Bool) : Trap :=
  { kind := 13, cause := cause, tmask := maskOf fun L => lanes.any fun x => x.1 == L && p L }

/-- What the translations of a REFL lead to. -/
inductive ReflNext where
  | trap (t : Trap)
  | suspend (va reason : Nat)
  | go (lanes : List (Nat × Nat × Nat × Nat × Nat × Bool))

/-- Check 4 of R318: a suspending page is waited for first. -/
def State.reflCheck (s : State) (g : Group) (size : Nat) (os : List ((Nat × Word × Nat) × Outcome)) : ReflNext :=
  let lanes := os.map (·.1)
  match os.find? (fun x => match x.2 with
      | .suspend _ => true
      | _ => false) with
  | some (x, .suspend r) => .suspend x.2.2 r
  | _ =>
    match [4, 5].find? fun c => os.any fun x => reflCause x.2 == c with
    | some c => .trap (reflTrap c lanes fun L => os.any fun x => x.1.1 == L && reflCause x.2 == c)
    | none => .go (os.filterMap fun x =>
        match x.2 with
        | .ok l =>
          match s.placeOf g.ctx (l.xl x.1.2.2) x.1.2.2, s.spadRef g.team g.shade true size x.1.2.1 with
          | some (.dev stack soff), some r => some (x.1.1, r.off, x.1.2.2, stack, soff, l.psn)
          | _, _ => none
        | _ => none)

/-- A REFL that waits continues with its translations; after an S word the group parks for its results (R77). (log 47) -/
def State.reflGoOn (s : State) (gid : Nat) (g : Group) (o : Issue) (pd size : Nat) (lanes : List (Nat × Word × Nat))
    (lost : List Nat) : State :=
  let r := s.reflOutcomes g.core g.ctx lanes lost
  match r.2.reflCheck g size r.1 with
  | .trap t => r.2.trapInWait o t
  | .suspend va reason =>
    let f := r.2.fault (dieOf g.core) g.ctx va false g.core 0 0 1 reason 0 0
    f.2.modGroup gid fun x => { x with wait := .refl o pd size lanes (some f.1) lost }
  | .go ls => ((r.2.modGroup gid fun x => x.wake s.now).subscribe gid pd size ls).modGroup gid fun x =>
      { x with switching := x.switching || (o.sw && !x.outstanding.isEmpty) }

/-- A walk for a REFL begins. -/
def State.reflWalk (s : State) (gid : Nat) (g : Group) (lanes : List (Nat × Word × Nat)) : State :=
  let miss := lanes.find? fun x => (s.tlbHit g.core g.ctx x.2.2 .read).isNone
  match miss with
  | none => s
  | some x =>
    { s with walks := insertAt s.nextId ⟨dieOf g.core, g.core, g.ctx, x.2.2, false, false, .refl gid⟩ s.walks
             nextId := s.nextId + 1 }

/-- The slots of a core that REFLs hold which wait for a translation: team, offset and size (R326). (log 47) -/
def State.heldSlots (s : State) (core : Nat) : List (Nat × Nat × Nat) :=
  s.groups.flatMap fun p => if p.2.core != core then [] else match p.2.wait with
    | .refl _ _ size lanes _ _ => lanes.filterMap fun x =>
        (s.spadRef p.2.team p.2.shade true size x.2.1).map fun r => (p.2.team, r.off, size)
    | _ => []

/-- Check 3 of R318 in lane L: the first cause that applies, or 0. -/
def State.reflBad (s : State) (g : Group) (size : Nat) (lanes : List (Nat × Word × Nat)) (L : Nat) : Nat :=
  let off := fun x : Nat × Word × Nat => ((s.spadRef g.team g.shade true size x.2.1).map (·.off)).getD 0
  match lanes.find? fun x => x.1 == L with
  | none => 0
  | some x =>
    if 144115188075855872 ≤ x.2.2 || x.2.2 % size != 0 then 1
    else if s.refls.any (fun p => p.2.core == g.core && p.2.off < off x + size && off x < p.2.off + p.2.size) ||
        (s.heldSlots g.core).any (fun h => h.2.1 < off x + size && off x < h.2.1 + h.2.2) ||
        lanes.any (fun y => y.1 < L && off y < off x + size && off x < off y + size) then 2
    else if g.shade then 3 else 0

/-- Bytes of a size field (Table 13-3). -/
def ReflSize.bytes : ReflSize → Nat
  | .sz8 => 8
  | .sz16 => 16
  | .sz32 => 32
  | .sz64 => 64

/-- See assumption log 47. -/
def execRefl (pd : Pred) (ar : Reg) (z : ReflSize) (s : State) : Out :=
  runWord s fun v => do
    let size := ReflSize.bytes z
    let a := v.lanesReg ar.val
    let bad := maskOf fun L => v.on L && (List.range 3).any fun i => (v.g.reg L (ar.val + i)).psn
    if bad != 0 then .error (poisonTrap bad)
    else
      let _ ← s.checked v true size size a
      let lanes := v.lanes.map fun L =>
        (L, (a L).val, (v.g.reg L (ar.val + 1)).val.toNat + 4294967296 * (v.g.reg L (ar.val + 2)).val.toNat)
      match [1, 2, 3].find? fun c => v.lanes.any fun L => s.reflBad v.g size lanes L == c with
      | some c => .error (.trap (reflTrap c lanes fun L => s.reflBad v.g size lanes L == c))
      | none =>
        if lanes.isEmpty then .ok s
        else
          let s1 := s.spend v.g.team
          if lanes.all fun x => (s.tlbHit v.g.core v.g.ctx x.2.2 .read).isSome then
            let r := s1.reflOutcomes v.g.core v.g.ctx lanes []
            match r.2.reflCheck v.g size r.1 with
            | .trap t => .error (.trap t)
            | .suspend _ _ => .ok r.2
            | .go ls => .ok (r.2.subscribe v.o.gid pd.val size ls)
          else .ok ((s1.reflWalk v.o.gid v.g lanes).waitFor v (.refl v.o pd.val size lanes none []))

/-! REFL_LOAD_LANDS (R319, R323, R325, R326). -/

/-- The load of a reflection: registration and read in one step at the home, and the landing in the slot. One that returns after
a save and whose home is down becomes Lost and keeps COUNT, PEND and the bytes of its slot, where the reply of R319 would give
COUNT 0, PEND 0 and poison (DESIGN CHOICE, log 47). -/
def State.reflLand (s : State) (n : Nat) (r : Refl) : State :=
  let lost := { r with st := .lost, leaving := false, doomed := false }
  if s.reach (dieOf r.core) (r.stack / 4) (r.soff / 128) == .down then
    let keep := if r.again then lost else { lost with count := 0, pend := false }
    let s1 := if r.again then s else s.writeSlot r [] (true, true)
    let s2 := (s1.modRefl n fun _ => keep).deliverResult n (PWord.ok 1)
    if r.leaving then s2.unsubscribe n none else s2
  else
    let data := (List.range r.size).map fun i => s.homeByte r.stack (r.soff + i)
    let psn := (r.bad || s.sectorPsn r.stack r.soff, r.bad || s.sectorPsn r.stack (r.soff + 32))
    let same := fun x : WRange => x.stack == r.stack && x.off == r.soff && x.size == r.size
    let kept := s.ranges.filter fun x => same x || !(s.subscribers x).isEmpty || (match x.last with
      | some c => s.now < c + 64
      | none => false)
    let ranges := if kept.any same then kept else kept ++ [{ stack := r.stack, off := r.soff, size := r.size }]
    let held := ((kept.find? same).map (·.held)).getD 0
    let live := { r with st := .live, pend := true, skip := held, leaving := false, doomed := false }
    let r1 := if r.again then { live with gap := true } else { live with count := 0, ovr := false, gap := false, relp := false }
    let s1 := (({ s with ranges := ranges } : State).touchRange r.stack r.soff r.size |>.writeSlot r data psn).deliverResult n (PWord.ok 1)
    let s2 := s1.modRefl n fun _ => if r.doomed then { r1 with st := .lost } else r1
    if r.leaving then s2.unsubscribe n none else s2

def execReflLoadLands (n : Nat) (s : State) : Out :=
  match lookup n s.refls with
  | none => .fault .noSuchObject
  | some r =>
    if r.st != .registering || s.reach (dieOf r.core) (r.stack / 4) (r.soff / 128) == .wait then .fault .noSuchObject
    else .next (s.reflLand n r)

/-! Pushes (R313, R314). -/

/-- PUSH_COALESCE_EXPIRY: 64 cycles after the last push of a range, its held stores leave in one. -/
def execPushCoalesceExpiry (n : Nat) (s : State) : Out :=
  match s.ranges[n]? with
  | none => .fault .noSuchObject
  | some r =>
    if r.held == 0 || s.now < r.last.getD 0 + 64 then .fault .noSuchObject
    else .next (s.pushRange { r with held := 0, rel := false } r.held r.rel)

/-- Push(slot, bytes, n, release) at one reflection (R314); the push of an ended one is discarded. -/
def State.pushSlot (s : State) (p : RPush) (x : Nat × Nat) : State :=
  match lookup x.1 s.refls with
  | none => s
  | some r =>
    if r.st == .live || r.st == .unsubscribing then
      (s.writeSlot r p.data p.psn).modRefl x.1 fun y =>
        { y with count := y.count + BitVec.ofNat 32 x.2, ovr := y.ovr || y.pend, pend := true, relp := p.rel }
    else s

/-- A push is the first of its home to its core (R280). -/
def State.pushFirst (s : State) (n : Nat) (p : RPush) : Bool :=
  s.rpushes.all fun q => n ≤ q.1 || q.2.home != p.home || q.2.core != p.core

/-- The way of a push from its home to its core (R19, R444). -/
def State.pushReach (s : State) (p : RPush) : Reach := s.reach (p.home / 64) (dieOf p.core) p.line

/-- PUSH_APPLY: a push waits while no way is Up, and one that no way can carry is discarded (R236, R442). (log 30, 47) -/
def execPushApply (n : Nat) (s : State) : Out :=
  match lookup n s.rpushes with
  | none => .fault .noSuchObject
  | some p =>
    let t : State := { s with rpushes := eraseAt n s.rpushes }
    if !s.pushFirst n p then .fault .noSuchObject
    else match s.pushReach p with
      | .wait => .fault .noSuchObject
      | .down => .next t
      | .ok => .next (p.to_.foldl (fun u x => u.pushSlot p x) t)

/-- Apply, in order, every push in flight to a reflection, and those of its home to its core that left before (R280, R314). -/
def State.drainPushes (s : State) (n : Nat) : State :=
  let now := fun q : Nat × RPush => s.rpushes.any fun y =>
    q.1 ≤ y.1 && y.2.home == q.2.home && y.2.core == q.2.core && y.2.to_.any fun x => x.1 == n
  (s.rpushes.filter now).foldl (fun t q => q.2.to_.foldl (fun u x => u.pushSlot q.2 x) t)
    { s with rpushes := s.rpushes.filter fun q => !now q }

/-- The device ends a subscription (R323): pushes that left before have been applied. -/
def State.loseRefl (s : State) (n : Nat) : State :=
  match lookup n s.refls with
  | none => s
  | some r =>
    match r.st with
    | .registering => s.modRefl n fun y => { y with doomed := true }
    | .live => (s.drainPushes n).modRefl n fun y => { y with st := .lost }
    | _ => s

/-- The device ends the subscriptions that p selects. -/
def State.loseRefls (s : State) (p : Refl → Bool) : State :=
  ((s.refls.filter fun x => p x.2).map (·.1)).foldl State.loseRefl s

/-! UNREFL, RSEQ, RACK (R320 to R322). -/

/-- The reflection of the issuing team whose slot starts at an offset of the core. -/
def State.reflAt (s : State) (v : View) (off : Nat) : Option (Nat × Refl) :=
  s.refls.find? fun p => p.2.team == v.g.team && p.2.core == v.g.core && p.2.off == off

/-- The lanes of a reflection instruction with the reflection each names (R317). -/
def State.reflLanes (s : State) (v : View) (ap ar : Nat) (d : Lanes) : Except Stop (List (Nat × Option (Nat × Refl)) × State) :=
  match s.operand v ap ar with
  | .error x => .error x
  | .ok (a, s1) =>
    let bad := maskOf fun L => v.on L && ((a L).psn || (d L).psn)
    if bad != 0 then .error (poisonTrap bad)
    else match addressTrap v.lanes (fun L => spadCheck s v true 8 8 (a L)) a with
    | .error x => .error x
    | .ok _ => .ok (v.lanes.map fun L => (L, s.reflAt v (s.ref v 8 (a L).val).off), s1)

/-- Slots that the lanes of an instruction name and that a waiting REFL of the team holds: the instruction waits until
it has subscribed (R326). (log 47) -/
def State.slotsOpen (s : State) (v : View) (a : Lanes) : Except Stop Unit :=
  let offs := v.lanes.map fun L => (s.ref v 8 (a L).val).off
  let held := (s.heldSlots v.g.core).filter fun h => h.1 == v.g.team && offs.contains h.2.1
  if held.isEmpty then .ok () else .error (.stall (.reflSlots (held.map (·.2.1))))

/-- See assumption log 47. -/
def execUnrefl (o : OpA) (s : State) : Out :=
  runWord s fun v => do
    let (ls, s1) ← s.reflLanes v o.ap.val o.ar.val fun _ => PWord.zero
    if ls.isEmpty then .ok s1
    else
      let (a, _) ← s.operand v o.ap.val o.ar.val
      s.slotsOpen v a
      let ids := ls.filterMap fun x => x.2.map (·.1)
      .ok (ids.foldl (fun t n =>
        if (lookup n t.refls).isSome then
          let u := { t.modSelf v fun g => g.issue [{ due := none, src := t.nextId, target := .mark, val := PWord.zero }] with
            nextId := t.nextId + 1 }
          u.unsubscribe n (some t.nextId)
        else t) (s1.spend v.g.team))

/-- UNREFL_RETIRE: facet filter and home have acknowledged, and the pushes that left before have been applied. -/
def execUnreflRetire (n : Nat) (s : State) : Out :=
  match lookup n s.refls with
  | none => .fault .noSuchObject
  | some r =>
    if r.st != .unsubscribing || s.rpushes.any (fun q => q.2.to_.any fun x => x.1 == n) then .fault .noSuchObject
    else .next (s.freeRefl n r)

def execRseq (acq : Bool) (o : OpM) (s : State) : Out :=
  runWord s fun v => do
    let (ls, s1) ← s.reflLanes v o.ap.val o.ar.val fun _ => PWord.zero
    let get := fun L => (ls.find? fun x => x.1 == L).bind (·.2)
    if acq && !v.lanes.isEmpty then v.acquire
    let s2 := if acq && !v.lanes.isEmpty then s1.acquireAt v.g.ctx v.g.core .device else s1
    s2.put2 v o.d.val (10 + popDelay v [o.ar.val]) fun L =>
      match get L with
      | some (_, r) => (PWord.ok r.count, PWord.ok r.flags)
      | none => (PWord.zero, PWord.zero)

/-- RACK consumes a slot; the checkpoint keeps that it did (R315). (log 47) -/
def execRack (o : OpM) (s : State) : Out :=
  runWord s fun v => do
    let d := v.lanesReg o.d.val
    let (ls, s1) ← s.reflLanes v o.ap.val o.ar.val d
    let (a, _) ← s.operand v o.ap.val o.ar.val
    s.slotsOpen v a
    let open_ := ls.filterMap fun x => x.2.bind fun r => if r.2.st == .registering then some r.1 else none
    if !open_.isEmpty then .error (.stall (.reflLoad open_))
    else
      .ok (ls.foldl (fun t x =>
        match x.2 with
        | none => t
        | some (n, r) =>
          if r.count == (d x.1).val then
            (t.modRefl n fun y => { y with pend := false, ovr := false }).modTeam v.g.team fun m =>
              { m with ckpt := m.ckpt.map fun c => if c.spent then c else { c with racked := n :: c.racked } }
          else t) s1)

/-- An ended team's reflections are unsubscribed (R324). -/
def State.unsubscribeTeam (s : State) (team : Nat) : State :=
  ((s.refls.filter fun p => p.2.team == team && p.2.st != .unsubscribing && !p.2.leaving).map (·.1)).foldl
    (fun t n => t.unsubscribe n none) s

end Sys2Proof.Machine
end

