-- ==== Sys2Proof/Machine/Contexts.lean ====
section
/-! DEFINITION. Loans, eclipses, and the kill of a context (spec 16_context.md R366, R367, R370 to R374). -/

namespace Sys2Proof.Machine

/-! Loans (R371 to R374, Table 16-4). -/

/-- The live shade of a principal. -/
def State.shadeOf (s : State) (princ : Nat) : Option Nat :=
  (s.ctxs.find? fun p => p.2.shade && p.2.princ == princ && p.2.st != .killing && p.2.st != .failed).map (·.1)

/-- A principal is busy on a core. -/
def State.busy (s : State) (princ core : Nat) : Bool :=
  s.groups.any fun p => p.2.core == core && p.2.ctx == princ && !p.2.shade && !p.2.saved &&
    (p.2.handles.isSome || p.2.st == .pending || (p.2.st == .parked && p.2.woken) ||
      (p.2.st == .active && p.2.threads.any fun t => t.st == .ready))

/-- Open becomes Idle, and an Idle loan whose principal becomes busy is eclipsed (event 7). While granules return, the
shade's atomics under way are finished (R371). -/
def State.settleLoan (s : State) (key : Nat) : State :=
  let princ := key / 1024
  let core := key % 1024
  let l := s.loan princ core
  if l.returning.isSome then s.performPasses core
  else if !l.isOpen then s
  else if s.busy princ core then (if l.idle then s.startEclipse princ core 0 else s)
  else s.setLoan princ core { l with idle := true }

/-- Granules in a map. -/
def mapCount (m : Word) : Nat := (List.range 32).countP fun i => m.getLsbD i

/-- A loan opens with a map, or its map grows; newly lent granules are zeroed at 128 bytes a cycle, and the shade's
demoted commands on the core regain their priority. -/
def State.openLoan (s : State) (princ core : Nat) (m : Word) : State :=
  let l := s.loan princ core
  let old := if l.isOpen then l.map else 0
  let new := m &&& ~~~old
  let z := match l.zeroing with
    | some (w, t) => (w ||| new, max t s.now + 64 * mapCount new)
    | none => (new, s.now + 64 * mapCount new)
  let s1 : State := s.setLoan princ core { l with isOpen := true, map := m, zeroing := if z.1 == 0 then none else some z }
  { s1 with cmds := s1.cmds.map fun p =>
      if p.2.core == core && s1.isShade p.2.ctx && s1.princOf p.2.ctx == princ then (p.1, { p.2 with demoted := false }) else p }

/-- A map bit names a granule outside the context's allotments on the core. -/
def State.mapBad (s : State) (ctx core : Nat) (m : Word) : Bool :=
  (List.range 32).any fun i => m.getLsbD i && !(s.teams.any fun p =>
    p.2.live && p.2.ctx == ctx && p.2.core == core && p.2.base ≤ i && i < p.2.base + p.2.granules)

/-- See assumption log 43. -/
def execLend (o : OpA) (s : State) : Out :=
  runWord s fun v => do
    let (a, s1) ← s.operand v o.ap.val o.ar.val
    match ← v.single a with
    | none => .ok s1
    | some (_, m) =>
      if v.g.shade || s.mapBad v.g.ctx v.g.core m then .error (.trap { kind := 10, tmask := v.en })
      else
        let s2 : State := s1.spend v.g.team
        let l := s2.loan v.g.ctx v.g.core
        if l.returning.isSome then .ok (s2.setLoan v.g.ctx v.g.core { l with after := m })
        else if l.isOpen && (l.map &&& ~~~m) != 0 then .ok (s2.startEclipse v.g.ctx v.g.core m)
        else if m == 0 then .ok s2
        else .ok (s2.openLoan v.g.ctx v.g.core m)

/-- RECALL waits until the granules have returned, and then writes the map; it is an acquire at team scope (R181, R374).
-/
def execRecall (d : Reg) (s : State) : Out :=
  runWord s fun v => do
    if v.lanes.isEmpty then .ok s
    else if v.g.shade then .error (.trap { kind := 10, tmask := v.en })
    else
      v.acquire
      let l := s.loan v.g.ctx v.g.core
      let m := if l.isOpen then l.map else 0
      .ok (((s.spend v.g.team).startEclipse v.g.ctx v.g.core 0).waitFor v (.recall v.o (v.lanes.map fun L => v.g.regIdx L d.val) m))

/-! The eclipse (R371). -/

/-- An unfinished command still has an access to make to scratchpad, other than its completion update; a shade reaches
no scratchpad but lent granules. (log 25) -/
def Cmd.touchesSpad (c : Cmd) : Bool :=
  let fresh := c.st == .posted
  let more := c.k < c.n
  if c.late.isSome then false else
  match c.op with
  | 8 | 14 | 15 | 16 | 128 => false
  | 9 => true
  | 10 => bitOf (c.w 0) 7 && (fresh || more)
  | 12 => bitsOf (c.w 0) 12 2 == 1
  | 13 => bitsOf (c.w 0) 12 2 == 0 && fresh
  | 11 => fresh || (c.shape.dst.spad && more)
  | 2 => fresh || c.unread || more
  | _ => fresh || (more && (c.shape.src.spad || c.shape.dst.spad || c.shape.idx != .none))

/-- A shade's waits on objects in returned granules end without an acquire. -/
def Group.leaveGranules (g : Group) (core : Nat) (m : Word) (now : Nat) : Group :=
  let inside := fun (c off : Nat) => c == core && m.getLsbD (off / 8192)
  match g.wait with
  | .bowait o objs =>
    let left := objs.filter fun x => !inside x.core x.off
    if left.isEmpty then g.wake now else { g with wait := .bowait o left }
  | .rawait o free objs =>
    let left := objs.filter fun x => !inside x.core x.off
    if left.isEmpty then g.wake now else { g with wait := .rawait o free left }
  | _ => g

/-- The completion object of a command lies in granules of a map on a core. -/
def State.completesIn (s : State) (c : Cmd) (core : Nat) (m : Word) : Bool :=
  let inside := fun r : Option SpadRef => match r with
    | some r => r.core == core && touchesMap m r.off 16
    | none => false
  bitsOf c.completion 30 2 != 0 && (if c.op == 7 then
      (s.chain c).any fun r => inside (s.spadRef r.1 (s.isShade c.ctx) true 16 (BitVec.ofNat 32 (33292288 + c.w 6 % 262144)))
    else inside (s.cmdRef c false 16 (c.completion % 33554432)))

/-- Cancel shade commands of a core that still touch lent granules, and demote the others. A completion update in the
granules that return is discarded (R234). (log 25, 43) -/
def State.eclipseCmds (s : State) (shade core : Nat) (m : Word) : State :=
  let on := fun c : Cmd => c.ctx == shade && c.core == core && c.node.isNone
  let s0 : State := { s with cmds := s.cmds.map fun p =>
    if p.2.ctx == shade && s.completesIn p.2 core m then (p.1, { p.2 with mute := true }) else p }
  let s1 : State := ((s0.cmds.filter fun p => on p.2 && p.2.touchesSpad).map (·.1)).foldl (fun t n => t.cancel n 10) s0
  { s1 with cmds := s1.cmds.map fun p => if on p.2 then (p.1, { p.2 with demoted := true }) else p }

/-- Every word that a shade issued on a core has written its results. -/
def State.shadeDrained (s : State) (shade core : Nat) : Bool :=
  s.groups.all fun p => p.2.ctx != shade || p.2.core != core || p.2.outstanding.all fun r => match r.due with
    | some d => d ≤ s.now
    | none => false

/-- Granules of a loan may return. -/
def State.mayReturn (s : State) (key : Nat) : Bool :=
  (s.loan (key / 1024) (key % 1024)).returning.isSome && match s.shadeOf (key / 1024) with
    | some sh => s.shadeDrained sh (key % 1024)
    | none => true

/-- GRANULES_RETURN: within 48 cycles of an eclipse. (log 43) -/
def execGranulesReturn (n : Nat) (s : State) : Out :=
  let princ := n / 1024
  let core := n % 1024
  let l := s.loan princ core
  match l.returning with
  | none => .fault .noSuchObject
  | some (m, _) =>
    if !s.mayReturn n then .fault .noSuchObject
    else
      let s1 : State := match s.shadeOf princ with
        | none => s
        | some sh =>
          let t : State := (s.groups.filter fun p => p.2.ctx == sh && p.2.core == core).foldl (fun u p => u.land p.1) (s.eclipseCmds sh core m)
          { t with groups := t.groups.map fun p =>
              if p.2.ctx == sh && p.2.core == core then (p.1, p.2.leaveGranules core m t.now) else p }
      let closed : Loan := { l with
        isOpen := false, idle := false, map := 0, lost := true, ecl := (l.ecl + 1) % 65536, returning := none, zeroing := none, after := 0 }
      let s2 : State := s1.setLoan princ core closed
      .next (if l.after == 0 then s2 else s2.openLoan princ core l.after)

/-- Words of the granules of a map are zeroed. -/
def State.zeroMap (s : State) (core : Nat) (m : Word) : State :=
  { s with spad := s.spad.filter fun p => p.1 / 65536 != core || !m.getLsbD (p.1 % 65536 / 2048) }

/-- Loans of a core whose zeroing has ended. -/
def State.zeroed (s : State) (core : Nat) : List Nat :=
  (s.loans.filter fun p => p.1 % 1024 == core && match p.2.zeroing with
    | some (_, t) => t ≤ s.now
    | none => false).map (·.1)

/-- GRANULE_ZEROING_END. (log 43) -/
def execGranuleZeroingEnd (core : Nat) (s : State) : Out :=
  match s.zeroed core with
  | [] => .fault .noSuchObject
  | ks => .next (ks.foldl (fun t k =>
      let l := t.loan (k / 1024) core
      match l.zeroing with
      | some (m, _) => (t.zeroMap core m).setLoan (k / 1024) core { l with zeroing := none }
      | none => t) s)

/-- The loans of a principal, by key. -/
def State.loansOf (s : State) (princ : Nat) : List Nat := (s.loans.filter fun p => p.1 / 1024 == princ).map (·.1)

/-- Every loan of a principal is eclipsed. -/
def State.eclipseAll (s : State) (princ : Nat) : State :=
  (s.loansOf princ).foldl (fun t k => t.startEclipse princ (k % 1024) 0) s

/-! Kill (R367). -/

/-- The queues of a context. -/
def State.queuesOf (s : State) (tag : Nat) : List Nat :=
  (s.queues.filter fun p => !isMgmt p.1 && p.2.ctx == tag).map (·.1)

/-- A queue of a killed context (Table 14-4): Error with code KILLED, ERRIDX := DONE, and no entry runs on. A Disabled
queue does not change. (log 39) -/
def Queue.kill (x : Queue) : Queue :=
  if x.st == .disabled then x else
  let y := x.fail 6 x.done
  { y with entries := y.entries.map fun p => (p.1, { p.2 with ended := p.2.ended || !p.2.finished, fault := none }) }

/-- A context's transducer tables are dropped, and its saved commands leave the lanes (R431, R436). (log 32) -/
def State.leaveTables (s : State) (tag : Nat) : State :=
  let saved := match lookup tag s.images with
    | some i => i.cmds.map fun p : Nat × Cmd => p.1
    | none => []
  let s1 : State := saved.foldl State.leaveLanes s
  { s1 with txlanes := s1.txlanes.map fun p => if p.2.owner == some tag then (p.1, { p.2 with owner := none, table := [] }) else p }

/-- Kill a context; `shades` bounds the shades killed first. (log 43) -/
def State.killFrom : Nat → State → Nat → State
  | 0, s, _ => s
  | fuel + 1, s, tag =>
    match lookup tag s.ctxs with
    | none => s
    | some c =>
      if c.st == .killing || c.st == .failed then s
      else
        let s0 : State := if c.shade then s.eclipseAll c.princ
          else match s.shadeOf tag with
            | some sh => s.killFrom fuel sh
            | none => s
        let s1 : State := (s0.queuesOf tag).foldl (fun t q => t.setQueue q (t.queue q).kill) s0
        let gone := s1.kernels.filter fun p => p.2.ctx == tag && !s1.clusters.any fun k => k.2.kernel == p.1
        let s1 : State := (gone.foldl (fun t p => t.dropKernel p.1 p.2) s1).leaveTables tag
        let s2 : State := { s1 with
          graphs := s1.graphs.filter fun p => p.2.ctx != tag
          kernels := s1.kernels.map fun p => if p.2.ctx == tag then (p.1, { p.2 with failed := true, fault := none, place := none }) else p
          images := eraseAt tag s1.images
          engines := s1.engines.map fun p => (p.1, { p.2 with queue := p.2.queue.filter fun w => w.ctx != tag })
          walks := s1.walks.filter fun w => w.2.ctx != tag }
        let s3 : State := ((s2.cmds.filter fun p => p.2.ctx == tag).map (·.1)).foldl (fun t n => t.cancel n 11) s2
        let s4 : State := s3.endGroups ((s3.groups.filter fun p => p.2.ctx == tag).map (·.1))
        let s5 : State := { s4 with groups := s4.groups.map fun p => if p.2.ctx == tag then (p.1, { p.2 with saved := false }) else p }
        let s6 : State := ((s5.teams.filter fun p => p.2.ctx == tag).map (·.1)).foldl State.unsubscribeTeam s5
        s6.modCtx tag fun x => { x with st := .killing, preq := false, preqNext := false, forced := false, fault := none }

def State.killCtx (s : State) (tag : Nat) : State := s.killFrom 2 tag

/-- Nothing of a context runs or is held any more. -/
def State.toreDown (s : State) (tag : Nat) : Bool :=
  s.cmds.all (fun p => p.2.ctx != tag) && s.teams.all (fun p => !p.2.live || p.2.ctx != tag) &&
    s.graphs.all (fun p => p.2.ctx != tag) && s.refls.all (fun p => p.2.ctx != tag) && s.kernels.all (fun p => p.2.ctx != tag) &&
    s.clusters.all (fun p => p.2.ctx != tag)

/-- CONTEXT_TEARDOWN_DONE. -/
def execContextTeardownDone (tag : Nat) (s : State) : Out :=
  match lookup tag s.ctxs with
  | none => .fault .noSuchObject
  | some c =>
    if c.st == .killing && s.toreDown tag then .next (s.modCtx tag fun x => { x with st := .failed }) else .fault .noSuchObject

end Sys2Proof.Machine
end

