-- ==== Sys2Proof/Machine/CrossLane.lean ====
section
/-! DEFINITION. Cross-lane instructions (spec 06_float.md R146 to R153). -/

namespace Sys2Proof.Machine

/-- VOTE: what the contributing lanes' predicates give (R148). -/
def voteValue (x : VoteOp) (ps : List Bool) : Bool :=
  match x with
  | .all => ps.all fun b => b
  | .any => ps.any fun b => b
  | .uni => ps.all (fun b => b) || ps.all (fun b => !b)

def execVote (x : VoteOp) (pd pa : Pred) (s : State) : Out :=
  runWord s fun v =>
    let bad := v.lanes.any fun L => (v.g.thread L).predBad pa.val
    let r := voteValue x (v.lanes.map fun L => (v.g.thread L).pred pa.val)
    .ok (s.putPred v pd.val 4 fun _ => (!bad && r, bad))

def execVoteBallot (d : Reg) (pa : Pred) (s : State) : Out :=
  sourceWord s d.val 4 fun v _ =>
    if v.lanes.any fun L => (v.g.thread L).predBad pa.val then PWord.poison
    else PWord.ok (maskOf fun L => v.on L && (v.g.thread L).pred pa.val)

/-- A reduction: every enabled lane receives one value, poisoned if any contribution is (R147). -/
def reduceWord (o : OpM) (f : List Word → Word) (s : State) : Out :=
  runWord s fun v =>
    match s.operand v o.ap.val o.ar.val with
    | .error x => .error x
    | .ok (a, s1) =>
      let r := if v.lanes.any fun L => (a L).psn then PWord.poison
        else PWord.ok (f (v.lanes.map fun L => (a L).val))
      s1.put v o.d.val (10 + popDelayTo v o.d.val [o.ar.val]) fun _ => r

/-- One step of REDUX (R149). -/
def reduxStep (x : ReduxOp) (a b : Word) : Word :=
  match x with
  | .add => a + b
  | .minSx => if a.toInt ≤ b.toInt then a else b
  | .maxSx => if a.toInt ≥ b.toInt then a else b
  | .minZx => if a.toNat ≤ b.toNat then a else b
  | .maxZx => if a.toNat ≥ b.toNat then a else b
  | .and => a &&& b
  | .or => a ||| b
  | .xor => a ^^^ b

/-- Fold a step over a list, from its first value, in order. -/
def foldFirst (f : Word → Word → Word) : List Word → Word
  | [] => 0
  | a :: as => as.foldl f a

def execRedux (x : ReduxOp) (o : OpM) (s : State) : Out := reduceWord o (foldFirst (reduxStep x)) s

/-- One step of FREDUX (R150). -/
def freduxStep (x : FReduxOp) (a b : Word) : Word :=
  match x with
  | .add => toF32 ((f32 a).add (f32 b))
  | .min => fminWord false a b
  | .max => fminWord true a b

def execFredux (x : FReduxOp) (o : OpM) (s : State) : Out := reduceWord o (foldFirst (freduxStep x)) s

/-- Identity and step of SCAN (R151). -/
def scanIdent : ScanOp → Word
  | .add => 0
  | .fadd => 0x80000000
  | .maxSx => 0x80000000
  | .minSx => 0x7FFFFFFF

def scanStep (x : ScanOp) (a b : Word) : Word :=
  match x with
  | .add => a + b
  | .fadd => toF32 ((f32 a).add (f32 b))
  | .maxSx => if a.toInt ≥ b.toInt then a else b
  | .minSx => if a.toInt ≤ b.toInt then a else b

/-- Prefixes over the enabled lanes in order, with the lane each belongs to; poison stays once it has entered. -/
def scanList (excl : Bool) (x : ScanOp) (a : Lanes) : PWord → List Nat → List (Nat × PWord)
  | _, [] => []
  | acc, L :: Ls =>
    let next := PWord.map2 (scanStep x) acc (a L)
    (L, if excl then acc else next) :: scanList excl x a next Ls

def execScan (excl : Bool) (x : ScanOp) (o : OpM) (s : State) : Out :=
  runWord s fun v =>
    match s.operand v o.ap.val o.ar.val with
    | .error e => .error e
    | .ok (a, s1) =>
      let r := scanList excl x a (PWord.ok (scanIdent x)) v.lanes
      s1.put v o.d.val (10 + popDelayTo v o.d.val [o.ar.val]) fun L => (lookup L r).getD PWord.zero

/-- MATCH (R152). -/
def execMatchLanes (o : OpM) (s : State) : Out :=
  runWord s fun v =>
    match s.operand v o.ap.val o.ar.val with
    | .error e => .error e
    | .ok (a, s1) =>
      let bad := v.lanes.any fun L => (a L).psn
      s1.put v o.d.val (4 + popDelayTo v o.d.val [o.ar.val]) fun L =>
        if bad then PWord.poison else PWord.ok (maskOf fun J => v.on J && (a J).val == (a L).val)

/-- The lane that SHFL reads (R153). -/
def shflLane (m : ShflMode) (L n : Nat) : Nat :=
  match m with
  | .idx => n % 32
  | .up => if n ≤ L then L - n else L
  | .down => if L + n ≤ 31 then L + n else L
  | .xor => Nat.xor L (n % 32)

def execShfl (m : ShflMode) (o : OpV) (s : State) : Out :=
  runWord s fun v =>
    match s.operands v o.ap.val o.ar.val 0 o.br.val with
    | .error x => .error x
    | .ok (a, b, s1) => s1.put v o.d.val (4 + popDelayTo v o.d.val [o.ar.val, o.br.val]) fun L =>
        if (b L).psn then PWord.poison else
          let x := a (shflLane m L (b L).val.toNat)
          if x.psn then PWord.poison else x

end Sys2Proof.Machine
end

