-- ==== Sys2Proof/Machine/Links.lean ====
section
/-! DEFINITION. Links: states, flits, replay, forwarding, and token buckets (spec 20_link.md R437 to R447). -/

namespace Sys2Proof.Machine

/-! Link numbers and states (Tables 20-1, 20-4). -/

/-- A link number of the part (Table 20-1); a CT-4810 has no links (R437). (log 7) -/
def State.isLink (s : State) (l : Nat) : Bool := s.part != .ct4810 && (l < 4 || (16 ≤ l && l < 52))
def isEdge (l : Nat) : Bool := l < 4

/-- The dies a link touches. -/
def linkDies : Nat → List Nat
  | 0 => [0, 1]
  | 1 => [0, 2]
  | 2 => [1, 3]
  | 3 => [2, 3]
  | l => if l < 34 then [2] else [3]

/-- STATE codes (Table 20-5). -/
def LinkSt.code : LinkSt → Nat
  | .down => 0
  | .training => 1
  | .up => 2
  | .quiescing => 3
  | .quiesced => 4
  | .retraining => 5
  | .failed => 6

/-- The status register (Table 20-5). -/
def Link.status (x : Link) : Nat :=
  x.st.code + 16 * (min 4095 x.lanes) + 65536 * (min 4294967295 x.crc) + 281474976710656 * (min 65535 x.retrains)

/-- An event of a link in the states that it changes; in the others it cannot arise, and changes nothing (Table 20-4). -/
def linkEvent (s : State) (l : Nat) (changes : Link → Bool) (f : Link → State) : Out :=
  let x := s.link l
  if !s.isLink l then .fault .noSuchObject else if changes x then .next (f x) else .next s

/-- What a link that carries flits does with them. -/
def linkFlit (s : State) (l : Nat) (f : Link → State) : Out :=
  let x := s.link l
  if s.isLink l && (x.st == .up || x.st == .quiescing) then .next (f x) else .fault .noSuchObject

/-- Log an error of a link on its lowest die. -/
def State.logLink (s : State) (l code : Nat) : State :=
  s.logError ⟨(linkDies l).headD 0, 0, code, false, 0, l, 0, s.now, 0⟩

/-- LINK_ENABLE. -/
def execLinkEnable (l : Nat) (s : State) : Out :=
  linkEvent s l (fun x => x.st == .down || x.st == .failed) fun x => s.setLink l { x with st := .training, fails := 0, since := s.now }

/-! Flits (R439 to R441, R446). -/

/-- A little-endian word of a flit. -/
def flitWord (b : List Byte) (i : Nat) : Nat := leNat (fun j => b.getD (4 * i + j) 0) 4

def flitDst (b : List Byte) : Nat := flitWord b 0 % 262144
def flitDie (b : List Byte) : Nat := bitsOf (flitWord b 0) 28 2
def flitType (b : List Byte) : Nat := bitsOf (flitWord b 0) 24 4
def flitSeq (b : List Byte) : Nat := bitsOf (flitWord b 1) 20 12
def flitAck (b : List Byte) : Nat := flitWord b 2 % 4096

/-- A flit is damaged: CRC, reserved TYPE or VC, or a reserved bit (R439). -/
def flitBad (b : List Byte) : Bool :=
  let w := flitWord b
  b.length != 256 || crc32c (b.take 252) != w 63 || 4 ≤ bitsOf (w 0) 24 4 || 4 ≤ bitsOf (w 2) 12 4 ||
    bitsOf (w 0) 30 2 != 0 || bitsOf (w 0) 18 6 != 0 || bitsOf (w 2) 16 16 != 0

/-- A flit with a link's own SEQ and ACKSEQ, and its CRC. -/
def restamp (b : List Byte) (seq ack : Nat) : List Byte :=
  let w := flitWord b
  let body := bytesOfWords [w 0, w 1 % 1048576 + seq * 1048576, w 2 / 4096 * 4096 + ack] ++ (b.take 252).drop 12
  body ++ bytesOfWords [crc32c body]

/-- A flit waits at a link for it to carry flits again (R442). -/
def State.holdFlit (s : State) (l die : Nat) (b : List Byte) : State :=
  s.setLink l { s.link l with waiting := (s.link l).waiting ++ [(die, b)] }

/-- Send a flit on a port: now, or when the link is Up and the replay buffer has room; none where the link carries nothing. -/
def State.sendFlit (s : State) (l die : Nat) (b : List Byte) : Option State :=
  let x := s.link l
  if x.st == .down || x.st == .failed then none
  else if x.st == .up && x.waiting.isEmpty && x.replay.length < 256 then
    let f := restamp b x.tx ((x.rx + 4095) % 4096)
    some { s.setLink l { x with tx := (x.tx + 1) % 4096, replay := x.replay ++ [{ seq := x.tx, bytes := f }] } with
      handed := s.handed ++ [.out l f] }
  else some (s.holdFlit l die b)

/-- The edge at which a flit between dies waits. -/
def firstEdge (a b : Nat) : Nat := edgeOf a (if Nat.xor a b == 3 then crossing a 0 else b)

/-- Carry a flit that a die holds: to the die of this package that it names (R444), or as the route table says (R446); it crosses
edge 3 at most once. None where it is dropped. (log 30) -/
def State.carry : Nat → State → Nat → List Byte → Option State
  | 0, _, _, _ => none
  | fuel + 1, s, die, b =>
    if flitDst b == Config.packageId then
      let to_ := flitDie b
      if to_ == die then some { s with handed := s.handed ++ [.here b] }
      else match s.reach die to_ 0 with
        | .ok => some { s with handed := s.handed ++ [.here b] }
        | .wait => some (s.holdFlit (firstEdge die to_) die b)
        | .down => none
    else
      let e := readAt 0 s.routes (die * 262144 + flitDst b)
      if !bitOf e 5 || bitOf e 7 then none
      else if bitOf e 6 then
        match s.reach die (5 - die) 0 with
        | .ok => s.carry fuel (5 - die) b
        | .wait => some (s.holdFlit 3 die b)
        | .down => none
      else if 18 ≤ e % 32 then none
      else s.sendFlit ((if die == 2 then 16 else 34) + e % 32) die b

/-- The error reply to a flit's source, which delivers partition-down: a response whose payload the spec does not give. (log 30) -/
def errorReply (die free : Nat) (b : List Byte) : List Byte :=
  let w := flitWord b
  let body := bytesOfWords ([w 1 % 262144 + 33554432 + bitsOf (w 1) 18 2 * 268435456, Config.packageId % 262144 + die % 4 * 262144, 4096] ++
    (List.range 60).map fun i => (Config.freeWord (free + i)).toNat)
  body ++ bytesOfWords [crc32c body]

/-- A flit that no route carries is dropped; the source of a request gets an error reply (R446). -/
def State.refuseFlit (s : State) (die : Nat) (b : List Byte) : State :=
  let t : State := { s with handed := s.handed ++ [.dropped b], free := s.free + 60 }
  if flitType b == 1 then (t.carry 2 die (errorReply die s.free b)).getD t else t

/-- Route a flit that a die holds. (log 30) -/
def State.routeFlit (s : State) (die : Nat) (b : List Byte) : State := (s.carry 2 die b).getD (s.refuseFlit die b)

/-- Send what waits at a link that has come Up, or whose buffer has room again. -/
def State.sendWaiting (s : State) (l : Nat) : State :=
  let x := s.link l
  let send := fun (t : State) (w : Nat × List Byte) => if isEdge l then t.routeFlit w.1 w.2 else (t.sendFlit l w.1 w.2).getD (t.refuseFlit w.1 w.2)
  if x.st == .up then x.waiting.foldl send (s.setLink l { x with waiting := [] }) else s

/-- The flits that a link can carry no more are answered with partition-down (R442): those that wait, and those of its
buffer. -/
def State.refuseAll (s : State) (l : Nat) (x : Link) : State :=
  (x.waiting ++ x.replay.map fun f => ((linkDies l).headD 0, f.bytes)).foldl (fun t w => t.refuseFlit w.1 w.2) s

/-- Flits up to an acknowledged sequence number leave the replay buffer. -/
def Link.ack (x : Link) (a : Nat) : Link :=
  match x.replay.findIdx? fun f => f.seq == a with
  | some i => { x with replay := x.replay.drop (i + 1) }
  | none => x

/-- A persistent error (R441). -/
def State.persistent (s : State) (l : Nat) (x : Link) (recorded : Bool) : State :=
  (s.setLink l { x with st := .retraining, retrains := x.retrains + 1, fails := 0, recorded := recorded, since := s.now
                        replay := x.replay.map fun f => { f with replays := 0 } }).logLink l 12

/-- A damaged flit: it is counted and logged, and a replay is asked for from the first missing sequence number. The eighth replay
that is refused is a persistent error. (log 30) -/
def State.refuseDamaged (s : State) (l : Nat) (x : Link) : State :=
  let y : Link := { x with crc := x.crc + 1, gap := true, refused := if x.gap then x.refused + 1 else 0 }
  let t : State := ({ s.setLink l y with handed := s.handed ++ [.replay l x.rx] } : State).logLink l 11
  if 8 ≤ y.refused then t.persistent l { y with refused := 0 } (x.st == .quiescing) else t

/-- A good flit of an edge: while a replay is due it may be a later one, which is dropped; whether it is is free, since the spec
does not give an edge's flits. Its acknowledgement clears the buffer. (log 30) -/
def State.edgeFlit (s : State) (l : Nat) (x : Link) : State :=
  if x.gap && Config.freeChoice s.free % 2 == 0 then { s with free := s.free + 1 }
  else { s with free := if x.gap then s.free + 1 else s.free }.setLink l { x with
    rx := (x.rx + 1) % 4096, gap := false, refused := 0, replay := [] }

/-- A good flit of a port: in order it is accepted; an old one is dropped; a later one is dropped, and a replay asked for. -/
def State.portFlit (s : State) (l : Nat) (x : Link) (flit : List Byte) : State :=
  let y := x.ack (flitAck flit)
  let ahead := (flitSeq flit + 4096 - x.rx) % 4096
  if ahead == 0 then
    ((s.setLink l { y with rx := (x.rx + 1) % 4096, gap := false, refused := 0 }).sendWaiting l).routeFlit ((linkDies l).headD 2) flit
  else if ahead < 2048 && !x.gap then
    { (s.setLink l { y with gap := true }).sendWaiting l with handed := ((s.setLink l y).sendWaiting l).handed ++ [.replay l x.rx] }
  else (s.setLink l y).sendWaiting l

/-- FLIT_RECEIVED: an edge's adapter says whether its flit is good; a Fercy flit shows it. (log 30) -/
def execFlitReceived (l : Nat) (good : Bool) (flit : List Byte) (s : State) : Out :=
  linkFlit s l fun x =>
    if (if isEdge l then !good else flitBad flit) then s.refuseDamaged l x
    else if isEdge l then s.edgeFlit l x
    else s.portFlit l x flit

/-- The unacknowledged flits of a link from a sequence number on; an edge's flit is known from the request alone. (log 30) -/
def Link.unacked (x : Link) (edge : Bool) (seq : Nat) : List Flit :=
  if edge then
    (match x.replay.find? fun f => f.seq == seq with
      | some f => [f]
      | none => [{ seq := seq, bytes := [] }])
  else (x.ack ((seq + 4095) % 4096)).replay

/-- REPLAY_REQUEST from the first missing sequence number: what came before has arrived; the rest is sent again. -/
def execReplayRequest (l seq : Nat) (s : State) : Out :=
  linkFlit s l fun x =>
    let again : List Flit := (x.unacked (isEdge l) seq).map fun f => { f with replays := f.replays + 1 }
    let z : Link := { x with replay := again }
    if again.any fun f => 8 < f.replays then s.persistent l z (x.st == .quiescing)
    else { s.setLink l z with handed := s.handed ++ if isEdge l then [] else again.map fun f => .out l f.bytes }

/-- LANES after repair: whole modules of 64 at an edge, four lanes at a port (Table 20-5). -/
def lanesOfLink (l lanes : Nat) : Nat := if isEdge l then min 2048 (lanes / 64 * 64) else 4

/-- LINK_TRAINING_DONE with the lanes in use: both ends must be out of reset. -/
def execLinkTrainingDone (l lanes : Nat) (s : State) : Out :=
  if (s.link l).st == .training && !((linkDies l).all fun d => (s.die d).phase == .ready || (s.die d).phase == .training) then
    .fault .noSuchObject
  else linkEvent s l (fun x => x.st == .training) fun x =>
    (s.setLink l { x with st := .up, fails := 0, gap := false, lanes := lanesOfLink l lanes }).sendWaiting l

/-- A link fails: class 13, and what it held is answered with partition-down. (log 30) -/
def State.failLink (s : State) (l : Nat) (x : Link) : State :=
  ((s.setLink l { x with st := .failed, fails := 0, recorded := false, replay := [], waiting := [] }).refuseAll l x).logLink l 13

/-- An attempt to train or to retrain fails; the third in a row fails the link. (log 54) -/
def State.attemptFails (s : State) (l : Nat) (x : Link) : State :=
  if 2 ≤ x.fails then s.failLink l x else s.setLink l { x with fails := x.fails + 1, since := s.now }

/-- LINK_TRAINING_FAILS. (log 54) -/
def execLinkTrainingFails (l : Nat) (s : State) : Out := linkEvent s l (fun x => x.st == .training) fun x => s.attemptFails l x

/-- Flits of a link are sent again after a retrain. -/
def State.replayAll (s : State) (l : Nat) (x : Link) : State :=
  { s with handed := s.handed ++ if isEdge l then [] else x.replay.map fun f => .out l f.bytes }

/-- RETRAIN_DONE. -/
def execRetrainDone (l : Nat) (s : State) : Out :=
  linkEvent s l (fun x => x.st == .retraining) fun x =>
    let y := { x with st := if x.recorded then .quiescing else .up, recorded := false, fails := 0, since := s.now }
    ((s.setLink l y).replayAll l y).sendWaiting l

/-- RETRAIN_FAILS. -/
def execRetrainFails (l : Nat) (s : State) : Out := linkEvent s l (fun x => x.st == .retraining) fun x => s.attemptFails l x

/-- An attempt to train or retrain has lasted 2^17 cycles (R442). -/
def State.attemptOver (s : State) (x : Link) : Bool := (x.st == .training || x.st == .retraining) && x.since + 131072 ≤ s.now

/-- An attempt ends without success once it has lasted that long. -/
def State.settleLink (s : State) (l : Nat) : State := if s.attemptOver (s.link l) then s.attemptFails l (s.link l) else s

/-- A push on its way is owed across a link. (log 30) -/
def State.owed (s : State) (l : Nat) : Bool :=
  s.rpushes.any fun p =>
    let a := p.2.home / 64
    let b := dieOf p.2.core
    a != b && (if Nat.xor a b == 3 then
      let c := crossing a p.2.line
      edgeOf a c == l || edgeOf c b == l
    else edgeOf a b == l)

/-- A quiescing link has drained: every flit has been acknowledged, and nothing is owed across it (R442). -/
def State.drained (s : State) (l : Nat) : Bool := (s.link l).st == .quiescing && (s.link l).replay.isEmpty && !s.owed l

/-- LINK_DRAINED. -/
def execLinkDrained (l : Nat) (s : State) : Out :=
  if (s.link l).st == .quiescing && !s.drained l then .fault .noSuchObject
  else linkEvent s l (fun x => x.st == .quiescing) fun x => s.setLink l { x with st := .quiesced, since := s.now }

/-- QUIESCE_TIMEOUT: 8,192 cycles have not drained the link. -/
def execQuiesceTimeout (l : Nat) (s : State) : Out :=
  let x := s.link l
  if s.isLink l && x.st == .quiescing && x.since + 8192 ≤ s.now then .next (s.persistent l x true) else .fault .noSuchObject

/-- A quiesce request (Table 20-4). -/
def Link.quiesce (x : Link) (now : Nat) : Link :=
  match x.st with
  | .down | .training => { x with st := .quiesced, since := now }
  | .up => { x with st := .quiescing, since := now }
  | .retraining => { x with recorded := true }
  | _ => x

/-- Resume (Table 20-4). -/
def Link.resume (x : Link) (now : Nat) : Link :=
  match x.st with
  | .down | .quiesced | .failed => { x with st := .training, fails := 0, since := now }
  | .quiescing => { x with st := .up }
  | _ => x

/-- A link goes Down: its buffer is discarded (Table 20-4, R448). (log 30) -/
def Link.close (x : Link) : Link := { x with st := .down, replay := [], waiting := [], recorded := false, gap := false, refused := 0 }

/-- The peer of a link enters its reset, or fails: the link goes Down, and partition-down answers what it held. -/
def State.dropLink (s : State) (l : Nat) : State :=
  let x := s.link l
  if x.st == .failed then s else (s.setLink l x.close).refuseAll l x

/-! Token buckets (R447). -/

/-- A bucket has not been brought to this cycle. -/
def Bucket.stale (b : Bucket) (now : Nat) : Bool := b.at_ < now && (b.level < (b.size : Int) || b.inj != 0)

/-- TOKEN_BUCKET_REFILL. -/
def execTokenBucketRefill (ctx die : Nat) (s : State) : Out :=
  let b := s.bucket ctx die
  if b.stale s.now then .next { s with buckets := insertAt (ctx * 4 + die) (b.refill s.now) s.buckets }
  else .fault .noSuchObject

end Sys2Proof.Machine
end

