-- ==== Sys2Proof/Machine/Preemption.lean ====
section
/-! DEFINITION. Pre-emption: requests, the saves of groups, the watchdog, the save and the restore of a context, and the
flush of a moved group (spec 07_group.md R177 to R181, 13 R325, 16_context.md R375 to R380). -/

namespace Sys2Proof.Machine

/-! Requests (R375, R376). -/

/-- Suspend a running command at its element (R232); it holds no translation any more. -/
def Cmd.halt (c : Cmd) : Cmd :=
  if c.st == .translating || c.st == .moving then { c with st := .suspended, fault := none, run := 0, xls := [] } else c

/-- A shade's pre-emption cancels its commands on lent granules; a principal's eclipses its loans (Table 16-4, R371). -/
def State.preemptLoans (s : State) (tag : Nat) (c : Ctx) : State :=
  if c.shade then
    ((s.cmds.filter fun p => p.2.ctx == tag && p.2.node.isNone && p.2.touchesSpad).map (·.1)).foldl (fun t n => t.cancel n 10) s
  else s.eclipseAll tag

/-- The running commands of a context stand still at their elements; their walks end (R232). -/
def State.haltCmds (s : State) (tag : Nat) : State :=
  let s0 : State := s.closeRuns fun x => x.ctx == tag
  { s0 with
    cmds := s0.cmds.map fun p => if p.2.ctx == tag then (p.1, p.2.halt) else p
    walks := s0.walks.filter fun w => w.2.ctx != tag || (match w.2.req with
      | .cmd _ => false
      | _ => true) }

/-- A pre-emption request for a context with work to save. -/
def State.beginSave (s : State) (tag : Nat) (c : Ctx) : State :=
  let s1 : State := s.modCtx tag fun x => { x with st := .saving, preq := true, preqAt := s.now, preqNext := false, forced := false }
  ((s1.queuesOf tag).foldl State.suspendQueue s1).preemptLoans tag c

/-- PREEMPTION_WATCHDOG: the request has been pending for 2^20 cycles. (log 17) -/
def execPreemptionWatchdog (tag : Nat) (s : State) : Out :=
  match lookup tag s.ctxs with
  | none => .fault .noSuchObject
  | some c =>
    if c.st != .saving || c.forced || s.now < c.preqAt + 1048576 then .fault .noSuchObject
    else
      .next ((s.haltCmds tag).modCtx tag fun x => { x with forced := true })

/-! The save of a group (R178, R376). -/

/-- Every non-exited thread is held or joining. (log 17) -/
def Group.atPoint (g : Group) : Bool := g.threads.all fun t => t.st == .held || t.st == .joining || t.st == .exited

/-- Waiting at a barrier. (log 17) -/
def Group.atBarrier (g : Group) : Bool :=
  match g.wait with
  | .bar _ => true
  | .barc _ => true
  | _ => false

/-- A REFL that has not subscribed yet: its save waits (Table 13-5). -/
def Wait.isRefl : Wait → Bool
  | .refl _ _ _ _ _ _ => true
  | _ => false

/-- The save engine may save a group. (log 17) -/
def State.saveReady (s : State) (gid : Nat) : Bool :=
  match lookup gid s.groups with
  | none => false
  | some g =>
    match lookup g.ctx s.ctxs with
    | none => false
    | some c =>
      c.st == .saving && !g.saved && g.st != .exiting && g.outstanding.isEmpty && g.pushes.isEmpty && g.fence.isNone &&
        !((readAt [] s.mwork g.core).any fun w => w.gid == gid) && !g.wait.isRefl &&
        (c.forced || g.st == .trapped || g.atPoint || g.atBarrier)

/-- A word that the save did not keep. (log 18) -/
def freeWordAt (k : Nat) : PWord := ⟨Config.freeWord (2 * k), (Config.freeWord (2 * k + 1)).getLsbD 0⟩

/-- The frame after a save of the live registers only: the other words of registers and tile store are free. (log 17) -/
def Group.liveFrame (g : Group) (k : Nat) : List (Nat × PWord) :=
  let n := 32 * g.regs + 64 * g.tsz
  let word := fun i : Nat =>
    let t := g.thread (i % 32)
    if i < 32 * g.regs && t.st == .held && t.live.getLsbD (i / 32) then g.word i else freeWordAt (k + i)
  ((List.range n).map fun i => (i, word i)).filter (fun p => p.2 != PWord.zero) ++ g.frame.filter fun p => n ≤ p.1

/-- Threads of a forced save stand at their program counters. -/
def Group.stopHere (g : Group) : Group :=
  let origin : Option Issue := match g.wait with
    | .bowait o _ | .rawait o _ _ | .wpwait o _ _ _ | .tlwait o _ _ _ | .tkget o _ _ | .recall o _ _ | .refl o _ _ _ _ _ => some o
    | _ => none
  let g1 := match origin, g.unit with
    | some o, _ => g.standWaiting o
    | none, some u => g.modLanes u.act fun _ t => { t with pc := u.k, rword := max t.rword u.next }
    | none, none => g
  { g1 with unit := none, wait := if g.atBarrier then g.wait else .none }

/-- The save of a group frees its frame and its parking image. -/
def State.saveGroup (s : State) (gid : Nat) (g : Group) (forced : Bool) : State :=
  let joins := g.threads.any fun t => t.st == .joining
  let whole := forced || g.st == .trapped || joins || g.atBarrier
  let g1 := if g.st == .trapped then g else g.stopHere
  let g2 : Group := { g1 with
    frame := if whole then g1.frame else g1.liveFrame s.free
    saved := true, whole := whole, resident := false, image := false, switching := false
    st := if g.st == .trapped then .trapped else .parked
    woken := g.st != .trapped && !g.atBarrier }
  { (s.freeImage g).setGroup gid g2 with
    free := if whole then s.free else s.free + 32 * g.regs + 64 * g.tsz
    walks := s.walks.filter fun w => w.2.req != Requester.refl gid }

/-- GROUP_SAVE. -/
def execGroupSave (gid : Nat) (s : State) : Out :=
  match lookup gid s.groups with
  | none => .fault .noSuchObject
  | some g =>
    if !s.saveReady gid then .fault .noSuchObject
    else .next (s.saveGroup gid g (match lookup g.ctx s.ctxs with
      | some c => c.forced
      | none => false))

/-! The save area (R378). -/

/-- Agent of the save engine: its traffic is not debited (R447). -/
def saveAgent (tag die : Nat) : Agent := { ctx := tag, core := die * 256, free := true }

/-- Lowest die of a context's device. -/
def Ctx.lowDie (c : Ctx) : Nat := (deviceDies c.mode c.dev).headD 0

/-- Words of the first 64 KiB of a save area, but the seal; the words whose layout the spec does not give are free. (log 18) -/
def headerWords (kind mode : Nat) (c : Ctx) (cores used free : Nat) : List Nat :=
  let mask := (deviceDies c.mode c.dev).foldl (fun m d => m + 2 ^ d) 0
  let word := fun i : Nat =>
    if i == 0 then kind
    else if i == 1 then 1 + 65536 * mode + 1048576 * mask
    else if i == 2 then used % 4294967296
    else if i == 3 then used / 4294967296
    else if i == 4 then cores
    else if 16 ≤ i && i < 1024 then (Config.freeWord (free + i)).toNat
    else 0
  (List.range 16383).map word

/-- Write words at a place, 32 bytes at a time. -/
def State.writeWords (s : State) (a : Agent) (p : Place) (ws : List Nat) : State :=
  upTo ((ws.length + 7) / 8) (fun t i =>
    let bytes := bytesOfWords ((ws.drop (8 * i)).take 8)
    match p with
    | .dev st o => t.write a bytes false (.dev st (o + 32 * i))
    | .host x => t.write a bytes false (.host (x + 32 * i))) s

/-- Cores with a slot in use. -/
def Image.cores (i : Image) : List Nat :=
  let cs : List Nat := i.teams.map (fun p => p.2.core) ++ i.cmds.map (fun p => p.2.core) ++ i.engines.map fun p => p.1 / 4 % 1024
  cs.eraseDups

/-- Address of a core's slot. -/
def Ctx.slotAt (c : Ctx) (core : Nat) : Nat := c.savea + 65536 + 753664 * (core - 256 * c.lowDie)

/-- Pages of the whole save area of a context. -/
def Ctx.areaPages (c : Ctx) : List Nat :=
  let size := 65536 + 753664 * (256 * (deviceDies c.mode c.dev).length)
  c.savea :: (List.range ((c.savea + size - 1) / 65536 - c.savea / 65536)).map fun k => (c.savea / 65536 + k + 1) * 65536

/-- Pages of the save area that a save uses: all of them once a fault of it has failed (R408). (log 18) -/
def Image.pages (i : Image) (c : Ctx) : List Nat :=
  if c.wholeArea then c.areaPages else
  c.savea :: i.cores.flatMap fun core =>
    let lo := c.slotAt core
    (List.range ((lo + 753663) / 65536 - lo / 65536 + 1)).map fun k => max lo ((lo / 65536 + k) * 65536)

/-- The first page of a list that suspends. -/
def State.suspends (s : State) (die tag : Nat) (a : Access) : List Nat → Option (Nat × Nat)
  | [] => none
  | va :: rest =>
    match (s.walk die tag va a).1 with
    | .suspend r => some (va, r)
    | _ => s.suspends die tag a rest

/-- A save or restore waits for a fault record (SRC 4). -/
def State.saveFault (s : State) (tag die va : Nat) (write : Bool) (reason : Nat) : State :=
  let f := s.fault die tag va write 0 0 0 4 reason 0 0
  f.2.modCtx tag fun c => { c with fault := some f.1 }

/-- Write a piece of the save area, within one page. A page that does not translate is not written. (log 18) -/
def State.writeSave (s : State) (tag : Nat) (c : Ctx) (va : Nat) (ws : List Nat) : State :=
  match s.walk c.lowDie tag va .write with
  | (.ok l, t) =>
    match t.placeOf tag (l.xl va) va with
    | some p => if t.placeReach tag c.lowDie p == .ok then t.writeWords (saveAgent tag c.lowDie) p ws else t
    | none => t
  | (_, t) => t

/-- Words of a core's slot that its team, group, engine, command and cluster records take: sixteen for each record, of free
values; a cluster's lies in the slot of its rank-0 core. The spec gives their place, not their layout (R378). (log 18) -/
def Image.recordWords (i : Image) (core free : Nat) : List Nat :=
  let records := i.teams.countP (fun p => p.2.core == core) + i.groups.countP (fun p => p.2.core == core) +
    i.engines.countP (fun p => p.1 / 4 % 1024 == core) + i.cmds.countP (fun p => p.2.core == core) +
    i.clusters.countP (fun p => match lookup (p.2.teams.headD 0) i.teams with
      | some t => t.core == core
      | none => false)
  (List.range (min 8192 (16 * records))).map fun k => (Config.freeWord (free + k)).toNat

/-- Words of the frames, live granules and scale memory that follow the records of a core's slot. (log 18) -/
def State.slotData (s : State) (tag : Nat) (i : Image) (core : Nat) : List Nat :=
  let frames := (i.groups.filter fun p => p.2.core == core).flatMap fun p =>
    (List.range (p.2.frameSize / 4)).map fun j => (p.2.word j).val.toNat
  let granules := (i.teams.filter fun p => p.2.core == core).flatMap fun p =>
    ((List.range p.2.granules).filter fun g => (readAt (0 : Word) i.live p.1).getLsbD g).flatMap fun g =>
      (List.range 2048).map fun k => (readAt PWord.zero i.spad (p.1 * 65536 + 2048 * g + k)).val.toNat
  let m : ScaleMem := (lookup core s.scales).getD {}
  let scales := if m.owner == some tag then
      (List.range 4096).map fun k => leNat (fun j => m.byte (4 * k + j)) 4
    else []
  frames ++ granules ++ scales

/-- Cut words at an address into pieces of 4,096 bytes, which the save engine moves under one translation each (R405). -/
def pieces (va : Nat) (ws : List Nat) : List (Nat × List Nat) :=
  (List.range ((ws.length + 1023) / 1024)).map fun k => (va + 4096 * k, (ws.drop (1024 * k)).take 1024)

/-- Bytes that an image takes in the save area. (log 18) -/
def Image.used (i : Image) : Nat := 65536 + i.slots.foldl (fun n x => n + 4 * x.2.length) 0

/-- The slots of an image, from a count of free values on. (log 18) -/
def State.fillSlots (s : State) (tag : Nat) (c : Ctx) (i : Image) (free : Nat) : Image :=
  { i with slots := (i.cores.mapIdx fun n core =>
      pieces (c.slotAt core) ((i.recordWords core (free + 8192 * n) ++ s.slotData tag i core).take 188416)).flatten }

/-- Write the save area: its first 64 KiB, and each core's slot. (log 18) -/
def State.writeArea (s : State) (tag : Nat) (c : Ctx) (i : Image) : State :=
  let ws := headerWords i.kind (s.shownMode c) c i.cores.length i.used s.free
  let s0 : State := { s with free := s.free + 1024 + 8192 * i.cores.length }
  (pieces c.savea (ws ++ [crc32c (bytesOfWords ws)]) ++ i.slots).foldl (fun t x => t.writeSave tag c x.1 x.2) s0

/-! CONTEXT_SAVE_COMPLETE (R377). -/

/-- A store on the mesh, whose group awaits no result of it. -/
def Remote.isStore (r : Remote) : Bool :=
  match r.op with
  | .store _ => true
  | _ => false

/-- Move a store's words up by n, or down. -/
def Remote.shift (r : Remote) (core : Nat) (f : Nat → Nat) : Remote :=
  { r with target := core, carried := true, op := match r.op with
    | .store ws => .store (ws.map fun w => (f w.1, w.2))
    | o => o }

/-- The stores of a context on the mesh, each with the team that it goes to. A save does not wait for them (R181). (log 18, 55) -/
def State.meshStores (s : State) (tag : Nat) : List (Nat × Nat × Remote) :=
  s.inflight.filterMap fun p =>
    if !(match lookup p.2.gid s.groups with
      | some g => g.ctx == tag
      | none => false) then none
    else match p.2.op with
      | .store ws =>
        let w := ((ws.head?).map (·.1)).getD 0
        (s.teams.find? fun t => t.2.live && t.2.ctx == tag && t.2.core == p.2.target && t.2.base ≤ w / 2048 &&
          w / 2048 < t.2.base + t.2.granules).map fun t => (p.1, t.1, p.2.shift p.2.target fun w => w - 2048 * t.2.base)
      | _ => none

/-- The stores of an image go on to where their teams are now. -/
def State.meshReturn (s : State) (i : Image) : State :=
  i.stores.foldl (fun t x => match lookup x.2.1 t.teams with
    | some m => { t with inflight := insertAt x.1 (x.2.2.shift m.core fun w => w + 2048 * m.base) t.inflight }
    | none => t) s

/-- Everything of a context has been saved, or stands still. -/
def State.allSaved (s : State) (tag : Nat) (c : Ctx) : Bool :=
  let mine := fun gid => match lookup gid s.groups with
    | some g => g.ctx == tag
    | none => false
  c.st == .saving && c.fault.isNone && s.groups.all (fun p => p.2.ctx != tag || p.2.saved) &&
    s.inflight.all (fun p => !mine p.2.gid || p.2.isStore) &&
    s.cmds.all (fun p => p.2.ctx != tag || p.2.st == .posted || p.2.st == .suspended) &&
    s.refls.all (fun p => p.2.ctx != tag || p.2.st == .live || p.2.st == .lost) &&
    s.scales.all (fun p => p.2.owner != some tag || p.2.xfers.isEmpty) &&
    s.loans.all (fun p => p.1 / 1024 != tag || p.2.returning.isNone)

/-- Granules of a team's allotment that its save keeps. -/
def State.liveGranules (s : State) (t : Nat) (x : Team) : Word :=
  let gs := (s.groups.filter fun p => p.2.team == t).map (·.2)
  if x.shade then 0
  else if gs.any (·.whole) then BitVec.ofNat 32 (2 ^ x.granules - 1)
  else
    let m := gs.foldl (fun m g => g.threads.foldl (fun n y => if y.st == .held then n ||| y.granules else n) m) (0 : Word)
    BitVec.ofNat 32 (m.toNat / 2 ^ x.base % 2 ^ x.granules)

/-- What the save records. (log 18) -/
def State.imageOf (s : State) (tag : Nat) (c : Ctx) : Image :=
  let teams : List (Nat × Team) := s.teams.filter fun p => p.2.live && p.2.ctx == tag
  let live : List (Nat × Word) := teams.map fun p => (p.1, s.liveGranules p.1 p.2)
  let cores := (teams.map fun p => p.2.core) ++ ((s.cmds.filter fun p => p.2.ctx == tag && p.2.node.isNone).map fun p => p.2.core)
  let keys := (cores.flatMap fun k => ((List.range 4).filter fun e => bitOf c.emask e).map fun e => engineId tag k e).eraseDups
  let words := fun (p : Nat × Team) => s.spad.filterMap fun w =>
    let g := w.1 % 65536 / 2048
    if w.1 / 65536 == p.2.core && p.2.base ≤ g && g < p.2.base + p.2.granules &&
        (readAt (0 : Word) live p.1).getLsbD (g - p.2.base) then
      some (p.1 * 65536 + (w.1 % 65536 - 2048 * p.2.base), w.2)
    else none
  let cmds := s.cmds.filter fun p => p.2.ctx == tag
  { kind := if teams.isEmpty && cmds.isEmpty && s.kernels.all fun p => p.2.ctx != tag then 2 else 1
    graphs := s.graphs.filter fun p => p.2.ctx == tag && p.2.nodes.isEmpty
    teams := teams.map fun p => (p.1, { p.2 with ckpt := p.2.ckpt.map fun _ => {} })
    groups := s.groups.filter fun p => p.2.ctx == tag
    clusters := s.clusters.filter fun p => p.2.ctx == tag
    refls := s.refls.filter fun p => p.2.ctx == tag
    engines := keys.map fun k => (k, s.engine k)
    cmds := cmds.map fun p => (p.1, { p.2 with carried := true, xls := [] })
    stores := s.meshStores tag
    spad := teams.flatMap words
    live := live }

/-- The context's cores, engine contexts and allotments are freed; scale memory is kept apart. -/
def State.freeSaved (s : State) (tag : Nat) : State :=
  let owned := s.scales.filter fun p => p.2.owner == some tag
  { s with
    graphs := s.graphs.filter fun p => p.2.ctx != tag || !p.2.nodes.isEmpty
    teams := s.teams.filter fun p => p.2.ctx != tag
    groups := s.groups.filter fun p => p.2.ctx != tag
    clusters := s.clusters.filter fun p => p.2.ctx != tag
    refls := s.refls.filter fun p => p.2.ctx != tag
    cmds := s.cmds.filter fun p => p.2.ctx != tag
    inflight := s.inflight.filter fun p => !(match lookup p.2.gid s.groups with
      | some g => g.ctx == tag
      | none => false)
    engines := s.engines.map fun p => (p.1, { p.2 with queue := p.2.queue.filter fun w => w.ctx != tag })
    savedScales := owned.foldl (fun m p => insertAt (tag * 1024 + p.1) p.2.bytes m) s.savedScales
    scales := s.scales.map fun p => if p.2.owner == some tag then (p.1, { p.2 with owner := none }) else p
    kernels := s.kernels.map fun p => if p.2.ctx == tag then (p.1, { p.2 with place := none }) else p }

/-- KERNEL entries of a saved context stand at a phase boundary (R494). -/
def State.markSaved (s : State) (tag : Nat) (on : Bool) : State :=
  (s.queuesOf tag).foldl (fun t q =>
    let x := t.queue q
    let es := x.entries.map fun p => if p.2.type == 1 && p.2.live then (p.1, { p.2 with saved := on }) else p
    (t.setQueue q { x with entries := es }).settleQueue q) s

/-- The context is Saved with an image. (log 18) -/
def State.toSaved (s : State) (tag : Nat) (c : Ctx) (i0 : Image) : State :=
  let i := s.fillSlots tag c i0 (s.free + 1024)
  let s1 : State := (s.writeArea tag c i).freeSaved tag
  ({ s1 with images := insertAt tag i s1.images }.markSaved tag true).modCtx tag fun x =>
    { x with st := .saved, preq := false, forced := false, wholeArea := false }

/-- See assumption log 18. -/
def execContextSaveComplete (tag : Nat) (s : State) : Out :=
  match lookup tag s.ctxs with
  | none => .fault .noSuchObject
  | some c =>
    if !s.allSaved tag c then .fault .noSuchObject
    else
      let s0 : State := ((s.refls.filter fun p => p.2.ctx == tag).map (·.1)).foldl State.drainPushes s
      let i := s0.imageOf tag c
      match s0.suspends c.lowDie tag .write (i.pages c) with
      | some (va, r) => .next ((s0.walkAll c.lowDie tag .write (i.pages c)).saveFault tag c.lowDie va true r)
      | none => .next (s0.toSaved tag c i)

/-- PREEMPT of a context (Table 16-3). -/
def State.preemptCtx (s : State) (tag : Nat) : State :=
  match lookup tag s.ctxs with
  | none => s
  | some c =>
    match c.st with
    | .ready =>
      -- no team: it is Saved at once, unless its save area suspends
      let s1 : State := (((s.queuesOf tag).foldl State.suspendQueue s).preemptLoans tag c).haltCmds tag
      let i := s1.imageOf tag c
      if (s1.suspends c.lowDie tag .write (i.pages c)).isSome then s.beginSave tag c else s1.toSaved tag c i
    | .running => s.beginSave tag c
    | .restoring => s.modCtx tag fun x => { x with preqNext := true }
    | _ => s

/-! CONTEXT_RESTORE_COMPLETE (R378, R379, R325). -/

/-- The header of a save area as it stands in memory. -/
inductive Header where
  | good | bad | hold
  | suspend (va reason : Nat)
  deriving DecidableEq, Repr

/-- A piece of the save area, within one page: its bytes, or why it cannot be read. (log 18) -/
def State.readSave (s : State) (tag : Nat) (c : Ctx) (va n : Nat) : Except Header (List Byte) :=
  match s.walk c.lowDie tag va .read with
  | (.suspend r, _) => .error (.suspend va r)
  | (.ok l, t) =>
    match t.placeOf tag (l.xl va) va with
    | none => .error .bad
    | some p =>
      match t.placeReach tag c.lowDie p with
      | .wait => .error .hold
      | .down => .error .bad
      | .ok =>
        let r := t.readPieces (saveAgent tag c.lowDie) n p
        if !r.2.1 && !l.psn then .ok r.1 else .error .bad
  | _ => .error .bad

/-- The first 64 KiB of the save area, in pieces of 4,096 bytes (R405). -/
def State.readFirst (s : State) (tag : Nat) (c : Ctx) : Except Header (List Byte) :=
  (List.range 16).foldl (fun r k => match r, s.readSave tag c (c.savea + 4096 * k) 4096 with
    | .ok bs, .ok more => .ok (bs ++ more)
    | .ok _, .error h => .error h
    | r, _ => r) (.ok [])

/-- The seal and the fields of the save area's first 64 KiB are those of the image. -/
def State.headerOk (s : State) (c : Ctx) (i : Image) (bs : List Byte) : Bool :=
  let ws := (wordsOfBytes bs).map (·.toNat)
  let mask := (deviceDies c.mode c.dev).foldl (fun m d => m + 2 ^ d) 0
  crc32c (bs.take 65532) == ws.getD 16383 0 && ws.getD 0 0 == i.kind &&
    ws.getD 1 0 == 1 + 65536 * s.shownMode c + 1048576 * mask && ws.getD 2 0 + 4294967296 * ws.getD 3 0 == i.used &&
    ws.getD 4 0 == i.cores.length

/-- The save area as it stands in memory: its seal, its fields, and its slots, which are those that the save wrote. (log
18) -/
def State.readHeader (s : State) (tag : Nat) (c : Ctx) (i : Image) : Header :=
  i.slots.foldl (fun h x =>
    if h != .good then h
    else match s.readSave tag c x.1 (4 * x.2.length) with
      | .ok bs => if (wordsOfBytes bs).map (·.toNat) == x.2 then .good else .bad
      | .error e => e)
    (match s.readFirst tag c with
      | .ok bs => if s.headerOk c i bs then .good else .bad
      | .error e => e)

/-- Saved groups of each team of a cluster, by rank. -/
def Image.counts (i : Image) (cl : Cluster) : List Nat := cl.teams.map fun t => i.groups.countP fun p => p.2.team == t

/-- A restored group: held threads become ready, and joins are evaluated. -/
def State.restoreGroup (s : State) (i : Image) (gid core : Nat) (g : Group) : State :=
  let ts := g.threads.map fun t => { t with live := 0, granules := 0, st := if t.st == .held then .ready else t.st }
  let g1 : Group := { g with
    core := core, slot := (s.freeSchedSlot core).getD 0, threads := ts, saved := false, whole := false, since := s.now
    remote := i.stores.countP fun p => p.2.2.gid == gid
    acqHold := if core == g.core || g.acqHold.contains g.core then g.acqHold else g.acqHold ++ [g.core], flushSent := false }
  let s1 : State :=
    if s.roomFor core g.shade g.frameSize then
      s.setGroup gid { g1 with resident := true, woken := false, st := if g.st == .trapped then .trapped else if g.woken then .pending else .waiting }
    else
      let t := if g.shade then s else s.usePark g.ctx (dieOf core) (imageBytes g.frameSize)
      t.setGroup gid { g1 with image := !g.shade }
  s1.evalJoins gid

/-- The saved scale memory of the cores that an image's teams left goes to the cores where these are now (R289). (log 18) -/
def State.moveScales (s : State) (tag : Nat) (i : Image) : State :=
  let kept := s.savedScales.filter fun p => p.1 / 1024 != tag || i.teams.all fun q => q.2.core != p.1 % 1024
  { s with savedScales := i.teams.reverse.foldl (fun m q =>
      match lookup q.1 s.teams, lookup (tag * 1024 + q.2.core) s.savedScales with
      | some t, some b => insertAt (tag * 1024 + t.core) b m
      | _, _ => m) kept }

/-- A restored team with its groups and live granules. -/
def State.restoreTeam (s : State) (i : Image) (t core : Nat) (x : Team) : State :=
  let base := (s.freeRun core x.granules).getD 0
  let live := readAt (0 : Word) i.live t
  let mine := i.spad.filter fun p => p.1 / 65536 == t
  let cleared := (s.takeCore core x.ctx).zeroMap core (BitVec.ofNat 32 (live.toNat * 2 ^ base))
  let s1 : State := mine.foldl (fun u p =>
    { u with spad := writeAt PWord.zero (core * 65536 + 2048 * base + p.1 % 65536) p.2 u.spad }) cleared
  let s2 : State := { s1 with teams := insertAt t { x with core := core, base := base } s1.teams }
  let s3 : State := (i.groups.filter fun p => p.2.team == t).foldl (fun u p => u.restoreGroup i p.1 core p.2) s2
  let s4 : State := if x.ckpt.isSome then s3.renew t else s3
  if x.shade then let l := s4.loan (s4.princOf x.ctx) core; s4.setLoan (s4.princOf x.ctx) core { l with lost := true } else s4

/-- Restore a cluster of an image at an origin. -/
def State.restoreCluster (s : State) (i : Image) (p : Nat × Cluster) (x y : Nat) : State :=
  let cores := rectangle p.2.die x y p.2.w p.2.h
  let t1 : State := { s with clusters := insertAt p.1 { p.2 with x := x, y := y } s.clusters }
  let t2 : State := (p.2.teams.mapIdx fun n id => (cores.getD n 0, id)).foldl (fun u q =>
    match lookup q.2 i.teams with
    | some tm => u.restoreTeam i q.2 q.1 tm
    | none => u) t1
  t2.modKernel p.2.kernel fun m => { m with cores := (m.cores ++ cores).eraseDups }

/-- A cluster of an image fits at an origin (R347, R379): slots, granules, frames, engine contexts; and the parking region holds
the images of the groups that find no frame, each by the group's own frame (R161). -/
def State.restoreFits (s : State) (i : Image) (k : Kernel) (c : Ctx) (p : Nat × Cluster) (x y : Nat) : Bool :=
  let need := (rectangle p.2.die x y p.2.w p.2.h).zip ((i.counts p.2).map fun n => { k.desc with g := n })
  need.all (fun q => s.coreFits q.1 k.ctx c.shade q.2 || (q.2.g == 0 && s.coreFits q.1 k.ctx c.shade { q.2 with g := 1 })) &&
    (c.shade || (s.restoreCluster i p x y).parkRoom k.ctx p.2.die 0)

/-- The origin of a restored cluster: that of the save if its cores are free, else another on the die. -/
def State.originFor (s : State) (i : Image) (k : Kernel) (c : Ctx) (p : Nat × Cluster) : Option (Nat × Nat) :=
  ((p.2.x, p.2.y) :: (List.range (17 - p.2.h)).flatMap fun y => (List.range (17 - p.2.w)).map fun x => (x, y)).find?
    fun q => s.restoreFits i k c p q.1 q.2

/-- Restore the clusters of an image; none where one finds no place. -/
def State.restoreClusters (s : State) (i : Image) (c : Ctx) : Option State :=
  i.clusters.foldl (fun r p => r.bind fun t =>
    match lookup p.2.kernel t.kernels with
    | none => some t
    | some k => (t.originFor i k c p).map fun o => t.restoreCluster i p o.1 o.2) (some s)

/-- A recorded reflection returns as Live, its registration and load made again, or as Lost (R325). -/
def State.restoreRefl (s : State) (i : Image) (n : Nat) (r : Refl) : State :=
  match lookup r.team s.teams, lookup r.team i.teams with
  | some t, some old =>
    let r1 : Refl := { r with core := t.core, off := r.off - 8192 * old.base + 8192 * t.base, skip := 0 }
    let lost : State := { s with refls := insertAt n { r1 with st := .lost } s.refls }
    if r.st == .lost then lost
    else
      match s.translate t.core r.ctx r.va .read with
      | (.ok l, u) =>
        match u.placeOf r.ctx (l.xl r.va) r.va with
        | some (.dev stack soff) =>
          if u.entriesFree t.core t.cluster stack soff then
            let r2 : Refl := { r1 with st := .registering, stack := stack, soff := soff, bad := l.psn, again := true }
            { u with refls := insertAt n r2 u.refls }.reflLand n r2
          else { u with refls := lost.refls }
        | _ => { u with refls := lost.refls }
      | (_, u) => { u with refls := lost.refls }
  | _, _ => s

/-- The engine contexts of an image return to their cores. They come first: the checkpoints of the teams note them
(R394). -/
def State.restoreEngines (s : State) (i : Image) : State := i.engines.foldl (fun t p => t.setEngine p.1 p.2) s

/-- Commands of an image return to their engine contexts; those without an open fault go on, and those whose fault was
answered Fail meanwhile fail. -/
def State.restoreCmds (s : State) (i : Image) : State :=
  let s2 : State := { s with cmds := i.cmds.foldl (fun m p => insertAt p.1 p.2 m) s.cmds }
  i.cmds.foldl (fun t p =>
    if p.2.st == .failed then t.finish p.1 7
    else if p.2.st == .suspended && p.2.fault.isNone then t.retryCmd p.1 p.2 else t) s2

/-- The cores whose engine contexts an image restores are free for them (R363). -/
def State.enginesReady (s : State) (tag : Nat) (i : Image) : Bool := i.engines.all fun p => s.enginesFree (p.1 / 4 % 1024) tag

/-- The restored context goes on. (log 18) -/
def State.restored (s : State) (tag : Nat) (i : Image) : State :=
  let s1 : State := i.refls.foldl (fun t p => t.restoreRefl i p.1 p.2) (((s.moveScales tag i).meshReturn i).restoreCmds i)
  let graphs := i.graphs.foldl (fun m (p : Nat × Graph) => insertAt p.1 p.2 m) s1.graphs
  let s2 : State := ({ s1 with images := eraseAt tag s1.images, graphs := graphs }.markSaved tag false).modCtx tag fun x =>
    { x with st := if i.clusters.isEmpty then .ready else .running, preqNext := false }
  (s2.queuesOf tag).foldl State.unsuspendQueue s2

/-- The loads of an image's live reflections reach their homes, or are answered for them. -/
def State.reflsReady (s : State) (i : Image) : Bool :=
  i.refls.all fun p => p.2.st == .lost || (match (s.walk (dieOf p.2.core) p.2.ctx p.2.va .read).1 with
    | .ok l => match s.placeOf p.2.ctx (l.xl p.2.va) p.2.va with
      | some (.dev stack soff) => s.reach (dieOf p.2.core) (stack / 4) (soff / 128) != .wait
      | _ => true
    | _ => true)

/-- A restore has found its places. -/
def State.restorable (s : State) (tag : Nat) : Bool :=
  match lookup tag s.ctxs, lookup tag s.images with
  | some c, some i => c.st == .restoring && c.fault.isNone && s.readHeader tag c i != .hold &&
      (s.readHeader tag c i == .bad || (s.enginesReady tag i && s.reflsReady i && (s.restoreClusters i c).isSome))
  | _, _ => false

/-- CONTEXT_RESTORE_COMPLETE. Where the page of a recorded LIVE reflection suspends, the restore waits for its fault record like
one whose save area suspends, and a Fail kills the context, where R325 with cause 4 of Table 13-4 could as well give Lost
(DESIGN CHOICE, log 47). -/
def execContextRestoreComplete (tag : Nat) (s : State) : Out :=
  match lookup tag s.ctxs, lookup tag s.images with
  | some c, some i =>
    if !s.restorable tag then .fault .noSuchObject
    else
      match s.readHeader tag c i with
      | .suspend va r => .next ((s.walkAll c.lowDie tag .read (i.pages c)).saveFault tag c.lowDie va false r)
      | .good =>
        match s.suspends c.lowDie tag .read ((i.pages c) ++ (i.refls.filter fun p => p.2.st != .lost).map fun p => p.2.va) with
        | some (va, r) => .next ((s.walkAll c.lowDie tag .read (i.pages c)).saveFault tag c.lowDie va false r)
        | none =>
          match (s.restoreEngines i).restoreClusters i c with
          | none => .fault .noSuchObject
          | some t =>
            let u := t.restored tag i
            .next (if c.preqNext then u.preemptCtx tag else u)
      | _ => .next ((s.walkAll c.lowDie tag .read (i.pages c)).killCtx tag)
  | _, _ => .fault .noSuchObject

/-! The flush of a moved group (R179 to R181). -/

/-- FLUSH_BY_CONTEXT_TAG: the new core sends the flush to the old one. (log 55) -/
def execFlushByContextTag (gid : Nat) (s : State) : Out :=
  match lookup gid s.groups with
  | none => .fault .noSuchObject
  | some g => if !g.acqHold.isEmpty && !g.flushSent then .next (s.setGroup gid { g with flushSent := true }) else .fault .noSuchObject

/-- The old core may acknowledge: the context's stores and commands of before the save that went out from there have been
performed, or the core is gone. (log 55) -/
def State.flushDone (s : State) (g : Group) (old : Nat) : Bool :=
  (s.core old).out || !s.dieReady (dieOf old) ||
    (s.cmds.all (fun p => p.2.core != old || p.2.ctx != g.ctx || p.2.st == .suspended || p.2.node.isSome || !p.2.carried) &&
      s.inflight.all fun p => p.2.home != old || !p.2.carried || (match lookup p.2.gid s.groups with
        | some h => h.ctx != g.ctx
        | none => true))

/-- FLUSH_ACKNOWLEDGE. (log 55) -/
def execFlushAcknowledge (gid : Nat) (s : State) : Out :=
  match lookup gid s.groups with
  | none => .fault .noSuchObject
  | some g =>
    match g.acqHold with
    | [] => .fault .noSuchObject
    | old :: rest =>
      if g.flushSent && s.flushDone g old then .next (s.setGroup gid { g with acqHold := rest, flushSent := false })
      else .fault .noSuchObject

end Sys2Proof.Machine
end

