-- ==== Sys2Proof/Machine/Resets.lean ====
section
/-! DEFINITION. Resets of a die: warm reset, die fatal, cold reset, wipe, readiness, life cycle, throttling (spec
20_link.md R448, 21_host_firmware.md R455 to R459). -/

namespace Sys2Proof.Machine

/-- The edges of a die, and its Fercy ports. -/
def State.dieEdges (s : State) (d : Nat) : List Nat := (List.range 4).filter fun l => s.isLink l && (linkDies l).contains d
def diePorts (d : Nat) : List Nat := if d == 2 then List.range' 16 18 else if d == 3 then List.range' 34 18 else []

/-- Change the links of a list. -/
def State.modLinks (s : State) (ls : List Nat) (f : Link → Link) : State := ls.foldl (fun t l => t.setLink l (f (t.link l))) s

/-- Contexts whose device includes a die. -/
def State.ctxsOn (s : State) (d : Nat) : List Nat :=
  (s.ctxs.filter fun p => (deviceDies p.2.mode p.2.dev).contains d).map (·.1)

/-- Drop copies without writing them home; each dirty line lost is logged with its address (R448 step 2). -/
def State.loseCopies (s : State) (p : CopyLine → Bool) : State :=
  let lost := s.copies.filter fun c => p c && c.dirty != 0
  lost.foldl (fun t c => t.logError ⟨c.die, c.ctx, 14, false, 0, c.slice % 64, c.stack * 68719476736 + 128 * c.line, t.now, 0⟩)
    { s with copies := s.copies.filter fun c => !p c }

/-- A die enters warm reset (R448): kill, fence off, clear copies; its edges quiesce when traffic switches paths. (log 30, 54) -/
def State.warmReset (s : State) (d : Nat) (fatal : Bool) : State :=
  if (s.die d).warmed then s
  else
    let s1 : State := (s.ctxsOn d).foldl State.killCtx s
    let s2 : State := s1.loseRefls fun r => r.stack / 4 == d
    let across := fun c : CopyLine => (c.stack / 4 == d) != (c.die == d)
    let s3 : State := if fatal then s2.loseCopies across else s2.dropWhere across
    let at_ := s3.now + Config.freeChoice s3.free % 8193
    ({ s3 with free := s3.free + 1 }.modDie d fun x => { x with phase := .warm, warmed := true, switchAt := at_ }).modLinks
      (diePorts d) Link.close

/-- DIE_FATAL. (log 54) -/
def execDieFatal (d : Nat) (s : State) : Out :=
  if !s.hasDie d then .fault .noSuchObject
  else .next ((s.logError ⟨d, 0, 14, false, 0, 0, 0, s.now, 0⟩).warmReset d true)

/-! The wipe (R456). -/

/-- Entries of a table whose key is not of a die: keys of one die span n. -/
def dropKeys {α : Type} (n d : Nat) (m : List (Nat × α)) : List (Nat × α) := m.filter fun p => p.1 / n != d

/-- Everything that a die's memories and logic hold is cleared; clusters left without a team end first. (log 54) -/
def State.clearDie (s : State) (d : Nat) : State :=
  let on := fun core : Nat => dieOf core == d
  let gone := (s.groups.filter fun p => on p.2.core).map (·.1)
  let dead := (s.teams.filter fun p => on p.2.core).map (·.1)
  let cls := ((s.teams.filter fun p => on p.2.core).map (·.2.cluster)).eraseDups
  let s1 : State := { s with
    teams := s.teams.map fun p => if dead.contains p.1 then (p.1, { p.2 with live := false, left := 0, ckpt := none }) else p }
  let s2 : State := cls.foldl State.endCluster s1
  let s3 : State := { s2 with
    mem := dropKeys 274877906944 d s2.mem
    memPsn := dropKeys 8589934592 d s2.memPsn
    attr := dropKeys 67108864 d s2.attr
    collisions := dropKeys 4 d s2.collisions
    counters := s2.counters.filter fun p => if p.1 < 16 then p.1 / 4 != d else p.1 != 16 + d
    drains := s2.drains.filter fun p => p.2.stack / 4 != d
    overflows := s2.overflows.filter fun p => p.1 / 4 != d
    copies := s2.copies.filter fun c => c.die != d && c.stack / 4 != d
    homes := s2.homes.filter fun h => h.stack / 4 != d
    spad := dropKeys 16777216 d s2.spad
    queues := s2.queues.filter fun p => s2.homeDie p.1 != d
    engines := s2.engines.filter fun p => dieOf (p.1 / 4 % 1024) != d
    scales := dropKeys 256 d s2.scales
    mwork := dropKeys 256 d s2.mwork
    txlanes := dropKeys 128 d s2.txlanes
    routes := dropKeys 262144 d s2.routes
    tlb := s2.tlb.filter fun e => !on e.core
    walkCache := s2.walkCache.filter fun e => e.die != d
    walks := s2.walks.filter fun w => w.2.die != d
    faults := s2.faults.filter fun f => f.die != d
    pri := s2.pri.filter fun p => p.2.die != d
    groups := s2.groups.filter fun p => !on p.2.core
    inflight := s2.inflight.filter fun p => !gone.contains p.2.gid && !on p.2.target
    cmds := s2.cmds.filter fun p => !on p.2.core
    refls := s2.refls.filter fun p => !on p.2.core
    ranges := s2.ranges.filter fun r => r.stack / 4 != d
    rpushes := s2.rpushes.filter fun p => !on p.2.core
    cores := ((List.range 256).map fun i => (d * 256 + i, ({ cycBase := (18446744073709551616 - s.now % 18446744073709551616) %
      18446744073709551616 } : Core))).foldl (fun m p => insertAt p.1 p.2 m) s2.cores }
  s3.modDie d fun x => { x with
    retired := [], faultSeq := 0, hi := 65535, lo := 1, lastHalf := s.now, draw := x.draw + 1 }

/-- A wipe of a die may end. -/
def State.mayWipe (s : State) (d : Nat) : Bool :=
  s.hasDie d && ((s.die d).phase == .wiping || ((s.die d).phase == .warm && (s.die d).switchAt ≤ s.now &&
    (s.dieEdges d).all fun l => [LinkSt.quiesced, .failed].contains (s.link l).st))

/-- WIPE_COMPLETE: the links train (R442, R448 step 5, R457 step 4); a die whose firmware was rejected stays in recovery. (log 54) -/
def execWipeComplete (d : Nat) (s : State) : Out :=
  if !s.mayWipe d then .fault .noSuchObject
  else if (s.die d).rejected then .next ((s.clearDie d).modDie d fun x => { x with phase := .recovery, warmed := false })
  else .next (((s.clearDie d).modDie d fun x => { x with phase := .training }).modLinks (s.dieEdges d ++ diePorts d) fun l => l.resume s.now)

/-- The host port of a die, if it has one, is in L0 or L0p. (log 54) -/
def State.hostTrained (s : State) (d : Nat) : Bool := s.part.ports ≤ d || s.portUp d

/-- A die that trains becomes ready: after a warm reset once every edge is Up; at cold reset once its host port or its Fercy ports
and its edges have trained, without waiting for dies that have not come as far. A port whose training has failed is not waited for.
(log 54) -/
def State.settleDie (s : State) (d : Nat) : State :=
  let x := s.die d
  match x.phase with
  | .training =>
    let peers := fun l => (linkDies l).filter (· != d)
    let ok := fun l => if x.warmed then (s.link l).st == .up
      else (s.link l).st != .training || (peers l).all fun p => (s.die p).phase != .training && (s.die p).phase != .ready
    if (s.dieEdges d).all ok && (x.warmed || (s.hostTrained d && (diePorts d).all fun l => !s.isLink l || (s.link l).st != .training)) then
      s.modDie d fun y => { y with phase := .ready, warmed := false } else s
  | .warm =>
    if x.switchAt ≤ s.now && (s.dieEdges d).any fun l => [LinkSt.up, .training, .down].contains (s.link l).st then
      s.modLinks (s.dieEdges d) fun l => l.quiesce s.now
    else s
  | _ => s

/-- A firmware image passes the boot ROM's checks. (log 3) -/
def State.imageOk (s : State) (die : Nat) (img : List Byte) : Bool :=
  let digest := Config.fwDigest img
  digest == Config.sm3 (Config.fwBody img) && Config.sm2Verify die digest (Config.fwSignature img) &&
    (s.die die).minSvn ≤ Config.fwSvn img

/-- COLD_RESET: the ROM runs and verifies the firmware image that is stored, a free value. The host port and the links begin anew.
(log 1, 54) -/
def execColdReset (d : Nat) (s : State) : Out :=
  if !s.hasDie d then .fault .noSuchObject
  else
    let s1 : State := (s.ctxsOn d).foldl State.killCtx s
    let s2 : State := (s1.loseRefls fun r => r.stack / 4 == d).loseCopies fun c => c.stack / 4 == d || c.die == d
    let img := Config.storedImage s2.free
    let good := s2.imageOk d img
    let s3 : State := ({ s2 with
      free := s2.free + 1, portDown := if d < s.part.ports then insertAt d 1 s2.portDown else s2.portDown }.clearDie d).modLinks
      (s.dieEdges d ++ diePorts d) fun _ => {}
    .next (s3.modDie d fun x => { x with
      phase := if good then .wiping else .recovery, rejected := !good, warmed := false, throttled := false
      digest := if good then Config.fwDigest img else [], svn := if good then Config.fwSvn img else 0 })

/-! Life cycle and limits (R456, R459). -/

/-- LIFECYCLE_TRANSITION: in order only; it wipes the die, and entry to returned destroys the identity key. A die that has not
run its ROM is wiped by its cold reset. (log 54) -/
def execLifecycleTransition (d state : Nat) (s : State) : Out :=
  if !s.hasDie d || state != (s.die d).life + 1 || 3 < state then .fault .noSuchObject
  else
    let s1 : State := (s.ctxsOn d).foldl State.killCtx s
    let s2 : State := (s1.loseRefls fun r => r.stack / 4 == d).loseCopies fun c => c.stack / 4 == d || c.die == d
    .next (s2.modDie d fun x => { x with
      life := state, identity := (x.identity || state == 1) && state != 3, phase := if x.phase == .boot then .boot else .wiping, warmed := false })

/-- THERMAL_THROTTLE: the clock slows; no result and no cycle count changes. (log 8) -/
def execThermalThrottle (d : Nat) (on : Bool) (s : State) : Out :=
  if !s.hasDie d then .fault .noSuchObject else .next (s.modDie d fun x => { x with throttled := on })

/-- COOLANT_LIMIT: the management interface of a CT-4880's module lowers the power limit, or restores it. (log 7, 8) -/
def execCoolantLimit (on : Bool) (s : State) : Out :=
  if s.part = .ct4880 then .next { s with powerLow := on } else .fault .noSuchObject

end Sys2Proof.Machine
end

