-- ==== Sys2Proof/Machine/Faults.lean ====
section
/-! DEFINITION. Error classes and their containment, and the rollback of a team (spec 17_faults.md R394 to R399,
19_stack_logic.md R420, R430). -/

namespace Sys2Proof.Machine

/-! Classes that name no team (Table 17-6). -/

/-- The contexts that an array of a die may hold, with 0 for none. -/
def State.ownersOn (s : State) (die : Nat) : List Nat :=
  0 :: (s.ctxs.filter fun p => (deviceDies p.2.mode p.2.dev).contains die).map (·.1)

/-- CORRECTABLE_ECC (class 1): corrected in place and counted, for the context that owns the struck array (0: none), its
core or slice, and its address. Which array of the die is struck is free. (log 48) -/
def execCorrectableEcc (die : Nat) (s : State) : Out :=
  if !s.hasDie die then .fault .noSuchObject
  else
    let ctx := (s.ownersOn die).getD (Config.freeChoice s.free % (s.ownersOn die).length) 0
    let unit := Config.freeChoice (s.free + 1) % 65536
    let addr := Config.freeChoice (s.free + 2) % 18446744073709551616
    .next (({ s with free := s.free + 3 } : State).logError ⟨die, ctx, 1, false, 0, unit, addr, s.now, 0⟩)

/-- HBM_SECTOR_UNCORRECTABLE (class 2): the stored sector at a stack address is struck; of a compressed slot it poisons every
logical sector whose index entry or stream lies in it, and all of them if it holds the marker (R391, R430). -/
def execHbmSectorUncorrectable (addr : Nat) (s : State) : Out :=
  let stack := addr / 68719476736
  let off := addr % 68719476736
  if !s.hasDie (stack / 4) then .fault .noSuchObject
  else .next ((s.logError ⟨stack / 4, 0, 2, false, 0, s.homeOf stack off % 64, addr, s.now, 0⟩).setSlotPsn stack off true)

/-- The lines of the L2 of a die that hold the sector at a stack offset. (log 48) -/
def State.l2Hits (s : State) (die stack off : Nat) : List L2Line :=
  ((s.homes.filter fun h => stack / 4 == die && h.stack == stack && h.line == off / 128 && h.valid.getLsbD (off % 128 / 32)).map .home) ++
    (s.copies.filter fun c => c.die == die && c.stack == stack && c.line == off / 128).map .copy

/-- L2_DATA_UNCORRECTABLE (class 3): a clean sector is fetched again, a dirty one is poisoned. Which line of the die that holds
the sector is struck is free. (log 48) -/
def execL2DataUncorrectable (die addr : Nat) (s : State) : Out :=
  let stack := addr / 68719476736
  let off := addr % 68719476736
  let k := off % 128 / 32
  let bit : BitVec 4 := 1#4 <<< k
  let hits := s.l2Hits die stack off
  let s1 : State := { s with free := s.free + 1 }
  let log := fun (ctx slice : Nat) (t : State) => t.logError ⟨die, ctx, 3, false, 0, slice % 64, addr, t.now, 0⟩
  match hits[Config.freeChoice s.free % max 1 hits.length]? with
  | none => .fault .noSuchObject
  | some (.home h) =>
    let h1 : HomeLine := if h.dirty.getLsbD k then { h with psn := h.psn ||| bit } else { h with valid := h.valid &&& ~~~bit }
    .next (log 0 (s.homeOf stack off) { s1 with homes := s.homes.map fun x => if x = h then h1 else x })
  | some (.copy c) =>
    let dirty := (List.range 32).any fun i => c.dirty.getLsbD (32 * k + i)
    let c1 : CopyLine := if dirty then { c with psn := c.psn ||| bit } else { c with valid := c.valid &&& ~~~bit }
    .next (log c.ctx c.slice { s1 with copies := s.copies.map fun x => if x = c then c1 else x })

/-- INSTRUCTION_CACHE_ERROR (class 6): the line is fetched again. (log 10) -/
def execInstructionCacheError (core : Nat) (s : State) : Out :=
  if !s.hasDie (dieOf core) then .fault .noSuchObject
  else .next ((s.setCore core { s.core core with icache := [] }).logError ⟨dieOf core, 0, 6, false, 0, core, 0, s.cyc core, 0⟩)

/-- PARKING_REGION_UNCORRECTABLE (class 7): a word of a parked frame will be restored poisoned, with free bits (R393).
(log 48) -/
def execParkingRegionUncorrectable (gid word : Nat) (s : State) : Out :=
  match lookup gid s.groups with
  | none => .fault .noSuchObject
  | some g =>
    if !g.image || g.frameSize ≤ 4 * word then .fault .noSuchObject
    else
      let bad : PWord := ⟨Config.freeWord s.free, true⟩
      .next (({ s with free := s.free + 1 }.setGroup gid { g with frame := writeAt PWord.zero word bad g.frame }).logError
        ⟨dieOf g.core, g.ctx, 7, false, 0, g.core, 4 * word, s.cyc g.core, 0⟩)

/-- COPY_ENGINE_INTERNAL_ERROR (class 9): one command fails with INTERNAL. -/
def execCopyEngineInternalError (n : Nat) (s : State) : Out :=
  match s.cmd n with
  | none => .fault .noSuchObject
  | some c => .next ((s.cancel n 12).logError ⟨dieOf c.core, c.ctx, 9, false, 0, c.core, 0, s.cyc c.core, 0⟩)

/-- MANAGEMENT_CONTROLLER_FAULT (class 15): the controller restarts; running work is unaffected. -/
def execManagementControllerFault (die : Nat) (s : State) : Out :=
  if !s.hasDie die then .fault .noSuchObject else .next (s.logError ⟨die, 0, 15, false, 0, 0, 0, s.now, 0⟩)

/-! The retirement of a slice (R420). -/

/-- Watched regions of the lines that a slice homes, as its mirror table keeps them: stack, 512-byte region, cluster. -/
def State.mirrors (s : State) (slice : Nat) : List (Nat × Nat × Nat) :=
  ((s.tracked.filter fun r => s.homeOf r.stack r.soff == slice).map fun r => (r.stack, r.soff / 512, s.reflCluster r)).eraseDups

/-- Subscriptions whose regions find no entry in the mirror table that their lines moved to are lost (R323). (log 48) -/
def State.overfullMirrors (s : State) (moved : List Nat) : State :=
  moved.foldl (fun t n =>
    match lookup n t.refls with
    | none => t
    | some r => if 4096 < (t.mirrors (t.homeOf r.stack r.soff)).length then t.loseRefl n else t) s

/-- Which sectors of a slice's dirty lines cannot be read any more. (log 48) -/
def State.unreadable (s : State) (die slice : Nat) : State :=
  let lost : BitVec 4 := (Config.freeWord s.free).truncate 4
  { s with
    free := s.free + 1
    homes := s.homes.map fun h => if s.homeOf h.stack (128 * h.line) == 64 * die + slice then { h with psn := h.psn ||| (h.dirty &&& lost) } else h
    copies := s.copies.map fun c => if c.die == die && c.slice % 64 == slice && c.dirty != 0 then { c with psn := c.psn ||| lost } else c }

/-- L2_SLICE_TAG_ERROR (class 10): dirty home lines reach their stack, near copies are written home, replicas dropped, and the
home lines get another slice. A dirty sector whose data cannot be read is written poisoned (R420). (log 48) -/
def execL2SliceTagError (die slice : Nat) (s : State) : Out :=
  if !s.hasDie die || 64 ≤ slice || (s.die die).retired.contains slice then .fault .noSuchObject
  else
    let here := fun c : CopyLine => c.die == die && c.slice % 64 == slice
    let s0 : State := s.unreadable die slice
    let s1 : State := (s0.homes.filter fun h => s0.homeOf h.stack (128 * h.line) == 64 * die + slice).foldl State.evictHome s0
    let moved := (s1.refls.filter fun p =>
      p.2.st == .live && s1.homeOf p.2.stack p.2.soff == 64 * die + slice).map (·.1)
    let s2a : State := (s1.dropWhere here).modDie die fun d => { d with retired := slice :: d.retired }
    -- the pushes that left the old home stay ahead of those of the new one (R323)
    let home := s2a.homeOf (4 * die + slice / 16) (128 * (slice % 16))
    let s2 : State := { s2a with rpushes := s2a.rpushes.map fun p =>
      if p.2.home == 64 * die + slice then (p.1, { p.2 with home := home }) else p }
    let s3 : State := (s2.overfullMirrors moved).logError ⟨die, 0, 10, false, 0, slice, 0, s.now, 0⟩
    let all := (List.range 16).all fun u => (s3.die die).retired.contains (slice / 16 * 16 + u)
    .next (if all then (s3.logError ⟨die, 0, 14, false, 0, 0, 0, s.now, 0⟩).warmReset die true else s3)

/-! Rollback of a team (R396). -/

/-- Apply an undo-log entry; words in the slots of live reflections stand (R315). (log 56) -/
def State.undo (s : State) (core : Nat) (e : LogEntry) : State :=
  match e.name with
  | .frame gid b => s.modGroup gid fun g =>
      { g with frame := e.old.foldl (fun f x => writeAt PWord.zero (b + x.1) x.2 f) g.frame }
  | .spad b =>
    { s with spad := e.old.foldl (fun m x =>
        if s.inSlot core (b + x.1) then m else writeAt PWord.zero (core * 65536 + b + x.1) x.2 m) s.spad }

/-- A push of the checkpoint has not landed yet: the same word's push of the same cycle, or with the same load under way. (log 56) -/
def GroupCkpt.holds (c : GroupCkpt) (p : Push) : Bool :=
  c.pushes.any fun q => q.code == p.code && q.origin == p.origin && q.seq == p.seq && (q.due.isNone || q.due == p.due)

/-- A group as its record in the checkpoint gives it: one that a save has found at a barrier waits there again, and pushes from
before the checkpoint still land (R241, R394). -/
def Group.restore (g : Group) (c : GroupCkpt) (now : Nat) : Group :=
  let free := c.wait == .none
  { g with
    threads := c.threads, ptab := c.ptab, qbind := c.qbind, slots := c.slots, tiles := c.tiles, unit := c.unit
    outstanding := [], pushes := g.pushes.filter c.holds, deferred := [], holdUntil := 0, switching := false
    wait := c.wait, record := none, second := none, handler := .none, viewFrame := [], viewWords := [], fence := none
    st := if !g.resident then .parked else if free then .pending else .waiting, woken := !g.resident && free, since := now }

/-- Cancel the commands that a team's engine contexts accepted since the checkpoint; their completion updates are
discarded. (log 56) -/
def State.cancelSince (s : State) (team : Nat) (c : Ckpt) : State :=
  let late := (s.cmds.filter fun p => p.2.team == team && p.2.node.isNone && readAt 0 c.posted p.2.key < p.2.num).map (·.1)
  late.foldl (fun t n =>
    ({ t with cmds := modifyAt n (fun x : Cmd => { x with mute := true }) t.cmds } : State).cancel n 10) s

/-- Withdraw the arrivals made since the checkpoint (R241). (log 56) -/
def State.withdraw (s : State) (team cluster : Nat) (as : List (Bool × Nat × Nat)) : State :=
  let drop := fun (b n gid : Nat) (gs : List Nat) => if b == n then gs.filter (· != gid) else gs
  as.foldl (fun t a =>
    let out := fun bars : List (Nat × List Nat) => bars.filterMap fun b =>
      let left := drop b.1 a.2.1 a.2.2 b.2
      if left.isEmpty then none else some (b.1, left)
    if a.1 then t.modCluster cluster fun k => { k with bars := out k.bars }
    else t.modTeam team fun x => { x with bars := out x.bars }) s

/-- Stop a team: its handler groups end, its commands are cancelled, its remote accesses are performed, and what it had
issued is discarded with the writes that the undo log takes back. -/
def State.stopTeam (s : State) (team : Nat) (c : Ckpt) : State :=
  let mine := (s.groups.filter fun p => p.2.team == team && p.2.handles.isNone).map (·.1)
  let hands := (s.groups.filter fun p => p.2.team == team && p.2.handles.isSome).map (·.1)
  let s1 : State := (s.endGroups hands).cancelSince team c
  (s1.inflight.filter fun p => p.2.gid ∈ mine).foldl (fun t p => performRemote t p.1 p.2) s1

/-- Trapped groups whose handler has been ended run on. -/
def Group.unhandled (g : Group) (now : Nat) : Group :=
  if g.st == .trapped then
    { g with record := none, second := none, handler := .none, viewFrame := [], viewWords := [], since := now, wait := .none
             st := if g.resident then .pending else .parked, woken := !g.resident }
  else g

/-- Works that start again: the first of each tile could be applied from now on. -/
def restartWorks (now : Nat) (ws : List MWork) : List MWork :=
  ws.foldl (fun out w => out ++ [{ w with ready := if out.any fun y => y.gid == w.gid && y.tile == w.tile then none else some now }]) []

/-- The works of a team since its checkpoint go, and those outstanding at the checkpoint come back: the undo log takes
back what either has written (R307). (log 56) -/
def State.restoreWorks (s : State) (x : Team) (c : Ckpt) : State :=
  let mine := c.groups.map (·.gid)
  let others := (readAt [] s.mwork x.core).filter fun w => !mine.contains w.gid
  { s with mwork := writeAt [] x.core (others ++ restartWorks s.now c.works) s.mwork }

/-- The undo log is applied, newest entry first, and the records come back; the log restarts empty. -/
def State.replayTeam (s : State) (team : Nat) (x : Team) (c : Ckpt) : State :=
  let s1 : State := c.log.foldl (fun t e => t.undo x.core e) (s.restoreWorks x c)
  let s2 : State := c.groups.foldl (fun t r => t.modGroup r.gid fun g => g.restore r s.now) s1
  let s3 : State := s2.withdraw team x.cluster c.arrivals
  let s4 : State := { s3 with refls := s3.refls.map fun p => if c.racked.contains p.1 then (p.1, { p.2 with pend := true }) else p }
  s4.modTeam team fun y => { y with ckpt := y.ckpt.map fun k => { k with log := [], arrivals := [], racked := [] } }

/-- ROLLBACK of a team whose checkpoint is unspent: whether it happened, or firmware has marked the core out of service.
(log 48) -/
def State.rollback (s : State) (team : Nat) (x : Team) (c : Ckpt) : State × Bool :=
  let s1 : State := s.stopTeam team c
  let s2 : State := { s1 with free := s1.free + 1 }
  if Config.freeChoice s1.free % 2 == 0 then (s2.replayTeam team x c, true)
  else
    let s3 : State := s2.setCore x.core { s2.core x.core with out := true }
    ({ s3 with groups := s3.groups.map fun p => if p.2.team == team then (p.1, p.2.unhandled s.now) else p }, false)

/-- A team that may roll back, with its checkpoint. -/
def State.unspent (s : State) (team : Nat) : Option (Team × Ckpt) :=
  match lookup team s.teams with
  | none => none
  | some x =>
    let live := match lookup x.ctx s.ctxs with
      | some c => c.st != .killing && c.st != .failed
      | none => false
    match x.ckpt with
    | some c => if c.spent || !x.live || !live then none else some (x, c)
    | none => none

/-! REGISTER_SPACE_UNCORRECTABLE (class 4), SCHEDULING_STATE_UNCORRECTABLE (class 5). -/

/-- The team that an array's word belongs to, with the core and the address of the log entry. -/
def State.arrayOwner (s : State) : CoreArray → Option (Option Nat × Nat × Nat × Nat)
  | .frame gid word => (lookup gid s.groups).bind fun g =>
      if g.resident && 4 * word < g.frameSize then some (some g.team, g.ctx, g.core, 4 * word) else none
  | .predicate gid lane p => (lookup gid s.groups).bind fun g =>
      if g.resident && lane < 32 && p < 16 then some (some g.team, g.ctx, g.core, 16 * lane + p) else none
  | .spad core word =>
      if s.hasDie (dieOf core) && word < 65536 then
        let t := s.spadTeam core word
        some (t, (t.bind fun i => (lookup i s.teams).map (·.ctx)).getD 0, core, 4 * word)
      else none
  | .tile gid t elem => (lookup gid s.groups).bind fun g =>
      if g.resident && t < g.accn && elem < 1024 then some (some g.team, g.ctx, g.core, 4 * (g.tileBase t + 2 * elem)) else none

/-- The word or predicate is marked poisoned; what bits the error leaves a word is free (R393, R397). (log 48) -/
def State.poisonArray (s : State) : CoreArray → State
  | .frame gid word => { s with free := s.free + 1 }.modGroup gid fun g =>
      { g with frame := writeAt PWord.zero word ⟨Config.freeWord s.free, true⟩ g.frame }
  | .predicate gid lane p => s.modGroup gid fun g =>
      g.modThread lane fun t => if p == 0 then t else { t with predPsn := setBit16 t.predPsn p true }
  | .spad core word =>
    { s with free := s.free + 1, spad := writeAt PWord.zero (core * 65536 + word) ⟨Config.freeWord s.free, true⟩ s.spad }
  | .tile gid t elem => { s with free := s.free + 1 }.modGroup gid fun g =>
      { g with frame := writeAt PWord.zero (g.tileBase t + 2 * elem) ⟨Config.freeWord s.free, true⟩ g.frame }

def execRegisterSpaceUncorrectable (a : CoreArray) (s : State) : Out :=
  match s.arrayOwner a with
  | none => .fault .noSuchObject
  | some (team, ctx, core, addr) =>
    let s1 : State := s.logError ⟨dieOf core, ctx, 4, false, 0, core, addr, s.cyc core, 0⟩
    match team with
    | none => .next (s1.poisonArray a)
    | some t =>
      match s1.unspent t with
      | none => .next (s1.poisonArray a)
      | some (x, c) =>
        let r := s1.rollback t x c
        .next (if r.2 then r.1 else r.1.poisonArray a)

def execSchedulingStateUncorrectable (gid : Nat) (s : State) : Out :=
  match lookup gid s.groups with
  | none => .fault .noSuchObject
  | some g =>
    let s1 : State := s.logError ⟨dieOf g.core, g.ctx, 5, false, 0, g.core, 0, s.cyc g.core, 0⟩
    let out := fun t : State => (t.setCore g.core { t.core g.core with out := true }).killCtx g.ctx
    match s1.unspent g.team with
    | none => .next (out s1)
    | some (x, c) =>
      let r := s1.rollback g.team x c
      .next (if r.2 then r.1 else out r.1)

/-! DEPENDENCE_COUNTER_DECREMENT (R349). -/

/-- A decrement reaches a counter of a cluster. -/
def execDependenceCounterDecrement (cl dc : Nat) (s : State) : Out :=
  match lookup cl s.clusters with
  | none => .fault .noSuchObject
  | some _ => .next (s.decrement cl dc)

end Sys2Proof.Machine
end

