-- ==== Sys2Proof/Machine/Rings.lean ====
section
/-! DEFINITION. Host rings: writes, room, interrupts by count and by deadline (spec 14_queue.md R341 to R343). -/

namespace Sys2Proof.Machine

def State.hring (s : State) (ctx ring : Nat) : HRing := (lookup (ctx * 32 + ring) s.hrings).getD {}
def State.setHring (s : State) (ctx ring : Nat) (h : HRing) : State :=
  { s with hrings := insertAt (ctx * 32 + ring) h s.hrings }

/-- An interrupt of a function is raised. (log 58) -/
def State.raise (s : State) (func vec : Nat) : State := { s with msix := (func, vec) :: s.msix }

/-- Fields of a descriptor (Table 14-7). -/
def ringAddr (d : List Nat) (i : Nat) : Nat := d.getD i 0 + 4294967296 * d.getD (i + 1) 0
def ringLog2w (d : List Nat) : Nat := bitsOf (d.getD 6 0) 24 5
def ringVec (d : List Nat) : Nat := bitsOf (d.getD 6 0) 16 8
def ringIcnt (d : List Nat) : Nat := d.getD 6 0 % 65536
def ringIdl (d : List Nat) : Nat := d.getD 7 0

/-- Management-controller ticks of 10 ns, of cycles of 1.064 ns. -/
def tick (cycle : Nat) : Nat := cycle * 1064 / 10000

/-- The ring has room for n words: 2^LOG2W − Lo(W − R) ≥ n, with R read from RIDXA. -/
def State.ringRoom (s : State) (ctx ring : Nat) (d : List Nat) (n : Nat) : Bool :=
  let r := leNat (fun i => s.hostByte (ringAddr d 4 + i)) 4
  let used := ((s.hring ctx ring).w + 4294967296 - r) % 4294967296
  used + n ≤ 2 ^ ringLog2w d

/-- Write words to a ring, then its write index, then test ICNT. (log 19) -/
def State.writeRing (s : State) (ctx ring : Nat) (d : List Nat) (vec : Nat) (ws : List PWord) : State :=
  let h := s.hring ctx ring
  let put := fun (t : State) (x : Nat × PWord) =>
    t.hostWrite (ringAddr d 0 + 4 * ((h.w + x.1) % 2 ^ ringLog2w d)) ((List.range 4).map fun j => byteOf x.2.val.toNat j) x.2.psn
  let s1 := (ws.mapIdx fun i w => (i, w)).foldl put s
  let w := (h.w + ws.length) % 4294967296
  let s2 := s1.hostWrite (ringAddr d 2) ((List.range 4).map fun j => byteOf w j) false
  let u := h.u + ws.length
  let hit := ringIcnt d != 0 && ringIcnt d ≤ u
  let h1 : HRing := { w := w, u := if hit then 0 else u, since := if h.u == 0 then s.now else h.since, desc := d, vec := vec }
  let s3 := s2.setHring ctx ring h1
  if hit then s3.raise (s.funcOf ctx) vec else s3

/-- The first push of a core to a ring. (log 19) -/
def State.outFirst (s : State) (core ctx ring : Nat) : Option RingPush :=
  (s.core core).outbound.find? fun p => p.ctx == ctx && p.ring == ring

/-- A core's first push to a ring can be written now, or discarded for want of a route. -/
def State.outReady (s : State) (core : Nat) (p : RingPush) : Bool :=
  match s.portReach (dieOf core) (s.funcOf p.ctx) (ringAddr p.desc 0) with
  | .ok => s.ringRoom p.ctx p.ring p.desc p.words.length
  | .wait => false
  | .down => true

/-- Cores whose first push to a ring is ready. -/
def State.outReadyCores (s : State) (ctx ring : Nat) : List Nat :=
  (s.cores.map (·.1)).filter fun c => match s.outFirst c ctx ring with
    | some p => s.outReady c p
    | none => false

/-- HOST_RING_WRITE: pushes of different cores interleave in any order (R342). (log 19) -/
def execHostRingWrite (ctx ring : Nat) (s : State) : Out :=
  let cs := s.outReadyCores ctx ring
  match cs[Config.freeChoice s.free % max 1 cs.length]? with
  | none => .fault .noSuchObject
  | some c =>
    let s1 := if cs.length == 1 then s else { s with free := s.free + 1 }
    match s.outFirst c ctx ring with
    | none => .fault .noSuchObject
    | some p =>
      let s2 := s1.setCore c { s1.core c with outbound := (s1.core c).outbound.erase p }
      .next (if s.portReach (dieOf c) (s.funcOf ctx) (ringAddr p.desc 0) == .ok then s2.writeRing ctx ring p.desc (ringVec p.desc) p.words else s2)

/-- A ring's deadline has passed (R343). -/
def State.ringDue (s : State) (h : HRing) : Bool :=
  ringIdl h.desc != 0 && h.u != 0 && tick h.since + ringIdl h.desc ≤ tick s.now

/-- HOST_RING_DEADLINE. (log 19) -/
def execHostRingDeadline (ctx ring : Nat) (s : State) : Out :=
  let h := s.hring ctx ring
  if s.ringDue h then .next ((s.setHring ctx ring { h with u := 0 }).raise (s.funcOf ctx) h.vec) else .fault .noSuchObject

end Sys2Proof.Machine
end

