-- ==== Sys2Proof/Machine/Invalidation.lean ====
section
/-! DEFINITION. The page: the end of walks, invalidation, the page-fault service, access counters, ATS and PRI, page
drains (spec 18_page.md R403 to R413, 19_stack_logic.md R423, R428, 21_host_firmware.md R451). -/

namespace Sys2Proof.Machine

/-! PAGE_WALK_COMPLETE (R402, R403). -/

/-- The end of a walk for a request, which is logged with the first of those that it serves. -/
def State.walkFor (s : State) (w : Walk) (a : Access) (log : Bool) : Outcome × State :=
  endWalk w.die w.ctx w.va log (s.walkRead w.die w.ctx w.va a)

/-- The end of a walk for a command. (log 33) -/
def State.walkedCmd (s : State) (w : Walk) (n : Nat) (log : Bool) : State :=
  match s.cmd n with
  | none => s
  | some c =>
    match c.want with
    | none => s
    | some q =>
      let r := s.walkFor w (c.access q) log
      let t : State := match r.1 with
        | .ok l => r.2.tlbAdd w.core w.ctx l
        | _ => r.2
      t.cmdTranslated n c q r.1

/-- The lanes of a REFL walk on with what the TLB lacks, or go on. -/
def State.walkedRefl (s : State) (w : Walk) (gid : Nat) (log : Bool) : State :=
  match lookup gid s.groups with
  | none => s
  | some g =>
    match g.wait with
    | .refl o pd size lanes none lost =>
      let r := s.walkFor w .read log
      match r.1 with
      | .ok l =>
        let t : State := r.2.tlbAdd w.core w.ctx l
        if lanes.all fun x => lost.contains (x.2.2 / 65536) || (t.tlbHit g.core g.ctx x.2.2 .read).isSome then t.reflGoOn gid g o pd size lanes lost
        else t.reflWalk gid g (lanes.filter fun x => !lost.contains (x.2.2 / 65536))
      | _ => s.reflGoOn gid g o pd size lanes lost
    | _ => s

/-- The requests that a die's four walkers hold, 1,024 each: the oldest. The others wait (R403). (log 35) -/
def State.heldWalks (s : State) (die : Nat) : List (Nat × Walk) := (s.walks.filter fun p => p.2.die == die).take 4096

/-- The requests that one walk serves: those of its context and 64 KiB page that the walkers hold (R403). -/
def State.merged (s : State) (w : Walk) : List (Nat × Walk) :=
  (s.heldWalks w.die).filter fun p => p.2.ctx == w.ctx && p.2.va / 65536 == w.va / 65536 && !p.2.stale

/-- Serve a request with the end of a walk. -/
def State.walked (s : State) (w : Walk) (log : Bool) : State :=
  match w.req with
  | .cmd k => s.walkedCmd w k log
  | .refl gid => s.walkedRefl w gid log
  | _ => s

/-- Serve the requests of one walk. (log 35) -/
def State.serveWalk (s : State) (ps : List (Nat × Walk)) : State :=
  let t : State := { s with walks := s.walks.filter fun p => !(ps.map (·.1)).contains p.1 }
  (ps.foldl (fun (r : State × Bool) p => (r.1.walked p.2 r.2, false)) (t, true)).1

/-- PAGE_WALK_COMPLETE: a walk that an invalidation overtook is made again. -/
def execPageWalkComplete (n : Nat) (s : State) : Out :=
  match lookup n s.walks with
  | none => .fault .noSuchObject
  | some w =>
    if (s.heldWalks w.die).all fun p => p.1 != n then .fault .noSuchObject
    else if s.walkWaits w.die w.ctx w.va .read then .fault .noSuchObject
    else if w.stale then .next { s with walks := insertAt n { w with stale := false } s.walks }
    else .next (s.serveWalk (s.merged w))

/-! Invalidation (R406, R451). -/

/-- A 64 KiB page lies in a range of pages. -/
def inPages (first count p : Nat) : Bool := first ≤ p && p < first + count

/-- A span of bytes meets a range of pages. -/
def meetsPages (first count base size : Nat) : Bool := base < (first + count) * 65536 && first * 65536 < base + size

/-- An invalidation names the context of a requester: of one context, or of every context of a function. -/
def State.invalNames (s : State) (v : Inval) (ctx : Nat) : Bool :=
  match v.ctx with
  | some t => t == ctx
  | none => s.funcOf ctx == v.func

/-- It names a held translation. -/
def State.invalXl (s : State) (v : Inval) (ctx : Nat) (x : Xl) : Bool :=
  s.invalNames v ctx && (if v.ats then x.host && inPages v.first v.count (x.pa / 65536) else inPages v.first v.count x.page)

/-- It names a page of a code region (R345). -/
def State.invalCode (s : State) (v : Inval) (ctx : Nat) (c : Code) : Bool :=
  s.invalNames v ctx && (if v.ats then c.pages.any fun p => p.host && inPages v.first v.count (p.pa / 65536)
    else meetsPages v.first v.count c.base (4 * c.words))

/-- A command holds a translation that an invalidation names. -/
def State.holdsXl (s : State) (v : Inval) (c : Cmd) : Bool := c.xls.any fun x => s.invalXl v c.ctx x.2

/-- Take from a command the translations that an invalidation names; its open run lands first. (log 27) -/
def State.releaseXl (s : State) (v : Inval) (n : Nat) : State :=
  let t := s.closeRun n
  { t with cmds := modifyAt n (fun c : Cmd => { c with xls := c.xls.filter fun x => !s.invalXl v c.ctx x.2 }) t.cmds }

/-- Cached translations go, walks in flight will be made again, and the commands that move under a named translation are
the holders; the others release at once (Table 9-7). (log 36) -/
def State.beginInval (s : State) (v : Inval) : State :=
  let gone := fun e : TlbEntry => s.invalNames v e.ctx &&
    (if v.ats then e.host && meetsPages v.first v.count e.pa e.size else meetsPages v.first v.count e.base e.size)
  let path := fun w : WalkEntry => s.invalNames v w.ctx && !v.ats &&
    meetsPages v.first v.count (w.prefix_ * levelSpan (w.level + 1)) (levelSpan (w.level + 1))
  let stale := fun w : Walk => s.invalNames v w.ctx && (v.ats || inPages v.first v.count (w.va / 65536))
  -- an open run may still land under a translation that its command has given up
  let s := s.closeRuns fun c => s.invalNames v c.ctx
  let held := (s.cmds.filter fun p => s.holdsXl v p.2).map (·.1)
  let moving := held.filter fun n => match s.cmd n with
    | some c => c.st == .moving
    | none => false
  let s1 : State := { s with
    tlb := s.tlb.filter fun e => !gone e
    walkCache := s.walkCache.filter fun w => !path w
    walks := s.walks.map fun p => if stale p.2 then (p.1, { p.2 with stale := true }) else p
    invals := insertAt s.nextId { v with holders := moving } s.invals
    nextId := s.nextId + 1 }
  (held.filter fun n => !moving.contains n).foldl (fun t n => t.releaseXl v n) s1

/-- Holders that have ended their chunk run release. (log 36) -/
def State.settleInval (s : State) (n : Nat) (v : Inval) : State :=
  let still := v.holders.filter fun k => match s.cmd k with
    | some c => c.st == .moving && s.holdsXl v c
    | none => false
  let s1 : State := (v.holders.filter fun k => !still.contains k).foldl (fun t k => t.releaseXl v k) s
  if still.length == v.holders.length then s else { s1 with invals := insertAt n { v with holders := still } s1.invals }

/-- No access through an old translation remains: no holder, and no running code, that of saved handler groups among it (R405).
(log 36) -/
def State.invalDone (s : State) (v : Inval) : Bool :=
  v.holders.isEmpty && s.kernels.all (fun p => !s.invalCode v p.2.ctx p.2.code) &&
    (s.groups ++ s.images.flatMap fun p => p.2.groups).all fun p => p.2.handles.isNone || !s.invalCode v p.2.ctx p.2.code

/-- A reflection whose page has no mapping to the device any more is lost (R323); one whose page has moved watches the
new place, where entries are free for it (R311): the stores that its old home held have been pushed (R313). (log 36) -/
def State.remapRefl (s : State) (n : Nat) : State :=
  match lookup n s.refls with
  | none => s
  | some r =>
    match s.walk (dieOf r.core) r.ctx r.va .read with
    | (.ok l, t) =>
      match t.placeOf r.ctx (l.xl r.va) r.va with
      | some (.dev stack soff) =>
        if stack == r.stack && soff == r.soff then s
        else if !({ s with refls := eraseAt n s.refls } : State).entriesFree r.core (s.reflCluster r) stack soff then t.loseRefl n
        else
          let same := fun x : WRange => x.stack == stack && x.off == soff && x.size == r.size
          -- the stores that the old home holds leave it first
          let t0 : State := match s.ranges.find? fun x => x.stack == r.stack && x.off == r.soff && x.size == r.size with
            | some x => if x.held == 0 then s else s.pushRange { x with held := 0, rel := false } x.held x.rel
            | none => s
          let t1 : State := t0.drainPushes n
          { t1.modRefl n fun y => { y with stack := stack, soff := soff, skip := ((s.ranges.find? same).map (·.held)).getD 0 } with
            ranges := if t1.ranges.any same then t1.ranges else t1.ranges ++ [{ stack := stack, off := soff, size := r.size }] }
      | _ => t.loseRefl n
    | (_, t) => t.loseRefl n

/-- The reflections of a range. -/
def State.remapRefls (s : State) (v : Inval) : State :=
  ((s.refls.filter fun p => s.invalNames v p.2.ctx && !v.ats && inPages v.first v.count (p.2.va / 65536) &&
    (p.2.st == .live || p.2.st == .registering)).map (·.1)).foldl State.remapRefl s

/-- INVAL_COMPLETE: the flush, and the acknowledgement. The flush takes every copy (R269). (log 36) -/
def execInvalComplete (n : Nat) (s : State) : Out :=
  match lookup n s.invals with
  | none => .fault .noSuchObject
  | some v =>
    if !s.invalDone v then .fault .noSuchObject
    else
      let s1 : State := { (if v.flush then s.dropWhere fun _ => true else s) with invals := eraseAt n s.invals }
      .next (match v.mgmt with
        | some m => s1.answer (mgmtKey m.func m.die) m.idx 0 []
        | none => s1)

/-- ATS_INVALIDATION: the host takes back bus addresses (R451). (log 33) -/
def execAtsInvalidation (func addr len : Nat) (s : State) : Out :=
  if s.part.ports ≤ func || len == 0 then .fault .noSuchObject
  else
    let first := addr / 65536
    let count := (addr + len - 1) / 65536 - first + 1
    .next ({ s with atsHeld := s.atsHeld.filter fun p => !(p.1 == func && inPages first count p.2) }.beginInval
      { ctx := none, func := func, first := first, count := count, ats := true, flush := false, mgmt := none, holders := [] })

/-! The page-fault service (R408, R492). -/

/-- The commands that wait for a record. -/
def State.waitingCmds (s : State) (f : FaultRec) : List (Nat × Cmd) :=
  s.cmds.filter fun p => p.2.fault == some f.id && dieOf p.2.core == f.die && p.2.ctx == f.ctx

/-- The REFLs that wait for a record. -/
def State.waitingRefls (s : State) (f : FaultRec) : List (Nat × Group) :=
  s.groups.filter fun p => dieOf p.2.core == f.die && p.2.ctx == f.ctx && (match p.2.wait with
    | .refl _ _ _ _ (some i) _ => i == f.id
    | _ => false)

/-- A queue is served on the die of a record. -/
def State.queueOn (s : State) (f : FaultRec) (q : Nat) : Bool := !isMgmt q && s.homeDie q == f.die && (s.queue q).ctx == f.ctx

/-- Queue fetches, entries, graph nodes, admissions, saves and restores that wait for a record look again. -/
def State.lookAgain (s : State) (f : FaultRec) : State :=
  let is := fun x : Option Nat => x == some f.id
  { s with
    queues := s.queues.map fun p => if s.queueOn f p.1 then (p.1, { p.2 with
      fault := if is p.2.fault then none else p.2.fault
      entries := p.2.entries.map fun e => if is e.2.fault then (e.1, { e.2 with fault := none }) else e }) else p
    groups := s.groups.map fun p => if p.2.ctx == f.ctx && p.2.handler == .held (f.die * 4294967296 + f.id) then
      (p.1, { p.2 with handler := .due }) else p
    graphs := s.graphs.map fun p => if s.queueOn f p.2.q then
      (p.1, { p.2 with faults := p.2.faults.filter fun x => x.2 != f.id }) else p
    kernels := s.kernels.map fun p => if p.2.ctx == f.ctx && p.2.fault == some (f.die * 4294967296 + f.id) then
      (p.1, { p.2 with fault := none }) else p
    ctxs := s.ctxs.map fun p => if p.1 == f.ctx && is p.2.fault && p.2.lowDie == f.die then (p.1, { p.2 with fault := none }) else p }

/-- Change the commands of a saved context that wait for a record. -/
def State.savedCmds (s : State) (f : FaultRec) (g : Cmd → Cmd) : State :=
  let mine := fun p : Nat × Cmd => if p.2.fault == some f.id && dieOf p.2.core == f.die then (p.1, g p.2) else p
  { s with images := modifyAt f.ctx (fun i : Image => { i with cmds := i.cmds.map mine }) s.images }

/-- The record is answered. -/
def State.dropRecord (s : State) (f : FaultRec) : State :=
  { s with faults := s.faults.filter fun x => !(x.die == f.die && x.id == f.id)
           pri := s.pri.filter fun p => !(p.2.die == f.die && p.2.fault == f.id) }

/-- A REFL whose fault is answered walks on with what the TLB lacks, or goes on. -/
def State.reflAgain (s : State) (gid : Nat) (g : Group) (o : Issue) (pd size : Nat) (lanes : List (Nat × Word × Nat))
    (lost : List Nat) : State :=
  let u : State := s.modGroup gid fun g => { g with wait := .refl o pd size lanes none lost }
  let left := lanes.filter fun x => !lost.contains (x.2.2 / 65536)
  if left.all fun x => (u.tlbHit g.core g.ctx x.2.2 .read).isSome then u.reflGoOn gid g o pd size lanes lost
  else u.reflWalk gid g left

/-- Retry: an acquire at system scope on the die, and every requester walks again. -/
def State.retryFault (s : State) (f : FaultRec) : State :=
  let s1 : State := ((s.dropRecord f).dropDie f.ctx f.die).lookAgain f
  let s2 : State := s1.savedCmds f fun c => { c with fault := none }
  let s3 : State := (s2.waitingRefls f).foldl (fun t p =>
    match p.2.wait with
    | .refl o pd size lanes _ lost => t.reflAgain p.1 p.2 o pd size lanes lost
    | _ => t) s2
  (s3.waitingCmds f).foldl (fun t p => t.retryCmd p.1 p.2) s3

/-- A queue whose fetch, or entry, or graph node waited for a failed record enters Error with FETCH. -/
def State.failQueues (s : State) (f : FaultRec) : State :=
  let qs := (s.queues.filter fun p => s.queueOn f p.1).map (·.1)
  let s1 : State := qs.foldl (fun t q =>
    let x := t.queue q
    let y : Queue := { x with rd := (x.rd + 1) % 4294967296 }
    let t1 : State := if x.fault == some f.id then t.setQueue q (y.fail 5 x.rd) else t
    (x.entries.filter fun e => e.2.fault == some f.id).foldl (fun u e => u.failEntry q e.1 5) t1) s
  (s1.graphs.filter fun p => s1.queueOn f p.2.q).foldl (fun t p =>
    (p.2.faults.filter fun x => x.2 == f.id).foldl (fun u x => (u.nodeStarted p.1 x.1).nodeEnds p.1 x.1 5) t) s1

/-- Traps whose handlers wait for a failed record are unhandled. (log 14) -/
def State.failHandlers (s : State) (f : FaultRec) : State :=
  (s.groups.filter fun p => p.2.ctx == f.ctx && p.2.handler == .held (f.die * 4294967296 + f.id)).foldl (fun t p =>
    (t.logUnhandled p.2 (p.2.record.getD [])).endGroups [p.1]) s

/-- Fail: every requester ends as Table 18-6 gives. A save is made again, and uses the whole of its save area. (log 18) -/
def State.failFault (s : State) (f : FaultRec) : State :=
  let s0 : State := ((s.dropRecord f).failQueues f).failHandlers f
  let s1 : State := s0.modCtx f.ctx fun c =>
    if c.st == .saving && c.fault == some f.id && c.lowDie == f.die then { c with wholeArea := true } else c
  let s2 : State := { s1 with kernels := s1.kernels.map fun p =>
    if p.2.ctx == f.ctx && p.2.fault == some (f.die * 4294967296 + f.id) then (p.1, { p.2 with argsLost := f.page :: p.2.argsLost }) else p }
  let s3 : State := (s2.waitingRefls f).foldl (fun t p =>
    match p.2.wait with
    | .refl o pd size lanes _ lost => t.reflAgain p.1 p.2 o pd size lanes (f.page :: lost)
    | _ => t) s2
  let s4 : State := (s3.waitingCmds f).foldl (fun t p => t.cancel p.1 7) s3
  let s5 : State := s4.savedCmds f fun c => { c with fault := none, st := .failed }
  let killed : Bool := match lookup f.ctx s5.ctxs with
    | some c => c.st == CtxSt.restoring && c.fault == some f.id && c.lowDie == f.die
    | none => false
  let s6 : State := s5.lookAgain f
  if killed then s6.killCtx f.ctx else s6

/-- Answer a record. -/
def State.answerFault (s : State) (fail : Bool) (f : FaultRec) : State := if fail then s.failFault f else s.retryFault f

/-- PRI_RESPONSE: Success acts as Retry, anything else as Fail (R451). (log 33) -/
def execPriResponse (func id : Nat) (ok : Bool) (s : State) : Out :=
  match lookup id s.pri with
  | none => .fault .noSuchObject
  | some p =>
    match s.faults.find? fun f => f.die == p.die && f.id == p.fault with
    | some f => if p.func == func then .next (s.answerFault (!ok) f) else .fault .noSuchObject
    | none => .fault .noSuchObject

/-- Requesters that found the fault queue of a die full try again once there is a place (R407). (log 53) -/
def State.placeFaults (s : State) (die : Nat) : State :=
  if 1024 ≤ s.faults.countP fun f => f.die == die then s
  else
    let full : FaultRec := ⟨die, 0, 0, 0, [], 0, false⟩
    let ctxs := s.ctxs.map (·.1)
    let again : State := ctxs.foldl (fun t c => t.lookAgain { full with ctx := c }) s
    let refls := again.groups.filter fun p => dieOf p.2.core == die && (match p.2.wait with
      | .refl _ _ _ _ (some 0) _ => true
      | _ => false)
    let s1 : State := refls.foldl (fun t p =>
      match p.2.wait with
      | .refl o pd size lanes _ lost => t.reflGoOn p.1 p.2 o pd size lanes lost
      | _ => t) again
    (s1.cmds.filter fun p => p.2.fault == some 0 && dieOf p.2.core == die).foldl (fun t p => t.placeFault p.1 p.2) s1

/-! Fault rings (R453). -/

/-- A record waits to be written to the ring of its context. -/
def State.unsent (s : State) (ctx : Nat) : Option FaultRec := s.faults.find? fun f => f.ctx == ctx && !f.sent && f.reason != 3

/-- Write records of a context to its ring while there is room. (log 53) -/
def sendFaults : Nat → Nat → State → State
  | 0, _, s => s
  | fuel + 1, ctx, s =>
    match lookup ctx s.ctxs, s.unsent ctx with
    | some c, some f =>
      match c.faultRing with
      | some r =>
        if r.ok && s.portUp c.func && s.ringRoom ctx r.ring r.desc 8 then
          let s1 : State := s.writeRing ctx r.ring r.desc r.vec (f.words.map PWord.ok)
          sendFaults fuel ctx { s1 with faults := s1.faults.map fun x => if x.die == f.die && x.id == f.id then { x with sent := true } else x }
        else s
      | none => s
    | _, _ => s

/-- The controller reads the descriptor of a context's fault ring. -/
def State.readFaultRing (s : State) (ctx ring vec : Nat) : State :=
  let d := s.readRing ctx ring
  s.modCtx ctx fun c => { c with faultRing := some ⟨ring, vec, d.1, ringOk d.1 d.2, s.now⟩ }

/-- Contexts of a die whose records wait, and whose descriptor was read 1,000 ticks ago. (log 53) -/
def State.waitingRings (s : State) (die : Nat) : List (Nat × FaultRing) :=
  s.ctxs.filterMap fun p =>
    match p.2.faultRing with
    | some r => if p.2.lowDie == die && (s.unsent p.1).isSome && tick r.at_ + 1000 ≤ tick s.now then some (p.1, r) else none
    | none => none

/-- FAULTRING_RETRY: the controller reads those descriptors again. (log 53) -/
def execFaultringRetry (die : Nat) (s : State) : Out :=
  if !s.hasDie die || (s.waitingRings die).isEmpty then .fault .noSuchObject
  else .next ((s.waitingRings die).foldl (fun t p => t.readFaultRing p.1 p.2.ring p.2.vec) s)

/-! Access counters (R413). -/

/-- Halve a count; the entry is armed again at LO or below. (log 34) -/
def CountEntry.halve (lo : Nat) (e : CountEntry) : CountEntry :=
  { e with count := e.count / 2, armed := e.armed || e.count / 2 ≤ lo }

/-- Counter tables of a die: its stacks, and its host-port bridge. -/
def tablesOf (die : Nat) : List Nat := [4 * die, 4 * die + 1, 4 * die + 2, 4 * die + 3] ++ (if die < 2 then [16 + die] else [])

/-- See assumption log 34. -/
def execAccessCountHalving (die : Nat) (s : State) : Out :=
  let d := s.die die
  if !s.hasDie die || s.now < d.lastHalf + 1048576 then .fault .noSuchObject
  else
    let half := fun p : Nat × List CountEntry =>
      if (tablesOf die).contains p.1 then (p.1, p.2.map (CountEntry.halve d.lo)) else p
    .next ({ s with counters := s.counters.map half }.modDie die fun x => { x with lastHalf := d.lastHalf + 1048576 })

/-! Page drains (R409, R423, R428). -/

/-- The leaves of a table whose page covers a physical page, and has MIG = 1. -/
def State.movesUnder (s : State) (mode dev page : Nat) : List Nat → Nat → Bool
  | [], _ => false
  | l :: ls, table =>
    (List.range 512).any fun i =>
      match s.readEntry (deviceDies mode dev |>.headD 0) mode dev (table + 8 * i) with
      | some (e, false) =>
        if !bitOf e 0 then false
        else if bitOf e 1 then
          let first := bitsOf e 16 36
          bitOf e 7 && !bitOf e 5 && first ≤ page && page < first + levelSpan l / 65536
        else s.movesUnder mode dev page ls (bitsOf e 8 44 * 256)
      | _ => false

/-- A physical page is Migrating: some context's leaf of it has MIG = 1 (Table 18-7). -/
def State.migrating (s : State) (page : Nat) : Bool :=
  s.ctxs.any fun p => s.movesUnder p.2.mode p.2.dev page (levelsFrom 4) p.2.ptroot

/-- The first compressed slot that a drain has not come to (R428). -/
def State.drainNext (s : State) (d : Drain) : Option Nat :=
  (List.range' d.next (4 * (d.first + d.blocks) - d.next)).find? fun slot => s.compressed d.stack (1024 * slot)

/-- A drain rewrites its next slot raw, as one step on its block (R429); one that a collision has recorded begins, once its page does
not migrate (Table 18-7). (log 31) -/
def State.drainStep (s : State) (n : Nat) : Option State :=
  (lookup n s.drains).bind fun d =>
    let set := fun (f : Drain → Drain) (t : State) => ({ t with drains := modifyAt n f t.drains } : State)
    if !d.begun then
      if s.migrating (s.pageOf d.stack (4096 * d.first)) then none
      else some (set (fun x => { x with begun := true }) (s.setAttr d.stack d.first d.blocks 2))
    else (s.drainNext d).map fun slot =>
      let t : State := set (fun x => { x with next := slot + 1 }) (s.logMalformed d.stack (blockSectors (1024 * slot)))
      t.storeBlock d.stack slot (s.loadBlock d.stack (1024 * slot))

/-- PAGE_DRAIN_COMPLETE: every block has been rewritten. The page is raw, its collision entries are freed, their bytes standing as
they were written, the waiting blocks are stored, and an overflow is reported. (log 31) -/
def execPageDrainComplete (n : Nat) (s : State) : Out :=
  match lookup n s.drains with
  | none => .fault .noSuchObject
  | some d =>
    if !d.begun || (s.drainNext d).isSome then .fault .noSuchObject
    else
      let inside := fun slot : Nat => d.covers d.stack slot
      let tab := readAt [] s.collisions d.stack
      let s1 : State := (tab.filter inside).foldl (fun t slot =>
        let b := s.loadBlock d.stack (1024 * slot)
        t.fillSlot d.stack slot b.bytes b.psn) s
      let s2 : State := d.waiting.foldl (fun t x => t.fillSlot d.stack x.1 x.2.bytes x.2.psn) s1
      let s3 : State := s2.setAttr d.stack d.first d.blocks 0
      .next { s3 with
        drains := eraseAt n s3.drains
        collisions := writeAt [] d.stack (tab.filter fun x => !inside x) s3.collisions
        overflows := if d.overflow then s3.overflows ++ [(d.stack, d.first)] else s3.overflows }

end Sys2Proof.Machine
end

