-- ==== Sys2Proof/Machine/Management.lean ====
section
/-! DEFINITION. Management commands (spec 21_host_firmware.md R452 to R456, 16_context.md R361 to R364, R366, R375,
17 R383, R398, 18 R406, R408, R492, 19 R423, 20 R448). -/

namespace Sys2Proof.Machine

/-! The form of a command (R452, R453). -/

/-- A management command that its controller has reached: fetched, its queue in service, and not begun, but for a CTXDESTROY,
which begins with its shade's end. (log 51) -/
def State.mgmtEntry (s : State) (m : MgmtRef) : Option QEntry :=
  let x := s.queue (mgmtKey m.func m.die)
  match lookup m.idx x.entries with
  | some e => if (x.st == .active || x.st == .idle) && !x.susp && (!e.started || e.type == 2) && m.func < s.part.ports && s.hasDie m.die then some e else none
  | none => none

/-- Run a command of a code: a die in warm reset answers PARTDOWN, one in recovery REFUSED. -/
def runMgmt (s : State) (m : MgmtRef) (code : Nat) (go : QEntry → Out) : Out :=
  match s.mgmtEntry m with
  | none => .fault .noSuchObject
  | some e =>
    if e.type != code then .fault .noSuchObject
    else match (s.die m.die).refuses code with
      | some st => .next (s.answer (mgmtKey m.func m.die) m.idx st [])
      | none => go e

/-- Answer a command. -/
def State.reply (s : State) (m : MgmtRef) (status : Nat) (results : List Nat) : State :=
  s.answer (mgmtKey m.func m.die) m.idx status results

/-- A command is under way. -/
def State.startMgmt (s : State) (m : MgmtRef) : State :=
  let q := mgmtKey m.func m.die
  let x := s.queue q
  s.setQueue q { x with entries := modifyAt m.idx (fun y => { y with started := true }) x.entries }

/-- A command for a context waits while the controller of the context applies another (R453): an INVAL, or a CTXDESTROY. (log 51) -/
def State.ctxHeld (s : State) (m : MgmtRef) (tag : Nat) : Bool :=
  (s.invals.any fun p => p.2.mgmt.isSome && p.2.ctx == some tag) ||
    s.queues.any fun p => isMgmt p.1 && p.2.entries.any fun e =>
      e.2.started && e.2.type == 2 && (e.2.words.getD 1 0).toNat == tag && (p.1 != mgmtKey m.func m.die || e.1 != m.idx)

/-- Run a command that names a context: refused for a tag that is not live; the lowest die of its device applies it, and
answers PARTDOWN in warm reset and REFUSED in recovery. (log 51) -/
def runNamed (s : State) (m : MgmtRef) (code : Nat) (tag : QEntry → Nat) (go : QEntry → Nat → Ctx → Out) : Out :=
  runMgmt s m code fun e =>
    match lookup (tag e) s.ctxs with
    | none => .next (s.reply m 1 [])
    | some c =>
      match (s.die c.lowDie).refuses code with
      | some st => .next (s.reply m st [])
      | none => if s.ctxHeld m (tag e) then .fault .noSuchObject else go e (tag e) c

/-- Word i of an entry. -/
def QEntry.w (e : QEntry) (i : Nat) : Nat := (e.words.getD i 0).toNat

/-- The tag in word 1. -/
def tagWord (e : QEntry) : Nat := e.w 1

/-! CTXCREATE (R361, R362). -/

/-- A record breaks its layout or a limit of Table 16-1. (log 7) -/
def recordBad (part : Part) (w : Nat → Nat) : Bool :=
  let ctl := w 0
  let mode := part.layout (ctl % 8)
  let d := fun i => w i + 4294967296 * w (i + 1)
  !part.offers (ctl % 8) || bitOf ctl 3 || bitOf ctl 11 || 65536 ≤ ctl || ctl % 8 ≤ bitsOf ctl 4 2 ||
    bitsOf ctl 12 4 == 0 || w 1 != 0 || 4 ≤ w 2 || 65536 ≤ w 3 || (!bitOf ctl 6 && w 3 != 0) ||
    w 4 == 0 || 4096 < w 4 || bitsOf (w 5) 13 3 != 0 || bitsOf (w 5) 30 2 != 0 || bitsOf (w 5) 16 14 == 0 ||
    8192 / mode < w 5 % 8192 + bitsOf (w 5) 16 14 || d 6 % 4096 != 0 || 4503599627370496 ≤ d 6 || d 8 % 1024 != 0 ||
    d 10 < 65536 + 753664 * (256 * (deviceDies mode (bitsOf ctl 4 2)).length) || d 12 % 65536 != 0 ||
    144115188075855872 ≤ d 12 || w 14 != 0 || w 15 != 0

/-- The context that a record makes. -/
def recordCtx (part : Part) (w : Nat → Nat) (func : Nat) : Ctx :=
  let ctl := w 0
  let d := fun i => w i + 4294967296 * w (i + 1)
  { mode := part.layout (ctl % 8), dev := bitsOf ctl 4 2, shade := bitOf ctl 6, priv := bitOf ctl 7, prio := bitsOf ctl 8 3
    emask := bitsOf ctl 12 4, weight := w 2 % 4 + 1, princ := w 3, park := w 4, qfirst := w 5 % 8192
    qcount := bitsOf (w 5) 16 14, ptroot := d 6, hrtab := d 8, savesz := d 10, savea := d 12, func := func }

/-- The package queues of a context. -/
def Ctx.queues (c : Ctx) : List Nat := (List.range c.qcount).map fun i => packageQueue c.mode c.dev (c.qfirst + i)

/-- A principal as PRINC must name it. -/
def State.princOk (s : State) (c : Ctx) : Bool :=
  match lookup c.princ s.ctxs with
  | none => false
  | some p => !p.shade && p.mode == c.mode && p.dev == c.dev && p.st != .killing && p.st != .failed &&
      !s.ctxs.any fun x => x.2.shade && x.2.princ == c.princ

/-- The refusals of R362 that depend on the package. -/
def State.createBad (s : State) (c : Ctx) : Bool :=
  c.queues.any (fun q => (s.queue q).ctx != 0) || (c.shade && !s.princOk c) ||
    (deviceDies c.mode c.dev).any fun d => (s.die d).mode != 0 && (s.die d).mode != c.mode

/-- A tag that no context has: the controller's choice. (log 43) -/
def State.newTag (s : State) : Nat :=
  let t := fun i => (Config.freeChoice s.free + i) % 65535 + 1
  (((List.range (s.ctxs.length + 1)).map t).find? fun x => (lookup x s.ctxs).isNone).getD 0

/-- A created context. -/
def State.create (s : State) (tag : Nat) (c : Ctx) : State :=
  let s1 : State := { s with ctxs := insertAt tag c s.ctxs, free := s.free + 1 }
  let s2 : State := (deviceDies c.mode c.dev).foldl (fun t d => t.modDie d fun x => { x with mode := c.mode }) s1
  let s3 : State := c.queues.foldl (fun t q => t.setQueue q { t.queue q with ctx := tag }) s2
  if c.shade then
    { s3 with loans := s3.loans.map fun p => if p.1 / 1024 == c.princ then (p.1, { p.2 with ecl := 0, lost := false }) else p }
  else s3

/-- CTXCREATE: words 1 and 2 hold the host address of the record; the tag is returned in word 13. (log 50) -/
def execCtxcreate (m : MgmtRef) (s : State) : Out :=
  runMgmt s m 1 fun e =>
    let got := s.hostBytes (e.num 1) 64
    let ws := wordsOfBytes got.1
    let w := fun i => (ws.getD i 0).toNat
    let c := recordCtx s.part w m.func
    if !s.portUp m.func || got.2 || recordBad s.part w then .next (s.reply m 1 [])
    else match (s.die c.lowDie).refuses 1 with
      | some st => .next (s.reply m st [])
      | none =>
        if s.createBad c || s.newTag == 0 then .next (s.reply m 1 [])
        else .next ((s.create s.newTag c).reply m 0 [s.newTag])

/-! CTXDESTROY, CTXKILL, PREEMPT, CTXRESUME (Table 16-3). -/

/-- Remove a context and all that is kept for it. -/
def State.destroy (s : State) (tag : Nat) (c : Ctx) : State :=
  let s0 : State := ((s.cmds.filter fun p => p.2.ctx == tag).map (·.1)).foldl State.leaveLanes (s.leaveTables tag)
  let s1 : State := (s.queuesOf tag).foldl (fun t q =>
    let x := t.queue q
    let y : Queue := { x with
      st := .disabled, ctx := 0, rd := x.wr, done := x.wr, err := 0, erridx := 0, entries := [], fault := none }
    t.setQueue q y) (s0.dropWhere fun k => k.ctx == tag)
  let idle := fun d => !s.ctxs.any fun p => p.1 != tag && (deviceDies p.2.mode p.2.dev).contains d
  let s2 : State := (deviceDies c.mode c.dev).foldl (fun t d => if idle d then t.modDie d fun x => { x with mode := 0 } else t) s1
  { s2 with
    ctxs := eraseAt tag s2.ctxs
    graphs := s2.graphs.filter fun p => p.2.ctx != tag
    kernels := s2.kernels.filter fun p => p.2.ctx != tag
    cmds := s2.cmds.filter fun p => p.2.ctx != tag
    engines := s2.engines.filter fun p => p.1 / 4096 != tag
    images := eraseAt tag s2.images
    tlb := s2.tlb.filter fun t => t.ctx != tag
    walkCache := s2.walkCache.filter fun t => t.ctx != tag
    walks := s2.walks.filter fun t => t.2.ctx != tag
    buckets := s2.buckets.filter fun p => p.1 / 4 != tag
    hrings := s2.hrings.filter fun p => p.1 / 32 != tag
    loans := s2.loans.filter fun p => p.1 / 1024 != tag
    savedScales := s2.savedScales.filter fun p => p.1 / 1024 != tag
    scales := s2.scales.map fun p => if p.2.owner == some tag then (p.1, { p.2 with owner := none }) else p
    faults := s2.faults.filter fun f => f.ctx != tag
    pri := s2.pri.filter fun p => s2.faults.any fun f => f.die == p.2.die && f.id == p.2.fault && f.ctx != tag
    errlog := s2.errlog.filter fun x => x.ctx != tag
    cores := s2.cores.map fun p => (p.1, { p.2 with
      layouts := if p.2.taken == tag then [] else p.2.layouts, taken := if p.2.taken == tag then 0 else p.2.taken
      passes := eraseAt tag p.2.passes, issuable := p.2.issuable.filter (· != tag)
      outbound := p.2.outbound.filter fun x => x.ctx != tag }) }

/-- CTXDESTROY: a principal's shade is killed first, and the destroy waits for its teardown. (log 51) -/
def execCtxdestroy (m : MgmtRef) (s : State) : Out :=
  runNamed s m 2 tagWord fun e tag c =>
    if e.started && c.st == .killing then .fault .noSuchObject
    else if c.st != .ready && c.st != .saved && c.st != .failed then .next (s.reply m 1 [])
    else if s.ctxs.any fun p => p.2.shade && p.2.princ == tag && p.2.st == .killing then .fault .noSuchObject
    else match s.shadeOf tag with
      | some sh => .next ((s.startMgmt m).killCtx sh)
      | none => .next ((s.destroy tag c).reply m 0 [])

def execCtxkill (m : MgmtRef) (s : State) : Out :=
  runNamed s m 3 tagWord fun _ tag _ => .next ((s.killCtx tag).reply m 0 [])

def execPreempt (m : MgmtRef) (s : State) : Out :=
  runNamed s m 4 tagWord fun _ tag _ => .next ((s.preemptCtx tag).reply m 0 [])

def execCtxresume (m : MgmtRef) (s : State) : Out :=
  runNamed s m 5 tagWord fun _ tag _ =>
    .next ((s.modCtx tag fun c => { c with st := if c.st == .saved then .restoring else c.st }).reply m 0 [])

/-! HANDLER (R383). -/

/-- HANDLER: word 1 the tag, words 2 and 3 the address of the descriptor; 0 removes the handler. (log 50) -/
def execHandler (m : MgmtRef) (s : State) : Out :=
  runNamed s m 6 tagWord fun e tag c =>
    let va := e.num 2
    if va == 0 then .next ((s.modCtx tag fun x => { x with handler := none }).reply m 0 [])
    else match s.describe c.lowDie tag va with
      | .hold => .next s
      | .suspend _ _ t | .refused t => .next (t.reply m 1 [])
      | .ok d code t =>
        if d.w != 1 || d.h != 1 || d.g != 1 || d.scratch != 0 || d.argoff != 0 || d.arglen != 0 then .next (t.reply m 1 [])
        else .next ((t.modCtx tag fun x => { x with handler := some (d, code) }).reply m 0 [])

/-! INVAL, RESUME (R406, R492). -/

/-- Pages of 64 KiB in a unit of SIZE. -/
def unitPages : Nat → Nat
  | 0 => 1
  | 1 => 32
  | _ => 16384

/-- An INVAL body breaks Table 18-4. -/
def invalBad (e : QEntry) : Bool :=
  let h := e.w 1
  let size := bitsOf h 17 2
  bitsOf h 20 12 != 0 || size == 3 ||
    (if bitOf h 16 then e.num 2 != 0 || e.w 4 != 0
     else e.num 2 % (65536 * unitPages size) != 0 || e.w 4 == 0 || 1048576 < e.w 4)

/-- INVAL: it is answered by INVAL_COMPLETE. (log 36) -/
def execInval (m : MgmtRef) (s : State) : Out :=
  runNamed s m 7 (fun e => e.w 1 % 65536) fun e tag c =>
    if invalBad e then .next (s.reply m 1 [])
    else
      let h := e.w 1
      let all := bitOf h 16
      let v : Inval :=
        { ctx := some tag, func := c.func, first := if all then 0 else e.num 2 / 65536
          count := if all then 2199023255552 else e.w 4 * unitPages (bitsOf h 17 2)
          ats := false, flush := bitOf h 19, mgmt := some m, holders := [] }
      .next ((((s.startMgmt m).dropDie tag c.lowDie).beginInval v).remapRefls v)

/-- A RESUME body has a reserved bit set or breaks R492. -/
def resumeBad (e : QEntry) : Bool :=
  let h := e.w 1
  bitsOf h 2 14 != 0 || (List.range 6).any (fun i => e.w (6 + i) != 0) ||
    (if bitOf h 1 then e.w 2 != 0 || e.num 3 % 65536 != 0 || e.w 5 == 0 || 1048576 < e.w 5
     else h / 65536 != 0 || e.w 3 != 0 || e.w 4 != 0 || e.w 5 != 0)

/-- RESUME: by identifier on the die that receives it, or of a range of a context on every die of its device. -/
def execResume (m : MgmtRef) (s : State) : Out :=
  runMgmt s m 8 fun e =>
    let h := e.w 1
    let fail := bitOf h 0
    if resumeBad e then .next (s.reply m 1 [])
    else if bitOf h 1 then
      match lookup (h / 65536) s.ctxs with
      | none => .next (s.reply m 1 [])
      | some c =>
        match (s.die c.lowDie).refuses 8 with
        | some st => .next (s.reply m st [])
        | none =>
          let fs := s.faults.filter fun f => f.ctx == h / 65536 && inPages (e.num 3 / 65536) (e.w 5) f.page
          if s.ctxHeld m (h / 65536) then .fault .noSuchObject
          else .next ((fs.foldl (fun t f => t.answerFault fail f) s).reply m 0 [])
    else
      match s.faults.find? fun f => f.die == m.die && f.id == e.w 2 with
      | none => .next (s.reply m 1 [])
      | some f => .next ((s.answerFault fail f).reply m 0 [])

/-! FAULTRING, PAGEATTR, ERRLOG, LINKSTAT, DIERESET (R398, R423, R448, R453). -/

/-- FAULTRING: word 1 the tag, word 2 the host ring, word 3 the vector. (log 50) -/
def execFaultring (m : MgmtRef) (s : State) : Out :=
  runNamed s m 9 tagWord fun e tag _ =>
    if 32 ≤ e.w 2 || 2048 ≤ e.w 3 then .next (s.reply m 1 [])
    else .next ((s.readFaultRing tag (e.w 2) (e.w 3)).reply m 0 [])

/-- The stack offsets of the 4 KiB blocks of a 64 KiB page of a device. -/
def State.pageBlocks (s : State) (mode dev pa : Nat) : List (Option (Nat × Nat)) :=
  (List.range 16).map fun i => physPlace s.dl mode dev (pa + 4096 * i)

/-- Set the compressible attribute of a block, or clear it; clearing drains the block's page on its stack. -/
def State.setBlock (s : State) (on : Bool) (p : Nat × Nat) : State :=
  let a := s.attrAt p.1 p.2
  if on then (if a == 0 || a == 3 then s.setAttr p.1 (p.2 / 4096) 1 1 else s)
  else if a == 1 then s.startDrain p.1 p.2 true else s

/-- PAGEATTR: words 1 and 2 a physical address of the die's device, word 3 the attribute, 1 compressible or 0. (log 31, 50) -/
def execPageattr (m : MgmtRef) (s : State) : Out :=
  runMgmt s m 10 fun e =>
    let mode := (s.die m.die).mode
    let pa := e.num 1
    let dev := if mode == 2 then m.die / 2 else if mode == 4 then m.die else 0
    let bs := s.pageBlocks mode dev pa
    if mode == 0 || pa % 65536 != 0 || 1 < e.w 3 || bs.any (·.isNone) then .next (s.reply m 1 [])
    else .next (((bs.filterMap id).foldl (fun t p => t.setBlock (e.w 3 == 1) p) s).reply m 0 [])

/-- Words of an error-log entry (R398). -/
def ErrEntry.words (x : ErrEntry) : List Nat :=
  [x.code + 256 * x.ovf.toNat + 65536 * x.rep, x.ctx, x.die * 268435456 + x.unit % 268435456,
   x.addr % 4294967296, x.addr / 4294967296, x.cyc % 4294967296, x.cyc / 4294967296, x.detail.toNat]

/-- Copy logs to a host buffer and clear them: dies ascending, each in the order written. -/
def State.copyLogs (s : State) (func buf ctx : Nat) (dies : List Nat) : Nat × State :=
  let es := dies.flatMap fun d => (s.errlog.filter fun x => x.ctx == ctx && x.die == d).reverse
  let s1 : State := { s with errlog := s.errlog.filter fun x => !(x.ctx == ctx && dies.contains x.die) }
  (es.length, s1.mgmtWrite func buf (bytesOfWords (es.flatMap ErrEntry.words)))

/-- ERRLOG: word 1 the tag, or 0 for the log of the die that no context owns; words 2 and 3 the host buffer. (log 49, 50) -/
def execErrlog (m : MgmtRef) (s : State) : Out :=
  runMgmt s m 11 fun e =>
    let go := fun (ctx : Nat) (dies : List Nat) =>
      let r := s.copyLogs m.func (e.num 2) ctx dies
      Host.Outcome.next (r.2.reply m 0 [r.1])
    if e.w 1 == 0 then go 0 [m.die]
    else match lookup (e.w 1) s.ctxs with
      | none => .next (s.reply m 1 [])
      | some c =>
        match (s.die c.lowDie).refuses 11 with
        | some st => .next (s.reply m st [])
        | none => if s.ctxHeld m (e.w 1) then .fault .noSuchObject else go (e.w 1) (deviceDies c.mode c.dev)

/-- LINKSTAT: word 1 the link number; Table 20-5 in words 13 and 14. (log 50) -/
def execLinkstat (m : MgmtRef) (s : State) : Out :=
  runMgmt s m 12 fun e =>
    if !s.isLink (e.w 1) then .next (s.reply m 1 [])
    else
      let v := (s.link (e.w 1)).status
      .next (s.reply m 0 [v % 4294967296, v / 4294967296])

/-- DIERESET: word 1 the die (R448). (log 50, 51) -/
def execDiereset (m : MgmtRef) (s : State) : Out :=
  runMgmt s m 13 fun e =>
    let d := e.w 1
    if !s.hasDie d then .next (s.reply m 1 [])
    else if (s.die d).warmed then .next (s.reply m 0 [])
    else if d == m.die || ((s.die d).mode == 1 && (List.range 4).all fun x => x == d || !s.dieReady x) then .next (s.reply m 1 [])
    else .next ((s.warmReset d false).reply m 0 [])

/-! POLICY (Table 21-2). -/

/-- A value within a range. -/
def clamp (lo hi x : Nat) : Nat := min hi (max lo x)

/-- Change the bucket of a context on every die of its device (R447). -/
def State.modBuckets (s : State) (tag : Nat) (c : Ctx) (f : Bucket → Bucket) : State :=
  (deviceDies c.mode c.dev).foldl (fun t d =>
    { t with buckets := insertAt (tag * 4 + d) (f ((t.bucket tag d).refill t.now)) t.buckets }) s

/-- A policy item of a context: 1 weight, 2 priority, 3 bucket SIZE, 4 bucket RATE. -/
def State.ctxPolicy (s : State) (tag : Nat) (c : Ctx) (item v : Nat) : State :=
  match item with
  | 1 => s.modCtx tag fun x => { x with weight := clamp 1 4 v }
  | 2 => s.modCtx tag fun x => { x with prio := clamp 0 7 v }
  | 3 => s.modBuckets tag c fun b => { b with size := clamp 4096 16777216 v, level := min b.level (clamp 4096 16777216 v) }
  | _ => s.modBuckets tag c fun b => { b with rate := clamp 1 16383 v }

/-- The part's power envelope in watts (Table 0-1). -/
def Part.envelope : Part → Nat
  | .ct4810 => 900
  | .ct4840 => 3400
  | .ct4880 => 3600

/-- POLICY: word 1 the item, word 2 the tag for an item of a context, words 3 and 4 its values. Items of the die are 5
HI and LO, refused outside their limits (R413), 6 the error-log threshold, 7 the power limit in watts, clamped to the
envelope (R454). (log 8, 34, 50) -/
def execPolicy (m : MgmtRef) (s : State) : Out :=
  runMgmt s m 14 fun e =>
    let item := e.w 1
    if item == 0 || 7 < item then .next (s.reply m 1 [])
    else if item ≤ 4 then
      match lookup (e.w 2) s.ctxs with
      | none => .next (s.reply m 1 [])
      | some c =>
        match (s.die c.lowDie).refuses 14 with
        | some st => .next (s.reply m st [])
        | none =>
          if s.ctxHeld m (e.w 2) then .fault .noSuchObject
          else .next ((s.ctxPolicy (e.w 2) c item (e.w 3)).reply m 0 [])
    else if item == 5 then
      if e.w 4 == 0 || e.w 3 ≤ e.w 4 || 65535 < e.w 3 then .next (s.reply m 1 [])
      else .next ((s.modDie m.die fun d => { d with hi := e.w 3, lo := e.w 4 }).reply m 0 [])
    else if item == 6 then .next ((s.modDie m.die fun d => { d with logAt := clamp 0 256 (e.w 3) }).reply m 0 [])
    else .next ((s.modDie m.die fun d => { d with power := min s.part.envelope (e.w 3) }).reply m 0 [])

/-! FWLOAD, ATTEST (R455). -/

/-- FWLOAD: words 1 and 2 the host address of the image, word 3 its length. Accepted firmware runs; a die in recovery goes
on to its wipe. (log 50, 51) -/
def execFwload (m : MgmtRef) (s : State) : Out :=
  runMgmt s m 15 fun e =>
    let got := s.hostBytes (e.num 1) (e.w 3)
    if !s.portUp m.func || got.2 || !s.imageOk m.die got.1 then .next (s.reply m 4 [])
    else .next ((s.modDie m.die fun d => { d with
      digest := Config.fwDigest got.1, svn := Config.fwSvn got.1, rejected := false
      phase := if d.phase == .recovery then .wiping else d.phase }).reply m 0 [])

/-- The part number of a report. (log 51) -/
def Part.number : Part → Nat
  | .ct4810 => 4810
  | .ct4840 => 4840
  | .ct4880 => 4880

/-- The report of ATTEST, without its signature: what R455 lists, in its order, numbers as words. (log 3, 51) -/
def State.report (s : State) (die : Nat) (nonce : List Byte) : List Byte :=
  let d := s.die die
  nonce ++ bytesOfWords [s.part.number, die, d.life] ++ Config.romDigest ++ d.digest ++ bytesOfWords [d.svn]

/-- ATTEST: words 1 to 8 the nonce, words 9 and 10 the host buffer. A die without an identity key refuses. (log 50, 51) -/
def execAttest (m : MgmtRef) (s : State) : Out :=
  runMgmt s m 16 fun e =>
    if !(s.die m.die).identity then .next (s.reply m 1 [])
    else
      let r := s.report m.die (bytesOfWords ((List.range 8).map fun i => e.w (1 + i)))
      .next ((s.mgmtWrite m.func (e.num 9) (r ++ Config.sm2Sign m.die (Config.sm3 r))).reply m 0 [])

end Sys2Proof.Machine
end

