-- ==== Sys2Proof/Machine/Host.lean ====
section
/-! DEFINITION. Host ports, host writes to device memory, and what the host reads of a function's BAR (spec
21_host_firmware.md R449, R450, R458, 13_reflection.md R312). -/

namespace Sys2Proof.Machine

/-- HOST_PORT_LINK_DOWN: the port is in neither L0 nor L0p (class 13); state 0 is Recovery, 1 Disabled. (log 58) -/
def execHostPortLinkDown (port state : Nat) (s : State) : Out :=
  if s.part.ports ≤ port || 2 ≤ state then .fault .noSuchObject
  else
    let s1 : State := { s with portDown := insertAt port state s.portDown }
    .next (if s.portUp port then s1.logError ⟨port, 0, 13, false, 0, port, 0, s.now, 0⟩ else s1)

/-- HOST_PORT_LINK_UP. (log 58) -/
def execHostPortLinkUp (port : Nat) (s : State) : Out :=
  if s.portUp port then .fault .noSuchObject else .next { s with portDown := eraseAt port s.portDown }

/-- HOST_WRITE: bytes of one line, at stack * 2^36 + offset, applied at its home. (log 58) -/
def execHostWrite (func addr : Nat) (bytes : List Byte) (s : State) : Out :=
  let stack := addr / 68719476736
  let off := addr % 68719476736
  if s.part.ports ≤ func || !s.portUp func || !s.hasDie (stack / 4) || !s.dieReady (stack / 4) || bytes.isEmpty || 128 < off % 128 + bytes.length then
    .fault .noSuchObject
  else .next (s.homeWrite
    { stack := stack, line := off / 128, bytes := bytes.mapIdx fun i b => (off % 128 + i, b), psn := [], rel := false })

/-! Reads of the BAR (R450, R458). -/

/-- The capability list as a die's function shows it (Table 21-3): no Fercy entry on a CT-4810, module management on a
CT-4880 alone. (log 7, 52) -/
def State.capabilities (s : State) (die : Nat) : List Nat :=
  let entry := fun (id len : Nat) => id + 65536 + 16777216 * len
  let n := s.part.dies.length
  let modes := ([1, 2, 4].filter s.part.offers).foldl (· + ·) 0
  [entry 1 3, (s.dieReady die).toNat + 2 * n + 16 * modes, s.dl, entry 2 2, 4 * n, entry 3 2, 32] ++
  (if s.part = .ct4810 then [] else [entry 4 2, 36 + 16384 * (Config.packageId % 262144)]) ++ [entry 5 2, 1024] ++
  (if s.part = .ct4880 then [entry 6 2, Config.coolantLimit] else []) ++ [entry 7 2, (s.die die).svn, 0]

/-- A word of a function's BAR; a function that the part lacks reads 0. (log 52) -/
def State.barRead (s : State) (func off : Nat) : Nat :=
  if s.part.ports ≤ func then 0
  else if off < 4096 then (s.capabilities func).getD (off / 4) 0
  else match blockAt s.part func off with
    | some (q, o) => s.readBlock q (o / 4 * 4)
    | none => 0

end Sys2Proof.Machine
end

