-- ==== Sys2Proof/Machine/Integer.lean ====
section
/-! DEFINITION. Integer, address and predicate instructions (spec 05_integer.md). Latencies are those of
Table 3-10. -/

namespace Sys2Proof.Machine

/-- The word of a natural number, modulo 2^32. -/
def w32 (n : Nat) : Word := BitVec.ofNat 32 n

/-! Addition and subtraction (R111). -/

def execIadd (o : OpR) (s : State) : Out := wordR o 2 (fun a b => a + b) s

def execIaddImm (o : OpIS) (s : State) : Out :=
  unaryWord s o.ap.val o.ar.val o.d.val 2 fun _ => PWord.map1 fun a => a + BitVec.ofInt 32 (signExt 7 o.imm.val)

def execIsub (o : OpR) (s : State) : Out := wordR o 2 (fun a b => a - b) s

/-- IADDC: carry in from bit 0 of D, carry out to D + 1. -/
def execIaddc (o : OpR) (s : State) : Out :=
  pairWord s o.ap.val o.ar.val o.bp.val o.br.val o.d.val 2 fun v L a b =>
    let d := v.g.reg L o.d.val
    pairOf (a.psn || b.psn || d.psn) ((a.val.toNat + b.val.toNat + d.val.toNat % 2 : Nat) : Int)

/-! Multiplication (R113). -/

def execImul (o : OpV) (s : State) : Out := wordV o 4 (fun a b => a * b) s

def execImulh (z : Sign) (o : OpV) (s : State) : Out := wordV o 4 (fun a b => hiWord (extOf z a * extOf z b)) s

def execImad (o : OpV) (s : State) : Out := wordVD o 4 (fun a b d => a * b + d) s

def execImadw (z : Sign) (o : OpV) (s : State) : Out :=
  pairWord s o.ap.val o.ar.val 0 o.br.val o.d.val 4 fun v L a b =>
    let lo := v.g.reg L o.d.val
    let hi := v.g.reg L (o.d.val + 1)
    pairOf (a.psn || b.psn || lo.psn || hi.psn)
      (extOf z a.val * extOf z b.val + ((lo.val.toNat + 4294967296 * hi.val.toNat : Nat) : Int))

/-! 64-bit arithmetic (R115): a pattern on a pair takes both words from one source lane (R104). -/

/-- IADD64 and ISUB64. -/
def arith64 (o : OpV) (f : Int → Int → Int) (s : State) : Out :=
  groupPairWord s o.d.val 3 fun v L =>
    let a := v.g.pairAt (v.src o.ap.val L) o.ar.val
    let b := v.g.pairAt L o.br.val
    pairOf (a.1 || b.1) (f a.2 b.2)

def execIadd64 (o : OpV) (s : State) : Out := arith64 o (fun a b => a + b) s
def execIsub64 (o : OpV) (s : State) : Out := arith64 o (fun a b => a - b) s

/-- SHL64 and SHR64: A is a pair and B a single register. -/
def shift64 (o : OpV) (f : Nat → Nat → Int) (s : State) : Out :=
  runWord s fun v =>
    match s.operand v 0 o.br.val with
    | .error x => .error x
    | .ok (b, s1) => s1.put2 v o.d.val (3 + popDelay v [o.br.val]) fun L =>
        let a := v.g.pairAt (v.src o.ap.val L) o.ar.val
        pairOf (a.1 || (b L).psn) (f a.2 (b L).val.toNat)

def execShl64 (o : OpV) (s : State) : Out :=
  shift64 o (fun a n => if 64 ≤ n then 0 else ((a * 2 ^ n : Nat) : Int)) s

def execShr64 (z : Sign) (o : OpV) (s : State) : Out :=
  shift64 o (fun a n =>
    match z with
    | .zx => if 64 ≤ n then 0 else ((a / 2 ^ n : Nat) : Int)
    | .sx => signExt 64 a / ((2 ^ min n 63 : Nat) : Int)) s

/-! Scaled address, minimum and maximum, absolute value and negation (R116, R117). -/

def execLea (v : Scale) (o : OpV) (s : State) : Out := wordV o 2 (fun a b => a + b * w32 (2 ^ v.code)) s

def execImin (z : Sign) (o : OpV) (s : State) : Out :=
  wordV o 2 (fun a b => if extOf z a ≤ extOf z b then a else b) s

def execImax (z : Sign) (o : OpV) (s : State) : Out :=
  wordV o 2 (fun a b => if extOf z a ≥ extOf z b then a else b) s

def execIabs (o : OpM) (s : State) : Out := wordM o 2 (fun a => loWord a.toInt.natAbs) s

def execIneg (o : OpM) (s : State) : Out := wordM o 2 (fun a => -a) s

/-! Logic and shifts (R118, R119). -/

def execAnd (o : OpV) (s : State) : Out := wordV o 2 (fun a b => a &&& b) s
def execOr (o : OpV) (s : State) : Out := wordV o 2 (fun a b => a ||| b) s
def execXor (o : OpV) (s : State) : Out := wordV o 2 (fun a b => a ^^^ b) s
def execAndn (o : OpV) (s : State) : Out := wordV o 2 (fun a b => a &&& ~~~b) s
def execOrn (o : OpR) (s : State) : Out := wordR o 2 (fun a b => a ||| ~~~b) s

/-- SHL by any count. -/
def shlWord (a : Word) (n : Nat) : Word := if 32 ≤ n then 0 else a <<< n
/-- SHR by any count. -/
def shrWord (a : Word) (n : Nat) : Word := if 32 ≤ n then 0 else a >>> n
/-- SAR: counts above 31 shift by 31. -/
def sarWord (a : Word) (n : Nat) : Word := a.sshiftRight (min n 31)
/-- ROTL by n modulo 32. -/
def rotlWord (a : Word) (n : Nat) : Word := a.rotateLeft (n % 32)

def execShl (o : OpV) (s : State) : Out := wordV o 2 (fun a b => shlWord a b.toNat) s
def execShr (o : OpV) (s : State) : Out := wordV o 2 (fun a b => shrWord a b.toNat) s
def execSar (o : OpV) (s : State) : Out := wordV o 2 (fun a b => sarWord a b.toNat) s
def execRotl (o : OpV) (s : State) : Out := wordV o 2 (fun a b => rotlWord a b.toNat) s

/-- A shift by an immediate count (R65). -/
def shiftImm (o : OpSh) (f : Word → Nat → Word) (s : State) : Out :=
  unaryWord s o.ap.val o.ar.val o.d.val 2 fun _ => PWord.map1 fun a => f a o.n.val

def execShlImm (o : OpSh) (s : State) : Out := shiftImm o shlWord s
def execShrImm (o : OpSh) (s : State) : Out := shiftImm o shrWord s
def execSarImm (o : OpSh) (s : State) : Out := shiftImm o sarWord s
def execRotlImm (o : OpSh) (s : State) : Out := shiftImm o rotlWord s

/-! Bit fields, counts and byte permutation (R121 to R123). -/

/-- Position and length of a field descriptor (R121). -/
def fieldPos (b : Word) : Nat := b.toNat % 256
def fieldLen (b : Word) : Nat := min (b.toNat / 256 % 256) 32

/-- BFX: the field of A, bits past 31 read as the sign or 0. -/
def bfxWord (z : Sign) (a b : Word) : Word :=
  let len := fieldLen b
  if len == 0 then 0
  else
    let f := (match z with
      | .sx => (a.sshiftRight (fieldPos b)).toNat
      | .zx => a.toNat / 2 ^ fieldPos b) % 2 ^ len
    match z with
    | .sx => BitVec.ofInt 32 (signExt len f)
    | .zx => BitVec.ofNat 32 f

/-- BFI: the low len bits of A put into D at pos. -/
def bfiWord (a b d : Word) : Word :=
  let m : Word := BitVec.ofNat 32 ((2 ^ fieldLen b - 1) * 2 ^ fieldPos b)
  (d &&& ~~~m) ||| ((a <<< fieldPos b) &&& m)

def execBfx (z : Sign) (o : OpV) (s : State) : Out := wordV o 2 (bfxWord z) s
def execBfi (o : OpV) (s : State) : Out := wordVD o 2 bfiWord s

/-- Number of 1 bits. -/
def popcWord (a : Word) : Word := w32 ((List.range 32).countP fun k => a.getLsbD k)
/-- Zero bits above the highest 1 bit. -/
def clzWord (a : Word) : Word := if a == 0 then 32 else w32 (31 - a.toNat.log2)
/-- Zero bits below the lowest 1 bit. -/
def ctzWord (a : Word) : Word := w32 (((List.range 32).takeWhile fun k => !a.getLsbD k).length)

def execPopc (o : OpM) (s : State) : Out := wordM o 2 popcWord s
def execClz (o : OpM) (s : State) : Out := wordM o 2 clzWord s
def execCtz (o : OpM) (s : State) : Out := wordM o 2 ctzWord s
def execBrev (o : OpM) (s : State) : Out := wordM o 2 (fun a => a.reverse) s

/-- Byte i of the result of PRMT (R123). -/
def prmtByte (a b d : Word) (i : Nat) : Nat :=
  let sel := bitsOf d.toNat (4 * i) 4
  let x := bitsOf (a.toNat + 4294967296 * b.toNat) (8 * (sel % 8)) 8
  if 8 ≤ sel then (if 128 ≤ x then 255 else 0) else x

/-- PRMT: D supplies the selector nibbles. -/
def prmtWord (a b d : Word) : Word :=
  w32 (prmtByte a b d 0 + 256 * prmtByte a b d 1 + 65536 * prmtByte a b d 2 + 16777216 * prmtByte a b d 3)

def execPrmt (o : OpR) (s : State) : Out := wordRD o 2 prmtWord s

/-! Comparison and selection (R124, R125). -/

def execIsetp (z : Sign) (c : ICond) (o : OpC) (s : State) : Out :=
  compareWord o (fun a b => intCond c (extOf z a) (extOf z b)) s

/-- SEL executes in every active thread; its guard field is the select predicate. -/
def execSel (o : OpR) (s : State) : Out :=
  runBare s fun w =>
    let v : View := { w with o := { w.o with guard := 0 } }
    match s.operands v o.ap.val o.ar.val o.bp.val o.br.val with
    | .error x => .error x
    | .ok (a, b, s1) => s1.put v o.d.val (2 + popDelayTo v o.d.val [o.ar.val, o.br.val]) fun L =>
        if (w.g.thread L).predBad w.o.guard.val then PWord.poison
        else PWord.map2 (fun x y => if (w.g.thread L).pred w.o.guard.val then x else y) (a L) (b L)

/-! Moves and constants (R126). -/

def execMov (o : OpM) (s : State) : Out := wordM o 2 (fun a => a) s

/-- See assumption log 62. -/
def execMovi (d : Reg) (imm : Fin 32768) (s : State) : Out :=
  sourceWord s d.val 2 fun _ _ => PWord.ok (BitVec.ofInt 32 (signExt 15 imm.val))

def execMovl (d : Reg) (lit : Word) (s : State) : Out := sourceWord s d.val 2 fun _ _ => PWord.ok lit

/-! Predicates (R128). -/

def execPand (o : OpP) (s : State) : Out := predWord o.pd.val o.pa.val o.pb.val (fun a b => a && b) s
def execPor (o : OpP) (s : State) : Out := predWord o.pd.val o.pa.val o.pb.val (fun a b => a || b) s
def execPxor (o : OpP) (s : State) : Out := predWord o.pd.val o.pa.val o.pb.val (fun a b => a != b) s
def execPnot (pd pa : Pred) (s : State) : Out := predWord pd.val pa.val pa.val (fun a _ => !a) s

/-- The word PGET makes of a thread's predicates; bit 0 is 1. -/
def Thread.predWord (t : Thread) : PWord :=
  if t.predPsn >>> 1 != 0 then PWord.poison else PWord.ok ((t.preds ||| 1).zeroExtend 32)

def execPget (d : Reg) (s : State) : Out := sourceWord s d.val 2 fun v L => (v.g.thread L).predWord

/-- PSET: p1 to p15 from the bits of A, with one latency; an earlier outstanding write delays the predicate that it
writes and no other. (DESIGN CHOICE, log 9) -/
def execPset (o : OpA) (s : State) : Out :=
  runWord s fun v =>
    match s.operand v o.ap.val o.ar.val with
    | .error x => .error x
    | .ok (a, s1) => .ok ((List.range 15).foldl (fun s2 k =>
        s2.putPred v (k + 1) (2 + popDelay v [o.ar.val]) fun L =>
          (!(a L).psn && (a L).val.getLsbD (k + 1), (a L).psn)) s1)

end Sys2Proof.Machine
end

