-- ==== Sys2Proof/Machine/Matrix.lean ====
section
/-! DEFINITION. The accumulator tiles, format slots, scale memory and the matrix engine (spec 12_accumulator.md R283
to R308). -/

namespace Sys2Proof.Machine

/-! Channels (R286, R287). -/

/-- Mods. -/
def mods : List Nat := [256, 255, 253, 251, 247, 241, 239]

/-- Chans(t) and P(t). -/
def chans (wide : Bool) : Nat := if wide then 7 else 4
def tileP (wide : Bool) : Nat := if wide then 58977489938315520 else 4145475840

/-- Lq(c). -/
def quantLimit (wide : Bool) : Int := if wide then 1048576 else 127

/-- Sat(S, t). -/
def tileSat (wide : Bool) (y : Int) : Int :=
  let p : Int := tileP wide
  max (-(p / 2)) (min (p / 2 - 1) y)

/-- An element with a check byte: ToRes(S, t) with byte 7 := code. -/
def toRes (wide : Bool) (v : Int) (code : Nat) : Nat :=
  ((mods.take (chans wide)).mapIdx fun k (m : Nat) => (v % (m : Int)).toNat * 256 ^ k).foldl (· + ·) 0 + code * 256 ^ 7

/-- Byte k of an element. -/
def elemByteOf (e k : Nat) : Nat := e / 256 ^ k % 256

/-- The value with given residues: X in [0, p * m) from X mod p and X mod m, one modulus after another. -/
def crtFrom : List (Nat × Nat) → Nat → Nat → Nat
  | [], x, _ => x
  | (r, m) :: rest, x, p =>
    crtFrom rest (((List.range m).map fun t => x + p * t).find? (fun y => y % m == r) |>.getD x) (p * m)

/-- FromRes(e, t). -/
def fromRes (wide : Bool) (e : Nat) : Int :=
  crtSigned (crtFrom ((mods.take (chans wide)).mapIdx fun k m => (elemByteOf e k, m)) 0 1) (tileP wide)

/-- The rank of a check byte as a sticky code (R287). -/
def stickRank : Nat → Nat
  | 234 => 3
  | 233 => 2
  | 235 => 1
  | _ => 0

/-- Stick(e, c) on the check byte. -/
def stick (c7 c : Nat) : Nat := if stickRank c7 < stickRank c then c else c7

/-! Tiles in frames. -/

def Group.tile (g : Group) (t : Nat) : TileInfo := readAt {} g.tiles t

/-- The two words of element e of a tile. -/
def Group.elem (g : Group) (t e : Nat) : PWord × PWord := (g.word (g.tileBase t + 2 * e), g.word (g.tileBase t + 2 * e + 1))

/-- An element in residue form as a number. -/
def pairNat (w : PWord × PWord) : Nat := w.1.val.toNat + 4294967296 * w.2.val.toNat

def natPair (n : Nat) : PWord × PWord := (PWord.ok (BitVec.ofNat 32 n), PWord.ok (BitVec.ofNat 32 (n / 4294967296)))

/-- Write the elements of a tile that f gives; each block of 32 bytes enters the undo log first (R307). -/
def State.writeTile (s : State) (gid t : Nat) (f : Nat → Option (PWord × PWord)) : State :=
  match lookup gid s.groups with
  | none => s
  | some g =>
    let b := g.tileBase t
    let s1 := (List.range 256).foldl (fun u k =>
      if (List.range 4).any (fun j => (f (4 * k + j)).isSome) then
        u.logBlock g.team (.frame gid (b + 8 * k)) (loggedBlock fun i => g.word (b + 8 * k + i))
      else u) s
    let old := fun e => (f e).getD (g.elem t e)
    let mid := (List.range 1024).flatMap fun e => [(b + 2 * e, (old e).1), (b + 2 * e + 1, (old e).2)].filter fun p => p.2 != PWord.zero
    s1.modGroup gid fun x =>
      { x with frame := (x.frame.filter fun p => p.1 < b) ++ mid ++ x.frame.filter fun p => b + 2048 ≤ p.1 }

/-! Conversions (R292, R293). -/

/-- One element of AGIVE: the integer, the check byte, and whether it was rounded or saturated. -/
def giveElem (wide : Bool) (q : Int) (i64 : Bool) (w : PWord × PWord) : Int × Nat × Bool × Bool :=
  let fin := fun (y : Int) (inex : Bool) =>
    let v := tileSat wide y
    if v == y then (v, (v % 233).toNat, inex, false) else (v, 235, inex, true)
  if i64 then
    if w.1.psn || w.2.psn then (0, 234, false, false) else fin (signExt 64 (pairNat w)) false
  else if w.1.psn then (0, 234, false, false)
  else match f32 w.1.val with
    | .fin neg m e =>
      let y := roundInt neg m (e - q) false
      fin y ((Val.ofInt y).sub (.fin neg m (e - q)) |>.isZero |> not)
    | _ => (0, 233, false, false)

/-- What ATAKE finds in an element. -/
inductive Kind where
  | poison | invalid | sat (v : Int) | mismatch | good (v : Int)
  deriving DecidableEq, Repr

/-- Bytes of an element that break the residue form (R293). -/
def badBytes (wide : Bool) (e : Nat) : Nat :=
  (List.range 8).countP fun k =>
    decide ((if k == 7 then 236 else if k < chans wide then mods.getD k 0 else 1) ≤ elemByteOf e k)

/-- Some byte of an element breaks the residue form. -/
def resBad (wide : Bool) (e : Nat) : Bool := badBytes wide e != 0

def takeKind (wide : Bool) (w : PWord × PWord) : Kind :=
  let e := pairNat w
  let c := elemByteOf e 7
  if w.1.psn || w.2.psn || c == 234 || resBad wide e then .poison
  else if c == 233 then .invalid
  else
    let v := fromRes wide e
    if c == 235 then .sat v else if (v % 233).toNat != c then .mismatch else .good v

/-- The FP32 form of an integer: value word and status word. -/
def takeF32 (q v : Int) (sat : Bool) : PWord × PWord :=
  let x : Val := .fin (v < 0) v.natAbs q
  let w := toF32 x
  let r := f32 w
  let status := (if sat then 4 else 0) + (if !r.isFinite then 3 else if (r.sub x).isZero then 0 else 2)
  (PWord.ok w, PWord.ok (BitVec.ofNat 32 status))

/-- One element of ATAKE. -/
def takeElem (q : Int) (i64 : Bool) (k : Kind) : PWord × PWord :=
  if i64 then
    match k with
    | .poison | .mismatch => (PWord.poison, PWord.poison)
    | .invalid => (PWord.zero, PWord.ok 0x80000000)
    | .sat v | .good v => (PWord.ok (loWord v), PWord.ok (hiWord v))
  else
    match k with
    | .poison => (PWord.poison, PWord.ok 8)
    | .mismatch => (PWord.poison, PWord.ok 32)
    | .invalid => (PWord.ok 0x7FC00000, PWord.ok 16)
    | .sat v => takeF32 q v true
    | .good v => takeF32 q v false

/-! MMA (R297). -/

/-- What the products of an element add to it: the sum, whether there is one, and the sticky code they leave. -/
def products (a : List (Nat × Ent)) (b : List Ent) : Int × Bool × Nat :=
  a.foldl (fun r x =>
    match x.2, b.getD x.1 (.num 0 false) with
    | .poison, _ | _, .poison => (r.1, r.2.1, stick r.2.2 234)
    | .invalid, _ | _, .invalid => (r.1, r.2.1, stick r.2.2 233)
    | .num p s, .num q t => (r.1 + p * q, true, if s || t then stick r.2.2 235 else r.2.2)) (0, false, 0)

/-- An element after the products of its row and column; poisoned words stay poisoned. -/
def mmaElem (wide : Bool) (a : List (Nat × Ent)) (b : List Ent) (w : PWord × PWord) : PWord × PWord :=
  let e := pairNat w
  let r := products a b
  let low := if r.2.1 then
      ((mods.take (chans wide)).mapIdx fun k (m : Nat) =>
          ((((elemByteOf e k : Nat) : Int) + r.1) % (m : Int)).toNat * 256 ^ k).foldl (· + ·) 0 +
        (e / 256 ^ chans wide % 256 ^ (7 - chans wide)) * 256 ^ chans wide
    else e % 256 ^ 7
  let c := elemByteOf e 7
  let c1 := if r.2.2 != 0 then stick c r.2.2
    else if c ≤ 232 then (((c : Int) + r.1) % 233).toNat else c
  let n := natPair (low + c1 * 256 ^ 7)
  (⟨n.1.val, w.1.psn⟩, ⟨n.2.val, w.2.psn⟩)

/-- Apply one work to its tile. Each mismatch, and each byte that breaks the residue form, is logged (class 8). -/
def State.applyWork (s : State) (core : Nat) (w : MWork) : State :=
  match lookup w.gid s.groups with
  | none => s
  | some g =>
    match w.kind with
    | .zero => (s.writeTile w.gid w.tile fun _ => some (natPair 0)).modGroup w.gid fun x =>
        { x with tiles := writeAt {} w.tile { x.tile w.tile with ginex := false, gsat := false } x.tiles }
    | .give i64 ws =>
      let es := (List.range 1024).map fun e => giveElem w.wide w.q i64 (readAt PWord.zero ws (2 * e), readAt PWord.zero ws (2 * e + 1))
      let s1 := s.writeTile w.gid w.tile fun e => (es[e]?).map fun x => natPair (toRes w.wide x.1 x.2.1)
      s1.modGroup w.gid fun x => { x with
        tiles := writeAt {} w.tile { x.tile w.tile with ginex := es.any (·.2.2.1), gsat := es.any (·.2.2.2) } x.tiles }
    | .take i64 =>
      let ks := (List.range 1024).map fun e => takeKind w.wide (g.elem w.tile e)
      let s1 := s.writeTile w.gid w.tile fun e => (ks[e]?).map (takeElem w.q i64)
      let s2 := (List.range 1024).foldl (fun u e =>
        upTo ((if ks[e]? == some .mismatch then 1 else 0) + badBytes w.wide (pairNat (g.elem w.tile e)))
          (fun t _ => t.logError ⟨dieOf core, g.ctx, 8, false, 0, core, 0, t.cyc core, 0⟩) u) s1
      s2.modGroup w.gid fun x => { x with
        tiles := writeAt {} w.tile { x.tile w.tile with
          st := .held
          xsat := ks.any fun k => match k with
            | .sat _ => true
            | _ => false
          xinv := ks.contains .invalid
          xpsn := ks.contains .poison || ks.contains .mismatch } x.tiles }
    | .mma a b _ =>
      s.writeTile w.gid w.tile fun e =>
        match lookup (e / 32) a with
        | none => none
        | some row => some (mmaElem w.wide row (b.getD (e % 32) []) (g.elem w.tile e))

/-! The engine's queue (R298, R306). -/

def State.works (s : State) (core : Nat) : List MWork := readAt [] s.mwork core
def State.setWorks (s : State) (core : Nat) (ws : List MWork) : State := { s with mwork := writeAt [] core ws s.mwork }

/-- Work of a tile is outstanding. -/
def State.tileBusy (s : State) (core gid t : Nat) : Bool := (s.works core).any fun w => w.gid == gid && w.tile == t

/-- Queue a work. -/
def State.queueWork (s : State) (core gid t : Nat) (wide : Bool) (q : Int) (k : MKind) : State :=
  s.setWorks core (s.works core ++ [⟨gid, t, wide, q, k, if s.tileBusy core gid t then none else some s.now⟩])

/-- Take the first work of a tile out; the next becomes its first. -/
def dropWork (now gid t : Nat) : List MWork → List MWork
  | [] => []
  | w :: ws =>
    if w.gid == gid && w.tile == t then
      match ws.findIdx? fun x => x.gid == gid && x.tile == t with
      | some i => ws.modify i fun x => { x with ready := some now }
      | none => ws
    else w :: dropWork now gid t ws

/-- An MMA that may be applied: the first of its tile, in issue order. -/
def State.nextMma (s : State) (core : Nat) : Option MWork :=
  (s.works core).find? fun w => w.ready.isSome && match w.kind with
    | .mma _ _ _ => true
    | _ => false

/-- A checkpoint keeps the works that were outstanding when it was taken; a signal given since is not given again
(R299). -/
def Ckpt.signalled (c : Ckpt) (gid t : Nat) : Ckpt :=
  match c.works.findIdx? fun w => w.gid == gid && w.tile == t && (match w.kind with
    | .mma _ _ (some _) => true
    | _ => false) with
  | some i => { c with works := c.works.modify i fun w => match w.kind with
    | .mma a b _ => { w with kind := .mma a b none }
    | _ => w }
  | none => c

/-- MMA_APPLY: an MMA is applied, and its signal given (R299). (log 45) -/
def execMmaApply (core : Nat) (s : State) : Out :=
  match s.nextMma core with
  | none => .fault .noSuchObject
  | some w =>
    let s1 := (s.applyWork core w).setWorks core (dropWork s.now w.gid w.tile (s.works core))
    .next (match w.kind, lookup w.gid s.groups with
      | .mma _ _ (some dep), some g =>
        (s1.modTeam g.team fun x => { x with ckpt := x.ckpt.map fun c => c.signalled w.gid w.tile }).decrement (s1.clusterOf g) dep
      | _, _ => s1)

/-- The conversion that heads a tile's work. -/
def State.conversion (s : State) (core gid t : Nat) : Option MWork :=
  (s.works core).find? fun w => w.gid == gid && w.tile == t && w.ready.isSome && match w.kind with
    | .mma _ _ _ => false
    | _ => true

/-- TILE_CONVERSION_END: 32 cycles after the conversion could start. -/
def execTileConversionEnd (gid t : Nat) (s : State) : Out :=
  match lookup gid s.groups with
  | none => .fault .noSuchObject
  | some g =>
    match s.conversion g.core gid t with
    | none => .fault .noSuchObject
    | some w =>
      if s.now < w.ready.getD 0 + 32 then .fault .noSuchObject
      else .next ((s.applyWork g.core w).setWorks g.core (dropWork s.now gid t (s.works g.core)))

/-! Checks (R291, R296). -/

/-- The matrix-operand trap. -/
def matrixTrap (v : View) (cause t : Nat) : Stop :=
  .trap { kind := 11, cause := cause, detail := BitVec.ofNat 32 t, tmask := v.en }

/-- A tile number of ACCN or above is an access fault. -/
def tileRange (v : View) (t : Nat) : Except Stop Unit :=
  if t < v.g.accn then .ok () else .error (.trap { kind := 15, detail := BitVec.ofNat 32 t, tmask := v.en })

/-- A word that needs the tile group-held: it waits for a conversion in progress. -/
def tileHeld (v : View) (t : Nat) (other : Stop) : Except Stop Unit :=
  match (v.g.tile t).st with
  | .held => .ok ()
  | .taking => .error (.stall (.tile t))
  | .engine => .error other

/-- Fields of a mode word (Table 12-3). -/
def modeWide (w : Word) : Bool := w.getLsbD 9
def modeQ (w : Word) : Int := signExt 9 (w.toNat % 512)

/-- AGIVE and AZERO hand a tile over. -/
def handOver (s : State) (v : View) (t : Nat) (w : Word) (k : MKind) : State :=
  let i : TileInfo := { v.g.tile t with st := .engine, wide := modeWide w, q := modeQ w, ginex := false, gsat := false }
  (s.defer v [.token t i]).queueWork v.g.core v.o.gid t (modeWide w) (modeQ w) k

/-- AGIVE: a release at group scope (R279). (log 45) -/
def execAgive (t : Tile) (i64 : Bool) (o : OpA) (s : State) : Out :=
  runWord s fun v => do
    let (a, s1) ← s.operand v o.ap.val o.ar.val
    match ← v.single a with
    | none => .ok s1
    | some (_, w) =>
      tileRange v t.val
      tileHeld v t.val (matrixTrap v 1 t.val)
      if 1024 ≤ w.toNat then .error (matrixTrap v 6 t.val)
      else
        v.release
        let b := v.g.tileBase t.val
        let ws := (v.g.frame.filter fun p => b ≤ p.1 && p.1 < b + 2048).map fun p => (p.1 - b, p.2)
        .ok (handOver s1 v t.val w (.give i64 ws))

def execAzero (t : Tile) (o : OpA) (s : State) : Out :=
  runWord s fun v => do
    let (a, s1) ← s.operand v o.ap.val o.ar.val
    match ← v.single a with
    | none => .ok s1
    | some (_, w) =>
      tileRange v t.val
      if (v.g.tile t.val).st == .taking then .error (.stall (.tile t.val))
      else if 1024 ≤ w.toNat then .error (matrixTrap v 6 t.val)
      else .ok (handOver s1 v t.val w .zero)

/-- ATAKE: the token passes at issue; the conversion follows the tile's MMAs. It is an acquire (R181, R279). -/
def execAtake (t : Tile) (i64 : Bool) (s : State) : Out :=
  runWord s fun v => do
    if v.lanes.isEmpty then .ok s
    else
      tileRange v t.val
      let i := v.g.tile t.val
      if i.st != .engine then .error (matrixTrap v 1 t.val)
      else
        v.acquire
        .ok ((s.defer v [.token t.val { i with st := .taking, xsat := false, xinv := false, xpsn := false }]).queueWork
          v.g.core v.o.gid t.val i.wide i.q (.take i64))

/-! Format slots and scale memory (R288, R289). -/

def slotQ (w : Word) : Int := signExt 8 (w.toNat % 256)
def slotRfmt (w : Word) : Nat := bitsOf w.toNat 16 2
def slotWide (w : Word) : Bool := w.getLsbD 18
def slotBlk (w : Word) : Nat := bitsOf w.toNat 20 2
def slotAdv (w : Word) : Bool := w.getLsbD 22
def slotOff (w : Word) : Nat := bitsOf w.toNat 23 9

def execMfmt (n : Fin 8) (o : OpA) (s : State) : Out :=
  runWord s fun v => do
    let (a, s1) ← s.operand v o.ap.val o.ar.val
    match ← v.single a with
    | none => .ok s1
    | some (_, w) =>
      if bitsOf w.toNat 8 8 != 0 || w.getLsbD 19 || slotBlk w == 3 || 2 ≤ slotRfmt w then .error (matrixTrap v 6 0)
      else if slotBlk w != 0 && v.g.shade then .error (matrixTrap v 7 0)
      else .ok (s1.modSelf v fun g => { g with slots := g.slots.set n.val (some ⟨w, 0⟩) })

/-- See assumption log 4. -/
def State.scaleMem (s : State) (core : Nat) : ScaleMem := (lookup core s.scales).getD {}
def State.setScaleMem (s : State) (core : Nat) (m : ScaleMem) : State := { s with scales := writeAt {} core m s.scales }

/-- A scale word of a context on a core: it proceeds for the owner; with no owner, or an owner without a team there,
the context becomes the owner; otherwise it waits. (log 46) -/
def State.ownScale (s : State) (core ctx : Nat) : Except Stop State :=
  let m := s.scaleMem core
  if m.owner == some ctx then .ok s
  else
    let held := match m.owner with
      | none => false
      | some c => !m.xfers.isEmpty || s.teams.any fun p => p.2.live && p.2.core == core && p.2.ctx == c
    if held then .error (.stall .scale)
    else
      let key := ctx * 1024 + core
      let saved := (lookup key s.savedScales).getD []
      .ok { s.setScaleMem core { owner := some ctx, fill := 0x7F, bytes := saved } with savedScales := eraseAt key s.savedScales }

/-- An address names its own core's scratchpad (R183). -/
def State.isLocal (s : State) (v : View) (a : Word) : Bool :=
  let rank := bitsOf a.toNat 18 7
  rank == 127 || (match lookup v.g.team s.teams with
    | some t => t.rank == rank
    | none => false)

/-- MSLD. A shade's raises cause 7 whatever its operands hold, their poison in D apart, which stops any word that takes one
operand from a lane (R289, R306; DESIGN CHOICE, log 45). (log 16, 46) -/
def execMsld (o : OpM) (s : State) : Out :=
  runWord s fun v => do
    let d := v.lanesReg o.d.val
    let (a, s1) ← s.operand v o.ap.val o.ar.val
    match ← v.single d with
    | none => .ok s1
    | some (L, w) =>
      if v.g.shade then .error (matrixTrap v 7 0)
      else
        let off := w.toNat % 16384
        let n := 16 * bitsOf w.toNat 16 11
        if (a L).psn then .error (poisonTrap (maskOf (· == L)))
        else if bitsOf w.toNat 14 2 != 0 || bitsOf w.toNat 27 5 != 0 || off % 16 != 0 || n == 0 || 16384 < n || 16384 < off + n || (a L).val.toNat % 16 != 0 ||
            !s.isLocal v (a L).val then
          .error (matrixTrap v 6 0)
        else
          addressTrap [L] (fun L => spadCheck s v true n 16 (a L)) a
          let r := s.ref v n (a L).val
          s.granulesFree v n [r]
          let s2 ← s1.ownScale v.g.core v.g.ctx
          let bytes := (List.range n).map fun i =>
            let x := s.spadWord r.core ((r.off + i) / 4)
            if x.psn then (0xFF : Byte) else byteOf x.val.toNat ((r.off + i) % 4)
          let m := s2.scaleMem v.g.core
          let start := m.xfers.foldl (fun t x => max t x.1) s.now
          .ok (s2.setScaleMem v.g.core { m with xfers := m.xfers ++ [(start + (n + 127) / 128, off, bytes)] })

/-- MSLD_TRANSFER_END. (log 46) -/
def execMsldTransferEnd (core : Nat) (s : State) : Out :=
  let m := s.scaleMem core
  match m.xfers with
  | [] => .fault .noSuchObject
  | x :: rest =>
    if s.now < x.1 then .fault .noSuchObject
    else
      let bs := (x.2.2.mapIdx fun i b => (x.2.1 + i, b)).foldl (fun t p => writeAt m.fill p.1 p.2 t) m.bytes
      .next (s.setScaleMem core { m with bytes := bs, xfers := rest })

/-! Operands (R294, R295). -/

/-- Entry(x, slot, r, k) for a value of a register word. -/
def entry (scale : Nat → Byte) (sl : FmtSlot) (r k : Nat) (bad : Bool) (x : Val) : Ent :=
  if bad then .poison
  else match x with
    | .fin neg m e =>
      let b := if slotBlk sl.word == 1 then 16 else 32
      let sc := if slotBlk sl.word == 0 then 127
        else (scale (512 * r + (slotOff sl.word + (sl.kpos + k) / b) % 512)).toNat
      if sc == 255 then .poison
      else
        let y := roundInt neg m (e + (sc : Int) - 127 - slotQ sl.word) false
        let lq := quantLimit (slotWide sl.word)
        if lq < y then .num lq true else if y < -lq then .num (-lq) true else .num y false
    | _ => .invalid

/-- Shapes: 0 k16, 1 k8, 2 MMAS. -/
def shapeDepth : Nat → Nat
  | 0 => 16
  | 1 => 8
  | _ => 32

/-- The value at position k of a fragment of consecutive registers from r on. -/
def fragValue (v : View) (k8 : Bool) (L r k : Nat) : Bool × Val :=
  if k8 then let w := v.g.reg L (r + k); (w.psn, f32 w.val)
  else let w := v.g.reg L (r + k / 2); (w.psn, decodeFloat bf16Spec (halfOf w.val (k % 2)))

/-- Metadata: the position of half h of group g. -/
def metaPos (m : Word) (g h : Nat) : Nat := bitsOf m.toNat (4 * g + 2 * h) 2

/-- The lowest offending group of a metadata word; a poisoned one offends at 0. -/
def metaBad (w : PWord) : Option Nat :=
  if w.psn then some 0 else (List.range 8).find? fun g => metaPos w.val g 1 ≤ metaPos w.val g 0

/-- Row A of lane i: positions and values. -/
def rowA (v : View) (scale : Nat → Byte) (shape : Nat) (sl : FmtSlot) (i r : Nat) : List (Nat × Ent) :=
  if shape == 2 then
    let m := (v.g.reg i (r + 8)).val
    (List.range 16).map fun x =>
      let k := 4 * (x / 2) + metaPos m (x / 2) (x % 2)
      let y := fragValue v false i r x
      (k, entry scale sl i k y.1 y.2)
  else (List.range (shapeDepth shape)).map fun k =>
    let y := fragValue v (shape == 1) i r k
    (k, entry scale sl i k y.1 y.2)

/-- Column B of lane j, by position. -/
def colB (v : View) (scale : Nat → Byte) (shape : Nat) (sl : FmtSlot) (j r : Nat) : List Ent :=
  (List.range (shapeDepth shape)).map fun k =>
    let y := fragValue v (shape == 1) j r k
    entry scale sl j k y.1 y.2

/-- KPOS after a word that reads the slot. -/
def advanceSlot (depth : Nat) (sl : FmtSlot) : FmtSlot :=
  if slotAdv sl.word then { sl with kpos := (sl.kpos + depth) % 65536 } else sl

/-- MMA and MMAS (R296, R297). (log 45) -/
def mmaWord (shape : Nat) (o : OpT) (sig : Option Nat) (s : State) : Out :=
  runWord s fun v => do
    if v.lanes.isEmpty then .ok s
    else
      let t := o.t.val
      let i := v.g.tile t
      tileRange v t
      if i.st != .engine then .error (matrixTrap v 1 t)
      else match (v.g.slots.getD (2 * o.fs.val) none), (v.g.slots.getD (2 * o.fs.val + 1) none) with
        | some sa, some sb =>
          let rf := if shape == 1 then 0 else 1
          let scaled := slotBlk sa.word != 0 || slotBlk sb.word != 0
          let bad := if shape == 2 then v.lanes.filter fun L => (metaBad (v.g.reg L (o.ar.val + 8))).isSome else []
          if slotRfmt sa.word != rf || slotRfmt sb.word != rf then .error (matrixTrap v 3 t)
          else if slotWide sa.word != i.wide || slotWide sb.word != i.wide then .error (matrixTrap v 4 t)
          else if slotQ sa.word + slotQ sb.word != i.q then .error (matrixTrap v 5 t)
          else if scaled && v.g.shade then .error (matrixTrap v 7 t)
          else match bad with
            | L :: _ =>
              .error (.trap { kind := 12, tmask := maskOf fun x => bad.contains x
                              detail := BitVec.ofNat 32 (L + 256 * (metaBad (v.g.reg L (o.ar.val + 8))).getD 0) })
            | [] =>
              let s1 ← if scaled then s.ownScale v.g.core v.g.ctx else .ok s
              let m := s1.scaleMem v.g.core
              if scaled && !m.xfers.isEmpty then .error (.stall .msld)
              else
                let scale := m.byte
                let a := v.lanes.map fun L => (L, rowA v scale shape sa L o.ar.val)
                let b := allLanes.map fun L => colB v scale shape sb L o.br.val
                let adv := fun (x : Option FmtSlot) => x.map (advanceSlot (shapeDepth shape))
                let n := 2 * o.fs.val
                let s2 := (s1.queueWork v.g.core v.o.gid t i.wide i.q (.mma a b sig)).modSelf v fun g =>
                  { g with slots := (g.slots.modify n adv).modify (n + 1) adv }
                let s3 := if sig.isSome then s2.spend v.g.team else s2
                .ok (s3.occupy v.g.core 3 (if i.wide then 2 else 1))
        | _, _ => .error (matrixTrap v 2 t)

/-- See assumption log 45. -/
def execMmaK16 (o : OpT) (s : State) : Out := mmaWord 0 o none s
def execMmaK8 (o : OpT) (s : State) : Out := mmaWord 1 o none s
def execMmas (o : OpT) (s : State) : Out := mmaWord 2 o none s
def execMmaSig (k8 : Bool) (o : OpT) (dep : Fin 256) (s : State) : Out := mmaWord (if k8 then 1 else 0) o (some dep.val) s
def execMmasSig (o : OpT) (dep : Fin 256) (s : State) : Out := mmaWord 2 o (some dep.val) s

/-! ASTS and ASTC (R302 to R304). -/

/-- A store word breaks Table 12-9; E2M1 and reserved formats apart. -/
def storeBad (sw : Word) (o : OpAst) : Bool :=
  let x := sw.toNat
  let kind := bitsOf x 26 2
  bitsOf x 16 7 != 0 || (kind == 3 && bitsOf x 24 2 == 3) || (kind != 3 && bitsOf x 24 2 != 0) ||
    (if kind ≤ 1 then x % 65536 < 32 else x % 65536 != 0) ||
    (sw.getLsbD 23 && (rdFmt (x / 268435456) != some .i32 || o.sat || o.rnd != .rne))

/-- The store format, if a tile may be stored in it. -/
def storeFmt (sw : Word) : Option Fmt :=
  match rdFmt (sw.toNat / 268435456) with
  | some .e2m1 => none
  | f => f

/-- Element size of a store word; 0 without a format. -/
def storeSize (sw : Word) : Nat :=
  if sw.getLsbD 23 then 8 else match storeFmt sw with
    | some f => f.size
    | none => 0

/-- off of element (i, j) (R302). -/
def storeOff (sw : Word) (i j : Nat) : Nat :=
  let x := sw.toNat
  match bitsOf x 26 2 with
  | 0 => i * (x % 65536) + j
  | 1 => j * (x % 65536) + i
  | 2 => interleave [(5, j), (5, i)]
  | _ => let b := 4 * 2 ^ bitsOf x 24 2
    (i / b * (32 / b) + j / b) * (b * b) + i % b * b + j % b

/-- The stored elements: offset, code and poison, rows of the enabled lanes ascending. -/
def storePlan (v : View) (t : Nat) (sw : Word) (o : OpAst) : List (Nat × Nat × Bool) :=
  v.lanes.flatMap fun i =>
    let es := (List.range 32).map fun j => v.g.elem t (32 * i + j)
    if sw.getLsbD 23 then es.mapIdx fun j w => (storeOff sw i j, pairNat w, w.1.psn || w.2.psn)
    else
      let vs := es.map fun w => if w.1.psn then Val.psn else f32 w.1.val
      (encodeRun ((storeFmt sw).getD .f32) o.rnd o.sat vs).mapIdx fun j e => (storeOff sw i j, e.code, e.psn)

/-- Words that stored elements write from byte p on, row by row as stores of the rows' threads (R303); an 8-byte element
keeps the poison of each of its words. -/
def planWrites (v : View) (t : Nat) (sw : Word) (p : Nat) (plan : List (Nat × Nat × Bool)) : List (Nat × PWord × Word) :=
  let size := storeSize sw
  if size == 8 then
    (v.lanes.flatMap fun i => (List.range 32).map fun j => (storeOff sw i j, v.g.elem t (32 * i + j))).flatMap fun x =>
      [((p + 8 * x.1) / 4, x.2.1, 0xFFFFFFFF), ((p + 8 * x.1) / 4 + 1, x.2.2, 0xFFFFFFFF)]
  else v.lanes.zipIdx.flatMap fun x => joinWrites (((plan.drop (32 * x.2)).take 32).map fun y =>
    elemWrite (p + size * y.1) size ⟨y.2.1, y.2.2, true⟩)

/-- ASTS. The extent that R191 checks, and that must not lie in lent or unzeroed granules, begins at the address in vA, also
where the first enabled row lies above it (R303; DESIGN CHOICE, log 45). -/
def execAsts (o : OpAst) (s : State) : Out :=
  runWord s fun v => do
    match ← v.lowest o.ar.val 2 with
    | none => .ok s
    | some ws =>
      let t := o.t.val
      let L := v.first.getD 0
      let a := ws.getD 0 0
      let sw := ws.getD 1 0
      tileRange v t
      tileHeld v t (.trap { kind := 15, detail := BitVec.ofNat 32 t, tmask := v.en })
      if storeBad sw o || (storeFmt sw).isNone then .error (matrixTrap v 6 t)
      else
        let plan := storePlan v t sw o
        let size := storeSize sw
        let n := (plan.foldl (fun m x => max m (x.1 + 1)) 0) * size
        let at_ : Lanes := fun _ => PWord.ok a
        addressTrap [L] (fun L => spadCheck s v false n size (at_ L)) at_
        let r := s.ref v n a
        s.granulesFree v n [r]
        let wr := planWrites v t sw r.off plan
        if r.core == v.g.core && !s.reaching v.o.gid [r.core] then .ok (s.spadWrites v.g.team r.core wr)
        else .ok ((s.sendRemote v r.core (.store wr) (max 1 (bankLoad (wr.map (·.1)))) 0).waitFor v .outstanding)

/-- See assumption log 45. -/
def execAstc (o : OpAst) (s : State) : Out :=
  runWord s fun v => do
    match ← v.lowest o.ar.val 5 with
    | none => .ok s
    | some ws =>
      let t := o.t.val
      let w := fun i => (ws.getD i 0).toNat
      let sw := ws.getD 2 0
      tileRange v t
      tileHeld v t (.trap { kind := 15, detail := BitVec.ofNat 32 t, tmask := v.en })
      let c := v.g.binding 28
      if c.toNat / 32 != 1 then .error (bindTrap v c)
      else
        let opts := (if o.sat then 4 else 0) + (match o.rnd with
          | .rne => 0
          | .ef => 1
          | .rz => 2)
        let head := 0x80000000 + w 3 % 16777216
        let words := [head, w 0, w 1, w 2, w 3, w 4, opts, 0].map fun n => PWord.ok (BitVec.ofNat 32 n)
        let s1 ← s.pushCheck v c 8
        .ok (s1.modSelf v fun g => { g with pushes := g.pushes ++
          [{ code := c, words := words, due := some (s.now + 1), lanes := [v.first.getD 0], origin := v.o
             plan := storePlan v t sw o, esize := max 1 (storeSize sw) }] })

/-! AINFO (R305). -/

/-- See assumption log 45. -/
def execAinfo (d : Reg) (t : Tile) (s : State) : Out :=
  runWord s fun v => do
    if v.lanes.isEmpty then .ok s
    else
      tileRange v t.val
      let i := v.g.tile t.val
      let busy := s.tileBusy v.g.core v.o.gid t.val
      -- flags as every word issued before leaves them
      let mine := (s.works v.g.core).filter fun w => w.gid == v.o.gid && w.tile == t.val
      let f := match lookup v.o.gid (mine.foldl (fun u w => u.applyWork v.g.core w) s).groups with
        | some g => g.tile t.val
        | none => i
      let n := (i.st == .engine).toNat * 2147483648 + busy.toNat * 1073741824 + f.ginex.toNat * 536870912 +
        f.gsat.toNat * 268435456 + f.xsat.toNat * 134217728 + f.xinv.toNat * 67108864 + f.xpsn.toNat * 33554432 +
        i.wide.toNat * 512 + (i.q % 512).toNat
      s.put v d.val 4 fun _ => PWord.ok (BitVec.ofNat 32 n)

end Sys2Proof.Machine
end

