-- ==== Sys2Proof/Machine/Dispatch.lean ====
section
/-! DEFINITION. exec: one arm per constructor of Instr, each one call of its meaning. -/

namespace Sys2Proof.Machine

def exec (i : Instr) (s : State) : Host.Outcome State Fault Refusal :=
  match i with
  | .iadd o => Sys2Proof.Machine.execIadd o s
  | .iaddImm o => Sys2Proof.Machine.execIaddImm o s
  | .isub o => Sys2Proof.Machine.execIsub o s
  | .iaddc o => Sys2Proof.Machine.execIaddc o s
  | .imul o => Sys2Proof.Machine.execImul o s
  | .imulh z o => Sys2Proof.Machine.execImulh z o s
  | .imad o => Sys2Proof.Machine.execImad o s
  | .imadw z o => Sys2Proof.Machine.execImadw z o s
  | .iadd64 o => Sys2Proof.Machine.execIadd64 o s
  | .isub64 o => Sys2Proof.Machine.execIsub64 o s
  | .shl64 o => Sys2Proof.Machine.execShl64 o s
  | .shr64 z o => Sys2Proof.Machine.execShr64 z o s
  | .lea v o => Sys2Proof.Machine.execLea v o s
  | .imin z o => Sys2Proof.Machine.execImin z o s
  | .imax z o => Sys2Proof.Machine.execImax z o s
  | .and o => Sys2Proof.Machine.execAnd o s
  | .or o => Sys2Proof.Machine.execOr o s
  | .xor o => Sys2Proof.Machine.execXor o s
  | .andn o => Sys2Proof.Machine.execAndn o s
  | .orn o => Sys2Proof.Machine.execOrn o s
  | .shl o => Sys2Proof.Machine.execShl o s
  | .shr o => Sys2Proof.Machine.execShr o s
  | .sar o => Sys2Proof.Machine.execSar o s
  | .rotl o => Sys2Proof.Machine.execRotl o s
  | .shlImm o => Sys2Proof.Machine.execShlImm o s
  | .shrImm o => Sys2Proof.Machine.execShrImm o s
  | .sarImm o => Sys2Proof.Machine.execSarImm o s
  | .rotlImm o => Sys2Proof.Machine.execRotlImm o s
  | .bfx z o => Sys2Proof.Machine.execBfx z o s
  | .bfi o => Sys2Proof.Machine.execBfi o s
  | .popc o => Sys2Proof.Machine.execPopc o s
  | .clz o => Sys2Proof.Machine.execClz o s
  | .ctz o => Sys2Proof.Machine.execCtz o s
  | .brev o => Sys2Proof.Machine.execBrev o s
  | .prmt o => Sys2Proof.Machine.execPrmt o s
  | .isetp z c o => Sys2Proof.Machine.execIsetp z c o s
  | .sel o => Sys2Proof.Machine.execSel o s
  | .iabs o => Sys2Proof.Machine.execIabs o s
  | .ineg o => Sys2Proof.Machine.execIneg o s
  | .mov o => Sys2Proof.Machine.execMov o s
  | .movi d imm => Sys2Proof.Machine.execMovi d imm s
  | .movl d lit => Sys2Proof.Machine.execMovl d lit s
  | .pand o => Sys2Proof.Machine.execPand o s
  | .por o => Sys2Proof.Machine.execPor o s
  | .pxor o => Sys2Proof.Machine.execPxor o s
  | .pnot pd pa => Sys2Proof.Machine.execPnot pd pa s
  | .pget d => Sys2Proof.Machine.execPget d s
  | .pset o => Sys2Proof.Machine.execPset o s
  | .winImm n => Sys2Proof.Machine.execWinImm n s
  | .winReg o => Sys2Proof.Machine.execWinReg o s
  | .ptn e o => Sys2Proof.Machine.execPtn e o s
  | .qbind n o => Sys2Proof.Machine.execQbind n o s
  | .fadd o => Sys2Proof.Machine.execFadd o s
  | .fsub o => Sys2Proof.Machine.execFsub o s
  | .fmul o => Sys2Proof.Machine.execFmul o s
  | .ffma o => Sys2Proof.Machine.execFfma o s
  | .ffms o => Sys2Proof.Machine.execFfms o s
  | .fmin o => Sys2Proof.Machine.execFmin o s
  | .fmax o => Sys2Proof.Machine.execFmax o s
  | .bmin2 o => Sys2Proof.Machine.execBmin2 o s
  | .bmax2 o => Sys2Proof.Machine.execBmax2 o s
  | .fsetp c o => Sys2Proof.Machine.execFsetp c o s
  | .badd2 o => Sys2Proof.Machine.execBadd2 o s
  | .bmul2 o => Sys2Proof.Machine.execBmul2 o s
  | .bfma2 o => Sys2Proof.Machine.execBfma2 o s
  | .fpack r o => Sys2Proof.Machine.execFpack r o s
  | .shfl m o => Sys2Proof.Machine.execShfl m o s
  | .fabs o => Sys2Proof.Machine.execFabs o s
  | .fneg o => Sys2Proof.Machine.execFneg o s
  | .fclass o => Sys2Proof.Machine.execFclass o s
  | .frnd r o => Sys2Proof.Machine.execFrnd r o s
  | .frcp o => Sys2Proof.Machine.execFrcp o s
  | .frsq o => Sys2Proof.Machine.execFrsq o s
  | .fsqrt o => Sys2Proof.Machine.execFsqrt o s
  | .fexp2 o => Sys2Proof.Machine.execFexp2 o s
  | .flog2 o => Sys2Proof.Machine.execFlog2 o s
  | .fsin o => Sys2Proof.Machine.execFsin o s
  | .fcos o => Sys2Proof.Machine.execFcos o s
  | .ftanh o => Sys2Proof.Machine.execFtanh o s
  | .f2i z o => Sys2Proof.Machine.execF2i z o s
  | .i2f z o => Sys2Proof.Machine.execI2f z o s
  | .fcvtBf16F32 o => Sys2Proof.Machine.execFcvtBf16F32 o s
  | .fcvtF32Bf16 o => Sys2Proof.Machine.execFcvtF32Bf16 o s
  | .fcvtF16F32 o => Sys2Proof.Machine.execFcvtF16F32 o s
  | .fcvtE4m3F32 o => Sys2Proof.Machine.execFcvtE4m3F32 o s
  | .fcvtE5m2F32 o => Sys2Proof.Machine.execFcvtE5m2F32 o s
  | .funpack o => Sys2Proof.Machine.execFunpack o s
  | .vote x pd pa => Sys2Proof.Machine.execVote x pd pa s
  | .voteBallot d pa => Sys2Proof.Machine.execVoteBallot d pa s
  | .redux x o => Sys2Proof.Machine.execRedux x o s
  | .fredux x o => Sys2Proof.Machine.execFredux x o s
  | .scan excl x o => Sys2Proof.Machine.execScan excl x o s
  | .matchLanes o => Sys2Proof.Machine.execMatchLanes o s
  | .lds o => Sys2Proof.Machine.execLds o s
  | .sts o => Sys2Proof.Machine.execSts o s
  | .ldx o => Sys2Proof.Machine.execLdx o s
  | .stx o => Sys2Proof.Machine.execStx o s
  | .ldt o => Sys2Proof.Machine.execLdt o s
  | .stt o => Sys2Proof.Machine.execStt o s
  | .ldr o => Sys2Proof.Machine.execLdr o s
  | .str o => Sys2Proof.Machine.execStr o s
  | .atoms o => Sys2Proof.Machine.execAtoms o s
  | .cass o => Sys2Proof.Machine.execCass o s
  | .atomx o => Sys2Proof.Machine.execAtomx o s
  | .casx o => Sys2Proof.Machine.execCasx o s
  | .copy o => Sys2Proof.Machine.execCopy o s
  | .copyl o => Sys2Proof.Machine.execCopyl o s
  | .gath o => Sys2Proof.Machine.execGath o s
  | .scat o => Sys2Proof.Machine.execScat o s
  | .bgath o => Sys2Proof.Machine.execBgath o s
  | .bscat o => Sys2Proof.Machine.execBscat o s
  | .mcast o => Sys2Proof.Machine.execMcast o s
  | .cfence o => Sys2Proof.Machine.execCfence o s
  | .atomc o => Sys2Proof.Machine.execAtomc o s
  | .redc o => Sys2Proof.Machine.execRedc o s
  | .fill o => Sys2Proof.Machine.execFill o s
  | .waitc o => Sys2Proof.Machine.execWaitc o s
  | .signal o => Sys2Proof.Machine.execSignal o s
  | .txload o => Sys2Proof.Machine.execTxload o s
  | .txrun o => Sys2Proof.Machine.execTxrun o s
  | .pref o => Sys2Proof.Machine.execPref o s
  | .mmaK16 o => Sys2Proof.Machine.execMmaK16 o s
  | .mmaK8 o => Sys2Proof.Machine.execMmaK8 o s
  | .mmas o => Sys2Proof.Machine.execMmas o s
  | .mmaSig k8 o dep => Sys2Proof.Machine.execMmaSig k8 o dep s
  | .mmasSig o dep => Sys2Proof.Machine.execMmasSig o dep s
  | .agive t i64 o => Sys2Proof.Machine.execAgive t i64 o s
  | .atake t i64 => Sys2Proof.Machine.execAtake t i64 s
  | .azero t o => Sys2Proof.Machine.execAzero t o s
  | .mfmt n o => Sys2Proof.Machine.execMfmt n o s
  | .msld o => Sys2Proof.Machine.execMsld o s
  | .asts o => Sys2Proof.Machine.execAsts o s
  | .astc o => Sys2Proof.Machine.execAstc o s
  | .ainfo d t => Sys2Proof.Machine.execAinfo d t s
  | .bra imm => Sys2Proof.Machine.execBra imm s
  | .call d imm => Sys2Proof.Machine.execCall d imm s
  | .nop => Sys2Proof.Machine.execNop s
  | .brx o => Sys2Proof.Machine.execBrx o s
  | .ret o => Sys2Proof.Machine.execRet o s
  | .join ar => Sys2Proof.Machine.execJoin ar s
  | .exit => Sys2Proof.Machine.execExit s
  | .trap n => Sys2Proof.Machine.execTrap n s
  | .sleep o => Sys2Proof.Machine.execSleep o s
  | .ppt offs more live granules => Sys2Proof.Machine.execPpt offs more live granules s
  | .fence k sc => Sys2Proof.Machine.execFence k sc s
  | .tlwait d sc e => Sys2Proof.Machine.execTlwait d sc e s
  | .bar n => Sys2Proof.Machine.execBar n s
  | .barc n => Sys2Proof.Machine.execBarc n s
  | .boinit o => Sys2Proof.Machine.execBoinit o s
  | .boarr rlx o => Sys2Proof.Machine.execBoarr rlx o s
  | .bowait o => Sys2Proof.Machine.execBowait o s
  | .botest acq o => Sys2Proof.Machine.execBotest acq o s
  | .rainit o => Sys2Proof.Machine.execRainit o s
  | .rawait o => Sys2Proof.Machine.execRawait o s
  | .rawaitFree o => Sys2Proof.Machine.execRawaitFree o s
  | .rarel o => Sys2Proof.Machine.execRarel o s
  | .wpwait d ch => Sys2Proof.Machine.execWpwait d ch s
  | .refl pd ar z => Sys2Proof.Machine.execRefl pd ar z s
  | .unrefl o => Sys2Proof.Machine.execUnrefl o s
  | .rseq acq o => Sys2Proof.Machine.execRseq acq o s
  | .rack o => Sys2Proof.Machine.execRack o s
  | .tkget xtry_ d => Sys2Proof.Machine.execTkget xtry_ d s
  | .tkput ar => Sys2Proof.Machine.execTkput ar s
  | .tkdone ar => Sys2Proof.Machine.execTkdone ar s
  | .dcset ar => Sys2Proof.Machine.execDcset ar s
  | .dcdec o => Sys2Proof.Machine.execDcdec o s
  | .launch o => Sys2Proof.Machine.execLaunch o s
  | .gcond n o => Sys2Proof.Machine.execGcond n o s
  | .lend o => Sys2Proof.Machine.execLend o s
  | .recall d => Sys2Proof.Machine.execRecall d s
  | .srd d sr => Sys2Proof.Machine.execSrd d sr s
  | .swr sr o => Sys2Proof.Machine.execSwr sr o s
  | .tres o => Sys2Proof.Machine.execTres o s
  | .tkill team => Sys2Proof.Machine.execTkill team s
  | .pchkReg pd o => Sys2Proof.Machine.execPchkReg pd o s
  | .pchkPred pd pa => Sys2Proof.Machine.execPchkPred pd pa s
  | .pclrReg o => Sys2Proof.Machine.execPclrReg o s
  | .pclrPred pd pa => Sys2Proof.Machine.execPclrPred pd pa s
  | .illegalPacket lowest => Sys2Proof.Machine.execIllegalPacket lowest s
  | .resultWriteback g => Sys2Proof.Machine.execResultWriteback g s
  | .activeSetEntry core shade => Sys2Proof.Machine.execActiveSetEntry core shade s
  | .unpark core shade => Sys2Proof.Machine.execUnpark core shade s
  | .eviction core => Sys2Proof.Machine.execEviction core s
  | .groupRetire g => Sys2Proof.Machine.execGroupRetire g s
  | .sleepWake g lane => Sys2Proof.Machine.execSleepWake g lane s
  | .handlerGroupStart g => Sys2Proof.Machine.execHandlerGroupStart g s
  | .groupSave g => Sys2Proof.Machine.execGroupSave g s
  | .flushByContextTag g => Sys2Proof.Machine.execFlushByContextTag g s
  | .flushAcknowledge g => Sys2Proof.Machine.execFlushAcknowledge g s
  | .remoteAccessComplete n => Sys2Proof.Machine.execRemoteAccessComplete n s
  | .queuePushLands g => Sys2Proof.Machine.execQueuePushLands g s
  | .commandStart n => Sys2Proof.Machine.execCommandStart n s
  | .elementLands n => Sys2Proof.Machine.execElementLands n s
  | .mcastReceiverArrival n => Sys2Proof.Machine.execMcastReceiverArrival n s
  | .stackAtomicApply n => Sys2Proof.Machine.execStackAtomicApply n s
  | .txLaneStart lane => Sys2Proof.Machine.execTxLaneStart lane s
  | .mmaApply core => Sys2Proof.Machine.execMmaApply core s
  | .tileConversionEnd g t => Sys2Proof.Machine.execTileConversionEnd g t s
  | .msldTransferEnd core => Sys2Proof.Machine.execMsldTransferEnd core s
  | .pushCoalesceExpiry n => Sys2Proof.Machine.execPushCoalesceExpiry n s
  | .pushApply n => Sys2Proof.Machine.execPushApply n s
  | .reflLoadLands n => Sys2Proof.Machine.execReflLoadLands n s
  | .unreflRetire n => Sys2Proof.Machine.execUnreflRetire n s
  | .wqEnable q => Sys2Proof.Machine.execWqEnable q s
  | .wqDisable q => Sys2Proof.Machine.execWqDisable q s
  | .wqSuspend q => Sys2Proof.Machine.execWqSuspend q s
  | .wqUnsuspend q => Sys2Proof.Machine.execWqUnsuspend q s
  | .doorbell q wr => Sys2Proof.Machine.execDoorbell q wr s
  | .registerWrite func off w => Sys2Proof.Machine.execRegisterWrite func off w s
  | .wqEntryFetch q => Sys2Proof.Machine.execWqEntryFetch q s
  | .nopEntry q idx => Sys2Proof.Machine.execNopEntry q idx s
  | .kernelEntry q idx => Sys2Proof.Machine.execKernelEntry q idx s
  | .graphEntry q idx => Sys2Proof.Machine.execGraphEntry q idx s
  | .waitvEntry q idx => Sys2Proof.Machine.execWaitvEntry q idx s
  | .writevEntry q idx => Sys2Proof.Machine.execWritevEntry q idx s
  | .waitvReread q idx => Sys2Proof.Machine.execWaitvReread q idx s
  | .hostRingWrite ctx ring => Sys2Proof.Machine.execHostRingWrite ctx ring s
  | .hostRingDeadline ctx ring => Sys2Proof.Machine.execHostRingDeadline ctx ring s
  | .clusterAdmission k => Sys2Proof.Machine.execClusterAdmission k s
  | .graphNodeStart gr node => Sys2Proof.Machine.execGraphNodeStart gr node s
  | .graphNodeComplete gr node => Sys2Proof.Machine.execGraphNodeComplete gr node s
  | .teamEnd t => Sys2Proof.Machine.execTeamEnd t s
  | .preemptionWatchdog ctx => Sys2Proof.Machine.execPreemptionWatchdog ctx s
  | .contextSaveComplete ctx => Sys2Proof.Machine.execContextSaveComplete ctx s
  | .contextRestoreComplete ctx => Sys2Proof.Machine.execContextRestoreComplete ctx s
  | .contextTeardownDone ctx => Sys2Proof.Machine.execContextTeardownDone ctx s
  | .granuleZeroingEnd core => Sys2Proof.Machine.execGranuleZeroingEnd core s
  | .granulesReturn n => Sys2Proof.Machine.execGranulesReturn n s
  | .pageWalkComplete n => Sys2Proof.Machine.execPageWalkComplete n s
  | .invalComplete n => Sys2Proof.Machine.execInvalComplete n s
  | .accessCountHalving die => Sys2Proof.Machine.execAccessCountHalving die s
  | .priResponse func id ok => Sys2Proof.Machine.execPriResponse func id ok s
  | .pageDrainComplete n => Sys2Proof.Machine.execPageDrainComplete n s
  | .linkEnable l => Sys2Proof.Machine.execLinkEnable l s
  | .linkTrainingDone l lanes => Sys2Proof.Machine.execLinkTrainingDone l lanes s
  | .retrainDone l => Sys2Proof.Machine.execRetrainDone l s
  | .linkDrained l => Sys2Proof.Machine.execLinkDrained l s
  | .quiesceTimeout l => Sys2Proof.Machine.execQuiesceTimeout l s
  | .faultringRetry die => Sys2Proof.Machine.execFaultringRetry die s
  | .coldReset die => Sys2Proof.Machine.execColdReset die s
  | .wipeComplete die => Sys2Proof.Machine.execWipeComplete die s
  | .hostPortLinkDown port state => Sys2Proof.Machine.execHostPortLinkDown port state s
  | .tokenBucketRefill ctx die => Sys2Proof.Machine.execTokenBucketRefill ctx die s
  | .hostPortLinkUp port => Sys2Proof.Machine.execHostPortLinkUp port s
  | .hostWrite func addr bytes => Sys2Proof.Machine.execHostWrite func addr bytes s
  | .dependenceCounterDecrement cl dc => Sys2Proof.Machine.execDependenceCounterDecrement cl dc s
  | .correctableEcc die => Sys2Proof.Machine.execCorrectableEcc die s
  | .hbmSectorUncorrectable addr => Sys2Proof.Machine.execHbmSectorUncorrectable addr s
  | .l2DataUncorrectable die addr => Sys2Proof.Machine.execL2DataUncorrectable die addr s
  | .registerSpaceUncorrectable a => Sys2Proof.Machine.execRegisterSpaceUncorrectable a s
  | .schedulingStateUncorrectable g => Sys2Proof.Machine.execSchedulingStateUncorrectable g s
  | .instructionCacheError core => Sys2Proof.Machine.execInstructionCacheError core s
  | .parkingRegionUncorrectable g word => Sys2Proof.Machine.execParkingRegionUncorrectable g word s
  | .l2SliceTagError die slice => Sys2Proof.Machine.execL2SliceTagError die slice s
  | .copyEngineInternalError n => Sys2Proof.Machine.execCopyEngineInternalError n s
  | .managementControllerFault die => Sys2Proof.Machine.execManagementControllerFault die s
  | .dieFatal die => Sys2Proof.Machine.execDieFatal die s
  | .atsInvalidation func addr len => Sys2Proof.Machine.execAtsInvalidation func addr len s
  | .linkTrainingFails l => Sys2Proof.Machine.execLinkTrainingFails l s
  | .flitReceived l good flit => Sys2Proof.Machine.execFlitReceived l good flit s
  | .replayRequest l seq => Sys2Proof.Machine.execReplayRequest l seq s
  | .retrainFails l => Sys2Proof.Machine.execRetrainFails l s
  | .ctxcreate m => Sys2Proof.Machine.execCtxcreate m s
  | .ctxdestroy m => Sys2Proof.Machine.execCtxdestroy m s
  | .ctxkill m => Sys2Proof.Machine.execCtxkill m s
  | .preempt m => Sys2Proof.Machine.execPreempt m s
  | .ctxresume m => Sys2Proof.Machine.execCtxresume m s
  | .handler m => Sys2Proof.Machine.execHandler m s
  | .inval m => Sys2Proof.Machine.execInval m s
  | .resume m => Sys2Proof.Machine.execResume m s
  | .faultring m => Sys2Proof.Machine.execFaultring m s
  | .pageattr m => Sys2Proof.Machine.execPageattr m s
  | .errlog m => Sys2Proof.Machine.execErrlog m s
  | .linkstat m => Sys2Proof.Machine.execLinkstat m s
  | .diereset m => Sys2Proof.Machine.execDiereset m s
  | .policy m => Sys2Proof.Machine.execPolicy m s
  | .fwload m => Sys2Proof.Machine.execFwload m s
  | .attest m => Sys2Proof.Machine.execAttest m s
  | .lifecycleTransition die state => Sys2Proof.Machine.execLifecycleTransition die state s
  | .thermalThrottle die on => Sys2Proof.Machine.execThermalThrottle die on s
  | .coolantLimit on => Sys2Proof.Machine.execCoolantLimit on s

end Sys2Proof.Machine
end

