-- ==== Sys2Proof/Machine/Settle.lean ====
section
/-! DEFINITION. What follows every event at once: waits whose condition holds end, and queues, loans, dies, fault
queues, fault rings and invalidations move on (spec 07_group.md R158 and Table 7-3, 10_barrier.md R239 to R258,
14_queue.md R331, 16_context.md R371, 18_page.md R406, R407). -/

namespace Sys2Proof.Machine

/-! Waits (R158). -/

/-- The dependence of a group ends. -/
def State.wakeGroup (s : State) (gid : Nat) : State := s.modGroup gid fun g => g.wake s.now

/-- A waiting word finds a poisoned object: the poison-consumption trap for the lanes that name one (R247, R254). -/
def State.waitPoison (s : State) (o : Issue) (bad : List Nat) : State :=
  let m := maskOf fun L => bad.contains L
  s.trapInWait o { kind := 2, detail := BitVec.ofNat 32 ((lanesOf m).headD 0), tmask := m }

/-- BOWAIT: every object's phase differs from the one its lane names (R247). (log 23) -/
def State.testBowait (s : State) (gid : Nat) (o : Issue) (objs : List ObjWait) : State :=
  let bad := (objs.filter fun x => wordsPsn (s.object x.core x.off)).map (·.lane)
  if s.reaching gid (objs.map (·.core)) then s
  else if !bad.isEmpty then s.waitPoison o bad
  else if objs.all fun x => bitOf (objNat (s.object x.core x.off) 1) 31 != x.phase then s.wakeGroup gid
  else s

/-- A ring that RAWAIT, or RAWAIT.free, waits for is ready (R254). -/
def ringReady (free : Bool) (ws : List PWord) (count : Nat) : Bool :=
  if free then (count + 4294967296 - objNat ws 1) % 4294967296 < ringSlots ws else ringFilled ws != 0

/-- What RAWAIT writes: the address of the filled slot with FAIL in bit 31, or the address of the free slot. -/
def ringResult (free : Bool) (ws : List PWord) (x : RingWait) : PWord :=
  let n := (if free then x.count else objNat ws 1) % ringSlots ws
  let a := x.addr + BitVec.ofNat 32 (16 + n * ringSize ws)
  PWord.ok (if !free && bitOf (objNat ws 3) n then a ||| 0x80000000 else a)

/-- RAWAIT: every ring of the lanes is ready (R254). (log 23) -/
def State.testRawait (s : State) (gid : Nat) (o : Issue) (free : Bool) (objs : List RingWait) : State :=
  let ws := fun x : RingWait => s.object x.core x.off
  let bad := (objs.filter fun x => wordsPsn (ws x)).map (·.lane)
  if s.reaching gid (objs.map (·.core)) then s
  else if !bad.isEmpty then s.waitPoison o bad
  else if objs.all fun x => ringReady free (ws x) x.count then s.wakeWith gid (objs.map fun x => (x.dst, ringResult free (ws x) x))
  else s

/-- A wait that the state of its object ends, as a condition. -/
def State.waitOver (s : State) (g : Group) : Wait → Bool
  | .sleepers => g.threads.any fun t => t.st == .ready
  | .outstanding => g.outstanding.isEmpty
  | .pop c n => match c.toNat / 32 with
    | 2 => n ≤ (s.engine (engineKey g c)).status.length
    | 3 => match lookup (s.clusterOf g) s.clusters with
      | some k => k.holds n
      | none => true
    | _ => true
  | .push c n => match c.toNat / 32 with
    | 1 => n ≤ s.commandRoom g.ctx g.core (c.toNat % 4)
    | 3 => s.slotRoom (s.clusterOf g) != 0
    | 4 => n ≤ s.outboundRoom g.core
    | _ => true
  | .bucket die => 0 < (s.bucket g.ctx die).level
  | .scale => match s.ownScale g.core g.ctx with
    | .ok _ => true
    | .error _ => false
  | .acquire => g.acqHold.isEmpty
  | .granules core _ => (s.loan (s.princOf g.ctx) core).returning.isNone
  | .zeroing core => (s.loan (s.princOf g.ctx) core).zeroing.isNone
  | .release => g.remote == 0
  | .wpwait _ e ch lanes => lanes.all fun x => x.2 ≤ (s.engine e).wp.getD ch 0
  | .tkput => s.slotRoom (s.clusterOf g) != 0
  | .view h => match lookup h s.groups with
    | some x => x.resident
    | none => true
  | .reflSlots offs => (s.heldSlots g.core).all fun h => h.1 != g.team || !offs.contains h.2.1
  | .reflLoad ids => ids.all fun n => match lookup n s.refls with
    | some r => r.st != .registering
    | none => true
  | _ => false

/-- A remote access of the group must still deliver a register result (R79, R187). -/
def State.accessOpen (s : State) (g : Group) : Bool :=
  g.awaitsPush || g.outstanding.any fun r => r.due.isNone && (lookup r.src s.inflight).isSome

/-- Test the wait of a group; one whose unit has a remote access under way parks until its results have come (R158, R187). -/
def State.testWait (s : State) (gid : Nat) : State :=
  match lookup gid s.groups with
  | none => s
  | some g =>
    if s.accessOpen g && g.wait.parks then s
    else match g.wait with
    | .none => s
    | .bowait o objs => s.testBowait gid o objs
    | .rawait o free objs => s.testRawait gid o free objs
    | .tlwait _ sc e lanes =>
      if lanes.all fun x => x.2 ≤ (s.engine e).done then (s.acquireAt g.ctx g.core sc).wakeGroup gid else s
    | .tkget _ dsts try_ => s.tryTkget gid g dsts try_
    | .launch q => s.tryLaunch gid g q
    | .recall _ dsts m =>
      if (s.loan g.ctx g.core).returning.isNone then
        s.wakeWith gid (dsts.map fun d => (d, PWord.ok m))
      else s
    | w => if s.waitOver g w then s.wakeGroup gid else s

/-! Sleepers (R157, R175). -/

/-- A group's context has a pre-emption request: its sleeping threads wake, those of a Parked group when it returns
(R175, R177). (log 23) -/
def State.wakeSleepers (s : State) (gid : Nat) : State :=
  match lookup gid s.groups with
  | none => s
  | some g =>
    if s.preqOf g && g.st != .trapped && g.threads.any (fun t => t.st == .sleeping) then
      if g.st == .parked then (if g.wait == .sleepers then s.setGroup gid (g.wake s.now) else s)
      else s.setGroup gid { g with threads := g.threads.map fun t => if t.st == .sleeping then t.wakeUp else t }
    else s

/-- An Active group none of whose threads is ready waits for the first sleeper (R158). -/
def State.restGroup (s : State) (gid : Nat) : State :=
  match lookup gid s.groups with
  | none => s
  | some g =>
    if g.st == .active && g.threads.any (fun t => t.st == .sleeping) &&
        !g.threads.any (fun t => t.st == .ready) then
      s.setGroup gid { g.enter .waiting s.now with wait := .sleepers }
    else s

/-! The whole. -/

def State.settleGroup (s : State) (gid : Nat) : State :=
  (((s.wakeSleepers gid).restGroup gid).finishFence gid).testWait gid

/-- Teams whose groups have all retired leave their reflections (R324). -/
def State.settleTeam (s : State) (t : Nat) : State :=
  let s1 := s.finishBars t
  match lookup t s1.teams with
  | some x => if x.live && x.left == 0 then s1.unsubscribeTeam t else s1
  | none => s1

/-- Barriers of a cluster complete, and tasks that wait in its counters are posted while slots are free, those that a discarded
push had reserved among them (R349). -/
def State.settleCluster (s : State) (cl : Nat) : State :=
  let t := s.finishBarcs cl
  match lookup cl t.clusters with
  | some k => if k.counters.any fun d => d.2.count == 0 then t.doChores cl [.fill] else t
  | none => t

/-- Everything that follows an event at once. -/
def State.settle (s : State) : State :=
  let s1 : State := (s.teams.map (·.1)).foldl State.settleTeam s
  let s2 : State := (s1.clusters.map (·.1)).foldl State.settleCluster s1
  let s3 : State := (s2.groups.map (·.1)).foldl State.settleGroup s2
  let s4 : State := (s3.kernels.map (·.1)).foldl State.settleKernel ((s3.queues.map (·.1)).foldl State.settleQueue s3)
  let s5 : State := (s4.loans.map (·.1)).foldl State.settleLoan s4
  let s6 : State := [0, 1, 2, 3].foldl (fun t d => (t.settleDie d).placeFaults d) s5
  let s7 : State := s6.invals.foldl (fun t p => t.settleInval p.1 p.2) ((s6.links.map (·.1)).foldl State.settleLink s6)
  (s7.ctxs.map (·.1)).foldl (fun t c => sendFaults t.faults.length c t) s7

end Sys2Proof.Machine
end

