-- ==== Sys2Proof/Machine/Schedule.lean ====
section
/-! DEFINITION. What happens next: the events that are due, the actions that may happen in any order, and the choice
and issue of the next unit of a core (spec 03_encoding.md R56 to R60, R74 to R79, 07_group.md R164, R165,
16_context.md R368, R370). -/

namespace Sys2Proof.Machine

/-- An outcome is a next state. -/
def goesOn (r : Out) : Bool :=
  match r with
  | .next _ => true
  | _ => false

/-- An event can happen. (log 57) -/
def State.can (s : State) (i : Instr) : Bool := goesOn (exec i s)

/-! Events that are due. Each happens before any cycle passes. -/

/-- Cores, with a flag for the shade bank, that groups selected by p are on. -/
def State.coresOf (s : State) (p : Group → Bool) : List (Nat × Bool) :=
  ((s.groups.filter fun x => p x.2).map fun x => (x.2.core, x.2.shade)).eraseDups

/-- A due event of the groups. -/
def State.groupPrompts (s : State) : List Instr :=
  (s.groups.filter fun p => dueIn s.now p.2.outstanding []).map (fun p => .resultWriteback p.1) ++
  (s.groups.filter fun p => p.2.threads.any fun t => t.st == .sleeping).flatMap
    (fun p => allLanes.map fun L => .sleepWake p.1 L) ++
  (s.groups.filter fun p => !p.2.pushes.isEmpty).map (fun p => .queuePushLands p.1) ++
  (s.groups.filter fun p => p.2.st == .exiting).map (fun p => .groupRetire p.1) ++
  (s.groups.filter fun p => p.2.handler == .due).map (fun p => .handlerGroupStart p.1) ++
  (s.coresOf fun g => g.st == .pending).map (fun c => .activeSetEntry c.1 c.2) ++
  (s.coresOf fun g => !g.resident).map (fun c => .unpark c.1 c.2) ++
  (s.coresOf fun g => !g.resident).map fun c => .eviction c.1

/-- An MMA of a core, on any tile, could have been applied 20 cycles ago (R298). (log 45) -/
def State.mmaDue (s : State) (core : Nat) : Bool :=
  (s.works core).any fun w => (match w.ready with
    | some t => t + 20 ≤ s.now
    | none => false) && match w.kind with
      | .mma _ _ _ => true
      | _ => false

/-- A due event of the matrix engines, reflections, loans and rings. -/
def State.unitPrompts (s : State) : List Instr :=
  s.mwork.flatMap (fun p => p.2.map fun w => .tileConversionEnd w.gid w.tile) ++
  (s.mwork.filter fun p => s.mmaDue p.1).map (fun p => .mmaApply p.1) ++
  s.scales.map (fun p => .msldTransferEnd p.1) ++
  (List.range s.ranges.length).map .pushCoalesceExpiry ++
  s.loans.map (fun p => .granuleZeroingEnd (p.1 % 1024)) ++
  (s.loans.filter fun p => match p.2.returning with
    | some (_, t) => t + 48 ≤ s.now
    | none => false).map (fun p => .granulesReturn p.1) ++
  s.hrings.map fun p => .hostRingDeadline (p.1 / 32) (p.1 % 32)

/-- A started WAITV whose time to read has come (R331). -/
def State.waitvPrompts (s : State) : List Instr :=
  s.queues.flatMap fun q => (q.2.entries.filter fun e => e.2.live && e.2.type == 3 && e.2.reread ≤ s.now).map
    fun e => .waitvReread q.1 e.1

/-- A due event of the dies. -/
def State.diePrompts (s : State) : List Instr :=
  ([0, 1, 2, 3].filter fun d => (s.die d).phase == .boot).map .coldReset ++
  [0, 1, 2, 3].map .accessCountHalving ++ [0, 1, 2, 3].map .faultringRetry ++
  s.ctxs.map (fun p => .preemptionWatchdog p.1) ++ s.links.map (fun p => .quiesceTimeout p.1) ++
  (s.links.filter fun p => s.drained p.1).map fun p => .linkDrained p.1

/-- The events that are due, in order. (log 1, 2) -/
def State.prompts (s : State) : List Instr :=
  (s.buckets.map fun p => .tokenBucketRefill (p.1 / 4) (p.1 % 4)) ++ s.groupPrompts ++ s.unitPrompts ++ s.waitvPrompts ++
    s.diePrompts

/-- The first event that is due. -/
def State.prompt (s : State) : Option Instr := s.prompts.find? s.can

/-! The next unit of a group (R57, R58, R165). -/

/-- Program counters of the ready threads. -/
def Group.pcs (g : Group) : List Nat := ((g.threads.filter fun t => t.st == .ready).map (·.pc)).eraseDups

/-- The age of a program counter: the largest wait count among the ready threads at it. -/
def Group.age (g : Group) (pc : Nat) : Nat :=
  g.threads.foldl (fun m t => if t.st == .ready && t.pc == pc then max m t.waitCount else m) 0

/-- The program counter of the next packet (R165). -/
def Group.pickPc (g : Group) : Nat :=
  match g.pcs.filter fun p => 64 ≤ g.age p with
  | [] => (g.pcs.min?).getD 0
  | p :: old => old.foldl (fun b p => if g.age b < g.age p || (g.age p == g.age b && p < b) then p else b) p

/-- The next unit of a group: packet, active set, first word, whether a packet starts with it, and its words with
their positions, or the position of the packet's lowest illegal word. -/
structure Turn where
  k : Nat
  act : Word
  start : Nat
  fresh : Bool
  unit : Except Nat (List (Nat × Insn))

/-- The words of the unit that a list of words begins with. -/
def takeUnit : List (Nat × Insn) → List (Nat × Insn)
  | [] => []
  | x :: xs => if x.2.chain then x :: takeUnit xs else [x]

/-- The words of a packet from a position to the end of the unit there. -/
def unitAt (s : State) (core : Nat) (c : Code) (k start : Nat) : Except Nat (List (Nat × Insn)) :=
  match decodePacket (s.codeWord core c k) (s.codeWord core c (k + 1)) (s.codeWord core c (k + 2)) with
  | .error e => .error e.1
  | .ok ws => .ok (takeUnit (ws.dropWhile fun x => x.1 < start))

/-- Where the next unit of a group is: packet, active set, first word, and whether a packet starts. -/
def Group.place (g : Group) : Nat × Word × Nat × Bool :=
  match g.unit with
  | some u => (u.k, u.act, u.next, false)
  | none =>
    let k := g.pickPc
    let act := g.lanesWith fun t => t.st == .ready && t.pc == k
    (k, act, (((lanesOf act).map fun L => (g.thread L).rword).min?).getD 0, true)

def State.turnOf (s : State) (g : Group) : Turn :=
  let p := g.place
  ⟨p.1, p.2.1, p.2.2.1, p.2.2.2, unitAt s g.core g.code p.1 p.2.2.1⟩

/-! Who can issue (R76, R164, R370). -/

/-- Pipes I, FA, FB, M, L, C are 0 to 5: those of a unit's words; a single F word goes to FA (R57). -/
def pipesOf : Bool → List (Nat × Insn) → List Nat
  | _, [] => []
  | second, x :: xs =>
    let p := match x.2.op.pipe with
      | .i => 0
      | .f => if second then 2 else 1
      | .m => 3
      | .l => 4
      | .c => 5
    (if x.2.op.usesL then [p, 4] else [p]) ++ pipesOf (second || x.2.op.pipe == .f) xs

/-- A pipe of a core accepts a word in this cycle. -/
def State.pipeFree (s : State) (core p : Nat) : Bool := (s.core core).pipes.getD p 0 ≤ s.now

/-- The context of a group lets it issue: no forced save, and no eclipse under way for a shade (R371, R376). -/
def State.ctxIssues (s : State) (g : Group) : Bool :=
  (match lookup g.ctx s.ctxs with
    | some c => !c.forced
    | none => false) &&
  !(g.shade && (s.loan (s.princOf g.ctx) g.core).returning.isSome)

/-- The tile words that store to scratchpad or post such a store. -/
def Instr.storesTile : Instr → Bool
  | .asts _ | .astc _ => true
  | _ => false

/-- A group's next unit can issue (R164); no shade word enters the L pipe, and no tile is stored, before a second pass that
waits (R186, R370). -/
def State.issuable (s : State) (g : Group) : Bool :=
  g.st == .active && g.holdUntil ≤ s.now && !g.switching && g.fence.isNone && g.threads.any (fun t => t.st == .ready) &&
    s.ctxIssues g && !s.codeWaits g.core g.code ((List.range 3).map fun i => g.place.1 + i) && match (s.turnOf g).unit with
      | .error _ => true
      | .ok ws => ((pipesOf false ws).all fun p => s.pipeFree g.core p && !(p == 4 && g.shade && !(s.passesAt g.core).isEmpty)) &&
          !(g.shade && !(s.passesAt g.core).isEmpty && ws.any fun x => Instr.storesTile x.2.op)

/-- The groups of a core that can issue, principal or shade. -/
def State.contenders (s : State) (core : Nat) (shade : Bool) : List (Nat × Group) :=
  s.groups.filter fun p => p.2.core == core && p.2.shade == shade && s.issuable p.2

/-- The group that issued least recently; a tie goes to the lower active-set slot (R164). -/
def leastRecent (ps : List (Nat × Group)) : Option (Nat × Group) :=
  ps.foldl (fun b p => match b with
    | none => some p
    | some q =>
      if p.2.lastIssue < q.2.lastIssue || (p.2.lastIssue == q.2.lastIssue && p.2.aslot < q.2.aslot) then some p else b) none

/-- Contexts of a list of groups. -/
def ctxsOf (ps : List (Nat × Group)) : List Nat := (ps.map fun p => p.2.ctx).eraseDups

/-- The passes of a core with the contexts that have become issuable given the lowest pass of the others (R368). (log 44) -/
def State.passesNow (s : State) (core : Nat) (ctxs : List Nat) : List (Nat × Nat) :=
  let c := s.core core
  let kept := ctxs.filter fun t => c.looked == s.now && c.issuable.contains t
  let base := if kept.isEmpty then ctxs else kept
  let low := ((base.map fun t => readAt 0 c.passes t).min?).getD 0
  ctxs.foldl (fun m t => if kept.contains t then m else insertAt t low m) c.passes

/-- The principal context that a core chooses: the lowest pass, then the lowest tag (R368). (log 44) -/
def chooseCtx (passes : List (Nat × Nat)) (ctxs : List Nat) : Nat :=
  match ctxs with
  | [] => 0
  | t :: ts =>
    let pass := readAt 0 passes
    ts.foldl (fun b t => if pass t < pass b || (pass t == pass b && t < b) then t else b) t

/-- The group that a core issues from, and the core's record of the choice. A shade issues only when no principal group
can (R370). (log 44) -/
def State.pickGroup (s : State) (core : Nat) : Option (Nat × Group × Core) :=
  let ps := s.contenders core false
  let c := s.core core
  if ps.isEmpty then
    (leastRecent (s.contenders core true)).map fun p => (p.1, p.2, { c with issuable := [], looked := s.now + 1 })
  else
    let ctxs := ctxsOf ps
    let passes := s.passesNow core ctxs
    let t := chooseCtx passes ctxs
    let w := ((lookup t s.ctxs).map (·.weight)).getD 1
    (leastRecent (ps.filter fun p => p.2.ctx == t)).map fun p =>
      (p.1, p.2, { c with passes := insertAt t (readAt 0 passes t + 12 / max 1 w) passes, issuable := ctxs, looked := s.now + 1 })

/-- The next core in this cycle with a group that can issue. (log 2) -/
def State.nextCore (s : State) : Option Nat :=
  ((s.groups.filter fun p => s.turn ≤ p.2.core && s.issuable p.2).map fun p => p.2.core).min?

/-! Actions that may happen now, in an order that no rule fixes (R271). -/

/-- An action: an event, a management command of a code, a step of a page drain, the reset of the package behind a port (R442), a write
of a route entry by firmware (R446), or the loss of a cached line, leaf or table address, which may
leave its cache at any time (R269, R403, R404). -/
inductive Action where
  | event (i : Instr)
  | command (m : MgmtRef) (code : Nat)
  | dropCopy (n : Nat)
  | drain (n : Nat)
  | peerReset (link : Nat)
  | route (die : Nat)
  | dropLeaf (n : Nat)
  | dropTable (n : Nat)
  deriving DecidableEq, Repr

/-- A command has an element that its engine can serve now: no request of it waits for a link. -/
def State.servable (s : State) (n : Nat) (c : Cmd) : Bool :=
  (s.landable n c || (c.st == .moving && (c.op == 9 || c.op == 10))) && c.xls.all fun x =>
    match s.placeOf c.ctx x.2 (x.2.page * 65536) with
    | some p => s.placeReach c.ctx (dieOf c.core) p != .wait
    | none => true

/-- Service order of a command's context (R226): principal, shade, demoted. -/
def State.rankOf (s : State) (c : Cmd) : Nat := if !s.isShade c.ctx then 0 else if c.demoted then 2 else 1

/-- An engine serves a command: no command of an earlier rank on its core has an element for it. (log 26) -/
def State.servesNow (s : State) (c : Cmd) : Bool :=
  s.cmds.all fun p => p.2.core != c.core || s.rankOf c ≤ s.rankOf p.2 || !s.servable p.1 p.2

/-- A principal group of a core has a word for a pipe that it could issue now. -/
def State.wanted (s : State) (core p : Nat) : Bool :=
  (s.contenders core false).any fun x => match (s.turnOf x.2).unit with
    | .ok ws => (pipesOf false ws).contains p
    | .error _ => false

/-- Accesses under way that may be performed: between the passes of a shade's atomic a principal word takes the L pipe
first (R370). -/
def State.accessActions (s : State) : List Instr :=
  (s.inflight.filter fun p => p.2.pass.isNone || !s.wanted p.2.target 4).map fun p => .remoteAccessComplete p.1

/-- See assumption log 26. -/
def State.copyActions (s : State) : List Instr :=
  s.cmds.flatMap (fun p => [Instr.commandStart p.1, Instr.mcastReceiverArrival p.1] ++
    if s.servesNow p.2 then [Instr.elementLands p.1, Instr.stackAtomicApply p.1] else []) ++
  s.txlanes.map (fun p => .txLaneStart p.1) ++ s.accessActions ++
  s.mwork.map (fun p => .mmaApply p.1) ++ s.rpushes.map (fun p => .pushApply p.1) ++
  s.refls.flatMap fun p => [.reflLoadLands p.1, .unreflRetire p.1]

/-- The management command of a code (R453): what `exec` gives for its constructor. -/
def manage (m : MgmtRef) (code : Nat) (s : State) : Out :=
  match code with
  | 1 => execCtxcreate m s
  | 2 => execCtxdestroy m s
  | 3 => execCtxkill m s
  | 4 => execPreempt m s
  | 5 => execCtxresume m s
  | 6 => execHandler m s
  | 7 => execInval m s
  | 8 => execResume m s
  | 9 => execFaultring m s
  | 10 => execPageattr m s
  | 11 => execErrlog m s
  | 12 => execLinkstat m s
  | 13 => execDiereset m s
  | 14 => execPolicy m s
  | 15 => execFwload m s
  | 16 => execAttest m s
  | _ => .fault .noSuchObject

/-- The start of a work-queue entry of a type (Table 14-2). -/
def entryInstr (q idx : Nat) : Nat → List Instr
  | 0 => [.nopEntry q idx]
  | 1 => [.kernelEntry q idx]
  | 2 => [.graphEntry q idx]
  | 3 => [.waitvEntry q idx, .waitvReread q idx]
  | 4 => [.writevEntry q idx]
  | _ => []

/-- The actions of a queue's entry. -/
def entryActions (q idx : Nat) (e : QEntry) : List Instr := if isMgmt q then [] else entryInstr q idx e.type

/-- The management commands that have been fetched, with their codes. -/
def State.mgmtActions (s : State) : List (MgmtRef × Nat) :=
  (s.queues.filter fun p => isMgmt p.1).flatMap fun p =>
    p.2.entries.map fun e => (⟨(p.1 - 8192) / 4, p.1 % 4, e.1⟩, e.2.type)

def State.queueActions (s : State) : List Instr :=
  s.queues.map (fun p => .wqEntryFetch p.1) ++
  s.queues.flatMap (fun p => p.2.entries.flatMap fun e => entryActions p.1 e.1 e.2) ++
  (s.cores.flatMap fun p => p.2.outbound.map fun r => (r.ctx, r.ring)).eraseDups.map (fun r => .hostRingWrite r.1 r.2) ++
  s.kernels.map (fun p => .clusterAdmission p.1) ++
  s.graphs.flatMap (fun p => (List.range (max 1 p.2.nodes.length)).flatMap fun n => [.graphNodeStart p.1 n, .graphNodeComplete p.1 n]) ++
  s.teams.map fun p => .teamEnd p.1

def State.contextActions (s : State) : List Instr :=
  s.ctxs.flatMap (fun p => [.contextSaveComplete p.1, .contextRestoreComplete p.1, .contextTeardownDone p.1]) ++
  s.groups.flatMap (fun p => [.groupSave p.1, .flushByContextTag p.1, .flushAcknowledge p.1]) ++
  s.loans.map (fun p => .granulesReturn p.1) ++ s.walks.map (fun p => .pageWalkComplete p.1) ++
  s.invals.map (fun p => .invalComplete p.1) ++ s.drains.map (fun p => .pageDrainComplete p.1) ++
  s.dies.map fun p => .wipeComplete p.1

/-- The actions that may happen now. (log 2) -/
def State.actions (s : State) : List Action :=
  ((s.copyActions ++ s.queueActions ++ s.contextActions).filter s.can).map Action.event ++
  (s.mgmtActions.filter fun x => goesOn (manage x.1 x.2 s)).map (fun x => .command x.1 x.2) ++
  ((s.drains.filter fun p => (s.drainStep p.1).isSome).map fun p => .drain p.1) ++
  ((s.links.filter fun p => 16 ≤ p.1 && p.2.st != .down && p.2.st != .failed).map fun p => .peerReset p.1) ++
  ([2, 3].filter fun d => s.links.any fun p => (diePorts d).contains p.1 && p.2.st == .up).map .route ++
  (List.range s.copies.length).map .dropCopy ++ (List.range s.tlb.length).map .dropLeaf ++
  (List.range s.walkCache.length).map .dropTable

/-- The action chosen, if one is: the choice is free, and none is among the choices. (log 2) -/
def State.chosen (s : State) : Option Action :=
  match s.actions with
  | [] => none
  | as => match Config.freeChoice s.free % (as.length + 1) with
    | 0 => none
    | n + 1 => as[n]?

/-- Perform an action. (log 29) -/
def act (s : State) : Action → Out
  | .event i => exec i s
  | .command m code => manage m code s
  | .dropCopy n => .next (match s.copies[n]? with
    | some c => s.dropWhere fun x => x == c
    | none => s)
  | .peerReset l => .next (s.dropLink l)
  | .route d => .next { s with
      free := s.free + 2
      routes := writeAt 0 (d * 262144 + Config.freeChoice s.free % 262144) (Config.freeChoice (s.free + 1) % 256) s.routes }
  | .drain n => .next ((s.drainStep n).getD s)
  | .dropLeaf n => .next { s with tlb := s.tlb.eraseIdx n }
  | .dropTable n => .next { s with walkCache := s.walkCache.eraseIdx n }

/-! Issue (R57 to R60, R75, R387). -/

/-- The issue of the word at a position; it acts for the threads whose resume word is no later. (log 13) -/
def issueOf (g : Group) (gid : Nat) (t : Turn) (second : Bool) (x : Nat × Insn) : Issue :=
  { gid := gid, act := maskOf fun L => t.act.getLsbD L && (g.thread L).rword ≤ x.1, k := t.k, pos := x.1, unit := t.start
    guard := x.2.guard, chain := x.2.chain, sw := x.2.sw, insn := BitVec.ofNat 32 x.2.word
    lit := if x.2.op.tailWords.length == 1 then BitVec.ofNat 32 (x.2.op.tailWords.headD 0) else 0
    fb := second && x.2.op.pipe == .f }

/-- The issues of a unit's words. -/
def issuesOf (g : Group) (gid : Nat) (t : Turn) : Bool → List (Nat × Insn) → List (Issue × Instr)
  | _, [] => []
  | second, x :: xs => (issueOf g gid t second x, x.2.op) :: issuesOf g gid t (second || x.2.op.pipe == .f) xs

/-- The lanes' values of an operand as a word reads it at issue; none where it cannot be read. -/
def State.capture (s : State) (v : View) (x : Option (Nat × Nat)) : List PWord :=
  match x with
  | none => []
  | some (e, r) => match s.operand v e r with
    | .ok (f, _) => allLanes.map f
    | .error _ => []

/-- An issue with its operands as read at issue, A popped first (R96, R386). -/
def State.reading (s : State) (o : Issue) (i : Instr) : Issue :=
  match lookup o.gid s.groups with
  | none => o
  | some g =>
    let v : View := ⟨o, g⟩
    let s1 := match Instr.srcA i with
      | some (e, r) => match s.operand v e r with
        | .ok (_, t) => t
        | .error _ => s
      | none => s
    { o with opa := s.capture v (Instr.srcA i), opb := s1.capture v (Instr.srcB i) }

/-- One word of a unit. -/
def execWord (s : State) (x : Issue × Instr) : Out :=
  exec x.2 { s with cur := some (s.reading x.1 x.2), signal := .issued }

/-- Words that make a release (Table 11-2). -/
def Instr.releasing : Instr → Bool
  | .bar _ | .barc _ | .boarr false _ | .rarel _ | .tkput _ | .tkdone _ | .dcset _ | .dcdec _ | .launch _ | .lend _ | .tres _ | .agive _ _ _ => true
  | _ => false

/-- The words of a unit in order, from the state s before the unit. Words behind a FENCE, BOWAIT or TLWAIT of the same unit take
effect in the cycle of its issue, before the fence or the wait ends: R57 issues them together, and R263 orders by issue
(DESIGN CHOICE, log 9). A release covers the remote accesses of earlier
words of its unit too: they are performed with it. A word that stops on what an earlier word of the unit leaves, as when
both pop one queue, stops the whole unit (R76, R387). (log 9) -/
def execWords (s : State) : List (Issue × Instr) → State → Out
  | [], t => .next t
  | x :: xs, t =>
    match execWord (if Instr.releasing x.2 then t.performAll x.1.gid else t) x with
    | .next u => match u.signal with
      | .issued => execWords s xs u
      | .stalled w => .next (s.stallAt x.1 w)
      | .trapped r => .next (s.trapAtIssue (t.reading x.1 x.2) r)
    | r => r

/-- What the first word of a unit that traps or stalls makes of it: every word is checked before any takes effect
(R387). (log 9) -/
def firstStop (s : State) : List (Issue × Instr) → Option Out
  | [] => none
  | x :: xs =>
    match execWord s x with
    | .next t => if t.signal == .issued then firstStop s xs else some (.next t)
    | r => some r

/-- Pipe occupancy of a word (Table 3-10); words of the L and M pipes occupy their pipes themselves. (log 8) -/
def Instr.occupancy : Instr → Nat
  | .frcp _ | .frsq _ | .fsqrt _ | .fexp2 _ | .flog2 _ | .fsin _ | .fcos _ | .ftanh _ => 4
  | .redux _ _ | .fredux _ _ | .scan _ _ _ => 2
  | _ => 1

/-- The pipes that the words of a unit occupy. -/
def State.occupyAll (s : State) (core : Nat) (ws : List (Nat × Insn)) : State :=
  ((pipesOf false ws).foldl (fun t p => t.occupy core p 1) s) |> fun t =>
    ((ws.filter fun x => x.2.op.pipe == .f).mapIdx fun i x => (i + 1, x)).foldl
      (fun t x => t.occupy core x.1 (Instr.occupancy x.2.2.op)) t

/-- The packet in progress is recorded; at a packet's start the wait counts move on (R165), and a thread that starts it
at word 0 has taken no transfer. A first unit that stalls starts its packet all the same, which R58 leaves open.
(DESIGN CHOICE, log 9) -/
def Group.begin (g : Group) (t : Turn) : Group :=
  let start := fun (x : Thread) => { x with waitCount := 0, transfer := if x.rword == 0 then none else x.transfer }
  let pass := fun (x : Thread) => if x.st == .ready then { x with waitCount := x.waitCount + 1 } else x
  { g with
    unit := some ⟨t.k, t.act, t.start⟩
    threads := if t.fresh then g.threads.mapIdx fun L x => if t.act.getLsbD L then start x else pass x else g.threads }

/-- The end of a unit: deferred effects, the switch wait of an S word or a word that parks, and the next unit (R58, R77,
R79, R94). The group's place in the rotation is renewed at every unit, also inside a packet, where R58 counts whole packets and
the bound of R164 cycles. (DESIGN CHOICE, log 44) -/
def Group.endIssue (g : Group) (ws : List (Nat × Insn)) (now : Nat) : Group :=
  let next := match ws.getLast? with
    | some x => x.1 + 1 + x.2.op.tailWords.length
    | none => 3
  let h := g.endUnit
  let sw := ws.any fun x => x.2.sw
  { h with
    -- a REFL that waits for a translation has its results still to come
    wait := match h.wait with
      | .refl o pd size lanes f lost => .refl { o with sw := sw } pd size lanes f lost
      | w => w
    switching := h.switching || ((sw || h.wait.parks) && !h.outstanding.isEmpty)
    lastIssue := now + 1, unit := h.unit.map fun u => { u with next := next } }

/-- A packet whose last unit has issued ends. -/
def State.endPacket (s : State) (gid : Nat) : State :=
  match lookup gid s.groups with
  | some g => match g.unit with
    | some u => if 3 ≤ u.next then s.finishPacket gid else s
    | none => s
  | none => s

/-- A unit whose words have all issued. -/
def State.unitDone (s : State) (gid : Nat) (core : Nat) (ws : List (Nat × Insn)) : State :=
  ((s.occupyAll core ws).modGroup gid fun g => g.endIssue ws s.now).endPacket gid

/-- A program counter past the end of the code: the branch-target trap (R170, R345). (log 10) -/
def State.pastEnd (s : State) (gid : Nat) (t : Turn) : State :=
  s.trapAtIssue ⟨gid, t.act, t.k, 0, t.start, 0, false, false, 0, 0, false, [], []⟩
    { kind := 6, detail := BitVec.ofNat 32 t.k, tmask := t.act }

/-- Issue a unit of a group. (log 10) -/
def State.issueUnit (s : State) (gid : Nat) (g : Group) : Out :=
  let t := s.turnOf g
  let s1 := s.setGroup gid (g.begin t)
  if g.code.words ≤ t.k then .next (s1.pastEnd gid t)
  else match t.unit with
    | .error p =>
      let w := s.codeWord g.core g.code (t.k + p)
      exec (.illegalPacket (Fin.ofNat 3 p)) { s1 with
        signal := .issued
        cur := some ⟨gid, t.act, t.k, p, t.start, Fin.ofNat 16 (w / 67108864), fBit w 31, fBit w 30, BitVec.ofNat 32 w, 0, false, [], []⟩ }
    | .ok ws =>
      let is := issuesOf g gid t false ws
      match firstStop s1 is with
      | some r => r
      | none => match execWords s1 is s1 with
        | .next u => .next (u.unitDone gid g.core ws)
        | r => r

/-- The ring whose descriptor a word has read that stalls for room in it, or traps on its binding (R341). -/
def Signal.ring : Signal → Option Nat
  | .stalled (.push c _) => if c.toNat / 32 == 4 then some (c.toNat % 32) else none
  | .trapped t => if t.kind == 3 && t.detail.toNat / 32 == 4 then some (t.detail.toNat % 32) else none
  | _ => none

/-- The kernel of group g keeps the descriptor that its word has read, though the word has not issued (R341). (log 19) -/
def State.keepUse (s : State) (g : Group) : State :=
  match s.signal.ring with
  | none => s
  | some i => s.modKernel (s.kernelOf g) fun k => { k with rings := insertAt i ((lookup i k.rings).getD (s.readRing g.ctx i)) k.rings }

/-- The core offers its issue slot: the unit chosen issues. A unit that stalls leaves the slot to another group. -/
def State.issueOn (s : State) (core : Nat) : Out :=
  match s.pickGroup core with
  | none => .next { s with turn := core + 1 }
  | some (gid, g, c) =>
    match s.issueUnit gid g with
    | .next t0 =>
      let t := t0.keepUse g
      .next (match t.signal with
        | .stalled _ => { t with cur := none }
        | _ => { t.setCore core { c with pipes := (t.core core).pipes, outbound := (t.core core).outbound
                                         layouts := (t.core core).layouts
                                         icache := s.fetched core g.code ((List.range 3).map fun i => g.place.1 + i) } with cur := none, turn := core + 1 })
    | r => r

/-- A cycle passes. -/
def State.tickOn (s : State) : State := { s with now := s.now + 1, turn := 0 }

end Sys2Proof.Machine
end

