-- ==== Sys2Proof/Machine/Step.lean ====
section
/-! DEFINITION. One step of the machine, and the placing of an instruction where the next step fetches it. -/

namespace Sys2Proof.Machine

/-- What follows an outcome at once. -/
def settled (r : Host.Outcome State Fault Refusal) : Host.Outcome State Fault Refusal :=
  match r with
  | .next t => .next t.settle
  | r => r

/-- One step: the next outside event; else the first event that is due; else the action chosen; else the issue of a unit
on the next core that has one; else a cycle passes. (log 1) -/
def step (s : State) : Host.Outcome State Fault Refusal :=
  match s.inputs with
  | i :: rest => settled (exec i { s with inputs := rest })
  | [] =>
    match s.prompt with
    | some i => settled (exec i s)
    | none =>
      match s.chosen with
      | some a => settled (act { s with free := s.free + 1 } a)
      | none =>
        let s1 := if s.actions.isEmpty then s else { s with free := s.free + 1 }
        match s1.nextCore with
        | some c => settled (s1.issueOn c)
        | none => settled (.next s1.tickOn)

/-! Placing an instruction (assumption log 1: how a program comes to run). -/

/-- The three words of a packet that begins with an instruction; the words that it does not own are NOPs. -/
def packetOf (nbits w : Nat) : List Nat :=
  let v := w % 2 ^ nbits
  let x := fun i => v / 4294967296 ^ i % 4294967296
  let n := match decodeTableWord nbits w with
    | some i => i.tailWords.length
    | none => 0
  [x 0, if n == 0 then 0x03A00000 else x 1, if n == 2 then x 2 else 0x03A00000]

/-- Write words at the start of stack 0 of die 0, as their home has them. -/
def State.putCode (s : State) (ws : List Nat) : State :=
  let bytes := ws.flatMap fun w => [byteOf w 0, byteOf w 1, byteOf w 2, byteOf w 3]
  s.homeWrite { stack := 0, line := 0, bytes := bytes.mapIdx fun i b => (i, b), psn := [], rel := false }

/-- The code region of the placed instruction: one packet at the start of device memory. -/
def placedCode : Code := { base := 0, words := 3, pages := [⟨false, 0⟩], mode := 1, dev := 0 }

/-- Its kernel descriptor. -/
def placedDesc : KDesc :=
  { const := 0, prio := 0, noCkpt := true, arglen := 0, argoff := 0, scratch := 2, w := 1, h := 1, g := 1
    qbind := [0x20, 0x40, 0x60, 0x80], ptab := [0, 0, 0, 0, 0, 0, 0], regs := 128, tsz := 0, accn := 1, entry := 0, codew := 3
    code := 0 }

/-- Its group: Active on core 0, with 32 ready threads at word 0. -/
def placedGroup (now : Nat) : Group :=
  { core := 0, slot := 0, team := 2, num := 0, ctx := 1, priv := true, st := .active, since := now, regs := 128, accn := 1
    code := placedCode, threads := List.replicate 32 {} }

/-- The machine with an instruction placed where the next step fetches: a mode-1 package whose dies are ready, one
privileged context, and one kernel of one team of one group on core 0, nothing else being under way. Memories keep
what they hold but for the twelve bytes of the packet. (log 1, 59) -/
def State.withFetchWord (s : State) (nbits w : Nat) : State :=
  let code : Code := { placedCode with mode := s.part.layout 1 }
  let base : State :=
    { part := s.part, now := s.now, free := s.free, nextId := max s.nextId 5
      cores := [(0, { cycBase := (s.core 0).cycBase })]
      groups := [(4, { placedGroup s.now with code := code })]
      teams := [(2, { core := 0, rank := 0, clx := 0, cly := 0, cluster := 3, kernel := 1, ctx := 1, shade := false, ngroups := 1
                      base := 0, granules := 2, ckpt := none, left := 1 })]
      clusters := [(3, { kernel := 1, ctx := 1, index := 0, die := 0, x := 0, y := 0, w := 1, h := 1, teams := [2] })]
      kernels := [(1, { desc := placedDesc, code := code, gx := 1, gy := 1, gz := 1, arga := 0, ctx := 1
                        owner := .node 0 0, seq := 1, next := 1, live := 1, cores := [0] })]
      ctxs := [(1, { mode := s.part.layout 1, dev := 0, priv := true, emask := 15, st := .running })]
      spad := s.spad, errlog := s.errlog, dl := s.dl, mem := s.mem, memPsn := s.memPsn, host := s.host, hostPsn := s.hostPsn
      dies := s.part.dies.map fun d => (d, { s.die d with phase := .ready, mode := s.part.layout 1, lastHalf := s.now })
      routes := s.routes, portDown := s.portDown, powerLow := s.powerLow, msix := s.msix, attr := s.attr, collisions := s.collisions
      homes := s.homes, l2Uses := s.l2Uses
      lastQueue := s.lastQueue }
  base.putCode (packetOf nbits w)

end Sys2Proof.Machine
end

