-- ==== Sys2Proof/Safety.lean ====
section
/-! DEFINITION. The vocabulary of the statements: a word being issued, what it completes with, the words that compute
results in registers and their values by the spec, and the invariants. -/

namespace Sys2Proof.Machine

/-! A word being issued. -/

/-- The machine issues word o of group g, and the guard of no active lane is poisoned (R60). -/
structure Issues (s : State) (o : Issue) (g : Group) : Prop where
  cur : s.cur = some o
  group : lookup o.gid s.groups = some g
  guard : (View.mk o g).badGuard = 0

/-- The word has taken effect. -/
def State.issued (s : State) : State := { s with signal := .issued }

/-- Wherever an instruction is issued and `cond` holds, it takes the effect `after`, and nothing else happens. -/
def Completes (i : Instr) (cond : State → View → Prop) (after : State → View → State) : Prop :=
  ∀ s o g, Issues s o g → cond s ⟨o, g⟩ → exec i s = .next (after s ⟨o, g⟩).issued

/-- Results that become available n cycles after issue, in the given frame words or predicates, and nothing else. -/
def State.receive (s : State) (v : View) (rs : List Result) : State := s.modSelf v fun g => g.issue rs

/-- A source register as each lane reads it: pattern entry and register (R93, R99). -/
def View.source (v : View) : Option (Nat × Nat) → Lanes
  | some (e, r) => fun L => v.g.reg (v.src e L) r
  | none => fun _ => PWord.zero

/-- Neither operand of a word is a queue register. -/
def Instr.plainSources (i : Instr) : Prop :=
  (∀ p, Instr.srcA i = some p → p.2 < 28) ∧ ∀ p, Instr.srcB i = some p → p.2 < 28

/-! Words with one result register. -/

/-- Destination, latency (Table 3-10), and the value that a lane receives from its operands A and B. -/
structure WordRule where
  d : Nat
  lat : Nat
  val : View → Nat → PWord → PWord → PWord

/-- A value of both operands. -/
def rule2 (d : Reg) (lat : Nat) (f : Word → Word → Word) : Option WordRule :=
  some ⟨d.val, lat, fun _ _ => PWord.map2 f⟩

/-- A value of both operands and the old destination. -/
def rule3 (d : Reg) (lat : Nat) (f : Word → Word → Word → Word) : Option WordRule :=
  some ⟨d.val, lat, fun v L a b => PWord.map3 f a b (v.g.reg L d.val)⟩

/-- A value of operand A. -/
def rule1 (d : Reg) (lat : Nat) (f : Word → Word) : Option WordRule :=
  some ⟨d.val, lat, fun _ _ a _ => PWord.map1 f a⟩

/-- The integer words with one result register (05_integer.md). -/
def intRule : Instr → Option WordRule
  | .iadd o => rule2 o.d 2 fun a b => loWord (a.toNat + b.toNat)
  | .iaddImm o => rule1 o.d 2 fun a => loWord (a.toNat + signExt 7 o.imm.val)
  | .isub o => rule2 o.d 2 fun a b => loWord (a.toNat - b.toNat)
  | .imul o => rule2 o.d 4 fun a b => loWord (a.toNat * b.toNat)
  | .imulh z o => rule2 o.d 4 fun a b => hiWord (extOf z a * extOf z b)
  | .imad o => rule3 o.d 4 fun a b d => loWord (a.toNat * b.toNat + d.toNat)
  | .lea x o => rule2 o.d 2 fun a b => loWord (a.toNat + b.toNat * 2 ^ x.code)
  | .imin z o => rule2 o.d 2 fun a b => if extOf z a ≤ extOf z b then a else b
  | .imax z o => rule2 o.d 2 fun a b => if extOf z a ≥ extOf z b then a else b
  | .and o => rule2 o.d 2 fun a b => a &&& b
  | .or o => rule2 o.d 2 fun a b => a ||| b
  | .xor o => rule2 o.d 2 fun a b => a ^^^ b
  | .andn o => rule2 o.d 2 fun a b => a &&& ~~~b
  | .orn o => rule2 o.d 2 fun a b => a ||| ~~~b
  | .shl o => rule2 o.d 2 fun a b => loWord (if 32 ≤ b.toNat then 0 else a.toNat * 2 ^ b.toNat)
  | .shr o => rule2 o.d 2 fun a b => loWord (if 32 ≤ b.toNat then 0 else a.toNat / 2 ^ b.toNat)
  | .sar o => rule2 o.d 2 fun a b => loWord (a.toInt / 2 ^ min b.toNat 31)
  | .rotl o => rule2 o.d 2 fun a b => a.rotateLeft (b.toNat % 32)
  | .shlImm o => rule1 o.d 2 fun a => loWord (a.toNat * 2 ^ o.n.val)
  | .shrImm o => rule1 o.d 2 fun a => loWord (a.toNat / 2 ^ o.n.val)
  | .sarImm o => rule1 o.d 2 fun a => loWord (a.toInt / 2 ^ o.n.val)
  | .rotlImm o => rule1 o.d 2 fun a => a.rotateLeft o.n.val
  | .bfx z o => rule2 o.d 2 (bfxWord z)
  | .bfi o => rule3 o.d 2 bfiWord
  | .popc o => rule1 o.d 2 popcWord
  | .clz o => rule1 o.d 2 clzWord
  | .ctz o => rule1 o.d 2 ctzWord
  | .brev o => rule1 o.d 2 fun a => a.reverse
  | .prmt o => rule3 o.d 2 prmtWord
  | .iabs o => rule1 o.d 2 fun a => loWord a.toInt.natAbs
  | .ineg o => rule1 o.d 2 fun a => loWord (-a.toInt)
  | .mov o => rule1 o.d 2 fun a => a
  | .movi d imm => some ⟨d.val, 2, fun _ _ _ _ => PWord.ok (loWord (signExt 15 imm.val))⟩
  | .movl d lit => some ⟨d.val, 2, fun _ _ _ _ => PWord.ok lit⟩
  | .pget d => some ⟨d.val, 2, fun v L _ _ => (v.g.thread L).predWord⟩
  | _ => none

/-- The FP32, packed BF16 and conversion words with one result register (06_float.md). -/
def floatRule : Instr → Option WordRule
  | .fadd o => rule2 o.d 4 fun a b => toF32 ((f32 a).add (f32 b))
  | .fsub o => rule2 o.d 4 fun a b => toF32 ((f32 a).sub (f32 b))
  | .fmul o => rule2 o.d 4 fun a b => toF32 ((f32 a).mul (f32 b))
  | .ffma o => rule3 o.d 4 fun a b d => toF32 (((f32 a).mul (f32 b)).add (f32 d))
  | .ffms o => rule3 o.d 4 fun a b d => toF32 (((f32 a).mul (f32 b)).sub (f32 d))
  | .fmin o => rule2 o.d 2 (fminWord false)
  | .fmax o => rule2 o.d 2 (fminWord true)
  | .bmin2 o => rule2 o.d 2 (bmin2Word false)
  | .bmax2 o => rule2 o.d 2 (bmin2Word true)
  | .badd2 o => rule2 o.d 4 fun a b => pack2 (toBF ((bf a 0).add (bf b 0))) (toBF ((bf a 1).add (bf b 1)))
  | .bmul2 o => rule2 o.d 4 fun a b => pack2 (toBF ((bf a 0).mul (bf b 0))) (toBF ((bf a 1).mul (bf b 1)))
  | .bfma2 o => rule3 o.d 4 fun a b d =>
      pack2 (toBF (((bf a 0).mul (bf b 0)).add (bf d 0))) (toBF (((bf a 1).mul (bf b 1)).add (bf d 1)))
  | .fpack r o => rule2 o.d 4 (fpackWord r)
  | .fabs o => rule1 o.d 2 fun a => a &&& 0x7FFFFFFF
  | .fneg o => rule1 o.d 2 fun a => a ^^^ 0x80000000
  | .fclass o => rule1 o.d 2 fun a => BitVec.ofNat 32 (2 ^ classBit a)
  | .frnd r o => rule1 o.d 4 (frndWord r)
  | .frcp o => rule1 o.d 12 (sfuResult .rcp)
  | .frsq o => rule1 o.d 12 (sfuResult .rsq)
  | .fsqrt o => rule1 o.d 12 (sfuResult .sqrt)
  | .fexp2 o => rule1 o.d 12 (sfuResult .exp2)
  | .flog2 o => rule1 o.d 12 (sfuResult .log2)
  | .fsin o => rule1 o.d 12 (sfuResult .sin)
  | .fcos o => rule1 o.d 12 (sfuResult .cos)
  | .ftanh o => rule1 o.d 12 (sfuResult .tanh)
  | .f2i z o => rule1 o.d 4 (f2iWord z o.rnd o.sat)
  | .i2f z o => rule1 o.d 4 fun a => BitVec.ofNat 32 (encodeVal .f32 (.ofInt (extOf z a)) o.rnd false).code
  | .fcvtBf16F32 o => rule1 o.d 4 fun a => BitVec.ofNat 32 (encodeVal .bf16 (f32 a) o.rnd o.sat).code
  | .fcvtF32Bf16 o => rule1 o.d 4 fun a => toF32 (bf a 0)
  | .fcvtF16F32 o => rule1 o.d 4 (valueRound .f16 o.rnd o.sat)
  | .fcvtE4m3F32 o => rule1 o.d 4 (valueRound .e4m3 o.rnd o.sat)
  | .fcvtE5m2F32 o => rule1 o.d 4 (valueRound .e5m2 o.rnd o.sat)
  | _ => none

/-- The effect of a word with one result register whose registers are no queues: each enabled lane receives the value of
its operands after the latency. -/
def WordRule.effect (w : WordRule) (i : Instr) (s : State) (v : View) : State :=
  s.receive v (v.results s.now w.d w.lat fun L => w.val v L (v.source (Instr.srcA i) L) (v.source (Instr.srcB i) L))

/-- The operands of a word in every form: registers, or queue registers that are popped, A first (R96). -/
def State.sources (s : State) (v : View) (i : Instr) : Except Stop (Lanes × Lanes × State) :=
  match Instr.srcA i with
  | none => .ok (fun _ => PWord.zero, fun _ => PWord.zero, s)
  | some a => match s.operand v a.1 a.2 with
    | .error x => .error x
    | .ok (x, s1) => match Instr.srcB i with
      | none => .ok (x, fun _ => PWord.zero, s1)
      | some b => match s1.operand v b.1 b.2 with
        | .error e => .error e
        | .ok (y, s2) => .ok (x, y, s2)

/-- The source registers of a word. -/
def Instr.sourceRegs (i : Instr) : List Nat := ((Instr.srcA i).toList ++ (Instr.srcB i).toList).map (·.2)

/-- The effect of a word with one result register in every form: pops, then the result in the register or as a push. -/
def WordRule.anyForm (w : WordRule) (i : Instr) (s : State) (v : View) : Except Stop State :=
  match s.sources v i with
  | .error x => .error x
  | .ok (a, b, s1) => s1.put v w.d (w.lat + popDelayTo v w.d (Instr.sourceRegs i)) fun L => w.val v L (a L) (b L)

/-! Words with a result pair, with a predicate result, and across lanes. -/

/-- First register, latency, and the two words that a lane receives from its operands A and B. -/
structure PairRule where
  d : Nat
  lat : Nat
  val : View → Nat → PWord → PWord → PWord × PWord

/-- The words with a result pair. IADDC takes its carry from bit 0 of the old destination; 64-bit operands are pairs. -/
def pairRule : Instr → Option PairRule
  | .iaddc o => some ⟨o.d.val, 2, fun v L a b =>
      pairOf (a.psn || b.psn || (v.g.reg L o.d.val).psn)
        (a.val.toNat + b.val.toNat + (v.g.reg L o.d.val).val.toNat % 2)⟩
  | .imadw z o => some ⟨o.d.val, 4, fun v L a b =>
      pairOf (a.psn || b.psn || (v.g.pairAt L o.d.val).1)
        (extOf z a.val * extOf z b.val + (v.g.pairAt L o.d.val).2)⟩
  | .iadd64 o => some ⟨o.d.val, 3, fun v L _ _ =>
      let a := v.g.pairAt (v.src o.ap.val L) o.ar.val
      let b := v.g.pairAt L o.br.val
      pairOf (a.1 || b.1) (a.2 + b.2)⟩
  | .isub64 o => some ⟨o.d.val, 3, fun v L _ _ =>
      let a := v.g.pairAt (v.src o.ap.val L) o.ar.val
      let b := v.g.pairAt L o.br.val
      pairOf (a.1 || b.1) (a.2 - b.2)⟩
  | .shl64 o => some ⟨o.d.val, 3, fun v L _ b =>
      let a := v.g.pairAt (v.src o.ap.val L) o.ar.val
      pairOf (a.1 || b.psn) (if 64 ≤ b.val.toNat then 0 else a.2 * 2 ^ b.val.toNat)⟩
  | .shr64 z o => some ⟨o.d.val, 3, fun v L _ b =>
      let a := v.g.pairAt (v.src o.ap.val L) o.ar.val
      pairOf (a.1 || b.psn) (match z with
        | .zx => if 64 ≤ b.val.toNat then 0 else a.2 / 2 ^ b.val.toNat
        | .sx => signExt 64 a.2 / 2 ^ min b.val.toNat 63)⟩
  | .funpack o => some ⟨o.d.val, 4, fun _ _ a _ =>
      (PWord.map1 (fun w => toF32 (bf w 0)) a, PWord.map1 (fun w => toF32 (bf w 1)) a)⟩
  | _ => none

/-- The effect of a word with a result pair whose registers are no queues. -/
def PairRule.effect (w : PairRule) (i : Instr) (s : State) (v : View) : State :=
  let f := fun L => w.val v L (v.source (Instr.srcA i) L) (v.source (Instr.srcB i) L)
  (s.receive v (v.results s.now w.d w.lat fun L => (f L).1)).receive v
    (v.results s.now (w.d + 1) w.lat fun L => (f L).2)

/-- Destination predicate, latency, and the value and poison bit that a lane receives from its operands A and B. -/
structure PredRule where
  p : Nat
  lat : Nat
  val : View → Nat → PWord → PWord → Bool × Bool

/-- A combination of the lane's own predicates; poison in a source makes the result poisoned and false (R106). -/
def predRule2 (pd pa pb : Pred) (f : Bool → Bool → Bool) : Option PredRule :=
  some ⟨pd.val, 2, fun v L _ _ =>
    let t := v.g.thread L
    let bad := t.predBad pa.val || t.predBad pb.val
    (!bad && f (t.pred pa.val) (t.pred pb.val), bad)⟩

/-- A vote over the enabled lanes' predicate: every enabled lane receives one value (R147, R148). -/
def voteRule (pd pa : Pred) (f : List Bool → Bool) : Option PredRule :=
  some ⟨pd.val, 4, fun v _ _ _ =>
    let bad := v.lanes.any fun L => (v.g.thread L).predBad pa.val
    (!bad && f (v.lanes.map fun L => (v.g.thread L).pred pa.val), bad)⟩

/-- The words with a predicate result. -/
def predRule : Instr → Option PredRule
  | .isetp z c o => some ⟨o.pd.val, 2, fun _ _ a b =>
      (!(a.psn || b.psn) && intCond c (extOf z a.val) (extOf z b.val), a.psn || b.psn)⟩
  | .fsetp c o => some ⟨o.pd.val, 2, fun _ _ a b =>
      (!(a.psn || b.psn) && floatCond c (f32 a.val) (f32 b.val), a.psn || b.psn)⟩
  | .pand o => predRule2 o.pd o.pa o.pb fun a b => a && b
  | .por o => predRule2 o.pd o.pa o.pb fun a b => a || b
  | .pxor o => predRule2 o.pd o.pa o.pb fun a b => a != b
  | .pnot pd pa => predRule2 pd pa pa fun a _ => !a
  | .vote .all pd pa => voteRule pd pa fun ps => ps.all id
  | .vote .any pd pa => voteRule pd pa fun ps => ps.any id
  | .vote .uni pd pa => voteRule pd pa fun ps => ps.all id || !ps.any id
  | _ => none

/-- Predicate results for the enabled lanes. -/
def View.predResults (v : View) (now p n : Nat) (f : Nat → Bool × Bool) : List Result :=
  v.lanes.map fun L => { due := some (now + n), target := .pred L p, val := ⟨if (f L).1 then 1 else 0, (f L).2⟩ }

/-- The effect of a word with a predicate result whose sources are no queues; a write of p0 is discarded (R55). -/
def PredRule.effect (w : PredRule) (i : Instr) (s : State) (v : View) : State :=
  if w.p = 0 then s
  else s.receive v (v.predResults s.now w.p w.lat fun L => w.val v L (v.source (Instr.srcA i) L) (v.source (Instr.srcB i) L))

/-- Destination, latency, and what lane L receives from the operands of all lanes. -/
structure CrossRule where
  d : Nat
  lat : Nat
  val : View → Lanes → Lanes → Lanes

/-- One value made of the enabled lanes' operands for all of them, poisoned if any is (R147). -/
def reduceRule (d : Reg) (f : List Word → Word) : Option CrossRule :=
  some ⟨d.val, 10, fun v a _ _ =>
    if v.lanes.any fun L => (a L).psn then PWord.poison else PWord.ok (f (v.lanes.map fun L => (a L).val))⟩

/-- The enabled lanes up to lane L, or below it. -/
def View.upToLane (v : View) (excl : Bool) (L : Nat) : List Nat := v.lanes.filter fun J => J < L || (!excl && J == L)

/-- The words that combine lanes (06_float.md R146 to R153). -/
def crossRule : Instr → Option CrossRule
  | .voteBallot d pa => some ⟨d.val, 4, fun v _ _ _ =>
      if v.lanes.any fun L => (v.g.thread L).predBad pa.val then PWord.poison
      else PWord.ok (maskOf fun L => v.on L && (v.g.thread L).pred pa.val)⟩
  | .redux x o => reduceRule o.d (foldFirst (reduxStep x))
  | .fredux x o => reduceRule o.d (foldFirst (freduxStep x))
  | .scan excl x o => some ⟨o.d.val, 10, fun v a _ L =>
      if (v.upToLane excl L).any fun J => (a J).psn then PWord.poison
      else PWord.ok (((v.upToLane excl L).map fun J => (a J).val).foldl (scanStep x) (scanIdent x))⟩
  | .matchLanes o => some ⟨o.d.val, 4, fun v a _ L =>
      if v.lanes.any fun J => (a J).psn then PWord.poison
      else PWord.ok (maskOf fun J => v.on J && (a J).val == (a L).val)⟩
  | .shfl m o => some ⟨o.d.val, 4, fun _ a b L =>
      if (b L).psn || (a (shflLane m L (b L).val.toNat)).psn then PWord.poison else a (shflLane m L (b L).val.toNat)⟩
  | _ => none

/-- The effect of a word that combines lanes whose registers are no queues. -/
def CrossRule.effect (w : CrossRule) (i : Instr) (s : State) (v : View) : State :=
  s.receive v (v.results s.now w.d w.lat (w.val v (v.source (Instr.srcA i)) (v.source (Instr.srcB i))))

/-! Single operands, addresses and posted words. -/

/-- Operand A of a word in the lowest enabled lane is the word w, not poisoned. -/
def View.lowestWord (v : View) (i : Instr) (w : Word) : Prop :=
  ∃ L, v.first = some L ∧ v.source (Instr.srcA i) L = PWord.ok w

/-- Every enabled lane's operand A is clean. -/
def View.cleanA (v : View) (i : Instr) : Prop := ∀ L ∈ v.lanes, (v.source (Instr.srcA i) L).psn = false

/-- n bytes at every enabled lane's address pass the checks of R191, on granules that are free to use. -/
def State.passes (s : State) (v : View) (localOnly : Bool) (n align : Nat) (a : Lanes) : Prop :=
  (∀ L ∈ v.lanes, spadCheck s v localOnly n align (a L) = none) ∧
  ∀ L ∈ v.lanes, s.heldBack v (s.ref v n (a L).val) n = none

/-- Where the enabled lanes' addresses lead, lane by lane. -/
def State.places (s : State) (v : View) (n : Nat) (a : Lanes) : List (Nat × SpadRef) :=
  v.lanes.map fun L => (L, s.ref v n (a L).val)

/-- Every enabled lane's address leads to core c. -/
def State.allOn (s : State) (v : View) (n : Nat) (a : Lanes) (c : Nat) : Prop :=
  ∀ L ∈ v.lanes, (s.ref v n (a L).val).core = c

/-- The L pipe is occupied for n cycles, where some lane is enabled. -/
def State.useL (s : State) (v : View) (n : Nat) : State := if v.lanes.isEmpty then s else s.occupy v.g.core 4 n

/-! Loads, stores and atomics. -/

/-- The address operand of a load or store, lane by lane. -/
def View.address (v : View) (o : OpMem) : Lanes := fun L => v.g.reg L o.ar.val

/-- The place in the scratchpad that lane L's address leads to. -/
def State.place (s : State) (v : View) (n : Nat) (a : Lanes) (L : Nat) : SpadRef := s.ref v n (a L).val

/-- Cycles for which an access at the issuing core holds the L pipe: its register words, or the accesses to its busiest
bank (R79, R194). -/
def State.bankCycles (s : State) (v : View) (o : OpMem) (a : Lanes) : Nat :=
  max (cntWords o.cnt) (bankLoad (v.lanes.flatMap fun L => wordsOf (s.place v o.bytes a L).off o.bytes))

/-- What the scratchpad of the issuing core gives lane L of a load. -/
def State.loaded (s : State) (v : View) (o : OpMem) (a : Lanes) (L : Nat) : List PWord :=
  loadLane o (s.spadWord v.g.core) (s.place v o.bytes a L).off

/-- The writes of lane L of a store: word of the scratchpad, data, and mask. -/
def State.stored (s : State) (v : View) (o : OpMem) (a : Lanes) (L : Nat) : List (Nat × PWord × Word) :=
  storeLane o (v.words o.d.val (cntWords o.cnt) L) (s.place v o.bytes a L).off

/-- The addresses a of the rows of a transposing access pass their checks (R193). -/
def State.rowsPass (s : State) (v : View) (o : OpMem) (a : Lanes) : Prop :=
  v.lanes ≠ [] →
    (∀ r < o.elems, spadCheck s v true (32 * o.fmt.size) (32 * o.fmt.size) (a r) = none) ∧
    ∀ r < o.elems, s.heldBack v (s.place v (32 * o.fmt.size) a r) (32 * o.fmt.size) = none

/-- The byte of the scratchpad where row r of a transposing access holds lane L's element. -/
def State.rowByte (s : State) (v : View) (o : OpMem) (a : Lanes) (L r : Nat) : Nat :=
  (s.place v (32 * o.fmt.size) a r).off + L * o.fmt.size

/-- Cycles for which a transposing access holds the L pipe. -/
def State.rowCycles (s : State) (v : View) (o : OpMem) (a : Lanes) : Nat :=
  max (cntWords o.cnt) (bankLoad ((List.range o.elems).flatMap fun r => v.lanes.flatMap fun L =>
    wordsOf (s.rowByte v o a L r) o.fmt.size))

/-- What lane L's registers receive of its column of the rows. -/
def State.column (s : State) (v : View) (o : OpMem) (a : Lanes) (L : Nat) : List PWord :=
  loadWords o ((if v.lanes = [] then [] else List.range o.elems).map fun r => decodeElem o.fmt o.bit12
    (elemAt (s.spadWord (s.place v (32 * o.fmt.size) a r).core) (s.rowByte v o a L r) o.fmt.size))

/-- The state after each enabled lane has stored the elements of its words as its column of the rows. -/
def State.putColumns (s : State) (v : View) (o : OpMem) (a : Lanes) (ws : Nat → List PWord) (t : State) : State :=
  v.lanes.foldl (fun u L => u.spadWrites v.g.team v.g.core (((List.range o.elems).zip (storeElems o (ws L))).map fun y =>
    elemWrite (s.rowByte v o a L y.1) o.fmt.size y.2)) t

/-- Every enabled lane's tile-store address passes its checks, leads to the place given, and touches no tile in
conversion; the group that a handler serves is resident (R184, R191, R388). -/
def State.framePasses (s : State) (v : View) (o : OpMem) (store : Bool) (a : Lanes) (refs : Nat → TileRef) : Prop :=
  (∀ h, s.served v.g = some h → h.resident = true) ∧
  ∀ L ∈ v.lanes, tileCheck v (s.served v.g) store o.bytes o.align (a L) = none ∧
    tileRef v (s.served v.g) store o.bytes (a L).val.toNat = some (refs L) ∧
    (∀ p, refs L = .own p → v.g.takingAt p o.bytes = none) ∧
    ∀ p h, refs L = .frame p → s.served v.g = some h → h.takingAt p o.bytes = none

/-- Cycles for which a tile-store access holds the L pipe. -/
def View.frameCycles (v : View) (o : OpMem) (refs : Nat → TileRef) : Nat :=
  max (cntWords o.cnt) (bankLoad (v.lanes.flatMap fun L => tileWords o.bytes (refs L)))

/-- What lane L's registers receive of a tile-store access. -/
def State.frameLoad (s : State) (v : View) (o : OpMem) (r : TileRef) : List PWord :=
  let m := s.tileStore v ((s.served v.g).getD v.g) r
  loadLane o m.1 m.2

/-- The state after each enabled lane has stored its words in a frame: results of its own group, or a handler's writes to
the view of the group it serves. -/
def State.putFrame (s : State) (v : View) (o : OpMem) (refs : Nat → TileRef) (ws : Nat → List PWord) (t : State) : State :=
  v.lanes.foldl (fun u L => match refs L with
    | .own p => u.receive v ((storeLane o (ws L) p).map fun w =>
        { due := some (s.now + 1), target := .word w.1, val := w.2.1, mask := w.2.2 })
    | r => u.modSelf v fun g => (storeLane o (ws L) r.byte).foldl (fun g w =>
        g.viewWrite (s.cyc v.g.core) v ((s.served v.g).getD v.g) r w) g) t

/-- An atomic's step in each enabled lane, ascending, at the issuing core: the old words by lane, and the state after. -/
def State.atomics (s : State) (v : View) (w : Nat) (a : Lanes) (f : State → Nat → Nat → List PWord × State) :
    List (Nat × List PWord) × State :=
  stepLanes (fun t (L : Nat) => f t L (s.place v (4 * w) a L).off) (v.lanes.map fun L => (L, L)) s

/-- Lanes in the busiest bank of an atomic, at least 1 (R196). -/
def State.atomLanes (s : State) (v : View) (w : Nat) (a : Lanes) : Nat :=
  max 1 (bankLanes (v.lanes.map fun L => (L, s.place v (4 * w) a L)))

/-- The lanes act in one pass: a shade's busiest bank holds at most 16 of them (R370). -/
def State.onePass (s : State) (v : View) (w : Nat) (a : Lanes) : Prop :=
  v.g.shade = false ∨ bankLanes (v.lanes.map fun L => (L, s.place v (4 * w) a L)) ≤ 16

/-- The effect of an atomic whose lanes all act at the issuing core, in one pass: the steps, the old words after the
latency, and the L pipe (R79, R196). -/
def State.atomEffect (s : State) (v : View) (d w : Nat) (a : Lanes) (f : State → Nat → Nat → List PWord × State) : State :=
  let r := s.atomics v w a f
  let p := s.atomLanes v w a
  (r.2.receive v (loadResults v d w (fun _ => some (s.now + 14 + 2 * (p - 1))) (fun _ => 0)
    fun L => ((r.1.find? (·.1 == L)).map (·.2)).getD [])).useL v (2 * p)

/-- The effect of a shade's atomic in two passes (R370): the first lanes act at once, the others are left to a second pass
with its own cycles and latency. -/
def State.atomInPasses (s : State) (v : View) (d w : Nat) (a : Lanes) (f : State → Nat → Nat → List PWord × State)
    (op : List (Nat × SpadRef) → RemoteOp) : State :=
  let ps := Machine.passes (s.places v (4 * w) a)
  let r := stepLanes (fun t (x : Nat × SpadRef) => f t x.1 x.2.off) (ps.1.map fun x => (x.1, x)) s
  let p := max 1 (bankLanes ps.1)
  let q := bankLanes ps.2
  let later := fun L => ps.2.any (·.1 == L)
  (((if ps.2.isEmpty then r.2 else r.2.sendPass v (op ps.2) (2 * q) (12 + 2 * q)).receive v
    (loadResults v d w (fun L => if later L then none else some (s.now + 14 + 2 * (p - 1)))
      (fun L => if later L then s.nextId else 0) fun L => ((r.1.find? (·.1 == L)).map (·.2)).getD [])).useL v (2 * p))

/-! Posted commands and the matrix engine. -/

/-- The copy commands (Table 9-1): code, words after word 0, operands. -/
def cmdRule : Instr → Option (Nat × Nat × OpQ)
  | .copy o => some (1, 6, o)
  | .copyl o => some (2, 7, o)
  | .gath o => some (3, 7, o)
  | .scat o => some (4, 7, o)
  | .bgath o => some (5, 7, o)
  | .bscat o => some (6, 7, o)
  | .mcast o => some (7, 6, o)
  | .cfence o => some (8, 0, o)
  | .atomc o => some (9, 5, o)
  | .redc o => some (10, 6, o)
  | .fill o => some (11, 5, o)
  | .waitc o => some (12, 2, o)
  | .signal o => some (13, 3, o)
  | .txload o => some (14, 4, o)
  | .txrun o => some (15, 7, o)
  | .pref o => some (16, 3, o)
  | _ => none

/-- The words that lane L posts: its registers from AR on, with the command's code in bits 31 to 24 of the first. -/
def View.command (v : View) (cmd n : Nat) (o : OpQ) (L : Nat) : List PWord :=
  let first := v.g.reg L o.ar.val
  ⟨BitVec.ofNat 8 cmd ++ first.val.truncate 24, first.psn⟩ :: (List.range n).map fun i => v.g.reg L (o.ar.val + (i + 1))

/-- The binding of queue register q: code / 32 is 0 for none, 1 for a command queue (Table 4-3). -/
def View.bound (v : View) (q : Nat) : Byte := v.g.binding (28 + q)

/-- A command queue bound to a register has tokens, and room for n words (R96, R198, R447). -/
def State.takes (s : State) (v : View) (q n : Nat) : Prop :=
  (v.bound q).toNat / 32 = 1 ∧ 0 < (s.bucket v.g.ctx (dieOf v.g.core)).level ∧
    n ≤ s.commandRoom v.g.ctx v.g.core ((v.bound q).toNat % 4)

/-- The issuing group holds one push more. -/
def State.hold (s : State) (v : View) (p : Push) : State := s.modSelf v fun g => { g with pushes := g.pushes ++ [p] }

/-- The matrix words: shape (0 for k16, 1 for k8, 2 for MMAS), operands, and the counter that `.sig` names. -/
def mmaRule : Instr → Option (Nat × OpT × Option Nat)
  | .mmaK16 o => some (0, o, none)
  | .mmaK8 o => some (1, o, none)
  | .mmas o => some (2, o, none)
  | .mmaSig k8 o dep => some (if k8 then 1 else 0, o, some dep.val)
  | .mmasSig o dep => some (2, o, some dep.val)
  | _ => none

/-- What an MMA word needs (R296): lanes, a tile that the engine holds, and format slots of the shape's register format
and of the tile's class and quantum; scale memory that the context owns, without transfer, where a slot has scales; and
metadata in order. -/
structure MmaReady (s : State) (v : View) (shape : Nat) (o : OpT) (a b : FmtSlot) : Prop where
  lanes : v.lanes ≠ []
  tile : o.t.val < v.g.accn
  engine : (v.g.tile o.t.val).st = .engine
  slotA : v.g.slots.getD (2 * o.fs.val) none = some a
  slotB : v.g.slots.getD (2 * o.fs.val + 1) none = some b
  format : slotRfmt a.word = (if shape = 1 then 0 else 1) ∧ slotRfmt b.word = if shape = 1 then 0 else 1
  width : slotWide a.word = (v.g.tile o.t.val).wide ∧ slotWide b.word = (v.g.tile o.t.val).wide
  quantum : slotQ a.word + slotQ b.word = (v.g.tile o.t.val).q
  scales : slotBlk a.word ≠ 0 ∨ slotBlk b.word ≠ 0 →
    v.g.shade = false ∧ (s.scaleMem v.g.core).owner = some v.g.ctx ∧ (s.scaleMem v.g.core).xfers = []
  ordered : shape = 2 → ∀ L ∈ v.lanes, metaBad (v.g.reg L (o.ar.val + 8)) = none

/-- The products that an MMA word gives the engine: the rows of the enabled lanes, the columns of all (R297). -/
def State.mmaWork (s : State) (v : View) (shape : Nat) (o : OpT) (a b : FmtSlot) (sig : Option Nat) : MKind :=
  let scale := (s.scaleMem v.g.core).byte
  .mma (v.lanes.map fun L => (L, rowA v scale shape a L o.ar.val)) (allLanes.map fun L => colB v scale shape b L o.br.val) sig

/-- A tile after the token has passed to the engine under a mode word. -/
def View.handed (v : View) (t : Nat) (w : Word) : TileInfo :=
  { v.g.tile t with st := .engine, wide := modeWide w, q := modeQ w, ginex := false, gsat := false }

/-- The registers from r on of the lowest enabled lane hold the words ws, none poisoned. -/
def View.operandsAt (v : View) (r : Nat) (ws : List Word) : Prop :=
  ∃ L, v.first = some L ∧ (List.range ws.length).map (fun i => v.g.reg L (r + i)) = ws.map PWord.ok

/-- Bytes from the start of a stored tile to the end of its last element (R302). -/
def View.tileBytes (v : View) (o : OpAst) (sw : Word) : Nat :=
  (storePlan v o.t.val sw o).foldl (fun m x => max m (x.1 + 1)) 0 * storeSize sw

/-! Control and waiting. -/

/-- Each enabled lane's packet takes a control transfer, performed after its last unit (R59). -/
def State.take (s : State) (v : View) (f : Nat → Transfer) : State :=
  s.modSelf v fun g => g.modLanes v.en fun L t => { t with transfer := some (f L) }

/-- A branch target inside the code, on a packet boundary. -/
def View.target (v : View) (n : Nat) : Prop := n % 3 = 0 ∧ n < v.g.code.words

/-- The group may act as an acquire: it has not just moved (R181). -/
def View.acquires (v : View) : Prop := v.g.acqHold = []

/-- The group may act as a release: its remote stores and atomics have been performed (R275). -/
def View.releases (v : View) : Prop := v.g.remote = 0

/-- Every thread of the group that has not exited is enabled. -/
def View.whole (v : View) : Prop := ∀ L < 32, (v.g.thread L).st ≠ .exited → v.on L = true

/-- Where a lane's pair of registers is clean, its 64-bit value. -/
def View.pairClean (v : View) (r : Nat) : Prop := ∀ L ∈ v.lanes, (v.g.pairAt L r).1 = false

/-- Every enabled lane's object address passes its checks, and leads to the issuing core, to which no access of the group is on
its way (R186, R191, R238). -/
def State.objectsHere (s : State) (v : View) (o : OpM) (n : Nat) : Prop :=
  o.ar.val < 28 ∧ s.passes v false n 16 (v.source (some (o.ap.val, o.ar.val))) ∧
    s.allOn v n (v.source (some (o.ap.val, o.ar.val))) v.g.core ∧ s.reaching v.o.gid [v.g.core] = false

/-- The byte offset of lane L's object on its core. -/
def State.objectOff (s : State) (v : View) (o : OpM) (n : Nat) (L : Nat) : Nat :=
  (s.place v n (v.source (some (o.ap.val, o.ar.val))) L).off

/-- No enabled lane's object at the issuing core is poisoned. -/
def State.objectsGood (s : State) (v : View) (o : OpM) : Prop :=
  ∀ L ∈ v.lanes, wordsPsn (s.object v.g.core (s.objectOff v o 16 L)) = false

/-- The enabled lanes' steps at objects of the issuing core, ascending. -/
def State.objectSteps (s : State) (v : View) (o : OpM) (n : Nat) (act : Nat → ObjAct) : State :=
  v.lanes.foldl (fun t L => objStep t v.g.team v.g.core (s.objectOff v o n L) (act L)) s

/-- Steps at objects of which some are reached later (R238): those of the lanes before the first such one happen, unless
poison may stop the word; the others are sent. -/
def State.objectsAway (s : State) (v : View) (rs : List (Nat × SpadRef)) (check spends : Bool) (act : Nat → ObjAct) : State :=
  let near := if check || s.reaching v.o.gid [v.g.core] then [] else rs.takeWhile fun r => r.2.core == v.g.core
  let t := near.foldl (fun t r => objStep t v.g.team r.2.core r.2.off (act r.1)) s
  (if spends then t.spend v.g.team else t).sendObjects v check
    ((rs.drop near.length).map fun r => (r.1, r.2.core, r.2.off, act r.1))

/-- Register d of every enabled lane is clean. -/
def View.cleanReg (v : View) (d : Nat) : Prop := ∀ L ∈ v.lanes, (v.g.reg L d).psn = false

/-! Groups that wait. -/

/-- Of the listed groups that pass the test, (gid, g) is the one with the least `since`; on a tie it has the lowest group
number, and on a tie of both it stands first in the list (R159, R160). -/
def waitsLongest (ps : List (Nat × Group)) (test : Nat × Group → Bool) (gid : Nat) (g : Group) : Prop :=
  test (gid, g) = true ∧ ∃ before after, ps = before ++ (gid, g) :: after ∧
    (∀ p ∈ before, test p = true → g.since < p.2.since ∨ g.since = p.2.since ∧ g.num < p.2.num) ∧
    ∀ p ∈ after, test p = true → g.since < p.2.since ∨ g.since = p.2.since ∧ g.num ≤ p.2.num

/-- A group of a core or its shade bank that waits for a frame: Parked and woken, or Trapped with a handler waiting for
its view (R160, R388). -/
def State.wantsFrame (s : State) (core : Nat) (shade : Bool) (p : Nat × Group) : Bool :=
  p.2.core == core && p.2.shade == shade && !p.2.resident && !p.2.saved &&
    ((p.2.st == .parked && p.2.woken) || (p.2.st == .trapped && s.groups.any fun q => q.2.wait == .view p.1))

/-- A principal group of a core that keeps its frame while it waits: Waiting, or Trapped since it entered Waiting. -/
def parksNext (core : Nat) (p : Nat × Group) : Bool :=
  p.2.core == core && !p.2.shade &&
    (p.2.st == .waiting || (p.2.st == .trapped && p.2.resident && !p.2.saved && p.2.wait != .none))

/-- Memory is in canonical form: addresses strictly rising, no byte listed that is 0. -/
def Memory.wf (m : List Host.Cell) : Bool := canonical 0 m

/-- Device memory, host memory and the scratchpads are in canonical form. -/
def State.memoryOk (s : State) : Bool := Memory.wf s.mem && Memory.wf s.host && canonical PWord.zero s.spad

end Sys2Proof.Machine
end

