-- ==== Sys2Proof/Certificates/Slice0/Obligations.lean ====
section
/-! DEFINITION. The statements for the provers. Completion is said with `Completes` (Safety.lean): wherever the word is
issued and the condition holds, exec answers the next state given, and nothing else of the machine changes. -/

open Sys2Proof Sys2Proof.Machine

/-! The machine as a whole. -/

/-- Encoding and decoding agree: the decoder reads the words of every encodable well-formed instruction, whatever
words follow them, as that instruction with its C, S and G; and a word that decodes to an instruction is that
instruction's encoding, so that every field the instruction does not use is 0 (R67). -/
def Obligations.DecodeEncodeRoundTrip : Prop :=
  (∀ n : Insn, n.op.encoded = true → n.op.wellFormed = true → ∀ x y : Nat,
    decodeInsn n.word ((n.op.tailWords ++ [x, y]).getD 0 0) ((n.op.tailWords ++ [x, y]).getD 1 0) = .ok n) ∧
  ∀ (w x y : Nat) (n : Insn), w < 2 ^ 32 → decodeInsn w x y = .ok n →
    n.word = w ∧ n.op.wellFormed = true ∧ n.op.tailWords = [x, y].take n.op.tailWords.length

/-- Every step keeps device memory, host memory and the scratchpads in canonical form: addresses strictly rising, and
nothing listed that is what an unlisted place reads as. -/
def Obligations.StepsKeepMemoryCanonical : Prop :=
  ∀ s t : State, s.memoryOk = true → step s = .next t → t.memoryOk = true

/-- Words that the spec writes out decode to the instructions it gives them, and the words of R68 are illegal. -/
def Obligations.WordsOfTheSpecDecode : Prop :=
  decodeTableWord 32 0x01238381 = some (.iaddImm ⟨7, 0, 7, 1⟩) ∧
  decodeTableWord 32 0x00FAA106 = some (.isetp .zx .lt ⟨5, 2, 0, 6⟩) ∧
  decodeTableWord 32 0x022380A2 = some (.fpack .ef ⟨7, 0, 1, 2⟩) ∧
  decodeTableWord 32 0x025301BC = some (.fcvtE4m3F32 ⟨6, 0, 3, true, .rne⟩) ∧
  decodeTableWord 32 0x0284019D = some (.lds ⟨8, .rne, false, 3, .e4m3, 2, true⟩) ∧
  decodeTableWord 32 0x07401C0A = some (.copy ⟨0, 10⟩) ∧
  decodeTableWord 32 0x0362104C = some (.mmas ⟨2, 1, 0, 12⟩) ∧
  decodeTableWord 32 0x03A00498 = some (.join 9) ∧
  decodeTableWord 32 0x03CB8000 = some (.fence .sc .device) ∧
  decodeTableWord 32 0x03D20503 = some (.refl 4 10 .sz64) ∧
  decodeTableWord 32 0x03E30390 = some (.launch ⟨6, 0, 7⟩) ∧
  decodeTableWord 32 0x03E405B0 = some (.srd 8 11) ∧
  decodeTableWord 32 0x03E203D8 = some (.pclrReg ⟨4, 0, 7⟩) ∧
  decodeTableWord 32 0x00000000 = none ∧ decodeTableWord 32 0x01700000 = none ∧ decodeTableWord 32 0x02700000 = none ∧
  decodeTableWord 32 0x03F00000 = none

/-- What a step does: the next outside event; else the first event that is due; else one of the possible actions, or,
where there is none or none of them is chosen, the issue of the next core that can issue; else a cycle passes. Each
runs exec of its instruction, and what follows at once; which action is chosen, or that none is, is left open. The order
of these kinds of step is the model's choice (assumption logs 1 and 2). -/
def Obligations.StepRunsWhatComesNext : Prop :=
  (∀ (s : State) i rest, s.inputs = i :: rest → step s = settled (exec i { s with inputs := rest })) ∧
  ∀ (s : State), s.inputs = [] →
    (∀ i, s.prompt = some i → step s = settled (exec i s)) ∧
    (s.prompt = none →
      (∀ i, act s (.event i) = exec i s) ∧
      ((∃ a ∈ s.actions, step s = settled (act { s with free := s.free + 1 } a)) ∨
        let s1 : State := { s with free := s.free + (if s.actions = [] then 0 else 1) }
        (∀ c, s1.nextCore = some c → step s = settled (s1.issueOn c)) ∧
        (s1.nextCore = none → step s = .next { s1 with now := s1.now + 1, turn := 0 }.settle)))

/-- Issue runs the decoded instruction: where the packet at the group's place decodes and its next unit is one word x,
the unit is exec of x's instruction with the word as the one being issued, and, where it has taken effect, the end
of the unit; a word that makes a release acts once the group's accesses under way have been performed. A unit of several
words runs them in word order, each on what the one before has left; the lowest word that traps or stalls in the state before
the unit decides what becomes of the unit, and no other word of it takes effect (R57, R76, R387). A packet with
an illegal word is the illegal-packet event at that word (R56, R58, R75). The core's offer of its slot keeps what the
unit has done to groups, memory and scratchpad. The model's choices in it: a packet has started at its first unit's first attempt,
stalled or not, and the accesses under way are performed with the releasing word (assumption log 9); words come
from the core's instruction cache (log 10). -/
def Obligations.IssueRunsTheDecodedWord : Prop :=
  (∀ (s : State) gid (g : Group) (r : List (Nat × Insn)) (x : Nat × Insn),
    let t := s.turnOf g
    t.k < g.code.words →
    decodePacket (s.codeWord g.core g.code t.k) (s.codeWord g.core g.code (t.k + 1)) (s.codeWord g.core g.code (t.k + 2)) = .ok r →
    takeUnit (r.dropWhile fun y => y.1 < t.start) = [x] →
    let s1 := s.setGroup gid (g.begin t)
    let s2 := if Instr.releasing x.2.op then s1.performAll gid else s1
    let at_ := fun (r : State) => { r with cur := some (r.reading (issueOf g gid t false x) x.2.op), signal := .issued }
    ∀ u w, exec x.2.op (at_ s1) = .next u → exec x.2.op (at_ s2) = .next w →
      (u.signal ≠ .issued → s.issueUnit gid g = .next u) ∧
      (u.signal = .issued → w.signal = .issued → s.issueUnit gid g = .next (w.unitDone gid g.core [x]))) ∧
  (∀ (s : State) gid (g : Group) (r : List (Nat × Insn)),
    let t := s.turnOf g
    t.k < g.code.words →
    decodePacket (s.codeWord g.core g.code t.k) (s.codeWord g.core g.code (t.k + 1)) (s.codeWord g.core g.code (t.k + 2)) = .ok r →
    let ws := takeUnit (r.dropWhile fun y => y.1 < t.start)
    let is := issuesOf g gid t false ws
    let s1 := s.setGroup gid (g.begin t)
    (is.map (·.2) = ws.map (·.2.op)) ∧
    (∀ ts : List State, ts.length = is.length + 1 → ts[0]? = some s1 →
      (∀ (k : Nat) x a b, is[k]? = some x → ts[k]? = some a → ts[k + 1]? = some b →
        (∃ u, execWord s1 x = .next u ∧ u.signal = .issued) ∧
        execWord (if Instr.releasing x.2 then a.performAll gid else a) x = .next b ∧ b.signal = .issued) →
      ∀ b, ts[is.length]? = some b → s.issueUnit gid g = .next (b.unitDone gid g.core ws)) ∧
    ∀ (n : Nat) x u, is[n]? = some x → (∀ k < n, ∀ y, is[k]? = some y → ∃ v, execWord s1 y = .next v ∧ v.signal = .issued) →
      execWord s1 x = .next u → u.signal ≠ .issued → s.issueUnit gid g = .next u) ∧
  (∀ (s : State) gid (g : Group) p e,
    let t := s.turnOf g
    t.k < g.code.words →
    decodePacket (s.codeWord g.core g.code t.k) (s.codeWord g.core g.code (t.k + 1)) (s.codeWord g.core g.code (t.k + 2)) = .error (p, e) →
    ∃ o : Issue, o.gid = gid ∧ o.act = t.act ∧ o.k = t.k ∧ s.issueUnit gid g = exec (.illegalPacket (Fin.ofNat 3 p))
      { s.setGroup gid (g.begin t) with cur := some o, signal := .issued }) ∧
  ∀ (s : State) core gid g k u, s.pickGroup core = some (gid, g, k) → s.issueUnit gid g = .next u →
    ∃ t, s.issueOn core = .next t ∧ t.cur = none ∧ t.groups = u.groups ∧ t.mem = u.mem ∧ t.spad = u.spad

/-- The packet that a group starts (R165): among the program counters of its ready threads the oldest whose age is 64
or more, the lowest on a tie, else the lowest; the active set is the ready threads there; a thread that starts a
packet has wait count 0, every other ready thread one more, and a thread that becomes ready 0. -/
def Obligations.SchedulerPicksThePacket : Prop :=
  ∀ (g : Group), g.unit = none → g.threads.length = 32 →
    let ready := fun L => L < 32 ∧ (g.thread L).st = .ready
    let p := g.pickPc
    (∃ L, ready L) →
    (∃ L, ready L ∧ (g.thread L).pc = p) ∧
    (∀ pc L, ready L → (g.thread L).pc = pc → (∀ J, ready J → (g.thread J).pc = pc → (g.thread J).waitCount ≤ (g.thread L).waitCount) →
      g.age pc = (g.thread L).waitCount) ∧
    ((∃ L, ready L ∧ 64 ≤ g.age (g.thread L).pc) → 64 ≤ g.age p ∧ ∀ L, ready L →
      g.age (g.thread L).pc < g.age p ∨ (g.age (g.thread L).pc = g.age p ∧ p ≤ (g.thread L).pc)) ∧
    ((∀ L, ready L → g.age (g.thread L).pc < 64) → ∀ L, ready L → p ≤ (g.thread L).pc) ∧
    g.place.1 = p ∧ (∀ L < 32, g.place.2.1.getLsbD L = true ↔ ready L ∧ (g.thread L).pc = p) ∧
    ∀ t : Turn, t.act = g.place.2.1 → t.fresh = true → ∀ L, ready L → ((g.begin t).thread L).waitCount =
      (if (g.thread L).pc = p then 0 else (g.thread L).waitCount + 1) ∧ (g.thread L).wakeUp.waitCount = 0

/-- Right after reset the registers that the spec gives reset values hold them: the register blocks of the queues and
the link status read 0, and a context's bucket is full. That cores count cycles from 0 is the model's choice (assumption logs 4
and 8), and so it is that memory, scratchpad, host memory, groups, contexts and error logs hold nothing (log 4). -/
def Obligations.ResetState : Prop :=
  (∀ q off, State.reset.readBlock q off = 0) ∧ (∀ l, (State.reset.link l).status = 0) ∧
  (∀ ctx die, (State.reset.bucket ctx die).level = 2 ^ 20 ∧ (State.reset.bucket ctx die).size = 2 ^ 20 ∧
    (State.reset.bucket ctx die).rate = 4096) ∧
  (∀ c, State.reset.cyc c = 0) ∧ (∀ stack off, State.reset.homeByte stack off = 0) ∧
  (∀ c w, State.reset.spadWord c w = PWord.zero) ∧ State.reset.groups = [] ∧ State.reset.ctxs = [] ∧
  State.reset.errlog = [] ∧ State.reset.memoryOk = true

/-- No instruction word changes device memory or host memory, or their poison, when it is executed, but RSEQ.acq,
whose acquire writes near copies home, and LAUNCH: a thread's accesses reach registers, scratchpad and tile store
only (R21). -/
def Obligations.WordsLeaveMemoryUnchanged : Prop :=
  ∀ i, i.encoded = true → (∀ x, i ≠ .rseq true x) → (∀ x, i ≠ .launch x) → ∀ s t, exec i s = .next t →
    t.mem = s.mem ∧ t.memPsn = s.memPsn ∧ t.homes = s.homes ∧ t.host = s.host ∧ t.hostPsn = s.hostPsn ∧
      ∀ stack off, t.homeByte stack off = s.homeByte stack off ∧ t.sectorPsn stack off = s.sectorPsn stack off

/-- The frame of the words with a register or predicate result: at issue they change no scratchpad, context, loan,
work queue, reflection, command, matrix work or scale memory; where they take effect, no other group, and of their
own group no register, predicate, thread, pattern, binding, format slot or tile; results land later. -/
def Obligations.RegisterWordsFrame : Prop :=
  ∀ i, (intRule i ≠ none ∨ floatRule i ≠ none ∨ pairRule i ≠ none ∨ predRule i ≠ none ∨ crossRule i ≠ none) →
    ∀ s t o g, s.cur = some o → lookup o.gid s.groups = some g → exec i s = .next t →
      t.spad = s.spad ∧ t.ctxs = s.ctxs ∧ t.loans = s.loans ∧ t.queues = s.queues ∧ t.refls = s.refls ∧ t.cmds = s.cmds ∧
      t.mwork = s.mwork ∧ t.scales = s.scales ∧
      (t.signal = .issued → (∀ gid, gid ≠ o.gid → lookup gid t.groups = lookup gid s.groups) ∧
        ∃ h, lookup o.gid t.groups = some h ∧ h.frame = g.frame ∧ h.threads = g.threads ∧ h.ptab = g.ptab ∧
          h.qbind = g.qbind ∧ h.slots = g.slots ∧ h.tiles = g.tiles ∧ h.st = g.st ∧ h.code = g.code)

/-- The frame of scratchpad stores and atomics: they change no byte of any scratchpad but the bytes at the enabled
lanes' addresses that lead to the issuing core (for STT, the lanes' columns of the rows), no word without such a
byte, and no frame of any group. -/
def Obligations.StoresWriteOnlyTheirBytes : Prop :=
  ∀ s t o g, s.cur = some o → lookup o.gid s.groups = some g →
    let v : View := ⟨o, g⟩
    let addr := fun r : Reg => match s.operand v 0 r.val with
      | .ok (a, _) => a
      | .error _ => fun _ => PWord.zero
    let only := fun touched : Nat → Nat → Prop =>
      (∀ c b, ¬ touched c b → t.spadByte c b = s.spadByte c b) ∧
      (∀ c w, (∀ b, b / 4 = w → ¬ touched c b) → t.spadWord c w = s.spadWord c w) ∧
      ∀ gid h, lookup gid t.groups = some h → ∃ h0, lookup gid s.groups = some h0 ∧ h.frame = h0.frame
    let at_ := fun (a : Lanes) (n c b : Nat) => c = g.core ∧ ∃ L ∈ v.lanes,
      (s.ref v n (a L).val).core = c ∧ (s.ref v n (a L).val).off ≤ b ∧ b < (s.ref v n (a L).val).off + n
    (∀ x : OpMem, exec (.sts x) s = .next t ∨ exec (.stx x) s = .next t → only (at_ (addr x.ar) x.bytes)) ∧
    (∀ x : OpMem, exec (.stt x) s = .next t → only fun c b => c = g.core ∧ ∃ L ∈ v.lanes, ∃ r < x.elems,
      let p := (s.ref v (32 * x.fmt.size) (addr x.ar r).val).off + L * x.fmt.size
      p ≤ b ∧ b < p + x.fmt.size) ∧
    (∀ x : OpAtom, x.ar.val < 28 → exec (.atoms x) s = .next t ∨ exec (.atomx x) s = .next t →
      only (at_ (fun L => g.reg L x.ar.val) (4 * x.ty.words))) ∧
    ∀ x : OpCas, x.ar.val < 28 → exec (.cass x) s = .next t ∨ exec (.casx x) s = .next t →
      only (at_ (fun L => g.reg L x.ar.val) (4 * x.ty.words))

/-! Words that compute in registers (04_register_space.md, 05_integer.md, 06_float.md). -/

/-- Integer and floating-point words with one result register (05_integer.md, 06_float.md): each enabled lane receives
the value of the rule, after the latency of Table 3-10; poison in an operand makes the result poisoned (R106). -/
def Obligations.IntegerAndFloatWordResults : Prop :=
  ∀ i w, (intRule i = some w ∨ floatRule i = some w) → w.d < 28 → Instr.plainSources i →
    Completes i (fun _ _ => True) (w.effect i)

/-- Words with a result pair: 64-bit arithmetic, IADDC, IMADW and FUNPACK. Compares, predicate combinations and votes:
each enabled lane receives a predicate, false where it is poisoned, and a write of p0 is discarded. Words that
combine lanes: ballot, reductions, scans, MATCH and SHFL (R146 to R153). -/
def Obligations.PairPredicateAndCrossLaneResults : Prop :=
  (∀ i w, pairRule i = some w → w.d < 27 → Instr.plainSources i → Completes i (fun _ _ => True) (w.effect i)) ∧
  (∀ i w, predRule i = some w → Instr.plainSources i → Completes i (fun _ _ => True) (w.effect i)) ∧
  (∀ i w, crossRule i = some w → w.d < 28 → Instr.plainSources i → Completes i (fun _ _ => True) (w.effect i))

/-- Every form of an integer or float word with one result: queue registers among its sources are popped, A first, for
4 cycles more (R79, R96); a queue register as destination is pushed to; a stop takes its trap or wait. -/
def Obligations.WordsInEveryForm : Prop :=
  ∀ i w, (intRule i = some w ∨ floatRule i = some w) →
    ∀ s o g, Issues s o g → exec i s = .next (s.wordDone o (w.anyForm i s ⟨o, g⟩))

/-- A source that names a queue register: with no enabled lane nothing is popped; bound to a status queue that holds
enough words, the enabled lanes receive the oldest words in ascending order through the pattern; with too few the
word waits; bound to nothing, a command queue or a host ring, it takes the queue-binding trap (R96, R97, R100). A
result for a queue register bound to a command queue: where the token bucket is above 0 and the queue has room for
a word of each enabled lane, the words are held as one push, due when the result is; without room the word waits;
bound to nothing or to a status queue, it takes the queue-binding trap (R96, R97, R198, R447). -/
def Obligations.QueueOperands : Prop :=
  (∀ (s : State) (v : View) (e r : Nat), isQueue r = true →
     (v.lanes = [] → s.operand v e r = .ok (fun _ => PWord.zero, s)) ∧
     (v.lanes ≠ [] → (v.g.binding r).toNat / 32 = 2 →
       let q := s.engine (engineKey v.g (v.g.binding r))
       (v.lanes.length ≤ q.status.length → s.operand v e r =
         .ok (fun L => dealt v.lanes ((q.status.take v.lanes.length).map PWord.ok) (v.src e L),
           s.setEngine (engineKey v.g (v.g.binding r)) { q with status := q.status.drop v.lanes.length })) ∧
       (q.status.length < v.lanes.length → s.operand v e r = .error (.stall (.pop (v.g.binding r) v.lanes.length)))) ∧
     (v.lanes ≠ [] → (v.g.binding r).toNat / 32 ≠ 2 → (v.g.binding r).toNat / 32 ≠ 3 →
       s.operand v e r = .error (bindTrap v (v.g.binding r)))) ∧
  (∀ (s : State) (v : View) (r n : Nat) (f : Lanes), isQueue r = true → v.lanes ≠ [] →
     ((v.g.binding r).toNat / 32 = 1 → 0 < (s.bucket v.g.ctx (dieOf v.g.core)).level →
       (v.lanes.length ≤ s.commandRoom v.g.ctx v.g.core ((v.g.binding r).toNat % 4) → s.put v r n f =
         .ok ((s.modSelf v fun g => { g with pushes := g.pushes ++
           [{ code := v.g.binding r, words := v.lanes.map f, due := some (s.now + n), lanes := v.lanes, origin := v.o, seq := s.nextId }] }).occupy
             v.g.core 4 v.lanes.length)) ∧
       (s.commandRoom v.g.ctx v.g.core ((v.g.binding r).toNat % 4) < v.lanes.length →
         s.put v r n f = .error (.stall (.push (v.g.binding r) v.lanes.length)))) ∧
     ((v.g.binding r).toNat / 32 = 1 → (s.bucket v.g.ctx (dieOf v.g.core)).level ≤ 0 →
       s.put v r n f = .error (.stall (.bucket (dieOf v.g.core)))) ∧
     ((v.g.binding r).toNat / 32 = 0 ∨ (v.g.binding r).toNat / 32 = 2 ∨ 5 ≤ (v.g.binding r).toNat / 32 →
       s.put v r n f = .error (bindTrap v (v.g.binding r))))

/-- PAND, POR, PXOR, PNOT, PGET and PSET (R128): the combined predicate, poisoned and false where a source is
poisoned; the predicates as a word whose bit 0 is 1, poisoned if any of p1 to p15 is; p1 to p15 from bits 1 to 15
of a word, all poisoned and false from a poisoned one; p0 is never written. PSET's fifteen results become available
each in its turn behind earlier writes of its predicate, where R128 writes them as a group: the model's choice
(assumption log 9). A queue register that PSET names is popped, for 4 cycles more (R79, R96). -/
def Obligations.PredicateLogic : Prop :=
  (∀ pd pa pb : Pred,
    let gives := fun i (f : Bool → Bool → Bool) => Completes i (fun _ _ => True) fun s v =>
      if pd.val = 0 then s else s.receive v (v.predResults s.now pd.val 2 fun L =>
        let t := v.g.thread L
        let bad := t.predBad pa.val || t.predBad pb.val
        (!bad && f (t.pred pa.val) (t.pred pb.val), bad))
    gives (.pand ⟨pd, pa, pb⟩) and ∧ gives (.por ⟨pd, pa, pb⟩) or ∧ gives (.pxor ⟨pd, pa, pb⟩) xor ∧
      (pa = pb → gives (.pnot pd pa) fun a _ => !a)) ∧
  (∀ d : Reg, d.val < 28 → Completes (.pget d) (fun _ _ => True) fun s v => s.receive v (v.results s.now d.val 2 fun L =>
    let t := v.g.thread L
    if (List.range 16).any fun k => t.predBad k then PWord.poison
    else PWord.ok (BitVec.ofNat 32 ((List.range 16).map fun k => if t.pred k then 2 ^ k else 0).sum))) ∧
  ∀ x : OpA,
    let sets := fun (v : View) (lat : Nat) (a : Lanes) (s : State) =>
      (List.range 15).foldl (fun t k => t.receive v (v.predResults t.now (k + 1) lat fun L =>
        (!(a L).psn && (a L).val.getLsbD (k + 1), (a L).psn))) s
    (x.ar.val < 28 → Completes (.pset x) (fun _ _ => True) fun s v => sets v 2 (v.source (Instr.srcA (.pset x))) s) ∧
    (28 ≤ x.ar.val → ∀ s o g, Issues s o g → exec (.pset x) s = .next (s.wordDone o (match s.operand ⟨o, g⟩ x.ap.val x.ar.val with
      | .error e => .error e
      | .ok (a, t) => .ok (sets ⟨o, g⟩ (2 + popDelay ⟨o, g⟩ [x.ar.val]) a t))))

/-- SEL executes in every active thread: its guard field selects A where the predicate is true and B where it is
false, and a poisoned predicate or operand poisons the result (R60, R125). PCHK tests poison without consuming it,
and PCLR clears it: a register keeps its bits, a predicate becomes false (R393). -/
def Obligations.SelectAndPoisonWords : Prop :=
  (∀ (x : OpR) s o g, s.cur = some o → lookup o.gid s.groups = some g → x.d.val < 28 → x.ar.val < 28 → x.br.val < 28 →
     let v : View := ⟨{ o with guard := 0 }, g⟩
     let sel := fun L => PWord.map2 (fun a b => if (g.thread L).pred o.guard.val then a else b)
       (g.reg (v.src x.ap.val L) x.ar.val) (g.reg (v.src x.bp.val L) x.br.val)
     exec (.sel x) s = .next (s.receive v (v.results s.now x.d.val 2 fun L =>
       if (g.thread L).predBad o.guard.val then PWord.poison else sel L)).issued) ∧
  ((∀ (pd : Pred) (x : OpA), pd.val ≠ 0 → x.ar.val < 28 → Completes (.pchkReg pd x) (fun _ _ => True) fun s v =>
     s.receive v (v.predResults s.now pd.val 2 fun L => ((v.source (some (x.ap.val, x.ar.val)) L).psn, false))) ∧
   (∀ pd pa : Pred, pd.val ≠ 0 →
     Completes (.pchkPred pd pa) (fun _ _ => True) (fun s v =>
       s.receive v (v.predResults s.now pd.val 2 fun L => ((v.g.thread L).predBad pa.val, false))) ∧
     Completes (.pclrPred pd pa) (fun _ _ => True) fun s v =>
       s.receive v (v.predResults s.now pd.val 2 fun _ => (false, false))) ∧
   ∀ x : OpM, x.ar.val < 28 → x.d.val < 28 → Completes (.pclrReg x) (fun _ _ => True) fun s v =>
     s.receive v (v.results s.now x.d.val 2 fun L => PWord.ok (v.source (some (x.ap.val, x.ar.val)) L).val))

/-- QBIND in a privileged group (R98): a poisoned value of the lowest enabled lane raises the poison-consumption trap,
a code that breaks Table 4-3 the queue-binding trap; otherwise the binding changes for the words after the unit,
and held pushes stay as they are. With no thread enabled nothing happens, but a group that is not privileged takes
the privilege trap all the same. -/
def Obligations.QbindRebinds : Prop :=
  (∀ c : Byte, bindOk c = true ↔ c.toNat / 32 = 4 ∨ (c.toNat / 32 = 1 ∨ c.toNat / 32 = 2) ∧ c.toNat % 32 < 4 ∨
    (c.toNat / 32 = 0 ∨ c.toNat / 32 = 3) ∧ c.toNat % 32 = 0) ∧
  (∀ (g : Group) n c, g.deferred = [.qbind n c] → g.endUnit = { g with qbind := g.qbind.set n c, deferred := [] }) ∧
  ∀ (n : Fin 4) (x : OpA) s o g, s.cur = some o → lookup o.gid s.groups = some g →
    let v : View := ⟨o, g⟩
    (g.priv = false → exec (.qbind n x) s = .next (s.trapAtIssue o { kind := 5, tmask := v.en })) ∧
    (g.priv = true → v.badGuard = 0 → ∀ a t, s.operand v x.ap.val x.ar.val = .ok (a, t) →
      (v.lanes = [] → exec (.qbind n x) s = .next s.issued) ∧
      ∀ L, v.first = some L →
        ((a L).psn = true → exec (.qbind n x) s = .next (s.trapAtIssue o
          { kind := 2, detail := BitVec.ofNat 32 L, tmask := maskOf (· == L) })) ∧
        ((a L).psn = false →
          let c := (a L).val.truncate 8
          (bindOk c = false → exec (.qbind n x) s = .next (s.trapAtIssue o
            { kind := 3, detail := (v.bound n.val).zeroExtend 32, tmask := v.en })) ∧
          (bindOk c = true → exec (.qbind n x) s = .next (t.defer v [.qbind n.val c]).issued)))

/-- WIN and PTN take effect: a window base that keeps v0 to v27 within the allotment and a pattern entry other than 0
are deferred to the end of the unit (R94, R101). What WIN and PTN have deferred is in force after their unit. WIN
refuses a base whose window leaves the allotment, with the window trap (kind 4) for the failing lanes and the base of
the lowest of them as DETAIL (R94). -/
def Obligations.WindowsAndPatterns : Prop :=
  ((∀ n : Fin 16, Completes (.winImm n) (fun _ v => 8 * n.val + 28 ≤ v.g.regs)
     fun s v => s.defer v (v.lanes.map fun L => .win L n.val)) ∧
   (∀ x : OpA, x.ar.val < 28 → Completes (.winReg x)
     (fun _ v => v.cleanA (.winReg x) ∧ ∀ L ∈ v.lanes, 8 * (v.source (Instr.srcA (.winReg x)) L).val.toNat + 28 ≤ v.g.regs)
     fun s v => s.defer v (v.lanes.map fun L => .win L (v.source (Instr.srcA (.winReg x)) L).val.toNat)) ∧
   (∀ (e : Fin 8) (x : OpA) w, x.ar.val < 28 → Completes (.ptn e x) (fun _ v => v.lowestWord (.ptn e x) w)
     fun s v => if e.val = 0 then s else s.defer v [.ptn e.val (w.truncate 8)])) ∧
  ((∀ (g : Group) L n, L < g.threads.length → g.deferred = [.win L n] →
     (g.endUnit.thread L).wbase = n ∧ g.endUnit.deferred = [] ∧ ∀ J, J ≠ L → g.endUnit.thread J = g.thread J) ∧
   (∀ (g : Group) e c, g.deferred = [.ptn e c] → g.endUnit = { g with ptab := g.ptab.set e c, deferred := [] })) ∧
  (∀ (n : Fin 16) s o g, Issues s o g → (View.mk o g).lanes ≠ [] → g.regs < 8 * n.val + 28 →
     exec (.winImm n) s = .next (s.trapAtIssue o { kind := 4, detail := BitVec.ofNat 32 n.val, tmask := (View.mk o g).en })) ∧
  ∀ (x : OpA) s o g L, x.ar.val < 28 → Issues s o g → (View.mk o g).cleanA (.winReg x) →
     let a := (View.mk o g).source (some (x.ap.val, x.ar.val))
     let out := fun J => g.regs < 8 * (a J).val.toNat + 28
     L ∈ (View.mk o g).lanes → out L → (∀ J ∈ (View.mk o g).lanes, J < L → ¬ out J) →
     exec (.winReg x) s = .next (s.trapAtIssue o
       { kind := 4, detail := (a L).val, tmask := maskOf fun J => (View.mk o g).on J && decide (out J) })

/-- A word whose guard is poisoned in some active lane takes the poison-consumption trap for those lanes, with the
lowest of them as DETAIL, and has no other effect (R60): every word with a result in a register or a predicate. A
packet with an illegal word raises one illegal-instruction trap (kind 1) for the lowest of them, whose TMASK is the
enabled set and whose record carries the active set; nothing of the packet issues (R75, R386). -/
def Obligations.GuardsAndIllegalPackets : Prop :=
  (∀ i, (intRule i ≠ none ∨ floatRule i ≠ none ∨ pairRule i ≠ none ∨ predRule i ≠ none ∨ crossRule i ≠ none) →
     ∀ s o g L Ls, s.cur = some o → lookup o.gid s.groups = some g → lanesOf (View.mk o g).badGuard = L :: Ls →
       exec i s = .next (s.trapAtIssue o { kind := 2, detail := BitVec.ofNat 32 L, tmask := (View.mk o g).badGuard })) ∧
  (∀ s o g (n : Fin 3), s.cur = some o → lookup o.gid s.groups = some g →
     exec (.illegalPacket n) s = .next (s.trapAtIssue { o with pos := n.val } { kind := 1, tmask := (View.mk o g).en }))

/-! The scratchpad and the tile store (08_scratchpad.md). -/

/-- LDS and LDX at the issuing core: where the enabled lanes' addresses pass their checks and lead to the issuing
core, each lane's registers receive its words of the scratchpad, 10 cycles after issue and one more for each bank
conflict beyond the words of a lane. STS and STX at the issuing core: the enabled lanes write their elements in
ascending order. With queue registers: an address or a word to store is popped, 4 cycles more for a load into
registers; a load to a queue register pushes the first word of each lane (R79, R96). -/
def Obligations.ScratchpadAccessesAtOwnCore : Prop :=
  (∀ (x : OpMem), x.ar.val < 28 → x.d.val < 28 →
     let after := fun (s : State) (v : View) =>
       let n := cntWords x.cnt
       (s.useL v (s.bankCycles v x (v.address x))).receive v
         (loadResults v x.d.val n (fun _ => some (s.now + 10 + (s.bankCycles v x (v.address x) - n))) (fun _ => 0)
           (s.loaded v x (v.address x)))
     Completes (.lds x) (fun s v => s.passes v true x.bytes x.align (v.address x) ∧
       s.allOn v x.bytes (v.address x) v.g.core) after ∧
     Completes (.ldx x) (fun s v => s.passes v false x.bytes x.align (v.address x) ∧
       s.allOn v x.bytes (v.address x) v.g.core) after) ∧
  (∀ (x : OpMem), x.ar.val < 28 → x.d.val < 28 →
     let after := fun (s : State) (v : View) =>
       (v.lanes.foldl (fun t L => t.spadWrites v.g.team v.g.core (s.stored v x (v.address x) L)) s).useL v
         (s.bankCycles v x (v.address x))
     Completes (.sts x) (fun s v => s.passes v true x.bytes x.align (v.address x) ∧
       s.allOn v x.bytes (v.address x) v.g.core) after ∧
     Completes (.stx x) (fun s v => s.passes v false x.bytes x.align (v.address x) ∧
       s.allOn v x.bytes (v.address x) v.g.core) after) ∧
  (∀ (x : OpMem) (lo : Bool) s o g a b t, Issues s o g →
     let v : View := ⟨o, g⟩
     s.passes v lo x.bytes x.align a → s.allOn v x.bytes a g.core → v.lanes ≠ [] →
     let n := s.bankCycles v x a
     let lat := 10 + (n - cntWords x.cnt)
     (s.operand v 0 x.ar.val = .ok (a, t) →
       (28 ≤ x.d.val → exec (if lo then .lds x else .ldx x) s = .next (s.wordDone o
         ((t.occupy g.core 4 n).push v (g.binding x.d.val) (some (s.now + lat)) []
           (v.lanes.map fun L => (s.loaded v x a L).getD 0 PWord.zero)))) ∧
       (x.d.val < 28 → 28 ≤ x.ar.val → exec (if lo then .lds x else .ldx x) s = .next
         ((t.occupy g.core 4 n).receive v
           (loadResults v x.d.val (cntWords x.cnt) (fun _ => some (s.now + lat + 4)) (fun _ => 0) (s.loaded v x a))).issued)) ∧
     (s.storeOperands v x = .ok (a, b, t) → exec (if lo then .sts x else .stx x) s = .next
       ((v.lanes.foldl (fun u L => u.spadWrites g.team g.core
         (storeLane x (storeData v x b L) (s.place v x.bytes a L).off)) t).occupy g.core 4 n).issued))

/-- LDX, STX, ATOMX, CASX and BOTEST to one other core: the access is sent there, with what it holds of the L pipe and
how late its bank conflicts make it; the issuing L pipe is held as for one word; the
group waits until its results have come, and an atomic spends the checkpoint (R79, R187, R194, R196, R248, R395). Of a word
whose lanes name several cores, the lanes at the issuing core act at once, as in a word of theirs alone, and hold the L pipe as
that does; one access goes to each other core; and each lane's registers wait for its own access (R79, R187, R194, R196). A
BOTEST reads the objects of the lanes before the first at another core at once, and sends one access for the lanes from there on
(R238); that its earlier lanes read at once, unless an access of the group is on its way to the issuing core, is the model's reading
(assumption log 23). A shade's atomic leaves lanes of the issuing core to a second pass as one at its own core does (log 16). -/
def Obligations.RemoteScratchpadAccesses : Prop :=
  (∀ (x : OpMem) (c : Nat), x.ar.val < 28 → x.d.val < 28 →
     let away := fun (s : State) (v : View) => v.lanes ≠ [] ∧ c ≠ v.g.core ∧
       s.passes v false x.bytes x.align (v.address x) ∧ s.allOn v x.bytes (v.address x) c
     let n := cntWords x.cnt
     Completes (.ldx x) away (fun s v =>
       let k := s.bankCycles v x (v.address x)
       (((s.sendRemote v c (.load x (v.lanes.map fun L => (L, (s.place v x.bytes (v.address x) L).off))) k (k - n)).occupy
         v.g.core 4 1).receive v (loadResults v x.d.val n (fun _ => none) (fun _ => s.nextId) fun _ => [])).waitFor v .outstanding) ∧
     Completes (.stx x) away (fun s v =>
       ((s.sendRemote v c (.store (v.lanes.flatMap fun L => s.stored v x (v.address x) L))
         (s.bankCycles v x (v.address x)) 0).occupy v.g.core 4 1).waitFor v .outstanding)) ∧
  (∀ (x : OpMem), x.ar.val < 28 → x.d.val < 28 →
     let may := fun (s : State) (v : View) => v.lanes ≠ [] ∧ s.passes v false x.bytes x.align (v.address x)
     let n := cntWords x.cnt
     let rs := fun (s : State) (v : View) => s.places v x.bytes (v.address x)
     let far := fun (s : State) (v : View) => otherCores v.g.core (rs s v)
     let k := fun (s : State) (v : View) c => accessCycles n x.bytes (atCore (rs s v) c)
     let held := fun (s : State) (v : View) => issueCycles (k s v v.g.core) (atCore (rs s v) v.g.core)
     let parks := fun (s : State) (v : View) (t : State) => if far s v = [] then t else t.waitFor v .outstanding
     Completes (.ldx x) may (fun s v =>
       let core := fun L => (s.place v x.bytes (v.address x) L).core
       let sent := (far s v).foldl (fun t c => t.sendRemote v c (.load x ((atCore (rs s v) c).map fun r => (r.1, r.2.off)))
         (k s v c) (k s v c - n)) s
       parks s v ((sent.occupy v.g.core 4 (held s v)).receive v (loadResults v x.d.val n
         (fun L => if core L = v.g.core then some (s.now + 10 + (k s v v.g.core - n)) else none)
         (fun L => if core L = v.g.core then 0 else s.nextId + (far s v).idxOf (core L))
         (fun L => if core L = v.g.core then s.loaded v x (v.address x) L else [])))) ∧
     Completes (.stx x) may (fun s v =>
       let done := (atCore (rs s v) v.g.core).foldl (fun t r => t.spadWrites v.g.team v.g.core (s.stored v x (v.address x) r.1)) s
       parks s v (((far s v).foldl (fun t c => t.sendRemote v c (.store ((atCore (rs s v) c).flatMap fun r =>
         s.stored v x (v.address x) r.1)) (k s v c) 0) done).occupy v.g.core 4 (held s v)))) ∧
  (∀ (d ar w : Nat) (i : Instr) (step : View → State → Nat → Nat → List PWord × State) (op : View → List (Nat × SpadRef) → RemoteOp),
     ((∃ x : OpAtom, i = .atomx x ∧ d = x.d.val ∧ ar = x.ar.val ∧ w = x.ty.words ∧
        (step = fun v t L p => atomStep t v.g.team v.g.core p x (v.words x.br.val w L)) ∧
        op = fun v rs => .atom x (rs.map fun r => (r.1, r.2.off, v.words x.br.val w r.1))) ∨
      ∃ x : OpCas, i = .casx x ∧ d = x.d.val ∧ ar = x.ar.val ∧ w = x.ty.words ∧
        (step = fun v t L p => casStep t v.g.team v.g.core p x (v.words x.br.val w L) (v.words x.d.val w L)) ∧
        op = fun v rs => .cas x (rs.map fun r => (r.1, r.2.off, v.words x.br.val w r.1, v.words x.d.val w r.1))) →
     let a := fun (v : View) L => v.g.reg L ar
     (∀ c, Completes i (fun s v => v.lanes ≠ [] ∧ c ≠ v.g.core ∧ s.passes v false (4 * w) (min (4 * w) 16) (a v) ∧
         s.allOn v (4 * w) (a v) c)
       fun s v =>
         let k := s.atomLanes v w (a v)
         ((((s.sendRemote v c (op v (s.places v (4 * w) (a v))) (2 * k) (2 * (k - 1))).receive v
           (loadResults v d w (fun _ => none) (fun _ => s.nextId) fun _ => [])).occupy v.g.core 4 1).waitFor v .outstanding).spend
             v.g.team) ∧
     Completes i (fun s v => v.lanes ≠ [] ∧ s.passes v false (4 * w) (min (4 * w) 16) (a v) ∧
         otherCores v.g.core (s.places v (4 * w) (a v)) ≠ [])
       fun s v =>
         let rs := s.places v (4 * w) (a v)
         let own := atCore rs v.g.core
         let two := if v.g.shade && decide (16 < bankLanes own) then Machine.passes own else (own, [])
         let far := otherCores v.g.core rs
         let p := max 1 (bankLanes two.1)
         let q := bankLanes two.2
         let first := fun L => two.1.any (·.1 == L)
         let r := stepLanes (fun t (y : Nat × SpadRef) => step v t y.1 y.2.off) (two.1.map fun y => (y.1, y)) s
         let k := fun c => max 1 (bankLanes (atCore rs c))
         let sent := far.foldl (fun t c => t.sendRemote v c (op v (atCore rs c)) (2 * k c) (2 * (k c - 1))) r.2
         let left := if two.2.isEmpty then sent else sent.sendPass v (op v two.2) (2 * q) (12 + 2 * q)
         (((left.receive v (loadResults v d w (fun L => if first L then some (s.now + 14 + 2 * (p - 1)) else none)
           (fun L => if first L then 0 else s.nextId + far.idxOf (s.place v (4 * w) (a v) L).core)
           fun L => ((r.1.find? (·.1 == L)).map (·.2)).getD [])).occupy v.g.core 4 (issueCycles (2 * p) own)).waitFor v
             .outstanding).spend v.g.team) ∧
  ∀ (x : OpM) acq, x.ar.val < 28 → x.d.val < 28 →
    let a := fun (v : View) => v.source (some (x.ap.val, x.ar.val))
    let gives := fun (near far : List (Nat × SpadRef)) (c : Nat) (s : State) (v : View) =>
      let later := fun L => far.any (·.1 == L)
      ((s.sendRemote v c (.test (far.map fun r => (r.1, r.2.core, r.2.off)) []) 1 0).receive v
        (loadResults v x.d.val 1 (fun L => if later L then none else some (s.now + 6)) (fun L => if later L then s.nextId else 0)
          fun L => [((near.find? (·.1 == L)).map fun r => s.testWord r.2.core r.2.off).getD PWord.zero])).waitFor v .outstanding
    ∀ near far r, Completes (.botest acq x) (fun s v => s.passes v false 16 16 (a v) ∧ (acq = true → v.acquires) ∧
        s.places v 16 (a v) = near ++ r :: far ∧
        ((s.reaching v.o.gid [v.g.core] = true ∧ near = []) ∨
          (s.reaching v.o.gid [v.g.core] = false ∧ r.2.core ≠ v.g.core ∧ ∀ y ∈ near, y.2.core = v.g.core)))
      fun s v => gives near (r :: far) r.2.core s v

/-- LDT and STT: the rows' addresses come from the lanes of their numbers; lane L's registers hold column L of the
rows (R193). LDR and STR in the group's own frame, or in the view that a handler has of the group it serves: loads take
4 cycles, and one more for each bank conflict; stores to the own frame land in issue order with the group's other
results, in the next cycle, which is the model's choice (assumption log 61); a handler's stores are kept until its end (R89,
R184, R194, R388; log 14). With queue registers: an address or a word to store is popped, 4 cycles more for a load into
registers; a load to a queue register pushes the first word of each lane (R79, R96). -/
def Obligations.TransposingAndTileStoreAccesses : Prop :=
  (∀ (x : OpMem), x.ar.val < 28 → x.d.val < 28 →
     let n := cntWords x.cnt
     let ws := fun (v : View) L => v.words x.d.val n L
     Completes (.ldt x) (fun s v => s.rowsPass v x (v.address x)) (fun s v =>
       let k := s.rowCycles v x (v.address x)
       (s.useL v k).receive v (loadResults v x.d.val n (fun _ => some (s.now + (10 + (k - n)))) (fun _ => 0)
         (s.column v x (v.address x)))) ∧
     Completes (.stt x) (fun s v => s.rowsPass v x (v.address x)) (fun s v =>
       (s.putColumns v x (v.address x) (ws v) s).useL v (s.rowCycles v x (v.address x))) ∧
     ∀ refs : Nat → TileRef,
       Completes (.ldr x) (fun s v => s.framePasses v x false (v.address x) refs) (fun s v =>
         let k := v.frameCycles x refs
         (s.useL v k).receive v (loadResults v x.d.val n (fun _ => some (s.now + (4 + (k - n)))) (fun _ => 0)
           fun L => s.frameLoad v x (refs L))) ∧
       Completes (.str x) (fun s v => s.framePasses v x true (v.address x) refs) (fun s v =>
         (s.putFrame v x refs (ws v) s).useL v (v.frameCycles x refs))) ∧
  ∀ (x : OpMem) s o g a b t, Issues s o g →
     let v : View := ⟨o, g⟩
     let n := cntWords x.cnt
     v.lanes ≠ [] →
     (s.operand v 0 x.ar.val = .ok (a, t) →
       let load := fun (i : Instr) (k lat : Nat) (f : Nat → List PWord) =>
         (28 ≤ x.d.val → exec i s = .next (s.wordDone o ((t.occupy g.core 4 k).put v x.d.val (lat + (k - n)) fun L =>
           (f L).getD 0 PWord.zero))) ∧
         (x.d.val < 28 → 28 ≤ x.ar.val → exec i s = .next ((t.occupy g.core 4 k).receive v
           (loadResults v x.d.val n (fun _ => some (s.now + (lat + (k - n) + 4))) (fun _ => 0) f)).issued)
       (s.rowsPass v x a → load (.ldt x) (s.rowCycles v x a) 10 (s.column v x a)) ∧
       ∀ refs, s.framePasses v x false a refs → load (.ldr x) (v.frameCycles x refs) 4 fun L => s.frameLoad v x (refs L)) ∧
     (s.storeOperands v x = .ok (a, b, t) →
       (s.rowsPass v x a → exec (.stt x) s = .next
         ((s.putColumns v x a (storeData v x b) t).occupy g.core 4 (s.rowCycles v x a)).issued) ∧
       ∀ refs, s.framePasses v x true a refs → exec (.str x) s = .next
         ((s.putFrame v x refs (storeData v x b) t).occupy g.core 4 (v.frameCycles x refs)).issued)

/-- ATOMS, ATOMX, CASS and CASX at the issuing core: the enabled lanes act in ascending order, each on what the lower
lanes have left, and receive the old words; a shade whose busiest bank holds more than 16 of its lanes leaves those
to a second pass, an access under way until the L pipe takes it (R195, R196, R370). Which lanes each pass takes, and when the
second begins, are the model's choices (assumption log 16). One atomic step: the new value by
operation and type, poisoned where the old value or the operand is, and each lane receives the old words, all
poisoned where one is; a compare-and-swap writes its new words only where the old ones are equal to the expected
ones and both are clean (R195, R196). -/
def Obligations.Atomics : Prop :=
  (∀ (i : Bool → Instr) (d ar w : Nat) (step : View → State → Nat → Nat → List PWord × State)
      (rest : View → List (Nat × SpadRef) → RemoteOp),
     ((∃ x : OpAtom, (i true = .atoms x ∧ i false = .atomx x) ∧ d = x.d.val ∧ ar = x.ar.val ∧ w = x.ty.words ∧
        (step = fun v t L p => atomStep t v.g.team v.g.core p x (v.words x.br.val w L)) ∧
        rest = fun v rs => .atom x (rs.map fun r => (r.1, r.2.off, v.words x.br.val w r.1))) ∨
      ∃ x : OpCas, (i true = .cass x ∧ i false = .casx x) ∧ d = x.d.val ∧ ar = x.ar.val ∧ w = x.ty.words ∧
        (step = fun v t L p => casStep t v.g.team v.g.core p x (v.words x.br.val w L) (v.words x.d.val w L)) ∧
        rest = fun v rs => .cas x (rs.map fun r => (r.1, r.2.off, v.words x.br.val w r.1, v.words x.d.val w r.1))) →
     ∀ lo,
     let a := fun (v : View) L => v.g.reg L ar
     let may := fun (s : State) (v : View) =>
       s.passes v lo (4 * w) (min (4 * w) 16) (a v) ∧ s.allOn v (4 * w) (a v) v.g.core
     Completes (i lo) (fun s v => may s v ∧ s.onePass v w (a v)) (fun s v => s.atomEffect v d w (a v) (step v)) ∧
     Completes (i lo) (fun s v => may s v ∧ ¬ s.onePass v w (a v)) fun s v =>
       s.atomInPasses v d w (a v) (step v) (rest v)) ∧
  ((∀ (s : State) team core p (x : OpAtom) b, b.length = x.ty.words →
     let w := x.ty.words
     let old := s.spadWords core p w
     let A := BitVec.ofNat (32 * w) (wordsNat old)
     let B := BitVec.ofNat (32 * w) (wordsNat b)
     let new := fun (c : BitVec (32 * w)) => (atomStep s team core p x b).2 = s.putWords team core p (natWords w c.toNat)
     let real := fun (f : Word → Word → Word) =>
       new (BitVec.ofNat (32 * w) (f (BitVec.ofNat 32 A.toNat) (BitVec.ofNat 32 B.toNat)).toNat)
     (atomStep s team core p x b).1 = oneValue old ∧
     (wordsPsn old = true ∨ wordsPsn b = true → (atomStep s team core p x b).2 =
       s.putWords team core p (List.replicate w PWord.poison)) ∧
     (wordsPsn old = false → wordsPsn b = false →
       (x.op = .exch → new B) ∧
       (x.op = .add → x.ty ≠ .f32 → new (A + B)) ∧
       (x.op = .add → x.ty = .f32 → real fun y z => toF32 ((f32 y).add (f32 z))) ∧
       (x.op = .min → x.ty = .u32 → new (if A ≤ B then A else B)) ∧
       (x.op = .max → x.ty = .u32 → new (if A ≤ B then B else A)) ∧
       (x.op = .min → x.ty = .i32 ∨ x.ty = .i64 → new (if A.toInt ≤ B.toInt then A else B)) ∧
       (x.op = .max → x.ty = .i32 ∨ x.ty = .i64 → new (if A.toInt ≤ B.toInt then B else A)) ∧
       (x.op = .min → x.ty = .f32 → real (fminWord false)) ∧ (x.op = .max → x.ty = .f32 → real (fminWord true)) ∧
       (x.op = .and → new (A &&& B)) ∧ (x.op = .or → new (A ||| B)) ∧ (x.op = .xor → new (A ^^^ B)))) ∧
   (∀ (s : State) team core p (x : OpCas) b d,
     let old := s.spadWords core p x.ty.words
     ((casStep s team core p x b d).1 = oneValue old) ∧
     (wordsPsn old = false → wordsPsn d = false → wordsNat old = wordsNat d →
       (casStep s team core p x b d).2 = s.putWords team core p (oneValue b)) ∧
     (wordsPsn old = true ∨ wordsPsn d = true ∨ wordsNat old ≠ wordsNat d → (casStep s team core p x b d).2 = s)))

/-- The address checks of LDS, LDX, STS and STX, in the order poison, bounds, alignment: the first check that some
enabled lane fails decides the trap (poison consumption 2, bounds 14, alignment 16), TMASK holds the lanes whose
first failing check it is, DETAIL is the lowest such lane for poison and that lane's address otherwise, and the
word has no other effect (R191, R192). -/
def Obligations.AddressTrapsInOrder : Prop :=
  ∀ (x : OpMem) (lo : Bool) s o g (k : Nat), x.ar.val < 28 → x.d.val < 28 → Issues s o g →
    let v : View := ⟨o, g⟩
    let check := fun L => spadCheck s v lo x.bytes x.align (v.address x L)
    let i : Bool → Instr := fun store => if lo then (if store then .sts x else .lds x) else if store then .stx x else .ldx x
    (∃ L ∈ v.lanes, check L = some k) → (∀ L ∈ v.lanes, ∀ j, check L = some j → k ≤ j) →
      let bad := maskOf fun L => v.lanes.contains L && check L == some k
      let L0 := (lanesOf bad).headD 0
      ∀ store, exec (i store) s = .next (s.trapAtIssue o
        { kind := if k = 1 then 2 else if k = 2 then 14 else 16, tmask := bad
          detail := if k = 1 then BitVec.ofNat 32 L0 else (v.address x L0).val })

/-! Copy commands and the matrix engine (09_copy_command.md, 12_accumulator.md). -/

/-- A copy command is posted: where its queue register is bound to a command queue with tokens and room, the enabled
lanes push their words, lane by lane, each with the command's code in the top byte of its first word; they land in
the next cycle, and the L pipe takes one word a cycle, at most 32 of them where the group is a shade's (R73, R79, R197, R198,
R370); with no lane enabled nothing happens. A copy command whose queue register is not bound to a command queue takes the
queue-binding trap (kind 3); without tokens, or without room for all its words, it waits with nothing pushed (R97, R198, R447).
That the words land in the next cycle is the model's choice (assumption log 12). -/
def Obligations.CommandWords : Prop :=
  (∀ i cmd n o, cmdRule i = some (cmd, n, o) →
     Completes i (fun s v => v.lanes ≠ [] ∧ s.takes v o.q.val (v.lanes.length * (n + 1)))
       fun s v => (s.hold v
         { code := v.bound o.q.val, words := v.lanes.flatMap (v.command cmd n o), due := some (s.now + 1)
           lanes := v.lanes.flatMap fun L => List.replicate (n + 1) L, origin := v.o }).occupy v.g.core 4
             (if v.g.shade then min 32 (v.lanes.length * (n + 1)) else v.lanes.length * (n + 1))) ∧
  (∀ i cmd n o, cmdRule i = some (cmd, n, o) → Completes i (fun _ v => v.lanes = []) fun s _ => s) ∧
  (∀ i cmd n o, cmdRule i = some (cmd, n, o) → ∀ s is g, Issues s is g →
     let v : View := ⟨is, g⟩
     v.lanes ≠ [] →
     ((v.bound o.q.val).toNat / 32 ≠ 1 → exec i s = .next (s.trapAtIssue is
       { kind := 3, detail := (v.bound o.q.val).zeroExtend 32, tmask := v.en })) ∧
     ((v.bound o.q.val).toNat / 32 = 1 → (s.bucket g.ctx (dieOf g.core)).level ≤ 0 →
       exec i s = .next (s.stallAt is (.bucket (dieOf g.core)))) ∧
     ((v.bound o.q.val).toNat / 32 = 1 → 0 < (s.bucket g.ctx (dieOf g.core)).level →
       s.commandRoom g.ctx g.core ((v.bound o.q.val).toNat % 4) < v.lanes.length * (n + 1) →
       exec i s = .next (s.stallAt is (.push (v.bound o.q.val) (v.lanes.length * (n + 1))))))

/-- An MMA word queues its products behind the tile's earlier work; the slots it reads advance their K positions where
they say so; `.sig` spends the checkpoint; and the M pipe is occupied for 1 cycle, 2 for a wide tile (R79, R288,
R296 to R298, R395). -/
def Obligations.MatrixWordsQueueProducts : Prop :=
  ∀ i shape o sig, mmaRule i = some (shape, o, sig) → ∀ s is g a b, Issues s is g → MmaReady s ⟨is, g⟩ shape o a b →
    let v : View := ⟨is, g⟩
    let tile := g.tile o.t.val
    let adv := fun x : FmtSlot => if slotAdv x.word then { x with kpos := (x.kpos + shapeDepth shape) % 65536 } else x
    let s1 := (s.queueWork g.core is.gid o.t.val tile.wide tile.q (s.mmaWork v shape o a b sig)).modSelf v fun x =>
      { x with slots := (x.slots.modify (2 * o.fs.val) (·.map adv)).modify (2 * o.fs.val + 1) (·.map adv) }
    exec i s = .next (((if sig.isSome then s1.spend g.team else s1).occupy g.core 3 (if tile.wide then 2 else 1)).issued)

/-- MMA words check in order: the tile's number (access trap), its token (matrix trap, cause 1), the slots (2), their
register format (3), class (4) and quantum (5) (R296). -/
def Obligations.MatrixTraps : Prop :=
  ∀ i shape o sig, mmaRule i = some (shape, o, sig) → ∀ s is g, Issues s is g →
    let v : View := ⟨is, g⟩
    let t := BitVec.ofNat 32 o.t.val
    let trap := fun cause => exec i s = .next (s.trapAtIssue is { kind := 11, cause := cause, detail := t, tmask := v.en })
    v.lanes ≠ [] →
    (g.accn ≤ o.t.val → exec i s = .next (s.trapAtIssue is { kind := 15, detail := t, tmask := v.en })) ∧
    (o.t.val < g.accn →
      ((g.tile o.t.val).st ≠ .engine → trap 1) ∧
      ((g.tile o.t.val).st = .engine → ∀ x y, g.slots.getD (2 * o.fs.val) none = x →
        g.slots.getD (2 * o.fs.val + 1) none = y →
        (x = none ∨ y = none → trap 2) ∧
        ∀ a b, x = some a → y = some b →
          let rf := if shape = 1 then 0 else 1
          (slotRfmt a.word ≠ rf ∨ slotRfmt b.word ≠ rf → trap 3) ∧
          (slotRfmt a.word = rf → slotRfmt b.word = rf →
            (slotWide a.word ≠ (g.tile o.t.val).wide ∨ slotWide b.word ≠ (g.tile o.t.val).wide → trap 4) ∧
            (slotWide a.word = (g.tile o.t.val).wide → slotWide b.word = (g.tile o.t.val).wide →
              slotQ a.word + slotQ b.word ≠ (g.tile o.t.val).q → trap 5))))

/-- AGIVE and AZERO pass a tile's token to the engine after their unit, under the class and quantum of the mode word,
and queue the conversion, AGIVE once the group's accesses under way are performed; ATAKE of a tile that the engine
holds takes it back (R285, R290 to R293, R308). -/
def Obligations.TileTokensChangeHands : Prop :=
  (∀ (t : Tile) i64 (x : OpA) w, x.ar.val < 28 → w.toNat < 1024 →
    Completes (.agive t i64 x) (fun _ v => v.lowestWord (.agive t i64 x) w ∧ t.val < v.g.accn ∧ (v.g.tile t.val).st = .held ∧ v.releases)
      fun s v => (s.defer v [.token t.val (v.handed t.val w)]).queueWork v.g.core v.o.gid t.val (modeWide w) (modeQ w)
        (.give i64 ((v.g.frame.filter fun p => v.g.tileBase t.val ≤ p.1 && p.1 < v.g.tileBase t.val + 2048).map
          fun p => (p.1 - v.g.tileBase t.val, p.2)))) ∧
  (∀ (t : Tile) (x : OpA) w, x.ar.val < 28 → w.toNat < 1024 →
    Completes (.azero t x) (fun _ v => v.lowestWord (.azero t x) w ∧ t.val < v.g.accn ∧ (v.g.tile t.val).st ≠ .taking)
      fun s v => (s.defer v [.token t.val (v.handed t.val w)]).queueWork v.g.core v.o.gid t.val (modeWide w) (modeQ w) .zero) ∧
  (∀ (t : Tile) i64, Completes (.atake t i64)
    (fun _ v => v.lanes ≠ [] ∧ t.val < v.g.accn ∧ (v.g.tile t.val).st = .engine ∧ v.acquires)
    fun s v =>
      let i := v.g.tile t.val
      (s.defer v [.token t.val { i with st := .taking, xsat := false, xinv := false, xpsn := false }]).queueWork
        v.g.core v.o.gid t.val i.wide i.q (.take i64))

/-- MFMT writes a format slot with K position 0; MSLD starts a transfer of n bytes of scales at 128 bytes a cycle,
after the transfers under way; AINFO reports an idle tile's token, flags, class and quantum (R288, R289, R305).
ASTS stores a held tile's elements in the scratchpad by its store word; ASTC captures them and posts the store as
a command of eight words (R302 to R304). That the posted words land in the next cycle (assumption log 12), and that an ASTC's push
takes no time of the L pipe (log 45), are the model's choices. -/
def Obligations.FormatsScalesAndStores : Prop :=
  ((∀ (n : Fin 8) (x : OpA) (w : Word), x.ar.val < 28 → w.toNat / 256 % 256 = 0 → w.getLsbD 19 = false → slotBlk w ≠ 3 →
     slotRfmt w < 2 → Completes (.mfmt n x) (fun _ v => v.lowestWord (.mfmt n x) w ∧ (slotBlk w = 0 ∨ v.g.shade = false))
       fun s v => s.modSelf v fun g => { g with slots := g.slots.set n.val (some ⟨w, 0⟩) }) ∧
   (∀ (x : OpM) (w a : Word) (off n : Nat), x.ar.val < 28 → w.toNat = off + 65536 * (n / 16) → off % 16 = 0 → n % 16 = 0 →
     0 < n → off + n ≤ 16384 → Completes (.msld x)
       (fun s v => v.g.shade = false ∧ (∃ L, v.first = some L ∧ v.g.reg L x.d.val = PWord.ok w ∧
           v.source (Instr.srcA (.msld x)) L = PWord.ok a) ∧ spadCheck s v true n 16 (PWord.ok a) = none ∧
         s.heldBack v (s.ref v n a) n = none ∧ (s.scaleMem v.g.core).owner = some v.g.ctx)
       fun s v =>
         let r := s.ref v n a
         let m := s.scaleMem v.g.core
         let byte := fun i =>
           let y := s.spadWord r.core ((r.off + i) / 4)
           if y.psn then (0xFF : Byte) else byteOf y.val.toNat ((r.off + i) % 4)
         s.setScaleMem v.g.core { m with xfers := m.xfers ++
           [(m.xfers.foldl (fun t y => max t y.1) s.now + (n + 127) / 128, off, (List.range n).map byte)] }) ∧
   (∀ (d : Reg) (t : Tile), d.val < 28 → Completes (.ainfo d t)
     (fun s v => v.lanes ≠ [] ∧ t.val < v.g.accn ∧ s.tileBusy v.g.core v.o.gid t.val = false)
     fun s v =>
       let i := v.g.tile t.val
       s.receive v (v.results s.now d.val 4 fun _ => PWord.ok (BitVec.ofNat 32 ((i.st == .engine).toNat * 2 ^ 31 +
         i.ginex.toNat * 2 ^ 29 + i.gsat.toNat * 2 ^ 28 + i.xsat.toNat * 2 ^ 27 + i.xinv.toNat * 2 ^ 26 +
         i.xpsn.toNat * 2 ^ 25 + i.wide.toNat * 2 ^ 9 + (i.q % 512).toNat))))) ∧
  ((∀ (x : OpAst) (a sw : Word), storeBad sw x = false → storeFmt sw ≠ none → Completes (.asts x)
     (fun s v => v.operandsAt x.ar.val [a, sw] ∧ x.t.val < v.g.accn ∧ (v.g.tile x.t.val).st = .held ∧
       spadCheck s v false (v.tileBytes x sw) (storeSize sw) (PWord.ok a) = none ∧
       s.heldBack v (s.ref v (v.tileBytes x sw) a) (v.tileBytes x sw) = none ∧
       (s.ref v (v.tileBytes x sw) a).core = v.g.core ∧ s.reaching v.o.gid [v.g.core] = false)
     fun s v => s.spadWrites v.g.team v.g.core
       (planWrites v x.t.val sw (s.ref v (v.tileBytes x sw) a).off (storePlan v x.t.val sw x))) ∧
   (∀ (x : OpAst) (w0 w1 w2 w3 w4 : Word), Completes (.astc x)
     (fun s v => v.operandsAt x.ar.val [w0, w1, w2, w3, w4] ∧ x.t.val < v.g.accn ∧ (v.g.tile x.t.val).st = .held ∧ s.takes v 0 8)
     fun s v => s.hold v
       { code := v.bound 0
         words := [BitVec.ofNat 32 (0x80000000 + w3.toNat % 2 ^ 24), w0, w1, w2, w3, w4,
           (if x.sat then 4 else 0) + (match x.rnd with
             | .rne => 0
             | .ef => 1
             | .rz => 2), 0].map PWord.ok
         due := some (s.now + 1), lanes := [v.first.getD 0], origin := v.o
         plan := storePlan v x.t.val w2 x, esize := max 1 (storeSize w2) }))

/-- The residue form is exact: the element of an integer in a tile's range, with its check code, is taken back as that
integer, and products applied to it give the element of the sum, where the sum is in range too (R286, R287, R293,
R297). -/
def Obligations.ResidueArithmeticIsExact : Prop :=
  ∀ (wide : Bool) (x : Int), tileSat wide x = x →
    let elem := fun y : Int => natPair (toRes wide y (y % 233).toNat)
    takeKind wide (elem x) = .good x ∧
    ∀ (ps : List (Nat × Int)) (b : List Ent) (bs : Nat → Int), (∀ p ∈ ps, b.getD p.1 (.num 0 false) = .num (bs p.1) false) →
      let sum := x + (ps.map fun p => p.2 * bs p.1).sum
      tileSat wide sum = sum → mmaElem wide (ps.map fun p => (p.1, .num p.2 false)) b (elem x) = elem sum

/-! Control and synchronisation (07_group.md, 10_barrier.md, 11_memory_model.md). -/

/-- BRA, CALL, BRX, RET, JOIN, EXIT and TRAP: the enabled lanes' packet takes the transfer, performed after the last
unit; CALL also writes the address of the next packet (R59, R66, R170 to R174). The lowest lane whose branch target fails
decides the trap: the poison-consumption trap for the lanes with poisoned targets, or, for a target that is no
packet's address, or at or past CodeWords, the branch-target trap (kind 6) for the lanes with such targets, with that
lane's target as DETAIL; no thread moves (R66, R170). After a packet's last unit its threads stand at the next packet,
or where their transfer says: at the target, joining at the JOIN word's address, or exited; after a TRAP n the group
takes the software trap n (kind 8) for the lanes that took it (R59, R155, R170 to R174). -/
def Obligations.ControlTransfers : Prop :=
  ((∀ (imm : Fin 32768) (n : Nat), n < 2 ^ 32 →
     let near := fun (v : View) => v.lanes ≠ [] ∧ v.target n ∧ ((v.o.k + v.o.pos : Nat) : Int) + signExt 15 imm.val = n
     Completes (.bra imm) (fun _ v => near v) (fun s v => s.take v fun _ => .jump n) ∧
     ∀ d : Reg, d.val < 28 → Completes (.call d imm) (fun _ v => near v) fun s v =>
       (s.take v fun _ => .jump n).receive v (v.results s.now d.val 1 fun _ => PWord.ok (BitVec.ofNat 32 (v.o.k + 3)))) ∧
   (∀ x : OpA, x.ar.val < 28 →
     let far := fun (v : View) => v.lanes ≠ [] ∧ ∀ L ∈ v.lanes,
       (v.source (some (x.ap.val, x.ar.val)) L).psn = false ∧ v.target (v.source (some (x.ap.val, x.ar.val)) L).val.toNat
     let after := fun (s : State) (v : View) => s.take v fun L => .jump (v.source (some (x.ap.val, x.ar.val)) L).val.toNat
     Completes (.brx x) (fun _ v => far v) after ∧ Completes (.ret x) (fun _ v => far v) after) ∧
   (∀ r : Reg, Completes (.join r) (fun _ v => v.lanes ≠ []) fun s v => s.take v fun _ => .join (v.o.k + v.o.pos)) ∧
   Completes .exit (fun _ v => v.lanes ≠ []) (fun s v => s.take v fun _ => .exit) ∧
   ∀ n : Fin 32, Completes (.trap n) (fun _ v => v.lanes ≠ []) fun s v => s.take v fun _ => .trap n.val v.o) ∧
  (∀ (x : OpA) s o g L, x.ar.val < 28 → Issues s o g →
     let v : View := ⟨o, g⟩
     let a := v.source (some (x.ap.val, x.ar.val))
     let bad := fun J => (a J).psn = false ∧ ¬ v.target (a J).val.toNat
     L ∈ v.lanes → (∀ J ∈ v.lanes, J < L → (a J).psn = false ∧ ¬ bad J) → ∀ i, (i = .brx x ∨ i = .ret x) →
     ((a L).psn = true → exec i s = .next (s.trapAtIssue o
       { kind := 2, detail := BitVec.ofNat 32 L, tmask := maskOf fun J => v.on J && (a J).psn })) ∧
     (bad L → ∃ m : Word, (∀ J < 32, m.getLsbD J = true ↔ v.on J = true ∧ bad J) ∧
       exec i s = .next (s.trapAtIssue o { kind := 6, detail := (a L).val, tmask := m }))) ∧
  (∀ (imm : Fin 32768) (n : Nat) (d : Reg) s o g, n < 2 ^ 32 → Issues s o g →
     let v : View := ⟨o, g⟩
     v.lanes ≠ [] → ((o.k + o.pos : Nat) : Int) + signExt 15 imm.val = n → ¬ v.target n → ∀ i, (i = .bra imm ∨ i = .call d imm) →
       exec i s = .next (s.trapAtIssue o { kind := 6, detail := BitVec.ofNat 32 n, tmask := v.en })) ∧
  (∀ (s : State) gid (g : Group) u n o, lookup gid s.groups = some g → g.unit = some u →
     (g.transfers u).head? = some (.trap n o) → s.finishPacket gid =
       (s.setGroup gid (g.advance u)).takeTrap gid (trapRecord s (g.advance u) o o.act
         { kind := 8, cause := n, tmask := g.trapLanes u })) ∧
  (∀ (t : Thread) (k : Nat),
     (t.transfer = none → t.advance k = { t with pc := k + 3, rword := 0 }) ∧
     (∀ a, t.transfer = some (.jump a) → t.advance k = { t with pc := a, rword := 0, transfer := none }) ∧
     (∀ a, t.transfer = some (.join a) →
       t.advance k = { t with pc := k + 3, rword := 0, transfer := none, st := .joining, joinAddr := a }) ∧
     (t.transfer = some .exit → t.advance k = { t with pc := k + 3, rword := 0, transfer := none, st := .exited }))

/-- A join releases the largest set of threads joining at its address of which each names, beside itself, only threads
of the set and exited ones (R167). -/
def Obligations.JoinReleasesLargestSet : Prop :=
  ∀ (s : State) (g : Group) (a : Nat),
    let joins := fun L => L < 32 ∧ (g.thread L).st = .joining ∧ (g.thread L).joinAddr = a
    let closed := fun (r : Word) => ∀ L, L < 32 → r.getLsbD L = true → joins L ∧
      ∀ J, J < 32 → (joinMask s g a L).val.getLsbD J = true → r.getLsbD J = true ∨ (g.thread J).st = .exited
    closed (joinRelease s g a).1 ∧
      ∀ r, closed r → ∀ L, L < 32 → r.getLsbD L = true → (joinRelease s g a).1.getLsbD L = true

/-- SLEEP: the enabled threads sleep until the largest count of their lanes has passed, at most 1,048,575 cycles; NOP
has no effect; PPT holds the threads of a run's last packet while a pre-emption request is pending, and otherwise unites
or clears the run's bitmaps (R62, R175 to R177). That the bitmaps are also kept while no request is pending is the model's choice
(assumption log 17). -/
def Obligations.SleepNopAndPreemptionPoints : Prop :=
  (∀ x : OpA, x.ar.val < 28 → Completes (.sleep x) (fun _ v => v.cleanA (.sleep x)) fun s v =>
    s.modSelf v fun g => g.modLanes v.en fun _ t => { t with
      st := .sleeping
      wake := s.cyc v.g.core + min
        ((v.lanes.map fun L => (v.source (some (x.ap.val, x.ar.val)) L).val.toNat).foldl max 0) 1048575 }) ∧
  Completes .nop (fun _ _ => True) (fun s _ => s) ∧
  (∀ (offs : Fin 16) (live : Fin (2 ^ 28)) (granules : Word),
    let join := fun t : Thread => { t with
      live := t.live ||| BitVec.ofNat 128 (live.val * 2 ^ (8 * offs.val)), granules := t.granules ||| granules }
    Completes (.ppt offs true live granules) (fun _ _ => True)
      (fun s v => s.modSelf v fun g => g.modLanes v.en fun _ t => join t) ∧
    Completes (.ppt offs false live granules) (fun s v => s.preqOf v.g = true)
      (fun s v => s.modSelf v fun g => g.modLanes v.en fun _ t => { join t with st := .held }) ∧
    Completes (.ppt offs false live granules) (fun s v => s.preqOf v.g = false)
      (fun s v => s.modSelf v fun g => g.modLanes v.en fun _ t => { t with live := 0, granules := 0 }))

/-- BAR and BARC of a group that is no handler group, with all its threads enabled: the arrival is noted at the
barrier and in the checkpoint, and the group waits (R239, R241). BAR and BARC trap, with the barrier as DETAIL,
where a thread that has not exited is not enabled (kind 9), and in a handler group (kind 5) (R239, R384). When
every group of a team, or of the teams of a cluster, that takes part has arrived at a barrier and has its results
written, and no other such barrier holds arrivals, its groups leave their wait, the barrier is empty again, and the
checkpoints of the teams are taken anew; until then nothing happens (R79, R239, R241, R394). That a group arrives with all its
earlier results written is the model's choice (assumption logs 23, 56). -/
def Obligations.Barriers : Prop :=
  (let may := fun (v : View) => v.g.handles = none ∧ v.lanes ≠ [] ∧ v.whole ∧ v.acquires ∧ v.releases
   (∀ n : Fin 16, Completes (.bar n) (fun _ v => may v) fun s v =>
     (s.modTeam v.g.team fun x => { x with
       bars := arriveAt x.bars n.val v.o.gid, ckpt := x.ckpt.map fun c => c.arrival false n.val v.o.gid }).waitFor v (.bar n.val)) ∧
   ∀ n : Fin 4, Completes (.barc n) (fun _ v => may v) fun s v =>
     ((s.modCluster (s.clusterOf v.g) fun k => { k with bars := arriveAt k.bars n.val v.o.gid }).modTeam v.g.team
       fun x => { x with ckpt := x.ckpt.map fun c => c.arrival true n.val v.o.gid }).waitFor v (.barc n.val)) ∧
  (∀ s o g, Issues s o g →
     let v : View := ⟨o, g⟩
     let part := v.lanes ≠ [] ∧ ∃ L < 32, (g.thread L).st ≠ .exited ∧ v.on L = false
     let trap := fun i n => (g.handles = none → part → exec i s = .next (s.trapAtIssue o
         { kind := 9, detail := BitVec.ofNat 32 n, tmask := v.en })) ∧
       (g.handles ≠ none → exec i s = .next (s.trapAtIssue o { kind := 5, tmask := v.en }))
     (∀ n : Fin 16, trap (.bar n) n.val) ∧ ∀ n : Fin 4, trap (.barc n) n.val) ∧
  (let all_ := fun (s : State) (gs gids : List Nat) =>
     ∀ gid ∈ gs, gid ∈ gids ∧ ∀ g, lookup gid s.groups = some g → g.quiet = true
   ∀ (s : State) (n : Nat) (gids : List Nat), gids ≠ [] →
     (∀ (team : Nat) (t : Team), lookup team s.teams = some t → t.bars = [(n, gids)] →
       (all_ s (s.barGroups team) gids → s.finishBars team =
         ((s.wakeGroups gids).modTeam team fun x => { x with bars := eraseAt n x.bars }).renew team) ∧
       (¬ all_ s (s.barGroups team) gids → s.finishBars team = s)) ∧
     ∀ (cl : Nat) (k : Cluster), lookup cl s.clusters = some k → k.bars = [(n, gids)] →
       (all_ s (k.teams.flatMap s.barGroups) gids → s.finishBarcs cl =
         k.teams.foldl State.renew ((s.wakeGroups gids).modCluster cl fun x => { x with bars := eraseAt n x.bars })) ∧
       (¬ all_ s (k.teams.flatMap s.barGroups) gids → s.finishBarcs cl = s))

/-- BOINIT, BOARR, BOTEST, RAINIT and RAREL at objects of the issuing core act lane by lane, ascending; BOTEST reads
word 1, poisoned where the object is. With an object at another core, or with an access of the group still on its way to its own,
the steps from the first such lane on, or all of them where a poisoned object stops the word, are sent there in that order, and
the group waits; BOARR, RAINIT and RAREL then spend the checkpoint (R79, R238, R243 to R246, R252, R254, R395). Barrier objects: an arrival counts, and
adds its delta to the pending bytes; the arrival that brings the count to the expected one with nothing pending
turns the phase, moves ERR to LERR, and starts the next phase from the template bytes (R243, R244). Ring objects: a
release raises the consumer count of a ring with a filled slot, and marks an empty one; a poisoned object stays as it
is (R254). That lanes at several cores act one core after another, and that a release writes the ring word's reserved bits as 0,
are the model's choices (assumption log 23). -/
def Obligations.ObjectWords : Prop :=
  (∀ x : OpM,
     Completes (.boinit x) (fun s v => s.objectsHere v x 16 ∧ v.cleanReg x.d.val ∧ v.cleanReg (x.d.val + 1) ∧
         ∀ L ∈ v.lanes, 0 < (v.g.reg L x.d.val).val.toNat ∧ (v.g.reg L x.d.val).val.toNat ≤ 65535)
       (fun s v => s.objectSteps v x 16 fun L =>
         .boinit (v.g.reg L x.d.val).val.toNat (v.g.reg L (x.d.val + 1)).val) ∧
     (∀ rlx, Completes (.boarr rlx x) (fun s v => s.objectsHere v x 16 ∧ v.cleanReg x.d.val ∧ s.objectsGood v x ∧
         (rlx = false → v.releases))
       fun s v => s.objectSteps v x 16 fun L => .arrive (v.g.reg L x.d.val).val.toInt false) ∧
     (x.d.val < 28 → ∀ acq, Completes (.botest acq x) (fun s v => s.objectsHere v x 16 ∧ (acq = true → v.acquires))
       fun s v => s.receive v (v.results s.now x.d.val 6 fun L =>
         if wordsPsn (s.object v.g.core (s.objectOff v x 16 L)) then PWord.poison
         else s.spadWord v.g.core (s.objectOff v x 16 L / 4 + 1))) ∧
     (let ext := fun (v : View) L => 16 + 2 ^ bitsOf (v.g.reg L x.d.val).val.toNat 19 3 * ((v.g.reg L x.d.val).val.toNat % 65536)
      let a := fun (v : View) => v.source (some (x.ap.val, x.ar.val))
      Completes (.rainit x) (fun s v => x.ar.val < 28 ∧ v.cleanReg x.d.val ∧ s.reaching v.o.gid [v.g.core] = false ∧ ∀ L ∈ v.lanes,
         ringBad (v.g.reg L x.d.val).val = false ∧ spadCheck s v false (ext v L) 16 (a v L) = none ∧
         s.heldBack v (s.ref v (ext v L) (a v L).val) 16 = none ∧ (s.ref v (ext v L) (a v L).val).core = v.g.core)
       (fun s v => v.lanes.foldl (fun t L => objStep t v.g.team v.g.core (s.ref v (ext v L) (a v L).val).off
         (.rainit (v.g.reg L x.d.val).val)) s)) ∧
     ∀ y : OpA, x.ap = y.ap → x.ar = y.ar → Completes (.rarel y)
       (fun s v => s.objectsHere v x 16 ∧ s.objectsGood v x ∧ v.releases) fun s v => s.objectSteps v x 16 fun _ => .release) ∧
  (∀ (i : Instr) (x : OpM) (check spends : Bool) (act : View → Nat → ObjAct) (may : View → Prop), x.ar.val < 28 →
     (i = .boinit x ∧ check = false ∧ spends = false ∧
        (act = fun v L => .boinit (v.g.reg L x.d.val).val.toNat (v.g.reg L (x.d.val + 1)).val) ∧
        (may = fun v => v.cleanReg x.d.val ∧ v.cleanReg (x.d.val + 1) ∧
          ∀ L ∈ v.lanes, 0 < (v.g.reg L x.d.val).val.toNat ∧ (v.g.reg L x.d.val).val.toNat ≤ 65535) ∨
      (∃ rlx, i = .boarr rlx x ∧ check = true ∧ spends = true ∧
        (act = fun v L => .arrive (v.g.reg L x.d.val).val.toInt false) ∧
        may = fun v => v.cleanReg x.d.val ∧ (rlx = false → v.releases)) ∨
      ∃ y : OpA, x = ⟨0, y.ap, y.ar⟩ ∧ i = .rarel y ∧ check = true ∧ spends = true ∧ (act = fun _ _ => .release) ∧
        may = fun v => v.releases) →
     let a := fun (v : View) => v.source (some (x.ap.val, x.ar.val))
     Completes i (fun s v => may v ∧ s.passes v false 16 16 (a v) ∧
         ∃ L ∈ v.lanes, (s.place v 16 (a v) L).core ≠ v.g.core ∨ s.reaching v.o.gid [v.g.core] = true)
       fun s v => s.objectsAway v (s.places v 16 (a v)) check spends (act v)) ∧
  (∀ x : OpM, x.ar.val < 28 →
     let a := fun (v : View) => v.source (some (x.ap.val, x.ar.val))
     let ext := fun (v : View) L => 16 + 2 ^ bitsOf (v.g.reg L x.d.val).val.toNat 19 3 * ((v.g.reg L x.d.val).val.toNat % 65536)
     let rs := fun (s : State) (v : View) => v.lanes.map fun L => (L, s.ref v (ext v L) (a v L).val)
     Completes (.rainit x) (fun s v => v.cleanReg x.d.val ∧ (∀ L ∈ v.lanes,
         ringBad (v.g.reg L x.d.val).val = false ∧ spadCheck s v false (ext v L) 16 (a v L) = none ∧
         s.heldBack v (s.ref v (ext v L) (a v L).val) 16 = none) ∧
         ∃ r ∈ rs s v, r.2.core ≠ v.g.core ∨ s.reaching v.o.gid [v.g.core] = true)
       fun s v => s.objectsAway v (rs s v) false true fun L => .rainit (v.g.reg L x.d.val).val) ∧
  (∀ w r c f : Word,
     let ws := [PWord.ok w, PWord.ok r, PWord.ok c, PWord.ok f]
     (w ≠ r → releaseWords ws = [PWord.ok w, PWord.ok (r + 1), PWord.ok (c &&& 0xF8FFFF), PWord.ok f]) ∧
     (w = r → releaseWords ws = [PWord.ok w, PWord.ok r, PWord.ok (c &&& 0xF8FFFF ||| 0x800000), PWord.ok f])) ∧
  (∀ (s : State) team core off d bad, wordsPsn (s.object core off) = true →
     objStep s team core off .release = s ∧ objStep s team core off (.arrive d bad) = s) ∧
  (∀ (expect arrived : Nat) (pend reload : Word) (delta : Int), arrived < expect → expect < 65536 →
     let ws := [PWord.ok (BitVec.ofNat 32 expect), PWord.ok (BitVec.ofNat 32 arrived), PWord.ok pend, PWord.ok reload]
     let left := pend + BitVec.ofInt 32 delta
     (arrived + 1 = expect → left = 0 → arriveWords ws delta false =
       [PWord.ok (BitVec.ofNat 32 expect), PWord.ok 0x80000000, PWord.ok reload, PWord.ok reload]) ∧
     (arrived + 1 = expect → left = 0 → arriveWords ws delta true =
       [PWord.ok (BitVec.ofNat 32 expect), PWord.ok 0xA0000000, PWord.ok reload, PWord.ok reload]) ∧
     (arrived + 1 ≠ expect ∨ left ≠ 0 → arriveWords ws delta false =
       [PWord.ok (BitVec.ofNat 32 expect), PWord.ok (BitVec.ofNat 32 (arrived + 1)), PWord.ok left, PWord.ok reload]))

/-- BOWAIT, RAWAIT, RAWAIT.free, TLWAIT and WPWAIT wait with what each enabled lane waits for (R247, R254, R258,
R277). -/
def Obligations.WaitingWords : Prop :=
  (∀ x : OpM, x.ar.val < 28 →
    let a := fun (v : View) => v.source (some (x.ap.val, x.ar.val))
    let may := fun (s : State) (v : View) => v.lanes ≠ [] ∧ s.passes v false 16 16 (a v) ∧ v.acquires
    Completes (.bowait x) (fun s v => may s v ∧ v.cleanReg x.d.val) (fun s v => s.waitFor v (.bowait v.o
      (v.lanes.map fun L => ⟨L, (s.place v 16 (a v) L).core, (s.place v 16 (a v) L).off, (v.g.reg L x.d.val).val.getLsbD 0⟩))) ∧
    let rings := fun (s : State) (v : View) => v.lanes.map fun L => (⟨L, (s.place v 16 (a v) L).core,
      (s.place v 16 (a v) L).off, (a v L).val, (v.g.reg L x.d.val).val.toNat, v.g.regIdx L x.d.val⟩ : RingWait)
    Completes (.rawait x) may (fun s v => s.waitFor v (.rawait v.o false (rings s v))) ∧
    Completes (.rawaitFree x) (fun s v => may s v ∧ v.cleanReg x.d.val) fun s v =>
      s.waitFor v (.rawait v.o true (rings s v))) ∧
  ∀ d : Reg,
    let limits := fun (v : View) => v.lanes.map fun L => (L, (v.g.pairAt L d.val).2)
    (∀ sc (e : Fin 4), Completes (.tlwait d sc e)
      (fun s v => v.lanes ≠ [] ∧ v.pairClean d.val ∧ s.holdsEngine v.g.ctx e.val = true ∧ v.acquires)
      fun s v => s.waitFor v (.tlwait v.o sc (engineId v.g.ctx v.g.core e.val) (limits v))) ∧
    ∀ ch : Fin 4, Completes (.wpwait d ch)
      (fun _ v => v.lanes ≠ [] ∧ (v.bound 0).toNat / 32 = 1 ∧ v.pairClean d.val ∧ v.acquires)
      fun s v => s.waitFor v (.wpwait v.o (engineKey v.g (v.bound 0)) ch.val (limits v))

/-- FENCE opens a switch wait (R274, R275), and completes once the group's reads have returned and, for a release, its
remote accesses and pushes have been performed: a release writes near copies home and an acquire drops copies, at
die scope and wider (R269, R275). -/
def Obligations.FencesOpenAndComplete : Prop :=
  (∀ k sc, Completes (.fence k sc) (fun _ v => v.lanes ≠ [] ∧ (k ≠ .rel → v.acquires))
    fun s v => s.modSelf v fun g => { g with fence := some (k, sc), switching := true }) ∧
  ∀ (s : State) gid (g : Group) k sc, lookup gid s.groups = some g → g.fence = some (k, sc) →
    (g.outstanding ≠ [] ∨ (k ≠ .acq ∧ (g.remote ≠ 0 ∨ g.pushes ≠ [])) → s.finishFence gid = s) ∧
    (g.outstanding = [] → (k ≠ .acq → g.remote = 0 ∧ g.pushes = []) →
      let wide := sc = .die ∨ sc = .device ∨ sc = .system
      ((¬ wide) → s.finishFence gid = s.modGroup gid fun x => { x with fence := none, switching := false }) ∧
      (wide → s.finishFence gid =
        (let t := if k = .acq then s else s.writeBackDie g.ctx (dieOf g.core)
         if k = .rel then t else t.dropDie g.ctx (dieOf g.core)).modGroup gid fun x =>
          { x with fence := none, switching := false }))

/-! Tasks, counters and launches (14_queue.md, 15_kernel.md). -/

/-- TKGET spends the checkpoint and waits for a grant; TKPUT posts a task record that passes its checks where a slot
is free; TKDONE takes iterations off its slot, which retires at 0 and then has no pending range (R334 to R338, R340,
R395). A grant takes half of the
pending range in grains, rounded down, from its end, and all of it where at most one grain is left; the slot keeps
the rest (R337). -/
def Obligations.TaskWordsAndGrants : Prop :=
  ((∀ try_ (d : Reg), Completes (.tkget try_ d) (fun _ v => v.lanes ≠ [] ∧ v.acquires) fun s v =>
     (s.spend v.g.team).waitFor v (.tkget v.o (v.lanes.map fun L => v.g.regIdx L d.val) try_)) ∧
   (∀ (r : Reg) (ws : List Word), ws.length = 5 → Completes (.tkput r)
     (fun s v => v.operandsAt r.val ws ∧ recordOk v.g.code.words ws = true ∧ v.releases ∧ s.slotRoom (s.clusterOf v.g) ≠ 0)
     fun s v => (s.postTask (s.clusterOf v.g) ws).spend v.g.team) ∧
   ∀ (r : Reg) (hd n : Word) (k : Cluster), Completes (.tkdone r)
     (fun s v => v.operandsAt r.val [hd, n] ∧ lookup (s.clusterOf v.g) s.clusters = some k ∧
       (k.slot (hd.toNat % 64)).full = true ∧ (k.slot (hd.toNat % 64)).gen = hd.toNat / 65536 ∧
       n.toNat ≤ (k.slot (hd.toNat % 64)).remain ∧ v.releases ∧ (n ≠ 0 → n.toNat = (k.slot (hd.toNat % 64)).remain →
         recWord (k.slot (hd.toNat % 64)).task 2 ≤ (k.slot (hd.toNat % 64)).next))
     fun s v =>
       let t := k.slot (hd.toNat % 64)
       let s1 := s.modCluster (s.clusterOf v.g) fun c => c.setSlot (hd.toNat % 64) { t with remain := t.remain - n.toNat }
       (if n ≠ 0 ∧ t.remain = n.toNat then s1.doChores (s.clusterOf v.g) [.retire (hd.toNat % 64)] else s1).spend v.g.team) ∧
  (∀ (c : Cluster) (n : Nat),
     let t := c.slot n
     let pe := recWord t.task 2
     let g := 2 ^ bitsOf (recWord t.task 3) 16 5
     let units := (pe - t.next + g - 1) / g
     let words := fun b : Nat => [t.task.getD 0 0, BitVec.ofNat 32 b, BitVec.ofNat 32 pe, t.task.getD 4 0,
       BitVec.ofNat 32 (n + 65536 * t.gen)]
     (units ≤ 1 → c.grant n = (words t.next, c.setSlot n { t with next := pe })) ∧
     (1 < units → c.grant n = (words (pe - g * (units / 2)),
       c.setSlot n { t with task := t.task.set 2 (BitVec.ofNat 32 (pe - g * (units / 2))) })))

/-- DCSET arms a counter, with its task if it has one; with a count of 0 it leaves the counter Idle and posts the task
where a slot is free, and waits where none is; a counter that is Armed, or operands that break the rule, take the
object-operand trap (kind 10). DCDEC decrements the lanes' counters in ascending order, and takes the object-operand
trap for a number above 255. Both make a release and spend the checkpoint. GCOND writes a condition word of the graph
that launched the kernel, and has no effect where no graph did. A poisoned operand takes the poison-consumption trap;
with no thread enabled none of them has any effect (R350 to R352, R356). A decrement lowers an armed counter; the one
that brings it to 0 makes it Idle, or has its task posted where a slot is free, until when the task waits and the count
stays 0; a decrement of a counter that is Idle or at 0 is discarded and counted (R349). That a DCSET with a count of 0
waits for a slot is the model's choice (assumption log 22). -/
def Obligations.CounterWordsAndDecrements : Prop :=
  ((∀ (r : Reg) (w n : Word) (task : List Word), task.length = 5 →
     let fits := n.toNat < 2 ^ 24 ∧ w.toNat / 256 % 2 ^ 23 = 0
     let may := fun (s : State) (v : View) => v.operandsAt r.val (w :: n :: task) ∧
       (w.getLsbD 31 = true → recordOk v.g.code.words task = true) ∧
       ∃ k, lookup (s.clusterOf v.g) s.clusters = some k ∧ lookup (w.toNat % 256) k.counters = none
     (fits → n ≠ 0 → Completes (.dcset r) (fun s v => may s v ∧ v.releases) fun s v =>
       let x : Counter := ⟨n.toNat, if w.getLsbD 31 then some task else none⟩
       (s.modCluster (s.clusterOf v.g) fun k =>
         { k with counters := insertAt (w.toNat % 256) x k.counters }).spend v.g.team) ∧
     (fits → n = 0 →
       Completes (.dcset r) (fun s v => may s v ∧ v.releases ∧ w.getLsbD 31 = false) (fun s v => s.spend v.g.team) ∧
       Completes (.dcset r) (fun s v => may s v ∧ v.releases ∧ w.getLsbD 31 = true ∧ s.slotRoom (s.clusterOf v.g) ≠ 0)
         (fun s v => (s.postTask (s.clusterOf v.g) task).spend v.g.team) ∧
       ∀ s o g, Issues s o g → may s ⟨o, g⟩ → (View.mk o g).releases → w.getLsbD 31 = true →
         s.slotRoom (s.clusterOf g) = 0 → exec (.dcset r) s = .next (s.stallAt o .tkput)) ∧
     ∀ s o g, Issues s o g → (View.mk o g).operandsAt r.val (w :: n :: task) →
       (¬ fits ∨ (w.getLsbD 31 = true ∧ recordOk g.code.words task = false) ∨
         ∃ k x, lookup (s.clusterOf g) s.clusters = some k ∧ lookup (w.toNat % 256) k.counters = some x) →
       exec (.dcset r) s = .next (s.trapAtIssue o { kind := 10, tmask := (View.mk o g).en })) ∧
   (∀ x : OpA, x.ar.val < 28 →
     let a := fun (v : View) => v.source (some (x.ap.val, x.ar.val))
     Completes (.dcdec x) (fun _ v => v.lanes ≠ [] ∧ v.cleanA (.dcdec x) ∧ (∀ L ∈ v.lanes, (a v L).val.toNat < 256) ∧ v.releases)
       (fun s v => (v.lanes.foldl (fun t L => t.decrement (s.clusterOf v.g) (a v L).val.toNat) s).spend v.g.team) ∧
     ∀ s o g, Issues s o g → (View.mk o g).cleanA (.dcdec x) →
       (∃ L ∈ (View.mk o g).lanes, 256 ≤ (a ⟨o, g⟩ L).val.toNat) →
       exec (.dcdec x) s = .next (s.trapAtIssue o { kind := 10, tmask := (View.mk o g).en })) ∧
   (∀ (n : Fin 8) (x : OpA) (w : Word) (k : Kernel), x.ar.val < 28 →
     let may := fun (s : State) (v : View) => v.lowestWord (.gcond n x) w ∧ lookup (s.kernelOf v.g) s.kernels = some k
     (∀ gr node, k.owner = .node gr node → Completes (.gcond n x) may
       fun s _ => { s with graphs := modifyAt gr (fun g => { g with cond := g.cond.set n.val w }) s.graphs }) ∧
     ∀ q idx, k.owner = .entry q idx → Completes (.gcond n x) may fun s _ => s) ∧
   (∀ (x : OpA) (n : Fin 8) (r : Reg), x.ar.val < 28 → ∀ i, (i = .dcset r ∨ i = .dcdec x ∨ i = .gcond n x) →
     Completes i (fun _ v => v.lanes = []) fun s _ => s) ∧
   (∀ (x : OpA) (n : Fin 8) (r : Reg) s o g L Ls, x.ar.val < 28 → Issues s o g → (View.mk o g).lanes = L :: Ls →
     let v : View := ⟨o, g⟩
     let a := v.source (some (x.ap.val, x.ar.val))
     let trap := fun i m => exec i s = .next (s.trapAtIssue o { kind := 2, detail := BitVec.ofNat 32 L, tmask := m })
     ((∃ i < 7, (g.reg L (r.val + i)).psn = true) → trap (.dcset r) (maskOf (· == L))) ∧
     ((a L).psn = true → trap (.dcdec x) (maskOf fun J => v.on J && (a J).psn) ∧ trap (.gcond n x) (maskOf (· == L))))) ∧
  (∀ (kept : Nat) (c : Cluster) (d dc : Nat),
     let lost := chore kept (c, d) (.decrement dc) = ((c, d + 1), [])
     let to_ := fun (x : Counter) => { c with counters := insertAt dc x c.counters }
     (lookup dc c.counters = none → lost) ∧
     (∀ k, lookup dc c.counters = some k →
       (k.count = 0 → lost) ∧
       (1 < k.count → chore kept (c, d) (.decrement dc) = ((to_ { k with count := k.count - 1 }, d), [])) ∧
       (k.count = 1 → k.task = none → chore kept (c, d) (.decrement dc) = (({ c with counters := eraseAt dc c.counters }, d), [])) ∧
       (k.count = 1 → k.task ≠ none → chore kept (c, d) (.decrement dc) = ((to_ { k with count := 0 }, d), [.fill]))) ∧
     (∀ r, c.waitingCounter = some (dc, r) →
       (kept < c.freeSlots → chore kept (c, d) .fill = (({ c with counters := eraseAt dc c.counters }, d), [.post r, .fill])) ∧
       (c.freeSlots ≤ kept → chore kept (c, d) .fill = ((c, d), []))) ∧
     ∀ r n, c.freeSlot = some n → recWord r 1 < recWord r 2 → chore kept (c, d) (.post r) = ((c.take n r, d), []) ∧
       (c.take n r).slot n = { full := true, task := r, next := recWord r 1, remain := recWord r 2 - recWord r 1
                               gen := ((c.slot n).gen + 1) % 65536, seq := c.taskSeq })

/-- LAUNCH writes its 64 bytes as the next entry of a queue of its context with room, rings the queue's doorbell, and
spends the checkpoint; near copies go home first. To a ring in host memory the words are written each with its own
poison, and to nowhere with the port down. A queue that the context does not have, or that is Disabled or in Error,
gives the object-operand trap (kind 10); a full queue makes it wait (R353, R391, R395, R449). What a LAUNCH does whose ring page
fails, whose queue holds a fault record, or whose port is down, is the model's choice (assumption log 41). -/
def Obligations.LaunchWritesQueueEntry : Prop :=
  (∀ (x : OpM) (ql a : Word) (c : Ctx), x.ar.val < 28 →
    let q := packageQueue c.mode c.dev ql.toNat
    let names := fun (s : State) (v : View) => lookup v.g.ctx s.ctxs = some c ∧
      (∃ L, v.first = some L ∧ v.g.reg L x.d.val = PWord.ok ql ∧ v.source (some (x.ap.val, x.ar.val)) L = PWord.ok a) ∧
      spadCheck s v true 64 64 (PWord.ok a) = none ∧ s.heldBack v (s.ref v 64 a) 64 = none
    let good := fun (s : State) (v : View) => ql.toNat < 8192 / c.mode ∧ (s.queue q).ctx = v.g.ctx ∧
      (s.queue q).st ≠ .disabled ∧ (s.queue q).st ≠ .error
    (∀ t : State, Completes (.launch x)
      (fun s v => names s v ∧ good s v ∧ v.releases ∧ (s.queue q).outstanding < 2 ^ (s.queue q).log2n ∧ (s.queue q).fault = none ∧
        let w := s.writeBackDie v.g.ctx (dieOf v.g.core)
        let y := w.launchWrite q v.g.ctx ((s.queue q).entryAddr (s.queue q).wr)
          (w.spadWords (s.ref v 64 a).core (s.ref v 64 a).off 16)
        (∃ b p, y = .got b p t) ∨ y = .fail t)
      fun s v => (t.ring q (BitVec.ofNat 32 ((s.queue q).wr + 1))).spend v.g.team) ∧
    ∀ s o g, Issues s o g → names s ⟨o, g⟩ →
      (¬ good s ⟨o, g⟩ → exec (.launch x) s = .next (s.trapAtIssue o { kind := 10, tmask := (View.mk o g).en })) ∧
      (good s ⟨o, g⟩ → (View.mk o g).releases →
        2 ^ (s.queue q).log2n ≤ (s.queue q).outstanding ∨ (s.queue q).fault ≠ none →
        exec (.launch x) s = .next (s.stallAt o (.launch q)))) ∧
  ∀ (s : State) q ctx a ws, (s.queue q).space = false →
    (s.portReach (s.homeDie q) (s.funcOf ctx) a = .ok → s.launchWrite q ctx a ws =
      .got [] false ((ws.mapIdx fun i w => (a + 4 * i, w)).foldl (fun t x => t.hostWrite x.1
        ((List.range 4).map fun j => byteOf x.2.val.toNat j) x.2.psn) s)) ∧
    (s.portReach (s.homeDie q) (s.funcOf ctx) a = .down → s.launchWrite q ctx a ws = .got [] false s)

/-! Reflections, loans and special registers (13_reflection.md, 16_context.md). -/

/-- REFL whose pages are all translated and pass their checks subscribes its lanes, and spends the checkpoint; where a
translation is missing it waits for a walk, holding its slots (R317 to R319, R326, R395). UNREFL ends the reflections
that its lanes name, each with a result outstanding until it retires; RSEQ reads COUNT and the flag word of each lane's
reflection, 0 where there is none; RACK clears PEND and OVR of a reflection whose COUNT its operand equals, and waits
where a load is still open; both wait for a REFL of the team that holds a slot they name (R320 to R322, R326). That a REFL holds
its slots while it waits for its pages is the model's choice (assumption log 47). -/
def Obligations.Reflections : Prop :=
  (∀ (pd : Pred) (ar : Reg) (z : ReflSize),
     let size := ReflSize.bytes z
     let ls := fun (v : View) => v.lanes.map fun L => (L, (v.g.reg L ar.val).val,
       (v.g.reg L (ar.val + 1)).val.toNat + 4294967296 * (v.g.reg L (ar.val + 2)).val.toNat)
     let may := fun (s : State) (v : View) => v.lanes ≠ [] ∧ (∀ i < 3, v.cleanReg (ar.val + i)) ∧
       s.passes v true size size (v.lanesReg ar.val) ∧ ∀ L ∈ v.lanes, s.reflBad v.g size (ls v) L = 0
     (∀ go, Completes (.refl pd ar z)
       (fun s v => may s v ∧ (∀ x ∈ ls v, s.tlbHit v.g.core v.g.ctx x.2.2 .read ≠ none) ∧
         let r := (s.spend v.g.team).reflOutcomes v.g.core v.g.ctx (ls v) []
         r.2.reflCheck v.g size r.1 = .go go)
       fun s v => ((s.spend v.g.team).reflOutcomes v.g.core v.g.ctx (ls v) []).2.subscribe v.o.gid pd.val size go) ∧
     Completes (.refl pd ar z) (fun s v => may s v ∧ ∃ x ∈ ls v, s.tlbHit v.g.core v.g.ctx x.2.2 .read = none)
       fun s v => ((s.spend v.g.team).reflWalk v.o.gid v.g (ls v)).waitFor v (.refl v.o pd.val size (ls v) none [])) ∧
  (let named := fun (s : State) (v : View) (a : Lanes) L => s.reflAt v (s.ref v 8 (a L).val).off
   let may := fun (s : State) (v : View) (a : Lanes) =>
     ∀ L ∈ v.lanes, (a L).psn = false ∧ spadCheck s v true 8 8 (a L) = none
   let free := fun (s : State) (v : View) (a : Lanes) =>
     ∀ h ∈ s.heldSlots v.g.core, h.1 = v.g.team → ∀ L ∈ v.lanes, (s.ref v 8 (a L).val).off ≠ h.2.1
   (∀ x : OpA, x.ar.val < 28 →
     let a := fun (v : View) => v.source (some (x.ap.val, x.ar.val))
     (∀ s o g, Issues s o g → (View.mk o g).lanes ≠ [] → may s ⟨o, g⟩ (a ⟨o, g⟩) → ¬ free s ⟨o, g⟩ (a ⟨o, g⟩) →
       ∃ offs, exec (.unrefl x) s = .next (s.stallAt o (.reflSlots offs))) ∧
     Completes (.unrefl x) (fun s v => v.lanes ≠ [] ∧ may s v (a v) ∧ free s v (a v)) fun s v =>
       ((v.lanes.filterMap fun L => (named s v (a v) L).map (·.1)).foldl (fun t n =>
         if lookup n t.refls = none then t
         else ({ t.receive v [{ due := none, src := t.nextId, target := .mark, val := PWord.zero }] with
           nextId := t.nextId + 1 } : State).unsubscribe n (some t.nextId)) (s.spend v.g.team))) ∧
   (∀ x : OpM, x.ar.val < 28 →
     let a := fun (v : View) => v.source (some (x.ap.val, x.ar.val))
     (x.d.val < 27 → Completes (.rseq false x) (fun s v => may s v (a v)) fun s v =>
       (s.receive v (v.results s.now x.d.val 10 fun L => match named s v (a v) L with
         | some r => PWord.ok r.2.count
         | none => PWord.zero)).receive v (v.results s.now (x.d.val + 1) 10 fun L => match named s v (a v) L with
         | some r => PWord.ok r.2.flags
         | none => PWord.zero)) ∧
     (x.d.val < 27 → ∀ L0 Ls, Completes (.rseq true x) (fun s v => v.lanes = L0 :: Ls ∧ v.acquires ∧ may s v (a v)) fun s v =>
       ((s.acquireAt v.g.ctx v.g.core .device).receive v (v.results s.now x.d.val 10 fun L => match named s v (a v) L with
         | some r => PWord.ok r.2.count
         | none => PWord.zero)).receive v (v.results s.now (x.d.val + 1) 10 fun L => match named s v (a v) L with
         | some r => PWord.ok r.2.flags
         | none => PWord.zero)) ∧
     (∀ s o g, Issues s o g → may s ⟨o, g⟩ (a ⟨o, g⟩) → (View.mk o g).cleanReg x.d.val →
       (¬ free s ⟨o, g⟩ (a ⟨o, g⟩) → ∃ offs, exec (.rack x) s = .next (s.stallAt o (.reflSlots offs))) ∧
       ((∃ L ∈ (View.mk o g).lanes, ∃ n r, named s ⟨o, g⟩ (a ⟨o, g⟩) L = some (n, r) ∧ r.st = .registering) →
         free s ⟨o, g⟩ (a ⟨o, g⟩) → ∃ ids, exec (.rack x) s = .next (s.stallAt o (.reflLoad ids)))) ∧
     Completes (.rack x) (fun s v => may s v (a v) ∧ free s v (a v) ∧ v.cleanReg x.d.val ∧
         ∀ L ∈ v.lanes, ∀ n r, named s v (a v) L = some (n, r) → r.st ≠ .registering)
       fun s v => v.lanes.foldl (fun t L => match named s v (a v) L with
         | some (n, r) => if r.count = (v.g.reg L x.d.val).val then
             (t.modRefl n fun y => { y with pend := false, ovr := false }).modTeam v.g.team fun m => { m with
               ckpt := m.ckpt.map fun c => if c.spent then c else { c with racked := n :: c.racked } } else t
         | none => t) s))

/-- LEND opens a loan, or lets a loan grow, over granules of the principal's allotments; one that would shrink an open
loan eclipses it first; while granules return already, the map is put in force afterwards; an empty map opens nothing.
RECALL eclipses the loan and waits for its granules (R371, R372, R374). That a LEND during a return sets the map of afterwards is
the model's choice (assumption log 43). -/
def Obligations.LoansOpenAndReturn : Prop :=
  (∀ (x : OpA) (m : Word), x.ar.val < 28 →
    let may := fun (s : State) (v : View) => v.lowestWord (.lend x) m ∧ v.g.shade = false ∧ s.mapBad v.g.ctx v.g.core m = false
    Completes (.lend x) (fun s v => may s v ∧ m ≠ 0 ∧ (s.loan v.g.ctx v.g.core).returning = none ∧
        ((s.loan v.g.ctx v.g.core).isOpen = true → (s.loan v.g.ctx v.g.core).map &&& ~~~m = 0))
      (fun s v => (s.spend v.g.team).openLoan v.g.ctx v.g.core m) ∧
    Completes (.lend x) (fun s v => may s v ∧ (s.loan v.g.ctx v.g.core).returning = none ∧
        (s.loan v.g.ctx v.g.core).isOpen = true ∧ (s.loan v.g.ctx v.g.core).map &&& ~~~m ≠ 0)
      (fun s v => (s.spend v.g.team).startEclipse v.g.ctx v.g.core m) ∧
    Completes (.lend x) (fun s v => may s v ∧ (s.loan v.g.ctx v.g.core).returning ≠ none)
      (fun s v => (s.spend v.g.team).setLoan v.g.ctx v.g.core { s.loan v.g.ctx v.g.core with after := m }) ∧
    Completes (.lend x) (fun s v => may s v ∧ m = 0 ∧ (s.loan v.g.ctx v.g.core).returning = none ∧
        ((s.loan v.g.ctx v.g.core).isOpen = true → (s.loan v.g.ctx v.g.core).map = 0))
      fun s v => s.spend v.g.team) ∧
  ∀ d : Reg, Completes (.recall d) (fun _ v => v.lanes ≠ [] ∧ v.g.shade = false ∧ v.acquires) fun s v =>
    ((s.spend v.g.team).startEclipse v.g.ctx v.g.core 0).waitFor v (.recall v.o (v.lanes.map fun L => v.g.regIdx L d.val)
      (if (s.loan v.g.ctx v.g.core).isOpen then (s.loan v.g.ctx v.g.core).map else 0))

/-- SRD delivers special registers 6 cycles after issue, the wide ones as a pair; those of a copy engine need q0 bound to
a command queue, and take the queue-binding trap (kind 3) where it is not. Their values are those of Table 16-6. SWR of
LEASE clears LOST of a shade's loan where an enabled lane's bit 33 is 1; a poisoned source takes the poison-consumption
trap (R381, R382, Table 16-6). -/
def Obligations.SpecialRegisters : Prop :=
  (∀ d sr : Reg, d.val < 28 → (srWide sr.val = true → d.val < 27) →
    let bound := fun (v : View) => (v.bound 0).toNat / 32 = 1
    Completes (.srd d sr) (fun _ v => 12 ≤ sr.val → sr.val ≤ 17 → v.lanes = [] ∨ bound v) (fun s v =>
      let low := v.results s.now d.val 6 fun L => PWord.ok (BitVec.ofNat 32 (srValue s v sr.val L))
      let high := v.results s.now (d.val + 1) 6 fun L => PWord.ok (BitVec.ofNat 32 (srValue s v sr.val L / 2 ^ 32))
      if srWide sr.val then (s.receive v low).receive v high else s.receive v low) ∧
    ∀ s o g, Issues s o g → 12 ≤ sr.val → sr.val ≤ 17 → (View.mk o g).lanes ≠ [] → ¬ bound ⟨o, g⟩ →
      exec (.srd d sr) s = .next (s.trapAtIssue o
        { kind := 3, detail := ((View.mk o g).bound 0).zeroExtend 32, tmask := (View.mk o g).en })) ∧
  (∀ (s : State) (v : View) (t : Team) (k : Cluster) (c : Ctx) (kn : Kernel) (L : Nat), lookup v.g.team s.teams = some t →
    lookup t.cluster s.clusters = some k → lookup v.g.ctx s.ctxs = some c → lookup t.kernel s.kernels = some kn →
    let e := s.engine ((v.g.ctx * 1024 + v.g.core) * 4 + (v.bound 0).toNat % 4)
    let l := s.loan (if c.shade then c.princ else v.g.ctx) v.g.core
    srValue s v 0 L = L ∧ srValue s v 1 L = v.g.num ∧ srValue s v 2 L = k.index ∧ srValue s v 3 L = v.g.core ∧
    srValue s v 4 L = v.g.core / 256 ∧ srValue s v 5 L = t.clx ∧ srValue s v 6 L = t.cly ∧ srValue s v 7 L = t.rank ∧
    srValue s v 8 L = s.shownMode c + 16 * c.dev + 256 * ((deviceDies c.mode c.dev).map (2 ^ ·)).foldl (· + ·) 0 ∧
    srValue s v 9 L = v.g.ctx + 2 ^ 16 * c.shade.toNat + 2 ^ 17 * c.priv.toNat + 2 ^ 18 * c.prio ∧
    srValue s v 10 L = c.preq.toNat ∧ srValue s v 11 L = (s.now + (s.core v.g.core).cycBase) % 2 ^ 64 ∧
    srValue s v 12 L = e.posted ∧ srValue s v 13 L = e.done ∧ (∀ i < 4, srValue s v (14 + i) L = e.wp.getD i 0) ∧
    srValue s v 18 L = l.map.toNat + 2 ^ 32 * l.isOpen.toNat + 2 ^ 33 * (v.g.shade && l.lost).toNat +
      2 ^ 34 * l.idle.toNat + 2 ^ 48 * (l.ecl % 2 ^ 16) ∧
    srValue s v 19 L = kn.arga) ∧
  ∀ (sr : Reg) (x : OpA),
    let pair := fun (v : View) L => v.g.pairAt (v.src x.ap.val L) x.ar.val
    Completes (.swr sr x) (fun _ v => v.g.shade = true ∧ (∀ L ∈ v.lanes, (pair v L).1 = false) ∧
        ∃ L ∈ v.lanes, (pair v L).2 / 2 ^ 33 % 2 = 1)
      (fun s v => s.setLoan (s.princOf v.g.ctx) v.g.core { s.loan (s.princOf v.g.ctx) v.g.core with lost := false }) ∧
    Completes (.swr sr x) (fun _ v => (∀ L ∈ v.lanes, (pair v L).1 = false) ∧
        (v.g.shade = false ∨ ∀ L ∈ v.lanes, (pair v L).2 / 2 ^ 33 % 2 = 0))
      (fun s _ => s) ∧
    ∀ s o g L Ls, Issues s o g → ((View.mk o g).lanes.filter fun J => (pair ⟨o, g⟩ J).1) = L :: Ls →
      exec (.swr sr x) s = .next (s.trapAtIssue o { kind := 2, detail := BitVec.ofNat 32 L
                                                    tmask := maskOf fun J => (View.mk o g).on J && (pair ⟨o, g⟩ J).1 })

/-! Traps, handlers and groups (07_group.md, 17_faults.md). -/

/-- A trap of a group whose context has a handler: the group becomes Trapped with its record, its packet in progress
is given up, and its handler group is due; nothing of another group, of memory or of the scratchpad changes (R383
to R387). A trap without a handler, and a trap of a handler group, are unhandled: the trap is logged as class 16,
and the group, with the group that a handler group serves, begins to exit (R383, R385, R398). A trap of a group
that is Trapped already is recorded, the first one only; a trap of an Exiting group is ignored (R385). The trap
record: kind, cause and position; slot, number and core; the active set and TMASK; packet address, word, operands
of the lowest trapping lane, DETAIL and literal; cluster index, context, CYC and the joining threads (Table 17-2). What the log
entry of class 16 holds (assumption log 13), and what a group keeps of its waiting time (log 21), are the model's choices. -/
def Obligations.TakingATrap : Prop :=
  (∀ (s : State) gid (g : Group) (c : Ctx) (rcd : List PWord), lookup gid s.groups = some g → g.st ≠ .exiting →
     g.st ≠ .trapped → g.handles = none → lookup g.ctx s.ctxs = some c → c.handler ≠ none →
     s.takeTrap gid rcd = s.setGroup gid { g with
       st := .trapped, since := if g.st = .waiting then g.since else s.now, unit := none, record := some rcd
       handler := .due }) ∧
  (∀ (s : State) gid (g : Group) (rcd : List PWord), lookup gid s.groups = some g → g.st ≠ .exiting → g.st ≠ .trapped →
     let logged := s.logError ⟨g.core / 256, g.ctx, 16, false, 0, g.core, 0, s.cyc g.core, (rcd.getD 0 PWord.zero).val⟩
     (∀ h, g.handles = some h → s.takeTrap gid rcd = logged.endGroups [gid, h]) ∧
     (g.handles = none → (∀ c, lookup g.ctx s.ctxs = some c → c.handler = none) →
       s.takeTrap gid rcd = logged.endGroups [gid])) ∧
  (∀ (s : State) gid (g : Group) (rcd : List PWord), lookup gid s.groups = some g →
     (g.st = .exiting → s.takeTrap gid rcd = s) ∧
     (g.st = .trapped → s.takeTrap gid rcd = s.setGroup gid { g with
       second := match g.second with
         | some r => some r
         | none => some rcd })) ∧
  (∀ (s : State) (g : Group) (o : Issue) (mask : Word) (t : Trap) (L : Nat) (Ls : List Nat), lanesOf t.tmask = L :: Ls →
     let r := trapRecord s g o mask t
     let num := fun n : Nat => PWord.ok (BitVec.ofNat 32 n)
     r.length = 16 ∧ r.getD 0 PWord.zero = num (t.kind + t.cause * 2 ^ 8 + o.pos * 2 ^ 16) ∧
     r.getD 1 PWord.zero = num (g.slot + g.num * 2 ^ 7 + g.core * 2 ^ 22) ∧ r.getD 2 PWord.zero = PWord.ok mask ∧
     r.getD 3 PWord.zero = PWord.ok t.tmask ∧ r.getD 4 PWord.zero = num o.k ∧ r.getD 5 PWord.zero = PWord.ok o.insn ∧
     r.getD 6 PWord.zero = o.opa.getD L PWord.zero ∧ r.getD 7 PWord.zero = o.opb.getD L PWord.zero ∧
     r.getD 8 PWord.zero = PWord.ok t.detail ∧ r.getD 9 PWord.zero = PWord.ok o.lit ∧ r.getD 10 PWord.zero = num (s.clusterIndex g) ∧
     r.getD 11 PWord.zero = num g.ctx ∧
     r.getD 12 PWord.zero = num (s.cyc g.core % 2 ^ 32) ∧ r.getD 13 PWord.zero = num (s.cyc g.core / 2 ^ 32) ∧
     r.getD 14 PWord.zero = PWord.ok (g.lanesWith fun t => t.st == .joining) ∧ r.getD 15 PWord.zero = PWord.zero)

/-- TRES of the running handler of a Trapped group: with no lane of the mask unfit and its stores performed, the
handler's writes take effect, the lanes out of the mask exit, the group leaves Trapped or takes the trap recorded
meanwhile, and the handler group ends; TKILL ends the handler group and the trapped group, or its whole team
(R385, R388 to R390). TRES and TKILL in a group that handles no trap take the privilege trap (kind 5), whether or
not a thread is enabled (R97, R390). -/
def Obligations.HandlersEnd : Prop :=
  ((∀ (x : OpA) (keep : Word) (hid : Nat) (h : Group), x.ar.val < 28 →
     Completes (.tres x) (fun s v => v.g.handles = some hid ∧ v.lowestWord (.tres x) keep ∧ lookup hid s.groups = some h ∧
         h.st = .trapped ∧ h.handler = .running v.o.gid ∧ v.releases ∧
         ∀ L < 32, keep.getLsbD L = true → tresBad s v h L = false)
       fun s v =>
         let h1 := (applyView v.g h (s.cyc v.g.core) keep).resume (s.cyc v.g.core) s.now
         ((((((s.logView hid v.g h).setGroup hid h1).endGroups [v.o.gid]).evalJoins hid).checkDeadlock hid).checkExit hid)) ∧
   ∀ (team : Bool) (hid : Nat) (h : Group), Completes (.tkill team)
     (fun s v => v.lanes ≠ [] ∧ v.g.handles = some hid ∧ lookup hid s.groups = some h ∧ h.st = .trapped ∧
       h.handler = .running v.o.gid)
     fun s v => (s.endGroups [v.o.gid]).endGroups (if team then s.barGroups h.team else [hid])) ∧
  (∀ i, ((∃ x, i = .tres x) ∨ ∃ b, i = .tkill b) → ∀ s o g, s.cur = some o → lookup o.gid s.groups = some g →
     g.handles = none → exec i s = .next (s.trapAtIssue o { kind := 5, tmask := (View.mk o g).en }))

/-- Groups enter the active set, wake, park and come back: the Pending group that has waited longest takes a free slot
of the 8; the woken Parked group, or the Trapped group whose view a handler wants, that waits longest takes its frame
back when there is room, and frees its image; where there is none, the group that entered Waiting first parks its
frame, a Trapped one staying Trapped, where its image has room and it has no matrix work outstanding (R158 to R161).
An Exiting group with nothing outstanding retires: its image and its slot are freed, and its team has one group less;
a sleeping thread whose wake cycle has come is ready, and a group that waited for its sleepers is Pending, a Parked
one woken with its threads asleep; a trapped group's handler group starts with the handler descriptor's view, as a
woken Parked group (R162, R163, R175, R383, R384). Equal waiting times are settled by the model (log 21). A handler whose code page
suspends waits for the service's answer, and one whose page fails leaves the trap unhandled: the model's choice (log 14). -/
def Obligations.GroupEvents : Prop :=
  ((∀ (s : State) core shade gid g,
     waitsLongest s.groups (fun p => p.2.core == core && p.2.shade == shade && p.2.st == .pending) gid g →
     (s.activeSet core shade).length < 8 →
     ∃ slot < 8, (∀ p ∈ s.activeSet core shade, p.2.aslot ≠ slot) ∧
       exec (.activeSetEntry core shade) s = .next (s.setGroup gid { g with st := .active, since := s.now, aslot := slot })) ∧
   (∀ (s : State) core shade gid g, waitsLongest s.groups (s.wantsFrame core shade) gid g →
     s.roomFor core shade g.frameSize = true →
     let back := { g with resident := true, image := false, woken := false }
     exec (.unpark core shade) s = .next ((s.freeImage g).setGroup gid
       (if g.st = .parked then { back with st := .pending, since := s.now } else back))) ∧
   ∀ (s : State) core wid w gid g, waitsLongest s.groups (s.wantsFrame core false) wid w →
     s.roomFor core false w.frameSize = false → waitsLongest s.groups (parksNext core) gid g →
     (∃ p ∈ s.groups, p.2.core = core ∧ p.2.shade = false ∧ p.2.st = .waiting) →
     s.parkRoom g.ctx (dieOf core) (imageBytes g.frameSize) = true → (∀ x ∈ readAt [] s.mwork core, x.gid ≠ gid) →
     let away := { g with resident := false, image := true, woken := false }
     exec (.eviction core) s = .next ((s.usePark g.ctx (dieOf core) (imageBytes g.frameSize)).setGroup gid
       (if g.st = .trapped then away else { away with st := .parked, since := s.now }))) ∧
  ((∀ (s : State) gid g, lookup gid s.groups = some g → g.st = .exiting → g.outstanding = [] → g.pushes = [] → g.remote = 0 →
     (∀ w ∈ readAt [] s.mwork g.core, w.gid ≠ gid) →
     let freed := { s.freeImage g with groups := eraseAt gid s.groups }
     exec (.groupRetire gid) s = .next (if g.handles = none then freed.modTeam g.team fun t => { t with left := t.left - 1 }
       else freed)) ∧
   (∀ (s : State) gid g L, lookup gid s.groups = some g → (g.thread L).st = .sleeping → (g.thread L).wake ≤ s.cyc g.core →
     g.lastIssue ≤ s.now → g.st ≠ .trapped →
     let awake := g.modThread L fun t => { t with st := .ready, waitCount := 0 }
     (g.st ≠ .parked → exec (.sleepWake gid L) s = .next (s.setGroup gid
       (if g.wait = .sleepers ∧ g.st = .waiting then { awake with st := .pending, since := s.now, wait := .none }
        else if g.wait = .sleepers then { awake with wait := .none } else awake))) ∧
     (g.st = .parked → g.wait = .sleepers → exec (.sleepWake gid L) s = .next (s.setGroup gid
       { g with wait := .none, woken := true, since := s.now }))) ∧
   ∀ (s t : State) gid g (c : Ctx) slot d code pages, lookup gid s.groups = some g → lookup g.ctx s.ctxs = some c →
     s.freeSchedSlot g.core = some slot → c.handler = some (d, code) → g.st = .trapped → g.handler = .due →
     s.codePages g.ctx (deviceDies code.mode code.dev) code.base code.words = (some pages, t) →
     ∃ h : Group, exec (.handlerGroupStart gid) s =
         .next (({ t with nextId := t.nextId + 1 }.setGroup gid { g with handler := .running s.nextId }).setGroup s.nextId h) ∧
       h.handles = some gid ∧ h.priv = true ∧ h.core = g.core ∧ h.team = g.team ∧ h.num = g.num ∧ h.ctx = g.ctx ∧
       h.shade = g.shade ∧ h.slot = slot ∧ h.st = .parked ∧ h.woken = true ∧ h.resident = false ∧ h.since = s.now ∧
       h.code = { code with pages := pages } ∧ h.regs = d.regs ∧ h.tsz = d.tsz ∧ h.accn = d.accn ∧ h.ptab = 0 :: d.ptab ∧
       h.qbind = d.qbind ∧ h.frame = [] ∧ ∀ L < 32, (h.thread L).pc = d.entry ∧ (h.thread L).st = .ready) ∧
  ∀ (s t : State) gid g (c : Ctx) slot d code, lookup gid s.groups = some g → lookup g.ctx s.ctxs = some c →
     s.freeSchedSlot g.core = some slot → c.handler = some (d, code) → g.st = .trapped → g.handler = .due →
     let dies := deviceDies code.mode code.dev
     s.codePages g.ctx dies code.base code.words = (none, t) →
     (∀ die va r, s.codeStop g.ctx dies code.base code.words = some (die, va, r) →
       let f := t.fault die g.ctx va false g.core 0 0 3 r 0 0
       exec (.handlerGroupStart gid) s = .next (f.2.setGroup gid { g with handler := .held (die * 4294967296 + f.1) })) ∧
     (s.codeStop g.ctx dies code.base code.words = none →
       exec (.handlerGroupStart gid) s = .next ((t.logUnhandled g (g.record.getD [])).endGroups [gid]))

/-- The results of a group that have become available are written, in issue order: a result lands when its latency has
passed and no earlier result for the same frame word or predicate stays outstanding; a frame word is written under its
mask, a predicate of a thread with its value and poison; the others stay outstanding in their order, and a switch wait
ends with the last of them (R77, R78). A
remote access is performed at its target core, in the order in which the group sent its accesses there, and takes the
L pipe there: a load's words and an atomic's old words become available to its group; a store's words
are written; and the group counts one access less. Steps at objects happen lane by lane, from core to core; where the objects must
be clean, all lanes act together, or none of them and the word traps. A test reads the objects of its lanes in order, from core to
core, and its words become available with the last (R187, R195, R196, R238, R246, R248, R254; where several cores are named, the
model's reading, assumption log 23). -/
def Obligations.ResultsAreWrittenBack : Prop :=
  (∀ (s : State) n (r : Remote), lookup n s.inflight = some r → s.remoteFirst n r = true → s.passMay r = true →
     let t : State := { s with inflight := eraseAt n s.inflight }
     let p := t.occupyNext r.target 4 r.busy
     let team := ((lookup r.gid s.groups).map (·.team)).getD 0
     let less := fun g : Group => { g with remote := g.remote - 1 }
     let gives := fun (u : State) late vals => exec (.remoteAccessComplete n) s =
       .next (u.modGroup r.gid fun g => less (g.deliver (s.now + late) n vals))
     (∀ x ls, r.op = .load x ls → gives p r.late (ls.map fun y => (y.1, loadLane x (s.spadWord r.target) y.2))) ∧
     (∀ x ls, r.op = .atom x ls →
       let q := stepLanes (fun u (y : Nat × List PWord) => atomStep u team r.target y.1 x y.2) ls p
       gives q.2 r.late q.1) ∧
     (∀ x ls, r.op = .cas x ls →
       let q := stepLanes (fun u (y : Nat × List PWord × List PWord) => casStep u team r.target y.1 x y.2.1 y.2.2) ls p
       gives q.2 r.late q.1) ∧
     (∀ ws, r.op = .store ws → exec (.remoteAccessComplete n) s = .next ((p.spadWrites team r.target ws).modGroup r.gid less)) ∧
     (∀ as rest read, r.op = .test (as ++ rest) read → (∀ y ∈ as, y.2.1 = r.target) →
       let got := read ++ as.map fun y => (y.1, [s.testWord y.2.1 y.2.2])
       (rest = [] → gives t r.late got) ∧
       ∀ y more, rest = y :: more → y.2.1 ≠ r.target → exec (.remoteAccessComplete n) s =
         .next { t with inflight := insertAt n { r with target := y.2.1, op := .test rest got } t.inflight }) ∧
     (∀ o check acts, r.op = .objects o check acts →
       let steps := fun (as : List (Nat × Nat × Nat × ObjAct)) => as.foldl (fun u a => objStep u team a.2.1 a.2.2.1 a.2.2.2) t
       let bad := maskOf fun L => check && acts.any fun a => a.1 == L && wordsPsn (s.object a.2.1 a.2.2.1)
       (bad = 0 → check = true ∨ (∀ a ∈ acts, a.2.1 = r.target) → gives (steps acts) 0 []) ∧
       (check = false → ∀ as a rest, acts = as ++ a :: rest → (∀ y ∈ as, y.2.1 = r.target) → a.2.1 ≠ r.target →
         exec (.remoteAccessComplete n) s = .next { steps as with
           inflight := insertAt n { r with target := a.2.1, op := .objects o false (a :: rest) } (steps as).inflight }) ∧
       (bad ≠ 0 → exec (.remoteAccessComplete n) s = .next ((t.modGroup r.gid fun g => { less g with
         outstanding := g.outstanding.filter fun x => x.src != n || x.due.isSome }).trapInWait o
           { kind := 2, detail := BitVec.ofNat 32 ((lanesOf bad).headD 0), tmask := bad })))) ∧
  (∀ (s : State) gid g, lookup gid s.groups = some g →
     let r := landList gid g.outstanding [] s
     exec (.resultWriteback gid) s = .next (r.1.modGroup gid fun x =>
       { x with outstanding := r.2, switching := x.switching && !r.2.isEmpty })) ∧
  (∀ (s : State) gid kept, landList gid [] kept s = (s, kept.reverse)) ∧
  (∀ (s : State) gid r rs kept d, r.due = some d → d ≤ s.now →
     (∀ k ∈ kept, k.target = r.target → r.target = .mark) → landList gid (r :: rs) kept s = landList gid rs kept (match r.target with
       | .word i => s.writeFrame gid i r.val r.mask
       | .pred L p => s.modGroup gid fun g => g.modThread L fun t => t.setPred p (r.val.val.getLsbD 0) r.val.psn
       | .mark => s)) ∧
  ∀ (s : State) gid r rs kept, (r.due = none ∨ (∃ d, r.due = some d ∧ s.now < d) ∨
      r.target ≠ .mark ∧ ∃ k ∈ kept, k.target = r.target) →
    landList gid (r :: rs) kept s = landList gid rs (r :: kept) s

/-! Copy engines, stacks, matrix engines and reflections: events. -/

/-- Words pushed to a queue land: of a group's pushes, the first that may land with no earlier one of its queue left. A
command queue's engine context takes them, and accepts each command whose words are all there, numbering it next; a
word of unknown code finishes with BADCMD; an ASTC is accepted as it is; a record for the range-task queue is checked
and posted, and a push to a host ring goes to the core's outbound buffer; poisoned words take the poison trap (R96,
R97, R198, R339, R342). A command starts when the rules of its channel and its fences allow (R225 to R227), and no
granule it reads is held back: it takes its start mark, after the WriteBack of a release at die scope or wider; one
that fails a check finishes with the status of the first, and the others move; COPYL takes its record from the core's
cache, or waits to read it (R204, R210, R228, R230). That a malformed record for the range-task queue traps when it lands is the
model's choice (assumption log 12), and so is when an ASTC counts as accepted (log 24). -/
def Obligations.CommandsAreAcceptedAndStart : Prop :=
  ((∀ (s : State) gid (g : Group) (p : Push), lookup gid s.groups = some g → landingPush (s.pushMay g) g.pushes [] = some p →
     let t := s.setGroup gid { g with pushes := g.pushes.erase p }
     let q := p.code.toNat % 32
     let key := engineId g.ctx g.core (p.code.toNat % 4)
     let r := p.words.map (·.val)
     let poisoned := ∀ L Ls, lanesOf p.badLanes = L :: Ls → exec (.queuePushLands gid) s =
       .next (t.trapAtLanding p.origin { kind := 2, detail := BitVec.ofNat 32 L, tmask := p.badLanes })
     (p.code.toNat / 32 = 1 → p.esize = 0 → poisoned ∧
       (p.badLanes = 0 → exec (.queuePushLands gid) s = .next (acceptAll 1024 key (t.setEngine key { t.engine key with
         queue := (t.engine key).queue ++ p.words.map fun w => ⟨w.val, gid, g.team, g.ctx⟩ })))) ∧
     (p.code.toNat / 32 = 1 → p.esize ≠ 0 → exec (.queuePushLands gid) s = .next (t.accept key
       { core := g.core, e := p.code.toNat % 4, num := 0, words := r, gid := gid, team := g.team, ctx := g.ctx
         plan := p.plan, esize := p.esize })) ∧
     (p.code.toNat / 32 = 3 → poisoned ∧
       (p.badLanes = 0 → recordOk g.code.words r = true →
         exec (.queuePushLands gid) s = .next ((t.postTask (t.clusterOf g) r).spend g.team)) ∧
       (p.badLanes = 0 → recordOk g.code.words r = false → exec (.queuePushLands gid) s =
         .next (t.trapAtLanding p.origin { kind := 10, tmask := maskOf fun L => p.lanes.contains L }))) ∧
     (p.code.toNat / 32 = 4 → ∀ k, lookup (t.kernelOf g) t.kernels = some k → exec (.queuePushLands gid) s =
       .next (t.setCore g.core { t.core g.core with
         outbound := (t.core g.core).outbound ++ [⟨g.ctx, q, (readAt ([], true) k.rings q).1, p.words⟩] }))) ∧
   (∀ may (ps : List Push) p, landingPush may ps [] = some p → ∃ before after, ps = before ++ p :: after ∧ may p = true ∧
     (∀ u ∈ before, u.code ≠ p.code) ∧
     ∀ b u b', before = b ++ u :: b' → may u = true → ∃ w ∈ b, w.code = u.code) ∧
   (∀ (s : State) fuel key, ((s.engine key).queue = [] → acceptAll (fuel + 1) key s = s) ∧
     ∀ w ws, (s.engine key).queue = w :: ws →
       let n := max 1 (cmdWords (w.val.toNat / 2 ^ 24))
       ((w :: ws).length < n → acceptAll (fuel + 1) key s = s) ∧
       (n ≤ (w :: ws).length → acceptAll (fuel + 1) key s = acceptAll fuel key
         ((s.setEngine key { s.engine key with queue := (w :: ws).drop n }).accept key
           { core := key / 4 % 1024, e := key % 4, num := 0, words := ((w :: ws).take n).map (·.val), gid := w.gid
             team := w.team, ctx := w.ctx }))) ∧
   ∀ (s : State) key (c : Cmd),
     let posted := { c with num := (s.engine key).posted + 1 }
     let t := { s.setEngine key { s.engine key with posted := (s.engine key).posted + 1 } with
       cmds := insertAt s.nextId posted s.cmds, nextId := s.nextId + 1 }
     let rank := ((lookup c.team s.teams).map (·.rank)).getD 0
     let u := if spendsAtAccept posted rank then t.spend c.team else t
     s.accept key c = if cmdWords c.op = 0 ∧ c.esize = 0 then u.finish s.nextId 2 else u) ∧
  (∀ (s : State) n (c0 : Cmd), s.cmd n = some c0 → c0.st = .posted →
     (∀ x, lookup c0.ctx s.ctxs = some x → x.forced = false) →
     (c0.node = none →
       let fenced := fun x : Cmd => bitsOf (x.w 0) 10 4
       (∀ p ∈ s.cmds, p.2.key = c0.key → p.2.node = none → p.2.num < c0.num → p.2.acq = false ∧ c0.rel = false ∧
         (c0.op = 8 → p.2.op ≠ 8 → bitOf (fenced c0) p.2.ch = false) ∧
         (c0.op ≠ 8 → p.2.op ≠ 8 → p.2.ch ≠ c0.ch) ∧ (c0.op ≠ 8 → p.2.op = 8 → bitOf (fenced p.2) c0.ch = false)) ∧
       (c0.rel = true → ∀ g, lookup c0.gid s.groups = some g → g.remote = 0)) →
     (∀ t, s.startHold c0 = some t → exec (.commandStart n) s = .next t) ∧
     (s.startHold c0 = none →
       let t := if c0.rel ∧ 4 ≤ c0.scope then s.writeBackDie c0.ctx (dieOf c0.core) else s
       let c := { c0 with mark := (t.engine c0.key).wp.getD c0.ch 0, st := .moving }
       (c.op ≠ 2 →
         let r := t.startChecks c
         let k := r.checks
         (k.status ≠ 0 → exec (.commandStart n) s = .next ((t.setCmd n r.cmd).finish n (if k.field then 3
           else if k.format then 1 else if k.align then 4 else if k.bounds then 5 else 14))) ∧
         (k.status = 0 → exec (.commandStart n) s = .next (t.begin_ n r.cmd))) ∧
       (c.op = 2 →
         let cached := (t.core c.core).layouts.find? fun x => x.1 == c.addr false 3 && x.2.1 == c.w 7 % 65536
         (c.addrBad false 3 = true ∨ c.w 3 % 64 ≠ 0 → exec (.commandStart n) s =
           .next ((t.setCmd n (t.startCopyl c none).cmd).finish n (t.startCopyl c none).checks.status)) ∧
         (c.addrBad false 3 = false → c.w 3 % 64 = 0 →
           (∀ x, cached = some x → exec (.commandStart n) s = .next (t.resolveCopyl n c x.2.2 false)) ∧
           (cached = none → exec (.commandStart n) s = .next (t.setCmd n { c with unread := true, n := 0 }))))))

/-- A command finishes in the order of R234: its open run lands; the near-copy writes of REL and the acquire of ACQ at die
scope or wider, where it has started; it leaves its lane, and a table that it was loading there is dropped; the write
pointer at the start mark plus the byte count; the completion object, or the receivers of an MCAST that have not arrived;
the timeline; and, for a status other than 0 or RPT, the status record. An object in granules that are lent, or not yet
zeroed, holds the last three back until it can be reached (R371, R373). A copy node of a graph only ends its node, its queue
in Error only for a status that the program caused (R355). A command that never started takes the pointer as it stands, and
the count of its words (R227 to R229, R234 to R236, R359, R434 to R436, R493). Model's choices: what a word count is where a
shape block was not read (assumption log 24), the wait for a granule (log 25), the order of the receivers (log 26), a node's
other failures (log 40). -/
def Obligations.FinishActions : Prop :=
  (∀ (s : State) n code (c0 : Cmd), s.cmd n = some c0 → c0.late = none →
    let c := if c0.st = .posted then { c0 with bytes := c0.wordCount } else c0
    let wide := 4 ≤ c.scope ∧ c.st ≠ .posted
    let t := s.flush c c.line
    let u := if c.rel ∧ c.nc ∧ wide then t.writeBackDie c.ctx (dieOf c.core) else t
    let s0 := (if c.acq ∧ wide then u.dropDie c.ctx (dieOf c.core) else u).leaveLanes n
    (∀ gr node, c.node = some (gr, node) → s.finish n code = { s0 with
      cmds := eraseAt n s0.cmds
      graphs := modifyAt gr (fun g => { g with ended := g.ended ++
        [(node, if code ∈ [0, 8, 9] then 0 else if statusT code then 5 else failedQuietly)] }) s0.graphs }) ∧
    (c.node = none →
      let e := s0.engine c.key
      let d := { c with mark := if c.st = .posted then e.wp.getD c.ch 0 else c.mark }
      s.finish n code =
        (if c.op = 8 then s0 else s0.setEngine c.key { e with wp := e.wp.set c.ch (d.mark + c.bytes) }).complete n d code)) ∧
  (∀ (s : State) n code later (c : Cmd), s.cmd n = some c → c.late = some later → s.finish n code = s.complete n c later) ∧
  (∀ (s : State) n (c : Cmd) code,
    (∀ t, s.completionHold c = some t → s.complete n c code =
      t.setCmd n { c with st := .moving, late := some code, line := none, want := none, fault := none }) ∧
    (s.completionHold c = none →
      let t := if c.op = 7 then ((s.chain c).drop c.arrived).foldl (fun t r => t.receiverArrives c code r) s
        else s.completionUpdate c code
      let e := (t.engine c.key).finishNum c.num
      s.complete n c code = { t.setEngine c.key (if code ≠ 0 ∨ c.rpt then e.report c code else e) with cmds := eraseAt n t.cmds })) ∧
  (∀ (s : State) n l (x : TxLane), lookup l s.txlanes = some x →
    (n ∉ x.queue → lookup l (s.leaveLanes n).txlanes = some x) ∧
    (n ∈ x.queue → ∃ y, lookup l (s.leaveLanes n).txlanes = some y ∧ y.queue = x.queue.filter (· ≠ n) ∧ y.owner = x.owner ∧
      (x.busy = true → x.queue.head? = some n → y.busy = false ∧ y.table = if x.owner = none then [] else x.table) ∧
      (x.busy = false ∨ x.queue.head? ≠ some n → y.busy = x.busy ∧ y.table = x.table))) ∧
  (∀ (s : State) (c : Cmd) code r, c.mute = false → completionBad c.completion = false → c.completion % 16 = 0 →
    s.cmdRef c false 16 (c.completion % 2 ^ 25) = some r →
    (bitsOf c.completion 30 2 = 0 → s.completionUpdate c code = s) ∧
    (bitsOf c.completion 30 2 = 1 → s.completionUpdate c code = s.arrive c.team r.core r.off (-(c.bytes : Int)) (code != 0)) ∧
    (bitsOf c.completion 30 2 = 2 → s.completionUpdate c code =
      s.fillRing c.team r.core r.off (code != 0 && code != 8 && code != 9))) ∧
  (∀ (e : Engine) n,
    let e1 := e.finishNum n
    e.done ≤ e1.done ∧ (∀ k, e.done < k → k ≤ e1.done → k = n ∨ k ∈ e.finished) ∧ e1.done + 1 ∉ e1.finished ∧
    ∀ k, k ∈ e1.finished ↔ (k = n ∨ k ∈ e.finished) ∧ ¬ (e.done < k ∧ k ≤ e1.done)) ∧
  ∀ (e : Engine) (c : Cmd) code,
    (e.status.length ≤ 252 → (e.report c code).ovf = false ∧ (e.report c code).status = e.status ++
      [BitVec.ofNat 32 c.num,
       BitVec.ofNat 32 (code + 256 * c.op + 65536 * c.ch + 2 ^ 30 * e.ovf.toNat + 2 ^ 31 * (statusT code).toNat),
       BitVec.ofNat 32 c.k, BitVec.ofNat 32 (c.k / 2 ^ 32 % 65536)]) ∧
    (252 < e.status.length → e.report c code = { e with ovf := true })

/-- Elements land, MCAST receivers arrive, stack atomics are applied and transducer lanes start, each for a command
that stands ready for it: the layout record it waits for; the element, line run, byte, step or chunk that is next, or
the finish after the last; one receiver's arrival, and the finish after the last; ATOMC and REDC at the stack, with
their new values and the old one in the result block; the first command that waits at an idle lane: TXLOAD takes the
lane, and is refused where it belongs to another live context; TXRUN starts at the table's start state, and is refused
where its context does not own the lane (R216, R218, R219, R222, R223, R230, R250, R434 to R436). The value of an element is
that of its source, by its coordinates or its index entry; its destination takes the bytes of the value's encoding, or those
of FILL's code, and its poison, at a scratchpad or in the open run of a line, and an element whose index entry is poisoned
writes nothing (R207, R213 to R215, R236). A home write leaves its bytes in their line, as they read from then on; a sector
written whole takes the poison of what was written, any other keeps what it had unless poison was written (R391). That one
event lands the elements of a line or word, how runs end, and that a failed MCAST's receivers arrive with it are the model's
choices (assumption logs 26, 28), and so is the order of an element's accesses (log 25). -/
def Obligations.TransfersProceed : Prop :=
  (∀ (s : State) n (c : Cmd), s.cmd n = some c → c.st = .moving → c.late = none →
    (c.unread = true → c.op = 2 → exec (.elementLands n) s = .next (s.fetchRecord n c)) ∧
    (c.unread = false →
      (c.op = 12 → ∀ code, s.waitcDone c = some code → exec (.elementLands n) s = .next (s.finish n code)) ∧
      (c.op = 13 → ∀ p x, s.devPlace c 1 true (c.addr false 1 : Int) = .ok (p, x) →
        let d := { (if s.placeDown c p then c.note 9 else c) with k := 1 }
        let t := if s.placeDown c p then s else s.write c.agent ((List.range 4).map fun i => byteOf (c.w 3) i) false p
        exec (.elementLands n) s = .next (((t.setPointer d 32).setCmd n d).finish n d.code)) ∧
      ((s.lane c.lane).busy = true → (s.lane c.lane).queue.head? = some n →
        (c.op = 14 → exec (.elementLands n) s = .next (s.loadStep n c)) ∧
        (c.op = 15 → exec (.elementLands n) s = .next (s.runStep n c))) ∧
      (c.op = 16 → exec (.elementLands n) s = .next (s.prefetch n c)) ∧
      (c.op ∉ [7, 9, 10, 12, 13, 14, 15, 16] → c.n ≤ c.k →
        let t := s.flush c c.line
        let d := { c with line := none }
        exec (.elementLands n) s = .next (((t.setPointer c c.elemBits).setCmd n d).finish n c.code)) ∧
      (c.op ∉ [9, 10, 12, 13, 14, 15, 16] → c.k < c.n →
        let r := landRun 256 s c c.line c.word
        exec (.elementLands n) s = .next (r.1.afterLanding n r.2.1 r.2.2)) ∧
      (c.op ∉ [9, 10, 12, 13, 14, 15, 16, 128] → c.k < c.n → c.run < 4096 →
        ∀ t d, s.landElement c c.line c.word = .ok t d none none → exec (.elementLands n) s =
          .next ((t.setPointer d d.elemBits).afterLanding n { d with line := none, word := none } none)))) ∧
  (∀ (s : State) n (c : Cmd), s.cmd n = some c → c.st = .moving → c.late = none → c.op = 7 → c.unread = false → c.n ≤ c.k →
    (∀ r, (s.chain c)[c.arrived]? = some r →
      let held := (s.receiverPlace c r).bind fun p => s.spadHold c p 16
      (∀ t, held = some t → exec (.mcastReceiverArrival n) s = .next t) ∧
      (held = none →
        let t := (s.receiverArrives c c.code r).setCmd n { c with arrived := c.arrived + 1 }
        exec (.mcastReceiverArrival n) s = .next (if (s.chain c).length ≤ c.arrived + 1 then t.finish n c.code else t))) ∧
    ((s.chain c)[c.arrived]? = none → exec (.mcastReceiverArrival n) s = .next ((s.setCmd n c).finish n c.code))) ∧
  (∀ (s : State) n (c : Cmd) p x, s.cmd n = some c → c.st = .moving → c.late = none → c.op = 9 →
    s.devPlace c 1 true (c.addr false 1 : Int) = .ok (p, x) → s.placeDown c p = false →
    ∀ r, s.cmdRef c true c.bytes (c.w 4) = some r → s.spadHold c r c.bytes = none →
      let words := c.bytes / 4
      let a : Agent := { c.agent with ro := false, nc := false, atStack := true }
      let old := s.read a c.bytes p
      let here := bytesNat old.1.bytes
      let first := c.aux.take words
      let writes := fun v psn => old.2.write a ((List.range c.bytes).map fun i => byteOf v i) psn p
      let d := { c with k := 1 }
      let done := fun t : State => (((t.putWords c.team r.core r.off
        (if old.1.psn then List.replicate words PWord.poison else natWords words here)).setPointer d (8 * c.bytes)).setCmd n d).finish n c.code
      let op := bitsOf (c.w 0) 10 4
      (op ≠ 7 → exec (.stackAtomicApply n) s = .next (done (if old.1.psn ∨ wordsPsn first then writes 0 true
        else writes (atomValue (atomcTy (bitsOf (c.w 0) 8 2)) (atomcOp op) here (wordsNat first)) false))) ∧
      (op = 7 → exec (.stackAtomicApply n) s = .next (done
        (if old.1.psn = false ∧ wordsPsn first = false ∧ here = wordsNat first
          then writes (wordsNat (c.aux.drop words)) (wordsPsn (c.aux.drop words)) else old.2)))) ∧
  (∀ (s : State) n (c : Cmd) code psn down t p x, s.cmd n = some c → c.st = .moving → c.late = none → c.op = 10 →
    s.readElem c c.shape.src 0 (c.k : Int) = .ok (code, psn, down, t) →
    t.devPlace c 1 true ((c.shape.dst.base + c.k * c.shape.dst.fmt.size : Nat) : Int) = .ok (p, x) → t.placeDown c p = false →
      let f := c.shape.dst.fmt
      let a : Agent := { c.agent with ro := false, nc := false, atStack := true }
      let old := t.read a f.size p
      let w := reduce c.shape.rop (if old.1.psn then .psn else decode f false (bytesNat old.1.bytes))
        (if psn then .psn else decode f false code)
      let e : Enc := if f = .i32 ∧ c.shape.rop = 1 then
          (if w = .psn then ⟨0, true, false⟩ else ⟨(code + bytesNat old.1.bytes) % 2 ^ 32, false, true⟩)
        else encodeVal f w .rne false
      let d := { (if down then c.note 9 else c) with k := c.k + 1, run := c.run + 1 }
      exec (.stackAtomicApply n) s =
        .next (((old.2.write a ((List.range f.size).map fun i => byteOf e.code i) e.psn p).setPointer d (Fmt.bits f)).afterLanding
          n d none)) ∧
  (∀ (s : State) n (c : Cmd) l, s.cmd n = some c → (s.lane l).queue.head? = some n → (s.lane l).busy = false →
    let refused := s.finish n 13
    (c.op = 14 → (∀ x, (s.lane l).owner = some x → x = c.ctx ∨ s.ctxLive x = false) → exec (.txLaneStart l) s =
      .next (s.setLane l { s.lane l with owner := none, table := [], busy := true })) ∧
    (c.op = 14 → ∀ x, (s.lane l).owner = some x → x ≠ c.ctx → s.ctxLive x = true → exec (.txLaneStart l) s = .next refused) ∧
    (c.op = 15 → (s.lane l).owner = some c.ctx → exec (.txLaneStart l) s = .next
      ((s.setLane l { s.lane l with busy := true }).setCmd n
        { c with tx := { st := tableWord (s.lane l).table 0 / 256 % 256 } })) ∧
    (c.op = 15 → (s.lane l).owner ≠ some c.ctx → exec (.txLaneStart l) s = .next refused)) ∧
  (∀ (s : State) (c : Cmd) run word, c.shape.fill = none → c.shape.dst.blk = 0 → c.vals = [] →
    ∀ t d v, s.srcValue c c.k = (t, d, .ok v) → s.landElement c run word = t.putElement { d with vals := [v] } run word v) ∧
  (∀ (s : State) (c : Cmd) run word, c.shape.fill ≠ none → s.landElement c run word = s.putElement c run word .psn) ∧
  (∀ (s : State) (c : Cmd) n, c.shape.src.blk = 0 →
    let sh := c.shape
    let cs := coordsOf sh.ext n
    let reads := fun (d : Cmd) (at_ : List Int) => ∀ code psn down t,
      s.readElem d sh.src 0 (sh.src.off sh.srcExt at_) = .ok (code, psn, down, t) → s.srcValue c n =
        (t, (if down then d.note 9 else d), .ok (if psn then .psn else decode sh.src.fmt sh.zx code))
    (sh.idx ∈ [.none, .scat, .bscat] → reads c ((if sh.tr then swap01 cs else cs).map Int.ofNat)) ∧
    (sh.idx = .gath → ∀ x, lookup (cs.getD 1 0) c.entries = some x →
      (x.psn = true → s.srcValue c n = (s, c.note 8, .ok .psn)) ∧
      (x.psn = false → reads c ((cs.map Int.ofNat).set 1 x.val.toNat)))) ∧
  (∀ (s : State) (c : Cmd) (d : SideD) slot (o : Int), d.fmt ≠ .e2m1 →
    let n := d.fmt.size
    (d.spad = true → ∀ r, s.spadPlace c d.base (o * n) n = .ok r → s.readElem c d slot o =
      .ok (leNat (fun i => s.spadByte r.core (r.off + i)) n, s.spadBad r.core r.off n, false, s)) ∧
    (d.spad = false → ∀ p x, s.devPlace c slot false ((d.base : Int) + o * n) = .ok (p, x) →
      let got := s.read c.agent n p
      s.readElem c d slot o = .ok (leNat (fun i => got.1.bytes.getD i 0) n, got.1.psn || x.psn, got.1.down, got.2))) ∧
  (∀ (s : State) (c : Cmd) run v,
    (∀ d, s.dstCoords c = (d, .ok none) → ∀ word, s.putElement c run word v = .ok s
      { d.note 8 with resid := d.residual, k := d.k + 1, vals := d.vals.drop 1, run := d.run + 1 } run word) ∧
    ∀ d cs ds, s.dstCoords c = (d, .ok (some cs)) → c.shape.rop = 0 → c.shape.dst.blk = 0 →
      let f := c.shape.dst.fmt
      let o := c.shape.dst.off c.shape.ext cs
      s.destAt d c.shape.dst.base 1 (elemByte f o) (elemBytes f) = .ok ds →
      let enc := match c.shape.fill with
        | some code => ((⟨code, false, true⟩ : Enc), d)
        | none => d.encodeNext v
      (∀ t run1, s.deliverPiece d run (pieceOf f o enc.1) ds = some (t, run1) → (∀ x ∈ ds, ∃ p a, x = .dev p a) → ds ≠ [] →
        let c1 := if s.anyDown d ds then enc.2.note 9 else enc.2
        s.putElement c run none v = .ok t { c1 with k := c1.k + 1, vals := c1.vals.drop 1, run := c1.run + 1 } run1 none) ∧
      ∀ team core p, ds = [.spad team core p] →
        let keeps := (f = .rn8 ∨ f = .rn16) ∧ v = .psn ∧ c.shape.fill = none
        let t := (s.pieceSpad team core p (pieceOf f o enc.1)).closeWord (if keeps then none else WordRun.of ds (pieceOf f o enc.1))
        s.putElement c run none v =
          .ok t.1 { enc.2 with k := enc.2.k + 1, vals := enc.2.vals.drop 1, run := enc.2.run + 1 } run t.2) ∧
  (∀ (s : State) w, s.closeWord none = (s, none) ∧ (w.mask ≠ 4294967295 → s.closeWord (some w) = (s, some w)) ∧
    ∀ team core i, w.places = [(team, core, i)] → w.mask = 4294967295 → s.closeWord (some w) =
      (s.writeSpad team core i ⟨(s.spadWord core i).val, w.psn⟩ (BitVec.allOnes 32), none)) ∧
  (∀ (s : State) team core p (x : Piece), x.nibble = none → p + x.bytes.length ≤ 262144 →
    let t := s.pieceSpad team core p x
    (∀ i b, x.bytes[i]? = some b → t.spadByte core (p + i) = if x.psn then 0 else b) ∧
    (∀ i < x.bytes.length, x.psn = true → (t.spadWord core ((p + i) / 4)).psn = true) ∧
    (∀ a, a < p ∨ p + x.bytes.length ≤ a → t.spadByte core a = s.spadByte core a) ∧
    ∀ w, (∀ i < x.bytes.length, (p + i) / 4 ≠ w) → t.spadWord core w = s.spadWord core w) ∧
  (∀ (s : State) (c : Cmd) (x : Piece) stack off pa, x.nibble = none → s.placeDown c (.dev stack off) = false →
    ((s.hints c.agent).nc = false ∨ stack / 4 = dieOf c.core) →
    let w := lineWrite c.agent stack off x.bytes x.psn
    s.deliverPiece c none x [.dev (.dev stack off) pa] = some (s, some { w := w, pa := pa, bytes := x.bytes.length, near := false }) ∧
    ∀ l : LineW, l.w.stack = stack → l.w.line = off / 128 → l.near = false → ∃ l1 : LineW,
      s.deliverPiece c (some l) x [.dev (.dev stack off) pa] = some (s, some l1) ∧ l1.w.stack = stack ∧ l1.w.line = off / 128 ∧
      l1.near = false ∧ l1.w.psn = l.w.psn ++ w.psn ∧ (∀ b ∈ w.bytes, b ∈ l1.w.bytes) ∧
      ∀ b ∈ l.w.bytes, (∀ y ∈ w.bytes, y.1 ≠ b.1) → b ∈ l1.w.bytes) ∧
  (∀ (s : State) (c : Cmd) (l : LineW), l.near = false → s.flush c (some l) =
    (if l.w.stack / 4 = dieOf c.core then s else s.charge c.agent (dieOf c.core) l.bytes).homeWrite l.w) ∧
  ∀ (s : State) (w : HomeWrite), (∀ b ∈ w.bytes, b.1 < 128) → (w.bytes.map (·.1)).Nodup →
    let t := s.homeWrite w
    let line := 128 * w.line
    (w.atStack = false →
      (∀ b ∈ w.bytes, t.homeByte w.stack (line + b.1) = b.2) ∧
      (∀ i < 128, i / 32 ∈ w.sectors → (∀ b ∈ w.bytes, b.1 ≠ i) → t.homeByte w.stack (line + i) = s.homeByte w.stack (line + i)) ∧
      ∀ k ∈ w.sectors, t.sectorPsn w.stack (line + 32 * k) =
        if k ∈ w.psn then true else if w.whole k then false else s.sectorPsn w.stack (line + 32 * k)) ∧
    (w.atStack = true → s.mayPack w.stack line = false →
      (∀ b ∈ w.bytes, t.homeByte w.stack (line + b.1) = b.2) ∧ ∀ k ∈ w.sectors, k ∈ w.psn ∨ w.whole k = true →
        t.sectorPsn w.stack (line + 32 * k) = decide (k ∈ w.psn))

/-- The matrix engine applies, of a core's works, the first MMA that heads its tile's: every element of the rows it names
takes the products of its row and column; its signal is given, once. A conversion ends 32 cycles after it could start:
AZERO's elements are 0, AGIVE's have the residues of the words captured, ATAKE's have words again and the tile is held
(R292, R293, R297 to R299, R306). An MSLD transfer writes its scale bytes at its end (R289). Reflections: held stores
leave in one push 64 cycles after the last, a push is applied in the order of its home and counts its stores in every
live or unsubscribing reflection; the load of a reflection writes the slot and makes it live, with a die in reset lost;
and an unsubscribed reflection retires after the pushes that left before (R313, R314, R319, R320, R323). When the matrix engine's
flags and words appear (assumption log 45), when pushes leave and loads are made (log 47), and their ways (log 30), are the
model's choices. -/
def Obligations.MatrixAndReflectionEvents : Prop :=
  (∀ (s : State) core w g a b sig before after, s.works core = before ++ w :: after → w.ready ≠ none → w.kind = .mma a b sig →
    (∀ u ∈ before, u.ready = none ∨ ∀ x y z, u.kind ≠ .mma x y z) → lookup w.gid s.groups = some g →
    let t := (s.applyWork core w).setWorks core (dropWork s.now w.gid w.tile (s.works core))
    exec (.mmaApply core) s = .next (match sig with
      | some dep => (t.modTeam g.team fun x => { x with ckpt := x.ckpt.map fun c => c.signalled w.gid w.tile }).decrement (t.clusterOf g) dep
      | none => t)) ∧
  (∀ (s : State) gid t g w r before after, lookup gid s.groups = some g → s.works g.core = before ++ w :: after →
    w.gid = gid → w.tile = t → w.ready = some r → (∀ x y z, w.kind ≠ .mma x y z) →
    (∀ u ∈ before, u.gid = gid → u.tile = t → u.ready = none ∨ ∃ x y z, u.kind = .mma x y z) →
    r + 32 ≤ s.now → exec (.tileConversionEnd gid t) s =
      .next ((s.applyWork g.core w).setWorks g.core (dropWork s.now gid t (s.works g.core)))) ∧
  (∀ (s : State) core w g, lookup w.gid s.groups = some g →
    let tile := fun (f : TileInfo → TileInfo) (u : State) => u.modGroup w.gid fun x =>
      { x with tiles := writeAt {} w.tile (f (x.tile w.tile)) x.tiles }
    (∀ a b sig, w.kind = .mma a b sig → s.applyWork core w = s.writeTile w.gid w.tile fun e =>
      (lookup (e / 32) a).map fun row => mmaElem w.wide row (b.getD (e % 32) []) (g.elem w.tile e)) ∧
    (w.kind = .zero → s.applyWork core w = tile (fun y => { y with ginex := false, gsat := false })
      (s.writeTile w.gid w.tile fun _ => some (natPair 0))) ∧
    (∀ i64 ws, w.kind = .give i64 ws →
      let es := (List.range 1024).map fun e =>
        giveElem w.wide w.q i64 (readAt PWord.zero ws (2 * e), readAt PWord.zero ws (2 * e + 1))
      s.applyWork core w = tile (fun y => { y with ginex := es.any (·.2.2.1), gsat := es.any (·.2.2.2) })
        (s.writeTile w.gid w.tile fun e => (es[e]?).map fun x => natPair (toRes w.wide x.1 x.2.1))) ∧
    ∀ i64, w.kind = .take i64 →
      let ks := (List.range 1024).map fun e => takeKind w.wide (g.elem w.tile e)
      (∀ k ∈ ks, k ≠ .mismatch) → (∀ e < 1024, badBytes w.wide (pairNat (g.elem w.tile e)) = 0) →
      s.applyWork core w = tile (fun y => { y with
          st := .held
          xsat := ks.any fun k => match k with
            | .sat _ => true
            | _ => false
          xinv := ks.contains .invalid, xpsn := ks.contains .poison })
        (s.writeTile w.gid w.tile fun e => (ks[e]?).map (takeElem w.q i64))) ∧
  (∀ (s : State) core due off bs rest, (s.scaleMem core).xfers = (due, off, bs) :: rest → due ≤ s.now →
    exec (.msldTransferEnd core) s = .next (s.setScaleMem core { s.scaleMem core with
      xfers := rest
      bytes := (bs.mapIdx fun i b => (off + i, b)).foldl (fun t p => writeAt (s.scaleMem core).fill p.1 p.2 t) (s.scaleMem core).bytes })) ∧
  (∀ (s : State) n r c, s.ranges[n]? = some r → r.held ≠ 0 → r.last = some c → c + 64 ≤ s.now →
    exec (.pushCoalesceExpiry n) s = .next ((s.setRange { r with
      last := if (s.subscribers r).any fun p => p.2.skip < r.held then some s.now else r.last
      held := 0, rel := false }).sendPush { r with held := 0, rel := false } r.held r.rel)) ∧
  (∀ (s : State) n p, lookup n s.rpushes = some p →
    (∀ q ∈ s.rpushes, n ≤ q.1 ∨ q.2.home ≠ p.home ∨ q.2.core ≠ p.core) →
    let gone : State := { s with rpushes := eraseAt n s.rpushes }
    (s.reach (p.home / 64) (dieOf p.core) p.line = .ok →
      exec (.pushApply n) s = .next (p.to_.foldl (fun t x => t.pushSlot p x) gone)) ∧
    (s.reach (p.home / 64) (dieOf p.core) p.line = .down → exec (.pushApply n) s = .next gone)) ∧
  (∀ (s : State) p m count r, lookup m s.refls = some r →
    (r.st = .live ∨ r.st = .unsubscribing → s.pushSlot p (m, count) = (s.writeSlot r p.data p.psn).modRefl m fun y =>
      { y with count := y.count + BitVec.ofNat 32 count, ovr := y.ovr || y.pend, pend := true, relp := p.rel }) ∧
    (r.st = .registering ∨ r.st = .lost → s.pushSlot p (m, count) = s)) ∧
  (∀ (s : State) n r, lookup n s.refls = some r → r.st = .registering →
    let lands := fun (t : State) (r1 : Refl) =>
      let u := (t.deliverResult n (PWord.ok 1)).modRefl n fun _ => r1
      exec (.reflLoadLands n) s = .next (if r.leaving then u.unsubscribe n none else u)
    let done := { r with st := .lost, leaving := false, doomed := false }
    let same := fun x : WRange => x.stack = r.stack ∧ x.off = r.soff ∧ x.size = r.size
    (s.reach (dieOf r.core) (r.stack / 4) (r.soff / 128) = .ok → ∃ ranges held,
      (∃ x ∈ ranges, same x ∧ x.held = held) ∧ (∀ x ∈ s.ranges, same x → x ∈ ranges) ∧
      (∀ x ∈ ranges, x ∈ s.ranges ∨ same x ∧ x.held = 0) ∧
      lands ((({ s with ranges := ranges } : State).touchRange r.stack r.soff r.size).writeSlot r
          ((List.range r.size).map fun i => s.homeByte r.stack (r.soff + i))
          (r.bad || s.sectorPsn r.stack r.soff, r.bad || s.sectorPsn r.stack (r.soff + 32)))
        { done with
          st := if r.doomed then .lost else .live, pend := true, skip := held
          gap := r.again, count := if r.again then r.count else 0, ovr := r.again && r.ovr, relp := r.again && r.relp }) ∧
    (s.reach (dieOf r.core) (r.stack / 4) (r.soff / 128) = .down →
      (r.again = true → lands s done) ∧
      (r.again = false → lands (s.writeSlot r [] (true, true)) { done with count := 0, pend := false }))) ∧
  ∀ (s : State) n r, lookup n s.refls = some r → r.st = .unsubscribing →
    (∀ q ∈ s.rpushes, ∀ x ∈ q.2.to_, x.1 ≠ n) → exec (.unreflRetire n) s =
      .next (r.unrefs.foldl (fun t u => t.deliverResult u PWord.zero) { s with refls := eraseAt n s.refls })

/-! Work queues, kernels, graphs, contexts and pages: events. -/

/-- The register block of a work queue that the part has: EN = 1 enables a Disabled queue with a legal ring, Active where
words are pending, and puts one with an illegal ring, or with no context, into Error with BADRING; EN = 0 disables an
Idle queue, and one in Error when its started entries have ended, which it clears; SUSP suspends and resumes, and of a graph
of the queue that then stands at a phase boundary its program index is kept (R358); the doorbell sets WR, makes an Idle queue
Active, and one beyond the ring is OVERRUN; a write of a word of the block acts as Table 14-4 says: the ring's words only
while Disabled, read-only words never; offsets outside the blocks, and queues that the part lacks, do nothing (R2, R11,
R327 to R331, R450). Model's choices: which queues a part has (assumption log 7), when OVERRUN is found and what a fault
record holds back (log 39). -/
def Obligations.QueueRegisters : Prop :=
  (∀ (s : State) q wr, s.part.hasQueue q = false → exec (.wqEnable q) s = .next s ∧ exec (.wqDisable q) s = .next s ∧
    exec (.wqSuspend q) s = .next s ∧ exec (.wqUnsuspend q) s = .next s ∧ exec (.doorbell q wr) s = .next s) ∧
  (∀ (s : State) q, s.part.hasQueue q = true →
    let x := s.queue q
    let put := fun y : Queue => Host.Outcome.next (s.setQueue q y)
    let failed := fun (y : Queue) code idx => { y with
      st := .error, err := code, erridx := idx, fault := none, entries := y.entries.filter fun p => p.2.started }
    let illegal := x.log2n < 4 ∨ 16 < x.log2n ∨ (q < 8192 ∧ x.ctx = 0) ∨ (8192 ≤ q ∧ x.space = true)
    let fits := x.outstanding ≤ 2 ^ x.log2n
    let settled := ∀ p ∈ x.entries, s.atBoundary q p.1 p.2 = true
    let suspends := fun y : Queue => Host.Outcome.next { s.setQueue q { y with st := .suspended } with
      graphs := s.graphs.map fun p => if p.2.q = q then (p.1, p.2.index) else p }
    (x.st ≠ .disabled → exec (.wqEnable q) s = .next s) ∧
    (x.st = .disabled → illegal → exec (.wqEnable q) s = put (failed x 3 0)) ∧
    (x.st = .disabled → ¬ illegal → ¬ fits → exec (.wqEnable q) s = put (failed x 2 (x.done % 2 ^ 32))) ∧
    (x.st = .disabled → ¬ illegal → fits → x.pending = 0 → exec (.wqEnable q) s = put { x with st := .idle }) ∧
    (x.st = .disabled → ¬ illegal → fits → x.pending ≠ 0 → x.susp = false → exec (.wqEnable q) s = put { x with st := .active }) ∧
    (x.st = .disabled → ¬ illegal → fits → x.pending ≠ 0 → x.susp = true → x.fault = none → settled →
      exec (.wqEnable q) s = suspends x) ∧
    (x.st = .idle → exec (.wqDisable q) s = put { x with st := .disabled }) ∧
    (x.st = .error → (∀ p ∈ x.entries, p.2.live = false) → exec (.wqDisable q) s =
      put { x with st := .disabled, rd := x.wr, done := x.wr, err := 0, erridx := 0, entries := [], fault := none }) ∧
    (x.st = .error → (∃ p ∈ x.entries, p.2.live = true) → exec (.wqDisable q) s = .next s) ∧
    (x.st = .disabled ∨ x.st = .active ∨ x.st = .suspended → exec (.wqDisable q) s = .next s) ∧
    (x.st = .idle → exec (.wqSuspend q) s = put { x with st := .suspended, susp := true }) ∧
    (x.st = .active → x.fault = none → settled → exec (.wqSuspend q) s = suspends { x with susp := true }) ∧
    (x.st = .active → ¬ settled ∨ x.fault ≠ none → exec (.wqSuspend q) s = put { x with susp := true }) ∧
    (x.st = .disabled ∨ x.st = .error ∨ x.st = .suspended → exec (.wqSuspend q) s = put { x with susp := true }) ∧
    (x.st = .suspended → exec (.wqUnsuspend q) s = put { x with susp := false, st := if x.pending = 0 then .idle else .active }) ∧
    (x.st ≠ .suspended → exec (.wqUnsuspend q) s = put { x with susp := false }) ∧
    ∀ wr : Word,
      let y := { x with wr := wr.toNat }
      (x.st = .disabled ∨ x.st = .error → exec (.doorbell q wr) s = put y) ∧
      (x.st = .idle ∨ x.st = .active ∨ x.st = .suspended → 2 ^ y.log2n < y.outstanding →
        exec (.doorbell q wr) s = put (failed y 2 (y.done % 2 ^ 32))) ∧
      (x.st = .idle → y.outstanding ≤ 2 ^ y.log2n → x.susp = false → exec (.doorbell q wr) s = put { y with st := .active }) ∧
      (x.st = .suspended ∨ x.st = .active ∧ x.susp = false → y.outstanding ≤ 2 ^ y.log2n →
        exec (.doorbell q wr) s = put y)) ∧
  ∀ (s : State) func off (w : Word),
    (∀ q o, func < s.part.ports → o < 64 →
      (q < s.part.queues ∧ off = 0x100000 + 64 * q + o) ∨
        (∃ die < s.part.dies.length, q = 8192 + 4 * func + die ∧ off = 0x10000 + 64 * die + o) →
      let x := s.queue q
      let wrote := exec (.registerWrite func off w) s
      (o / 4 = 0 →
        let t := if q < 8192 then s.setQueue q { x with prio := w.toNat / 2 ^ 16 % 8 } else s
        let u := if w.getLsbD 31 then t.enableQueue q else t.disableQueue q
        wrote = .next (if w.getLsbD 30 then u.suspendQueue q else u.unsuspendQueue q)) ∧
      (o / 4 = 1 → x.st = .disabled → wrote = .next (s.setQueue q { x with space := w.getLsbD 31, log2n := w.toNat % 32 })) ∧
      (o / 4 = 2 → x.st = .disabled →
        wrote = .next (s.setQueue q { x with base := x.base / 2 ^ 32 * 2 ^ 32 + w.toNat })) ∧
      (o / 4 = 3 → x.st = .disabled →
        wrote = .next (s.setQueue q { x with base := w.toNat * 2 ^ 32 + x.base % 2 ^ 32 })) ∧
      (1 ≤ o / 4 → o / 4 ≤ 3 → x.st ≠ .disabled → wrote = .next s) ∧
      (o / 4 = 4 → wrote = exec (.doorbell q w) s) ∧ (5 ≤ o / 4 → wrote = .next s)) ∧
    (s.part.ports ≤ func ∨ off < 0x10000 ∨ (0x10000 + 64 * s.part.dies.length ≤ off ∧ off < 0x100000) ∨
      0x100000 + 64 * s.part.queues ≤ off → exec (.registerWrite func off w) s = .next s)

/-- A dispatcher fetches the next entry of a queue, from host or device memory; one that is poisoned or cannot be read
is FETCH, a malformed one BADENTRY, and a page that suspends leaves a fault record; with a KERNEL entry its descriptor
is read. The entry it has come to starts: NOP completes at once, WAITV begins to read, WRITEV writes back and stores,
KERNEL launches its grid and GRAPH begins its first pass, or they fail with DESCRIPTOR or GRAPH's refusal, or wait for a
page (R329, R330, R344 to R346, R354). A started WAITV reads its 8 bytes: a value that has reached the one waited for
completes it, as an acquire at system scope; else it reads again within 4,096 cycles; poison and failure are FETCH. A
host ring takes the first push of a core where it has room, and raises its interrupt by count; without a route the push
is lost; its deadline raises the interrupt (R330, R342, R343). An entry that completes lets DONE follow; one that fails puts
its queue into Error, but for a queue that is Idle or Disabled (R331). Rings in host memory are read without a translation
(assumption log 33); the order of fetches and of chosen queues, which failure is FETCH and which DESCRIPTOR, and when a WAITV
reads again are the model's readings (logs 37, 38, 39), and so are the copies that WRITEV and WAITV act on (log 20). -/
def Obligations.QueueEntries : Prop :=
  ((∀ (s : State) q, isMgmt q = false → s.mayFetch q = true →
     let x := s.queue q
     let a := x.entryAddr x.rd
     let got := if x.space then s.fetchDev (s.homeDie q) x.ctx a 64
       else s.fetchHost (s.homeDie q) (s.queueFunc q) a 64
     let on : Queue := { x with rd := (x.rd + 1) % 2 ^ 32 }
     let ends := fun u : State => exec (.wqEntryFetch q) s = .next u
     let faults := fun (t : State) va r =>
       let f := t.queueFault q x.ctx va false r
       ends (f.2.setQueue q { x with fault := some f.1 })
     (∀ t, got = .fail t → ends (t.setQueue q (on.fail 5 x.rd))) ∧
     (∀ r t, got = .suspend r t → faults t a r) ∧
     ∀ bs psn t, got = .got bs psn t →
       let e : QEntry := { words := wordsOfBytes bs, seq := t.nextId }
       let put := fun (u : State) (e : QEntry) => ({ u with nextId := t.nextId + 1 } : State).setQueue q
         { on with entries := insertAt x.rd e x.entries }
       (psn = true → ends (t.setQueue q (on.fail 5 x.rd))) ∧
       (psn = false → entryBad e = true → ends (t.setQueue q (on.fail 1 x.rd))) ∧
       (psn = false → entryBad e = false → e.type ≠ 1 → ends (put t e)) ∧
       (psn = false → entryBad e = false → e.type = 1 →
         (∀ ds p u, t.fetchDev (s.homeDie q) x.ctx (e.num 2) 128 = .got ds p u →
           ends (put u { e with desc := if p then none else some (wordsOfBytes ds) })) ∧
         (∀ u, t.fetchDev (s.homeDie q) x.ctx (e.num 2) 128 = .fail u → ends (put u e)) ∧
         ∀ r u, t.fetchDev (s.homeDie q) x.ctx (e.num 2) 128 = .suspend r u → faults u (e.num 2) r)) ∧
   (∀ e : QEntry, entryBad e = false ↔ e.type ≤ 4 ∧ (e.words.getD 0 0).toNat % 2 ^ 23 = 0 ∧ e.words.getD 1 0 = 0 ∧
     (∀ i, 10 ≤ i → i < 16 → e.words.getD i 0 = 0) ∧
     (e.type = 0 → ∀ i, 2 ≤ i → i < 10 → e.words.getD i 0 = 0) ∧
     (e.type = 1 → e.words.getD 9 0 = 0 ∧ (e.words.getD 2 0).toNat % 128 = 0) ∧
     (e.type = 2 → (∀ i, 4 ≤ i → i < 10 → e.words.getD i 0 = 0) ∧ (e.words.getD 2 0).toNat % 64 = 0) ∧
     (e.type = 3 ∨ e.type = 4 → (∀ i, 6 ≤ i → i < 10 → e.words.getD i 0 = 0) ∧ (e.words.getD 2 0).toNat % 8 = 0)) ∧
   ∀ (s : State) q idx (e : QEntry), (s.queue q).next = some (idx, e) → s.chosenQueue (s.homeDie q) = some q →
     let t : State := { s with lastQueue := insertAt (s.homeDie q) q s.lastQueue }
     let die := t.homeDie q
     let ctx := (t.queue q).ctx
     (e.type = 0 → exec (.nopEntry q idx) s = .next (t.completeEntry q idx)) ∧
     (e.type = 3 → exec (.waitvEntry q idx) s = .next (t.setQueue q { t.queue q with
       entries := modifyAt idx (fun y => { y with started := true, reread := s.now }) (t.queue q).entries })) ∧
     (e.type = 4 →
       let wrote := (t.releaseAll ctx).storeDev die ctx (e.num 2) ((List.range 8).map fun i => byteOf (e.num 4) i) false
       (∀ b p u, wrote = .got b p u → exec (.writevEntry q idx) s = .next (u.completeEntry q idx)) ∧
       (∀ u, wrote = .fail u → exec (.writevEntry q idx) s = .next (u.failEntry q idx 5)) ∧
       ∀ r u, wrote = .suspend r u → exec (.writevEntry q idx) s = .next (u.entryFault q idx ctx (e.num 2) true r)) ∧
     (e.type = 1 →
       let size := fun i => (e.words.getD i 0).toNat
       let legal := (∀ i, 6 ≤ i → i ≤ 8 → 1 ≤ size i ∧ size i ≤ 65536) ∧ size 6 * size 7 * size 8 ≤ 2 ^ 31
       (e.desc = none → exec (.kernelEntry q idx) s = .next (t.failEntry q idx 4)) ∧
       ∀ ws, e.desc = some ws →
         (∀ u, t.checkDesc ctx ws = .refused u → exec (.kernelEntry q idx) s = .next (u.failEntry q idx 4)) ∧
         ∀ d c u, t.checkDesc ctx ws = .ok d c u →
           (¬ legal → exec (.kernelEntry q idx) s = .next (u.failEntry q idx 4)) ∧
           (legal → exec (.kernelEntry q idx) s = .next (({ u with
             kernels := insertAt u.nextId { desc := d, code := c, gx := size 6, gy := size 7, gz := size 8, arga := e.num 4
                                            ctx := ctx, owner := .entry q idx, seq := e.seq } u.kernels
             nextId := u.nextId + 1 } : State).entryStarted q idx))) ∧
     (e.type = 2 → e.num 2 % 64 = 0 →
       let refused := fun u : State => exec (.graphEntry q idx) s = .next (u.failEntry q idx 4)
       let waits := fun (u : State) va r => exec (.graphEntry q idx) s = .next (u.entryFault q idx ctx va false r)
       (∀ u va, readBlocks die ctx 1 (e.num 2) t [] = (.fail u, va) → refused u) ∧
       (∀ r u va, readBlocks die ctx 1 (e.num 2) t [] = (.suspend r u, va) → waits u va r) ∧
       ∀ hb hp u va, readBlocks die ctx 1 (e.num 2) t [] = (.got hb hp u, va) →
         let h := wordsOfBytes hb
         let n := nodeWord h 0
         let formed := 0 < n ∧ n ≤ 4096 ∧ ∀ i < 7, nodeWord h (1 + i) = 0
         let read := readBlocks die ctx n (e.num 2 + 64) u []
         (¬ formed → refused u) ∧
         (formed →
           (∀ x vb, read = (.fail x, vb) → refused x) ∧ (∀ r x vb, read = (.suspend r x, vb) → waits x vb r) ∧
           ∀ nb np x vb, read = (.got nb np x, vb) →
             let nodes := splitNodes n (wordsOfBytes nb)
             let g : Graph := { q := q, idx := idx, ctx := ctx, addr := e.num 2, nodes := nodes, cond := h.drop 8
                                waits := nodes.map nodePreds }
             (graphBad nodes = true → refused x) ∧
             (graphBad nodes = false → exec (.graphEntry q idx) s = .next (({ x with
               graphs := insertAt x.nextId g x.graphs, nextId := x.nextId + 1 } : State).entryStarted q idx))))) ∧
  ((∀ (s : State) q idx e, lookup idx (s.queue q).entries = some e → s.mayReread q idx = true →
     let ctx := (s.queue q).ctx
     let got := s.fetchDev (s.homeDie q) ctx (e.num 2) 8
     (∀ u, got = .fail u → exec (.waitvReread q idx) s = .next (u.failEntry q idx 5)) ∧
     (∀ r u, got = .suspend r u → exec (.waitvReread q idx) s = .next (u.entryFault q idx ctx (e.num 2) false r)) ∧
     ∀ bs psn u, got = .got bs psn u →
       (psn = true → exec (.waitvReread q idx) s = .next (u.failEntry q idx 5)) ∧
       (psn = false → e.num 4 ≤ leNat (fun i => bs.getD i 0) 8 →
         exec (.waitvReread q idx) s = .next ((u.acquireAll ctx).completeEntry q idx)) ∧
       (psn = false → leNat (fun i => bs.getD i 0) 8 < e.num 4 → exec (.waitvReread q idx) s = .next (u.setQueue q
         { u.queue q with entries := modifyAt idx (fun y => { y with
           reread := u.now + 4096, line := u.waitLine (s.homeDie q) ctx (e.num 2) }) (u.queue q).entries }))) ∧
   (∀ (s : State) ctx ring c p, (s.outReadyCores ctx ring)[Config.freeChoice s.free % max 1 (s.outReadyCores ctx ring).length]? = some c →
     s.outFirst c ctx ring = some p →
     let s1 : State := if (s.outReadyCores ctx ring).length = 1 then s else { s with free := s.free + 1 }
     let t := s1.setCore c { s1.core c with outbound := (s1.core c).outbound.erase p }
     exec (.hostRingWrite ctx ring) s = .next (if s.portReach (dieOf c) (s.funcOf ctx) (ringAddr p.desc 0) = .ok
       then t.writeRing ctx ring p.desc (ringVec p.desc) p.words else t)) ∧
   (∀ (s : State) ctx ring d vec ws,
     let h := s.hring ctx ring
     let u := h.u + ws.length
     let hit := ringIcnt d ≠ 0 ∧ ringIcnt d ≤ u
     let t := s.writeRing ctx ring d vec ws
     (t.hring ctx ring = { w := (h.w + ws.length) % 2 ^ 32, u := if hit then 0 else u
                           since := if h.u = 0 then s.now else h.since, desc := d, vec := vec }) ∧
     t.msix = if hit then (s.funcOf ctx, vec) :: s.msix else s.msix) ∧
   (∀ (s : State) ctx ring, s.ringDue (s.hring ctx ring) = true → exec (.hostRingDeadline ctx ring) s =
     .next ((s.setHring ctx ring { s.hring ctx ring with u := 0 }).raise (s.funcOf ctx) (s.hring ctx ring).vec)) ∧
   ∀ (s : State) q idx code,
     let x := s.queue q
     let ended := { x with entries := modifyAt idx (fun e => { e with started := true, ended := true, fault := none }) x.entries }
     (x.st ∈ [.disabled, .idle, .error] → s.failEntry q idx code = s.setQueue q ended) ∧
     (x.st ∈ [.active, .suspended] → s.failEntry q idx code = s.setQueue q { ended with
       st := .error, err := code, erridx := idx % 2 ^ 32, fault := none
       entries := ended.entries.filter fun p => p.2.started }) ∧
     (x.st ≠ .active → x.done ≠ idx → (∀ e, lookup x.done x.entries = some e → e.finished = false) → s.completeEntry q idx =
       s.setQueue q { x with entries := modifyAt idx (fun e => { e with started := true, finished := true }) x.entries }) ∧
     (x.st ≠ .active → x.done = idx → (lookup idx x.entries).isSome → (lookup ((idx + 1) % 2 ^ 32) x.entries = none) → idx < 2 ^ 32 →
       s.completeEntry q idx = s.setQueue q { x with
         done := (idx + 1) % 2 ^ 32
         entries := eraseAt idx (modifyAt idx (fun e => { e with started := true, finished := true }) x.entries) }))

/-- Admission of the next cluster of a kernel at the place found for it, with the argument words that each of its cores
reads, or its place held while a page suspends; the start of a kernel, copy or write node of a graph, and the completion
of a node: its successors have one predecessor less, a failure ends the graph, and the conditional node runs another pass
or ends it; a graph at its program index is read again first; a decrement that reaches a counter; and the end of a team whose
groups, commands and reflections are done, which eclipses a loan of its granules and lets waiting kernels of its device try
again. An admission makes the cluster, on each core its team with its groups, and changes no memory, queue or command of
others (R347 to R349, R355 to R359, R371). Model's choices: which kernel is served and where its cluster goes (assumption log
41), what fails a descriptor or graph (log 38), the boundary and the condition of a graph and its other failures (logs 39, 40),
and the copies that nodes act on (log 20). -/
def Obligations.KernelsAndGraphsProceed : Prop :=
  (∀ (s : State) n k c die x y, lookup n s.kernels = some k → lookup k.ctx s.ctxs = some c →
    s.placeFor k = some (die, x, y) → s.mayAdmit n = true →
    let read := readAllArgs k ((List.range (k.desc.w * k.desc.h)).map fun r =>
      die * 256 + (y + r / k.desc.w) * 16 + x + r % k.desc.w) s []
    (∀ bs t, read = .got bs t → exec (.clusterAdmission n) s =
      .next (t.admitCluster n k c die x y (bs.map (argWords k.desc.const k.arga)))) ∧
    ∀ core va r t, read = .suspend core va r t →
      let f := t.fault die k.ctx va false core 0 0 3 r 0 0
      exec (.clusterAdmission n) s = .next (f.2.modKernel n fun m =>
        { m with fault := some (die * 2 ^ 32 + f.1), place := some (die, x, y) })) ∧
  (∀ (s : State) n k c die x y args, lookup n s.kernels = some k → lookup k.ctx s.ctxs = some c →
    let t := s.admitCluster n k c die x y args
    let cl := s.nextId
    let core := fun r => die * 256 + (y + r / k.desc.w) * 16 + x + r % k.desc.w
    (∃ teams, lookup cl t.clusters = some { kernel := n, ctx := k.ctx, index := k.next, die := die, x := x, y := y, w := k.desc.w
                                            h := k.desc.h, teams := teams }) ∧
    (∀ r < k.desc.w * k.desc.h, ∃ i u, lookup i t.teams = some u ∧ u.cluster = cl ∧ u.kernel = n ∧ u.ctx = k.ctx ∧ u.core = core r ∧
      u.rank = r ∧ u.live = true ∧ u.left = k.desc.g ∧ u.granules = k.desc.scratch ∧ u.ckpt.isSome = !k.desc.noCkpt ∧
      ∀ j < k.desc.g, ∃ gid g, lookup gid t.groups = some g ∧ g.team = i ∧ g.num = j ∧ g.core = core r ∧ g.ctx = k.ctx ∧
        g.frame = [] ∧ g.threads = List.replicate 32 (newThread k.desc.entry)) ∧
    lookup n t.kernels = some { k with
      next := k.next + 1, live := k.live + 1, argsLost := [], place := none
      cores := (k.cores ++ (List.range (k.desc.w * k.desc.h)).map core).eraseDups } ∧
    (∃ v, lookup k.ctx t.ctxs = some v ∧ v.st = if c.st = .ready then .running else c.st) ∧
    (∀ m, m ≠ cl → lookup m t.clusters = lookup m s.clusters) ∧ (∀ m, m ≠ n → lookup m t.kernels = lookup m s.kernels) ∧
    (∀ m, m ≠ k.ctx → lookup m t.ctxs = lookup m s.ctxs) ∧ (∀ m < cl, lookup m t.groups = lookup m s.groups) ∧
    ((∀ p ∈ s.teams, p.2.cluster ≠ cl) → ∀ m < cl, lookup m t.teams = lookup m s.teams) ∧
    t.mem = s.mem ∧ t.host = s.host ∧ t.queues = s.queues ∧ t.cmds = s.cmds ∧ t.images = s.images ∧ t.refls = s.refls) ∧
  (∀ (s : State) gr node g, lookup gr s.graphs = some g → s.mayStartNode gr node = true → g.nodes = [] →
    let read := s.readGraph (s.homeDie g.q) g.ctx g.addr
    let ends := fun u : State => exec (.graphNodeStart gr node) s = .next u
    (∀ t, read = .refused t → ends (({ t with graphs := eraseAt gr t.graphs } : State).failEntry g.q g.idx 4)) ∧
    (∀ va r t, read = .suspend va r t →
      let f := t.queueFault g.q g.ctx va false r
      ends { f.2 with graphs := modifyAt gr (fun g => { g with faults := insertAt 0 f.1 g.faults }) f.2.graphs }) ∧
    ∀ cond nodes t, read = .got cond nodes t → ends { t with
      graphs := insertAt gr { g with nodes := nodes, waits := waitsAfter nodes g.done } t.graphs }) ∧
  (∀ (s : State) gr node g, lookup gr s.graphs = some g → s.mayStartNode gr node = true → g.nodes ≠ [] →
    let w := g.nodes.getD node []
    let die := s.homeDie g.q
    let a := s.acquireAll g.ctx
    let ends := fun u : State => exec (.graphNodeStart gr node) s = .next u
    (nodeKind w = 0 →
      let size := fun i => nodeWord w i
      let legal := (∀ i, 10 ≤ i → i ≤ 12 → 1 ≤ size i ∧ size i ≤ 65536) ∧ size 10 * size 11 * size 12 ≤ 2 ^ 31
      (∀ t, a.describe die g.ctx (nodeNum w 6) = .refused t → ends ((t.nodeStarted gr node).nodeEnds gr node 4)) ∧
      (∀ va r t, a.describe die g.ctx (nodeNum w 6) = .suspend va r t →
        let f := t.queueFault g.q g.ctx va false r
        ends { f.2 with graphs := modifyAt gr (fun g => { g with faults := insertAt node f.1 g.faults }) f.2.graphs }) ∧
      ∀ d c t, a.describe die g.ctx (nodeNum w 6) = .ok d c t →
        (¬ legal → ends ((t.nodeStarted gr node).nodeEnds gr node 4)) ∧
        (legal → ends (({ t with
          kernels := insertAt t.nextId { desc := d, code := c, gx := size 10, gy := size 11, gz := size 12
                                         arga := nodeNum w 8, ctx := g.ctx, owner := .node gr node, seq := s.nextId } t.kernels
          nextId := t.nextId + 1 } : State).nodeStarted gr node))) ∧
    (nodeKind w = 1 →
      let t := a.nodeStarted gr node
      ends { t with cmds := insertAt t.nextId (nodeCopy gr node g die) t.cmds, nextId := t.nextId + 1 }) ∧
    (nodeKind w = 3 →
      (s.portReach die (s.funcOf g.ctx) (nodeNum w 6) = .down → ends ((s.nodeStarted gr node).nodeEnds gr node 0)) ∧
      (s.portReach die (s.funcOf g.ctx) (nodeNum w 6) = .ok →
        let t := (a.hostWrite (nodeNum w 6) ((List.range 8).map fun i => byteOf (nodeNum w 8) i) false).nodeStarted gr node
        ends (({ t with msix := (s.funcOf g.ctx, nodeWord w 10) :: t.msix } : State).nodeEnds gr node 0)))) ∧
  (∀ (s : State) gr node g, lookup gr s.graphs = some g → s.mayComplete gr node = true →
    let w := g.nodes.getD node []
    (∀ code, (g.ended.find? fun e => e.1 == node) = some (node, code) →
      let t := s.releaseAll g.ctx
      let x := t.queue g.q
      let u := if code = 0 ∨ code = failedQuietly ∨ g.st ≠ .running then t
        else t.setQueue g.q (if x.st ∈ [.disabled, .idle, .error] then x else { x with
          st := .error, err := code, erridx := g.idx % 2 ^ 32, fault := none, entries := x.entries.filter fun p => p.2.started })
      let g1 := { g with
        ended := g.ended.filter fun e => e.1 != node
        done := g.done ++ [node]
        waits := (if code = 0 then nodeSuccs w else []).foldl (fun w x => w.modify x (· - 1)) g.waits
        st := if code = 0 then g.st else .failing
        cause := if g.st = .running ∧ code ≠ 0 then code else g.cause }
      exec (.graphNodeComplete gr node) s =
        .next ((({ u with graphs := insertAt gr g1 u.graphs } : State).graphGoes gr).settleQueue g.q)) ∧
    (g.ended = [] →
      let again := g.cond.getD (nodeWord w 6 % 8) 0 ≠ 0 ∧ (nodeWord w 7 = 0 ∨ g.passes + 1 < nodeWord w 7)
      (again → exec (.graphNodeComplete gr node) s = .next { s with graphs := modifyAt gr (fun g => { g with
        waits := g.nodes.map nodePreds, started := [], ended := [], done := [], st := .running, passes := g.passes + 1 }) s.graphs }) ∧
      (¬ again → exec (.graphNodeComplete gr node) s =
        .next ((({ s with graphs := eraseAt gr s.graphs } : State).completeEntry g.q g.idx).settleQueue g.q)))) ∧
  (∀ (s : State) gr g, lookup gr s.graphs = some g →
    let quiet := g.ended = [] ∧ ∀ n ∈ g.started, n ∈ g.done
    let conditional := fun i => nodeKind (g.nodes.getD i []) = 2
    let passed := g.nodes ≠ [] ∧ ∀ i < g.nodes.length, conditional i ∨ i ∈ g.done
    let gone : State := { s with graphs := eraseAt gr s.graphs }
    (g.st = .failing → quiet → s.graphGoes gr = gone.setQueue g.q { s.queue g.q with
      entries := modifyAt g.idx (fun e => { e with started := true, ended := true, fault := none }) (s.queue g.q).entries }) ∧
    (g.st = .failing → ¬ quiet → s.graphGoes gr = s) ∧
    (g.st ≠ .failing → ¬ (passed ∧ quiet) → s.graphGoes gr = s) ∧
    (g.st ≠ .failing → passed → quiet → (∃ i < g.nodes.length, conditional i) →
      s.graphGoes gr = { s with graphs := modifyAt gr (fun g => { g with st := .evaluating }) s.graphs }) ∧
    (g.st ≠ .failing → passed → quiet → (∀ i < g.nodes.length, ¬ conditional i) →
      s.graphGoes gr = gone.completeEntry g.q g.idx)) ∧
  (∀ (s : State) cl dc k, lookup cl s.clusters = some k →
    exec (.dependenceCounterDecrement cl dc) s = .next (s.doChores cl [.decrement dc])) ∧
  ∀ (s : State) t x, lookup t s.teams = some x → x.live = true → x.left = 0 →
    (∀ p ∈ s.cmds, p.2.team = t → p.2.node ≠ none) → (∀ p ∈ s.refls, p.2.team ≠ t) →
    let lent := x.shade = false ∧ ∃ i < x.granules, (s.loan x.ctx x.core).map.getLsbD (x.base + i) = true
    let ended := fun u : State =>
      let v := (u.modTeam t fun y => { y with live := false, ckpt := none }).endCluster x.cluster
      { v with kernels := v.kernels.map fun p => match lookup p.2.ctx v.ctxs with
          | some c => if dieOf x.core ∈ deviceDies c.mode c.dev then (p.1, { p.2 with missed := false }) else p
          | none => p }
    (lent → exec (.teamEnd t) s = .next (ended (s.startEclipse x.ctx x.core 0))) ∧
    (¬ lent → exec (.teamEnd t) s = .next (ended s))

/-- Loans and contexts: lent granules are zeroed, and return when what the shade has issued there is done: its commands
that still touch them are cancelled, and the loan closes, or opens with the map of a later LEND; the watchdog forces a
save after 2^20 cycles, and the context's commands stand still; a group at its pre-emption point is saved, the whole of
its frame in a forced save, else at least the live registers of held threads; the context when all of it is, or its page
waits; it is restored at the places found when its save area is in order, and killed when it is not; a killed context
whose parts are gone is Failed; a moved group's flushes are sent and acknowledged one after another. A saved context leaves
an image and no group, team, cluster, command or reflection; a restored one has no image, and its queues go on; a killed one
leaves no image, graph or walk, its kernels have failed and its queues are in Error, and its loan is called back; a request
begins the save of a running context, and calls its loans back (R178, R179, R181, R367, R371, R373, R375 to R379). What the
bytes of a save area hold, and what a save leaves free, are the model's choices (assumption log 18), and so are the points at
which a group may be saved (log 17), what an eclipse and a kill do in one step (log 43), and the flush (log 55). -/
def Obligations.ContextEvents : Prop :=
  (∀ (s : State) core, s.zeroed core ≠ [] → exec (.granuleZeroingEnd core) s = .next ((s.zeroed core).foldl (fun t k =>
    match (t.loan (k / 1024) core).zeroing with
    | some (m, _) => ({ t with spad := t.spad.filter fun p => p.1 / 65536 != core || !m.getLsbD (p.1 % 65536 / 2048) } : State).setLoan
        (k / 1024) core { t.loan (k / 1024) core with zeroing := none }
    | none => t) s)) ∧
  (∀ (s : State) n m t, (s.loan (n / 1024) (n % 1024)).returning = some (m, t) →
    let princ := n / 1024
    let core := n % 1024
    let l := s.loan princ core
    let closes := fun u : State =>
      let v := u.setLoan princ core { l with
        isOpen := false, idle := false, map := 0, lost := true, ecl := (l.ecl + 1) % 2 ^ 16, returning := none
        zeroing := none, after := 0 }
      exec (.granulesReturn n) s = .next (if l.after = 0 then v else v.openLoan princ core l.after)
    (s.shadeOf princ = none → closes s) ∧
    ∀ sh, s.shadeOf princ = some sh →
      (∀ p ∈ s.groups, p.2.ctx = sh → p.2.core = core → ∀ r ∈ p.2.outstanding, ∃ d, r.due = some d ∧ d ≤ s.now) →
      let u := (s.groups.filter fun p => p.2.ctx == sh && p.2.core == core).foldl (fun u p => u.land p.1) (s.eclipseCmds sh core m)
      closes { u with groups := u.groups.map fun p =>
        if p.2.ctx == sh && p.2.core == core then (p.1, p.2.leaveGranules core m u.now) else p }) ∧
  (∀ (s : State) tag c, lookup tag s.ctxs = some c → c.st = .saving → c.forced = false → c.preqAt + 2 ^ 20 ≤ s.now →
    let t := s.closeRuns fun x => x.ctx == tag
    exec (.preemptionWatchdog tag) s = .next (({ t with
      cmds := t.cmds.map fun p => if p.2.ctx == tag ∧ (p.2.st = .translating ∨ p.2.st = .moving)
        then (p.1, { p.2 with st := .suspended, fault := none, run := 0, xls := [] }) else p
      walks := t.walks.filter fun w => w.2.ctx != tag || (match w.2.req with
        | .cmd _ => false
        | _ => true) } : State).modCtx tag fun x => { x with forced := true })) ∧
  (∀ (s : State) gid g c, lookup gid s.groups = some g → lookup g.ctx s.ctxs = some c → c.st = .saving → g.saved = false →
    g.st ≠ .exiting → g.outstanding = [] → g.pushes = [] → g.fence = none → g.wait.isRefl = false → (∀ w ∈ readAt [] s.mwork g.core, w.gid ≠ gid) →
    let atBarrier := (∃ b, g.wait = .bar b) ∨ ∃ b, g.wait = .barc b
    c.forced = true ∨ g.st = .trapped ∨ atBarrier ∨ (∀ t ∈ g.threads, t.st = .held ∨ t.st = .joining ∨ t.st = .exited) →
    exec (.groupSave gid) s = .next (s.saveGroup gid g c.forced) ∧
    ∃ g1, lookup gid (s.saveGroup gid g c.forced).groups = some g1 ∧ g1.saved = true ∧ g1.resident = false ∧ g1.image = false ∧
      (c.forced = true ∨ g.st = .trapped ∨ atBarrier ∨ (∃ t ∈ g.threads, t.st = .joining) → g1.frame = g.frame) ∧
      ∀ L < 32, ∀ r < g.regs, (g.thread L).st = .held → (g.thread L).live.getLsbD r = true →
        g1.word (32 * r + L) = g.word (32 * r + L)) ∧
  (∀ (s : State) tag c, lookup tag s.ctxs = some c → s.allSaved tag c = true →
    let s0 := ((s.refls.filter fun p => p.2.ctx == tag).map (·.1)).foldl State.drainPushes s
    let i := s0.imageOf tag c
    (s0.suspends c.lowDie tag .write (i.pages c) = none →
      exec (.contextSaveComplete tag) s = .next (s0.toSaved tag c i)) ∧
    ∀ va r, s0.suspends c.lowDie tag .write (i.pages c) = some (va, r) → exec (.contextSaveComplete tag) s =
      .next ((s0.walkAll c.lowDie tag .write (i.pages c)).saveFault tag c.lowDie va true r)) ∧
  (∀ (s : State) tag c i, lookup tag s.ctxs = some c → lookup tag s.images = some i → s.restorable tag = true →
    let needed := i.pages c ++ (i.refls.filter fun p => p.2.st != .lost).map fun p => p.2.va
    let waits := fun va r => exec (.contextRestoreComplete tag) s =
      .next ((s.walkAll c.lowDie tag .read (i.pages c)).saveFault tag c.lowDie va false r)
    (s.readHeader tag c i = .bad → exec (.contextRestoreComplete tag) s =
      .next ((s.walkAll c.lowDie tag .read (i.pages c)).killCtx tag)) ∧
    (∀ va r, s.readHeader tag c i = .suspend va r → waits va r) ∧
    (s.readHeader tag c i = .good →
      (∀ va r, s.suspends c.lowDie tag .read needed = some (va, r) → waits va r) ∧
      ∀ u, s.suspends c.lowDie tag .read needed = none → (s.restoreEngines i).restoreClusters i c = some u →
        exec (.contextRestoreComplete tag) s = .next (if c.preqNext then (u.restored tag i).preemptCtx tag else u.restored tag i))) ∧
  (∀ (s : State) tag c, lookup tag s.ctxs = some c → c.st = .killing → s.toreDown tag = true →
    exec (.contextTeardownDone tag) s = .next (s.modCtx tag fun x => { x with st := .failed })) ∧
  (∀ (s : State) tag c i, lookup tag s.ctxs = some c →
    let t := s.toSaved tag c i
    (∃ slots, lookup tag t.images = some { i with slots := slots }) ∧ (∀ k, k ≠ tag → lookup k t.images = lookup k s.images) ∧
    lookup tag t.ctxs = some { c with st := .saved, preq := false, forced := false, wholeArea := false } ∧
    (∀ k, k ≠ tag → lookup k t.ctxs = lookup k s.ctxs) ∧ (∀ p ∈ t.refls, p.2.ctx ≠ tag) ∧
    t.groups = (s.groups.filter fun p => p.2.ctx ≠ tag) ∧ t.teams = (s.teams.filter fun p => p.2.ctx ≠ tag) ∧
    t.clusters = (s.clusters.filter fun p => p.2.ctx ≠ tag) ∧ t.cmds = (s.cmds.filter fun p => p.2.ctx ≠ tag) ∧
    (∀ p ∈ t.scales, p.2.owner ≠ some tag) ∧ t.spad = s.spad ∧ t.loans = s.loans) ∧
  (∀ (s : State) tag c i, lookup tag s.ctxs = some c →
    let t := s.restored tag i
    lookup tag t.images = none ∧ (∀ k, k ≠ tag → lookup k t.images = lookup k s.images) ∧
    (∃ y, lookup tag t.ctxs = some y ∧ y.st = (if i.clusters = [] then .ready else .running) ∧ y.preqNext = false) ∧
    ∀ q < 8192, (t.queue q).ctx = tag → tag ≠ 0 → (t.queue q).susp = false) ∧
  (∀ (s : State) tag c, lookup tag s.ctxs = some c →
    let t := s.killCtx tag
    (c.st = .killing ∨ c.st = .failed → t = s) ∧
    (c.st ≠ .killing → c.st ≠ .failed →
      (∃ y, lookup tag t.ctxs = some y ∧ y.st = .killing ∧ y.preq = false ∧ y.preqNext = false ∧ y.forced = false ∧ y.fault = none) ∧
      lookup tag t.images = none ∧ (∀ p ∈ t.graphs, p.2.ctx ≠ tag) ∧ (∀ p ∈ t.walks, p.2.ctx ≠ tag) ∧
      (∀ p ∈ t.kernels, p.2.ctx = tag → p.2.failed = true) ∧
      (∀ n x, lookup n t.cmds = some x → x.ctx = tag → x.late ≠ none) ∧
      (∀ q < 8192, (s.queue q).ctx = tag → tag ≠ 0 → (s.queue q).st ≠ .disabled → (t.queue q).st = .error) ∧
      (∀ p ∈ t.groups, p.2.ctx = tag → p.2.st = .exiting ∧ p.2.saved = false) ∧
      (c.shade = true → ∀ core < 1024, (s.loan c.princ core).isOpen = true → (t.loan c.princ core).returning ≠ none))) ∧
  (∀ (s : State) tag c, lookup tag s.ctxs = some c →
    let t := s.preemptCtx tag
    (c.st = .running →
      (∃ y, lookup tag t.ctxs = some y ∧ y.st = .saving ∧ y.preq = true ∧ y.preqAt = s.now ∧ y.preqNext = false ∧ y.forced = false) ∧
      (∀ q < 8192, (s.queue q).ctx = tag → tag ≠ 0 → (t.queue q).susp = true) ∧
      t.images = s.images ∧
      (c.shade = false → t.groups = s.groups ∧ t.mem = s.mem ∧
        ∀ core < 1024, (s.loan tag core).isOpen = true → (t.loan tag core).returning ≠ none)) ∧
    (c.st = .ready → ∃ y, lookup tag t.ctxs = some y ∧ (y.st = .saved ∨ y.st = .saving)) ∧
    (c.st = .restoring → t = s.modCtx tag fun x => { x with preqNext := true }) ∧
    (c.st ≠ .running → c.st ≠ .ready → c.st ≠ .restoring → t = s)) ∧
  ∀ (s : State) gid g old rest, lookup gid s.groups = some g → g.acqHold = old :: rest →
    (g.flushSent = false → exec (.flushByContextTag gid) s = .next (s.setGroup gid { g with flushSent := true })) ∧
    (g.flushSent = true → s.flushDone g old = true →
      exec (.flushAcknowledge gid) s = .next (s.setGroup gid { g with acqHold := rest, flushSent := false }))

/-- Page events: a walk serves, of the oldest 4,096 requests of its die, those of its context and page; one that an
invalidation overtook is made again, and one for a command ends with its outcome, which the TLB takes; an invalidation
completes, with its acknowledgement, when no command and no code holds a translation that it names; ATS takes bus pages
back; an answered page request retries its requesters, or fails them; the controller reads a ring's descriptor again when
records wait; counts are halved every 2^20 cycles; a drained page is raw, and its collision entries are free. A walk has the
outcome of the first rule of Table 18-3 that applies to the entry it reads, and goes on to the table that a good entry names;
a TLB serves an access that a leaf of it covers and permits; an invalidation takes the leaves, walks and translations that it
names, and waits for the commands that move under one (R402 to R408, R413, R423, R428, R451, R453). Model's choices: what the
bridge and the host's answers do (assumption log 33), which counts are kept (log 34), how many leaves a TLB holds and which
walks are made (log 35), who holds up an invalidation (log 36), drains (log 31) and the rings' times (log 53). -/
def Obligations.PageEvents : Prop :=
  ((∀ (s : State) n w, lookup n s.walks = some w →
     let held := (s.walks.filter fun p => p.2.die == w.die).take 4096
     (∃ p ∈ held, p.1 = n) → s.walkWaits w.die w.ctx w.va .read = false →
     (w.stale = true → exec (.pageWalkComplete n) s = .next { s with walks := insertAt n { w with stale := false } s.walks }) ∧
     (w.stale = false → exec (.pageWalkComplete n) s = .next (s.serveWalk
       (held.filter fun p => p.2.ctx == w.ctx && p.2.va / 65536 == w.va / 65536 && !p.2.stale)))) ∧
   (∀ (s : State) p ps, s.serveWalk (p :: ps) = ps.foldl (fun t q => t.walked q.2 false)
     (({ s with walks := s.walks.filter fun q => !((p :: ps).map (·.1)).contains q.1 } : State).walked p.2 true)) ∧
   ∀ (s : State) w log k c q, w.req = .cmd k → s.cmd k = some c → c.want = some q →
     let r := s.walkFor w (c.access q) log
     s.walked w log = (match r.1 with
       | .ok l => r.2.tlbAdd w.core w.ctx l
       | _ => r.2).cmdTranslated k c q r.1) ∧
  (∀ (s : State) die mode dev va a l ls table,
    let read := s.readEntry die mode dev (table + 8 * levelIndex l va)
    let found := fun o => (s.walkFrom die mode dev va a (l :: ls) table).1 = o
    (read = none → found (.fail 6)) ∧ (∀ e, read = some (e, true) → found (.fail 8)) ∧
    ∀ e : Nat, read = some (e, false) →
      let psn := e / 2 ^ 8 % 4
      let lacks := match a with
        | .read => e.testBit 2 = false
        | .write => e.testBit 3 = false
        | .exec => e.testBit 4 = false
        | .modify => e.testBit 2 = false ∨ e.testBit 3 = false
      let kept := e / 2 ^ 52 % 2 ^ 12 = 0 ∧ e / 2 ^ 10 % 2 ^ 6 = 0 ∧ l < 3 ∧ e / 2 ^ 16 % 2 ^ 36 * 65536 % levelSpan l = 0
      let leads := e / 2 ^ 52 % 2 ^ 12 = 0 ∧ e / 2 ^ 2 % 2 ^ 6 = 0 ∧ l ≠ 0 ∧ e / 2 ^ 8 % 2 ^ 44 * 256 % tableAlign l = 0
      let writes := a = .write ∨ a = .modify
      (e.testBit 0 = false → found (.suspend 1)) ∧
      (e.testBit 0 = true → e.testBit 1 = true →
        (¬ kept → found (.fail 6)) ∧
        (kept →
          (psn = 3 → found (.fail 6)) ∧
          (psn = 2 ∨ psn = 1 ∧ writes → found (.fail 5)) ∧
          (psn = 0 ∨ psn = 1 ∧ ¬ writes →
            (e.testBit 7 = true → found (.suspend 3)) ∧
            (e.testBit 7 = false → e.testBit 6 = true → found (.suspend 2)) ∧
            (e.testBit 7 = false → e.testBit 6 = false → lacks → found (.fail 4)) ∧
            (e.testBit 7 = false → e.testBit 6 = false → ¬ lacks → found (.ok {
              base := va / levelSpan l * levelSpan l, size := levelSpan l, host := e.testBit 5
              pa := e / 2 ^ 16 % 2 ^ 36 * 65536, r := e.testBit 2, w := e.testBit 3, x := e.testBit 4, psn := decide (psn = 1) }))))) ∧
      (e.testBit 0 = true → e.testBit 1 = false →
        (¬ leads → found (.fail 6)) ∧
        (leads → found (s.walkFrom die mode dev va a ls (e / 2 ^ 8 % 2 ^ 44 * 256)).1))) ∧
  (∀ (s : State) die ctx va a, lookup ctx s.ctxs ≠ none →
    (2 ^ 57 ≤ va → s.walk die ctx va a = (.fail 7, s)) ∧
    (va < 2 ^ 57 → ∀ c, lookup ctx s.ctxs = some c → (s.walkTables die ctx va c a).2.1 = .fail 8 →
      ∃ t : State, s.walk die ctx va a = (.fail 5, t.logError ⟨die, ctx, 2, false, 0, 0, va, t.now, 0⟩))) ∧
  (∀ (s : State) core ctx va a,
    let covers := fun e : TlbEntry => e.core = core ∧ e.ctx = ctx ∧ e.base ≤ va ∧ va < e.base + e.size ∧ e.leaf.permits a = true ∧
      (e.host = true → (s.funcOf ctx, (e.pa + (va - e.base)) / 65536) ∈ s.atsHeld)
    (∀ l, s.tlbHit core ctx va a = some l → (∃ e ∈ s.tlb, covers e ∧ e.leaf = l) ∧
      s.translate core ctx va a = (if l.psn = true ∧ a.writes = true then .fail 5 else .ok l, s)) ∧
    ((∃ e ∈ s.tlb, covers e) → s.tlbHit core ctx va a ≠ none) ∧
    (s.tlbHit core ctx va a = none → ∀ o t, s.walk (dieOf core) ctx va a = (o, t) →
      s.translate core ctx va a = (o, match o with
        | .ok l => t.tlbAdd core ctx l
        | _ => t))) ∧
  (∀ (s : State) (v : Inval),
    let t := s.beginInval v
    let meets := fun base size : Nat => base < (v.first + v.count) * 65536 ∧ v.first * 65536 < base + size
    t.tlb = (s.tlb.filter fun e => ¬ (s.invalNames v e.ctx = true ∧
      if v.ats then e.host = true ∧ meets e.pa e.size else meets e.base e.size)) ∧
    (∀ n w, lookup n s.walks = some w → lookup n t.walks = some { w with
      stale := w.stale || (s.invalNames v w.ctx && (v.ats || (decide (v.first ≤ w.va / 65536) && decide (w.va / 65536 < v.first + v.count)))) }) ∧
    ∃ id hs, lookup id t.invals = some { v with holders := hs } ∧
      (∀ n ∈ hs, ∃ c, t.cmd n = some c ∧ c.st = .moving) ∧
      ∀ n c, t.cmd n = some c → n ∉ hs → ∀ x ∈ c.xls, s.invalXl v c.ctx x.2 = false) ∧
  (∀ (s : State) n v, lookup n s.invals = some v → v.holders = [] →
    (∀ p ∈ s.kernels, s.invalCode v p.2.ctx p.2.code = false) →
    (∀ p ∈ s.groups ++ s.images.flatMap fun i => i.2.groups, p.2.handles ≠ none → s.invalCode v p.2.ctx p.2.code = false) →
    let t : State := { (if v.flush then s.dropWhere fun _ => true else s) with invals := eraseAt n s.invals }
    exec (.invalComplete n) s = .next (match v.mgmt with
      | some m => t.answer (mgmtKey m.func m.die) m.idx 0 []
      | none => t)) ∧
  (∀ (s : State) func addr len, func < s.part.ports → len ≠ 0 →
    let first := addr / 65536
    let count := (addr + len - 1) / 65536 - first + 1
    let left := s.atsHeld.filter fun p => ¬ (p.1 = func ∧ first ≤ p.2 ∧ p.2 < first + count)
    exec (.atsInvalidation func addr len) s = .next (({ s with atsHeld := left } : State).beginInval
      { ctx := none, func := func, first := first, count := count, ats := true, flush := false, mgmt := none, holders := [] })) ∧
  (∀ (s : State) id p f, lookup id s.pri = some p → (s.faults.find? fun x => x.die == p.die && x.id == p.fault) = some f →
    exec (.priResponse p.func id true) s = .next (s.retryFault f) ∧
    exec (.priResponse p.func id false) s = .next (s.failFault f)) ∧
  (∀ (s : State) die, s.hasDie die = true → (s.die die).lastHalf + 2 ^ 20 ≤ s.now → exec (.accessCountHalving die) s =
    .next (({ s with counters := s.counters.map fun p => if (tablesOf die).contains p.1
      then (p.1, p.2.map fun e => { e with count := e.count / 2, armed := e.armed || e.count / 2 ≤ (s.die die).lo }) else p } : State).modDie
        die fun x => { x with lastHalf := (s.die die).lastHalf + 2 ^ 20 })) ∧
  (∀ (s : State) die, s.hasDie die = true →
    (∀ ctx r, (ctx, r) ∈ s.waitingRings die ↔ ∃ c, (ctx, c) ∈ s.ctxs ∧ c.faultRing = some r ∧ c.lowDie = die ∧
      (s.unsent ctx).isSome ∧ tick r.at_ + 1000 ≤ tick s.now) ∧
    (s.waitingRings die ≠ [] → exec (.faultringRetry die) s =
      .next ((s.waitingRings die).foldl (fun t p => t.readFaultRing p.1 p.2.ring p.2.vec) s))) ∧
  ∀ (s : State) n d, lookup n s.drains = some d → d.begun = true →
    (∀ slot, d.next ≤ slot → slot < 4 * (d.first + d.blocks) → s.compressed d.stack (1024 * slot) = false) →
    ∃ t, exec (.pageDrainComplete n) s = .next t ∧ t.drains = eraseAt n s.drains ∧
      (∀ i < d.blocks, t.attrAt d.stack (4096 * (d.first + i)) = 0) ∧
      t.collisions = writeAt [] d.stack ((readAt [] s.collisions d.stack).filter fun x =>
        ¬ (d.first ≤ x / 4 ∧ x / 4 < d.first + d.blocks)) s.collisions ∧
      t.overflows = if d.overflow then s.overflows ++ [(d.stack, d.first)] else s.overflows

/-! Links, dies, errors and management (17_faults.md, 20_link.md, 21_host_firmware.md). -/

/-- Link events, each in the states Table 20-4 allows, and with no change in the others: enabling trains a link that is Down or
Failed, training brings a link Up, with whole modules of lanes at an edge and four lanes at a port, or fails it the third time
in a row; received flits are counted or found damaged, and a good Fercy flit is routed when it is the next; a damaged flit asks
for a replay, and so does the first that comes early; replays send what is unacknowledged again, the ninth time it retrains;
retraining ends or fails, and an attempt of 2^17 cycles has failed; what a failed link held is answered for; and a quiescing
link is Quiesced once drained, or retrained after 8,192 cycles; a token bucket is refilled by its rate each cycle, up to its
size (R439 to R443, R446, R447). What an edge's flits are, how refused replays are counted, and what an error reply holds are
the model's choices (assumption log 30). -/
def Obligations.LinkEvents : Prop :=
  (∀ (s : State) l, s.isLink l = true →
    let x := s.link l
    let retrains := fun (t : State) (y : Link) recorded => (t.setLink l { y with
      st := .retraining, retrains := y.retrains + 1, fails := 0, recorded := recorded, since := t.now
      replay := y.replay.map fun f => ({ f with replays := 0 } : Flit) }).logLink l 12
    let fails := fun (y : Link) (r : State) =>
      (y.fails < 2 → r = s.setLink l { y with fails := y.fails + 1, since := s.now }) ∧
      (2 ≤ y.fails → r = ((s.setLink l { y with
        st := .failed, fails := 0, recorded := false, replay := [], waiting := [] }).refuseAll l y).logLink l 13)
    (x.st = .down ∨ x.st = .failed → exec (.linkEnable l) s =
      .next (s.setLink l { x with st := .training, fails := 0, since := s.now })) ∧
    (x.st ≠ .down → x.st ≠ .failed → exec (.linkEnable l) s = .next s) ∧
    (x.st = .training →
      (∀ lanes, (∀ d ∈ linkDies l, (s.die d).phase = .ready ∨ (s.die d).phase = .training) →
        exec (.linkTrainingDone l lanes) s = .next ((s.setLink l { x with
          st := .up, fails := 0, gap := false, lanes := if l < 4 then min 2048 (lanes / 64 * 64) else 4 }).sendWaiting l)) ∧
      ∃ r, exec (.linkTrainingFails l) s = .next r ∧ fails x r) ∧
    (x.st ≠ .training → (∀ lanes, exec (.linkTrainingDone l lanes) s = .next s) ∧ exec (.linkTrainingFails l) s = .next s) ∧
    (x.st = .up ∨ x.st = .quiescing →
      (∀ good flit,
        let damaged := (l < 4 ∧ good = false) ∨ (4 ≤ l ∧ flitBad flit = true)
        let y := x.ack (flitAck flit)
        let ahead := (flitSeq flit + 4096 - x.rx) % 4096
        let got := fun r => exec (.flitReceived l good flit) s = .next r
        (damaged →
          let z := { x with crc := x.crc + 1, gap := true, refused := if x.gap then x.refused + 1 else 0 }
          let t := ({ s.setLink l z with handed := s.handed ++ [.replay l x.rx] } : State).logLink l 11
          (z.refused < 8 → got t) ∧ (8 ≤ z.refused → got (retrains t { z with refused := 0 } (x.st == .quiescing)))) ∧
        (l < 4 → ¬ damaged →
          let z := { x with rx := (x.rx + 1) % 4096, gap := false, refused := 0, replay := [] }
          let t : State := { s with free := s.free + 1 }
          (x.gap = false → got (s.setLink l z)) ∧ (x.gap = true → got t ∨ got (t.setLink l z))) ∧
        (4 ≤ l → ¬ damaged →
          let kept := (s.setLink l y).sendWaiting l
          (ahead = 0 → got (((s.setLink l { y with rx := (x.rx + 1) % 4096, gap := false, refused := 0 }).sendWaiting l).routeFlit
            ((linkDies l).headD 2) flit)) ∧
          (0 < ahead → ahead < 2048 → x.gap = false →
            got { (s.setLink l { y with gap := true }).sendWaiting l with handed := kept.handed ++ [.replay l x.rx] }) ∧
          (2048 ≤ ahead ∨ 0 < ahead ∧ x.gap = true → got kept))) ∧
      ∀ seq,
        let again := (if l < 4 then [(x.replay.find? fun f => f.seq == seq).getD { seq := seq, bytes := [] }]
          else (x.ack ((seq + 4095) % 4096)).replay).map fun f => { f with replays := f.replays + 1 }
        ((∀ f ∈ again, f.replays ≤ 8) → exec (.replayRequest l seq) s = .next { s.setLink l { x with replay := again } with
          handed := s.handed ++ if l < 4 then [] else again.map fun f => .out l f.bytes }) ∧
        ((∃ f ∈ again, 8 < f.replays) → exec (.replayRequest l seq) s =
          .next (retrains s { x with replay := again } (x.st == .quiescing)))) ∧
    (x.st = .retraining →
      (∀ y : Link, y = { x with
          st := if x.recorded then .quiescing else .up, recorded := false, fails := 0, since := s.now } →
        exec (.retrainDone l) s = .next (((s.setLink l y).replayAll l y).sendWaiting l)) ∧
      ∃ r, exec (.retrainFails l) s = .next r ∧ fails x r) ∧
    (x.st ≠ .retraining → exec (.retrainDone l) s = .next s ∧ exec (.retrainFails l) s = .next s) ∧
    (x.st = .training ∨ x.st = .retraining → x.since + 2 ^ 17 ≤ s.now → fails x (s.settleLink l)) ∧
    (x.st = .quiescing →
      (x.replay = [] → s.owed l = false → exec (.linkDrained l) s = .next (s.setLink l { x with st := .quiesced, since := s.now })) ∧
      (x.since + 8192 ≤ s.now → exec (.quiesceTimeout l) s = .next (retrains s x true))) ∧
    (x.st ≠ .quiescing → exec (.linkDrained l) s = .next s)) ∧
  (∀ (x : Link) a, ((∀ f ∈ x.replay, f.seq ≠ a) → x.ack a = x) ∧
    ∀ before f after, x.replay = before ++ f :: after → f.seq = a → (∀ g ∈ before, g.seq ≠ a) → x.ack a = { x with replay := after }) ∧
  ∀ (s : State) ctx die,
    let b := s.bucket ctx die
    let first := max (-2147483648) (min (b.size : Int) (b.level + b.rate - b.inj))
    let level := min (b.size : Int) (first + b.rate * ((s.now - b.at_ - 1 : Nat) : Int))
    b.at_ < s.now → b.level < b.size ∨ b.inj ≠ 0 → exec (.tokenBucketRefill ctx die) s =
      .next { s with buckets := insertAt (ctx * 4 + die) { b with level := level, inj := 0, at_ := s.now } s.buckets }

/-- Dies and the outside: a cold reset verifies the stored image and ends in a wipe or in recovery, with the die's memory cleared
and its links in their reset state; a wipe that may end leads to training, or back to recovery where the image was refused, with
the die's memory, home lines, near copies, scratchpad, scale memory, groups, commands, reflections, matrix works and lanes
cleared; a die-fatal error resets the die warm, unless it is in warm reset already: the contexts on the die are killed, the
subscriptions on its memory end, its ports go Down, no copy across its bounds remains, and its edges quiesce; a die whose edges
have trained after that is ready; the life cycle advances in order and wipes a die that has run its ROM; throttling and the power
limit change nothing else; host ports go down, come up, and write bytes of one line to device memory (R448, R449, R455 to R459).
The stored image and its digest are free (assumption log 3); what is at work when a die resets, and when, is the model's choice
(logs 4, 54), and so are link and host events (logs 30, 58). -/
def Obligations.DieAndHostEvents : Prop :=
  (∀ (s : State) d, s.hasDie d = true →
    let u := (((s.ctxsOn d).foldl State.killCtx s).loseRefls fun r => r.stack / 4 == d).loseCopies fun c => c.stack / 4 == d || c.die == d
    let img := Config.storedImage u.free
    let good := u.imageOk d img
    ∃ t, exec (.coldReset d) s = .next t ∧ (t.die d).warmed = false ∧ (t.die d).throttled = false ∧ (t.die d).rejected = !good ∧
      (good = true → (t.die d).phase = .wiping ∧ (t.die d).digest = Config.fwDigest img ∧ (t.die d).svn = Config.fwSvn img) ∧
      (good = false → (t.die d).phase = .recovery ∧ (t.die d).digest = [] ∧ (t.die d).svn = 0) ∧
      (∀ p ∈ t.mem, p.1 / 2 ^ 38 ≠ d) ∧ ∀ l ∈ s.dieEdges d ++ diePorts d, t.link l = {}) ∧
  (∀ (s : State) d, s.hasDie d = true → (s.die d).phase = .wiping ∨ ((s.die d).phase = .warm ∧ (s.die d).switchAt ≤ s.now ∧
      ∀ l < 4, s.isLink l = true → d ∈ linkDies l → (s.link l).st = .quiesced ∨ (s.link l).st = .failed) →
    ∃ t, exec (.wipeComplete d) s = .next t ∧ (t.die d).phase = (if (s.die d).rejected then .recovery else .training) ∧
      (∀ p ∈ t.mem, p.1 / 2 ^ 38 ≠ d) ∧ (∀ p ∈ t.spad, p.1 / 2 ^ 24 ≠ d) ∧ (∀ p ∈ t.groups, dieOf p.2.core ≠ d) ∧
      (∀ p ∈ t.cmds, dieOf p.2.core ≠ d) ∧ (∀ p ∈ t.refls, dieOf p.2.core ≠ d) ∧ (∀ p ∈ t.mwork, dieOf p.1 ≠ d) ∧
      (∀ h ∈ t.homes, h.stack / 4 ≠ d) ∧ (∀ c ∈ t.copies, c.die ≠ d ∧ c.stack / 4 ≠ d) ∧
      (∀ core, dieOf core = d → t.scaleMem core = { owner := none, fill := 0, bytes := [], xfers := [] }) ∧
      ∀ p ∈ t.txlanes, p.1 / 128 ≠ d) ∧
  (∀ (s : State) d, s.hasDie d = true →
    exec (.dieFatal d) s = .next ((s.logError ⟨d, 0, 14, false, 0, 0, 0, s.now, 0⟩).warmReset d true)) ∧
  (∀ (s : State) d fatal,
    let t := s.warmReset d fatal
    ((s.die d).warmed = true → t = s) ∧
    ((s.die d).warmed = false →
      (t.die d).phase = .warm ∧ (t.die d).warmed = true ∧ s.now ≤ (t.die d).switchAt ∧ (t.die d).switchAt ≤ s.now + 8192 ∧
      (∀ tag c, lookup tag s.ctxs = some c → d ∈ deviceDies c.mode c.dev →
        ∃ y, lookup tag t.ctxs = some y ∧ (y.st = .killing ∨ y.st = .failed)) ∧
      (∀ n r, lookup n t.refls = some r → r.stack / 4 = d → r.st ≠ .live) ∧
      (∀ c ∈ t.copies, c.stack / 4 = d ↔ c.die = d) ∧ ∀ l ∈ diePorts d, (t.link l).st = .down)) ∧
  (∀ (s : State) d,
    ((s.die d).phase = .training → (s.die d).warmed = true → (∀ l ∈ s.dieEdges d, (s.link l).st = .up) →
      s.settleDie d = s.modDie d fun y => { y with phase := .ready, warmed := false }) ∧
    ((s.die d).phase = .warm → (s.die d).switchAt ≤ s.now → ∀ l ∈ s.dieEdges d, (s.link l).st = .up →
      ((s.settleDie d).link l).st = .quiescing) ∧
    ((s.die d).phase ≠ .training → (s.die d).phase ≠ .warm → s.settleDie d = s)) ∧
  (∀ (s : State) d state, s.hasDie d = true → state = (s.die d).life + 1 → state ≤ 3 → ∃ t,
    exec (.lifecycleTransition d state) s = .next t ∧ (t.die d).life = state ∧
      (t.die d).phase = (if (s.die d).phase = .boot then .boot else .wiping) ∧ (state = 3 → (t.die d).identity = false)) ∧
  (∀ (s : State) d on, s.hasDie d = true → exec (.thermalThrottle d on) s = .next (s.modDie d fun x => { x with throttled := on })) ∧
  (∀ (s : State) on, s.part = .ct4880 → exec (.coolantLimit on) s = .next { s with powerLow := on }) ∧
  (∀ (s : State) port state, port < s.part.ports → state < 2 →
    let t : State := { s with portDown := insertAt port state s.portDown }
    (s.portUp port = true → exec (.hostPortLinkDown port state) s = .next (t.logError
      ⟨port, 0, 13, false, 0, port, 0, s.now, 0⟩)) ∧
    (s.portUp port = false → exec (.hostPortLinkDown port state) s = .next t ∧
      exec (.hostPortLinkUp port) s = .next { s with portDown := eraseAt port s.portDown })) ∧
  ∀ (s : State) func stack off bytes, func < s.part.ports → s.hasDie (stack / 4) = true → off < 2 ^ 36 → s.portUp func = true →
    s.dieReady (stack / 4) = true → bytes ≠ [] → off % 128 + bytes.length ≤ 128 →
    exec (.hostWrite func (stack * 2 ^ 36 + off) bytes) s = .next (s.homeWrite
      { stack := stack, line := off / 128, bytes := bytes.mapIdx fun i b => (off % 128 + i, b), psn := [], rel := false })

/-- Errors: each class is logged with its code, and its extent is poisoned, cancelled or repaired as Table 17-6 says: a
corrected error is counted in the log of its die or of a live context; a stored sector of memory is struck; a sector of a line
of L2 is fetched again where it is clean, and poisoned where it is dirty; a slice is retired, the last of a stack with its die;
an instruction cache is filled anew; a parked word, a command, and a word of a core's arrays, or a core out of service with its
context killed, where no checkpoint takes the team back. A rollback gives the team's groups the records of its checkpoint, the
undo log's words their old values, outside the slots of live reflections, and the reflections consumed since PEND, and its log
begins anew; a core that is marked out of service instead stays out. A poisoned word, or predicate, is the struck one alone
(R315, R394, R396 to R399, R420, R430). The fields of an error-log entry, which array is struck and its bits, what firmware
decides, and how a rollback stops what was issued are the model's choices (assumption logs 13, 48, 56). -/
def Obligations.ErrorEvents : Prop :=
  (∀ (s : State) d, s.hasDie d = true →
    (∃ ctx unit addr, (ctx = 0 ∨ lookup ctx s.ctxs ≠ none) ∧ exec (.correctableEcc d) s =
      .next (({ s with free := s.free + 3 } : State).logError ⟨d, ctx, 1, false, 0, unit, addr, s.now, 0⟩)) ∧
    exec (.managementControllerFault d) s = .next (s.logError ⟨d, 0, 15, false, 0, 0, 0, s.now, 0⟩)) ∧
  (∀ (s : State) core, s.hasDie (core / 256) = true → exec (.instructionCacheError core) s =
    .next ((s.setCore core { s.core core with icache := [] }).logError ⟨core / 256, 0, 6, false, 0, core, 0, s.cyc core, 0⟩)) ∧
  (∀ (s : State) stack off, s.hasDie (stack / 4) = true → off < 2 ^ 36 →
    exec (.hbmSectorUncorrectable (stack * 2 ^ 36 + off)) s = .next ((s.logError
      ⟨stack / 4, 0, 2, false, 0, s.homeOf stack off % 64, stack * 2 ^ 36 + off, s.now, 0⟩).setSlotPsn stack off true)) ∧
  (∀ (s : State) die stack off, off < 2 ^ 36 → s.l2Hits die stack off ≠ [] →
    let bit : BitVec 4 := 1#4 <<< (off % 128 / 32)
    ∃ x ∈ s.l2Hits die stack off, ∃ t, exec (.l2DataUncorrectable die (stack * 2 ^ 36 + off)) s = .next t ∧
      t.mem = s.mem ∧ t.groups = s.groups ∧ (∃ e ∈ t.errlog, e.code = 3) ∧
      match x with
      | .home h =>
        t.copies = s.copies ∧ t.homes = s.homes.map fun y => if y = h then
          (if h.dirty.getLsbD (off % 128 / 32) then { h with psn := h.psn ||| bit }
            else { h with valid := h.valid &&& ~~~bit }) else y
      | .copy c =>
        t.homes = s.homes ∧ t.copies = s.copies.map fun y => if y = c then
          (if (List.range 32).any fun i => c.dirty.getLsbD (off % 128 / 32 * 32 + i) then { c with psn := c.psn ||| bit }
            else { c with valid := c.valid &&& ~~~bit }) else y) ∧
  (∀ (s : State) die slice, s.hasDie die = true → slice < 64 → slice ∉ (s.die die).retired →
    let last := ∀ u < 16, slice / 16 * 16 + u = slice ∨ slice / 16 * 16 + u ∈ (s.die die).retired
    ∃ t, exec (.l2SliceTagError die slice) s = .next t ∧
      (¬ last → slice ∈ (t.die die).retired ∧ ∀ c ∈ t.copies, ¬ (c.die = die ∧ c.slice % 64 = slice)) ∧
      (last → (t.die die).warmed = true)) ∧
  (∀ (s : State) gid g word, lookup gid s.groups = some g → g.image = true → 4 * word < g.frameSize →
    ∃ w, exec (.parkingRegionUncorrectable gid word) s = .next (({ s with free := s.free + 1 }.setGroup gid
      { g with frame := writeAt PWord.zero word ⟨w, true⟩ g.frame }).logError
        ⟨g.core / 256, g.ctx, 7, false, 0, g.core, 4 * word, s.cyc g.core, 0⟩)) ∧
  (∀ (s : State) n c, s.cmd n = some c → exec (.copyEngineInternalError n) s =
    .next ((s.cancel n 12).logError ⟨c.core / 256, c.ctx, 9, false, 0, c.core, 0, s.cyc c.core, 0⟩)) ∧
  (∀ (s : State) a team ctx core addr, s.arrayOwner a = some (team, ctx, core, addr) →
    let t := s.logError ⟨core / 256, ctx, 4, false, 0, core, addr, s.cyc core, 0⟩
    ((∀ i, team = some i → t.unspent i = none) → exec (.registerSpaceUncorrectable a) s = .next (t.poisonArray a)) ∧
    ∀ i x c, team = some i → t.unspent i = some (x, c) → exec (.registerSpaceUncorrectable a) s =
      .next (if (t.rollback i x c).2 then (t.rollback i x c).1 else (t.rollback i x c).1.poisonArray a)) ∧
  (∀ (s : State) gid g, lookup gid s.groups = some g →
    let t := s.logError ⟨g.core / 256, g.ctx, 5, false, 0, g.core, 0, s.cyc g.core, 0⟩
    let gone := fun u : State => (u.setCore g.core { u.core g.core with out := true }).killCtx g.ctx
    (t.unspent g.team = none → exec (.schedulingStateUncorrectable gid) s = .next (gone t)) ∧
    ∀ x c, t.unspent g.team = some (x, c) → exec (.schedulingStateUncorrectable gid) s =
      .next (if (t.rollback g.team x c).2 then (t.rollback g.team x c).1 else gone (t.rollback g.team x c).1)) ∧
  (∀ (s : State) team x c,
    let u : State := { s.stopTeam team c with free := (s.stopTeam team c).free + 1 }
    let r := s.rollback team x c
    (r.2 = true → r.1 = u.replayTeam team x c) ∧ (r.2 = false → (r.1.core x.core).out = true)) ∧
  (∀ (s : State) team x c,
    let t := s.replayTeam team x c
    ((c.groups.map (·.gid)).Nodup → ∀ r ∈ c.groups, ∀ g, lookup r.gid s.groups = some g → ∃ y, lookup r.gid t.groups = some y ∧
      y.threads = r.threads ∧ y.ptab = r.ptab ∧ y.qbind = r.qbind ∧ y.slots = r.slots ∧ y.tiles = r.tiles ∧ y.unit = r.unit ∧
      y.wait = r.wait ∧ y.outstanding = [] ∧ y.handler = .none ∧ y.record = none) ∧
    (∀ y, lookup team s.teams = some y → ∃ z, lookup team t.teams = some z ∧
      z.ckpt = y.ckpt.map fun k => { k with log := [], arrivals := [], racked := [] }) ∧
    ∀ n r, lookup n s.refls = some r → lookup n t.refls = some { r with pend := if n ∈ c.racked then true else r.pend }) ∧
  (∀ (s : State) core b old, (old.map (·.1)).Nodup →
    (∀ gid g, lookup gid s.groups = some g → ∃ y, lookup gid (s.undo core ⟨.frame gid b, old⟩).groups = some y ∧
      (∀ x ∈ old, y.word (b + x.1) = x.2) ∧ ∀ i, (∀ x ∈ old, b + x.1 ≠ i) → y.word i = g.word i) ∧
    let t := s.undo core ⟨.spad b, old⟩
    (∀ x ∈ old, s.inSlot core (b + x.1) = false → readAt PWord.zero t.spad (core * 65536 + b + x.1) = x.2) ∧
    ∀ i, (∀ x ∈ old, core * 65536 + b + x.1 = i → s.inSlot core (b + x.1) = true) → readAt PWord.zero t.spad i = readAt PWord.zero s.spad i) ∧
  (∀ (s : State) gid g, lookup gid s.groups = some g →
    let strikes := fun (a : CoreArray) (i : Nat) =>
      (s.poisonArray a).spad = s.spad ∧ (∀ k, k ≠ gid → lookup k (s.poisonArray a).groups = lookup k s.groups) ∧
      ∃ y, lookup gid (s.poisonArray a).groups = some y ∧ (y.word i).psn = true ∧ (∀ j, j ≠ i → y.word j = g.word j) ∧
        y.threads = g.threads
    (∀ word, strikes (.frame gid word) word) ∧ (∀ n elem, strikes (.tile gid n elem) (g.tileBase n + 2 * elem)) ∧
    ∀ lane p, lane < g.threads.length → 0 < p → p < 16 → ∃ y, lookup gid (s.poisonArray (.predicate gid lane p)).groups = some y ∧
      y.frame = g.frame ∧ (y.thread lane).predPsn = (g.thread lane).predPsn ||| 1#16 <<< p ∧
      (y.thread lane).preds = (g.thread lane).preds ∧ ∀ L, L ≠ lane → y.thread L = g.thread L) ∧
  ∀ (s : State) core word,
    let t := s.poisonArray (.spad core word)
    t.groups = s.groups ∧ (readAt PWord.zero t.spad (core * 65536 + word)).psn = true ∧
      ∀ i, i ≠ core * 65536 + word → readAt PWord.zero t.spad i = readAt PWord.zero s.spad i

/-- Management commands for a live context of a device in service: destruction, kill, preempt, resume, handler, fault
ring, policy and invalidation take effect and are answered with status 0, CTXCREATE with the new tag; a tag that is not
live is refused; nothing of a destroyed context remains but its Disabled queues, which no context owns, and other contexts stay
as they are (R362, R366, R375, R383, R406, R453, R454). Management commands of a die: RESUME of a fault record or of
a range, ERRLOG, LINKSTAT, DIERESET, PAGEATTR, FWLOAD and ATTEST take effect and are answered; a die in warm reset
answers PARTDOWN to every command, and one in recovery, or whose firmware was refused, refuses all but FWLOAD (R398, R423, R448,
R452, R453, R455, R492). The words of the commands that the spec does not place, which command waits for which, and when the
controller reads a ring again, are the model's choices (assumption logs 50, 51, 53); so are what an image's checks find (log 3),
what one eclipse or kill does (log 43), drains (log 31), counters (log 34) and the order of an invalidation (log 36). -/
def Obligations.ManagementCommands : Prop :=
  (∀ (s : State) tag c,
    let t := s.create tag c
    lookup tag t.ctxs = some c ∧ (∀ k, k ≠ tag → lookup k t.ctxs = lookup k s.ctxs) ∧ (∀ q ∈ c.queues, (t.queue q).ctx = tag) ∧
      ∀ d ∈ deviceDies c.mode c.dev, (t.die d).mode = c.mode) ∧
  (∀ (s : State) tag c, lookup tag s.ctxs = some c →
    let t := s.destroy tag c
    lookup tag t.ctxs = none ∧ (∀ k, k ≠ tag → lookup k t.ctxs = lookup k s.ctxs) ∧
    lookup tag t.images = none ∧ (∀ k, k ≠ tag → lookup k t.images = lookup k s.images) ∧
    (∀ q < 8192, tag ≠ 0 → (t.queue q).ctx ≠ tag ∧ ((s.queue q).ctx = tag → (t.queue q).st = .disabled ∧ (t.queue q).entries = [])) ∧
    (∀ p ∈ t.cmds, p.2.ctx ≠ tag) ∧ (∀ p ∈ t.kernels, p.2.ctx ≠ tag) ∧ (∀ p ∈ t.graphs, p.2.ctx ≠ tag) ∧
    (∀ p ∈ t.walks, p.2.ctx ≠ tag) ∧ (∀ x ∈ t.tlb, x.ctx ≠ tag) ∧ (∀ f ∈ t.faults, f.ctx ≠ tag) ∧ (∀ x ∈ t.errlog, x.ctx ≠ tag) ∧
    (∀ x ∈ t.copies, x.ctx ≠ tag) ∧ (∀ p ∈ t.loans, p.1 / 1024 ≠ tag) ∧ (∀ p ∈ t.buckets, p.1 / 4 ≠ tag) ∧
    (∀ p ∈ t.scales, p.2.owner ≠ some tag) ∧ ∀ p ∈ t.txlanes, p.2.owner ≠ some tag) ∧
  ((∀ (s : State) m e tag c, s.mgmtEntry m = some e → (s.die m.die).refuses e.type = none → lookup tag s.ctxs = some c →
     (s.die c.lowDie).refuses e.type = none → s.ctxHeld m tag = false →
     (e.w 1 = tag →
       (e.type = 3 → exec (.ctxkill m) s = .next ((s.killCtx tag).reply m 0 [])) ∧
       (e.type = 4 → exec (.preempt m) s = .next ((s.preemptCtx tag).reply m 0 [])) ∧
       (e.type = 5 → exec (.ctxresume m) s = .next ((s.modCtx tag fun x =>
         { x with st := if x.st == .saved then .restoring else x.st }).reply m 0 [])) ∧
       (e.type = 6 → e.num 2 = 0 → exec (.handler m) s = .next ((s.modCtx tag fun x => { x with handler := none }).reply m 0 [])) ∧
       (e.type = 6 → e.num 2 ≠ 0 →
         (∀ t, (s.describe c.lowDie tag (e.num 2) = .refused t ∨ ∃ va f, s.describe c.lowDie tag (e.num 2) = .suspend va f t) →
           exec (.handler m) s = .next (t.reply m 1 [])) ∧
         ∀ d code t, s.describe c.lowDie tag (e.num 2) = .ok d code t →
           let alone := d.w = 1 ∧ d.h = 1 ∧ d.g = 1 ∧ d.scratch = 0 ∧ d.argoff = 0 ∧ d.arglen = 0
           (alone → exec (.handler m) s = .next ((t.modCtx tag fun x => { x with handler := some (d, code) }).reply m 0 [])) ∧
           (¬ alone → exec (.handler m) s = .next (t.reply m 1 []))) ∧
       (e.type = 9 → e.w 2 < 32 → e.w 3 < 2048 → exec (.faultring m) s = .next
         ((s.readFaultRing tag (e.w 2) (e.w 3)).reply m 0 [])) ∧
       (e.type = 2 → (c.st = .ready ∨ c.st = .saved ∨ c.st = .failed) →
         (∀ p ∈ s.ctxs, ¬ (p.2.shade = true ∧ p.2.princ = tag ∧ p.2.st = .killing)) →
         (s.shadeOf tag = none → exec (.ctxdestroy m) s = .next ((s.destroy tag c).reply m 0 [])) ∧
         ∀ sh, s.shadeOf tag = some sh → exec (.ctxdestroy m) s = .next ((s.startMgmt m).killCtx sh)) ∧
       (e.type = 2 → c.st ≠ .ready → c.st ≠ .saved → c.st ≠ .failed → (e.started = true → c.st ≠ .killing) →
         exec (.ctxdestroy m) s = .next (s.reply m 1 []))) ∧
     (e.w 2 = tag → e.type = 14 →
       let buckets := fun f : Bucket → Bucket => (deviceDies c.mode c.dev).foldl (fun (t : State) d =>
         { t with buckets := insertAt (tag * 4 + d) (f ((t.bucket tag d).refill t.now)) t.buckets }) s
       let size := min 16777216 (max 4096 (e.w 3))
       (e.w 1 = 1 → exec (.policy m) s = .next ((s.modCtx tag fun x => { x with weight := min 4 (max 1 (e.w 3)) }).reply m 0 [])) ∧
       (e.w 1 = 2 → exec (.policy m) s = .next ((s.modCtx tag fun x => { x with prio := min 7 (e.w 3) }).reply m 0 [])) ∧
       (e.w 1 = 3 → exec (.policy m) s = .next ((buckets fun b => { b with size := size, level := min b.level size }).reply m 0 [])) ∧
       (e.w 1 = 4 → exec (.policy m) s = .next ((buckets fun b => { b with rate := min 16383 (max 1 (e.w 3)) }).reply m 0 []))) ∧
     (e.w 1 % 2 ^ 16 = tag → e.type = 7 →
       let all := e.w 1 / 2 ^ 16 % 2 = 1
       let v : Inval := { ctx := some tag, func := c.func, first := if all then 0 else e.num 2 / 65536
                          count := if all then 2 ^ 41 else e.w 4 * unitPages (e.w 1 / 2 ^ 17 % 4), ats := false
                          flush := (e.w 1 / 2 ^ 19) % 2 = 1, mgmt := some m, holders := [] }
       let q := mgmtKey m.func m.die
       let t := s.setQueue q { s.queue q with entries := modifyAt m.idx (fun y => { y with started := true }) (s.queue q).entries }
       (invalBad e = false → exec (.inval m) s = .next (((t.dropDie tag c.lowDie).beginInval v).remapRefls v)) ∧
       (invalBad e = true → exec (.inval m) s = .next (s.reply m 1 [])))) ∧
   (∀ (s : State) m e, s.mgmtEntry m = some e → (s.die m.die).refuses e.type = none → lookup (e.w 1) s.ctxs = none →
     ∀ i, (e.type = 2 ∧ i = .ctxdestroy m) ∨ (e.type = 3 ∧ i = .ctxkill m) ∨ (e.type = 4 ∧ i = .preempt m) ∨
       (e.type = 5 ∧ i = .ctxresume m) ∨ (e.type = 6 ∧ i = .handler m) ∨ (e.type = 9 ∧ i = .faultring m) →
       exec i s = .next (s.reply m 1 [])) ∧
   ∀ (s : State) m e, s.mgmtEntry m = some e → e.type = 1 → (s.die m.die).refuses 1 = none → s.portUp m.func = true →
     let got := s.hostBytes (e.num 1) 64
     let w := fun i => ((wordsOfBytes got.1).getD i 0).toNat
     let c := recordCtx s.part w m.func
     (got.2 = false → recordBad s.part w = false → (s.die c.lowDie).refuses 1 = none → s.createBad c = false → s.newTag ≠ 0 →
       exec (.ctxcreate m) s = .next ((s.create s.newTag c).reply m 0 [s.newTag])) ∧
     (got.2 = true ∨ recordBad s.part w = true → exec (.ctxcreate m) s = .next (s.reply m 1 []))) ∧
  (∀ (s : State) m e, s.mgmtEntry m = some e →
     let form : Nat → Instr → Prop := fun ty i => (ty, i) ∈ [(1, Instr.ctxcreate m), (2, .ctxdestroy m), (3, .ctxkill m),
       (4, .preempt m), (5, .ctxresume m), (6, .handler m), (7, .inval m), (8, .resume m), (9, .faultring m), (10, .pageattr m),
       (11, .errlog m), (12, .linkstat m), (13, .diereset m), (14, .policy m), (15, .fwload m), (16, .attest m)]
     ((s.die m.die).warmed = true → ∀ i, form e.type i → exec i s = .next (s.reply m 3 [])) ∧
     ((s.die m.die).warmed = false → (s.die m.die).phase = .recovery ∨ (s.die m.die).rejected = true → e.type ≠ 15 →
       ∀ i, form e.type i → exec i s = .next (s.reply m 1 [])) ∧
     ((s.die m.die).warmed = false → e.type = 15 → s.portUp m.func = true → (s.hostBytes (e.num 1) (e.w 3)).2 = false →
       exec (.fwload m) s = .next (if s.imageOk m.die (s.hostBytes (e.num 1) (e.w 3)).1 then (s.modDie m.die fun d => { d with
         digest := Config.fwDigest (s.hostBytes (e.num 1) (e.w 3)).1
         svn := Config.fwSvn (s.hostBytes (e.num 1) (e.w 3)).1
         rejected := false
         phase := if d.phase == .recovery then .wiping else d.phase }).reply m 0 [] else s.reply m 4 [])) ∧
     ((s.die m.die).refuses e.type = none →
       (e.type = 8 → resumeBad e = false → e.w 1 / 2 % 2 = 0 →
         (∀ f, (s.faults.find? fun x => x.die == m.die && x.id == e.w 2) = some f → exec (.resume m) s =
           .next ((s.answerFault (e.w 1 % 2 == 1) f).reply m 0 [])) ∧
         ((s.faults.find? fun x => x.die == m.die && x.id == e.w 2) = none → exec (.resume m) s = .next (s.reply m 1 []))) ∧
       (e.type = 8 → resumeBad e = false → e.w 1 / 2 % 2 = 1 → ∀ c, lookup (e.w 1 / 2 ^ 16) s.ctxs = some c →
         (s.die c.lowDie).refuses 8 = none → s.ctxHeld m (e.w 1 / 2 ^ 16) = false → exec (.resume m) s =
           .next (((s.faults.filter fun f => f.ctx == e.w 1 / 2 ^ 16 && inPages (e.num 3 / 65536) (e.w 5) f.page).foldl
             (fun t f => t.answerFault (e.w 1 % 2 == 1) f) s).reply m 0 [])) ∧
       (e.type = 8 → resumeBad e = true → exec (.resume m) s = .next (s.reply m 1 [])) ∧
       (e.type = 11 → e.w 1 = 0 → exec (.errlog m) s = .next ((s.copyLogs m.func (e.num 2) 0 [m.die]).2.reply m 0
         [(s.copyLogs m.func (e.num 2) 0 [m.die]).1])) ∧
       (e.type = 11 → e.w 1 ≠ 0 → ∀ c, lookup (e.w 1) s.ctxs = some c → (s.die c.lowDie).refuses 11 = none → s.ctxHeld m (e.w 1) = false →
         let r := s.copyLogs m.func (e.num 2) (e.w 1) (deviceDies c.mode c.dev)
         exec (.errlog m) s = .next (r.2.reply m 0 [r.1])) ∧
       (e.type = 12 → s.isLink (e.w 1) = true → exec (.linkstat m) s = .next (s.reply m 0
         [(s.link (e.w 1)).status % 2 ^ 32, (s.link (e.w 1)).status / 2 ^ 32])) ∧
       (e.type = 12 → s.isLink (e.w 1) = false → exec (.linkstat m) s = .next (s.reply m 1 [])) ∧
       (e.type = 13 → s.hasDie (e.w 1) = false ∨ (e.w 1 = m.die ∧ (s.die m.die).warmed = false) → exec (.diereset m) s = .next (s.reply m 1 [])) ∧
       (e.type = 13 → s.hasDie (e.w 1) = true → (s.die (e.w 1)).warmed = true → exec (.diereset m) s = .next (s.reply m 0 [])) ∧
       (e.type = 13 → s.hasDie (e.w 1) = true → e.w 1 ≠ m.die → (s.die (e.w 1)).warmed = false →
         (s.die (e.w 1)).mode ≠ 1 ∨ (∃ d < 4, d ≠ e.w 1 ∧ s.dieReady d = true) →
         exec (.diereset m) s = .next ((s.warmReset (e.w 1) false).reply m 0 [])) ∧
       (e.type = 10 → e.num 1 % 65536 = 0 → e.w 3 ≤ 1 → ∀ mode dev, (s.die m.die).mode = mode →
         (mode = 1 ∧ dev = 0) ∨ (mode = 2 ∧ dev = m.die / 2) ∨ (mode = 4 ∧ dev = m.die) → ∀ bs : List (Nat × Nat),
         s.pageBlocks mode dev (e.num 1) = bs.map some → exec (.pageattr m) s =
           .next ((bs.foldl (fun t p => t.setBlock (e.w 3 == 1) p) s).reply m 0 [])) ∧
       (e.type = 14 → e.w 1 = 5 → 0 < e.w 4 → e.w 4 < e.w 3 → e.w 3 ≤ 65535 → exec (.policy m) s =
         .next ((s.modDie m.die fun d => { d with hi := e.w 3, lo := e.w 4 }).reply m 0 [])) ∧
       (e.type = 14 → e.w 1 = 6 → exec (.policy m) s = .next ((s.modDie m.die fun d => { d with logAt := min 256 (e.w 3) }).reply m 0 [])) ∧
       (e.type = 14 → e.w 1 = 7 → exec (.policy m) s = .next ((s.modDie m.die fun d => { d with
         power := min (match s.part with
           | .ct4810 => 900
           | .ct4840 => 3400
           | .ct4880 => 3600) (e.w 3) }).reply m 0 [])) ∧
       (e.type = 16 → (s.die m.die).identity = false → exec (.attest m) s = .next (s.reply m 1 [])) ∧
       (e.type = 16 → (s.die m.die).identity = true →
         let r := s.report m.die (bytesOfWords ((List.range 8).map fun i => e.w (1 + i)))
         exec (.attest m) s = .next ((s.mgmtWrite m.func (e.num 9) (r ++ Config.sm2Sign m.die (Config.sm3 r))).reply m 0 []))))
end

