-- ==== Sys2Proof/Laws/Arith.lean ====
section
/-! SUPPORT. The word operations of the meanings as the integer computations of the spec (R108, R111 to R119). -/

namespace Sys2Proof.Machine

theorem loWord_add (x y : Int) : loWord (x + y) = loWord x + loWord y := BitVec.ofInt_add x y

theorem loWord_mul (x y : Int) : loWord (x * y) = loWord x * loWord y := BitVec.ofInt_mul x y

theorem loWord_neg (x : Int) : loWord (-x) = -loWord x := BitVec.ofInt_neg

theorem loWord_sub (x y : Int) : loWord (x - y) = loWord x - loWord y := by
  rw [Int.sub_eq_add_neg, loWord_add, loWord_neg, BitVec.sub_eq_add_neg]

theorem loWord_natCast (n : Nat) : loWord n = BitVec.ofNat 32 n := BitVec.ofInt_natCast 32 n

theorem loWord_toNat (a : Word) : loWord a.toNat = a := by rw [loWord_natCast, BitVec.ofNat_toNat, BitVec.setWidth_eq]

theorem loWord_toInt (a : Word) : loWord a.toInt = a := BitVec.ofInt_toInt

theorem shlWord_eq (a : Word) (n : Nat) : shlWord a n = loWord (if 32 ≤ n then 0 else a.toNat * 2 ^ n) := by
  unfold shlWord
  split
  · rfl
  · have e : (a.toNat : Int) * 2 ^ n = ((a.toNat * 2 ^ n : Nat) : Int) := by push_cast; rfl
    rw [e, loWord_natCast]
    apply BitVec.eq_of_toNat_eq
    simp [BitVec.toNat_shiftLeft, Nat.shiftLeft_eq]

theorem shrWord_eq (a : Word) (n : Nat) : shrWord a n = loWord (if 32 ≤ n then 0 else a.toNat / 2 ^ n) := by
  unfold shrWord
  split
  · rfl
  · have e : (a.toNat : Int) / 2 ^ n = ((a.toNat / 2 ^ n : Nat) : Int) := by push_cast; rfl
    rw [e, loWord_natCast]
    apply BitVec.eq_of_toNat_eq
    rw [BitVec.toNat_ushiftRight, Nat.shiftRight_eq_div_pow, BitVec.toNat_ofNat]
    exact (Nat.mod_eq_of_lt (lt_of_le_of_lt (Nat.div_le_self _ _) a.isLt)).symm

theorem sarWord_eq (a : Word) (n : Nat) : sarWord a n = loWord (a.toInt / 2 ^ min n 31) := by
  unfold sarWord loWord
  apply BitVec.eq_of_toInt_eq
  rw [BitVec.toInt_sshiftRight, Int.shiftRight_eq_div_pow, BitVec.toInt_ofInt]
  push_cast
  have hp : (0 : Int) < 2 ^ min n 31 := by positivity
  have h1 : (1 : Int) ≤ 2 ^ min n 31 := hp
  have lo := BitVec.le_toInt a
  have hi := BitVec.toInt_lt (x := a)
  norm_num at lo hi
  symm
  apply Int.bmod_eq_of_le
  · rw [Int.le_ediv_iff_mul_le hp]
    norm_num
    nlinarith
  · rw [Int.ediv_lt_iff_lt_mul hp]
    norm_num
    nlinarith

end Sys2Proof.Machine
end

