-- ==== Sys2Proof/Laws/State.lean ====
section
/-! SUPPORT. What each update of the state leaves alone, field by field, and what it leaves where it writes. -/

namespace Sys2Proof.Machine

section
variable (s : State)

@[simp] theorem State.setCore_part (c : Nat) (x : Core) : (s.setCore c x).part = s.part := rfl
@[simp] theorem State.setCore_now (c : Nat) (x : Core) : (s.setCore c x).now = s.now := rfl
@[simp] theorem State.setCore_turn (c : Nat) (x : Core) : (s.setCore c x).turn = s.turn := rfl
@[simp] theorem State.setCore_free (c : Nat) (x : Core) : (s.setCore c x).free = s.free := rfl
@[simp] theorem State.setCore_nextId (c : Nat) (x : Core) : (s.setCore c x).nextId = s.nextId := rfl
@[simp] theorem State.setCore_inputs (c : Nat) (x : Core) : (s.setCore c x).inputs = s.inputs := rfl
@[simp] theorem State.setCore_cur (c : Nat) (x : Core) : (s.setCore c x).cur = s.cur := rfl
@[simp] theorem State.setCore_signal (c : Nat) (x : Core) : (s.setCore c x).signal = s.signal := rfl
@[simp] theorem State.setCore_groups (c : Nat) (x : Core) : (s.setCore c x).groups = s.groups := rfl
@[simp] theorem State.setCore_teams (c : Nat) (x : Core) : (s.setCore c x).teams = s.teams := rfl
@[simp] theorem State.setCore_clusters (c : Nat) (x : Core) : (s.setCore c x).clusters = s.clusters := rfl
@[simp] theorem State.setCore_kernels (c : Nat) (x : Core) : (s.setCore c x).kernels = s.kernels := rfl
@[simp] theorem State.setCore_ctxs (c : Nat) (x : Core) : (s.setCore c x).ctxs = s.ctxs := rfl
@[simp] theorem State.setCore_loans (c : Nat) (x : Core) : (s.setCore c x).loans = s.loans := rfl
@[simp] theorem State.setCore_spad (c : Nat) (x : Core) : (s.setCore c x).spad = s.spad := rfl
@[simp] theorem State.setCore_engines (c : Nat) (x : Core) : (s.setCore c x).engines = s.engines := rfl
@[simp] theorem State.setCore_inflight (c : Nat) (x : Core) : (s.setCore c x).inflight = s.inflight := rfl
@[simp] theorem State.setCore_cmds (c : Nat) (x : Core) : (s.setCore c x).cmds = s.cmds := rfl
@[simp] theorem State.setCore_buckets (c : Nat) (x : Core) : (s.setCore c x).buckets = s.buckets := rfl
@[simp] theorem State.setCore_errlog (c : Nat) (x : Core) : (s.setCore c x).errlog = s.errlog := rfl
@[simp] theorem State.setCore_dl (c : Nat) (x : Core) : (s.setCore c x).dl = s.dl := rfl
@[simp] theorem State.setCore_mem (c : Nat) (x : Core) : (s.setCore c x).mem = s.mem := rfl
@[simp] theorem State.setCore_memPsn (c : Nat) (x : Core) : (s.setCore c x).memPsn = s.memPsn := rfl
@[simp] theorem State.setCore_host (c : Nat) (x : Core) : (s.setCore c x).host = s.host := rfl
@[simp] theorem State.setCore_hostPsn (c : Nat) (x : Core) : (s.setCore c x).hostPsn = s.hostPsn := rfl
@[simp] theorem State.setCore_dies (c : Nat) (x : Core) : (s.setCore c x).dies = s.dies := rfl
@[simp] theorem State.setCore_links (c : Nat) (x : Core) : (s.setCore c x).links = s.links := rfl
@[simp] theorem State.setCore_routes (c : Nat) (x : Core) : (s.setCore c x).routes = s.routes := rfl
@[simp] theorem State.setCore_handed (c : Nat) (x : Core) : (s.setCore c x).handed = s.handed := rfl
@[simp] theorem State.setCore_portDown (c : Nat) (x : Core) : (s.setCore c x).portDown = s.portDown := rfl
@[simp] theorem State.setCore_powerLow (c : Nat) (x : Core) : (s.setCore c x).powerLow = s.powerLow := rfl
@[simp] theorem State.setCore_msix (c : Nat) (x : Core) : (s.setCore c x).msix = s.msix := rfl
@[simp] theorem State.setCore_copies (c : Nat) (x : Core) : (s.setCore c x).copies = s.copies := rfl
@[simp] theorem State.setCore_homes (c : Nat) (x : Core) : (s.setCore c x).homes = s.homes := rfl
@[simp] theorem State.setCore_l2Uses (c : Nat) (x : Core) : (s.setCore c x).l2Uses = s.l2Uses := rfl
@[simp] theorem State.setCore_tlb (c : Nat) (x : Core) : (s.setCore c x).tlb = s.tlb := rfl
@[simp] theorem State.setCore_walkCache (c : Nat) (x : Core) : (s.setCore c x).walkCache = s.walkCache := rfl
@[simp] theorem State.setCore_walks (c : Nat) (x : Core) : (s.setCore c x).walks = s.walks := rfl
@[simp] theorem State.setCore_faults (c : Nat) (x : Core) : (s.setCore c x).faults = s.faults := rfl
@[simp] theorem State.setCore_invals (c : Nat) (x : Core) : (s.setCore c x).invals = s.invals := rfl
@[simp] theorem State.setCore_atsHeld (c : Nat) (x : Core) : (s.setCore c x).atsHeld = s.atsHeld := rfl
@[simp] theorem State.setCore_pri (c : Nat) (x : Core) : (s.setCore c x).pri = s.pri := rfl
@[simp] theorem State.setCore_attr (c : Nat) (x : Core) : (s.setCore c x).attr = s.attr := rfl
@[simp] theorem State.setCore_collisions (c : Nat) (x : Core) : (s.setCore c x).collisions = s.collisions := rfl
@[simp] theorem State.setCore_drains (c : Nat) (x : Core) : (s.setCore c x).drains = s.drains := rfl
@[simp] theorem State.setCore_overflows (c : Nat) (x : Core) : (s.setCore c x).overflows = s.overflows := rfl
@[simp] theorem State.setCore_txlanes (c : Nat) (x : Core) : (s.setCore c x).txlanes = s.txlanes := rfl
@[simp] theorem State.setCore_counters (c : Nat) (x : Core) : (s.setCore c x).counters = s.counters := rfl
@[simp] theorem State.setCore_migreqs (c : Nat) (x : Core) : (s.setCore c x).migreqs = s.migreqs := rfl
@[simp] theorem State.setCore_refls (c : Nat) (x : Core) : (s.setCore c x).refls = s.refls := rfl
@[simp] theorem State.setCore_ranges (c : Nat) (x : Core) : (s.setCore c x).ranges = s.ranges := rfl
@[simp] theorem State.setCore_rpushes (c : Nat) (x : Core) : (s.setCore c x).rpushes = s.rpushes := rfl
@[simp] theorem State.setCore_queues (c : Nat) (x : Core) : (s.setCore c x).queues = s.queues := rfl
@[simp] theorem State.setCore_hrings (c : Nat) (x : Core) : (s.setCore c x).hrings = s.hrings := rfl
@[simp] theorem State.setCore_graphs (c : Nat) (x : Core) : (s.setCore c x).graphs = s.graphs := rfl
@[simp] theorem State.setCore_images (c : Nat) (x : Core) : (s.setCore c x).images = s.images := rfl
@[simp] theorem State.setCore_mwork (c : Nat) (x : Core) : (s.setCore c x).mwork = s.mwork := rfl
@[simp] theorem State.setCore_scales (c : Nat) (x : Core) : (s.setCore c x).scales = s.scales := rfl
@[simp] theorem State.setCore_savedScales (c : Nat) (x : Core) : (s.setCore c x).savedScales = s.savedScales := rfl
@[simp] theorem State.setCore_lastQueue (c : Nat) (x : Core) : (s.setCore c x).lastQueue = s.lastQueue := rfl

@[simp] theorem State.setGroup_part (n : Nat) (x : Group) : (s.setGroup n x).part = s.part := rfl
@[simp] theorem State.setGroup_now (n : Nat) (x : Group) : (s.setGroup n x).now = s.now := rfl
@[simp] theorem State.setGroup_turn (n : Nat) (x : Group) : (s.setGroup n x).turn = s.turn := rfl
@[simp] theorem State.setGroup_free (n : Nat) (x : Group) : (s.setGroup n x).free = s.free := rfl
@[simp] theorem State.setGroup_nextId (n : Nat) (x : Group) : (s.setGroup n x).nextId = s.nextId := rfl
@[simp] theorem State.setGroup_inputs (n : Nat) (x : Group) : (s.setGroup n x).inputs = s.inputs := rfl
@[simp] theorem State.setGroup_cur (n : Nat) (x : Group) : (s.setGroup n x).cur = s.cur := rfl
@[simp] theorem State.setGroup_signal (n : Nat) (x : Group) : (s.setGroup n x).signal = s.signal := rfl
@[simp] theorem State.setGroup_cores (n : Nat) (x : Group) : (s.setGroup n x).cores = s.cores := rfl
@[simp] theorem State.setGroup_teams (n : Nat) (x : Group) : (s.setGroup n x).teams = s.teams := rfl
@[simp] theorem State.setGroup_clusters (n : Nat) (x : Group) : (s.setGroup n x).clusters = s.clusters := rfl
@[simp] theorem State.setGroup_kernels (n : Nat) (x : Group) : (s.setGroup n x).kernels = s.kernels := rfl
@[simp] theorem State.setGroup_ctxs (n : Nat) (x : Group) : (s.setGroup n x).ctxs = s.ctxs := rfl
@[simp] theorem State.setGroup_loans (n : Nat) (x : Group) : (s.setGroup n x).loans = s.loans := rfl
@[simp] theorem State.setGroup_spad (n : Nat) (x : Group) : (s.setGroup n x).spad = s.spad := rfl
@[simp] theorem State.setGroup_engines (n : Nat) (x : Group) : (s.setGroup n x).engines = s.engines := rfl
@[simp] theorem State.setGroup_inflight (n : Nat) (x : Group) : (s.setGroup n x).inflight = s.inflight := rfl
@[simp] theorem State.setGroup_cmds (n : Nat) (x : Group) : (s.setGroup n x).cmds = s.cmds := rfl
@[simp] theorem State.setGroup_buckets (n : Nat) (x : Group) : (s.setGroup n x).buckets = s.buckets := rfl
@[simp] theorem State.setGroup_errlog (n : Nat) (x : Group) : (s.setGroup n x).errlog = s.errlog := rfl
@[simp] theorem State.setGroup_dl (n : Nat) (x : Group) : (s.setGroup n x).dl = s.dl := rfl
@[simp] theorem State.setGroup_mem (n : Nat) (x : Group) : (s.setGroup n x).mem = s.mem := rfl
@[simp] theorem State.setGroup_memPsn (n : Nat) (x : Group) : (s.setGroup n x).memPsn = s.memPsn := rfl
@[simp] theorem State.setGroup_host (n : Nat) (x : Group) : (s.setGroup n x).host = s.host := rfl
@[simp] theorem State.setGroup_hostPsn (n : Nat) (x : Group) : (s.setGroup n x).hostPsn = s.hostPsn := rfl
@[simp] theorem State.setGroup_dies (n : Nat) (x : Group) : (s.setGroup n x).dies = s.dies := rfl
@[simp] theorem State.setGroup_links (n : Nat) (x : Group) : (s.setGroup n x).links = s.links := rfl
@[simp] theorem State.setGroup_routes (n : Nat) (x : Group) : (s.setGroup n x).routes = s.routes := rfl
@[simp] theorem State.setGroup_handed (n : Nat) (x : Group) : (s.setGroup n x).handed = s.handed := rfl
@[simp] theorem State.setGroup_portDown (n : Nat) (x : Group) : (s.setGroup n x).portDown = s.portDown := rfl
@[simp] theorem State.setGroup_powerLow (n : Nat) (x : Group) : (s.setGroup n x).powerLow = s.powerLow := rfl
@[simp] theorem State.setGroup_msix (n : Nat) (x : Group) : (s.setGroup n x).msix = s.msix := rfl
@[simp] theorem State.setGroup_copies (n : Nat) (x : Group) : (s.setGroup n x).copies = s.copies := rfl
@[simp] theorem State.setGroup_homes (n : Nat) (x : Group) : (s.setGroup n x).homes = s.homes := rfl
@[simp] theorem State.setGroup_l2Uses (n : Nat) (x : Group) : (s.setGroup n x).l2Uses = s.l2Uses := rfl
@[simp] theorem State.setGroup_tlb (n : Nat) (x : Group) : (s.setGroup n x).tlb = s.tlb := rfl
@[simp] theorem State.setGroup_walkCache (n : Nat) (x : Group) : (s.setGroup n x).walkCache = s.walkCache := rfl
@[simp] theorem State.setGroup_walks (n : Nat) (x : Group) : (s.setGroup n x).walks = s.walks := rfl
@[simp] theorem State.setGroup_faults (n : Nat) (x : Group) : (s.setGroup n x).faults = s.faults := rfl
@[simp] theorem State.setGroup_invals (n : Nat) (x : Group) : (s.setGroup n x).invals = s.invals := rfl
@[simp] theorem State.setGroup_atsHeld (n : Nat) (x : Group) : (s.setGroup n x).atsHeld = s.atsHeld := rfl
@[simp] theorem State.setGroup_pri (n : Nat) (x : Group) : (s.setGroup n x).pri = s.pri := rfl
@[simp] theorem State.setGroup_attr (n : Nat) (x : Group) : (s.setGroup n x).attr = s.attr := rfl
@[simp] theorem State.setGroup_collisions (n : Nat) (x : Group) : (s.setGroup n x).collisions = s.collisions := rfl
@[simp] theorem State.setGroup_drains (n : Nat) (x : Group) : (s.setGroup n x).drains = s.drains := rfl
@[simp] theorem State.setGroup_overflows (n : Nat) (x : Group) : (s.setGroup n x).overflows = s.overflows := rfl
@[simp] theorem State.setGroup_txlanes (n : Nat) (x : Group) : (s.setGroup n x).txlanes = s.txlanes := rfl
@[simp] theorem State.setGroup_counters (n : Nat) (x : Group) : (s.setGroup n x).counters = s.counters := rfl
@[simp] theorem State.setGroup_migreqs (n : Nat) (x : Group) : (s.setGroup n x).migreqs = s.migreqs := rfl
@[simp] theorem State.setGroup_refls (n : Nat) (x : Group) : (s.setGroup n x).refls = s.refls := rfl
@[simp] theorem State.setGroup_ranges (n : Nat) (x : Group) : (s.setGroup n x).ranges = s.ranges := rfl
@[simp] theorem State.setGroup_rpushes (n : Nat) (x : Group) : (s.setGroup n x).rpushes = s.rpushes := rfl
@[simp] theorem State.setGroup_queues (n : Nat) (x : Group) : (s.setGroup n x).queues = s.queues := rfl
@[simp] theorem State.setGroup_hrings (n : Nat) (x : Group) : (s.setGroup n x).hrings = s.hrings := rfl
@[simp] theorem State.setGroup_graphs (n : Nat) (x : Group) : (s.setGroup n x).graphs = s.graphs := rfl
@[simp] theorem State.setGroup_images (n : Nat) (x : Group) : (s.setGroup n x).images = s.images := rfl
@[simp] theorem State.setGroup_mwork (n : Nat) (x : Group) : (s.setGroup n x).mwork = s.mwork := rfl
@[simp] theorem State.setGroup_scales (n : Nat) (x : Group) : (s.setGroup n x).scales = s.scales := rfl
@[simp] theorem State.setGroup_savedScales (n : Nat) (x : Group) : (s.setGroup n x).savedScales = s.savedScales := rfl
@[simp] theorem State.setGroup_lastQueue (n : Nat) (x : Group) : (s.setGroup n x).lastQueue = s.lastQueue := rfl

@[simp] theorem State.modGroup_part (n : Nat) (f : Group → Group) : (s.modGroup n f).part = s.part := rfl
@[simp] theorem State.modGroup_now (n : Nat) (f : Group → Group) : (s.modGroup n f).now = s.now := rfl
@[simp] theorem State.modGroup_turn (n : Nat) (f : Group → Group) : (s.modGroup n f).turn = s.turn := rfl
@[simp] theorem State.modGroup_free (n : Nat) (f : Group → Group) : (s.modGroup n f).free = s.free := rfl
@[simp] theorem State.modGroup_nextId (n : Nat) (f : Group → Group) : (s.modGroup n f).nextId = s.nextId := rfl
@[simp] theorem State.modGroup_inputs (n : Nat) (f : Group → Group) : (s.modGroup n f).inputs = s.inputs := rfl
@[simp] theorem State.modGroup_cur (n : Nat) (f : Group → Group) : (s.modGroup n f).cur = s.cur := rfl
@[simp] theorem State.modGroup_signal (n : Nat) (f : Group → Group) : (s.modGroup n f).signal = s.signal := rfl
@[simp] theorem State.modGroup_cores (n : Nat) (f : Group → Group) : (s.modGroup n f).cores = s.cores := rfl
@[simp] theorem State.modGroup_teams (n : Nat) (f : Group → Group) : (s.modGroup n f).teams = s.teams := rfl
@[simp] theorem State.modGroup_clusters (n : Nat) (f : Group → Group) : (s.modGroup n f).clusters = s.clusters := rfl
@[simp] theorem State.modGroup_kernels (n : Nat) (f : Group → Group) : (s.modGroup n f).kernels = s.kernels := rfl
@[simp] theorem State.modGroup_ctxs (n : Nat) (f : Group → Group) : (s.modGroup n f).ctxs = s.ctxs := rfl
@[simp] theorem State.modGroup_loans (n : Nat) (f : Group → Group) : (s.modGroup n f).loans = s.loans := rfl
@[simp] theorem State.modGroup_spad (n : Nat) (f : Group → Group) : (s.modGroup n f).spad = s.spad := rfl
@[simp] theorem State.modGroup_engines (n : Nat) (f : Group → Group) : (s.modGroup n f).engines = s.engines := rfl
@[simp] theorem State.modGroup_inflight (n : Nat) (f : Group → Group) : (s.modGroup n f).inflight = s.inflight := rfl
@[simp] theorem State.modGroup_cmds (n : Nat) (f : Group → Group) : (s.modGroup n f).cmds = s.cmds := rfl
@[simp] theorem State.modGroup_buckets (n : Nat) (f : Group → Group) : (s.modGroup n f).buckets = s.buckets := rfl
@[simp] theorem State.modGroup_errlog (n : Nat) (f : Group → Group) : (s.modGroup n f).errlog = s.errlog := rfl
@[simp] theorem State.modGroup_dl (n : Nat) (f : Group → Group) : (s.modGroup n f).dl = s.dl := rfl
@[simp] theorem State.modGroup_mem (n : Nat) (f : Group → Group) : (s.modGroup n f).mem = s.mem := rfl
@[simp] theorem State.modGroup_memPsn (n : Nat) (f : Group → Group) : (s.modGroup n f).memPsn = s.memPsn := rfl
@[simp] theorem State.modGroup_host (n : Nat) (f : Group → Group) : (s.modGroup n f).host = s.host := rfl
@[simp] theorem State.modGroup_hostPsn (n : Nat) (f : Group → Group) : (s.modGroup n f).hostPsn = s.hostPsn := rfl
@[simp] theorem State.modGroup_dies (n : Nat) (f : Group → Group) : (s.modGroup n f).dies = s.dies := rfl
@[simp] theorem State.modGroup_links (n : Nat) (f : Group → Group) : (s.modGroup n f).links = s.links := rfl
@[simp] theorem State.modGroup_routes (n : Nat) (f : Group → Group) : (s.modGroup n f).routes = s.routes := rfl
@[simp] theorem State.modGroup_handed (n : Nat) (f : Group → Group) : (s.modGroup n f).handed = s.handed := rfl
@[simp] theorem State.modGroup_portDown (n : Nat) (f : Group → Group) : (s.modGroup n f).portDown = s.portDown := rfl
@[simp] theorem State.modGroup_powerLow (n : Nat) (f : Group → Group) : (s.modGroup n f).powerLow = s.powerLow := rfl
@[simp] theorem State.modGroup_msix (n : Nat) (f : Group → Group) : (s.modGroup n f).msix = s.msix := rfl
@[simp] theorem State.modGroup_copies (n : Nat) (f : Group → Group) : (s.modGroup n f).copies = s.copies := rfl
@[simp] theorem State.modGroup_homes (n : Nat) (f : Group → Group) : (s.modGroup n f).homes = s.homes := rfl
@[simp] theorem State.modGroup_l2Uses (n : Nat) (f : Group → Group) : (s.modGroup n f).l2Uses = s.l2Uses := rfl
@[simp] theorem State.modGroup_tlb (n : Nat) (f : Group → Group) : (s.modGroup n f).tlb = s.tlb := rfl
@[simp] theorem State.modGroup_walkCache (n : Nat) (f : Group → Group) : (s.modGroup n f).walkCache = s.walkCache := rfl
@[simp] theorem State.modGroup_walks (n : Nat) (f : Group → Group) : (s.modGroup n f).walks = s.walks := rfl
@[simp] theorem State.modGroup_faults (n : Nat) (f : Group → Group) : (s.modGroup n f).faults = s.faults := rfl
@[simp] theorem State.modGroup_invals (n : Nat) (f : Group → Group) : (s.modGroup n f).invals = s.invals := rfl
@[simp] theorem State.modGroup_atsHeld (n : Nat) (f : Group → Group) : (s.modGroup n f).atsHeld = s.atsHeld := rfl
@[simp] theorem State.modGroup_pri (n : Nat) (f : Group → Group) : (s.modGroup n f).pri = s.pri := rfl
@[simp] theorem State.modGroup_attr (n : Nat) (f : Group → Group) : (s.modGroup n f).attr = s.attr := rfl
@[simp] theorem State.modGroup_collisions (n : Nat) (f : Group → Group) : (s.modGroup n f).collisions = s.collisions := rfl
@[simp] theorem State.modGroup_drains (n : Nat) (f : Group → Group) : (s.modGroup n f).drains = s.drains := rfl
@[simp] theorem State.modGroup_overflows (n : Nat) (f : Group → Group) : (s.modGroup n f).overflows = s.overflows := rfl
@[simp] theorem State.modGroup_txlanes (n : Nat) (f : Group → Group) : (s.modGroup n f).txlanes = s.txlanes := rfl
@[simp] theorem State.modGroup_counters (n : Nat) (f : Group → Group) : (s.modGroup n f).counters = s.counters := rfl
@[simp] theorem State.modGroup_migreqs (n : Nat) (f : Group → Group) : (s.modGroup n f).migreqs = s.migreqs := rfl
@[simp] theorem State.modGroup_refls (n : Nat) (f : Group → Group) : (s.modGroup n f).refls = s.refls := rfl
@[simp] theorem State.modGroup_ranges (n : Nat) (f : Group → Group) : (s.modGroup n f).ranges = s.ranges := rfl
@[simp] theorem State.modGroup_rpushes (n : Nat) (f : Group → Group) : (s.modGroup n f).rpushes = s.rpushes := rfl
@[simp] theorem State.modGroup_queues (n : Nat) (f : Group → Group) : (s.modGroup n f).queues = s.queues := rfl
@[simp] theorem State.modGroup_hrings (n : Nat) (f : Group → Group) : (s.modGroup n f).hrings = s.hrings := rfl
@[simp] theorem State.modGroup_graphs (n : Nat) (f : Group → Group) : (s.modGroup n f).graphs = s.graphs := rfl
@[simp] theorem State.modGroup_images (n : Nat) (f : Group → Group) : (s.modGroup n f).images = s.images := rfl
@[simp] theorem State.modGroup_mwork (n : Nat) (f : Group → Group) : (s.modGroup n f).mwork = s.mwork := rfl
@[simp] theorem State.modGroup_scales (n : Nat) (f : Group → Group) : (s.modGroup n f).scales = s.scales := rfl
@[simp] theorem State.modGroup_savedScales (n : Nat) (f : Group → Group) : (s.modGroup n f).savedScales = s.savedScales := rfl
@[simp] theorem State.modGroup_lastQueue (n : Nat) (f : Group → Group) : (s.modGroup n f).lastQueue = s.lastQueue := rfl

@[simp] theorem State.modTeam_part (n : Nat) (f : Team → Team) : (s.modTeam n f).part = s.part := rfl
@[simp] theorem State.modTeam_now (n : Nat) (f : Team → Team) : (s.modTeam n f).now = s.now := rfl
@[simp] theorem State.modTeam_turn (n : Nat) (f : Team → Team) : (s.modTeam n f).turn = s.turn := rfl
@[simp] theorem State.modTeam_free (n : Nat) (f : Team → Team) : (s.modTeam n f).free = s.free := rfl
@[simp] theorem State.modTeam_nextId (n : Nat) (f : Team → Team) : (s.modTeam n f).nextId = s.nextId := rfl
@[simp] theorem State.modTeam_inputs (n : Nat) (f : Team → Team) : (s.modTeam n f).inputs = s.inputs := rfl
@[simp] theorem State.modTeam_cur (n : Nat) (f : Team → Team) : (s.modTeam n f).cur = s.cur := rfl
@[simp] theorem State.modTeam_signal (n : Nat) (f : Team → Team) : (s.modTeam n f).signal = s.signal := rfl
@[simp] theorem State.modTeam_cores (n : Nat) (f : Team → Team) : (s.modTeam n f).cores = s.cores := rfl
@[simp] theorem State.modTeam_groups (n : Nat) (f : Team → Team) : (s.modTeam n f).groups = s.groups := rfl
@[simp] theorem State.modTeam_clusters (n : Nat) (f : Team → Team) : (s.modTeam n f).clusters = s.clusters := rfl
@[simp] theorem State.modTeam_kernels (n : Nat) (f : Team → Team) : (s.modTeam n f).kernels = s.kernels := rfl
@[simp] theorem State.modTeam_ctxs (n : Nat) (f : Team → Team) : (s.modTeam n f).ctxs = s.ctxs := rfl
@[simp] theorem State.modTeam_loans (n : Nat) (f : Team → Team) : (s.modTeam n f).loans = s.loans := rfl
@[simp] theorem State.modTeam_spad (n : Nat) (f : Team → Team) : (s.modTeam n f).spad = s.spad := rfl
@[simp] theorem State.modTeam_engines (n : Nat) (f : Team → Team) : (s.modTeam n f).engines = s.engines := rfl
@[simp] theorem State.modTeam_inflight (n : Nat) (f : Team → Team) : (s.modTeam n f).inflight = s.inflight := rfl
@[simp] theorem State.modTeam_cmds (n : Nat) (f : Team → Team) : (s.modTeam n f).cmds = s.cmds := rfl
@[simp] theorem State.modTeam_buckets (n : Nat) (f : Team → Team) : (s.modTeam n f).buckets = s.buckets := rfl
@[simp] theorem State.modTeam_errlog (n : Nat) (f : Team → Team) : (s.modTeam n f).errlog = s.errlog := rfl
@[simp] theorem State.modTeam_dl (n : Nat) (f : Team → Team) : (s.modTeam n f).dl = s.dl := rfl
@[simp] theorem State.modTeam_mem (n : Nat) (f : Team → Team) : (s.modTeam n f).mem = s.mem := rfl
@[simp] theorem State.modTeam_memPsn (n : Nat) (f : Team → Team) : (s.modTeam n f).memPsn = s.memPsn := rfl
@[simp] theorem State.modTeam_host (n : Nat) (f : Team → Team) : (s.modTeam n f).host = s.host := rfl
@[simp] theorem State.modTeam_hostPsn (n : Nat) (f : Team → Team) : (s.modTeam n f).hostPsn = s.hostPsn := rfl
@[simp] theorem State.modTeam_dies (n : Nat) (f : Team → Team) : (s.modTeam n f).dies = s.dies := rfl
@[simp] theorem State.modTeam_links (n : Nat) (f : Team → Team) : (s.modTeam n f).links = s.links := rfl
@[simp] theorem State.modTeam_routes (n : Nat) (f : Team → Team) : (s.modTeam n f).routes = s.routes := rfl
@[simp] theorem State.modTeam_handed (n : Nat) (f : Team → Team) : (s.modTeam n f).handed = s.handed := rfl
@[simp] theorem State.modTeam_portDown (n : Nat) (f : Team → Team) : (s.modTeam n f).portDown = s.portDown := rfl
@[simp] theorem State.modTeam_powerLow (n : Nat) (f : Team → Team) : (s.modTeam n f).powerLow = s.powerLow := rfl
@[simp] theorem State.modTeam_msix (n : Nat) (f : Team → Team) : (s.modTeam n f).msix = s.msix := rfl
@[simp] theorem State.modTeam_copies (n : Nat) (f : Team → Team) : (s.modTeam n f).copies = s.copies := rfl
@[simp] theorem State.modTeam_homes (n : Nat) (f : Team → Team) : (s.modTeam n f).homes = s.homes := rfl
@[simp] theorem State.modTeam_l2Uses (n : Nat) (f : Team → Team) : (s.modTeam n f).l2Uses = s.l2Uses := rfl
@[simp] theorem State.modTeam_tlb (n : Nat) (f : Team → Team) : (s.modTeam n f).tlb = s.tlb := rfl
@[simp] theorem State.modTeam_walkCache (n : Nat) (f : Team → Team) : (s.modTeam n f).walkCache = s.walkCache := rfl
@[simp] theorem State.modTeam_walks (n : Nat) (f : Team → Team) : (s.modTeam n f).walks = s.walks := rfl
@[simp] theorem State.modTeam_faults (n : Nat) (f : Team → Team) : (s.modTeam n f).faults = s.faults := rfl
@[simp] theorem State.modTeam_invals (n : Nat) (f : Team → Team) : (s.modTeam n f).invals = s.invals := rfl
@[simp] theorem State.modTeam_atsHeld (n : Nat) (f : Team → Team) : (s.modTeam n f).atsHeld = s.atsHeld := rfl
@[simp] theorem State.modTeam_pri (n : Nat) (f : Team → Team) : (s.modTeam n f).pri = s.pri := rfl
@[simp] theorem State.modTeam_attr (n : Nat) (f : Team → Team) : (s.modTeam n f).attr = s.attr := rfl
@[simp] theorem State.modTeam_collisions (n : Nat) (f : Team → Team) : (s.modTeam n f).collisions = s.collisions := rfl
@[simp] theorem State.modTeam_drains (n : Nat) (f : Team → Team) : (s.modTeam n f).drains = s.drains := rfl
@[simp] theorem State.modTeam_overflows (n : Nat) (f : Team → Team) : (s.modTeam n f).overflows = s.overflows := rfl
@[simp] theorem State.modTeam_txlanes (n : Nat) (f : Team → Team) : (s.modTeam n f).txlanes = s.txlanes := rfl
@[simp] theorem State.modTeam_counters (n : Nat) (f : Team → Team) : (s.modTeam n f).counters = s.counters := rfl
@[simp] theorem State.modTeam_migreqs (n : Nat) (f : Team → Team) : (s.modTeam n f).migreqs = s.migreqs := rfl
@[simp] theorem State.modTeam_refls (n : Nat) (f : Team → Team) : (s.modTeam n f).refls = s.refls := rfl
@[simp] theorem State.modTeam_ranges (n : Nat) (f : Team → Team) : (s.modTeam n f).ranges = s.ranges := rfl
@[simp] theorem State.modTeam_rpushes (n : Nat) (f : Team → Team) : (s.modTeam n f).rpushes = s.rpushes := rfl
@[simp] theorem State.modTeam_queues (n : Nat) (f : Team → Team) : (s.modTeam n f).queues = s.queues := rfl
@[simp] theorem State.modTeam_hrings (n : Nat) (f : Team → Team) : (s.modTeam n f).hrings = s.hrings := rfl
@[simp] theorem State.modTeam_graphs (n : Nat) (f : Team → Team) : (s.modTeam n f).graphs = s.graphs := rfl
@[simp] theorem State.modTeam_images (n : Nat) (f : Team → Team) : (s.modTeam n f).images = s.images := rfl
@[simp] theorem State.modTeam_mwork (n : Nat) (f : Team → Team) : (s.modTeam n f).mwork = s.mwork := rfl
@[simp] theorem State.modTeam_scales (n : Nat) (f : Team → Team) : (s.modTeam n f).scales = s.scales := rfl
@[simp] theorem State.modTeam_savedScales (n : Nat) (f : Team → Team) : (s.modTeam n f).savedScales = s.savedScales := rfl
@[simp] theorem State.modTeam_lastQueue (n : Nat) (f : Team → Team) : (s.modTeam n f).lastQueue = s.lastQueue := rfl

@[simp] theorem State.modCluster_part (n : Nat) (f : Cluster → Cluster) : (s.modCluster n f).part = s.part := rfl
@[simp] theorem State.modCluster_now (n : Nat) (f : Cluster → Cluster) : (s.modCluster n f).now = s.now := rfl
@[simp] theorem State.modCluster_turn (n : Nat) (f : Cluster → Cluster) : (s.modCluster n f).turn = s.turn := rfl
@[simp] theorem State.modCluster_free (n : Nat) (f : Cluster → Cluster) : (s.modCluster n f).free = s.free := rfl
@[simp] theorem State.modCluster_nextId (n : Nat) (f : Cluster → Cluster) : (s.modCluster n f).nextId = s.nextId := rfl
@[simp] theorem State.modCluster_inputs (n : Nat) (f : Cluster → Cluster) : (s.modCluster n f).inputs = s.inputs := rfl
@[simp] theorem State.modCluster_cur (n : Nat) (f : Cluster → Cluster) : (s.modCluster n f).cur = s.cur := rfl
@[simp] theorem State.modCluster_signal (n : Nat) (f : Cluster → Cluster) : (s.modCluster n f).signal = s.signal := rfl
@[simp] theorem State.modCluster_cores (n : Nat) (f : Cluster → Cluster) : (s.modCluster n f).cores = s.cores := rfl
@[simp] theorem State.modCluster_groups (n : Nat) (f : Cluster → Cluster) : (s.modCluster n f).groups = s.groups := rfl
@[simp] theorem State.modCluster_teams (n : Nat) (f : Cluster → Cluster) : (s.modCluster n f).teams = s.teams := rfl
@[simp] theorem State.modCluster_kernels (n : Nat) (f : Cluster → Cluster) : (s.modCluster n f).kernels = s.kernels := rfl
@[simp] theorem State.modCluster_ctxs (n : Nat) (f : Cluster → Cluster) : (s.modCluster n f).ctxs = s.ctxs := rfl
@[simp] theorem State.modCluster_loans (n : Nat) (f : Cluster → Cluster) : (s.modCluster n f).loans = s.loans := rfl
@[simp] theorem State.modCluster_spad (n : Nat) (f : Cluster → Cluster) : (s.modCluster n f).spad = s.spad := rfl
@[simp] theorem State.modCluster_engines (n : Nat) (f : Cluster → Cluster) : (s.modCluster n f).engines = s.engines := rfl
@[simp] theorem State.modCluster_inflight (n : Nat) (f : Cluster → Cluster) : (s.modCluster n f).inflight = s.inflight := rfl
@[simp] theorem State.modCluster_cmds (n : Nat) (f : Cluster → Cluster) : (s.modCluster n f).cmds = s.cmds := rfl
@[simp] theorem State.modCluster_buckets (n : Nat) (f : Cluster → Cluster) : (s.modCluster n f).buckets = s.buckets := rfl
@[simp] theorem State.modCluster_errlog (n : Nat) (f : Cluster → Cluster) : (s.modCluster n f).errlog = s.errlog := rfl
@[simp] theorem State.modCluster_dl (n : Nat) (f : Cluster → Cluster) : (s.modCluster n f).dl = s.dl := rfl
@[simp] theorem State.modCluster_mem (n : Nat) (f : Cluster → Cluster) : (s.modCluster n f).mem = s.mem := rfl
@[simp] theorem State.modCluster_memPsn (n : Nat) (f : Cluster → Cluster) : (s.modCluster n f).memPsn = s.memPsn := rfl
@[simp] theorem State.modCluster_host (n : Nat) (f : Cluster → Cluster) : (s.modCluster n f).host = s.host := rfl
@[simp] theorem State.modCluster_hostPsn (n : Nat) (f : Cluster → Cluster) : (s.modCluster n f).hostPsn = s.hostPsn := rfl
@[simp] theorem State.modCluster_dies (n : Nat) (f : Cluster → Cluster) : (s.modCluster n f).dies = s.dies := rfl
@[simp] theorem State.modCluster_links (n : Nat) (f : Cluster → Cluster) : (s.modCluster n f).links = s.links := rfl
@[simp] theorem State.modCluster_routes (n : Nat) (f : Cluster → Cluster) : (s.modCluster n f).routes = s.routes := rfl
@[simp] theorem State.modCluster_handed (n : Nat) (f : Cluster → Cluster) : (s.modCluster n f).handed = s.handed := rfl
@[simp] theorem State.modCluster_portDown (n : Nat) (f : Cluster → Cluster) : (s.modCluster n f).portDown = s.portDown := rfl
@[simp] theorem State.modCluster_powerLow (n : Nat) (f : Cluster → Cluster) : (s.modCluster n f).powerLow = s.powerLow := rfl
@[simp] theorem State.modCluster_msix (n : Nat) (f : Cluster → Cluster) : (s.modCluster n f).msix = s.msix := rfl
@[simp] theorem State.modCluster_copies (n : Nat) (f : Cluster → Cluster) : (s.modCluster n f).copies = s.copies := rfl
@[simp] theorem State.modCluster_homes (n : Nat) (f : Cluster → Cluster) : (s.modCluster n f).homes = s.homes := rfl
@[simp] theorem State.modCluster_l2Uses (n : Nat) (f : Cluster → Cluster) : (s.modCluster n f).l2Uses = s.l2Uses := rfl
@[simp] theorem State.modCluster_tlb (n : Nat) (f : Cluster → Cluster) : (s.modCluster n f).tlb = s.tlb := rfl
@[simp] theorem State.modCluster_walkCache (n : Nat) (f : Cluster → Cluster) : (s.modCluster n f).walkCache = s.walkCache := rfl
@[simp] theorem State.modCluster_walks (n : Nat) (f : Cluster → Cluster) : (s.modCluster n f).walks = s.walks := rfl
@[simp] theorem State.modCluster_faults (n : Nat) (f : Cluster → Cluster) : (s.modCluster n f).faults = s.faults := rfl
@[simp] theorem State.modCluster_invals (n : Nat) (f : Cluster → Cluster) : (s.modCluster n f).invals = s.invals := rfl
@[simp] theorem State.modCluster_atsHeld (n : Nat) (f : Cluster → Cluster) : (s.modCluster n f).atsHeld = s.atsHeld := rfl
@[simp] theorem State.modCluster_pri (n : Nat) (f : Cluster → Cluster) : (s.modCluster n f).pri = s.pri := rfl
@[simp] theorem State.modCluster_attr (n : Nat) (f : Cluster → Cluster) : (s.modCluster n f).attr = s.attr := rfl
@[simp] theorem State.modCluster_collisions (n : Nat) (f : Cluster → Cluster) : (s.modCluster n f).collisions = s.collisions := rfl
@[simp] theorem State.modCluster_drains (n : Nat) (f : Cluster → Cluster) : (s.modCluster n f).drains = s.drains := rfl
@[simp] theorem State.modCluster_overflows (n : Nat) (f : Cluster → Cluster) : (s.modCluster n f).overflows = s.overflows := rfl
@[simp] theorem State.modCluster_txlanes (n : Nat) (f : Cluster → Cluster) : (s.modCluster n f).txlanes = s.txlanes := rfl
@[simp] theorem State.modCluster_counters (n : Nat) (f : Cluster → Cluster) : (s.modCluster n f).counters = s.counters := rfl
@[simp] theorem State.modCluster_migreqs (n : Nat) (f : Cluster → Cluster) : (s.modCluster n f).migreqs = s.migreqs := rfl
@[simp] theorem State.modCluster_refls (n : Nat) (f : Cluster → Cluster) : (s.modCluster n f).refls = s.refls := rfl
@[simp] theorem State.modCluster_ranges (n : Nat) (f : Cluster → Cluster) : (s.modCluster n f).ranges = s.ranges := rfl
@[simp] theorem State.modCluster_rpushes (n : Nat) (f : Cluster → Cluster) : (s.modCluster n f).rpushes = s.rpushes := rfl
@[simp] theorem State.modCluster_queues (n : Nat) (f : Cluster → Cluster) : (s.modCluster n f).queues = s.queues := rfl
@[simp] theorem State.modCluster_hrings (n : Nat) (f : Cluster → Cluster) : (s.modCluster n f).hrings = s.hrings := rfl
@[simp] theorem State.modCluster_graphs (n : Nat) (f : Cluster → Cluster) : (s.modCluster n f).graphs = s.graphs := rfl
@[simp] theorem State.modCluster_images (n : Nat) (f : Cluster → Cluster) : (s.modCluster n f).images = s.images := rfl
@[simp] theorem State.modCluster_mwork (n : Nat) (f : Cluster → Cluster) : (s.modCluster n f).mwork = s.mwork := rfl
@[simp] theorem State.modCluster_scales (n : Nat) (f : Cluster → Cluster) : (s.modCluster n f).scales = s.scales := rfl
@[simp] theorem State.modCluster_savedScales (n : Nat) (f : Cluster → Cluster) : (s.modCluster n f).savedScales = s.savedScales := rfl
@[simp] theorem State.modCluster_lastQueue (n : Nat) (f : Cluster → Cluster) : (s.modCluster n f).lastQueue = s.lastQueue := rfl

@[simp] theorem State.modKernel_part (n : Nat) (f : Kernel → Kernel) : (s.modKernel n f).part = s.part := rfl
@[simp] theorem State.modKernel_now (n : Nat) (f : Kernel → Kernel) : (s.modKernel n f).now = s.now := rfl
@[simp] theorem State.modKernel_turn (n : Nat) (f : Kernel → Kernel) : (s.modKernel n f).turn = s.turn := rfl
@[simp] theorem State.modKernel_free (n : Nat) (f : Kernel → Kernel) : (s.modKernel n f).free = s.free := rfl
@[simp] theorem State.modKernel_nextId (n : Nat) (f : Kernel → Kernel) : (s.modKernel n f).nextId = s.nextId := rfl
@[simp] theorem State.modKernel_inputs (n : Nat) (f : Kernel → Kernel) : (s.modKernel n f).inputs = s.inputs := rfl
@[simp] theorem State.modKernel_cur (n : Nat) (f : Kernel → Kernel) : (s.modKernel n f).cur = s.cur := rfl
@[simp] theorem State.modKernel_signal (n : Nat) (f : Kernel → Kernel) : (s.modKernel n f).signal = s.signal := rfl
@[simp] theorem State.modKernel_cores (n : Nat) (f : Kernel → Kernel) : (s.modKernel n f).cores = s.cores := rfl
@[simp] theorem State.modKernel_groups (n : Nat) (f : Kernel → Kernel) : (s.modKernel n f).groups = s.groups := rfl
@[simp] theorem State.modKernel_teams (n : Nat) (f : Kernel → Kernel) : (s.modKernel n f).teams = s.teams := rfl
@[simp] theorem State.modKernel_clusters (n : Nat) (f : Kernel → Kernel) : (s.modKernel n f).clusters = s.clusters := rfl
@[simp] theorem State.modKernel_ctxs (n : Nat) (f : Kernel → Kernel) : (s.modKernel n f).ctxs = s.ctxs := rfl
@[simp] theorem State.modKernel_loans (n : Nat) (f : Kernel → Kernel) : (s.modKernel n f).loans = s.loans := rfl
@[simp] theorem State.modKernel_spad (n : Nat) (f : Kernel → Kernel) : (s.modKernel n f).spad = s.spad := rfl
@[simp] theorem State.modKernel_engines (n : Nat) (f : Kernel → Kernel) : (s.modKernel n f).engines = s.engines := rfl
@[simp] theorem State.modKernel_inflight (n : Nat) (f : Kernel → Kernel) : (s.modKernel n f).inflight = s.inflight := rfl
@[simp] theorem State.modKernel_cmds (n : Nat) (f : Kernel → Kernel) : (s.modKernel n f).cmds = s.cmds := rfl
@[simp] theorem State.modKernel_buckets (n : Nat) (f : Kernel → Kernel) : (s.modKernel n f).buckets = s.buckets := rfl
@[simp] theorem State.modKernel_errlog (n : Nat) (f : Kernel → Kernel) : (s.modKernel n f).errlog = s.errlog := rfl
@[simp] theorem State.modKernel_dl (n : Nat) (f : Kernel → Kernel) : (s.modKernel n f).dl = s.dl := rfl
@[simp] theorem State.modKernel_mem (n : Nat) (f : Kernel → Kernel) : (s.modKernel n f).mem = s.mem := rfl
@[simp] theorem State.modKernel_memPsn (n : Nat) (f : Kernel → Kernel) : (s.modKernel n f).memPsn = s.memPsn := rfl
@[simp] theorem State.modKernel_host (n : Nat) (f : Kernel → Kernel) : (s.modKernel n f).host = s.host := rfl
@[simp] theorem State.modKernel_hostPsn (n : Nat) (f : Kernel → Kernel) : (s.modKernel n f).hostPsn = s.hostPsn := rfl
@[simp] theorem State.modKernel_dies (n : Nat) (f : Kernel → Kernel) : (s.modKernel n f).dies = s.dies := rfl
@[simp] theorem State.modKernel_links (n : Nat) (f : Kernel → Kernel) : (s.modKernel n f).links = s.links := rfl
@[simp] theorem State.modKernel_routes (n : Nat) (f : Kernel → Kernel) : (s.modKernel n f).routes = s.routes := rfl
@[simp] theorem State.modKernel_handed (n : Nat) (f : Kernel → Kernel) : (s.modKernel n f).handed = s.handed := rfl
@[simp] theorem State.modKernel_portDown (n : Nat) (f : Kernel → Kernel) : (s.modKernel n f).portDown = s.portDown := rfl
@[simp] theorem State.modKernel_powerLow (n : Nat) (f : Kernel → Kernel) : (s.modKernel n f).powerLow = s.powerLow := rfl
@[simp] theorem State.modKernel_msix (n : Nat) (f : Kernel → Kernel) : (s.modKernel n f).msix = s.msix := rfl
@[simp] theorem State.modKernel_copies (n : Nat) (f : Kernel → Kernel) : (s.modKernel n f).copies = s.copies := rfl
@[simp] theorem State.modKernel_homes (n : Nat) (f : Kernel → Kernel) : (s.modKernel n f).homes = s.homes := rfl
@[simp] theorem State.modKernel_l2Uses (n : Nat) (f : Kernel → Kernel) : (s.modKernel n f).l2Uses = s.l2Uses := rfl
@[simp] theorem State.modKernel_tlb (n : Nat) (f : Kernel → Kernel) : (s.modKernel n f).tlb = s.tlb := rfl
@[simp] theorem State.modKernel_walkCache (n : Nat) (f : Kernel → Kernel) : (s.modKernel n f).walkCache = s.walkCache := rfl
@[simp] theorem State.modKernel_walks (n : Nat) (f : Kernel → Kernel) : (s.modKernel n f).walks = s.walks := rfl
@[simp] theorem State.modKernel_faults (n : Nat) (f : Kernel → Kernel) : (s.modKernel n f).faults = s.faults := rfl
@[simp] theorem State.modKernel_invals (n : Nat) (f : Kernel → Kernel) : (s.modKernel n f).invals = s.invals := rfl
@[simp] theorem State.modKernel_atsHeld (n : Nat) (f : Kernel → Kernel) : (s.modKernel n f).atsHeld = s.atsHeld := rfl
@[simp] theorem State.modKernel_pri (n : Nat) (f : Kernel → Kernel) : (s.modKernel n f).pri = s.pri := rfl
@[simp] theorem State.modKernel_attr (n : Nat) (f : Kernel → Kernel) : (s.modKernel n f).attr = s.attr := rfl
@[simp] theorem State.modKernel_collisions (n : Nat) (f : Kernel → Kernel) : (s.modKernel n f).collisions = s.collisions := rfl
@[simp] theorem State.modKernel_drains (n : Nat) (f : Kernel → Kernel) : (s.modKernel n f).drains = s.drains := rfl
@[simp] theorem State.modKernel_overflows (n : Nat) (f : Kernel → Kernel) : (s.modKernel n f).overflows = s.overflows := rfl
@[simp] theorem State.modKernel_txlanes (n : Nat) (f : Kernel → Kernel) : (s.modKernel n f).txlanes = s.txlanes := rfl
@[simp] theorem State.modKernel_counters (n : Nat) (f : Kernel → Kernel) : (s.modKernel n f).counters = s.counters := rfl
@[simp] theorem State.modKernel_migreqs (n : Nat) (f : Kernel → Kernel) : (s.modKernel n f).migreqs = s.migreqs := rfl
@[simp] theorem State.modKernel_refls (n : Nat) (f : Kernel → Kernel) : (s.modKernel n f).refls = s.refls := rfl
@[simp] theorem State.modKernel_ranges (n : Nat) (f : Kernel → Kernel) : (s.modKernel n f).ranges = s.ranges := rfl
@[simp] theorem State.modKernel_rpushes (n : Nat) (f : Kernel → Kernel) : (s.modKernel n f).rpushes = s.rpushes := rfl
@[simp] theorem State.modKernel_queues (n : Nat) (f : Kernel → Kernel) : (s.modKernel n f).queues = s.queues := rfl
@[simp] theorem State.modKernel_hrings (n : Nat) (f : Kernel → Kernel) : (s.modKernel n f).hrings = s.hrings := rfl
@[simp] theorem State.modKernel_graphs (n : Nat) (f : Kernel → Kernel) : (s.modKernel n f).graphs = s.graphs := rfl
@[simp] theorem State.modKernel_images (n : Nat) (f : Kernel → Kernel) : (s.modKernel n f).images = s.images := rfl
@[simp] theorem State.modKernel_mwork (n : Nat) (f : Kernel → Kernel) : (s.modKernel n f).mwork = s.mwork := rfl
@[simp] theorem State.modKernel_scales (n : Nat) (f : Kernel → Kernel) : (s.modKernel n f).scales = s.scales := rfl
@[simp] theorem State.modKernel_savedScales (n : Nat) (f : Kernel → Kernel) : (s.modKernel n f).savedScales = s.savedScales := rfl
@[simp] theorem State.modKernel_lastQueue (n : Nat) (f : Kernel → Kernel) : (s.modKernel n f).lastQueue = s.lastQueue := rfl

@[simp] theorem State.modCtx_part (n : Nat) (f : Ctx → Ctx) : (s.modCtx n f).part = s.part := rfl
@[simp] theorem State.modCtx_now (n : Nat) (f : Ctx → Ctx) : (s.modCtx n f).now = s.now := rfl
@[simp] theorem State.modCtx_turn (n : Nat) (f : Ctx → Ctx) : (s.modCtx n f).turn = s.turn := rfl
@[simp] theorem State.modCtx_free (n : Nat) (f : Ctx → Ctx) : (s.modCtx n f).free = s.free := rfl
@[simp] theorem State.modCtx_nextId (n : Nat) (f : Ctx → Ctx) : (s.modCtx n f).nextId = s.nextId := rfl
@[simp] theorem State.modCtx_inputs (n : Nat) (f : Ctx → Ctx) : (s.modCtx n f).inputs = s.inputs := rfl
@[simp] theorem State.modCtx_cur (n : Nat) (f : Ctx → Ctx) : (s.modCtx n f).cur = s.cur := rfl
@[simp] theorem State.modCtx_signal (n : Nat) (f : Ctx → Ctx) : (s.modCtx n f).signal = s.signal := rfl
@[simp] theorem State.modCtx_cores (n : Nat) (f : Ctx → Ctx) : (s.modCtx n f).cores = s.cores := rfl
@[simp] theorem State.modCtx_groups (n : Nat) (f : Ctx → Ctx) : (s.modCtx n f).groups = s.groups := rfl
@[simp] theorem State.modCtx_teams (n : Nat) (f : Ctx → Ctx) : (s.modCtx n f).teams = s.teams := rfl
@[simp] theorem State.modCtx_clusters (n : Nat) (f : Ctx → Ctx) : (s.modCtx n f).clusters = s.clusters := rfl
@[simp] theorem State.modCtx_kernels (n : Nat) (f : Ctx → Ctx) : (s.modCtx n f).kernels = s.kernels := rfl
@[simp] theorem State.modCtx_loans (n : Nat) (f : Ctx → Ctx) : (s.modCtx n f).loans = s.loans := rfl
@[simp] theorem State.modCtx_spad (n : Nat) (f : Ctx → Ctx) : (s.modCtx n f).spad = s.spad := rfl
@[simp] theorem State.modCtx_engines (n : Nat) (f : Ctx → Ctx) : (s.modCtx n f).engines = s.engines := rfl
@[simp] theorem State.modCtx_inflight (n : Nat) (f : Ctx → Ctx) : (s.modCtx n f).inflight = s.inflight := rfl
@[simp] theorem State.modCtx_cmds (n : Nat) (f : Ctx → Ctx) : (s.modCtx n f).cmds = s.cmds := rfl
@[simp] theorem State.modCtx_buckets (n : Nat) (f : Ctx → Ctx) : (s.modCtx n f).buckets = s.buckets := rfl
@[simp] theorem State.modCtx_errlog (n : Nat) (f : Ctx → Ctx) : (s.modCtx n f).errlog = s.errlog := rfl
@[simp] theorem State.modCtx_dl (n : Nat) (f : Ctx → Ctx) : (s.modCtx n f).dl = s.dl := rfl
@[simp] theorem State.modCtx_mem (n : Nat) (f : Ctx → Ctx) : (s.modCtx n f).mem = s.mem := rfl
@[simp] theorem State.modCtx_memPsn (n : Nat) (f : Ctx → Ctx) : (s.modCtx n f).memPsn = s.memPsn := rfl
@[simp] theorem State.modCtx_host (n : Nat) (f : Ctx → Ctx) : (s.modCtx n f).host = s.host := rfl
@[simp] theorem State.modCtx_hostPsn (n : Nat) (f : Ctx → Ctx) : (s.modCtx n f).hostPsn = s.hostPsn := rfl
@[simp] theorem State.modCtx_dies (n : Nat) (f : Ctx → Ctx) : (s.modCtx n f).dies = s.dies := rfl
@[simp] theorem State.modCtx_links (n : Nat) (f : Ctx → Ctx) : (s.modCtx n f).links = s.links := rfl
@[simp] theorem State.modCtx_routes (n : Nat) (f : Ctx → Ctx) : (s.modCtx n f).routes = s.routes := rfl
@[simp] theorem State.modCtx_handed (n : Nat) (f : Ctx → Ctx) : (s.modCtx n f).handed = s.handed := rfl
@[simp] theorem State.modCtx_portDown (n : Nat) (f : Ctx → Ctx) : (s.modCtx n f).portDown = s.portDown := rfl
@[simp] theorem State.modCtx_powerLow (n : Nat) (f : Ctx → Ctx) : (s.modCtx n f).powerLow = s.powerLow := rfl
@[simp] theorem State.modCtx_msix (n : Nat) (f : Ctx → Ctx) : (s.modCtx n f).msix = s.msix := rfl
@[simp] theorem State.modCtx_copies (n : Nat) (f : Ctx → Ctx) : (s.modCtx n f).copies = s.copies := rfl
@[simp] theorem State.modCtx_homes (n : Nat) (f : Ctx → Ctx) : (s.modCtx n f).homes = s.homes := rfl
@[simp] theorem State.modCtx_l2Uses (n : Nat) (f : Ctx → Ctx) : (s.modCtx n f).l2Uses = s.l2Uses := rfl
@[simp] theorem State.modCtx_tlb (n : Nat) (f : Ctx → Ctx) : (s.modCtx n f).tlb = s.tlb := rfl
@[simp] theorem State.modCtx_walkCache (n : Nat) (f : Ctx → Ctx) : (s.modCtx n f).walkCache = s.walkCache := rfl
@[simp] theorem State.modCtx_walks (n : Nat) (f : Ctx → Ctx) : (s.modCtx n f).walks = s.walks := rfl
@[simp] theorem State.modCtx_faults (n : Nat) (f : Ctx → Ctx) : (s.modCtx n f).faults = s.faults := rfl
@[simp] theorem State.modCtx_invals (n : Nat) (f : Ctx → Ctx) : (s.modCtx n f).invals = s.invals := rfl
@[simp] theorem State.modCtx_atsHeld (n : Nat) (f : Ctx → Ctx) : (s.modCtx n f).atsHeld = s.atsHeld := rfl
@[simp] theorem State.modCtx_pri (n : Nat) (f : Ctx → Ctx) : (s.modCtx n f).pri = s.pri := rfl
@[simp] theorem State.modCtx_attr (n : Nat) (f : Ctx → Ctx) : (s.modCtx n f).attr = s.attr := rfl
@[simp] theorem State.modCtx_collisions (n : Nat) (f : Ctx → Ctx) : (s.modCtx n f).collisions = s.collisions := rfl
@[simp] theorem State.modCtx_drains (n : Nat) (f : Ctx → Ctx) : (s.modCtx n f).drains = s.drains := rfl
@[simp] theorem State.modCtx_overflows (n : Nat) (f : Ctx → Ctx) : (s.modCtx n f).overflows = s.overflows := rfl
@[simp] theorem State.modCtx_txlanes (n : Nat) (f : Ctx → Ctx) : (s.modCtx n f).txlanes = s.txlanes := rfl
@[simp] theorem State.modCtx_counters (n : Nat) (f : Ctx → Ctx) : (s.modCtx n f).counters = s.counters := rfl
@[simp] theorem State.modCtx_migreqs (n : Nat) (f : Ctx → Ctx) : (s.modCtx n f).migreqs = s.migreqs := rfl
@[simp] theorem State.modCtx_refls (n : Nat) (f : Ctx → Ctx) : (s.modCtx n f).refls = s.refls := rfl
@[simp] theorem State.modCtx_ranges (n : Nat) (f : Ctx → Ctx) : (s.modCtx n f).ranges = s.ranges := rfl
@[simp] theorem State.modCtx_rpushes (n : Nat) (f : Ctx → Ctx) : (s.modCtx n f).rpushes = s.rpushes := rfl
@[simp] theorem State.modCtx_queues (n : Nat) (f : Ctx → Ctx) : (s.modCtx n f).queues = s.queues := rfl
@[simp] theorem State.modCtx_hrings (n : Nat) (f : Ctx → Ctx) : (s.modCtx n f).hrings = s.hrings := rfl
@[simp] theorem State.modCtx_graphs (n : Nat) (f : Ctx → Ctx) : (s.modCtx n f).graphs = s.graphs := rfl
@[simp] theorem State.modCtx_images (n : Nat) (f : Ctx → Ctx) : (s.modCtx n f).images = s.images := rfl
@[simp] theorem State.modCtx_mwork (n : Nat) (f : Ctx → Ctx) : (s.modCtx n f).mwork = s.mwork := rfl
@[simp] theorem State.modCtx_scales (n : Nat) (f : Ctx → Ctx) : (s.modCtx n f).scales = s.scales := rfl
@[simp] theorem State.modCtx_savedScales (n : Nat) (f : Ctx → Ctx) : (s.modCtx n f).savedScales = s.savedScales := rfl
@[simp] theorem State.modCtx_lastQueue (n : Nat) (f : Ctx → Ctx) : (s.modCtx n f).lastQueue = s.lastQueue := rfl

@[simp] theorem State.setEngine_part (n : Nat) (x : Engine) : (s.setEngine n x).part = s.part := rfl
@[simp] theorem State.setEngine_now (n : Nat) (x : Engine) : (s.setEngine n x).now = s.now := rfl
@[simp] theorem State.setEngine_turn (n : Nat) (x : Engine) : (s.setEngine n x).turn = s.turn := rfl
@[simp] theorem State.setEngine_free (n : Nat) (x : Engine) : (s.setEngine n x).free = s.free := rfl
@[simp] theorem State.setEngine_nextId (n : Nat) (x : Engine) : (s.setEngine n x).nextId = s.nextId := rfl
@[simp] theorem State.setEngine_inputs (n : Nat) (x : Engine) : (s.setEngine n x).inputs = s.inputs := rfl
@[simp] theorem State.setEngine_cur (n : Nat) (x : Engine) : (s.setEngine n x).cur = s.cur := rfl
@[simp] theorem State.setEngine_signal (n : Nat) (x : Engine) : (s.setEngine n x).signal = s.signal := rfl
@[simp] theorem State.setEngine_cores (n : Nat) (x : Engine) : (s.setEngine n x).cores = s.cores := rfl
@[simp] theorem State.setEngine_groups (n : Nat) (x : Engine) : (s.setEngine n x).groups = s.groups := rfl
@[simp] theorem State.setEngine_teams (n : Nat) (x : Engine) : (s.setEngine n x).teams = s.teams := rfl
@[simp] theorem State.setEngine_clusters (n : Nat) (x : Engine) : (s.setEngine n x).clusters = s.clusters := rfl
@[simp] theorem State.setEngine_kernels (n : Nat) (x : Engine) : (s.setEngine n x).kernels = s.kernels := rfl
@[simp] theorem State.setEngine_ctxs (n : Nat) (x : Engine) : (s.setEngine n x).ctxs = s.ctxs := rfl
@[simp] theorem State.setEngine_loans (n : Nat) (x : Engine) : (s.setEngine n x).loans = s.loans := rfl
@[simp] theorem State.setEngine_spad (n : Nat) (x : Engine) : (s.setEngine n x).spad = s.spad := rfl
@[simp] theorem State.setEngine_inflight (n : Nat) (x : Engine) : (s.setEngine n x).inflight = s.inflight := rfl
@[simp] theorem State.setEngine_cmds (n : Nat) (x : Engine) : (s.setEngine n x).cmds = s.cmds := rfl
@[simp] theorem State.setEngine_buckets (n : Nat) (x : Engine) : (s.setEngine n x).buckets = s.buckets := rfl
@[simp] theorem State.setEngine_errlog (n : Nat) (x : Engine) : (s.setEngine n x).errlog = s.errlog := rfl
@[simp] theorem State.setEngine_dl (n : Nat) (x : Engine) : (s.setEngine n x).dl = s.dl := rfl
@[simp] theorem State.setEngine_mem (n : Nat) (x : Engine) : (s.setEngine n x).mem = s.mem := rfl
@[simp] theorem State.setEngine_memPsn (n : Nat) (x : Engine) : (s.setEngine n x).memPsn = s.memPsn := rfl
@[simp] theorem State.setEngine_host (n : Nat) (x : Engine) : (s.setEngine n x).host = s.host := rfl
@[simp] theorem State.setEngine_hostPsn (n : Nat) (x : Engine) : (s.setEngine n x).hostPsn = s.hostPsn := rfl
@[simp] theorem State.setEngine_dies (n : Nat) (x : Engine) : (s.setEngine n x).dies = s.dies := rfl
@[simp] theorem State.setEngine_links (n : Nat) (x : Engine) : (s.setEngine n x).links = s.links := rfl
@[simp] theorem State.setEngine_routes (n : Nat) (x : Engine) : (s.setEngine n x).routes = s.routes := rfl
@[simp] theorem State.setEngine_handed (n : Nat) (x : Engine) : (s.setEngine n x).handed = s.handed := rfl
@[simp] theorem State.setEngine_portDown (n : Nat) (x : Engine) : (s.setEngine n x).portDown = s.portDown := rfl
@[simp] theorem State.setEngine_powerLow (n : Nat) (x : Engine) : (s.setEngine n x).powerLow = s.powerLow := rfl
@[simp] theorem State.setEngine_msix (n : Nat) (x : Engine) : (s.setEngine n x).msix = s.msix := rfl
@[simp] theorem State.setEngine_copies (n : Nat) (x : Engine) : (s.setEngine n x).copies = s.copies := rfl
@[simp] theorem State.setEngine_homes (n : Nat) (x : Engine) : (s.setEngine n x).homes = s.homes := rfl
@[simp] theorem State.setEngine_l2Uses (n : Nat) (x : Engine) : (s.setEngine n x).l2Uses = s.l2Uses := rfl
@[simp] theorem State.setEngine_tlb (n : Nat) (x : Engine) : (s.setEngine n x).tlb = s.tlb := rfl
@[simp] theorem State.setEngine_walkCache (n : Nat) (x : Engine) : (s.setEngine n x).walkCache = s.walkCache := rfl
@[simp] theorem State.setEngine_walks (n : Nat) (x : Engine) : (s.setEngine n x).walks = s.walks := rfl
@[simp] theorem State.setEngine_faults (n : Nat) (x : Engine) : (s.setEngine n x).faults = s.faults := rfl
@[simp] theorem State.setEngine_invals (n : Nat) (x : Engine) : (s.setEngine n x).invals = s.invals := rfl
@[simp] theorem State.setEngine_atsHeld (n : Nat) (x : Engine) : (s.setEngine n x).atsHeld = s.atsHeld := rfl
@[simp] theorem State.setEngine_pri (n : Nat) (x : Engine) : (s.setEngine n x).pri = s.pri := rfl
@[simp] theorem State.setEngine_attr (n : Nat) (x : Engine) : (s.setEngine n x).attr = s.attr := rfl
@[simp] theorem State.setEngine_collisions (n : Nat) (x : Engine) : (s.setEngine n x).collisions = s.collisions := rfl
@[simp] theorem State.setEngine_drains (n : Nat) (x : Engine) : (s.setEngine n x).drains = s.drains := rfl
@[simp] theorem State.setEngine_overflows (n : Nat) (x : Engine) : (s.setEngine n x).overflows = s.overflows := rfl
@[simp] theorem State.setEngine_txlanes (n : Nat) (x : Engine) : (s.setEngine n x).txlanes = s.txlanes := rfl
@[simp] theorem State.setEngine_counters (n : Nat) (x : Engine) : (s.setEngine n x).counters = s.counters := rfl
@[simp] theorem State.setEngine_migreqs (n : Nat) (x : Engine) : (s.setEngine n x).migreqs = s.migreqs := rfl
@[simp] theorem State.setEngine_refls (n : Nat) (x : Engine) : (s.setEngine n x).refls = s.refls := rfl
@[simp] theorem State.setEngine_ranges (n : Nat) (x : Engine) : (s.setEngine n x).ranges = s.ranges := rfl
@[simp] theorem State.setEngine_rpushes (n : Nat) (x : Engine) : (s.setEngine n x).rpushes = s.rpushes := rfl
@[simp] theorem State.setEngine_queues (n : Nat) (x : Engine) : (s.setEngine n x).queues = s.queues := rfl
@[simp] theorem State.setEngine_hrings (n : Nat) (x : Engine) : (s.setEngine n x).hrings = s.hrings := rfl
@[simp] theorem State.setEngine_graphs (n : Nat) (x : Engine) : (s.setEngine n x).graphs = s.graphs := rfl
@[simp] theorem State.setEngine_images (n : Nat) (x : Engine) : (s.setEngine n x).images = s.images := rfl
@[simp] theorem State.setEngine_mwork (n : Nat) (x : Engine) : (s.setEngine n x).mwork = s.mwork := rfl
@[simp] theorem State.setEngine_scales (n : Nat) (x : Engine) : (s.setEngine n x).scales = s.scales := rfl
@[simp] theorem State.setEngine_savedScales (n : Nat) (x : Engine) : (s.setEngine n x).savedScales = s.savedScales := rfl
@[simp] theorem State.setEngine_lastQueue (n : Nat) (x : Engine) : (s.setEngine n x).lastQueue = s.lastQueue := rfl

@[simp] theorem State.setLoan_part (p c : Nat) (x : Loan) : (s.setLoan p c x).part = s.part := rfl
@[simp] theorem State.setLoan_now (p c : Nat) (x : Loan) : (s.setLoan p c x).now = s.now := rfl
@[simp] theorem State.setLoan_turn (p c : Nat) (x : Loan) : (s.setLoan p c x).turn = s.turn := rfl
@[simp] theorem State.setLoan_free (p c : Nat) (x : Loan) : (s.setLoan p c x).free = s.free := rfl
@[simp] theorem State.setLoan_nextId (p c : Nat) (x : Loan) : (s.setLoan p c x).nextId = s.nextId := rfl
@[simp] theorem State.setLoan_inputs (p c : Nat) (x : Loan) : (s.setLoan p c x).inputs = s.inputs := rfl
@[simp] theorem State.setLoan_cur (p c : Nat) (x : Loan) : (s.setLoan p c x).cur = s.cur := rfl
@[simp] theorem State.setLoan_signal (p c : Nat) (x : Loan) : (s.setLoan p c x).signal = s.signal := rfl
@[simp] theorem State.setLoan_cores (p c : Nat) (x : Loan) : (s.setLoan p c x).cores = s.cores := rfl
@[simp] theorem State.setLoan_groups (p c : Nat) (x : Loan) : (s.setLoan p c x).groups = s.groups := rfl
@[simp] theorem State.setLoan_teams (p c : Nat) (x : Loan) : (s.setLoan p c x).teams = s.teams := rfl
@[simp] theorem State.setLoan_clusters (p c : Nat) (x : Loan) : (s.setLoan p c x).clusters = s.clusters := rfl
@[simp] theorem State.setLoan_kernels (p c : Nat) (x : Loan) : (s.setLoan p c x).kernels = s.kernels := rfl
@[simp] theorem State.setLoan_ctxs (p c : Nat) (x : Loan) : (s.setLoan p c x).ctxs = s.ctxs := rfl
@[simp] theorem State.setLoan_spad (p c : Nat) (x : Loan) : (s.setLoan p c x).spad = s.spad := rfl
@[simp] theorem State.setLoan_engines (p c : Nat) (x : Loan) : (s.setLoan p c x).engines = s.engines := rfl
@[simp] theorem State.setLoan_inflight (p c : Nat) (x : Loan) : (s.setLoan p c x).inflight = s.inflight := rfl
@[simp] theorem State.setLoan_cmds (p c : Nat) (x : Loan) : (s.setLoan p c x).cmds = s.cmds := rfl
@[simp] theorem State.setLoan_buckets (p c : Nat) (x : Loan) : (s.setLoan p c x).buckets = s.buckets := rfl
@[simp] theorem State.setLoan_errlog (p c : Nat) (x : Loan) : (s.setLoan p c x).errlog = s.errlog := rfl
@[simp] theorem State.setLoan_dl (p c : Nat) (x : Loan) : (s.setLoan p c x).dl = s.dl := rfl
@[simp] theorem State.setLoan_mem (p c : Nat) (x : Loan) : (s.setLoan p c x).mem = s.mem := rfl
@[simp] theorem State.setLoan_memPsn (p c : Nat) (x : Loan) : (s.setLoan p c x).memPsn = s.memPsn := rfl
@[simp] theorem State.setLoan_host (p c : Nat) (x : Loan) : (s.setLoan p c x).host = s.host := rfl
@[simp] theorem State.setLoan_hostPsn (p c : Nat) (x : Loan) : (s.setLoan p c x).hostPsn = s.hostPsn := rfl
@[simp] theorem State.setLoan_dies (p c : Nat) (x : Loan) : (s.setLoan p c x).dies = s.dies := rfl
@[simp] theorem State.setLoan_links (p c : Nat) (x : Loan) : (s.setLoan p c x).links = s.links := rfl
@[simp] theorem State.setLoan_routes (p c : Nat) (x : Loan) : (s.setLoan p c x).routes = s.routes := rfl
@[simp] theorem State.setLoan_handed (p c : Nat) (x : Loan) : (s.setLoan p c x).handed = s.handed := rfl
@[simp] theorem State.setLoan_portDown (p c : Nat) (x : Loan) : (s.setLoan p c x).portDown = s.portDown := rfl
@[simp] theorem State.setLoan_powerLow (p c : Nat) (x : Loan) : (s.setLoan p c x).powerLow = s.powerLow := rfl
@[simp] theorem State.setLoan_msix (p c : Nat) (x : Loan) : (s.setLoan p c x).msix = s.msix := rfl
@[simp] theorem State.setLoan_copies (p c : Nat) (x : Loan) : (s.setLoan p c x).copies = s.copies := rfl
@[simp] theorem State.setLoan_homes (p c : Nat) (x : Loan) : (s.setLoan p c x).homes = s.homes := rfl
@[simp] theorem State.setLoan_l2Uses (p c : Nat) (x : Loan) : (s.setLoan p c x).l2Uses = s.l2Uses := rfl
@[simp] theorem State.setLoan_tlb (p c : Nat) (x : Loan) : (s.setLoan p c x).tlb = s.tlb := rfl
@[simp] theorem State.setLoan_walkCache (p c : Nat) (x : Loan) : (s.setLoan p c x).walkCache = s.walkCache := rfl
@[simp] theorem State.setLoan_walks (p c : Nat) (x : Loan) : (s.setLoan p c x).walks = s.walks := rfl
@[simp] theorem State.setLoan_faults (p c : Nat) (x : Loan) : (s.setLoan p c x).faults = s.faults := rfl
@[simp] theorem State.setLoan_invals (p c : Nat) (x : Loan) : (s.setLoan p c x).invals = s.invals := rfl
@[simp] theorem State.setLoan_atsHeld (p c : Nat) (x : Loan) : (s.setLoan p c x).atsHeld = s.atsHeld := rfl
@[simp] theorem State.setLoan_pri (p c : Nat) (x : Loan) : (s.setLoan p c x).pri = s.pri := rfl
@[simp] theorem State.setLoan_attr (p c : Nat) (x : Loan) : (s.setLoan p c x).attr = s.attr := rfl
@[simp] theorem State.setLoan_collisions (p c : Nat) (x : Loan) : (s.setLoan p c x).collisions = s.collisions := rfl
@[simp] theorem State.setLoan_drains (p c : Nat) (x : Loan) : (s.setLoan p c x).drains = s.drains := rfl
@[simp] theorem State.setLoan_overflows (p c : Nat) (x : Loan) : (s.setLoan p c x).overflows = s.overflows := rfl
@[simp] theorem State.setLoan_txlanes (p c : Nat) (x : Loan) : (s.setLoan p c x).txlanes = s.txlanes := rfl
@[simp] theorem State.setLoan_counters (p c : Nat) (x : Loan) : (s.setLoan p c x).counters = s.counters := rfl
@[simp] theorem State.setLoan_migreqs (p c : Nat) (x : Loan) : (s.setLoan p c x).migreqs = s.migreqs := rfl
@[simp] theorem State.setLoan_refls (p c : Nat) (x : Loan) : (s.setLoan p c x).refls = s.refls := rfl
@[simp] theorem State.setLoan_ranges (p c : Nat) (x : Loan) : (s.setLoan p c x).ranges = s.ranges := rfl
@[simp] theorem State.setLoan_rpushes (p c : Nat) (x : Loan) : (s.setLoan p c x).rpushes = s.rpushes := rfl
@[simp] theorem State.setLoan_queues (p c : Nat) (x : Loan) : (s.setLoan p c x).queues = s.queues := rfl
@[simp] theorem State.setLoan_hrings (p c : Nat) (x : Loan) : (s.setLoan p c x).hrings = s.hrings := rfl
@[simp] theorem State.setLoan_graphs (p c : Nat) (x : Loan) : (s.setLoan p c x).graphs = s.graphs := rfl
@[simp] theorem State.setLoan_images (p c : Nat) (x : Loan) : (s.setLoan p c x).images = s.images := rfl
@[simp] theorem State.setLoan_mwork (p c : Nat) (x : Loan) : (s.setLoan p c x).mwork = s.mwork := rfl
@[simp] theorem State.setLoan_scales (p c : Nat) (x : Loan) : (s.setLoan p c x).scales = s.scales := rfl
@[simp] theorem State.setLoan_savedScales (p c : Nat) (x : Loan) : (s.setLoan p c x).savedScales = s.savedScales := rfl
@[simp] theorem State.setLoan_lastQueue (p c : Nat) (x : Loan) : (s.setLoan p c x).lastQueue = s.lastQueue := rfl

@[simp] theorem State.setSlotByte_part (k n : Nat) (b : Byte) : (s.setSlotByte k n b).part = s.part := rfl
@[simp] theorem State.setSlotByte_now (k n : Nat) (b : Byte) : (s.setSlotByte k n b).now = s.now := rfl
@[simp] theorem State.setSlotByte_turn (k n : Nat) (b : Byte) : (s.setSlotByte k n b).turn = s.turn := rfl
@[simp] theorem State.setSlotByte_free (k n : Nat) (b : Byte) : (s.setSlotByte k n b).free = s.free := rfl
@[simp] theorem State.setSlotByte_nextId (k n : Nat) (b : Byte) : (s.setSlotByte k n b).nextId = s.nextId := rfl
@[simp] theorem State.setSlotByte_inputs (k n : Nat) (b : Byte) : (s.setSlotByte k n b).inputs = s.inputs := rfl
@[simp] theorem State.setSlotByte_cur (k n : Nat) (b : Byte) : (s.setSlotByte k n b).cur = s.cur := rfl
@[simp] theorem State.setSlotByte_signal (k n : Nat) (b : Byte) : (s.setSlotByte k n b).signal = s.signal := rfl
@[simp] theorem State.setSlotByte_cores (k n : Nat) (b : Byte) : (s.setSlotByte k n b).cores = s.cores := rfl
@[simp] theorem State.setSlotByte_groups (k n : Nat) (b : Byte) : (s.setSlotByte k n b).groups = s.groups := rfl
@[simp] theorem State.setSlotByte_teams (k n : Nat) (b : Byte) : (s.setSlotByte k n b).teams = s.teams := rfl
@[simp] theorem State.setSlotByte_clusters (k n : Nat) (b : Byte) : (s.setSlotByte k n b).clusters = s.clusters := rfl
@[simp] theorem State.setSlotByte_kernels (k n : Nat) (b : Byte) : (s.setSlotByte k n b).kernels = s.kernels := rfl
@[simp] theorem State.setSlotByte_ctxs (k n : Nat) (b : Byte) : (s.setSlotByte k n b).ctxs = s.ctxs := rfl
@[simp] theorem State.setSlotByte_loans (k n : Nat) (b : Byte) : (s.setSlotByte k n b).loans = s.loans := rfl
@[simp] theorem State.setSlotByte_spad (k n : Nat) (b : Byte) : (s.setSlotByte k n b).spad = s.spad := rfl
@[simp] theorem State.setSlotByte_engines (k n : Nat) (b : Byte) : (s.setSlotByte k n b).engines = s.engines := rfl
@[simp] theorem State.setSlotByte_inflight (k n : Nat) (b : Byte) : (s.setSlotByte k n b).inflight = s.inflight := rfl
@[simp] theorem State.setSlotByte_cmds (k n : Nat) (b : Byte) : (s.setSlotByte k n b).cmds = s.cmds := rfl
@[simp] theorem State.setSlotByte_buckets (k n : Nat) (b : Byte) : (s.setSlotByte k n b).buckets = s.buckets := rfl
@[simp] theorem State.setSlotByte_errlog (k n : Nat) (b : Byte) : (s.setSlotByte k n b).errlog = s.errlog := rfl
@[simp] theorem State.setSlotByte_dl (k n : Nat) (b : Byte) : (s.setSlotByte k n b).dl = s.dl := rfl
@[simp] theorem State.setSlotByte_memPsn (k n : Nat) (b : Byte) : (s.setSlotByte k n b).memPsn = s.memPsn := rfl
@[simp] theorem State.setSlotByte_host (k n : Nat) (b : Byte) : (s.setSlotByte k n b).host = s.host := rfl
@[simp] theorem State.setSlotByte_hostPsn (k n : Nat) (b : Byte) : (s.setSlotByte k n b).hostPsn = s.hostPsn := rfl
@[simp] theorem State.setSlotByte_dies (k n : Nat) (b : Byte) : (s.setSlotByte k n b).dies = s.dies := rfl
@[simp] theorem State.setSlotByte_links (k n : Nat) (b : Byte) : (s.setSlotByte k n b).links = s.links := rfl
@[simp] theorem State.setSlotByte_routes (k n : Nat) (b : Byte) : (s.setSlotByte k n b).routes = s.routes := rfl
@[simp] theorem State.setSlotByte_handed (k n : Nat) (b : Byte) : (s.setSlotByte k n b).handed = s.handed := rfl
@[simp] theorem State.setSlotByte_portDown (k n : Nat) (b : Byte) : (s.setSlotByte k n b).portDown = s.portDown := rfl
@[simp] theorem State.setSlotByte_powerLow (k n : Nat) (b : Byte) : (s.setSlotByte k n b).powerLow = s.powerLow := rfl
@[simp] theorem State.setSlotByte_msix (k n : Nat) (b : Byte) : (s.setSlotByte k n b).msix = s.msix := rfl
@[simp] theorem State.setSlotByte_copies (k n : Nat) (b : Byte) : (s.setSlotByte k n b).copies = s.copies := rfl
@[simp] theorem State.setSlotByte_homes (k n : Nat) (b : Byte) : (s.setSlotByte k n b).homes = s.homes := rfl
@[simp] theorem State.setSlotByte_l2Uses (k n : Nat) (b : Byte) : (s.setSlotByte k n b).l2Uses = s.l2Uses := rfl
@[simp] theorem State.setSlotByte_tlb (k n : Nat) (b : Byte) : (s.setSlotByte k n b).tlb = s.tlb := rfl
@[simp] theorem State.setSlotByte_walkCache (k n : Nat) (b : Byte) : (s.setSlotByte k n b).walkCache = s.walkCache := rfl
@[simp] theorem State.setSlotByte_walks (k n : Nat) (b : Byte) : (s.setSlotByte k n b).walks = s.walks := rfl
@[simp] theorem State.setSlotByte_faults (k n : Nat) (b : Byte) : (s.setSlotByte k n b).faults = s.faults := rfl
@[simp] theorem State.setSlotByte_invals (k n : Nat) (b : Byte) : (s.setSlotByte k n b).invals = s.invals := rfl
@[simp] theorem State.setSlotByte_atsHeld (k n : Nat) (b : Byte) : (s.setSlotByte k n b).atsHeld = s.atsHeld := rfl
@[simp] theorem State.setSlotByte_pri (k n : Nat) (b : Byte) : (s.setSlotByte k n b).pri = s.pri := rfl
@[simp] theorem State.setSlotByte_attr (k n : Nat) (b : Byte) : (s.setSlotByte k n b).attr = s.attr := rfl
@[simp] theorem State.setSlotByte_collisions (k n : Nat) (b : Byte) : (s.setSlotByte k n b).collisions = s.collisions := rfl
@[simp] theorem State.setSlotByte_drains (k n : Nat) (b : Byte) : (s.setSlotByte k n b).drains = s.drains := rfl
@[simp] theorem State.setSlotByte_overflows (k n : Nat) (b : Byte) : (s.setSlotByte k n b).overflows = s.overflows := rfl
@[simp] theorem State.setSlotByte_txlanes (k n : Nat) (b : Byte) : (s.setSlotByte k n b).txlanes = s.txlanes := rfl
@[simp] theorem State.setSlotByte_counters (k n : Nat) (b : Byte) : (s.setSlotByte k n b).counters = s.counters := rfl
@[simp] theorem State.setSlotByte_migreqs (k n : Nat) (b : Byte) : (s.setSlotByte k n b).migreqs = s.migreqs := rfl
@[simp] theorem State.setSlotByte_refls (k n : Nat) (b : Byte) : (s.setSlotByte k n b).refls = s.refls := rfl
@[simp] theorem State.setSlotByte_ranges (k n : Nat) (b : Byte) : (s.setSlotByte k n b).ranges = s.ranges := rfl
@[simp] theorem State.setSlotByte_rpushes (k n : Nat) (b : Byte) : (s.setSlotByte k n b).rpushes = s.rpushes := rfl
@[simp] theorem State.setSlotByte_queues (k n : Nat) (b : Byte) : (s.setSlotByte k n b).queues = s.queues := rfl
@[simp] theorem State.setSlotByte_hrings (k n : Nat) (b : Byte) : (s.setSlotByte k n b).hrings = s.hrings := rfl
@[simp] theorem State.setSlotByte_graphs (k n : Nat) (b : Byte) : (s.setSlotByte k n b).graphs = s.graphs := rfl
@[simp] theorem State.setSlotByte_images (k n : Nat) (b : Byte) : (s.setSlotByte k n b).images = s.images := rfl
@[simp] theorem State.setSlotByte_mwork (k n : Nat) (b : Byte) : (s.setSlotByte k n b).mwork = s.mwork := rfl
@[simp] theorem State.setSlotByte_scales (k n : Nat) (b : Byte) : (s.setSlotByte k n b).scales = s.scales := rfl
@[simp] theorem State.setSlotByte_savedScales (k n : Nat) (b : Byte) : (s.setSlotByte k n b).savedScales = s.savedScales := rfl
@[simp] theorem State.setSlotByte_lastQueue (k n : Nat) (b : Byte) : (s.setSlotByte k n b).lastQueue = s.lastQueue := rfl

@[simp] theorem State.setSlotPsn_part (k n : Nat) (b : Bool) : (s.setSlotPsn k n b).part = s.part := rfl
@[simp] theorem State.setSlotPsn_now (k n : Nat) (b : Bool) : (s.setSlotPsn k n b).now = s.now := rfl
@[simp] theorem State.setSlotPsn_turn (k n : Nat) (b : Bool) : (s.setSlotPsn k n b).turn = s.turn := rfl
@[simp] theorem State.setSlotPsn_free (k n : Nat) (b : Bool) : (s.setSlotPsn k n b).free = s.free := rfl
@[simp] theorem State.setSlotPsn_nextId (k n : Nat) (b : Bool) : (s.setSlotPsn k n b).nextId = s.nextId := rfl
@[simp] theorem State.setSlotPsn_inputs (k n : Nat) (b : Bool) : (s.setSlotPsn k n b).inputs = s.inputs := rfl
@[simp] theorem State.setSlotPsn_cur (k n : Nat) (b : Bool) : (s.setSlotPsn k n b).cur = s.cur := rfl
@[simp] theorem State.setSlotPsn_signal (k n : Nat) (b : Bool) : (s.setSlotPsn k n b).signal = s.signal := rfl
@[simp] theorem State.setSlotPsn_cores (k n : Nat) (b : Bool) : (s.setSlotPsn k n b).cores = s.cores := rfl
@[simp] theorem State.setSlotPsn_groups (k n : Nat) (b : Bool) : (s.setSlotPsn k n b).groups = s.groups := rfl
@[simp] theorem State.setSlotPsn_teams (k n : Nat) (b : Bool) : (s.setSlotPsn k n b).teams = s.teams := rfl
@[simp] theorem State.setSlotPsn_clusters (k n : Nat) (b : Bool) : (s.setSlotPsn k n b).clusters = s.clusters := rfl
@[simp] theorem State.setSlotPsn_kernels (k n : Nat) (b : Bool) : (s.setSlotPsn k n b).kernels = s.kernels := rfl
@[simp] theorem State.setSlotPsn_ctxs (k n : Nat) (b : Bool) : (s.setSlotPsn k n b).ctxs = s.ctxs := rfl
@[simp] theorem State.setSlotPsn_loans (k n : Nat) (b : Bool) : (s.setSlotPsn k n b).loans = s.loans := rfl
@[simp] theorem State.setSlotPsn_spad (k n : Nat) (b : Bool) : (s.setSlotPsn k n b).spad = s.spad := rfl
@[simp] theorem State.setSlotPsn_engines (k n : Nat) (b : Bool) : (s.setSlotPsn k n b).engines = s.engines := rfl
@[simp] theorem State.setSlotPsn_inflight (k n : Nat) (b : Bool) : (s.setSlotPsn k n b).inflight = s.inflight := rfl
@[simp] theorem State.setSlotPsn_cmds (k n : Nat) (b : Bool) : (s.setSlotPsn k n b).cmds = s.cmds := rfl
@[simp] theorem State.setSlotPsn_buckets (k n : Nat) (b : Bool) : (s.setSlotPsn k n b).buckets = s.buckets := rfl
@[simp] theorem State.setSlotPsn_errlog (k n : Nat) (b : Bool) : (s.setSlotPsn k n b).errlog = s.errlog := rfl
@[simp] theorem State.setSlotPsn_dl (k n : Nat) (b : Bool) : (s.setSlotPsn k n b).dl = s.dl := rfl
@[simp] theorem State.setSlotPsn_mem (k n : Nat) (b : Bool) : (s.setSlotPsn k n b).mem = s.mem := rfl
@[simp] theorem State.setSlotPsn_host (k n : Nat) (b : Bool) : (s.setSlotPsn k n b).host = s.host := rfl
@[simp] theorem State.setSlotPsn_hostPsn (k n : Nat) (b : Bool) : (s.setSlotPsn k n b).hostPsn = s.hostPsn := rfl
@[simp] theorem State.setSlotPsn_dies (k n : Nat) (b : Bool) : (s.setSlotPsn k n b).dies = s.dies := rfl
@[simp] theorem State.setSlotPsn_links (k n : Nat) (b : Bool) : (s.setSlotPsn k n b).links = s.links := rfl
@[simp] theorem State.setSlotPsn_routes (k n : Nat) (b : Bool) : (s.setSlotPsn k n b).routes = s.routes := rfl
@[simp] theorem State.setSlotPsn_handed (k n : Nat) (b : Bool) : (s.setSlotPsn k n b).handed = s.handed := rfl
@[simp] theorem State.setSlotPsn_portDown (k n : Nat) (b : Bool) : (s.setSlotPsn k n b).portDown = s.portDown := rfl
@[simp] theorem State.setSlotPsn_powerLow (k n : Nat) (b : Bool) : (s.setSlotPsn k n b).powerLow = s.powerLow := rfl
@[simp] theorem State.setSlotPsn_msix (k n : Nat) (b : Bool) : (s.setSlotPsn k n b).msix = s.msix := rfl
@[simp] theorem State.setSlotPsn_copies (k n : Nat) (b : Bool) : (s.setSlotPsn k n b).copies = s.copies := rfl
@[simp] theorem State.setSlotPsn_homes (k n : Nat) (b : Bool) : (s.setSlotPsn k n b).homes = s.homes := rfl
@[simp] theorem State.setSlotPsn_l2Uses (k n : Nat) (b : Bool) : (s.setSlotPsn k n b).l2Uses = s.l2Uses := rfl
@[simp] theorem State.setSlotPsn_tlb (k n : Nat) (b : Bool) : (s.setSlotPsn k n b).tlb = s.tlb := rfl
@[simp] theorem State.setSlotPsn_walkCache (k n : Nat) (b : Bool) : (s.setSlotPsn k n b).walkCache = s.walkCache := rfl
@[simp] theorem State.setSlotPsn_walks (k n : Nat) (b : Bool) : (s.setSlotPsn k n b).walks = s.walks := rfl
@[simp] theorem State.setSlotPsn_faults (k n : Nat) (b : Bool) : (s.setSlotPsn k n b).faults = s.faults := rfl
@[simp] theorem State.setSlotPsn_invals (k n : Nat) (b : Bool) : (s.setSlotPsn k n b).invals = s.invals := rfl
@[simp] theorem State.setSlotPsn_atsHeld (k n : Nat) (b : Bool) : (s.setSlotPsn k n b).atsHeld = s.atsHeld := rfl
@[simp] theorem State.setSlotPsn_pri (k n : Nat) (b : Bool) : (s.setSlotPsn k n b).pri = s.pri := rfl
@[simp] theorem State.setSlotPsn_attr (k n : Nat) (b : Bool) : (s.setSlotPsn k n b).attr = s.attr := rfl
@[simp] theorem State.setSlotPsn_collisions (k n : Nat) (b : Bool) : (s.setSlotPsn k n b).collisions = s.collisions := rfl
@[simp] theorem State.setSlotPsn_drains (k n : Nat) (b : Bool) : (s.setSlotPsn k n b).drains = s.drains := rfl
@[simp] theorem State.setSlotPsn_overflows (k n : Nat) (b : Bool) : (s.setSlotPsn k n b).overflows = s.overflows := rfl
@[simp] theorem State.setSlotPsn_txlanes (k n : Nat) (b : Bool) : (s.setSlotPsn k n b).txlanes = s.txlanes := rfl
@[simp] theorem State.setSlotPsn_counters (k n : Nat) (b : Bool) : (s.setSlotPsn k n b).counters = s.counters := rfl
@[simp] theorem State.setSlotPsn_migreqs (k n : Nat) (b : Bool) : (s.setSlotPsn k n b).migreqs = s.migreqs := rfl
@[simp] theorem State.setSlotPsn_refls (k n : Nat) (b : Bool) : (s.setSlotPsn k n b).refls = s.refls := rfl
@[simp] theorem State.setSlotPsn_ranges (k n : Nat) (b : Bool) : (s.setSlotPsn k n b).ranges = s.ranges := rfl
@[simp] theorem State.setSlotPsn_rpushes (k n : Nat) (b : Bool) : (s.setSlotPsn k n b).rpushes = s.rpushes := rfl
@[simp] theorem State.setSlotPsn_queues (k n : Nat) (b : Bool) : (s.setSlotPsn k n b).queues = s.queues := rfl
@[simp] theorem State.setSlotPsn_hrings (k n : Nat) (b : Bool) : (s.setSlotPsn k n b).hrings = s.hrings := rfl
@[simp] theorem State.setSlotPsn_graphs (k n : Nat) (b : Bool) : (s.setSlotPsn k n b).graphs = s.graphs := rfl
@[simp] theorem State.setSlotPsn_images (k n : Nat) (b : Bool) : (s.setSlotPsn k n b).images = s.images := rfl
@[simp] theorem State.setSlotPsn_mwork (k n : Nat) (b : Bool) : (s.setSlotPsn k n b).mwork = s.mwork := rfl
@[simp] theorem State.setSlotPsn_scales (k n : Nat) (b : Bool) : (s.setSlotPsn k n b).scales = s.scales := rfl
@[simp] theorem State.setSlotPsn_savedScales (k n : Nat) (b : Bool) : (s.setSlotPsn k n b).savedScales = s.savedScales := rfl
@[simp] theorem State.setSlotPsn_lastQueue (k n : Nat) (b : Bool) : (s.setSlotPsn k n b).lastQueue = s.lastQueue := rfl

@[simp] theorem State.setHostByte_part (n : Nat) (b : Byte) : (s.setHostByte n b).part = s.part := rfl
@[simp] theorem State.setHostByte_now (n : Nat) (b : Byte) : (s.setHostByte n b).now = s.now := rfl
@[simp] theorem State.setHostByte_turn (n : Nat) (b : Byte) : (s.setHostByte n b).turn = s.turn := rfl
@[simp] theorem State.setHostByte_free (n : Nat) (b : Byte) : (s.setHostByte n b).free = s.free := rfl
@[simp] theorem State.setHostByte_nextId (n : Nat) (b : Byte) : (s.setHostByte n b).nextId = s.nextId := rfl
@[simp] theorem State.setHostByte_inputs (n : Nat) (b : Byte) : (s.setHostByte n b).inputs = s.inputs := rfl
@[simp] theorem State.setHostByte_cur (n : Nat) (b : Byte) : (s.setHostByte n b).cur = s.cur := rfl
@[simp] theorem State.setHostByte_signal (n : Nat) (b : Byte) : (s.setHostByte n b).signal = s.signal := rfl
@[simp] theorem State.setHostByte_cores (n : Nat) (b : Byte) : (s.setHostByte n b).cores = s.cores := rfl
@[simp] theorem State.setHostByte_groups (n : Nat) (b : Byte) : (s.setHostByte n b).groups = s.groups := rfl
@[simp] theorem State.setHostByte_teams (n : Nat) (b : Byte) : (s.setHostByte n b).teams = s.teams := rfl
@[simp] theorem State.setHostByte_clusters (n : Nat) (b : Byte) : (s.setHostByte n b).clusters = s.clusters := rfl
@[simp] theorem State.setHostByte_kernels (n : Nat) (b : Byte) : (s.setHostByte n b).kernels = s.kernels := rfl
@[simp] theorem State.setHostByte_ctxs (n : Nat) (b : Byte) : (s.setHostByte n b).ctxs = s.ctxs := rfl
@[simp] theorem State.setHostByte_loans (n : Nat) (b : Byte) : (s.setHostByte n b).loans = s.loans := rfl
@[simp] theorem State.setHostByte_spad (n : Nat) (b : Byte) : (s.setHostByte n b).spad = s.spad := rfl
@[simp] theorem State.setHostByte_engines (n : Nat) (b : Byte) : (s.setHostByte n b).engines = s.engines := rfl
@[simp] theorem State.setHostByte_inflight (n : Nat) (b : Byte) : (s.setHostByte n b).inflight = s.inflight := rfl
@[simp] theorem State.setHostByte_cmds (n : Nat) (b : Byte) : (s.setHostByte n b).cmds = s.cmds := rfl
@[simp] theorem State.setHostByte_buckets (n : Nat) (b : Byte) : (s.setHostByte n b).buckets = s.buckets := rfl
@[simp] theorem State.setHostByte_errlog (n : Nat) (b : Byte) : (s.setHostByte n b).errlog = s.errlog := rfl
@[simp] theorem State.setHostByte_dl (n : Nat) (b : Byte) : (s.setHostByte n b).dl = s.dl := rfl
@[simp] theorem State.setHostByte_mem (n : Nat) (b : Byte) : (s.setHostByte n b).mem = s.mem := rfl
@[simp] theorem State.setHostByte_memPsn (n : Nat) (b : Byte) : (s.setHostByte n b).memPsn = s.memPsn := rfl
@[simp] theorem State.setHostByte_hostPsn (n : Nat) (b : Byte) : (s.setHostByte n b).hostPsn = s.hostPsn := rfl
@[simp] theorem State.setHostByte_dies (n : Nat) (b : Byte) : (s.setHostByte n b).dies = s.dies := rfl
@[simp] theorem State.setHostByte_links (n : Nat) (b : Byte) : (s.setHostByte n b).links = s.links := rfl
@[simp] theorem State.setHostByte_routes (n : Nat) (b : Byte) : (s.setHostByte n b).routes = s.routes := rfl
@[simp] theorem State.setHostByte_handed (n : Nat) (b : Byte) : (s.setHostByte n b).handed = s.handed := rfl
@[simp] theorem State.setHostByte_portDown (n : Nat) (b : Byte) : (s.setHostByte n b).portDown = s.portDown := rfl
@[simp] theorem State.setHostByte_powerLow (n : Nat) (b : Byte) : (s.setHostByte n b).powerLow = s.powerLow := rfl
@[simp] theorem State.setHostByte_msix (n : Nat) (b : Byte) : (s.setHostByte n b).msix = s.msix := rfl
@[simp] theorem State.setHostByte_copies (n : Nat) (b : Byte) : (s.setHostByte n b).copies = s.copies := rfl
@[simp] theorem State.setHostByte_homes (n : Nat) (b : Byte) : (s.setHostByte n b).homes = s.homes := rfl
@[simp] theorem State.setHostByte_l2Uses (n : Nat) (b : Byte) : (s.setHostByte n b).l2Uses = s.l2Uses := rfl
@[simp] theorem State.setHostByte_tlb (n : Nat) (b : Byte) : (s.setHostByte n b).tlb = s.tlb := rfl
@[simp] theorem State.setHostByte_walkCache (n : Nat) (b : Byte) : (s.setHostByte n b).walkCache = s.walkCache := rfl
@[simp] theorem State.setHostByte_walks (n : Nat) (b : Byte) : (s.setHostByte n b).walks = s.walks := rfl
@[simp] theorem State.setHostByte_faults (n : Nat) (b : Byte) : (s.setHostByte n b).faults = s.faults := rfl
@[simp] theorem State.setHostByte_invals (n : Nat) (b : Byte) : (s.setHostByte n b).invals = s.invals := rfl
@[simp] theorem State.setHostByte_atsHeld (n : Nat) (b : Byte) : (s.setHostByte n b).atsHeld = s.atsHeld := rfl
@[simp] theorem State.setHostByte_pri (n : Nat) (b : Byte) : (s.setHostByte n b).pri = s.pri := rfl
@[simp] theorem State.setHostByte_attr (n : Nat) (b : Byte) : (s.setHostByte n b).attr = s.attr := rfl
@[simp] theorem State.setHostByte_collisions (n : Nat) (b : Byte) : (s.setHostByte n b).collisions = s.collisions := rfl
@[simp] theorem State.setHostByte_drains (n : Nat) (b : Byte) : (s.setHostByte n b).drains = s.drains := rfl
@[simp] theorem State.setHostByte_overflows (n : Nat) (b : Byte) : (s.setHostByte n b).overflows = s.overflows := rfl
@[simp] theorem State.setHostByte_txlanes (n : Nat) (b : Byte) : (s.setHostByte n b).txlanes = s.txlanes := rfl
@[simp] theorem State.setHostByte_counters (n : Nat) (b : Byte) : (s.setHostByte n b).counters = s.counters := rfl
@[simp] theorem State.setHostByte_migreqs (n : Nat) (b : Byte) : (s.setHostByte n b).migreqs = s.migreqs := rfl
@[simp] theorem State.setHostByte_refls (n : Nat) (b : Byte) : (s.setHostByte n b).refls = s.refls := rfl
@[simp] theorem State.setHostByte_ranges (n : Nat) (b : Byte) : (s.setHostByte n b).ranges = s.ranges := rfl
@[simp] theorem State.setHostByte_rpushes (n : Nat) (b : Byte) : (s.setHostByte n b).rpushes = s.rpushes := rfl
@[simp] theorem State.setHostByte_queues (n : Nat) (b : Byte) : (s.setHostByte n b).queues = s.queues := rfl
@[simp] theorem State.setHostByte_hrings (n : Nat) (b : Byte) : (s.setHostByte n b).hrings = s.hrings := rfl
@[simp] theorem State.setHostByte_graphs (n : Nat) (b : Byte) : (s.setHostByte n b).graphs = s.graphs := rfl
@[simp] theorem State.setHostByte_images (n : Nat) (b : Byte) : (s.setHostByte n b).images = s.images := rfl
@[simp] theorem State.setHostByte_mwork (n : Nat) (b : Byte) : (s.setHostByte n b).mwork = s.mwork := rfl
@[simp] theorem State.setHostByte_scales (n : Nat) (b : Byte) : (s.setHostByte n b).scales = s.scales := rfl
@[simp] theorem State.setHostByte_savedScales (n : Nat) (b : Byte) : (s.setHostByte n b).savedScales = s.savedScales := rfl
@[simp] theorem State.setHostByte_lastQueue (n : Nat) (b : Byte) : (s.setHostByte n b).lastQueue = s.lastQueue := rfl

@[simp] theorem State.setDie_part (n : Nat) (x : Die) : (s.setDie n x).part = s.part := rfl
@[simp] theorem State.setDie_now (n : Nat) (x : Die) : (s.setDie n x).now = s.now := rfl
@[simp] theorem State.setDie_turn (n : Nat) (x : Die) : (s.setDie n x).turn = s.turn := rfl
@[simp] theorem State.setDie_free (n : Nat) (x : Die) : (s.setDie n x).free = s.free := rfl
@[simp] theorem State.setDie_nextId (n : Nat) (x : Die) : (s.setDie n x).nextId = s.nextId := rfl
@[simp] theorem State.setDie_inputs (n : Nat) (x : Die) : (s.setDie n x).inputs = s.inputs := rfl
@[simp] theorem State.setDie_cur (n : Nat) (x : Die) : (s.setDie n x).cur = s.cur := rfl
@[simp] theorem State.setDie_signal (n : Nat) (x : Die) : (s.setDie n x).signal = s.signal := rfl
@[simp] theorem State.setDie_cores (n : Nat) (x : Die) : (s.setDie n x).cores = s.cores := rfl
@[simp] theorem State.setDie_groups (n : Nat) (x : Die) : (s.setDie n x).groups = s.groups := rfl
@[simp] theorem State.setDie_teams (n : Nat) (x : Die) : (s.setDie n x).teams = s.teams := rfl
@[simp] theorem State.setDie_clusters (n : Nat) (x : Die) : (s.setDie n x).clusters = s.clusters := rfl
@[simp] theorem State.setDie_kernels (n : Nat) (x : Die) : (s.setDie n x).kernels = s.kernels := rfl
@[simp] theorem State.setDie_ctxs (n : Nat) (x : Die) : (s.setDie n x).ctxs = s.ctxs := rfl
@[simp] theorem State.setDie_loans (n : Nat) (x : Die) : (s.setDie n x).loans = s.loans := rfl
@[simp] theorem State.setDie_spad (n : Nat) (x : Die) : (s.setDie n x).spad = s.spad := rfl
@[simp] theorem State.setDie_engines (n : Nat) (x : Die) : (s.setDie n x).engines = s.engines := rfl
@[simp] theorem State.setDie_inflight (n : Nat) (x : Die) : (s.setDie n x).inflight = s.inflight := rfl
@[simp] theorem State.setDie_cmds (n : Nat) (x : Die) : (s.setDie n x).cmds = s.cmds := rfl
@[simp] theorem State.setDie_buckets (n : Nat) (x : Die) : (s.setDie n x).buckets = s.buckets := rfl
@[simp] theorem State.setDie_errlog (n : Nat) (x : Die) : (s.setDie n x).errlog = s.errlog := rfl
@[simp] theorem State.setDie_dl (n : Nat) (x : Die) : (s.setDie n x).dl = s.dl := rfl
@[simp] theorem State.setDie_mem (n : Nat) (x : Die) : (s.setDie n x).mem = s.mem := rfl
@[simp] theorem State.setDie_memPsn (n : Nat) (x : Die) : (s.setDie n x).memPsn = s.memPsn := rfl
@[simp] theorem State.setDie_host (n : Nat) (x : Die) : (s.setDie n x).host = s.host := rfl
@[simp] theorem State.setDie_hostPsn (n : Nat) (x : Die) : (s.setDie n x).hostPsn = s.hostPsn := rfl
@[simp] theorem State.setDie_links (n : Nat) (x : Die) : (s.setDie n x).links = s.links := rfl
@[simp] theorem State.setDie_routes (n : Nat) (x : Die) : (s.setDie n x).routes = s.routes := rfl
@[simp] theorem State.setDie_handed (n : Nat) (x : Die) : (s.setDie n x).handed = s.handed := rfl
@[simp] theorem State.setDie_portDown (n : Nat) (x : Die) : (s.setDie n x).portDown = s.portDown := rfl
@[simp] theorem State.setDie_powerLow (n : Nat) (x : Die) : (s.setDie n x).powerLow = s.powerLow := rfl
@[simp] theorem State.setDie_msix (n : Nat) (x : Die) : (s.setDie n x).msix = s.msix := rfl
@[simp] theorem State.setDie_copies (n : Nat) (x : Die) : (s.setDie n x).copies = s.copies := rfl
@[simp] theorem State.setDie_homes (n : Nat) (x : Die) : (s.setDie n x).homes = s.homes := rfl
@[simp] theorem State.setDie_l2Uses (n : Nat) (x : Die) : (s.setDie n x).l2Uses = s.l2Uses := rfl
@[simp] theorem State.setDie_tlb (n : Nat) (x : Die) : (s.setDie n x).tlb = s.tlb := rfl
@[simp] theorem State.setDie_walkCache (n : Nat) (x : Die) : (s.setDie n x).walkCache = s.walkCache := rfl
@[simp] theorem State.setDie_walks (n : Nat) (x : Die) : (s.setDie n x).walks = s.walks := rfl
@[simp] theorem State.setDie_faults (n : Nat) (x : Die) : (s.setDie n x).faults = s.faults := rfl
@[simp] theorem State.setDie_invals (n : Nat) (x : Die) : (s.setDie n x).invals = s.invals := rfl
@[simp] theorem State.setDie_atsHeld (n : Nat) (x : Die) : (s.setDie n x).atsHeld = s.atsHeld := rfl
@[simp] theorem State.setDie_pri (n : Nat) (x : Die) : (s.setDie n x).pri = s.pri := rfl
@[simp] theorem State.setDie_attr (n : Nat) (x : Die) : (s.setDie n x).attr = s.attr := rfl
@[simp] theorem State.setDie_collisions (n : Nat) (x : Die) : (s.setDie n x).collisions = s.collisions := rfl
@[simp] theorem State.setDie_drains (n : Nat) (x : Die) : (s.setDie n x).drains = s.drains := rfl
@[simp] theorem State.setDie_overflows (n : Nat) (x : Die) : (s.setDie n x).overflows = s.overflows := rfl
@[simp] theorem State.setDie_txlanes (n : Nat) (x : Die) : (s.setDie n x).txlanes = s.txlanes := rfl
@[simp] theorem State.setDie_counters (n : Nat) (x : Die) : (s.setDie n x).counters = s.counters := rfl
@[simp] theorem State.setDie_migreqs (n : Nat) (x : Die) : (s.setDie n x).migreqs = s.migreqs := rfl
@[simp] theorem State.setDie_refls (n : Nat) (x : Die) : (s.setDie n x).refls = s.refls := rfl
@[simp] theorem State.setDie_ranges (n : Nat) (x : Die) : (s.setDie n x).ranges = s.ranges := rfl
@[simp] theorem State.setDie_rpushes (n : Nat) (x : Die) : (s.setDie n x).rpushes = s.rpushes := rfl
@[simp] theorem State.setDie_queues (n : Nat) (x : Die) : (s.setDie n x).queues = s.queues := rfl
@[simp] theorem State.setDie_hrings (n : Nat) (x : Die) : (s.setDie n x).hrings = s.hrings := rfl
@[simp] theorem State.setDie_graphs (n : Nat) (x : Die) : (s.setDie n x).graphs = s.graphs := rfl
@[simp] theorem State.setDie_images (n : Nat) (x : Die) : (s.setDie n x).images = s.images := rfl
@[simp] theorem State.setDie_mwork (n : Nat) (x : Die) : (s.setDie n x).mwork = s.mwork := rfl
@[simp] theorem State.setDie_scales (n : Nat) (x : Die) : (s.setDie n x).scales = s.scales := rfl
@[simp] theorem State.setDie_savedScales (n : Nat) (x : Die) : (s.setDie n x).savedScales = s.savedScales := rfl
@[simp] theorem State.setDie_lastQueue (n : Nat) (x : Die) : (s.setDie n x).lastQueue = s.lastQueue := rfl

@[simp] theorem State.modDie_part (n : Nat) (f : Die → Die) : (s.modDie n f).part = s.part := rfl
@[simp] theorem State.modDie_now (n : Nat) (f : Die → Die) : (s.modDie n f).now = s.now := rfl
@[simp] theorem State.modDie_turn (n : Nat) (f : Die → Die) : (s.modDie n f).turn = s.turn := rfl
@[simp] theorem State.modDie_free (n : Nat) (f : Die → Die) : (s.modDie n f).free = s.free := rfl
@[simp] theorem State.modDie_nextId (n : Nat) (f : Die → Die) : (s.modDie n f).nextId = s.nextId := rfl
@[simp] theorem State.modDie_inputs (n : Nat) (f : Die → Die) : (s.modDie n f).inputs = s.inputs := rfl
@[simp] theorem State.modDie_cur (n : Nat) (f : Die → Die) : (s.modDie n f).cur = s.cur := rfl
@[simp] theorem State.modDie_signal (n : Nat) (f : Die → Die) : (s.modDie n f).signal = s.signal := rfl
@[simp] theorem State.modDie_cores (n : Nat) (f : Die → Die) : (s.modDie n f).cores = s.cores := rfl
@[simp] theorem State.modDie_groups (n : Nat) (f : Die → Die) : (s.modDie n f).groups = s.groups := rfl
@[simp] theorem State.modDie_teams (n : Nat) (f : Die → Die) : (s.modDie n f).teams = s.teams := rfl
@[simp] theorem State.modDie_clusters (n : Nat) (f : Die → Die) : (s.modDie n f).clusters = s.clusters := rfl
@[simp] theorem State.modDie_kernels (n : Nat) (f : Die → Die) : (s.modDie n f).kernels = s.kernels := rfl
@[simp] theorem State.modDie_ctxs (n : Nat) (f : Die → Die) : (s.modDie n f).ctxs = s.ctxs := rfl
@[simp] theorem State.modDie_loans (n : Nat) (f : Die → Die) : (s.modDie n f).loans = s.loans := rfl
@[simp] theorem State.modDie_spad (n : Nat) (f : Die → Die) : (s.modDie n f).spad = s.spad := rfl
@[simp] theorem State.modDie_engines (n : Nat) (f : Die → Die) : (s.modDie n f).engines = s.engines := rfl
@[simp] theorem State.modDie_inflight (n : Nat) (f : Die → Die) : (s.modDie n f).inflight = s.inflight := rfl
@[simp] theorem State.modDie_cmds (n : Nat) (f : Die → Die) : (s.modDie n f).cmds = s.cmds := rfl
@[simp] theorem State.modDie_buckets (n : Nat) (f : Die → Die) : (s.modDie n f).buckets = s.buckets := rfl
@[simp] theorem State.modDie_errlog (n : Nat) (f : Die → Die) : (s.modDie n f).errlog = s.errlog := rfl
@[simp] theorem State.modDie_dl (n : Nat) (f : Die → Die) : (s.modDie n f).dl = s.dl := rfl
@[simp] theorem State.modDie_mem (n : Nat) (f : Die → Die) : (s.modDie n f).mem = s.mem := rfl
@[simp] theorem State.modDie_memPsn (n : Nat) (f : Die → Die) : (s.modDie n f).memPsn = s.memPsn := rfl
@[simp] theorem State.modDie_host (n : Nat) (f : Die → Die) : (s.modDie n f).host = s.host := rfl
@[simp] theorem State.modDie_hostPsn (n : Nat) (f : Die → Die) : (s.modDie n f).hostPsn = s.hostPsn := rfl
@[simp] theorem State.modDie_links (n : Nat) (f : Die → Die) : (s.modDie n f).links = s.links := rfl
@[simp] theorem State.modDie_routes (n : Nat) (f : Die → Die) : (s.modDie n f).routes = s.routes := rfl
@[simp] theorem State.modDie_handed (n : Nat) (f : Die → Die) : (s.modDie n f).handed = s.handed := rfl
@[simp] theorem State.modDie_portDown (n : Nat) (f : Die → Die) : (s.modDie n f).portDown = s.portDown := rfl
@[simp] theorem State.modDie_powerLow (n : Nat) (f : Die → Die) : (s.modDie n f).powerLow = s.powerLow := rfl
@[simp] theorem State.modDie_msix (n : Nat) (f : Die → Die) : (s.modDie n f).msix = s.msix := rfl
@[simp] theorem State.modDie_copies (n : Nat) (f : Die → Die) : (s.modDie n f).copies = s.copies := rfl
@[simp] theorem State.modDie_homes (n : Nat) (f : Die → Die) : (s.modDie n f).homes = s.homes := rfl
@[simp] theorem State.modDie_l2Uses (n : Nat) (f : Die → Die) : (s.modDie n f).l2Uses = s.l2Uses := rfl
@[simp] theorem State.modDie_tlb (n : Nat) (f : Die → Die) : (s.modDie n f).tlb = s.tlb := rfl
@[simp] theorem State.modDie_walkCache (n : Nat) (f : Die → Die) : (s.modDie n f).walkCache = s.walkCache := rfl
@[simp] theorem State.modDie_walks (n : Nat) (f : Die → Die) : (s.modDie n f).walks = s.walks := rfl
@[simp] theorem State.modDie_faults (n : Nat) (f : Die → Die) : (s.modDie n f).faults = s.faults := rfl
@[simp] theorem State.modDie_invals (n : Nat) (f : Die → Die) : (s.modDie n f).invals = s.invals := rfl
@[simp] theorem State.modDie_atsHeld (n : Nat) (f : Die → Die) : (s.modDie n f).atsHeld = s.atsHeld := rfl
@[simp] theorem State.modDie_pri (n : Nat) (f : Die → Die) : (s.modDie n f).pri = s.pri := rfl
@[simp] theorem State.modDie_attr (n : Nat) (f : Die → Die) : (s.modDie n f).attr = s.attr := rfl
@[simp] theorem State.modDie_collisions (n : Nat) (f : Die → Die) : (s.modDie n f).collisions = s.collisions := rfl
@[simp] theorem State.modDie_drains (n : Nat) (f : Die → Die) : (s.modDie n f).drains = s.drains := rfl
@[simp] theorem State.modDie_overflows (n : Nat) (f : Die → Die) : (s.modDie n f).overflows = s.overflows := rfl
@[simp] theorem State.modDie_txlanes (n : Nat) (f : Die → Die) : (s.modDie n f).txlanes = s.txlanes := rfl
@[simp] theorem State.modDie_counters (n : Nat) (f : Die → Die) : (s.modDie n f).counters = s.counters := rfl
@[simp] theorem State.modDie_migreqs (n : Nat) (f : Die → Die) : (s.modDie n f).migreqs = s.migreqs := rfl
@[simp] theorem State.modDie_refls (n : Nat) (f : Die → Die) : (s.modDie n f).refls = s.refls := rfl
@[simp] theorem State.modDie_ranges (n : Nat) (f : Die → Die) : (s.modDie n f).ranges = s.ranges := rfl
@[simp] theorem State.modDie_rpushes (n : Nat) (f : Die → Die) : (s.modDie n f).rpushes = s.rpushes := rfl
@[simp] theorem State.modDie_queues (n : Nat) (f : Die → Die) : (s.modDie n f).queues = s.queues := rfl
@[simp] theorem State.modDie_hrings (n : Nat) (f : Die → Die) : (s.modDie n f).hrings = s.hrings := rfl
@[simp] theorem State.modDie_graphs (n : Nat) (f : Die → Die) : (s.modDie n f).graphs = s.graphs := rfl
@[simp] theorem State.modDie_images (n : Nat) (f : Die → Die) : (s.modDie n f).images = s.images := rfl
@[simp] theorem State.modDie_mwork (n : Nat) (f : Die → Die) : (s.modDie n f).mwork = s.mwork := rfl
@[simp] theorem State.modDie_scales (n : Nat) (f : Die → Die) : (s.modDie n f).scales = s.scales := rfl
@[simp] theorem State.modDie_savedScales (n : Nat) (f : Die → Die) : (s.modDie n f).savedScales = s.savedScales := rfl
@[simp] theorem State.modDie_lastQueue (n : Nat) (f : Die → Die) : (s.modDie n f).lastQueue = s.lastQueue := rfl

@[simp] theorem State.setLink_part (n : Nat) (x : Link) : (s.setLink n x).part = s.part := rfl
@[simp] theorem State.setLink_now (n : Nat) (x : Link) : (s.setLink n x).now = s.now := rfl
@[simp] theorem State.setLink_turn (n : Nat) (x : Link) : (s.setLink n x).turn = s.turn := rfl
@[simp] theorem State.setLink_free (n : Nat) (x : Link) : (s.setLink n x).free = s.free := rfl
@[simp] theorem State.setLink_nextId (n : Nat) (x : Link) : (s.setLink n x).nextId = s.nextId := rfl
@[simp] theorem State.setLink_inputs (n : Nat) (x : Link) : (s.setLink n x).inputs = s.inputs := rfl
@[simp] theorem State.setLink_cur (n : Nat) (x : Link) : (s.setLink n x).cur = s.cur := rfl
@[simp] theorem State.setLink_signal (n : Nat) (x : Link) : (s.setLink n x).signal = s.signal := rfl
@[simp] theorem State.setLink_cores (n : Nat) (x : Link) : (s.setLink n x).cores = s.cores := rfl
@[simp] theorem State.setLink_groups (n : Nat) (x : Link) : (s.setLink n x).groups = s.groups := rfl
@[simp] theorem State.setLink_teams (n : Nat) (x : Link) : (s.setLink n x).teams = s.teams := rfl
@[simp] theorem State.setLink_clusters (n : Nat) (x : Link) : (s.setLink n x).clusters = s.clusters := rfl
@[simp] theorem State.setLink_kernels (n : Nat) (x : Link) : (s.setLink n x).kernels = s.kernels := rfl
@[simp] theorem State.setLink_ctxs (n : Nat) (x : Link) : (s.setLink n x).ctxs = s.ctxs := rfl
@[simp] theorem State.setLink_loans (n : Nat) (x : Link) : (s.setLink n x).loans = s.loans := rfl
@[simp] theorem State.setLink_spad (n : Nat) (x : Link) : (s.setLink n x).spad = s.spad := rfl
@[simp] theorem State.setLink_engines (n : Nat) (x : Link) : (s.setLink n x).engines = s.engines := rfl
@[simp] theorem State.setLink_inflight (n : Nat) (x : Link) : (s.setLink n x).inflight = s.inflight := rfl
@[simp] theorem State.setLink_cmds (n : Nat) (x : Link) : (s.setLink n x).cmds = s.cmds := rfl
@[simp] theorem State.setLink_buckets (n : Nat) (x : Link) : (s.setLink n x).buckets = s.buckets := rfl
@[simp] theorem State.setLink_errlog (n : Nat) (x : Link) : (s.setLink n x).errlog = s.errlog := rfl
@[simp] theorem State.setLink_dl (n : Nat) (x : Link) : (s.setLink n x).dl = s.dl := rfl
@[simp] theorem State.setLink_mem (n : Nat) (x : Link) : (s.setLink n x).mem = s.mem := rfl
@[simp] theorem State.setLink_memPsn (n : Nat) (x : Link) : (s.setLink n x).memPsn = s.memPsn := rfl
@[simp] theorem State.setLink_host (n : Nat) (x : Link) : (s.setLink n x).host = s.host := rfl
@[simp] theorem State.setLink_hostPsn (n : Nat) (x : Link) : (s.setLink n x).hostPsn = s.hostPsn := rfl
@[simp] theorem State.setLink_dies (n : Nat) (x : Link) : (s.setLink n x).dies = s.dies := rfl
@[simp] theorem State.setLink_routes (n : Nat) (x : Link) : (s.setLink n x).routes = s.routes := rfl
@[simp] theorem State.setLink_handed (n : Nat) (x : Link) : (s.setLink n x).handed = s.handed := rfl
@[simp] theorem State.setLink_portDown (n : Nat) (x : Link) : (s.setLink n x).portDown = s.portDown := rfl
@[simp] theorem State.setLink_powerLow (n : Nat) (x : Link) : (s.setLink n x).powerLow = s.powerLow := rfl
@[simp] theorem State.setLink_msix (n : Nat) (x : Link) : (s.setLink n x).msix = s.msix := rfl
@[simp] theorem State.setLink_copies (n : Nat) (x : Link) : (s.setLink n x).copies = s.copies := rfl
@[simp] theorem State.setLink_homes (n : Nat) (x : Link) : (s.setLink n x).homes = s.homes := rfl
@[simp] theorem State.setLink_l2Uses (n : Nat) (x : Link) : (s.setLink n x).l2Uses = s.l2Uses := rfl
@[simp] theorem State.setLink_tlb (n : Nat) (x : Link) : (s.setLink n x).tlb = s.tlb := rfl
@[simp] theorem State.setLink_walkCache (n : Nat) (x : Link) : (s.setLink n x).walkCache = s.walkCache := rfl
@[simp] theorem State.setLink_walks (n : Nat) (x : Link) : (s.setLink n x).walks = s.walks := rfl
@[simp] theorem State.setLink_faults (n : Nat) (x : Link) : (s.setLink n x).faults = s.faults := rfl
@[simp] theorem State.setLink_invals (n : Nat) (x : Link) : (s.setLink n x).invals = s.invals := rfl
@[simp] theorem State.setLink_atsHeld (n : Nat) (x : Link) : (s.setLink n x).atsHeld = s.atsHeld := rfl
@[simp] theorem State.setLink_pri (n : Nat) (x : Link) : (s.setLink n x).pri = s.pri := rfl
@[simp] theorem State.setLink_attr (n : Nat) (x : Link) : (s.setLink n x).attr = s.attr := rfl
@[simp] theorem State.setLink_collisions (n : Nat) (x : Link) : (s.setLink n x).collisions = s.collisions := rfl
@[simp] theorem State.setLink_drains (n : Nat) (x : Link) : (s.setLink n x).drains = s.drains := rfl
@[simp] theorem State.setLink_overflows (n : Nat) (x : Link) : (s.setLink n x).overflows = s.overflows := rfl
@[simp] theorem State.setLink_txlanes (n : Nat) (x : Link) : (s.setLink n x).txlanes = s.txlanes := rfl
@[simp] theorem State.setLink_counters (n : Nat) (x : Link) : (s.setLink n x).counters = s.counters := rfl
@[simp] theorem State.setLink_migreqs (n : Nat) (x : Link) : (s.setLink n x).migreqs = s.migreqs := rfl
@[simp] theorem State.setLink_refls (n : Nat) (x : Link) : (s.setLink n x).refls = s.refls := rfl
@[simp] theorem State.setLink_ranges (n : Nat) (x : Link) : (s.setLink n x).ranges = s.ranges := rfl
@[simp] theorem State.setLink_rpushes (n : Nat) (x : Link) : (s.setLink n x).rpushes = s.rpushes := rfl
@[simp] theorem State.setLink_queues (n : Nat) (x : Link) : (s.setLink n x).queues = s.queues := rfl
@[simp] theorem State.setLink_hrings (n : Nat) (x : Link) : (s.setLink n x).hrings = s.hrings := rfl
@[simp] theorem State.setLink_graphs (n : Nat) (x : Link) : (s.setLink n x).graphs = s.graphs := rfl
@[simp] theorem State.setLink_images (n : Nat) (x : Link) : (s.setLink n x).images = s.images := rfl
@[simp] theorem State.setLink_mwork (n : Nat) (x : Link) : (s.setLink n x).mwork = s.mwork := rfl
@[simp] theorem State.setLink_scales (n : Nat) (x : Link) : (s.setLink n x).scales = s.scales := rfl
@[simp] theorem State.setLink_savedScales (n : Nat) (x : Link) : (s.setLink n x).savedScales = s.savedScales := rfl
@[simp] theorem State.setLink_lastQueue (n : Nat) (x : Link) : (s.setLink n x).lastQueue = s.lastQueue := rfl

@[simp] theorem State.setQueue_part (n : Nat) (x : Queue) : (s.setQueue n x).part = s.part := rfl
@[simp] theorem State.setQueue_now (n : Nat) (x : Queue) : (s.setQueue n x).now = s.now := rfl
@[simp] theorem State.setQueue_turn (n : Nat) (x : Queue) : (s.setQueue n x).turn = s.turn := rfl
@[simp] theorem State.setQueue_free (n : Nat) (x : Queue) : (s.setQueue n x).free = s.free := rfl
@[simp] theorem State.setQueue_nextId (n : Nat) (x : Queue) : (s.setQueue n x).nextId = s.nextId := rfl
@[simp] theorem State.setQueue_inputs (n : Nat) (x : Queue) : (s.setQueue n x).inputs = s.inputs := rfl
@[simp] theorem State.setQueue_cur (n : Nat) (x : Queue) : (s.setQueue n x).cur = s.cur := rfl
@[simp] theorem State.setQueue_signal (n : Nat) (x : Queue) : (s.setQueue n x).signal = s.signal := rfl
@[simp] theorem State.setQueue_cores (n : Nat) (x : Queue) : (s.setQueue n x).cores = s.cores := rfl
@[simp] theorem State.setQueue_groups (n : Nat) (x : Queue) : (s.setQueue n x).groups = s.groups := rfl
@[simp] theorem State.setQueue_teams (n : Nat) (x : Queue) : (s.setQueue n x).teams = s.teams := rfl
@[simp] theorem State.setQueue_clusters (n : Nat) (x : Queue) : (s.setQueue n x).clusters = s.clusters := rfl
@[simp] theorem State.setQueue_kernels (n : Nat) (x : Queue) : (s.setQueue n x).kernels = s.kernels := rfl
@[simp] theorem State.setQueue_ctxs (n : Nat) (x : Queue) : (s.setQueue n x).ctxs = s.ctxs := rfl
@[simp] theorem State.setQueue_loans (n : Nat) (x : Queue) : (s.setQueue n x).loans = s.loans := rfl
@[simp] theorem State.setQueue_spad (n : Nat) (x : Queue) : (s.setQueue n x).spad = s.spad := rfl
@[simp] theorem State.setQueue_engines (n : Nat) (x : Queue) : (s.setQueue n x).engines = s.engines := rfl
@[simp] theorem State.setQueue_inflight (n : Nat) (x : Queue) : (s.setQueue n x).inflight = s.inflight := rfl
@[simp] theorem State.setQueue_cmds (n : Nat) (x : Queue) : (s.setQueue n x).cmds = s.cmds := rfl
@[simp] theorem State.setQueue_buckets (n : Nat) (x : Queue) : (s.setQueue n x).buckets = s.buckets := rfl
@[simp] theorem State.setQueue_errlog (n : Nat) (x : Queue) : (s.setQueue n x).errlog = s.errlog := rfl
@[simp] theorem State.setQueue_dl (n : Nat) (x : Queue) : (s.setQueue n x).dl = s.dl := rfl
@[simp] theorem State.setQueue_mem (n : Nat) (x : Queue) : (s.setQueue n x).mem = s.mem := rfl
@[simp] theorem State.setQueue_memPsn (n : Nat) (x : Queue) : (s.setQueue n x).memPsn = s.memPsn := rfl
@[simp] theorem State.setQueue_host (n : Nat) (x : Queue) : (s.setQueue n x).host = s.host := rfl
@[simp] theorem State.setQueue_hostPsn (n : Nat) (x : Queue) : (s.setQueue n x).hostPsn = s.hostPsn := rfl
@[simp] theorem State.setQueue_dies (n : Nat) (x : Queue) : (s.setQueue n x).dies = s.dies := rfl
@[simp] theorem State.setQueue_links (n : Nat) (x : Queue) : (s.setQueue n x).links = s.links := rfl
@[simp] theorem State.setQueue_routes (n : Nat) (x : Queue) : (s.setQueue n x).routes = s.routes := rfl
@[simp] theorem State.setQueue_handed (n : Nat) (x : Queue) : (s.setQueue n x).handed = s.handed := rfl
@[simp] theorem State.setQueue_portDown (n : Nat) (x : Queue) : (s.setQueue n x).portDown = s.portDown := rfl
@[simp] theorem State.setQueue_powerLow (n : Nat) (x : Queue) : (s.setQueue n x).powerLow = s.powerLow := rfl
@[simp] theorem State.setQueue_msix (n : Nat) (x : Queue) : (s.setQueue n x).msix = s.msix := rfl
@[simp] theorem State.setQueue_copies (n : Nat) (x : Queue) : (s.setQueue n x).copies = s.copies := rfl
@[simp] theorem State.setQueue_homes (n : Nat) (x : Queue) : (s.setQueue n x).homes = s.homes := rfl
@[simp] theorem State.setQueue_l2Uses (n : Nat) (x : Queue) : (s.setQueue n x).l2Uses = s.l2Uses := rfl
@[simp] theorem State.setQueue_tlb (n : Nat) (x : Queue) : (s.setQueue n x).tlb = s.tlb := rfl
@[simp] theorem State.setQueue_walkCache (n : Nat) (x : Queue) : (s.setQueue n x).walkCache = s.walkCache := rfl
@[simp] theorem State.setQueue_walks (n : Nat) (x : Queue) : (s.setQueue n x).walks = s.walks := rfl
@[simp] theorem State.setQueue_faults (n : Nat) (x : Queue) : (s.setQueue n x).faults = s.faults := rfl
@[simp] theorem State.setQueue_invals (n : Nat) (x : Queue) : (s.setQueue n x).invals = s.invals := rfl
@[simp] theorem State.setQueue_atsHeld (n : Nat) (x : Queue) : (s.setQueue n x).atsHeld = s.atsHeld := rfl
@[simp] theorem State.setQueue_pri (n : Nat) (x : Queue) : (s.setQueue n x).pri = s.pri := rfl
@[simp] theorem State.setQueue_attr (n : Nat) (x : Queue) : (s.setQueue n x).attr = s.attr := rfl
@[simp] theorem State.setQueue_collisions (n : Nat) (x : Queue) : (s.setQueue n x).collisions = s.collisions := rfl
@[simp] theorem State.setQueue_drains (n : Nat) (x : Queue) : (s.setQueue n x).drains = s.drains := rfl
@[simp] theorem State.setQueue_overflows (n : Nat) (x : Queue) : (s.setQueue n x).overflows = s.overflows := rfl
@[simp] theorem State.setQueue_txlanes (n : Nat) (x : Queue) : (s.setQueue n x).txlanes = s.txlanes := rfl
@[simp] theorem State.setQueue_counters (n : Nat) (x : Queue) : (s.setQueue n x).counters = s.counters := rfl
@[simp] theorem State.setQueue_migreqs (n : Nat) (x : Queue) : (s.setQueue n x).migreqs = s.migreqs := rfl
@[simp] theorem State.setQueue_refls (n : Nat) (x : Queue) : (s.setQueue n x).refls = s.refls := rfl
@[simp] theorem State.setQueue_ranges (n : Nat) (x : Queue) : (s.setQueue n x).ranges = s.ranges := rfl
@[simp] theorem State.setQueue_rpushes (n : Nat) (x : Queue) : (s.setQueue n x).rpushes = s.rpushes := rfl
@[simp] theorem State.setQueue_hrings (n : Nat) (x : Queue) : (s.setQueue n x).hrings = s.hrings := rfl
@[simp] theorem State.setQueue_graphs (n : Nat) (x : Queue) : (s.setQueue n x).graphs = s.graphs := rfl
@[simp] theorem State.setQueue_images (n : Nat) (x : Queue) : (s.setQueue n x).images = s.images := rfl
@[simp] theorem State.setQueue_mwork (n : Nat) (x : Queue) : (s.setQueue n x).mwork = s.mwork := rfl
@[simp] theorem State.setQueue_scales (n : Nat) (x : Queue) : (s.setQueue n x).scales = s.scales := rfl
@[simp] theorem State.setQueue_savedScales (n : Nat) (x : Queue) : (s.setQueue n x).savedScales = s.savedScales := rfl
@[simp] theorem State.setQueue_lastQueue (n : Nat) (x : Queue) : (s.setQueue n x).lastQueue = s.lastQueue := rfl

@[simp] theorem State.setCmd_part (n : Nat) (x : Cmd) : (s.setCmd n x).part = s.part := rfl
@[simp] theorem State.setCmd_now (n : Nat) (x : Cmd) : (s.setCmd n x).now = s.now := rfl
@[simp] theorem State.setCmd_turn (n : Nat) (x : Cmd) : (s.setCmd n x).turn = s.turn := rfl
@[simp] theorem State.setCmd_free (n : Nat) (x : Cmd) : (s.setCmd n x).free = s.free := rfl
@[simp] theorem State.setCmd_nextId (n : Nat) (x : Cmd) : (s.setCmd n x).nextId = s.nextId := rfl
@[simp] theorem State.setCmd_inputs (n : Nat) (x : Cmd) : (s.setCmd n x).inputs = s.inputs := rfl
@[simp] theorem State.setCmd_cur (n : Nat) (x : Cmd) : (s.setCmd n x).cur = s.cur := rfl
@[simp] theorem State.setCmd_signal (n : Nat) (x : Cmd) : (s.setCmd n x).signal = s.signal := rfl
@[simp] theorem State.setCmd_cores (n : Nat) (x : Cmd) : (s.setCmd n x).cores = s.cores := rfl
@[simp] theorem State.setCmd_groups (n : Nat) (x : Cmd) : (s.setCmd n x).groups = s.groups := rfl
@[simp] theorem State.setCmd_teams (n : Nat) (x : Cmd) : (s.setCmd n x).teams = s.teams := rfl
@[simp] theorem State.setCmd_clusters (n : Nat) (x : Cmd) : (s.setCmd n x).clusters = s.clusters := rfl
@[simp] theorem State.setCmd_kernels (n : Nat) (x : Cmd) : (s.setCmd n x).kernels = s.kernels := rfl
@[simp] theorem State.setCmd_ctxs (n : Nat) (x : Cmd) : (s.setCmd n x).ctxs = s.ctxs := rfl
@[simp] theorem State.setCmd_loans (n : Nat) (x : Cmd) : (s.setCmd n x).loans = s.loans := rfl
@[simp] theorem State.setCmd_spad (n : Nat) (x : Cmd) : (s.setCmd n x).spad = s.spad := rfl
@[simp] theorem State.setCmd_engines (n : Nat) (x : Cmd) : (s.setCmd n x).engines = s.engines := rfl
@[simp] theorem State.setCmd_inflight (n : Nat) (x : Cmd) : (s.setCmd n x).inflight = s.inflight := rfl
@[simp] theorem State.setCmd_buckets (n : Nat) (x : Cmd) : (s.setCmd n x).buckets = s.buckets := rfl
@[simp] theorem State.setCmd_errlog (n : Nat) (x : Cmd) : (s.setCmd n x).errlog = s.errlog := rfl
@[simp] theorem State.setCmd_dl (n : Nat) (x : Cmd) : (s.setCmd n x).dl = s.dl := rfl
@[simp] theorem State.setCmd_mem (n : Nat) (x : Cmd) : (s.setCmd n x).mem = s.mem := rfl
@[simp] theorem State.setCmd_memPsn (n : Nat) (x : Cmd) : (s.setCmd n x).memPsn = s.memPsn := rfl
@[simp] theorem State.setCmd_host (n : Nat) (x : Cmd) : (s.setCmd n x).host = s.host := rfl
@[simp] theorem State.setCmd_hostPsn (n : Nat) (x : Cmd) : (s.setCmd n x).hostPsn = s.hostPsn := rfl
@[simp] theorem State.setCmd_dies (n : Nat) (x : Cmd) : (s.setCmd n x).dies = s.dies := rfl
@[simp] theorem State.setCmd_links (n : Nat) (x : Cmd) : (s.setCmd n x).links = s.links := rfl
@[simp] theorem State.setCmd_routes (n : Nat) (x : Cmd) : (s.setCmd n x).routes = s.routes := rfl
@[simp] theorem State.setCmd_handed (n : Nat) (x : Cmd) : (s.setCmd n x).handed = s.handed := rfl
@[simp] theorem State.setCmd_portDown (n : Nat) (x : Cmd) : (s.setCmd n x).portDown = s.portDown := rfl
@[simp] theorem State.setCmd_powerLow (n : Nat) (x : Cmd) : (s.setCmd n x).powerLow = s.powerLow := rfl
@[simp] theorem State.setCmd_msix (n : Nat) (x : Cmd) : (s.setCmd n x).msix = s.msix := rfl
@[simp] theorem State.setCmd_copies (n : Nat) (x : Cmd) : (s.setCmd n x).copies = s.copies := rfl
@[simp] theorem State.setCmd_homes (n : Nat) (x : Cmd) : (s.setCmd n x).homes = s.homes := rfl
@[simp] theorem State.setCmd_l2Uses (n : Nat) (x : Cmd) : (s.setCmd n x).l2Uses = s.l2Uses := rfl
@[simp] theorem State.setCmd_tlb (n : Nat) (x : Cmd) : (s.setCmd n x).tlb = s.tlb := rfl
@[simp] theorem State.setCmd_walkCache (n : Nat) (x : Cmd) : (s.setCmd n x).walkCache = s.walkCache := rfl
@[simp] theorem State.setCmd_walks (n : Nat) (x : Cmd) : (s.setCmd n x).walks = s.walks := rfl
@[simp] theorem State.setCmd_faults (n : Nat) (x : Cmd) : (s.setCmd n x).faults = s.faults := rfl
@[simp] theorem State.setCmd_invals (n : Nat) (x : Cmd) : (s.setCmd n x).invals = s.invals := rfl
@[simp] theorem State.setCmd_atsHeld (n : Nat) (x : Cmd) : (s.setCmd n x).atsHeld = s.atsHeld := rfl
@[simp] theorem State.setCmd_pri (n : Nat) (x : Cmd) : (s.setCmd n x).pri = s.pri := rfl
@[simp] theorem State.setCmd_attr (n : Nat) (x : Cmd) : (s.setCmd n x).attr = s.attr := rfl
@[simp] theorem State.setCmd_collisions (n : Nat) (x : Cmd) : (s.setCmd n x).collisions = s.collisions := rfl
@[simp] theorem State.setCmd_drains (n : Nat) (x : Cmd) : (s.setCmd n x).drains = s.drains := rfl
@[simp] theorem State.setCmd_overflows (n : Nat) (x : Cmd) : (s.setCmd n x).overflows = s.overflows := rfl
@[simp] theorem State.setCmd_txlanes (n : Nat) (x : Cmd) : (s.setCmd n x).txlanes = s.txlanes := rfl
@[simp] theorem State.setCmd_counters (n : Nat) (x : Cmd) : (s.setCmd n x).counters = s.counters := rfl
@[simp] theorem State.setCmd_migreqs (n : Nat) (x : Cmd) : (s.setCmd n x).migreqs = s.migreqs := rfl
@[simp] theorem State.setCmd_refls (n : Nat) (x : Cmd) : (s.setCmd n x).refls = s.refls := rfl
@[simp] theorem State.setCmd_ranges (n : Nat) (x : Cmd) : (s.setCmd n x).ranges = s.ranges := rfl
@[simp] theorem State.setCmd_rpushes (n : Nat) (x : Cmd) : (s.setCmd n x).rpushes = s.rpushes := rfl
@[simp] theorem State.setCmd_queues (n : Nat) (x : Cmd) : (s.setCmd n x).queues = s.queues := rfl
@[simp] theorem State.setCmd_hrings (n : Nat) (x : Cmd) : (s.setCmd n x).hrings = s.hrings := rfl
@[simp] theorem State.setCmd_graphs (n : Nat) (x : Cmd) : (s.setCmd n x).graphs = s.graphs := rfl
@[simp] theorem State.setCmd_images (n : Nat) (x : Cmd) : (s.setCmd n x).images = s.images := rfl
@[simp] theorem State.setCmd_mwork (n : Nat) (x : Cmd) : (s.setCmd n x).mwork = s.mwork := rfl
@[simp] theorem State.setCmd_scales (n : Nat) (x : Cmd) : (s.setCmd n x).scales = s.scales := rfl
@[simp] theorem State.setCmd_savedScales (n : Nat) (x : Cmd) : (s.setCmd n x).savedScales = s.savedScales := rfl
@[simp] theorem State.setCmd_lastQueue (n : Nat) (x : Cmd) : (s.setCmd n x).lastQueue = s.lastQueue := rfl

@[simp] theorem State.setRange_part (x : WRange) : (s.setRange x).part = s.part := rfl
@[simp] theorem State.setRange_now (x : WRange) : (s.setRange x).now = s.now := rfl
@[simp] theorem State.setRange_turn (x : WRange) : (s.setRange x).turn = s.turn := rfl
@[simp] theorem State.setRange_free (x : WRange) : (s.setRange x).free = s.free := rfl
@[simp] theorem State.setRange_nextId (x : WRange) : (s.setRange x).nextId = s.nextId := rfl
@[simp] theorem State.setRange_inputs (x : WRange) : (s.setRange x).inputs = s.inputs := rfl
@[simp] theorem State.setRange_cur (x : WRange) : (s.setRange x).cur = s.cur := rfl
@[simp] theorem State.setRange_signal (x : WRange) : (s.setRange x).signal = s.signal := rfl
@[simp] theorem State.setRange_cores (x : WRange) : (s.setRange x).cores = s.cores := rfl
@[simp] theorem State.setRange_groups (x : WRange) : (s.setRange x).groups = s.groups := rfl
@[simp] theorem State.setRange_teams (x : WRange) : (s.setRange x).teams = s.teams := rfl
@[simp] theorem State.setRange_clusters (x : WRange) : (s.setRange x).clusters = s.clusters := rfl
@[simp] theorem State.setRange_kernels (x : WRange) : (s.setRange x).kernels = s.kernels := rfl
@[simp] theorem State.setRange_ctxs (x : WRange) : (s.setRange x).ctxs = s.ctxs := rfl
@[simp] theorem State.setRange_loans (x : WRange) : (s.setRange x).loans = s.loans := rfl
@[simp] theorem State.setRange_spad (x : WRange) : (s.setRange x).spad = s.spad := rfl
@[simp] theorem State.setRange_engines (x : WRange) : (s.setRange x).engines = s.engines := rfl
@[simp] theorem State.setRange_inflight (x : WRange) : (s.setRange x).inflight = s.inflight := rfl
@[simp] theorem State.setRange_cmds (x : WRange) : (s.setRange x).cmds = s.cmds := rfl
@[simp] theorem State.setRange_buckets (x : WRange) : (s.setRange x).buckets = s.buckets := rfl
@[simp] theorem State.setRange_errlog (x : WRange) : (s.setRange x).errlog = s.errlog := rfl
@[simp] theorem State.setRange_dl (x : WRange) : (s.setRange x).dl = s.dl := rfl
@[simp] theorem State.setRange_mem (x : WRange) : (s.setRange x).mem = s.mem := rfl
@[simp] theorem State.setRange_memPsn (x : WRange) : (s.setRange x).memPsn = s.memPsn := rfl
@[simp] theorem State.setRange_host (x : WRange) : (s.setRange x).host = s.host := rfl
@[simp] theorem State.setRange_hostPsn (x : WRange) : (s.setRange x).hostPsn = s.hostPsn := rfl
@[simp] theorem State.setRange_dies (x : WRange) : (s.setRange x).dies = s.dies := rfl
@[simp] theorem State.setRange_links (x : WRange) : (s.setRange x).links = s.links := rfl
@[simp] theorem State.setRange_routes (x : WRange) : (s.setRange x).routes = s.routes := rfl
@[simp] theorem State.setRange_handed (x : WRange) : (s.setRange x).handed = s.handed := rfl
@[simp] theorem State.setRange_portDown (x : WRange) : (s.setRange x).portDown = s.portDown := rfl
@[simp] theorem State.setRange_powerLow (x : WRange) : (s.setRange x).powerLow = s.powerLow := rfl
@[simp] theorem State.setRange_msix (x : WRange) : (s.setRange x).msix = s.msix := rfl
@[simp] theorem State.setRange_copies (x : WRange) : (s.setRange x).copies = s.copies := rfl
@[simp] theorem State.setRange_homes (x : WRange) : (s.setRange x).homes = s.homes := rfl
@[simp] theorem State.setRange_l2Uses (x : WRange) : (s.setRange x).l2Uses = s.l2Uses := rfl
@[simp] theorem State.setRange_tlb (x : WRange) : (s.setRange x).tlb = s.tlb := rfl
@[simp] theorem State.setRange_walkCache (x : WRange) : (s.setRange x).walkCache = s.walkCache := rfl
@[simp] theorem State.setRange_walks (x : WRange) : (s.setRange x).walks = s.walks := rfl
@[simp] theorem State.setRange_faults (x : WRange) : (s.setRange x).faults = s.faults := rfl
@[simp] theorem State.setRange_invals (x : WRange) : (s.setRange x).invals = s.invals := rfl
@[simp] theorem State.setRange_atsHeld (x : WRange) : (s.setRange x).atsHeld = s.atsHeld := rfl
@[simp] theorem State.setRange_pri (x : WRange) : (s.setRange x).pri = s.pri := rfl
@[simp] theorem State.setRange_attr (x : WRange) : (s.setRange x).attr = s.attr := rfl
@[simp] theorem State.setRange_collisions (x : WRange) : (s.setRange x).collisions = s.collisions := rfl
@[simp] theorem State.setRange_drains (x : WRange) : (s.setRange x).drains = s.drains := rfl
@[simp] theorem State.setRange_overflows (x : WRange) : (s.setRange x).overflows = s.overflows := rfl
@[simp] theorem State.setRange_txlanes (x : WRange) : (s.setRange x).txlanes = s.txlanes := rfl
@[simp] theorem State.setRange_counters (x : WRange) : (s.setRange x).counters = s.counters := rfl
@[simp] theorem State.setRange_migreqs (x : WRange) : (s.setRange x).migreqs = s.migreqs := rfl
@[simp] theorem State.setRange_refls (x : WRange) : (s.setRange x).refls = s.refls := rfl
@[simp] theorem State.setRange_rpushes (x : WRange) : (s.setRange x).rpushes = s.rpushes := rfl
@[simp] theorem State.setRange_queues (x : WRange) : (s.setRange x).queues = s.queues := rfl
@[simp] theorem State.setRange_hrings (x : WRange) : (s.setRange x).hrings = s.hrings := rfl
@[simp] theorem State.setRange_graphs (x : WRange) : (s.setRange x).graphs = s.graphs := rfl
@[simp] theorem State.setRange_images (x : WRange) : (s.setRange x).images = s.images := rfl
@[simp] theorem State.setRange_mwork (x : WRange) : (s.setRange x).mwork = s.mwork := rfl
@[simp] theorem State.setRange_scales (x : WRange) : (s.setRange x).scales = s.scales := rfl
@[simp] theorem State.setRange_savedScales (x : WRange) : (s.setRange x).savedScales = s.savedScales := rfl
@[simp] theorem State.setRange_lastQueue (x : WRange) : (s.setRange x).lastQueue = s.lastQueue := rfl

@[simp] theorem State.setLane_part (n : Nat) (x : TxLane) : (s.setLane n x).part = s.part := rfl
@[simp] theorem State.setLane_now (n : Nat) (x : TxLane) : (s.setLane n x).now = s.now := rfl
@[simp] theorem State.setLane_turn (n : Nat) (x : TxLane) : (s.setLane n x).turn = s.turn := rfl
@[simp] theorem State.setLane_free (n : Nat) (x : TxLane) : (s.setLane n x).free = s.free := rfl
@[simp] theorem State.setLane_nextId (n : Nat) (x : TxLane) : (s.setLane n x).nextId = s.nextId := rfl
@[simp] theorem State.setLane_inputs (n : Nat) (x : TxLane) : (s.setLane n x).inputs = s.inputs := rfl
@[simp] theorem State.setLane_cur (n : Nat) (x : TxLane) : (s.setLane n x).cur = s.cur := rfl
@[simp] theorem State.setLane_signal (n : Nat) (x : TxLane) : (s.setLane n x).signal = s.signal := rfl
@[simp] theorem State.setLane_cores (n : Nat) (x : TxLane) : (s.setLane n x).cores = s.cores := rfl
@[simp] theorem State.setLane_groups (n : Nat) (x : TxLane) : (s.setLane n x).groups = s.groups := rfl
@[simp] theorem State.setLane_teams (n : Nat) (x : TxLane) : (s.setLane n x).teams = s.teams := rfl
@[simp] theorem State.setLane_clusters (n : Nat) (x : TxLane) : (s.setLane n x).clusters = s.clusters := rfl
@[simp] theorem State.setLane_kernels (n : Nat) (x : TxLane) : (s.setLane n x).kernels = s.kernels := rfl
@[simp] theorem State.setLane_ctxs (n : Nat) (x : TxLane) : (s.setLane n x).ctxs = s.ctxs := rfl
@[simp] theorem State.setLane_loans (n : Nat) (x : TxLane) : (s.setLane n x).loans = s.loans := rfl
@[simp] theorem State.setLane_spad (n : Nat) (x : TxLane) : (s.setLane n x).spad = s.spad := rfl
@[simp] theorem State.setLane_engines (n : Nat) (x : TxLane) : (s.setLane n x).engines = s.engines := rfl
@[simp] theorem State.setLane_inflight (n : Nat) (x : TxLane) : (s.setLane n x).inflight = s.inflight := rfl
@[simp] theorem State.setLane_cmds (n : Nat) (x : TxLane) : (s.setLane n x).cmds = s.cmds := rfl
@[simp] theorem State.setLane_buckets (n : Nat) (x : TxLane) : (s.setLane n x).buckets = s.buckets := rfl
@[simp] theorem State.setLane_errlog (n : Nat) (x : TxLane) : (s.setLane n x).errlog = s.errlog := rfl
@[simp] theorem State.setLane_dl (n : Nat) (x : TxLane) : (s.setLane n x).dl = s.dl := rfl
@[simp] theorem State.setLane_mem (n : Nat) (x : TxLane) : (s.setLane n x).mem = s.mem := rfl
@[simp] theorem State.setLane_memPsn (n : Nat) (x : TxLane) : (s.setLane n x).memPsn = s.memPsn := rfl
@[simp] theorem State.setLane_host (n : Nat) (x : TxLane) : (s.setLane n x).host = s.host := rfl
@[simp] theorem State.setLane_hostPsn (n : Nat) (x : TxLane) : (s.setLane n x).hostPsn = s.hostPsn := rfl
@[simp] theorem State.setLane_dies (n : Nat) (x : TxLane) : (s.setLane n x).dies = s.dies := rfl
@[simp] theorem State.setLane_links (n : Nat) (x : TxLane) : (s.setLane n x).links = s.links := rfl
@[simp] theorem State.setLane_routes (n : Nat) (x : TxLane) : (s.setLane n x).routes = s.routes := rfl
@[simp] theorem State.setLane_handed (n : Nat) (x : TxLane) : (s.setLane n x).handed = s.handed := rfl
@[simp] theorem State.setLane_portDown (n : Nat) (x : TxLane) : (s.setLane n x).portDown = s.portDown := rfl
@[simp] theorem State.setLane_powerLow (n : Nat) (x : TxLane) : (s.setLane n x).powerLow = s.powerLow := rfl
@[simp] theorem State.setLane_msix (n : Nat) (x : TxLane) : (s.setLane n x).msix = s.msix := rfl
@[simp] theorem State.setLane_copies (n : Nat) (x : TxLane) : (s.setLane n x).copies = s.copies := rfl
@[simp] theorem State.setLane_homes (n : Nat) (x : TxLane) : (s.setLane n x).homes = s.homes := rfl
@[simp] theorem State.setLane_l2Uses (n : Nat) (x : TxLane) : (s.setLane n x).l2Uses = s.l2Uses := rfl
@[simp] theorem State.setLane_tlb (n : Nat) (x : TxLane) : (s.setLane n x).tlb = s.tlb := rfl
@[simp] theorem State.setLane_walkCache (n : Nat) (x : TxLane) : (s.setLane n x).walkCache = s.walkCache := rfl
@[simp] theorem State.setLane_walks (n : Nat) (x : TxLane) : (s.setLane n x).walks = s.walks := rfl
@[simp] theorem State.setLane_faults (n : Nat) (x : TxLane) : (s.setLane n x).faults = s.faults := rfl
@[simp] theorem State.setLane_invals (n : Nat) (x : TxLane) : (s.setLane n x).invals = s.invals := rfl
@[simp] theorem State.setLane_atsHeld (n : Nat) (x : TxLane) : (s.setLane n x).atsHeld = s.atsHeld := rfl
@[simp] theorem State.setLane_pri (n : Nat) (x : TxLane) : (s.setLane n x).pri = s.pri := rfl
@[simp] theorem State.setLane_attr (n : Nat) (x : TxLane) : (s.setLane n x).attr = s.attr := rfl
@[simp] theorem State.setLane_collisions (n : Nat) (x : TxLane) : (s.setLane n x).collisions = s.collisions := rfl
@[simp] theorem State.setLane_drains (n : Nat) (x : TxLane) : (s.setLane n x).drains = s.drains := rfl
@[simp] theorem State.setLane_overflows (n : Nat) (x : TxLane) : (s.setLane n x).overflows = s.overflows := rfl
@[simp] theorem State.setLane_counters (n : Nat) (x : TxLane) : (s.setLane n x).counters = s.counters := rfl
@[simp] theorem State.setLane_migreqs (n : Nat) (x : TxLane) : (s.setLane n x).migreqs = s.migreqs := rfl
@[simp] theorem State.setLane_refls (n : Nat) (x : TxLane) : (s.setLane n x).refls = s.refls := rfl
@[simp] theorem State.setLane_ranges (n : Nat) (x : TxLane) : (s.setLane n x).ranges = s.ranges := rfl
@[simp] theorem State.setLane_rpushes (n : Nat) (x : TxLane) : (s.setLane n x).rpushes = s.rpushes := rfl
@[simp] theorem State.setLane_queues (n : Nat) (x : TxLane) : (s.setLane n x).queues = s.queues := rfl
@[simp] theorem State.setLane_hrings (n : Nat) (x : TxLane) : (s.setLane n x).hrings = s.hrings := rfl
@[simp] theorem State.setLane_graphs (n : Nat) (x : TxLane) : (s.setLane n x).graphs = s.graphs := rfl
@[simp] theorem State.setLane_images (n : Nat) (x : TxLane) : (s.setLane n x).images = s.images := rfl
@[simp] theorem State.setLane_mwork (n : Nat) (x : TxLane) : (s.setLane n x).mwork = s.mwork := rfl
@[simp] theorem State.setLane_scales (n : Nat) (x : TxLane) : (s.setLane n x).scales = s.scales := rfl
@[simp] theorem State.setLane_savedScales (n : Nat) (x : TxLane) : (s.setLane n x).savedScales = s.savedScales := rfl
@[simp] theorem State.setLane_lastQueue (n : Nat) (x : TxLane) : (s.setLane n x).lastQueue = s.lastQueue := rfl

@[simp] theorem State.setWorks_part (n : Nat) (x : List MWork) : (s.setWorks n x).part = s.part := rfl
@[simp] theorem State.setWorks_now (n : Nat) (x : List MWork) : (s.setWorks n x).now = s.now := rfl
@[simp] theorem State.setWorks_turn (n : Nat) (x : List MWork) : (s.setWorks n x).turn = s.turn := rfl
@[simp] theorem State.setWorks_free (n : Nat) (x : List MWork) : (s.setWorks n x).free = s.free := rfl
@[simp] theorem State.setWorks_nextId (n : Nat) (x : List MWork) : (s.setWorks n x).nextId = s.nextId := rfl
@[simp] theorem State.setWorks_inputs (n : Nat) (x : List MWork) : (s.setWorks n x).inputs = s.inputs := rfl
@[simp] theorem State.setWorks_cur (n : Nat) (x : List MWork) : (s.setWorks n x).cur = s.cur := rfl
@[simp] theorem State.setWorks_signal (n : Nat) (x : List MWork) : (s.setWorks n x).signal = s.signal := rfl
@[simp] theorem State.setWorks_cores (n : Nat) (x : List MWork) : (s.setWorks n x).cores = s.cores := rfl
@[simp] theorem State.setWorks_groups (n : Nat) (x : List MWork) : (s.setWorks n x).groups = s.groups := rfl
@[simp] theorem State.setWorks_teams (n : Nat) (x : List MWork) : (s.setWorks n x).teams = s.teams := rfl
@[simp] theorem State.setWorks_clusters (n : Nat) (x : List MWork) : (s.setWorks n x).clusters = s.clusters := rfl
@[simp] theorem State.setWorks_kernels (n : Nat) (x : List MWork) : (s.setWorks n x).kernels = s.kernels := rfl
@[simp] theorem State.setWorks_ctxs (n : Nat) (x : List MWork) : (s.setWorks n x).ctxs = s.ctxs := rfl
@[simp] theorem State.setWorks_loans (n : Nat) (x : List MWork) : (s.setWorks n x).loans = s.loans := rfl
@[simp] theorem State.setWorks_spad (n : Nat) (x : List MWork) : (s.setWorks n x).spad = s.spad := rfl
@[simp] theorem State.setWorks_engines (n : Nat) (x : List MWork) : (s.setWorks n x).engines = s.engines := rfl
@[simp] theorem State.setWorks_inflight (n : Nat) (x : List MWork) : (s.setWorks n x).inflight = s.inflight := rfl
@[simp] theorem State.setWorks_cmds (n : Nat) (x : List MWork) : (s.setWorks n x).cmds = s.cmds := rfl
@[simp] theorem State.setWorks_buckets (n : Nat) (x : List MWork) : (s.setWorks n x).buckets = s.buckets := rfl
@[simp] theorem State.setWorks_errlog (n : Nat) (x : List MWork) : (s.setWorks n x).errlog = s.errlog := rfl
@[simp] theorem State.setWorks_dl (n : Nat) (x : List MWork) : (s.setWorks n x).dl = s.dl := rfl
@[simp] theorem State.setWorks_mem (n : Nat) (x : List MWork) : (s.setWorks n x).mem = s.mem := rfl
@[simp] theorem State.setWorks_memPsn (n : Nat) (x : List MWork) : (s.setWorks n x).memPsn = s.memPsn := rfl
@[simp] theorem State.setWorks_host (n : Nat) (x : List MWork) : (s.setWorks n x).host = s.host := rfl
@[simp] theorem State.setWorks_hostPsn (n : Nat) (x : List MWork) : (s.setWorks n x).hostPsn = s.hostPsn := rfl
@[simp] theorem State.setWorks_dies (n : Nat) (x : List MWork) : (s.setWorks n x).dies = s.dies := rfl
@[simp] theorem State.setWorks_links (n : Nat) (x : List MWork) : (s.setWorks n x).links = s.links := rfl
@[simp] theorem State.setWorks_routes (n : Nat) (x : List MWork) : (s.setWorks n x).routes = s.routes := rfl
@[simp] theorem State.setWorks_handed (n : Nat) (x : List MWork) : (s.setWorks n x).handed = s.handed := rfl
@[simp] theorem State.setWorks_portDown (n : Nat) (x : List MWork) : (s.setWorks n x).portDown = s.portDown := rfl
@[simp] theorem State.setWorks_powerLow (n : Nat) (x : List MWork) : (s.setWorks n x).powerLow = s.powerLow := rfl
@[simp] theorem State.setWorks_msix (n : Nat) (x : List MWork) : (s.setWorks n x).msix = s.msix := rfl
@[simp] theorem State.setWorks_copies (n : Nat) (x : List MWork) : (s.setWorks n x).copies = s.copies := rfl
@[simp] theorem State.setWorks_homes (n : Nat) (x : List MWork) : (s.setWorks n x).homes = s.homes := rfl
@[simp] theorem State.setWorks_l2Uses (n : Nat) (x : List MWork) : (s.setWorks n x).l2Uses = s.l2Uses := rfl
@[simp] theorem State.setWorks_tlb (n : Nat) (x : List MWork) : (s.setWorks n x).tlb = s.tlb := rfl
@[simp] theorem State.setWorks_walkCache (n : Nat) (x : List MWork) : (s.setWorks n x).walkCache = s.walkCache := rfl
@[simp] theorem State.setWorks_walks (n : Nat) (x : List MWork) : (s.setWorks n x).walks = s.walks := rfl
@[simp] theorem State.setWorks_faults (n : Nat) (x : List MWork) : (s.setWorks n x).faults = s.faults := rfl
@[simp] theorem State.setWorks_invals (n : Nat) (x : List MWork) : (s.setWorks n x).invals = s.invals := rfl
@[simp] theorem State.setWorks_atsHeld (n : Nat) (x : List MWork) : (s.setWorks n x).atsHeld = s.atsHeld := rfl
@[simp] theorem State.setWorks_pri (n : Nat) (x : List MWork) : (s.setWorks n x).pri = s.pri := rfl
@[simp] theorem State.setWorks_attr (n : Nat) (x : List MWork) : (s.setWorks n x).attr = s.attr := rfl
@[simp] theorem State.setWorks_collisions (n : Nat) (x : List MWork) : (s.setWorks n x).collisions = s.collisions := rfl
@[simp] theorem State.setWorks_drains (n : Nat) (x : List MWork) : (s.setWorks n x).drains = s.drains := rfl
@[simp] theorem State.setWorks_overflows (n : Nat) (x : List MWork) : (s.setWorks n x).overflows = s.overflows := rfl
@[simp] theorem State.setWorks_txlanes (n : Nat) (x : List MWork) : (s.setWorks n x).txlanes = s.txlanes := rfl
@[simp] theorem State.setWorks_counters (n : Nat) (x : List MWork) : (s.setWorks n x).counters = s.counters := rfl
@[simp] theorem State.setWorks_migreqs (n : Nat) (x : List MWork) : (s.setWorks n x).migreqs = s.migreqs := rfl
@[simp] theorem State.setWorks_refls (n : Nat) (x : List MWork) : (s.setWorks n x).refls = s.refls := rfl
@[simp] theorem State.setWorks_ranges (n : Nat) (x : List MWork) : (s.setWorks n x).ranges = s.ranges := rfl
@[simp] theorem State.setWorks_rpushes (n : Nat) (x : List MWork) : (s.setWorks n x).rpushes = s.rpushes := rfl
@[simp] theorem State.setWorks_queues (n : Nat) (x : List MWork) : (s.setWorks n x).queues = s.queues := rfl
@[simp] theorem State.setWorks_hrings (n : Nat) (x : List MWork) : (s.setWorks n x).hrings = s.hrings := rfl
@[simp] theorem State.setWorks_graphs (n : Nat) (x : List MWork) : (s.setWorks n x).graphs = s.graphs := rfl
@[simp] theorem State.setWorks_images (n : Nat) (x : List MWork) : (s.setWorks n x).images = s.images := rfl
@[simp] theorem State.setWorks_scales (n : Nat) (x : List MWork) : (s.setWorks n x).scales = s.scales := rfl
@[simp] theorem State.setWorks_savedScales (n : Nat) (x : List MWork) : (s.setWorks n x).savedScales = s.savedScales := rfl
@[simp] theorem State.setWorks_lastQueue (n : Nat) (x : List MWork) : (s.setWorks n x).lastQueue = s.lastQueue := rfl

@[simp] theorem State.setScaleMem_part (n : Nat) (x : ScaleMem) : (s.setScaleMem n x).part = s.part := rfl
@[simp] theorem State.setScaleMem_now (n : Nat) (x : ScaleMem) : (s.setScaleMem n x).now = s.now := rfl
@[simp] theorem State.setScaleMem_turn (n : Nat) (x : ScaleMem) : (s.setScaleMem n x).turn = s.turn := rfl
@[simp] theorem State.setScaleMem_free (n : Nat) (x : ScaleMem) : (s.setScaleMem n x).free = s.free := rfl
@[simp] theorem State.setScaleMem_nextId (n : Nat) (x : ScaleMem) : (s.setScaleMem n x).nextId = s.nextId := rfl
@[simp] theorem State.setScaleMem_inputs (n : Nat) (x : ScaleMem) : (s.setScaleMem n x).inputs = s.inputs := rfl
@[simp] theorem State.setScaleMem_cur (n : Nat) (x : ScaleMem) : (s.setScaleMem n x).cur = s.cur := rfl
@[simp] theorem State.setScaleMem_signal (n : Nat) (x : ScaleMem) : (s.setScaleMem n x).signal = s.signal := rfl
@[simp] theorem State.setScaleMem_cores (n : Nat) (x : ScaleMem) : (s.setScaleMem n x).cores = s.cores := rfl
@[simp] theorem State.setScaleMem_groups (n : Nat) (x : ScaleMem) : (s.setScaleMem n x).groups = s.groups := rfl
@[simp] theorem State.setScaleMem_teams (n : Nat) (x : ScaleMem) : (s.setScaleMem n x).teams = s.teams := rfl
@[simp] theorem State.setScaleMem_clusters (n : Nat) (x : ScaleMem) : (s.setScaleMem n x).clusters = s.clusters := rfl
@[simp] theorem State.setScaleMem_kernels (n : Nat) (x : ScaleMem) : (s.setScaleMem n x).kernels = s.kernels := rfl
@[simp] theorem State.setScaleMem_ctxs (n : Nat) (x : ScaleMem) : (s.setScaleMem n x).ctxs = s.ctxs := rfl
@[simp] theorem State.setScaleMem_loans (n : Nat) (x : ScaleMem) : (s.setScaleMem n x).loans = s.loans := rfl
@[simp] theorem State.setScaleMem_spad (n : Nat) (x : ScaleMem) : (s.setScaleMem n x).spad = s.spad := rfl
@[simp] theorem State.setScaleMem_engines (n : Nat) (x : ScaleMem) : (s.setScaleMem n x).engines = s.engines := rfl
@[simp] theorem State.setScaleMem_inflight (n : Nat) (x : ScaleMem) : (s.setScaleMem n x).inflight = s.inflight := rfl
@[simp] theorem State.setScaleMem_cmds (n : Nat) (x : ScaleMem) : (s.setScaleMem n x).cmds = s.cmds := rfl
@[simp] theorem State.setScaleMem_buckets (n : Nat) (x : ScaleMem) : (s.setScaleMem n x).buckets = s.buckets := rfl
@[simp] theorem State.setScaleMem_errlog (n : Nat) (x : ScaleMem) : (s.setScaleMem n x).errlog = s.errlog := rfl
@[simp] theorem State.setScaleMem_dl (n : Nat) (x : ScaleMem) : (s.setScaleMem n x).dl = s.dl := rfl
@[simp] theorem State.setScaleMem_mem (n : Nat) (x : ScaleMem) : (s.setScaleMem n x).mem = s.mem := rfl
@[simp] theorem State.setScaleMem_memPsn (n : Nat) (x : ScaleMem) : (s.setScaleMem n x).memPsn = s.memPsn := rfl
@[simp] theorem State.setScaleMem_host (n : Nat) (x : ScaleMem) : (s.setScaleMem n x).host = s.host := rfl
@[simp] theorem State.setScaleMem_hostPsn (n : Nat) (x : ScaleMem) : (s.setScaleMem n x).hostPsn = s.hostPsn := rfl
@[simp] theorem State.setScaleMem_dies (n : Nat) (x : ScaleMem) : (s.setScaleMem n x).dies = s.dies := rfl
@[simp] theorem State.setScaleMem_links (n : Nat) (x : ScaleMem) : (s.setScaleMem n x).links = s.links := rfl
@[simp] theorem State.setScaleMem_routes (n : Nat) (x : ScaleMem) : (s.setScaleMem n x).routes = s.routes := rfl
@[simp] theorem State.setScaleMem_handed (n : Nat) (x : ScaleMem) : (s.setScaleMem n x).handed = s.handed := rfl
@[simp] theorem State.setScaleMem_portDown (n : Nat) (x : ScaleMem) : (s.setScaleMem n x).portDown = s.portDown := rfl
@[simp] theorem State.setScaleMem_powerLow (n : Nat) (x : ScaleMem) : (s.setScaleMem n x).powerLow = s.powerLow := rfl
@[simp] theorem State.setScaleMem_msix (n : Nat) (x : ScaleMem) : (s.setScaleMem n x).msix = s.msix := rfl
@[simp] theorem State.setScaleMem_copies (n : Nat) (x : ScaleMem) : (s.setScaleMem n x).copies = s.copies := rfl
@[simp] theorem State.setScaleMem_homes (n : Nat) (x : ScaleMem) : (s.setScaleMem n x).homes = s.homes := rfl
@[simp] theorem State.setScaleMem_l2Uses (n : Nat) (x : ScaleMem) : (s.setScaleMem n x).l2Uses = s.l2Uses := rfl
@[simp] theorem State.setScaleMem_tlb (n : Nat) (x : ScaleMem) : (s.setScaleMem n x).tlb = s.tlb := rfl
@[simp] theorem State.setScaleMem_walkCache (n : Nat) (x : ScaleMem) : (s.setScaleMem n x).walkCache = s.walkCache := rfl
@[simp] theorem State.setScaleMem_walks (n : Nat) (x : ScaleMem) : (s.setScaleMem n x).walks = s.walks := rfl
@[simp] theorem State.setScaleMem_faults (n : Nat) (x : ScaleMem) : (s.setScaleMem n x).faults = s.faults := rfl
@[simp] theorem State.setScaleMem_invals (n : Nat) (x : ScaleMem) : (s.setScaleMem n x).invals = s.invals := rfl
@[simp] theorem State.setScaleMem_atsHeld (n : Nat) (x : ScaleMem) : (s.setScaleMem n x).atsHeld = s.atsHeld := rfl
@[simp] theorem State.setScaleMem_pri (n : Nat) (x : ScaleMem) : (s.setScaleMem n x).pri = s.pri := rfl
@[simp] theorem State.setScaleMem_attr (n : Nat) (x : ScaleMem) : (s.setScaleMem n x).attr = s.attr := rfl
@[simp] theorem State.setScaleMem_collisions (n : Nat) (x : ScaleMem) : (s.setScaleMem n x).collisions = s.collisions := rfl
@[simp] theorem State.setScaleMem_drains (n : Nat) (x : ScaleMem) : (s.setScaleMem n x).drains = s.drains := rfl
@[simp] theorem State.setScaleMem_overflows (n : Nat) (x : ScaleMem) : (s.setScaleMem n x).overflows = s.overflows := rfl
@[simp] theorem State.setScaleMem_txlanes (n : Nat) (x : ScaleMem) : (s.setScaleMem n x).txlanes = s.txlanes := rfl
@[simp] theorem State.setScaleMem_counters (n : Nat) (x : ScaleMem) : (s.setScaleMem n x).counters = s.counters := rfl
@[simp] theorem State.setScaleMem_migreqs (n : Nat) (x : ScaleMem) : (s.setScaleMem n x).migreqs = s.migreqs := rfl
@[simp] theorem State.setScaleMem_refls (n : Nat) (x : ScaleMem) : (s.setScaleMem n x).refls = s.refls := rfl
@[simp] theorem State.setScaleMem_ranges (n : Nat) (x : ScaleMem) : (s.setScaleMem n x).ranges = s.ranges := rfl
@[simp] theorem State.setScaleMem_rpushes (n : Nat) (x : ScaleMem) : (s.setScaleMem n x).rpushes = s.rpushes := rfl
@[simp] theorem State.setScaleMem_queues (n : Nat) (x : ScaleMem) : (s.setScaleMem n x).queues = s.queues := rfl
@[simp] theorem State.setScaleMem_hrings (n : Nat) (x : ScaleMem) : (s.setScaleMem n x).hrings = s.hrings := rfl
@[simp] theorem State.setScaleMem_graphs (n : Nat) (x : ScaleMem) : (s.setScaleMem n x).graphs = s.graphs := rfl
@[simp] theorem State.setScaleMem_images (n : Nat) (x : ScaleMem) : (s.setScaleMem n x).images = s.images := rfl
@[simp] theorem State.setScaleMem_mwork (n : Nat) (x : ScaleMem) : (s.setScaleMem n x).mwork = s.mwork := rfl
@[simp] theorem State.setScaleMem_savedScales (n : Nat) (x : ScaleMem) : (s.setScaleMem n x).savedScales = s.savedScales := rfl
@[simp] theorem State.setScaleMem_lastQueue (n : Nat) (x : ScaleMem) : (s.setScaleMem n x).lastQueue = s.lastQueue := rfl

@[simp] theorem State.modRefl_part (n : Nat) (f : Refl → Refl) : (s.modRefl n f).part = s.part := rfl
@[simp] theorem State.modRefl_now (n : Nat) (f : Refl → Refl) : (s.modRefl n f).now = s.now := rfl
@[simp] theorem State.modRefl_turn (n : Nat) (f : Refl → Refl) : (s.modRefl n f).turn = s.turn := rfl
@[simp] theorem State.modRefl_free (n : Nat) (f : Refl → Refl) : (s.modRefl n f).free = s.free := rfl
@[simp] theorem State.modRefl_nextId (n : Nat) (f : Refl → Refl) : (s.modRefl n f).nextId = s.nextId := rfl
@[simp] theorem State.modRefl_inputs (n : Nat) (f : Refl → Refl) : (s.modRefl n f).inputs = s.inputs := rfl
@[simp] theorem State.modRefl_cur (n : Nat) (f : Refl → Refl) : (s.modRefl n f).cur = s.cur := rfl
@[simp] theorem State.modRefl_signal (n : Nat) (f : Refl → Refl) : (s.modRefl n f).signal = s.signal := rfl
@[simp] theorem State.modRefl_cores (n : Nat) (f : Refl → Refl) : (s.modRefl n f).cores = s.cores := rfl
@[simp] theorem State.modRefl_groups (n : Nat) (f : Refl → Refl) : (s.modRefl n f).groups = s.groups := rfl
@[simp] theorem State.modRefl_teams (n : Nat) (f : Refl → Refl) : (s.modRefl n f).teams = s.teams := rfl
@[simp] theorem State.modRefl_clusters (n : Nat) (f : Refl → Refl) : (s.modRefl n f).clusters = s.clusters := rfl
@[simp] theorem State.modRefl_kernels (n : Nat) (f : Refl → Refl) : (s.modRefl n f).kernels = s.kernels := rfl
@[simp] theorem State.modRefl_ctxs (n : Nat) (f : Refl → Refl) : (s.modRefl n f).ctxs = s.ctxs := rfl
@[simp] theorem State.modRefl_loans (n : Nat) (f : Refl → Refl) : (s.modRefl n f).loans = s.loans := rfl
@[simp] theorem State.modRefl_spad (n : Nat) (f : Refl → Refl) : (s.modRefl n f).spad = s.spad := rfl
@[simp] theorem State.modRefl_engines (n : Nat) (f : Refl → Refl) : (s.modRefl n f).engines = s.engines := rfl
@[simp] theorem State.modRefl_inflight (n : Nat) (f : Refl → Refl) : (s.modRefl n f).inflight = s.inflight := rfl
@[simp] theorem State.modRefl_cmds (n : Nat) (f : Refl → Refl) : (s.modRefl n f).cmds = s.cmds := rfl
@[simp] theorem State.modRefl_buckets (n : Nat) (f : Refl → Refl) : (s.modRefl n f).buckets = s.buckets := rfl
@[simp] theorem State.modRefl_errlog (n : Nat) (f : Refl → Refl) : (s.modRefl n f).errlog = s.errlog := rfl
@[simp] theorem State.modRefl_dl (n : Nat) (f : Refl → Refl) : (s.modRefl n f).dl = s.dl := rfl
@[simp] theorem State.modRefl_mem (n : Nat) (f : Refl → Refl) : (s.modRefl n f).mem = s.mem := rfl
@[simp] theorem State.modRefl_memPsn (n : Nat) (f : Refl → Refl) : (s.modRefl n f).memPsn = s.memPsn := rfl
@[simp] theorem State.modRefl_host (n : Nat) (f : Refl → Refl) : (s.modRefl n f).host = s.host := rfl
@[simp] theorem State.modRefl_hostPsn (n : Nat) (f : Refl → Refl) : (s.modRefl n f).hostPsn = s.hostPsn := rfl
@[simp] theorem State.modRefl_dies (n : Nat) (f : Refl → Refl) : (s.modRefl n f).dies = s.dies := rfl
@[simp] theorem State.modRefl_links (n : Nat) (f : Refl → Refl) : (s.modRefl n f).links = s.links := rfl
@[simp] theorem State.modRefl_routes (n : Nat) (f : Refl → Refl) : (s.modRefl n f).routes = s.routes := rfl
@[simp] theorem State.modRefl_handed (n : Nat) (f : Refl → Refl) : (s.modRefl n f).handed = s.handed := rfl
@[simp] theorem State.modRefl_portDown (n : Nat) (f : Refl → Refl) : (s.modRefl n f).portDown = s.portDown := rfl
@[simp] theorem State.modRefl_powerLow (n : Nat) (f : Refl → Refl) : (s.modRefl n f).powerLow = s.powerLow := rfl
@[simp] theorem State.modRefl_msix (n : Nat) (f : Refl → Refl) : (s.modRefl n f).msix = s.msix := rfl
@[simp] theorem State.modRefl_copies (n : Nat) (f : Refl → Refl) : (s.modRefl n f).copies = s.copies := rfl
@[simp] theorem State.modRefl_homes (n : Nat) (f : Refl → Refl) : (s.modRefl n f).homes = s.homes := rfl
@[simp] theorem State.modRefl_l2Uses (n : Nat) (f : Refl → Refl) : (s.modRefl n f).l2Uses = s.l2Uses := rfl
@[simp] theorem State.modRefl_tlb (n : Nat) (f : Refl → Refl) : (s.modRefl n f).tlb = s.tlb := rfl
@[simp] theorem State.modRefl_walkCache (n : Nat) (f : Refl → Refl) : (s.modRefl n f).walkCache = s.walkCache := rfl
@[simp] theorem State.modRefl_walks (n : Nat) (f : Refl → Refl) : (s.modRefl n f).walks = s.walks := rfl
@[simp] theorem State.modRefl_faults (n : Nat) (f : Refl → Refl) : (s.modRefl n f).faults = s.faults := rfl
@[simp] theorem State.modRefl_invals (n : Nat) (f : Refl → Refl) : (s.modRefl n f).invals = s.invals := rfl
@[simp] theorem State.modRefl_atsHeld (n : Nat) (f : Refl → Refl) : (s.modRefl n f).atsHeld = s.atsHeld := rfl
@[simp] theorem State.modRefl_pri (n : Nat) (f : Refl → Refl) : (s.modRefl n f).pri = s.pri := rfl
@[simp] theorem State.modRefl_attr (n : Nat) (f : Refl → Refl) : (s.modRefl n f).attr = s.attr := rfl
@[simp] theorem State.modRefl_collisions (n : Nat) (f : Refl → Refl) : (s.modRefl n f).collisions = s.collisions := rfl
@[simp] theorem State.modRefl_drains (n : Nat) (f : Refl → Refl) : (s.modRefl n f).drains = s.drains := rfl
@[simp] theorem State.modRefl_overflows (n : Nat) (f : Refl → Refl) : (s.modRefl n f).overflows = s.overflows := rfl
@[simp] theorem State.modRefl_txlanes (n : Nat) (f : Refl → Refl) : (s.modRefl n f).txlanes = s.txlanes := rfl
@[simp] theorem State.modRefl_counters (n : Nat) (f : Refl → Refl) : (s.modRefl n f).counters = s.counters := rfl
@[simp] theorem State.modRefl_migreqs (n : Nat) (f : Refl → Refl) : (s.modRefl n f).migreqs = s.migreqs := rfl
@[simp] theorem State.modRefl_ranges (n : Nat) (f : Refl → Refl) : (s.modRefl n f).ranges = s.ranges := rfl
@[simp] theorem State.modRefl_rpushes (n : Nat) (f : Refl → Refl) : (s.modRefl n f).rpushes = s.rpushes := rfl
@[simp] theorem State.modRefl_queues (n : Nat) (f : Refl → Refl) : (s.modRefl n f).queues = s.queues := rfl
@[simp] theorem State.modRefl_hrings (n : Nat) (f : Refl → Refl) : (s.modRefl n f).hrings = s.hrings := rfl
@[simp] theorem State.modRefl_graphs (n : Nat) (f : Refl → Refl) : (s.modRefl n f).graphs = s.graphs := rfl
@[simp] theorem State.modRefl_images (n : Nat) (f : Refl → Refl) : (s.modRefl n f).images = s.images := rfl
@[simp] theorem State.modRefl_mwork (n : Nat) (f : Refl → Refl) : (s.modRefl n f).mwork = s.mwork := rfl
@[simp] theorem State.modRefl_scales (n : Nat) (f : Refl → Refl) : (s.modRefl n f).scales = s.scales := rfl
@[simp] theorem State.modRefl_savedScales (n : Nat) (f : Refl → Refl) : (s.modRefl n f).savedScales = s.savedScales := rfl
@[simp] theorem State.modRefl_lastQueue (n : Nat) (f : Refl → Refl) : (s.modRefl n f).lastQueue = s.lastQueue := rfl

@[simp] theorem State.setHring_part (c r : Nat) (x : HRing) : (s.setHring c r x).part = s.part := rfl
@[simp] theorem State.setHring_now (c r : Nat) (x : HRing) : (s.setHring c r x).now = s.now := rfl
@[simp] theorem State.setHring_turn (c r : Nat) (x : HRing) : (s.setHring c r x).turn = s.turn := rfl
@[simp] theorem State.setHring_free (c r : Nat) (x : HRing) : (s.setHring c r x).free = s.free := rfl
@[simp] theorem State.setHring_nextId (c r : Nat) (x : HRing) : (s.setHring c r x).nextId = s.nextId := rfl
@[simp] theorem State.setHring_inputs (c r : Nat) (x : HRing) : (s.setHring c r x).inputs = s.inputs := rfl
@[simp] theorem State.setHring_cur (c r : Nat) (x : HRing) : (s.setHring c r x).cur = s.cur := rfl
@[simp] theorem State.setHring_signal (c r : Nat) (x : HRing) : (s.setHring c r x).signal = s.signal := rfl
@[simp] theorem State.setHring_cores (c r : Nat) (x : HRing) : (s.setHring c r x).cores = s.cores := rfl
@[simp] theorem State.setHring_groups (c r : Nat) (x : HRing) : (s.setHring c r x).groups = s.groups := rfl
@[simp] theorem State.setHring_teams (c r : Nat) (x : HRing) : (s.setHring c r x).teams = s.teams := rfl
@[simp] theorem State.setHring_clusters (c r : Nat) (x : HRing) : (s.setHring c r x).clusters = s.clusters := rfl
@[simp] theorem State.setHring_kernels (c r : Nat) (x : HRing) : (s.setHring c r x).kernels = s.kernels := rfl
@[simp] theorem State.setHring_ctxs (c r : Nat) (x : HRing) : (s.setHring c r x).ctxs = s.ctxs := rfl
@[simp] theorem State.setHring_loans (c r : Nat) (x : HRing) : (s.setHring c r x).loans = s.loans := rfl
@[simp] theorem State.setHring_spad (c r : Nat) (x : HRing) : (s.setHring c r x).spad = s.spad := rfl
@[simp] theorem State.setHring_engines (c r : Nat) (x : HRing) : (s.setHring c r x).engines = s.engines := rfl
@[simp] theorem State.setHring_inflight (c r : Nat) (x : HRing) : (s.setHring c r x).inflight = s.inflight := rfl
@[simp] theorem State.setHring_cmds (c r : Nat) (x : HRing) : (s.setHring c r x).cmds = s.cmds := rfl
@[simp] theorem State.setHring_buckets (c r : Nat) (x : HRing) : (s.setHring c r x).buckets = s.buckets := rfl
@[simp] theorem State.setHring_errlog (c r : Nat) (x : HRing) : (s.setHring c r x).errlog = s.errlog := rfl
@[simp] theorem State.setHring_dl (c r : Nat) (x : HRing) : (s.setHring c r x).dl = s.dl := rfl
@[simp] theorem State.setHring_mem (c r : Nat) (x : HRing) : (s.setHring c r x).mem = s.mem := rfl
@[simp] theorem State.setHring_memPsn (c r : Nat) (x : HRing) : (s.setHring c r x).memPsn = s.memPsn := rfl
@[simp] theorem State.setHring_host (c r : Nat) (x : HRing) : (s.setHring c r x).host = s.host := rfl
@[simp] theorem State.setHring_hostPsn (c r : Nat) (x : HRing) : (s.setHring c r x).hostPsn = s.hostPsn := rfl
@[simp] theorem State.setHring_dies (c r : Nat) (x : HRing) : (s.setHring c r x).dies = s.dies := rfl
@[simp] theorem State.setHring_links (c r : Nat) (x : HRing) : (s.setHring c r x).links = s.links := rfl
@[simp] theorem State.setHring_routes (c r : Nat) (x : HRing) : (s.setHring c r x).routes = s.routes := rfl
@[simp] theorem State.setHring_handed (c r : Nat) (x : HRing) : (s.setHring c r x).handed = s.handed := rfl
@[simp] theorem State.setHring_portDown (c r : Nat) (x : HRing) : (s.setHring c r x).portDown = s.portDown := rfl
@[simp] theorem State.setHring_powerLow (c r : Nat) (x : HRing) : (s.setHring c r x).powerLow = s.powerLow := rfl
@[simp] theorem State.setHring_msix (c r : Nat) (x : HRing) : (s.setHring c r x).msix = s.msix := rfl
@[simp] theorem State.setHring_copies (c r : Nat) (x : HRing) : (s.setHring c r x).copies = s.copies := rfl
@[simp] theorem State.setHring_homes (c r : Nat) (x : HRing) : (s.setHring c r x).homes = s.homes := rfl
@[simp] theorem State.setHring_l2Uses (c r : Nat) (x : HRing) : (s.setHring c r x).l2Uses = s.l2Uses := rfl
@[simp] theorem State.setHring_tlb (c r : Nat) (x : HRing) : (s.setHring c r x).tlb = s.tlb := rfl
@[simp] theorem State.setHring_walkCache (c r : Nat) (x : HRing) : (s.setHring c r x).walkCache = s.walkCache := rfl
@[simp] theorem State.setHring_walks (c r : Nat) (x : HRing) : (s.setHring c r x).walks = s.walks := rfl
@[simp] theorem State.setHring_faults (c r : Nat) (x : HRing) : (s.setHring c r x).faults = s.faults := rfl
@[simp] theorem State.setHring_invals (c r : Nat) (x : HRing) : (s.setHring c r x).invals = s.invals := rfl
@[simp] theorem State.setHring_atsHeld (c r : Nat) (x : HRing) : (s.setHring c r x).atsHeld = s.atsHeld := rfl
@[simp] theorem State.setHring_pri (c r : Nat) (x : HRing) : (s.setHring c r x).pri = s.pri := rfl
@[simp] theorem State.setHring_attr (c r : Nat) (x : HRing) : (s.setHring c r x).attr = s.attr := rfl
@[simp] theorem State.setHring_collisions (c r : Nat) (x : HRing) : (s.setHring c r x).collisions = s.collisions := rfl
@[simp] theorem State.setHring_drains (c r : Nat) (x : HRing) : (s.setHring c r x).drains = s.drains := rfl
@[simp] theorem State.setHring_overflows (c r : Nat) (x : HRing) : (s.setHring c r x).overflows = s.overflows := rfl
@[simp] theorem State.setHring_txlanes (c r : Nat) (x : HRing) : (s.setHring c r x).txlanes = s.txlanes := rfl
@[simp] theorem State.setHring_counters (c r : Nat) (x : HRing) : (s.setHring c r x).counters = s.counters := rfl
@[simp] theorem State.setHring_migreqs (c r : Nat) (x : HRing) : (s.setHring c r x).migreqs = s.migreqs := rfl
@[simp] theorem State.setHring_refls (c r : Nat) (x : HRing) : (s.setHring c r x).refls = s.refls := rfl
@[simp] theorem State.setHring_ranges (c r : Nat) (x : HRing) : (s.setHring c r x).ranges = s.ranges := rfl
@[simp] theorem State.setHring_rpushes (c r : Nat) (x : HRing) : (s.setHring c r x).rpushes = s.rpushes := rfl
@[simp] theorem State.setHring_queues (c r : Nat) (x : HRing) : (s.setHring c r x).queues = s.queues := rfl
@[simp] theorem State.setHring_graphs (c r : Nat) (x : HRing) : (s.setHring c r x).graphs = s.graphs := rfl
@[simp] theorem State.setHring_images (c r : Nat) (x : HRing) : (s.setHring c r x).images = s.images := rfl
@[simp] theorem State.setHring_mwork (c r : Nat) (x : HRing) : (s.setHring c r x).mwork = s.mwork := rfl
@[simp] theorem State.setHring_scales (c r : Nat) (x : HRing) : (s.setHring c r x).scales = s.scales := rfl
@[simp] theorem State.setHring_savedScales (c r : Nat) (x : HRing) : (s.setHring c r x).savedScales = s.savedScales := rfl
@[simp] theorem State.setHring_lastQueue (c r : Nat) (x : HRing) : (s.setHring c r x).lastQueue = s.lastQueue := rfl

@[simp] theorem State.setAttr_part (k m n a : Nat) : (s.setAttr k m n a).part = s.part := rfl
@[simp] theorem State.setAttr_now (k m n a : Nat) : (s.setAttr k m n a).now = s.now := rfl
@[simp] theorem State.setAttr_turn (k m n a : Nat) : (s.setAttr k m n a).turn = s.turn := rfl
@[simp] theorem State.setAttr_free (k m n a : Nat) : (s.setAttr k m n a).free = s.free := rfl
@[simp] theorem State.setAttr_nextId (k m n a : Nat) : (s.setAttr k m n a).nextId = s.nextId := rfl
@[simp] theorem State.setAttr_inputs (k m n a : Nat) : (s.setAttr k m n a).inputs = s.inputs := rfl
@[simp] theorem State.setAttr_cur (k m n a : Nat) : (s.setAttr k m n a).cur = s.cur := rfl
@[simp] theorem State.setAttr_signal (k m n a : Nat) : (s.setAttr k m n a).signal = s.signal := rfl
@[simp] theorem State.setAttr_cores (k m n a : Nat) : (s.setAttr k m n a).cores = s.cores := rfl
@[simp] theorem State.setAttr_groups (k m n a : Nat) : (s.setAttr k m n a).groups = s.groups := rfl
@[simp] theorem State.setAttr_teams (k m n a : Nat) : (s.setAttr k m n a).teams = s.teams := rfl
@[simp] theorem State.setAttr_clusters (k m n a : Nat) : (s.setAttr k m n a).clusters = s.clusters := rfl
@[simp] theorem State.setAttr_kernels (k m n a : Nat) : (s.setAttr k m n a).kernels = s.kernels := rfl
@[simp] theorem State.setAttr_ctxs (k m n a : Nat) : (s.setAttr k m n a).ctxs = s.ctxs := rfl
@[simp] theorem State.setAttr_loans (k m n a : Nat) : (s.setAttr k m n a).loans = s.loans := rfl
@[simp] theorem State.setAttr_spad (k m n a : Nat) : (s.setAttr k m n a).spad = s.spad := rfl
@[simp] theorem State.setAttr_engines (k m n a : Nat) : (s.setAttr k m n a).engines = s.engines := rfl
@[simp] theorem State.setAttr_inflight (k m n a : Nat) : (s.setAttr k m n a).inflight = s.inflight := rfl
@[simp] theorem State.setAttr_cmds (k m n a : Nat) : (s.setAttr k m n a).cmds = s.cmds := rfl
@[simp] theorem State.setAttr_buckets (k m n a : Nat) : (s.setAttr k m n a).buckets = s.buckets := rfl
@[simp] theorem State.setAttr_errlog (k m n a : Nat) : (s.setAttr k m n a).errlog = s.errlog := rfl
@[simp] theorem State.setAttr_dl (k m n a : Nat) : (s.setAttr k m n a).dl = s.dl := rfl
@[simp] theorem State.setAttr_mem (k m n a : Nat) : (s.setAttr k m n a).mem = s.mem := rfl
@[simp] theorem State.setAttr_memPsn (k m n a : Nat) : (s.setAttr k m n a).memPsn = s.memPsn := rfl
@[simp] theorem State.setAttr_host (k m n a : Nat) : (s.setAttr k m n a).host = s.host := rfl
@[simp] theorem State.setAttr_hostPsn (k m n a : Nat) : (s.setAttr k m n a).hostPsn = s.hostPsn := rfl
@[simp] theorem State.setAttr_dies (k m n a : Nat) : (s.setAttr k m n a).dies = s.dies := rfl
@[simp] theorem State.setAttr_links (k m n a : Nat) : (s.setAttr k m n a).links = s.links := rfl
@[simp] theorem State.setAttr_routes (k m n a : Nat) : (s.setAttr k m n a).routes = s.routes := rfl
@[simp] theorem State.setAttr_handed (k m n a : Nat) : (s.setAttr k m n a).handed = s.handed := rfl
@[simp] theorem State.setAttr_portDown (k m n a : Nat) : (s.setAttr k m n a).portDown = s.portDown := rfl
@[simp] theorem State.setAttr_powerLow (k m n a : Nat) : (s.setAttr k m n a).powerLow = s.powerLow := rfl
@[simp] theorem State.setAttr_msix (k m n a : Nat) : (s.setAttr k m n a).msix = s.msix := rfl
@[simp] theorem State.setAttr_copies (k m n a : Nat) : (s.setAttr k m n a).copies = s.copies := rfl
@[simp] theorem State.setAttr_homes (k m n a : Nat) : (s.setAttr k m n a).homes = s.homes := rfl
@[simp] theorem State.setAttr_l2Uses (k m n a : Nat) : (s.setAttr k m n a).l2Uses = s.l2Uses := rfl
@[simp] theorem State.setAttr_tlb (k m n a : Nat) : (s.setAttr k m n a).tlb = s.tlb := rfl
@[simp] theorem State.setAttr_walkCache (k m n a : Nat) : (s.setAttr k m n a).walkCache = s.walkCache := rfl
@[simp] theorem State.setAttr_walks (k m n a : Nat) : (s.setAttr k m n a).walks = s.walks := rfl
@[simp] theorem State.setAttr_faults (k m n a : Nat) : (s.setAttr k m n a).faults = s.faults := rfl
@[simp] theorem State.setAttr_invals (k m n a : Nat) : (s.setAttr k m n a).invals = s.invals := rfl
@[simp] theorem State.setAttr_atsHeld (k m n a : Nat) : (s.setAttr k m n a).atsHeld = s.atsHeld := rfl
@[simp] theorem State.setAttr_pri (k m n a : Nat) : (s.setAttr k m n a).pri = s.pri := rfl
@[simp] theorem State.setAttr_collisions (k m n a : Nat) : (s.setAttr k m n a).collisions = s.collisions := rfl
@[simp] theorem State.setAttr_drains (k m n a : Nat) : (s.setAttr k m n a).drains = s.drains := rfl
@[simp] theorem State.setAttr_overflows (k m n a : Nat) : (s.setAttr k m n a).overflows = s.overflows := rfl
@[simp] theorem State.setAttr_txlanes (k m n a : Nat) : (s.setAttr k m n a).txlanes = s.txlanes := rfl
@[simp] theorem State.setAttr_counters (k m n a : Nat) : (s.setAttr k m n a).counters = s.counters := rfl
@[simp] theorem State.setAttr_migreqs (k m n a : Nat) : (s.setAttr k m n a).migreqs = s.migreqs := rfl
@[simp] theorem State.setAttr_refls (k m n a : Nat) : (s.setAttr k m n a).refls = s.refls := rfl
@[simp] theorem State.setAttr_ranges (k m n a : Nat) : (s.setAttr k m n a).ranges = s.ranges := rfl
@[simp] theorem State.setAttr_rpushes (k m n a : Nat) : (s.setAttr k m n a).rpushes = s.rpushes := rfl
@[simp] theorem State.setAttr_queues (k m n a : Nat) : (s.setAttr k m n a).queues = s.queues := rfl
@[simp] theorem State.setAttr_hrings (k m n a : Nat) : (s.setAttr k m n a).hrings = s.hrings := rfl
@[simp] theorem State.setAttr_graphs (k m n a : Nat) : (s.setAttr k m n a).graphs = s.graphs := rfl
@[simp] theorem State.setAttr_images (k m n a : Nat) : (s.setAttr k m n a).images = s.images := rfl
@[simp] theorem State.setAttr_mwork (k m n a : Nat) : (s.setAttr k m n a).mwork = s.mwork := rfl
@[simp] theorem State.setAttr_scales (k m n a : Nat) : (s.setAttr k m n a).scales = s.scales := rfl
@[simp] theorem State.setAttr_savedScales (k m n a : Nat) : (s.setAttr k m n a).savedScales = s.savedScales := rfl
@[simp] theorem State.setAttr_lastQueue (k m n a : Nat) : (s.setAttr k m n a).lastQueue = s.lastQueue := rfl

@[simp] theorem State.raise_part (m n : Nat) : (s.raise m n).part = s.part := rfl
@[simp] theorem State.raise_now (m n : Nat) : (s.raise m n).now = s.now := rfl
@[simp] theorem State.raise_turn (m n : Nat) : (s.raise m n).turn = s.turn := rfl
@[simp] theorem State.raise_free (m n : Nat) : (s.raise m n).free = s.free := rfl
@[simp] theorem State.raise_nextId (m n : Nat) : (s.raise m n).nextId = s.nextId := rfl
@[simp] theorem State.raise_inputs (m n : Nat) : (s.raise m n).inputs = s.inputs := rfl
@[simp] theorem State.raise_cur (m n : Nat) : (s.raise m n).cur = s.cur := rfl
@[simp] theorem State.raise_signal (m n : Nat) : (s.raise m n).signal = s.signal := rfl
@[simp] theorem State.raise_cores (m n : Nat) : (s.raise m n).cores = s.cores := rfl
@[simp] theorem State.raise_groups (m n : Nat) : (s.raise m n).groups = s.groups := rfl
@[simp] theorem State.raise_teams (m n : Nat) : (s.raise m n).teams = s.teams := rfl
@[simp] theorem State.raise_clusters (m n : Nat) : (s.raise m n).clusters = s.clusters := rfl
@[simp] theorem State.raise_kernels (m n : Nat) : (s.raise m n).kernels = s.kernels := rfl
@[simp] theorem State.raise_ctxs (m n : Nat) : (s.raise m n).ctxs = s.ctxs := rfl
@[simp] theorem State.raise_loans (m n : Nat) : (s.raise m n).loans = s.loans := rfl
@[simp] theorem State.raise_spad (m n : Nat) : (s.raise m n).spad = s.spad := rfl
@[simp] theorem State.raise_engines (m n : Nat) : (s.raise m n).engines = s.engines := rfl
@[simp] theorem State.raise_inflight (m n : Nat) : (s.raise m n).inflight = s.inflight := rfl
@[simp] theorem State.raise_cmds (m n : Nat) : (s.raise m n).cmds = s.cmds := rfl
@[simp] theorem State.raise_buckets (m n : Nat) : (s.raise m n).buckets = s.buckets := rfl
@[simp] theorem State.raise_errlog (m n : Nat) : (s.raise m n).errlog = s.errlog := rfl
@[simp] theorem State.raise_dl (m n : Nat) : (s.raise m n).dl = s.dl := rfl
@[simp] theorem State.raise_mem (m n : Nat) : (s.raise m n).mem = s.mem := rfl
@[simp] theorem State.raise_memPsn (m n : Nat) : (s.raise m n).memPsn = s.memPsn := rfl
@[simp] theorem State.raise_host (m n : Nat) : (s.raise m n).host = s.host := rfl
@[simp] theorem State.raise_hostPsn (m n : Nat) : (s.raise m n).hostPsn = s.hostPsn := rfl
@[simp] theorem State.raise_dies (m n : Nat) : (s.raise m n).dies = s.dies := rfl
@[simp] theorem State.raise_links (m n : Nat) : (s.raise m n).links = s.links := rfl
@[simp] theorem State.raise_routes (m n : Nat) : (s.raise m n).routes = s.routes := rfl
@[simp] theorem State.raise_handed (m n : Nat) : (s.raise m n).handed = s.handed := rfl
@[simp] theorem State.raise_portDown (m n : Nat) : (s.raise m n).portDown = s.portDown := rfl
@[simp] theorem State.raise_powerLow (m n : Nat) : (s.raise m n).powerLow = s.powerLow := rfl
@[simp] theorem State.raise_copies (m n : Nat) : (s.raise m n).copies = s.copies := rfl
@[simp] theorem State.raise_homes (m n : Nat) : (s.raise m n).homes = s.homes := rfl
@[simp] theorem State.raise_l2Uses (m n : Nat) : (s.raise m n).l2Uses = s.l2Uses := rfl
@[simp] theorem State.raise_tlb (m n : Nat) : (s.raise m n).tlb = s.tlb := rfl
@[simp] theorem State.raise_walkCache (m n : Nat) : (s.raise m n).walkCache = s.walkCache := rfl
@[simp] theorem State.raise_walks (m n : Nat) : (s.raise m n).walks = s.walks := rfl
@[simp] theorem State.raise_faults (m n : Nat) : (s.raise m n).faults = s.faults := rfl
@[simp] theorem State.raise_invals (m n : Nat) : (s.raise m n).invals = s.invals := rfl
@[simp] theorem State.raise_atsHeld (m n : Nat) : (s.raise m n).atsHeld = s.atsHeld := rfl
@[simp] theorem State.raise_pri (m n : Nat) : (s.raise m n).pri = s.pri := rfl
@[simp] theorem State.raise_attr (m n : Nat) : (s.raise m n).attr = s.attr := rfl
@[simp] theorem State.raise_collisions (m n : Nat) : (s.raise m n).collisions = s.collisions := rfl
@[simp] theorem State.raise_drains (m n : Nat) : (s.raise m n).drains = s.drains := rfl
@[simp] theorem State.raise_overflows (m n : Nat) : (s.raise m n).overflows = s.overflows := rfl
@[simp] theorem State.raise_txlanes (m n : Nat) : (s.raise m n).txlanes = s.txlanes := rfl
@[simp] theorem State.raise_counters (m n : Nat) : (s.raise m n).counters = s.counters := rfl
@[simp] theorem State.raise_migreqs (m n : Nat) : (s.raise m n).migreqs = s.migreqs := rfl
@[simp] theorem State.raise_refls (m n : Nat) : (s.raise m n).refls = s.refls := rfl
@[simp] theorem State.raise_ranges (m n : Nat) : (s.raise m n).ranges = s.ranges := rfl
@[simp] theorem State.raise_rpushes (m n : Nat) : (s.raise m n).rpushes = s.rpushes := rfl
@[simp] theorem State.raise_queues (m n : Nat) : (s.raise m n).queues = s.queues := rfl
@[simp] theorem State.raise_hrings (m n : Nat) : (s.raise m n).hrings = s.hrings := rfl
@[simp] theorem State.raise_graphs (m n : Nat) : (s.raise m n).graphs = s.graphs := rfl
@[simp] theorem State.raise_images (m n : Nat) : (s.raise m n).images = s.images := rfl
@[simp] theorem State.raise_mwork (m n : Nat) : (s.raise m n).mwork = s.mwork := rfl
@[simp] theorem State.raise_scales (m n : Nat) : (s.raise m n).scales = s.scales := rfl
@[simp] theorem State.raise_savedScales (m n : Nat) : (s.raise m n).savedScales = s.savedScales := rfl
@[simp] theorem State.raise_lastQueue (m n : Nat) : (s.raise m n).lastQueue = s.lastQueue := rfl

@[simp] theorem State.occupy_part (c p n : Nat) : (s.occupy c p n).part = s.part := rfl
@[simp] theorem State.occupy_now (c p n : Nat) : (s.occupy c p n).now = s.now := rfl
@[simp] theorem State.occupy_turn (c p n : Nat) : (s.occupy c p n).turn = s.turn := rfl
@[simp] theorem State.occupy_free (c p n : Nat) : (s.occupy c p n).free = s.free := rfl
@[simp] theorem State.occupy_nextId (c p n : Nat) : (s.occupy c p n).nextId = s.nextId := rfl
@[simp] theorem State.occupy_inputs (c p n : Nat) : (s.occupy c p n).inputs = s.inputs := rfl
@[simp] theorem State.occupy_cur (c p n : Nat) : (s.occupy c p n).cur = s.cur := rfl
@[simp] theorem State.occupy_signal (c p n : Nat) : (s.occupy c p n).signal = s.signal := rfl
@[simp] theorem State.occupy_groups (c p n : Nat) : (s.occupy c p n).groups = s.groups := rfl
@[simp] theorem State.occupy_teams (c p n : Nat) : (s.occupy c p n).teams = s.teams := rfl
@[simp] theorem State.occupy_clusters (c p n : Nat) : (s.occupy c p n).clusters = s.clusters := rfl
@[simp] theorem State.occupy_kernels (c p n : Nat) : (s.occupy c p n).kernels = s.kernels := rfl
@[simp] theorem State.occupy_ctxs (c p n : Nat) : (s.occupy c p n).ctxs = s.ctxs := rfl
@[simp] theorem State.occupy_loans (c p n : Nat) : (s.occupy c p n).loans = s.loans := rfl
@[simp] theorem State.occupy_spad (c p n : Nat) : (s.occupy c p n).spad = s.spad := rfl
@[simp] theorem State.occupy_engines (c p n : Nat) : (s.occupy c p n).engines = s.engines := rfl
@[simp] theorem State.occupy_inflight (c p n : Nat) : (s.occupy c p n).inflight = s.inflight := rfl
@[simp] theorem State.occupy_cmds (c p n : Nat) : (s.occupy c p n).cmds = s.cmds := rfl
@[simp] theorem State.occupy_buckets (c p n : Nat) : (s.occupy c p n).buckets = s.buckets := rfl
@[simp] theorem State.occupy_errlog (c p n : Nat) : (s.occupy c p n).errlog = s.errlog := rfl
@[simp] theorem State.occupy_dl (c p n : Nat) : (s.occupy c p n).dl = s.dl := rfl
@[simp] theorem State.occupy_mem (c p n : Nat) : (s.occupy c p n).mem = s.mem := rfl
@[simp] theorem State.occupy_memPsn (c p n : Nat) : (s.occupy c p n).memPsn = s.memPsn := rfl
@[simp] theorem State.occupy_host (c p n : Nat) : (s.occupy c p n).host = s.host := rfl
@[simp] theorem State.occupy_hostPsn (c p n : Nat) : (s.occupy c p n).hostPsn = s.hostPsn := rfl
@[simp] theorem State.occupy_dies (c p n : Nat) : (s.occupy c p n).dies = s.dies := rfl
@[simp] theorem State.occupy_links (c p n : Nat) : (s.occupy c p n).links = s.links := rfl
@[simp] theorem State.occupy_routes (c p n : Nat) : (s.occupy c p n).routes = s.routes := rfl
@[simp] theorem State.occupy_handed (c p n : Nat) : (s.occupy c p n).handed = s.handed := rfl
@[simp] theorem State.occupy_portDown (c p n : Nat) : (s.occupy c p n).portDown = s.portDown := rfl
@[simp] theorem State.occupy_powerLow (c p n : Nat) : (s.occupy c p n).powerLow = s.powerLow := rfl
@[simp] theorem State.occupy_msix (c p n : Nat) : (s.occupy c p n).msix = s.msix := rfl
@[simp] theorem State.occupy_copies (c p n : Nat) : (s.occupy c p n).copies = s.copies := rfl
@[simp] theorem State.occupy_homes (c p n : Nat) : (s.occupy c p n).homes = s.homes := rfl
@[simp] theorem State.occupy_l2Uses (c p n : Nat) : (s.occupy c p n).l2Uses = s.l2Uses := rfl
@[simp] theorem State.occupy_tlb (c p n : Nat) : (s.occupy c p n).tlb = s.tlb := rfl
@[simp] theorem State.occupy_walkCache (c p n : Nat) : (s.occupy c p n).walkCache = s.walkCache := rfl
@[simp] theorem State.occupy_walks (c p n : Nat) : (s.occupy c p n).walks = s.walks := rfl
@[simp] theorem State.occupy_faults (c p n : Nat) : (s.occupy c p n).faults = s.faults := rfl
@[simp] theorem State.occupy_invals (c p n : Nat) : (s.occupy c p n).invals = s.invals := rfl
@[simp] theorem State.occupy_atsHeld (c p n : Nat) : (s.occupy c p n).atsHeld = s.atsHeld := rfl
@[simp] theorem State.occupy_pri (c p n : Nat) : (s.occupy c p n).pri = s.pri := rfl
@[simp] theorem State.occupy_attr (c p n : Nat) : (s.occupy c p n).attr = s.attr := rfl
@[simp] theorem State.occupy_collisions (c p n : Nat) : (s.occupy c p n).collisions = s.collisions := rfl
@[simp] theorem State.occupy_drains (c p n : Nat) : (s.occupy c p n).drains = s.drains := rfl
@[simp] theorem State.occupy_overflows (c p n : Nat) : (s.occupy c p n).overflows = s.overflows := rfl
@[simp] theorem State.occupy_txlanes (c p n : Nat) : (s.occupy c p n).txlanes = s.txlanes := rfl
@[simp] theorem State.occupy_counters (c p n : Nat) : (s.occupy c p n).counters = s.counters := rfl
@[simp] theorem State.occupy_migreqs (c p n : Nat) : (s.occupy c p n).migreqs = s.migreqs := rfl
@[simp] theorem State.occupy_refls (c p n : Nat) : (s.occupy c p n).refls = s.refls := rfl
@[simp] theorem State.occupy_ranges (c p n : Nat) : (s.occupy c p n).ranges = s.ranges := rfl
@[simp] theorem State.occupy_rpushes (c p n : Nat) : (s.occupy c p n).rpushes = s.rpushes := rfl
@[simp] theorem State.occupy_queues (c p n : Nat) : (s.occupy c p n).queues = s.queues := rfl
@[simp] theorem State.occupy_hrings (c p n : Nat) : (s.occupy c p n).hrings = s.hrings := rfl
@[simp] theorem State.occupy_graphs (c p n : Nat) : (s.occupy c p n).graphs = s.graphs := rfl
@[simp] theorem State.occupy_images (c p n : Nat) : (s.occupy c p n).images = s.images := rfl
@[simp] theorem State.occupy_mwork (c p n : Nat) : (s.occupy c p n).mwork = s.mwork := rfl
@[simp] theorem State.occupy_scales (c p n : Nat) : (s.occupy c p n).scales = s.scales := rfl
@[simp] theorem State.occupy_savedScales (c p n : Nat) : (s.occupy c p n).savedScales = s.savedScales := rfl
@[simp] theorem State.occupy_lastQueue (c p n : Nat) : (s.occupy c p n).lastQueue = s.lastQueue := rfl

@[simp] theorem State.receive_part (v : View) (rs : List Result) : (s.receive v rs).part = s.part := rfl
@[simp] theorem State.receive_now (v : View) (rs : List Result) : (s.receive v rs).now = s.now := rfl
@[simp] theorem State.receive_turn (v : View) (rs : List Result) : (s.receive v rs).turn = s.turn := rfl
@[simp] theorem State.receive_free (v : View) (rs : List Result) : (s.receive v rs).free = s.free := rfl
@[simp] theorem State.receive_nextId (v : View) (rs : List Result) : (s.receive v rs).nextId = s.nextId := rfl
@[simp] theorem State.receive_inputs (v : View) (rs : List Result) : (s.receive v rs).inputs = s.inputs := rfl
@[simp] theorem State.receive_cur (v : View) (rs : List Result) : (s.receive v rs).cur = s.cur := rfl
@[simp] theorem State.receive_signal (v : View) (rs : List Result) : (s.receive v rs).signal = s.signal := rfl
@[simp] theorem State.receive_cores (v : View) (rs : List Result) : (s.receive v rs).cores = s.cores := rfl
@[simp] theorem State.receive_teams (v : View) (rs : List Result) : (s.receive v rs).teams = s.teams := rfl
@[simp] theorem State.receive_clusters (v : View) (rs : List Result) : (s.receive v rs).clusters = s.clusters := rfl
@[simp] theorem State.receive_kernels (v : View) (rs : List Result) : (s.receive v rs).kernels = s.kernels := rfl
@[simp] theorem State.receive_ctxs (v : View) (rs : List Result) : (s.receive v rs).ctxs = s.ctxs := rfl
@[simp] theorem State.receive_loans (v : View) (rs : List Result) : (s.receive v rs).loans = s.loans := rfl
@[simp] theorem State.receive_spad (v : View) (rs : List Result) : (s.receive v rs).spad = s.spad := rfl
@[simp] theorem State.receive_engines (v : View) (rs : List Result) : (s.receive v rs).engines = s.engines := rfl
@[simp] theorem State.receive_inflight (v : View) (rs : List Result) : (s.receive v rs).inflight = s.inflight := rfl
@[simp] theorem State.receive_cmds (v : View) (rs : List Result) : (s.receive v rs).cmds = s.cmds := rfl
@[simp] theorem State.receive_buckets (v : View) (rs : List Result) : (s.receive v rs).buckets = s.buckets := rfl
@[simp] theorem State.receive_errlog (v : View) (rs : List Result) : (s.receive v rs).errlog = s.errlog := rfl
@[simp] theorem State.receive_dl (v : View) (rs : List Result) : (s.receive v rs).dl = s.dl := rfl
@[simp] theorem State.receive_mem (v : View) (rs : List Result) : (s.receive v rs).mem = s.mem := rfl
@[simp] theorem State.receive_memPsn (v : View) (rs : List Result) : (s.receive v rs).memPsn = s.memPsn := rfl
@[simp] theorem State.receive_host (v : View) (rs : List Result) : (s.receive v rs).host = s.host := rfl
@[simp] theorem State.receive_hostPsn (v : View) (rs : List Result) : (s.receive v rs).hostPsn = s.hostPsn := rfl
@[simp] theorem State.receive_dies (v : View) (rs : List Result) : (s.receive v rs).dies = s.dies := rfl
@[simp] theorem State.receive_links (v : View) (rs : List Result) : (s.receive v rs).links = s.links := rfl
@[simp] theorem State.receive_routes (v : View) (rs : List Result) : (s.receive v rs).routes = s.routes := rfl
@[simp] theorem State.receive_handed (v : View) (rs : List Result) : (s.receive v rs).handed = s.handed := rfl
@[simp] theorem State.receive_portDown (v : View) (rs : List Result) : (s.receive v rs).portDown = s.portDown := rfl
@[simp] theorem State.receive_powerLow (v : View) (rs : List Result) : (s.receive v rs).powerLow = s.powerLow := rfl
@[simp] theorem State.receive_msix (v : View) (rs : List Result) : (s.receive v rs).msix = s.msix := rfl
@[simp] theorem State.receive_copies (v : View) (rs : List Result) : (s.receive v rs).copies = s.copies := rfl
@[simp] theorem State.receive_homes (v : View) (rs : List Result) : (s.receive v rs).homes = s.homes := rfl
@[simp] theorem State.receive_l2Uses (v : View) (rs : List Result) : (s.receive v rs).l2Uses = s.l2Uses := rfl
@[simp] theorem State.receive_tlb (v : View) (rs : List Result) : (s.receive v rs).tlb = s.tlb := rfl
@[simp] theorem State.receive_walkCache (v : View) (rs : List Result) : (s.receive v rs).walkCache = s.walkCache := rfl
@[simp] theorem State.receive_walks (v : View) (rs : List Result) : (s.receive v rs).walks = s.walks := rfl
@[simp] theorem State.receive_faults (v : View) (rs : List Result) : (s.receive v rs).faults = s.faults := rfl
@[simp] theorem State.receive_invals (v : View) (rs : List Result) : (s.receive v rs).invals = s.invals := rfl
@[simp] theorem State.receive_atsHeld (v : View) (rs : List Result) : (s.receive v rs).atsHeld = s.atsHeld := rfl
@[simp] theorem State.receive_pri (v : View) (rs : List Result) : (s.receive v rs).pri = s.pri := rfl
@[simp] theorem State.receive_attr (v : View) (rs : List Result) : (s.receive v rs).attr = s.attr := rfl
@[simp] theorem State.receive_collisions (v : View) (rs : List Result) : (s.receive v rs).collisions = s.collisions := rfl
@[simp] theorem State.receive_drains (v : View) (rs : List Result) : (s.receive v rs).drains = s.drains := rfl
@[simp] theorem State.receive_overflows (v : View) (rs : List Result) : (s.receive v rs).overflows = s.overflows := rfl
@[simp] theorem State.receive_txlanes (v : View) (rs : List Result) : (s.receive v rs).txlanes = s.txlanes := rfl
@[simp] theorem State.receive_counters (v : View) (rs : List Result) : (s.receive v rs).counters = s.counters := rfl
@[simp] theorem State.receive_migreqs (v : View) (rs : List Result) : (s.receive v rs).migreqs = s.migreqs := rfl
@[simp] theorem State.receive_refls (v : View) (rs : List Result) : (s.receive v rs).refls = s.refls := rfl
@[simp] theorem State.receive_ranges (v : View) (rs : List Result) : (s.receive v rs).ranges = s.ranges := rfl
@[simp] theorem State.receive_rpushes (v : View) (rs : List Result) : (s.receive v rs).rpushes = s.rpushes := rfl
@[simp] theorem State.receive_queues (v : View) (rs : List Result) : (s.receive v rs).queues = s.queues := rfl
@[simp] theorem State.receive_hrings (v : View) (rs : List Result) : (s.receive v rs).hrings = s.hrings := rfl
@[simp] theorem State.receive_graphs (v : View) (rs : List Result) : (s.receive v rs).graphs = s.graphs := rfl
@[simp] theorem State.receive_images (v : View) (rs : List Result) : (s.receive v rs).images = s.images := rfl
@[simp] theorem State.receive_mwork (v : View) (rs : List Result) : (s.receive v rs).mwork = s.mwork := rfl
@[simp] theorem State.receive_scales (v : View) (rs : List Result) : (s.receive v rs).scales = s.scales := rfl
@[simp] theorem State.receive_savedScales (v : View) (rs : List Result) : (s.receive v rs).savedScales = s.savedScales := rfl
@[simp] theorem State.receive_lastQueue (v : View) (rs : List Result) : (s.receive v rs).lastQueue = s.lastQueue := rfl

@[simp] theorem State.issued_part : (s.issued).part = s.part := rfl
@[simp] theorem State.issued_now : (s.issued).now = s.now := rfl
@[simp] theorem State.issued_turn : (s.issued).turn = s.turn := rfl
@[simp] theorem State.issued_free : (s.issued).free = s.free := rfl
@[simp] theorem State.issued_nextId : (s.issued).nextId = s.nextId := rfl
@[simp] theorem State.issued_inputs : (s.issued).inputs = s.inputs := rfl
@[simp] theorem State.issued_cur : (s.issued).cur = s.cur := rfl
@[simp] theorem State.issued_cores : (s.issued).cores = s.cores := rfl
@[simp] theorem State.issued_groups : (s.issued).groups = s.groups := rfl
@[simp] theorem State.issued_teams : (s.issued).teams = s.teams := rfl
@[simp] theorem State.issued_clusters : (s.issued).clusters = s.clusters := rfl
@[simp] theorem State.issued_kernels : (s.issued).kernels = s.kernels := rfl
@[simp] theorem State.issued_ctxs : (s.issued).ctxs = s.ctxs := rfl
@[simp] theorem State.issued_loans : (s.issued).loans = s.loans := rfl
@[simp] theorem State.issued_spad : (s.issued).spad = s.spad := rfl
@[simp] theorem State.issued_engines : (s.issued).engines = s.engines := rfl
@[simp] theorem State.issued_inflight : (s.issued).inflight = s.inflight := rfl
@[simp] theorem State.issued_cmds : (s.issued).cmds = s.cmds := rfl
@[simp] theorem State.issued_buckets : (s.issued).buckets = s.buckets := rfl
@[simp] theorem State.issued_errlog : (s.issued).errlog = s.errlog := rfl
@[simp] theorem State.issued_dl : (s.issued).dl = s.dl := rfl
@[simp] theorem State.issued_mem : (s.issued).mem = s.mem := rfl
@[simp] theorem State.issued_memPsn : (s.issued).memPsn = s.memPsn := rfl
@[simp] theorem State.issued_host : (s.issued).host = s.host := rfl
@[simp] theorem State.issued_hostPsn : (s.issued).hostPsn = s.hostPsn := rfl
@[simp] theorem State.issued_dies : (s.issued).dies = s.dies := rfl
@[simp] theorem State.issued_links : (s.issued).links = s.links := rfl
@[simp] theorem State.issued_routes : (s.issued).routes = s.routes := rfl
@[simp] theorem State.issued_handed : (s.issued).handed = s.handed := rfl
@[simp] theorem State.issued_portDown : (s.issued).portDown = s.portDown := rfl
@[simp] theorem State.issued_powerLow : (s.issued).powerLow = s.powerLow := rfl
@[simp] theorem State.issued_msix : (s.issued).msix = s.msix := rfl
@[simp] theorem State.issued_copies : (s.issued).copies = s.copies := rfl
@[simp] theorem State.issued_homes : (s.issued).homes = s.homes := rfl
@[simp] theorem State.issued_l2Uses : (s.issued).l2Uses = s.l2Uses := rfl
@[simp] theorem State.issued_tlb : (s.issued).tlb = s.tlb := rfl
@[simp] theorem State.issued_walkCache : (s.issued).walkCache = s.walkCache := rfl
@[simp] theorem State.issued_walks : (s.issued).walks = s.walks := rfl
@[simp] theorem State.issued_faults : (s.issued).faults = s.faults := rfl
@[simp] theorem State.issued_invals : (s.issued).invals = s.invals := rfl
@[simp] theorem State.issued_atsHeld : (s.issued).atsHeld = s.atsHeld := rfl
@[simp] theorem State.issued_pri : (s.issued).pri = s.pri := rfl
@[simp] theorem State.issued_attr : (s.issued).attr = s.attr := rfl
@[simp] theorem State.issued_collisions : (s.issued).collisions = s.collisions := rfl
@[simp] theorem State.issued_drains : (s.issued).drains = s.drains := rfl
@[simp] theorem State.issued_overflows : (s.issued).overflows = s.overflows := rfl
@[simp] theorem State.issued_txlanes : (s.issued).txlanes = s.txlanes := rfl
@[simp] theorem State.issued_counters : (s.issued).counters = s.counters := rfl
@[simp] theorem State.issued_migreqs : (s.issued).migreqs = s.migreqs := rfl
@[simp] theorem State.issued_refls : (s.issued).refls = s.refls := rfl
@[simp] theorem State.issued_ranges : (s.issued).ranges = s.ranges := rfl
@[simp] theorem State.issued_rpushes : (s.issued).rpushes = s.rpushes := rfl
@[simp] theorem State.issued_queues : (s.issued).queues = s.queues := rfl
@[simp] theorem State.issued_hrings : (s.issued).hrings = s.hrings := rfl
@[simp] theorem State.issued_graphs : (s.issued).graphs = s.graphs := rfl
@[simp] theorem State.issued_images : (s.issued).images = s.images := rfl
@[simp] theorem State.issued_mwork : (s.issued).mwork = s.mwork := rfl
@[simp] theorem State.issued_scales : (s.issued).scales = s.scales := rfl
@[simp] theorem State.issued_savedScales : (s.issued).savedScales = s.savedScales := rfl
@[simp] theorem State.issued_lastQueue : (s.issued).lastQueue = s.lastQueue := rfl

@[simp] theorem State.issued_signal : s.issued.signal = .issued := rfl
@[simp] theorem State.setGroup_groups (n : Nat) (x : Group) : (s.setGroup n x).groups = insertAt n x s.groups := rfl
@[simp] theorem State.modGroup_groups (n : Nat) (f : Group → Group) : (s.modGroup n f).groups = modifyAt n f s.groups := rfl
@[simp] theorem State.setSlotByte_mem (k n : Nat) (b : Byte) :
    (s.setSlotByte k n b).mem = writeAt 0 (k * 68719476736 + n) b s.mem := rfl
@[simp] theorem State.setHostByte_host (n : Nat) (b : Byte) : (s.setHostByte n b).host = writeAt 0 n b s.host := rfl
@[simp] theorem State.setCore_cores (c : Nat) (x : Core) : (s.setCore c x).cores = writeAt {} c x s.cores := rfl
@[simp] theorem State.setQueue_queues (n : Nat) (x : Queue) : (s.setQueue n x).queues = writeAt {} n x s.queues := rfl

end

end Sys2Proof.Machine
end

