-- ==== Sys2Proof/Laws/Memory.lean ====
section
/-! SUPPORT. Sparse tables: a read after a write, and the canonical form, which every operation over memory keeps. -/

namespace Sys2Proof.Machine

variable {α : Type}

theorem lookup_insertAt_self (k : Nat) (v : α) (m : List (Nat × α)) : lookup k (insertAt k v m) = some v := by
  induction m with
  | nil => simp [insertAt, lookup]
  | cons p m ih =>
    unfold insertAt
    split
    · simp [lookup]
    · split
      · simp [lookup]
      · simp_all [lookup]

theorem lookup_insertAt_ne {j k : Nat} (v : α) (h : j ≠ k) (m : List (Nat × α)) :
    lookup j (insertAt k v m) = lookup j m := by
  induction m with
  | nil => simp [insertAt, lookup, Ne.symm h]
  | cons p m ih =>
    unfold insertAt
    split
    · simp [lookup, Ne.symm h]
    · split
      · simp_all [lookup, Ne.symm h]
      · simp [lookup, ih]

theorem lookup_eraseAt_self (k : Nat) (m : List (Nat × α)) : lookup k (eraseAt k m) = none := by
  induction m with
  | nil => rfl
  | cons p m ih =>
    by_cases h : p.1 = k
    · simpa [eraseAt, h] using ih
    · simpa [eraseAt, h, lookup] using ih

theorem lookup_eraseAt_ne {j k : Nat} (h : j ≠ k) (m : List (Nat × α)) : lookup j (eraseAt k m) = lookup j m := by
  induction m with
  | nil => rfl
  | cons p m ih =>
    by_cases hp : p.1 = k
    · have : p.1 ≠ j := fun e => h (e.symm.trans hp)
      simpa [eraseAt, hp, lookup, Ne.symm h] using ih
    · simp only [eraseAt, List.filter_cons, bne_iff_ne, ne_eq, hp, not_false_eq_true, if_true, lookup]
      split
      · rfl
      · exact ih

theorem lookup_modifyAt_self (k : Nat) (f : α → α) (m : List (Nat × α)) :
    lookup k (modifyAt k f m) = (lookup k m).map f := by
  induction m with
  | nil => rfl
  | cons p m ih =>
    by_cases h : p.1 = k
    · simp [modifyAt, lookup, h]
    · simpa [modifyAt, lookup, h] using ih

theorem lookup_modifyAt_ne {j k : Nat} (f : α → α) (h : j ≠ k) (m : List (Nat × α)) :
    lookup j (modifyAt k f m) = lookup j m := by
  induction m with
  | nil => rfl
  | cons p m ih =>
    by_cases hp : p.1 = k
    · have e : ¬ k = j := fun e => h e.symm
      simpa [modifyAt, lookup, hp, e] using ih
    · simp only [modifyAt, List.map_cons, beq_iff_eq, hp, if_false, lookup]
      split
      · rfl
      · simpa [modifyAt] using ih

section
variable [DecidableEq α] (d : α)

theorem readAt_writeAt_self (k : Nat) (v : α) (m : List (Nat × α)) : readAt d (writeAt d k v m) k = v := by
  unfold writeAt readAt
  split
  · simp [lookup_eraseAt_self, *]
  · simp [lookup_insertAt_self]

theorem readAt_writeAt_ne {j k : Nat} (v : α) (h : j ≠ k) (m : List (Nat × α)) :
    readAt d (writeAt d k v m) j = readAt d m j := by
  unfold writeAt readAt
  split
  · rw [lookup_eraseAt_ne h]
  · rw [lookup_insertAt_ne v h]

end

theorem risingFrom_mono {a b : Nat} (h : a ≤ b) {m : List (Nat × α)} (hm : risingFrom b m = true) :
    risingFrom a m = true := by
  cases m with
  | nil => rfl
  | cons p m =>
    simp only [risingFrom, Bool.and_eq_true, decide_eq_true_eq] at hm ⊢
    exact ⟨h.trans hm.1, hm.2⟩

theorem risingFrom_filter (q : Nat × α → Bool) {b : Nat} {m : List (Nat × α)} (hm : risingFrom b m = true) :
    risingFrom b (m.filter q) = true := by
  induction m generalizing b with
  | nil => rfl
  | cons p m ih =>
    simp only [risingFrom, Bool.and_eq_true, decide_eq_true_eq] at hm
    simp only [List.filter_cons]
    split
    · simpa [risingFrom, hm.1] using ih hm.2
    · exact risingFrom_mono (hm.1.trans (Nat.le_succ _)) (ih hm.2)

theorem risingFrom_insertAt (k : Nat) (v : α) {b : Nat} (hk : b ≤ k) {m : List (Nat × α)} (hm : risingFrom b m = true) :
    risingFrom b (insertAt k v m) = true := by
  induction m generalizing b with
  | nil => simpa [insertAt, risingFrom] using hk
  | cons p m ih =>
    simp only [risingFrom, Bool.and_eq_true, decide_eq_true_eq] at hm
    unfold insertAt
    split
    · next h => simp [risingFrom, hk, hm.2, Nat.succ_le_of_lt h]
    · split
      · next h => simp only [beq_iff_eq] at h; subst h; simpa [risingFrom, hk] using hm.2
      · next h1 h2 =>
        simp only [beq_iff_eq] at h2
        simp only [risingFrom, Bool.and_eq_true, decide_eq_true_eq]
        exact ⟨hm.1, ih (by omega) hm.2⟩

theorem mem_insertAt {k : Nat} {v : α} {m : List (Nat × α)} {x : Nat × α} (h : x ∈ insertAt k v m) :
    x = (k, v) ∨ x ∈ m := by
  induction m with
  | nil => simpa [insertAt] using h
  | cons p m ih =>
    unfold insertAt at h
    split at h
    · simpa using h
    · split at h
      · rcases List.mem_cons.mp h with h | h
        · exact .inl h
        · exact .inr (List.mem_cons_of_mem _ h)
      · rcases List.mem_cons.mp h with h | h
        · exact .inr (h ▸ List.mem_cons_self)
        · exact (ih h).imp_right (List.mem_cons_of_mem _)

variable [DecidableEq α] {d : α}

theorem canonical_filter (q : Nat × α → Bool) {m : List (Nat × α)} (h : canonical d m = true) :
    canonical d (m.filter q) = true := by
  simp only [canonical, Bool.and_eq_true, List.all_eq_true] at h ⊢
  exact ⟨risingFrom_filter q h.1, fun x hx => h.2 x (List.mem_filter.mp hx).1⟩

theorem canonical_writeAt (k : Nat) (v : α) {m : List (Nat × α)} (h : canonical d m = true) :
    canonical d (writeAt d k v m) = true := by
  unfold writeAt
  split
  · exact canonical_filter _ h
  · next hv =>
    simp only [canonical, Bool.and_eq_true, List.all_eq_true] at h ⊢
    refine ⟨risingFrom_insertAt k v (Nat.zero_le k) h.1, fun x hx => ?_⟩
    rcases mem_insertAt hx with e | e
    · simpa [e] using hv
    · exact h.2 x e

theorem canonical_foldl_writeAt {β : Type} (key : β → Nat) (val : β → α) (bs : List β) {m : List (Nat × α)}
    (h : canonical d m = true) : canonical d (bs.foldl (fun m b => writeAt d (key b) (val b) m) m) = true := by
  induction bs generalizing m with
  | nil => exact h
  | cons b bs ih => exact ih (canonical_writeAt _ _ h)

theorem memoryOk_iff (s : State) :
    s.memoryOk = true ↔ Memory.wf s.mem = true ∧ Memory.wf s.host = true ∧ canonical PWord.zero s.spad = true := by
  simp [State.memoryOk, and_assoc]

/-- Two states with the same memories. -/
theorem memoryOk_congr {s t : State} (hm : t.mem = s.mem) (hh : t.host = s.host) (hs : t.spad = s.spad) :
    t.memoryOk = s.memoryOk := by simp [State.memoryOk, hm, hh, hs]

theorem memoryOk_setSlotByte {s : State} (h : s.memoryOk = true) (k n : Nat) (b : Byte) :
    (s.setSlotByte k n b).memoryOk = true := by
  rw [memoryOk_iff] at h ⊢
  exact ⟨canonical_writeAt _ _ h.1, h.2⟩

theorem memoryOk_setHostByte {s : State} (h : s.memoryOk = true) (n : Nat) (b : Byte) :
    (s.setHostByte n b).memoryOk = true := by
  rw [memoryOk_iff] at h ⊢
  exact ⟨h.1, canonical_writeAt _ _ h.2.1, h.2.2⟩

theorem memoryOk_spad {s : State} (h : s.memoryOk = true) {m : List (Nat × PWord)} (hm : canonical PWord.zero m = true) :
    ({ s with spad := m } : State).memoryOk = true := by
  rw [memoryOk_iff] at h ⊢
  exact ⟨h.1, h.2.1, hm⟩

/-- A checkpoint's undo log is all that logBlock changes. -/
theorem logBlock_memories (s : State) (team : Nat) (n : LogName) (ws : List (Nat × PWord)) :
    (s.logBlock team n ws).mem = s.mem ∧ (s.logBlock team n ws).host = s.host ∧ (s.logBlock team n ws).spad = s.spad ∧
      (s.logBlock team n ws).groups = s.groups := by
  unfold State.logBlock
  repeat' split
  all_goals exact ⟨rfl, rfl, rfl, rfl⟩

theorem memoryOk_writeSpad {s : State} (h : s.memoryOk = true) (team core w : Nat) (v : PWord) (mask : Word) :
    (s.writeSpad team core w v mask).memoryOk = true := by
  unfold State.writeSpad
  dsimp only
  rw [memoryOk_iff] at h
  refine memoryOk_spad ?_ ?_
  · rw [memoryOk_iff]
    repeat' split
    all_goals simp [logBlock_memories, h]
  · repeat' split
    all_goals simpa [logBlock_memories] using canonical_writeAt _ _ h.2.2

theorem memoryOk_spadWrites {s : State} (h : s.memoryOk = true) (team core : Nat) (ws : List (Nat × PWord × Word)) :
    (s.spadWrites team core ws).memoryOk = true := by
  unfold State.spadWrites
  induction ws generalizing s with
  | nil => exact h
  | cons w ws ih => exact ih (memoryOk_writeSpad h ..)

theorem memoryOk_hostWrite {s : State} (h : s.memoryOk = true) (x : Nat) (bs : List Byte) (p : Bool) :
    (s.hostWrite x bs p).memoryOk = true := by
  unfold State.hostWrite
  generalize bs.mapIdx _ = l
  induction l generalizing s with
  | nil => exact h
  | cons b l ih => exact ih (memoryOk_setHostByte h _ _)

theorem memoryOk_setSlotPsn (s : State) (k n : Nat) (b : Bool) : (s.setSlotPsn k n b).memoryOk = s.memoryOk := rfl

theorem memoryOk_dropKeys {s : State} (h : s.memoryOk = true) (n m d : Nat) :
    ({ s with mem := dropKeys n d s.mem, spad := dropKeys m d s.spad } : State).memoryOk = true := by
  rw [memoryOk_iff] at h ⊢
  exact ⟨canonical_filter _ h.1, h.2.1, canonical_filter _ h.2.2⟩

theorem memoryOk_zeroMap {s : State} (h : s.memoryOk = true) (core : Nat) (m : Word) : (s.zeroMap core m).memoryOk = true :=
  memoryOk_spad h (canonical_filter _ ((memoryOk_iff s).mp h).2.2)

end Sys2Proof.Machine
end

