-- ==== Sys2Proof/Laws/Words.lean ====
section
/-! SUPPORT. What an issued word does at once: guards, operands, results, and the shapes of words with one result. -/

namespace Sys2Proof.Machine

theorem lanesOf_zero : lanesOf 0 = [] := by decide

theorem guard_ok {s : State} {o : Issue} {g : Group} (h : Issues s o g) : (View.mk o g).guard = .ok () := by
  rw [View.guard, h.guard, lanesOf_zero]

theorem runBare_issues {s : State} {o : Issue} {g : Group} (h : Issues s o g) (body : View → Except Stop State) :
    runBare s body = .next (s.wordDone o (body ⟨o, g⟩)) := by
  simp [runBare, h.cur, h.group]

theorem runWord_issues {s : State} {o : Issue} {g : Group} (h : Issues s o g) (body : View → Except Stop State) :
    runWord s body = .next (s.wordDone o (body ⟨o, g⟩)) := by
  rw [runWord, runBare_issues h, guard_ok h]

theorem runPrivileged_issues {s : State} {o : Issue} {g : Group} (h : Issues s o g) (may : Group → Bool) (hm : may g = true)
    (body : View → Except Stop State) : runPrivileged s may body = .next (s.wordDone o (body ⟨o, g⟩)) := by
  rw [runPrivileged, runBare_issues h, guard_ok h]
  simp [hm]

theorem wordDone_ok (s : State) (o : Issue) (t : State) : s.wordDone o (.ok t) = t.issued := rfl

theorem not_queue {r : Nat} (h : r < 28) : isQueue r = false := by simp [isQueue]; omega

theorem operand_plain (s : State) (v : View) (e r : Nat) (h : r < 28) :
    s.operand v e r = .ok (fun L => v.g.reg (v.src e L) r, s) := by
  simp [State.operand, not_queue h]

theorem operands_plain (s : State) (v : View) (ea ra eb rb : Nat) (ha : ra < 28) (hb : rb < 28) :
    s.operands v ea ra eb rb = .ok (fun L => v.g.reg (v.src ea L) ra, fun L => v.g.reg (v.src eb L) rb, s) := by
  simp [State.operands, operand_plain, ha, hb]

theorem put_plain (s : State) (v : View) (r n : Nat) (f : Lanes) (h : r < 28) :
    s.put v r n f = .ok (s.receive v (v.results s.now r n f)) := by
  simp [State.put, not_queue h, State.receive]

theorem popDelay_one (v : View) (a : Nat) (ha : a < 28) : popDelay v [a] = 0 := by
  simp [popDelay, not_queue ha]

theorem popDelay_two (v : View) (a b : Nat) (ha : a < 28) (hb : b < 28) : popDelay v [a, b] = 0 := by
  simp [popDelay, not_queue ha, not_queue hb]

theorem popDelayTo_one (v : View) (d a : Nat) (ha : a < 28) : popDelayTo v d [a] = 0 := by
  simp [popDelayTo, popDelay_one v a ha]

theorem popDelayTo_two (v : View) (d a b : Nat) (ha : a < 28) (hb : b < 28) : popDelayTo v d [a, b] = 0 := by
  simp [popDelayTo, popDelay_two v a b ha hb]

/-- A word with operands A and B and one result, when its registers are no queues. -/
theorem aluWord_plain {s : State} {o : Issue} {g : Group} (h : Issues s o g) (ea ra eb rb d lat : Nat)
    (f : View → Nat → PWord → PWord → PWord) (ha : ra < 28) (hb : rb < 28) (hd : d < 28) :
    aluWord s ea ra eb rb d lat f = .next (s.receive ⟨o, g⟩ ((View.mk o g).results s.now d lat fun L =>
      f ⟨o, g⟩ L (g.reg ((View.mk o g).src ea L) ra) (g.reg ((View.mk o g).src eb L) rb))).issued := by
  rw [aluWord, runWord_issues h]
  simp only [operands_plain _ _ _ _ _ _ ha hb, popDelayTo_two _ _ _ _ ha hb, put_plain _ _ _ _ _ hd, wordDone_ok, Nat.add_zero]

/-- A word with one operand and one result. -/
theorem unaryWord_plain {s : State} {o : Issue} {g : Group} (h : Issues s o g) (ea ra d lat : Nat) (f : Nat → PWord → PWord)
    (ha : ra < 28) (hd : d < 28) :
    unaryWord s ea ra d lat f = .next (s.receive ⟨o, g⟩ ((View.mk o g).results s.now d lat fun L =>
      f L (g.reg ((View.mk o g).src ea L) ra))).issued := by
  rw [unaryWord, runWord_issues h]
  simp only [operand_plain _ _ _ _ ha, popDelayTo_one _ _ _ ha, put_plain _ _ _ _ _ hd, wordDone_ok, Nat.add_zero]

/-- A word without operands. -/
theorem sourceWord_plain {s : State} {o : Issue} {g : Group} (h : Issues s o g) (d lat : Nat) (f : View → Nat → PWord)
    (hd : d < 28) :
    sourceWord s d lat f = .next (s.receive ⟨o, g⟩ ((View.mk o g).results s.now d lat fun L => f ⟨o, g⟩ L)).issued := by
  rw [sourceWord, runWord_issues h]
  simp only [put_plain _ _ _ _ _ hd, wordDone_ok]

end Sys2Proof.Machine
end

