-- ==== Sys2Proof/Laws/Scratchpad.lean ====
section
/-! SUPPORT. What the shared operations of scratchpad accesses answer once their checks pass: the places of the enabled
lanes, the cores they name, and the results of loads (R187, R191, R194). -/

namespace Sys2Proof.Machine

/-- Accesses whose checks pass for every enabled lane lead to those lanes' places. -/
theorem checked_places {s : State} {v : View} {lo : Bool} {n al : Nat} {a : Lanes} (h : s.passes v lo n al a) :
    s.checked v lo n al a = .ok (s.places v n a) := by
  have h1 : addressTrap v.lanes (fun L => spadCheck s v lo n al (a L)) a = .ok () := by
    have none_fails : ([1, 2, 3, 4].find? fun k => v.lanes.any fun L => spadCheck s v lo n al (a L) == some k) = none := by
      simp only [List.find?_eq_none, List.any_eq_true, not_exists, not_and]
      intro k _ L hL
      simp [h.1 L hL]
    rw [addressTrap, none_fails]
  have h2 : s.granulesFree v n ((s.places v n a).map (·.2)) = .ok () := by
    have none_held : ((s.places v n a).map (·.2)).findSome? (fun r => s.heldBack v r n) = none := by
      simp only [List.findSome?_eq_none_iff, State.places, List.map_map, List.mem_map, Function.comp]
      rintro r ⟨L, hL, rfl⟩
      exact h.2 L hL
    rw [State.granulesFree, none_held]
  rw [State.checked, h1]
  exact (by rw [State.places] at h2; simp only [h2]; rfl)

/-- Where every enabled lane's address leads to core c, its place does. -/
theorem places_core {s : State} {v : View} {n c : Nat} {a : Lanes} (h : s.allOn v n a c) :
    ∀ r ∈ s.places v n a, r.2.core = c := by
  simp only [State.places, List.mem_map]
  rintro r ⟨L, hL, rfl⟩
  exact h L hL

/-- The places at the core that every lane names are all of them. -/
theorem atCore_own {s : State} {v : View} {n c : Nat} {a : Lanes} (h : s.allOn v n a c) :
    atCore (s.places v n a) c = s.places v n a :=
  List.filter_eq_self.mpr fun r hr => by simpa using places_core h r hr

/-- At any other core there are none. -/
theorem atCore_other {s : State} {v : View} {n c d : Nat} {a : Lanes} (h : s.allOn v n a c) (hd : c ≠ d) :
    atCore (s.places v n a) d = [] :=
  List.filter_eq_nil_iff.mpr fun r hr => by simpa [places_core h r hr] using hd

/-- Accesses at one core name no core beside it. -/
theorem otherCores_own {s : State} {v : View} {n c : Nat} {a : Lanes} (h : s.allOn v n a c) :
    otherCores c (s.places v n a) = [] := by
  have none_else : ((s.places v n a).map fun r => r.2.core).filter (· != c) = [] := by
    simp only [List.filter_eq_nil_iff, List.mem_map]
    rintro k ⟨r, hr, rfl⟩
    simpa using places_core h r hr
  rw [otherCores, none_else]
  rfl

/-- Accesses of some lane, all to core c, name c alone beside another core. -/
theorem otherCores_away {s : State} {v : View} {n c d : Nat} {a : Lanes} (h : s.allOn v n a c) (hc : c ≠ d)
    (hl : v.lanes ≠ []) : otherCores d (s.places v n a) = [c] := by
  have cores : ((s.places v n a).map fun r => r.2.core) = List.replicate v.lanes.length c := by
    rw [List.eq_replicate_iff]
    refine ⟨by simp [State.places], ?_⟩
    simp only [List.mem_map]
    rintro k ⟨r, hr, rfl⟩
    exact places_core h r hr
  obtain ⟨m, hm⟩ : ∃ m, v.lanes.length = m + 1 := ⟨v.lanes.length - 1, by
    have := List.length_pos_of_ne_nil hl
    omega⟩
  have keep : (List.replicate (m + 1) c).filter (· != d) = List.replicate (m + 1) c :=
    List.filter_eq_self.mpr fun x hx => by simpa [(List.mem_replicate.mp hx).2] using hc
  have drop : (List.replicate m c).filter (fun b => !b == c) = [] :=
    List.filter_eq_nil_iff.mpr fun x hx => by simp [(List.mem_replicate.mp hx).2]
  rw [otherCores, cores, hm, keep, List.replicate_succ, List.eraseDups_cons, drop]
  rfl

/-- A lane's place is found under its number. -/
theorem find_place {s : State} {v : View} {n L : Nat} {a : Lanes} (hL : L ∈ v.lanes) :
    (s.places v n a).find? (·.1 == L) = some (L, s.ref v n (a L).val) := by
  unfold State.places
  generalize v.lanes = l at hL ⊢
  induction l with
  | nil => cases hL
  | cons x xs ih =>
    by_cases hx : x = L
    · simp [hx]
    · simp [hx, ih (by simpa [Ne.symm hx] using hL)]

/-- The results of a load depend on what its enabled lanes are given only. -/
theorem loadResults_lanes {v : View} {d n : Nat} {due due' : Nat → Option Nat} {src src' : Nat → Nat}
    {f f' : Nat → List PWord} (h : ∀ L ∈ v.lanes, due L = due' L ∧ src L = src' L ∧ f L = f' L) :
    loadResults v d n due src f = loadResults v d n due' src' f' := by
  unfold loadResults
  rw [List.flatMap_def, List.flatMap_def, List.map_congr_left]
  intro L hL
  obtain ⟨h1, h2, h3⟩ := h L hL
  simp only [h1, h2, h3]

/-- The cycles of the L pipe for accesses whose places are those of the enabled lanes (R194). -/
theorem accessCycles_places {s : State} {v : View} {x : OpMem} {a : Lanes} :
    accessCycles (cntWords x.cnt) x.bytes (s.places v x.bytes a) = s.bankCycles v x a := by
  simp only [accessCycles, State.bankCycles, State.places, State.place, List.flatMap_map]

end Sys2Proof.Machine
end

