-- ==== Sys2Proof/Laws/Traps.lean ====
section
/-! SUPPORT. What logging an error, taking a trap and stopping a word can change (R383 to R387, R398). -/

namespace Sys2Proof.Machine

/-- Everything that is neither a group, the error log, an interrupt, a loan nor the signal is as before. -/
structure State.SameWork (s t : State) : Prop where
  now : t.now = s.now
  cur : t.cur = s.cur
  mem : t.mem = s.mem
  memPsn : t.memPsn = s.memPsn
  host : t.host = s.host
  hostPsn : t.hostPsn = s.hostPsn
  spad : t.spad = s.spad
  ctxs : t.ctxs = s.ctxs
  teams : t.teams = s.teams
  clusters : t.clusters = s.clusters
  kernels : t.kernels = s.kernels
  engines : t.engines = s.engines
  cmds : t.cmds = s.cmds
  queues : t.queues = s.queues
  refls : t.refls = s.refls
  mwork : t.mwork = s.mwork
  scales : t.scales = s.scales

theorem State.SameWork.refl (s : State) : s.SameWork s := by constructor <;> rfl

theorem State.SameWork.trans {s t u : State} (h : s.SameWork t) (k : t.SameWork u) : s.SameWork u := by
  constructor
  all_goals first
    | exact k.now.trans h.now | exact k.cur.trans h.cur | exact k.mem.trans h.mem | exact k.memPsn.trans h.memPsn
    | exact k.host.trans h.host | exact k.hostPsn.trans h.hostPsn | exact k.spad.trans h.spad
    | exact k.ctxs.trans h.ctxs | exact k.teams.trans h.teams | exact k.clusters.trans h.clusters
    | exact k.kernels.trans h.kernels | exact k.engines.trans h.engines | exact k.cmds.trans h.cmds
    | exact k.queues.trans h.queues | exact k.refls.trans h.refls | exact k.mwork.trans h.mwork
    | exact k.scales.trans h.scales

theorem logInterrupt_sameWork (s : State) (die ctx : Nat) : s.SameWork (s.logInterrupt die ctx) := by
  unfold State.logInterrupt
  dsimp only
  split <;> (constructor <;> rfl)

theorem logError_sameWork (s : State) (e : ErrEntry) : s.SameWork (s.logError e) := by
  unfold State.logError
  dsimp only
  split
  · split
    · constructor <;> rfl
    · split
      · constructor <;> rfl
      · exact .trans (by constructor <;> rfl) (logInterrupt_sameWork _ _ _)
  · exact .trans (by constructor <;> rfl) (logInterrupt_sameWork _ _ _)

theorem endGroups_sameWork (s : State) (gids : List Nat) : s.SameWork (s.endGroups gids) := by constructor <;> rfl

theorem setGroup_sameWork (s : State) (gid : Nat) (g : Group) : s.SameWork (s.setGroup gid g) := by constructor <;> rfl

theorem modGroup_sameWork (s : State) (gid : Nat) (f : Group → Group) : s.SameWork (s.modGroup gid f) := by
  constructor <;> rfl

theorem setLoan_sameWork (s : State) (p c : Nat) (l : Loan) : s.SameWork (s.setLoan p c l) := by constructor <;> rfl

theorem logUnhandled_sameWork (s : State) (g : Group) (r : List PWord) : s.SameWork (s.logUnhandled g r) :=
  logError_sameWork _ _

/-- Taking a trap changes groups, the error log and interrupts only. -/
theorem takeTrap_sameWork (s : State) (gid : Nat) (r : List PWord) : s.SameWork (s.takeTrap gid r) := by
  unfold State.takeTrap
  repeat' split
  all_goals first
    | exact State.SameWork.refl s
    | exact setGroup_sameWork _ _ _
    | exact (logUnhandled_sameWork _ _ _).trans (endGroups_sameWork _ _)

theorem trapAtIssue_sameWork (s : State) (o : Issue) (t : Trap) : s.SameWork (s.trapAtIssue o t) := by
  unfold State.trapAtIssue
  split
  · exact .refl s
  · exact ((setGroup_sameWork s _ _).trans (takeTrap_sameWork _ _ _)).trans (by constructor <;> rfl)

theorem startEclipse_sameWork (s : State) (p c : Nat) (a : Word) : s.SameWork (s.startEclipse p c a) := by
  unfold State.startEclipse
  dsimp only
  split
  · exact setLoan_sameWork _ _ _ _
  · exact .refl s

theorem accessEclipse_sameWork (s : State) (p c : Nat) (m : Word) : s.SameWork (s.accessEclipse p c m) := by
  unfold State.accessEclipse
  dsimp only
  repeat' split
  · exact startEclipse_sameWork s p c 0
  · exact setLoan_sameWork _ _ _ _
  · exact .refl s

theorem signal_sameWork (s : State) (x : Signal) : s.SameWork { s with signal := x } := by constructor <;> rfl

theorem stallAt_sameWork (s : State) (o : Issue) (w : Wait) : s.SameWork (s.stallAt o w) := by
  unfold State.stallAt
  cases w
  case granules c m => exact ((accessEclipse_sameWork s _ c m).trans (modGroup_sameWork _ _ _)).trans (signal_sameWork _ _)
  all_goals exact (modGroup_sameWork s _ _).trans (signal_sameWork _ _)

/-- A word that stops changes groups, error log, interrupts and loans only; one that takes effect, what its body does. -/
theorem wordDone_cases (s : State) (o : Issue) (r : Except Stop State) :
    (∃ t, r = .ok t ∧ s.wordDone o r = t.issued) ∨ ((∃ x, r = .error x) ∧ s.SameWork (s.wordDone o r)) := by
  match r with
  | .ok t => exact .inl ⟨t, rfl, rfl⟩
  | .error (.trap t) => exact .inr ⟨⟨_, rfl⟩, trapAtIssue_sameWork s o t⟩
  | .error (.stall w) => exact .inr ⟨⟨_, rfl⟩, stallAt_sameWork s o w⟩

/-- A guarded word: it answers a next state, by its body under a clean guard and by the poison trap else. -/
theorem runWord_cases {s t : State} {body : View → Except Stop State} (h : runWord s body = .next t) :
    ∃ o g, s.cur = some o ∧ lookup o.gid s.groups = some g ∧
      ((∃ u, body ⟨o, g⟩ = .ok u ∧ t = u.issued) ∨ s.SameWork t) := by
  unfold runWord runBare at h
  split at h
  · cases h
  · next o ho =>
    split at h
    · cases h
    · next g hg =>
      refine ⟨o, g, ho, hg, ?_⟩
      cases h
      cases hv : (View.mk o g).guard with
      | error e =>
        refine .inr ?_
        rcases wordDone_cases s o (.error e) with ⟨_, h, _⟩ | h
        · cases h
        · simpa only [hv] using h.2
      | ok a =>
        rcases wordDone_cases s o (body ⟨o, g⟩) with ⟨u, h, e⟩ | h
        · exact .inl ⟨u, h, by simpa only [hv] using e⟩
        · exact .inr (by simpa only [hv] using h.2)

end Sys2Proof.Machine
end

