-- ==== Sys2Proof/Laws/Stacks.lean ====
section
/-! SUPPORT. Every write that reaches a home or a stack keeps the memories in their canonical form. -/

namespace Sys2Proof.Machine

theorem memoryOk_foldl {β : Type} {f : State → β → State} (hf : ∀ s b, s.memoryOk = true → (f s b).memoryOk = true) (l : List β) :
    ∀ s, s.memoryOk = true → (l.foldl f s).memoryOk = true := by
  induction l with
  | nil => exact fun _ h => h
  | cons b l ih => exact fun s h => ih _ (hf s b h)

/-- A state with the same memories is as good. -/
theorem memoryOk_same {s t : State} (h : s.memoryOk = true) (hm : t.mem = s.mem) (hh : t.host = s.host) (hs : t.spad = s.spad) :
    t.memoryOk = true := (memoryOk_congr hm hh hs).trans h

/-- Logging keeps the memories. -/
theorem memoryOk_logError {s : State} (h : s.memoryOk = true) (e : ErrEntry) : (s.logError e).memoryOk = true := by
  have w := logError_sameWork s e
  exact memoryOk_same h w.mem w.host w.spad

theorem memoryOk_logMalformed {s : State} (h : s.memoryOk = true) (stack : Nat) (offs : List Nat) :
    (s.logMalformed stack offs).memoryOk = true := memoryOk_foldl (fun _ _ h => memoryOk_logError h _) _ s h

theorem memoryOk_stackRequest (s : State) (stack off : Nat) : (s.stackRequest stack off).memoryOk = s.memoryOk := memoryOk_congr rfl rfl rfl

/-! Stacks. -/

theorem memoryOk_fillSlot {s : State} (h : s.memoryOk = true) (stack slot : Nat) (bytes : List Byte) (psn : BitVec 32) :
    (s.fillSlot stack slot bytes psn).memoryOk = true := by
  unfold State.fillSlot
  dsimp only
  generalize List.range 32 = l
  exact memoryOk_foldl (fun t k h => (memoryOk_setSlotPsn t _ _ _).trans h) _ _
    (memoryOk_foldl (fun t b h => memoryOk_setSlotByte h _ _ _) _ s h)

/-! Updates of other fields. -/

theorem memoryOk_withCollisions (s : State) (m : List (Nat × List Nat)) :
    ({ s with collisions := m } : State).memoryOk = s.memoryOk := memoryOk_congr rfl rfl rfl

theorem memoryOk_withDrains (s : State) (m : List (Nat × Drain)) :
    ({ s with drains := m } : State).memoryOk = s.memoryOk := memoryOk_congr rfl rfl rfl

theorem memoryOk_withHomes (s : State) (m : List HomeLine) :
    ({ s with homes := m } : State).memoryOk = s.memoryOk := memoryOk_congr rfl rfl rfl

theorem memoryOk_dropWaiting (s : State) (stack slot : Nat) : (s.dropWaiting stack slot).memoryOk = s.memoryOk :=
  memoryOk_withDrains s _

theorem memoryOk_freeCollision (s : State) (stack slot : Nat) : (s.freeCollision stack slot).memoryOk = s.memoryOk :=
  memoryOk_withCollisions s _

theorem memoryOk_setAttr (s : State) (stack first n a : Nat) : (s.setAttr stack first n a).memoryOk = s.memoryOk :=
  memoryOk_congr rfl rfl rfl

theorem memoryOk_setPageAttr (s : State) (stack off a : Nat) : (s.setPageAttr stack off a).memoryOk = s.memoryOk := by
  unfold State.setPageAttr
  exact memoryOk_setAttr s _ _ _ _

theorem memoryOk_startDrain (s : State) (stack off : Nat) (b : Bool) : (s.startDrain stack off b).memoryOk = s.memoryOk := by
  have h : (if b then s.setPageAttr stack off 2 else s).memoryOk = s.memoryOk := by
    split
    · exact memoryOk_setPageAttr s _ _ _
    · rfl
  unfold State.startDrain
  generalize (if b then s.setPageAttr stack off 2 else s) = u at h ⊢
  exact (memoryOk_congr rfl rfl rfl).trans h

theorem memoryOk_overflow (s : State) (stack slot : Nat) (b : Block) : (s.overflow stack slot b).memoryOk = s.memoryOk := by
  unfold State.overflow
  dsimp only
  rw [memoryOk_withDrains]
  split
  · rfl
  · exact memoryOk_startDrain _ _ _ _

theorem memoryOk_storeBlock {s : State} (h : s.memoryOk = true) (stack slot : Nat) (b : Block) :
    (s.storeBlock stack slot b).memoryOk = true := by
  have hd : (s.dropWaiting stack slot).memoryOk = true := (memoryOk_dropWaiting s stack slot).trans h
  have hf : ((s.dropWaiting stack slot).freeCollision stack slot).memoryOk = true := (memoryOk_freeCollision _ _ _).trans hd
  unfold State.storeBlock
  extract_lets tab passed s1
  generalize b.packed (s.markerOf stack) = p
  generalize invertTail b.bytes = q
  generalize (leNat _ 8 != s.markerOf stack) = c
  split
  · exact memoryOk_fillSlot hf _ _ _ _
  split
  · exact memoryOk_fillSlot hf _ _ _ _
  split
  · exact memoryOk_fillSlot hd _ _ _ _
  split
  · rw [memoryOk_withCollisions]; exact memoryOk_fillSlot hd _ _ _ _
  · rw [memoryOk_overflow]; exact hd

theorem memoryOk_storeRaw {s : State} (h : s.memoryOk = true) (w : HomeWrite) : (s.storeRaw w).memoryOk = true := by
  unfold State.storeRaw
  dsimp only
  refine memoryOk_foldl (fun t k h => ?_) _ _ (memoryOk_foldl (fun _ _ h => memoryOk_setSlotByte h _ _ _) _ s h)
  split
  · exact (memoryOk_setSlotPsn t _ _ _).trans h
  · split
    · exact (memoryOk_setSlotPsn t _ _ _).trans h
    · exact h

/-- A write that reaches a stack. -/
theorem memoryOk_stackWrite {s : State} (h : s.memoryOk = true) (w : HomeWrite) : (s.stackWrite w).memoryOk = true := by
  unfold State.stackWrite
  extract_lets off s1
  split
  · exact memoryOk_storeBlock (memoryOk_logMalformed h _ _) _ _ _
  · split
    · rw [memoryOk_setPageAttr]; exact memoryOk_storeRaw h w
    · exact memoryOk_storeRaw h w

/-! Home lines. -/

theorem memoryOk_cleanHome {s : State} (h : s.memoryOk = true) (x : HomeLine) : (s.cleanHome x).memoryOk = true := by
  unfold State.cleanHome
  extract_lets ks
  split
  · exact h
  · exact memoryOk_stackWrite ((memoryOk_stackRequest s _ _).trans h) _

theorem memoryOk_evictHome {s : State} (h : s.memoryOk = true) (x : HomeLine) : (s.evictHome x).memoryOk = true :=
  (memoryOk_withHomes _ _).trans (memoryOk_cleanHome h x)

theorem memoryOk_fetchHome {s : State} (h : s.memoryOk = true) (x : HomeLine) (k : Nat) : (s.fetchHome x k).2.memoryOk = true := by
  unfold State.fetchHome
  split
  · exact h
  · extract_lets off data bit
    exact memoryOk_logMalformed ((memoryOk_stackRequest s _ _).trans h) _ _

theorem memoryOk_writeHome {s : State} (h : s.memoryOk = true) (x : HomeLine) (w : HomeWrite) : (s.writeHome x w).2.memoryOk = true := by
  unfold State.writeHome
  dsimp only
  generalize w.sectors.filter _ = l
  induction l generalizing s x with
  | nil => exact h
  | cons k l ih =>
    rw [List.foldl_cons]
    exact ih (memoryOk_fetchHome h x k) _

/-! What follows a home write changes no memory. -/

theorem memoryOk_debit (s : State) (ctx die n : Nat) : (s.debit ctx die n).memoryOk = s.memoryOk := memoryOk_congr rfl rfl rfl

theorem memoryOk_withRefls (s : State) (m : List (Nat × Refl)) :
    ({ s with refls := m } : State).memoryOk = s.memoryOk := memoryOk_congr rfl rfl rfl

theorem memoryOk_withPushes (s : State) (m : List (Nat × RPush)) (n : Nat) :
    ({ s with rpushes := m, nextId := n } : State).memoryOk = s.memoryOk := memoryOk_congr rfl rfl rfl

theorem memoryOk_withQueues (s : State) (m : List (Nat × Queue)) :
    ({ s with queues := m } : State).memoryOk = s.memoryOk := memoryOk_congr rfl rfl rfl

theorem memoryOk_setRange (s : State) (r : WRange) : (s.setRange r).memoryOk = s.memoryOk := memoryOk_congr rfl rfl rfl

theorem memoryOk_sendPush {s : State} (h : s.memoryOk = true) (r : WRange) (n : Nat) (rel : Bool) : (s.sendPush r n rel).memoryOk = true := by
  unfold State.sendPush
  extract_lets subs all cores data psn s0
  refine memoryOk_foldl (fun t c h => ?_) _ _ ((memoryOk_withRefls s _).trans h)
  extract_lets mine p t1
  have h1 : t1.memoryOk = true := (memoryOk_withPushes t _ _).trans h
  split
  · exact h1
  · exact memoryOk_foldl (fun u _ h => (memoryOk_debit u _ _ _).trans h) _ _ h1

theorem memoryOk_pushRange {s : State} (h : s.memoryOk = true) (r : WRange) (n : Nat) (rel : Bool) : (s.pushRange r n rel).memoryOk = true :=
  memoryOk_sendPush ((memoryOk_setRange s _).trans h) _ _ _

theorem memoryOk_storeRange {s : State} (h : s.memoryOk = true) (r : WRange) (rel : Bool) : (s.storeRange r rel).memoryOk = true := by
  unfold State.storeRange
  split
  · split
    · exact (memoryOk_setRange s _).trans h
    · exact memoryOk_pushRange h _ _ _
  · exact memoryOk_pushRange h _ _ _

theorem memoryOk_touchLine (s : State) (stack line : Nat) : (s.touchLine stack line).memoryOk = s.memoryOk := by
  unfold State.touchLine
  extract_lets touched soon
  split
  · exact memoryOk_withQueues s _
  · rfl

theorem memoryOk_homeEffects {s : State} (h : s.memoryOk = true) (w : HomeWrite) : (s.homeEffects w).memoryOk = true := by
  unfold State.homeEffects
  extract_lets s1
  exact memoryOk_foldl (fun _ _ h => memoryOk_storeRange h _ _) _ _ ((memoryOk_touchLine s _ _).trans h)

theorem memoryOk_keepHome (s : State) (x : HomeLine) : (s.keepHome x).memoryOk = s.memoryOk := memoryOk_congr rfl rfl rfl

theorem memoryOk_withCopies (s : State) (m : List CopyLine) :
    ({ s with copies := m } : State).memoryOk = s.memoryOk := memoryOk_congr rfl rfl rfl

theorem memoryOk_writeThrough {s : State} (h : s.memoryOk = true) (w : HomeWrite) : (s.writeThrough w).memoryOk = true := by
  unfold State.writeThrough
  extract_lets s1
  refine memoryOk_homeEffects ?_ w
  unfold s1
  split
  · exact (memoryOk_keepHome _ _).trans (memoryOk_writeHome h _ w)
  · exact memoryOk_stackWrite ((memoryOk_stackRequest s _ _).trans h) w

theorem memoryOk_leaveL2 {s : State} (h : s.memoryOk = true) (x : L2Line) : (s.leaveL2 x).memoryOk = true := by
  cases x with
  | home x => exact memoryOk_evictHome h x
  | copy c =>
    have h1 := (memoryOk_withCopies s (s.copies.erase c)).trans h
    simp only [State.leaveL2]
    split
    · exact memoryOk_writeThrough h1 _
    · exact h1

theorem memoryOk_putHome {s : State} (h : s.memoryOk = true) (x : HomeLine) : (s.putHome x).memoryOk = true := by
  unfold State.putHome
  split
  · exact (memoryOk_keepHome s x).trans h
  · extract_lets s1
    refine (memoryOk_keepHome s1 x).trans ?_
    unfold s1
    split
    · exact memoryOk_leaveL2 h _
    · exact h

theorem memoryOk_toStack {s : State} (h : s.memoryOk = true) (stack line : Nat) : (s.toStack stack line).memoryOk = true := by
  unfold State.toStack
  split
  · exact memoryOk_evictHome h _
  · exact h

/-- A home write keeps the memories canonical, whatever line it displaces. -/
theorem memoryOk_homeWrite {s : State} (h : s.memoryOk = true) (w : HomeWrite) : (s.homeWrite w).memoryOk = true := by
  unfold State.homeWrite
  extract_lets r s1
  refine memoryOk_homeEffects ?_ w
  unfold s1
  split
  · exact memoryOk_stackWrite (memoryOk_toStack h _ _) w
  · exact memoryOk_putHome (memoryOk_writeHome h _ w) _

end Sys2Proof.Machine
end

