-- ==== Sys2Proof/Tests/Slice0.lean ====
section
/-! SUPPORT. Tests: ill-formed terms that the checks refuse, words of the spec that decode, worked examples of the spec, and
states that meet the hypotheses of the statements. -/

namespace Sys2Proof.Tests

set_option Elab.async false

open Sys2Proof Sys2Proof.Machine

/-! Well-formedness: one ill-formed term for each check (R74 items 3, 10 and 11). -/

/-- A register group that runs past v27. -/
theorem test_group_past_v27 : (Instr.iaddc ⟨27, 0, 1, 0, 2⟩).groupsOk = false := by decide
/-- A group operand that names a queue register. -/
theorem test_group_queue : (Instr.imad ⟨28, 0, 1, 2⟩).groupsOk = false := by decide
/-- E2M1 is no format of a scratchpad load. -/
theorem test_load_e2m1 : (Instr.lds ⟨8, .rne, false, 3, .e2m1, 0, false⟩).usesOk = false := by decide
/-- FP32 with E = 1. -/
theorem test_load_f32_e : (Instr.sts ⟨8, .rne, false, 3, .f32, 0, true⟩).usesOk = false := by decide
/-- Z = 1 with a format that is neither INT8 nor INT16. -/
theorem test_load_z : (Instr.ldx ⟨8, .rne, true, 3, .bf16, 0, false⟩).usesOk = false := by decide
/-- LDR takes FP32, BF16 and INT32 only. -/
theorem test_ldr_i8 : (Instr.ldr ⟨8, .rne, false, 3, .i8, 0, false⟩).usesOk = false := by decide
/-- LDT takes 8-bit and 16-bit formats only. -/
theorem test_ldt_i32 : (Instr.ldt ⟨8, .rne, false, 3, .i32, 0, false⟩).usesOk = false := by decide
/-- A bitwise atomic of FP32. -/
theorem test_atoms_f32_and : (Instr.atoms ⟨1, .and, 2, .f32, 3⟩).usesOk = false := by decide
/-- A special register above 19. -/
theorem test_srd_20 : (Instr.srd 3 20).usesOk = false := by decide
/-- SWR writes register 18 only. -/
theorem test_swr_17 : (Instr.swr 17 ⟨0, 5⟩).usesOk = false := by decide

/-! Decoding. Each word and its fields are written out in the spec. -/

/-- 03_encoding.md, the worked loop: C 0, S 0, G 0, OP 0x12, D 7, AP 0, AR 7, IMM7 1. -/
theorem test_decode_iadd_imm : decodeInsn 0x01238381 0 0 = .ok ⟨false, false, 0, .iaddImm ⟨7, 0, 7, 1⟩⟩ := by decide
/-- 05_integer.md: IADDC v10, v2, v5 with S = 1. -/
theorem test_decode_iaddc : decodeInsn 0x40350105 0 0 = .ok ⟨false, true, 0, .iaddc ⟨10, 0, 2, 0, 5⟩⟩ := by decide
/-- 05_integer.md: IMADW.zx v10, v3, v4 with S = 1. -/
theorem test_decode_imadw : decodeInsn 0x405501E4 0 0 = .ok ⟨false, true, 0, .imadw .zx ⟨10, 0, 3, 4⟩⟩ := by decide
/-- 05_integer.md: ISETP.lt.zx p5, v2, v6, and the same word with Z = 0. -/
theorem test_decode_isetp : decodeTableWord 32 0x00FAA106 = some (.isetp .zx .lt ⟨5, 2, 0, 6⟩) ∧
    decodeTableWord 32 0x00F2A106 = some (.isetp .sx .lt ⟨5, 2, 0, 6⟩) := by decide
/-- 04_register_space.md: WIN 3. -/
theorem test_decode_win : decodeTableWord 32 0x01618048 = some (.winImm 3) := by decide
/-- 06_float.md: FSETP.lt p2, v4, v9; FPACK.ef v7, v1, v2; FCVT.e4m3.f32.sat v6, v3; FREDUX.add v8, v2. -/
theorem test_decode_float : decodeTableWord 32 0x01E12209 = some (.fsetp .lt ⟨2, 4, 0, 9⟩) ∧
    decodeTableWord 32 0x022380A2 = some (.fpack .ef ⟨7, 0, 1, 2⟩) ∧
    decodeTableWord 32 0x025301BC = some (.fcvtE4m3F32 ⟨6, 0, 3, true, .rne⟩) ∧
    decodeTableWord 32 0x02640110 = some (.fredux .add ⟨8, 0, 2⟩) := by decide
/-- 07_group.md: BRA at words 2, 4 and 11 of the divergent branch, and JOIN v9. -/
theorem test_decode_control : decodeInsn 0x0B800004 0 0 = .ok ⟨false, false, 2, .bra 4⟩ ∧
    decodeInsn 0x0F807FFE 0 0 = .ok ⟨false, false, 3, .bra 32766⟩ ∧
    decodeTableWord 32 0x03A00498 = some (.join 9) ∧ decodeTableWord 32 0x03A00000 = some .nop := by decide
/-- 08_scratchpad.md: LDS.e4m3.bf16.n4 v8, [v3]. -/
theorem test_decode_lds : decodeTableWord 32 0x0284019D = some (.lds ⟨8, .rne, false, 3, .e4m3, 2, true⟩) := by decide
/-- Table 9-1: the words of four command posts, here with q0 and v0. -/
theorem test_decode_commands : decodeTableWord 32 0x03401C00 = some (.copy ⟨0, 0⟩) ∧
    decodeTableWord 32 0x03408000 = some (.cfence ⟨0, 0⟩) ∧ decodeTableWord 32 0x0340FE00 = some (.txrun ⟨0, 0⟩) ∧
    decodeTableWord 32 0x03410600 = some (.pref ⟨0, 0⟩) := by decide
/-- 10_barrier.md: BAR 3, BOWAIT v6, [v2] and RAWAIT v9, [v4]. -/
theorem test_decode_barrier : decodeTableWord 32 0x03C18010 = some (.bar 3) ∧
    decodeTableWord 32 0x03C30130 = some (.bowait ⟨6, 0, 2⟩) ∧ decodeTableWord 32 0x03C48248 = some (.rawait ⟨9, 0, 4⟩) := by
  decide
/-- 11_memory_model.md: FENCE.acq.cluster, FENCE.sc.device and TLWAIT.cluster v4, 0. -/
theorem test_decode_fence : decodeTableWord 32 0x03C60000 = some (.fence .acq .cluster) ∧
    decodeTableWord 32 0x03CB8000 = some (.fence .sc .device) ∧
    decodeTableWord 32 0x03C23008 = some (.tlwait 4 .cluster 0) := by decide
/-- Table 12-5 and the words beside it. -/
theorem test_decode_matrix : decodeTableWord 32 0x03510008 = some (.mmaK16 ⟨1, 0, 0, 8⟩) ∧
    decodeTableWord 32 0x0362104C = some (.mmas ⟨2, 1, 0, 12⟩) ∧ decodeTableWord 32 0x03708A01 = some (.agive 1 true ⟨0, 20⟩) ∧
    decodeTableWord 32 0x037B0BA0 = some (.msld ⟨22, 0, 23⟩) ∧
    decodeTableWord 32 0x03708530 = some (.astc ⟨1, 10, false, .rne⟩) ∧ decodeTableWord 32 0x037280B8 = some (.ainfo 5 1) := by
  decide
/-- Table 13-3: REFL.sz64 p4, v10; RSEQ.acq v12, [v10]; RACK v12, [v10]. -/
theorem test_decode_reflection : decodeTableWord 32 0x03D20503 = some (.refl 4 10 .sz64) ∧
    decodeTableWord 32 0x03D60511 = some (.rseq true ⟨12, 0, 10⟩) ∧ decodeTableWord 32 0x03D60518 = some (.rack ⟨12, 0, 10⟩) := by
  decide
/-- Tables 14-5 and 15-3: TKGET v10, TKDONE v14, DCSET v10, LAUNCH v6, [v7]. -/
theorem test_decode_tasks : decodeTableWord 32 0x03D50020 = some (.tkget false 10) ∧
    decodeTableWord 32 0x03D00730 = some (.tkdone 14) ∧ decodeTableWord 32 0x03E00500 = some (.dcset 10) ∧
    decodeTableWord 32 0x03E30390 = some (.launch ⟨6, 0, 7⟩) := by decide
/-- Tables 16-4 and 17-4: LEND v5, SRD v8, CYC, SWR LEASE, v5, TRES v3, PCHK p5, p3. -/
theorem test_decode_system : decodeTableWord 32 0x03E002A0 = some (.lend ⟨0, 5⟩) ∧
    decodeTableWord 32 0x03E405B0 = some (.srd 8 11) ∧ decodeTableWord 32 0x03E902B8 = some (.swr 18 ⟨0, 5⟩) ∧
    decodeTableWord 32 0x03E001C0 = some (.tres ⟨0, 3⟩) ∧ decodeTableWord 32 0x03E281D1 = some (.pchkPred 5 3) := by decide
/-- R68: opcodes 0x00, 0x17, 0x27 and 0x3F are unassigned. -/
theorem test_decode_unassigned : decodeInsn 0 0 0 = .error .unassigned ∧ decodeInsn 0x01700000 0 0 = .error .unassigned ∧
    decodeInsn 0x02700000 0 0 = .error .unassigned ∧ decodeInsn 0x03F00000 0 0 = .error .unassigned := by decide
/-- R67: NOP with a bit of a reserved field set. -/
theorem test_decode_reserved : decodeInsn 0x03A00080 0 0 = .error .reserved := by decide
/-- R74: a last word with C = 1, a K word at word 2, two control transfers, a target off the packet grid. -/
theorem test_packet_illegal : (decodePacket 0x03A00000 0x03A00000 0x83A00000 = .error (2, .chain)) ∧
    (decodePacket 0x03A00000 0x03A00000 (Insn.word ⟨false, false, 0, .movl 3 5⟩) = .error (2, .literal)) ∧
    (decodePacket 0x03800003 0x03A00498 0x03A00000 = .error (1, .control)) ∧
    decodePacket 0x03800004 0x03A00000 0x03A00000 = .error (0, .target) := by decide

/-! Worked examples of the spec, as the values that a word issues for lane 0. -/

/-- A word being issued for lane 0 only. -/
def tIssue : Issue := ⟨4, 1, 0, 0, 0, 0, false, false, 0, 0, false, [], []⟩

/-- The placed group with words in the registers of lane 0. -/
def tGroup (ws : List (Nat × Word)) : Group :=
  { placedGroup 0 with frame := ws.foldl (fun f p => insertAt (32 * p.1) (PWord.ok p.2) f) [] }

/-- The placed machine, which issues a word of a group. -/
def tState (g : Group) : State := { State.reset.withFetchWord 32 0x03A00000 with cur := some tIssue, groups := [(4, g)], homes := [] }

/-- The state after a word. -/
def after (i : Instr) (s : State) : State :=
  match exec i s with
  | .next t => t
  | _ => s

/-- The group after a word. -/
def groupAfter (i : Instr) (s : State) : Group := (lookup 4 (after i s).groups).getD (tGroup [])

/-- The words that an instruction issues for lane 0. -/
def gives (i : Instr) (ws : List (Nat × Word)) : List PWord := (groupAfter i (tState (tGroup ws))).outstanding.map (·.val)

/-- 05_integer.md: word 0 of the three-word addition, carry in 0. -/
theorem test_iaddc : gives (.iaddc ⟨10, 0, 2, 0, 5⟩) [(2, 0xFFFFFFFF), (5, 1)] = [.ok 0, .ok 1] := by decide
/-- Its word 2: 1 + 0 + carry 1. -/
theorem test_iaddc_carry : gives (.iaddc ⟨12, 0, 4, 0, 7⟩) [(4, 1), (12, 1)] = [.ok 2, .ok 0] := by decide
/-- 05_integer.md: base 0x40_0000_0000, row 17 and stride 128. -/
theorem test_imadw : gives (.imadw .zx ⟨10, 0, 3, 4⟩) [(3, 17), (4, 128), (11, 0x40)] = [.ok 0x880, .ok 0x40] := by decide
/-- 05_integer.md: PRMT with D = 0x0000_0123 reverses the bytes of A. -/
theorem test_prmt : gives (.prmt ⟨1, 0, 2, 0, 3⟩) [(1, 0x123), (2, 0x11223344)] = [.ok 0x44332211] := by decide
/-- 05_integer.md: D = 0x0000_8880 replicates byte 0 of A and fills the rest with its sign. -/
theorem test_prmt_sign : gives (.prmt ⟨1, 0, 2, 0, 3⟩) [(1, 0x8880), (2, 0x80)] = [.ok 0xFFFFFF80] := by decide
/-- 05_integer.md: 0xFFFF_FFF0 and 0x10 under .zx and .sx. -/
theorem test_isetp : gives (.isetp .zx .lt ⟨5, 2, 0, 6⟩) [(2, 0xFFFFFFF0), (6, 0x10)] = [.ok 0] ∧
    gives (.isetp .sx .lt ⟨5, 2, 0, 6⟩) [(2, 0xFFFFFFF0), (6, 0x10)] = [.ok 1] := by decide
/-- 06_float.md: −0 is not below +0. -/
theorem test_fsetp : gives (.fsetp .lt ⟨2, 4, 0, 9⟩) [(4, 0x80000000)] = [.ok 0] := by decide
/-- 06_float.md: FPACK.ef of 1 + 2^−8 twice, and under .rne. -/
theorem test_fpack : gives (.fpack .ef ⟨7, 0, 1, 2⟩) [(1, 0x3F808000), (2, 0x3F808000)] = [.ok 0x3F813F80] ∧
    gives (.fpack .rne ⟨7, 0, 1, 2⟩) [(1, 0x3F808000), (2, 0x3F808000)] = [.ok 0x3F803F80] := by decide
/-- 06_float.md: 500.0 saturates to 448.0 in E4M3; without SAT it becomes Canon32. -/
theorem test_fcvt : gives (.fcvtE4m3F32 ⟨6, 0, 3, true, .rne⟩) [(3, 0x43FA0000)] = [.ok 0x43E00000] ∧
    gives (.fcvtE4m3F32 ⟨6, 0, 3, false, .rne⟩) [(3, 0x43FA0000)] = [.ok 0x7FC00000] := by decide
/-- 02_number_formats.md: −7 in RN8 is 0x98. -/
theorem test_rn8 : encodeVal .rn8 (.fin true 7 0) .rne false = ⟨0x98, false, true⟩ := by decide
/-- 02_number_formats.md: four times 1 + 3/64 as E4M3 with .ef. -/
theorem test_ef : (encodeRun .e4m3 .ef false (List.replicate 4 (.fin false 67 (-6)))).map (·.code) = [0x38, 0x39, 0x38, 0x38] := by
  decide
/-- 12_accumulator.md: the element of 1,088 in a wide tile is 0x9C84_7C64_544C_4440. -/
theorem test_residue : natPair (toRes true 1088 156) = (.ok 0x544C4440, .ok 0x9C847C64) := by decide
/-- 14_queue.md: the first grant of [0, 1000) with GLOG 6 in slot 3 at generation 1 is [488, 1000). -/
theorem test_grant :
    (({ kernel := 1, ctx := 1, index := 0, die := 0, x := 0, y := 0, w := 1, h := 1, teams := [2] } : Cluster).setSlot 3
      { full := true, task := [12, 0, 1000, 0x60000, 7], next := 0, remain := 1000, gen := 1 } |>.grant 3).1 =
      [12, 488, 1000, 7, 0x00010003] := by decide
/-- R193, R185: STS.e4m3 of one byte leaves the rest of its word. -/
theorem test_sts_byte :
    ((after (.sts ⟨8, .rne, false, 3, .e4m3, 0, false⟩) { tState (tGroup [(3, 0x01FC0101), (8, 0x3F800000)]) with
      spad := [(64, .ok 0x11223344)] }).spadWord 0 64) = .ok 0x11223844 := by decide
/-- R60: a poisoned guard takes the poison-consumption trap; the context has no handler, so the group exits (R383). -/
theorem test_poisoned_guard : (groupAfter (.nop) { tState { tGroup [] with threads := [{ predPsn := 4 }] } with
    cur := some { tIssue with guard := 2 } }).st = .exiting := by decide
/-- The placed NOP runs: the step after reset issues it. -/
theorem test_placed_nop : (match step (State.reset.withFetchWord 32 0x03A00000) with
    | .next t => ((lookup 4 t.groups).map fun g => g.lastIssue).getD 0
    | _ => 0) = 1 := by decide +kernel

/-! States that meet the hypotheses of the statements: one theorem for each statement that has hypotheses, with a
conjunct for each of its cases. -/

/-- An outcome is a next state. -/
def goes : Host.Outcome State Fault Refusal → Bool
  | .next _ => true
  | _ => false

/-- Some state issues a word and meets a condition. -/
def Meets (cond : State → View → Prop) : Prop := ∃ s o g, Issues s o g ∧ cond s ⟨o, g⟩

theorem meets_in (s : State) (g : Group) {cond : State → View → Prop}
    (h : s.cur = some tIssue ∧ lookup 4 s.groups = some g ∧ (View.mk tIssue g).badGuard = 0) (c : cond s ⟨tIssue, g⟩) :
    Meets cond := ⟨s, tIssue, g, ⟨h.1, h.2.1, h.2.2⟩, c⟩

theorem meets (g : Group) {cond : State → View → Prop} (h : (View.mk tIssue g).badGuard = 0)
    (c : cond (tState g) ⟨tIssue, g⟩) : Meets cond := ⟨tState g, tIssue, g, ⟨rfl, rfl, h⟩, c⟩

/-- The placed NOP, as a whole machine. -/
def tPlaced : State := State.reset.withFetchWord 32 0x03A00000

theorem witness_DecodeEncodeRoundTrip : (∃ n : Insn, n.op.encoded = true ∧ n.op.wellFormed = true) ∧
    ∃ n, 0x01238381 < 2 ^ 32 ∧ decodeInsn 0x01238381 0 0 = .ok n := ⟨⟨⟨false, false, 0, .nop⟩, by decide⟩, ⟨false, false, 0, .iaddImm ⟨7, 0, 7, 1⟩⟩, by decide, by decide⟩

theorem witness_StepsKeepMemoryCanonical : tPlaced.memoryOk = true ∧ goes (step tPlaced) = true := by decide +kernel

theorem witness_StepRunsWhatComesNext : (∃ s : State, ∃ i rest, s.inputs = i :: rest) ∧
    (∃ s : State, s.inputs = [] ∧ ∃ i, s.prompt = some i) ∧
    (∃ s : State, s.inputs = [] ∧ s.prompt = none ∧ s.actions ≠ []) ∧
    (∃ s : State, s.inputs = [] ∧ s.prompt = none ∧ s.actions = [] ∧ ∃ c, s.nextCore = some c) ∧
    ∃ s : State, s.inputs = [] ∧ s.prompt = none ∧ s.actions = [] ∧ s.nextCore = none :=
  ⟨⟨{ inputs := [.hostPortLinkUp 1] }, _, _, rfl⟩,
   ⟨{ groups := [(4, { tGroup [] with st := .exiting })] }, rfl, .groupRetire 4, by decide +kernel⟩,
   ⟨{ tPlaced with inflight := [(1, { gid := 4, target := 0, op := .store [] })] }, by decide +kernel, by decide +kernel, by decide +kernel⟩,
   ⟨tPlaced, by decide +kernel, by decide +kernel, by decide +kernel, 0, by decide +kernel⟩,
   ⟨{ tPlaced with groups := [] }, by decide +kernel, by decide +kernel, by decide +kernel, by decide +kernel⟩⟩

/-- A word that group 4 issues takes effect. -/
def tTakes (s : State) (o : Issue) (i : Instr) : Bool :=
  match exec i { s with cur := some (s.reading o i), signal := .issued } with
  | .next t => t.signal == .issued
  | _ => false

/-- The state after one word of a unit that takes effect. -/
def tIssued (s : State) (x : Issue × Instr) : Option State :=
  match execWord s x with
  | .next u => if u.signal == .issued then some u else none
  | _ => none

/-- The words of the first unit of a packet that begins with a chained word, and the state before them. -/
def tUnit (i : Instr) : State × List (Issue × Instr) :=
  let g := placedGroup 0
  let s := State.reset.withFetchWord 32 (Insn.word ⟨true, false, 0, i⟩)
  let t := s.turnOf g
  match decodePacket (s.codeWord 0 g.code t.k) (s.codeWord 0 g.code (t.k + 1)) (s.codeWord 0 g.code (t.k + 2)) with
  | .ok r => (s.setGroup 4 (g.begin t), issuesOf g 4 t false (takeUnit (r.dropWhile fun y => y.1 < t.start)))
  | .error _ => (s, [])

theorem witness_IssueRunsTheDecodedWord :
    (let g := placedGroup 0
     let t := tPlaced.turnOf g
     t.k < g.code.words ∧ ∃ r x, decodePacket (tPlaced.codeWord 0 g.code t.k) (tPlaced.codeWord 0 g.code (t.k + 1))
         (tPlaced.codeWord 0 g.code (t.k + 2)) = .ok r ∧ takeUnit (r.dropWhile fun y => y.1 < t.start) = [x] ∧
       Instr.releasing x.2.op = false ∧ tTakes (tPlaced.setGroup 4 (g.begin t)) (issueOf g 4 t false x) x.2.op = true) ∧
    (let o := { tIssue with act := 0xFFFFFFFF }
     let s := tPlaced.setGroup 4 { placedGroup 0 with threads := List.replicate 32 {}, remote := 1 }
     let sent : State := { s with inflight := [(7, { gid := 4, target := 1, op := .store [] })] }
     Instr.releasing (.bar 0) = true ∧ tTakes sent o (.bar 0) = false ∧ tTakes (sent.performAll 4) o (.bar 0) = true ∧
       tTakes tPlaced o (.iadd ⟨1, 0, 29, 0, 3⟩) = false) ∧
    (let two := tUnit (.iadd ⟨1, 0, 2, 0, 3⟩)
     two.2.map (·.2) = [.iadd ⟨1, 0, 2, 0, 3⟩, .nop] ∧ (two.2.all fun y => (tIssued two.1 y).isSome) = true ∧
       ((two.2.foldl (fun (t : Option State) y => t.bind fun a => tIssued a y) (some two.1)).isSome = true)) ∧
    (let two := tUnit (.iadd ⟨1, 0, 29, 0, 3⟩)
     two.2.length = 2 ∧ ((two.2[0]?).map fun y => goes (execWord two.1 y) && (tIssued two.1 y).isNone) = some true) ∧
    (let g := placedGroup 0
     let s := State.reset.withFetchWord 32 0
     let t := s.turnOf g
     t.k < g.code.words ∧ ∃ p e, decodePacket (s.codeWord 0 g.code t.k) (s.codeWord 0 g.code (t.k + 1))
       (s.codeWord 0 g.code (t.k + 2)) = .error (p, e)) ∧
    (match tPlaced.pickGroup 0 with
      | some (gid, g, _) => goes (tPlaced.issueUnit gid g)
      | none => false) = true :=
  ⟨⟨by decide +kernel, [(0, ⟨false, false, 0, .nop⟩), (1, ⟨false, false, 0, .nop⟩), (2, ⟨false, false, 0, .nop⟩)],
      (0, ⟨false, false, 0, .nop⟩), by decide +kernel, by decide +kernel, by decide, by decide +kernel⟩, by decide +kernel,
   by decide +kernel, by decide +kernel,
   ⟨by decide +kernel, 0, .unassigned, by decide +kernel⟩, by decide +kernel⟩

/-- Threads at word 3 that have waited for 64 packets, and others at word 0. -/
def tStarved : Group := { tGroup [] with threads := List.replicate 16 {} ++ List.replicate 16 { pc := 3, waitCount := 64 } }

theorem witness_SchedulerPicksThePacket :
    (tStarved.unit = none ∧ tStarved.threads.length = 32 ∧ (tStarved.thread 31).st = .ready ∧
      64 ≤ tStarved.age (tStarved.thread 31).pc ∧ tStarved.pickPc = 3) ∧
    (∀ L < 32, ((tGroup []).thread L).st = .ready ∧ (tGroup []).age ((tGroup []).thread L).pc < 64) ∧
    ∃ t : Turn, t.act = (tGroup []).place.2.1 ∧ t.fresh = true :=
  ⟨by decide +kernel, by decide +kernel, ⟨0, _, 0, true, .error 0⟩, rfl, rfl⟩

theorem witness_WordsLeaveMemoryUnchanged : (Instr.nop).encoded = true ∧ (∀ x, Instr.nop ≠ .rseq true x) ∧
    (∀ x, Instr.nop ≠ .launch x) ∧ goes (exec .nop (tState (tGroup []))) = true :=
  ⟨by decide, fun _ => nofun, fun _ => nofun, by decide +kernel⟩

theorem witness_RegisterWordsFrame : intRule (.iadd ⟨1, 0, 2, 0, 3⟩) ≠ none ∧
    (∃ o g, (tState (tGroup [])).cur = some o ∧ lookup o.gid (tState (tGroup [])).groups = some g) ∧
    (after (.iadd ⟨1, 0, 2, 0, 3⟩) (tState (tGroup []))).signal = .issued :=
  ⟨nofun, ⟨tIssue, tGroup [], rfl, rfl⟩, by decide +kernel⟩

/-- A load or store of one word of FP32, its data in v8 and its address in v3. -/
def tMem : OpMem := ⟨8, .rne, false, 3, .f32, 0, false⟩

theorem witness_StoresWriteOnlyTheirBytes :
    (∃ o g, (tState (tGroup [])).cur = some o ∧ lookup o.gid (tState (tGroup [])).groups = some g) ∧
    goes (exec (.sts tMem) (tState (tGroup []))) = true ∧ goes (exec (.stx tMem) (tState (tGroup []))) = true ∧
    goes (exec (.stt ⟨8, .rne, false, 3, .i8, 0, false⟩) (tState (tGroup []))) = true ∧
    goes (exec (.atoms ⟨1, .add, 2, .u32, 3⟩) (tState (tGroup []))) = true ∧
    goes (exec (.atomx ⟨1, .add, 2, .u32, 3⟩) (tState (tGroup []))) = true ∧
    goes (exec (.cass ⟨1, 2, .b32, 3⟩) (tState (tGroup []))) = true ∧
    goes (exec (.casx ⟨1, 2, .b32, 3⟩) (tState (tGroup []))) = true :=
  ⟨⟨tIssue, tGroup [], rfl, rfl⟩, by decide +kernel, by decide +kernel, by decide +kernel, by decide +kernel,
    by decide +kernel, by decide +kernel, by decide +kernel⟩

theorem witness_IntegerAndFloatWordResults : ∃ i w, intRule i = some w ∧ w.d < 28 ∧ Instr.plainSources i ∧ Meets fun _ _ => True :=
  ⟨.iadd ⟨27, 7, 27, 3, 27⟩, _, rfl, by decide, by constructor <;> (rintro p ⟨⟩ ; decide), meets (tGroup []) (by decide) trivial⟩

theorem witness_PairPredicateAndCrossLaneResults :
    (∃ i w, pairRule i = some w ∧ w.d < 27 ∧ Instr.plainSources i) ∧ (∃ i w, predRule i = some w ∧ Instr.plainSources i) ∧
    (∃ i w, crossRule i = some w ∧ w.d < 28 ∧ Instr.plainSources i) ∧ Meets fun _ _ => True :=
  ⟨⟨.iaddc ⟨26, 0, 2, 0, 3⟩, _, rfl, by decide, by constructor <;> (rintro p ⟨⟩; decide)⟩,
   ⟨.isetp .zx .lt ⟨15, 2, 0, 6⟩, _, rfl, by constructor <;> (rintro p ⟨⟩; decide)⟩,
   ⟨.fredux .add ⟨27, 0, 2⟩, _, rfl, by decide, by constructor <;> (rintro p ⟨⟩ <;> decide)⟩, meets (tGroup []) (by decide) trivial⟩

/-- A machine with a placed group, its q1 bound to status queue 0, which holds these words; q0 is bound to command queue
0. -/
def tStatus (g : Group) (ws : List Word) : State := { tState g with engines := [(engineId 1 0 0, { status := ws })] }

/-- The placed group with n words in that queue. -/
def tQueue (n : Nat) : State := tStatus (tGroup []) (List.replicate n 7)

theorem witness_WordsInEveryForm : ∃ w t, intRule (.iadd ⟨28, 0, 29, 0, 3⟩) = some w ∧
    exec (.iadd ⟨28, 0, 29, 0, 3⟩) (tQueue 1) = .next t ∧ t.signal = .issued ∧
    Issues (tQueue 1) tIssue (tGroup []) := ⟨_, _, rfl, rfl, by decide +kernel, ⟨rfl, rfl, by decide⟩⟩

theorem witness_QueueOperands :
    (let v : View := ⟨{ tIssue with act := 0 }, tGroup []⟩
     isQueue 28 = true ∧ v.lanes = []) ∧
    (let v : View := ⟨tIssue, tGroup []⟩
     isQueue 29 = true ∧ v.lanes ≠ [] ∧ (v.g.binding 29).toNat / 32 = 2 ∧
       v.lanes.length ≤ ((tQueue 1).engine (engineKey v.g (v.g.binding 29))).status.length ∧
       ((tQueue 0).engine (engineKey v.g (v.g.binding 29))).status.length < v.lanes.length ∧
       (v.g.binding 28).toNat / 32 ≠ 2 ∧ (v.g.binding 28).toNat / 32 ≠ 3 ∧
       (v.g.binding 28).toNat / 32 = 1 ∧ 0 < ((tQueue 0).bucket v.g.ctx (dieOf v.g.core)).level ∧
       v.lanes.length ≤ (tQueue 0).commandRoom v.g.ctx v.g.core ((v.g.binding 28).toNat % 4)) ∧
    (let v : View := ⟨tIssue, tGroup []⟩
     let full : State := { tQueue 0 with engines := [(engineId 1 0 0, { queue := List.replicate 512 ⟨0, 4, 2, 1⟩ })] }
     full.commandRoom v.g.ctx v.g.core ((v.g.binding 28).toNat % 4) < v.lanes.length ∧ 0 < (full.bucket v.g.ctx (dieOf v.g.core)).level) ∧
    ({ tQueue 0 with buckets := [(4, { level := 0 })] } : State).bucket 1 0 = { level := 0 } :=
  ⟨by decide +kernel, by decide +kernel, by decide +kernel, by decide +kernel⟩

theorem witness_PredicateLogic : Meets (fun _ _ => True) ∧ (27 : Reg).val < 28 ∧ 28 ≤ (28 : Reg).val :=
  ⟨meets (tGroup []) (by decide) trivial, by decide, by decide⟩

theorem witness_SelectAndPoisonWords : (∃ (s : State) (o : Issue) (g : Group), s.cur = some o ∧ lookup o.gid s.groups = some g ∧ (27 : Reg).val < 28) ∧
    (15 : Pred).val ≠ 0 ∧ Meets fun _ _ => True :=
  ⟨⟨tState (tGroup []), tIssue, tGroup [], rfl, rfl, by decide⟩, by decide, meets (tGroup []) (by decide) trivial⟩

theorem witness_QbindRebinds :
    (({ tGroup [] with deferred := [.qbind 3 0x80] } : Group).deferred = [.qbind 3 0x80]) ∧
    (let g := { tGroup [] with priv := false }
     (tState g).cur = some tIssue ∧ lookup 4 (tState g).groups = some g ∧ g.priv = false) ∧
    (let s := tState (tGroup [(3, 0x43)])
     let v : View := ⟨tIssue, tGroup [(3, 0x43)]⟩
     v.g.priv = true ∧ v.badGuard = 0 ∧ ∃ a t, s.operand v 0 3 = .ok (a, t) ∧ v.first = some 0 ∧ (a 0).psn = false ∧
       bindOk ((a 0).val.truncate 8) = true) ∧
    (let s := tState (tGroup [(3, 0x44)])
     let v : View := ⟨tIssue, tGroup [(3, 0x44)]⟩
     ∃ a t, s.operand v 0 3 = .ok (a, t) ∧ v.first = some 0 ∧ (a 0).psn = false ∧ bindOk ((a 0).val.truncate 8) = false) ∧
    (let g := { tGroup [] with frame := [(96, PWord.poison)] }
     ∃ a t, (tState g).operand ⟨tIssue, g⟩ 0 3 = .ok (a, t) ∧ (a 0).psn = true) ∧
    (View.mk { tIssue with act := 0 } (tGroup [])).lanes = [] :=
  ⟨rfl, ⟨rfl, rfl, rfl⟩, ⟨rfl, by decide, _, _, rfl, by decide +kernel, by decide +kernel, by decide +kernel⟩,
   ⟨_, _, rfl, by decide +kernel, by decide +kernel, by decide +kernel⟩, ⟨_, _, rfl, by decide +kernel⟩, by decide⟩

theorem witness_WindowsAndPatterns :
    Meets (fun _ v => 8 * (12 : Fin 16).val + 28 ≤ v.g.regs) ∧
    Meets (fun _ v => v.cleanA (.winReg ⟨0, 3⟩) ∧
      ∀ L ∈ v.lanes, 8 * (v.source (Instr.srcA (.winReg ⟨0, 3⟩)) L).val.toNat + 28 ≤ v.g.regs) ∧
    Meets (fun _ v => v.lowestWord (.ptn 7 ⟨0, 3⟩) 0) ∧
    (let g := { tGroup [] with deferred := [.win 31 12] }
     31 < g.threads.length ∧ g.deferred = [.win 31 12]) ∧
    ({ tGroup [] with deferred := [.ptn 7 1] } : Group).deferred = [.ptn 7 1] ∧
    Meets (fun _ v => v.lanes ≠ [] ∧ v.g.regs < 8 * (13 : Fin 16).val + 28) ∧
    Meets fun _ v => v.cleanA (.winReg ⟨0, 3⟩) ∧ 0 ∈ v.lanes ∧ v.g.regs < 8 * (v.source (some (0, 3)) 0).val.toNat + 28 ∧
      ∀ J ∈ v.lanes, ¬ J < 0 :=
  ⟨meets (tGroup []) (by decide) (by decide), meets (tGroup [(3, 12)]) (by decide) ⟨by unfold View.cleanA; decide, by decide⟩,
   meets (tGroup []) (by decide) ⟨0, by decide, by decide⟩, by decide, rfl, meets (tGroup []) (by decide) (by decide),
   meets (tGroup [(3, 13)]) (by decide) (by unfold View.cleanA; decide)⟩

theorem witness_GuardsAndIllegalPackets :
    (let o := { tIssue with guard := 15 }
     let g := { tGroup [] with threads := [{ predPsn := 0x8000 }] }
     let s := { tState g with cur := some o }
     intRule (.iadd ⟨1, 0, 2, 0, 3⟩) ≠ none ∧ s.cur = some o ∧ lookup o.gid s.groups = some g ∧
       lanesOf (View.mk o g).badGuard = [0]) ∧
    (tState (tGroup [])).cur = some tIssue ∧ lookup tIssue.gid (tState (tGroup [])).groups = some (tGroup []) :=
  ⟨⟨nofun, rfl, rfl, by decide⟩, rfl, rfl⟩

/-! Scratchpad, tile store, copy commands and matrix words. -/

/-- The placed machine with words in lane 0. -/
def tS (ws : List (Nat × Word)) : State := tState (tGroup ws)

/-- The placed group with a second core: its cluster is two teams wide, and team 6 of rank 1 lies on core 1. -/
def tWide (g : Group) : State :=
  { tState g with
    teams := [(2, { core := 0, rank := 0, clx := 0, cly := 0, cluster := 3, kernel := 1, ctx := 1, shade := false, ngroups := 1
                    base := 0, granules := 2, ckpt := none, left := 1 }),
              (6, { core := 1, rank := 1, clx := 1, cly := 0, cluster := 3, kernel := 1, ctx := 1, shade := false, ngroups := 1
                    base := 0, granules := 2, ckpt := none, left := 1 })]
    clusters := [(3, { kernel := 1, ctx := 1, index := 0, die := 0, x := 0, y := 0, w := 2, h := 1, teams := [2, 6] })] }

/-- Lane 0's address passes its checks and leads to core 0. -/
def tOwn (s : State) (x : OpMem) (a : Lanes) : Prop :=
  let v : View := ⟨tIssue, ((lookup 4 s.groups).getD (tGroup []))⟩
  v.lanes ≠ [] ∧ s.passes v false x.bytes x.align a ∧ s.allOn v x.bytes a 0

/-- The last word of the allotment of two granules. -/
theorem witness_ScratchpadAccessesAtOwnCore : tMem.ar.val < 28 ∧ tMem.d.val < 28 ∧
    Meets (fun s v => s.passes v true tMem.bytes tMem.align (v.address tMem) ∧
      s.allOn v tMem.bytes (v.address tMem) v.g.core) ∧
    (Meets fun s v => s.passes v false tMem.bytes tMem.align (v.address tMem) ∧
      s.allOn v tMem.bytes (v.address tMem) v.g.core) ∧
    (let popped : OpMem := { tMem with ar := 29 }
     ∃ a t, (tStatus (tGroup []) [0x3FFC]).operand ⟨tIssue, tGroup []⟩ 0 popped.ar.val = .ok (a, t) ∧ 28 ≤ popped.ar.val ∧
       popped.d.val < 28 ∧ tOwn (tStatus (tGroup []) [0x3FFC]) popped a) ∧
    (let pushed : OpMem := { tMem with d := 28 }
     ∃ a t, (tS [(3, 0x3FFC)]).operand ⟨tIssue, tGroup [(3, 0x3FFC)]⟩ 0 pushed.ar.val = .ok (a, t) ∧ 28 ≤ pushed.d.val ∧
       tOwn (tS [(3, 0x3FFC)]) pushed a) ∧
    (let both : OpMem := { tMem with ar := 29, d := 29 }
     ∃ a b t, (tStatus (tGroup []) [0x3FFC, 9]).storeOperands ⟨tIssue, tGroup []⟩ both = .ok (a, b, t) ∧
       tOwn (tStatus (tGroup []) [0x3FFC, 9]) both a) :=
  ⟨by decide, by decide, meets (tGroup [(3, 0x3FFC)]) (by decide) (by unfold State.passes State.allOn; decide +kernel),
   meets (tGroup [(3, 0x01FC3FFC)]) (by decide) (by unfold State.passes State.allOn; decide +kernel),
   ⟨_, _, rfl, by decide, by decide, by unfold tOwn State.passes State.allOn; decide +kernel⟩,
   ⟨_, _, rfl, by decide, by unfold tOwn State.passes State.allOn; decide +kernel⟩,
   ⟨_, _, _, rfl, by unfold tOwn State.passes State.allOn; decide +kernel⟩⟩

/-- An access under way to core 1, and the machine that holds it. -/
def tAway (op : RemoteOp) : Remote := { gid := 4, target := 1, op := op }

def tFlight (r : Remote) : State := { tS [] with inflight := [(7, r)] }

/-- Steps at an object of core 1, then at one of core 0, after which the group's access ends. -/
def tActs : List (Nat × Nat × Nat × ObjAct) := [(0, 1, 0, .release), (31, 0, 16, .release)]

theorem witness_RemoteScratchpadAccesses :
    Meets (fun s v => v.lanes ≠ [] ∧ 1 ≠ v.g.core ∧ s.passes v false tMem.bytes tMem.align (v.address tMem) ∧
      s.allOn v tMem.bytes (v.address tMem) 1) ∧
    (∀ w ∈ [1, 2, 4], Meets fun s v => v.lanes ≠ [] ∧ 1 ≠ v.g.core ∧
      s.passes v false (4 * w) (min (4 * w) 16) (fun L => v.g.reg L 3) ∧ s.allOn v (4 * w) (fun L => v.g.reg L 3) 1) ∧
    Meets (fun s v => v.lanes ≠ [] ∧ s.passes v false tMem.bytes tMem.align (v.address tMem) ∧
      otherCores v.g.core (s.places v tMem.bytes (v.address tMem)) ≠ []) ∧
    (∀ away ∈ [false, true], ∃ r, Meets fun s v => s.passes v false 16 16 (v.source (some (0, 3))) ∧ v.acquires ∧
      s.places v 16 (v.source (some (0, 3))) = [] ++ r :: [] ∧ s.reaching v.o.gid [v.g.core] = away ∧
      (away = false → r.2.core ≠ v.g.core)) ∧
    (∀ op ∈ [RemoteOp.load tMem [(0, 0)], .store [(0, PWord.ok 1, 0xFFFFFFFF)], .test [(31, 1, 0), (30, 2, 0)] [],
        .atom ⟨1, .add, 2, .u32, 3⟩ [(0, 0, [PWord.ok 1])], .cas ⟨1, 2, .b32, 3⟩ [(0, 0, [PWord.ok 1], [PWord.ok 0])],
        .objects tIssue true tActs],
      lookup 7 (tFlight (tAway op)).inflight = some (tAway op) ∧ (tFlight (tAway op)).remoteFirst 7 (tAway op) = true ∧
        (tFlight (tAway op)).passMay (tAway op) = true) ∧
    (tFlight { tAway (.atom ⟨1, .add, 2, .u32, 3⟩ []) with pass := some 1, target := 0 }).passMay
      { tAway (.atom ⟨1, .add, 2, .u32, 3⟩ []) with pass := some 0, target := 0 } = true ∧
    (let bad := fun (s : State) => maskOf fun L => tActs.any fun a => a.1 == L && wordsPsn (s.object a.2.1 a.2.2.1)
     bad (tFlight (tAway (.objects tIssue true tActs))) = 0 ∧ tActs = [(0, 1, 0, .release)] ++ (31, 0, 16, .release) :: [] ∧
       bad { tFlight (tAway (.objects tIssue true tActs)) with spad := [(4, PWord.poison)] } = 0x80000000) :=
  ⟨meets_in (tWide (tGroup [(3, 0x43FFC)])) (tGroup [(3, 0x43FFC)]) (by decide +kernel)
    (by unfold State.passes State.allOn; decide +kernel),
   fun w h => meets_in (tWide (tGroup [(3, 0x43FF0)])) (tGroup [(3, 0x43FF0)]) (by decide +kernel)
    (by unfold State.passes State.allOn; revert w; decide +kernel),
   meets_in (tWide (tGroup [(3, 0x43FFC)])) (tGroup [(3, 0x43FFC)]) (by decide +kernel)
    (by unfold State.passes; decide +kernel),
   fun w h => ⟨(0, ⟨if w then 2 else 6, if w then 0 else 1, 0x3FF0⟩), meets_in
    { tWide (tGroup [(3, if w then 0x3FF0 else 0x43FF0)]) with
      inflight := if w then [(7, { gid := 4, target := 0, op := .store [] })] else [] }
    (tGroup [(3, if w then 0x3FF0 else 0x43FF0)]) (by revert w; decide +kernel)
    (by unfold State.passes View.acquires; revert w; decide +kernel)⟩, by decide +kernel, by decide +kernel, by decide +kernel⟩

/-- A handler group of group 5, with its tile-store address in v3, and the machine with both. -/
def tView (a : Word) : Group := { tGroup [(3, a)] with handles := some 5 }

def tBoth (a : Word) : State := { tState (tView a) with groups := [(4, tView a), (5, { tGroup [] with st := .trapped })] }

/-- Lane 0 alone, at a tile-store place that passes its checks. -/
theorem frame_passes {s : State} {v : View} {x : OpMem} {store : Bool} {a : Lanes} {r : TileRef}
    (h : v.lanes = [0] ∧ tileCheck v (s.served v.g) store x.bytes x.align (a 0) = none ∧
      tileRef v (s.served v.g) store x.bytes (a 0).val.toNat = some r ∧ (s.served v.g).all (·.resident) = true ∧
      (match r with
        | .own p => (v.g.takingAt p x.bytes).isNone
        | .frame p => (s.served v.g).all fun g => (g.takingAt p x.bytes).isNone
        | _ => true) = true) : s.framePasses v x store a fun _ => r := by
  obtain ⟨hl, hc, hr, hs, ht⟩ := h
  refine ⟨fun g hg => by rw [hg] at hs; exact hs, fun L hL => ?_⟩
  rw [hl, List.mem_singleton] at hL
  subst hL
  refine ⟨hc, hr, ?_, ?_⟩
  · rintro p rfl
    exact Option.isNone_iff_eq_none.mp ht
  · rintro p g rfl hg
    rw [hg] at ht
    exact Option.isNone_iff_eq_none.mp ht

theorem witness_TransposingAndTileStoreAccesses :
    (let x : OpMem := ⟨27, .rne, false, 27, .i8, 0, false⟩
     Meets fun s v => v.lanes ≠ [] ∧ s.rowsPass v x (v.address x)) ∧
    (∀ store ∈ [false, true], Meets fun s v => v.lanes ≠ [] ∧
      s.framePasses v tMem store (v.address tMem) fun _ => .own 0x5800) ∧
    (∀ store ∈ [false, true], Meets fun s v => v.lanes ≠ [] ∧
      s.framePasses v tMem store (v.address tMem) fun _ => .frame 0x1800) ∧
    Meets (fun s v => v.lanes ≠ [] ∧ s.framePasses v tMem true (v.address tMem) fun _ => .block 508) ∧
    Meets (fun s v => v.lanes ≠ [] ∧ s.framePasses v tMem false (v.address tMem) fun _ => .record 60) ∧
    (let s := tStatus (tGroup []) [0x20]
     let v : View := ⟨tIssue, tGroup []⟩
     let x : OpMem := ⟨27, .rne, false, 29, .i8, 0, false⟩
     v.lanes ≠ [] ∧ (∃ a t, s.operand v 0 x.ar.val = .ok (a, t) ∧ s.rowsPass v x a) ∧
       ∃ a b t, s.storeOperands v x = .ok (a, b, t) ∧ s.rowsPass v x a) ∧
    (let g := { tGroup [] with tsz := 1 }
     let s := tStatus g [0x5800]
     let v : View := ⟨tIssue, g⟩
     let x : OpMem := { tMem with ar := 29 }
     (∃ a t, s.operand v 0 x.ar.val = .ok (a, t) ∧ s.framePasses v x false a fun _ => .own 0x5800) ∧
       ∃ a b t, s.storeOperands v x = .ok (a, b, t) ∧ s.framePasses v x true a fun _ => .own 0x5800) := by
  have two : ∀ store ∈ [false, true], store = false ∨ store = true := by decide
  refine ⟨meets (tGroup [(27, 0x20)]) (by decide) (by unfold State.rowsPass; decide +kernel), fun store h => ?_, fun store h => ?_,
    ?_, ?_, ?_, ?_⟩
  · rcases two store h with rfl | rfl <;>
      exact meets { tGroup [(3, 0x5800)] with tsz := 1 } (by decide) ⟨by decide, frame_passes (by decide +kernel)⟩
  · rcases two store h with rfl | rfl <;>
      exact meets_in (tBoth 0x101800) (tView 0x101800) (by decide +kernel) ⟨by decide, frame_passes (by decide +kernel)⟩
  · exact meets_in (tBoth 0x1801FC) (tView 0x1801FC) (by decide +kernel) ⟨by decide, frame_passes (by decide +kernel)⟩
  · exact meets_in (tBoth 0x19003C) (tView 0x19003C) (by decide +kernel) ⟨by decide, frame_passes (by decide +kernel)⟩
  · exact ⟨by decide, ⟨_, _, rfl, by unfold State.rowsPass; decide +kernel⟩, ⟨_, _, _, rfl, by unfold State.rowsPass; decide +kernel⟩⟩
  · exact ⟨⟨_, _, rfl, frame_passes (by decide +kernel)⟩, ⟨_, _, _, rfl, frame_passes (by decide +kernel)⟩⟩

theorem witness_Atomics :
    (∀ lo ∈ [true, false], ∃ (s : State) (v : View), s.passes v lo 8 8 (fun L => v.g.reg L 2) ∧
      s.allOn v 8 (fun L => v.g.reg L 2) v.g.core ∧ v.lanes ≠ []) ∧
    wordsPsn ((tS []).spadWords 0 0 2) = false ∧ wordsPsn [PWord.ok 1, PWord.ok 0] = false ∧ wordsPsn [PWord.poison] = true ∧
    wordsNat ((tS []).spadWords 0 0 2) = wordsNat [PWord.ok 0, PWord.ok 0] ∧
    wordsNat ((tS []).spadWords 0 0 2) ≠ wordsNat [PWord.ok 0, PWord.ok 1] ∧
    ((tS []).onePass ⟨tIssue, tGroup []⟩ 2 (fun L => (tGroup []).reg L 2)) ∧
    (let g := { tGroup [] with shade := true }
     let v : View := ⟨{ tIssue with act := 0xFFFFFFFF }, g⟩
     ¬ (tState g).onePass v 2 fun L => v.g.reg L 2) :=
  ⟨fun lo h => ⟨tS [(2, 0x3FF8)], ⟨tIssue, tGroup [(2, 0x3FF8)]⟩, by
     unfold State.passes State.allOn
     revert lo
     decide +kernel⟩, by decide +kernel, by decide +kernel, by decide, by decide +kernel, by decide +kernel,
   by unfold State.onePass; decide +kernel, by unfold State.onePass; decide +kernel⟩

theorem witness_AddressTrapsInOrder :
    ∀ k ∈ [1, 2, 4], ∃ g : Group, Issues (tState g) tIssue g ∧
      let v : View := ⟨tIssue, g⟩
      let check := fun L => spadCheck (tState g) v true tMem.bytes tMem.align (v.address tMem L)
      (∃ L ∈ v.lanes, check L = some k) ∧ ∀ L ∈ v.lanes, ∀ j, check L = some j → k ≤ j := by
  have h : ∀ g : Group, (View.mk tIssue g).badGuard = 0 → Issues (tState g) tIssue g := fun g h => ⟨rfl, rfl, h⟩
  have one : ∀ (g : Group) (k : Nat), (View.mk tIssue g).lanes = [0] →
      spadCheck (tState g) ⟨tIssue, g⟩ true tMem.bytes tMem.align ((View.mk tIssue g).address tMem 0) = some k →
      let v : View := ⟨tIssue, g⟩
      let check := fun L => spadCheck (tState g) v true tMem.bytes tMem.align (v.address tMem L)
      (∃ L ∈ v.lanes, check L = some k) ∧ ∀ L ∈ v.lanes, ∀ j, check L = some j → k ≤ j := by
    intro g k hl hc
    simp only [hl, List.mem_singleton]
    exact ⟨⟨0, rfl, hc⟩, fun L hL j hj => by subst hL; rw [hc] at hj; cases hj; exact Nat.le_refl _⟩
  intro k hk
  simp only [List.mem_cons, List.not_mem_nil, or_false] at hk
  rcases hk with rfl | rfl | rfl
  · exact ⟨{ tGroup [] with frame := [(96, PWord.poison)] }, h _ (by decide), one _ _ (by decide) (by decide +kernel)⟩
  · exact ⟨tGroup [(3, 0x4000)], h _ (by decide), one _ _ (by decide) (by decide +kernel)⟩
  · exact ⟨tGroup [(3, 0x3FFB)], h _ (by decide), one _ _ (by decide) (by decide +kernel)⟩

theorem witness_CommandWords :
    (∃ cmd n o, cmdRule (.copy ⟨0, 8⟩) = some (cmd, n, o) ∧ Meets fun s v => v.lanes ≠ [] ∧ s.takes v o.q.val (v.lanes.length * (n + 1))) ∧
    Meets (fun _ v => v.lanes = []) ∧
    (let v : View := ⟨tIssue, tGroup []⟩
     v.lanes ≠ [] ∧ (v.bound 1).toNat / 32 ≠ 1 ∧ (v.bound 0).toNat / 32 = 1 ∧
       (({ tS [] with buckets := [(4, { level := 0 })] } : State).bucket 1 0).level ≤ 0 ∧
       0 < ((tS []).bucket 1 0).level ∧
       ({ tS [] with engines := [(engineId 1 0 0, { queue := List.replicate 506 ⟨0, 4, 2, 1⟩ })] } : State).commandRoom 1 0 0 < 1 * (6 + 1)) :=
  ⟨⟨1, 6, ⟨0, 8⟩, rfl, meets (tGroup []) (by decide) (by unfold State.takes; decide +kernel)⟩,
   ⟨{ tS [] with cur := some { tIssue with act := 0 } }, { tIssue with act := 0 }, tGroup [], ⟨rfl, rfl, by decide⟩, by decide⟩,
   by decide +kernel⟩

/-- The placed group with tile 0 held by the engine, and format slots 0 and 1 holding a word. -/
def tMatrix (w : Word) : Group :=
  { tGroup [] with tiles := [(0, { st := .engine })], slots := [some ⟨w, 0⟩, some ⟨w, 0⟩, none, none, none, none, none, none] }

theorem witness_MatrixWordsQueueProducts :
    (∃ sh o sig, mmaRule (.mmaK16 ⟨0, 0, 8, 12⟩) = some (sh, o, sig) ∧
      Meets fun s v => MmaReady s v sh o ⟨0x10000, 0⟩ ⟨0x10000, 0⟩) ∧
    (∃ sh o sig, mmaRule (.mmaSig true ⟨0, 0, 8, 12⟩ 5) = some (sh, o, sig) ∧ Meets fun s v => MmaReady s v sh o ⟨0, 0⟩ ⟨0, 0⟩) ∧
    ∃ sh o sig, mmaRule (.mmas ⟨0, 0, 8, 12⟩) = some (sh, o, sig) ∧
      Meets fun s v => MmaReady s v sh o ⟨0x10000, 0⟩ ⟨0x10000, 0⟩ :=
  ⟨⟨0, ⟨0, 0, 8, 12⟩, none, rfl, meets (tMatrix 0x10000) (by decide) (by constructor <;> decide +kernel)⟩,
   ⟨1, ⟨0, 0, 8, 12⟩, some 5, rfl, meets (tMatrix 0) (by decide) (by constructor <;> decide +kernel)⟩,
   ⟨2, ⟨0, 0, 8, 12⟩, none, rfl, meets { tMatrix 0x10000 with frame := [(16 * 32, PWord.ok 0x44444444)] } (by decide)
     (by constructor <;> decide +kernel)⟩⟩

theorem witness_MatrixTraps :
    (∃ o sig, mmaRule (.mmaK16 ⟨1, 0, 8, 12⟩) = some (0, o, sig) ∧ (tMatrix 0).accn ≤ o.t.val) ∧
    (∃ o sig, mmaRule (.mmaK16 ⟨0, 3, 8, 12⟩) = some (0, o, sig) ∧ o.t.val < (tMatrix 0).accn ∧
      ((tGroup []).tile o.t.val).st ≠ .engine ∧ ((tMatrix 0).tile o.t.val).st = .engine ∧
      (tMatrix 0).slots.getD (2 * o.fs.val) none = none) ∧
    (slotRfmt 0 ≠ 1 ∧ slotRfmt 0x10000 = 1 ∧ slotWide 0x50000 ≠ ((tMatrix 0x50000).tile 0).wide ∧
      slotWide 0x10000 = ((tMatrix 0x10000).tile 0).wide ∧ slotQ 0x10001 + slotQ 0x10001 ≠ ((tMatrix 0x10001).tile 0).q) ∧
    Meets fun _ v => v.lanes ≠ [] :=
  ⟨⟨_, _, rfl, by decide⟩, ⟨_, _, rfl, by decide, by decide, by decide, by decide⟩, by decide +kernel,
    meets (tMatrix 0) (by decide) (by decide)⟩

theorem witness_TileTokensChangeHands :
    (1023 : Word).toNat < 1024 ∧ Meets (fun _ v => v.lowestWord (.agive 0 true ⟨0, 3⟩) 1023 ∧ (0 : Tile).val < v.g.accn ∧
      (v.g.tile 0).st = .held ∧ v.releases) ∧
    Meets (fun _ v => v.lowestWord (.azero 0 ⟨0, 3⟩) 1023 ∧ (0 : Tile).val < v.g.accn ∧ (v.g.tile 0).st ≠ .taking) ∧
    Meets fun _ v => v.lanes ≠ [] ∧ (0 : Tile).val < v.g.accn ∧ (v.g.tile 0).st = .engine ∧ v.acquires :=
  ⟨by decide, meets (tGroup [(3, 1023)]) (by decide) ⟨⟨0, by decide, by decide⟩, by decide, by decide, by unfold View.releases; decide⟩,
   meets (tGroup [(3, 1023)]) (by decide) ⟨⟨0, by decide, by decide⟩, by decide, by decide⟩,
   meets (tMatrix 0) (by decide) (by unfold View.acquires; decide)⟩

theorem witness_FormatsScalesAndStores :
    (let w : Word := 0x100FF
     w.toNat / 256 % 256 = 0 ∧ w.getLsbD 19 = false ∧ slotBlk w ≠ 3 ∧ slotRfmt w < 2 ∧
       Meets fun _ v => v.lowestWord (.mfmt 7 ⟨0, 3⟩) w ∧ (slotBlk w = 0 ∨ v.g.shade = false)) ∧
    (let w : Word := 0x13FF0
     let n := 16
     w.toNat = 16368 + 65536 * (n / 16) ∧ 16368 + n ≤ 16384 ∧ Meets fun s v =>
       (v.g.shade = false ∧ (∃ L, v.first = some L ∧ v.g.reg L 4 = PWord.ok w ∧
         v.source (Instr.srcA (.msld ⟨4, 0, 3⟩)) L = PWord.ok 0x3FF0)) ∧ spadCheck s v true n 16 (PWord.ok 0x3FF0) = none ∧
       s.heldBack v (s.ref v n 0x3FF0) n = none ∧ (s.scaleMem v.g.core).owner = some v.g.ctx) ∧
    Meets (fun s v => v.lanes ≠ [] ∧ (0 : Tile).val < v.g.accn ∧ s.tileBusy v.g.core v.o.gid 0 = false) ∧
    (let x : OpAst := ⟨0, 3, false, .rne⟩
     let sw : Word := 32
     storeBad sw x = false ∧ storeFmt sw ≠ none ∧ Meets fun s v =>
       v.operandsAt 3 [0, sw] ∧ (v.g.tile 0).st = .held ∧ spadCheck s v false (v.tileBytes x sw) (storeSize sw) (PWord.ok 0) = none ∧
       s.heldBack v (s.ref v (v.tileBytes x sw) 0) (v.tileBytes x sw) = none ∧
       (s.ref v (v.tileBytes x sw) 0).core = v.g.core ∧ s.reaching v.o.gid [v.g.core] = false) ∧
    Meets fun s v => v.operandsAt 3 [0, 0, 32, 0, 0] ∧ (v.g.tile 0).st = .held ∧ s.takes v 0 8 :=
  ⟨⟨by decide, by decide, by decide, by decide, meets (tGroup [(3, 0x100FF)]) (by decide) ⟨⟨0, by decide, by decide⟩, by decide⟩⟩,
   ⟨by decide, by decide, meets_in { tS [(3, 0x3FF0), (4, 0x13FF0)] with scales := [(0, { owner := some 1 })] }
     (tGroup [(3, 0x3FF0), (4, 0x13FF0)]) (by decide +kernel)
     ⟨⟨by decide, 0, by decide, by decide, by decide⟩, by decide +kernel⟩⟩,
   meets (tGroup []) (by decide) (by decide +kernel),
   ⟨by decide, by decide, meets (tGroup [(4, 32)]) (by decide) ⟨⟨0, by decide, by decide⟩, by decide +kernel⟩⟩,
   meets (tGroup [(5, 32)]) (by decide) ⟨⟨0, by decide, by decide⟩, by decide, by unfold State.takes; decide +kernel⟩⟩

theorem witness_ResidueArithmeticIsExact : tileSat true (-1088) = -1088 ∧
    (let b : List Ent := [.num 3 false]
     (∀ p ∈ [(0, (-5 : Int))], b.getD p.1 (.num 0 false) = .num 3 false) ∧
       tileSat true (-1088 + ([(0, (-5 : Int))].map fun p => p.2 * 3).sum) = -1088 + ([(0, (-5 : Int))].map fun p => p.2 * 3).sum) := by
  decide +kernel

/-! Control, synchronisation, tasks, launches, reflections and loans. -/

theorem witness_ControlTransfers :
    (0 : Nat) < 2 ^ 32 ∧ Meets (fun _ v => v.lanes ≠ [] ∧ v.target 0 ∧ ((v.o.k + v.o.pos : Nat) : Int) + signExt 15 (0 : Fin 32768).val = 0) ∧
    Meets (fun _ v => v.lanes ≠ [] ∧ ∀ L ∈ v.lanes, (v.source (some (0, 3)) L).psn = false ∧
      v.target (v.source (some (0, 3)) L).val.toNat) ∧
    Meets (fun _ v => v.lanes = [0] ∧ (v.source (some (0, 3)) 0).psn = true) ∧
    Meets (fun _ v => v.lanes = [0] ∧ (v.source (some (0, 3)) 0).psn = false ∧ ¬ v.target (v.source (some (0, 3)) 0).val.toNat) ∧
    Meets (fun _ v => v.lanes ≠ [] ∧ ((v.o.k + v.o.pos : Nat) : Int) + signExt 15 (1 : Fin 32768).val = (1 : Nat) ∧ ¬ v.target 1) ∧
    (let u : Progress := ⟨0, 1, 3⟩
     let g : Group := { tGroup [] with unit := some u, threads := [{ transfer := some (.trap 31 tIssue) }] }
     lookup 4 (tState g).groups = some g ∧ g.unit = some u ∧ (g.transfers u).head? = some (.trap 31 tIssue)) ∧
    ({ transfer := some .exit } : Thread).transfer = some .exit :=
  ⟨by decide, meets (tGroup []) (by decide) (by unfold View.target; decide),
   meets (tGroup []) (by decide) (by unfold View.target; decide),
   meets { tGroup [] with frame := [(96, PWord.poison)] } (by decide) (by decide),
   meets (tGroup [(3, 3)]) (by decide) (by unfold View.target; decide), meets (tGroup []) (by decide) (by unfold View.target; decide),
   by decide +kernel, rfl⟩

/-- Lanes 0 and 1 join at word 2 and name each other; the other lanes are ready. -/
def tJoin : Group :=
  { tGroup [] with frame := [(32 * 9, PWord.ok 2), (32 * 9 + 1, PWord.ok 1)]
                   threads := List.replicate 2 { st := .joining, joinAddr := 2 } ++ List.replicate 30 {} }

theorem witness_JoinReleasesLargestSet :
    let g := tJoin
    let s := { tState g with mem := [(8, 0x98), (9, 0x04), (10, 0xA0), (11, 0x03)] }
    joinMask s g 2 0 = PWord.ok 2 ∧ joinMask s g 2 1 = PWord.ok 1 ∧ (joinRelease s g 2).1 = 3 := by decide +kernel

theorem witness_SleepNopAndPreemptionPoints :
    Meets (fun _ v => v.lanes ≠ [] ∧ v.cleanA (.sleep ⟨0, 3⟩)) ∧ Meets (fun s v => s.preqOf v.g = true) ∧
    Meets fun s v => s.preqOf v.g = false :=
  ⟨meets (tGroup [(3, 0xFFFFFFFF)]) (by decide) (by unfold View.cleanA; decide),
   meets_in { tS [] with ctxs := [(1, { mode := 1, dev := 0, preq := true })] } (tGroup []) (by decide) (by decide),
   meets (tGroup []) (by decide) (by decide)⟩

/-- The placed group with one thread left. -/
def tLone : Group := { tGroup [] with threads := {} :: List.replicate 31 { st := .exited } }

theorem witness_Barriers :
    Meets (fun _ v => v.g.handles = none ∧ v.lanes ≠ [] ∧ v.whole ∧ v.acquires ∧ v.releases) ∧
    Meets (fun _ v => v.lanes ≠ [] ∧ v.g.handles = none ∧ ∃ L < 32, (v.g.thread L).st ≠ .exited ∧ v.on L = false) ∧
    Meets (fun _ v => v.g.handles ≠ none) ∧
    (let t : Team := { core := 0, rank := 0, clx := 0, cly := 0, cluster := 3, kernel := 1, ctx := 1, shade := false, ngroups := 1
                       base := 0, granules := 2, bars := [(15, [4])], ckpt := none, left := 1 }
     let s : State := { tS [] with teams := [(2, t)] }
     lookup 2 s.teams = some t ∧ t.bars = [(15, [4])] ∧ s.barGroups 2 = [4] ∧ (tGroup []).quiet = true ∧
       lookup 4 s.groups = some (tGroup [])) ∧
    (let late := { tGroup [] with outstanding := [{ due := none, target := .mark, val := PWord.zero }] }
     late.quiet = false ∧ 4 ∉ [5]) ∧
    (let k : Cluster := { kernel := 1, ctx := 1, index := 0, die := 0, x := 0, y := 0, w := 1, h := 1, teams := [2], bars := [(3, [4])] }
     let s : State := { tS [] with clusters := [(3, k)] }
     lookup 3 s.clusters = some k ∧ k.bars = [(3, [4])] ∧ k.teams.flatMap s.barGroups = [4]) :=
  ⟨meets tLone (by decide) (by unfold View.whole View.acquires View.releases; decide),
   meets (tGroup []) (by decide) ⟨by decide, rfl, 31, by decide, by decide, by decide⟩,
   meets { tGroup [] with handles := some 3 } (by decide) (by decide), by decide +kernel, by decide +kernel, by decide +kernel⟩

theorem witness_ObjectWords :
    (let x : OpM := ⟨8, 0, 3⟩
     Meets (fun s v => v.lanes ≠ [] ∧ s.objectsHere v x 16 ∧ v.cleanReg 8 ∧ v.cleanReg 9 ∧
       ∀ L ∈ v.lanes, 0 < (v.g.reg L 8).val.toNat ∧ (v.g.reg L 8).val.toNat ≤ 65535) ∧
     Meets (fun s v => v.lanes ≠ [] ∧ s.objectsHere v x 16 ∧ v.cleanReg 8 ∧ s.objectsGood v x ∧ v.releases ∧ v.acquires) ∧
     Meets fun s v => v.lanes ≠ [] ∧ s.reaching v.o.gid [v.g.core] = false ∧ ∀ L ∈ v.lanes, ringBad (v.g.reg L 8).val = false ∧
       spadCheck s v false 32 16 (v.source (some (0, 3)) L) = none ∧ s.heldBack v (s.ref v 32 (v.source (some (0, 3)) L).val) 16 = none ∧
       (s.ref v 32 (v.source (some (0, 3)) L).val).core = v.g.core) ∧
    Meets (fun s v => v.cleanReg 8 ∧ v.cleanReg 9 ∧ (∀ L ∈ v.lanes, 0 < (v.g.reg L 8).val.toNat ∧ (v.g.reg L 8).val.toNat ≤ 65535) ∧
      v.releases ∧ s.passes v false 16 16 (v.source (some (0, 3))) ∧
      ∃ L ∈ v.lanes, (s.place v 16 (v.source (some (0, 3))) L).core ≠ v.g.core) ∧
    Meets (fun s v => v.cleanReg 8 ∧ v.releases ∧ s.passes v false 16 16 (v.source (some (0, 3))) ∧ v.lanes ≠ [] ∧
      s.reaching v.o.gid [v.g.core] = true) ∧
    Meets (fun s v => v.cleanReg 8 ∧ (∀ L ∈ v.lanes, ringBad (v.g.reg L 8).val = false ∧
        spadCheck s v false 32 16 (v.source (some (0, 3)) L) = none ∧
        s.heldBack v (s.ref v 32 (v.source (some (0, 3)) L).val) 16 = none) ∧
      ∃ L ∈ v.lanes, (s.ref v 32 (v.source (some (0, 3)) L).val).core ≠ v.g.core) ∧
    wordsPsn (({ tS [] with spad := [(3, PWord.poison)] } : State).object 0 0) = true ∧
    (65534 : Nat) + 1 = 65535 ∧ (0xFFFFFFFF : Word) + BitVec.ofInt 32 1 = 0 ∧ (65533 : Nat) + 1 ≠ 65535 :=
  ⟨⟨meets (tGroup [(3, 0x3FF0), (8, 65535)]) (by decide)
      (by unfold State.objectsHere State.passes State.allOn View.cleanReg; decide +kernel),
    meets (tGroup [(3, 0x3FF0)]) (by decide)
      (by unfold State.objectsHere State.passes State.allOn View.cleanReg State.objectsGood View.releases View.acquires; decide +kernel),
    meets (tGroup [(3, 0x3FE0), (8, 16)]) (by decide) (by decide +kernel)⟩,
   meets_in (tWide (tGroup [(3, 0x43FF0), (8, 65535)])) (tGroup [(3, 0x43FF0), (8, 65535)]) (by decide +kernel)
     (by unfold State.passes View.cleanReg View.releases; decide +kernel),
   meets_in { tS [(3, 0x3FF0)] with inflight := [(7, { gid := 4, target := 0, op := .store [] })] } (tGroup [(3, 0x3FF0)])
     (by decide +kernel) (by unfold State.passes View.cleanReg View.releases; decide +kernel),
   meets_in (tWide (tGroup [(3, 0x43FE0), (8, 16)])) (tGroup [(3, 0x43FE0), (8, 16)]) (by decide +kernel)
     (by unfold View.cleanReg; decide +kernel), by decide +kernel, by decide⟩

theorem witness_WaitingWords :
    Meets (fun s v => v.lanes ≠ [] ∧ s.passes v false 16 16 (v.source (some (0, 3))) ∧ v.acquires ∧ v.cleanReg 8) ∧
    Meets (fun s v => v.lanes ≠ [] ∧ v.pairClean 26 ∧ s.holdsEngine v.g.ctx 3 = true ∧ v.acquires) ∧
    Meets fun _ v => v.lanes ≠ [] ∧ (v.bound 0).toNat / 32 = 1 ∧ v.pairClean 26 ∧ v.acquires :=
  ⟨meets (tGroup [(3, 0x3FF0)]) (by decide) (by unfold State.passes View.cleanReg View.acquires; decide +kernel),
   meets (tGroup []) (by decide) (by unfold View.pairClean View.acquires; decide +kernel),
   meets (tGroup []) (by decide) (by unfold View.pairClean View.acquires; decide +kernel)⟩

theorem witness_FencesOpenAndComplete :
    Meets (fun _ v => v.lanes ≠ [] ∧ v.acquires) ∧
    (let g : Group := { tGroup [] with fence := some (.sc, .device), switching := true }
     lookup 4 (tState g).groups = some g ∧ g.fence = some (.sc, .device) ∧ g.outstanding = [] ∧ g.remote = 0 ∧ g.pushes = []) ∧
    (let g : Group := { tGroup [] with fence := some (.rel, .cluster), remote := 1 }
     lookup 4 (tState g).groups = some g ∧ g.fence = some (.rel, .cluster) ∧ g.remote ≠ 0) :=
  ⟨meets (tGroup []) (by decide) (by unfold View.acquires; decide), by decide, by decide⟩

/-- A cluster whose task slot 63 holds the rest of a task of generation 1, of which these iterations are granted. -/
def tTaskAt (next : Nat) : Cluster :=
  ({ kernel := 1, ctx := 1, index := 0, die := 0, x := 0, y := 0, w := 1, h := 1, teams := [2] } : Cluster).setSlot 63
    { full := true, task := [0, 0, 1000, 0x60000, 7], next := next, remain := 1000, gen := 1 }

def tTask : Cluster := tTaskAt 0

theorem witness_TaskWordsAndGrants :
    Meets (fun _ v => v.lanes ≠ [] ∧ v.acquires) ∧
    Meets (fun s v => v.operandsAt 3 [0, 0, 1000, 0x60000, 7] ∧ recordOk v.g.code.words [0, 0, 1000, 0x60000, 7] = true ∧
      v.releases ∧ s.slotRoom (s.clusterOf v.g) ≠ 0) ∧
    (∀ p ∈ [(999, 0), (1000, 1000)], Meets fun s v => v.operandsAt 3 [0x1003F, BitVec.ofNat 32 p.1] ∧
      lookup (s.clusterOf v.g) s.clusters = some (tTaskAt p.2) ∧ ((tTaskAt p.2).slot 63).full = true ∧
      ((tTaskAt p.2).slot 63).gen = 0x1003F / 65536 ∧ p.1 ≤ ((tTaskAt p.2).slot 63).remain ∧ v.releases ∧
      (p.1 = ((tTaskAt p.2).slot 63).remain → recWord ((tTaskAt p.2).slot 63).task 2 ≤ ((tTaskAt p.2).slot 63).next)) ∧
    (let t := tTask.slot 63
     1 < (recWord t.task 2 - t.next + 64 - 1) / 64 ∧ (recWord t.task 2 - 999 + 64 - 1) / 64 ≤ 1) :=
  ⟨meets (tGroup []) (by decide) (by unfold View.acquires; decide),
   meets (tGroup [(5, 1000), (6, 0x60000), (7, 7)]) (by decide)
     ⟨⟨0, by decide, by decide⟩, by decide, by unfold View.releases; decide, by decide +kernel⟩,
   fun p h => by
     have e : p = (999, 0) ∨ p = (1000, 1000) := by
       simpa only [List.mem_cons, List.not_mem_nil, or_false] using h
     rcases e with rfl | rfl
     · exact meets_in { tS [(3, 0x1003F), (4, 999)] with clusters := [(3, tTaskAt 0)] } (tGroup [(3, 0x1003F), (4, 999)])
         (by decide +kernel) ⟨⟨0, by decide, by decide⟩, by unfold View.releases; decide +kernel⟩
     · exact meets_in { tS [(3, 0x1003F), (4, 1000)] with clusters := [(3, tTaskAt 1000)] } (tGroup [(3, 0x1003F), (4, 1000)])
         (by decide +kernel) ⟨⟨0, by decide, by decide⟩, by unfold View.releases; decide +kernel⟩, by decide +kernel⟩

/-- A cluster with a counter. -/
def tCounter (n : Nat) : Cluster :=
  { kernel := 1, ctx := 1, index := 0, die := 0, x := 0, y := 0, w := 1, h := 1, teams := [2], counters := [(255, ⟨n, none⟩)] }

/-- The registers of a DCSET: counter word, count and a task of 1000 iterations. -/
def tArm (w n : Word) : Group := tGroup [(3, w), (4, n), (7, 1000), (8, 0x60000), (9, 7)]

/-- A cluster whose 64 task slots are full, with a counter at 0 whose task waits for one. -/
def tCrowd : Cluster :=
  { kernel := 1, ctx := 1, index := 0, die := 0, x := 0, y := 0, w := 1, h := 1, teams := [2]
    tasks := (List.range 64).map fun n => (n, { full := true }), counters := [(255, ⟨0, some [0, 0, 1000, 0x60000, 7]⟩)] }

theorem witness_CounterWordsAndDecrements :
    (let task : List Word := [0, 0, 1000, 0x60000, 7]
     let may := fun (w n : Word) (_ : State) (v : View) => v.operandsAt 3 (w :: n :: task) ∧ v.releases ∧
       recordOk v.g.code.words task = true ∧ w.toNat / 256 % 2 ^ 23 = 0 ∧ n.toNat < 2 ^ 24
     let idle := fun (s : State) (v : View) => ∃ k, lookup (s.clusterOf v.g) s.clusters = some k ∧ lookup 255 k.counters = none
     Meets (fun s v => may 0x800000FF 0xFFFFFF s v ∧ idle s v ∧ s.slotRoom (s.clusterOf v.g) ≠ 0) ∧
     Meets (fun s v => may 0x800000FF 0 s v ∧ idle s v ∧ s.slotRoom (s.clusterOf v.g) ≠ 0) ∧
     Meets (fun s v => may 0xFF 0 s v ∧ idle s v) ∧
     Meets (fun s v => may 0x800000FE 0 s v ∧ lookup (s.clusterOf v.g) s.clusters = some tCrowd ∧ lookup 254 tCrowd.counters = none ∧
       s.slotRoom (s.clusterOf v.g) = 0) ∧
     Meets (fun s v => may 0x800000FF 1 s v ∧ lookup (s.clusterOf v.g) s.clusters = some tCrowd ∧ lookup 255 tCrowd.counters ≠ none)) ∧
    Meets (fun _ v => v.operandsAt 3 [0x800000FF, 0x1000000, 0, 0, 1000, 0x60000, 7]) ∧
    (let to_ := fun (n : Word) => Meets fun _ v => v.lanes ≠ [] ∧ v.cleanA (.dcdec ⟨0, 3⟩) ∧ v.releases ∧ ∀ L ∈ v.lanes, v.source (some (0, 3)) L = PWord.ok n
     to_ 255 ∧ to_ 256) ∧
    Meets (fun s v => v.lowestWord (.gcond 7 ⟨0, 3⟩) 5 ∧ ∃ k, lookup (s.kernelOf v.g) s.kernels = some k ∧ k.owner = .node 0 0) ∧
    Meets (fun s v => v.lowestWord (.gcond 7 ⟨0, 3⟩) 5 ∧
      (lookup (s.kernelOf v.g) s.kernels).map (fun k => k.owner == .entry 8191 0) = some true) ∧
    (View.mk { tIssue with act := 0 } (tGroup [])).lanes = [] ∧
    Meets (fun _ v => v.lanes = 0 :: [] ∧ (v.g.reg 0 3).psn = true ∧ (v.source (some (0, 3)) 0).psn = true) ∧
    (lookup 255 (tCounter 2).counters = some ⟨2, none⟩ ∧ lookup 255 (tCounter 1).counters = some ⟨1, none⟩ ∧
      lookup 254 (tCounter 1).counters = none ∧ lookup 255 tCrowd.counters = some ⟨0, some [0, 0, 1000, 0x60000, 7]⟩) ∧
    (tCrowd.waitingCounter = some (255, [0, 0, 1000, 0x60000, 7]) ∧ tCrowd.freeSlots ≤ 0 ∧ 63 < (tCounter 1).freeSlots ∧
      (tCounter 1).freeSlot = some 0 ∧ recWord [0, 0, 1000, 0x60000, 7] 1 < recWord [0, 0, 1000, 0x60000, 7] 2) := by
  refine ⟨⟨?_, ?_, ?_, ?_, ?_⟩, ?_, ⟨?_, ?_⟩, ?_, ?_, by decide, ?_, by decide, by decide⟩
  · exact meets (tArm 0x800000FF 0xFFFFFF) (by decide)
      ⟨⟨⟨0, by decide, by decide⟩, by unfold View.releases; decide⟩, ⟨_, rfl, by decide⟩, by decide +kernel⟩
  · exact meets (tArm 0x800000FF 0) (by decide)
      ⟨⟨⟨0, by decide, by decide⟩, by unfold View.releases; decide⟩, ⟨_, rfl, by decide⟩, by decide +kernel⟩
  · exact meets (tArm 0xFF 0) (by decide) ⟨⟨⟨0, by decide, by decide⟩, by unfold View.releases; decide⟩, _, rfl, by decide⟩
  · exact meets_in { tState (tArm 0x800000FE 0) with clusters := [(3, tCrowd)] } (tArm 0x800000FE 0) (by decide +kernel)
      ⟨⟨⟨0, by decide, by decide⟩, by unfold View.releases; decide⟩, by decide +kernel⟩
  · exact meets_in { tState (tArm 0x800000FF 1) with clusters := [(3, tCrowd)] } (tArm 0x800000FF 1) (by decide +kernel)
      ⟨⟨⟨0, by decide, by decide⟩, by unfold View.releases; decide⟩, by decide +kernel⟩
  · exact meets (tArm 0x800000FF 0x1000000) (by decide) ⟨0, by decide, by decide⟩
  · exact meets (tGroup [(3, 255)]) (by decide) (by unfold View.cleanA View.releases; decide)
  · exact meets (tGroup [(3, 256)]) (by decide) (by unfold View.cleanA View.releases; decide)
  · exact meets (tGroup [(3, 5)]) (by decide) ⟨⟨0, by decide, by decide⟩, _, rfl, rfl⟩
  · exact meets_in { tS [(3, 5)] with kernels := (tS []).kernels.map fun p => (p.1, { p.2 with owner := .entry 8191 0 }) }
      (tGroup [(3, 5)]) (by decide +kernel) ⟨⟨0, by decide, by decide⟩, by decide +kernel⟩
  · exact meets { tGroup [] with frame := [(96, PWord.poison)] } (by decide) (by decide)

/-- The placed machine about to LAUNCH to queue 8191 of its context. -/
def tLaunch (q : Queue) : State :=
  { tS [(3, 0x3FC0), (6, 8191)] with queues := [(8191, q)], links := (List.range 8).map fun l => (l, { st := .up }) }

/-- LAUNCH v6, [v3] names queue 8191 and the last 64 bytes of its two granules. -/
def tNames (s : State) (v : View) : Prop :=
  lookup v.g.ctx s.ctxs = some { mode := 1, dev := 0, priv := true, emask := 15, st := .running } ∧
    (∃ L, v.first = some L ∧ v.g.reg L 6 = PWord.ok 8191 ∧ v.source (some (0, 3)) L = PWord.ok 0x3FC0) ∧
    spadCheck s v true 64 64 (PWord.ok 0x3FC0) = none ∧ s.heldBack v (s.ref v 64 0x3FC0) 64 = none ∧ v.releases

theorem tLaunch_names (q : Queue)
    (h : let s := tLaunch q
      let v : View := ⟨tIssue, tGroup [(3, 0x3FC0), (6, 8191)]⟩
      spadCheck s v true 64 64 (PWord.ok 0x3FC0) = none ∧ s.heldBack v (s.ref v 64 0x3FC0) 64 = none) :
    tNames (tLaunch q) ⟨tIssue, tGroup [(3, 0x3FC0), (6, 8191)]⟩ :=
  ⟨by rfl, ⟨0, by decide, by decide, by decide⟩, h.1, h.2, by rfl⟩

theorem witness_LaunchWritesQueueEntry :
    (let m := packageQueue 1 0 8191
     m = 8191 ∧ (8191 : Word).toNat < 8192 / 1) ∧
    (let q : Queue := { st := .idle, ctx := 1, log2n := 4, wr := 15 }
     let s := tLaunch q
     tNames s ⟨tIssue, tGroup [(3, 0x3FC0), (6, 8191)]⟩ ∧ s.queue 8191 = q ∧ q.outstanding < 2 ^ q.log2n ∧
       (let w := s.writeBackDie 1 0
        match w.launchWrite 8191 1 (q.entryAddr 15) (w.spadWords 0 0x3FC0 16) with
        | .got _ _ _ => true
        | _ => false) = true) ∧
    (let q : Queue := { st := .error, ctx := 1, log2n := 4 }
     tNames (tLaunch q) ⟨tIssue, tGroup [(3, 0x3FC0), (6, 8191)]⟩ ∧ (tLaunch q).queue 8191 = q) ∧
    (let q : Queue := { st := .active, ctx := 1, log2n := 4, wr := 16 }
     tNames (tLaunch q) ⟨tIssue, tGroup [(3, 0x3FC0), (6, 8191)]⟩ ∧ (tLaunch q).queue 8191 = q ∧ 2 ^ q.log2n ≤ q.outstanding) ∧
    (let s := tLaunch {}
     (s.queue 8191).space = false ∧ s.portReach (s.homeDie 8191) (s.funcOf 1) 0x1000 = .ok ∧
       ({ s with portDown := [(0, 0)] } : State).portReach (s.homeDie 8191) (s.funcOf 1) 0x1000 = .down) :=
  ⟨by decide, ⟨tLaunch_names _ (by decide +kernel), by decide +kernel⟩, ⟨tLaunch_names _ (by decide +kernel), by decide +kernel⟩, ⟨tLaunch_names _ (by decide +kernel), by decide +kernel⟩,
    by decide +kernel⟩

/-- A reflection of the placed team, live, at slot offset 0. -/
def tRefl (st : ReflSt) : Refl :=
  { core := 0, off := 0, size := 64, team := 2, ctx := 1, va := 0x10000, st := st, stack := 0, soff := 0x10000, count := 5 }

/-- Group 9 of the placed team waits in a REFL for the translation of slot 0x3FC0. -/
def tRegisters : Group := { tGroup [] with wait := .refl tIssue 4 64 [(0, 0x3FC0, 0x10000)] none [] }

theorem witness_Reflections :
    (let ws : List (Nat × Word) := [(3, 0x3FC0), (4, 0x10000)]
     let ls := [(0, (0x3FC0 : Word), 0x10000)]
     let may := fun (s : State) (v : View) => v.lanes ≠ [] ∧ (∀ i < 3, v.cleanReg (3 + i)) ∧
       s.passes v true 64 64 (v.lanesReg 3) ∧ ∀ L ∈ v.lanes, s.reflBad v.g 64 ls L = 0
     Meets (fun s v => may s v ∧ ∃ x ∈ ls, s.tlbHit v.g.core v.g.ctx x.2.2 .read = none) ∧
     ∃ s : State, may s ⟨tIssue, tGroup ws⟩ ∧ (∀ x ∈ ls, s.tlbHit 0 1 x.2.2 .read ≠ none) ∧
       (match (s.spend 2).reflOutcomes 0 1 ls [] with
        | (os, t) => match t.reflCheck (tGroup ws) 64 os with
          | .go go => go.length == 1
          | _ => false) = true) ∧
    (let named := fun (s : State) (v : View) L => s.reflAt v (s.ref v 8 (v.source (some (0, 3)) L).val).off
     let may := fun (s : State) (v : View) => v.lanes = 0 :: [] ∧ v.acquires ∧ v.cleanReg 12 ∧
       ∀ L ∈ v.lanes, (v.source (some (0, 3)) L).psn = false ∧ spadCheck s v true 8 8 (v.source (some (0, 3)) L) = none
     let free := fun (s : State) (v : View) => ∀ h ∈ s.heldSlots v.g.core, h.1 = v.g.team →
       ∀ L ∈ v.lanes, (s.ref v 8 (v.source (some (0, 3)) L).val).off ≠ h.2.1
     Meets (fun s v => may s v ∧ free s v ∧ named s v 0 = some (7, tRefl .live) ∧ (tRefl .live).st ≠ .registering) ∧
     Meets (fun s v => may s v ∧ free s v ∧ named s v 0 = some (7, tRefl .registering) ∧ (tRefl .registering).st = .registering) ∧
     Meets fun s v => may s v ∧ ¬ free s v) :=
  ⟨⟨meets (tGroup [(3, 0x3FC0), (4, 0x10000)]) (by decide) (by unfold State.passes View.cleanReg; decide +kernel),
    { tS [(3, 0x3FC0), (4, 0x10000)] with
      tlb := [{ core := 0, ctx := 1, base := 0x10000, size := 0x10000, host := false, pa := 0x10000, r := true, w := true
                x := false, psn := false }] },
    by unfold State.passes View.cleanReg; decide +kernel, by decide +kernel, by decide +kernel⟩,
   meets_in { tS [] with refls := [(7, tRefl .live)] } (tGroup []) (by decide +kernel)
     (by unfold View.acquires View.cleanReg; decide +kernel),
   meets_in { tS [] with refls := [(7, tRefl .registering)] } (tGroup []) (by decide +kernel)
     (by unfold View.acquires View.cleanReg; decide +kernel),
   meets_in { tS [] with groups := [(4, tGroup [(3, 0x3FC0)]), (9, tRegisters)] } (tGroup [(3, 0x3FC0)]) (by decide +kernel)
     (by unfold View.acquires View.cleanReg; decide +kernel)⟩

theorem witness_LoansOpenAndReturn :
    (let may := fun (m : Word) (s : State) (v : View) => v.lowestWord (.lend ⟨0, 3⟩) m ∧ v.g.shade = false ∧
       s.mapBad v.g.ctx v.g.core m = false
     Meets (fun s v => may 3 s v ∧ (s.loan v.g.ctx v.g.core).returning = none ∧ (s.loan v.g.ctx v.g.core).isOpen = false) ∧
     Meets (fun s v => may 2 s v ∧ (s.loan v.g.ctx v.g.core).returning = none ∧ (s.loan v.g.ctx v.g.core).isOpen = true ∧
       (s.loan v.g.ctx v.g.core).map &&& ~~~(2 : Word) ≠ 0) ∧
     Meets (fun s v => may 2 s v ∧ (s.loan v.g.ctx v.g.core).returning ≠ none) ∧
     Meets fun s v => may 0 s v ∧ (s.loan v.g.ctx v.g.core).returning = none ∧ (s.loan v.g.ctx v.g.core).isOpen = false) ∧
    Meets fun _ v => v.lanes ≠ [] ∧ v.g.shade = false ∧ v.acquires :=
  ⟨⟨meets (tGroup [(3, 3)]) (by decide) ⟨⟨⟨0, by decide, by decide⟩, by decide +kernel⟩, by decide +kernel⟩,
    meets_in { tS [(3, 2)] with loans := [(1024, { isOpen := true, map := 3 })] } (tGroup [(3, 2)]) (by decide +kernel)
     ⟨⟨⟨0, by decide, by decide⟩, by decide +kernel⟩, by decide +kernel⟩,
    meets_in { tS [(3, 2)] with loans := [(1024, { isOpen := true, map := 3, returning := some (3, 0) })] } (tGroup [(3, 2)])
     (by decide +kernel) ⟨⟨⟨0, by decide, by decide⟩, by decide +kernel⟩, by decide +kernel⟩,
    meets (tGroup []) (by decide) ⟨⟨⟨0, by decide, by decide⟩, by decide +kernel⟩, by decide +kernel⟩⟩,
   meets (tGroup []) (by decide) (by unfold View.acquires; decide)⟩

theorem witness_SpecialRegisters : (26 : Reg).val < 27 ∧ (11 : Reg).val < 12 ∧ 17 < (19 : Reg).val ∧ Meets (fun _ _ => True) ∧
    Meets (fun _ v => v.lanes ≠ [] ∧ (v.bound 0).toNat / 32 = 1) ∧ Meets (fun _ v => v.lanes ≠ [] ∧ ¬ (v.bound 0).toNat / 32 = 1) ∧
    (∃ t k c kn, lookup 2 (tS []).teams = some t ∧ lookup t.cluster (tS []).clusters = some k ∧ lookup 1 (tS []).ctxs = some c ∧
      lookup t.kernel (tS []).kernels = some kn) ∧
    Meets (fun _ v => v.g.shade = true ∧ (∀ L ∈ v.lanes, (v.g.pairAt (v.src 0 L) 5).1 = false) ∧
      ∃ L ∈ v.lanes, (v.g.pairAt (v.src 0 L) 5).2 / 2 ^ 33 % 2 = 1) ∧
    Meets (fun _ v => v.lanes ≠ [] ∧ (∀ L ∈ v.lanes, (v.g.pairAt (v.src 0 L) 5).1 = false) ∧
      ∀ L ∈ v.lanes, (v.g.pairAt (v.src 0 L) 5).2 / 2 ^ 33 % 2 = 0) ∧
    Meets fun _ v => (v.lanes.filter fun J => (v.g.pairAt (v.src 0 J) 5).1) = 0 :: [] :=
  ⟨by decide, by decide, by decide, meets (tGroup []) (by decide) trivial, meets (tGroup []) (by decide) (by decide),
   meets { tGroup [] with qbind := [0x80, 0x40, 0x60, 0x80] } (by decide) (by decide), ⟨_, _, _, _, rfl, rfl, rfl, rfl⟩,
   meets { tGroup [(6, 2)] with shade := true } (by decide) (by decide), meets (tGroup []) (by decide) (by decide),
   meets { tGroup [] with frame := [(192, PWord.poison)] } (by decide) (by decide)⟩

/-! Traps, groups, copy engines and reflections. -/

/-- The descriptor and code of a handler. -/
def tHandler : KDesc × Code := (placedDesc, placedCode)

/-- The context of the placed group, with a handler. -/
def tCtx : Ctx := { mode := 1, dev := 0, priv := true, emask := 15, st := .running, handler := some tHandler }

theorem witness_TakingATrap :
    (let g := tGroup []
     let s := { tS [] with ctxs := [(1, tCtx)] }
     lookup 4 s.groups = some g ∧ g.st ≠ .exiting ∧ g.st ≠ .trapped ∧ g.handles = none ∧ lookup g.ctx s.ctxs = some tCtx ∧
       tCtx.handler ≠ none) ∧
    (let g := { tGroup [] with handles := some 3 }
     lookup 4 (tState g).groups = some g ∧ g.handles = some 3) ∧
    (∀ c, lookup 1 (tS []).ctxs = some c → c.handler = none) ∧
    (let g := { tGroup [] with st := .trapped }
     lookup 4 (tState g).groups = some g ∧ ({ tGroup [] with st := .exiting } : Group).st = .exiting) ∧
    lanesOf 0x80000000 = [31] :=
  ⟨by decide +kernel, by decide, by intro c h; cases h; rfl, by decide +kernel, by decide⟩

/-- The trapped group 5, whose handler is group 4. -/
def tServed : Group := { tGroup [] with st := .trapped, handler := .running 4 }

theorem witness_HandlersEnd :
    (let g := { tGroup [(3, 1)] with handles := some 5 }
     let s : State := { tState g with groups := [(4, g), (5, tServed)] }
     s.cur = some tIssue ∧ lookup 4 s.groups = some g ∧ (View.mk tIssue g).badGuard = 0 ∧ g.handles = some 5 ∧
       (View.mk tIssue g).first = some 0 ∧ (View.mk tIssue g).source (Instr.srcA (.tres ⟨0, 3⟩)) 0 = PWord.ok 1 ∧
       (View.mk tIssue g).lanes ≠ [] ∧ lookup 5 s.groups = some tServed ∧
       tServed.st = .trapped ∧ tServed.handler = .running 4 ∧ g.remote = 0 ∧
       ∀ L < 32, (1 : Word).getLsbD L = true → tresBad s ⟨tIssue, g⟩ tServed L = false) ∧
    (tS []).cur = some tIssue ∧ lookup 4 (tS []).groups = some (tGroup []) ∧ (tGroup []).handles = none :=
  ⟨by decide +kernel, rfl, rfl, rfl⟩

/-- A context with room in its parking regions. -/
def tPark : Ctx := { mode := 1, dev := 0, priv := true, emask := 15, st := .running, park := 64 }

/-- The placed machine with one 64 KiB page mapped at device address 0x10000: the tables and the page's words. Every
table entry but the last leads to the table at 0; the page lies at physical address 0x10000, in stack 1 at 4096. -/
def tPage (ws : List (Nat × Word)) : State :=
  { tS [] with
    ctxs := [(1, { tCtx with st := .ready })]
    links := (List.range 4).map fun l => (l, { st := .up })
    mem := [(0, 1), (8, 0x1F), (10, 1)] ++ ws.flatMap fun p =>
      (List.range 4).map fun i => (2 ^ 36 + 4096 + 4 * p.1 + i, byteOf p.2.toNat i) }

/-- A parked group that has been woken, behind groups that fill register space: they entered Waiting in turn, 10 and 11
in the same cycle, and 10 is Trapped since. -/
def tFull : State :=
  { tS [] with
    ctxs := [(1, tPark)]
    groups := (List.range 32).map (fun i => (10 + i, { tGroup [] with st := if i = 0 then .trapped else .waiting, since := i - 1, wait := .sleepers })) ++
      [(60, { tGroup [] with st := .parked, resident := false, image := true, woken := true })] }

/-- `waitsLongest` of the group at position n, as a check. -/
def longestAt (n : Nat) (ps : List (Nat × Group)) (test : Nat × Group → Bool) (gid : Nat) (g : Group) : Bool :=
  decide (ps = ps.take n ++ (gid, g) :: ps.drop (n + 1)) && test (gid, g) &&
    (ps.take n).all (fun p => !test p || g.since < p.2.since || (g.since == p.2.since && g.num < p.2.num)) &&
    (ps.drop (n + 1)).all fun p => !test p || g.since < p.2.since || (g.since == p.2.since && g.num ≤ p.2.num)

theorem waits_at (n : Nat) {ps : List (Nat × Group)} {test : Nat × Group → Bool} {gid : Nat} {g : Group}
    (h : longestAt n ps test gid g = true) : waitsLongest ps test gid g := by
  simp only [longestAt, Bool.and_eq_true, decide_eq_true_eq, List.all_eq_true, Bool.or_eq_true, Bool.not_eq_true', beq_iff_eq] at h
  refine ⟨h.1.1.2, _, _, h.1.1.1, fun p hp ht => ?_, fun p hp ht => ?_⟩
  · rcases h.1.2 p hp with (h1 | h1) | h1
    · rw [ht] at h1; cases h1
    · exact .inl h1
    · exact .inr h1
  · rcases h.2 p hp with (h1 | h1) | h1
    · rw [ht] at h1; cases h1
    · exact .inl h1
    · exact .inr h1

/-- A sleeping group at the wake cycle of its threads. -/
def tSleeper (st : GroupSt) : Group :=
  { tGroup [] with st := st, wait := .sleepers, threads := List.replicate 32 { st := .sleeping, wake := 9 } }

theorem witness_GroupEvents :
    (let g := { tGroup [] with st := .pending }
     let s : State := { tState g with groups := [(4, g), (9, { g with since := 1 })], cur := none }
     waitsLongest s.groups (fun p => p.2.core == 0 && p.2.shade == false && p.2.st == .pending) 4 g ∧
       (s.activeSet 0 false).length < 8) ∧
    (let g := { tGroup [] with st := .parked, resident := false, image := true, woken := true }
     waitsLongest (tState g).groups ((tState g).wantsFrame 0 false) 4 g ∧ (tState g).roomFor 0 false g.frameSize = true) ∧
    (let g := { tGroup [] with st := .trapped, resident := false, image := true }
     let s : State := { tState g with groups := [(4, g), (9, { tGroup [] with wait := .view 4 })] }
     waitsLongest s.groups (s.wantsFrame 0 false) 4 g ∧ s.roomFor 0 false g.frameSize = true) ∧
    (let w : Group := { tGroup [] with st := .parked, resident := false, image := true, woken := true }
     let g : Group := { tGroup [] with st := .trapped, since := 0, wait := .sleepers }
     waitsLongest tFull.groups (tFull.wantsFrame 0 false) 60 w ∧ tFull.roomFor 0 false w.frameSize = false ∧
       waitsLongest tFull.groups (parksNext 0) 10 g ∧ (∃ p ∈ tFull.groups, p.2.core = 0 ∧ p.2.shade = false ∧ p.2.st = .waiting) ∧
       tFull.parkRoom 1 0 (imageBytes g.frameSize) = true ∧ ∀ x ∈ readAt [] tFull.mwork 0, x.gid ≠ 10) ∧
    (∀ h ∈ [none, some 5], let g := { tGroup [] with st := .exiting, handles := h }
     let s := { tState g with cur := none }
     lookup 4 s.groups = some g ∧ g.outstanding = [] ∧ g.pushes = [] ∧ g.remote = 0 ∧
       ∀ w ∈ readAt [] s.mwork g.core, w.gid ≠ 4) ∧
    (∀ st ∈ [GroupSt.waiting, .active, .parked], let g := tSleeper st
     let s := { tState g with now := 9 }
     lookup 4 s.groups = some g ∧ (g.thread 31).st = .sleeping ∧ (g.thread 31).wake ≤ s.cyc g.core ∧ g.lastIssue ≤ s.now ∧
       g.st ≠ .trapped ∧ g.wait = .sleepers) ∧
    (let g := { tGroup [] with st := .trapped, handler := .due }
     let code : Code := { placedCode with base := 0x1FFF4 }
     let c : Ctx := { tCtx with handler := some ({ placedDesc with code := 0x1FFF4 }, code) }
     let s := { tPage [] with groups := [(4, g)], ctxs := [(1, c)] }
     lookup 4 s.groups = some g ∧ lookup g.ctx s.ctxs = some c ∧ (s.freeSchedSlot g.core).isSome = true ∧
       (s.codePages g.ctx (deviceDies code.mode code.dev) code.base code.words).1.isSome = true) ∧
    (∀ p ∈ [(0x30000, true), (2 ^ 57, false)], let g := { tGroup [] with st := .trapped, handler := .due }
     let code : Code := { placedCode with base := p.1 }
     let s := { tPage [] with groups := [(4, g)], ctxs := [(1, { tCtx with handler := some ({ placedDesc with code := p.1 }, code) })] }
     lookup 4 s.groups = some g ∧ (lookup g.ctx s.ctxs).isSome = true ∧ (s.freeSchedSlot g.core).isSome = true ∧
       (s.codePages g.ctx (deviceDies code.mode code.dev) code.base code.words).1 = none ∧
       (s.codeStop g.ctx (deviceDies code.mode code.dev) code.base code.words).isSome = p.2) := by
  exact ⟨⟨waits_at 0 (by decide +kernel), by decide +kernel⟩, ⟨waits_at 0 (by decide +kernel), by decide +kernel⟩,
    ⟨waits_at 0 (by decide +kernel), by decide +kernel⟩, ⟨waits_at 32 (by decide +kernel), by decide +kernel,
      waits_at 0 (by decide +kernel), ⟨(11, { tGroup [] with st := .waiting, wait := .sleepers }), by decide +kernel, by decide⟩,
      by decide +kernel⟩, by decide +kernel, by decide +kernel, by decide +kernel, by decide +kernel⟩

theorem witness_ResultsAreWrittenBack :
    (let g := { tGroup [] with outstanding := [{ due := some 2, target := .word 4095, val := PWord.ok 1 }] }
     lookup 4 (tState g).groups = some g ∧ (tState g).now < 2 ∧ 2 ≤ ({ tState g with now := 2 } : State).now) ∧
    (let r : Result := { due := some 0, target := .pred 31 15, val := PWord.ok 1 }
     let k : Result := { r with due := none }
     r.due = some 0 ∧ k.target = r.target ∧ r.target ≠ .mark ∧ ({ r with target := .mark } : Result).target = .mark) := by
  decide +kernel

/-- A push of a word to the queue of a code. -/
def tPush (code : Byte) (w : PWord) : Push := { code := code, words := [w], due := some 0, lanes := [31], origin := tIssue }

/-- A task record that range-task queue 0 takes, or, with an odd first word, refuses. -/
def tRecord (w : Word) : Push :=
  { code := 0x60, words := [w, 0, 1000, 0x60000, 7].map PWord.ok, due := some 0, lanes := [31, 31, 31, 31, 31], origin := tIssue }

/-- A command of a code on engine context 0 of core 0. -/
def tCmd (op : Nat) (st : CmdSt) : Cmd :=
  { core := 0, e := 0, num := 1, words := [BitVec.ofNat 32 (op * 2 ^ 24), 0, 0, 0, 0, 0, 0, 0], gid := 4, team := 2, ctx := 1, st := st }

/-- The placed machine with command 7. -/
def tRun (c : Cmd) : State := { tS [] with cmds := [(7, c)] }

/-- A command that may start. -/
def tStarts (s : State) (c : Cmd) : Prop :=
  s.cmd 7 = some c ∧ c.st = .posted ∧ (lookup c.ctx s.ctxs).all (fun x => !x.forced) = true ∧
    (∀ p ∈ s.cmds, p.2.key = c.key → p.2.node = none → ¬ p.2.num < c.num) ∧ ∀ g, lookup c.gid s.groups = some g → g.remote = 0

theorem tRun_starts (c : Cmd) (h : c.st = .posted ∧ c.ctx = 1 ∧ c.gid = 4) : tStarts (tRun c) c := by
  obtain ⟨h1, h2, h3⟩ := h
  refine ⟨by rfl, h1, by rw [h2]; rfl, fun p hp _ _ => ?_, fun g hg => ?_⟩
  · rw [List.mem_singleton.mp hp]; exact Nat.lt_irrefl _
  · rw [h3] at hg; cases hg; rfl

theorem witness_CommandsAreAcceptedAndStart :
    (∀ p ∈ [tPush 0x20 (PWord.ok 0x08000000), tPush 0x20 PWord.poison, { tPush 0x20 (PWord.ok 0x80000000) with esize := 4 },
        tRecord 0, tRecord 1, tPush 0x9F PWord.poison],
      let g := { tGroup [] with pushes := [p] }
      lookup 4 (tState g).groups = some g ∧ landingPush ((tState g).pushMay g) g.pushes [] = some p ∧
        (lookup ((tState g).kernelOf g) (tState g).kernels).isSome = true) ∧
    (lanesOf (tPush 0x20 PWord.poison).badLanes = [31] ∧ (tRecord 0).badLanes = 0 ∧ (tRecord 0).code.toNat / 32 = 3 ∧
      recordOk (tGroup []).code.words ((tRecord 0).words.map (·.val)) = true ∧
      recordOk (tGroup []).code.words ((tRecord 1).words.map (·.val)) = false ∧ (tPush 0x9F PWord.poison).code.toNat / 32 = 4) ∧
    (let q := fun ws : List Word => ({ queue := ws.map fun w => ⟨w, 4, 2, 1⟩ } : Engine).queue
     q [] = [] ∧ (q [0x01000000]).length < max 1 (cmdWords ((0x01000000 : Word).toNat / 2 ^ 24)) ∧
       max 1 (cmdWords ((0xFF000000 : Word).toNat / 2 ^ 24)) ≤ (q [0xFF000000]).length) ∧
    (tStarts (tRun (tCmd 1 .posted)) (tCmd 1 .posted) ∧ (tRun (tCmd 1 .posted)).startHold (tCmd 1 .posted) = none ∧
      ((tRun (tCmd 1 .posted)).startChecks { tCmd 1 .posted with mark := 0, st := .moving }).checks.status ≠ 0) ∧
    (tStarts (tRun (tCmd 13 .posted)) (tCmd 13 .posted) ∧
      ((tRun (tCmd 13 .posted)).startChecks { tCmd 13 .posted with mark := 0, st := .moving }).checks.status = 0) ∧
    (let c := { tCmd 2 .posted with words := [0x02000000, 0, 0, 0x1000, 0, 0, 0, 5] }
     tStarts (tRun c) c ∧ c.addrBad false 3 = false ∧ c.w 3 % 64 = 0 ∧
       ((tRun c).core 0).layouts.find? (fun x => x.1 == c.addr false 3 && x.2.1 == c.w 7 % 65536) = none ∧
       (({ tRun c with cores := [(0, { layouts := [(0x1000, 5, [])] })] } : State).core 0).layouts.find?
         (fun x => x.1 == c.addr false 3 && x.2.1 == c.w 7 % 65536) = some (0x1000, 5, [])) ∧
    (let c := { tCmd 2 .posted with words := [0x02000000, 0, 0, 0x1020, 0, 0, 0, 5] }
     tStarts (tRun c) c ∧ c.w 3 % 64 ≠ 0) ∧
    (let c := { tCmd 13 .posted with node := some (5, 0) }
     (tRun c).cmd 7 = some c ∧ c.st = .posted ∧ c.node ≠ none ∧ c.rel = false) ∧
    (let c := { tCmd 3 .posted with words := [0x03000000, 0, 0, 0, 0, 0, 0, 0] }
     (({ tRun c with loans := [(1024, { isOpen := true, map := 3 })] } : State).startHold c).isSome = true) :=
  ⟨by decide +kernel, by decide +kernel, by decide, ⟨tRun_starts _ (by decide), by decide +kernel⟩, ⟨tRun_starts _ (by decide), by decide +kernel⟩,
   ⟨tRun_starts _ (by decide), by decide +kernel⟩, ⟨tRun_starts _ (by decide), by decide⟩, by decide +kernel, by decide +kernel⟩

theorem witness_FinishActions :
    (∀ op ∈ [1, 7, 8], (tRun (tCmd op .moving)).cmd 7 = some (tCmd op .moving) ∧ (tCmd op .moving).node = none ∧
      (tCmd op .moving).op = op) ∧
    ((tCmd 1 .posted).st = .posted ∧ ({ tCmd 1 .moving with node := some (5, 0) } : Cmd).node = some (5, 0)) ∧
    (∀ k ∈ [0, 1, 2], let c := { tCmd 1 .moving with words := [0x01000000, 0, 0, 0, 0, 0, BitVec.ofNat 32 (k * 2 ^ 30 + (if k = 0 then 0 else 0x3FF0)), 0] }
      c.mute = false ∧ completionBad c.completion = false ∧ c.completion % 16 = 0 ∧
        ((tRun c).cmdRef c false 16 (c.completion % 2 ^ 25)).isSome = true ∧ bitsOf c.completion 30 2 = k) ∧
    (let c := { tCmd 1 .moving with late := some 3, words := [0x01000000, 0, 0, 0, 0, 0, 0x40003FF0, 0] }
     (tRun c).cmd 7 = some c ∧ c.late = some 3 ∧ (tCmd 1 .moving).late = none ∧ (tRun c).completionHold c = none ∧
       (({ tRun c with loans := [(1024, { isOpen := true, map := 3 })] } : State).completionHold c).isSome = true) ∧
    (let x : TxLane := { queue := [7], busy := true }
     lookup 0 ({ tS [] with txlanes := [(0, x)] } : State).txlanes = some x ∧ 8 ∉ x.queue ∧ x.queue.head? = some 7 ∧ x.busy = true ∧
       x.queue.head? ≠ some 8) ∧
    (({ status := List.replicate 252 0 } : Engine).status.length ≤ 252 ∧
      252 < ({ status := List.replicate 253 0 } : Engine).status.length) := by decide +kernel

/-- A FILL of one word of the scratchpad, ready for its element. -/
def tFill : Cmd :=
  { tCmd 11 .moving with
    n := 1, bytes := 4, shape := { ext := [1], src := {}, dst := { spad := true, base := 0, fmt := .i32 }, fill := some 5 } }

/-- A command with the page of device address 0x10000 on its destination side: stack 1, from 4096. -/
def tHeld (op : Nat) : Cmd :=
  { tCmd op .moving with
    words := [BitVec.ofNat 32 (op * 2 ^ 24), 0x10FFC, 0, 0, 0x3FF0, 0, 0, 0], n := 1, bytes := 4
    xls := [(1, ⟨1, false, 0x10000, false⟩)], aux := [PWord.ok 1, PWord.ok 2]
    shape := { ext := [1], src := { spad := true, base := 0, fmt := .i32 }, dst := { base := 0x10FFC, fmt := .i32 } } }

/-- The place of its device address is there, and its die serves it. -/
def tPlaces (c : Cmd) : Bool :=
  match (tRun c).devPlace c 1 true (c.addr false 1 : Int) with
  | .ok (p, _) => !(tRun c).placeDown c p
  | _ => false

theorem witness_TransfersProceed :
    ((tRun { tCmd 2 .moving with unread := true }).cmd 7 = some { tCmd 2 .moving with unread := true }) ∧
    (let c := tCmd 12 .moving
     (tRun c).cmd 7 = some c ∧ c.st = .moving ∧ c.op = 12 ∧ c.unread = false ∧ ((tRun c).waitcDone c).isSome = true) ∧
    (∀ op ∈ [9, 13], (tRun (tHeld op)).cmd 7 = some (tHeld op) ∧ (tHeld op).op = op ∧ tPlaces (tHeld op) = true) ∧
    (let c := tHeld 9
     ((tRun c).cmdRef c true c.bytes (c.w 4)).map (fun r => ((tRun c).spadHold c r c.bytes).isNone) = some true ∧
       bitsOf (c.w 0) 10 4 ≠ 7 ∧ bitsOf (({ c with words := [0x09001C00] } : Cmd).w 0) 10 4 = 7) ∧
    (∀ op ∈ [14, 15], let c := tCmd op .moving
      let s : State := { tRun c with txlanes := [(0, { queue := [7], busy := true })] }
      s.cmd 7 = some c ∧ c.op = op ∧ (s.lane c.lane).busy = true ∧ (s.lane c.lane).queue.head? = some 7) ∧
    ((tCmd 16 .moving).op = 16 ∧ (tRun (tCmd 1 .moving)).cmd 7 = some (tCmd 1 .moving) ∧ (tCmd 1 .moving).n ≤ (tCmd 1 .moving).k) ∧
    ((tRun tFill).cmd 7 = some tFill ∧ tFill.k < tFill.n ∧ tFill.run < 4096 ∧
      (match (tRun tFill).landElement tFill tFill.line tFill.word with
        | .ok _ _ none none => true
        | _ => false) = true) ∧
    (let c := tCmd 7 .moving
     (tRun c).cmd 7 = some c ∧ c.op = 7 ∧ c.n ≤ c.k ∧ ((tRun c).chain c)[0]?.isSome = true ∧ ((tRun c).chain c)[1]? = none) ∧
    (let c := { tHeld 10 with k := 0 }
     (tRun c).cmd 7 = some c ∧ c.op = 10 ∧ (match (tRun c).readElem c c.shape.src 0 (c.k : Int) with
       | .ok (_, _, _, t) => (match t.devPlace c 1 true ((c.shape.dst.base + c.k * c.shape.dst.fmt.size : Nat) : Int) with
         | .ok (p, _) => !t.placeDown c p
         | _ => false)
       | _ => false) = true) ∧
    (let c := tCmd 14 .moving
     let s := fun o => ({ tRun c with txlanes := [(511, { queue := [7], owner := o })] } : State)
     (s none).cmd 7 = some c ∧ ((s none).lane 511).queue.head? = some 7 ∧ ((s none).lane 511).busy = false ∧
       ((s none).lane 511).owner = none ∧ c.op = 14 ∧ ((s (some 3)).lane 511).owner = some 3 ∧ 3 ≠ c.ctx ∧ (s (some 3)).ctxLive 3 = false ∧
       ({ s (some 3) with ctxs := [(3, { mode := 1, dev := 0 })] } : State).ctxLive 3 = true) ∧
    (let c := tCmd 15 .moving
     let s := fun o => ({ tRun c with txlanes := [(0, { queue := [7], owner := o })] } : State)
     ((s (some 1)).lane 0).queue.head? = some 7 ∧ ((s (some 1)).lane 0).owner = some c.ctx ∧ c.op = 15 ∧
       ((s none).lane 0).owner ≠ some c.ctx) := by
  refine ⟨?_, ?_, ?_, ?_, ?_, ?_, ?_, ?_, ?_, ?_, ?_⟩ <;> decide +kernel

/-- An access goes on. -/
def fine {α : Type} : Except Need α → Bool
  | .ok _ => true
  | .error _ => false

/-- Where the first element of a command goes. -/
def tDest (c : Cmd) : List Dest :=
  match (tRun c).destAt c c.shape.dst.base 1 0 (elemBytes c.shape.dst.fmt) with
  | .ok ds => ds
  | .error _ => []

/-- A scatter or gather whose entry of coordinate 0 is given. -/
def tIndexed (i : Indexing) (x : PWord) : Cmd :=
  { tFill with entries := [(0, x)], shape := { tFill.shape with ext := [1, 1], idx := i } }

theorem witness_TransfersProceed_elements :
    (let c := tHeld 1
     c.shape.fill = none ∧ c.shape.dst.blk = 0 ∧ c.vals = [] ∧ c.shape.src.blk = 0 ∧ c.shape.idx = .none ∧ c.shape.src.fmt ≠ .e2m1 ∧
       fine ((tRun c).srcValue c c.k).2.2 = true ∧ fine ((tRun c).readElem c c.shape.src 0 0) = true ∧ c.shape.src.spad = true ∧
       fine ((tRun c).spadPlace c c.shape.src.base 0 4) = true ∧ c.shape.dst.spad = false ∧
       fine ((tRun c).devPlace c 1 false (c.shape.dst.base : Int)) = true) ∧
    (tFill.shape.fill ≠ none ∧ ∀ x ∈ [PWord.ok 5, PWord.poison], let c := tIndexed .gath x
     c.shape.idx = .gath ∧ lookup ((coordsOf c.shape.ext 0).getD 1 0) c.entries = some x) ∧
    ((let c := tIndexed .scat PWord.poison
      match ((tRun c).dstCoords c).2 with
      | .ok none => true
      | _ => false) = true ∧
     ∀ c ∈ [tFill, tHeld 1], (match ((tRun c).dstCoords c).2 with
        | .ok (some _) => true
        | _ => false) = true ∧ c.shape.rop = 0 ∧ c.shape.dst.blk = 0 ∧ fine ((tRun c).destAt c c.shape.dst.base 1 0 4) = true) ∧
    (let c := tHeld 1
     (∃ p a, tDest c = [.dev p a]) ∧ ((tRun c).deliverPiece c none ⟨[1, 2, 3, 4], false, none⟩ (tDest c)).isSome = true ∧
       ∃ team core p, tDest tFill = [.spad team core p]) ∧
    (let w : WordRun := { places := [(2, 0, 5)], mask := 4294967295, psn := false }
     w.mask = 4294967295 ∧ ({ w with mask := 65535 } : WordRun).mask ≠ 4294967295) ∧
    (let x : Piece := ⟨[1, 2, 3, 4], true, none⟩
     x.nibble = none ∧ 262140 + x.bytes.length ≤ 262144 ∧ x.psn = true) ∧
    (let s := tRun (tHeld 1)
     s.placeDown (tHeld 1) (.dev 1 4096) = false ∧ (s.hints (tHeld 1).agent).nc = false ∧ s.mayPack 1 4096 = false) ∧
    let w : HomeWrite := { stack := 1, line := 32, bytes := [(0, 1), (127, 2)], psn := [3], rel := false }
    (∀ b ∈ w.bytes, b.1 < 128) ∧ (w.bytes.map (·.1)).Nodup ∧ w.atStack = false ∧ 3 ∈ w.sectors := by
  refine ⟨?_, ?_, ?_, ⟨⟨_, _, rfl⟩, ?_, _, _, _, rfl⟩, ?_, ?_, ?_, ?_⟩ <;> decide +kernel

/-- The placed machine with these works of core 0's matrix engine. -/
def tWorks (ws : List MWork) : State := { tS [] with now := 32, mwork := [(0, ws)] }

def tWork (t : Nat) (k : MKind) : MWork := { gid := 4, tile := t, wide := false, q := 0, kind := k, ready := some 0 }

theorem witness_MatrixAndReflectionEvents :
    (∀ sig ∈ [none, some 5], let w := tWork 1 (.mma [] [] sig)
     let u := tWork 0 .zero
     (tWorks [u, w]).works 0 = [u] ++ w :: [] ∧ w.ready ≠ none ∧ w.kind = .mma [] [] sig ∧ u.kind = .zero ∧
       lookup w.gid (tWorks [u, w]).groups = some (tGroup [])) ∧
    (∀ k ∈ [MKind.zero, .give true [], .take true], let w := tWork 0 k
     let u := tWork 1 (.mma [] [] none)
     (tWorks [u, w]).works 0 = [u] ++ w :: [] ∧ w.ready = some 0 ∧ 0 + 32 ≤ (tWorks [u, w]).now ∧ w.kind = k) ∧
    (let ks := (List.range 1024).map fun e => takeKind false ((tGroup []).elem 0 e)
     (∀ k ∈ ks, k ≠ .mismatch) ∧ ∀ e < 1024, badBytes false (pairNat ((tGroup []).elem 0 e)) = 0) ∧
    ((({ tS [] with scales := [(0, { xfers := [(0, 16383, [1])] })] } : State).scaleMem 0).xfers = [(0, 16383, [1])]) ∧
    (let r : WRange := { stack := 15, off := 0, size := 256, last := some 0, held := 1 }
     let s : State := { tS [] with now := 64, ranges := [r] }
     s.ranges[0]? = some r ∧ r.held ≠ 0 ∧ r.last = some 0 ∧ 0 + 64 ≤ s.now) ∧
    (let p : RPush := { home := 0, core := 0, to_ := [(7, 1)], data := [], psn := (false, false), rel := false, line := 0 }
     let s : State := { tS [] with rpushes := [(8, { p with core := 1 }), (9, p)] }
     lookup 9 s.rpushes = some p ∧ s.reach (p.home / 64) (dieOf p.core) p.line = .ok ∧
       ({ s with dies := [] } : State).reach (p.home / 64) (dieOf p.core) p.line = .down ∧ ∀ q ∈ s.rpushes, 9 ≤ q.1 ∨ q.2.home ≠ p.home ∨ q.2.core ≠ p.core) ∧
    (∀ st ∈ [ReflSt.registering, .live, .unsubscribing, .lost], lookup 7 ({ tS [] with refls := [(7, tRefl st)] } : State).refls = some (tRefl st) ∧
      (tRefl st).st = st) ∧
    (let r := tRefl .registering
     let s : State := { tS [] with refls := [(7, r)] }
     s.reach (dieOf r.core) (r.stack / 4) (r.soff / 128) = .ok ∧
       ({ s with dies := [] } : State).reach (dieOf r.core) (r.stack / 4) (r.soff / 128) = .down ∧ r.again = false ∧
       ({ r with again := true } : Refl).again = true) ∧
    (∀ q ∈ ({ tS [] with refls := [(7, tRefl .unsubscribing)] } : State).rpushes, ∀ x ∈ q.2.to_, x.1 ≠ 7) := by
  refine ⟨?_, ?_, ?_, ?_, ?_, ?_, ?_, ?_, ?_⟩ <;> decide +kernel

/-! Queues, kernels, graphs, contexts and pages. -/

/-- Queue 0 with a fetched entry 0 of the words given. -/
def tEntry (s : State) (ws : List Word) : State :=
  { s with queues := [(0, { st := .active, ctx := 1, log2n := 4, wr := 1, rd := 1, entries := [(0, { words := ws })] })] }

/-- Queue 8191, the last the part has. -/
def tBlock (x : Queue) : Queue := ({ tS [] with queues := [(8191, x)] } : State).queue 8191

/-- A fetched KERNEL entry, begun or not. -/
def tFetched (on : Bool) : List (Nat × QEntry) := [(0, { words := [0x01000000], started := on })]

theorem witness_QueueRegisters :
    ((tS []).part.hasQueue 9000 = false ∧ (tS []).part.hasQueue 8191 = true ∧ (tS []).part.hasQueue 8195 = true) ∧
    (∀ x ∈ [({ ctx := 1, log2n := 3 } : Queue), { ctx := 1, log2n := 17 }, { ctx := 0, log2n := 4 }], (tBlock x).st = .disabled ∧
      ((tBlock x).log2n < 4 ∨ 16 < (tBlock x).log2n ∨ (8191 < 8192 ∧ (tBlock x).ctx = 0))) ∧
    (∀ x ∈ [({ ctx := 1, log2n := 4, wr := 17 } : Queue), { ctx := 1, log2n := 4 }, { ctx := 1, log2n := 16, wr := 65536 }],
      let y := tBlock x
      y.st = .disabled ∧ ¬ (y.log2n < 4 ∨ 16 < y.log2n ∨ (8191 < 8192 ∧ y.ctx = 0) ∨ (8192 ≤ 8191 ∧ y.space = true)) ∧
        (y.outstanding ≤ 2 ^ y.log2n ↔ y.wr ≠ 17) ∧ y.susp = false ∧ (y.pending = 0 ↔ y.wr = 0)) ∧
    (let s : State := { tS [] with queues := [(8191, { ctx := 1, log2n := 4, wr := 16, susp := true, entries := tFetched false })] }
     let y := s.queue 8191
     y.st = .disabled ∧ ¬ (y.log2n < 4 ∨ 16 < y.log2n ∨ (8191 < 8192 ∧ y.ctx = 0) ∨ (8192 ≤ 8191 ∧ y.space = true)) ∧
       y.outstanding ≤ 2 ^ y.log2n ∧ y.pending ≠ 0 ∧ y.susp = true ∧ y.fault = none ∧
       ∀ p ∈ y.entries, s.atBoundary 8191 p.1 p.2 = true) ∧
    (∀ x ∈ [({ st := .error, entries := tFetched false } : Queue), { st := .error, entries := tFetched true }],
      (tBlock x).st = .error ∧ ((tBlock x).entries.all (fun p => !p.2.live) = !(x.entries.any fun p => p.2.started))) ∧
    (∀ on ∈ [true, false], let s : State := { tS [] with queues := [(8191, { st := .active, ctx := 1, log2n := 4, wr := 2, rd := 1, entries := tFetched on })] }
      (s.queue 8191).st = .active ∧ (s.queue 8191).fault = none ∧ (s.queue 8191).susp = false ∧ (s.queue 8191).pending ≠ 0 ∧
        ((s.queue 8191).entries.all fun p => s.atBoundary 8191 p.1 p.2) = !on) ∧
    (∀ st ∈ [QueueSt.idle, .suspended, .error, .disabled], (tBlock { st := st }).st = st ∧
      ((tBlock { st := st, log2n := 4, wr := 17 }).outstanding > 2 ^ 4) ∧ ((tBlock { st := st, log2n := 4 }).pending = 0) ∧
      (tBlock { st := st, log2n := 4, wr := 16 }).outstanding ≤ 2 ^ 4 ∧ (tBlock { st := st }).susp = false) := by
  decide +kernel

/-- What a read or a store at a device address met: 0 data, 1 a page that suspends, 2 a failure, 3 no route yet, 4
poison. -/
def tCode : Fetched → Nat
  | .got _ psn _ => if psn then 4 else 0
  | .suspend .. => 1
  | .fail _ => 2
  | .hold => 3

/-- The page of words, with queue 0 a ring of device memory at the address given. -/
def tRing (ws : List (Nat × Word)) (base : Nat) : State :=
  { tPage ws with queues := [(0, { st := .active, ctx := 1, space := true, log2n := 4, base := base, wr := 1 })] }

/-- The next entry of that ring is fetched. -/
def tFetch (s : State) : Fetched := s.fetchDev (s.homeDie 0) 1 ((s.queue 0).entryAddr (s.queue 0).rd) 64

/-- A descriptor whose code is in the page. -/
def tKernel : List Word := [0x10000, 0, 3, 0, 0x8000, 0, 0, 0x80604020]

/-- Addresses of a page that is mapped, of one that is not, and past the address space, each with what a walk makes of
it. -/
def tWhere : List (Nat × Nat) := [(0x10000, 0), (0x20000, 1), (2 ^ 57, 2)]

/-- What kind of answer a descriptor check gives. -/
def tChecked : Described → Nat
  | .ok .. => 0
  | .suspend .. => 1
  | .refused _ => 2
  | .hold => 3

theorem witness_QueueEntries_fetch :
    (isMgmt 0 = false ∧ ∀ p ∈ tWhere, (tRing [] p.1).mayFetch 0 = true ∧ ((tRing [] p.1).queue 0).space = true ∧
      tCode (tFetch (tRing [] p.1)) = p.2) ∧
    tCode (tFetch ((tRing [] 0x10000).setSlotPsn 1 4096 true)) = 4 ∧
    (∀ w ∈ [(0x05000000, 0, true), (0x04000000, 4, false), (0x01000000, 1, false)], (match tFetch (tRing [(0, BitVec.ofNat 32 w.1)] 0x10000) with
      | .got bs false _ => let e : QEntry := { words := wordsOfBytes bs }
        entryBad e == w.2.2 && (w.2.2 || e.type == w.2.1)
      | _ => false) = true) ∧
    (∀ w ∈ [(0x10080, 0, 0), (0x20000, 0, 1), (0, 2 ^ 25, 2)], (match tFetch (tRing [(0, 0x01000000), (2, BitVec.ofNat 32 w.1),
        (3, BitVec.ofNat 32 w.2.1)] 0x10000) with
      | .got bs false t => tCode (t.fetchDev (t.homeDie 0) 1 (({ words := wordsOfBytes bs } : QEntry).num 2) 128) == w.2.2
      | _ => false) = true) ∧
    (let s : State := { tS [] with queues := [(0, { st := .active, ctx := 1, log2n := 4, wr := 1 })] }
     s.mayFetch 0 = true ∧ (s.queue 0).space = false ∧ tCode (s.fetchHost (s.homeDie 0) (s.queueFunc 0) 0 64) = 0 ∧
       tCode (({ s with portDown := [(0, 0)] } : State).fetchHost (s.homeDie 0) (s.queueFunc 0) 0 64) = 2) := by
  decide +kernel

theorem witness_QueueEntries_start :
    (∀ p ∈ [(0, 0), (1, 128), (2, 64), (3, 8), (4, 8)], let s := tEntry (tS []) [BitVec.ofNat 32 (p.1 * 2 ^ 24), 0, BitVec.ofNat 32 p.2]
     (s.queue 0).next = some (0, { words := [BitVec.ofNat 32 (p.1 * 2 ^ 24), 0, BitVec.ofNat 32 p.2] }) ∧
       s.chosenQueue (s.homeDie 0) = some 0) ∧
    (∀ p ∈ tWhere, tCode (((tPage []).releaseAll 1).storeDev 0 1 p.1 (List.replicate 8 1) false) = p.2) ∧
    tChecked ((tPage []).checkDesc 1 tKernel) = 0 ∧ tChecked ((tPage []).checkDesc 1 []) = 2 ∧
    (∀ p ∈ tWhere, tCode (readBlocks 0 1 1 p.1 (tPage []) []).1 = p.2) ∧
    (∀ p ∈ [(0x20000000, false), (0xF0000000, true)],
      (match readBlocks 0 1 1 0x10000 (tPage [(0, 1), (16, BitVec.ofNat 32 p.1)]) [] with
       | (.got hb false u, _) =>
         let h := wordsOfBytes hb
         nodeWord h 0 == 1 && (List.range 7).all (fun i => nodeWord h (1 + i) == 0) && (match readBlocks 0 1 1 0x10040 u [] with
           | (.got nb false _, _) => graphBad (splitNodes 1 (wordsOfBytes nb)) == p.2
           | _ => false)
       | _ => false) = true) ∧
    (match readBlocks 0 1 1 0x10000 (tPage []) [] with
       | (.got hb false _, _) => nodeWord (wordsOfBytes hb) 0 == 0
       | _ => false) = true := by decide +kernel

theorem witness_QueueEntries_proceed :
    (∀ p ∈ [(5, 0x10FF8, 0), (4, 0x10FF8, 0), (0, 0x20000, 1)],
     let e : QEntry := { words := [0x03000000, 0, BitVec.ofNat 32 p.2.1, 0, 5, 0], started := true }
     let s : State := { tPage [(1022, BitVec.ofNat 32 p.1)] with queues := [(0, { st := .active, ctx := 1, log2n := 4, wr := 1, rd := 1, entries := [(0, e)] })] }
     lookup 0 (s.queue 0).entries = some e ∧ s.mayReread 0 0 = true ∧ e.num 4 = 5 ∧ (match s.fetchDev (s.homeDie 0) 1 (e.num 2) 8 with
       | .got bs psn _ => !psn && p.2.2 == 0 && leNat (fun i => bs.getD i 0) 8 == p.1
       | r => tCode r == p.2.2) = true) ∧
    (let p : RingPush := { ctx := 1, ring := 31, desc := [0, 0, 0, 0, 0, 0, 0, 0], words := [] }
     let s : State := { tS [] with cores := [(0, { outbound := [p] })] }
     s.outReadyCores 1 31 = [0] ∧ s.outFirst 0 1 31 = some p ∧ s.portReach 0 (s.funcOf 1) (ringAddr p.desc 0) = .ok ∧
       ({ s with portDown := [(0, 0)] } : State).portReach 0 (s.funcOf 1) (ringAddr p.desc 0) = .down) ∧
    (let h : HRing := { u := 1, desc := [0, 0, 0, 0, 0, 0, 0, 1000] }
     let s : State := { tS [] with now := 1000000, hrings := [(63, h)] }
     s.ringDue (s.hring 1 31) = true) ∧
    (∀ st ∈ [QueueSt.disabled, .idle, .error, .active, .suspended],
      let x : Queue := { st := st, rd := 2, wr := 2, entries := [(0, { words := [] }), (1, { words := [] })] }
      let s : State := { tS [] with queues := [(0, x)] }
      (s.queue 0).st = st ∧ (s.queue 0).done ≠ 1 ∧ (s.queue 0).done = 0 ∧ (lookup 0 (s.queue 0).entries).isSome = true ∧
        (match lookup 0 (s.queue 0).entries with
          | some e => e.finished
          | none => true) = false) ∧
    (let s : State := { tS [] with queues := [(0, { st := .idle, rd := 1, wr := 1, entries := [(0, { words := [] })] })] }
     (s.queue 0).st ≠ .active ∧ (s.queue 0).done = 0 ∧ (lookup 0 (s.queue 0).entries).isSome = true ∧
       (lookup ((0 + 1) % 2 ^ 32) (s.queue 0).entries).isNone = true) := by
  decide +kernel

/-- The push found first is a ready core's, whichever the free choice names. -/
theorem witness_QueueEntries_choice (s : State) (c : Nat) (h : s.outReadyCores 1 31 = [c]) :
    (s.outReadyCores 1 31)[Config.freeChoice s.free % max 1 (s.outReadyCores 1 31).length]? = some c := by
  simp [h, Nat.mod_one]

/-- A graph of one node, in its first pass. -/
def tGraph (node : List Word) (ended : List (Nat × Nat)) (v : Word) : Graph :=
  { q := 0, idx := 0, ctx := 1, addr := 0x10000, nodes := [node], cond := [v, 0, 0, 0, 0, 0, 0, 0], waits := [0], ended := ended }

/-- A kernel node, a copy node, a write node and a conditional node of at most n passes; the kernel's descriptor and grid
are parameters. -/
def tNode (kind : Nat) (desc gx : Nat) : List Word :=
  [BitVec.ofNat 32 (kind * 2 ^ 28), 0, 0, 0, 0, 0, BitVec.ofNat 32 desc, BitVec.ofNat 32 (desc / 2 ^ 32), 0x10080, 0, BitVec.ofNat 32 gx, 1, 1, 0, 0, 0]

/-- The page, with a descriptor at 0x10080, and a graph that runs. -/
def tRuns (g : Graph) : State :=
  { tEntry (tPage ((List.range 8).map fun i => (32 + i, tKernel.getD i 0))) [] with graphs := [(5, g)] }

/-- A kernel of two clusters, the first of which is placed, with n argument bytes at an address. -/
def tGrid (n a : Nat) : Kernel :=
  { desc := { placedDesc with arglen := n }, code := placedCode, gx := 2, gy := 1, gz := 1, arga := a, ctx := 1, owner := .entry 0 0
    seq := 1, next := 1 }

theorem witness_KernelsAndGraphsProceed_admission :
    ∀ p ∈ [(0, 0, true), (4, 0x10000, true), (4, 0x20000, false)],
      let k := tGrid p.1 p.2.1
      let s : State := { tPage [] with kernels := [(1, k)] }
      lookup 1 s.kernels = some k ∧ (lookup k.ctx s.ctxs).isSome = true ∧ (s.placeFor k).isSome = true ∧ s.mayAdmit 1 = true ∧
        (match readAllArgs k [0] s [] with
          | .got .. => p.2.2
          | .suspend .. => !p.2.2
          | .hold => false) = true := by decide +kernel

theorem witness_KernelsAndGraphsProceed_nodes :
    (∀ p ∈ [(0x10080, 0), (0x20000, 1), (0x10000, 2)], ∀ gx ∈ [0, 1],
      let g := tGraph (tNode 0 p.1 gx) [] 0
      lookup 5 (tRuns g).graphs = some g ∧ (tRuns g).mayStartNode 5 0 = true ∧ nodeKind (g.nodes.getD 0 []) = 0 ∧
        nodeWord (g.nodes.getD 0 []) 10 = gx ∧ tChecked (((tRuns g).acquireAll 1).describe 0 1 p.1) = p.2) ∧
    (∀ kind ∈ [1, 3], let g := tGraph (tNode kind 0x10000 1) [] 0
      (tRuns g).mayStartNode 5 0 = true ∧ nodeKind (g.nodes.getD 0 []) = kind ∧
        (tRuns g).portReach 0 ((tRuns g).funcOf 1) 0x10000 = .ok ∧
        ({ tRuns g with portDown := [(0, 0)] } : State).portReach 0 ((tRuns g).funcOf 1) 0x10000 = .down) ∧
    (∀ code ∈ [0, 5], let g := tGraph (tNode 1 0x10000 1) [(0, code)] 0
      lookup 5 (tRuns g).graphs = some g ∧ (tRuns g).mayComplete 5 0 = true ∧
        (g.ended.find? fun e => e.1 == 0) = some (0, code)) ∧
    (∀ v ∈ [0, 1], ∀ most ∈ [0, 1, 2], let g := tGraph (tNode 2 (most * 2 ^ 32) 0) [] (BitVec.ofNat 32 v)
      lookup 5 (tRuns g).graphs = some g ∧ (tRuns g).mayComplete 5 0 = true ∧ g.ended = [] ∧
        (g.cond.getD 0 0).toNat = v ∧ nodeWord (g.nodes.getD 0 []) 7 = most) ∧
    (tRuns (tGraph (tNode 1 0x10000 1) [(0, 255)] 0)).mayComplete 5 0 = true ∧ failedQuietly = 255 ∧
    (lookup 3 (tS []).clusters).isSome = true := by decide +kernel

/-- What kind of answer a graph that is read again gives. -/
def tRead : GraphRead → Nat
  | .got .. => 0
  | .suspend .. => 1
  | .refused _ => 2
  | .hold => 3

/-- A graph at its program index is read again; the states in which a graph goes on. -/
theorem witness_KernelsAndGraphsProceed_graphs :
    (∀ p ∈ [(0x10000, 0), (0x20000, 1), (0x10040, 2)],
      let g := { tGraph [] [] 0 with addr := p.1, nodes := [], waits := [] }
      let s : State := { tEntry (tPage [(0, 1), (16, 0x20000000)]) [] with graphs := [(5, g)] }
      lookup 5 s.graphs = some g ∧ s.mayStartNode 5 0 = true ∧ g.nodes = [] ∧
        tRead (s.readGraph (s.homeDie g.q) g.ctx g.addr) = p.2) ∧
    (let kernel := tGraph (tNode 0 0 1) [] 0
     let both := { kernel with nodes := [tNode 0 0 1, tNode 2 0 0] }
     let quiet := fun g : Graph => g.ended.isEmpty && g.started.all fun n => g.done.contains n
     quiet { kernel with st := .failing } = true ∧ quiet { kernel with st := .failing, started := [0] } = false ∧
       kernel.st ≠ .failing ∧ kernel.done = [] ∧ nodeKind (kernel.nodes.getD 0 []) ≠ 2 ∧
       quiet { kernel with started := [0], done := [0] } = true ∧ nodeKind (both.nodes.getD 1 []) = 2 ∧
       quiet { both with started := [0], done := [0] } = true) := by
  decide +kernel

theorem witness_KernelsAndGraphsProceed_teams :
    ∀ m ∈ [0, 1],
      let x : Team := { core := 0, rank := 0, clx := 0, cly := 0, cluster := 3, kernel := 1, ctx := 1, shade := false, ngroups := 1
                        base := 0, granules := 2, ckpt := none, left := 0 }
      let s : State := { tS [] with groups := [], teams := [(2, x)], loans := [(1024, { isOpen := true, map := BitVec.ofNat 32 m })] }
      lookup 2 s.teams = some x ∧ x.live = true ∧ x.left = 0 ∧ s.cmds = [] ∧ s.refls = [] ∧ x.shade = false ∧
        ((s.loan x.ctx x.core).map.getLsbD (x.base + 0) = (m == 1)) ∧ (s.loan x.ctx x.core).map.getLsbD (x.base + 1) = false := by
  decide +kernel

theorem witness_ContextEvents_loans :
    (let s : State := { tS [] with now := 8, loans := [(1024, { isOpen := true, map := 1, zeroing := some (1, 8) })] }
     s.zeroed 0 = [1024] ∧ (s.loan (1024 / 1024) 0).zeroing = some (1, 8)) ∧
    (∀ after ∈ [0, 3], let s : State := { tS [] with loans := [(1024, { isOpen := true, map := 1, returning := some (1, 0), after := BitVec.ofNat 32 after })] }
     (s.loan (1024 / 1024) (1024 % 1024)).returning = some (1, 0) ∧ s.shadeOf (1024 / 1024) = none) ∧
    (let r : Result := { due := some 31, target := .word 0, val := PWord.zero }
     let s : State := { tState { tGroup [] with ctx := 2, shade := true, outstanding := [r] } with
       now := 32, ctxs := [(1, tCtx), (2, { tCtx with shade := true, princ := 1 })]
       loans := [(1024, { isOpen := true, map := 1, returning := some (1, 0) })] }
     (s.loan (1024 / 1024) (1024 % 1024)).returning = some (1, 0) ∧ s.shadeOf (1024 / 1024) = some 2 ∧
       ∀ p ∈ s.groups, p.2.outstanding.all (fun r => (r.due.getD 33) ≤ s.now) = true) := by decide +kernel

/-- A context that is being saved, its save area at an address. -/
def tSaving (a : Nat) : Ctx := { tCtx with st := .saving, savea := a }

theorem witness_ContextEvents_save :
    (let s : State := { tS [] with now := 2 ^ 20, ctxs := [(1, tSaving 0)] }
     lookup 1 s.ctxs = some (tSaving 0) ∧ (tSaving 0).st = .saving ∧ (tSaving 0).forced = false ∧ (tSaving 0).preqAt + 2 ^ 20 ≤ s.now) ∧
    (∀ p ∈ [(true, ThreadSt.ready, GroupSt.pending, Wait.sleepers), (false, .ready, .trapped, .sleepers), (false, .ready, .waiting, .bar 1),
        (false, .held, .waiting, .sleepers), (false, .joining, .waiting, .sleepers)],
      let g := { tGroup [] with st := p.2.2.1, wait := p.2.2.2, threads := List.replicate 32 { st := p.2.1, live := 1 } }
      let c := { tSaving 0 with forced := p.1 }
      let s : State := { tState g with ctxs := [(1, c)] }
      lookup 4 s.groups = some g ∧ lookup g.ctx s.ctxs = some c ∧ c.st = .saving ∧ g.saved = false ∧ g.st ≠ .exiting ∧
        g.outstanding = [] ∧ g.pushes = [] ∧ g.fence = none ∧ g.wait.isRefl = false ∧ readAt [] s.mwork g.core = [] ∧
        (p.2.1 = .ready ∨ g.threads.all (fun t => t.st == .held || t.st == .joining || t.st == .exited) = true)) ∧
    (∀ p ∈ [(0x200000, true), (0x400000, false)],
      let s : State := { tPage [] with groups := [(4, { tGroup [] with saved := true })], ctxs := [(1, tSaving p.1)]
                                       mem := [(0, 1), (8, 0x1F), (10, 0x20)] }
      let s0 := ((s.refls.filter fun p => p.2.ctx == 1).map (·.1)).foldl State.drainPushes s
      lookup 1 s.ctxs = some (tSaving p.1) ∧ s.allSaved 1 (tSaving p.1) = true ∧
        (s0.suspends (tSaving p.1).lowDie 1 .write ((s0.imageOf 1 (tSaving p.1)).pages (tSaving p.1))).isNone = p.2) ∧
    (let c := { tCtx with st := .killing }
     let s : State := { tS [] with ctxs := [(1, c)], teams := [], clusters := [], kernels := [] }
     lookup 1 s.ctxs = some c ∧ c.st = .killing ∧ s.toreDown 1 = true) ∧
    (∀ sent ∈ [true, false], let g := { tGroup [] with acqHold := [1, 2], flushSent := sent }
     lookup 4 (tState g).groups = some g ∧ g.acqHold = 1 :: [2] ∧ (tState g).flushDone g 1 = true) := by
  decide +kernel

theorem witness_ContextEvents_states :
    (∀ st ∈ [CtxSt.ready, .running, .saving, .saved, .restoring, .killing, .failed], ∀ shade ∈ [false, true],
      let s : State := { tS [] with
        ctxs := [(1, tCtx), (2, { tCtx with st := st, shade := shade, princ := 1 })]
        loans := [(1024, { isOpen := true, map := 1 }), (2048 + 1023, { isOpen := true, map := 1 })]
        queues := [(8191, { ctx := 2, st := .idle })] }
      (match lookup 2 s.ctxs with
        | some c => c.st == st && c.shade == shade && (s.loan c.princ 0).isOpen
        | none => false) = true ∧ (s.queue 8191).ctx = 2 ∧ (s.queue 8191).st ≠ .disabled ∧ (s.loan 2 1023).isOpen = true) ∧
    lookup 1 (tS []).ctxs ≠ none := by decide +kernel

/-- A machine whose table at 0 of stack 0 holds an entry. -/
def tLevel (e : Nat) : State := { tPage [] with mem := (List.range 8).map fun i => (i, byteOf e i) }

/-- Entries of Table 18-3 at their levels: not present, malformed leaves, poisoned ones, leaves that suspend, leaves with
and without the permissions, malformed tables, and a table. -/
def tEntries : List (Nat × Nat) :=
  [(0, 4), (0x10000000000003, 0), (3, 3), (0x403, 0), (0x10003, 1), (0x303, 0), (0x203, 0), (0x11F, 0), (0x9F, 0), (0x5F, 0), (3, 0), (0x1F, 2),
    (1, 0), (0x10000000000001, 1), (0x101, 4), (5, 1), (1, 4)]

theorem witness_PageEvents_translation :
    (physPlace (tPage []).dl 1 0 (2 ^ 48) = none ∧ (tPage []).readEntry 0 1 0 (2 ^ 48 + 8 * levelIndex 0 0) = none) ∧
    ((tPage []).setSlotPsn 0 0 true).readEntry 0 1 0 (0 + 8 * levelIndex 4 0) = some (1, true) ∧
    (∀ p ∈ tEntries, (tLevel p.1).readEntry 0 1 0 (0 + 8 * levelIndex p.2 0) = some (p.1, false)) ∧
    (lookup 1 (tPage []).ctxs ≠ none ∧ (match lookup 1 (tPage []).ctxs with
      | some c => (((tPage []).setSlotPsn 0 0 true).walkTables 0 1 0 c .read).2.1 == .fail 8
      | none => false) = true) ∧
    (let e : TlbEntry := { core := 0, ctx := 1, base := 0x10000, size := 0x10000, host := false, pa := 0, r := true, w := true, x := false
                           psn := true }
     let s : State := { tPage [] with tlb := [e] }
     s.tlbHit 0 1 0x1FFFF .read = some e.leaf ∧ e.leaf.psn = true ∧ Access.write.writes = true ∧ Access.read.writes = false ∧
       s.tlbHit 0 1 0x20000 .read = none ∧ s.tlbHit 0 1 0x1FFFF .exec = none ∧
       ({ s with tlb := [{ e with host := true }], atsHeld := [(0, 0)] } : State).tlbHit 0 1 0x1FFFF .write ≠ none) ∧
    (let w : Walk := { die := 0, core := 0, ctx := 1, va := 0x10000, write := false, stale := false, req := .cmd 7 }
     lookup 3 ({ tS [] with walks := [(3, w)] } : State).walks = some w) := by
  decide +kernel

theorem witness_PageEvents :
    (∀ b ∈ [true, false], let w : Walk := { die := 0, core := 0, ctx := 1, va := 0x10000, write := false, stale := b, req := .cmd 7 }
     let s : State := { tRun { tCmd 1 .translating with want := some ⟨1, 0x10000, true⟩ } with walks := [(3, w)] }
     lookup 3 s.walks = some w ∧ ((s.walks.filter fun p => p.2.die == w.die).take 4096).map (·.1) = [3] ∧
       s.walkWaits w.die w.ctx w.va .read = false ∧
       s.cmd 7 = some { tCmd 1 .translating with want := some ⟨1, 0x10000, true⟩ }) ∧
    (∀ count ∈ [0, 1], let v : Inval := { ctx := some 1, func := 0, first := 2, count := count, ats := false, flush := false, mgmt := none, holders := [] }
     let s : State := { tS [] with invals := [(3, v)] }
     lookup 3 s.invals = some v ∧ v.holders = [] ∧ s.kernels.all (fun p => !s.invalCode v p.2.ctx p.2.code) = true ∧
       s.images = [] ∧ s.groups.all (fun p => p.2.handles.isNone || !s.invalCode v p.2.ctx p.2.code) = true) ∧
    (0 < (tS []).part.ports) ∧
    (let p : PageReq := { func := 0, die := 0, fault := 1, page := 1 }
     let f : FaultRec := { die := 0, id := 1, ctx := 1, page := 1, words := [], reason := 9 }
     let s : State := { tS [] with pri := [(3, p)], faults := [f] }
     lookup 3 s.pri = some p ∧ (s.faults.find? fun x => x.die == p.die && x.id == p.fault) = some f) ∧
    (let s : State := { tS [] with now := 2 ^ 20 }
     s.hasDie 3 = true ∧ (s.die 3).lastHalf + 2 ^ 20 ≤ s.now) ∧
    (let c := { tCtx with faultRing := some { ring := 31, vec := 0, desc := [], ok := false } }
     let s : State := { tS [] with now := 10000000, ctxs := [(1, c)], faults := [{ die := 0, id := 1, ctx := 1, page := 1, words := [], reason := 9 }] }
     s.hasDie 0 = true ∧ s.waitingRings 0 ≠ []) ∧
    (let d : Drain := { stack := 15, first := 0, blocks := 1, overflow := false, next := 0 }
     let s : State := { tS [] with drains := [(3, d)] }
     lookup 3 s.drains = some d ∧ d.begun = true ∧ ∀ slot < 4 * (d.first + d.blocks), s.compressed d.stack (1024 * slot) = false) := by
  decide +kernel

/-- The placed machine with link 3, or link 16, in a state. -/
def tLink (l : Nat) (x : Link) : State := { tS [] with now := 2 ^ 17, links := [(l, x)] }

theorem witness_LinkEvents :
    (∀ l ∈ [0, 3, 16, 51], (tS []).isLink l = true) ∧
    (∀ st ∈ [LinkSt.down, .failed, .training, .up, .quiescing, .quiesced, .retraining], ∀ n ∈ [1, 2],
      ((tLink 3 { st := st, fails := n }).link 3).st = st ∧ ((tLink 3 { st := st, fails := n }).link 3).fails = n ∧
        ((tLink 3 { st := st, fails := n }).link 3).since + 2 ^ 17 ≤ (tLink 3 {}).now ∧
        ((tLink 3 { st := st, fails := n }).link 3).since + 8192 ≤ (tLink 3 {}).now) ∧
    (∀ d ∈ linkDies 3, ((tS []).die d).phase = .ready ∨ ((tS []).die d).phase = .training) ∧
    (∀ gap ∈ [true, false], ∀ n ∈ [6, 7], ∀ l ∈ [3, 16],
      let x := (tLink l { st := .quiescing, gap := gap, refused := n }).link l
      x.gap = gap ∧ (if x.gap then x.refused + 1 else 0) = if gap then n + 1 else 0) ∧
    (∀ p ∈ [(5, 0), (4, 1), (2054, 2047), (2053, 2048)], let x := (tLink 16 { st := .up, rx := p.1 }).link 16
      (5 + 4096 - x.rx) % 4096 = p.2) ∧
    (∀ n ∈ [7, 8], let x : Link := { st := .up, replay := [{ seq := 5, bytes := [], replays := n }] }
     let again := (x.ack ((5 + 4095) % 4096)).replay.map fun f => { f with replays := f.replays + 1 }
     again ≠ [] ∧ again.all (fun f => f.replays ≤ 8) = (n == 7) ∧ (∀ f ∈ x.replay, f.seq ≠ 4) ∧
       x.replay = [] ++ { seq := 5, bytes := [], replays := n } :: []) ∧
    (let s := tLink 3 { st := .quiescing }
     (s.link 3).replay = [] ∧ s.owed 3 = false) ∧
    (let s : State := { tS [] with now := 1, buckets := [(4, { level := 5 })] }
     (s.bucket 1 0).at_ < s.now ∧ (s.bucket 1 0).level < (s.bucket 1 0).size) ∧
    (let s : State := { tS [] with now := 1, buckets := [(4, { level := 4096, inj := 1, size := 4096 })] }
     (s.bucket 1 0).at_ < s.now ∧ (s.bucket 1 0).inj ≠ 0) := by decide +kernel

theorem witness_DieAndHostEvents :
    (let s : State := { State.reset with dies := [(3, { phase := .wiping })] }
     s.hasDie 3 = true ∧ (s.die 3).phase = .wiping) ∧
    (let s : State := { tS [] with dies := [(3, { phase := .warm, switchAt := 1 })], now := 1, links := (List.range 4).map fun l => (l, { st := if l = 0 then .failed else .quiesced }) }
     s.hasDie 3 = true ∧ (s.die 3).phase = .warm ∧ (s.die 3).switchAt ≤ s.now ∧
       ∀ l < 4, (s.link l).st = .quiesced ∨ (s.link l).st = .failed) ∧
    (∀ w ∈ [true, false], let s : State := { tS [] with dies := [(3, { warmed := w })], refls := [(7, tRefl .live)] }
     s.hasDie 3 = true ∧ ((s.logError ⟨3, 0, 14, false, 0, 0, 0, s.now, 0⟩).die 3).warmed = w ∧ (s.die 3).warmed = w ∧
       (match lookup 1 s.ctxs with
         | some c => (deviceDies c.mode c.dev).contains 3
         | none => false) = true ∧ (lookup 7 s.refls).isSome = true) ∧
    (∀ phase ∈ [DiePhase.training, .warm, .ready], let s : State := { tPage [] with dies := [(3, { phase := phase, warmed := true })] }
     (s.die 3).phase = phase ∧ (s.die 3).warmed = true ∧ (s.die 3).switchAt ≤ s.now ∧ s.dieEdges 3 ≠ [] ∧
       ∀ l ∈ s.dieEdges 3, (s.link l).st = .up) ∧
    (∀ n ∈ [0, 1, 2], ∀ phase ∈ [DiePhase.boot, .ready], let s : State := { State.reset with dies := [(3, { life := n, phase := phase })] }
     s.hasDie 3 = true ∧ n + 1 = (s.die 3).life + 1 ∧ n + 1 ≤ 3 ∧ (s.die 3).phase = phase) ∧
    ((({ part := .ct4880 } : State).part = .ct4880)) ∧ (1 < (tS []).part.ports) ∧ (∀ d ∈ [0, 3], (tS []).hasDie d = true) ∧ 2 ^ 36 - 4 < 2 ^ 36 ∧ (2 ^ 36 - 4) % 128 + [(1 : Byte), 2, 3, 4].length ≤ 128 ∧
    ((tS []).portUp 1 = true ∧ ({ tS [] with portDown := [(1, 0)] } : State).portUp 1 = false ∧ (tS []).dieReady (15 / 4) = true) := by
  decide +kernel

/-- Slice 63 of die 3, with so many slices of its stack retired. -/
def tSlices (n : Nat) : State := { tS [] with dies := [(3, { retired := (List.range n).map (48 + ·) })] }

theorem witness_ErrorEvents :
    (∀ d ∈ [0, 3], (tS []).hasDie d = true) ∧ (lookup 1 (tS []).ctxs).isSome = true ∧
    (∀ dirty ∈ [0, 8],
      let h : HomeLine := { stack := 15, line := 2 ^ 29 - 1, valid := 8, dirty := dirty }
      let c : CopyLine := { near := true, ctx := 1, die := 3, slice := 192, stack := 15, line := 2 ^ 29 - 1, valid := 8
                            dirty := if dirty = 0 then 0 else 1#128 <<< 127 }
      ({ tS [] with homes := [h] } : State).l2Hits 3 15 (2 ^ 36 - 1) = [.home h] ∧
        ({ tS [] with copies := [c] } : State).l2Hits 3 15 (2 ^ 36 - 1) = [.copy c] ∧
        h.dirty.getLsbD ((2 ^ 36 - 1) % 128 / 32) = (dirty == 8) ∧
        ((List.range 32).any fun i => c.dirty.getLsbD ((2 ^ 36 - 1) % 128 / 32 * 32 + i)) = (dirty == 8)) ∧
    (∀ n ∈ [0, 14, 15], 63 ∉ ((tSlices n).die 3).retired ∧
      (((List.range 16).all fun u => 63 / 16 * 16 + u == 63 || ((tSlices n).die 3).retired.contains (63 / 16 * 16 + u)) = (n == 15))) ∧
    (let g := { tGroup [] with st := .parked, resident := false, image := true }
     lookup 4 (tState g).groups = some g ∧ 4 * 4095 < g.frameSize) ∧
    ((tRun (tCmd 1 .moving)).cmd 7 = some (tCmd 1 .moving)) ∧
    ((tS []).arrayOwner (.predicate 4 31 15) = some (some 2, 1, 0, 511) ∧
      ((tS []).logError ⟨0, 1, 4, false, 0, 0, 511, 0, 0⟩).unspent 2 = none) ∧
    ((tS []).logError ⟨0, 1, 5, false, 0, 0, 0, 0, 0⟩).unspent 2 = none := by decide +kernel

/-- The placed team keeps a checkpoint that no rollback has used. -/
def tKept : State :=
  { tS [] with teams := (tS []).teams.map fun p => (p.1, { p.2 with ckpt := some {} }), refls := [(7, tRefl .live)] }

/-- The record of the placed group. -/
def tKeeps : GroupCkpt :=
  { gid := 4, threads := [], ptab := [], qbind := [], slots := [], tiles := [], unit := none, wait := .bar 1, pushes := [] }

theorem witness_ErrorEvents_checkpoint : (tKept.logError ⟨0, 1, 4, false, 0, 0, 511, 0, 0⟩).unspent 2 ≠ none ∧
    (tKept.logError ⟨0, 1, 5, false, 0, 0, 0, 0, 0⟩).unspent 2 ≠ none ∧
    ([tKeeps].map (·.gid)).Nodup ∧ (lookup tKeeps.gid tKept.groups).isSome = true ∧ (lookup 2 tKept.teams).isSome = true ∧
    (lookup 7 tKept.refls).isSome = true ∧ tKept.inSlot 0 65535 = false ∧
    (let s : State := { tKept with refls := [(7, { tRefl .live with off := 0 })] }
     s.inSlot 0 0 = true) ∧ (0 < (tS []).groups.length ∧ 31 < ((tGroup []).threads.length)) := by decide +kernel

/-! A saved context whose header stands in host memory with its seal. -/

/-- One piece of a read of n bytes of host memory. -/
def tPiece (a : Agent) (x n : Nat) (r : List Byte × Bool × State) (i : Nat) : List Byte × Bool × State :=
  let g := r.2.2.read a (min 32 (n - 32 * i)) (.host (x + 32 * i))
  (r.1 ++ g.1.bytes, r.2.1 || g.1.psn, g.2)

theorem readPieces_host (s : State) (a : Agent) (x n k : Nat) (h : (n + 31) / 32 = k) : s.readPieces a n (.host x) =
    (List.range k).foldl (tPiece a x n) ([], false, s) := by
  subst h
  rfl

theorem foldl_pieces (s : State) (a : Agent) (x n : Nat)
    (h : ∀ c m y, State.placeReach { s with counters := c, migreqs := m } a.ctx (dieOf a.core) (.host y) = .ok)
    (hf : s.funcOf a.ctx = dieOf a.core) (hp : s.hostPsn = []) : ∀ k, 32 * k ≤ n →
    let r := (List.range k).foldl (tPiece a x n) ([], false, s)
    r.1 = (List.range (32 * k)).map (fun i => s.hostByte (x + i)) ∧ r.2.1 = false ∧
      ∃ c m, r.2.2 = { s with counters := c, migreqs := m } := by
  intro k
  induction k with
  | zero => exact fun _ => ⟨rfl, rfl, s.counters, s.migreqs, rfl⟩
  | succ k ih =>
    intro hk
    obtain ⟨h1, h2, c, m, h3⟩ := ih (by omega)
    simp only [List.range_succ, List.foldl_append, List.foldl_cons, List.foldl_nil]
    unfold tPiece at h1 h2 h3 ⊢
    rw [h1, h2, h3]
    have hm : min 32 (n - 32 * k) = 32 := by omega
    have hh : ∀ b : Agent, (State.hints { s with counters := c, migreqs := m } b).ctx = b.ctx ∧
        (State.hints { s with counters := c, migreqs := m } b).core = b.core := by
      intro b; unfold State.hints; split <;> exact ⟨rfl, rfl⟩
    have hg : State.funcOf { s with counters := c, migreqs := m } a.ctx = dieOf a.core := hf
    simp only [State.read, hm, (hh a).1, (hh a).2, h, hg, beq_self_eq_true, if_true]
    refine ⟨?_, ?_, _, _, rfl⟩
    · rw [show 32 * (k + 1) = 32 * k + 32 by omega, List.range_add, List.map_append, List.map_map]
      refine congrArg _ (List.map_congr_left fun i _ => ?_)
      simp only [Function.comp, State.hostByte, Nat.add_assoc]
    · rw [Bool.false_or]
      simp [State.hostBad, hp]

theorem crcStep_lt (c : Nat) (b : Byte) (h : c < 2 ^ 32) : crcStep c b < 2 ^ 32 := by
  have hx : Nat.xor c b.toNat < 2 ^ 32 := Nat.xor_lt_two_pow h (by have := b.isLt; omega)
  unfold crcStep
  generalize Nat.xor c b.toNat = y at hx
  have step : ∀ (l : List Nat) (x : Nat), x < 2 ^ 32 →
      l.foldl (fun x _ => if x % 2 == 1 then Nat.xor (x / 2) 0x82F63B78 else x / 2) x < 2 ^ 32 := by
    intro l
    induction l with
    | nil => exact fun _ h => h
    | cons _ _ ih =>
      intro x hx
      refine ih _ ?_
      show (if x % 2 == 1 then Nat.xor (x / 2) 0x82F63B78 else x / 2) < 2 ^ 32
      split
      · exact Nat.xor_lt_two_pow (by omega) (by decide)
      · omega
  exact step _ _ hx

theorem crc32c_lt (bs : List Byte) : crc32c bs < 2 ^ 32 := by
  have fold : ∀ (l : List Byte) (c : Nat), c < 2 ^ 32 → l.foldl crcStep c < 2 ^ 32 := by
    intro l
    induction l with
    | nil => exact fun _ h => h
    | cons b _ ih => exact fun c h => ih _ (crcStep_lt c b h)
  exact Nat.xor_lt_two_pow (fold _ _ (by decide)) (by decide)

theorem byteOf_num (v : Nat) (h : v < 2 ^ 32) : leNat (fun j => byteOf v j) 4 = v := by
  simp only [leNat, byteOf, BitVec.toNat_ofNat]
  omega

theorem readAt_append (l1 l2 : List Host.Cell) (k : Nat) (h : lookup k l2 = none) :
    readAt (0 : Byte) (l1 ++ l2) k = readAt 0 l1 k := by
  induction l1 with
  | nil => simp [readAt, h, lookup]
  | cons p l ih =>
    simp only [readAt, List.cons_append, lookup] at *
    split
    · rfl
    · exact ih

/-- The header but for its seal: kind 2, its second word for mode 1 and dies 0 to 3, 65,536 bytes used, no cores. -/
def tHead : List Host.Cell := [(0x200000, 2), (0x200004, 1), (0x200006, 0xF1), (0x20000A, 1)]

/-- The header with a seal. -/
def tHeader (v : Nat) : List Host.Cell := tHead ++ (List.range 4).map fun j => (0x20FFFC + j, byteOf v j)

/-- The restoring context. -/
def tSaved : Ctx := { tCtx with st := .restoring, savea := 0x200000 }

/-- A machine with that context, whose image holds no work; its save area lies in host memory, and the home slices hold its
table. -/
def tRestore0 : State :=
  { tPage [] with groups := [], teams := [], clusters := [], kernels := [], ctxs := [(1, tSaved)], images := [(1, { kind := 2 })]
                  homes := [{ stack := 0, line := 0, valid := 1, data := [(0, 1), (8, 0x3F), (10, 0x20)] }], atsHeld := [(0, 32)] }

def tRestore (m : List Host.Cell) : State := { tRestore0 with host := m }

theorem words_getD (f : Nat → Byte) (n k : Nat) (hk : 4 * k + 4 ≤ n) :
    ((wordsOfBytes ((List.range n).map f)).map (·.toNat)).getD k 0 = leNat (fun j => f (4 * k + j)) 4 := by
  have hb : ∀ j < 4, ((List.range n).map f).getD (4 * k + j) 0 = f (4 * k + j) := by
    intro j hj
    rw [List.getD_eq_getElem _ _ (by simp; omega)]
    simp
  have hlt : leNat (fun j => f (4 * k + j)) 4 < 2 ^ 32 := by
    have h := fun j => (f (4 * k + j)).isLt
    have h0 := h 0; have h1 := h 1; have h2 := h 2; have h3 := h 3
    simp only [leNat] at *
    omega
  unfold wordsOfBytes
  rw [List.map_map, List.getD_eq_getElem _ _ (by simp; omega)]
  simp only [List.getElem_map, List.getElem_range, Function.comp, BitVec.toNat_ofNat]
  rw [show leNat (fun j => ((List.range n).map f).getD (4 * k + j) 0) 4 = leNat (fun j => f (4 * k + j)) 4 by
    simp only [leNat, hb 0 (by decide), hb (0 + 1) (by decide), hb (0 + 1 + 1) (by decide), hb (0 + 1 + 1 + 1) (by decide)]]
  exact Nat.mod_eq_of_lt hlt

/-- The leaf of that page. -/
def tLeaf : Leaf := ⟨0x200000, 0x200000, true, 0x200000, true, true, true, false⟩

/-- The home slices hold sector 0 of stack 0. -/
def Held (s : State) : Prop := ∃ h, s.homeLine 0 0 = some h ∧ h.valid.getLsbD 0 = true

/-- Reading a sector that a home slice holds changes the use of lines only. -/
theorem touch_held (s : State) (off : Nat) (ho : off < 32) (hs : Held s) :
    ∃ u hs, s.touchHome 0 off = { s with l2Uses := u, homes := hs } ∧ Held { s with l2Uses := u, homes := hs } := by
  obtain ⟨h, h1, h2⟩ := hs
  have hk : h.stack = 0 ∧ h.line = 0 := by
    have := List.find?_some h1
    simpa using this
  have e : s.touchHome 0 off = s.keepHome h := by
    simp only [State.touchHome, Nat.div_eq_of_lt (show off < 128 by omega), Nat.mod_eq_of_lt (show off < 128 by omega),
      Nat.div_eq_of_lt ho, State.homeOr, h1, Option.getD_some, State.fetchHome, h2, if_true, State.putHome, hk.1, hk.2, Option.isSome_some]
  refine ⟨_, _, e, { h with used := s.l2Uses }, ?_, h2⟩
  simp [State.homeLine, hk]

theorem touch_all (ps : List (Nat × Nat)) : ∀ s, Held s → (∀ p ∈ ps, p.1 = 0 ∧ p.2 < 32) →
    ∃ u hs, ps.foldl (fun t p => t.touchHome p.1 p.2) s = { s with l2Uses := u, homes := hs } := by
  induction ps with
  | nil => exact fun s _ _ => ⟨s.l2Uses, s.homes, rfl⟩
  | cons p ps ih =>
    intro s hs hp
    obtain ⟨h0, h1⟩ := hp p (List.mem_cons_self ..)
    obtain ⟨u, hs1, e, hn⟩ := touch_held s p.2 h1 hs
    obtain ⟨u2, hs2, e2⟩ := ih _ hn fun q hq => hp q (List.mem_cons_of_mem _ hq)
    refine ⟨u2, hs2, ?_⟩
    rw [List.foldl_cons, h0, e, e2]

theorem reach_host (s : State) (m : List Host.Cell) (a b l : Nat) : State.reach { s with host := m } a b l = s.reach a b l := by
  have hp : ∀ w, State.pathReach { s with host := m } w = s.pathReach w := by
    intro w
    induction w with
    | nil => rfl
    | cons x w ih =>
      cases w with
      | nil => rfl
      | cons y w =>
        simp only [State.pathReach, ih]
        rfl
  simp only [State.reach, hp]
  rfl

theorem walkFrom_host (s : State) (m : List Host.Cell) (die mode dev va : Nat) (a : Access) (ls : List Nat) : ∀ t,
    State.walkFrom { s with host := m } die mode dev va a ls t = s.walkFrom die mode dev va a ls t := by
  induction ls with
  | nil => exact fun _ => rfl
  | cons l ls ih =>
    intro t
    have hr : ∀ p, State.readEntry { s with host := m } die mode dev p = s.readEntry die mode dev p := fun p => by
      simp only [State.readEntry, reach_host]
      rfl
    simp only [State.walkFrom, hr, ih]

/-- What the walks of the save area's pieces read and find, whatever the host's memory holds. -/
theorem tables_good : ∀ k ∈ List.range 16,
    let x := tRestore0.walkTables 0 1 (0x200000 + 4096 * k) tSaved .read
    x.2.1 = .ok tLeaf ∧ ∀ p ∈ tRestore0.entriesRead tSaved (0x200000 + 4096 * k) (x.1 :: x.2.2), p.1 = 0 ∧ p.2 < 32 := by decide +kernel

/-- A walk of the context's page that reads held lines and finds its leaf. -/
theorem walk_leaf (s : State) (va : Nat) (hv : va < 2 ^ 57) (hc : lookup 1 s.ctxs = some tSaved) (hh : Held s)
    (ha : s.atsHeld.contains (0, 32) = true) (hp : (0x200000 + (va - 0x200000)) / 65536 = 32)
    (h1 : (s.walkTables 0 1 va tSaved .read).2.1 = .ok tLeaf)
    (h2 : ∀ p ∈ s.entriesRead tSaved va ((s.walkTables 0 1 va tSaved .read).1 :: (s.walkTables 0 1 va tSaved .read).2.2), p.1 = 0 ∧ p.2 < 32) :
    ∃ u hs w, s.walk 0 1 va .read = (.ok tLeaf, { s with l2Uses := u, homes := hs, walkCache := w }) := by
  unfold State.walk State.walkRead
  simp only [hc]
  rw [if_neg (by omega)]
  generalize s.walkTables 0 1 va tSaved .read = x at h1 h2 ⊢
  obtain ⟨u, hs, e⟩ := touch_all ((s.entriesRead tSaved va (x.1 :: x.2.2)).filter fun p => s.reach 0 (p.1 / 4) (p.2 / 128) != .down) s hh
    fun p hp => h2 p (List.mem_of_mem_filter hp)
  refine ⟨u, hs, ?_⟩
  have hf : tSaved.func = 0 := rfl
  rw [State.touchEntries, e, h1]
  simp only [tLeaf, hp, ha, hf]
  exact ⟨_, rfl⟩

/-- A walk of a piece of the save area. -/
theorem walk_piece (m : List Host.Cell) (k : Nat) (hk : k < 16) : ∃ u hs w,
    (tRestore m).walk tSaved.lowDie 1 (tSaved.savea + 4096 * k) .read =
      (.ok tLeaf, { tRestore m with l2Uses := u, homes := hs, walkCache := w }) := by
  obtain ⟨h1, h2⟩ := tables_good k (List.mem_range.mpr hk)
  have hb : tSaved.savea = 0x200000 := rfl
  have hd : tSaved.lowDie = 0 := by decide +kernel
  rw [hb, hd]
  generalize hv : 0x200000 + 4096 * k = va at h1 h2 ⊢
  have ht : (tRestore m).walkTables 0 1 va tSaved .read = tRestore0.walkTables 0 1 va tSaved .read := by
    simp only [State.walkTables, tRestore, walkFrom_host]
    rfl
  refine walk_leaf (tRestore m) va (by omega) rfl ⟨_, rfl, rfl⟩ rfl (by omega) (ht ▸ h1) ?_
  rw [ht]
  have hl : (tRestore m).dl = tRestore0.dl := rfl
  unfold State.entriesRead at h2 ⊢
  rw [hl]
  exact h2

/-- Host memory is in reach. -/
theorem host_reached (t : State) (hd : t.dieReady 0 = true) (hu : ∀ l, t.unswitched 0 0 l = false) (hp : t.portDown = [])
    (hf : t.funcOf 1 = 0) (y : Nat) : t.placeReach 1 0 (.host y) = .ok := by
  simp only [State.placeReach, hf, State.portReach, hp, lookup, Option.isSome_none, State.reach, hd, hu]
  rfl

/-- A piece of the save area as it is read. -/
theorem readSave_piece (m : List Host.Cell) (k : Nat) (hk : k < 16) : (tRestore m).readSave 1 tSaved (tSaved.savea + 4096 * k) 4096 =
    .ok ((List.range 4096).map fun i => readAt 0 m (0x200000 + 4096 * k + i)) := by
  obtain ⟨u, hs, w, e⟩ := walk_piece m k hk
  unfold State.readSave
  rw [e]
  generalize ht : ({ tRestore m with l2Uses := u, homes := hs, walkCache := w } : State) = t
  have hr : ∀ c n y, State.placeReach { t with counters := c, migreqs := n } 1 0 (.host y) = .ok := by
    intro c n y
    subst ht
    exact host_reached _ rfl (fun _ => rfl) rfl rfl y
  have hb : tSaved.savea = 0x200000 := rfl
  have hd : tSaved.lowDie = 0 := by decide +kernel
  rw [hb, hd]
  generalize hv : 0x200000 + 4096 * k = va
  have hl : t.placeOf 1 (tLeaf.xl va) va = some (.host va) := by
    have h1 : va = 32 * 65536 + 4096 * k := by omega
    have h2 : va / 65536 = 32 := by omega
    have h3 : (tLeaf.xl va).pa = 0x200000 := by
      simp only [Leaf.xl, tLeaf, h2]
    have h4 : 0x200000 + va % 65536 = va := by omega
    have h5 : (tLeaf.xl va).host = true := rfl
    rw [State.placeOf, if_pos h5, h3, h4]
  obtain ⟨p1, p2, _⟩ := foldl_pieces t (saveAgent 1 0) va 4096 hr (by subst ht; rfl) (by subst ht; rfl) 128 (by decide)
  have hr0 : t.placeReach 1 0 (.host va) = .ok := hr t.counters t.migreqs va
  simp only [hl, hr0, readPieces_host t (saveAgent 1 0) va 4096 128 (by decide), p1, p2]
  subst ht
  rfl

/-- The first pieces together. -/
theorem readFirst_pieces (m : List Host.Cell) : ∀ n ≤ 16,
    (List.range n).foldl (fun r k => match r, (tRestore m).readSave 1 tSaved (tSaved.savea + 4096 * k) 4096 with
      | .ok bs, .ok more => .ok (bs ++ more)
      | .ok _, .error h => .error h
      | r, _ => r) (.ok []) =
      (.ok ((List.range (4096 * n)).map fun i => readAt 0 m (0x200000 + i)) : Except Header (List Byte)) := by
  intro n
  induction n with
  | zero => exact fun _ => rfl
  | succ n ih =>
    intro hn
    rw [List.range_succ, List.foldl_append, ih (by omega)]
    simp only [List.foldl_cons, List.foldl_nil, readSave_piece m n (by omega)]
    rw [show 4096 * (n + 1) = 4096 * n + 4096 by omega, List.range_add, List.map_append, List.map_map]
    simp only [Nat.add_assoc]
    rfl

theorem header_read (s : State) (bs : List Byte) (hr : s.readFirst 1 tSaved = .ok bs)
    (hk : s.headerOk tSaved { kind := 2 } bs = true) : s.readHeader 1 tSaved { kind := 2 } = .good := by
  unfold State.readHeader
  rw [hr]
  simp only [hk, if_true, List.foldl_nil]

/-- The fields and the seal of a header, from the bytes that a function gives. -/
theorem header_fields (s : State) (f : Nat → Byte) (n : Nat) (hn : n = 65536) (hm : s.shownMode tSaved = 1)
    (h0 : leNat (fun j => f (4 * 0 + j)) 4 = 2) (h1 : leNat (fun j => f (4 * 1 + j)) 4 = 0xF10001)
    (h2 : leNat (fun j => f (4 * 2 + j)) 4 = 0x10000) (h3 : leNat (fun j => f (4 * 3 + j)) 4 = 0)
    (h4 : leNat (fun j => f (4 * 4 + j)) 4 = 0) (k : Nat) (hk : k = 65532)
    (hc : crc32c ((List.range k).map f) = leNat (fun j => f (4 * 16383 + j)) 4) :
    s.headerOk tSaved { kind := 2 } ((List.range n).map f) = true := by
  have hl : min k n = k := by omega
  have hu : ({ kind := 2 } : Image).used = 0x10000 := rfl
  have hd : (deviceDies tSaved.mode tSaved.dev).foldl (fun m d => m + 2 ^ d) 0 = 15 := by decide +kernel
  unfold State.headerOk
  simp only [words_getD f n 0 (by omega), words_getD f n 1 (by omega), words_getD f n 2 (by omega), words_getD f n 3 (by omega),
    words_getD f n 4 (by omega), words_getD f n 16383 (by omega), h0, h1, h2, h3, h4, hm, hu, hd]
  rw [← hk, ← List.map_take, List.take_range, hl, hc]
  simp only [beq_self_eq_true, Bool.true_and]
  rfl

theorem header_good (m : List Host.Cell)
    (h0 : leNat (fun j => readAt 0 m (0x200000 + (4 * 0 + j))) 4 = 2)
    (h1 : leNat (fun j => readAt 0 m (0x200000 + (4 * 1 + j))) 4 = 0xF10001)
    (h2 : leNat (fun j => readAt 0 m (0x200000 + (4 * 2 + j))) 4 = 0x10000)
    (h3 : leNat (fun j => readAt 0 m (0x200000 + (4 * 3 + j))) 4 = 0)
    (h4 : leNat (fun j => readAt 0 m (0x200000 + (4 * 4 + j))) 4 = 0)
    (hc : crc32c ((List.range 65532).map fun i => readAt 0 m (0x200000 + i)) =
      leNat (fun j => readAt 0 m (0x200000 + (4 * 16383 + j))) 4) :
    (tRestore m).readHeader 1 tSaved { kind := 2 } = .good :=
  header_read _ _ (readFirst_pieces m 16 (by decide))
    (header_fields _ (fun i => readAt 0 m (0x200000 + i)) (4096 * 16) (by decide) rfl h0 h1 h2 h3 h4 65532 rfl hc)

theorem tHeader_byte (v k : Nat) (h : k < 0x20FFFC) : readAt 0 (tHeader v) k = readAt (0 : Byte) tHead k := by
  have hn : lookup k ((List.range 4).map fun j => (0x20FFFC + j, byteOf v j)) = none := by
    simp only [List.range_succ, List.range_zero, List.nil_append, List.cons_append, List.map_cons, List.map_nil, lookup, beq_iff_eq]
    repeat rw [if_neg (by omega)]
  simp only [tHeader, readAt_append _ _ k hn]

theorem tHeader_word (v i : Nat) (h : i < 16383) : leNat (fun j => readAt 0 (tHeader v) (0x200000 + (4 * i + j))) 4 =
    leNat (fun j => readAt (0 : Byte) tHead (0x200000 + (4 * i + j))) 4 := by
  simp only [leNat]
  rw [tHeader_byte _ _ (by omega), tHeader_byte _ _ (by omega), tHeader_byte _ _ (by omega), tHeader_byte _ _ (by omega)]

theorem tHeader_seal (v : Nat) (h : v < 2 ^ 32) : leNat (fun j => readAt 0 (tHeader v) (0x200000 + (4 * 16383 + j))) 4 = v := by
  have h2 : leNat (fun j => readAt 0 (tHeader v) (0x200000 + (4 * 16383 + j))) 4 = leNat (fun j => byteOf v j) 4 := by
    simp [leNat, tHeader, tHead, readAt, lookup, List.range_succ]
  rw [h2, byteOf_num v h]

theorem header_sealed (v : Nat) (h : v = crc32c ((List.range 65532).map fun i => readAt 0 tHead (0x200000 + i))) :
    (tRestore (tHeader v)).readHeader 1 tSaved { kind := 2 } = .good := by
  refine header_good (tHeader v) ((tHeader_word v 0 (by decide)).trans (by decide)) ((tHeader_word v 1 (by decide)).trans (by decide))
    ((tHeader_word v 2 (by decide)).trans (by decide)) ((tHeader_word v 3 (by decide)).trans (by decide))
    ((tHeader_word v 4 (by decide)).trans (by decide)) ?_
  rw [tHeader_seal v (h ▸ crc32c_lt _), h]
  exact congrArg crc32c (List.map_congr_left fun i hi => tHeader_byte _ _ (by have := List.mem_range.mp hi; omega))

theorem header_exists : ∃ v, (tRestore (tHeader v)).readHeader 1 tSaved { kind := 2 } = .good := ⟨_, header_sealed _ rfl⟩

theorem witness_ContextEvents_restore : ∃ m,
    let s := tRestore m
    let i : Image := { kind := 2 }
    lookup 1 s.ctxs = some tSaved ∧ lookup 1 s.images = some i ∧ s.restorable 1 = true ∧ tSaved.preqNext = false ∧
      s.readHeader 1 tSaved i = .good ∧
      s.suspends tSaved.lowDie 1 .read (i.pages tSaved ++ (i.refls.filter fun p => p.2.st != .lost).map fun p => p.2.va) = none ∧ s.restoreClusters i tSaved = some s := by
  obtain ⟨v, h⟩ := header_exists
  refine ⟨tHeader v, rfl, rfl, ?_, rfl, h, ?_, rfl⟩
  · have h1 : lookup 1 (tRestore (tHeader v)).ctxs = some tSaved := rfl
    have h2 : lookup 1 (tRestore (tHeader v)).images = some { kind := 2 } := rfl
    simp only [State.restorable, h1, h2, h]
    rfl
  · show State.suspends _ _ _ _ [tSaved.savea] = none
    obtain ⟨_, _, _, e⟩ := walk_piece (tHeader v) 0 (by decide)
    have e0 : (tRestore (tHeader v)).walk tSaved.lowDie 1 tSaved.savea .read = _ := e
    simp only [State.suspends, e0]

/-! A flit with its check. -/

/-- 252 bytes of zeros but for SEQ 5. -/
def tBody : List Byte := bytesOfWords ([0, 5 * 2 ^ 20] ++ List.replicate 61 0)

theorem tBody_word (v i : Nat) (h : i < 63) : flitWord (tBody ++ bytesOfWords [v]) i = flitWord tBody i := by
  have hl : tBody.length = 252 := by decide +kernel
  have hb : ∀ j < 4, (tBody ++ bytesOfWords [v]).getD (4 * i + j) 0 = tBody.getD (4 * i + j) 0 := fun j hj =>
    List.getD_append _ _ _ _ (by omega)
  simp only [flitWord, leNat, hb 0 (by decide), hb (0 + 1) (by decide), hb (0 + 1 + 1) (by decide), hb (0 + 1 + 1 + 1) (by decide)]

theorem tBody_check (v : Nat) (h : v < 2 ^ 32) : flitWord (tBody ++ bytesOfWords [v]) 63 = v := by
  have hl : tBody.length = 252 := by decide +kernel
  have hb : ∀ j, (tBody ++ bytesOfWords [v]).getD (252 + j) 0 = (bytesOfWords [v]).getD j 0 := fun j => by
    rw [List.getD_append_right _ _ _ _ (by omega), hl, Nat.add_sub_cancel_left]
  refine Eq.trans ?_ (byteOf_num v h)
  show leNat (fun j => (tBody ++ bytesOfWords [v]).getD (252 + j) 0) 4 = _
  simp only [hb]
  rfl

theorem witness_LinkEvents_flit : (∃ b, flitBad b = false ∧ flitSeq b = 5) ∧ flitBad (List.replicate 255 0) = true := by
  have hl : tBody.length = 252 := by decide +kernel
  have h0 : flitWord tBody 0 = 0 ∧ flitWord tBody 2 = 0 ∧ bitsOf (flitWord tBody 1) 20 12 = 5 := by decide +kernel
  refine ⟨⟨tBody ++ bytesOfWords [crc32c tBody], ?_, ?_⟩, by decide +kernel⟩
  · unfold flitBad
    simp only [tBody_check _ (crc32c_lt _), tBody_word _ 0 (by decide), tBody_word _ 2 (by decide), List.take_left' hl, h0.1, h0.2.1,
      List.length_append, hl]
    simp [bytesOfWords, bitsOf]
  · unfold flitSeq
    rw [tBody_word _ 1 (by decide), h0.2.2]

/-! Management commands. -/

/-- A command of a type on the management queue of die 3 in function 1, its queue Active. -/
def tMgmt (ws : List Word) : State :=
  { tS [] with ctxs := [(1, { tCtx with st := .ready, func := 1 })], queues := [(8199, { st := .active, log2n := 4, wr := 1, rd := 1, entries := [(0, { words := ws })] })] }

/-- Its name. -/
def tRef : MgmtRef := ⟨1, 3, 0⟩

theorem witness_ManagementCommands_context :
    ∀ ty ∈ [2, 3, 4, 5, 6, 9], ∀ st ∈ [CtxSt.ready, .running], let ws := [BitVec.ofNat 32 (ty * 2 ^ 24), 1, 0, if ty = 9 then 2047 else 0]
     let s : State := { tMgmt ws with ctxs := [(1, { tCtx with st := st, func := 1 })] }
     let e : QEntry := { words := ws }
     (s.mgmtEntry tRef = some e ∧ e.type = ty ∧ (s.die 3).refuses ty = none) ∧
       ((lookup 1 s.ctxs).isSome = true ∧ (s.die tCtx.lowDie).refuses ty = none ∧ s.ctxHeld tRef 1 = false ∧ e.w 1 = 1) ∧
       (ty = 6 → e.num 2 = 0) ∧ e.w 2 < 32 ∧ e.w 3 < 2048 ∧ s.shadeOf 1 = none ∧ s.ctxs.all (fun p => !p.2.shade) = true ∧
       lookup 2 s.ctxs = none := by decide +kernel

theorem witness_ManagementCommands_shade :
    let ws : List Word := [0x02000000, 1]
    let s : State := { tMgmt ws with ctxs := [(1, { tCtx with st := .ready, func := 1 }), (2, { tCtx with shade := true, princ := 1, st := .ready })] }
    s.mgmtEntry tRef = some { words := ws } ∧ s.shadeOf 1 = some 2 ∧ s.ctxHeld tRef 1 = false := by decide +kernel

/-- The page, with a descriptor at 0x10080, and the command. -/
def tHandles (ws : List Word) (k : List Word) : State :=
  { tPage ((List.range 32).map fun i => (32 + i, k.getD i 0)) with
    queues := [(8199, { st := .active, log2n := 4, wr := 1, rd := 1, entries := [(0, { words := ws })] })] }

theorem witness_ManagementCommands_handler :
    ∀ p ∈ [(tKernel, 0, true), (tKernel ++ [0x10], 0, false), ([], 2, true)], let ws : List Word := [0x06000000, 1, 0x10080, 0]
     let s := tHandles ws p.1
     s.mgmtEntry tRef = some { words := ws } ∧ (s.die 3).refuses 6 = none ∧ s.ctxHeld tRef 1 = false ∧ ({ words := ws } : QEntry).num 2 ≠ 0 ∧
       (match s.describe tCtx.lowDie 1 0x10080 with
        | .ok d _ _ => p.2.1 == 0 && (d.w == 1 && d.h == 1 && d.g == 1 && d.scratch == 0 && d.argoff == 0 && d.arglen == 0) == p.2.2
        | r => tChecked r == p.2.1) = true := by decide +kernel

theorem witness_ManagementCommands_policy :
    (∀ p ∈ [(1, 4), (2, 7), (3, 4096), (4, 16383)], let ws := [0x0E000000, BitVec.ofNat 32 p.1, 1, BitVec.ofNat 32 p.2]
     let e : QEntry := { words := ws }
     (tMgmt ws).mgmtEntry tRef = some e ∧ e.type = 14 ∧ e.w 1 = p.1 ∧ e.w 2 = 1 ∧ (tMgmt ws).ctxHeld tRef 1 = false) ∧
    (∀ p ∈ [(5, 2, 1), (5, 65535, 65534), (6, 256, 0), (7, 3400, 0)],
     let ws := [0x0E000000, BitVec.ofNat 32 p.1, 0, BitVec.ofNat 32 p.2.1, BitVec.ofNat 32 p.2.2]
     let e : QEntry := { words := ws }
     (tMgmt ws).mgmtEntry tRef = some e ∧ e.w 1 = p.1 ∧ e.w 3 = p.2.1 ∧ e.w 4 = p.2.2 ∧ (p.1 = 5 → 0 < e.w 4 ∧ e.w 4 < e.w 3)) := by
  decide +kernel

theorem witness_ManagementCommands_pages :
    (∀ w ∈ [(0x10001, 0, false), (1, 1, false), (1, 1, true)], let ws := [0x07000000, BitVec.ofNat 32 w.1, if w.2.2 then 1 else 0, 0, BitVec.ofNat 32 w.2.1]
     let e : QEntry := { words := ws }
     (tMgmt ws).mgmtEntry tRef = some e ∧ e.type = 7 ∧ e.w 1 % 2 ^ 16 = 1 ∧ invalBad e = w.2.2) ∧
    (∀ ask ∈ [0, 1], let ws := [0x08000000, BitVec.ofNat 32 ask, 1]
     let e : QEntry := { words := ws }
     let f : FaultRec := { die := 3, id := 1, ctx := 1, page := 1, words := [], reason := 1 }
     let s : State := { tMgmt ws with faults := [f] }
     s.mgmtEntry tRef = some e ∧ e.type = 8 ∧ resumeBad e = false ∧ e.w 1 / 2 % 2 = 0 ∧
       (s.faults.find? fun x => x.die == tRef.die && x.id == e.w 2) = some f ∧
       ((tMgmt ws).faults.find? fun x => x.die == tRef.die && x.id == e.w 2) = none) ∧
    (∀ ask ∈ [2, 3], let ws := [0x08000000, BitVec.ofNat 32 (2 ^ 16 + ask), 0, 0x10000, 0, 1]
     let e : QEntry := { words := ws }
     (tMgmt ws).mgmtEntry tRef = some e ∧ e.type = 8 ∧ resumeBad e = false ∧ e.w 1 / 2 % 2 = 1 ∧ e.w 1 / 2 ^ 16 = 1 ∧
       (lookup 1 (tMgmt ws).ctxs).isSome = true ∧ (tMgmt ws).ctxHeld tRef 1 = false) ∧
    (let ws : List Word := [0x08000000, 4]
     (tMgmt ws).mgmtEntry tRef = some { words := ws } ∧ resumeBad { words := ws } = true) ∧
    (let ws : List Word := [0x0A000000, 0x10000, 0, 1]
     let e : QEntry := { words := ws }
     let s : State := { tMgmt ws with dies := [(3, { phase := .ready, mode := 4 })] }
     s.mgmtEntry tRef = some e ∧ e.type = 10 ∧ (s.die 3).mode = 4 ∧ e.num 1 % 65536 = 0 ∧ e.w 3 ≤ 1 ∧
       (s.pageBlocks 4 3 (e.num 1)).all Option.isSome = true) := by decide +kernel

theorem witness_ManagementCommands_die :
    (∀ p ∈ [(11, 0), (11, 1), (12, 3), (12, 4), (12, 15), (12, 52), (16, 0), (13, 3), (13, 4)],
     let ws := [BitVec.ofNat 32 (p.1 * 2 ^ 24), BitVec.ofNat 32 p.2]
     let e : QEntry := { words := ws }
     let s := tMgmt ws
     s.mgmtEntry tRef = some e ∧ e.type = p.1 ∧ (s.die 3).refuses p.1 = none ∧
       (p.1 = 12 → s.isLink (e.w 1) = (p.2 == 3)) ∧ (p.1 = 13 → s.hasDie (e.w 1) = (p.2 == 3)) ∧
       ({ s with dies := [(3, { phase := .warm, warmed := true })] } : State).mgmtEntry tRef = some e ∧
       ({ s with dies := [(3, { phase := .recovery })] } : State).mgmtEntry tRef = some e ∧
       ({ s with dies := [(3, { phase := .wiping, rejected := true })] } : State).mgmtEntry tRef = some e) ∧
    (∀ warm ∈ [true, false], ∀ mode ∈ [1, 4], let ws : List Word := [0x0D000000, 2]
     let e : QEntry := { words := ws }
     let s : State := { tMgmt ws with dies := [(2, { phase := .ready, warmed := warm, mode := mode }), (3, { phase := .ready, mode := mode })] }
     s.mgmtEntry tRef = some e ∧ e.type = 13 ∧ s.hasDie (e.w 1) = true ∧ e.w 1 ≠ tRef.die ∧ (s.die (e.w 1)).warmed = warm ∧
       ((s.die (e.w 1)).mode ≠ 1 ∨ s.dieReady 3 = true)) ∧
    (∀ known ∈ [true, false], let ws : List Word := [0x10000000]
     let s : State := { tMgmt ws with dies := [(3, { phase := .ready, identity := known })] }
     s.mgmtEntry tRef = some { words := ws } ∧ ({ words := ws } : QEntry).type = 16 ∧ (s.die 3).identity = known) ∧
    (let ws : List Word := [0x0F000000, 0, 0, 256]
     let e : QEntry := { words := ws }
     let s := tMgmt ws
     s.mgmtEntry tRef = some e ∧ e.type = 15 ∧ s.portUp 1 = true ∧ (s.hostBytes (e.num 1) (e.w 3)).2 = false) := by
  decide +kernel

theorem witness_ManagementCommands_create :
    (let e : QEntry := { words := [0x01000000, 0x1000, 0] }
     let s : State := { tMgmt e.words with
       host := [(0x1000, 1), (0x1001, 0x10), (0x1010, 1), (0x1016, 1), (0x102B, 0x30)] }
     let got := s.hostBytes (e.num 1) 64
     let w := fun i => ((wordsOfBytes got.1).getD i 0).toNat
     s.mgmtEntry tRef = some e ∧ e.type = 1 ∧ (s.die 3).refuses 1 = none ∧ s.portUp 1 = true ∧ got.2 = false ∧
       recordBad s.part w = false ∧ (s.die (recordCtx s.part w 1).lowDie).refuses 1 = none ∧ s.createBad (recordCtx s.part w 1) = false) ∧
    (let e : QEntry := { words := [0x01000000, 0x1000, 0] }
     recordBad (tMgmt e.words).part (fun i => ((wordsOfBytes ((tMgmt e.words).hostBytes (e.num 1) 64).1).getD i 0).toNat) = true) := by
  decide +kernel

theorem witness_ManagementCommands_tag : ({ tS [] with ctxs := [] } : State).newTag ≠ 0 := Nat.succ_ne_zero _

end Sys2Proof.Tests
end

section
/-! PROOFS. The frame of the words with register or predicate results (spec 01_machine.md R14, 03_encoding.md R78,
04_register_space.md R96): what their pops, pushes and results leave alone. -/

namespace Sys2Proof.Machine

/-- Two states of a group with the same registers, predicates, threads, patterns, bindings, format slots and tiles. -/
structure Group.SameRegisters (g h : Group) : Prop where
  frame : h.frame = g.frame
  threads : h.threads = g.threads
  ptab : h.ptab = g.ptab
  qbind : h.qbind = g.qbind
  slots : h.slots = g.slots
  tiles : h.tiles = g.tiles
  st : h.st = g.st
  code : h.code = g.code

theorem Group.SameRegisters.refl (g : Group) : g.SameRegisters g := ⟨rfl, rfl, rfl, rfl, rfl, rfl, rfl, rfl⟩

theorem Group.sameRegisters_issue (g : Group) (rs : List Result) : g.SameRegisters (g.issue rs) :=
  ⟨rfl, rfl, rfl, rfl, rfl, rfl, rfl, rfl⟩

theorem Group.sameRegisters_pushes (g : Group) (ps : List Push) : g.SameRegisters { g with pushes := ps } :=
  ⟨rfl, rfl, rfl, rfl, rfl, rfl, rfl, rfl⟩

theorem Group.SameRegisters.trans {g h k : Group} (a : g.SameRegisters h) (b : h.SameRegisters k) : g.SameRegisters k :=
  ⟨b.frame.trans a.frame, b.threads.trans a.threads, b.ptab.trans a.ptab, b.qbind.trans a.qbind, b.slots.trans a.slots,
    b.tiles.trans a.tiles, b.st.trans a.st, b.code.trans a.code⟩

/-- Two states with the same scratchpads, contexts, loans, work queues, reflections, commands, matrix work and scale
memories. -/
structure State.SameStores (s t : State) : Prop where
  spad : t.spad = s.spad
  ctxs : t.ctxs = s.ctxs
  loans : t.loans = s.loans
  queues : t.queues = s.queues
  refls : t.refls = s.refls
  cmds : t.cmds = s.cmds
  mwork : t.mwork = s.mwork
  scales : t.scales = s.scales

theorem State.SameStores.trans {s t u : State} (a : s.SameStores t) (b : t.SameStores u) : s.SameStores u :=
  ⟨b.spad.trans a.spad, b.ctxs.trans a.ctxs, b.loans.trans a.loans, b.queues.trans a.queues, b.refls.trans a.refls,
    b.cmds.trans a.cmds, b.mwork.trans a.mwork, b.scales.trans a.scales⟩

/-- What is the same work is the same stores, where the loans are the same. -/
theorem State.SameWork.stores {s t : State} (h : s.SameWork t) (hl : t.loans = s.loans) : s.SameStores t :=
  ⟨h.spad, h.ctxs, hl, h.queues, h.refls, h.cmds, h.mwork, h.scales⟩

/-- What a word of group gid whose results land later may change: neither stores, nor another group, nor a register of its
own group. -/
structure State.OnlyIssues (s : State) (gid : Nat) (t : State) : Prop where
  stores : s.SameStores t
  others : ∀ k ≠ gid, lookup k t.groups = lookup k s.groups
  own : ∀ g, lookup gid s.groups = some g → ∃ h, lookup gid t.groups = some h ∧ g.SameRegisters h

theorem State.OnlyIssues.trans {s t u : State} {gid : Nat} (a : s.OnlyIssues gid t) (b : t.OnlyIssues gid u) :
    s.OnlyIssues gid u where
  stores := a.stores.trans b.stores
  others k hk := (b.others k hk).trans (a.others k hk)
  own g hg := by
    obtain ⟨h, hh, hgh⟩ := a.own g hg
    obtain ⟨k, hk, hhk⟩ := b.own h hh
    exact ⟨k, hk, hgh.trans hhk⟩

/-- A change of the state that leaves stores and groups alone. -/
theorem onlyIssues_of_same {s t : State} {gid : Nat} (hgroups : t.groups = s.groups) (hspad : t.spad = s.spad)
    (hctxs : t.ctxs = s.ctxs) (hloans : t.loans = s.loans) (hqueues : t.queues = s.queues) (hrefls : t.refls = s.refls)
    (hcmds : t.cmds = s.cmds) (hmwork : t.mwork = s.mwork) (hscales : t.scales = s.scales) : s.OnlyIssues gid t :=
  ⟨⟨hspad, hctxs, hloans, hqueues, hrefls, hcmds, hmwork, hscales⟩, fun _ _ => by rw [hgroups],
    fun g hg => ⟨g, by rw [hgroups, hg], .refl g⟩⟩

theorem State.OnlyIssues.refl (s : State) (gid : Nat) : s.OnlyIssues gid s :=
  onlyIssues_of_same rfl rfl rfl rfl rfl rfl rfl rfl rfl

/-- A change of the issuing group that leaves its registers alone. -/
theorem modSelf_onlyIssues (s : State) (v : View) {f : Group → Group} (hf : ∀ g : Group, g.SameRegisters (f g)) :
    s.OnlyIssues v.o.gid (s.modSelf v f) where
  stores := ⟨rfl, rfl, rfl, rfl, rfl, rfl, rfl, rfl⟩
  others k hk := lookup_modifyAt_ne f hk s.groups
  own g hg := ⟨f g, by rw [State.modSelf, State.modGroup_groups, lookup_modifyAt_self, hg]; rfl, hf g⟩

theorem modTeam_onlyIssues (s : State) (gid team : Nat) (f : Team → Team) : s.OnlyIssues gid (s.modTeam team f) :=
  onlyIssues_of_same rfl rfl rfl rfl rfl rfl rfl rfl rfl

theorem modCluster_onlyIssues (s : State) (gid cluster : Nat) (f : Cluster → Cluster) :
    s.OnlyIssues gid (s.modCluster cluster f) :=
  onlyIssues_of_same rfl rfl rfl rfl rfl rfl rfl rfl rfl

theorem modKernel_onlyIssues (s : State) (gid kernel : Nat) (f : Kernel → Kernel) :
    s.OnlyIssues gid (s.modKernel kernel f) :=
  onlyIssues_of_same rfl rfl rfl rfl rfl rfl rfl rfl rfl

theorem setEngine_onlyIssues (s : State) (gid e : Nat) (x : Engine) : s.OnlyIssues gid (s.setEngine e x) :=
  onlyIssues_of_same rfl rfl rfl rfl rfl rfl rfl rfl rfl

theorem nextId_onlyIssues (s : State) (gid n : Nat) : s.OnlyIssues gid { s with nextId := n } :=
  onlyIssues_of_same rfl rfl rfl rfl rfl rfl rfl rfl rfl

theorem occupy_onlyIssues (s : State) (gid core pipe n : Nat) : s.OnlyIssues gid (s.occupy core pipe n) :=
  onlyIssues_of_same rfl rfl rfl rfl rfl rfl rfl rfl rfl

/-- A stop that begins no eclipse of a loan: it waits for no granules. -/
def Stop.leavesLoans : Stop → Prop
  | .stall (.granules _ _) => False
  | _ => True

/-- What the body of a word answers whose results land later: a state in which only its issue shows, or a stop that begins
no eclipse. -/
def State.IssuesOnly (s : State) (gid : Nat) : Except Stop State → Prop
  | .ok t => s.OnlyIssues gid t
  | .error x => x.leavesLoans

theorem State.IssuesOnly.after {s t : State} {gid : Nat} {r : Except Stop State} (h : s.OnlyIssues gid t)
    (hr : t.IssuesOnly gid r) : s.IssuesOnly gid r := by
  cases r with
  | ok u => exact h.trans hr
  | error x => exact hr

theorem pop_cases (s : State) (v : View) (c : Byte) (n : Nat) :
    (∃ ws t, s.pop v c n = .ok (ws, t) ∧ s.OnlyIssues v.o.gid t) ∨ ∃ x, s.pop v c n = .error x ∧ x.leavesLoans := by
  unfold State.pop
  split
  · dsimp only
    split
    · exact .inr ⟨_, rfl, trivial⟩
    · exact .inl ⟨_, _, rfl, setEngine_onlyIssues ..⟩
  · split
    · exact .inr ⟨_, rfl, trivial⟩
    · split
      · exact .inr ⟨_, rfl, trivial⟩
      · split
        · exact .inr ⟨_, rfl, trivial⟩
        · exact .inl ⟨_, _, rfl, (modCluster_onlyIssues ..).trans (modTeam_onlyIssues ..)⟩
  · exact .inr ⟨_, rfl, trivial⟩

theorem operand_cases (s : State) (v : View) (e r : Nat) :
    (∃ a t, s.operand v e r = .ok (a, t) ∧ s.OnlyIssues v.o.gid t) ∨
      ∃ x, s.operand v e r = .error x ∧ x.leavesLoans := by
  unfold State.operand
  split
  · split
    · exact .inl ⟨_, _, rfl, .refl ..⟩
    · rcases pop_cases s v (v.g.binding r) v.lanes.length with ⟨ws, t, hpop, ht⟩ | ⟨x, hpop, hx⟩
      · exact .inl ⟨_, t, by rw [hpop], ht⟩
      · exact .inr ⟨x, by rw [hpop], hx⟩
  · exact .inl ⟨_, _, rfl, .refl ..⟩

theorem Stop.leavesLoans_more {x : Stop} (h : x.leavesLoans) : x.more.leavesLoans := by
  unfold Stop.more
  split
  · trivial
  · exact h

theorem operands_cases (s : State) (v : View) (ea ra eb rb : Nat) :
    (∃ a b t, s.operands v ea ra eb rb = .ok (a, b, t) ∧ s.OnlyIssues v.o.gid t) ∨
      ∃ x, s.operands v ea ra eb rb = .error x ∧ x.leavesLoans := by
  unfold State.operands
  rcases operand_cases s v ea ra with ⟨a, t, ha, ht⟩ | ⟨x, ha, hx⟩
  · simp only [ha]
    rcases operand_cases t v eb rb with ⟨b, u, hb, hu⟩ | ⟨x, hb, hx⟩
    · exact .inl ⟨a, b, u, by rw [hb], ht.trans hu⟩
    · simp only [hb]
      refine .inr ⟨_, rfl, ?_⟩
      split
      · exact Stop.leavesLoans_more hx
      · exact hx
  · exact .inr ⟨x, by simp only [ha], hx⟩

theorem pushCheck_issuesOnly (s : State) (v : View) (c : Byte) (n : Nat) : s.IssuesOnly v.o.gid (s.pushCheck v c n) := by
  unfold State.pushCheck
  dsimp only
  split
  · split
    · trivial
    · split
      · trivial
      · exact .refl ..
  · split
    · trivial
    · split
      · trivial
      · exact .refl ..
  · split
    · trivial
    · split
      · trivial
      · exact modKernel_onlyIssues ..
  · trivial

theorem push_issuesOnly (s : State) (v : View) (c : Byte) (due : Option Nat) (srcs : List Nat) (ws : List PWord) :
    s.IssuesOnly v.o.gid (s.push v c due srcs ws) := by
  unfold State.push
  have hcheck := pushCheck_issuesOnly s v c ws.length
  split
  · next hx => exact hx ▸ hcheck
  · next t ht =>
    rw [ht] at hcheck
    have hheld := hcheck.trans (modSelf_onlyIssues t v fun g => g.sameRegisters_pushes (g.pushes ++
      [{ code := c, words := ws, due := due, srcs := srcs, lanes := v.lanes, origin := v.o, seq := t.nextId }]))
    refine .trans ?_ (occupy_onlyIssues ..)
    split
    · exact (hheld.trans (nextId_onlyIssues ..)).trans (modTeam_onlyIssues ..)
    · exact hheld

theorem put_issuesOnly (s : State) (v : View) (r n : Nat) (f : Lanes) : s.IssuesOnly v.o.gid (s.put v r n f) := by
  unfold State.put
  split
  · split
    · exact .refl ..
    · exact push_issuesOnly ..
  · exact modSelf_onlyIssues s v fun g => g.sameRegisters_issue _

theorem put2_issuesOnly (s : State) (v : View) (r n : Nat) (f : Nat → PWord × PWord) :
    s.IssuesOnly v.o.gid (s.put2 v r n f) := by
  unfold State.put2
  have hlow := put_issuesOnly s v r n fun L => (f L).1
  split
  · next hx => exact hx ▸ hlow
  · next t ht =>
    rw [ht] at hlow
    exact .after hlow (put_issuesOnly ..)

theorem putPred_onlyIssues (s : State) (v : View) (p n : Nat) (f : Nat → Bool × Bool) :
    s.OnlyIssues v.o.gid (s.putPred v p n f) := by
  unfold State.putPred
  split
  · exact .refl ..
  · exact modSelf_onlyIssues s v fun g => g.sameRegisters_issue _

/-! Words whose body only issues. -/

/-- The outcome is that of a guarded word whose body only issues. -/
def IsRegisterWord (s : State) (r : Out) : Prop :=
  ∃ body, r = runWord s body ∧ ∀ v, s.IssuesOnly v.o.gid (body v)

theorem isRegisterWord_runWord {s : State} {body : View → Except Stop State} (h : ∀ v, s.IssuesOnly v.o.gid (body v)) :
    IsRegisterWord s (runWord s body) := ⟨body, rfl, h⟩

/-- A word that stops where its operand A stops, and only issues on what its pops have left. -/
theorem isRegisterWord_of_operand {s : State} {body : View → Except Stop State} (e r : Nat)
    (stops : ∀ v x, s.operand v e r = .error x → body v = .error x)
    (issues : ∀ v a t, s.operand v e r = .ok (a, t) → t.IssuesOnly v.o.gid (body v)) :
    IsRegisterWord s (runWord s body) := by
  refine isRegisterWord_runWord fun v => ?_
  rcases operand_cases s v e r with ⟨a, t, h, ht⟩ | ⟨x, h, hx⟩
  · exact .after ht (issues v a t h)
  · exact stops v x h ▸ hx

/-- The same for a word with operands A and B. -/
theorem isRegisterWord_of_operands {s : State} {body : View → Except Stop State} (ea ra eb rb : Nat)
    (stops : ∀ v x, s.operands v ea ra eb rb = .error x → body v = .error x)
    (issues : ∀ v a b t, s.operands v ea ra eb rb = .ok (a, b, t) → t.IssuesOnly v.o.gid (body v)) :
    IsRegisterWord s (runWord s body) := by
  refine isRegisterWord_runWord fun v => ?_
  rcases operands_cases s v ea ra eb rb with ⟨a, b, t, h, ht⟩ | ⟨x, h, hx⟩
  · exact .after ht (issues v a b t h)
  · exact stops v x h ▸ hx

theorem aluWord_isRegisterWord (s : State) (ea ra eb rb d lat : Nat) (f : View → Nat → PWord → PWord → PWord) :
    IsRegisterWord s (aluWord s ea ra eb rb d lat f) :=
  isRegisterWord_of_operands ea ra eb rb (fun v x h => by simp only [h]) fun v a b t h => by
    simp only [h]
    exact put_issuesOnly ..

theorem unaryWord_isRegisterWord (s : State) (ea ra d lat : Nat) (f : Nat → PWord → PWord) :
    IsRegisterWord s (unaryWord s ea ra d lat f) :=
  isRegisterWord_of_operand ea ra (fun v x h => by simp only [h]) fun v a t h => by
    simp only [h]
    exact put_issuesOnly ..

theorem sourceWord_isRegisterWord (s : State) (d lat : Nat) (f : View → Nat → PWord) :
    IsRegisterWord s (sourceWord s d lat f) := isRegisterWord_runWord fun _ => put_issuesOnly ..

theorem pairWord_isRegisterWord (s : State) (ea ra eb rb d lat : Nat) (f : View → Nat → PWord → PWord → PWord × PWord) :
    IsRegisterWord s (pairWord s ea ra eb rb d lat f) :=
  isRegisterWord_of_operands ea ra eb rb (fun v x h => by simp only [h]) fun v a b t h => by
    simp only [h]
    exact put2_issuesOnly ..

theorem groupPairWord_isRegisterWord (s : State) (d lat : Nat) (f : View → Nat → PWord × PWord) :
    IsRegisterWord s (groupPairWord s d lat f) := isRegisterWord_runWord fun _ => put2_issuesOnly ..

theorem shift64_isRegisterWord (o : OpV) (f : Nat → Nat → Int) (s : State) : IsRegisterWord s (shift64 o f s) :=
  isRegisterWord_of_operand 0 o.br.val (fun v x h => by simp only [h]) fun v a t h => by
    simp only [h]
    exact put2_issuesOnly ..

theorem execFunpack_isRegisterWord (o : OpCvt) (s : State) : IsRegisterWord s (execFunpack o s) :=
  isRegisterWord_of_operand o.ap.val o.ar.val (fun v x h => by simp only [h]) fun v a t h => by
    simp only [h]
    exact put2_issuesOnly ..

theorem compareWord_isRegisterWord (o : OpC) (f : Word → Word → Bool) (s : State) : IsRegisterWord s (compareWord o f s) :=
  isRegisterWord_of_operands 0 o.ar.val o.bp.val o.br.val (fun v x h => by simp only [h]) fun v a b t h => by
    simp only [h]
    exact putPred_onlyIssues ..

theorem predWord_isRegisterWord (pd pa pb : Nat) (f : Bool → Bool → Bool) (s : State) :
    IsRegisterWord s (predWord pd pa pb f s) := isRegisterWord_runWord fun _ => putPred_onlyIssues ..

theorem execVote_isRegisterWord (x : VoteOp) (pd pa : Pred) (s : State) : IsRegisterWord s (execVote x pd pa s) :=
  isRegisterWord_runWord fun _ => putPred_onlyIssues ..

theorem reduceWord_isRegisterWord (o : OpM) (f : List Word → Word) (s : State) : IsRegisterWord s (reduceWord o f s) :=
  isRegisterWord_of_operand o.ap.val o.ar.val (fun v x h => by simp only [h]) fun v a t h => by
    simp only [h]
    exact put_issuesOnly ..

theorem execScan_isRegisterWord (excl : Bool) (x : ScanOp) (o : OpM) (s : State) : IsRegisterWord s (execScan excl x o s) :=
  isRegisterWord_of_operand o.ap.val o.ar.val (fun v x h => by simp only [h]) fun v a t h => by
    simp only [h]
    exact put_issuesOnly ..

theorem execMatchLanes_isRegisterWord (o : OpM) (s : State) : IsRegisterWord s (execMatchLanes o s) :=
  isRegisterWord_of_operand o.ap.val o.ar.val (fun v x h => by simp only [h]) fun v a t h => by
    simp only [h]
    exact put_issuesOnly ..

theorem execShfl_isRegisterWord (m : ShflMode) (o : OpV) (s : State) : IsRegisterWord s (execShfl m o s) :=
  isRegisterWord_of_operands o.ap.val o.ar.val 0 o.br.val (fun v x h => by simp only [h]) fun v a b t h => by
    simp only [h]
    exact put_issuesOnly ..

/-! The layouts of operands (Table 3-5), of which each word is one. -/

theorem wordR_isRegisterWord (o : OpR) (lat : Nat) (f : Word → Word → Word) (s : State) :
    IsRegisterWord s (wordR o lat f s) := aluWord_isRegisterWord ..

theorem wordV_isRegisterWord (o : OpV) (lat : Nat) (f : Word → Word → Word) (s : State) :
    IsRegisterWord s (wordV o lat f s) := aluWord_isRegisterWord ..

theorem wordRD_isRegisterWord (o : OpR) (lat : Nat) (f : Word → Word → Word → Word) (s : State) :
    IsRegisterWord s (wordRD o lat f s) := aluWord_isRegisterWord ..

theorem wordVD_isRegisterWord (o : OpV) (lat : Nat) (f : Word → Word → Word → Word) (s : State) :
    IsRegisterWord s (wordVD o lat f s) := aluWord_isRegisterWord ..

theorem wordM_isRegisterWord (o : OpM) (lat : Nat) (f : Word → Word) (s : State) : IsRegisterWord s (wordM o lat f s) :=
  unaryWord_isRegisterWord ..

theorem wordCvt_isRegisterWord (o : OpCvt) (f : Word → Word) (s : State) : IsRegisterWord s (wordCvt o f s) :=
  unaryWord_isRegisterWord ..

theorem shiftImm_isRegisterWord (o : OpSh) (f : Word → Nat → Word) (s : State) : IsRegisterWord s (shiftImm o f s) :=
  unaryWord_isRegisterWord ..

theorem arith64_isRegisterWord (o : OpV) (f : Int → Int → Int) (s : State) : IsRegisterWord s (arith64 o f s) :=
  groupPairWord_isRegisterWord ..

/-! Which words these are. -/

theorem intRule_isRegisterWord {i : Instr} (h : intRule i ≠ none) (s : State) : IsRegisterWord s (exec i s) := by
  cases i
  case iadd | isub | orn => exact wordR_isRegisterWord ..
  case imul | imulh | lea | imin | imax | and | or | xor | andn | shl | shr | sar | rotl | bfx =>
    exact wordV_isRegisterWord ..
  case prmt => exact wordRD_isRegisterWord ..
  case imad | bfi => exact wordVD_isRegisterWord ..
  case popc | clz | ctz | brev | iabs | ineg | mov => exact wordM_isRegisterWord ..
  case shlImm | shrImm | sarImm | rotlImm => exact shiftImm_isRegisterWord ..
  case iaddImm o => exact show IsRegisterWord s (execIaddImm o s) from unaryWord_isRegisterWord ..
  case movi d imm => exact show IsRegisterWord s (execMovi d imm s) from sourceWord_isRegisterWord ..
  case movl d lit => exact show IsRegisterWord s (execMovl d lit s) from sourceWord_isRegisterWord ..
  case pget d => exact show IsRegisterWord s (execPget d s) from sourceWord_isRegisterWord ..
  all_goals exact absurd rfl h

theorem floatRule_isRegisterWord {i : Instr} (h : floatRule i ≠ none) (s : State) : IsRegisterWord s (exec i s) := by
  cases i
  case fadd | fsub | fmul | badd2 | bmul2 => exact wordR_isRegisterWord ..
  case fmin | fmax | bmin2 | bmax2 | fpack => exact wordV_isRegisterWord ..
  case ffma | ffms | bfma2 => exact wordRD_isRegisterWord ..
  case fabs | fneg | fclass | frnd | frcp | frsq | fsqrt | fexp2 | flog2 | fsin | fcos | ftanh =>
    exact wordM_isRegisterWord ..
  case f2i | i2f | fcvtBf16F32 | fcvtF32Bf16 | fcvtF16F32 | fcvtE4m3F32 | fcvtE5m2F32 => exact wordCvt_isRegisterWord ..
  all_goals exact absurd rfl h

theorem pairRule_isRegisterWord {i : Instr} (h : pairRule i ≠ none) (s : State) : IsRegisterWord s (exec i s) := by
  cases i
  case iaddc o => exact show IsRegisterWord s (execIaddc o s) from pairWord_isRegisterWord ..
  case imadw z o => exact show IsRegisterWord s (execImadw z o s) from pairWord_isRegisterWord ..
  case iadd64 | isub64 => exact arith64_isRegisterWord ..
  case shl64 o => exact show IsRegisterWord s (execShl64 o s) from shift64_isRegisterWord ..
  case shr64 z o => exact show IsRegisterWord s (execShr64 z o s) from shift64_isRegisterWord ..
  case funpack => exact execFunpack_isRegisterWord ..
  all_goals exact absurd rfl h

theorem predRule_isRegisterWord {i : Instr} (h : predRule i ≠ none) (s : State) : IsRegisterWord s (exec i s) := by
  cases i
  case isetp z c o => exact show IsRegisterWord s (execIsetp z c o s) from compareWord_isRegisterWord ..
  case fsetp c o => exact show IsRegisterWord s (execFsetp c o s) from compareWord_isRegisterWord ..
  case pand o => exact show IsRegisterWord s (execPand o s) from predWord_isRegisterWord ..
  case por o => exact show IsRegisterWord s (execPor o s) from predWord_isRegisterWord ..
  case pxor o => exact show IsRegisterWord s (execPxor o s) from predWord_isRegisterWord ..
  case pnot pd pa => exact show IsRegisterWord s (execPnot pd pa s) from predWord_isRegisterWord ..
  case vote => exact execVote_isRegisterWord ..
  all_goals exact absurd rfl h

theorem crossRule_isRegisterWord {i : Instr} (h : crossRule i ≠ none) (s : State) : IsRegisterWord s (exec i s) := by
  cases i
  case voteBallot d pa => exact show IsRegisterWord s (execVoteBallot d pa s) from sourceWord_isRegisterWord ..
  case redux | fredux => exact reduceWord_isRegisterWord ..
  case scan => exact execScan_isRegisterWord ..
  case matchLanes => exact execMatchLanes_isRegisterWord ..
  case shfl => exact execShfl_isRegisterWord ..
  all_goals exact absurd rfl h

/-! What stops leave alone. -/

theorem logInterrupt_loans (s : State) (die ctx : Nat) : (s.logInterrupt die ctx).loans = s.loans := by
  unfold State.logInterrupt
  dsimp only
  split <;> rfl

theorem logError_loans (s : State) (e : ErrEntry) : (s.logError e).loans = s.loans := by
  unfold State.logError
  dsimp only
  split
  · split
    · rfl
    · split
      · rfl
      · exact logInterrupt_loans ..
  · exact logInterrupt_loans ..

theorem takeTrap_loans (s : State) (gid : Nat) (r : List PWord) : (s.takeTrap gid r).loans = s.loans := by
  have ended : ∀ (g : Group) gids, ((s.logUnhandled g r).endGroups gids).loans = s.loans := fun g gids => logError_loans ..
  unfold State.takeTrap
  split
  · rfl
  · split
    · rfl
    · split
      · rfl
      · split
        · exact ended ..
        · split
          · exact ended ..
          · split
            · rfl
            · exact ended ..

/-- A trap at issue is signalled, and begins no eclipse. -/
theorem trapAtIssue_stops (s : State) (o : Issue) {g : Group} (hg : lookup o.gid s.groups = some g) (t : Trap) :
    (s.trapAtIssue o t).loans = s.loans ∧ (s.trapAtIssue o t).signal = .trapped t := by
  simp only [State.trapAtIssue, hg, and_true]
  exact takeTrap_loans ..

/-- A wait that is for no granules is signalled, and begins no eclipse. -/
theorem stallAt_stops (s : State) (o : Issue) {w : Wait} (hw : (Stop.stall w).leavesLoans) :
    (s.stallAt o w).loans = s.loans ∧ (s.stallAt o w).signal = .stalled w := by
  unfold State.stallAt
  cases w
  case granules => exact hw.elim
  all_goals exact ⟨rfl, rfl⟩

/-- A word that stops without an eclipse has not taken effect, and leaves the stores alone. -/
theorem wordDone_stop (s : State) (o : Issue) {g : Group} (hg : lookup o.gid s.groups = some g) {x : Stop}
    (hx : x.leavesLoans) : s.SameStores (s.wordDone o (.error x)) ∧ (s.wordDone o (.error x)).signal ≠ .issued := by
  cases x with
  | trap t =>
    obtain ⟨hloans, hsignal⟩ := trapAtIssue_stops s o hg t
    exact ⟨(trapAtIssue_sameWork s o t).stores hloans, fun e => nomatch hsignal.symm.trans e⟩
  | stall w =>
    obtain ⟨hloans, hsignal⟩ := stallAt_stops s o hx
    exact ⟨(stallAt_sameWork s o w).stores hloans, fun e => nomatch hsignal.symm.trans e⟩

theorem guard_leavesLoans (v : View) {x : Stop} (h : v.guard = .error x) : x.leavesLoans := by
  unfold View.guard at h
  split at h
  · cases h
  · cases h
    trivial

/-- The frame of a guarded word whose body only issues. -/
theorem IsRegisterWord.frame {s t : State} {r : Out} (hr : IsRegisterWord s r) {o : Issue} {g : Group}
    (ho : s.cur = some o) (hg : lookup o.gid s.groups = some g) (ht : r = .next t) :
    s.SameStores t ∧ (t.signal = .issued → s.OnlyIssues o.gid t) := by
  obtain ⟨body, rfl, hbody⟩ := hr
  simp only [runWord, runBare, ho, hg, Host.Outcome.next.injEq] at ht
  have hstop : ∀ x : Stop, x.leavesLoans → t = s.wordDone o (.error x) →
      s.SameStores t ∧ (t.signal = .issued → s.OnlyIssues o.gid t) := by
    rintro x hx rfl
    obtain ⟨hstores, hsignal⟩ := wordDone_stop s o hg hx
    exact ⟨hstores, fun e => absurd e hsignal⟩
  cases hguard : (View.mk o g).guard with
  | error x => exact hstop x (guard_leavesLoans _ hguard) (by simpa only [hguard] using ht.symm)
  | ok _ =>
    simp only [hguard] at ht
    have hb := hbody ⟨o, g⟩
    cases hres : body ⟨o, g⟩ with
    | error x =>
      rw [hres] at hb ht
      exact hstop x hb ht.symm
    | ok u =>
      rw [hres, wordDone_ok] at ht
      rw [hres] at hb
      have hissued : s.OnlyIssues o.gid t := ht ▸ hb.trans (onlyIssues_of_same rfl rfl rfl rfl rfl rfl rfl rfl rfl)
      exact ⟨hissued.stores, fun _ => hissued⟩

/-- Settles O9: each of these words is a guarded word whose body only pops, pushes and issues results. -/
theorem registerWordsFrame : Obligations.RegisterWordsFrame := by
  unfold Obligations.RegisterWordsFrame
  intro i hi s t o g ho hg ht
  have hword : IsRegisterWord s (exec i s) := by
    rcases hi with h | h | h | h | h
    · exact intRule_isRegisterWord h s
    · exact floatRule_isRegisterWord h s
    · exact pairRule_isRegisterWord h s
    · exact predRule_isRegisterWord h s
    · exact crossRule_isRegisterWord h s
  obtain ⟨⟨hspad, hctxs, hloans, hqueues, hrefls, hcmds, hmwork, hscales⟩, hissued⟩ := hword.frame ho hg ht
  refine ⟨hspad, hctxs, hloans, hqueues, hrefls, hcmds, hmwork, hscales, fun hsignal => ?_⟩
  obtain ⟨-, hothers, hown⟩ := hissued hsignal
  obtain ⟨h, hlookup, hframe, hthreads, hptab, hqbind, hslots, htiles, hst, hcode⟩ := hown g hg
  exact ⟨hothers, h, hlookup, hframe, hthreads, hptab, hqbind, hslots, htiles, hst, hcode⟩

end Sys2Proof.Machine
end

section
/-! PROOFS. The frame of scratchpad stores (spec 08_scratchpad.md R182, R187). The statement lets its byte b of core c be any
number. The model keeps word w of core c under the key c * 65536 + w, so that byte 262144 of core c, one past the 256 KiB that R182
gives a core, is byte 0 of core c + 1. A store at core 1 that keeps to its own bytes therefore changes a byte which the
statement counts as one of core 0. -/

namespace Sys2Proof.Machine

/-- A byte past the end of a core's scratchpad is a byte of the next core's. -/
theorem State.spadByte_past_end (s : State) (c b : Nat) : s.spadByte c (262144 + b) = s.spadByte (c + 1) b := by
  have hkey : c * 65536 + (262144 + b) / 4 = (c + 1) * 65536 + b / 4 := by omega
  have hword : s.spadWord c ((262144 + b) / 4) = s.spadWord (c + 1) (b / 4) := by
    rw [State.spadWord, State.spadWord, hkey]
  have hlane : (262144 + b) % 4 = b % 4 := by omega
  rw [State.spadByte, State.spadByte, hword, hlane]

/-- A word issued for lane 0 of group 4. -/
def storeIssue : Issue :=
  { gid := 4, act := 1, k := 0, pos := 0, unit := 0, guard := 0, chain := false, sw := false, insn := 0, lit := 0, fb := false }

/-- A group on core 1 whose lane 0 holds the data 1 in v8 and the scratchpad address 0 in v3. -/
def storeGroup : Group := { placedGroup 0 with core := 1, frame := [(frameIdx 8 0, PWord.ok 1)] }

/-- That group issues the word; its team has the first two granules of core 1. -/
def storeState : State :=
  { cur := some storeIssue, groups := [(4, storeGroup)]
    teams := [(2, { core := 1, rank := 0, clx := 0, cly := 0, cluster := 3, kernel := 1, ctx := 1, shade := false, ngroups := 1
                    base := 0, granules := 2, ckpt := none, left := 1 })] }

/-- STS.f32 v8, [v3]. -/
def storeOp : OpMem := ⟨8, .rne, false, 3, .f32, 0, false⟩

/-- The store writes byte 0 of core 1, where 0 stood. -/
theorem exec_storeState : ∃ t, exec (.sts storeOp) storeState = .next t ∧ t.spadByte 1 0 ≠ storeState.spadByte 1 0 := by
  refine ⟨_, rfl, ?_⟩
  decide +kernel

/-- Refutes O10: byte 262144 of core 0, as the statement counts bytes, is byte 0 of core 1, and a store of core 1 at address 0
writes it; the issuing core is not core 0. -/
theorem not_storesWriteOnlyTheirBytes : ¬ Obligations.StoresWriteOnlyTheirBytes := by
  unfold Obligations.StoresWriteOnlyTheirBytes
  intro h
  obtain ⟨t, hexec, hchanged⟩ := exec_storeState
  obtain ⟨hstore, -⟩ := h storeState t storeIssue storeGroup rfl rfl
  obtain ⟨hbytes, -⟩ := hstore storeOp (.inl hexec)
  refine hchanged ?_
  calc t.spadByte 1 0 = t.spadByte 0 262144 := (t.spadByte_past_end 0 0).symm
    _ = storeState.spadByte 0 262144 := hbytes 0 262144 fun ⟨hcore, _⟩ => absurd hcore (by decide)
    _ = storeState.spadByte 1 0 := State.spadByte_past_end _ 0 0

end Sys2Proof.Machine
end

section
/-! PROOFS. The register block of a work queue (spec 14_queue.md R327 to R331): what each write of a register does to the
queue, and when a queue passes to Suspended at once. -/

namespace Sys2Proof.Machine

/-- A second value put at a key replaces the first. -/
theorem insertAt_insertAt {α : Type} (k : Nat) (v w : α) (m : List (Nat × α)) :
    insertAt k w (insertAt k v m) = insertAt k w m := by
  induction m with
  | nil => simp [insertAt]
  | cons p m ih =>
    rcases lt_trichotomy k p.1 with hlt | heq | hgt
    · simp [insertAt, hlt]
    · simp [insertAt, heq]
    · simp [insertAt, Nat.not_lt.mpr hgt.le, hgt.ne, ih]

@[simp] theorem State.queue_setQueue (s : State) (q : Nat) (x : Queue) : (s.setQueue q x).queue q = x :=
  readAt_writeAt_self ({} : Queue) q x s.queues

@[simp] theorem State.atBoundary_setQueue (s : State) (q : Nat) (x : Queue) :
    (s.setQueue q x).atBoundary = s.atBoundary := rfl

/-- Two writes of a queue's state leave the second, where neither is the state of a queue never written. -/
theorem State.setQueue_setQueue (s : State) (q : Nat) {x y : Queue} (hx : x ≠ {}) (hy : y ≠ {}) :
    (s.setQueue q x).setQueue q y = s.setQueue q y := by
  simp [State.setQueue, writeAt, hx, hy, insertAt_insertAt]

/-- The queue has what it takes to pass from Active to Suspended (R331, R494). -/
def State.suspendsNow (s : State) (q : Nat) (x : Queue) : Prop :=
  x.st = .active ∧ x.fault = none ∧ x.susp = true ∧ ∀ p ∈ x.entries, s.atBoundary q p.1 p.2 = true

/-- The queue is Suspended, and its graphs keep their program indexes (R358). -/
def State.suspended (s : State) (q : Nat) (x : Queue) : State :=
  { s.setQueue q { x with st := .suspended } with
    graphs := s.graphs.map fun p => if p.2.q = q then (p.1, p.2.index) else p }

/-- The state written to a queue stays as it is, where it may not pass to Suspended. -/
theorem State.settleQueue_setQueue_of_not {s : State} {q : Nat} {x : Queue} (h : ¬ s.suspendsNow q x) :
    (s.setQueue q x).settleQueue q = s.setQueue q x := by
  have hcond : (x.st == .active && x.fault.isNone && x.susp && x.entries.all fun p => s.atBoundary q p.1 p.2) = false := by
    rw [Bool.eq_false_iff]
    simpa [State.suspendsNow, and_assoc] using h
  simp [State.settleQueue, hcond]

/-- The state written to a queue becomes Suspended, where it may. -/
theorem State.settleQueue_setQueue_of {s : State} {q : Nat} {x : Queue} (h : s.suspendsNow q x) :
    (s.setQueue q x).settleQueue q = s.suspended q x := by
  obtain ⟨hst, hfault, hsusp, hat⟩ := h
  have hcond : (x.st == .active && x.fault.isNone && x.susp && x.entries.all fun p => s.atBoundary q p.1 p.2) = true := by
    simpa [hst, hfault, hsusp] using fun a b hab => hat (a, b) hab
  have hx : x ≠ {} := by rintro rfl; cases hst
  have hy : ({ x with st := .suspended } : Queue) ≠ {} := fun e => by cases congrArg Queue.st e
  simp only [State.settleQueue, State.queue_setQueue, State.atBoundary_setQueue, hcond, if_true, State.suspended,
    State.setQueue_setQueue s q hx hy, beq_iff_eq]
  rfl

/-- Only an Active queue passes to Suspended so. -/
theorem State.settleQueue_setQueue_of_st (s : State) (q : Nat) {x : Queue} (h : x.st ≠ .active) :
    (s.setQueue q x).settleQueue q = s.setQueue q x :=
  State.settleQueue_setQueue_of_not fun k => h k.1

/-- Only a queue whose SUSP is 1 passes to Suspended so. -/
theorem State.settleQueue_setQueue_of_susp (s : State) (q : Nat) {x : Queue} (h : x.susp = false) :
    (s.setQueue q x).settleQueue q = s.setQueue q x :=
  State.settleQueue_setQueue_of_not fun ⟨_, _, hs, _⟩ => by simp [hs] at h

/-- The queue in Error with a code and an index: started entries stay, the others are dropped (R331). -/
def Queue.failed (x : Queue) (code idx : Nat) : Queue :=
  { x with st := .error, err := code, erridx := idx, fault := none, entries := x.entries.filter fun p => p.2.started }

theorem Queue.fail_eq_failed {x : Queue} (h : x.st ≠ .error) (code idx : Nat) :
    x.fail code idx = x.failed code (idx % 2 ^ 32) := by
  simp [Queue.fail, Queue.failed, h]

/-- A queue that is on, with more outstanding than its ring holds, is OVERRUN (R329). -/
theorem Queue.checkRun_of_overrun {x : Queue} (hst : x.st = .idle ∨ x.st = .active ∨ x.st = .suspended)
    (h : 2 ^ x.log2n < x.outstanding) : x.checkRun = x.failed 2 (x.done % 2 ^ 32) := by
  have hne : x.st ≠ .error := by rintro e; simp [e] at hst
  have hon : (x.st == .idle || x.st == .active || x.st == .suspended) = true := by simpa [or_assoc] using hst
  rw [Queue.checkRun, hon, Bool.true_and, if_pos (by simpa using h), Queue.fail_eq_failed hne]

theorem Queue.checkRun_of_fits {x : Queue} (h : x.outstanding ≤ 2 ^ x.log2n) : x.checkRun = x := by
  simp [Queue.checkRun, Nat.not_lt.mpr h]

theorem Queue.checkRun_of_off {x : Queue} (h : x.st = .disabled ∨ x.st = .error) : x.checkRun = x := by
  rcases h with h | h <;> simp [Queue.checkRun, h]

/-- A ring that EN = 1 refuses: its size, a work queue without a context, a management queue's ring in device memory. -/
def Queue.illegal (x : Queue) (q : Nat) : Prop :=
  x.log2n < 4 ∨ 16 < x.log2n ∨ (q < 8192 ∧ x.ctx = 0) ∨ (8192 ≤ q ∧ x.space = true)

theorem Queue.illegal_iff (x : Queue) (q : Nat) :
    (x.log2n < 4 || 16 < x.log2n || (if isMgmt q then x.space else x.ctx == 0)) = true ↔ x.illegal q := by
  by_cases hq : 8192 ≤ q
  · simp [Queue.illegal, isMgmt, hq, Nat.not_lt.mpr hq, or_assoc]
  · simp [Queue.illegal, isMgmt, hq, Nat.lt_of_not_le hq, or_assoc]

/-- A queue whose doorbell has been rung, before the check of the ring. -/
def Queue.rung (x : Queue) (wr : Word) : Queue :=
  { x with wr := wr.toNat, st := if x.st = .idle then .active else x.st }

/-- The state of a queue that is on: Idle where nothing is pending, else Active. -/
theorem ite_pending_ne_zero (n : Nat) :
    (if n != 0 then QueueSt.active else .idle) = if n = 0 then .idle else .active := by
  by_cases hn : n = 0 <;> simp [hn]

section
variable {s : State} {q : Nat} {x : Queue} (hx : s.queue q = x)
include hx

theorem State.enableQueue_of_on (h : x.st ≠ .disabled) : s.enableQueue q = s := by
  simp [State.enableQueue, hx, h]

theorem State.enableQueue_of_illegal (h : x.st = .disabled) (hi : x.illegal q) :
    s.enableQueue q = s.setQueue q (x.failed 3 0) := by
  have hne : x.st ≠ .error := by simp [h]
  simp only [State.enableQueue, hx, h, (Queue.illegal_iff x q).mpr hi, Queue.fail_eq_failed hne]
  simp

/-- EN = 1 with a legal ring: the queue is Active where entries are pending and Idle else, the ring is checked, and the queue
may suspend at once. -/
theorem State.enableQueue_of_legal (h : x.st = .disabled) (hi : ¬ x.illegal q) {st : QueueSt}
    (hst : (if x.pending = 0 then QueueSt.idle else .active) = st) :
    s.enableQueue q = (s.setQueue q ({ x with st := st } : Queue).checkRun).settleQueue q := by
  rw [← Queue.illegal_iff, Bool.not_eq_true] at hi
  simp only [State.enableQueue, hx, h, hi, ite_pending_ne_zero, hst]
  simp

theorem State.enableQueue_of_overrun (h : x.st = .disabled) (hi : ¬ x.illegal q) (hf : ¬ x.outstanding ≤ 2 ^ x.log2n) :
    s.enableQueue q = s.setQueue q (x.failed 2 (x.done % 2 ^ 32)) := by
  obtain ⟨st, hst⟩ : ∃ st, (if x.pending = 0 then QueueSt.idle else .active) = st := ⟨_, rfl⟩
  have hon : st = .idle ∨ st = .active ∨ st = .suspended := by
    rw [← hst]
    split <;> simp
  rw [State.enableQueue_of_legal hx h hi hst,
    Queue.checkRun_of_overrun (x := { x with st := st }) hon (Nat.lt_of_not_le hf)]
  exact State.settleQueue_setQueue_of_st s q nofun

theorem State.enableQueue_of_fits (h : x.st = .disabled) (hi : ¬ x.illegal q) (hf : x.outstanding ≤ 2 ^ x.log2n)
    {st : QueueSt} (hst : (if x.pending = 0 then QueueSt.idle else .active) = st) :
    s.enableQueue q = (s.setQueue q { x with st := st }).settleQueue q := by
  rw [State.enableQueue_of_legal hx h hi hst, Queue.checkRun_of_fits (x := { x with st := st }) hf]

theorem State.disableQueue_of_idle (h : x.st = .idle) : s.disableQueue q = s.setQueue q { x with st := .disabled } := by
  simp [State.disableQueue, hx, h]

theorem State.disableQueue_of_ended (h : x.st = .error) (hl : ∀ p ∈ x.entries, p.2.live = false) :
    s.disableQueue q = s.setQueue q
      { x with st := .disabled, rd := x.wr, done := x.wr, err := 0, erridx := 0, entries := [], fault := none } := by
  have none_live : (x.entries.any fun p => p.2.live) = false := by simpa using fun a b hab => hl (a, b) hab
  simp [State.disableQueue, hx, h, none_live]

theorem State.disableQueue_of_live (h : x.st = .error) (hl : ∃ p ∈ x.entries, p.2.live = true) :
    s.disableQueue q = s := by
  have some_live : (x.entries.any fun p => p.2.live) = true := by simpa using hl
  simp [State.disableQueue, hx, h, some_live]

theorem State.disableQueue_of_busy (h : x.st = .disabled ∨ x.st = .active ∨ x.st = .suspended) :
    s.disableQueue q = s := by
  rcases h with h | h | h <;> simp [State.disableQueue, hx, h]

theorem State.suspendQueue_of_idle (h : x.st = .idle) :
    s.suspendQueue q = s.setQueue q { x with st := .suspended, susp := true } := by
  simp only [State.suspendQueue, hx, h, beq_self_eq_true, if_true]
  exact State.settleQueue_setQueue_of_st s q nofun

theorem State.suspendQueue_of_not_idle (h : x.st ≠ .idle) :
    s.suspendQueue q = (s.setQueue q { x with susp := true }).settleQueue q := by
  simp [State.suspendQueue, hx, h]

theorem State.unsuspendQueue_of_suspended (h : x.st = .suspended) {st : QueueSt}
    (hst : (if x.pending = 0 then QueueSt.idle else .active) = st) :
    s.unsuspendQueue q = s.setQueue q { x with susp := false, st := st } := by
  have hp : ∀ y : QueueSt, ({ x with susp := false, st := y } : Queue).pending = x.pending := fun _ => rfl
  rw [← State.settleQueue_setQueue_of_susp s q (x := { x with susp := false, st := st }) rfl]
  simp only [State.unsuspendQueue, hx, h, ite_pending_ne_zero, hp, hst, beq_self_eq_true, if_true]

theorem State.unsuspendQueue_of_not_suspended (h : x.st ≠ .suspended) :
    s.unsuspendQueue q = s.setQueue q { x with susp := false } := by
  rw [← State.settleQueue_setQueue_of_susp s q (x := { x with susp := false }) rfl]
  simp [State.unsuspendQueue, hx, h]

/-- The doorbell sets WR and makes an Idle queue Active, the ring is checked, and the queue may suspend at once. -/
theorem State.ring_eq (wr : Word) : s.ring q wr = (s.setQueue q (x.rung wr).checkRun).settleQueue q := by
  simp [State.ring, Queue.rung, hx]

theorem State.ring_of_off (wr : Word) (h : x.st = .disabled ∨ x.st = .error) :
    s.ring q wr = s.setQueue q { x with wr := wr.toNat } := by
  have hrung : x.rung wr = { x with wr := wr.toNat } := by rcases h with h | h <;> simp [Queue.rung, h]
  rw [State.ring_eq hx, hrung, Queue.checkRun_of_off (x := { x with wr := wr.toNat }) h]
  exact State.settleQueue_setQueue_of_st s q (by rcases h with h | h <;> simp [h])

theorem State.ring_of_overrun (wr : Word) (h : x.st = .idle ∨ x.st = .active ∨ x.st = .suspended)
    (ho : 2 ^ x.log2n < ({ x with wr := wr.toNat } : Queue).outstanding) :
    s.ring q wr = s.setQueue q (({ x with wr := wr.toNat } : Queue).failed 2 (x.done % 2 ^ 32)) := by
  have hon : (x.rung wr).st = .idle ∨ (x.rung wr).st = .active ∨ (x.rung wr).st = .suspended := by
    rcases h with h | h | h <;> simp [Queue.rung, h]
  rw [State.ring_eq hx, Queue.checkRun_of_overrun hon ho]
  exact State.settleQueue_setQueue_of_st s q nofun

/-- A doorbell within the ring only sets WR and makes an Idle queue Active, where the queue may not suspend. -/
theorem State.ring_of_fits (wr : Word) (ho : ({ x with wr := wr.toNat } : Queue).outstanding ≤ 2 ^ x.log2n)
    (h : x.st = .suspended ∨ x.susp = false) : s.ring q wr = s.setQueue q (x.rung wr) := by
  rw [State.ring_eq hx, Queue.checkRun_of_fits (x := x.rung wr) ho]
  rcases h with h | h
  · exact State.settleQueue_setQueue_of_st s q (by simp [Queue.rung, h])
  · exact State.settleQueue_setQueue_of_susp s q h

end

/-! The register blocks of a part (R2, R327, R450). -/

theorem Part.hasQueue_of_lt {p : Part} {q : Nat} (h : q < p.queues) : p.hasQueue q = true := by
  have hq : q < 8192 := h.trans_le (by cases p <;> decide)
  simp [Part.hasQueue, isMgmt, h, Nat.not_le.mpr hq]

theorem Part.dies_le (p : Part) : p.dies.length ≤ 4 := by cases p <;> decide

theorem Part.hasQueue_mgmt {p : Part} {func die : Nat} (hf : func < p.ports) (hd : die < p.dies.length) :
    p.hasQueue (8192 + 4 * func + die) = true := by
  have hdies := p.dies_le
  have hmod : (8192 + 4 * func + die) % 4 = die := by omega
  have hlt : 8192 + 4 * func + die < 8192 + 4 * p.ports := by omega
  simp [Part.hasQueue, isMgmt, hmod, hlt, hd]
  omega

theorem blockAt_work {p : Part} {func q o : Nat} (hf : func < p.ports) (ho : o < 64) (hq : q < p.queues) :
    blockAt p func (0x100000 + 64 * q + o) = some (q, o) := by
  have hdies := p.dies_le
  rw [blockAt, if_neg (by omega), if_neg (by simp; omega), if_pos (by simp; omega)]
  simp only [Option.some.injEq, Prod.mk.injEq]
  omega

theorem blockAt_mgmt {p : Part} {func die o : Nat} (hf : func < p.ports) (ho : o < 64) (hd : die < p.dies.length) :
    blockAt p func (0x10000 + 64 * die + o) = some (8192 + 4 * func + die, o) := by
  rw [blockAt, if_neg (by omega), if_pos (by simp; omega)]
  simp only [mgmtKey, Option.some.injEq, Prod.mk.injEq]
  omega

theorem blockAt_outside {p : Part} {func off : Nat}
    (h : p.ports ≤ func ∨ off < 0x10000 ∨ (0x10000 + 64 * p.dies.length ≤ off ∧ off < 0x100000) ∨
      0x100000 + 64 * p.queues ≤ off) : blockAt p func off = none := by
  have hdies := p.dies_le
  by_cases hf : p.ports ≤ func
  · rw [blockAt, if_pos hf]
  · rw [blockAt, if_neg hf, if_neg (by simp; omega), if_neg (by simp; omega)]

/-- A write of a word of a queue's block is a write of that word, and the queue is one of the part's. -/
theorem registerWrite_eq (s : State) {func off q o : Nat} (w : Word) (hf : func < s.part.ports) (ho : o < 64)
    (hq : (q < s.part.queues ∧ off = 0x100000 + 64 * q + o) ∨
      ∃ die < s.part.dies.length, q = 8192 + 4 * func + die ∧ off = 0x10000 + 64 * die + o) :
    exec (.registerWrite func off w) s = .next (s.writeBlock q (o / 4 * 4) w) ∧ s.part.hasQueue q = true := by
  rcases hq with ⟨hlt, rfl⟩ | ⟨die, hd, rfl, rfl⟩
  · refine ⟨?_, Part.hasQueue_of_lt hlt⟩
    simp only [exec, execRegisterWrite, blockAt_work hf ho hlt]
  · refine ⟨?_, Part.hasQueue_mgmt hf hd⟩
    simp only [exec, execRegisterWrite, blockAt_mgmt hf ho hd]

theorem bitOf_toNat (w : Word) (k : Nat) : bitOf w.toNat k = w.getLsbD k := by
  simp [bitOf, BitVec.getLsbD, Nat.testBit_eq_decide_div_mod_eq, beq_eq_decide]

section
variable (s : State) (q : Nat) (w : Word)

theorem State.writeBlock_control : s.writeBlock q 0 w =
    let t := if q < 8192 then s.setQueue q { s.queue q with prio := w.toNat / 2 ^ 16 % 8 } else s
    let u := if w.getLsbD 31 then t.enableQueue q else t.disableQueue q
    if w.getLsbD 30 then u.suspendQueue q else u.unsuspendQueue q := by
  have hprio : bitsOf w.toNat 16 3 = w.toNat / 2 ^ 16 % 8 := rfl
  by_cases hq : q < 8192 <;> simp [State.writeBlock, isMgmt, bitOf_toNat, hq, hprio, Nat.not_le.mpr, Nat.le_of_not_lt]

theorem State.writeBlock_size (h : (s.queue q).st = .disabled) : s.writeBlock q 4 w =
    s.setQueue q { s.queue q with space := w.getLsbD 31, log2n := w.toNat % 32 } := by
  simp [State.writeBlock, h, bitOf_toNat]

theorem State.writeBlock_baseLow (h : (s.queue q).st = .disabled) : s.writeBlock q 8 w =
    s.setQueue q { s.queue q with base := (s.queue q).base / 2 ^ 32 * 2 ^ 32 + w.toNat } := by
  simp [State.writeBlock, h]

theorem State.writeBlock_baseHigh (h : (s.queue q).st = .disabled) : s.writeBlock q 12 w =
    s.setQueue q { s.queue q with base := w.toNat * 2 ^ 32 + (s.queue q).base % 2 ^ 32 } := by
  simp [State.writeBlock, h]

/-- The ring's words are read-only while the queue is on. -/
theorem State.writeBlock_ring_of_on {o : Nat} (hlo : 1 ≤ o / 4) (hhi : o / 4 ≤ 3) (h : (s.queue q).st ≠ .disabled) :
    s.writeBlock q (o / 4 * 4) w = s := by
  obtain ho | ho | ho : o / 4 = 1 ∨ o / 4 = 2 ∨ o / 4 = 3 := by omega
  all_goals simp [ho, State.writeBlock, h]

theorem State.writeBlock_doorbell : s.writeBlock q 16 w = s.ring q w := rfl

theorem State.writeBlock_readOnly {o : Nat} (h : 5 ≤ o / 4) : s.writeBlock q (o / 4 * 4) w = s := by
  unfold State.writeBlock
  split
  rotate_right
  · rfl
  all_goals omega

end

/-! What the events of a queue's registers answer, for a queue that the part has. -/

section
variable {s : State} {q : Nat} (h : s.part.hasQueue q = true)
include h

theorem exec_wqEnable : exec (.wqEnable q) s = .next (s.enableQueue q) := by simp [exec, execWqEnable, h]
theorem exec_wqDisable : exec (.wqDisable q) s = .next (s.disableQueue q) := by simp [exec, execWqDisable, h]
theorem exec_wqSuspend : exec (.wqSuspend q) s = .next (s.suspendQueue q) := by simp [exec, execWqSuspend, h]
theorem exec_wqUnsuspend : exec (.wqUnsuspend q) s = .next (s.unsuspendQueue q) := by simp [exec, execWqUnsuspend, h]
theorem exec_doorbell (wr : Word) : exec (.doorbell q wr) s = .next (s.ring q wr) := by simp [exec, execDoorbell, h]

end

/-- Settles O52. Each event's answer is an equation of the queue's operation above; what remains is to see whether the queue
may pass to Suspended at once. -/
theorem queueRegisters : Obligations.QueueRegisters := by
  unfold Obligations.QueueRegisters
  refine ⟨fun s q wr h => ?_, fun s q hq => ?_, fun s func off w => ⟨fun q o hf ho hat => ?_, fun h => ?_⟩⟩
  · simp [exec, execWqEnable, execWqDisable, execWqSuspend, execWqUnsuspend, execDoorbell, h]
  · rw [exec_wqEnable hq, exec_wqDisable hq, exec_wqSuspend hq, exec_wqUnsuspend hq]
    intro x
    have hx : s.queue q = x := rfl
    clear_value x
    intro put failed illegal fits settled suspends
    refine ⟨fun h => ?_, fun h hi => ?_, fun h hi hf => ?_, fun h hi hf hp => ?_, fun h hi hf hp hs => ?_,
      fun h hi hf hp hs hn hat => ?_, fun h => ?_, fun h hl => ?_, fun h hl => ?_, fun h => ?_, fun h => ?_,
      fun h hn hat => ?_, fun h hn => ?_, fun h => ?_, fun h => ?_, fun h => ?_, fun wr => ⟨fun h => ?_, fun h ho => ?_,
      fun h ho hs => ?_, fun h ho => ?_⟩⟩
    · rw [State.enableQueue_of_on hx h]
    · rw [State.enableQueue_of_illegal hx h hi]
      rfl
    · rw [State.enableQueue_of_overrun hx h hi hf]
      rfl
    · rw [State.enableQueue_of_fits hx h hi hf (if_pos hp),
        State.settleQueue_setQueue_of_st s q (x := { x with st := .idle }) nofun]
    · rw [State.enableQueue_of_fits hx h hi hf (if_neg hp),
        State.settleQueue_setQueue_of_susp s q (x := { x with st := .active }) hs]
    · rw [State.enableQueue_of_fits hx h hi hf (if_neg hp),
        State.settleQueue_setQueue_of (x := { x with st := .active }) ⟨rfl, hn, hs, hat⟩]
      rfl
    · rw [State.disableQueue_of_idle hx h]
    · rw [State.disableQueue_of_ended hx h hl]
    · rw [State.disableQueue_of_live hx h hl]
    · rw [State.disableQueue_of_busy hx h]
    · rw [State.suspendQueue_of_idle hx h]
    · rw [State.suspendQueue_of_not_idle hx (by simp [h]),
        State.settleQueue_setQueue_of (x := { x with susp := true }) ⟨h, hn, rfl, hat⟩]
      rfl
    · rw [State.suspendQueue_of_not_idle hx (by simp [h]), State.settleQueue_setQueue_of_not]
      rintro ⟨-, hnone, -, hat⟩
      exact hn.elim (· hat) (· hnone)
    · rw [State.suspendQueue_of_not_idle hx (by rcases h with h | h | h <;> simp [h]),
        State.settleQueue_setQueue_of_st s q (by rcases h with h | h | h <;> simp [h])]
    · rw [State.unsuspendQueue_of_suspended hx h rfl]
    · rw [State.unsuspendQueue_of_not_suspended hx h]
    · rw [exec_doorbell hq, State.ring_of_off hx wr h]
    · rw [exec_doorbell hq, State.ring_of_overrun hx wr h ho]
      rfl
    · rw [exec_doorbell hq, State.ring_of_fits hx wr ho (.inr hs), Queue.rung, if_pos h]
    · have hrung : x.rung wr = { x with wr := wr.toNat } := by
        rcases h with h | ⟨h, -⟩ <;> simp [Queue.rung, h]
      rw [exec_doorbell hq, State.ring_of_fits hx wr ho (h.imp_right And.right), hrung]
  · obtain ⟨hwrite, hq⟩ := registerWrite_eq s w hf ho hat
    rw [hwrite, exec_doorbell hq]
    refine ⟨fun h => ?_, fun h hd => ?_, fun h hd => ?_, fun h hd => ?_, fun hlo hhi hd => ?_, fun h => ?_, fun h => ?_⟩
    · rw [h, State.writeBlock_control]
    · rw [h, State.writeBlock_size _ _ _ hd]
    · rw [h, State.writeBlock_baseLow _ _ _ hd]
    · rw [h, State.writeBlock_baseHigh _ _ _ hd]
    · rw [State.writeBlock_ring_of_on _ _ _ hlo hhi hd]
    · rw [h, State.writeBlock_doorbell]
    · rw [State.writeBlock_readOnly _ _ _ h]
  · simp only [exec, execRegisterWrite, blockAt_outside h]

end Sys2Proof.Machine
end

section
/-! PROOFS. The machine right after reset (spec 14_queue.md R328, 20_link.md R443, R447). -/

namespace Sys2Proof.Machine

/-- The registers of a queue that nothing has been written to read 0. -/
theorem State.readBlock_of_unused {s : State} {q : Nat} (h : s.queue q = {}) (off : Nat) : s.readBlock q off = 0 := by
  unfold State.readBlock
  rw [h]
  split <;> simp [QueueSt.code]

/-- Settles O7: a queue's registers read 0 by the lemma above, and the rest is what the reset state holds by definition. -/
theorem resetState : Obligations.ResetState := by
  unfold Obligations.ResetState
  exact ⟨fun q off => State.readBlock_of_unused rfl off, fun l => rfl, fun ctx die => ⟨rfl, rfl, rfl⟩, fun c => rfl,
    fun stack off => rfl, fun c w => rfl, rfl, rfl, rfl, rfl⟩

end Sys2Proof.Machine
end

section
/-! PROOFS. What executing a word leaves of device and host memory (spec 01_machine.md R21, R73): each operation that the
words are made of changes nothing that these memories are read from. -/

namespace Sys2Proof.Machine

/-- All of a state that its device and host memory is read from; the rest as after reset. -/
def State.memory (s : State) : State :=
  { mem := s.mem, memPsn := s.memPsn, homes := s.homes, host := s.host, hostPsn := s.hostPsn
    attr := s.attr, drains := s.drains, dies := s.dies, collisions := s.collisions }

theorem State.homeByte_memory (s : State) (stack off : Nat) : s.memory.homeByte stack off = s.homeByte stack off := rfl

theorem State.sectorPsn_memory (s : State) (stack off : Nat) : s.memory.sectorPsn stack off = s.sectorPsn stack off := rfl

/-! Operations on other tables of the state leave these as they are by definition. -/

section
variable (s : State)

@[simp] theorem State.setGroup_memory (n : Nat) (g : Group) : (s.setGroup n g).memory = s.memory := rfl
@[simp] theorem State.spend_memory (team : Nat) : (s.spend team).memory = s.memory := rfl
@[simp] theorem State.endGroups_memory (gids : List Nat) : (s.endGroups gids).memory = s.memory := rfl
@[simp] theorem State.endHandler_memory (v : View) : (s.endHandler v).memory = s.memory := rfl
@[simp] theorem State.deliverResult_memory (n : Nat) (x : PWord) : (s.deliverResult n x).memory = s.memory := rfl
@[simp] theorem State.sendRemote_memory (v : View) (c : Nat) (op : RemoteOp) (b l : Nat) :
    (s.sendRemote v c op b l).memory = s.memory := rfl

end

/-- A sequence of steps leaves the memory alone when each does. -/
theorem foldl_memory {β : Type} {f : State → β → State} (hf : ∀ s b, (f s b).memory = s.memory) (l : List β)
    (s : State) : (l.foldl f s).memory = s.memory :=
  List.foldlRecOn (motive := fun t => t.memory = s.memory) l f rfl fun t ht b _ => (hf t b).trans ht

theorem ite_memory {c : Prop} [Decidable c] {s t u : State} (ht : t.memory = s.memory) (hu : u.memory = s.memory) :
    (if c then t else u).memory = s.memory := by
  split
  · exact ht
  · exact hu

/-! The error log, traps and waits. -/

@[simp] theorem State.logInterrupt_memory (s : State) (die ctx : Nat) : (s.logInterrupt die ctx).memory = s.memory := by
  unfold State.logInterrupt
  dsimp only
  split <;> rfl

@[simp] theorem State.logError_memory (s : State) (e : ErrEntry) : (s.logError e).memory = s.memory := by
  unfold State.logError
  dsimp only
  split
  · split
    · rfl
    · split
      · rfl
      · exact State.logInterrupt_memory ..
  · exact State.logInterrupt_memory ..

@[simp] theorem State.logUnhandled_memory (s : State) (g : Group) (r : List PWord) :
    (s.logUnhandled g r).memory = s.memory := State.logError_memory ..

@[simp] theorem State.takeTrap_memory (s : State) (gid : Nat) (r : List PWord) : (s.takeTrap gid r).memory = s.memory := by
  unfold State.takeTrap
  repeat' split
  all_goals simp

theorem State.trapAtIssue_memory (s : State) (o : Issue) (t : Trap) : (s.trapAtIssue o t).memory = s.memory := by
  unfold State.trapAtIssue
  split
  · rfl
  · exact State.takeTrap_memory ..

@[simp] theorem State.startEclipse_memory (s : State) (p c : Nat) (m : Word) : (s.startEclipse p c m).memory = s.memory := by
  unfold State.startEclipse
  dsimp only
  split <;> rfl

theorem State.accessEclipse_memory (s : State) (p c : Nat) (m : Word) : (s.accessEclipse p c m).memory = s.memory := by
  unfold State.accessEclipse
  dsimp only
  split
  · exact State.startEclipse_memory ..
  · split <;> rfl

theorem State.stallAt_memory (s : State) (o : Issue) (w : Wait) : (s.stallAt o w).memory = s.memory := by
  unfold State.stallAt
  cases w
  case granules => exact State.accessEclipse_memory ..
  all_goals rfl

/-! Bodies of words. -/

/-- Whatever the answer of a word's body yields has a property; a stop yields nothing. -/
structure Yields {α : Type} (r : Except Stop α) (P : α → Prop) : Prop where
  of_ok : ∀ a, r = .ok a → P a

section
variable {α β : Type} {P : α → Prop} {Q : β → Prop}

theorem Yields.ok {a : α} (h : P a) : Yields (.ok a) P := ⟨fun _ e => Except.ok.inj e ▸ h⟩

theorem Yields.error {x : Stop} : Yields (.error x) P := ⟨fun _ e => nomatch e⟩

theorem Yields.bind {r : Except Stop β} {f : β → Except Stop α} (hr : Yields r Q) (hf : ∀ b, Q b → Yields (f b) P) :
    Yields (r >>= f) P := by
  cases r with
  | error x => exact .error
  | ok b => exact hf b (hr.of_ok b rfl)

/-- A check that yields nothing the rest depends on. -/
theorem Yields.andThen {r : Except Stop β} {f : β → Except Stop α} (hf : ∀ b, Yields (f b) P) : Yields (r >>= f) P :=
  .bind (Q := fun _ => True) ⟨fun _ _ => trivial⟩ fun b _ => hf b

theorem Yields.ite {c : Prop} [Decidable c] {a b : Except Stop α} (ha : Yields a P) (hb : Yields b P) :
    Yields (if c then a else b) P := by
  split
  · exact ha
  · exact hb

/-- A check that is made only if c. -/
theorem Yields.onlyIf {c : Prop} [Decidable c] {r : Except Stop Unit} {f : Unit → Except Stop α}
    (hf : ∀ u, Yields (f u) P) : Yields (if c then r >>= f else f ()) P := .ite (.andThen hf) (hf ())

end

/-- What a body answers has the memory of s. -/
abbrev State.Keeps (s : State) (r : Except Stop State) : Prop := Yields r fun t => t.memory = s.memory

theorem State.Keeps.after {s t : State} {r : Except Stop State} (hr : t.Keeps r) (h : t.memory = s.memory) : s.Keeps r :=
  ⟨fun u e => (hr.of_ok u e).trans h⟩

/-- A word whose next state has the memory of s. -/
structure KeepsMemory (s : State) (r : Out) : Prop where
  of_next : ∀ t, r = .next t → t.memory = s.memory

theorem State.wordDone_memory {s : State} {r : Except Stop State} (h : s.Keeps r) (o : Issue) :
    (s.wordDone o r).memory = s.memory := by
  match r with
  | .ok t => exact h.of_ok t rfl
  | .error (.trap t) => exact s.trapAtIssue_memory o t
  | .error (.stall w) => exact s.stallAt_memory o w

theorem runBare_keepsMemory {s : State} {body : View → Except Stop State} (h : ∀ v, s.Keeps (body v)) :
    KeepsMemory s (runBare s body) := by
  refine ⟨fun t ht => ?_⟩
  unfold runBare at ht
  split at ht
  · cases ht
  · split at ht
    · cases ht
    · cases ht
      exact State.wordDone_memory (h _) _

theorem runPrivileged_keepsMemory {s : State} {may : Group → Bool} {body : View → Except Stop State}
    (h : ∀ v, s.Keeps (body v)) : KeepsMemory s (runPrivileged s may body) := by
  refine runBare_keepsMemory fun v => .ite .error ?_
  split
  · exact .error
  · exact h v

theorem runWord_keepsMemory {s : State} {body : View → Except Stop State} (h : ∀ v, s.Keeps (body v)) :
    KeepsMemory s (runWord s body) := by
  refine runBare_keepsMemory fun v => ?_
  split
  · exact .error
  · exact h v

/-! Operands and results. -/

section
variable (s : State) (v : View)

theorem pop_yields (c : Byte) (n : Nat) : Yields (s.pop v c n) fun x => x.2.memory = s.memory := by
  unfold State.pop
  split
  · exact .ite .error (.ok rfl)
  · refine .ite .error ?_
    split
    · exact .error
    · split
      · exact .error
      · exact .ok rfl
  · exact .error

theorem operand_yields (e r : Nat) : Yields (s.operand v e r) fun x => x.2.memory = s.memory := by
  unfold State.operand
  refine .ite (.ite (.ok rfl) ?_) (.ok rfl)
  split
  · exact .error
  · next h => exact .ok ((pop_yields s v _ _).of_ok _ h)

theorem operands_yields (ea ra eb rb : Nat) : Yields (s.operands v ea ra eb rb) fun x => x.2.2.memory = s.memory := by
  unfold State.operands
  split
  · exact .error
  · next ha =>
    split
    · exact .error
    · next hb => exact .ok (((operand_yields _ v eb rb).of_ok _ hb).trans ((operand_yields s v ea ra).of_ok _ ha))

variable {s v}

theorem operand_memory {e r : Nat} {a : Lanes} {t : State} (h : s.operand v e r = .ok (a, t)) : t.memory = s.memory :=
  (operand_yields s v e r).of_ok _ h

theorem operands_memory {ea ra eb rb : Nat} {a b : Lanes} {t : State} (h : s.operands v ea ra eb rb = .ok (a, b, t)) :
    t.memory = s.memory := (operands_yields s v ea ra eb rb).of_ok _ h

variable (s v)

theorem pushCheck_keeps (c : Byte) (n : Nat) : s.Keeps (s.pushCheck v c n) := by
  unfold State.pushCheck
  dsimp only
  split
  · exact .ite .error (.ite .error (.ok rfl))
  · exact .ite .error (.ite .error (.ok rfl))
  · exact .ite .error (.ite .error (.ok rfl))
  · exact .error

theorem push_keeps (c : Byte) (due : Option Nat) (srcs : List Nat) (ws : List PWord) :
    s.Keeps (s.push v c due srcs ws) := by
  unfold State.push
  split
  · exact .error
  · next t ht =>
    have h := (pushCheck_keeps s v c _).of_ok t ht
    exact .ok (ite_memory (t := State.spend _ _) h h)

theorem put_keeps (r n : Nat) (f : Lanes) : s.Keeps (s.put v r n f) :=
  .ite (.ite (.ok rfl) (push_keeps ..)) (.ok rfl)

theorem put2_keeps (r n : Nat) (f : Nat → PWord × PWord) : s.Keeps (s.put2 v r n f) := by
  unfold State.put2
  split
  · exact .error
  · next t ht => exact (put_keeps t v _ n _).after ((put_keeps s v _ n _).of_ok t ht)

@[simp] theorem State.putPred_memory (p n : Nat) (f : Nat → Bool × Bool) : (s.putPred v p n f).memory = s.memory := by
  unfold State.putPred
  split <;> rfl

end

/-! Words with a register, a pair or predicates as their result. -/

section
variable (s : State)

theorem aluWord_keepsMemory (ea ra eb rb d lat : Nat) (f : View → Nat → PWord → PWord → PWord) :
    KeepsMemory s (aluWord s ea ra eb rb d lat f) := by
  refine runWord_keepsMemory fun v => ?_
  split
  · exact .error
  · next h => exact (put_keeps ..).after (operands_memory h)

theorem unaryWord_keepsMemory (ea ra d lat : Nat) (f : Nat → PWord → PWord) :
    KeepsMemory s (unaryWord s ea ra d lat f) := by
  refine runWord_keepsMemory fun v => ?_
  split
  · exact .error
  · next h => exact (put_keeps ..).after (operand_memory h)

theorem sourceWord_keepsMemory (d lat : Nat) (f : View → Nat → PWord) : KeepsMemory s (sourceWord s d lat f) :=
  runWord_keepsMemory fun _ => put_keeps ..

theorem pairWord_keepsMemory (ea ra eb rb d lat : Nat) (f : View → Nat → PWord → PWord → PWord × PWord) :
    KeepsMemory s (pairWord s ea ra eb rb d lat f) := by
  refine runWord_keepsMemory fun v => ?_
  split
  · exact .error
  · next h => exact (put2_keeps ..).after (operands_memory h)

theorem groupPairWord_keepsMemory (d lat : Nat) (f : View → Nat → PWord × PWord) :
    KeepsMemory s (groupPairWord s d lat f) := runWord_keepsMemory fun _ => put2_keeps ..

theorem compareWord_keepsMemory (o : OpC) (f : Word → Word → Bool) : KeepsMemory s (compareWord o f s) := by
  refine runWord_keepsMemory fun v => ?_
  split
  · exact .error
  · next h => exact .ok ((State.putPred_memory ..).trans (operands_memory h))

theorem predWord_keepsMemory (pd pa pb : Nat) (f : Bool → Bool → Bool) : KeepsMemory s (predWord pd pa pb f s) :=
  runWord_keepsMemory fun _ => .ok (State.putPred_memory ..)

theorem shift64_keepsMemory (o : OpV) (f : Nat → Nat → Int) : KeepsMemory s (shift64 o f s) := by
  refine runWord_keepsMemory fun v => ?_
  split
  · exact .error
  · next h => exact (put2_keeps ..).after (operand_memory h)

theorem reduceWord_keepsMemory (o : OpM) (f : List Word → Word) : KeepsMemory s (reduceWord o f s) := by
  refine runWord_keepsMemory fun v => ?_
  split
  · exact .error
  · next h => exact (put_keeps ..).after (operand_memory h)

theorem execSel_keepsMemory (o : OpR) : KeepsMemory s (execSel o s) := by
  refine runBare_keepsMemory fun w => ?_
  dsimp only
  split
  · exact .error
  · next h => exact (put_keeps ..).after (operands_memory h)

theorem execFunpack_keepsMemory (o : OpCvt) : KeepsMemory s (execFunpack o s) := by
  refine runWord_keepsMemory fun v => ?_
  split
  · exact .error
  · next h => exact (put2_keeps ..).after (operand_memory h)

theorem execShfl_keepsMemory (m : ShflMode) (o : OpV) : KeepsMemory s (execShfl m o s) := by
  refine runWord_keepsMemory fun v => ?_
  split
  · exact .error
  · next h => exact (put_keeps ..).after (operands_memory h)

theorem execScan_keepsMemory (excl : Bool) (x : ScanOp) (o : OpM) : KeepsMemory s (execScan excl x o s) := by
  refine runWord_keepsMemory fun v => ?_
  split
  · exact .error
  · next h => exact (put_keeps ..).after (operand_memory h)

theorem execMatchLanes_keepsMemory (o : OpM) : KeepsMemory s (execMatchLanes o s) := by
  refine runWord_keepsMemory fun v => ?_
  split
  · exact .error
  · next h => exact (put_keeps ..).after (operand_memory h)

theorem execPset_keepsMemory (o : OpA) : KeepsMemory s (execPset o s) := by
  refine runWord_keepsMemory fun v => ?_
  split
  · exact .error
  · next h => exact .ok ((foldl_memory (fun t k => State.putPred_memory ..) _ _).trans (operand_memory h))

theorem execVote_keepsMemory (x : VoteOp) (pd pa : Pred) : KeepsMemory s (execVote x pd pa s) :=
  runWord_keepsMemory fun _ => .ok (State.putPred_memory ..)

theorem execPchkReg_keepsMemory (pd : Pred) (o : OpA) : KeepsMemory s (execPchkReg pd o s) :=
  runWord_keepsMemory fun _ => .bind (operand_yields ..) fun _ h => .ok ((State.putPred_memory ..).trans h)

theorem execPchkPred_keepsMemory (pd pa : Pred) : KeepsMemory s (execPchkPred pd pa s) :=
  runWord_keepsMemory fun _ => .ok (State.putPred_memory ..)

theorem execPclrPred_keepsMemory (pd pa : Pred) : KeepsMemory s (execPclrPred pd pa s) :=
  runWord_keepsMemory fun _ => .ok (State.putPred_memory ..)

theorem execSrd_keepsMemory (d sr : Reg) : KeepsMemory s (execSrd d sr s) :=
  runWord_keepsMemory fun _ => .ite .error (.ite (put2_keeps ..) (put_keeps ..))

/-! The layouts of operands (Table 3-5), of which most of these words are one. -/

theorem wordR_keepsMemory (o : OpR) (lat : Nat) (f : Word → Word → Word) : KeepsMemory s (wordR o lat f s) :=
  aluWord_keepsMemory ..

theorem wordV_keepsMemory (o : OpV) (lat : Nat) (f : Word → Word → Word) : KeepsMemory s (wordV o lat f s) :=
  aluWord_keepsMemory ..

theorem wordRD_keepsMemory (o : OpR) (lat : Nat) (f : Word → Word → Word → Word) : KeepsMemory s (wordRD o lat f s) :=
  aluWord_keepsMemory ..

theorem wordVD_keepsMemory (o : OpV) (lat : Nat) (f : Word → Word → Word → Word) : KeepsMemory s (wordVD o lat f s) :=
  aluWord_keepsMemory ..

theorem wordM_keepsMemory (o : OpM) (lat : Nat) (f : Word → Word) : KeepsMemory s (wordM o lat f s) :=
  unaryWord_keepsMemory ..

theorem wordCvt_keepsMemory (o : OpCvt) (f : Word → Word) : KeepsMemory s (wordCvt o f s) := unaryWord_keepsMemory ..

theorem shiftImm_keepsMemory (o : OpSh) (f : Word → Nat → Word) : KeepsMemory s (shiftImm o f s) :=
  unaryWord_keepsMemory ..

theorem arith64_keepsMemory (o : OpV) (f : Int → Int → Int) : KeepsMemory s (arith64 o f s) :=
  groupPairWord_keepsMemory ..

/-! The words with a rule for their result. -/

variable {i : Instr}

theorem exec_keepsMemory_of_intRule (h : intRule i ≠ none) : KeepsMemory s (exec i s) := by
  cases i
  case iadd | isub | orn => exact wordR_keepsMemory ..
  case imul | imulh | lea | imin | imax | and | or | xor | andn | shl | shr | sar | rotl | bfx =>
    exact wordV_keepsMemory ..
  case prmt => exact wordRD_keepsMemory ..
  case imad | bfi => exact wordVD_keepsMemory ..
  case popc | clz | ctz | brev | iabs | ineg | mov => exact wordM_keepsMemory ..
  case shlImm | shrImm | sarImm | rotlImm => exact shiftImm_keepsMemory ..
  case iaddImm o => exact show KeepsMemory s (execIaddImm o s) from unaryWord_keepsMemory ..
  case movi d imm => exact show KeepsMemory s (execMovi d imm s) from sourceWord_keepsMemory ..
  case movl d lit => exact show KeepsMemory s (execMovl d lit s) from sourceWord_keepsMemory ..
  case pget d => exact show KeepsMemory s (execPget d s) from sourceWord_keepsMemory ..
  all_goals exact absurd rfl h

theorem exec_keepsMemory_of_floatRule (h : floatRule i ≠ none) : KeepsMemory s (exec i s) := by
  cases i
  case fadd | fsub | fmul | badd2 | bmul2 => exact wordR_keepsMemory ..
  case fmin | fmax | bmin2 | bmax2 | fpack => exact wordV_keepsMemory ..
  case ffma | ffms | bfma2 => exact wordRD_keepsMemory ..
  case fabs | fneg | fclass | frnd | frcp | frsq | fsqrt | fexp2 | flog2 | fsin | fcos | ftanh =>
    exact wordM_keepsMemory ..
  case f2i | i2f | fcvtBf16F32 | fcvtF32Bf16 | fcvtF16F32 | fcvtE4m3F32 | fcvtE5m2F32 => exact wordCvt_keepsMemory ..
  all_goals exact absurd rfl h

theorem exec_keepsMemory_of_pairRule (h : pairRule i ≠ none) : KeepsMemory s (exec i s) := by
  cases i
  case iaddc o => exact show KeepsMemory s (execIaddc o s) from pairWord_keepsMemory ..
  case imadw z o => exact show KeepsMemory s (execImadw z o s) from pairWord_keepsMemory ..
  case iadd64 | isub64 => exact arith64_keepsMemory ..
  case shl64 o => exact show KeepsMemory s (execShl64 o s) from shift64_keepsMemory ..
  case shr64 z o => exact show KeepsMemory s (execShr64 z o s) from shift64_keepsMemory ..
  case funpack => exact execFunpack_keepsMemory ..
  all_goals exact absurd rfl h

theorem exec_keepsMemory_of_predRule (h : predRule i ≠ none) : KeepsMemory s (exec i s) := by
  cases i
  case isetp z c o => exact show KeepsMemory s (execIsetp z c o s) from compareWord_keepsMemory ..
  case fsetp c o => exact show KeepsMemory s (execFsetp c o s) from compareWord_keepsMemory ..
  case pand o => exact show KeepsMemory s (execPand o s) from predWord_keepsMemory ..
  case por o => exact show KeepsMemory s (execPor o s) from predWord_keepsMemory ..
  case pxor o => exact show KeepsMemory s (execPxor o s) from predWord_keepsMemory ..
  case pnot pd pa => exact show KeepsMemory s (execPnot pd pa s) from predWord_keepsMemory ..
  case vote => exact execVote_keepsMemory ..
  all_goals exact absurd rfl h

theorem exec_keepsMemory_of_crossRule (h : crossRule i ≠ none) : KeepsMemory s (exec i s) := by
  cases i
  case voteBallot d pa => exact show KeepsMemory s (execVoteBallot d pa s) from sourceWord_keepsMemory ..
  case redux | fredux => exact reduceWord_keepsMemory ..
  case scan => exact execScan_keepsMemory ..
  case matchLanes => exact execMatchLanes_keepsMemory ..
  case shfl => exact execShfl_keepsMemory ..
  all_goals exact absurd rfl h

/-! Windows, patterns and bindings. -/

theorem winBases_keeps (v : View) (a : Lanes) : s.Keeps (winBases s v a) := by
  unfold winBases
  dsimp only
  split
  · exact .ite .error .error
  · exact .ok rfl

theorem execWinImm_keepsMemory (n : Fin 16) : KeepsMemory s (execWinImm n s) := runWord_keepsMemory fun _ => winBases_keeps ..

theorem execWinReg_keepsMemory (o : OpA) : KeepsMemory s (execWinReg o s) := by
  refine runWord_keepsMemory fun v => ?_
  split
  · exact .error
  · next h => exact (winBases_keeps ..).after (operand_memory h)

theorem execPtn_keepsMemory (e : Fin 8) (o : OpA) : KeepsMemory s (execPtn e o s) := by
  refine runWord_keepsMemory fun v => ?_
  split
  · exact .error
  · next h =>
    have ht := operand_memory h
    split
    · exact .error
    · exact .ok ht
    · exact .ok (ite_memory ht ht)

theorem execQbind_keepsMemory (n : Fin 4) (o : OpA) : KeepsMemory s (execQbind n o s) := by
  refine runPrivileged_keepsMemory fun _ => ?_
  split
  · exact .error
  · next h =>
    have ht := operand_memory h
    split
    · exact .error
    · exact .ok ht
    · exact .ite (.ok ht) .error

/-! Scratchpad words. -/

@[simp] theorem State.logBlock_memory (t : Nat) (nm : LogName) (old : List (Nat × PWord)) :
    (s.logBlock t nm old).memory = s.memory := by
  unfold State.logBlock
  repeat' split
  all_goals rfl

theorem State.writeSpad_memory (team core w : Nat) (x : PWord) (mask : Word) :
    (s.writeSpad team core w x mask).memory = s.memory := by
  unfold State.writeSpad
  dsimp only
  split
  · split
    · exact State.logBlock_memory ..
    · rfl
  · rfl

@[simp] theorem State.spadWrites_memory (team core : Nat) (ws : List (Nat × PWord × Word)) :
    (s.spadWrites team core ws).memory = s.memory := foldl_memory (fun t _ => t.writeSpad_memory ..) ..

@[simp] theorem State.putWords_memory (team core p : Nat) (ws : List PWord) :
    (s.putWords team core p ws).memory = s.memory := State.spadWrites_memory ..

theorem State.sendAll_memory {β : Type} (v : View) (c : β → Nat) (op : β → RemoteOp) (b l : β → Nat)
    (xs : List β) : (xs.foldl (fun t x => t.sendRemote v (c x) (op x) (b x) (l x)) s).memory = s.memory :=
  foldl_memory (fun t x => t.sendRemote_memory v (c x) (op x) (b x) (l x)) xs s

theorem storeOperands_memory {v : View} {o : OpMem} {a b : Lanes} {t : State} (h : s.storeOperands v o = .ok (a, b, t)) :
    t.memory = s.memory := by
  unfold State.storeOperands at h
  split at h
  · exact operands_memory h
  · split at h
    · cases h
    · next hop =>
      cases h
      exact operand_memory hop

theorem loadWord_keepsMemory (o : OpMem) (localOnly : Bool) : KeepsMemory s (loadWord o localOnly s) := by
  refine runWord_keepsMemory fun v => ?_
  split
  · exact .error
  · next t h =>
    have ht := operand_memory h
    split
    · exact .error
    · extract_lets near n c0 due cores at_ idOf isNear vals s2 s3 s4
      have h2 : s2.memory = s.memory := (State.sendAll_memory t v _ _ _ _ cores).trans ht
      have h3 : s3.memory = s.memory := ite_memory h2 h2
      have h4 : s.Keeps s4 := .ite (.ite (.ok h3) ((push_keeps ..).after h3)) (.ok h3)
      clear_value s4
      split
      · exact .error
      · next u =>
        have h5 := h4.of_ok u rfl
        exact .ok (ite_memory h5 h5)

theorem storeWord_keepsMemory (o : OpMem) (localOnly : Bool) : KeepsMemory s (storeWord o localOnly s) := by
  refine runWord_keepsMemory fun v => ?_
  split
  · exact .error
  · next t h =>
    have ht := storeOperands_memory s h
    split
    · exact .error
    · extract_lets near cores n s2 s3 s4
      have h2 : s2.memory = s.memory := (foldl_memory (fun u r => u.spadWrites_memory ..) near t).trans ht
      have h3 : s3.memory = s.memory := (State.sendAll_memory s2 v _ _ _ _ cores).trans h2
      have h4 : s4.memory = s.memory := ite_memory h3 h3
      exact .ok (ite_memory h4 h4)

theorem execLdt_keepsMemory (o : OpMem) : KeepsMemory s (execLdt o s) := by
  refine runWord_keepsMemory fun v => ?_
  split
  · exact .error
  · next t h =>
    have ht := operand_memory h
    split
    · exact .error
    · extract_lets n p lane lat s2
      have h2 : s2.memory = s.memory := ite_memory ht ht
      exact .ite ((put_keeps ..).after h2) (.ok h2)

theorem execStt_keepsMemory (o : OpMem) : KeepsMemory s (execStt o s) := by
  refine runWord_keepsMemory fun v => ?_
  split
  · exact .error
  · next t h =>
    have ht := storeOperands_memory s h
    split
    · exact .error
    · extract_lets p s2
      have h2 : s2.memory = s.memory := (foldl_memory (fun u L => u.spadWrites_memory ..) v.lanes t).trans ht
      exact .ok (ite_memory h2 h2)

theorem execLdr_keepsMemory (o : OpMem) : KeepsMemory s (execLdr o s) := by
  refine runWord_keepsMemory fun v => ?_
  split
  · exact .error
  · next t h =>
    have ht := operand_memory h
    split
    · exact .error
    · split
      · exact .error
      · extract_lets n p g lane lat s2
        have h2 : s2.memory = s.memory := ite_memory ht ht
        exact .ite ((put_keeps ..).after h2) (.ok h2)

theorem execStr_keepsMemory (o : OpMem) : KeepsMemory s (execStr o s) := by
  refine runWord_keepsMemory fun v => ?_
  split
  · exact .error
  · next t h =>
    have ht := storeOperands_memory s h
    split
    · exact .error
    · next rs _ =>
      split
      · exact .error
      · extract_lets p g s2
        have h2 : s2.memory = s.memory := by
          refine (foldl_memory (fun u r => ?_) rs t).trans ht
          dsimp only
          split <;> rfl
        exact .ok (ite_memory h2 h2)

/-! Atomics. -/

theorem stepLanes_memory {α : Type} {f : State → α → List PWord × State} (hf : ∀ t x, (f t x).2.memory = t.memory)
    (xs : List (Nat × α)) (s : State) : (stepLanes f xs s).2.memory = s.memory := by
  induction xs generalizing s with
  | nil => rfl
  | cons x xs ih => exact (ih _).trans (hf s x.2)

theorem atomStep_memory (team core p : Nat) (o : OpAtom) (b : List PWord) :
    (atomStep s team core p o b).2.memory = s.memory := State.putWords_memory ..

theorem casStep_memory (team core p : Nat) (o : OpCas) (b d : List PWord) :
    (casStep s team core p o b d).2.memory = s.memory := by
  unfold casStep
  dsimp only
  split
  · rfl
  · exact State.putWords_memory ..

theorem atomicWord_keepsMemory (localOnly : Bool) (d ar w : Nat)
    {near : View → Nat → SpadRef → State → List PWord × State} (far : View → List (Nat × SpadRef) → RemoteOp)
    (hnear : ∀ v L r t, (near v L r t).2.memory = t.memory) :
    KeepsMemory s (atomicWord s localOnly d ar w near far) := by
  refine runWord_keepsMemory fun v => ?_
  extract_lets a
  split
  · exact .error
  · extract_lets all_ two here cores p due r at_ isNear idOf s1 q s2 s3 s4
    have hr : r.2.memory = s.memory := stepLanes_memory (fun t (x : Nat × SpadRef) => hnear v x.1 x.2 t) _ s
    have h1 : s1.memory = s.memory := (State.sendAll_memory r.2 v _ _ _ _ cores).trans hr
    have h2 : s2.memory = s.memory := ite_memory h1 h1
    have h4 : s4.memory = s.memory := ite_memory h2 h2
    exact .ok (ite_memory h4 h4)

theorem atomWord_keepsMemory (o : OpAtom) (localOnly : Bool) : KeepsMemory s (atomWord o localOnly s) := by
  unfold atomWord
  refine atomicWord_keepsMemory s _ _ _ _ _ fun v L r t => ?_
  exact atomStep_memory t ..

theorem casWord_keepsMemory (o : OpCas) (localOnly : Bool) : KeepsMemory s (casWord o localOnly s) := by
  unfold casWord
  refine atomicWord_keepsMemory s _ _ _ _ _ fun v L r t => ?_
  exact casStep_memory t ..

/-! Commands: a word only posts them. -/

theorem postWord_keepsMemory (cmd nw : Nat) (o : OpQ) : KeepsMemory s (postWord cmd nw o s) := by
  refine runWord_keepsMemory fun v => .ite (.ok rfl) (.ite .error ?_)
  dsimp only
  split
  · exact .error
  · next t ht => exact .ok ((pushCheck_keeps s v _ _).of_ok t ht)

/-! Control. -/

theorem branchTargets_keeps (v : View) (t : Lanes) : s.Keeps (branchTargets s v t) := by
  unfold branchTargets
  dsimp only
  split
  · exact .ite .error .error
  · exact .ok (ite_memory rfl rfl)

theorem execBra_keepsMemory (imm : Fin 32768) : KeepsMemory s (execBra imm s) :=
  runWord_keepsMemory fun _ => branchTargets_keeps ..

theorem execCall_keepsMemory (d : Reg) (imm : Fin 32768) : KeepsMemory s (execCall d imm s) :=
  runWord_keepsMemory fun _ => .bind (branchTargets_keeps ..) fun _ h => (put_keeps ..).after h

theorem computedJump_keepsMemory (o : OpA) : KeepsMemory s (computedJump o s) :=
  runWord_keepsMemory fun _ => .bind (operand_yields ..) fun _ h => (branchTargets_keeps ..).after h

theorem execNop_keepsMemory : KeepsMemory s (execNop s) := runWord_keepsMemory fun _ => .ok rfl

theorem execJoin_keepsMemory (ar : Reg) : KeepsMemory s (execJoin ar s) :=
  runWord_keepsMemory fun _ => .ok (ite_memory rfl rfl)

theorem execExit_keepsMemory : KeepsMemory s (execExit s) := runWord_keepsMemory fun _ => .ok (ite_memory rfl rfl)

theorem execTrap_keepsMemory (n : Fin 32) : KeepsMemory s (execTrap n s) :=
  runWord_keepsMemory fun _ => .ok (ite_memory rfl rfl)

theorem execSleep_keepsMemory (o : OpA) : KeepsMemory s (execSleep o s) :=
  runWord_keepsMemory fun _ => .bind (operand_yields ..) fun _ h => .ite .error (.ok h)

theorem execPpt_keepsMemory (offs : Fin 16) (more : Bool) (live : Fin 268435456) (granules : Word) :
    KeepsMemory s (execPpt offs more live granules s) := runWord_keepsMemory fun _ => .ok rfl

/-! Barrier and ring objects, barriers and fences. -/

theorem objStep_memory (team core off : Nat) (a : ObjAct) : (objStep s team core off a).memory = s.memory := by
  cases a
  case arrive => exact ite_memory rfl (State.putWords_memory ..)
  case release => exact ite_memory rfl (State.putWords_memory ..)
  all_goals exact State.putWords_memory ..

theorem State.sendObjects_memory (v : View) (check : Bool) (acts : List (Nat × Nat × Nat × ObjAct)) :
    (s.sendObjects v check acts).memory = s.memory := by
  unfold State.sendObjects
  split <;> rfl

theorem State.objectActs_memory (v : View) (rs : List (Nat × SpadRef)) (check spends : Bool) (act : Nat → ObjAct) :
    (s.objectActs v rs check spends act).memory = s.memory := by
  unfold State.objectActs
  extract_lets near s1 far
  have h1 : s1.memory = s.memory := foldl_memory (fun t r => objStep_memory t ..) near s
  exact (State.sendObjects_memory ..).trans (ite_memory h1 h1)

theorem objects_yields (v : View) (o : OpM) (n : Nat) : Yields (s.objects v o n) fun x => x.2.2.memory = s.memory := by
  unfold State.objects
  split
  · exact .error
  · next h =>
    split
    · exact .error
    · exact .ok (operand_memory h)

theorem execBoinit_keepsMemory (o : OpM) : KeepsMemory s (execBoinit o s) :=
  runWord_keepsMemory fun _ => .bind (objects_yields ..) fun _ h => .andThen fun _ => .andThen fun _ =>
    .ok ((State.objectActs_memory ..).trans h)

theorem execBoarr_keepsMemory (rlx : Bool) (o : OpM) : KeepsMemory s (execBoarr rlx o s) :=
  runWord_keepsMemory fun _ => .bind (objects_yields ..) fun _ h => .andThen fun _ => .andThen fun _ =>
    .onlyIf fun _ => .ok ((State.objectActs_memory ..).trans h)

theorem execBowait_keepsMemory (o : OpM) : KeepsMemory s (execBowait o s) :=
  runWord_keepsMemory fun _ => .bind (objects_yields ..) fun _ h => .andThen fun _ =>
    .ite (.ok h) (.andThen fun _ => .ok h)

theorem execBotest_keepsMemory (acq : Bool) (o : OpM) : KeepsMemory s (execBotest acq o s) := by
  refine runWord_keepsMemory fun v => .bind (objects_yields ..) fun (a, rs, t) h => .onlyIf fun _ => ?_
  dsimp only
  split
  · exact (put_keeps ..).after h
  · exact .ite (.bind (push_keeps ..) fun _ h2 => .ok (h2.trans h)) (.ok h)

theorem execRainit_keepsMemory (o : OpM) : KeepsMemory s (execRainit o s) :=
  runWord_keepsMemory fun _ => .bind (operand_yields ..) fun _ h => .andThen fun _ => .andThen fun _ => .andThen fun _ =>
    .andThen fun _ => .ok ((State.objectActs_memory ..).trans h)

theorem ringWait_keepsMemory (free : Bool) (o : OpM) : KeepsMemory s (ringWait free o s) :=
  runWord_keepsMemory fun _ => .bind (objects_yields ..) fun _ h =>
    .onlyIf fun _ => .ite (.ok h) (.andThen fun _ => .ok h)

theorem execRarel_keepsMemory (o : OpA) : KeepsMemory s (execRarel o s) :=
  runWord_keepsMemory fun _ => .bind (objects_yields ..) fun _ h => .andThen fun _ =>
    .onlyIf fun _ => .ok ((State.objectActs_memory ..).trans h)

theorem execWpwait_keepsMemory (d : Reg) (ch : Fin 4) : KeepsMemory s (execWpwait d ch s) :=
  runWord_keepsMemory fun _ => .ite (.ok rfl) (.ite .error (.andThen fun _ => .andThen fun _ => .ok rfl))

theorem barWord_keepsMemory (n : Nat) {arrive : State → View → State} (w : Wait)
    (h : ∀ v, (arrive s v).memory = s.memory) : KeepsMemory s (barWord s n arrive w) :=
  runPrivileged_keepsMemory fun v => .ite (.ok rfl) (.ite .error (.andThen fun _ => .andThen fun _ => .ok (h v)))

theorem execFence_keepsMemory (k : FenceKind) (sc : Scope) : KeepsMemory s (execFence k sc s) :=
  runWord_keepsMemory fun _ => .ite (.ok rfl) (.ite (.andThen fun _ => .ok rfl) (.ok rfl))

theorem execTlwait_keepsMemory (d : Reg) (sc : Scope) (e : Fin 4) : KeepsMemory s (execTlwait d sc e s) :=
  runWord_keepsMemory fun _ => .ite (.ok rfl) (.andThen fun _ => .ite .error (.andThen fun _ => .ok rfl))

/-! Range tasks and dependence counters. -/

theorem State.logDiscards_memory (k : Cluster) (n : Nat) : (s.logDiscards k n).memory = s.memory := by
  induction n generalizing s with
  | zero => rfl
  | succ n ih => exact (ih _).trans (State.logError_memory ..)

theorem State.doChores_memory (cl : Nat) (cs : List Chore) : (s.doChores cl cs).memory = s.memory := by
  unfold State.doChores
  split
  · rfl
  · exact State.logDiscards_memory ..

theorem execTkget_keepsMemory (x : Bool) (d : Reg) : KeepsMemory s (execTkget x d s) :=
  runWord_keepsMemory fun _ => .ite (.ok rfl) (.andThen fun _ => .ok rfl)

theorem execTkput_keepsMemory (ar : Reg) : KeepsMemory s (execTkput ar s) :=
  runWord_keepsMemory fun _ => .andThen fun
    | none => .ok rfl
    | some _ => .ite .error (.andThen fun _ => .ite .error (.ok (State.doChores_memory ..)))

theorem execTkdone_keepsMemory (ar : Reg) : KeepsMemory s (execTkdone ar s) := by
  refine runWord_keepsMemory fun v => .andThen fun
    | none => .ok rfl
    | some r => ?_
  dsimp only
  split
  · exact .error
  · exact .ite .error (.andThen fun _ => .ok ((State.spend_memory ..).trans (ite_memory (State.doChores_memory ..) rfl)))

theorem execDcset_keepsMemory (ar : Reg) : KeepsMemory s (execDcset ar s) := by
  refine runWord_keepsMemory fun v => .andThen fun
    | none => .ok rfl
    | some ws => .ite .error (.andThen fun _ => .ite (.ok rfl) ?_)
  split
  · exact .ok rfl
  · exact .ite .error (.ok (State.doChores_memory ..))

theorem execDcdec_keepsMemory (o : OpA) : KeepsMemory s (execDcdec o s) :=
  runWord_keepsMemory fun _ => .bind (operand_yields ..) fun _ h => .ite .error (.andThen fun _ => .ite (.ok h)
    (.andThen fun _ => .ok ((foldl_memory (fun t _ => t.doChores_memory ..) ..).trans h)))

theorem execGcond_keepsMemory (n : Fin 8) (o : OpA) : KeepsMemory s (execGcond n o s) := by
  refine runWord_keepsMemory fun v => .bind (operand_yields ..) fun (a, t) h => .andThen fun
    | none => .ok h
    | some _ => .ok (Eq.trans ?_ h)
  split
  · split <;> rfl
  · rfl

/-! Loans. -/

theorem execLend_keepsMemory (o : OpA) : KeepsMemory s (execLend o s) :=
  runWord_keepsMemory fun _ => .bind (operand_yields ..) fun _ h => .andThen fun
    | none => .ok h
    | some _ => .ite .error (.ite (.ok h) (.ite (.ok ((State.startEclipse_memory ..).trans h)) (.ite (.ok h) (.ok h))))

theorem execRecall_keepsMemory (d : Reg) : KeepsMemory s (execRecall d s) :=
  runWord_keepsMemory fun _ => .ite (.ok rfl) (.ite .error (.andThen fun _ => .ok (State.startEclipse_memory ..)))

theorem execSwr_keepsMemory (sr : Reg) (o : OpA) : KeepsMemory s (execSwr sr o s) :=
  runWord_keepsMemory fun _ => .ite .error (.ok (ite_memory rfl rfl))

/-! Reflections. -/

theorem reflLanes_yields (v : View) (ap ar : Nat) (d : Lanes) :
    Yields (s.reflLanes v ap ar d) fun x => x.2.memory = s.memory := by
  unfold State.reflLanes
  split
  · exact .error
  · next h =>
    refine .ite .error ?_
    split
    · exact .error
    · exact .ok (operand_memory h)

theorem State.freeRefl_memory (n : Nat) (r : Refl) : (s.freeRefl n r).memory = s.memory :=
  foldl_memory (fun t _ => t.deliverResult_memory ..) ..

theorem State.unsubscribe_memory (n : Nat) (mark : Option Nat) : (s.unsubscribe n mark).memory = s.memory := by
  unfold State.unsubscribe
  split
  · rfl
  · dsimp only
    split
    · rfl
    · rfl
    · rfl
    · exact State.freeRefl_memory ..

theorem State.subscribe_memory (gid pd size : Nat) (lanes : List (Nat × Nat × Nat × Nat × Nat × Bool)) :
    (s.subscribe gid pd size lanes).memory = s.memory := by
  refine foldl_memory (fun t x => ?_) lanes s
  dsimp only
  split
  · rfl
  · exact ite_memory rfl rfl

theorem State.reflWalk_memory (gid : Nat) (g : Group) (lanes : List (Nat × Word × Nat)) :
    (s.reflWalk gid g lanes).memory = s.memory := by
  unfold State.reflWalk
  dsimp only
  split <;> rfl

/-- A translation that the TLB holds walks no table. -/
theorem State.translate_of_hit {core ctx va : Nat} {a : Access} (h : (s.tlbHit core ctx va a).isSome = true) :
    (s.translate core ctx va a).2 = s := by
  unfold State.translate
  split
  · rfl
  · next hnone => simp [hnone] at h

/-- A REFL whose translations are all held translates without reading memory. -/
theorem State.reflOutcomes_of_hits {core ctx : Nat} {lanes : List (Nat × Word × Nat)}
    (h : ∀ x ∈ lanes, (s.tlbHit core ctx x.2.2 .read).isSome = true) (lost : List Nat) :
    (s.reflOutcomes core ctx lanes lost).2 = s := by
  refine List.foldlRecOn (motive := fun r : List ((Nat × Word × Nat) × Outcome) × State => r.2 = s) lanes _ rfl
    fun r hr x hx => ?_
  dsimp only
  split
  · exact hr
  · rw [hr]
    exact s.translate_of_hit (h x hx)

theorem execRefl_keepsMemory (pd : Pred) (ar : Reg) (z : ReflSize) : KeepsMemory s (execRefl pd ar z s) := by
  refine runWord_keepsMemory fun v => .ite .error (.andThen fun _ => ?_)
  extract_lets lanes
  split
  · exact .error
  · refine .ite (.ok rfl) ?_
    split
    · next hall =>
      have hits := (s.spend v.g.team).reflOutcomes_of_hits (core := v.g.core) (ctx := v.g.ctx) (lanes := lanes)
        (List.all_eq_true.mp hall) []
      have hmem := congrArg State.memory hits
      split
      · exact .error
      · exact .ok hmem
      · exact .ok ((State.subscribe_memory ..).trans hmem)
    · exact .ok (State.reflWalk_memory ..)

theorem execUnrefl_keepsMemory (o : OpA) : KeepsMemory s (execUnrefl o s) := by
  refine runWord_keepsMemory fun v => .bind (reflLanes_yields ..) fun _ h => .ite (.ok h) (.andThen fun _ =>
    .andThen fun _ => .ok ((foldl_memory (fun t n => ?_) ..).trans h))
  exact ite_memory (State.unsubscribe_memory ..) rfl

theorem execRseq_keepsMemory (o : OpM) : KeepsMemory s (execRseq false o s) :=
  runWord_keepsMemory fun _ => .bind (reflLanes_yields ..) fun _ h => (put2_keeps ..).after h

theorem execRack_keepsMemory (o : OpM) : KeepsMemory s (execRack o s) := by
  refine runWord_keepsMemory fun v => .bind (reflLanes_yields ..) fun _ h => .andThen fun _ => .andThen fun _ =>
    .ite .error (.ok ((foldl_memory (fun t x => ?_) ..).trans h))
  split
  · rfl
  · exact ite_memory rfl rfl

/-! Handler groups. -/

theorem State.evalJoin_memory (gid a : Nat) : (s.evalJoin gid a).memory = s.memory := by
  unfold State.evalJoin
  split
  · rfl
  · dsimp only
    split
    · exact State.takeTrap_memory ..
    · rfl

@[simp] theorem State.evalJoins_memory (gid : Nat) : (s.evalJoins gid).memory = s.memory := by
  unfold State.evalJoins
  split
  · rfl
  · exact foldl_memory (fun t a => t.evalJoin_memory gid a) ..

@[simp] theorem State.checkDeadlock_memory (gid : Nat) : (s.checkDeadlock gid).memory = s.memory := by
  unfold State.checkDeadlock
  split
  · rfl
  · exact ite_memory (State.takeTrap_memory ..) rfl

@[simp] theorem State.checkExit_memory (gid : Nat) : (s.checkExit gid).memory = s.memory := by
  unfold State.checkExit
  split
  · rfl
  · exact ite_memory rfl rfl

@[simp] theorem State.logView_memory (gid : Nat) (g h : Group) : (s.logView gid g h).memory = s.memory :=
  foldl_memory (fun t _ => t.logBlock_memory ..) ..

theorem execTres_keepsMemory (o : OpA) : KeepsMemory s (execTres o s) := by
  refine runPrivileged_keepsMemory fun v => .bind (operand_yields ..) fun (a, t) h => .andThen fun
    | none => .ok h
    | some (_, keep) => ?_
  dsimp only
  split
  · exact .ok h
  · refine .ite (.ok h) (.ite .error (.andThen fun _ => .ok ?_))
    simpa using h

theorem execTkill_keepsMemory (team : Bool) : KeepsMemory s (execTkill team s) := by
  refine runPrivileged_keepsMemory fun v => .ite (.ok rfl) ?_
  dsimp only
  split
  · exact .ok rfl
  · exact .ite (.ok rfl) (.ok rfl)

/-! The matrix engine. -/

theorem execAgive_keepsMemory (t : Tile) (i64 : Bool) (o : OpA) : KeepsMemory s (execAgive t i64 o s) :=
  runWord_keepsMemory fun _ => .bind (operand_yields ..) fun _ h => .andThen fun
    | none => .ok h
    | some _ => .andThen fun _ => .andThen fun _ => .ite .error (.andThen fun _ => .ok h)

theorem execAtake_keepsMemory (t : Tile) (i64 : Bool) : KeepsMemory s (execAtake t i64 s) :=
  runWord_keepsMemory fun _ => .ite (.ok rfl) (.andThen fun _ => .ite .error (.andThen fun _ => .ok rfl))

theorem execAzero_keepsMemory (t : Tile) (o : OpA) : KeepsMemory s (execAzero t o s) :=
  runWord_keepsMemory fun _ => .bind (operand_yields ..) fun _ h => .andThen fun
    | none => .ok h
    | some _ => .andThen fun _ => .ite .error (.ite .error (.ok h))

theorem execMfmt_keepsMemory (n : Fin 8) (o : OpA) : KeepsMemory s (execMfmt n o s) :=
  runWord_keepsMemory fun _ => .bind (operand_yields ..) fun _ h => .andThen fun
    | none => .ok h
    | some _ => .ite .error (.ite .error (.ok h))

theorem ownScale_keeps (core ctx : Nat) : s.Keeps (s.ownScale core ctx) := .ite (.ok rfl) (.ite .error (.ok rfl))

theorem execMsld_keepsMemory (o : OpM) : KeepsMemory s (execMsld o s) :=
  runWord_keepsMemory fun _ => .bind (operand_yields ..) fun _ h => .andThen fun
    | none => .ok h
    | some _ => .ite .error (.ite .error (.ite .error (.andThen fun _ => .andThen fun _ =>
        .bind (ownScale_keeps ..) fun _ h2 => .ok (h2.trans h))))

theorem execAsts_keepsMemory (o : OpAst) : KeepsMemory s (execAsts o s) :=
  runWord_keepsMemory fun _ => .andThen fun
    | none => .ok rfl
    | some _ => .andThen fun _ => .andThen fun _ => .ite .error (.andThen fun _ => .andThen fun _ =>
        .ite (.ok (State.spadWrites_memory ..)) (.ok rfl))

theorem execAstc_keepsMemory (o : OpAst) : KeepsMemory s (execAstc o s) :=
  runWord_keepsMemory fun _ => .andThen fun
    | none => .ok rfl
    | some _ => .andThen fun _ => .andThen fun _ => .ite .error (.bind (pushCheck_keeps ..) fun _ h => .ok h)

theorem execAinfo_keepsMemory (d : Reg) (t : Tile) : KeepsMemory s (execAinfo d t s) :=
  runWord_keepsMemory fun _ => .ite (.ok rfl) (.andThen fun _ => put_keeps ..)

theorem mmaWord_keepsMemory (shape : Nat) (o : OpT) (sig : Option Nat) : KeepsMemory s (mmaWord shape o sig s) := by
  refine runWord_keepsMemory fun v => .ite (.ok rfl) (.andThen fun _ => .ite .error ?_)
  split
  · refine .ite .error (.ite .error (.ite .error (.ite .error ?_)))
    split
    · exact .error
    · exact .ite (.bind (ownScale_keeps ..) fun _ h => .ite .error (.ok (ite_memory h h)))
        (.ite .error (.ok (ite_memory rfl rfl)))
  · exact .error

end

/-! Every word. -/

theorem State.homeByte_of_memory {s t : State} (h : t.memory = s.memory) (stack off : Nat) :
    t.homeByte stack off = s.homeByte stack off := by
  rw [← t.homeByte_memory, h, s.homeByte_memory]

theorem State.sectorPsn_of_memory {s t : State} (h : t.memory = s.memory) (stack off : Nat) :
    t.sectorPsn stack off = s.sectorPsn stack off := by
  rw [← t.sectorPsn_memory, h, s.sectorPsn_memory]

/-- No event has an encoding, and every word but RSEQ.acq and LAUNCH leaves the memory alone. -/
theorem exec_keepsMemory {i : Instr} (henc : i.encoded = true) (hacq : ∀ x, i ≠ .rseq true x)
    (hlaunch : ∀ x, i ≠ .launch x) (s : State) : KeepsMemory s (exec i s) := by
  cases i
  case iadd | isub | orn | imul | imulh | lea | imin | imax | and | or | xor | andn | shl | shr | sar | rotl | bfx | prmt |
      imad | bfi | popc | clz | ctz | brev | iabs | ineg | mov | shlImm | shrImm | sarImm | rotlImm | iaddImm | movi |
      movl | pget =>
    exact exec_keepsMemory_of_intRule s nofun
  case fadd | fsub | fmul | badd2 | bmul2 | fmin | fmax | bmin2 | bmax2 | fpack | ffma | ffms | bfma2 | fabs | fneg |
      fclass | frnd | frcp | frsq | fsqrt | fexp2 | flog2 | fsin | fcos | ftanh | f2i | i2f | fcvtBf16F32 |
      fcvtF32Bf16 | fcvtF16F32 | fcvtE4m3F32 | fcvtE5m2F32 =>
    exact exec_keepsMemory_of_floatRule s nofun
  case iaddc | imadw | iadd64 | isub64 | shl64 | shr64 | funpack => exact exec_keepsMemory_of_pairRule s nofun
  case isetp | fsetp | pand | por | pxor | pnot => exact exec_keepsMemory_of_predRule s nofun
  case vote => exact execVote_keepsMemory ..
  case voteBallot | redux | fredux | scan | matchLanes | shfl => exact exec_keepsMemory_of_crossRule s nofun
  case pclrReg o => exact show KeepsMemory s (execPclrReg o s) from unaryWord_keepsMemory ..
  case sel => exact execSel_keepsMemory ..
  case pset => exact execPset_keepsMemory ..
  case pchkReg => exact execPchkReg_keepsMemory ..
  case pchkPred => exact execPchkPred_keepsMemory ..
  case pclrPred pd pa => exact execPclrPred_keepsMemory s pd pa
  case srd => exact execSrd_keepsMemory ..
  case winImm => exact execWinImm_keepsMemory ..
  case winReg => exact execWinReg_keepsMemory ..
  case ptn => exact execPtn_keepsMemory ..
  case qbind => exact execQbind_keepsMemory ..
  case lds | ldx => exact loadWord_keepsMemory ..
  case sts | stx => exact storeWord_keepsMemory ..
  case ldt => exact execLdt_keepsMemory ..
  case stt => exact execStt_keepsMemory ..
  case ldr => exact execLdr_keepsMemory ..
  case str => exact execStr_keepsMemory ..
  case atoms | atomx => exact atomWord_keepsMemory ..
  case cass | casx => exact casWord_keepsMemory ..
  case copy | copyl | gath | scat | bgath | bscat | mcast | cfence | atomc | redc | fill | waitc | signal | txload | txrun |
      pref =>
    exact postWord_keepsMemory ..
  case bra => exact execBra_keepsMemory ..
  case call => exact execCall_keepsMemory ..
  case brx | ret => exact computedJump_keepsMemory ..
  case nop => exact execNop_keepsMemory ..
  case join ar => exact execJoin_keepsMemory s ar
  case exit => exact execExit_keepsMemory ..
  case trap => exact execTrap_keepsMemory ..
  case sleep => exact execSleep_keepsMemory ..
  case ppt => exact execPpt_keepsMemory ..
  case boinit => exact execBoinit_keepsMemory ..
  case boarr => exact execBoarr_keepsMemory ..
  case bowait => exact execBowait_keepsMemory ..
  case botest => exact execBotest_keepsMemory ..
  case rainit => exact execRainit_keepsMemory ..
  case rawait | rawaitFree => exact ringWait_keepsMemory ..
  case rarel => exact execRarel_keepsMemory ..
  case wpwait => exact execWpwait_keepsMemory ..
  case bar n => exact show KeepsMemory s (execBar n s) from barWord_keepsMemory s _ _ fun _ => rfl
  case barc n => exact show KeepsMemory s (execBarc n s) from barWord_keepsMemory s _ _ fun _ => rfl
  case fence => exact execFence_keepsMemory ..
  case tlwait => exact execTlwait_keepsMemory ..
  case tkget => exact execTkget_keepsMemory ..
  case tkput => exact execTkput_keepsMemory ..
  case tkdone => exact execTkdone_keepsMemory ..
  case dcset => exact execDcset_keepsMemory ..
  case dcdec => exact execDcdec_keepsMemory ..
  case gcond => exact execGcond_keepsMemory ..
  case lend => exact execLend_keepsMemory ..
  case swr sr o => exact execSwr_keepsMemory s sr o
  case refl => exact execRefl_keepsMemory ..
  case unrefl => exact execUnrefl_keepsMemory ..
  case rack => exact execRack_keepsMemory ..
  case tres => exact execTres_keepsMemory ..
  case tkill => exact execTkill_keepsMemory ..
  case mmaK16 | mmaK8 | mmas | mmaSig | mmasSig => exact mmaWord_keepsMemory ..
  case agive => exact execAgive_keepsMemory ..
  case atake => exact execAtake_keepsMemory ..
  case azero => exact execAzero_keepsMemory ..
  case mfmt => exact execMfmt_keepsMemory ..
  case msld => exact execMsld_keepsMemory ..
  case asts => exact execAsts_keepsMemory ..
  case astc => exact execAstc_keepsMemory ..
  case ainfo => exact execAinfo_keepsMemory ..
  case rseq acq o =>
    cases acq
    · exact execRseq_keepsMemory ..
    · exact absurd rfl (hacq o)
  case launch o => exact absurd rfl (hlaunch o)
  -- the one word left is RECALL, whose constructor's name is a keyword of Mathlib; the events come after it
  next => exact execRecall_keepsMemory ..
  all_goals exact absurd henc Bool.false_ne_true

/-- Settles O8: what a word's body is made of changes no store that device and host memory is read from. REFL alone
translates addresses, and where it does so at once its core's TLB holds the translations, so that no table is read. -/
theorem wordsLeaveMemoryUnchanged : Obligations.WordsLeaveMemoryUnchanged := by
  unfold Obligations.WordsLeaveMemoryUnchanged
  intro i henc hacq hlaunch s t ht
  have h := (exec_keepsMemory henc hacq hlaunch s).of_next t ht
  have field {α : Type} (f : State → α) : f t.memory = f s.memory := congrArg f h
  exact ⟨field State.mem, field State.memPsn, field State.homes, field State.host, field State.hostPsn,
    fun stack off => ⟨State.homeByte_of_memory h stack off, State.sectorPsn_of_memory h stack off⟩⟩

end Sys2Proof.Machine
end

section
/-! PROOFS. Operands that are queue registers (spec 04_register_space.md R95 to R100, 14_queue.md R339): what a pop and a
push answer by the code of the register's binding. -/

namespace Sys2Proof.Machine

section
variable (s : State) (v : View)

/-! Sources. -/

theorem pop_status {c : Byte} (hc : c.toNat / 32 = 2) (n : Nat) :
    s.pop v c n = if (s.engine (engineKey v.g c)).status.length < n then .error (.stall (.pop c n))
      else .ok (((s.engine (engineKey v.g c)).status.take n).map PWord.ok, s.setEngine (engineKey v.g c)
        { s.engine (engineKey v.g c) with status := (s.engine (engineKey v.g c)).status.drop n }) := by
  unfold State.pop
  rw [hc]
  rfl

/-- Only status queues and range-task queues give words. -/
theorem pop_misdirected {c : Byte} (h2 : c.toNat / 32 ≠ 2) (h3 : c.toNat / 32 ≠ 3) (n : Nat) :
    s.pop v c n = .error (bindTrap v c) := by
  unfold State.pop
  split
  · next h => exact absurd h h2
  · next h => exact absurd h h3
  · rfl

variable {v} {r : Nat}

theorem operand_queue_idle (hr : isQueue r = true) (hl : v.lanes = []) (e : Nat) :
    s.operand v e r = .ok (fun _ => PWord.zero, s) := by
  simp [State.operand, hr, hl]

theorem operand_queue (hr : isQueue r = true) (hl : v.lanes ≠ []) (e : Nat) :
    s.operand v e r = (s.pop v (v.g.binding r) v.lanes.length).map fun x => (fun L => dealt v.lanes x.1 (v.src e L), x.2) := by
  simp only [State.operand, hr, List.isEmpty_eq_false_iff.mpr hl]
  cases s.pop v (v.g.binding r) v.lanes.length <;> rfl

/-! Destinations. -/

variable (v)

theorem pushCheck_command {c : Byte} (hc : c.toNat / 32 = 1) (n : Nat) :
    s.pushCheck v c n =
      if (s.bucket v.g.ctx (dieOf v.g.core)).level ≤ 0 then .error (.stall (.bucket (dieOf v.g.core)))
      else if s.commandRoom v.g.ctx v.g.core (c.toNat % 4) < n then .error (.stall (.push c n)) else .ok s := by
  have hq : c.toNat % 32 % 4 = c.toNat % 4 := Nat.mod_mod_of_dvd _ (by decide)
  unfold State.pushCheck
  simp only [hc, hq]

/-- Command queues, range-task queues and host rings alone take words. -/
theorem pushCheck_misdirected {c : Byte} (hc : c.toNat / 32 = 0 ∨ c.toNat / 32 = 2 ∨ 5 ≤ c.toNat / 32) (n : Nat) :
    s.pushCheck v c n = .error (bindTrap v c) := by
  unfold State.pushCheck
  dsimp only
  split
  · omega
  · omega
  · omega
  · rfl

variable {v}

theorem put_queue (hr : isQueue r = true) (hl : v.lanes ≠ []) (n : Nat) (f : Lanes) :
    s.put v r n f = s.push v (v.g.binding r) (some (s.now + n)) [] (v.lanes.map f) := by
  simp [State.put, hr, hl]

theorem push_refused {c : Byte} {ws : List PWord} {x : Stop} (h : s.pushCheck v c ws.length = .error x) (due : Option Nat)
    (srcs : List Nat) : s.push v c due srcs ws = .error x := by
  rw [State.push, h]

/-- A push to a queue that is no host ring holds its words in the group and the L pipe for each. -/
theorem push_held {c : Byte} {ws : List PWord} (h : s.pushCheck v c ws.length = .ok s) (hc : c.toNat / 32 ≠ 4)
    (due : Option Nat) (srcs : List Nat) :
    s.push v c due srcs ws = .ok ((s.hold v
      { code := c, words := ws, due := due, srcs := srcs, lanes := v.lanes, origin := v.o, seq := s.nextId }).occupy
        v.g.core 4 ws.length) := by
  have hring : (c.toNat / 32 == 4) = false := beq_false_of_ne hc
  simp [State.push, h, hring, State.hold]

end

/-- Settles O14: an operand is a pop and a result a push, and each of these is decided by the kind of the binding. -/
theorem queueOperands : Obligations.QueueOperands := by
  unfold Obligations.QueueOperands
  refine ⟨fun s v e r hr => ⟨fun hl => operand_queue_idle s hr hl e, fun hl hstatus => ⟨fun henough => ?_, fun hfew => ?_⟩,
    fun hl h2 h3 => ?_⟩, fun s v r n f hr hl => ⟨fun hcommand hlevel => ⟨fun hroom => ?_, fun hfull => ?_⟩,
      fun hcommand hlevel => ?_, fun hother => ?_⟩⟩
  · rw [operand_queue s hr hl, pop_status s v hstatus, if_neg (Nat.not_lt.mpr henough)]
    rfl
  · rw [operand_queue s hr hl, pop_status s v hstatus, if_pos hfew]
    rfl
  · rw [operand_queue s hr hl, pop_misdirected s v h2 h3]
    rfl
  · have hcheck : s.pushCheck v (v.g.binding r) (v.lanes.map f).length = .ok s := by
      rw [pushCheck_command s v hcommand, if_neg (Int.not_le.mpr hlevel), List.length_map, if_neg (Nat.not_lt.mpr hroom)]
    rw [put_queue s hr hl, push_held s hcheck (by omega), List.length_map]
    rfl
  · rw [put_queue s hr hl]
    refine push_refused s ?_ ..
    rw [pushCheck_command s v hcommand, if_neg (Int.not_le.mpr hlevel), List.length_map, if_pos hfull]
  · rw [put_queue s hr hl]
    refine push_refused s ?_ ..
    rw [pushCheck_command s v hcommand, if_pos hlevel]
  · rw [put_queue s hr hl]
    exact push_refused s (pushCheck_misdirected s v hother _) ..

end Sys2Proof.Machine
end

section
/-! PROOFS. Lane sets, the operand of the lowest enabled lane, and words that only some groups may execute (spec
03_encoding.md R60, 04_register_space.md R97, 17_faults.md R390, R392). -/

namespace Sys2Proof.Machine

/-! Lane sets. -/

theorem maskUpTo_lt (p : Nat → Bool) (n : Nat) : maskUpTo p n < 2 ^ n := by
  induction n with
  | zero => exact Nat.one_pos
  | succ n ih =>
    rw [maskUpTo, Nat.pow_succ]
    split <;> omega

theorem testBit_maskUpTo (p : Nat → Bool) (n k : Nat) : (maskUpTo p n).testBit k = (decide (k < n) && p k) := by
  induction n with
  | zero => simp [maskUpTo]
  | succ n ih =>
    have hlow := maskUpTo_lt p n
    rw [maskUpTo]
    rcases Nat.lt_trichotomy k n with hk | rfl | hk
    · have hbit : (maskUpTo p n + if p n then 2 ^ n else 0).testBit k = (maskUpTo p n).testBit k := by
        split
        · rw [Nat.add_comm, Nat.testBit_two_pow_add_gt hk]
        · rfl
      rw [hbit, ih]
      simp [hk, Nat.lt_succ_of_lt hk]
    · have hclear : (maskUpTo p k).testBit k = false := Nat.testBit_lt_two_pow hlow
      cases hp : p k
      · simp [hclear]
      · simp [Nat.add_comm, Nat.testBit_two_pow_add_eq, hclear]
    · have hbound : (maskUpTo p n + if p n then 2 ^ n else 0) < 2 ^ k := by
        have hpow : 2 ^ (n + 1) ≤ 2 ^ k := Nat.pow_le_pow_right (by decide) hk
        rw [Nat.pow_succ] at hpow
        split <;> omega
      rw [Nat.testBit_lt_two_pow hbound]
      simp only [Bool.false_eq, Bool.and_eq_false_iff, decide_eq_false_iff_not]
      exact .inl (by omega)

theorem getLsbD_maskOf (p : Nat → Bool) (L : Nat) : (maskOf p).getLsbD L = (decide (L < 32) && p L) := by
  rw [maskOf, BitVec.getLsbD_ofNat, testBit_maskUpTo, ← Bool.and_assoc, Bool.and_self]

/-- Only what a predicate says of the 32 lanes counts. -/
theorem maskOf_congr {p q : Nat → Bool} (h : ∀ L < 32, p L = q L) : maskOf p = maskOf q := by
  refine BitVec.eq_of_getLsbD_eq fun L hL => ?_
  rw [getLsbD_maskOf, getLsbD_maskOf, h L hL]

theorem lanesOf_maskOf (p : Nat → Bool) : lanesOf (maskOf p) = allLanes.filter p := by
  refine List.filter_congr fun L hL => ?_
  rw [getLsbD_maskOf, decide_eq_true (List.mem_range.mp hL), Bool.true_and]

theorem lanesOf_single {L : Nat} (hL : L < 32) : lanesOf (maskOf (· == L)) = [L] := by
  rw [lanesOf_maskOf, List.filter_beq, allLanes, List.count_eq_one_of_mem List.nodup_range (List.mem_range.mpr hL)]
  rfl

theorem View.mem_lanes {v : View} {L : Nat} : L ∈ v.lanes ↔ L < 32 ∧ v.on L = true := by
  rw [View.lanes, List.mem_filter, allLanes, List.mem_range]

theorem View.lanes_sorted (v : View) : v.lanes.Pairwise (· < ·) := List.pairwise_lt_range.filter _

theorem View.first_mem {v : View} {L : Nat} (h : v.first = some L) : L ∈ v.lanes := List.mem_of_mem_head? h

theorem View.first_least {v : View} {L J : Nat} (h : v.first = some L) (hJ : J ∈ v.lanes) : ¬ J < L := by
  obtain ⟨Ls, hlanes⟩ := List.head?_eq_some_iff.mp h
  have hsorted := v.lanes_sorted
  rw [hlanes] at hJ hsorted
  rcases List.mem_cons.mp hJ with rfl | hJ
  · exact Nat.lt_irrefl _
  · exact Nat.lt_asymm (List.rel_of_pairwise_cons hsorted hJ)

/-! The operand of the lowest enabled lane. -/

theorem View.single_idle {v : View} (h : v.lanes = []) (a : Lanes) : v.single a = .ok none := by
  simp [View.single, View.first, h]

theorem View.single_clean {v : View} {L : Nat} (h : v.first = some L) {a : Lanes} (hp : (a L).psn = false) :
    v.single a = .ok (some (L, (a L).val)) := by
  simp [View.single, h, hp]

theorem View.single_poisoned {v : View} {L : Nat} (h : v.first = some L) {a : Lanes} (hp : (a L).psn = true) :
    v.single a = .error (.trap { kind := 2, detail := BitVec.ofNat 32 L, tmask := maskOf (· == L) }) := by
  have hL : L < 32 := (View.mem_lanes.mp (View.first_mem h)).1
  simp [View.single, h, hp, poisonTrap, lanesOf_single hL]

theorem View.single_lowestWord {v : View} {i : Instr} {w : Word} (h : v.lowestWord i w) :
    ∃ L, v.single (v.source (Instr.srcA i)) = .ok (some (L, w)) := by
  obtain ⟨L, hL, hsource⟩ := h
  exact ⟨L, by rw [single_clean hL (by rw [hsource]; rfl), hsource]; rfl⟩

/-! Operands and stops. -/

/-- An operand that is no queue register is the source that the statements speak of. -/
theorem operand_source (s : State) (v : View) (e : Nat) {r : Nat} (hr : r < 28) :
    s.operand v e r = .ok (v.source (some (e, r)), s) := operand_plain s v e r hr

/-- With no lane enabled, an operand changes nothing. -/
theorem operand_idle {s t : State} {v : View} {e r : Nat} {a : Lanes} (hl : v.lanes = [])
    (h : s.operand v e r = .ok (a, t)) : t = s := by
  cases hr : isQueue r with
  | true =>
    rw [operand_queue_idle s hr hl] at h
    cases h
    rfl
  | false =>
    simp only [State.operand, hr] at h
    cases h
    rfl

theorem wordDone_trap (s : State) (o : Issue) (t : Trap) : s.wordDone o (.error (.trap t)) = s.trapAtIssue o t := rfl

/-- A group that may not execute a word takes the privilege trap, whatever its guards and enabled lanes (R97, R390). -/
theorem runPrivileged_refuses {s : State} {o : Issue} {g : Group} (hcur : s.cur = some o)
    (hg : lookup o.gid s.groups = some g) {may : Group → Bool} (hmay : may g = false) (body : View → Except Stop State) :
    runPrivileged s may body = .next (s.trapAtIssue o { kind := 5, tmask := (View.mk o g).en }) := by
  simp only [runPrivileged, runBare, hcur, hg, hmay]
  rfl

end Sys2Proof.Machine
end

section
/-! PROOFS. QBIND (spec 04_register_space.md R98, Table 4-3). -/

namespace Sys2Proof.Machine

theorem bindOk_iff (c : Byte) : bindOk c = true ↔ c.toNat / 32 = 4 ∨
    (c.toNat / 32 = 1 ∨ c.toNat / 32 = 2) ∧ c.toNat % 32 < 4 ∨ (c.toNat / 32 = 0 ∨ c.toNat / 32 = 3) ∧ c.toNat % 32 = 0 := by
  unfold bindOk
  dsimp only
  split
  case h_6 h0 h1 h2 h3 h4 =>
    simp only [Bool.false_eq_true, false_iff]
    rintro (h | ⟨h | h, -⟩ | ⟨h | h, -⟩)
    exacts [h4 h, h1 h, h2 h, h0 h, h3 h]
  all_goals simp only [beq_iff_eq, decide_eq_true_eq, true_iff]
  all_goals omega

theorem endUnit_qbind {g : Group} {n : Nat} {c : Byte} (h : g.deferred = [.qbind n c]) :
    g.endUnit = { g with qbind := g.qbind.set n c, deferred := [] } := by
  rw [Group.endUnit, h]
  rfl

theorem execQbind_refused {s : State} {o : Issue} {g : Group} (n : Fin 4) (x : OpA) (hcur : s.cur = some o)
    (hg : lookup o.gid s.groups = some g) (hpriv : g.priv = false) :
    execQbind n x s = .next (s.trapAtIssue o { kind := 5, tmask := (View.mk o g).en }) :=
  runPrivileged_refuses hcur hg hpriv _

section
variable {s t : State} {o : Issue} {g : Group} {x : OpA} {a : Lanes} {L : Nat}
variable (n : Fin 4) (hi : Issues s o g) (hpriv : g.priv = true) (ha : s.operand ⟨o, g⟩ x.ap.val x.ar.val = .ok (a, t))
include hi hpriv ha

/-- QBIND in a privileged group does what its operand in the lowest enabled lane says. -/
theorem execQbind_single : execQbind n x s = .next (s.wordDone o (match (View.mk o g).single a with
    | .error e => .error e
    | .ok none => .ok t
    | .ok (some (_, w)) =>
      if bindOk (w.truncate 8) then .ok (t.defer ⟨o, g⟩ [.qbind n.val (w.truncate 8)])
      else .error (.trap { kind := 3, detail := ((View.mk o g).bound n.val).zeroExtend 32, tmask := (View.mk o g).en }))) := by
  rw [execQbind, runPrivileged_issues hi _ hpriv]
  simp only [ha]
  rfl

theorem execQbind_idle (hl : (View.mk o g).lanes = []) : execQbind n x s = .next s.issued := by
  rw [execQbind_single n hi hpriv ha, View.single_idle hl, operand_idle hl ha]
  rfl

variable (hL : (View.mk o g).first = some L)
include hL

theorem execQbind_poisoned (hp : (a L).psn = true) : execQbind n x s = .next (s.trapAtIssue o
    { kind := 2, detail := BitVec.ofNat 32 L, tmask := maskOf (· == L) }) := by
  rw [execQbind_single n hi hpriv ha, View.single_poisoned hL hp]
  rfl

theorem execQbind_illegal (hp : (a L).psn = false) (hc : bindOk ((a L).val.truncate 8) = false) :
    execQbind n x s = .next (s.trapAtIssue o
      { kind := 3, detail := ((View.mk o g).bound n.val).zeroExtend 32, tmask := (View.mk o g).en }) := by
  rw [execQbind_single n hi hpriv ha, View.single_clean hL hp]
  simp only [hc]
  rfl

theorem execQbind_binds (hp : (a L).psn = false) (hc : bindOk ((a L).val.truncate 8) = true) :
    execQbind n x s = .next (t.defer ⟨o, g⟩ [.qbind n.val ((a L).val.truncate 8)]).issued := by
  rw [execQbind_single n hi hpriv ha, View.single_clean hL hp]
  simp only [hc]
  rfl

end

/-- Settles O17: QBIND is a privileged word that defers its binding where the lowest enabled lane gives a code of Table 4-3. -/
theorem qbindRebinds : Obligations.QbindRebinds := by
  unfold Obligations.QbindRebinds
  refine ⟨bindOk_iff, fun g n c h => endUnit_qbind h, fun n x s o g hcur hg =>
    ⟨execQbind_refused n x hcur hg, fun hpriv hguard a t ha => ?_⟩⟩
  have hi : Issues s o g := ⟨hcur, hg, hguard⟩
  exact ⟨execQbind_idle n hi hpriv ha, fun L hL => ⟨execQbind_poisoned n hi hpriv ha hL, fun hp =>
    ⟨execQbind_illegal n hi hpriv ha hL hp, execQbind_binds n hi hpriv ha hL hp⟩⟩⟩

end Sys2Proof.Machine
end

section
/-! PROOFS. WIN and PTN (spec 04_register_space.md R93, R94, R101): what they defer, what the end of their unit puts in force,
and the window trap. -/

namespace Sys2Proof.Machine

/-- The first element of a rising list that passes a test is the least that does. -/
theorem find?_least {l : List Nat} (hsorted : l.Pairwise (· < ·)) {p : Nat → Bool} {L : Nat} (hmem : L ∈ l) (hp : p L = true)
    (hleast : ∀ J ∈ l, J < L → p J = false) : l.find? p = some L := by
  obtain ⟨before, after, rfl⟩ := List.append_of_mem hmem
  refine List.find?_eq_some_iff_append.mpr ⟨hp, before, after, rfl, fun J hJ => ?_⟩
  have hlt : J < L := (List.pairwise_append.mp hsorted).2.2 J hJ L List.mem_cons_self
  rw [hleast J (List.mem_append_left _ hJ) hlt]
  rfl

section
variable (s : State) {v : View} {a : Lanes} (hclean : ∀ L ∈ v.lanes, (a L).psn = false)
include hclean

/-- Bases that keep v0 to v27 within the allotment are deferred. -/
theorem winBases_fit (hfit : ∀ L ∈ v.lanes, 8 * (a L).val.toNat + 28 ≤ v.g.regs) :
    winBases s v a = .ok (s.defer v (v.lanes.map fun L => .win L (a L).val.toNat)) := by
  unfold winBases
  dsimp only
  rw [List.find?_eq_none.mpr]
  intro L hL
  simp [hclean L hL, hfit L hL]

/-- The lowest lane whose window leaves the allotment decides the window trap. -/
theorem winBases_outside {L : Nat} (hL : L ∈ v.lanes) (hout : v.g.regs < 8 * (a L).val.toNat + 28)
    (hlow : ∀ J ∈ v.lanes, J < L → ¬ v.g.regs < 8 * (a J).val.toNat + 28) :
    winBases s v a = .error (.trap { kind := 4, detail := (a L).val
                                     tmask := maskOf fun J => v.on J && decide (v.g.regs < 8 * (a J).val.toNat + 28) }) := by
  have hmask : maskOf (fun J => v.on J && (if (a J).psn then 1 else if v.g.regs < 8 * (a J).val.toNat + 28 then 2 else 0) == 2) =
      maskOf fun J => v.on J && decide (v.g.regs < 8 * (a J).val.toNat + 28) := by
    refine maskOf_congr fun J hJ => ?_
    cases hon : v.on J with
    | false => rfl
    | true =>
      have hpsn := hclean J (View.mem_lanes.mpr ⟨hJ, hon⟩)
      by_cases h : v.g.regs < 8 * (a J).val.toNat + 28 <;> simp [hpsn, h]
  unfold winBases
  dsimp only
  rw [find?_least v.lanes_sorted hL]
  · simp only [hclean L hL, hout, if_true, Bool.false_eq_true, if_false, hmask]
    rfl
  · simp [hclean L hL, hout]
  · intro J hJ hlt
    simp [hclean J hJ, hlow J hJ hlt]

end

/-! The words. -/

section
variable {s : State} {o : Issue} {g : Group} (hi : Issues s o g)
include hi

theorem execWinImm_bases {n : Fin 16} {r : Except Stop State}
    (hr : winBases s ⟨o, g⟩ (fun _ => PWord.ok (BitVec.ofNat 32 n.val)) = r) : execWinImm n s = .next (s.wordDone o r) :=
  hr ▸ runWord_issues hi _

theorem execWinReg_bases {x : OpA} (hx : x.ar.val < 28) {r : Except Stop State}
    (hr : winBases s ⟨o, g⟩ ((View.mk o g).source (Instr.srcA (.winReg x))) = r) :
    execWinReg x s = .next (s.wordDone o r) := by
  rw [execWinReg, runWord_issues hi]
  simp only [operand_plain _ _ _ _ hx, ← hr]
  rfl

theorem execPtn_issues (e : Fin 8) {x : OpA} (hr : x.ar.val < 28) {w : Word} (hw : (View.mk o g).lowestWord (.ptn e x) w) :
    execPtn e x s = .next (if e.val = 0 then s else s.defer ⟨o, g⟩ [.ptn e.val (w.truncate 8)]).issued := by
  obtain ⟨L, hsingle⟩ := View.single_lowestWord hw
  have hoperand : s.operand ⟨o, g⟩ x.ap.val x.ar.val = .ok ((View.mk o g).source (Instr.srcA (.ptn e x)), s) :=
    operand_source s _ _ hr
  rw [execPtn, runWord_issues hi]
  simp only [hoperand, hsingle, wordDone_ok, beq_iff_eq]

end

/-- The base that WIN's immediate asks for is the immediate. -/
theorem toNat_winImm_base (n : Fin 16) : (PWord.ok (BitVec.ofNat 32 n.val)).val.toNat = n.val :=
  Nat.mod_eq_of_lt (by omega)

/-- WIN's immediate asks every lane for the same window. -/
theorem winBases_imm_outside (s : State) {v : View} {n : Fin 16} (hl : v.lanes ≠ []) (hout : v.g.regs < 8 * n.val + 28) :
    winBases s v (fun _ => PWord.ok (BitVec.ofNat 32 n.val)) =
      .error (.trap { kind := 4, detail := BitVec.ofNat 32 n.val, tmask := v.en }) := by
  obtain ⟨L, Ls, hlanes⟩ := List.exists_cons_of_ne_nil hl
  have hfirst : v.first = some L := by rw [View.first, hlanes, List.head?_cons]
  have hbases := winBases_outside s (v := v) (a := fun _ => PWord.ok (BitVec.ofNat 32 n.val)) (fun _ _ => rfl)
    (View.first_mem hfirst) (by rwa [toNat_winImm_base]) fun J hJ hlt => absurd hlt (View.first_least hfirst hJ)
  simp only [toNat_winImm_base, hout, decide_true, Bool.and_true] at hbases
  exact hbases

theorem winBases_imm_fit (s : State) {v : View} {n : Fin 16} (hfit : 8 * n.val + 28 ≤ v.g.regs) :
    winBases s v (fun _ => PWord.ok (BitVec.ofNat 32 n.val)) = .ok (s.defer v (v.lanes.map fun L => .win L n.val)) := by
  have hbases := winBases_fit s (v := v) (a := fun _ => PWord.ok (BitVec.ofNat 32 n.val)) (fun _ _ => rfl)
    fun _ _ => by rwa [toNat_winImm_base]
  simpa only [toNat_winImm_base] using hbases

/-! The end of the unit. -/

theorem thread_modThread_same {g : Group} {L : Nat} (hL : L < g.threads.length) (f : Thread → Thread) :
    (g.modThread L f).thread L = f (g.thread L) := by
  simp [Group.thread, Group.modThread, hL]

theorem thread_modThread_other {g : Group} {L J : Nat} (hJ : J ≠ L) (f : Thread → Thread) :
    (g.modThread L f).thread J = g.thread J := by
  simp [Group.thread, Group.modThread, hJ.symm]

theorem endUnit_win {g : Group} {L n : Nat} (h : g.deferred = [.win L n]) :
    g.endUnit = { g.modThread L fun t => { t with wbase := n } with deferred := [] } := by
  rw [Group.endUnit, h]
  rfl

theorem endUnit_ptn {g : Group} {e : Nat} {c : Byte} (h : g.deferred = [.ptn e c]) :
    g.endUnit = { g with ptab := g.ptab.set e c, deferred := [] } := by
  rw [Group.endUnit, h]
  rfl

/-- Settles O18: WIN's bases are deferred when every enabled lane's fits, and else the lowest lane that fails decides the trap;
what is deferred is applied at the end of the unit. -/
theorem windowsAndPatterns : Obligations.WindowsAndPatterns := by
  unfold Obligations.WindowsAndPatterns
  refine ⟨⟨fun n s o g hi hfit => execWinImm_bases hi (winBases_imm_fit s hfit),
      fun x hx s o g hi ⟨hclean, hfit⟩ => execWinReg_bases hi hx (winBases_fit s hclean hfit),
      fun e x w hx s o g hi hw => execPtn_issues hi e hx hw⟩,
    ⟨fun g L n hL h => ?_, fun g e c h => endUnit_ptn h⟩,
    fun n s o g hi hl hout => execWinImm_bases hi (winBases_imm_outside s hl hout),
    fun x s o g L hx hi hclean hL hout hlow => execWinReg_bases hi hx (winBases_outside s hclean hL hout hlow)⟩
  rw [endUnit_win h]
  exact ⟨congrArg Thread.wbase (thread_modThread_same hL _), rfl, fun J hJ => thread_modThread_other hJ _⟩

end Sys2Proof.Machine
end

section
/-! PROOFS. The end of a handler group (spec 17_faults.md R385, R388 to R390). -/

namespace Sys2Proof.Machine

/-- A group that its handler still serves has neither left Trapped nor been given to another handler. -/
theorem stays_trapped {h : Group} {gid : Nat} (hst : h.st = .trapped) (hhandler : h.handler = .running gid) :
    (h.st != .trapped || h.handler != .running gid) = false := by simp [hst, hhandler]

section
variable {s : State} {o : Issue} {g : Group} {hid : Nat} {h : Group} (hi : Issues s o g) (hserves : g.handles = some hid)
  (hh : lookup hid s.groups = some h) (hst : h.st = .trapped) (hhandler : h.handler = .running o.gid)
include hi hserves hh hst hhandler

/-- TRES of the handler of a trapped group whose lanes may all resume (R390). -/
theorem execTres_resumes {x : OpA} (hx : x.ar.val < 28) {keep : Word} (hkeep : (View.mk o g).lowestWord (.tres x) keep)
    (hreleases : (View.mk o g).releases) (hfit : ∀ L < 32, keep.getLsbD L = true → tresBad s ⟨o, g⟩ h L = false) :
    execTres x s = .next (((((s.logView hid g h).setGroup hid
      ((applyView g h (s.cyc g.core) keep).resume (s.cyc g.core) s.now)).endGroups [o.gid]).evalJoins hid).checkDeadlock hid
        |>.checkExit hid).issued := by
  obtain ⟨L, hsingle⟩ := View.single_lowestWord hkeep
  have hoperand : s.operand ⟨o, g⟩ x.ap.val x.ar.val = .ok ((View.mk o g).source (Instr.srcA (.tres x)), s) :=
    operand_source s _ _ hx
  have hbad : (allLanes.any fun L => keep.getLsbD L && tresBad s ⟨o, g⟩ h L) = false := by
    refine List.any_eq_false.mpr fun L hL => ?_
    cases hlane : keep.getLsbD L with
    | false => exact Bool.false_ne_true
    | true => rw [hfit L (List.mem_range.mp hL) hlane]; exact Bool.false_ne_true
  have hperformed : (View.mk o g).release = .ok () := if_pos (beq_iff_eq.mpr hreleases)
  rw [execTres, runPrivileged_issues hi _ (by rw [hserves]; rfl)]
  simp only [hoperand, hsingle, hserves, hh, stays_trapped hst hhandler, hbad, hperformed, bind, Except.bind, Option.getD_some]
  rfl

/-- TKILL of the handler of a trapped group (R390). -/
theorem execTkill_kills (team : Bool) (hl : (View.mk o g).lanes ≠ []) : execTkill team s =
    .next ((s.endGroups [o.gid]).endGroups (if team then s.barGroups h.team else [hid])).issued := by
  rw [execTkill, runPrivileged_issues hi _ (by rw [hserves]; rfl)]
  simp only [List.isEmpty_eq_false_iff.mpr hl, hserves, hh, stays_trapped hst hhandler, Option.getD_some]
  rfl

end

section
variable {s : State} {o : Issue} {g : Group} (hcur : s.cur = some o) (hg : lookup o.gid s.groups = some g)
  (hserves : g.handles = none)
include hcur hg hserves

theorem execTres_refused (x : OpA) : execTres x s = .next (s.trapAtIssue o { kind := 5, tmask := (View.mk o g).en }) :=
  runPrivileged_refuses hcur hg (by rw [hserves]; rfl) _

theorem execTkill_refused (team : Bool) :
    execTkill team s = .next (s.trapAtIssue o { kind := 5, tmask := (View.mk o g).en }) :=
  runPrivileged_refuses hcur hg (by rw [hserves]; rfl) _

end

/-- Settles O45: TRES and TKILL are privileged to handler groups, and with no check in their way they end theirs. -/
theorem handlersEnd : Obligations.HandlersEnd := by
  unfold Obligations.HandlersEnd
  refine ⟨⟨fun x keep hid h hx s o g hi ⟨hserves, hkeep, hh, hst, hhandler, hreleases, hfit⟩ =>
      execTres_resumes hi hserves hh hst hhandler hx hkeep hreleases hfit,
    fun team hid h s o g hi ⟨hl, hserves, hh, hst, hhandler⟩ => execTkill_kills hi hserves hh hst hhandler team hl⟩, ?_⟩
  rintro i (⟨x, rfl⟩ | ⟨team, rfl⟩) s o g hcur hg hserves
  · exact execTres_refused hcur hg hserves x
  · exact execTkill_refused hcur hg hserves team

end Sys2Proof.Machine
end

section
/-! PROOFS. Pushed words land, and commands are accepted (spec 04_register_space.md R96, 09_copy_command.md R198,
14_queue.md R339, R342). -/

namespace Sys2Proof.Machine

/-! Which push of a group lands next. -/

/-- The push that lands may land, none of its queue stands before it, and an earlier push that may land stands behind another
of its own queue; `seen` are the queues of the pushes already passed. -/
theorem landingPush_first {may : Push → Bool} {p : Push} : ∀ {ps : List Push} {seen : List Byte},
    landingPush may ps seen = some p → ∃ before after, ps = before ++ p :: after ∧ may p = true ∧ p.code ∉ seen ∧
      (∀ u ∈ before, u.code ≠ p.code) ∧
      ∀ b u b', before = b ++ u :: b' → may u = true → u.code ∈ seen ∨ ∃ w ∈ b, w.code = u.code
  | [], _, h => nomatch h
  | x :: ps, seen, h => by
    rw [landingPush] at h
    split at h
    · next hx =>
      cases h
      simp only [Bool.and_eq_true, Bool.not_eq_true', List.contains_eq_mem, decide_eq_false_iff_not] at hx
      obtain ⟨hseen, hmay⟩ := hx
      exact ⟨[], ps, rfl, hmay, hseen, nofun, fun b u b' hb => absurd hb (by simp)⟩
    · next hx =>
      obtain ⟨before, after, rfl, hmay, hseen, hbefore, hstay⟩ := landingPush_first h
      rw [List.mem_cons, not_or] at hseen
      refine ⟨x :: before, after, rfl, hmay, hseen.2, ?_, fun b u b' hb hu => ?_⟩
      · simpa using ⟨Ne.symm hseen.1, hbefore⟩
      · rcases List.cons_eq_append_iff.mp hb with ⟨rfl, hb⟩ | ⟨b, rfl, rfl⟩
        · cases hb
          simpa [hu] using hx
        · rcases hstay b u b' rfl hu with hmem | ⟨w, hw, hcode⟩
          · rcases List.mem_cons.mp hmem with hcode | hmem
            · exact .inr ⟨x, List.mem_cons_self, hcode.symm⟩
            · exact .inl hmem
          · exact .inr ⟨w, List.mem_cons_of_mem _ hw, hcode⟩

/-! What a landing push does, by the kind of its queue. -/

theorem execQueuePushLands_lands {s : State} {gid : Nat} {g : Group} {p : Push}
    (hg : lookup gid s.groups = some g) (hp : landingPush (s.pushMay g) g.pushes [] = some p) :
    execQueuePushLands gid s = .next (s.landPush gid g p) := by
  simp only [execQueuePushLands, hg, hp]

section
variable (s : State) (gid : Nat) (g : Group) {p : Push}

/-- Where some lanes' words are poisoned, the set of these lanes is not empty. -/
theorem badLanes_ne_zero {L : Nat} {Ls : List Nat} (h : lanesOf p.badLanes = L :: Ls) : (p.badLanes != 0) = true := by
  refine bne_iff_ne.mpr fun hzero => ?_
  rw [hzero, lanesOf_zero] at h
  cases h

theorem landPush_poisoned (hcode : p.code.toNat / 32 = 1 ∧ p.esize = 0 ∨ p.code.toNat / 32 = 3) {L : Nat} {Ls : List Nat}
    (hbad : lanesOf p.badLanes = L :: Ls) :
    s.landPush gid g p = (s.setGroup gid { g with pushes := g.pushes.erase p }).trapAtLanding p.origin
      { kind := 2, detail := BitVec.ofNat 32 L, tmask := p.badLanes } := by
  unfold State.landPush
  rcases hcode with ⟨hcode, hesize⟩ | hcode
  · simp only [hcode, hesize, badLanes_ne_zero hbad, hbad]
    rfl
  · simp only [hcode, badLanes_ne_zero hbad, hbad]
    rfl

theorem landPush_words (hcode : p.code.toNat / 32 = 1) (hesize : p.esize = 0) (hclean : p.badLanes = 0) :
    let t := s.setGroup gid { g with pushes := g.pushes.erase p }
    let key := engineId g.ctx g.core (p.code.toNat % 4)
    s.landPush gid g p = acceptAll 1024 key (t.setEngine key { t.engine key with
      queue := (t.engine key).queue ++ p.words.map fun w => ⟨w.val, gid, g.team, g.ctx⟩ }) := by
  simp only [State.landPush, hcode, hesize, hclean]
  rfl

theorem landPush_astc (hcode : p.code.toNat / 32 = 1) (hesize : p.esize ≠ 0) :
    s.landPush gid g p = (s.setGroup gid { g with pushes := g.pushes.erase p }).accept (engineId g.ctx g.core (p.code.toNat % 4))
      { core := g.core, e := p.code.toNat % 4, num := 0, words := p.words.map (·.val), gid := gid, team := g.team
        ctx := g.ctx, plan := p.plan, esize := p.esize } := by
  simp only [State.landPush, hcode]
  exact if_pos (bne_iff_ne.mpr hesize)

theorem landPush_record (hcode : p.code.toNat / 32 = 3) (hclean : p.badLanes = 0)
    (hrecord : recordOk g.code.words (p.words.map (·.val)) = true) :
    s.landPush gid g p = ((s.setGroup gid { g with pushes := g.pushes.erase p }).postTask (s.clusterOf g)
      (p.words.map (·.val))).spend g.team := by
  simp only [State.landPush, hcode, hclean, hrecord]
  rfl

theorem landPush_malformed (hcode : p.code.toNat / 32 = 3) (hclean : p.badLanes = 0)
    (hrecord : recordOk g.code.words (p.words.map (·.val)) = false) :
    s.landPush gid g p = (s.setGroup gid { g with pushes := g.pushes.erase p }).trapAtLanding p.origin
      { kind := 10, tmask := maskOf fun L => p.lanes.contains L } := by
  simp only [State.landPush, hcode, hclean, hrecord]
  rfl

theorem landPush_ring (hcode : p.code.toNat / 32 = 4) {k : Kernel} (hk : lookup (s.kernelOf g) s.kernels = some k) :
    let t := s.setGroup gid { g with pushes := g.pushes.erase p }
    s.landPush gid g p = t.setCore g.core { t.core g.core with
      outbound := (t.core g.core).outbound ++
        [⟨g.ctx, p.code.toNat % 32, (readAt ([], true) k.rings (p.code.toNat % 32)).1, p.words⟩] } := by
  simp only [State.landPush, hcode, hk]

end

/-! Acceptance (R198). -/

section
variable {s : State} {key : Nat}

theorem acceptAll_empty (fuel : Nat) (h : (s.engine key).queue = []) : acceptAll (fuel + 1) key s = s := by
  simp only [acceptAll, h]

variable {w : QWord} {ws : List QWord} (h : (s.engine key).queue = w :: ws)
include h

theorem acceptAll_partial (fuel : Nat) (hfew : (w :: ws).length < max 1 (cmdWords (w.val.toNat / 2 ^ 24))) :
    acceptAll (fuel + 1) key s = s := by
  simp only [acceptAll, h]
  exact if_pos hfew

theorem acceptAll_whole (fuel : Nat) (hall : max 1 (cmdWords (w.val.toNat / 2 ^ 24)) ≤ (w :: ws).length) :
    let n := max 1 (cmdWords (w.val.toNat / 2 ^ 24))
    acceptAll (fuel + 1) key s = acceptAll fuel key
      ((s.setEngine key { s.engine key with queue := (w :: ws).drop n }).accept key
        { core := key / 4 % 1024, e := key % 4, num := 0, words := ((w :: ws).take n).map (·.val), gid := w.gid
          team := w.team, ctx := w.ctx }) := by
  simp only [acceptAll, h]
  exact if_neg (Nat.not_lt.mpr hall)

end

theorem accept_eq (s : State) (key : Nat) (c : Cmd) :
    let posted := { c with num := (s.engine key).posted + 1 }
    let t := { s.setEngine key { s.engine key with posted := (s.engine key).posted + 1 } with
      cmds := insertAt s.nextId posted s.cmds, nextId := s.nextId + 1 }
    let rank := ((lookup c.team s.teams).map (·.rank)).getD 0
    let u := if spendsAtAccept posted rank then t.spend c.team else t
    s.accept key c = if cmdWords c.op = 0 ∧ c.esize = 0 then u.finish s.nextId 2 else u := by
  simp only [State.accept, Bool.and_eq_true, beq_iff_eq]

end Sys2Proof.Machine
end

section
/-! PROOFS. Commands start (spec 09_copy_command.md R204, R210, R225 to R230). -/

namespace Sys2Proof.Machine

/-! The start conditions (R225 to R227). -/

/-- An earlier command x of its engine context does not keep c from starting: x is no ACQ and c no REL, neither fences the
other's channel, and they run on different channels. -/
def Cmd.letsStart (x c : Cmd) : Prop :=
  x.acq = false ∧ c.rel = false ∧ (c.op = 8 → x.op ≠ 8 → bitOf (bitsOf (c.w 0) 10 4) x.ch = false) ∧
    (c.op ≠ 8 → x.op ≠ 8 → x.ch ≠ c.ch) ∧ (c.op ≠ 8 → x.op = 8 → bitOf (bitsOf (x.w 0) 10 4) c.ch = false)

theorem mem_earlier {s : State} {c x : Cmd} (h : x ∈ s.earlier c) :
    ∃ p ∈ s.cmds, p.2.key = c.key ∧ p.2.node = none ∧ p.2.num < c.num ∧ p.2 = x := by
  obtain ⟨p, hp, rfl⟩ := List.mem_map.mp h
  simp only [List.mem_filter, Bool.and_eq_true, beq_iff_eq, Option.isNone_iff_eq_none, decide_eq_true_eq] at hp
  obtain ⟨hmem, ⟨hkey, hnode⟩, hnum⟩ := hp
  exact ⟨p, hmem, hkey, hnode, hnum, rfl⟩

theorem stopped_eq_false {s : State} {ctx : Nat} (h : ∀ x, lookup ctx s.ctxs = some x → x.forced = false) :
    s.stopped ctx = false := by
  unfold State.stopped
  split
  · next x hx => exact h x hx
  · rfl

theorem mayStart_of_letsStart {s : State} {c : Cmd} (hst : c.st = .posted) (hstopped : s.stopped c.ctx = false)
    (hnode : c.node = none → (∀ x ∈ s.earlier c, x.letsStart c) ∧
      (c.rel = true → ∀ g, lookup c.gid s.groups = some g → g.remote = 0)) : s.mayStart c = true := by
  cases hn : c.node with
  | some node => simp [State.mayStart, hst, hstopped, hn]
  | none =>
    obtain ⟨hearlier, hperformed⟩ := hnode hn
    simp only [State.mayStart, hst, hstopped, hn, beq_self_eq_true, Option.isSome_none, Bool.not_false, Bool.true_and,
      Bool.false_or, Bool.and_eq_true]
    refine ⟨⟨⟨?channel, ?fenced⟩, ?acquired⟩, ?released⟩
    case channel =>
      split
      · next hop =>
        refine List.all_eq_true.mpr fun x hx => ?_
        obtain ⟨-, -, hfences, -, -⟩ := hearlier x hx
        by_cases hx8 : x.op = 8
        · simp [hx8]
        · simp [hfences (beq_iff_eq.mp hop) hx8]
      · next hop =>
        refine List.all_eq_true.mpr fun x hx => ?_
        obtain ⟨-, -, -, hch, -⟩ := hearlier x hx
        by_cases hx8 : x.op = 8
        · simp [hx8]
        · simp [hch (fun h => hop (beq_iff_eq.mpr h)) hx8]
    case fenced =>
      by_cases hop : c.op = 8
      · simp [hop]
      · refine Bool.or_eq_true_iff.mpr (.inr (List.all_eq_true.mpr fun x hx => ?_))
        obtain ⟨-, -, -, -, hfence⟩ := hearlier x hx
        by_cases hx8 : x.op = 8
        · simp [hfence hop hx8]
        · simp [hx8]
    case acquired =>
      refine List.all_eq_true.mpr fun x hx => ?_
      obtain ⟨hacq, -⟩ := hearlier x hx
      simp [hacq]
    case released =>
      cases hrel : c.rel with
      | false => rfl
      | true =>
        have hempty : s.earlier c = [] := List.eq_nil_iff_forall_not_mem.mpr fun x hx => by
          obtain ⟨-, hnot, -⟩ := hearlier x hx
          exact Bool.false_ne_true (hnot.symm.trans hrel)
        rw [hempty]
        split
        · next g hg => simp [hperformed hrel g hg]
        · rfl

/-! COMMAND_START (R230). -/

theorem marked_eq (s : State) (c : Cmd) :
    let t := if c.rel ∧ 4 ≤ c.scope then s.writeBackDie c.ctx (dieOf c.core) else s
    s.marked c = (t, { c with mark := (t.engine c.key).wp.getD c.ch 0, st := .moving }) := by
  simp only [State.marked, Bool.and_eq_true, decide_eq_true_eq]

/-- The first check that fails gives the status. -/
theorem Checks.status_of_ne_zero {k : Checks} (h : k.status ≠ 0) :
    k.status = if k.field then 3 else if k.format then 1 else if k.align then 4 else if k.bounds then 5 else 14 := by
  obtain ⟨field, format, align, bounds, psn⟩ := k
  revert field format align bounds psn
  decide

section
variable {s t : State} {n : Nat} {c0 c : Cmd} (hc : s.cmd n = some c0) (hmay : s.mayStart c0 = true)
include hc hmay

theorem execCommandStart_held {u : State} (hhold : s.startHold c0 = some u) : execCommandStart n s = .next u := by
  simp only [execCommandStart, hc, hmay, hhold]
  rfl

variable (hhold : s.startHold c0 = none) (hmark : s.marked c0 = (t, c))
include hhold hmark

theorem execCommandStart_checked (hop : c.op ≠ 2) : execCommandStart n s = .next
    (if (t.startChecks c).checks.status ≠ 0 then
      (t.setCmd n (t.startChecks c).cmd).finish n (t.startChecks c).checks.status
    else t.begin_ n (t.startChecks c).cmd) := by
  simp only [execCommandStart, hc, hmay, hhold, hmark, beq_false_of_ne hop, bne_iff_ne]
  rfl

theorem execCommandStart_badRecord (hop : c.op = 2) (hbad : c.addrBad false 3 = true ∨ c.w 3 % 64 ≠ 0) :
    execCommandStart n s = .next ((t.setCmd n (t.startCopyl c none).cmd).finish n (t.startCopyl c none).checks.status) := by
  have hrecord : (c.addrBad false 3 || c.w 3 % 64 != 0) = true := by simpa using hbad
  simp only [execCommandStart, hc, hmay, hhold, hmark, hop, hrecord]
  rfl

variable (hop : c.op = 2) (haddr : c.addrBad false 3 = false) (halign : c.w 3 % 64 = 0)
include hop haddr halign

theorem execCommandStart_cached {x : Nat × Nat × List Nat}
    (hcached : ((t.core c.core).layouts.find? fun x => x.1 == c.addr false 3 && x.2.1 == c.w 7 % 65536) = some x) :
    execCommandStart n s = .next (t.resolveCopyl n c x.2.2 false) := by
  simp only [execCommandStart, hc, hmay, hhold, hmark, hop, haddr, halign, hcached]
  rfl

theorem execCommandStart_reads
    (hcached : ((t.core c.core).layouts.find? fun x => x.1 == c.addr false 3 && x.2.1 == c.w 7 % 65536) = none) :
    execCommandStart n s = .next (t.setCmd n { c with unread := true, n := 0 }) := by
  simp only [execCommandStart, hc, hmay, hhold, hmark, hop, haddr, halign, hcached]
  rfl

end

/-- Settles O48. A landing push does what its binding's kind says, the queue of an engine context is taken command by command,
and a command that no earlier one and no granule holds back starts from its mark. -/
theorem commandsAreAcceptedAndStart : Obligations.CommandsAreAcceptedAndStart := by
  unfold Obligations.CommandsAreAcceptedAndStart
  refine ⟨⟨fun s gid g p hg hp => ?lands, fun may ps p h => ?first, fun s fuel key =>
    ⟨acceptAll_empty fuel, fun w ws h => ⟨acceptAll_partial h fuel, acceptAll_whole h fuel⟩⟩, accept_eq⟩,
    fun s n c0 hc hst hforced hnode => ?starts⟩
  case lands =>
    have hlands := execQueuePushLands_lands hg hp
    refine ⟨fun hcode hesize => ⟨fun L Ls hbad => ?_, fun hclean => ?_⟩, fun hcode hesize => ?_,
      fun hcode => ⟨fun L Ls hbad => ?_, fun hclean hrecord => ?_, fun hclean hrecord => ?_⟩, fun hcode k hk => ?_⟩
    · exact hlands.trans (congrArg _ (landPush_poisoned s gid g (.inl ⟨hcode, hesize⟩) hbad))
    · exact hlands.trans (congrArg _ (landPush_words s gid g hcode hesize hclean))
    · exact hlands.trans (congrArg _ (landPush_astc s gid g hcode hesize))
    · exact hlands.trans (congrArg _ (landPush_poisoned s gid g (.inr hcode) hbad))
    · exact hlands.trans (congrArg _ (landPush_record s gid g hcode hclean hrecord))
    · exact hlands.trans (congrArg _ (landPush_malformed s gid g hcode hclean hrecord))
    · exact hlands.trans (congrArg _ (landPush_ring s gid g hcode hk))
  case first =>
    obtain ⟨before, after, hps, hmay, -, hbefore, hstay⟩ := landingPush_first h
    exact ⟨before, after, hps, hmay, hbefore, fun b u b' hb hu => (hstay b u b' hb hu).resolve_left nofun⟩
  case starts =>
    have hmay : s.mayStart c0 = true := by
      refine mayStart_of_letsStart hst (stopped_eq_false hforced) fun hn => ⟨fun x hx => ?_, (hnode hn).2⟩
      obtain ⟨p, hp, hkey, hpn, hnum, rfl⟩ := mem_earlier hx
      exact (hnode hn).1 p hp hkey hpn hnum
    refine ⟨fun t ht => execCommandStart_held hc hmay ht, fun hhold => ?_⟩
    have hmark := marked_eq s c0
    refine ⟨fun hop => ⟨fun hfails => ?_, fun hpasses => ?_⟩, fun hop => ⟨execCommandStart_badRecord hc hmay hhold hmark hop,
      fun haddr halign => ⟨fun x => execCommandStart_cached hc hmay hhold hmark hop haddr halign,
        execCommandStart_reads hc hmay hhold hmark hop haddr halign⟩⟩⟩
    · refine (execCommandStart_checked hc hmay hhold hmark hop).trans ?_
      rw [if_pos hfails, Checks.status_of_ne_zero hfails]
    · refine (execCommandStart_checked hc hmay hhold hmark hop).trans ?_
      rw [if_neg (not_not.mpr hpasses)]

end Sys2Proof.Machine
end

section
/-! PROOFS. Address checks that trap (spec 08_scratchpad.md R191, R192). -/

namespace Sys2Proof.Machine

/-- Check k is the first, in the order of the checks, that some lane fails. -/
structure FirstFailed (lanes : List Nat) (check : Nat → Option Nat) (k : Nat) : Prop where
  failed : ∃ L ∈ lanes, check L = some k
  least : ∀ L ∈ lanes, ∀ j, check L = some j → k ≤ j

theorem FirstFailed.find {lanes : List Nat} {check : Nat → Option Nat} {k : Nat} (h : FirstFailed lanes check k)
    (hk : k ∈ List.range' 1 4) :
    ([1, 2, 3, 4].find? fun j => lanes.any fun L => check L == some j) = some k := by
  refine List.find?_range'_eq_some.mpr ⟨?_, hk, fun j _ hjk => ?_⟩
  · simpa using h.failed
  · have hpass : ∀ L ∈ lanes, check L ≠ some j := fun L hL hj => absurd (h.least L hL j hj) (Nat.not_le.mpr hjk)
    simpa using hpass

theorem addressTrap_firstFailed {lanes : List Nat} {check : Nat → Option Nat} {k : Nat} (h : FirstFailed lanes check k)
    (hk : k ∈ List.range' 1 4) (a : Lanes) :
    let bad := maskOf fun L => lanes.contains L && check L == some k
    let L0 := (lanesOf bad).headD 0
    addressTrap lanes check a = .error (.trap
      { kind := checkKind k, detail := if k = 1 then BitVec.ofNat 32 L0 else (a L0).val, tmask := bad }) := by
  simp only [addressTrap, h.find hk, beq_iff_eq]

/-- Scratchpad addresses have no access check: poison, bounds and alignment are all they can fail. -/
theorem spadCheck_code {s : State} {v : View} {lo : Bool} {n al k : Nat} {a : PWord}
    (h : spadCheck s v lo n al a = some k) : k = 1 ∨ k = 2 ∨ k = 4 := by
  unfold spadCheck at h
  split at h
  · exact .inl (Option.some.inj h).symm
  · split at h
    · exact .inr (.inl (Option.some.inj h).symm)
    · split at h
      · exact .inr (.inr (Option.some.inj h).symm)
      · cases h

/-- A check of the addresses that some enabled lane fails stops the word with the trap of the first such check. -/
theorem checked_firstFailed {s : State} {v : View} {lo : Bool} {n al k : Nat} {a : Lanes}
    (h : FirstFailed v.lanes (fun L => spadCheck s v lo n al (a L)) k) :
    let bad := maskOf fun L => v.lanes.contains L && spadCheck s v lo n al (a L) == some k
    let L0 := (lanesOf bad).headD 0
    s.checked v lo n al a = .error (.trap
      { kind := if k = 1 then 2 else if k = 2 then 14 else 16, tmask := bad
        detail := if k = 1 then BitVec.ofNat 32 L0 else (a L0).val }) := by
  obtain ⟨L, -, hL⟩ := h.failed
  have hcode := spadCheck_code hL
  have hk : k ∈ List.range' 1 4 := by rcases hcode with rfl | rfl | rfl <;> decide
  have hkind : checkKind k = if k = 1 then 2 else if k = 2 then 14 else 16 := by
    rcases hcode with rfl | rfl | rfl <;> rfl
  simp only [State.checked, addressTrap_firstFailed h hk, hkind]

theorem storeOperands_plain (s : State) (v : View) (x : OpMem) (ha : x.ar.val < 28) (hd : x.d.val < 28) :
    s.storeOperands v x = .ok (v.address x, fun L => v.g.reg L x.d.val, s) := by
  simp only [State.storeOperands, not_queue hd, operand_plain s v 0 _ ha]
  rfl

/-- A load whose address check stops it has no other effect. -/
theorem loadWord_stopped {s : State} {o : Issue} {g : Group} (h : Issues s o g) {x : OpMem} {lo : Bool} {e : Stop}
    (ha : x.ar.val < 28) (he : s.checked ⟨o, g⟩ lo x.bytes x.align (View.address ⟨o, g⟩ x) = .error e) :
    loadWord x lo s = .next (s.wordDone o (.error e)) := by
  have hop : s.operand ⟨o, g⟩ 0 x.ar.val = .ok (View.address ⟨o, g⟩ x, s) := operand_plain s ⟨o, g⟩ 0 _ ha
  rw [loadWord, runWord_issues h]
  simp only [hop, he]

/-- A store whose address check stops it has no other effect. -/
theorem storeWord_stopped {s : State} {o : Issue} {g : Group} (h : Issues s o g) {x : OpMem} {lo : Bool} {e : Stop}
    (ha : x.ar.val < 28) (hd : x.d.val < 28)
    (he : s.checked ⟨o, g⟩ lo x.bytes x.align (View.address ⟨o, g⟩ x) = .error e) :
    storeWord x lo s = .next (s.wordDone o (.error e)) := by
  rw [storeWord, runWord_issues h]
  simp only [storeOperands_plain s ⟨o, g⟩ x ha hd, he]

/-- Settles O24: the checks of the addresses come before every effect of the word, and the first that fails names the trap. -/
theorem addressTrapsInOrder : Obligations.AddressTrapsInOrder := by
  unfold Obligations.AddressTrapsInOrder
  intro x lo s o g k ha hd h v check i hfailed hleast bad L0 store
  have he := checked_firstFailed (s := s) (a := v.address x) ⟨hfailed, hleast⟩
  rw [← wordDone_trap]
  cases store with
  | false =>
    have hload : exec (i false) s = loadWord x lo s := by cases lo <;> rfl
    exact hload.trans (loadWord_stopped h ha he)
  | true =>
    have hstore : exec (i true) s = storeWord x lo s := by cases lo <;> rfl
    exact hstore.trans (storeWord_stopped h ha hd he)

end Sys2Proof.Machine
end

section
/-! PROOFS. Atomics (spec 08_scratchpad.md R195, R196, R370): one lane's step, and the lanes of a word at the issuing core. -/

namespace Sys2Proof.Machine

/-! Numbers of several words. -/

theorem wordsNat_lt (ws : List PWord) : wordsNat ws < 2 ^ (32 * ws.length) := by
  induction ws with
  | nil => exact Nat.one_pos
  | cons x xs ih =>
    have hx : x.val.toNat < 4294967296 := x.val.isLt
    have hcons : wordsNat (x :: xs) = x.val.toNat + 4294967296 * wordsNat xs := rfl
    have hpow : 2 ^ (32 * (x :: xs).length) = 4294967296 * 2 ^ (32 * xs.length) := by
      rw [List.length_cons, Nat.mul_succ, Nat.pow_add, Nat.mul_comm]
    rw [hcons, hpow]
    generalize wordsNat xs = m, 2 ^ (32 * xs.length) = q at ih
    omega

theorem toNat_ofNat_wordsNat {w : Nat} {ws : List PWord} (h : ws.length = w) :
    (BitVec.ofNat (32 * w) (wordsNat ws)).toNat = wordsNat ws := by
  subst h
  rw [BitVec.toNat_ofNat, Nat.mod_eq_of_lt (wordsNat_lt ws)]

/-- Only the low 32 n bits of a number are in its n words. -/
theorem natWords_ofNat (n v : Nat) : natWords n (BitVec.ofNat (32 * n) v).toNat = natWords n v := by
  refine List.map_congr_left fun i hi => congrArg PWord.ok (BitVec.eq_of_toNat_eq ?_)
  obtain ⟨m, rfl⟩ : ∃ m, n = i + 1 + m := Nat.exists_eq_add_of_le (List.mem_range.mp hi)
  have hpow : 2 ^ (32 * (i + 1 + m)) = 4294967296 ^ i * (2 ^ 32 * 2 ^ (32 * m)) := by
    rw [show (4294967296 : Nat) = 2 ^ 32 from rfl, ← Nat.pow_mul, ← Nat.pow_add, ← Nat.pow_add]
    congr 1
    omega
  rw [BitVec.toNat_ofNat, BitVec.toNat_ofNat, BitVec.toNat_ofNat, hpow, Nat.mod_mul_right_div_self,
    Nat.mod_mod_of_dvd _ (Nat.dvd_mul_right ..)]

theorem signExt_toNat {n : Nat} (x : BitVec n) : signExt n x.toNat = x.toInt := by
  have hlt := x.isLt
  rw [signExt, BitVec.toInt_eq_toNat_cond]
  cases n with
  | zero => simp [BitVec.of_length_zero]
  | succ n =>
    rw [Nat.add_sub_cancel, Nat.pow_succ]
    refine if_congr (by omega) rfl ?_
    push_cast
    rfl

/-! The new value of an atomic, as the bits of its words. -/

/-- The new value of an atomic whose old value is A and whose operand is B. -/
def atomBits (ty : AtomTy) (op : AtomOp) (A B : BitVec (32 * ty.words)) : BitVec (32 * ty.words) :=
  BitVec.ofNat _ (atomValue ty op A.toNat B.toNat)

section
variable {ty : AtomTy} (A B : BitVec (32 * ty.words))

theorem atomBits_of_toNat {op : AtomOp} {A B C : BitVec (32 * ty.words)}
    (h : atomValue ty op A.toNat B.toNat = C.toNat) : atomBits ty op A B = C := by
  rw [atomBits, h, BitVec.ofNat_toNat, BitVec.setWidth_eq]

theorem atomBits_exch : atomBits ty .exch A B = B := atomBits_of_toNat rfl

theorem atomBits_add (h : ty ≠ .f32) : atomBits ty .add A B = A + B := by
  refine atomBits_of_toNat ?_
  rw [BitVec.toNat_add]
  cases ty with
  | f32 => exact absurd rfl h
  | i32 | u32 | i64 => rfl

theorem atomBits_add_f32 (h : ty = .f32) : atomBits ty .add A B =
    BitVec.ofNat _ (toF32 ((f32 (BitVec.ofNat 32 A.toNat)).add (f32 (BitVec.ofNat 32 B.toNat)))).toNat := by
  subst h
  rfl

theorem atomBits_min_u32 (h : ty = .u32) : atomBits ty .min A B = if A ≤ B then A else B := by
  subst h
  refine atomBits_of_toNat ?_
  rw [apply_ite BitVec.toNat]
  rfl

theorem atomBits_max_u32 (h : ty = .u32) : atomBits ty .max A B = if A ≤ B then B else A := by
  subst h
  refine atomBits_of_toNat ?_
  rw [apply_ite BitVec.toNat]
  rfl

theorem atomBits_min_signed (h : ty = .i32 ∨ ty = .i64) :
    atomBits ty .min A B = if A.toInt ≤ B.toInt then A else B := by
  refine atomBits_of_toNat ?_
  rw [apply_ite BitVec.toNat, ← signExt_toNat, ← signExt_toNat]
  rcases h with rfl | rfl <;> rfl

theorem atomBits_max_signed (h : ty = .i32 ∨ ty = .i64) :
    atomBits ty .max A B = if A.toInt ≤ B.toInt then B else A := by
  have hswap : (if A.toInt ≤ B.toInt then B else A) = if B.toInt ≤ A.toInt then A else B := by
    rcases Int.lt_trichotomy A.toInt B.toInt with hlt | heq | hgt
    · rw [if_pos hlt.le, if_neg (Int.not_le.mpr hlt)]
    · rw [BitVec.eq_of_toInt_eq heq]
    · rw [if_neg (Int.not_le.mpr hgt), if_pos hgt.le]
  refine atomBits_of_toNat ?_
  rw [hswap, apply_ite BitVec.toNat, ← signExt_toNat, ← signExt_toNat]
  rcases h with rfl | rfl <;> rfl

theorem floatMinMax_words (mx : Bool) (A B : BitVec 32) : BitVec.ofNat 32 (floatMinMax fp32Spec mx A.toNat B.toNat) =
    BitVec.ofNat 32 (fminWord mx (BitVec.ofNat 32 A.toNat) (BitVec.ofNat 32 B.toNat)).toNat := by
  simp only [fminWord, BitVec.ofNat_toNat, BitVec.setWidth_eq]

theorem atomBits_min_f32 (h : ty = .f32) : atomBits ty .min A B =
    BitVec.ofNat _ (fminWord false (BitVec.ofNat 32 A.toNat) (BitVec.ofNat 32 B.toNat)).toNat := by
  subst h
  exact floatMinMax_words false A B

theorem atomBits_max_f32 (h : ty = .f32) : atomBits ty .max A B =
    BitVec.ofNat _ (fminWord true (BitVec.ofNat 32 A.toNat) (BitVec.ofNat 32 B.toNat)).toNat := by
  subst h
  exact floatMinMax_words true A B

theorem atomBits_and : atomBits ty .and A B = A &&& B := atomBits_of_toNat rfl

theorem atomBits_or : atomBits ty .or A B = A ||| B := atomBits_of_toNat rfl

theorem atomBits_xor : atomBits ty .xor A B = A ^^^ B := atomBits_of_toNat rfl

end

/-! One lane's step. -/

section
variable (s : State) (team core p : Nat)

@[simp] theorem State.length_spadWords (n : Nat) : (s.spadWords core p n).length = n := by simp [State.spadWords]

theorem atomStep_poisoned (x : OpAtom) (b : List PWord)
    (h : wordsPsn (s.spadWords core p x.ty.words) = true ∨ wordsPsn b = true) :
    (atomStep s team core p x b).2 = s.putWords team core p (List.replicate x.ty.words PWord.poison) := by
  simp only [atomStep, Bool.or_eq_true, if_pos h]

/-- Where neither the old words nor the operand's are poisoned, the new words are those of the atomic's bits. -/
theorem atomStep_new {x : OpAtom} {b : List PWord} (hlen : b.length = x.ty.words)
    (hold : wordsPsn (s.spadWords core p x.ty.words) = false) (hb : wordsPsn b = false)
    {op : AtomOp} {C : BitVec (32 * x.ty.words)} (hop : x.op = op)
    (hC : atomBits x.ty op (BitVec.ofNat _ (wordsNat (s.spadWords core p x.ty.words)))
      (BitVec.ofNat _ (wordsNat b)) = C) :
    (atomStep s team core p x b).2 = s.putWords team core p (natWords x.ty.words C.toNat) := by
  rw [← hC, ← hop, atomBits, natWords_ofNat, toNat_ofNat_wordsNat (s.length_spadWords ..), toNat_ofNat_wordsNat hlen]
  simp [atomStep, hold, hb]

theorem casStep_swaps (x : OpCas) (b : List PWord) {d : List PWord}
    (hold : wordsPsn (s.spadWords core p x.ty.words) = false) (hd : wordsPsn d = false)
    (heq : wordsNat (s.spadWords core p x.ty.words) = wordsNat d) :
    casStep s team core p x b d = (s.spadWords core p x.ty.words, s.putWords team core p (oneValue b)) := by
  simp [casStep, hold, hd, heq]

theorem casStep_keeps (x : OpCas) (b : List PWord) {d : List PWord}
    (h : wordsPsn (s.spadWords core p x.ty.words) = true ∨ wordsPsn d = true ∨
      wordsNat (s.spadWords core p x.ty.words) ≠ wordsNat d) :
    casStep s team core p x b d = (oneValue (s.spadWords core p x.ty.words), s) := by
  have hcond : (wordsPsn (s.spadWords core p x.ty.words) || wordsPsn d ||
      wordsNat (s.spadWords core p x.ty.words) != wordsNat d) = true := by
    simpa [or_assoc] using h
  rw [casStep, if_pos hcond]

theorem oneValue_clean {ws : List PWord} (h : wordsPsn ws = false) : oneValue ws = ws := by simp [oneValue, h]

theorem casStep_old (x : OpCas) (b d : List PWord) :
    (casStep s team core p x b d).1 = oneValue (s.spadWords core p x.ty.words) := by
  by_cases h : wordsPsn (s.spadWords core p x.ty.words) = true ∨ wordsPsn d = true ∨
      wordsNat (s.spadWords core p x.ty.words) ≠ wordsNat d
  · rw [casStep_keeps s team core p x b h]
  · simp only [not_or, Bool.not_eq_true, not_not] at h
    obtain ⟨hold, hd, heq⟩ := h
    rw [casStep_swaps s team core p x b hold hd heq, oneValue_clean hold]

end

/-! Several lanes' steps. -/

theorem stepLanes_map {α β : Type} (f : State → β → List PWord × State) (k : α → Nat) (e : α → β) (xs : List α)
    (s : State) : stepLanes f (xs.map fun x => (k x, e x)) s =
      stepLanes (fun t x => f t (e x)) (xs.map fun x => (k x, x)) s := by
  induction xs generalizing s with
  | nil => rfl
  | cons x xs ih => simp only [List.map_cons, stepLanes, ih]

theorem stepLanes_congr {α : Type} {f f' : State → α → List PWord × State} {xs : List (Nat × α)}
    (h : ∀ x ∈ xs, ∀ t, f t x.2 = f' t x.2) (s : State) : stepLanes f xs s = stepLanes f' xs s := by
  induction xs generalizing s with
  | nil => rfl
  | cons x xs ih =>
    have hx := h x List.mem_cons_self s
    have hxs := fun y hy => h y (List.mem_cons_of_mem _ hy)
    simp only [stepLanes, hx, ih hxs]

/-! The lanes of a word at the issuing core. -/

section
variable (s : State) (v : View) (d w : Nat) (a : Lanes) (step : State → Nat → Nat → List PWord × State)
  (op : List (Nat × SpadRef) → RemoteOp)

/-- The effect of an atomic at the issuing core whose lanes are taken in the passes ps. -/
def State.atomByPasses (ps : List (Nat × SpadRef) × List (Nat × SpadRef)) : State :=
  let r := stepLanes (fun t (x : Nat × SpadRef) => step t x.1 x.2.off) (ps.1.map fun x => (x.1, x)) s
  let p := max 1 (bankLanes ps.1)
  let q := bankLanes ps.2
  let later := fun L => ps.2.any (·.1 == L)
  (((if ps.2.isEmpty then r.2 else r.2.sendPass v (op ps.2) (2 * q) (12 + 2 * q)).receive v
    (loadResults v d w (fun L => if later L then none else some (s.now + 14 + 2 * (p - 1)))
      (fun L => if later L then s.nextId else 0) fun L => ((r.1.find? (·.1 == L)).map (·.2)).getD [])).useL v (2 * p))

theorem State.atomInPasses_eq : s.atomInPasses v d w a step op =
    s.atomByPasses v d w step op (Machine.passes (s.places v (4 * w) a)) := rfl

theorem State.atomEffect_eq : s.atomEffect v d w a step = s.atomByPasses v d w step op (s.places v (4 * w) a, []) := by
  have hsteps : s.atomics v w a step =
      stepLanes (fun t (x : Nat × SpadRef) => step t x.1 x.2.off) ((s.places v (4 * w) a).map fun x => (x.1, x)) s := by
    rw [State.atomics, State.places, List.map_map]
    exact (stepLanes_map (fun t (x : Nat × SpadRef) => step t x.1 x.2.off) id
      (fun L => (L, s.place v (4 * w) a L)) v.lanes s).symm
  simp only [State.atomEffect, hsteps]
  rfl

end

/-- The passes in which an atomic at the issuing core takes its lanes (R370). -/
def State.atomPasses (s : State) (v : View) (w : Nat) (a : Lanes) : List (Nat × SpadRef) × List (Nat × SpadRef) :=
  if v.g.shade && 16 < bankLanes (s.places v (4 * w) a) then Machine.passes (s.places v (4 * w) a)
  else (s.places v (4 * w) a, [])

theorem State.atomPasses_one {s : State} {v : View} {w : Nat} {a : Lanes} (h : s.onePass v w a) :
    s.atomPasses v w a = (s.places v (4 * w) a, []) := by
  refine if_neg ?_
  rw [Bool.and_eq_true, decide_eq_true_eq]
  rintro ⟨hshade, hbank⟩
  rcases h with hno | hfew
  · exact absurd (hshade.symm.trans hno) nofun
  · exact absurd hbank (Nat.not_lt.mpr hfew)

theorem State.atomPasses_two {s : State} {v : View} {w : Nat} {a : Lanes} (h : ¬ s.onePass v w a) :
    s.atomPasses v w a = Machine.passes (s.places v (4 * w) a) := by
  obtain ⟨hshade, hbank⟩ := not_or.mp h
  refine if_pos ?_
  rw [Bool.and_eq_true, decide_eq_true_eq]
  exact ⟨(Bool.not_eq_false _).mp hshade, Nat.not_le.mp hbank⟩

theorem State.atomPasses_subset {s : State} {v : View} {w : Nat} {a : Lanes} :
    (s.atomPasses v w a).1 ⊆ s.places v (4 * w) a := by
  unfold State.atomPasses
  split
  · rw [Machine.passes, List.partition_eq_filter_filter]
    exact List.filter_subset_self _
  · exact List.Subset.refl _

theorem loadResults_due {v : View} {d n : Nat} {due due' : Nat → Option Nat} {src src' : Nat → Nat}
    {f : Nat → List PWord} (h : ∀ L ∈ v.lanes, due L = due' L ∧ src L = src' L) :
    loadResults v d n due src f = loadResults v d n due' src' f :=
  loadResults_lanes fun L hL => ⟨(h L hL).1, (h L hL).2, rfl⟩

/-- The enabled lanes' places are none only where no lane is enabled. -/
theorem occupy_places (s t : State) (v : View) (n k : Nat) (a : Lanes) :
    (if v.lanes.isEmpty then t else t.occupy v.g.core 4 (issueCycles k (s.places v n a))) = t.useL v k := by
  rw [State.useL]
  split
  · rfl
  · next hl => rw [issueCycles, State.places, List.isEmpty_map, if_neg hl]

/-- An atomic whose lanes all lead to the issuing core acts there, in the passes that its banks need. -/
theorem atomicWord_own {s : State} {o : Issue} {g : Group} (h : Issues s o g) {lo : Bool} {d ar w : Nat}
    {near : View → Nat → SpadRef → State → List PWord × State} {far : View → List (Nat × SpadRef) → RemoteOp}
    {step : State → Nat → Nat → List PWord × State}
    (hnear : ∀ L (r : SpadRef) t, r.core = g.core → near ⟨o, g⟩ L r t = step t L r.off)
    (hpass : s.passes ⟨o, g⟩ lo (4 * w) (min (4 * w) 16) fun L => g.reg L ar)
    (hon : s.allOn ⟨o, g⟩ (4 * w) (fun L => g.reg L ar) g.core) :
    atomicWord s lo d ar w near far = .next (s.atomByPasses ⟨o, g⟩ d w step (far ⟨o, g⟩)
      (s.atomPasses ⟨o, g⟩ w fun L => g.reg L ar)).issued := by
  have hall := atCore_own hon
  have hcores := otherCores_own hon
  set ps := s.atomPasses ⟨o, g⟩ w fun L => g.reg L ar with hps
  rw [State.atomPasses] at hps
  have hsteps : stepLanes (fun t (x : Nat × SpadRef) => near ⟨o, g⟩ x.1 x.2 t) (ps.1.map fun x => (x.1, x)) s =
      stepLanes (fun t (x : Nat × SpadRef) => step t x.1 x.2.off) (ps.1.map fun x => (x.1, x)) s := by
    refine stepLanes_congr (fun x hx t => ?_) s
    obtain ⟨r, hr, rfl⟩ := List.mem_map.mp hx
    exact hnear r.1 r.2 t (places_core hon r (State.atomPasses_subset hr))
  rw [atomicWord, runWord_issues h]
  simp only [checked_places hpass, hall, hcores, ← hps, hsteps, List.foldl_nil, List.isEmpty_nil, if_true, wordDone_ok]
  rw [loadResults_due (due' := fun L => if ps.2.any (·.1 == L) then none
      else some (s.now + 14 + 2 * (max 1 (bankLanes ps.1) - 1)))
    (src' := fun L => if ps.2.any (·.1 == L) then s.nextId else 0) ?own]
  case own =>
    intro L hL
    have hcore := hon L hL
    cases ps.2.any (·.1 == L) <;> simp [find_place hL, hcore]
  exact congrArg (fun t : State => Host.Outcome.next t.issued) (occupy_places ..)

/-- An atomic at the issuing core whose checks pass, in one pass or two. -/
theorem atomicWord_completes {i : Instr} {lo : Bool} {d ar w : Nat}
    {near : View → Nat → SpadRef → State → List PWord × State} {far : View → List (Nat × SpadRef) → RemoteOp}
    {step : View → State → Nat → Nat → List PWord × State} (hi : ∀ s, exec i s = atomicWord s lo d ar w near far)
    (hnear : ∀ (v : View) L (r : SpadRef) t, r.core = v.g.core → near v L r t = step v t L r.off) :
    let a := fun (v : View) L => v.g.reg L ar
    let may := fun (s : State) (v : View) =>
      s.passes v lo (4 * w) (min (4 * w) 16) (a v) ∧ s.allOn v (4 * w) (a v) v.g.core
    Completes i (fun s v => may s v ∧ s.onePass v w (a v)) (fun s v => s.atomEffect v d w (a v) (step v)) ∧
    Completes i (fun s v => may s v ∧ ¬ s.onePass v w (a v)) fun s v =>
      s.atomInPasses v d w (a v) (step v) (far v) := by
  refine ⟨fun s o g h ⟨⟨hpass, hon⟩, hbank⟩ => ?_, fun s o g h ⟨⟨hpass, hon⟩, hbank⟩ => ?_⟩
  · rw [hi, atomicWord_own h (hnear ⟨o, g⟩) hpass hon, State.atomPasses_one hbank, ← State.atomEffect_eq]
  · rw [hi, atomicWord_own h (hnear ⟨o, g⟩) hpass hon, State.atomPasses_two hbank, ← State.atomInPasses_eq]

/-- Settles O23: an atomic at the issuing core acts in the passes of its banks, and one lane's step is that of its bits. -/
theorem atomics : Obligations.Atomics := by
  unfold Obligations.Atomics
  refine ⟨fun i d ar w step rest hi lo => ?words, fun s team core p x b hlen => ?atom, fun s team core p x b d => ?cas⟩
  case words =>
    obtain ⟨x, ⟨htrue, hfalse⟩, rfl, rfl, rfl, rfl, rfl⟩ | ⟨x, ⟨htrue, hfalse⟩, rfl, rfl, rfl, rfl, rfl⟩ := hi
    · have hexec : ∀ s, exec (i lo) s = atomWord x lo s := by
        intro s
        cases lo
        · rw [hfalse]; rfl
        · rw [htrue]; rfl
      simp only [atomWord] at hexec
      exact atomicWord_completes hexec fun v L r t hr => congrArg (atomStep t v.g.team · r.off x _) hr
    · have hexec : ∀ s, exec (i lo) s = casWord x lo s := by
        intro s
        cases lo
        · rw [hfalse]; rfl
        · rw [htrue]; rfl
      simp only [casWord] at hexec
      exact atomicWord_completes hexec fun v L r t hr => congrArg (casStep t v.g.team · r.off x _ _) hr
  case atom =>
    refine ⟨rfl, atomStep_poisoned s team core p x b, fun hold hb => ?_⟩
    have hnew := @atomStep_new s team core p x b hlen hold hb
    exact ⟨fun hop => hnew hop (atomBits_exch ..), fun hop hty => hnew hop (atomBits_add _ _ hty),
      fun hop hty => hnew hop (atomBits_add_f32 _ _ hty), fun hop hty => hnew hop (atomBits_min_u32 _ _ hty),
      fun hop hty => hnew hop (atomBits_max_u32 _ _ hty), fun hop hty => hnew hop (atomBits_min_signed _ _ hty),
      fun hop hty => hnew hop (atomBits_max_signed _ _ hty), fun hop hty => hnew hop (atomBits_min_f32 _ _ hty),
      fun hop hty => hnew hop (atomBits_max_f32 _ _ hty), fun hop => hnew hop (atomBits_and ..),
      fun hop => hnew hop (atomBits_or ..), fun hop => hnew hop (atomBits_xor ..)⟩
  case cas =>
    refine ⟨casStep_old s team core p x b d, fun hold hd heq => ?_, fun h => ?_⟩
    · rw [casStep_swaps s team core p x b hold hd heq]
    · rw [casStep_keeps s team core p x b h]

end Sys2Proof.Machine
end

section
/-! PROOFS. Commands finish (spec 09_copy_command.md R228, R229, R234, R235, 15_kernel.md R355, 16_context.md R371). -/

namespace Sys2Proof.Machine

/-! The timeline (R229). -/

/-- With fuel for every number, the advance takes all that follow TLDONE without a gap, and only those. -/
theorem advanceDone_takesRun (fuel d : Nat) (f : List Nat) (hfuel : f.length ≤ fuel) :
    let r := advanceDone fuel d f
    d ≤ r.1 ∧ (∀ k, d < k → k ≤ r.1 → k ∈ f) ∧ r.1 + 1 ∉ r.2 ∧ ∀ k, k ∈ r.2 ↔ k ∈ f ∧ ¬ (d < k ∧ k ≤ r.1) := by
  induction fuel generalizing d f with
  | zero =>
    obtain rfl := List.length_eq_zero_iff.mp (Nat.le_zero.mp hfuel)
    simp [advanceDone]
  | succ fuel ih =>
    by_cases hnext : d + 1 ∈ f
    · have hshorter : (f.filter (· != d + 1)).length ≤ fuel := by
        have : (f.filter (· != d + 1)).length < f.length :=
          List.length_filter_lt_length_iff_exists.mpr ⟨d + 1, hnext, by simp⟩
        omega
      obtain ⟨hle, hrun, hgap, hleft⟩ := ih (d + 1) _ hshorter
      simp only [advanceDone, List.contains_eq_mem, hnext, decide_true, if_true]
      simp only [List.mem_filter, bne_iff_ne] at hrun hleft
      refine ⟨by omega, fun k hk hkr => ?_, hgap, fun k => ?_⟩
      · by_cases hkd : k = d + 1
        · exact hkd ▸ hnext
        · exact (hrun k (by omega) hkr).1
      · rw [hleft]
        constructor
        · rintro ⟨⟨hk, hne⟩, hout⟩
          exact ⟨hk, by omega⟩
        · rintro ⟨hk, hout⟩
          exact ⟨⟨hk, by omega⟩, by omega⟩
    · simp only [advanceDone, List.contains_eq_mem, hnext, decide_false, Bool.false_eq_true, if_false]
      exact ⟨le_rfl, fun k hk hkr => absurd hkr (Nat.not_le.mpr hk), not_false,
        fun k => ⟨fun hk => ⟨hk, by omega⟩, And.left⟩⟩

theorem Engine.finishNum_takesRun (e : Engine) (n : Nat) :
    let e1 := e.finishNum n
    e.done ≤ e1.done ∧ (∀ k, e.done < k → k ≤ e1.done → k = n ∨ k ∈ e.finished) ∧ e1.done + 1 ∉ e1.finished ∧
    ∀ k, k ∈ e1.finished ↔ (k = n ∨ k ∈ e.finished) ∧ ¬ (e.done < k ∧ k ≤ e1.done) := by
  simp only [Engine.finishNum, ← List.mem_cons]
  exact advanceDone_takesRun (e.finished.length + 1) e.done (n :: e.finished) le_rfl

/-! Status records (R235). -/

theorem Engine.report_fits {e : Engine} (h : e.status.length ≤ 252) (c : Cmd) (code : Nat) :
    (e.report c code).ovf = false ∧ (e.report c code).status = e.status ++
      [BitVec.ofNat 32 c.num,
       BitVec.ofNat 32 (code + 256 * c.op + 65536 * c.ch + 2 ^ 30 * e.ovf.toNat + 2 ^ 31 * (statusT code).toNat),
       BitVec.ofNat 32 c.k, BitVec.ofNat 32 (c.k / 2 ^ 32 % 65536)] := by
  have hroom : ¬ 256 < e.status.length + 4 := by omega
  rw [Engine.report, if_neg hroom]
  exact ⟨rfl, rfl⟩

theorem Engine.report_overflows {e : Engine} (h : 252 < e.status.length) (c : Cmd) (code : Nat) :
    e.report c code = { e with ovf := true } := by
  rw [Engine.report, if_pos (by omega)]

/-! The completion object (R234). -/

section
variable {c : Cmd} {r : SpadRef}

theorem State.completionPlace_eq (s : State) (hmute : c.mute = false) (hgood : completionBad c.completion = false)
    (halign : c.completion % 16 = 0) (hkind : bitsOf c.completion 30 2 ≠ 0) :
    s.completionPlace c = s.cmdRef c false 16 (c.completion % 2 ^ 25) := by
  simp [State.completionPlace, hmute, hgood, halign, hkind]

theorem State.completionUpdate_none (s : State) (hkind : bitsOf c.completion 30 2 = 0) (code : Nat) :
    s.completionUpdate c code = s := by
  have hplace : s.completionPlace c = none := by simp [State.completionPlace, hkind]
  rw [State.completionUpdate, hplace]

theorem State.completionUpdate_arrives {s : State} (hplace : s.completionPlace c = some r)
    (hkind : bitsOf c.completion 30 2 = 1) (code : Nat) :
    s.completionUpdate c code = s.arrive c.team r.core r.off (-(c.bytes : Int)) (code != 0) := by
  rw [State.completionUpdate, hplace]
  simp only [hkind, beq_self_eq_true, if_true]

theorem State.completionUpdate_fills {s : State} (hplace : s.completionPlace c = some r)
    (hkind : bitsOf c.completion 30 2 = 2) (code : Nat) :
    s.completionUpdate c code = s.fillRing c.team r.core r.off (code != 0 && code != 8 && code != 9) := by
  rw [State.completionUpdate, hplace]
  simp only [hkind]
  rfl

end

/-! Lanes (R434 to R436). -/

theorem lookup_map {α β : Type} (f : α → β) (k : Nat) (m : List (Nat × α)) :
    lookup k (m.map (Prod.map id f)) = (lookup k m).map f := by
  induction m with
  | nil => rfl
  | cons p m ih =>
    simp only [List.map_cons, lookup, Prod.map_fst, Prod.map_snd, id]
    split
    · rfl
    · exact ih

/-- A lane as a command leaves it. -/
def TxLane.without (x : TxLane) (n : Nat) : TxLane :=
  if x.queue.contains n then
    let runs := x.busy && x.queue.head? == some n
    { x with queue := x.queue.filter (· != n), busy := x.busy && !runs
             table := if runs && x.owner.isNone then [] else x.table }
  else x

theorem State.leaveLanes_txlanes (s : State) (n : Nat) :
    (s.leaveLanes n).txlanes = s.txlanes.map (Prod.map id (·.without n)) := by
  refine List.map_congr_left fun p _ => ?_
  simp only [Prod.map, id, TxLane.without]
  split <;> rfl

theorem State.lookup_leaveLanes {s : State} {l : Nat} {x : TxLane} (h : lookup l s.txlanes = some x) (n : Nat) :
    lookup l (s.leaveLanes n).txlanes = some (x.without n) := by
  rw [State.leaveLanes_txlanes, lookup_map, h]
  rfl

theorem TxLane.without_of_notMem {x : TxLane} {n : Nat} (h : n ∉ x.queue) : x.without n = x := by
  simp [TxLane.without, h]

theorem TxLane.without_of_mem {x : TxLane} {n : Nat} (h : n ∈ x.queue) :
    (x.without n).queue = x.queue.filter (· ≠ n) ∧ (x.without n).owner = x.owner ∧
      (x.busy = true → x.queue.head? = some n →
        (x.without n).busy = false ∧ (x.without n).table = if x.owner = none then [] else x.table) ∧
      (x.busy = false ∨ x.queue.head? ≠ some n → (x.without n).busy = x.busy ∧ (x.without n).table = x.table) := by
  have hleaves : x.queue.contains n = true := List.contains_iff_mem.mpr h
  rw [TxLane.without, if_pos hleaves]
  refine ⟨List.filter_congr fun k _ => (decide_not ..).symm, rfl, fun hbusy hhead => ?_, fun hidle => ?_⟩
  · simp [hbusy, hhead]
  · have hruns : (x.busy && x.queue.head? == some n) = false := by simpa [or_iff_not_imp_left] using hidle
    simp [hruns]

/-! The finish actions in order (R234). -/

theorem State.settleLines_eq (s : State) (c : Cmd) :
    let wide := 4 ≤ c.scope ∧ c.st ≠ .posted
    let t := s.flush c c.line
    let u := if c.rel ∧ c.nc ∧ wide then t.writeBackDie c.ctx (dieOf c.core) else t
    s.settleLines c = if c.acq ∧ wide then u.dropDie c.ctx (dieOf c.core) else u := by
  simp only [State.settleLines, Bool.and_eq_true, decide_eq_true_eq, bne_iff_ne, and_assoc]

section
variable {s : State} {n : Nat} {c0 : Cmd} (hc : s.cmd n = some c0) (code : Nat)
include hc

theorem State.finish_late {later : Nat} (hlate : c0.late = some later) : s.finish n code = s.complete n c0 later := by
  simp only [State.finish, hc, hlate]

section
variable {c : Cmd} {t : State} (hlate : c0.late = none)
  (hcount : (if c0.st = .posted then { c0 with bytes := c0.wordCount } else c0) = c)
  (ht : (s.settleLines c).leaveLanes n = t)
include hlate hcount ht

/-- The copy of a graph node ends its node, with an error only where the program caused it (R355). -/
theorem State.finish_node {gr node : Nat} (hnode : c.node = some (gr, node)) : s.finish n code = { t with
    cmds := eraseAt n t.cmds
    graphs := modifyAt gr (fun g => { g with ended := g.ended ++
      [(node, if code ∈ [0, 8, 9] then 0 else if statusT code then 5 else failedQuietly)] }) t.graphs } := by
  have hfailing : (!failing code) = true ↔ code ∈ [0, 8, 9] := by simp [failing, or_iff_not_imp_left]
  rw [hlate] at hcount
  simp only [State.finish, hc, hlate, beq_iff_eq, hcount, ht, hnode, hfailing, State.nodeEnds]

/-- A command of a queue moves the write pointer, unless it is a CFENCE, and completes. -/
theorem State.finish_queue (hnode : c.node = none) :
    let e := t.engine c.key
    let d := { c with mark := if c.st = .posted then e.wp.getD c.ch 0 else c.mark }
    s.finish n code =
      (if c.op = 8 then t else t.setEngine c.key { e with wp := e.wp.set c.ch (d.mark + c.bytes) }).complete n d code := by
  rw [hlate] at hcount
  simp only [State.finish, hc, hlate, beq_iff_eq, hcount, ht, hnode]

end

end

/-- Settles O49: each action of the finish is as R234 has it, in its order. -/
theorem finishActions : Obligations.FinishActions := by
  unfold Obligations.FinishActions
  refine ⟨fun s n code c0 hc hlate => ?order, fun s n code later c hc hlate => State.finish_late hc code hlate,
    fun s n c code => ?complete, fun s n l x hx => ?lanes, fun s c code r hmute hgood halign hr => ?object,
    Engine.finishNum_takesRun, fun e c code => ⟨fun h => Engine.report_fits h c code, fun h => Engine.report_overflows h c code⟩⟩
  case order =>
    intro c wide t u s0
    have hs0 : (s.settleLines c).leaveLanes n = s0 := congrArg (State.leaveLanes · n) (s.settleLines_eq c)
    exact ⟨fun gr node hnode => State.finish_node hc code hlate rfl hs0 hnode, State.finish_queue hc code hlate rfl hs0⟩
  case complete =>
    refine ⟨fun t ht => ?_, fun hheld => ?_⟩
    · simp only [State.complete, ht]
    · simp only [State.complete, hheld, beq_iff_eq, Bool.or_eq_true, bne_iff_ne]
  case lanes =>
    refine ⟨fun hn => ?_, fun hn => ⟨_, State.lookup_leaveLanes hx n, TxLane.without_of_mem hn⟩⟩
    rw [State.lookup_leaveLanes hx, TxLane.without_of_notMem hn]
  case object =>
    have hplace := fun hkind => (s.completionPlace_eq hmute hgood halign hkind).trans hr
    exact ⟨fun hkind => s.completionUpdate_none hkind code,
      fun hkind => State.completionUpdate_arrives (hplace (by simp [hkind])) hkind code,
      fun hkind => State.completionUpdate_fills (hplace (by simp [hkind])) hkind code⟩

end Sys2Proof.Machine
end

section
/-! PROOFS. What a home write leaves in its line (spec 11_memory_model.md R269, 13_reflection.md R312, 17_faults.md R391,
19_stack_logic.md R421, R423). -/

namespace Sys2Proof.Machine

/-! Folds of which each step touches the place of its own key alone. -/

section
variable {σ α ι β : Type} {f : σ → α → σ} {g : σ → ι → β} {key : α → ι}
  (hother : ∀ x a i, key a ≠ i → g (f x a) i = g x i)
include hother

theorem foldl_untouched {l : List α} {i : ι} (hi : i ∉ l.map key) (x : σ) : g (l.foldl f x) i = g x i := by
  refine List.foldlRecOn (motive := fun y => g y i = g x i) l f rfl fun y hy a ha => ?_
  exact (hother y a i fun h => hi (h ▸ List.mem_map_of_mem ha)).trans hy

/-- What stands at the key of a step when all are done is what that step left, from what stood there at first. -/
theorem foldl_touched {l : List α} (hkeys : (l.map key).Nodup) {a : α} (ha : a ∈ l) (x : σ) :
    ∃ y, g y (key a) = g x (key a) ∧ g (l.foldl f x) (key a) = g (f y a) (key a) := by
  obtain ⟨l1, l2, rfl⟩ := List.append_of_mem ha
  simp only [List.map_append, List.map_cons, List.nodup_append, List.nodup_cons] at hkeys
  obtain ⟨-, ⟨hafter, -⟩, hbefore⟩ := hkeys
  refine ⟨l1.foldl f x, foldl_untouched hother (fun h => hbefore _ h _ List.mem_cons_self rfl) x, ?_⟩
  rw [List.foldl_append, List.foldl_cons]
  exact foldl_untouched hother hafter _

end

section
variable {α β : Type} [DecidableEq β] (d : β) (key : α → Nat) (val : α → β) {l : List α} (m : List (Nat × β))

theorem readAt_foldl_writeAt_ne {i : Nat} (hi : i ∉ l.map key) :
    readAt d (l.foldl (fun m a => writeAt d (key a) (val a) m) m) i = readAt d m i :=
  foldl_untouched (g := readAt d) (fun m a _ h => readAt_writeAt_ne d (val a) h.symm m) hi m

theorem readAt_foldl_writeAt {a : α} (hkeys : (l.map key).Nodup) (ha : a ∈ l) :
    readAt d (l.foldl (fun m a => writeAt d (key a) (val a) m) m) (key a) = val a := by
  obtain ⟨y, -, h⟩ := foldl_touched (g := readAt d) (fun m a _ h => readAt_writeAt_ne d (val a) h.symm m) hkeys ha m
  exact h.trans (readAt_writeAt_self d _ _ y)

end

/-! Operations that leave the memory as it is. -/

section
variable (s : State)

@[simp] theorem State.stackRequest_memory (stack off : Nat) : (s.stackRequest stack off).memory = s.memory := rfl
@[simp] theorem State.debit_memory (ctx die n : Nat) : (s.debit ctx die n).memory = s.memory := rfl
@[simp] theorem State.setRange_memory (r : WRange) : (s.setRange r).memory = s.memory := rfl

@[simp] theorem State.logMalformed_memory (stack : Nat) (offs : List Nat) : (s.logMalformed stack offs).memory = s.memory :=
  foldl_memory (fun t _ => t.logError_memory _) _ s

@[simp] theorem State.sendPush_memory (r : WRange) (n : Nat) (rel : Bool) : (s.sendPush r n rel).memory = s.memory := by
  unfold State.sendPush
  extract_lets subs all cores data psn s0
  refine foldl_memory (s := s0) (fun t c => ?_) cores
  extract_lets mine p t1
  exact ite_memory (s := t) rfl (foldl_memory (s := t1) (fun u q => u.debit_memory ..) mine)

@[simp] theorem State.pushRange_memory (r : WRange) (n : Nat) (rel : Bool) : (s.pushRange r n rel).memory = s.memory :=
  State.sendPush_memory ..

@[simp] theorem State.storeRange_memory (r : WRange) (rel : Bool) : (s.storeRange r rel).memory = s.memory := by
  unfold State.storeRange
  split
  · exact ite_memory rfl (s.pushRange_memory ..)
  · exact s.pushRange_memory ..

theorem State.homeEffects_memory (w : HomeWrite) : (s.homeEffects w).memory = s.memory := by
  have htouch : (s.touchLine w.stack w.line).memory = s.memory := ite_memory rfl rfl
  exact (foldl_memory (fun t r => t.storeRange_memory r w.rel) _ _).trans htouch

theorem State.fetchHome_memory (h : HomeLine) (k : Nat) : (s.fetchHome h k).2.memory = s.memory := by
  unfold State.fetchHome
  split
  · rfl
  · exact State.logMalformed_memory ..

end

section
variable {s t : State} (h : t.memory = s.memory) (stack off : Nat)
include h

theorem stackByte_of_memory : t.stackByte stack off = s.stackByte stack off := (congrArg (State.stackByte · stack off) h :)

theorem stackPsn_of_memory : t.stackPsn stack off = s.stackPsn stack off := (congrArg (State.stackPsn · stack off) h :)

theorem homeByte_of_memory : t.homeByte stack off = s.homeByte stack off := (congrArg (State.homeByte · stack off) h :)

theorem sectorPsn_of_memory : t.sectorPsn stack off = s.sectorPsn stack off := (congrArg (State.sectorPsn · stack off) h :)

end

/-! A home line over its stack. -/

/-- Byte i of the line that a home line is of: the home line's where its sector is valid, else the stack's. -/
def HomeLine.byteOver (h : HomeLine) (s : State) (i : Nat) : Byte :=
  if h.valid.getLsbD (i / 32) then readAt 0 h.data i else s.stackByte h.stack (128 * h.line + i)

/-- The poison of sector k of that line. -/
def HomeLine.psnOver (h : HomeLine) (s : State) (k : Nat) : Bool :=
  if h.valid.getLsbD k then h.psn.getLsbD k else s.stackPsn h.stack (128 * h.line + 32 * k)

/-- A home line of the same line that shows the same bytes and poison over the same memory. -/
structure HomeLine.Shows (h : HomeLine) (s : State) (h1 : HomeLine) (s1 : State) : Prop where
  stack : h1.stack = h.stack
  line : h1.line = h.line
  byte : ∀ i < 128, h1.byteOver s1 i = h.byteOver s i
  psn : ∀ k < 4, h1.psnOver s1 k = h.psnOver s k
  memory : s1.memory = s.memory
  valid : ∀ k, h.valid.getLsbD k = true → h1.valid.getLsbD k = true

theorem HomeLine.Shows.refl (h : HomeLine) (s : State) : h.Shows s h s :=
  ⟨rfl, rfl, fun _ _ => rfl, fun _ _ => rfl, rfl, fun _ h => h⟩

theorem HomeLine.Shows.trans {h h1 h2 : HomeLine} {s s1 s2 : State} (a : h.Shows s h1 s1) (b : h1.Shows s1 h2 s2) :
    h.Shows s h2 s2 :=
  ⟨b.stack.trans a.stack, b.line.trans a.line, fun i hi => (b.byte i hi).trans (a.byte i hi),
    fun k hk => (b.psn k hk).trans (a.psn k hk), b.memory.trans a.memory, fun k hk => b.valid k (a.valid k hk)⟩

section
variable (x : BitVec 4) (k j : Nat)

theorem getLsbD_sectorBit : (1#4 <<< k).getLsbD j = (decide (j < 4) && decide (j = k)) := by
  rw [BitVec.getLsbD_shiftLeft, Bool.eq_iff_iff]
  simp only [BitVec.getLsbD_one, Bool.and_eq_true, decide_eq_true_eq, Bool.not_eq_true', decide_eq_false_iff_not]
  omega

variable {k j}

theorem getLsbD_or_sectorBit_self (hk : k < 4) : (x ||| 1#4 <<< k).getLsbD k = true := by
  simp [hk]

theorem getLsbD_or_sectorBit_ne (h : j ≠ k) : (x ||| 1#4 <<< k).getLsbD j = x.getLsbD j := by
  rw [BitVec.getLsbD_or, getLsbD_sectorBit, decide_eq_false h, Bool.and_false, Bool.or_false]

theorem getLsbD_and_not_sectorBit_self : (x &&& ~~~(1#4 <<< k)).getLsbD k = false := by
  rw [BitVec.getLsbD_and, BitVec.getLsbD_not, getLsbD_sectorBit]
  simp

theorem getLsbD_and_not_sectorBit_ne (h : j ≠ k) : (x &&& ~~~(1#4 <<< k)).getLsbD j = x.getLsbD j := by
  rw [BitVec.getLsbD_and, BitVec.getLsbD_not, getLsbD_sectorBit, decide_eq_false h, Bool.and_false, Bool.not_false, Bool.and_true]
  exact Bool.and_eq_left_iff_imp.mpr fun hx => decide_eq_true (BitVec.lt_of_getLsbD hx)

end

theorem State.homeLine_eq_some {s : State} {stack line : Nat} {h : HomeLine} (hh : s.homeLine stack line = some h) :
    h.stack = stack ∧ h.line = line := by
  simpa using List.find?_some hh

theorem State.homeOr_line (s : State) (stack line : Nat) :
    (s.homeOr stack line).stack = stack ∧ (s.homeOr stack line).line = line := by
  unfold State.homeOr
  cases hh : s.homeLine stack line with
  | none => exact ⟨rfl, rfl⟩
  | some h => exact State.homeLine_eq_some hh

theorem State.homeByte_eq_byteOver (s : State) (stack line : Nat) {i : Nat} (hi : i < 128) :
    s.homeByte stack (128 * line + i) = (s.homeOr stack line).byteOver s i := by
  have hline : (128 * line + i) / 128 = line := by omega
  have hbyte : (128 * line + i) % 128 = i := by omega
  obtain ⟨hs, hl⟩ := s.homeOr_line stack line
  rw [HomeLine.byteOver, hs, hl]
  unfold State.homeByte State.homeOr
  rw [hline, hbyte]
  cases s.homeLine stack line with
  | none => simp
  | some h => rfl

theorem State.sectorPsn_eq_psnOver (s : State) (stack line : Nat) {k : Nat} (hk : k < 4) :
    s.sectorPsn stack (128 * line + 32 * k) = (s.homeOr stack line).psnOver s k := by
  have hline : (128 * line + 32 * k) / 128 = line := by omega
  have hsector : (128 * line + 32 * k) % 128 / 32 = k := by omega
  obtain ⟨hs, hl⟩ := s.homeOr_line stack line
  rw [HomeLine.psnOver, hs, hl]
  unfold State.sectorPsn State.homeOr
  rw [hline, hsector]
  cases s.homeLine stack line with
  | none => simp
  | some h => rfl

/-! What the line takes from the stack before a write. -/

/-- The home line that fetchHome leaves where it goes to the stack. -/
theorem State.fetchHome_of_invalid (s : State) {h : HomeLine} {k : Nat} (hv : h.valid.getLsbD k = false) :
    (s.fetchHome h k).1 = { h with
      data := (List.range 32).foldl
        (fun d j => writeAt 0 (32 * k + j) (s.stackByte h.stack (128 * h.line + 32 * k + j)) d) h.data
      valid := h.valid ||| 1#4 <<< k
      psn := if s.stackPsn h.stack (128 * h.line + 32 * k) then h.psn ||| 1#4 <<< k else h.psn &&& ~~~(1#4 <<< k) } := by
  simp only [State.fetchHome, hv]
  rfl

theorem State.fetchHome_shows (s : State) (h : HomeLine) {k : Nat} (hk : k < 4) :
    h.Shows s (s.fetchHome h k).1 (s.fetchHome h k).2 ∧ (s.fetchHome h k).1.valid.getLsbD k = true := by
  cases hv : h.valid.getLsbD k with
  | true =>
    have hkept : s.fetchHome h k = (h, s) := by rw [State.fetchHome, if_pos hv]
    rw [hkept]
    exact ⟨.refl h s, hv⟩
  | false =>
    have hmem := s.fetchHome_memory h k
    rw [s.fetchHome_of_invalid hv]
    refine ⟨⟨rfl, rfl, fun i hi => ?byte, fun j hj => ?psn, hmem, fun j hj => ?kept⟩, ?fetched⟩
    case byte =>
      simp only [HomeLine.byteOver, stackByte_of_memory hmem]
      by_cases hik : i / 32 = k
      · have hi' : 32 * k + i % 32 = i := by omega
        have hread := readAt_foldl_writeAt (0 : Byte) (32 * k + ·)
          (fun j => s.stackByte h.stack (128 * h.line + 32 * k + j)) (l := List.range 32) h.data (a := i % 32)
          (List.nodup_range.map fun a b hab => Nat.add_left_cancel hab) (List.mem_range.mpr (by omega))
        rw [hi', Nat.add_assoc, hi'] at hread
        rw [hik, getLsbD_or_sectorBit_self _ hk, hv]
        exact hread
      · have hout : i ∉ (List.range 32).map (32 * k + ·) := by simp; omega
        rw [getLsbD_or_sectorBit_ne _ hik, readAt_foldl_writeAt_ne (0 : Byte) _ _ h.data hout]
    case psn =>
      simp only [HomeLine.psnOver, stackPsn_of_memory hmem]
      by_cases hjk : j = k
      · subst hjk
        rw [getLsbD_or_sectorBit_self _ hk, hv]
        cases s.stackPsn h.stack (128 * h.line + 32 * j)
        · exact getLsbD_and_not_sectorBit_self _
        · exact getLsbD_or_sectorBit_self _ hk
      · rw [getLsbD_or_sectorBit_ne _ hjk]
        cases s.stackPsn h.stack (128 * h.line + 32 * k)
        · exact congrArg (if h.valid.getLsbD j then · else _) (getLsbD_and_not_sectorBit_ne _ hjk)
        · exact congrArg (if h.valid.getLsbD j then · else _) (getLsbD_or_sectorBit_ne _ hjk)
    case kept => rw [BitVec.getLsbD_or, hj, Bool.true_or]
    case fetched => exact getLsbD_or_sectorBit_self _ hk

/-- The sectors that a write covers in part are all there once they have been fetched. -/
theorem foldl_fetchHome_shows (ks : List Nat) (hks : ∀ k ∈ ks, k < 4) (h : HomeLine) (s : State) :
    let r := ks.foldl (fun (r : HomeLine × State) k => r.2.fetchHome r.1 k) (h, s)
    h.Shows s r.1 r.2 ∧ ∀ k ∈ ks, r.1.valid.getLsbD k = true := by
  induction ks generalizing h s with
  | nil => exact ⟨.refl h s, nofun⟩
  | cons k ks ih =>
    obtain ⟨hfirst, hvalid⟩ := s.fetchHome_shows h (hks k List.mem_cons_self)
    obtain ⟨hrest, hall⟩ := ih (fun j hj => hks j (List.mem_cons_of_mem _ hj)) (s.fetchHome h k).1 (s.fetchHome h k).2
    refine ⟨hfirst.trans hrest, fun j hj => ?_⟩
    obtain rfl | hj := List.mem_cons.mp hj
    · exact hrest.valid _ hvalid
    · exact hall j hj

/-! The line with the write. -/

theorem HomeWrite.mem_sectors {w : HomeWrite} {k : Nat} : k ∈ w.sectors ↔ k < 4 ∧ (k ∈ w.psn ∨ ∃ b ∈ w.bytes, b.1 / 32 = k) := by
  simp [HomeWrite.sectors]

theorem HomeWrite.sectors_nodup (w : HomeWrite) : w.sectors.Nodup := List.nodup_range.filter _

/-- The bytes of a write within its line lie in its sectors. -/
theorem HomeWrite.sector_mem {w : HomeWrite} {b : Nat × Byte} (hb : b ∈ w.bytes) (hline : b.1 < 128) : b.1 / 32 ∈ w.sectors :=
  mem_sectors.mpr ⟨by omega, .inr ⟨b, hb, rfl⟩⟩

theorem HomeWrite.whole_iff {w : HomeWrite} {k : Nat} : w.whole k = true ↔ ∀ j < 32, ∃ b ∈ w.bytes, b.1 = 32 * k + j := by
  simp [HomeWrite.whole]

/-- The step that HomeLine.apply takes for a sector. -/
def HomeLine.take (h : HomeLine) (w : HomeWrite) (k : Nat) : HomeLine :=
  let bit : BitVec 4 := 1#4 <<< k
  { h with
    valid := h.valid ||| bit, dirty := h.dirty ||| bit
    psn := if w.psn.contains k then h.psn ||| bit else if w.whole k then h.psn &&& ~~~bit else h.psn }

theorem HomeLine.apply_eq (h : HomeLine) (w : HomeWrite) : h.apply w =
    w.sectors.foldl (·.take w ·) { h with data := w.bytes.foldl (fun d b => writeAt 0 b.1 b.2 d) h.data } := rfl

/-- What no sector's step changes. -/
theorem HomeLine.apply_fields (h : HomeLine) (w : HomeWrite) : (h.apply w).stack = h.stack ∧ (h.apply w).line = h.line ∧
    (h.apply w).data = w.bytes.foldl (fun d b => writeAt 0 b.1 b.2 d) h.data := by
  rw [HomeLine.apply_eq]
  exact List.foldlRecOn (motive := fun x : HomeLine => x.stack = h.stack ∧ x.line = h.line ∧
    x.data = w.bytes.foldl (fun d b => writeAt 0 b.1 b.2 d) h.data) _ _ ⟨rfl, rfl, rfl⟩ fun _ hx _ _ => hx

section
variable (h : HomeLine) (w : HomeWrite) {k : Nat}

theorem HomeLine.take_psn_ne {j : Nat} (hjk : k ≠ j) : (h.take w k).psn.getLsbD j = h.psn.getLsbD j := by
  simp only [HomeLine.take]
  split
  · exact getLsbD_or_sectorBit_ne _ hjk.symm
  · split
    · exact getLsbD_and_not_sectorBit_ne _ hjk.symm
    · rfl

/-- A sector written poisoned is so; one written whole is clean; any other keeps what it had (R391). -/
theorem HomeLine.take_psn_self (hk : k < 4) : (h.take w k).psn.getLsbD k =
    if k ∈ w.psn then true else if w.whole k then false else h.psn.getLsbD k := by
  simp only [HomeLine.take, List.contains_iff_mem]
  split
  · exact getLsbD_or_sectorBit_self _ hk
  · split
    · exact getLsbD_and_not_sectorBit_self _
    · rfl

variable {w} (hk : k ∈ w.sectors)
include hk

theorem HomeLine.apply_valid : (h.apply w).valid.getLsbD k = true := by
  obtain ⟨y, -, hlast⟩ := foldl_touched (f := fun (x : HomeLine) k => x.take w k) (g := fun x j => x.valid.getLsbD j) (key := id)
    (fun x k j hkj => getLsbD_or_sectorBit_ne x.valid (Ne.symm hkj)) (by simpa using w.sectors_nodup) hk
    { h with data := w.bytes.foldl (fun d b => writeAt 0 b.1 b.2 d) h.data }
  exact hlast.trans (getLsbD_or_sectorBit_self _ (HomeWrite.mem_sectors.mp hk).1)

theorem HomeLine.apply_psn :
    (h.apply w).psn.getLsbD k = if k ∈ w.psn then true else if w.whole k then false else h.psn.getLsbD k := by
  obtain ⟨y, hfirst, hlast⟩ := foldl_touched (f := fun (x : HomeLine) k => x.take w k) (g := fun x j => x.psn.getLsbD j) (key := id)
    (fun x k j hkj => x.take_psn_ne w hkj) (by simpa using w.sectors_nodup) hk
    { h with data := w.bytes.foldl (fun d b => writeAt 0 b.1 b.2 d) h.data }
  rw [h.apply_eq]
  exact hlast.trans ((y.take_psn_self w (HomeWrite.mem_sectors.mp hk).1).trans (by rw [← id_eq k, hfirst]))

end

/-! The home of a line after a write (R312). -/

/-- The line that is put back last stands in its slice. -/
theorem State.homeLine_putHome (s : State) {h : HomeLine} {stack line : Nat} (hs : h.stack = stack) (hl : h.line = line) :
    ∃ n, (s.putHome h).homeLine stack line = some { h with used := n } := by
  have hkeep : ∀ t : State, (t.keepHome h).homeLine stack line = some { h with used := t.l2Uses } := fun t => by
    simp [State.keepHome, State.homeLine, hs, hl]
  unfold State.putHome
  split
  · exact ⟨_, hkeep s⟩
  · exact ⟨_, hkeep _⟩

/-- The home line that takes a write, with what it had to fetch. -/
theorem State.writeHome_shows (s : State) (w : HomeWrite) : ∃ h1 : HomeLine, ∃ t : State,
    s.writeHome (s.homeOr w.stack w.line) w = (h1.apply w, t) ∧ (s.homeOr w.stack w.line).Shows s h1 t ∧
      ∀ k ∈ w.sectors, w.whole k = false → h1.valid.getLsbD k = true := by
  obtain ⟨hshows, hall⟩ := foldl_fetchHome_shows (w.sectors.filter fun k => !w.whole k)
    (fun k hk => (HomeWrite.mem_sectors.mp (List.mem_filter.mp hk).1).1) (s.homeOr w.stack w.line) s
  exact ⟨_, _, rfl, hshows, fun k hk hpart => hall k (List.mem_filter.mpr ⟨hk, by simp [hpart]⟩)⟩

section
variable {s : State} {stack line : Nat} {h : HomeLine} (hh : s.homeLine stack line = some h)
include hh

theorem State.homeByte_of_homeLine {i : Nat} (hi : i < 128) (hv : h.valid.getLsbD (i / 32) = true) :
    s.homeByte stack (128 * line + i) = readAt 0 h.data i := by
  rw [s.homeByte_eq_byteOver stack line hi, State.homeOr, hh]
  exact if_pos hv

theorem State.sectorPsn_of_homeLine {k : Nat} (hk : k < 4) (hv : h.valid.getLsbD k = true) :
    s.sectorPsn stack (128 * line + 32 * k) = h.psn.getLsbD k := by
  rw [s.sectorPsn_eq_psnOver stack line hk, State.homeOr, hh]
  exact if_pos hv

end

/-- A home line x, before a write w of its line that has fetched what it needs, agrees with the home in the state s. -/
structure HomeLine.ReadyFor (x : HomeLine) (s : State) (w : HomeWrite) : Prop where
  fetched : ∀ k ∈ w.sectors, w.whole k = false → x.valid.getLsbD k = true
  byte : ∀ i < 128, x.valid.getLsbD (i / 32) = true → readAt 0 x.data i = s.homeByte w.stack (128 * w.line + i)
  psn : ∀ k < 4, x.valid.getLsbD k = true → x.psn.getLsbD k = s.sectorPsn w.stack (128 * w.line + 32 * k)

section
variable (s : State) {w : HomeWrite} (hslice : w.atStack = false)
include hslice

/-- In the slice, a home write leaves the line that took it as the line's home. -/
theorem State.homeWrite_homeLine :
    ∃ (x : HomeLine) (n : Nat), x.ReadyFor s w ∧ (s.homeWrite w).homeLine w.stack w.line = some { x.apply w with used := n } := by
  obtain ⟨x, t, hwrite, hshows, hfetched⟩ := s.writeHome_shows w
  obtain ⟨hstack, hline⟩ := s.homeOr_line w.stack w.line
  obtain ⟨hs, hl, -⟩ := x.apply_fields w
  obtain ⟨n, hput⟩ := t.homeLine_putHome (hs.trans (hshows.stack.trans hstack)) (hl.trans (hshows.line.trans hline))
  refine ⟨x, n, ⟨hfetched, fun i hi hv => ?_, fun k hk hv => ?_⟩, ?_⟩
  · rw [s.homeByte_eq_byteOver _ _ hi, ← hshows.byte i hi, HomeLine.byteOver, if_pos hv]
  · rw [s.sectorPsn_eq_psnOver _ _ hk, ← hshows.psn k hk, HomeLine.psnOver, if_pos hv]
  · have hmem : (s.homeWrite w).memory = (t.putHome (x.apply w)).memory := by
      rw [State.homeWrite, hwrite, hslice]
      exact State.homeEffects_memory ..
    exact (congrArg (State.homeLine · w.stack w.line) hmem :).trans hput

theorem State.homeByte_homeWrite {i : Nat} (hi : i < 128) (hsector : i / 32 ∈ w.sectors) : ∃ x : HomeLine, x.ReadyFor s w ∧
    (s.homeWrite w).homeByte w.stack (128 * w.line + i) = readAt 0 (w.bytes.foldl (fun d b => writeAt 0 b.1 b.2 d) x.data) i := by
  obtain ⟨x, n, hready, hline⟩ := s.homeWrite_homeLine hslice
  obtain ⟨-, -, hdata⟩ := x.apply_fields w
  refine ⟨x, hready, ?_⟩
  rw [State.homeByte_of_homeLine hline hi (x.apply_valid hsector), ← hdata]

theorem State.homeByte_homeWrite_written (hnodup : (w.bytes.map (·.1)).Nodup) {b : Nat × Byte} (hb : b ∈ w.bytes)
    (hin : b.1 < 128) : (s.homeWrite w).homeByte w.stack (128 * w.line + b.1) = b.2 := by
  obtain ⟨x, -, hread⟩ := s.homeByte_homeWrite hslice hin (HomeWrite.sector_mem hb hin)
  exact hread.trans (readAt_foldl_writeAt (0 : Byte) Prod.fst Prod.snd x.data hnodup hb)

theorem State.homeByte_homeWrite_kept {i : Nat} (hi : i < 128) (hsector : i / 32 ∈ w.sectors)
    (hout : ∀ b ∈ w.bytes, b.1 ≠ i) :
    (s.homeWrite w).homeByte w.stack (128 * w.line + i) = s.homeByte w.stack (128 * w.line + i) := by
  obtain ⟨x, hready, hread⟩ := s.homeByte_homeWrite hslice hi hsector
  have hpart : w.whole (i / 32) = false := by
    refine Bool.eq_false_iff.mpr fun hwhole => ?_
    obtain ⟨b, hb, hbi⟩ := HomeWrite.whole_iff.mp hwhole (i % 32) (by omega)
    exact hout b hb (by omega)
  have hkey : i ∉ w.bytes.map (·.1) := fun h => by
    obtain ⟨b, hb, hbi⟩ := List.mem_map.mp h
    exact hout b hb hbi
  rw [hread, readAt_foldl_writeAt_ne (0 : Byte) Prod.fst Prod.snd x.data hkey, hready.byte i hi (hready.fetched _ hsector hpart)]

theorem State.sectorPsn_homeWrite {k : Nat} (hk : k ∈ w.sectors) :
    (s.homeWrite w).sectorPsn w.stack (128 * w.line + 32 * k) =
      if k ∈ w.psn then true else if w.whole k then false else s.sectorPsn w.stack (128 * w.line + 32 * k) := by
  obtain ⟨x, n, hready, hline⟩ := s.homeWrite_homeLine hslice
  obtain ⟨hk4, -⟩ := HomeWrite.mem_sectors.mp hk
  rw [State.sectorPsn_of_homeLine hline hk4 (x.apply_valid hk)]
  refine (x.apply_psn hk).trans ?_
  cases hwhole : w.whole k with
  | true => rfl
  | false => rw [hready.psn k hk4 (hready.fetched k hk hwhole)]

end

/-! A write at the stack, where slots are not packed (R421, R423). -/

section
variable (s : State) (stack : Nat)

theorem State.mayPack_line (line : Nat) {i : Nat} (hi : i < 128) :
    s.mayPack stack (128 * line + i) = s.mayPack stack (128 * line) := by
  have hblock : (128 * line + i) / 4096 = 128 * line / 4096 := by omega
  rw [State.mayPack, State.mayPack, State.attrAt, State.attrAt, hblock]

/-- A page that becomes raw makes no block packed. -/
theorem State.mayPack_setPageAttr {off : Nat} (h : s.mayPack stack off = false) (o : Nat) :
    (s.setPageAttr stack o 0).mayPack stack off = false := by
  have hattr : ∀ k, readAt 3 (s.setPageAttr stack o 0).attr k = readAt 3 s.attr k ∨
      readAt 3 (s.setPageAttr stack o 0).attr k = 0 := by
    intro k
    refine List.foldlRecOn (motive := fun m => readAt 3 m k = readAt 3 s.attr k ∨ readAt 3 m k = 0) _ _ (.inl rfl) fun m hm i _ => ?_
    by_cases hki : k = stack * 16777216 + (s.pagePart stack o).1 + i
    · exact .inr (hki ▸ readAt_writeAt_self ..)
    · rwa [readAt_writeAt_ne _ _ hki]
  obtain hsame | hraw := hattr (stack * 16777216 + off / 4096)
  · rw [State.mayPack, State.attrAt, hsame]
    exact h
  · rw [State.mayPack, State.attrAt, hraw]
    rfl

end

/-- The step that a raw write takes for the poison of a sector (R391). -/
def State.markSector (s : State) (w : HomeWrite) (k : Nat) : State :=
  if w.psn.contains k then s.setSlotPsn w.stack (128 * w.line + 32 * k) true
  else if w.whole k then s.setSlotPsn w.stack (128 * w.line + 32 * k) false else s

theorem State.storeRaw_eq (s : State) (w : HomeWrite) : s.storeRaw w =
    w.sectors.foldl (·.markSector w ·) (w.bytes.foldl (fun t b => t.setSlotByte w.stack (128 * w.line + b.1) b.2) s) := rfl

section
variable (s : State) (w : HomeWrite)

theorem State.markSector_fields (k : Nat) : (s.markSector w k).homes = s.homes ∧ (s.markSector w k).attr = s.attr ∧
    (s.markSector w k).mem = s.mem := by
  unfold State.markSector
  repeat' split
  all_goals exact ⟨rfl, rfl, rfl⟩

theorem State.slotPsn_setSlotPsn_self (stack off : Nat) (p : Bool) : (s.setSlotPsn stack off p).slotPsn stack off = p :=
  readAt_writeAt_self ..

theorem State.slotPsn_setSlotPsn_ne {stack off o : Nat} (h : off / 32 ≠ o / 32) (p : Bool) :
    (s.setSlotPsn stack o p).slotPsn stack off = s.slotPsn stack off :=
  readAt_writeAt_ne _ _ (fun e => h (Nat.add_left_cancel e)) _

theorem State.slotPsn_markSector_ne {k j : Nat} (h : k ≠ j) : (s.markSector w k).slotPsn w.stack (128 * w.line + 32 * j) =
    s.slotPsn w.stack (128 * w.line + 32 * j) := by
  have hkey : (128 * w.line + 32 * j) / 32 ≠ (128 * w.line + 32 * k) / 32 := by omega
  unfold State.markSector
  repeat' split
  · exact s.slotPsn_setSlotPsn_ne hkey true
  · exact s.slotPsn_setSlotPsn_ne hkey false
  · rfl

/-- A raw write changes the stored bytes and their poison only. -/
theorem State.storeRaw_fields : (s.storeRaw w).homes = s.homes ∧ (s.storeRaw w).attr = s.attr ∧
    (s.storeRaw w).mem = w.bytes.foldl (fun m b => writeAt 0 (w.stack * 68719476736 + (128 * w.line + b.1)) b.2 m) s.mem := by
  have hbytes : ∀ bs : List (Nat × Byte), ∀ t : State,
      let u := bs.foldl (fun t b => t.setSlotByte w.stack (128 * w.line + b.1) b.2) t
      u.homes = t.homes ∧ u.attr = t.attr ∧
        u.mem = bs.foldl (fun m b => writeAt 0 (w.stack * 68719476736 + (128 * w.line + b.1)) b.2 m) t.mem := by
    intro bs
    induction bs with
    | nil => exact fun t => ⟨rfl, rfl, rfl⟩
    | cons b bs ih => exact fun t => ih (t.setSlotByte w.stack (128 * w.line + b.1) b.2)
  rw [State.storeRaw_eq]
  refine List.foldlRecOn (motive := fun t : State => t.homes = s.homes ∧ t.attr = s.attr ∧ t.mem = _) _ _ (hbytes w.bytes s) ?_
  intro t ht k _
  obtain ⟨hhomes, hattr, hmem⟩ := t.markSector_fields w k
  rwa [hhomes, hattr, hmem]

theorem State.slotByte_storeRaw (hnodup : (w.bytes.map (·.1)).Nodup) {b : Nat × Byte} (hb : b ∈ w.bytes) :
    (s.storeRaw w).slotByte w.stack (128 * w.line + b.1) = b.2 := by
  obtain ⟨-, -, hmem⟩ := s.storeRaw_fields w
  rw [State.slotByte, hmem]
  refine readAt_foldl_writeAt (0 : Byte) (fun b : Nat × Byte => w.stack * 68719476736 + (128 * w.line + b.1)) Prod.snd s.mem ?_ hb
  have hkeys := hnodup.map (f := fun i => w.stack * 68719476736 + (128 * w.line + i)) fun a b hab => by simpa using hab
  rwa [List.map_map] at hkeys

theorem State.slotPsn_storeRaw {k : Nat} (hk : k ∈ w.sectors) (hdone : k ∈ w.psn ∨ w.whole k = true) :
    (s.storeRaw w).slotPsn w.stack (128 * w.line + 32 * k) = decide (k ∈ w.psn) := by
  obtain ⟨y, -, hlast⟩ := foldl_touched (f := fun (t : State) k => t.markSector w k) (key := id)
    (g := fun t j => t.slotPsn w.stack (128 * w.line + 32 * j)) (fun t k j hkj => t.slotPsn_markSector_ne w hkj)
    (by simpa using w.sectors_nodup) hk (w.bytes.foldl (fun t b => t.setSlotByte w.stack (128 * w.line + b.1) b.2) s)
  rw [State.storeRaw_eq]
  refine hlast.trans ?_
  by_cases hp : k ∈ w.psn
  · simp [State.markSector, hp, State.slotPsn_setSlotPsn_self]
  · simp [State.markSector, hp, hdone.resolve_left hp, State.slotPsn_setSlotPsn_self]

end

theorem State.setAttr_fields (s : State) (stack first n a : Nat) : (s.setAttr stack first n a).homes = s.homes ∧
    (s.setAttr stack first n a).mem = s.mem ∧ (s.setAttr stack first n a).memPsn = s.memPsn := ⟨rfl, rfl, rfl⟩

theorem State.setPageAttr_fields (s : State) (stack off a : Nat) : (s.setPageAttr stack off a).homes = s.homes ∧
    (s.setPageAttr stack off a).mem = s.mem ∧ (s.setPageAttr stack off a).memPsn = s.memPsn := by
  unfold State.setPageAttr
  exact s.setAttr_fields ..

theorem State.mayPack_stackRequest (s : State) (stack o off : Nat) :
    (s.stackRequest stack o).mayPack stack off = s.mayPack stack off := rfl

section
variable {s : State} {w : HomeWrite} (hraw : s.mayPack w.stack (128 * w.line) = false)
include hraw

/-- A write to a page that is not packed stores its bytes raw; a page never written becomes raw (R423). -/
theorem State.stackWrite_raw : s.stackWrite w =
    if s.attrAt w.stack (128 * w.line) == 3 then (s.storeRaw w).setPageAttr w.stack (128 * w.line) 0 else s.storeRaw w := by
  rw [State.stackWrite]
  exact if_neg (by simp [hraw])

theorem State.stackWrite_raw_fields : (s.stackWrite w).homes = s.homes ∧ (s.stackWrite w).mem = (s.storeRaw w).mem ∧
    (s.stackWrite w).memPsn = (s.storeRaw w).memPsn ∧ (s.stackWrite w).mayPack w.stack (128 * w.line) = false := by
  obtain ⟨hhomes, hattr, -⟩ := s.storeRaw_fields w
  have hstored : (s.storeRaw w).mayPack w.stack (128 * w.line) = false := by
    rwa [State.mayPack, State.attrAt, hattr]
  rw [State.stackWrite_raw hraw]
  split
  · obtain ⟨hhomes', hmem, hpsn⟩ := (s.storeRaw w).setPageAttr_fields w.stack (128 * w.line) 0
    exact ⟨hhomes'.trans hhomes, hmem, hpsn, State.mayPack_setPageAttr _ _ hstored _⟩
  · exact ⟨hhomes, rfl, rfl, hstored⟩

end

/-- The line of an atomic leaves its slice; a page that is not packed stays so. -/
theorem State.toStack_raw {s : State} {stack line : Nat} (hraw : s.mayPack stack (128 * line) = false) :
    (s.toStack stack line).homeLine stack line = none ∧ (s.toStack stack line).mayPack stack (128 * line) = false := by
  unfold State.toStack
  split
  · next h hh =>
    obtain ⟨rfl, rfl⟩ := State.homeLine_eq_some hh
    refine ⟨List.find?_eq_none.mpr fun x hx => ?_, ?_⟩
    · exact ne_true_of_eq_false ((Bool.not_eq_true' _).mp (List.mem_filter.mp hx).2)
    · have hrequest := (s.mayPack_stackRequest h.stack (128 * h.line) (128 * h.line)).trans hraw
      show (s.cleanHome h).mayPack h.stack (128 * h.line) = false
      unfold State.cleanHome
      dsimp only
      split
      · exact hraw
      · obtain ⟨-, -, -, hpack⟩ := State.stackWrite_raw_fields
          (w := { stack := h.stack, line := h.line, bytes := _, psn := _, rel := _ }) hrequest
        exact hpack
  · next hnone => exact ⟨hnone, hraw⟩

section
variable {s : State} {stack line : Nat} (hnone : s.homeLine stack line = none) (hraw : s.mayPack stack (128 * line) = false)
include hnone hraw

theorem State.homeByte_raw {i : Nat} (hi : i < 128) : s.homeByte stack (128 * line + i) = s.slotByte stack (128 * line + i) := by
  rw [s.homeByte_eq_byteOver stack line hi, State.homeOr, hnone]
  simp [HomeLine.byteOver, State.stackByte, s.mayPack_line stack line hi, hraw]

theorem State.sectorPsn_raw {k : Nat} (hk : k < 4) :
    s.sectorPsn stack (128 * line + 32 * k) = s.slotPsn stack (128 * line + 32 * k) := by
  rw [s.sectorPsn_eq_psnOver stack line hk, State.homeOr, hnone]
  simp [HomeLine.psnOver, State.stackPsn, s.mayPack_line stack line (i := 32 * k) (by omega), hraw]

end

section
variable {s : State} {w : HomeWrite} (hstack : w.atStack = true) (hraw : s.mayPack w.stack (128 * w.line) = false)
include hstack hraw

/-- A write at a stack whose page is not packed leaves the bytes and the poison that a raw write stores as the home's. -/
theorem State.homeWrite_stack : ∃ t : State,
    (∀ i < 128, (s.homeWrite w).homeByte w.stack (128 * w.line + i) = (t.storeRaw w).slotByte w.stack (128 * w.line + i)) ∧
    ∀ k < 4, (s.homeWrite w).sectorPsn w.stack (128 * w.line + 32 * k) = (t.storeRaw w).slotPsn w.stack (128 * w.line + 32 * k) := by
  obtain ⟨hnone, hkept⟩ := State.toStack_raw hraw
  refine ⟨s.toStack w.stack w.line, ?_⟩
  have hwrite : (s.homeWrite w).memory = ((s.toStack w.stack w.line).stackWrite w).memory := by
    rw [State.homeWrite, hstack]
    exact State.homeEffects_memory ..
  generalize s.toStack w.stack w.line = t at *
  obtain ⟨hhomes, hbytes, hpsn, hpack⟩ := State.stackWrite_raw_fields hkept
  have hline : (t.stackWrite w).homeLine w.stack w.line = none := by rw [State.homeLine, hhomes]; exact hnone
  refine ⟨fun i hi => ?_, fun k hk => ?_⟩
  · rw [homeByte_of_memory hwrite, State.homeByte_raw hline hpack hi, State.slotByte, hbytes, ← State.slotByte]
  · rw [sectorPsn_of_memory hwrite, State.sectorPsn_raw hline hpack hk, State.slotPsn, hpsn, ← State.slotPsn]

theorem State.homeByte_homeWrite_stack (hnodup : (w.bytes.map (·.1)).Nodup) {b : Nat × Byte} (hb : b ∈ w.bytes)
    (hin : b.1 < 128) : (s.homeWrite w).homeByte w.stack (128 * w.line + b.1) = b.2 := by
  obtain ⟨t, hbytes, -⟩ := State.homeWrite_stack hstack hraw
  exact (hbytes b.1 hin).trans (t.slotByte_storeRaw w hnodup hb)

theorem State.sectorPsn_homeWrite_stack {k : Nat} (hk : k ∈ w.sectors) (hdone : k ∈ w.psn ∨ w.whole k = true) :
    (s.homeWrite w).sectorPsn w.stack (128 * w.line + 32 * k) = decide (k ∈ w.psn) := by
  obtain ⟨t, -, hpsn⟩ := State.homeWrite_stack hstack hraw
  exact (hpsn k (HomeWrite.mem_sectors.mp hk).1).trans (t.slotPsn_storeRaw w hk hdone)

end

/-- What a home write leaves in its line. -/
theorem State.homeWrite_leaves (s : State) (w : HomeWrite) (hin : ∀ b ∈ w.bytes, b.1 < 128) (hnodup : (w.bytes.map (·.1)).Nodup) :
    let t := s.homeWrite w
    let line := 128 * w.line
    (w.atStack = false →
      (∀ b ∈ w.bytes, t.homeByte w.stack (line + b.1) = b.2) ∧
      (∀ i < 128, i / 32 ∈ w.sectors → (∀ b ∈ w.bytes, b.1 ≠ i) → t.homeByte w.stack (line + i) = s.homeByte w.stack (line + i)) ∧
      ∀ k ∈ w.sectors, t.sectorPsn w.stack (line + 32 * k) =
        if k ∈ w.psn then true else if w.whole k then false else s.sectorPsn w.stack (line + 32 * k)) ∧
    (w.atStack = true → s.mayPack w.stack line = false →
      (∀ b ∈ w.bytes, t.homeByte w.stack (line + b.1) = b.2) ∧ ∀ k ∈ w.sectors, k ∈ w.psn ∨ w.whole k = true →
        t.sectorPsn w.stack (line + 32 * k) = decide (k ∈ w.psn)) :=
  ⟨fun hslice => ⟨fun b hb => s.homeByte_homeWrite_written hslice hnodup hb (hin b hb),
      fun _ hi hsector hout => s.homeByte_homeWrite_kept hslice hi hsector hout, fun _ hk => s.sectorPsn_homeWrite hslice hk⟩,
    fun hstack hraw => ⟨fun b hb => State.homeByte_homeWrite_stack hstack hraw hnodup hb (hin b hb),
      fun _ hk hdone => State.sectorPsn_homeWrite_stack hstack hraw hk hdone⟩⟩

end Sys2Proof.Machine
end

section
/-! PROOFS. Bytes that land in a scratchpad (spec 08_scratchpad.md R182, R185, 09_copy_command.md R207). -/

namespace Sys2Proof.Machine

/-! A word after a write of some of its bits. -/

theorem State.writeSpad_spad (s : State) (team core w : Nat) (v : PWord) (mask : Word) : (s.writeSpad team core w v mask).spad =
    writeAt PWord.zero (core * 65536 + w) (mergeWord (s.spadWord core w) v mask) s.spad := by
  unfold State.writeSpad
  dsimp only
  repeat' split
  all_goals simp only [logBlock_memories]

theorem State.spadWord_writeSpad_self (s : State) (team core w : Nat) (v : PWord) (mask : Word) :
    (s.writeSpad team core w v mask).spadWord core w = mergeWord (s.spadWord core w) v mask := by
  rw [State.spadWord, State.writeSpad_spad]
  exact readAt_writeAt_self ..

theorem State.spadWord_writeSpad_ne (s : State) (team core : Nat) {w u : Nat} (h : u ≠ w) (v : PWord) (mask : Word) :
    (s.writeSpad team core w v mask).spadWord core u = s.spadWord core u := by
  rw [State.spadWord, State.writeSpad_spad]
  exact readAt_writeAt_ne _ _ (fun e => h (Nat.add_left_cancel e)) _

/-! Bytes of a word. -/

theorem getLsbD_byteOf (w : Word) (i k : Nat) : (byteOf w.toNat i).getLsbD k = (decide (k < 8) && w.getLsbD (8 * i + k)) := by
  have hpow : 256 ^ i = 2 ^ (8 * i) := by rw [pow_mul]; rfl
  rw [byteOf, BitVec.getLsbD_ofNat, hpow, Nat.testBit_div_two_pow, BitVec.testBit_toNat, Nat.add_comm]

/-- The bits of byte j of a word. -/
def byteBits (j : Nat) : Word := BitVec.ofNat 32 (255 * 2 ^ (8 * j))

theorem getLsbD_byteBits {i : Nat} (hi : i < 32) (j : Nat) :
    (byteBits j).getLsbD i = (decide (8 * j ≤ i) && decide (i < 8 * j + 8)) := by
  have h255 : (255 : Nat) = 2 ^ 8 - 1 := rfl
  rw [byteBits, BitVec.getLsbD_ofNat, Nat.testBit_mul_two_pow, h255, Nat.testBit_two_pow_sub_one, Bool.eq_iff_iff]
  simp only [Bool.and_eq_true, decide_eq_true_eq]
  omega

theorem getLsbD_shiftedByte {i : Nat} (hi : i < 32) (b : Byte) (j : Nat) :
    (BitVec.ofNat 32 (b.toNat * 2 ^ (8 * j))).getLsbD i = (decide (8 * j ≤ i) && b.getLsbD (i - 8 * j)) := by
  rw [BitVec.getLsbD_ofNat, Nat.testBit_mul_two_pow, BitVec.testBit_toNat, decide_eq_true hi, Bool.true_and]

theorem byteBits_ne_ones {j : Nat} (hj : j < 4) : byteBits j ≠ 0xFFFFFFFF := by
  interval_cases j <;> decide

theorem byteOf_mergeWord (old : PWord) (b : Byte) (psn : Bool) {j i : Nat} (hj : j < 4) (hi : i < 4) :
    byteOf (mergeWord old ⟨BitVec.ofNat 32 (b.toNat * 2 ^ (8 * j)), psn⟩ (byteBits j)).val.toNat i =
      if i = j then b else byteOf old.val.toNat i := by
  rw [mergeWord, if_neg (by simpa using byteBits_ne_ones hj)]
  refine BitVec.eq_of_getLsbD_eq fun k hk => ?_
  have hbit : 8 * i + k < 32 := by omega
  simp only [getLsbD_byteOf, hk, BitVec.getLsbD_or, BitVec.getLsbD_and, BitVec.getLsbD_not, getLsbD_byteBits hbit,
    getLsbD_shiftedByte hbit, hbit, decide_true, Bool.true_and]
  by_cases hij : i = j
  · subst hij
    simp [hk]
  · have hout : (decide (8 * j ≤ 8 * i + k) && decide (8 * i + k < 8 * j + 8)) = false := by
      rw [Bool.eq_false_iff, ne_eq, Bool.and_eq_true, decide_eq_true_eq, decide_eq_true_eq]
      omega
    rw [if_neg hij, hout, getLsbD_byteOf]
    simp [hk]

/-! One byte of a piece. -/

/-- Write a byte of a piece on behalf of a team: the byte itself, or 0 with the poison of its word. -/
def State.landByte (s : State) (team core a : Nat) (b : Byte) (psn : Bool) : State :=
  s.writeSpad team core (a / 4) ⟨BitVec.ofNat 32 ((if psn then 0 else b).toNat * 2 ^ (8 * (a % 4))), psn⟩ (byteBits (a % 4))

/-- The bytes of a piece by the byte of the scratchpad that each goes to. -/
def Piece.placed (x : Piece) (p : Nat) : List (Nat × Byte) := x.bytes.mapIdx fun i b => (p + i, b)

theorem State.pieceSpad_eq (s : State) (team core p : Nat) {x : Piece} (h : x.nibble = none) : s.pieceSpad team core p x =
    (x.placed p).foldl (fun t q => t.landByte team core q.1 q.2 x.psn) s := by
  simp only [State.pieceSpad, State.landByte, h]
  refine congrArg (List.foldl · s _) (funext fun t => funext fun q => ?_)
  cases x.psn <;> rfl

theorem Piece.nodup_placed (x : Piece) (p : Nat) : ((x.placed p).map (·.1)).Nodup := by
  rw [List.nodup_iff_pairwise_ne, List.pairwise_iff_getElem]
  simp only [Piece.placed, List.length_map, List.length_mapIdx, List.getElem_map, List.getElem_mapIdx]
  omega

theorem Piece.mem_placed {x : Piece} {p : Nat} {q : Nat × Byte} : q ∈ x.placed p ↔ ∃ i, x.bytes[i]? = some q.2 ∧ q.1 = p + i := by
  simp only [Piece.placed, List.mem_mapIdx, List.getElem?_eq_some_iff, Prod.ext_iff]
  grind

/-- A byte of a piece goes to one of its places. -/
theorem Piece.placed_range {x : Piece} {p : Nat} {q : Nat × Byte} (h : q ∈ x.placed p) :
    ∃ i < x.bytes.length, q.1 = p + i := by
  obtain ⟨i, hi, hq⟩ := Piece.mem_placed.mp h
  exact ⟨i, (List.getElem?_eq_some_iff.mp hi).1, hq⟩

section
variable (s : State) (team core : Nat) {a : Nat} (b : Byte) (psn : Bool)

theorem State.spadByte_landByte_self : (s.landByte team core a b psn).spadByte core a = if psn then 0 else b := by
  rw [State.spadByte, State.landByte, State.spadWord_writeSpad_self, byteOf_mergeWord _ _ _ (by omega) (by omega), if_pos rfl]

theorem State.spadByte_landByte_ne {i : Nat} (h : a ≠ i) : (s.landByte team core a b psn).spadByte core i = s.spadByte core i := by
  rw [State.spadByte, State.spadByte, State.landByte]
  by_cases hw : i / 4 = a / 4
  · rw [hw, State.spadWord_writeSpad_self, byteOf_mergeWord _ _ _ (by omega) (by omega), if_neg (by omega)]
  · rw [State.spadWord_writeSpad_ne _ _ _ hw]

theorem State.psn_landByte_self : ((s.landByte team core a b psn).spadWord core (a / 4)).psn =
    ((s.spadWord core (a / 4)).psn || psn) := by
  rw [State.landByte, State.spadWord_writeSpad_self, mergeWord, if_neg (by simpa using byteBits_ne_ones (by omega))]

theorem State.spadWord_landByte_ne {w : Nat} (h : a / 4 ≠ w) :
    (s.landByte team core a b psn).spadWord core w = s.spadWord core w := State.spadWord_writeSpad_ne _ _ _ h.symm _ _

end

/-! A piece. -/

section
variable (s : State) (team core p : Nat) {x : Piece} (hx : x.nibble = none)

include hx

theorem State.spadByte_pieceSpad_landed {i : Nat} {b : Byte} (hb : x.bytes[i]? = some b) :
    (s.pieceSpad team core p x).spadByte core (p + i) = if x.psn then 0 else b := by
  rw [s.pieceSpad_eq team core p hx]
  obtain ⟨y, -, hlast⟩ := foldl_touched (f := fun (t : State) (q : Nat × Byte) => t.landByte team core q.1 q.2 x.psn) (key := (·.1))
    (g := fun t a => t.spadByte core a) (fun t q _ h => t.spadByte_landByte_ne team core q.2 x.psn h)
    (x.nodup_placed p) (a := (p + i, b)) (Piece.mem_placed.mpr ⟨i, hb, rfl⟩) s
  exact hlast.trans (y.spadByte_landByte_self team core b x.psn)

theorem State.spadByte_pieceSpad_outside {a : Nat} (ha : a < p ∨ p + x.bytes.length ≤ a) :
    (s.pieceSpad team core p x).spadByte core a = s.spadByte core a := by
  rw [s.pieceSpad_eq team core p hx]
  refine foldl_untouched (f := fun (t : State) (q : Nat × Byte) => t.landByte team core q.1 q.2 x.psn) (key := (·.1))
    (g := fun t a => t.spadByte core a) (fun t q _ h => t.spadByte_landByte_ne team core q.2 x.psn h) (fun h => ?_) s
  obtain ⟨q, hq, rfl⟩ := List.mem_map.mp h
  obtain ⟨i, hi, hqi⟩ := Piece.placed_range hq
  omega

theorem State.spadWord_pieceSpad_outside {w : Nat} (hw : ∀ i < x.bytes.length, (p + i) / 4 ≠ w) :
    (s.pieceSpad team core p x).spadWord core w = s.spadWord core w := by
  rw [s.pieceSpad_eq team core p hx]
  refine List.foldlRecOn (motive := fun t : State => t.spadWord core w = s.spadWord core w) _ _ rfl fun t ht q hq => ?_
  obtain ⟨i, hi, hqi⟩ := Piece.placed_range hq
  exact (t.spadWord_landByte_ne team core q.2 x.psn (hqi ▸ hw i hi)).trans ht

/-- A word that a poisoned byte has landed in is poisoned, and the bytes after it leave it so (R185). -/
theorem State.psn_pieceSpad {i : Nat} (hi : i < x.bytes.length) (hpsn : x.psn = true) :
    ((s.pieceSpad team core p x).spadWord core ((p + i) / 4)).psn = true := by
  have hmem : (p + i, x.bytes[i]) ∈ x.placed p := Piece.mem_placed.mpr ⟨i, List.getElem?_eq_getElem hi, rfl⟩
  obtain ⟨before, after, hsplit⟩ := List.append_of_mem hmem
  rw [s.pieceSpad_eq team core p hx, hsplit, List.foldl_append, List.foldl_cons, hpsn]
  refine List.foldlRecOn (motive := fun t : State => (t.spadWord core ((p + i) / 4)).psn = true) _ _ ?_ fun t ht q _ => ?_
  · rw [State.psn_landByte_self, Bool.or_true]
  · by_cases hq : q.1 / 4 = (p + i) / 4
    · rw [← hq, State.psn_landByte_self, Bool.or_true]
    · rw [t.spadWord_landByte_ne team core q.2 true hq, ht]

end

end Sys2Proof.Machine
end

section
/-! PROOFS. One element of a command (spec 09_copy_command.md R207, R208, R213 to R215, R236, 13_reflection.md R312): its value at
the source, its encoding, and its places. -/

namespace Sys2Proof.Machine

/-! Bytes of a side. -/

theorem leNat_congr {f g : Nat → Byte} {n : Nat} (h : ∀ i < n, f i = g i) : leNat f n = leNat g n := by
  induction n generalizing f g with
  | zero => rfl
  | succ n ih =>
    rw [leNat, leNat, h 0 (by omega), ih fun i hi => h (i + 1) (by omega)]

section
variable {s : State} {c : Cmd} {d : SideD} {o : Int} (hfmt : d.fmt ≠ .e2m1)
include hfmt

theorem State.readElem_spad (hspad : d.spad = true) {r : SpadRef}
    (hr : s.spadPlace c d.base (o * d.fmt.size) d.fmt.size = .ok r) (slot : Nat) : s.readElem c d slot o =
      .ok (leNat (fun i => s.spadByte r.core (r.off + i)) d.fmt.size, s.spadBad r.core r.off d.fmt.size, false, s) := by
  have hbytes : leNat (fun i => ((List.range d.fmt.size).map fun i => s.spadByte r.core (r.off + i)).getD i 0) d.fmt.size =
      leNat (fun i => s.spadByte r.core (r.off + i)) d.fmt.size :=
    leNat_congr fun i hi => by simp [hi]
  simp only [State.readElem, beq_false_of_ne hfmt, State.sideRead, hspad, hr, hbytes, if_true, Bool.false_eq_true, if_false]

theorem State.readElem_dev (hspad : d.spad = false) {slot : Nat} {p : Place} {x : Xl}
    (hp : s.devPlace c slot false ((d.base : Int) + o * d.fmt.size) = .ok (p, x)) :
    let got := s.read c.agent d.fmt.size p
    s.readElem c d slot o =
      .ok (leNat (fun i => got.1.bytes.getD i 0) d.fmt.size, got.1.psn || x.psn, got.1.down, got.2) := by
  simp only [State.readElem, beq_false_of_ne hfmt, State.sideRead, hspad, hp, Bool.false_eq_true, if_false]

end

/-! The source value. -/

theorem Cmd.note_eq (c : Cmd) (code : Nat) : c.note code = { c with code := if c.code = 0 then code else c.code } := by
  by_cases h : c.code = 0 <;> simp [Cmd.note, h]

/-- Reading entries of the index list changes the entries of the command only. -/
theorem State.takeEntries_entries (s : State) (is : List Nat) (c : Cmd) :
    ∃ es, (s.takeEntries c is).1 = { c with entries := es } := by
  induction is generalizing c with
  | nil => exact ⟨c.entries, rfl⟩
  | cons i is ih =>
    unfold State.takeEntries
    split
    · exact ih c
    · split
      · exact ⟨c.entries, rfl⟩
      · split
        · exact ⟨c.entries, rfl⟩
        · exact ih _

theorem State.srcData_read {s : State} {c : Cmd} {at_ : List Int} {code : Nat} {psn down : Bool} {t : State}
    (h : s.readElem c c.shape.src 0 (c.shape.src.off c.shape.srcExt at_) = .ok (code, psn, down, t)) :
    s.srcData c at_ none =
      (t, (if down then c.note 9 else c), .ok (if psn then .psn else decode c.shape.src.fmt c.shape.zx code)) := by
  simp only [State.srcData, h]

/-- The data of an element leaves the values that the command holds as they are. -/
theorem State.srcData_vals (s : State) (c : Cmd) (at_ : List Int) (scale : Option Nat) :
    (s.srcData c at_ scale).2.1.vals = c.vals := by
  unfold State.srcData
  dsimp only
  split
  · rfl
  · split
    · rw [Cmd.note_eq]
    · rfl

section
variable {s : State} {c : Cmd} {n : Nat}

theorem State.srcValue_vals (s : State) (c : Cmd) (n : Nat) : (s.srcValue c n).2.1.vals = c.vals := by
  unfold State.srcValue
  extract_lets sh cs own gather r
  have hr : r.1.vals = c.vals := by
    unfold r
    split
    · obtain ⟨es, h⟩ := s.takeEntries_entries (sh.entriesOf cs) c
      rw [h]
    · rfl
  split
  · exact hr
  · split
    · rw [Cmd.note_eq]; exact hr
    · split
      · exact (s.srcData_vals ..).trans hr
      · dsimp only
        split
        · exact hr
        · refine (State.srcData_vals ..).trans ?_
          split
          · rw [Cmd.note_eq]; exact hr
          · exact hr

variable (hblk : c.shape.src.blk = 0)

include hblk in
/-- Where no index list enters the source, an element is read at its own coordinates. -/
theorem State.srcValue_direct (hidx : c.shape.idx ∈ [.none, .scat, .bscat]) : s.srcValue c n =
    s.srcData c ((if c.shape.tr then swap01 (coordsOf c.shape.ext n) else coordsOf c.shape.ext n).map Int.ofNat) none := by
  have hgather : (c.shape.idx == .gath || c.shape.idx == .bgath) = false := by
    revert hidx
    cases c.shape.idx <;> decide
  simp only [State.srcValue, hgather, hblk]
  rfl

variable (hidx : c.shape.idx = .gath) {x : PWord} (hx : lookup ((coordsOf c.shape.ext n).getD 1 0) c.entries = some x)
include hidx

theorem Cmd.gathers : (c.shape.idx == .gath || c.shape.idx == .bgath) = true := by
  rw [hidx]
  rfl

theorem Cmd.entriesOf_gather (cs : List Nat) : c.shape.entriesOf cs = [cs.getD 1 0] := by
  simp only [Shape.entriesOf, hidx]

include hx

theorem State.takeEntries_held : s.takeEntries c (c.shape.entriesOf (coordsOf c.shape.ext n)) = (c, none) := by
  simp only [Cmd.entriesOf_gather hidx, State.takeEntries, hx, Option.isSome_some, if_true]

theorem Cmd.indexed_gather : c.indexed (coordsOf c.shape.ext n) =
    if x.psn then none else some (((coordsOf c.shape.ext n).map Int.ofNat).set 1 x.val.toNat) := by
  simp only [Cmd.indexed, Cmd.entriesOf_gather hidx, List.map_cons, List.map_nil, hx, Option.getD_some, List.any_cons, List.any_nil,
    Bool.or_false]

/-- A gathered element whose index entry is poisoned is poison (R215). -/
theorem State.srcValue_gather_poisoned (hpsn : x.psn = true) : s.srcValue c n = (s, c.note 8, .ok .psn) := by
  have hat := Cmd.indexed_gather hidx hx
  rw [if_pos hpsn] at hat
  simp only [State.srcValue, Cmd.gathers hidx, State.takeEntries_held hidx hx, hat, if_true]

include hblk

/-- A gathered element is read at the entry that stands in the list for its second coordinate. -/
theorem State.srcValue_gather (hpsn : x.psn = false) : s.srcValue c n =
    s.srcData c (((coordsOf c.shape.ext n).map Int.ofNat).set 1 x.val.toNat) none := by
  have hat := Cmd.indexed_gather hidx hx
  rw [hpsn] at hat
  simp only [State.srcValue, Cmd.gathers hidx, State.takeEntries_held hidx hx, hat, hblk, if_true]
  rfl

end

/-- A source whose value is read for an unscaled destination: the element lands with it. -/
theorem State.landElement_value {s : State} {c : Cmd} (hfill : c.shape.fill = none) (hblk : c.shape.dst.blk = 0)
    (hvals : c.vals = []) {t : State} {d : Cmd} {v : Val} (hv : s.srcValue c c.k = (t, d, .ok v)) (run : Option LineW)
    (word : Option WordRun) : s.landElement c run word = t.putElement { d with vals := [v] } run word v := by
  have hd : d.vals = [] := by
    have h := s.srcValue_vals c c.k
    rw [hv, hvals] at h
    exact h
  have hread : fillVals 1 1 s c = (t, { d with vals := [v] }, none) := by
    simp [fillVals, hvals, hv, hd]
  simp only [State.landElement, hfill, hblk, Option.isSome_none, beq_self_eq_true, Bool.false_eq_true, if_true, if_false, hread,
    List.headD_cons]

theorem State.landElement_fill {c : Cmd} (s : State) (hfill : c.shape.fill ≠ none) (run : Option LineW) (word : Option WordRun) :
    s.landElement c run word = s.putElement c run word .psn :=
  if_pos (Option.isSome_iff_ne_none.mpr hfill)

/-! The destination. -/

/-- Finding an element's place among an index list changes the entries of the command only. -/
theorem State.dstCoords_entries {s : State} {c d : Cmd} {r : Except Need (Option (List Int))} (h : s.dstCoords c = (d, r)) :
    ∃ es, d = { c with entries := es } := by
  unfold State.dstCoords at h
  dsimp only at h
  split at h
  · obtain ⟨es, he⟩ := s.takeEntries_entries (c.shape.entriesOf (coordsOf c.shape.ext c.k)) c
    split at h
    · next heq =>
      cases h
      exact ⟨es, by rw [← he, heq]⟩
    · next heq =>
      cases h
      exact ⟨es, by rw [← he, heq]⟩
  · cases h
    exact ⟨c.entries, rfl⟩

/-- An element whose index entry is poisoned is not written (R215). -/
theorem State.putElement_unwritten {s : State} {c d : Cmd} (h : s.dstCoords c = (d, .ok none)) (run : Option LineW)
    (word : Option WordRun) (v : Val) : s.putElement c run word v = .ok s
      { d.note 8 with resid := d.residual, k := d.k + 1, vals := d.vals.drop 1, run := d.run + 1 } run word := by
  simp only [State.putElement, h, Cmd.note_eq]

theorem WordRun.of_dev {ds : List Dest} (hdev : ∀ x ∈ ds, ∃ p a, x = .dev p a) (hne : ds ≠ []) (x : Piece) :
    WordRun.of ds x = none := by
  cases ds with
  | nil => exact absurd rfl hne
  | cons d ds =>
    obtain ⟨p, a, rfl⟩ := hdev d List.mem_cons_self
    rfl

/-- The encoding of a value that a command stores: FILL's code, or the next one under its rounding (R208, R236). -/
def Cmd.stored (c : Cmd) (v : Val) : Enc × Cmd :=
  match c.shape.fill with
  | some code => (⟨code, false, true⟩, c)
  | none => c.encodeNext v

section
variable {s : State} {c d : Cmd} {cs : List Int} {ds : List Dest} (hcoords : s.dstCoords c = (d, .ok (some cs)))
  (hrop : c.shape.rop = 0) (hblk : c.shape.dst.blk = 0)

include hrop in
theorem Cmd.elemPiece_store (o : Int) (ov v : Val) : c.elemPiece o ov v =
    (pieceOf c.shape.dst.fmt o (c.stored v).1,
      (c.shape.dst.fmt == .rn8 || c.shape.dst.fmt == .rn16) && v == .psn && c.shape.fill.isNone, (c.stored v).2) := by
  cases hfill : c.shape.fill <;> simp only [Cmd.elemPiece, Cmd.stored, hrop, hfill] <;> rfl

theorem Cmd.atHome_store (hrop : c.shape.rop = 0) : c.atHome = c := by simp [Cmd.atHome, hrop]

theorem State.putScale_none (s : State) (c : Cmd) : s.putScale c [] = s := rfl

/-- Where the destination is unscaled, an element is all that is written. -/
theorem State.elemPlaces_unscaled (hblk : c.shape.dst.blk = 0) {o : Int}
    (hds : s.destAt c c.shape.dst.base 1 (elemByte c.shape.dst.fmt o) (elemBytes c.shape.dst.fmt) = .ok ds) :
    s.elemPlaces c o = .ok (c, ds, []) := by
  simp only [State.elemPlaces, State.elemPlace, hblk, hds, bne_self_eq_false, Bool.false_and, Bool.false_eq_true, if_false]

variable (hds : s.destAt d c.shape.dst.base 1 (elemByte c.shape.dst.fmt (c.shape.dst.off c.shape.ext cs))
  (elemBytes c.shape.dst.fmt) = .ok ds)
include hcoords hrop hblk hds

/-- An element that opens a run of its own is stored at its places; one of poison in a residue format leaves the poison bits of
its word as they stand (R185). -/
theorem State.putElement_stored {v : Val} {enc : Enc × Cmd} (henc : d.stored v = enc) {run run1 : Option LineW} {t : State}
    (hland : s.deliverPiece d run (pieceOf c.shape.dst.fmt (c.shape.dst.off c.shape.ext cs) enc.1) ds = some (t, run1))
    {word : Option WordRun}
    (hword : (if (c.shape.dst.fmt = .rn8 ∨ c.shape.dst.fmt = .rn16) ∧ v = .psn ∧ c.shape.fill = none then none
      else WordRun.of ds (pieceOf c.shape.dst.fmt (c.shape.dst.off c.shape.ext cs) enc.1)) = word) {down : Bool}
    (hdown : s.anyDown d ds = down) :
    let c1 := if down then enc.2.note 9 else enc.2
    s.putElement c run none v = .ok (t.closeWord word).1
      { c1 with k := c1.k + 1, vals := c1.vals.drop 1, run := c1.run + 1 } run1 (t.closeWord word).2 := by
  have hshape : d.shape = c.shape := by
    obtain ⟨es, rfl⟩ := State.dstCoords_entries hcoords
    rfl
  have hrop' : d.shape.rop = 0 := hshape ▸ hrop
  have hplaces : s.elemPlaces d (c.shape.dst.off c.shape.ext cs) = .ok (d, ds, []) :=
    State.elemPlaces_unscaled (hshape ▸ hblk) (hshape.symm ▸ hds)
  have hpiece := Cmd.elemPiece_store hrop' (c.shape.dst.off c.shape.ext cs) .psn v
  rw [hshape, henc] at hpiece
  simp only [State.putElement, hcoords, hplaces, hrop, beq_self_eq_true, if_true, hpiece, Cmd.atHome_store hrop', hland,
    WordRun.join, State.putScale_none, Bool.and_eq_true, Bool.or_eq_true, beq_iff_eq, Option.isNone_iff_eq_none, and_assoc, hword,
    hdown]

end

/-! Pieces and runs. -/

/-- The open word ends when a run has covered it, with the poison of what was written (R185). -/
theorem State.closeWord_covered (s : State) {w : WordRun} {team core i : Nat} (hplaces : w.places = [(team, core, i)])
    (hmask : w.mask = 4294967295) : s.closeWord (some w) =
      (s.writeSpad team core i ⟨(s.spadWord core i).val, w.psn⟩ (BitVec.allOnes 32), none) := by
  simp only [State.closeWord, hplaces, hmask, beq_self_eq_true, if_true, List.foldl_cons, List.foldl_nil]

theorem State.closeWord_open (s : State) {w : WordRun} (hmask : w.mask ≠ 4294967295) : s.closeWord (some w) = (s, some w) := by
  simp only [State.closeWord, beq_false_of_ne hmask, Bool.false_eq_true, if_false]

section
variable {s : State} {c : Cmd} {x : Piece} {stack off pa : Nat} (hx : x.nibble = none)
  (hup : s.placeDown c (.dev stack off) = false) (hhome : (s.hints c.agent).nc = false ∨ stack / 4 = dieOf c.core)
include hx hup hhome

/-- A piece for a home joins the open run of its line. -/
theorem State.deliverPiece_home (run : Option LineW) : s.deliverPiece c run x [.dev (.dev stack off) pa] =
    (LineW.join run false (lineWrite c.agent stack off x.bytes x.psn) pa x.bytes.length).map fun l => (s, some l) := by
  have hnear : ((s.hints c.agent).nc && stack / 4 != dieOf c.core) = false := by
    rcases hhome with h | h <;> simp [h]
  have hbytes : x.over 0 = x.bytes := by simp only [Piece.over, hx]
  simp only [State.deliverPiece, hup, hnear, hx, hbytes, Option.isSome_none, Bool.false_eq_true, if_false]
  cases LineW.join run false (lineWrite c.agent stack off x.bytes x.psn) pa x.bytes.length <;> rfl

end

/-- A write of the line of an open run keeps the run's bytes that it does not write itself. -/
theorem LineW.join_line {l : LineW} {w : HomeWrite} (hstack : l.w.stack = w.stack) (hline : l.w.line = w.line)
    (hnear : l.near = false) (pa n : Nat) : ∃ l1 : LineW, LineW.join (some l) false w pa n = some l1 ∧
      l1.w.stack = w.stack ∧ l1.w.line = w.line ∧ l1.near = false ∧ l1.w.psn = l.w.psn ++ w.psn ∧
      (∀ b ∈ w.bytes, b ∈ l1.w.bytes) ∧ ∀ b ∈ l.w.bytes, (∀ y ∈ w.bytes, y.1 ≠ b.1) → b ∈ l1.w.bytes := by
  have hjoins : (l.w.stack == w.stack && l.w.line == w.line && l.near == false) = true := by simp [hstack, hline, hnear]
  refine ⟨_, if_pos hjoins, hstack, hline, hnear, rfl, fun b hb => List.mem_append_right _ hb, fun b hb hout => ?_⟩
  refine List.mem_append_left _ (List.mem_filter.mpr ⟨hb, ?_⟩)
  simpa using fun k y hy => hout (k, y) hy

end Sys2Proof.Machine
end

section
/-! PROOFS. The work of running commands (spec 09_copy_command.md R216, R218, R219, R222, R223, R230, 10_barrier.md R250,
19_stack_logic.md R421, R434 to R436). -/

namespace Sys2Proof.Machine

/-! ELEMENT_LANDS. -/

section
variable {s : State} {n : Nat} {c : Cmd} (hc : s.cmd n = some c) (hst : c.st = .moving) (hlate : c.late = none)

include hst hlate in
/-- A moving command has work to do unless its opcode makes it wait: at the stack, for receivers, a condition or a lane. -/
theorem State.landable_of (h9 : c.op ≠ 9) (h10 : c.op ≠ 10) (hmcast : c.op = 7 → c.k < c.n)
    (hwaitc : c.op = 12 → (s.waitcDone c).isSome = true)
    (hlane : c.op = 14 ∨ c.op = 15 → (s.lane c.lane).busy = true ∧ (s.lane c.lane).queue.head? = some n) :
    s.landable n c = true := by
  simp only [State.landable, hst, hlate, beq_self_eq_true, Bool.true_and, Option.isSome_none, Bool.false_or, Bool.and_eq_true,
    Bool.or_eq_true, Bool.not_eq_true', bne_iff_ne, beq_iff_eq]
  refine ⟨⟨⟨⟨h9, h10⟩, ?_⟩, or_iff_not_imp_left.mpr fun h => hwaitc (not_not.mp h)⟩,
    or_iff_not_imp_left.mpr fun h => hlane ?_⟩
  · by_cases h7 : c.op = 7
    · simp [Nat.not_le.mpr (hmcast h7)]
    · simp [h7]
  · by_cases h14 : c.op = 14
    · exact .inl h14
    · exact .inr (not_not.mp fun h15 => h ⟨h14, h15⟩)

include hst hlate in
theorem State.landable_plain (hop : c.op ∉ [7, 9, 10, 12, 14, 15]) : s.landable n c = true := by
  simp only [List.mem_cons, List.not_mem_nil, or_false, not_or] at hop
  obtain ⟨h7, h9, h10, h12, h14, h15⟩ := hop
  exact State.landable_of hst hlate h9 h10 (absurd · h7) (absurd · h12) (absurd · (not_or.mpr ⟨h14, h15⟩))

include hc in
theorem execElementLands_next (hready : s.landable n c = true) : execElementLands n s = .next (s.landNext n c) := by
  simp only [execElementLands, hc, hready, if_true]

include hc hst hlate

theorem execElementLands_record (hunread : c.unread = true) (hop : c.op = 2) :
    execElementLands n s = .next (s.fetchRecord n c) := by
  rw [execElementLands_next hc (State.landable_plain hst hlate (by simp [hop]))]
  simp only [State.landNext, hlate, hunread, Option.isSome_none, Bool.false_eq_true, if_false, if_true]

variable (hread : c.unread = false)
include hread

theorem execElementLands_waitc (hop : c.op = 12) {code : Nat} (hdone : s.waitcDone c = some code) :
    execElementLands n s = .next (s.finish n code) := by
  rw [execElementLands_next hc (State.landable_of hst hlate (by omega) (by omega) (by omega) (fun _ => hdone ▸ rfl) (by omega))]
  simp only [State.landNext, hlate, hread, hop, hdone, Option.isSome_none, Bool.false_eq_true, if_false]

theorem execElementLands_signal (hop : c.op = 13) : execElementLands n s = .next (s.signalStore n c) := by
  rw [execElementLands_next hc (State.landable_plain hst hlate (by simp [hop]))]
  simp only [State.landNext, hlate, hread, hop, Option.isSome_none, Bool.false_eq_true, if_false]

theorem execElementLands_prefetch (hop : c.op = 16) : execElementLands n s = .next (s.prefetch n c) := by
  rw [execElementLands_next hc (State.landable_plain hst hlate (by simp [hop]))]
  simp only [State.landNext, hlate, hread, hop, Option.isSome_none, Bool.false_eq_true, if_false]

theorem execElementLands_lane (hbusy : (s.lane c.lane).busy = true) (hhead : (s.lane c.lane).queue.head? = some n) :
    (c.op = 14 → execElementLands n s = .next (s.loadStep n c)) ∧ (c.op = 15 → execElementLands n s = .next (s.runStep n c)) := by
  have hnext : c.op = 14 ∨ c.op = 15 → execElementLands n s = .next (s.landNext n c) := fun hop =>
    execElementLands_next hc (State.landable_of hst hlate (by omega) (by omega) (by omega) (by omega) fun _ => ⟨hbusy, hhead⟩)
  refine ⟨fun hop => (hnext (.inl hop)).trans ?_, fun hop => (hnext (.inr hop)).trans ?_⟩
  · simp only [State.landNext, hlate, hread, hop, Option.isSome_none, Bool.false_eq_true, if_false]
  · simp only [State.landNext, hlate, hread, hop, Option.isSome_none, Bool.false_eq_true, if_false]

/-- A command that moves elements: the run at its element. -/
theorem execElementLands_run (hop : c.op ∉ [9, 10, 12, 13, 14, 15, 16]) (hmcast : c.op = 7 → c.k < c.n) :
    let r := landRun 256 s c c.line c.word
    execElementLands n s = .next (r.1.afterLanding n r.2.1 r.2.2) := by
  simp only [List.mem_cons, List.not_mem_nil, or_false, not_or] at hop
  obtain ⟨h9, h10, h12, h13, h14, h15, h16⟩ := hop
  rw [execElementLands_next hc (State.landable_of hst hlate h9 h10 hmcast (absurd · h12) (absurd · (not_or.mpr ⟨h14, h15⟩)))]
  simp only [State.landNext, hlate, hread, Option.isSome_none, Bool.false_eq_true, if_false]

end

/-- With nothing left to land, the open run lands and the command finishes; an MCAST waits for its receivers. -/
theorem landRun_ended {s : State} {c : Cmd} (h : c.n ≤ c.k) (fuel : Nat) (run : Option LineW) (word : Option WordRun) :
    landRun (fuel + 1) s c run word =
      ((s.flush c run).setPointer c c.elemBits, { c with line := none, word := word }, none) := by
  simp only [landRun, h, if_true, State.landed]

/-- An element that leaves no run open ends the delivery. -/
theorem landRun_closed {s : State} {c : Cmd} {run : Option LineW} {word : Option WordRun} (hop : c.op ≠ 128) (hk : c.k < c.n)
    (hrun : c.run < 4096) {t : State} {d : Cmd} (h : s.landElement c run word = .ok t d none none) (fuel : Nat) :
    landRun (fuel + 1) s c run word = (t.setPointer d d.elemBits, { d with line := none, word := none }, none) := by
  rw [landRun, if_neg (Nat.not_le.mpr hk), if_neg (Nat.not_le.mpr hrun), if_neg (by simpa using hop), h]
  simp only [State.landed, State.flush]

theorem State.afterLanding_ended {s : State} {n : Nat} {c : Cmd} (hop : c.op ≠ 7) (h : c.n ≤ c.k) :
    s.afterLanding n c none = (s.setCmd n c).finish n c.code := by
  simp only [State.afterLanding, h, if_true, beq_false_of_ne hop, Bool.false_eq_true, if_false]

/-! Where two sides differ, the kernel evaluates the look-up of an address that one of them matches on, and would count one by
one to the address's bounds, which are numerals of up to 57 bits. The definitions below are therefore unfolded by their names
alone, and their look-ups rewritten before anything is compared. -/

/-- A SIGNAL of KIND 2 whose place is known stores its word there, unless its die does not answer (R223). -/
theorem State.signalStore_placed {s : State} {n : Nat} {c : Cmd} {p : Place} {x : Xl}
    (hp : s.devPlace c 1 true (c.addr false 1 : Int) = .ok (p, x)) :
    let d := { (if s.placeDown c p then c.note 9 else c) with k := 1 }
    let t := if s.placeDown c p then s else s.write c.agent ((List.range 4).map fun i => byteOf (c.w 3) i) false p
    s.signalStore n c = ((t.setPointer d 32).setCmd n d).finish n d.code := by
  intro d t
  conv_lhs => fun; fun; fun; delta State.signalStore
  rw [hp]

/-! MCAST_RECEIVER_ARRIVAL (R250). -/

section
variable {s : State} {n : Nat} {c : Cmd} (hc : s.cmd n = some c) (hst : c.st = .moving) (hlate : c.late = none)
  (hop : c.op = 7) (hk : c.n ≤ c.k)
include hc hst hlate hop hk

theorem execMcastReceiverArrival_all (hr : (s.chain c)[c.arrived]? = none) :
    execMcastReceiverArrival n s = .next ((s.setCmd n c).finish n c.code) := by
  simp [execMcastReceiverArrival, hc, hst, hlate, hop, Nat.not_lt.mpr hk, hr]

variable {r : Nat × Nat} (hr : (s.chain c)[c.arrived]? = some r)
include hr

theorem execMcastReceiverArrival_held {t : State}
    (hheld : ((s.receiverPlace c r).bind fun p => s.spadHold c p 16) = some t) : execMcastReceiverArrival n s = .next t := by
  simp [execMcastReceiverArrival, hc, hst, hlate, hop, Nat.not_lt.mpr hk, hr, hheld]

theorem execMcastReceiverArrival_arrives (hheld : ((s.receiverPlace c r).bind fun p => s.spadHold c p 16) = none) :
    let t := (s.receiverArrives c c.code r).setCmd n { c with arrived := c.arrived + 1 }
    execMcastReceiverArrival n s = .next (if (s.chain c).length ≤ c.arrived + 1 then t.finish n c.code else t) := by
  simp [execMcastReceiverArrival, hc, hst, hlate, hop, Nat.not_lt.mpr hk, hr, hheld]

end

/-! STACK_ATOMIC_APPLY (R218, R219, R421). -/

theorem execStackAtomicApply_atomc {s : State} {n : Nat} {c : Cmd} (hc : s.cmd n = some c) (hst : c.st = .moving)
    (hlate : c.late = none) (hop : c.op = 9) : execStackAtomicApply n s = .next (s.applyAtomc n c) := by
  simp [execStackAtomicApply, hc, hst, hlate, hop]

theorem execStackAtomicApply_redc {s : State} {n : Nat} {c : Cmd} (hc : s.cmd n = some c) (hst : c.st = .moving)
    (hlate : c.late = none) (hop : c.op = 10) : execStackAtomicApply n s = .next (s.applyRedc n c) := by
  simp [execStackAtomicApply, hc, hst, hlate, hop]

/-- The code that a REDC stores: the sum of integer codes, else the encoding of the result (R219). -/
def redcEnc (f : Fmt) (rop : Nat) (w : Val) (v old : Nat) : Enc :=
  match f, rop with
  | .i32, 1 => if w == Val.psn then ⟨0, true, false⟩ else ⟨(v + old) % 4294967296, false, true⟩
  | _, _ => encodeVal f w .rne false

theorem redcEnc_eq (f : Fmt) (rop : Nat) (w : Val) (v old : Nat) : redcEnc f rop w v old =
    if f = .i32 ∧ rop = 1 then (if w = .psn then ⟨0, true, false⟩ else ⟨(v + old) % 2 ^ 32, false, true⟩)
    else encodeVal f w .rne false := by
  unfold redcEnc
  split
  · simp only [and_self, if_true, beq_iff_eq, Nat.reducePow]
  · next hother => rw [if_neg fun h => hother h.1 h.2]

section
variable {s : State} {n : Nat} {c : Cmd} {p : Place} {x : Xl} {r : SpadRef}

/-- ATOMC at a place that answers: the new value by the operation, or poison; a compare-and-swap that fails or meets poison writes
nothing (R218). -/
theorem State.applyAtomc_applies (hp : s.devPlace c 1 true (c.addr false 1 : Int) = .ok (p, x)) (hup : s.placeDown c p = false)
    (hr : s.cmdRef c true c.bytes (c.w 4) = some r) (hfree : s.spadHold c r c.bytes = none) :
    let words := c.bytes / 4
    let a : Agent := { c.agent with ro := false, nc := false, atStack := true }
    let old := s.read a c.bytes p
    let here := bytesNat old.1.bytes
    let first := c.aux.take words
    let writes := fun v psn => old.2.write a ((List.range c.bytes).map fun i => byteOf v i) psn p
    let d := { c with k := 1 }
    let result := if old.1.psn then List.replicate words PWord.poison else natWords words here
    let done := fun t : State => (((t.putWords c.team r.core r.off result).setPointer d (8 * c.bytes)).setCmd n d).finish n c.code
    let op := bitsOf (c.w 0) 10 4
    (op ≠ 7 → s.applyAtomc n c = done (if old.1.psn ∨ wordsPsn first then writes 0 true
      else writes (atomValue (atomcTy (bitsOf (c.w 0) 8 2)) (atomcOp op) here (wordsNat first)) false)) ∧
    (op = 7 → s.applyAtomc n c = done (if old.1.psn = false ∧ wordsPsn first = false ∧ here = wordsNat first
      then writes (wordsNat (c.aux.drop words)) (wordsPsn (c.aux.drop words)) else old.2)) := by
  intro words a old here first writes d result done op
  have happly : s.applyAtomc n c = done (if op == 7 then
      if old.1.psn || wordsPsn first || here != wordsNat first then old.2
      else writes (wordsNat (c.aux.drop words)) (wordsPsn (c.aux.drop words))
    else if old.1.psn || wordsPsn first || (op == 7 && wordsPsn c.aux) then writes 0 true
    else writes (atomValue (atomcTy (bitsOf (c.w 0) 8 2)) (atomcOp op) here (wordsNat first)) false) := by
    conv_lhs => fun; fun; fun; delta State.applyAtomc
    simp only [hp, hr, hfree, hup]
    rfl
  refine ⟨fun hop => ?_, fun hop => ?_⟩
  · simp only [happly, beq_false_of_ne hop, Bool.false_and, Bool.or_false, Bool.or_eq_true, Bool.false_eq_true, if_false]
  · rw [happly, if_pos (beq_iff_eq.mpr hop)]
    refine congrArg done ?_
    by_cases hsame : here = wordsNat first <;> cases old.1.psn <;> cases wordsPsn first <;> simp [hsame]

/-- One element of REDC at a place that answers (R219). -/
theorem State.applyRedc_applies {t : State} {code : Nat} {psn down : Bool}
    (hread : s.readElem c c.shape.src 0 (c.k : Int) = .ok (code, psn, down, t))
    (hp : t.devPlace c 1 true ((c.shape.dst.base + c.k * c.shape.dst.fmt.size : Nat) : Int) = .ok (p, x))
    (hup : t.placeDown c p = false) :
    let f := c.shape.dst.fmt
    let a : Agent := { c.agent with ro := false, nc := false, atStack := true }
    let old := t.read a f.size p
    let w := reduce c.shape.rop (if old.1.psn then .psn else decode f false (bytesNat old.1.bytes))
      (if psn then .psn else decode f false code)
    let e : Enc := if f = .i32 ∧ c.shape.rop = 1 then
        (if w = .psn then ⟨0, true, false⟩ else ⟨(code + bytesNat old.1.bytes) % 2 ^ 32, false, true⟩)
      else encodeVal f w .rne false
    let d := { (if down then c.note 9 else c) with k := c.k + 1, run := c.run + 1 }
    s.applyRedc n c =
      ((old.2.write a ((List.range f.size).map fun i => byteOf e.code i) e.psn p).setPointer d (Fmt.bits f)).afterLanding n d none := by
  intro f a old w e d
  have he : redcEnc f c.shape.rop w code (bytesNat old.1.bytes) = e := redcEnc_eq ..
  rw [← he]
  conv_lhs => fun; fun; fun; delta State.applyRedc
  simp only [hread, hp, hup, Bool.or_false, Bool.false_eq_true, if_false]
  rfl
end

/-! TX_LANE_START (R434 to R436). -/

section
variable {s : State} {n l : Nat} {c : Cmd} (hc : s.cmd n = some c) (hhead : (s.lane l).queue.head? = some n)
  (hidle : (s.lane l).busy = false)
include hc hhead hidle

theorem execTxLaneStart_load (hop : c.op = 14) (howner : ∀ x, (s.lane l).owner = some x → x = c.ctx ∨ s.ctxLive x = false) :
    execTxLaneStart l s = .next (s.setLane l { s.lane l with owner := none, table := [], busy := true }) := by
  obtain ⟨rest, hqueue⟩ := List.head?_eq_some_iff.mp hhead
  simp only [execTxLaneStart, hqueue, hc, hidle, hop, Bool.false_eq_true, if_false, beq_self_eq_true, if_true]
  split
  · next x hx =>
    rw [if_neg]
    rcases howner x hx with h | h <;> simp [h]
  · rfl

theorem execTxLaneStart_loadRefused (hop : c.op = 14) {x : Nat} (hx : (s.lane l).owner = some x) (hne : x ≠ c.ctx)
    (hlive : s.ctxLive x = true) : execTxLaneStart l s = .next (s.finish n 13) := by
  obtain ⟨rest, hqueue⟩ := List.head?_eq_some_iff.mp hhead
  simp [execTxLaneStart, hqueue, hc, hidle, hop, hx, hne, hlive]

theorem execTxLaneStart_run (hop : c.op = 15) (howner : (s.lane l).owner = some c.ctx) :
    execTxLaneStart l s = .next ((s.setLane l { s.lane l with busy := true }).setCmd n
      { c with tx := { st := tableWord (s.lane l).table 0 / 256 % 256 } }) := by
  obtain ⟨rest, hqueue⟩ := List.head?_eq_some_iff.mp hhead
  simp [execTxLaneStart, hqueue, hc, hidle, hop, howner, bitsOf]

theorem execTxLaneStart_runRefused (hop : c.op = 15) (howner : (s.lane l).owner ≠ some c.ctx) :
    execTxLaneStart l s = .next (s.finish n 13) := by
  obtain ⟨rest, hqueue⟩ := List.head?_eq_some_iff.mp hhead
  simp [execTxLaneStart, hqueue, hc, hidle, hop, howner]

end

/-- Settles O50. Each event of a running command does the work that its opcode and its state call for; what an element, a piece
and a home write leave is what their bytes say. -/
theorem transfersProceed : Obligations.TransfersProceed := by
  unfold Obligations.TransfersProceed
  refine ⟨fun s n c hc hst hlate => ?lands, fun s n c hc hst hlate hop hread hk => ?arrives,
    fun s n c p x hc hst hlate hop hp hup r hr hfree => ?atomc,
    fun s n c code psn down t p x hc hst hlate hop hread hp hup => ?redc,
    fun s n c l hc hhead hidle => ?starts,
    fun s c run word hfill hblk hvals t d v hv => State.landElement_value hfill hblk hvals hv run word,
    fun s c run word hfill => s.landElement_fill hfill run word, fun s c n hblk => ?source,
    fun s c d slot o hfmt => ⟨fun hspad r hr => State.readElem_spad hfmt hspad hr slot,
      fun hspad p x hp => State.readElem_dev hfmt hspad hp⟩,
    fun s c run v => ⟨fun d h word => State.putElement_unwritten h run word v,
      fun d cs ds hcoords hrop hblk hds => ?stored⟩,
    fun s w => ⟨rfl, s.closeWord_open, fun team core i hplaces hmask => s.closeWord_covered hplaces hmask⟩,
    fun s team core p x hx _ => ⟨fun i b hb => s.spadByte_pieceSpad_landed team core p hx hb,
      fun i hi hpsn => s.psn_pieceSpad team core p hx hi hpsn, fun a ha => s.spadByte_pieceSpad_outside team core p hx ha,
      fun w hw => s.spadWord_pieceSpad_outside team core p hx hw⟩,
    fun s c x stack off pa hx hup hhome => ?delivered, fun s c l hnear => ?flushed, State.homeWrite_leaves⟩
  case lands =>
    refine ⟨execElementLands_record hc hst hlate, fun hread => ⟨fun hop code => execElementLands_waitc hc hst hlate hread hop,
      fun hop p x hp => ?_, execElementLands_lane hc hst hlate hread, execElementLands_prefetch hc hst hlate hread,
      fun hop hk => ?_, fun hop hk => execElementLands_run hc hst hlate hread hop fun _ => hk, fun hop hk hrun t d h => ?_⟩⟩
    · exact (execElementLands_signal hc hst hlate hread hop).trans (congrArg _ (State.signalStore_placed hp))
    · have hsub : c.op ∉ [9, 10, 12, 13, 14, 15, 16] := fun h => hop (List.mem_cons_of_mem 7 h)
      have h7 : c.op ≠ 7 := fun h => hop (h ▸ List.mem_cons_self)
      have hexec := execElementLands_run hc hst hlate hread hsub fun h => absurd h h7
      rw [landRun_ended hk 255] at hexec
      exact hexec.trans (congrArg _ (State.afterLanding_ended (c := { c with line := none }) h7 hk))
    · have hsub : c.op ∉ [9, 10, 12, 13, 14, 15, 16] := fun h => hop (List.mem_append_left [128] h)
      have h128 : c.op ≠ 128 := fun h => hop (by rw [h]; decide)
      have hexec := execElementLands_run hc hst hlate hread hsub fun _ => hk
      rwa [landRun_closed h128 hk hrun h 255] at hexec
  case arrives =>
    exact ⟨fun r hr => ⟨fun t => execMcastReceiverArrival_held hc hst hlate hop hk hr,
      execMcastReceiverArrival_arrives hc hst hlate hop hk hr⟩, execMcastReceiverArrival_all hc hst hlate hop hk⟩
  case atomc =>
    obtain ⟨hother, hcas⟩ := State.applyAtomc_applies (n := n) hp hup hr hfree
    have hexec := execStackAtomicApply_atomc hc hst hlate hop
    exact ⟨fun h => hexec.trans (congrArg _ (hother h)), fun h => hexec.trans (congrArg _ (hcas h))⟩
  case redc =>
    exact (execStackAtomicApply_redc hc hst hlate hop).trans (congrArg _ (State.applyRedc_applies hread hp hup))
  case starts =>
    exact ⟨execTxLaneStart_load hc hhead hidle, fun hop x hx => execTxLaneStart_loadRefused hc hhead hidle hop hx,
      execTxLaneStart_run hc hhead hidle, execTxLaneStart_runRefused hc hhead hidle⟩
  case source =>
    intro sh cs reads
    refine ⟨fun hidx code psn down t h => ?_, fun hidx x hx => ⟨State.srcValue_gather_poisoned hidx hx,
      fun hpsn code psn down t h => ?_⟩⟩
    · rw [State.srcValue_direct hblk hidx]
      exact State.srcData_read h
    · rw [State.srcValue_gather hblk hidx hx hpsn]
      exact State.srcData_read h
  case stored =>
    intro enc
    have henc : d.stored v = enc := by
      obtain ⟨es, rfl⟩ := State.dstCoords_entries hcoords
      rfl
    refine ⟨fun t run1 hland hdev hne => ?_, fun team core p hplace => ?_⟩
    · exact State.putElement_stored hcoords hrop hblk hds henc hland (by rw [WordRun.of_dev hdev hne, ite_self]) rfl
    · subst hplace
      exact State.putElement_stored hcoords hrop hblk hds henc rfl rfl rfl
  case delivered =>
    refine ⟨State.deliverPiece_home hx hup hhome none, fun l hstack hline hnear => ?_⟩
    obtain ⟨l1, hjoin, hl1⟩ := LineW.join_line (w := lineWrite c.agent stack off x.bytes x.psn) hstack hline hnear pa x.bytes.length
    exact ⟨l1, (State.deliverPiece_home hx hup hhome (some l)).trans (by rw [hjoin]; rfl), hl1⟩
  case flushed => simp only [State.flush, hnear, Bool.false_eq_true, if_false, beq_iff_eq]

end Sys2Proof.Machine
end

section
/-! PROOFS. Words that begin a wait (spec 10_barrier.md R247, R254, R258, 11_memory_model.md R277): what their operand checks
answer where they pass, and the wait that they leave the group in. -/

namespace Sys2Proof.Machine

/-! Operands that pass their checks. -/

/-- A set of lanes that holds none of the 32 is empty. -/
theorem maskOf_eq_zero {p : Nat → Bool} (h : ∀ L < 32, p L = false) : maskOf p = 0 := by
  refine BitVec.eq_of_getLsbD_eq fun L hL => ?_
  rw [getLsbD_maskOf, h L hL, Bool.and_false, BitVec.ofNat_eq_ofNat, BitVec.getLsbD_zero]

/-- A D operand that is clean in every enabled lane stops no word. -/
theorem cleanD_clean {v : View} {d : Lanes} (h : ∀ L ∈ v.lanes, (d L).psn = false) : cleanD v d = .ok () := by
  have hbad : maskOf (fun L => v.on L && (d L).psn) = 0 := maskOf_eq_zero fun L hL => by
    cases hon : v.on L with
    | false => rfl
    | true => exact h L (View.mem_lanes.mpr ⟨hL, hon⟩)
  rw [cleanD, hbad]
  rfl

theorem cleanD_lanesReg {v : View} {d : Nat} (h : v.cleanReg d) : cleanD v (v.lanesReg d) = .ok () := cleanD_clean h

theorem cleanD_pairReg {v : View} {d : Nat} (h : v.pairClean d) : cleanD v (v.pairReg d) = .ok () := cleanD_clean h

theorem View.acquire_ok {v : View} (h : v.acquires) : v.acquire = .ok () := by
  rw [View.acquire, h]
  rfl

/-- An object operand whose addresses pass their checks leads to the enabled lanes' places. -/
theorem objects_places {s : State} {v : View} {x : OpM} {n : Nat} (hx : x.ar.val < 28)
    (h : s.passes v false n 16 (v.source (some (x.ap.val, x.ar.val)))) :
    s.objects v x n = .ok (v.source (some (x.ap.val, x.ar.val)), s.places v n (v.source (some (x.ap.val, x.ar.val))), s) := by
  simp only [State.objects, operand_source s v _ hx, checked_places h]

/-! The words. -/

/-- What lane L of a BOWAIT waits for: the object that its address names, and the phase that D gives (R247). -/
def State.objectAwaited (s : State) (v : View) (x : OpM) (L : Nat) : ObjWait :=
  let a := v.source (some (x.ap.val, x.ar.val))
  ⟨L, (s.place v 16 a L).core, (s.place v 16 a L).off, (v.g.reg L x.d.val).val.getLsbD 0⟩

/-- What lane L of a RAWAIT waits for: the ring that its address names, and the count that D gives (R254). -/
def State.ringAwaited (s : State) (v : View) (x : OpM) (L : Nat) : RingWait :=
  let a := v.source (some (x.ap.val, x.ar.val))
  ⟨L, (s.place v 16 a L).core, (s.place v 16 a L).off, (a L).val, (v.g.reg L x.d.val).val.toNat, v.g.regIdx L x.d.val⟩

section
variable {s : State} {o : Issue} {g : Group} (hi : Issues s o g) (hl : (View.mk o g).lanes ≠ [])
  (hacq : (View.mk o g).acquires)
include hi hl hacq

theorem execBowait_waits {x : OpM} (hx : x.ar.val < 28)
    (hpass : s.passes ⟨o, g⟩ false 16 16 ((View.mk o g).source (some (x.ap.val, x.ar.val))))
    (hclean : (View.mk o g).cleanReg x.d.val) :
    execBowait x s =
      .next (s.waitFor ⟨o, g⟩ (.bowait o ((View.mk o g).lanes.map (s.objectAwaited ⟨o, g⟩ x)))).issued := by
  rw [execBowait, runWord_issues hi]
  simp only [objects_places hx hpass, bind, Except.bind, cleanD_lanesReg hclean, View.acquire_ok hacq, List.isEmpty_iff, hl,
    if_false, wordDone_ok, State.places, List.map_map]
  rfl

/-- RAWAIT reads D only where it frees a slot, so only there must D be clean (R254). -/
theorem ringWait_waits (free : Bool) {x : OpM} (hx : x.ar.val < 28)
    (hpass : s.passes ⟨o, g⟩ false 16 16 ((View.mk o g).source (some (x.ap.val, x.ar.val))))
    (hclean : free = true → (View.mk o g).cleanReg x.d.val) :
    ringWait free x s =
      .next (s.waitFor ⟨o, g⟩ (.rawait o free ((View.mk o g).lanes.map (s.ringAwaited ⟨o, g⟩ x)))).issued := by
  rw [ringWait, runWord_issues hi]
  simp only [objects_places hx hpass, bind, Except.bind, View.acquire_ok hacq, List.isEmpty_iff, hl, if_false, State.places,
    List.map_map]
  split
  · next hfree =>
    rw [cleanD_lanesReg (hclean hfree)]
    rfl
  · rfl

theorem execTlwait_waits {d : Reg} (sc : Scope) {e : Fin 4} (hclean : (View.mk o g).pairClean d.val)
    (hheld : s.holdsEngine g.ctx e.val = true) :
    execTlwait d sc e s = .next (s.waitFor ⟨o, g⟩ (.tlwait o sc (engineId g.ctx g.core e.val)
      ((View.mk o g).lanes.map fun L => (L, (g.pairAt L d.val).2)))).issued := by
  rw [execTlwait, runWord_issues hi]
  simp only [List.isEmpty_iff, hl, if_false, cleanD_pairReg hclean, hheld, View.acquire_ok hacq, bind, Except.bind]
  rfl

theorem execWpwait_waits {d : Reg} (ch : Fin 4) (hbound : ((View.mk o g).bound 0).toNat / 32 = 1)
    (hclean : (View.mk o g).pairClean d.val) :
    execWpwait d ch s = .next (s.waitFor ⟨o, g⟩ (.wpwait o (engineKey g ((View.mk o g).bound 0)) ch.val
      ((View.mk o g).lanes.map fun L => (L, (g.pairAt L d.val).2)))).issued := by
  have hcode : (g.binding 28).toNat / 32 = 1 := hbound
  rw [execWpwait, runWord_issues hi]
  simp only [List.isEmpty_iff, hl, if_false, hcode, cleanD_pairReg hclean, View.acquire_ok hacq, bind, Except.bind]
  rfl

end

/-- Settles O36: where its operands pass their checks, each of these words waits for what its lanes name. -/
theorem waitingWords : Obligations.WaitingWords := by
  unfold Obligations.WaitingWords
  refine ⟨fun x hx => ⟨?bowait, ?rawait, ?rawaitFree⟩, fun d => ⟨?tlwait, ?wpwait⟩⟩
  case bowait =>
    rintro s o g hi ⟨⟨hl, hpass, hacq⟩, hclean⟩
    exact execBowait_waits hi hl hacq hx hpass hclean
  case rawait =>
    rintro s o g hi ⟨hl, hpass, hacq⟩
    exact ringWait_waits hi hl hacq false hx hpass nofun
  case rawaitFree =>
    rintro s o g hi ⟨⟨hl, hpass, hacq⟩, hclean⟩
    exact ringWait_waits hi hl hacq true hx hpass fun _ => hclean
  case tlwait =>
    rintro sc e s o g hi ⟨hl, hclean, hheld, hacq⟩
    exact execTlwait_waits hi hl hacq sc hclean hheld
  case wpwait =>
    rintro ch s o g hi ⟨hl, hbound, hclean, hacq⟩
    exact execWpwait_waits hi hl hacq ch hbound hclean

end Sys2Proof.Machine
end

section
/-! PROOFS. FENCE (spec 11_memory_model.md R269, R274, R275): the wait that it opens, what keeps that wait open, and what
the copies of its die undergo when it completes. -/

namespace Sys2Proof.Machine

/-! Kinds and scopes. -/

/-- Every kind of fence but a release makes an acquire (R274). -/
theorem FenceKind.acquires_iff {k : FenceKind} : FenceKind.acquires k = true ↔ k ≠ .rel := by
  cases k <;> decide

/-- Every kind of fence but an acquire makes a release (R274). -/
theorem FenceKind.releases_iff {k : FenceKind} : FenceKind.releases k = true ↔ k ≠ .acq := by
  cases k <;> decide

/-- The scopes whose acquires and releases reach the copies of a die (R269). -/
theorem four_le_scopeCode_iff {sc : Scope} : 4 ≤ scopeCode sc ↔ sc = .die ∨ sc = .device ∨ sc = .system := by
  cases sc <;> decide

theorem State.acquireAt_wide {sc : Scope} (h : 4 ≤ scopeCode sc) (s : State) (ctx core : Nat) :
    s.acquireAt ctx core sc = s.dropDie ctx (dieOf core) := if_pos h

theorem State.acquireAt_near {sc : Scope} (h : ¬ 4 ≤ scopeCode sc) (s : State) (ctx core : Nat) :
    s.acquireAt ctx core sc = s := if_neg h

theorem State.releaseAt_wide {sc : Scope} (h : 4 ≤ scopeCode sc) (s : State) (ctx core : Nat) :
    s.releaseAt ctx core sc = s.writeBackDie ctx (dieOf core) := if_pos h

theorem State.releaseAt_near {sc : Scope} (h : ¬ 4 ≤ scopeCode sc) (s : State) (ctx core : Nat) :
    s.releaseAt ctx core sc = s := if_neg h

/-! A fence that opens. -/

theorem execFence_opens {s : State} {o : Issue} {g : Group} (hi : Issues s o g) (k : FenceKind) (sc : Scope)
    (hl : (View.mk o g).lanes ≠ []) (hacq : k ≠ .rel → (View.mk o g).acquires) :
    execFence k sc s =
      .next (s.modSelf ⟨o, g⟩ fun x => { x with fence := some (k, sc), switching := true }).issued := by
  rw [execFence, runWord_issues hi]
  simp only [List.isEmpty_iff, hl, if_false, FenceKind.acquires_iff]
  split
  · next hk =>
    rw [View.acquire_ok (hacq hk)]
    rfl
  · rfl

/-! A fence that completes. -/

/-- What R275 has a fence wait for: the group's reads and, where it makes a release, its remote accesses and pushes. -/
theorem fenceDone_iff {g : Group} {k : FenceKind} :
    fenceDone g k = true ↔ g.outstanding = [] ∧ (k ≠ .acq → g.remote = 0 ∧ g.pushes = []) := by
  rw [← FenceKind.releases_iff]
  simp only [fenceDone, Bool.and_eq_true, Bool.or_eq_true, Bool.not_eq_true', List.isEmpty_iff, beq_iff_eq,
    imp_iff_not_or, Bool.not_eq_true]

section
variable {s : State} {gid : Nat} {g : Group} {k : FenceKind} {sc : Scope} (hg : lookup gid s.groups = some g)
  (hf : g.fence = some (k, sc))
include hg hf

theorem State.finishFence_open (h : ¬ fenceDone g k = true) : s.finishFence gid = s := by
  simp [State.finishFence, hg, hf, h]

/-- A fence that is done makes its release, then its acquire, and closes. -/
theorem State.finishFence_done (h : fenceDone g k = true) :
    s.finishFence gid =
      (let t := if k = .acq then s else s.releaseAt g.ctx g.core sc
       if k = .rel then t else t.acquireAt g.ctx g.core sc).modGroup gid fun x =>
        { x with fence := none, switching := false } := by
  simp only [State.finishFence, hg, hf, h, Bool.not_true, Bool.false_eq_true, if_false, FenceKind.releases_iff,
    FenceKind.acquires_iff, ne_eq, ite_not]

end

/-- Settles O37: FENCE opens its wait, which stays open until it is done; then it writes the copies of its die home for a
release and drops them for an acquire, where its scope is wide enough. -/
theorem fencesOpenAndComplete : Obligations.FencesOpenAndComplete := by
  unfold Obligations.FencesOpenAndComplete
  refine ⟨fun k sc s o g hi ⟨hl, hacq⟩ => execFence_opens hi k sc hl hacq,
    fun s gid g k sc hg hf => ⟨fun hopen => ?stays, fun hread hperf => ?completes⟩⟩
  case stays =>
    refine State.finishFence_open hg hf fun hdone => ?_
    obtain ⟨hread, hperf⟩ := fenceDone_iff.mp hdone
    rcases hopen with hout | ⟨hk, hrem | hpush⟩
    · exact hout hread
    · exact hrem (hperf hk).1
    · exact hpush (hperf hk).2
  case completes =>
    have hdone := State.finishFence_done hg hf (fenceDone_iff.mpr ⟨hread, hperf⟩)
    intro wide
    refine ⟨fun hnear => ?_, fun hwide => ?_⟩
    · have hsc := mt four_le_scopeCode_iff.mp hnear
      simpa only [State.releaseAt_near hsc, State.acquireAt_near hsc, ite_self] using hdone
    · have hsc := four_le_scopeCode_iff.mpr hwide
      simpa only [State.releaseAt_wide hsc, State.acquireAt_wide hsc] using hdone

end Sys2Proof.Machine
end

section
/-! PROOFS. Traps of the matrix words (spec 12_accumulator.md R296): what each check of an MMA word answers where the checks
before it pass. -/

namespace Sys2Proof.Machine

theorem exec_mmaRule {i : Instr} {shape : Nat} {o : OpT} {sig : Option Nat} (h : mmaRule i = some (shape, o, sig)) (s : State) :
    exec i s = mmaWord shape o sig s := by
  unfold mmaRule at h
  split at h <;> cases h <;> rfl

section
variable {s : State} {is : Issue} {g : Group} (hi : Issues s is g) (hl : (View.mk is g).lanes ≠ []) (shape : Nat) {o : OpT}
  (sig : Option Nat)
include hi hl

theorem mmaWord_outside (ht : g.accn ≤ o.t.val) : mmaWord shape o sig s =
    .next (s.trapAtIssue is { kind := 15, detail := BitVec.ofNat 32 o.t.val, tmask := (View.mk is g).en }) := by
  rw [mmaWord, runWord_issues hi]
  simp only [List.isEmpty_iff, hl, if_false, tileRange, Nat.not_lt.mpr ht, bind, Except.bind, wordDone_trap]

variable (ht : o.t.val < g.accn)
include ht

theorem mmaWord_notEngine (hst : (g.tile o.t.val).st ≠ .engine) : mmaWord shape o sig s =
    .next (s.wordDone is (.error (matrixTrap ⟨is, g⟩ 1 o.t.val))) := by
  rw [mmaWord, runWord_issues hi]
  simp only [List.isEmpty_iff, hl, if_false, tileRange, ht, if_true, bind, Except.bind, bne_iff_ne, hst, ne_eq, not_false_eq_true]

variable (hst : (g.tile o.t.val).st = .engine)
include hst

theorem mmaWord_noSlot (hslot : g.slots.getD (2 * o.fs.val) none = none ∨ g.slots.getD (2 * o.fs.val + 1) none = none) :
    mmaWord shape o sig s = .next (s.wordDone is (.error (matrixTrap ⟨is, g⟩ 2 o.t.val))) := by
  rw [mmaWord, runWord_issues hi]
  simp only [List.isEmpty_iff, hl, if_false, tileRange, ht, if_true, bind, Except.bind, hst, bne_self_eq_false, Bool.false_eq_true]
  split
  · next hA hB =>
    rcases hslot with h | h
    · cases h.symm.trans hA
    · cases h.symm.trans hB
  · rfl

/-- With both slots written, their register format, class and quantum are checked in this order, before all else. -/
theorem mmaWord_slots {a b : FmtSlot} (hA : g.slots.getD (2 * o.fs.val) none = some a)
    (hB : g.slots.getD (2 * o.fs.val + 1) none = some b) : ∃ rest : Except Stop State,
    mmaWord shape o sig s = .next (s.wordDone is
      (if slotRfmt a.word ≠ (if shape = 1 then 0 else 1) ∨ slotRfmt b.word ≠ (if shape = 1 then 0 else 1) then
        .error (matrixTrap ⟨is, g⟩ 3 o.t.val)
      else if slotWide a.word ≠ (g.tile o.t.val).wide ∨ slotWide b.word ≠ (g.tile o.t.val).wide then
        .error (matrixTrap ⟨is, g⟩ 4 o.t.val)
      else if slotQ a.word + slotQ b.word ≠ (g.tile o.t.val).q then .error (matrixTrap ⟨is, g⟩ 5 o.t.val)
      else rest)) := by
  rw [mmaWord, runWord_issues hi]
  simp only [List.isEmpty_iff, hl, if_false, tileRange, ht, if_true, bind, Except.bind, hst, bne_self_eq_false, Bool.false_eq_true,
    hA, hB, Bool.or_eq_true, bne_iff_ne, beq_iff_eq]
  exact ⟨_, rfl⟩

end

/-- Settles O27: each check of an MMA word answers its trap where the checks before it pass. -/
theorem matrixTraps : Obligations.MatrixTraps := by
  unfold Obligations.MatrixTraps
  intro i shape o sig hrule s is g hi v t trap hl
  have hexec := exec_mmaRule hrule s
  refine ⟨fun hout => hexec.trans (mmaWord_outside hi hl shape sig hout),
    fun ht => ⟨fun hst => hexec.trans (mmaWord_notEngine hi hl shape sig ht hst),
      fun hst x y hx hy => ⟨fun hnone => ?_, fun a b ha hb => ?_⟩⟩⟩
  · subst hx hy
    exact hexec.trans (mmaWord_noSlot hi hl shape sig ht hst hnone)
  · obtain ⟨rest, hslots⟩ := mmaWord_slots hi hl shape sig ht hst (hx.trans ha) (hy.trans hb)
    have hchecks := hexec.trans hslots
    refine ⟨fun hformat => ?_, fun hA hB => ⟨fun hwide => ?_, fun hwA hwB hq => ?_⟩⟩
    · rwa [if_pos hformat] at hchecks
    · rwa [if_neg (by simp [hA, hB]), if_pos hwide] at hchecks
    · rwa [if_neg (by simp [hA, hB]), if_neg (by simp [hwA, hwB]), if_pos hq] at hchecks

end Sys2Proof.Machine
end

section
/-! PROOFS. Tiles between group and engine (spec 12_accumulator.md R285, R290 to R293): what the checks of AGIVE, AZERO and ATAKE
answer where they pass. -/

namespace Sys2Proof.Machine

/-! Checks that pass. -/

theorem tileRange_ok {v : View} {t : Nat} (h : t < v.g.accn) : tileRange v t = .ok () := if_pos h

theorem tileHeld_ok {v : View} {t : Nat} (h : (v.g.tile t).st = .held) (other : Stop) : tileHeld v t other = .ok () := by
  simp only [tileHeld, h]

theorem View.release_ok {v : View} (h : v.releases) : v.release = .ok () := by
  rw [View.release, show v.g.remote = 0 from h]
  rfl

/-! The words. -/

section
variable {s : State} {o : Issue} {g : Group} (hi : Issues s o g) {t : Tile}
  (ht : t.val < g.accn)
include hi ht

theorem execAgive_hands {i64 : Bool} {x : OpA} {w : Word} (hx : x.ar.val < 28) (hw : w.toNat < 1024)
    (hoperand : (View.mk o g).lowestWord (.agive t i64 x) w) (hst : (g.tile t.val).st = .held) (hrel : (View.mk o g).releases) :
    execAgive t i64 x s = .next (handOver s ⟨o, g⟩ t.val w
      (.give i64 ((g.frame.filter fun p => g.tileBase t.val ≤ p.1 && p.1 < g.tileBase t.val + 2048).map
        fun p => (p.1 - g.tileBase t.val, p.2)))).issued := by
  obtain ⟨L, hsingle⟩ := View.single_lowestWord hoperand
  rw [Instr.srcA] at hsingle
  rw [execAgive, runWord_issues hi]
  simp only [operand_source _ _ _ hx, hsingle, bind, Except.bind, tileRange_ok (v := ⟨o, g⟩) ht, tileHeld_ok (v := ⟨o, g⟩) hst,
    Nat.not_le.mpr hw, if_false, View.release_ok hrel, wordDone_ok]

theorem execAzero_hands {x : OpA} {w : Word} (hx : x.ar.val < 28) (hw : w.toNat < 1024)
    (hoperand : (View.mk o g).lowestWord (.azero t x) w) (hst : (g.tile t.val).st ≠ .taking) :
    execAzero t x s = .next (handOver s ⟨o, g⟩ t.val w .zero).issued := by
  obtain ⟨L, hsingle⟩ := View.single_lowestWord hoperand
  rw [Instr.srcA] at hsingle
  rw [execAzero, runWord_issues hi]
  simp only [operand_source _ _ _ hx, hsingle, bind, Except.bind, tileRange_ok (v := ⟨o, g⟩) ht, beq_iff_eq, hst,
    Nat.not_le.mpr hw, if_false, wordDone_ok]

theorem execAtake_takes {i64 : Bool} (hl : (View.mk o g).lanes ≠ []) (hst : (g.tile t.val).st = .engine)
    (hacq : (View.mk o g).acquires) :
    execAtake t i64 s = .next ((s.defer ⟨o, g⟩
      [.token t.val { g.tile t.val with st := .taking, xsat := false, xinv := false, xpsn := false }]).queueWork
        g.core o.gid t.val (g.tile t.val).wide (g.tile t.val).q (.take i64)).issued := by
  rw [execAtake, runWord_issues hi]
  simp only [List.isEmpty_iff, hl, if_false, tileRange_ok (v := ⟨o, g⟩) ht, hst, bne_self_eq_false, Bool.false_eq_true,
    View.acquire_ok hacq, bind, Except.bind, wordDone_ok]

end

/-- Settles O28: each of these words, where its checks pass, defers the tile's new token and queues the tile's conversion. -/
theorem tileTokensChangeHands : Obligations.TileTokensChangeHands := by
  unfold Obligations.TileTokensChangeHands
  refine ⟨fun t i64 x w hx hw => ?agive, fun t x w hx hw => ?azero, fun t i64 => ?atake⟩
  case agive =>
    rintro s o g hi ⟨hoperand, ht, hst, hrel⟩
    exact execAgive_hands hi ht hx hw hoperand hst hrel
  case azero =>
    rintro s o g hi ⟨hoperand, ht, hst⟩
    exact execAzero_hands hi ht hx hw hoperand hst
  case atake =>
    rintro s o g hi ⟨hl, ht, hst, hacq⟩
    exact execAtake_takes hi ht hl hst hacq

end Sys2Proof.Machine
end

section
/-! PROOFS. Format slots, scale memory, and tiles stored to memory (spec 12_accumulator.md R288, R289, R302 to R305): what the
checks of MFMT, MSLD, AINFO, ASTS and ASTC answer where they pass, and the effect of each word. -/

namespace Sys2Proof.Machine

/-! Checks that pass. -/

theorem addressTrap_pass {lanes : List Nat} {check : Nat → Option Nat} (h : ∀ L ∈ lanes, check L = none) (a : Lanes) :
    addressTrap lanes check a = .ok () := by
  have none_fails : ([1, 2, 3, 4].find? fun k => lanes.any fun L => check L == some k) = none := by
    simp only [List.find?_eq_none, List.any_eq_true, not_exists, not_and]
    intro k _ L hL
    simp [h L hL]
  rw [addressTrap, none_fails]

theorem granulesFree_one {s : State} {v : View} {r : SpadRef} {n : Nat} (h : s.heldBack v r n = none) :
    s.granulesFree v n [r] = .ok () := by
  simp only [State.granulesFree, List.findSome?, h]

theorem View.lowest_operandsAt {v : View} {r : Nat} {ws : List Word} (h : v.operandsAt r ws) :
    v.lowest r ws.length = .ok (some ws) := by
  obtain ⟨L, hL, hregs⟩ := h
  have hclean : (ws.map PWord.ok).find? (·.psn) = none := by
    rw [List.find?_eq_none]
    intro x hx
    obtain ⟨w, -, rfl⟩ := List.mem_map.mp hx
    exact Bool.false_ne_true
  have hvals : (ws.map PWord.ok).map (·.val) = ws := by
    rw [List.map_map]
    exact List.map_id ws
  simp only [View.lowest, hL, hregs, hclean, hvals]

/-- A local address of a principal that passes its checks names its own core's scratchpad (R183). -/
theorem State.isLocal_of_spadCheck {s : State} {v : View} {n al : Nat} {a : Word} (hshade : v.g.shade = false)
    (h : spadCheck s v true n al (PWord.ok a) = none) : s.isLocal v a = true := by
  have hclean : (PWord.ok a).psn = false := rfl
  have href : s.spadRef v.g.team v.g.shade true n a ≠ none := by
    intro hnone
    simp [spadCheck, hclean, show (PWord.ok a).val = a from rfl, hnone] at h
  rw [State.spadRef, hshade] at href
  unfold State.isLocal
  split at href
  · exact absurd rfl href
  · next t ht =>
    simp only [ht, Bool.beq_comm (a := t.rank)]
    by_contra hrank
    simp [hrank] at href

theorem spadCheck_aligned {s : State} {v : View} {lo : Bool} {n : Nat} {a : Word}
    (h : spadCheck s v lo n 16 (PWord.ok a) = none) : a.toNat % 16 = 0 := by
  have hclean : (PWord.ok a).psn = false := rfl
  simp only [spadCheck, hclean, show (PWord.ok a).val = a from rfl] at h
  split at h
  · cases h
  · split at h
    · cases h
    · split at h
      · cases h
      · next hal =>
        have : a.toNat % 262144 % 16 = 0 := by simpa using hal
        omega

theorem State.ownScale_owner {s : State} {core ctx : Nat} (h : (s.scaleMem core).owner = some ctx) :
    s.ownScale core ctx = .ok s := by
  simp only [State.ownScale, h, beq_self_eq_true, if_true]

/-! Format slots and scales. -/

/-- The D operand of an MSLD that names a legal transfer: the offset, the length in units of 16 bytes, and no reserved bit. -/
theorem msld_fields {w : Word} {off n : Nat} (hw : w.toNat = off + 65536 * (n / 16)) (hoff : off % 16 = 0) (hn : n % 16 = 0)
    (hpos : 0 < n) (hfit : off + n ≤ 16384) :
    w.toNat % 16384 = off ∧ 16 * bitsOf w.toNat 16 11 = n ∧ bitsOf w.toNat 14 2 = 0 ∧ bitsOf w.toNat 27 5 = 0 := by
  simp only [bitsOf]
  omega

section
variable {s : State} {o : Issue} {g : Group} (hi : Issues s o g)
include hi

theorem execMfmt_sets {n : Fin 8} {x : OpA} {w : Word} (hx : x.ar.val < 28) (hres : w.toNat / 256 % 256 = 0)
    (h19 : w.getLsbD 19 = false) (hblk : slotBlk w ≠ 3) (hrf : slotRfmt w < 2)
    (hoperand : (View.mk o g).lowestWord (.mfmt n x) w) (hshade : slotBlk w = 0 ∨ g.shade = false) :
    execMfmt n x s =
      .next (s.modSelf ⟨o, g⟩ fun g => { g with slots := g.slots.set n.val (some ⟨w, 0⟩) }).issued := by
  obtain ⟨L, hsingle⟩ := View.single_lowestWord hoperand
  rw [Instr.srcA] at hsingle
  have hbits : bitsOf w.toNat 8 8 = 0 := hres
  have hmay : (slotBlk w != 0 && g.shade) = false := by rcases hshade with h | h <;> simp [h]
  rw [execMfmt, runWord_issues hi]
  simp only [operand_source _ _ _ hx, hsingle, bind, Except.bind, hbits, h19, beq_false_of_ne hblk, Nat.not_le.mpr hrf, hmay,
    bne_self_eq_false, Bool.or_false, decide_false, Bool.false_eq_true, if_false, wordDone_ok]

theorem execAinfo_reports {d : Reg} {t : Tile} (hd : d.val < 28) (hl : (View.mk o g).lanes ≠ []) (ht : t.val < g.accn)
    (hidle : s.tileBusy g.core o.gid t.val = false) :
    let i := g.tile t.val
    execAinfo d t s = .next (s.receive ⟨o, g⟩ ((View.mk o g).results s.now d.val 4 fun _ =>
      PWord.ok (BitVec.ofNat 32 ((i.st == .engine).toNat * 2 ^ 31 + i.ginex.toNat * 2 ^ 29 + i.gsat.toNat * 2 ^ 28 +
        i.xsat.toNat * 2 ^ 27 + i.xinv.toNat * 2 ^ 26 + i.xpsn.toNat * 2 ^ 25 + i.wide.toNat * 2 ^ 9 +
        (i.q % 512).toNat)))).issued := by
  have hmine : ((s.works g.core).filter fun w => w.gid == o.gid && w.tile == t.val) = [] :=
    List.filter_eq_nil_iff.mpr (List.any_eq_false.mp hidle)
  rw [execAinfo, runWord_issues hi]
  simp only [List.isEmpty_iff, hl, if_false, tileRange_ok (v := ⟨o, g⟩) ht, bind, Except.bind, hidle, hmine, List.foldl_nil,
    hi.group, put_plain _ _ _ _ _ hd, wordDone_ok]
  norm_num

theorem execMsld_starts {x : OpM} {w a : Word} {off n L : Nat} (hx : x.ar.val < 28) (hw : w.toNat = off + 65536 * (n / 16))
    (hoff : off % 16 = 0) (hn : n % 16 = 0) (hpos : 0 < n) (hfit : off + n ≤ 16384) (hshade : g.shade = false)
    (hL : (View.mk o g).first = some L) (hd : g.reg L x.d.val = PWord.ok w)
    (ha : (View.mk o g).source (some (x.ap.val, x.ar.val)) L = PWord.ok a)
    (hcheck : spadCheck s ⟨o, g⟩ true n 16 (PWord.ok a) = none)
    (hheld : s.heldBack ⟨o, g⟩ (s.ref ⟨o, g⟩ n a) n = none) (howner : (s.scaleMem g.core).owner = some g.ctx) :
    let r := s.ref ⟨o, g⟩ n a
    let m := s.scaleMem g.core
    let byte := fun i =>
      let y := s.spadWord r.core ((r.off + i) / 4)
      if y.psn then (0xFF : Byte) else byteOf y.val.toNat ((r.off + i) % 4)
    execMsld x s = .next (s.setScaleMem g.core { m with xfers := m.xfers ++
      [(m.xfers.foldl (fun t y => max t y.1) s.now + (n + 127) / 128, off, (List.range n).map byte)] }).issued := by
  obtain ⟨hoffset, hlength, hlow, hhigh⟩ := msld_fields hw hoff hn hpos hfit
  have hsingle : (View.mk o g).single ((View.mk o g).lanesReg x.d.val) = .ok (some (L, w)) := by
    rw [View.single_clean hL (by rw [View.lanesReg, hd]; rfl), View.lanesReg, hd]
    rfl
  have hclean : (PWord.ok a).psn = false := rfl
  have hval : (PWord.ok a).val = a := rfl
  have htrap : addressTrap [L] (fun J => spadCheck s ⟨o, g⟩ true n 16 ((View.mk o g).source (some (x.ap.val, x.ar.val)) J))
      ((View.mk o g).source (some (x.ap.val, x.ar.val))) = .ok () :=
    addressTrap_pass (fun J hJ => by rw [List.mem_singleton.mp hJ, ha, hcheck]) _
  have hend : ¬ 16384 < off + n := not_lt.mpr hfit
  have hlen : ¬ 16384 < n := by omega
  rw [execMsld, runWord_issues hi]
  simp only [operand_source _ _ _ hx, hsingle, bind, Except.bind, hshade, ha, hclean, hval, hoffset, hlength, hlow, hhigh, hoff,
    beq_false_of_ne hpos.ne', hlen, hend, spadCheck_aligned hcheck, State.isLocal_of_spadCheck (v := ⟨o, g⟩) hshade hcheck, htrap,
    granulesFree_one hheld, State.ownScale_owner howner, bne_self_eq_false, decide_false,
    Bool.or_self, Bool.not_true, Bool.false_eq_true, if_false, wordDone_ok]

end

/-! Stored tiles. -/

/-- Word 6 of the command that an ASTC posts: its saturation and its rounding (R304). -/
def storeOptions (x : OpAst) : Word :=
  (if x.sat then 4 else 0) + match x.rnd with
    | .rne => 0
    | .ef => 1
    | .rz => 2

theorem ofNat_storeOptions (x : OpAst) : BitVec.ofNat 32 ((if x.sat then 4 else 0) + match x.rnd with
    | .rne => 0
    | .ef => 1
    | .rz => 2) = storeOptions x := by
  obtain ⟨t, ar, sat, rnd⟩ := x
  cases sat <;> cases rnd <;> rfl

section
variable {s : State} {o : Issue} {g : Group} (hi : Issues s o g) {x : OpAst} (ht : x.t.val < g.accn)
  (hst : (g.tile x.t.val).st = .held)
include hi ht hst

theorem execAsts_stores {a sw : Word} (hbad : storeBad sw x = false) (hfmt : storeFmt sw ≠ none)
    (hoperands : (View.mk o g).operandsAt x.ar.val [a, sw])
    (hcheck : spadCheck s ⟨o, g⟩ false ((View.mk o g).tileBytes x sw) (storeSize sw) (PWord.ok a) = none)
    (hheld : s.heldBack ⟨o, g⟩ (s.ref ⟨o, g⟩ ((View.mk o g).tileBytes x sw) a) ((View.mk o g).tileBytes x sw) = none)
    (hcore : (s.ref ⟨o, g⟩ ((View.mk o g).tileBytes x sw) a).core = g.core) (hreach : s.reaching o.gid [g.core] = false) :
    execAsts x s = .next (s.spadWrites g.team g.core (planWrites ⟨o, g⟩ x.t.val sw
      (s.ref ⟨o, g⟩ ((View.mk o g).tileBytes x sw) a).off (storePlan ⟨o, g⟩ x.t.val sw x))).issued := by
  have hlowest : (View.mk o g).lowest x.ar.val 2 = .ok (some [a, sw]) := View.lowest_operandsAt hoperands
  rw [View.tileBytes] at *
  rw [execAsts, runWord_issues hi]
  simp only [hlowest, bind, Except.bind, tileRange_ok (v := ⟨o, g⟩) ht, tileHeld_ok (v := ⟨o, g⟩) hst, List.getD_cons_zero,
    List.getD_cons_succ, hbad, Option.isNone_eq_false_iff.mpr (Option.ne_none_iff_isSome.mp hfmt), Bool.or_self,
    Bool.false_eq_true, if_false, addressTrap_pass (fun _ _ => hcheck), granulesFree_one hheld, hcore, hreach,
    beq_self_eq_true, Bool.not_false, Bool.and_self, if_true, wordDone_ok]

theorem execAstc_posts {w0 w1 w2 w3 w4 : Word} (hoperands : (View.mk o g).operandsAt x.ar.val [w0, w1, w2, w3, w4])
    (htakes : s.takes ⟨o, g⟩ 0 8) :
    execAstc x s = .next (s.hold ⟨o, g⟩
      { code := (View.mk o g).bound 0
        words := [BitVec.ofNat 32 (0x80000000 + w3.toNat % 2 ^ 24), w0, w1, w2, w3, w4, storeOptions x, 0].map PWord.ok
        due := some (s.now + 1), lanes := [(View.mk o g).first.getD 0], origin := o
        plan := storePlan ⟨o, g⟩ x.t.val w2 x, esize := max 1 (storeSize w2) }).issued := by
  obtain ⟨hcode, hlevel, hroom⟩ := htakes
  have hbound : (g.binding 28).toNat / 32 = 1 := hcode
  have hpush : s.pushCheck ⟨o, g⟩ (g.binding 28) 8 = .ok s := by
    rw [pushCheck_command s ⟨o, g⟩ hbound, if_neg (not_le.mpr hlevel)]
    exact if_neg (not_lt.mpr hroom)
  have hlowest : (View.mk o g).lowest x.ar.val 5 = .ok (some [w0, w1, w2, w3, w4]) := View.lowest_operandsAt hoperands
  rw [execAstc, runWord_issues hi]
  simp only [hlowest, bind, Except.bind, tileRange_ok (v := ⟨o, g⟩) ht, tileHeld_ok (v := ⟨o, g⟩) hst, hbound,
    bne_self_eq_false, Bool.false_eq_true, if_false, hpush, wordDone_ok, List.map_cons, List.map_nil, List.getD_cons_zero,
    List.getD_cons_succ, BitVec.ofNat_toNat, BitVec.setWidth_eq]
  rw [← ofNat_storeOptions]
  rfl

end

/-- Settles O29: each of these words, where its checks pass, has the effect of its equation above. -/
theorem formatsScalesAndStores : Obligations.FormatsScalesAndStores := by
  unfold Obligations.FormatsScalesAndStores
  refine ⟨⟨fun n x w hx hres h19 hblk hrf => ?mfmt, fun x w a off n hx hw hoff hn hpos hfit => ?msld, fun d t hd => ?ainfo⟩,
    fun x a sw hbad hfmt => ?asts, fun x w0 w1 w2 w3 w4 => ?astc⟩
  case mfmt =>
    rintro s o g hi ⟨hoperand, hshade⟩
    exact execMfmt_sets hi hx hres h19 hblk hrf hoperand hshade
  case msld =>
    rintro s o g hi ⟨hshade, ⟨L, hL, hd, ha⟩, hcheck, hheld, howner⟩
    exact execMsld_starts hi hx hw hoff hn hpos hfit hshade hL hd ha hcheck hheld howner
  case ainfo =>
    rintro s o g hi ⟨hl, ht, hidle⟩
    exact execAinfo_reports hi hd hl ht hidle
  case asts =>
    rintro s o g hi ⟨hoperands, ht, hst, hcheck, hheld, hcore, hreach⟩
    exact execAsts_stores hi ht hst hbad hfmt hoperands hcheck hheld hcore hreach
  case astc =>
    rintro s o g hi ⟨hoperands, ht, hst, htakes⟩
    exact execAstc_posts hi ht hst hoperands htakes

end Sys2Proof.Machine
end

section
/-! PROOFS. The residue form is exact (spec 12_accumulator.md R286, R287, R293, R297): an element is a number whose base-256
digits are the residues and the check code, the residues give the integer back by the Chinese remainder theorem, and products
act on each digit alone. -/

namespace Sys2Proof.Machine

/-! Elements as digits. -/

/-- The residues of an integer in the channels of a tile. -/
def residues (wide : Bool) (v : Int) : List Nat := (mods.take (chans wide)).map fun m : Nat => (v % (m : Int)).toNat

theorem length_mods_take (wide : Bool) : (mods.take (chans wide)).length = chans wide := by cases wide <;> rfl

theorem length_residues (wide : Bool) (v : Int) : (residues wide v).length = chans wide := by
  rw [residues, List.length_map, length_mods_take]

theorem mods_bounds {wide : Bool} {m : Nat} (h : m ∈ mods.take (chans wide)) : 0 < m ∧ m ≤ 256 := by
  have hall : ∀ m ∈ mods, 0 < m ∧ m ≤ 256 := by decide
  exact hall m (List.mem_of_mem_take h)

theorem residue_lt {m : Nat} (hm : 0 < m) (v : Int) : (v % (m : Int)).toNat < m := by
  have hpos : (0 : Int) < m := Int.natCast_pos.mpr hm
  have hlo := Int.emod_nonneg v hpos.ne'
  have hhi := Int.emod_lt_of_pos v hpos
  omega

theorem residues_lt {wide : Bool} {v : Int} {r : Nat} (h : r ∈ residues wide v) : r < 256 := by
  obtain ⟨m, hm, rfl⟩ := List.mem_map.mp h
  obtain ⟨hpos, hle⟩ := mods_bounds hm
  exact Nat.lt_of_lt_of_le (residue_lt hpos v) hle

/-- A sum of weighted values, as the model writes elements, is the number with these digits. -/
theorem foldl_mapIdx_eq_ofDigits (f : Nat → Nat) (ms : List Nat) :
    (ms.mapIdx fun k m => f m * 256 ^ k).foldl (· + ·) 0 = Nat.ofDigits 256 (ms.map f) := by
  have hmap : (ms.mapIdx fun k m => f m * 256 ^ k) = (ms.map f).mapIdx fun k d => d * 256 ^ k :=
    List.ext_getElem (by simp) (by simp)
  rw [Nat.ofDigits_eq_sum_mapIdx, List.sum_eq_foldl, hmap]

theorem toRes_eq (wide : Bool) (v : Int) (code : Nat) :
    toRes wide v code = Nat.ofDigits 256 (residues wide v) + code * 256 ^ 7 := by
  rw [toRes, residues, ← foldl_mapIdx_eq_ofDigits]

theorem ofDigits_residues_lt (wide : Bool) (v : Int) : Nat.ofDigits 256 (residues wide v) < 256 ^ chans wide := by
  have h := Nat.ofDigits_lt_base_pow_length (b := 256) (l := residues wide v) (by decide) fun _ => residues_lt
  rwa [length_residues] at h

theorem ofDigits_residues_lt_pow (wide : Bool) (v : Int) : Nat.ofDigits 256 (residues wide v) < 256 ^ 7 :=
  (ofDigits_residues_lt wide v).trans_le (Nat.pow_le_pow_right (by decide) (by cases wide <;> decide))

theorem elemByteOf_ofDigits {ds : List Nat} (h : ∀ d ∈ ds, d < 256) (k : Nat) :
    elemByteOf (Nat.ofDigits 256 ds) k = ds.getD k 0 := by
  induction ds generalizing k with
  | nil => simp [elemByteOf]
  | cons d ds ih =>
    have hd : d < 256 := h d List.mem_cons_self
    rw [Nat.ofDigits_cons]
    cases k with
    | zero =>
      simp only [elemByteOf, pow_zero, Nat.div_one, List.getD_cons_zero]
      omega
    | succ k =>
      rw [List.getD_cons_succ, ← ih (fun x hx => h x (List.mem_cons_of_mem d hx)), elemByteOf, elemByteOf, pow_succ',
        ← Nat.div_div_eq_div_mul]
      congr 2
      omega

theorem length_channels (wide : Bool) (v : Int) : (residues wide v ++ List.replicate (7 - chans wide) 0).length = 7 := by
  rw [List.length_append, length_residues, List.length_replicate]
  cases wide <;> rfl

/-- The digits of an element: the residues, a 0 in each channel that the tile does not use, and the check code. -/
theorem toRes_eq_ofDigits (wide : Bool) (v : Int) (code : Nat) :
    toRes wide v code = Nat.ofDigits 256 (residues wide v ++ List.replicate (7 - chans wide) 0 ++ [code]) := by
  rw [toRes_eq, Nat.ofDigits_append, length_channels, Nat.ofDigits_append_replicate_zero, Nat.ofDigits_singleton, Nat.mul_comm code]

section
variable {wide : Bool} {v : Int} {code : Nat} (hcode : code < 256)
include hcode

theorem elemByteOf_toRes (k : Nat) : elemByteOf (toRes wide v code) k =
    (residues wide v ++ List.replicate (7 - chans wide) 0 ++ [code]).getD k 0 := by
  rw [toRes_eq_ofDigits]
  refine elemByteOf_ofDigits (fun d hd => ?_) k
  rcases List.mem_append.mp hd with hd | hd
  · rcases List.mem_append.mp hd with hd | hd
    · exact residues_lt hd
    · rw [List.eq_of_mem_replicate hd]
      decide
  · rwa [List.mem_singleton.mp hd]

theorem elemByteOf_toRes_residue {k : Nat} (hk : k < chans wide) :
    elemByteOf (toRes wide v code) k = (v % (mods.getD k 0 : Nat)).toNat := by
  have hmods : k < mods.length := lt_of_lt_of_le hk (by cases wide <;> decide)
  rw [elemByteOf_toRes hcode, List.append_assoc, List.getD_append _ _ _ _ (by rwa [length_residues])]
  simp [residues, hk, hmods]

theorem elemByteOf_toRes_unused {k : Nat} (hlo : chans wide ≤ k) (hhi : k < 7) : elemByteOf (toRes wide v code) k = 0 := by
  rw [elemByteOf_toRes hcode, List.append_assoc, List.getD_append_right _ _ _ _ (by rwa [length_residues]), length_residues,
    List.getD_append _ _ _ _ (by rw [List.length_replicate]; omega), List.getD_replicate _ (by omega)]

theorem elemByteOf_toRes_code : elemByteOf (toRes wide v code) 7 = code := by
  rw [elemByteOf_toRes hcode, List.getD_append_right _ _ _ _ (length_channels wide v).le, length_channels]
  rfl

theorem toRes_lt : toRes wide v code < 2 ^ 64 := by
  have hlow := ofDigits_residues_lt_pow wide v
  rw [toRes_eq]
  omega

end

/-- Every byte of an element in residue form lies below its modulus. -/
theorem badBytes_toRes {wide : Bool} {v : Int} {code : Nat} (hlimit : code < 236) :
    badBytes wide (toRes wide v code) = 0 := by
  have hcode : code < 256 := by omega
  refine List.countP_eq_zero.mpr fun k hk => ?_
  have hk8 : k < 8 := List.mem_range.mp hk
  rw [decide_eq_true_eq, Nat.not_le]
  by_cases h7 : k = 7
  · subst h7
    rw [elemByteOf_toRes_code hcode]
    exact hlimit
  · rw [if_neg (by simpa using h7)]
    by_cases hused : k < chans wide
    · have hpos : 0 < mods.getD k 0 := by
        have hall : ∀ k < 7, 0 < mods.getD k 0 := by decide
        exact hall k (by omega)
      rw [if_pos hused, elemByteOf_toRes_residue hcode hused]
      exact residue_lt hpos v
    · rw [if_neg hused, elemByteOf_toRes_unused hcode (Nat.not_lt.mp hused) (by omega)]
      decide

theorem pairNat_natPair {n : Nat} (h : n < 2 ^ 64) : pairNat (natPair n) = n := by
  simp only [pairNat, natPair, PWord.ok, BitVec.toNat_ofNat]
  omega

/-! The integer from its residues. -/

/-- Of the candidates x + p * t below p * m, the one with residue X % m is X % (p * m). -/
theorem find_crt {p m X : Nat} (hm : 0 < m) (hcop : p.Coprime m) :
    ((List.range m).map fun t => X % p + p * t).find? (fun y => y % m == X % m) = some (X % (p * m)) := by
  have hsplit : X % (p * m) = X % p + p * (X / p % m) := Nat.mod_mul
  have hmem : X % (p * m) ∈ (List.range m).map fun t => X % p + p * t :=
    List.mem_map.mpr ⟨X / p % m, List.mem_range.mpr (Nat.mod_lt _ hm), hsplit.symm⟩
  have hres : X % (p * m) % m = X % m := Nat.mod_mul_left_mod X p m
  have hsome := List.find?_isSome (p := fun y => y % m == X % m).mpr ⟨_, hmem, beq_iff_eq.mpr hres⟩
  obtain ⟨y, hy⟩ := Option.isSome_iff_exists.mp hsome
  obtain ⟨t, ht, rfl⟩ := List.mem_map.mp (List.mem_of_find?_eq_some hy)
  have hfound : (X % p + p * t) % m = X % m := by simpa using List.find?_some hy
  have hmod : X % p + p * t ≡ X % p + p * (X / p % m) [MOD m] := by
    rw [Nat.ModEq, hfound, ← hsplit, hres]
  have ht' : t ≡ X / p % m [MOD m] :=
    Nat.ModEq.cancel_left_of_coprime hcop.symm (Nat.ModEq.add_left_cancel' _ hmod)
  rw [hy, hsplit, ht'.eq_of_lt_of_lt (List.mem_range.mp ht) (Nat.mod_lt _ hm)]

theorem crtFrom_residues {ms : List Nat} {p X : Nat} (hpos : ∀ m ∈ ms, 0 < m) (hcop : (p :: ms).Pairwise Nat.Coprime) :
    crtFrom (ms.map fun m => (X % m, m)) (X % p) p = X % (p * ms.prod) := by
  induction ms generalizing p with
  | nil => simp [crtFrom]
  | cons m ms ih =>
    obtain ⟨hp, hms⟩ := List.pairwise_cons.mp hcop
    obtain ⟨hm, hrest⟩ := List.pairwise_cons.mp hms
    have hnext : (p * m :: ms).Pairwise Nat.Coprime := List.pairwise_cons.mpr
      ⟨fun q hq => Nat.Coprime.mul_left (hp q (List.mem_cons_of_mem m hq)) (hm q hq), hrest⟩
    rw [List.map_cons, crtFrom, find_crt (hpos m List.mem_cons_self) (hp m List.mem_cons_self), Option.getD_some,
      ih (fun q hq => hpos q (List.mem_cons_of_mem m hq)) hnext, List.prod_cons, Nat.mul_assoc]

theorem tileP_eq_prod (wide : Bool) : tileP wide = (mods.take (chans wide)).prod := by cases wide <;> decide

theorem mods_coprime (wide : Bool) : (1 :: mods.take (chans wide)).Pairwise Nat.Coprime := by
  have hall : (1 :: mods).Pairwise Nat.Coprime := by decide
  exact hall.sublist ((List.take_sublist _ _).cons_cons 1)

/-- The signed value of v modulo p is v, where v lies in the half range about 0 that Sat keeps. -/
theorem crtSigned_emod {v : Int} {p : Nat} (heven : p % 2 = 0) (hlo : -((p : Int) / 2) ≤ v) (hhi : v ≤ (p : Int) / 2 - 1) :
    crtSigned (v % (p : Int)).toNat p = v := by
  unfold crtSigned
  by_cases hv : 0 ≤ v
  · rw [Int.emod_eq_of_lt hv (by omega)]
    split <;> omega
  · have hmod : v % (p : Int) = v + p := by
      rw [← Int.add_emod_right, Int.emod_eq_of_lt (by omega) (by omega)]
    rw [hmod]
    split <;> omega

theorem tileSat_range {wide : Bool} {v : Int} (h : tileSat wide v = v) :
    -((tileP wide : Int) / 2) ≤ v ∧ v ≤ (tileP wide : Int) / 2 - 1 := by
  have hpos : 2 ≤ tileP wide := by cases wide <;> decide
  simp only [tileSat] at h
  omega

theorem emod_toNat_mod {p m : Nat} (hp : 0 < p) (hdvd : m ∣ p) (v : Int) :
    (v % (p : Int)).toNat % m = (v % (m : Int)).toNat := by
  have hnonneg : 0 ≤ v % (p : Int) := Int.emod_nonneg v (by omega)
  rw [← Int.emod_emod_of_dvd v (Int.natCast_dvd_natCast.mpr hdvd), Int.toNat_emod hnonneg (Int.natCast_nonneg m),
    Int.toNat_natCast]

theorem fromRes_toRes {wide : Bool} {v : Int} (h : tileSat wide v = v) {code : Nat} (hcode : code < 256) :
    fromRes wide (toRes wide v code) = v := by
  obtain ⟨hlo, hhi⟩ := tileSat_range h
  have hpos : 0 < tileP wide := by cases wide <;> decide
  have hchannels : ((mods.take (chans wide)).mapIdx fun k m => (elemByteOf (toRes wide v code) k, m)) =
      (mods.take (chans wide)).map fun m => ((v % (tileP wide : Int)).toNat % m, m) := by
    refine List.ext_getElem (by simp) fun k hk _ => ?_
    obtain ⟨hused, hmods⟩ : k < chans wide ∧ k < mods.length := by simpa using hk
    have hdvd : mods[k] ∣ tileP wide := by
      rw [tileP_eq_prod]
      exact List.dvd_prod (List.mem_take_iff_getElem.mpr ⟨k, by omega, rfl⟩)
    simp [elemByteOf_toRes_residue hcode hused, emod_toNat_mod hpos hdvd, hmods]
  have hcrt := crtFrom_residues (p := 1) (X := (v % (tileP wide : Int)).toNat) (fun m hm => (mods_bounds hm).1)
    (mods_coprime wide)
  rw [Nat.mod_one, Nat.one_mul, ← tileP_eq_prod, Nat.mod_eq_of_lt (residue_lt hpos v)] at hcrt
  rw [fromRes, hchannels, hcrt]
  exact crtSigned_emod (by cases wide <;> decide) hlo hhi

/-! Elements taken and accumulated. -/

/-- The element that holds an integer with its check code. -/
def exactElem (wide : Bool) (v : Int) : PWord × PWord := natPair (toRes wide v (v % 233).toNat)

theorem checkCode_lt (v : Int) : (v % 233).toNat < 233 := residue_lt (m := 233) (by decide) v

theorem pairNat_exactElem (wide : Bool) (v : Int) : pairNat (exactElem wide v) = toRes wide v (v % 233).toNat :=
  pairNat_natPair (toRes_lt (by have := checkCode_lt v; omega))

theorem takeKind_exactElem {wide : Bool} {v : Int} (h : tileSat wide v = v) : takeKind wide (exactElem wide v) = .good v := by
  have hcode := checkCode_lt v
  have hcode256 : (v % 233).toNat < 256 := by omega
  have hresidues : resBad wide (toRes wide v (v % 233).toNat) = false := by
    rw [resBad, badBytes_toRes (by omega)]
    rfl
  have hclean : (exactElem wide v).1.psn = false ∧ (exactElem wide v).2.psn = false := ⟨rfl, rfl⟩
  simp only [takeKind, pairNat_exactElem, elemByteOf_toRes_code hcode256, hresidues, fromRes_toRes h hcode256, hclean,
    beq_false_of_ne (show (v % 233).toNat ≠ 234 by omega), beq_false_of_ne (show (v % 233).toNat ≠ 233 by omega),
    beq_false_of_ne (show (v % 233).toNat ≠ 235 by omega), bne_self_eq_false, Bool.or_self, Bool.false_eq_true, if_false]

theorem products_concat {b : List Ent} {k : Nat} {y : Int} (hk : b.getD k (.num 0 false) = .num y false)
    (a : List (Nat × Ent)) (x : Int) :
    products (a ++ [(k, .num x false)]) b = ((products a b).1 + x * y, true, (products a b).2.2) := by
  rw [products, List.foldl_append, List.foldl_cons, List.foldl_nil, hk]
  rfl

/-- Products of numbers that none saturated add up, and leave no sticky code. -/
theorem products_exact {b : List Ent} {bs : Nat → Int} (ps : List (Nat × Int))
    (hb : ∀ p ∈ ps, b.getD p.1 (.num 0 false) = .num (bs p.1) false) :
    products (ps.map fun p => (p.1, .num p.2 false)) b = ((ps.map fun p => p.2 * bs p.1).sum, !ps.isEmpty, 0) := by
  induction ps using List.reverseRecOn with
  | nil => rfl
  | append_singleton ps p ih =>
    have hps := ih fun q hq => hb q (List.mem_append_left [p] hq)
    have hp := hb p (List.mem_append_right ps List.mem_cons_self)
    rw [List.map_append, List.map_singleton, products_concat hp, hps]
    simp

/-- Each residue of an element takes the sum in its own channel. -/
theorem residues_add {wide : Bool} {x sum : Int} {code : Nat} (hcode : code < 256) :
    ((mods.take (chans wide)).mapIdx fun k (m : Nat) =>
      ((((elemByteOf (toRes wide x code) k : Nat) : Int) + sum) % (m : Int)).toNat * 256 ^ k).foldl (· + ·) 0 =
      Nat.ofDigits 256 (residues wide (x + sum)) := by
  rw [residues, ← foldl_mapIdx_eq_ofDigits]
  congr 1
  refine List.ext_getElem (by simp) fun k hk _ => ?_
  obtain ⟨hused, hmods⟩ : k < chans wide ∧ k < mods.length := by simpa using hk
  have hmem : mods[k] ∈ mods.take (chans wide) := List.mem_take_iff_getElem.mpr ⟨k, by omega, rfl⟩
  have hpos : 0 < mods[k] := (mods_bounds hmem).1
  have hnonneg : 0 ≤ x % (mods[k] : Int) := Int.emod_nonneg x (by omega)
  simp [elemByteOf_toRes_residue hcode hused, hmods, hnonneg]

theorem toRes_unused (wide : Bool) (v : Int) (code : Nat) :
    toRes wide v code / 256 ^ chans wide % 256 ^ (7 - chans wide) = 0 := by
  have hlow := ofDigits_residues_lt wide v
  have hsplit : (256 : Nat) ^ 7 = 256 ^ chans wide * 256 ^ (7 - chans wide) := by cases wide <;> rfl
  rw [toRes_eq, hsplit, Nat.mul_left_comm, Nat.add_mul_div_left _ _ (by positivity), Nat.div_eq_of_lt hlow, Nat.zero_add,
    Nat.mul_mod_left]

theorem toRes_low (wide : Bool) (v : Int) (code : Nat) : toRes wide v code % 256 ^ 7 = Nat.ofDigits 256 (residues wide v) := by
  have hlow := ofDigits_residues_lt_pow wide v
  rw [toRes_eq]
  omega

/-- The check code of a sum from the check code of a summand. -/
theorem checkCode_add (x sum : Int) : ((((x % 233).toNat : Nat) : Int) + sum) % 233 = (x + sum) % 233 := by
  have hnonneg : 0 ≤ x % 233 := Int.emod_nonneg x (by decide)
  rw [Int.toNat_of_nonneg hnonneg, Int.emod_add_emod]

/-- Products act on each residue and on the check code as their sum does on the integer. -/
theorem mmaElem_exactElem {wide : Bool} {x : Int} {ps : List (Nat × Int)} {b : List Ent} {bs : Nat → Int}
    (hb : ∀ p ∈ ps, b.getD p.1 (.num 0 false) = .num (bs p.1) false) :
    mmaElem wide (ps.map fun p => (p.1, .num p.2 false)) b (exactElem wide x) =
      exactElem wide (x + (ps.map fun p => p.2 * bs p.1).sum) := by
  have hcode := checkCode_lt x
  have hcode256 : (x % 233).toNat < 256 := by omega
  have hlimit : (x % 233).toNat ≤ 232 := by omega
  have hlow : (if (!ps.isEmpty) = true then Nat.ofDigits 256 (residues wide (x + (ps.map fun p => p.2 * bs p.1).sum))
      else Nat.ofDigits 256 (residues wide x)) =
      Nat.ofDigits 256 (residues wide (x + (ps.map fun p => p.2 * bs p.1).sum)) := by
    cases ps with
    | nil => simp
    | cons p ps => rfl
  simp only [mmaElem, pairNat_exactElem, products_exact ps hb, residues_add hcode256, elemByteOf_toRes_code hcode256,
    toRes_unused, toRes_low, checkCode_add,
    bne_self_eq_false, Bool.false_eq_true, if_false, hlimit, if_true, Nat.zero_mul, Nat.add_zero, hlow, ← toRes_eq]
  rfl

/-- Settles O30: an element's digits are the residues of its integer, which give it back, and on which products act alone. -/
theorem residueArithmeticIsExact : Obligations.ResidueArithmeticIsExact := by
  unfold Obligations.ResidueArithmeticIsExact
  intro wide x hx elem
  refine ⟨takeKind_exactElem hx, fun ps b bs hb => ?_⟩
  intro sum _
  exact mmaElem_exactElem hb

end Sys2Proof.Machine
end

section
/-! PROOFS. Events of the matrix engine (spec 12_accumulator.md R289, R292, R293, R297 to R299, R306): which work an event takes,
and what it leaves in the tile. -/

namespace Sys2Proof.Machine

/-! The work that an event takes. -/

/-- A work is an MMA that heads its tile's works. -/
def MWork.appliable (u : MWork) : Prop := u.ready ≠ none ∧ ∃ a b sig, u.kind = .mma a b sig

/-- A work is a conversion that heads the works of a tile. -/
def MWork.converts (u : MWork) (gid t : Nat) : Prop :=
  u.gid = gid ∧ u.tile = t ∧ u.ready ≠ none ∧ ∀ a b sig, u.kind ≠ .mma a b sig

/-- The signal of an MMA of a group is given to the counter that `.sig` names, and no checkpoint gives it again (R299). -/
def State.signalMma (t : State) (g : Group) (w : MWork) : Option Nat → State
  | some dep =>
    (t.modTeam g.team fun x => { x with ckpt := x.ckpt.map fun c => c.signalled w.gid w.tile }).decrement (t.clusterOf g) dep
  | none => t

section
variable {s : State} {core : Nat} {w : MWork} {before after : List MWork} (hworks : s.works core = before ++ w :: after)
include hworks

theorem State.nextMma_first (hw : w.appliable) (hbefore : ∀ u ∈ before, ¬ u.appliable) : s.nextMma core = some w := by
  refine List.find?_eq_some_iff_append.mpr ⟨?_, before, after, hworks, fun u hu => ?_⟩
  · obtain ⟨hready, a, b, sig, hkind⟩ := hw
    rw [hkind, Option.isSome_iff_ne_none.mpr hready]
    rfl
  · rw [Bool.not_eq_true', Bool.eq_false_iff, ne_eq, Bool.and_eq_true, Option.isSome_iff_ne_none]
    rintro ⟨hready, hmma⟩
    cases hkind : u.kind with
    | mma a b sig => exact hbefore u hu ⟨hready, a, b, sig, hkind⟩
    | _ => simp [hkind] at hmma

theorem State.conversion_first {gid t : Nat} (hw : w.converts gid t) (hbefore : ∀ u ∈ before, ¬ u.converts gid t) :
    s.conversion core gid t = some w := by
  refine List.find?_eq_some_iff_append.mpr ⟨?_, before, after, hworks, fun u hu => ?_⟩
  · obtain ⟨hgid, htile, hready, hkind⟩ := hw
    rw [hgid, htile, Option.isSome_iff_ne_none.mpr hready]
    cases hk : w.kind with
    | mma a b sig => exact absurd hk (hkind a b sig)
    | _ => simp
  · rw [Bool.not_eq_true', Bool.eq_false_iff, ne_eq]
    simp only [Bool.and_eq_true, beq_iff_eq, Option.isSome_iff_ne_none]
    rintro ⟨⟨⟨hgid, htile⟩, hready⟩, hconv⟩
    refine hbefore u hu ⟨hgid, htile, hready, fun a b sig hk => ?_⟩
    simp [hk] at hconv

/-- The first MMA that heads its tile's works is applied, and gives its signal (R297, R299). -/
theorem execMmaApply_applies {g : Group} {a : List (Nat × List (Nat × Ent))} {b : List (List Ent)} {sig : Option Nat}
    (hready : w.ready ≠ none)
    (hkind : w.kind = .mma a b sig) (hbefore : ∀ u ∈ before, ¬ u.appliable) (hg : lookup w.gid s.groups = some g) :
    execMmaApply core s = .next
      (((s.applyWork core w).setWorks core (dropWork s.now w.gid w.tile (s.works core))).signalMma g w sig) := by
  have hnext := State.nextMma_first hworks ⟨hready, a, b, sig, hkind⟩ hbefore
  cases sig <;> simp only [execMmaApply, hnext, hkind, hg, State.signalMma]

theorem execTileConversionEnd_converts {gid t r : Nat} {g : Group} (hg : lookup gid s.groups = some g) (hcore : g.core = core)
    (hw : w.converts gid t) (hbefore : ∀ u ∈ before, ¬ u.converts gid t) (hready : w.ready = some r) (hdue : r + 32 ≤ s.now) :
    execTileConversionEnd gid t s =
      .next ((s.applyWork g.core w).setWorks g.core (dropWork s.now gid t (s.works g.core))) := by
  subst hcore
  simp only [execTileConversionEnd, hg, State.conversion_first hworks hw hbefore, hready, Option.getD_some,
    Nat.not_lt.mpr hdue, if_false]

end

/-! What a work leaves in its tile. -/

/-- A group's record of a tile changes. -/
def State.modTile (s : State) (gid t : Nat) (f : TileInfo → TileInfo) : State :=
  s.modGroup gid fun x => { x with tiles := writeAt {} t (f (x.tile t)) x.tiles }

/-- Steps that are each repeated 0 times change nothing. -/
theorem foldl_upTo_zero {σ : Type} {n : Nat → Nat} {l : List Nat} (h : ∀ e ∈ l, n e = 0) (f : σ → Nat → σ) (s : σ) :
    l.foldl (fun u e => upTo (n e) f u) s = s :=
  List.foldlRecOn (motive := (· = s)) l _ rfl fun u hu e he => by rw [hu, h e he]; rfl

section
variable {s : State} (core : Nat) {w : MWork} {g : Group} (hg : lookup w.gid s.groups = some g)
include hg

theorem State.applyWork_mma {a : List (Nat × List (Nat × Ent))} {b : List (List Ent)} {sig : Option Nat}
    (hkind : w.kind = .mma a b sig) : s.applyWork core w = s.writeTile w.gid w.tile fun e =>
      (lookup (e / 32) a).map fun row => mmaElem w.wide row (b.getD (e % 32) []) (g.elem w.tile e) := by
  simp only [State.applyWork, hg, hkind]
  congr 1
  funext e
  cases lookup (e / 32) a <;> rfl

theorem State.applyWork_zero (hkind : w.kind = .zero) : s.applyWork core w =
    (s.writeTile w.gid w.tile fun _ => some (natPair 0)).modTile w.gid w.tile
      fun y => { y with ginex := false, gsat := false } := by
  simp only [State.applyWork, hg, hkind]
  rfl

theorem State.applyWork_give {i64 : Bool} {ws : List (Nat × PWord)} (hkind : w.kind = .give i64 ws) :
    let es := (List.range 1024).map fun e =>
      giveElem w.wide w.q i64 (readAt PWord.zero ws (2 * e), readAt PWord.zero ws (2 * e + 1))
    s.applyWork core w =
      (s.writeTile w.gid w.tile fun e => (es[e]?).map fun x => natPair (toRes w.wide x.1 x.2.1)).modTile w.gid w.tile
        fun y => { y with ginex := es.any (·.2.2.1), gsat := es.any (·.2.2.2) } := by
  simp only [State.applyWork, hg, hkind]
  rfl

/-- Where no element mismatches its check code or breaks the residue form, ATAKE logs no error (R293). -/
theorem State.applyWork_take {i64 : Bool} (hkind : w.kind = .take i64) :
    let ks := (List.range 1024).map fun e => takeKind w.wide (g.elem w.tile e)
    (∀ k ∈ ks, k ≠ .mismatch) → (∀ e < 1024, badBytes w.wide (pairNat (g.elem w.tile e)) = 0) →
    s.applyWork core w =
      (s.writeTile w.gid w.tile fun e => (ks[e]?).map (takeElem w.q i64)).modTile w.gid w.tile fun y => { y with
        st := .held
        xsat := ks.any fun k => match k with
          | .sat _ => true
          | _ => false
        xinv := ks.contains .invalid, xpsn := ks.contains .poison } := by
  intro ks hmatch hgood
  have hnone : ks.contains .mismatch = false := by
    rw [List.contains_eq_mem, decide_eq_false_iff_not]
    exact fun h => hmatch _ h rfl
  have hlogs (e : Nat) (he : e ∈ List.range 1024) :
      (if ks[e]? == some Kind.mismatch then 1 else 0) + badBytes w.wide (pairNat (g.elem w.tile e)) = 0 := by
    rw [hgood e (List.mem_range.mp he), if_neg]
    rw [beq_iff_eq]
    exact fun h => hmatch _ (List.mem_of_getElem? h) rfl
  simp only [State.applyWork, hg, hkind]
  rw [foldl_upTo_zero hlogs, hnone]
  simp only [Bool.or_false]
  rfl

end

/-! Scale memory. -/

theorem execMsldTransferEnd_ends {s : State} {core due off : Nat} {bs : List Byte} {rest : List (Nat × Nat × List Byte)}
    (h : (s.scaleMem core).xfers = (due, off, bs) :: rest) (hdue : due ≤ s.now) :
    execMsldTransferEnd core s = .next (s.setScaleMem core { s.scaleMem core with
      xfers := rest
      bytes := (bs.mapIdx fun i b => (off + i, b)).foldl (fun t p => writeAt (s.scaleMem core).fill p.1 p.2 t)
        (s.scaleMem core).bytes }) := by
  simp only [execMsldTransferEnd, h, Nat.not_lt.mpr hdue, if_false]

end Sys2Proof.Machine
end

section
/-! PROOFS. Events of reflections (spec 13_reflection.md R313, R314, R319, R320, R323): pushes that leave and are applied, the load
that makes a reflection live or lost, and its retirement. -/

namespace Sys2Proof.Machine

/-! Pushes. -/

theorem execPushCoalesceExpiry_sends {s : State} {n c : Nat} {r : WRange} (hr : s.ranges[n]? = some r) (hheld : r.held ≠ 0)
    (hlast : r.last = some c) (hdue : c + 64 ≤ s.now) :
    execPushCoalesceExpiry n s = .next ((s.setRange { r with
      last := if (s.subscribers r).any fun p => p.2.skip < r.held then some s.now else r.last
      held := 0, rel := false }).sendPush { r with held := 0, rel := false } r.held r.rel) := by
  simp only [execPushCoalesceExpiry, hr, beq_false_of_ne hheld, hlast, Option.getD_some, Nat.not_lt.mpr hdue, decide_false,
    Bool.or_self, Bool.false_eq_true, if_false]
  rfl

section
variable {s : State} {n : Nat} {p : RPush} (hp : lookup n s.rpushes = some p)
  (hfirst : ∀ q ∈ s.rpushes, n ≤ q.1 ∨ q.2.home ≠ p.home ∨ q.2.core ≠ p.core)
include hfirst

theorem State.pushFirst_of_order : s.pushFirst n p = true := by
  simpa only [State.pushFirst, List.all_eq_true, Bool.or_eq_true, decide_eq_true_eq, bne_iff_ne, or_assoc] using hfirst

include hp

theorem execPushApply_applies (hreach : s.reach (p.home / 64) (dieOf p.core) p.line = .ok) : execPushApply n s =
    .next (p.to_.foldl (fun t x => t.pushSlot p x) { s with rpushes := eraseAt n s.rpushes }) := by
  simp only [execPushApply, hp, State.pushFirst_of_order hfirst, State.pushReach, hreach, Bool.not_true, Bool.false_eq_true,
    if_false]

theorem execPushApply_lost (hreach : s.reach (p.home / 64) (dieOf p.core) p.line = .down) : execPushApply n s =
    .next { s with rpushes := eraseAt n s.rpushes } := by
  simp only [execPushApply, hp, State.pushFirst_of_order hfirst, State.pushReach, hreach, Bool.not_true, Bool.false_eq_true,
    if_false]

end

section
variable {s : State} {m : Nat} {r : Refl} (hr : lookup m s.refls = some r) (p : RPush) (count : Nat)
include hr

theorem State.pushSlot_counts (hst : r.st = .live ∨ r.st = .unsubscribing) : s.pushSlot p (m, count) =
    (s.writeSlot r p.data p.psn).modRefl m fun y =>
      { y with count := y.count + BitVec.ofNat 32 count, ovr := y.ovr || y.pend, pend := true, relp := p.rel } := by
  simp only [State.pushSlot, hr, Bool.or_eq_true, beq_iff_eq, hst, if_true]

theorem State.pushSlot_discards (hst : r.st = .registering ∨ r.st = .lost) : s.pushSlot p (m, count) = s := by
  have hended : ¬ (r.st = .live ∨ r.st = .unsubscribing) := by rcases hst with h | h <;> simp [h]
  simp only [State.pushSlot, hr, Bool.or_eq_true, beq_iff_eq, hended, if_false]

end

/-! Loads. -/

/-- The load of reflection n has landed, and the reflection is r1 now: the result of its REFL is 1, and an UNREFL that came
meanwhile takes effect (R319, R320). -/
def State.reflLanded (t : State) (n : Nat) (r r1 : Refl) : State :=
  let u := (t.deliverResult n (PWord.ok 1)).modRefl n fun _ => r1
  if r.leaving then u.unsubscribe n none else u

/-- A range is that of a reflection. -/
def WRange.isOf (x : WRange) (r : Refl) : Prop := x.stack = r.stack ∧ x.off = r.soff ∧ x.size = r.size

/-- The reflection whose load has landed at a home that answers. -/
def Refl.loaded (r : Refl) (held : Nat) : Refl :=
  { r with
    st := if r.doomed then .lost else .live, leaving := false, doomed := false, pend := true, skip := held
    gap := r.again, count := if r.again then r.count else 0, ovr := r.again && r.ovr, relp := r.again && r.relp }

/-- A home keeps a range that is the reflection's own, has subscribers, or was pushed in the last 64 cycles. -/
def State.keepsRange (s : State) (r : Refl) (x : WRange) : Bool :=
  (x.stack == r.stack && x.off == r.soff && x.size == r.size) || !(s.subscribers x).isEmpty || match x.last with
    | some c => s.now < c + 64
    | none => false

/-- The ranges after a registration: those kept, with the range of the reflection. -/
theorem registered_ranges {r : Refl} {keep : WRange → Bool} (ranges : List WRange) (hkeep : ∀ x, x.isOf r → keep x = true) :
    let same := fun x : WRange => x.stack == r.stack && x.off == r.soff && x.size == r.size
    let kept := ranges.filter keep
    let now := if kept.any same then kept else kept ++ [{ stack := r.stack, off := r.soff, size := r.size }]
    let held := ((kept.find? same).map (·.held)).getD 0
    (∃ x ∈ now, x.isOf r ∧ x.held = held) ∧ (∀ x ∈ ranges, x.isOf r → x ∈ now) ∧
      ∀ x ∈ now, x ∈ ranges ∨ x.isOf r ∧ x.held = 0 := by
  intro same kept now held
  have hsame (x : WRange) : same x = true ↔ x.isOf r := by
    simp only [same, Bool.and_eq_true, beq_iff_eq, and_assoc, WRange.isOf]
  have hkept : ∀ x ∈ ranges, x.isOf r → x ∈ kept := fun x hx hof => List.mem_filter.mpr ⟨hx, hkeep x hof⟩
  cases hfind : kept.find? same with
  | some x =>
    have hmem := List.mem_of_find?_eq_some hfind
    have hof := (hsame x).mp (List.find?_some hfind)
    have hnow : now = kept := if_pos (List.any_eq_true.mpr ⟨x, hmem, List.find?_some hfind⟩)
    rw [hnow]
    exact ⟨⟨x, hmem, hof, by simp only [held, hfind, Option.map_some, Option.getD_some]⟩, hkept,
      fun y hy => .inl (List.mem_of_mem_filter hy)⟩
  | none =>
    have hnone : ∀ x ∈ kept, ¬ same x = true := List.find?_eq_none.mp hfind
    have hnow : now = kept ++ [{ stack := r.stack, off := r.soff, size := r.size }] :=
      if_neg fun h => by
        obtain ⟨x, hx, hs⟩ := List.any_eq_true.mp h
        exact hnone x hx hs
    rw [hnow]
    refine ⟨⟨_, List.mem_append_right kept List.mem_cons_self, ⟨rfl, rfl, rfl⟩, by simp only [held, hfind]; rfl⟩,
      fun x hx hof => List.mem_append_left _ (hkept x hx hof), fun x hx => ?_⟩
    rcases List.mem_append.mp hx with hx | hx
    · exact .inl (List.mem_of_mem_filter hx)
    · rw [List.mem_singleton.mp hx]
      exact .inr ⟨⟨rfl, rfl, rfl⟩, rfl⟩

theorem execReflLoadLands_lands {s : State} {n : Nat} {r : Refl} (hr : lookup n s.refls = some r) (hst : r.st = .registering)
    (hreach : s.reach (dieOf r.core) (r.stack / 4) (r.soff / 128) ≠ .wait) :
    execReflLoadLands n s = .next (s.reflLand n r) := by
  simp only [execReflLoadLands, hr, hst, bne_self_eq_false, beq_false_of_ne hreach, Bool.or_self, Bool.false_eq_true, if_false]

section
variable {s : State} (n : Nat) {r : Refl}

/-- At a home that answers, the load registers the range, fills the slot, and makes the reflection live, or lost with a die in
reset (R319, R323). -/
theorem State.reflLand_ok (hreach : s.reach (dieOf r.core) (r.stack / 4) (r.soff / 128) = .ok) : ∃ ranges held,
    (∃ x ∈ ranges, x.isOf r ∧ x.held = held) ∧ (∀ x ∈ s.ranges, x.isOf r → x ∈ ranges) ∧
    (∀ x ∈ ranges, x ∈ s.ranges ∨ x.isOf r ∧ x.held = 0) ∧
    s.reflLand n r = ((({ s with ranges := ranges } : State).touchRange r.stack r.soff r.size).writeSlot r
      ((List.range r.size).map fun i => s.homeByte r.stack (r.soff + i))
      (r.bad || s.sectorPsn r.stack r.soff, r.bad || s.sectorPsn r.stack (r.soff + 32))).reflLanded n r (r.loaded held) := by
  obtain ⟨hheld, hkept, hnew⟩ := registered_ranges (r := r) (keep := s.keepsRange r) s.ranges fun x hx => by
    simp [State.keepsRange, hx.1, hx.2.1, hx.2.2]
  refine ⟨_, _, hheld, hkept, hnew, ?_⟩
  simp only [State.reflLand, hreach]
  cases hagain : r.again <;> cases hdoomed : r.doomed <;> simp only [Refl.loaded, hagain, hdoomed] <;> rfl

/-- At a home in a partition that is down the reflection is lost; its slot is poisoned unless the load was repeated after a save. -/
theorem State.reflLand_down (hreach : s.reach (dieOf r.core) (r.stack / 4) (r.soff / 128) = .down) :
    let done := { r with st := .lost, leaving := false, doomed := false }
    (r.again = true → s.reflLand n r = s.reflLanded n r done) ∧
    (r.again = false → s.reflLand n r =
      (s.writeSlot r [] (true, true)).reflLanded n r { done with count := 0, pend := false }) := by
  intro done
  unfold State.reflLand
  dsimp only
  rw [if_pos (beq_iff_eq.mpr hreach)]
  refine ⟨fun hagain => ?_, fun hfirst => ?_⟩
  · rw [if_pos hagain, if_pos hagain]
    rfl
  · rw [if_neg (Bool.eq_false_iff.mp hfirst), if_neg (Bool.eq_false_iff.mp hfirst)]
    rfl

end

/-! Retirement. -/

theorem execUnreflRetire_frees {s : State} {n : Nat} {r : Refl} (hr : lookup n s.refls = some r) (hst : r.st = .unsubscribing)
    (hpushes : ∀ q ∈ s.rpushes, ∀ x ∈ q.2.to_, x.1 ≠ n) :
    execUnreflRetire n s =
      .next (r.unrefs.foldl (fun t u => t.deliverResult u PWord.zero) { s with refls := eraseAt n s.refls }) := by
  have hnone : (s.rpushes.any fun q => q.2.to_.any fun x => x.1 == n) = false := by
    simpa only [List.any_eq_false, List.any_eq_true, beq_iff_eq, not_exists, not_and] using hpushes
  simp only [execUnreflRetire, hr, hst, bne_self_eq_false, hnone, Bool.or_self, Bool.false_eq_true, if_false]
  rfl

/-- Settles O51: the engine takes the first work that heads its tile and leaves what its kind says; pushes, loads and retirements
are the equations above. -/
theorem matrixAndReflectionEvents : Obligations.MatrixAndReflectionEvents := by
  unfold Obligations.MatrixAndReflectionEvents
  refine ⟨fun s core w g a b sig before after hworks hready hkind hbefore hg => ?mma,
    fun s gid t g w r before after hg hworks hgid htile hready hkind hbefore hdue => ?conversion,
    fun s core w g hg => ⟨fun a b sig => s.applyWork_mma core hg, s.applyWork_zero core hg,
      fun i64 ws => s.applyWork_give core hg, fun i64 => s.applyWork_take core hg⟩,
    fun s core due off bs rest => execMsldTransferEnd_ends,
    fun s n r c => execPushCoalesceExpiry_sends,
    fun s n p hp hfirst => ⟨execPushApply_applies hp hfirst, execPushApply_lost hp hfirst⟩,
    fun s p m count r hr => ⟨State.pushSlot_counts hr p count, State.pushSlot_discards hr p count⟩,
    fun s n r hr hst => ?load, fun s n r => execUnreflRetire_frees⟩
  case mma =>
    have hfirst : ∀ u ∈ before, ¬ u.appliable := fun u hu ⟨hhead, x, y, z, hmma⟩ =>
      (hbefore u hu).elim hhead fun hother => hother x y z hmma
    have happlies := execMmaApply_applies hworks hready hkind hfirst hg
    cases sig <;> exact happlies
  case conversion =>
    have hfirst : ∀ u ∈ before, ¬ u.converts gid t := fun u hu ⟨hgroup, hown, hhead, hconv⟩ =>
      (hbefore u hu hgroup hown).elim hhead fun ⟨x, y, z, hmma⟩ => hconv x y z hmma
    exact execTileConversionEnd_converts hworks hg rfl ⟨hgid, htile, by simp [hready], hkind⟩ hfirst hready hdue
  case load =>
    have hlands := execReflLoadLands_lands hr hst
    refine ⟨fun hreach => ?_, fun hreach => ⟨fun hagain => ?_, fun hfirst => ?_⟩⟩
    · obtain ⟨ranges, held, hheld, hkept, hnew, hland⟩ := s.reflLand_ok n hreach
      exact ⟨ranges, held, hheld, hkept, hnew, (hlands (by simp [hreach])).trans (congrArg _ hland)⟩
    · exact (hlands (by simp [hreach])).trans (congrArg _ ((s.reflLand_down n hreach).1 hagain))
    · exact (hlands (by simp [hreach])).trans (congrArg _ ((s.reflLand_down n hreach).2 hfirst))

end Sys2Proof.Machine
end

section
/-! PROOFS. What a home write and the drop of near copies leave of the machine (spec 11_memory_model.md R269, 19_stack_logic.md R420):
the cycle and the dies stay as they are. -/

namespace Sys2Proof.Machine

/-- A part of the state that each step of a fold leaves alone is left alone by the fold. -/
theorem foldl_keeps {σ α γ : Type} {p : σ → γ} {f : σ → α → σ} (hf : ∀ x a, p (f x a) = p x) (l : List α) (x : σ) :
    p (l.foldl f x) = p x :=
  List.foldlRecOn (motive := fun y => p y = p x) l f rfl fun y hy a _ => (hf y a).trans hy

/-- Logging an error changes the log and the interrupts only, and leaves an entry of the error's code. -/
theorem State.logError_eq (s : State) (e : ErrEntry) :
    ∃ log irq, s.logError e = { s with errlog := log, msix := irq } ∧ ∃ x ∈ log, x.code = e.code := by
  have interrupts : ∀ t : State, ∃ irq, t.logInterrupt e.die e.ctx = { t with msix := irq } := fun t => by
    unfold State.logInterrupt
    dsimp only
    split <;> exact ⟨_, rfl⟩
  have appended : ∃ log irq, ({ s with errlog := e :: s.errlog } : State).logInterrupt e.die e.ctx =
      { s with errlog := log, msix := irq } ∧ ∃ x ∈ log, x.code = e.code := by
    obtain ⟨irq, hirq⟩ := interrupts { s with errlog := e :: s.errlog }
    exact ⟨_, irq, hirq, e, List.mem_cons_self, rfl⟩
  unfold State.logError
  extract_lets mine full old front
  split
  · next last _ =>
    split
    · next hsame =>
      have hcode : last.code = e.code := by
        simp only [ErrEntry.same, Bool.and_eq_true, beq_iff_eq] at hsame
        exact hsame.1.1.1.2
      exact ⟨_, s.msix, rfl, _, List.mem_append_right _ List.mem_cons_self, hcode⟩
    · split
      · exact ⟨_, s.msix, rfl, _, List.mem_cons_self, rfl⟩
      · exact appended
  · exact appended

/-- The cycle, and the dies of the package. -/
def State.dieClock (s : State) : Nat × List (Nat × Die) := (s.now, s.dies)

section
variable {s t u : State}

theorem State.now_of_dieClock (h : t.dieClock = s.dieClock) : t.now = s.now := congrArg Prod.fst h

theorem State.dies_of_dieClock (h : t.dieClock = s.dieClock) : t.dies = s.dies := congrArg Prod.snd h

theorem ite_dieClock {c : Prop} [Decidable c] (ht : t.dieClock = s.dieClock) (hu : u.dieClock = s.dieClock) :
    (if c then t else u).dieClock = s.dieClock := by
  split
  · exact ht
  · exact hu

end

section
variable (s : State)

theorem State.logError_dieClock (e : ErrEntry) : (s.logError e).dieClock = s.dieClock := by
  obtain ⟨log, irq, hlog, -⟩ := s.logError_eq e
  rw [hlog]
  rfl

/-! Stacks. -/

theorem State.setSlotByte_dieClock (stack off : Nat) (b : Byte) : (s.setSlotByte stack off b).dieClock = s.dieClock := rfl

theorem State.setSlotPsn_dieClock (stack off : Nat) (p : Bool) : (s.setSlotPsn stack off p).dieClock = s.dieClock := rfl

theorem State.logMalformed_dieClock (stack : Nat) (offs : List Nat) : (s.logMalformed stack offs).dieClock = s.dieClock :=
  foldl_keeps (fun t _ => t.logError_dieClock _) _ s

theorem State.withCollisions_dieClock (m : List (Nat × List Nat)) :
    ({ s with collisions := m } : State).dieClock = s.dieClock := rfl

theorem State.setAttr_dieClock (stack first n a : Nat) : (s.setAttr stack first n a).dieClock = s.dieClock := rfl

theorem State.setPageAttr_dieClock (stack off a : Nat) : (s.setPageAttr stack off a).dieClock = s.dieClock := by
  unfold State.setPageAttr
  exact s.setAttr_dieClock ..

theorem State.stackRequest_dieClock (stack off : Nat) : (s.stackRequest stack off).dieClock = s.dieClock := by
  simp only [State.dieClock, State.stackRequest, State.countAccess]

theorem State.startDrain_dieClock (stack off : Nat) (begun : Bool) : (s.startDrain stack off begun).dieClock = s.dieClock := by
  have hpage : (if begun then s.setPageAttr stack off 2 else s).dieClock = s.dieClock :=
    ite_dieClock (s.setPageAttr_dieClock ..) rfl
  unfold State.startDrain
  generalize (if begun then s.setPageAttr stack off 2 else s) = u at hpage ⊢
  exact hpage

theorem State.fillSlot_dieClock (stack slot : Nat) (bytes : List Byte) (psn : BitVec 32) :
    (s.fillSlot stack slot bytes psn).dieClock = s.dieClock := by
  unfold State.fillSlot
  dsimp only
  generalize List.range 32 = sectors
  exact (foldl_keeps (fun t _ => t.setSlotPsn_dieClock ..) _ _).trans (foldl_keeps (fun t _ => t.setSlotByte_dieClock ..) _ _)

theorem State.overflow_dieClock (stack slot : Nat) (b : Block) : (s.overflow stack slot b).dieClock = s.dieClock := by
  unfold State.overflow
  extract_lets t
  have ht : t.dieClock = s.dieClock := ite_dieClock rfl (s.startDrain_dieClock ..)
  clear_value t
  exact ht

theorem State.storeBlock_dieClock (stack slot : Nat) (b : Block) : (s.storeBlock stack slot b).dieClock = s.dieClock := by
  have hdrop : (s.dropWaiting stack slot).dieClock = s.dieClock := rfl
  have hfree : ((s.dropWaiting stack slot).freeCollision stack slot).dieClock = s.dieClock := rfl
  have hfilled : ∀ bytes psn, ((s.dropWaiting stack slot).fillSlot stack slot bytes psn).dieClock = s.dieClock := fun _ _ =>
    (State.fillSlot_dieClock ..).trans hdrop
  have hfreed : ∀ bytes psn, (((s.dropWaiting stack slot).freeCollision stack slot).fillSlot stack slot bytes psn).dieClock =
    s.dieClock := fun _ _ => (State.fillSlot_dieClock ..).trans hfree
  unfold State.storeBlock
  extract_lets tab passed t
  generalize b.packed (s.markerOf stack) = packed
  generalize invertTail b.bytes = inverted
  generalize (leNat _ 8 != s.markerOf stack) = marked
  split
  · exact hfreed packed 0
  split
  · exact hfreed b.bytes b.psn
  split
  · exact hfilled inverted b.psn
  split
  · exact (State.withCollisions_dieClock ..).trans (hfilled _ _)
  · exact (State.overflow_dieClock ..).trans hdrop

theorem State.storeRaw_dieClock (w : HomeWrite) : (s.storeRaw w).dieClock = s.dieClock := by
  unfold State.storeRaw
  dsimp only
  refine (foldl_keeps (fun t k => ?_) _ _).trans (foldl_keeps (fun t _ => t.setSlotByte_dieClock ..) _ _)
  exact ite_dieClock (t.setSlotPsn_dieClock ..) (ite_dieClock (t.setSlotPsn_dieClock ..) rfl)

theorem State.stackWrite_dieClock (w : HomeWrite) : (s.stackWrite w).dieClock = s.dieClock := by
  have hpacked : ∀ offs slot b, ((s.logMalformed w.stack offs).storeBlock w.stack slot b).dieClock = s.dieClock :=
    fun offs slot b => (State.storeBlock_dieClock ..).trans (s.logMalformed_dieClock ..)
  have hraw := s.storeRaw_dieClock w
  unfold State.stackWrite
  extract_lets off t
  split
  · exact hpacked _ _ _
  · split
    · exact (t.setPageAttr_dieClock ..).trans hraw
    · exact hraw

/-! Home lines. -/

theorem State.evictHome_dieClock (h : HomeLine) : (s.evictHome h).dieClock = s.dieClock := by
  have hclean : (s.cleanHome h).dieClock = s.dieClock :=
    ite_dieClock rfl ((State.stackWrite_dieClock ..).trans (s.stackRequest_dieClock ..))
  exact hclean

theorem State.fetchHome_dieClock (h : HomeLine) (k : Nat) : (s.fetchHome h k).2.dieClock = s.dieClock := by
  unfold State.fetchHome
  split
  · rfl
  · exact (State.logMalformed_dieClock ..).trans (s.stackRequest_dieClock ..)

theorem State.writeHome_dieClock (h : HomeLine) (w : HomeWrite) : (s.writeHome h w).2.dieClock = s.dieClock :=
  foldl_keeps (p := fun r : HomeLine × State => r.2.dieClock) (fun r k => r.2.fetchHome_dieClock r.1 k) _ (h, s)

theorem State.debit_dieClock (ctx die n : Nat) : (s.debit ctx die n).dieClock = s.dieClock := rfl

theorem State.sendPush_dieClock (r : WRange) (n : Nat) (rel : Bool) : (s.sendPush r n rel).dieClock = s.dieClock := by
  unfold State.sendPush
  extract_lets subs all cores data psn s0
  refine foldl_keeps (p := State.dieClock) (fun t c => ?_) cores s0
  extract_lets mine p t1
  have ht : t1.dieClock = t.dieClock := rfl
  exact ite_dieClock ht ((foldl_keeps (fun u _ => u.debit_dieClock ..) mine t1).trans ht)

theorem State.storeRange_dieClock (r : WRange) (rel : Bool) : (s.storeRange r rel).dieClock = s.dieClock := by
  unfold State.storeRange
  split
  · exact ite_dieClock rfl (State.sendPush_dieClock ..)
  · exact State.sendPush_dieClock ..

theorem State.homeEffects_dieClock (w : HomeWrite) : (s.homeEffects w).dieClock = s.dieClock := by
  have htouch : (s.touchLine w.stack w.line).dieClock = s.dieClock := ite_dieClock rfl rfl
  exact (foldl_keeps (fun t r => t.storeRange_dieClock r w.rel) _ _).trans htouch

theorem State.writeThrough_dieClock (w : HomeWrite) : (s.writeThrough w).dieClock = s.dieClock := by
  refine (State.homeEffects_dieClock ..).trans ?_
  split
  · next h _ => exact s.writeHome_dieClock h w
  · exact (State.stackWrite_dieClock ..).trans (s.stackRequest_dieClock ..)

theorem State.leaveL2_dieClock (x : L2Line) : (s.leaveL2 x).dieClock = s.dieClock := by
  cases x with
  | home h => exact s.evictHome_dieClock h
  | copy c => exact ite_dieClock (State.writeThrough_dieClock ..) rfl

theorem State.putHome_dieClock (h : HomeLine) : (s.putHome h).dieClock = s.dieClock := by
  refine ite_dieClock rfl ?_
  show State.dieClock (match s.displaced (s.homeOf h.stack (128 * h.line)) h.stack h.line false with
    | some v => s.leaveL2 v
    | none => s) = s.dieClock
  split
  · exact s.leaveL2_dieClock _
  · rfl

theorem State.toStack_dieClock (stack line : Nat) : (s.toStack stack line).dieClock = s.dieClock := by
  unfold State.toStack
  split
  · exact s.evictHome_dieClock _
  · rfl

theorem State.homeWrite_dieClock (w : HomeWrite) : (s.homeWrite w).dieClock = s.dieClock := by
  refine (State.homeEffects_dieClock ..).trans (ite_dieClock ?_ ?_)
  · exact (State.stackWrite_dieClock ..).trans (s.toStack_dieClock ..)
  · exact (State.putHome_dieClock ..).trans (s.writeHome_dieClock ..)

/-! Near copies. -/

theorem State.dropWhere_dieClock (p : CopyLine → Bool) : (s.dropWhere p).dieClock = s.dieClock :=
  foldl_keeps (p := State.dieClock) (fun t _ => ite_dieClock (t.homeWrite_dieClock _) rfl) _
    { s with copies := s.copies.map fun c => if p c then { c with dirty := 0, rel := false } else c }

theorem State.acquireAt_now (ctx core : Nat) (sc : Scope) : (s.acquireAt ctx core sc).now = s.now :=
  State.now_of_dieClock (ite_dieClock (s.dropWhere_dieClock _) rfl)

end

end Sys2Proof.Machine
end

section
/-! PROOFS. The words of reflections (spec 13_reflection.md R317 to R322, R326): what their operand checks answer where they pass,
and the effect of each word. -/

namespace Sys2Proof.Machine

/-! The slots that the lanes name. -/

/-- Addresses that no enabled lane's check fails stop no word. -/
theorem addressTrap_passes {lanes : List Nat} {check : Nat → Option Nat} (h : ∀ L ∈ lanes, check L = none) (a : Lanes) :
    addressTrap lanes check a = .ok () := by
  have hnone : ([1, 2, 3, 4].find? fun k => lanes.any fun L => check L == some k) = none := by
    simp only [List.find?_eq_none, List.any_eq_true, not_exists, not_and]
    intro k _ L hL
    simp [h L hL]
  rw [addressTrap, hnone]

/-- Every enabled lane's address is clean and leads to a slot of the issuing core. -/
def State.slotsPass (s : State) (v : View) (a : Lanes) : Prop :=
  ∀ L ∈ v.lanes, (a L).psn = false ∧ spadCheck s v true 8 8 (a L) = none

/-- No REFL of the team that waits for its pages holds a slot that an enabled lane names (R326). -/
def State.slotsFree (s : State) (v : View) (a : Lanes) : Prop :=
  ∀ h ∈ s.heldSlots v.g.core, h.1 = v.g.team → ∀ L ∈ v.lanes, (s.ref v 8 (a L).val).off ≠ h.2.1

/-- The reflection that lane L names (R317). -/
def State.named (s : State) (v : View) (a : Lanes) (L : Nat) : Option (Nat × Refl) :=
  s.reflAt v (s.ref v 8 (a L).val).off

section
variable {s : State} {v : View} {a : Lanes}

theorem State.slotsOpen_free (h : s.slotsFree v a) : s.slotsOpen v a = .ok () := by
  have hnone : (s.heldSlots v.g.core).filter (fun h => h.1 == v.g.team &&
      (v.lanes.map fun L => (s.ref v 8 (a L).val).off).contains h.2.1) = [] := by
    refine List.filter_eq_nil_iff.mpr fun x hx hheld => ?_
    simp only [Bool.and_eq_true, beq_iff_eq, List.contains_iff_mem, List.mem_map] at hheld
    obtain ⟨hteam, L, hL, hoff⟩ := hheld
    exact h x hx hteam L hL hoff
  simp only [State.slotsOpen, hnone, List.isEmpty_nil, if_true]

theorem State.slotsOpen_held (h : ¬ s.slotsFree v a) :
    ∃ offs, s.slotsOpen v a = .error (.stall (.reflSlots offs)) := by
  have hsome : (s.heldSlots v.g.core).filter (fun h => h.1 == v.g.team &&
      (v.lanes.map fun L => (s.ref v 8 (a L).val).off).contains h.2.1) ≠ [] := fun hnone => h fun x hx hteam L hL hoff =>
    List.filter_eq_nil_iff.mp hnone x hx (by simpa [hteam] using ⟨L, hL, hoff⟩)
  simp only [State.slotsOpen, List.isEmpty_iff, hsome, if_false]
  exact ⟨_, rfl⟩

/-- A lane's reflection is found under its number. -/
theorem find_named {L : Nat} (hL : L ∈ v.lanes) :
    ((v.lanes.map fun L => (L, s.named v a L)).find? fun x => x.1 == L).bind (·.2) = s.named v a L := by
  generalize v.lanes = ls at hL
  induction ls with
  | nil => cases hL
  | cons J Js ih =>
    by_cases hJ : J = L
    · simp [hJ]
    · simpa [hJ] using ih ((List.mem_cons.mp hL).resolve_left (Ne.symm hJ))

/-- Slots that pass their checks give each enabled lane the reflection that it names. -/
theorem reflLanes_named {e r : Nat} (hr : r < 28) (ha : v.source (some (e, r)) = a) (hpass : s.slotsPass v a) {d : Lanes}
    (hd : ∀ L ∈ v.lanes, (d L).psn = false) : s.reflLanes v e r d = .ok (v.lanes.map fun L => (L, s.named v a L), s) := by
  have hbad : maskOf (fun L => v.on L && ((a L).psn || (d L).psn)) = 0 := maskOf_eq_zero fun L hL => by
    cases hon : v.on L with
    | false => rfl
    | true =>
      have hmem := View.mem_lanes.mpr ⟨hL, hon⟩
      simp [(hpass L hmem).1, hd L hmem]
  rw [State.reflLanes, operand_source s v e hr, ha]
  simp only [hbad, addressTrap_passes fun L hL => (hpass L hL).2]
  rfl

end

/-! Register results. -/

theorem View.results_congr {v : View} {f f' : Lanes} (h : ∀ L ∈ v.lanes, f L = f' L) (now r n : Nat) :
    v.results now r n f = v.results now r n f' :=
  List.map_congr_left fun L hL => by rw [h L hL]

/-- A pair of results in registers that are no queues holds what the enabled lanes are given. -/
theorem put2_plain (t : State) {v : View} {d : Nat} (hd : d < 27) (n : Nat) {f f' : Nat → PWord × PWord}
    (hf : ∀ L ∈ v.lanes, f L = f' L) :
    t.put2 v d n f = .ok ((t.receive v (v.results t.now d n fun L => (f' L).1)).receive v
      (v.results t.now (d + 1) n fun L => (f' L).2)) := by
  simp only [State.put2, put_plain t v d n _ (by omega), put_plain _ v (d + 1) n _ (by omega), State.receive_now,
    View.results_congr fun L hL => congrArg Prod.fst (hf L hL), View.results_congr fun L hL => congrArg Prod.snd (hf L hL)]

/-- COUNT that RSEQ reads of a reflection, 0 where there is none (R321). -/
def Refl.countRead : Option (Nat × Refl) → PWord
  | some r => PWord.ok r.2.count
  | none => PWord.zero

/-- The flag word that RSEQ reads of a reflection, 0 where there is none (R321). -/
def Refl.flagsRead : Option (Nat × Refl) → PWord
  | some r => PWord.ok r.2.flags
  | none => PWord.zero

/-- The two words that RSEQ reads of a reflection. -/
def Refl.reads (r : Option (Nat × Refl)) : PWord × PWord := (Refl.countRead r, Refl.flagsRead r)

/-! REFL. -/

/-- What each enabled lane of a REFL asks for: its slot's address, and the device address. -/
def View.reflAsks (v : View) (r : Nat) : List (Nat × Word × Nat) :=
  v.lanes.map fun L => (L, (v.g.reg L r).val, (v.g.reg L (r + 1)).val.toNat + 4294967296 * (v.g.reg L (r + 2)).val.toNat)

/-- What the checks of a REFL's pages leave: the trap of a failed one, or the subscriptions (R317, R318). -/
def State.reflResult (t : State) (o : Issue) (pd size : Nat) : ReflNext → Except Stop State
  | .trap x => .error (.trap x)
  | .suspend _ _ => .ok t
  | .go go => .ok (t.subscribe o.gid pd size go)

section
variable {s : State} {o : Issue} {g : Group} (hi : Issues s o g) (hl : (View.mk o g).lanes ≠ [])
include hi hl

section
variable (pd : Pred) {ar : Reg} {z : ReflSize} (hclean : ∀ i < 3, (View.mk o g).cleanReg (ar.val + i))
  (hpass : s.passes ⟨o, g⟩ true (ReflSize.bytes z) (ReflSize.bytes z) ((View.mk o g).lanesReg ar.val))
  (hgood : ∀ L ∈ (View.mk o g).lanes, s.reflBad g (ReflSize.bytes z) ((View.mk o g).reflAsks ar.val) L = 0)
include hclean hpass hgood

/-- REFL whose checks pass asks for its pages: with all of them translated it goes on, else a walk begins (R318). -/
theorem execRefl_asks : execRefl pd ar z s =
    let asks := (View.mk o g).reflAsks ar.val
    let r := (s.spend g.team).reflOutcomes g.core g.ctx asks []
    .next (s.wordDone o (if asks.all fun x => (s.tlbHit g.core g.ctx x.2.2 .read).isSome then
      r.2.reflResult o pd.val (ReflSize.bytes z) (r.2.reflCheck g (ReflSize.bytes z) r.1)
    else .ok (((s.spend g.team).reflWalk o.gid g asks).waitFor ⟨o, g⟩ (.refl o pd.val (ReflSize.bytes z) asks none [])))) := by
  have hbad : maskOf (fun L => (View.mk o g).on L && (List.range 3).any fun i => (g.reg L (ar.val + i)).psn) = 0 :=
    maskOf_eq_zero fun L hL => by
      cases hon : (View.mk o g).on L with
      | false => rfl
      | true => simpa using fun i hi => hclean i hi L (View.mem_lanes.mpr ⟨hL, hon⟩)
  have hcause : ([1, 2, 3].find? fun c => (View.mk o g).lanes.any fun L =>
      s.reflBad g (ReflSize.bytes z) ((View.mk o g).reflAsks ar.val) L == c) = none := by
    simp only [List.find?_eq_none, List.any_eq_true, not_exists, not_and, beq_iff_eq]
    intro c hc L hL hLc
    simp [← hLc, hgood L hL] at hc
  have hasks : ((View.mk o g).reflAsks ar.val).isEmpty = false := by simpa [View.reflAsks] using hl
  unfold View.reflAsks at hcause hasks
  rw [execRefl, runWord_issues hi]
  simp only [hbad, checked_places hpass, bind, Except.bind, View.lanesReg, hcause, hasks]
  rfl

theorem execRefl_subscribes
    (hits : ∀ x ∈ (View.mk o g).reflAsks ar.val, s.tlbHit g.core g.ctx x.2.2 .read ≠ none)
    {go : List (Nat × Nat × Nat × Nat × Nat × Bool)}
    (hgo : let r := (s.spend g.team).reflOutcomes g.core g.ctx ((View.mk o g).reflAsks ar.val) []
      r.2.reflCheck g (ReflSize.bytes z) r.1 = .go go) :
    execRefl pd ar z s = .next ((((s.spend g.team).reflOutcomes g.core g.ctx ((View.mk o g).reflAsks ar.val) []).2.subscribe
      o.gid pd.val (ReflSize.bytes z) go).issued) := by
  have hall : (((View.mk o g).reflAsks ar.val).all fun x => (s.tlbHit g.core g.ctx x.2.2 .read).isSome) = true :=
    List.all_eq_true.mpr fun x hx => Option.isSome_iff_ne_none.mpr (hits x hx)
  rw [execRefl_asks hi hl pd hclean hpass hgood]
  dsimp only at hgo ⊢
  rw [if_pos hall, hgo]
  rfl

theorem execRefl_waits
    (hmiss : ∃ x ∈ (View.mk o g).reflAsks ar.val, s.tlbHit g.core g.ctx x.2.2 .read = none) :
    execRefl pd ar z s = .next ((((s.spend g.team).reflWalk o.gid g ((View.mk o g).reflAsks ar.val)).waitFor ⟨o, g⟩
      (.refl o pd.val (ReflSize.bytes z) ((View.mk o g).reflAsks ar.val) none [])).issued) := by
  have hall : ¬ (((View.mk o g).reflAsks ar.val).all fun x => (s.tlbHit g.core g.ctx x.2.2 .read).isSome) = true := by
    obtain ⟨x, hx, hnone⟩ := hmiss
    exact fun h => by simpa [hnone] using List.all_eq_true.mp h x hx
  rw [execRefl_asks hi hl pd hclean hpass hgood]
  dsimp only
  rw [if_neg hall]
  rfl

end

/-! UNREFL. -/

/-- UNREFL ends one reflection with a result that is outstanding until it retires, unless an earlier lane has freed it (R320). -/
def State.unrefl (v : View) (t : State) (n : Nat) : State :=
  if lookup n t.refls = none then t
  else ({ t.receive v [{ due := none, src := t.nextId, target := .mark, val := PWord.zero }] with
    nextId := t.nextId + 1 } : State).unsubscribe n (some t.nextId)

section
variable {x : OpA} (hx : x.ar.val < 28) {a : Lanes} (ha : (View.mk o g).source (some (x.ap.val, x.ar.val)) = a)
  (hpass : s.slotsPass ⟨o, g⟩ a)
include hx ha hpass

theorem execUnrefl_waits (hheld : ¬ s.slotsFree ⟨o, g⟩ a) :
    ∃ offs, execUnrefl x s = .next (s.stallAt o (.reflSlots offs)) := by
  obtain ⟨offs, hstall⟩ := State.slotsOpen_held hheld
  have hnamed := reflLanes_named hx ha hpass (d := fun _ => PWord.zero) fun _ _ => rfl
  rw [execUnrefl, runWord_issues hi]
  simp only [hnamed, operand_source _ _ _ hx, ha, bind, Except.bind, List.isEmpty_map, List.isEmpty_iff, hl, if_false, hstall]
  exact ⟨offs, rfl⟩

theorem execUnrefl_ends (hfree : s.slotsFree ⟨o, g⟩ a) :
    execUnrefl x s = .next (((View.mk o g).lanes.filterMap fun L => (s.named ⟨o, g⟩ a L).map (·.1)).foldl
      (State.unrefl ⟨o, g⟩) (s.spend g.team)).issued := by
  have hnamed := reflLanes_named hx ha hpass (d := fun _ => PWord.zero) fun _ _ => rfl
  rw [execUnrefl, runWord_issues hi]
  simp only [hnamed, operand_source _ _ _ hx, ha, bind, Except.bind, List.isEmpty_map, List.isEmpty_iff, hl, if_false,
    State.slotsOpen_free hfree, List.filterMap_map, wordDone_ok]
  refine congrArg (fun f => Host.Outcome.next (State.issued (List.foldl f (s.spend g.team) _)))
    (funext fun t => funext fun n => ?_)
  unfold State.unrefl
  cases lookup n t.refls <;> rfl

end

end

/-! RSEQ and RACK. -/

/-- RACK consumes the reflection that lane L names where its COUNT is the operand's, and the checkpoint keeps that it did
(R315, R322). -/
def State.rackLane (v : View) (d : Nat) (names : Nat → Option (Nat × Refl)) (t : State) (L : Nat) : State :=
  match names L with
  | some (n, r) => if r.count = (v.g.reg L d).val then
      (t.modRefl n fun y => { y with pend := false, ovr := false }).modTeam v.g.team fun m => { m with
        ckpt := m.ckpt.map fun c => if c.spent then c else { c with racked := n :: c.racked } } else t
  | none => t

section
variable {s : State} {o : Issue} {g : Group} (hi : Issues s o g) {x : OpM} (hx : x.ar.val < 28) {a : Lanes}
  (ha : (View.mk o g).source (some (x.ap.val, x.ar.val)) = a) (hpass : s.slotsPass ⟨o, g⟩ a)
include hi hx ha hpass

/-- RSEQ delivers what the reflections hold before it; its acquire, where it makes one, happens first (R321). -/
theorem execRseq_reads (hd : x.d.val < 27) {acq : Bool} {t : State} (ht : acq = false ∧ t = s ∨
      (acq = true ∧ (View.mk o g).lanes ≠ [] ∧ (View.mk o g).acquires) ∧ t = s.acquireAt g.ctx g.core .device) :
    execRseq acq x s = .next ((t.receive ⟨o, g⟩
      ((View.mk o g).results s.now x.d.val 10 fun L => Refl.countRead (s.named ⟨o, g⟩ a L))).receive ⟨o, g⟩
        ((View.mk o g).results s.now (x.d.val + 1) 10 fun L => Refl.flagsRead (s.named ⟨o, g⟩ a L))).issued := by
  have hnamed := reflLanes_named hx ha hpass (d := fun _ => PWord.zero) fun _ _ => rfl
  rw [execRseq, runWord_issues hi]
  simp only [hnamed, bind, Except.bind, popDelay_one _ _ hx, Nat.add_zero]
  rcases ht with ⟨rfl, hsame⟩ | ⟨⟨rfl, hl, hacq⟩, rfl⟩
  · simp only [Bool.false_and, Bool.false_eq_true, if_false, hsame]
    rw [put2_plain (f' := fun L => Refl.reads (s.named ⟨o, g⟩ a L)) s hd 10, wordDone_ok]
    · rfl
    · intro L hL
      rw [find_named hL]
      cases s.named ⟨o, g⟩ a L <;> rfl
  · have hcond : (!(View.mk o g).lanes.isEmpty) = true := by simpa using hl
    simp only [hcond, Bool.true_and, if_true, View.acquire_ok hacq]
    rw [put2_plain (f' := fun L => Refl.reads (s.named ⟨o, g⟩ a L)) _ hd 10, wordDone_ok, State.acquireAt_now]
    · rfl
    · intro L hL
      rw [find_named hL]
      cases s.named ⟨o, g⟩ a L <;> rfl

section
variable (hclean : (View.mk o g).cleanReg x.d.val)
include hclean

theorem execRack_held (hheld : ¬ s.slotsFree ⟨o, g⟩ a) : ∃ offs, execRack x s = .next (s.stallAt o (.reflSlots offs)) := by
  obtain ⟨offs, hstall⟩ := State.slotsOpen_held hheld
  have hnamed := reflLanes_named hx ha hpass (d := (View.mk o g).lanesReg x.d.val) hclean
  rw [execRack, runWord_issues hi]
  simp only [hnamed, operand_source _ _ _ hx, ha, bind, Except.bind, hstall]
  exact ⟨offs, rfl⟩

variable (hfree : s.slotsFree ⟨o, g⟩ a)
include hfree

/-- With the slots free, RACK waits for the loads that are open, and else acts lane by lane (R322). -/
theorem execRack_free : ∃ ids : List Nat,
    (ids = [] ↔ ∀ L ∈ (View.mk o g).lanes, ∀ n r, s.named ⟨o, g⟩ a L = some (n, r) → r.st ≠ .registering) ∧
    execRack x s = .next (if ids = [] then
      ((View.mk o g).lanes.foldl (State.rackLane ⟨o, g⟩ x.d.val (s.named ⟨o, g⟩ a)) s).issued
    else s.stallAt o (.reflLoad ids)) := by
  have hnamed := reflLanes_named hx ha hpass (d := (View.mk o g).lanesReg x.d.val) hclean
  refine ⟨(View.mk o g).lanes.filterMap fun L => (s.named ⟨o, g⟩ a L).bind fun r =>
    if r.2.st == .registering then some r.1 else none, ?_, ?_⟩
  · simp only [List.filterMap_eq_nil_iff, Option.bind_eq_none_iff, beq_iff_eq, ite_eq_right_iff, reduceCtorEq, imp_false,
      Prod.forall]
  · rw [execRack, runWord_issues hi]
    simp only [hnamed, operand_source _ _ _ hx, ha, bind, Except.bind, State.slotsOpen_free hfree, List.filterMap_map,
      Function.comp_def, Bool.not_eq_eq_eq_not, Bool.not_true, List.isEmpty_eq_false_iff, ne_eq, ite_not, List.foldl_map]
    split
    · refine congrArg (fun f => Host.Outcome.next (State.issued (List.foldl f s _))) (funext fun t => funext fun L => ?_)
      unfold State.rackLane
      cases s.named ⟨o, g⟩ a L with
      | none => rfl
      | some r => simp only [beq_iff_eq]; rfl
    · rfl

end

end

/-- Settles O41: where its operands pass their checks, each of these words does what its equation above says. -/
theorem reflections : Obligations.Reflections := by
  unfold Obligations.Reflections
  refine ⟨fun pd ar z => ⟨fun go => ?subscribes, ?waitsForPages⟩, fun x hx => ⟨?unreflWaits, ?unreflEnds⟩, fun x hx =>
    ⟨fun hd => ?rseq, fun hd L0 Ls => ?rseqAcquires,
      fun s o g hi hpass hclean => ⟨fun hheld => ?rackHeld, fun hload hfree => ?rackWaits⟩, ?rack⟩⟩
  case subscribes =>
    rintro s o g hi ⟨⟨hl, hclean, hpass, hgood⟩, hits, hgo⟩
    exact execRefl_subscribes hi hl pd hclean hpass hgood hits hgo
  case waitsForPages =>
    rintro s o g hi ⟨⟨hl, hclean, hpass, hgood⟩, hmiss⟩
    exact execRefl_waits hi hl pd hclean hpass hgood hmiss
  case unreflWaits =>
    intro s o g hi hl hpass hheld
    exact execUnrefl_waits hi hl hx rfl hpass hheld
  case unreflEnds =>
    rintro s o g hi ⟨hl, hpass, hfree⟩
    exact execUnrefl_ends hi hl hx rfl hpass hfree
  case rseq =>
    intro s o g hi hpass
    exact execRseq_reads hi hx rfl hpass hd (.inl ⟨rfl, rfl⟩)
  case rseqAcquires =>
    rintro s o g hi ⟨hl, hacq, hpass⟩
    exact execRseq_reads hi hx rfl hpass hd (.inr ⟨⟨rfl, hl ▸ List.cons_ne_nil L0 Ls, hacq⟩, rfl⟩)
  case rackHeld =>
    exact execRack_held hi hx rfl hpass hclean hheld
  case rackWaits =>
    obtain ⟨ids, hids, hexec⟩ := execRack_free hi hx rfl hpass hclean hfree
    obtain ⟨L, hL, n, r, hnamed, hst⟩ := hload
    have hopen : ids ≠ [] := fun h => hids.mp h L hL n r hnamed hst
    exact ⟨ids, hexec.trans (congrArg _ (if_neg hopen))⟩
  case rack =>
    rintro s o g hi ⟨hpass, hfree, hclean, hdone⟩
    obtain ⟨ids, hids, hexec⟩ := execRack_free hi hx rfl hpass hclean hfree
    refine hexec.trans ?_
    rw [if_pos (hids.mpr hdone)]
    rfl

end Sys2Proof.Machine
end

section
/-! PROOFS. Errors that name no team (spec 17_faults.md R391, R393, R397 to R399, 19_stack_logic.md R420, R430): what each logs,
and what it strikes or repairs. -/

namespace Sys2Proof.Machine

/-! Live contexts. -/

theorem lookup_ne_none_of_mem {α : Type} {k : Nat} {v : α} {m : List (Nat × α)} (h : (k, v) ∈ m) : lookup k m ≠ none := by
  induction m with
  | nil => cases h
  | cons p m ih =>
    unfold lookup
    split
    · nofun
    · next hne =>
      rcases List.mem_cons.mp h with rfl | htail
      · exact absurd (beq_self_eq_true k) hne
      · exact ih htail

/-- A context that may own a struck array of a die is a live one, or 0 for none. -/
theorem State.ownersOn_live (s : State) (die i : Nat) :
    (s.ownersOn die).getD i 0 = 0 ∨ lookup ((s.ownersOn die).getD i 0) s.ctxs ≠ none := by
  rw [List.getD_eq_getElem?_getD]
  cases h : (s.ownersOn die)[i]? with
  | none => exact .inl rfl
  | some ctx =>
    rcases List.mem_cons.mp (List.mem_of_getElem? h) with rfl | hctx
    · exact .inl rfl
    · obtain ⟨p, hp, rfl⟩ := List.mem_map.mp hctx
      exact .inr (lookup_ne_none_of_mem (List.mem_filter.mp hp).1)

/-! Errors of a die, a core, a stack, a parked frame and a command. -/

theorem execCorrectableEcc_counts {s : State} {d : Nat} (hd : s.hasDie d = true) :
    ∃ ctx unit addr, (ctx = 0 ∨ lookup ctx s.ctxs ≠ none) ∧ execCorrectableEcc d s =
      .next (({ s with free := s.free + 3 } : State).logError ⟨d, ctx, 1, false, 0, unit, addr, s.now, 0⟩) := by
  refine ⟨_, Config.freeChoice (s.free + 1) % 65536, Config.freeChoice (s.free + 2) % 18446744073709551616,
    s.ownersOn_live d (Config.freeChoice s.free % (s.ownersOn d).length), ?_⟩
  simp only [execCorrectableEcc, hd, Bool.not_true, Bool.false_eq_true, if_false]

theorem execManagementControllerFault_logs {s : State} {d : Nat} (hd : s.hasDie d = true) :
    execManagementControllerFault d s = .next (s.logError ⟨d, 0, 15, false, 0, 0, 0, s.now, 0⟩) := by
  simp only [execManagementControllerFault, hd, Bool.not_true, Bool.false_eq_true, if_false]

theorem execInstructionCacheError_refills {s : State} {core : Nat} (hd : s.hasDie (core / 256) = true) :
    execInstructionCacheError core s =
      .next ((s.setCore core { s.core core with icache := [] }).logError ⟨core / 256, 0, 6, false, 0, core, 0, s.cyc core, 0⟩) := by
  simp only [execInstructionCacheError, dieOf, hd, Bool.not_true, Bool.false_eq_true, if_false]

/-- A stack address names its stack and its offset. -/
theorem stackAddr_parts (stack : Nat) {off : Nat} (hoff : off < 2 ^ 36) :
    (stack * 2 ^ 36 + off) / 68719476736 = stack ∧ (stack * 2 ^ 36 + off) % 68719476736 = off := by omega

theorem execHbmSectorUncorrectable_strikes {s : State} {stack off : Nat} (hd : s.hasDie (stack / 4) = true) (hoff : off < 2 ^ 36) :
    execHbmSectorUncorrectable (stack * 2 ^ 36 + off) s = .next ((s.logError
      ⟨stack / 4, 0, 2, false, 0, s.homeOf stack off % 64, stack * 2 ^ 36 + off, s.now, 0⟩).setSlotPsn stack off true) := by
  obtain ⟨hstack, hrest⟩ := stackAddr_parts stack hoff
  simp only [execHbmSectorUncorrectable, hstack, hrest, hd, Bool.not_true, Bool.false_eq_true, if_false]

theorem execParkingRegionUncorrectable_strikes {s : State} {gid word : Nat} {g : Group} (hg : lookup gid s.groups = some g)
    (himage : g.image = true) (hword : 4 * word < g.frameSize) :
    execParkingRegionUncorrectable gid word s = .next (({ s with free := s.free + 1 }.setGroup gid
      { g with frame := writeAt PWord.zero word ⟨Config.freeWord s.free, true⟩ g.frame }).logError
        ⟨g.core / 256, g.ctx, 7, false, 0, g.core, 4 * word, s.cyc g.core, 0⟩) := by
  simp only [execParkingRegionUncorrectable, hg, himage, Nat.not_le.mpr hword, Bool.not_true, decide_false, Bool.or_self,
    Bool.false_eq_true, if_false]
  rfl

theorem execCopyEngineInternalError_cancels {s : State} {n : Nat} {c : Cmd} (hc : s.cmd n = some c) :
    execCopyEngineInternalError n s =
      .next ((s.cancel n 12).logError ⟨c.core / 256, c.ctx, 9, false, 0, c.core, 0, s.cyc c.core, 0⟩) := by
  simp only [execCopyEngineInternalError, hc]
  rfl

/-! Lines of the L2. -/

/-- A home line with a struck sector: poisoned where it is dirty, else fetched again. -/
def HomeLine.struck (h : HomeLine) (k : Nat) : HomeLine :=
  if h.dirty.getLsbD k then { h with psn := h.psn ||| 1#4 <<< k } else { h with valid := h.valid &&& ~~~(1#4 <<< k) }

/-- A near copy or replica with a struck sector. -/
def CopyLine.struck (c : CopyLine) (k : Nat) : CopyLine :=
  if (List.range 32).any fun i => c.dirty.getLsbD (32 * k + i) then { c with psn := c.psn ||| 1#4 <<< k }
  else { c with valid := c.valid &&& ~~~(1#4 <<< k) }

/-- Strike the sector k of one line of the L2. -/
def State.strikeLine (s : State) (k : Nat) : L2Line → State
  | .home h => { s with homes := s.homes.map fun y => if y = h then h.struck k else y }
  | .copy c => { s with copies := s.copies.map fun y => if y = c then c.struck k else y }

theorem State.strikeLine_mem (s : State) (k : Nat) (x : L2Line) : (s.strikeLine k x).mem = s.mem := by cases x <;> rfl

theorem State.strikeLine_groups (s : State) (k : Nat) (x : L2Line) : (s.strikeLine k x).groups = s.groups := by cases x <;> rfl

/-- Of the lines that hold the sector one is struck, and the error is logged as class 3. -/
theorem execL2DataUncorrectable_strikes {s : State} {die stack off : Nat} (hoff : off < 2 ^ 36)
    (hits : s.l2Hits die stack off ≠ []) : ∃ x ∈ s.l2Hits die stack off, ∃ e : ErrEntry, e.code = 3 ∧
      execL2DataUncorrectable die (stack * 2 ^ 36 + off) s =
        .next ((({ s with free := s.free + 1 } : State).strikeLine (off % 128 / 32) x).logError e) := by
  obtain ⟨hstack, hrest⟩ := stackAddr_parts stack hoff
  have hlength : 0 < (s.l2Hits die stack off).length := List.length_pos_of_ne_nil hits
  have hlt : Config.freeChoice s.free % max 1 (s.l2Hits die stack off).length < (s.l2Hits die stack off).length := by
    rw [Nat.max_eq_right hlength]
    exact Nat.mod_lt _ hlength
  refine ⟨_, List.getElem_mem hlt, ?_⟩
  simp only [execL2DataUncorrectable, hstack, hrest, List.getElem?_eq_getElem hlt]
  generalize (s.l2Hits die stack off)[Config.freeChoice s.free % max 1 (s.l2Hits die stack off).length] = x
  cases x with
  | home h => exact ⟨_, rfl, rfl⟩
  | copy c => exact ⟨_, rfl, rfl⟩

/-! The retirement of a slice (R420). -/

theorem State.die_modDie (s : State) (d : Nat) (f : Die → Die) : (s.modDie d f).die d = f (s.die d) := by
  rw [State.die, State.modDie, State.setDie, lookup_insertAt_self]
  rfl

theorem State.die_of_dies {s t : State} (h : t.dies = s.dies) (d : Nat) : t.die d = s.die d := by rw [State.die, h, State.die]

theorem State.modLinks_dies (s : State) (ls : List Nat) (f : Link → Link) : (s.modLinks ls f).dies = s.dies :=
  foldl_keeps (fun t _ => t.setLink_dies ..) ls s

theorem State.warmReset_warmed (s : State) (d : Nat) (fatal : Bool) : ((s.warmReset d fatal).die d).warmed = true := by
  unfold State.warmReset
  split
  · next h => exact h
  · rw [State.die_of_dies (State.modLinks_dies ..), State.die_modDie]

/-- The dies and the near copies. -/
def State.dieCopies (s : State) : List (Nat × Die) × List CopyLine := (s.dies, s.copies)

section
variable (s : State)

theorem State.logError_dieCopies (e : ErrEntry) : (s.logError e).dieCopies = s.dieCopies := by
  obtain ⟨log, irq, hlog, -⟩ := s.logError_eq e
  rw [hlog]
  rfl

theorem State.writeSlot_dieCopies (r : Refl) (data : List Byte) (psn : Bool × Bool) :
    (s.writeSlot r data psn).dieCopies = s.dieCopies := by
  unfold State.writeSlot upTo
  refine foldl_keeps (p := State.dieCopies) (fun _ _ => ?_) _ s
  rfl

theorem State.pushSlot_dieCopies (p : RPush) (x : Nat × Nat) : (s.pushSlot p x).dieCopies = s.dieCopies := by
  unfold State.pushSlot
  split
  · rfl
  · split
    · exact s.writeSlot_dieCopies ..
    · rfl

theorem State.drainPushes_dieCopies (n : Nat) : (s.drainPushes n).dieCopies = s.dieCopies := by
  unfold State.drainPushes
  refine (foldl_keeps (p := State.dieCopies) (fun t q => ?_) _ _).trans rfl
  exact foldl_keeps (p := State.dieCopies) (fun u x => u.pushSlot_dieCopies q.2 x) q.2.to_ t

theorem State.loseRefl_dieCopies (n : Nat) : (s.loseRefl n).dieCopies = s.dieCopies := by
  unfold State.loseRefl
  split
  · rfl
  · split
    · rfl
    · exact s.drainPushes_dieCopies n
    · rfl

theorem State.overfullMirrors_dieCopies (moved : List Nat) : (s.overfullMirrors moved).dieCopies = s.dieCopies := by
  refine foldl_keeps (p := State.dieCopies) (fun t n => ?_) moved s
  split
  · rfl
  · split
    · exact t.loseRefl_dieCopies n
    · rfl

end

/-- A retired slice is listed so and holds no copy any more; where it was the last of its stack, its die is reset. -/
theorem execL2SliceTagError_retires {s : State} {die slice : Nat} (hd : s.hasDie die = true) (hslice : slice < 64)
    (hnew : slice ∉ (s.die die).retired) : ∃ t : State, (t.die die).retired = slice :: (s.die die).retired ∧
      (∀ c ∈ t.copies, ¬ (c.die = die ∧ c.slice % 64 = slice)) ∧ ∃ u : State,
      execL2SliceTagError die slice s = .next
        (if ((List.range 16).all fun w => (t.die die).retired.contains (slice / 16 * 16 + w)) = true then u.warmReset die true else t) := by
  have hcond : (!s.hasDie die || decide (64 ≤ slice) || (s.die die).retired.contains slice) = false := by
    simp [hd, Nat.not_le.mpr hslice, hnew]
  unfold execL2SliceTagError
  rw [if_neg (Bool.eq_false_iff.mp hcond)]
  extract_lets here s0 s1 moved s2a home s2 s3 all
  have hevict : s1.dieClock = s.dieClock := foldl_keeps (fun t h => t.evictHome_dieClock h) _ s0
  have hretire : (s2a.die die).retired = slice :: (s.die die).retired := by
    rw [State.die_modDie, State.die_of_dies (State.dies_of_dieClock ((s1.dropWhere_dieClock here).trans hevict))]
  have hlost : s3.dieCopies = s2a.dieCopies := (State.logError_dieCopies ..).trans (s2.overfullMirrors_dieCopies moved)
  have hcopies : s3.copies = (s1.writeBackWhere here).copies.filter fun c => !here c := congrArg Prod.snd hlost
  refine ⟨s3, ?_, fun c hc => ?_, _, rfl⟩
  · rw [State.die_of_dies (congrArg Prod.fst hlost), hretire]
  · rw [hcopies] at hc
    simpa [here, ← not_and_or] using (List.mem_filter.mp hc).2

/-- A slice that is not the last of its stack is retired; the last takes its die into reset (R420, R430). -/
theorem execL2SliceTagError_outcome {s : State} {die slice : Nat} (hd : s.hasDie die = true) (hslice : slice < 64)
    (hnew : slice ∉ (s.die die).retired) :
    let last := ∀ u < 16, slice / 16 * 16 + u = slice ∨ slice / 16 * 16 + u ∈ (s.die die).retired
    ∃ t, execL2SliceTagError die slice s = .next t ∧
      (¬ last → slice ∈ (t.die die).retired ∧ ∀ c ∈ t.copies, ¬ (c.die = die ∧ c.slice % 64 = slice)) ∧
      (last → (t.die die).warmed = true) := by
  intro last
  obtain ⟨t, hretired, hcopies, u, hexec⟩ := execL2SliceTagError_retires hd hslice hnew
  have hall : ((List.range 16).all fun w => (t.die die).retired.contains (slice / 16 * 16 + w)) = true ↔ last := by
    simp [hretired, last]
  refine ⟨_, hexec, fun hlast => ?_, fun hlast => ?_⟩
  · rw [if_neg (hlast ∘ hall.mp)]
    exact ⟨hretired ▸ List.mem_cons_self, hcopies⟩
  · rw [if_pos (hall.mpr hlast)]
    exact u.warmReset_warmed die true

end Sys2Proof.Machine
end

section
/-! PROOFS. Errors that strike a word of a team, and the rollback of a team (spec 13_reflection.md R315, 17_faults.md R393 to R397):
the undo log, the records that come back, and the words that stay poisoned. -/

namespace Sys2Proof.Machine

/-! Errors of a team's arrays and of its scheduling state. -/

section
variable {s : State} {a : CoreArray} {team : Option Nat} {ctx core addr : Nat} (ha : s.arrayOwner a = some (team, ctx, core, addr))
include ha

/-- Without a checkpoint to roll back to, the struck word is poisoned. -/
theorem execRegisterSpaceUncorrectable_poisons
    (hspent : ∀ i, team = some i → (s.logError ⟨core / 256, ctx, 4, false, 0, core, addr, s.cyc core, 0⟩).unspent i = none) :
    execRegisterSpaceUncorrectable a s =
      .next ((s.logError ⟨core / 256, ctx, 4, false, 0, core, addr, s.cyc core, 0⟩).poisonArray a) := by
  unfold execRegisterSpaceUncorrectable
  rw [ha]
  cases team with
  | none => rfl
  | some i => simp only [dieOf, hspent i rfl]

theorem execRegisterSpaceUncorrectable_rollsBack {i : Nat} {x : Team} {c : Ckpt} (hteam : team = some i)
    (hckpt : (s.logError ⟨core / 256, ctx, 4, false, 0, core, addr, s.cyc core, 0⟩).unspent i = some (x, c)) :
    execRegisterSpaceUncorrectable a s =
      let r := (s.logError ⟨core / 256, ctx, 4, false, 0, core, addr, s.cyc core, 0⟩).rollback i x c
      .next (if r.2 then r.1 else r.1.poisonArray a) := by
  unfold execRegisterSpaceUncorrectable
  rw [ha]
  subst hteam
  simp only [dieOf, hckpt]
  rfl

end

/-- A core goes out of service and takes its context with it (R397). -/
def State.loseCore (t : State) (core ctx : Nat) : State :=
  (t.setCore core { t.core core with out := true }).killCtx ctx

section
variable {s : State} {gid : Nat} {g : Group} (hg : lookup gid s.groups = some g)
include hg

theorem execSchedulingStateUncorrectable_kills
    (hspent : (s.logError ⟨g.core / 256, g.ctx, 5, false, 0, g.core, 0, s.cyc g.core, 0⟩).unspent g.team = none) :
    execSchedulingStateUncorrectable gid s =
      .next ((s.logError ⟨g.core / 256, g.ctx, 5, false, 0, g.core, 0, s.cyc g.core, 0⟩).loseCore g.core g.ctx) := by
  simp only [execSchedulingStateUncorrectable, hg, dieOf, hspent]
  rfl

theorem execSchedulingStateUncorrectable_rollsBack {x : Team} {c : Ckpt}
    (hckpt : (s.logError ⟨g.core / 256, g.ctx, 5, false, 0, g.core, 0, s.cyc g.core, 0⟩).unspent g.team = some (x, c)) :
    execSchedulingStateUncorrectable gid s =
      let r := (s.logError ⟨g.core / 256, g.ctx, 5, false, 0, g.core, 0, s.cyc g.core, 0⟩).rollback g.team x c
      .next (if r.2 then r.1 else r.1.loseCore g.core g.ctx) := by
  simp only [execSchedulingStateUncorrectable, hg, dieOf, hckpt]
  rfl

end

/-! Whether a rollback happens (R396). -/

theorem State.core_setCore (s : State) (core : Nat) (x : Core) : (s.setCore core x).core core = x :=
  readAt_writeAt_self ({} : Core) core x s.cores

theorem State.rollback_outcome (s : State) (team : Nat) (x : Team) (c : Ckpt) :
    let u : State := { s.stopTeam team c with free := (s.stopTeam team c).free + 1 }
    ((s.rollback team x c).2 = true → (s.rollback team x c).1 = u.replayTeam team x c) ∧
      ((s.rollback team x c).2 = false → ((s.rollback team x c).1.core x.core).out = true) := by
  unfold State.rollback
  dsimp only
  split
  · exact ⟨fun _ => rfl, nofun⟩
  · exact ⟨nofun, fun _ => congrArg Core.out (State.core_setCore _ x.core _)⟩

/-! The undo log (R315, R394). -/

theorem State.lookup_modGroup (s : State) {gid : Nat} {g : Group} (hg : lookup gid s.groups = some g) (f : Group → Group) :
    lookup gid (s.modGroup gid f).groups = some (f g) :=
  (lookup_modifyAt_self gid f s.groups).trans (congrArg (Option.map f) hg)

theorem State.lookup_modTeam (s : State) {team : Nat} {x : Team} (hx : lookup team s.teams = some x) (f : Team → Team) :
    lookup team (s.modTeam team f).teams = some (f x) :=
  (lookup_modifyAt_self team f s.teams).trans (congrArg (Option.map f) hx)

section
variable (s : State) (core b : Nat) {old : List (Nat × PWord)} (hkeys : (old.map (·.1)).Nodup)

include hkeys in
theorem nodup_shifted (k : Nat) : (old.map fun x => k + x.1).Nodup := by
  simpa [Function.comp_def] using hkeys.map (f := (k + ·)) (fun _ _ h => Nat.add_left_cancel h)

/-- A group whose frame words from b on have their old values again. -/
def Group.undone (g : Group) (b : Nat) (old : List (Nat × PWord)) : Group :=
  { g with frame := old.foldl (fun f x => writeAt PWord.zero (b + x.1) x.2 f) g.frame }

include hkeys in
/-- A frame's entry gives each of its words the old value, and leaves the others. -/
theorem Group.undone_words (g : Group) :
    (∀ x ∈ old, (g.undone b old).word (b + x.1) = x.2) ∧
      ∀ i, (∀ x ∈ old, b + x.1 ≠ i) → (g.undone b old).word i = g.word i := by
  refine ⟨fun x hx => ?_, fun i hi => ?_⟩
  · exact readAt_foldl_writeAt PWord.zero (fun x : Nat × PWord => b + x.1) Prod.snd g.frame (nodup_shifted hkeys b) hx
  · refine readAt_foldl_writeAt_ne PWord.zero (fun x : Nat × PWord => b + x.1) Prod.snd g.frame fun hmem => ?_
    obtain ⟨x, hx, hxi⟩ := List.mem_map.mp hmem
    exact hi x hx hxi

theorem State.undo_frame {gid : Nat} {g : Group} (hg : lookup gid s.groups = some g) :
    lookup gid (s.undo core ⟨.frame gid b, old⟩).groups = some (g.undone b old) :=
  s.lookup_modGroup hg fun g => g.undone b old

/-- What an entry does with one word of a scratchpad: in the slot of a live reflection it stands. -/
def State.undoWord (s : State) (core b : Nat) (m : List (Nat × PWord)) (x : Nat × PWord) : List (Nat × PWord) :=
  if s.inSlot core (b + x.1) then m else writeAt PWord.zero (core * 65536 + b + x.1) x.2 m

theorem State.undo_spad : (s.undo core ⟨.spad b, old⟩).spad = old.foldl (s.undoWord core b) s.spad := rfl

theorem State.undoWord_ne (m : List (Nat × PWord)) (x : Nat × PWord) (i : Nat) (hi : core * 65536 + b + x.1 ≠ i) :
    readAt PWord.zero (s.undoWord core b m x) i = readAt PWord.zero m i := by
  unfold State.undoWord
  split
  · rfl
  · exact readAt_writeAt_ne PWord.zero x.2 hi.symm m

include hkeys in
theorem State.undo_spad_at {x : Nat × PWord} (hx : x ∈ old) (hfree : s.inSlot core (b + x.1) = false) :
    readAt PWord.zero (s.undo core ⟨.spad b, old⟩).spad (core * 65536 + b + x.1) = x.2 := by
  obtain ⟨m, -, hm⟩ := foldl_touched (g := readAt PWord.zero) (key := fun x => core * 65536 + b + x.1)
    (s.undoWord_ne core b) (nodup_shifted hkeys _) hx s.spad
  rw [State.undo_spad, hm, State.undoWord, hfree]
  exact readAt_writeAt_self PWord.zero _ x.2 m

theorem State.undo_spad_ne {i : Nat} (hi : ∀ x ∈ old, core * 65536 + b + x.1 = i → s.inSlot core (b + x.1) = true) :
    readAt PWord.zero (s.undo core ⟨.spad b, old⟩).spad i = readAt PWord.zero s.spad i := by
  refine List.foldlRecOn (motive := fun m => readAt PWord.zero m i = readAt PWord.zero s.spad i) old
    (s.undoWord core b) rfl fun m hm x hx => ?_
  by_cases hkey : core * 65536 + b + x.1 = i
  · rw [State.undoWord, if_pos (hi x hx hkey)]
    exact hm
  · exact (s.undoWord_ne core b m x i hkey).trans hm

end

/-! The records of a checkpoint (R394). -/

/-- What the undo log and the withdrawal of arrivals leave alone: the checkpoint of the team, and the reflections. -/
def State.ckptRefls (team : Nat) (s : State) : Option (Option Ckpt) × List (Nat × Refl) :=
  ((lookup team s.teams).map (·.ckpt), s.refls)

section
variable (s : State) (team : Nat)

theorem State.undo_ckptRefls (core : Nat) (e : LogEntry) : (s.undo core e).ckptRefls team = s.ckptRefls team := by
  unfold State.undo
  split <;> rfl

theorem State.undo_hasGroup (core : Nat) (e : LogEntry) (gid : Nat) :
    (lookup gid (s.undo core e).groups).isSome = (lookup gid s.groups).isSome := by
  obtain ⟨name, old⟩ := e
  cases name with
  | frame n b =>
    rw [State.undo, State.modGroup_groups]
    by_cases hn : gid = n
    · rw [hn, lookup_modifyAt_self, Option.isSome_map]
    · rw [lookup_modifyAt_ne _ hn]
  | spad b => rfl

theorem State.withdraw_groups (cluster : Nat) (as : List (Bool × Nat × Nat)) : (s.withdraw team cluster as).groups = s.groups := by
  unfold State.withdraw
  refine foldl_keeps (p := State.groups) (fun t a => ?_) as s
  dsimp only
  split <;> rfl

theorem State.withdraw_ckptRefls (cluster : Nat) (as : List (Bool × Nat × Nat)) :
    (s.withdraw team cluster as).ckptRefls team = s.ckptRefls team := by
  unfold State.withdraw
  refine foldl_keeps (p := State.ckptRefls team) (fun t a => ?_) as s
  dsimp only
  split
  · rfl
  · simp only [State.ckptRefls, State.modTeam, lookup_modifyAt_self, Option.map_map]
    rfl

theorem State.restoreGroups_ckptRefls (now : Nat) (rs : List GroupCkpt) :
    (rs.foldl (fun t r => t.modGroup r.gid fun g => g.restore r now) s).ckptRefls team = s.ckptRefls team := by
  refine foldl_keeps (p := State.ckptRefls team) (fun _ _ => ?_) rs s
  rfl

/-- Each group of the records that is there is restored from its record. -/
theorem State.restoreGroups_restores (now : Nat) {rs : List GroupCkpt} (hkeys : (rs.map (·.gid)).Nodup) {r : GroupCkpt}
    (hr : r ∈ rs) (hg : (lookup r.gid s.groups).isSome) :
    ∃ g, lookup r.gid (rs.foldl (fun t r => t.modGroup r.gid fun g => g.restore r now) s).groups = some (Group.restore g r now) := by
  obtain ⟨t, hsame, hrestored⟩ := foldl_touched (g := fun (t : State) i => lookup i t.groups) (key := GroupCkpt.gid)
    (f := fun t r => t.modGroup r.gid fun g => g.restore r now)
    (fun t r i hi => lookup_modifyAt_ne (fun g => g.restore r now) (Ne.symm hi) t.groups) hkeys hr s
  obtain ⟨g, hg⟩ := Option.isSome_iff_exists.mp hg
  refine ⟨g, hrestored.trans (t.lookup_modGroup (hsame.trans hg) fun g => g.restore r now)⟩

/-- The reflections consumed since the checkpoint have PEND again (R315). -/
def pendAgain (racked : List Nat) (m : List (Nat × Refl)) : List (Nat × Refl) :=
  m.map fun p => if racked.contains p.1 then (p.1, { p.2 with pend := true }) else p

theorem lookup_pendAgain (racked : List Nat) (n : Nat) (m : List (Nat × Refl)) :
    lookup n (pendAgain racked m) = (lookup n m).map fun r => { r with pend := if n ∈ racked then true else r.pend } := by
  induction m with
  | nil => rfl
  | cons p m ih =>
    have hkey : (if racked.contains p.1 then (p.1, { p.2 with pend := true }) else p) =
        (p.1, { p.2 with pend := if p.1 ∈ racked then true else p.2.pend }) := by
      simp only [List.contains_iff_mem]
      split <;> rfl
    rw [pendAgain, List.map_cons, hkey]
    by_cases hp : p.1 = n
    · simp [lookup, hp]
    · simpa [lookup, hp, pendAgain] using ih

/-- A team whose checkpoint's log begins anew. -/
def Team.logAnew (x : Team) : Team :=
  { x with ckpt := x.ckpt.map fun k => { k with log := [], arrivals := [], racked := [] } }

variable (x : Team) (c : Ckpt)

/-- The state of a replay before its last two writes. -/
def State.replayed (s : State) (team : Nat) (x : Team) (c : Ckpt) : State :=
  (c.groups.foldl (fun t r => t.modGroup r.gid fun g => g.restore r s.now)
    (c.log.foldl (fun t e => t.undo x.core e) (s.restoreWorks x c))).withdraw team x.cluster c.arrivals

theorem State.replayTeam_eq : s.replayTeam team x c =
    State.modTeam { s.replayed team x c with refls := pendAgain c.racked (s.replayed team x c).refls } team Team.logAnew := rfl

theorem State.replayed_ckptRefls : (s.replayed team x c).ckptRefls team = s.ckptRefls team :=
  (State.withdraw_ckptRefls ..).trans <| (State.restoreGroups_ckptRefls ..).trans <|
    foldl_keeps (p := State.ckptRefls team) (fun t e => t.undo_ckptRefls team x.core e) c.log (s.restoreWorks x c)

theorem State.replayed_groups {r : GroupCkpt} (hkeys : (c.groups.map (·.gid)).Nodup) (hr : r ∈ c.groups)
    (hg : lookup r.gid s.groups ≠ none) :
    ∃ g, lookup r.gid (s.replayed team x c).groups = some (Group.restore g r s.now) := by
  rw [State.replayed, State.withdraw_groups]
  refine State.restoreGroups_restores _ s.now hkeys hr ?_
  exact (foldl_keeps (p := fun t : State => (lookup r.gid t.groups).isSome) (fun t e => t.undo_hasGroup x.core e r.gid)
    c.log (s.restoreWorks x c)).trans (Option.isSome_iff_ne_none.mpr hg)

/-- The log of the checkpoint begins anew. -/
theorem State.replayTeam_ckpt {y : Team} (hy : lookup team s.teams = some y) :
    ∃ z, lookup team (s.replayTeam team x c).teams = some z ∧
      z.ckpt = y.ckpt.map fun k => { k with log := [], arrivals := [], racked := [] } := by
  have hkept : (lookup team (s.replayed team x c).teams).map (·.ckpt) = some y.ckpt :=
    (congrArg Prod.fst (s.replayed_ckptRefls team x c)).trans (congrArg (Option.map Team.ckpt) hy)
  obtain ⟨z, hz, hckpt⟩ := Option.map_eq_some_iff.mp hkept
  refine ⟨z.logAnew, State.lookup_modTeam _ hz Team.logAnew, ?_⟩
  rw [← hckpt]
  rfl

theorem State.replayTeam_refls {n : Nat} {r : Refl} (hr : lookup n s.refls = some r) :
    lookup n (s.replayTeam team x c).refls = some { r with pend := if n ∈ c.racked then true else r.pend } := by
  have hkept : (s.replayed team x c).refls = s.refls := congrArg Prod.snd (s.replayed_ckptRefls team x c)
  rw [State.replayTeam_eq, State.modTeam_refls, lookup_pendAgain, hkept, hr]
  rfl

end

/-! Struck words (R393, R397). -/

section
variable (s : State)

/-- A group of whose frame one word is struck. -/
def Group.struck (g : Group) (i : Nat) (w : Word) : Group := { g with frame := writeAt PWord.zero i ⟨w, true⟩ g.frame }

theorem Group.struck_words (g : Group) (i : Nat) (w : Word) :
    ((g.struck i w).word i).psn = true ∧ ∀ j, j ≠ i → (g.struck i w).word j = g.word j :=
  ⟨congrArg PWord.psn (readAt_writeAt_self PWord.zero i _ g.frame), fun _ hj => readAt_writeAt_ne PWord.zero _ hj g.frame⟩

/-- Where a group's frame has one word struck, that word is poisoned, and no other of any group. -/
theorem State.modGroup_strikes {gid : Nat} {g : Group} (hg : lookup gid s.groups = some g) {f : Group → Group} {i : Nat} {w : Word}
    (hf : f g = g.struck i w) :
    (∀ k, k ≠ gid → lookup k (s.modGroup gid f).groups = lookup k s.groups) ∧
      ∃ y, lookup gid (s.modGroup gid f).groups = some y ∧ (y.word i).psn = true ∧ (∀ j, j ≠ i → y.word j = g.word j) ∧
        y.threads = g.threads := by
  obtain ⟨hpsn, hother⟩ := g.struck_words i w
  exact ⟨fun k hk => lookup_modifyAt_ne f hk s.groups, g.struck i w, (s.lookup_modGroup hg f).trans (congrArg some hf),
    hpsn, hother, rfl⟩

/-- A thread with a struck predicate. -/
def Thread.struck (t : Thread) (p : Nat) : Thread := if p == 0 then t else { t with predPsn := setBit16 t.predPsn p true }

theorem Thread.struck_predPsn (t : Thread) {p : Nat} (hp : 0 < p) :
    (t.struck p).predPsn = t.predPsn ||| 1#16 <<< p ∧ (t.struck p).preds = t.preds := by
  have hne : (p == 0) = false := by simpa using hp.ne'
  refine ⟨?_, ?_⟩
  · simp only [Thread.struck, hne, Bool.false_eq_true, if_false, setBit16, if_true]
    generalize 1#16 <<< p = struck
    ext i
    simp only [BitVec.getElem_or, BitVec.getElem_and, BitVec.getElem_not]
    cases t.predPsn[i] <;> simp
  · simp only [Thread.struck, hne, Bool.false_eq_true, if_false]

theorem State.poisonArray_predicate {gid lane p : Nat} {g : Group} (hg : lookup gid s.groups = some g)
    (hlane : lane < g.threads.length) (hp : 0 < p) :
    ∃ y, lookup gid (s.poisonArray (.predicate gid lane p)).groups = some y ∧ y.frame = g.frame ∧
      (y.thread lane).predPsn = (g.thread lane).predPsn ||| 1#16 <<< p ∧ (y.thread lane).preds = (g.thread lane).preds ∧
      ∀ L, L ≠ lane → y.thread L = g.thread L := by
  have hsame : (g.modThread lane (Thread.struck · p)).thread lane = (g.thread lane).struck p := thread_modThread_same hlane _
  obtain ⟨hpsn, hpreds⟩ := (g.thread lane).struck_predPsn hp
  refine ⟨g.modThread lane (Thread.struck · p), s.lookup_modGroup hg _, rfl, ?_, ?_, fun L hL => thread_modThread_other hL _⟩
  · rw [hsame, hpsn]
  · rw [hsame, hpreds]

theorem State.poisonArray_spad (core word : Nat) :
    (readAt PWord.zero (s.poisonArray (.spad core word)).spad (core * 65536 + word)).psn = true ∧
      ∀ i, i ≠ core * 65536 + word → readAt PWord.zero (s.poisonArray (.spad core word)).spad i = readAt PWord.zero s.spad i :=
  ⟨congrArg PWord.psn (readAt_writeAt_self PWord.zero _ _ s.spad), fun _ hi => readAt_writeAt_ne PWord.zero _ hi s.spad⟩

end

/-- Settles O59: every error does what the equation of its class above says. -/
theorem errorEvents : Obligations.ErrorEvents := by
  unfold Obligations.ErrorEvents
  refine ⟨fun s d hd => ⟨execCorrectableEcc_counts hd, execManagementControllerFault_logs hd⟩,
    fun s core hd => execInstructionCacheError_refills hd,
    fun s stack off hd hoff => execHbmSectorUncorrectable_strikes hd hoff,
    fun s die stack off hoff hits => ?line,
    fun s die slice hd hslice hnew => execL2SliceTagError_outcome hd hslice hnew,
    fun s gid g word hg himage hword => ⟨_, execParkingRegionUncorrectable_strikes hg himage hword⟩,
    fun s n c hc => execCopyEngineInternalError_cancels hc,
    fun s a team ctx core addr ha => ⟨execRegisterSpaceUncorrectable_poisons ha,
      fun i x c hteam hckpt => execRegisterSpaceUncorrectable_rollsBack ha hteam hckpt⟩,
    fun s gid g hg => ⟨execSchedulingStateUncorrectable_kills hg, fun x c hckpt => execSchedulingStateUncorrectable_rollsBack hg hckpt⟩,
    fun s team x c => s.rollback_outcome team x c,
    fun s team x c => ⟨fun hkeys r hr g hg => ?records, fun y hy => s.replayTeam_ckpt team x c hy,
      fun n r hr => s.replayTeam_refls team x c hr⟩,
    fun s core b old hkeys => ⟨fun gid g hg => ?frame, fun x hx hfree => s.undo_spad_at core b hkeys hx hfree,
      fun i hi => s.undo_spad_ne core b hi⟩,
    fun s gid g hg => ⟨fun word => ?word, fun n elem => ?tile, fun lane p hlane hp hp16 => s.poisonArray_predicate hg hlane hp⟩,
    fun s core word => ⟨rfl, s.poisonArray_spad core word⟩⟩
  case line =>
    obtain ⟨x, hx, e, hcode, hexec⟩ := execL2DataUncorrectable_strikes hoff hits
    refine ⟨x, hx, _, hexec, ?_⟩
    obtain ⟨log, irq, hlog, hentry⟩ :=
      State.logError_eq (State.strikeLine { s with free := s.free + 1 } (off % 128 / 32) x) e
    rw [hlog]
    refine ⟨State.strikeLine_mem .., State.strikeLine_groups .., hcode ▸ hentry, ?_⟩
    cases x with
    | home h => exact ⟨rfl, rfl⟩
    | copy c => exact ⟨rfl, by simp only [Nat.mul_comm (off % 128 / 32) 32]; rfl⟩
  case records =>
    obtain ⟨g', hg'⟩ := s.replayed_groups team x c hkeys hr (by simp [hg])
    exact ⟨_, hg', rfl, rfl, rfl, rfl, rfl, rfl, rfl, rfl, rfl, rfl⟩
  case frame =>
    exact ⟨_, s.undo_frame core b hg, g.undone_words b hkeys⟩
  case word =>
    exact ⟨rfl, State.modGroup_strikes { s with free := s.free + 1 } hg rfl⟩
  case tile =>
    exact ⟨rfl, State.modGroup_strikes { s with free := s.free + 1 } hg rfl⟩

end Sys2Proof.Machine
end

section
/-! PROOFS. What a step runs (spec 95_what_each_step_holds.md). -/

namespace Sys2Proof.Machine

/-- The action chosen is one of those that are possible. -/
theorem State.chosen_mem_actions {s : State} {a : Action} (h : s.chosen = some a) : a ∈ s.actions := by
  unfold State.chosen at h
  split at h
  · cases h
  · split at h
    · cases h
    · exact List.mem_of_getElem? h

/-- The machine where no action is chosen: the counter of free choices has moved on where there was one to choose. -/
def State.drawn (s : State) : State := { s with free := s.free + (if s.actions = [] then 0 else 1) }

theorem State.drawn_eq (s : State) : (if s.actions.isEmpty then s else { s with free := s.free + 1 }) = s.drawn := by
  by_cases h : s.actions = [] <;> simp [State.drawn, h]

/-- With nothing due and no action chosen, a step is the issue of the next core, or the passing of a cycle. -/
theorem step_of_none_chosen {s : State} (hin : s.inputs = []) (hnone : s.prompt = none) (hchosen : s.chosen = none) :
    (∀ c, s.drawn.nextCore = some c → step s = settled (s.drawn.issueOn c)) ∧
      (s.drawn.nextCore = none → step s = settled (.next s.drawn.tickOn)) := by
  unfold step
  rw [s.drawn_eq, hnone, hchosen]
  split
  · next h => exact absurd (hin.symm.trans h) (by simp)
  · dsimp only
    exact ⟨fun c hc => by rw [hc], fun hc => by rw [hc]⟩

/-- Settles O4, by the order in which `step` looks for what comes next. -/
theorem stepRunsWhatComesNext : Obligations.StepRunsWhatComesNext := by
  unfold Obligations.StepRunsWhatComesNext
  refine ⟨fun s i rest hin => ?outside, fun s hin => ⟨fun i hdue => ?due, fun hnone => ⟨fun i => rfl, ?free⟩⟩⟩
  case outside => simp only [step, hin]
  case due => simp only [step, hin, hdue]
  case free =>
    cases hchosen : s.chosen with
    | some a => exact .inl ⟨a, State.chosen_mem_actions hchosen, by simp only [step, hin, hnone, hchosen]⟩
    | none => exact .inr (step_of_none_chosen hin hnone hchosen)

end Sys2Proof.Machine
end

section
/-! PROOFS. Taking a trap (spec 17_faults.md R383 to R387, Table 17-2). -/

namespace Sys2Proof.Machine

section
variable {s : State} {gid : Nat} {g : Group} (hg : lookup gid s.groups = some g)
include hg

/-- A trap of a group that is neither Exiting nor Trapped, handles no trap, and has a handler in its context (R383). -/
theorem takeTrap_of_handler {c : Ctx} (rcd : List PWord) (hexit : g.st ≠ .exiting) (htrap : g.st ≠ .trapped)
    (hhandles : g.handles = none) (hc : lookup g.ctx s.ctxs = some c) (hhandler : c.handler ≠ none) :
    s.takeTrap gid rcd = s.setGroup gid { g with
      st := .trapped, since := if g.st = .waiting then g.since else s.now, unit := none, record := some rcd, handler := .due } := by
  simp [State.takeTrap, hg, hexit, htrap, hhandles, hc, Option.isSome_iff_ne_none, hhandler]

/-- A trap of a handler group (R385). -/
theorem takeTrap_of_handles {h : Nat} (rcd : List PWord) (hexit : g.st ≠ .exiting) (htrap : g.st ≠ .trapped)
    (hhandles : g.handles = some h) : s.takeTrap gid rcd = (s.logUnhandled g rcd).endGroups [gid, h] := by
  simp [State.takeTrap, hg, hexit, htrap, hhandles]

/-- A trap in a context without a handler (R383). -/
theorem takeTrap_of_no_handler (rcd : List PWord) (hexit : g.st ≠ .exiting) (htrap : g.st ≠ .trapped)
    (hhandles : g.handles = none) (hc : ∀ c, lookup g.ctx s.ctxs = some c → c.handler = none) :
    s.takeTrap gid rcd = (s.logUnhandled g rcd).endGroups [gid] := by
  cases hctx : lookup g.ctx s.ctxs with
  | none => simp [State.takeTrap, hg, hexit, htrap, hhandles, hctx]
  | some c => simp [State.takeTrap, hg, hexit, htrap, hhandles, hctx, hc c hctx]

theorem takeTrap_of_exiting (rcd : List PWord) (hexit : g.st = .exiting) : s.takeTrap gid rcd = s := by
  simp [State.takeTrap, hg, hexit]

/-- A trap of a Trapped group is its second where it has none (R385). -/
theorem takeTrap_of_trapped (rcd : List PWord) (htrap : g.st = .trapped) :
    s.takeTrap gid rcd = s.setGroup gid { g with second := match g.second with
      | some r => some r
      | none => some rcd } := by
  cases hs : g.second <;> simp [State.takeTrap, hg, htrap, hs]

end

/-- Settles O44, case by case of what `takeTrap` finds; the record's words are those of Table 17-2 in their order. -/
theorem takingATrap : Obligations.TakingATrap := by
  unfold Obligations.TakingATrap
  refine ⟨fun s gid g c rcd hg hexit htrap hhandles hc hhandler => takeTrap_of_handler hg rcd hexit htrap hhandles hc hhandler,
    fun s gid g rcd hg hexit htrap => ⟨fun h hh => takeTrap_of_handles hg rcd hexit htrap hh,
      fun hh hc => takeTrap_of_no_handler hg rcd hexit htrap hh hc⟩,
    fun s gid g rcd hg => ⟨takeTrap_of_exiting hg rcd, takeTrap_of_trapped hg rcd⟩,
    fun s g o mask t L Ls hL => ?record⟩
  case record =>
    simp only [trapRecord, hL]
    refine ⟨rfl, ?_, ?_, rfl, rfl, rfl, rfl, rfl, rfl, rfl, rfl, rfl, rfl, rfl, rfl, rfl, rfl⟩
    · simp [Nat.mul_comm]
    · simp [Nat.mul_comm]

end Sys2Proof.Machine
end

section
/-! PROOFS. LEND and RECALL (spec 16_context.md R371, R372, R374). -/

namespace Sys2Proof.Machine

/-- What an open loan would lose with map m: nothing of a loan that is not open. -/
def Loan.shrinks (l : Loan) (m : Word) : Bool := l.isOpen && (l.map &&& ~~~m) != 0

/-- What LEND does with the map m that it is given, by the loan's state (R371, R372). -/
def State.lend (s : State) (princ core : Nat) (m : Word) : State :=
  let l := s.loan princ core
  if l.returning.isSome then s.setLoan princ core { l with after := m }
  else if l.shrinks m then s.startEclipse princ core m
  else if m == 0 then s
  else s.openLoan princ core m

section
variable {s : State} {princ core : Nat} {m : Word}

theorem State.lend_returning (h : (s.loan princ core).returning ≠ none) :
    s.lend princ core m = s.setLoan princ core { s.loan princ core with after := m } :=
  if_pos (Option.isSome_iff_ne_none.mpr h)

section
variable (hret : (s.loan princ core).returning = none)
include hret

theorem State.lend_shrinks (h : (s.loan princ core).shrinks m = true) :
    s.lend princ core m = s.startEclipse princ core m := by
  simp [State.lend, hret, h]

theorem State.lend_empty (h : (s.loan princ core).shrinks m = false) (hm : m = 0) : s.lend princ core m = s := by
  rw [State.lend, hret, h, hm]
  rfl

theorem State.lend_opens (h : (s.loan princ core).shrinks m = false) (hm : m ≠ 0) :
    s.lend princ core m = s.openLoan princ core m := by
  rw [State.lend, hret, h, beq_false_of_ne hm]
  rfl

end
end

theorem Loan.shrinks_eq_true {l : Loan} {m : Word} : l.shrinks m = true ↔ l.isOpen = true ∧ l.map &&& ~~~m ≠ 0 := by
  simp [Loan.shrinks]

theorem Loan.shrinks_eq_false {l : Loan} {m : Word} : l.shrinks m = false ↔ (l.isOpen = true → l.map &&& ~~~m = 0) := by
  simp [Loan.shrinks]

/-- LEND with a map of allotted granules in its lowest enabled lane spends the checkpoint and lends. -/
theorem execLend_lends {s : State} {o : Issue} {g : Group} (hi : Issues s o g) {x : OpA} (hx : x.ar.val < 28) {m : Word}
    (hm : (View.mk o g).lowestWord (.lend x) m) (hshade : g.shade = false) (hmap : s.mapBad g.ctx g.core m = false)
    {t : State} (ht : (s.spend g.team).lend g.ctx g.core m = t) : exec (.lend x) s = .next t.issued := by
  subst ht
  obtain ⟨L, hsingle⟩ := View.single_lowestWord hm
  change execLend x s = _
  rw [execLend, runWord_issues hi]
  simp only [operand_source s _ _ hx, bind, Except.bind]
  rw [show (View.mk o g).single ((View.mk o g).source (some (x.ap.val, x.ar.val))) = _ from hsingle]
  simp only [hshade, hmap, Bool.or_self, Bool.false_eq_true, if_false, State.lend, Loan.shrinks,
    ← apply_ite (Except.ok (ε := Stop))]
  rfl

/-- RECALL eclipses the loan and waits for what it had lent. -/
theorem execRecall_waits {s : State} {o : Issue} {g : Group} (hi : Issues s o g) (d : Reg) (hl : (View.mk o g).lanes ≠ [])
    (hshade : g.shade = false) (hacq : (View.mk o g).acquires) :
    execRecall d s = .next (((s.spend g.team).startEclipse g.ctx g.core 0).waitFor ⟨o, g⟩
      (.recall o ((View.mk o g).lanes.map fun L => g.regIdx L d.val)
        (if (s.loan g.ctx g.core).isOpen then (s.loan g.ctx g.core).map else 0))).issued := by
  rw [execRecall, runWord_issues hi]
  simp only [List.isEmpty_iff, hl, if_false, hshade, Bool.false_eq_true, View.acquire_ok hacq, bind, Except.bind]
  rfl

/-- Settles O42, by the four cases of the loan that a LEND finds. -/
theorem loansOpenAndReturn : Obligations.LoansOpenAndReturn := by
  unfold Obligations.LoansOpenAndReturn
  refine ⟨fun x m hx => ⟨?opens, ?shrinks, ?returns, ?empty⟩, fun d s o g hi ⟨hl, hshade, hacq⟩ =>
    execRecall_waits hi d hl hshade hacq⟩
  case opens =>
    rintro s o g hi ⟨⟨hm, hshade, hmap⟩, hne, hret, hgrows⟩
    exact execLend_lends hi hx hm hshade hmap (State.lend_opens hret (Loan.shrinks_eq_false.mpr hgrows) hne)
  case shrinks =>
    rintro s o g hi ⟨⟨hm, hshade, hmap⟩, hret, hshrinks⟩
    exact execLend_lends hi hx hm hshade hmap (State.lend_shrinks hret (Loan.shrinks_eq_true.mpr hshrinks))
  case returns =>
    rintro s o g hi ⟨⟨hm, hshade, hmap⟩, hret⟩
    exact execLend_lends hi hx hm hshade hmap (State.lend_returning hret)
  case empty =>
    rintro s o g hi ⟨⟨hm, hshade, hmap⟩, rfl, hret, hzero⟩
    refine execLend_lends hi hx hm hshade hmap (State.lend_empty hret (Loan.shrinks_eq_false.mpr fun hopen => ?_) rfl)
    exact (congrArg (· &&& ~~~(0 : Word)) (hzero hopen)).trans BitVec.zero_and

end Sys2Proof.Machine
end

section
/-! PROOFS. SRD and SWR (spec 16_context.md R381, R382, Table 16-6). -/

namespace Sys2Proof.Machine

/-! SRD. -/

/-- The special registers that the engine context bound to q0 answers are 12 to 17. -/
theorem srEngine_iff {sr : Nat} : srEngine sr = true ↔ 12 ≤ sr ∧ sr ≤ 17 := by simp [srEngine]

section
variable {s : State} {o : Issue} {g : Group} (hi : Issues s o g) {d sr : Reg}
include hi

/-- An engine's register is not read where q0 is bound to no command queue. -/
theorem execSrd_unbound (hsr : srEngine sr.val = true) (hl : (View.mk o g).lanes ≠ [])
    (hb : ((View.mk o g).bound 0).toNat / 32 ≠ 1) :
    execSrd d sr s = .next (s.trapAtIssue o
      { kind := 3, detail := ((View.mk o g).bound 0).zeroExtend 32, tmask := (View.mk o g).en }) := by
  have hcode : (g.binding 28).toNat / 32 ≠ 1 := hb
  rw [execSrd, runWord_issues hi]
  simp [hl, hsr, hcode]
  rfl

/-- Elsewhere SRD delivers the register, or the pair. -/
theorem execSrd_delivers (hd : d.val < 28) (hwide : srWide sr.val = true → d.val < 27)
    (hb : srEngine sr.val = true → (View.mk o g).lanes = [] ∨ ((View.mk o g).bound 0).toNat / 32 = 1) :
    execSrd d sr s = .next (State.issued <|
      let low := (View.mk o g).results s.now d.val 6 fun L => PWord.ok (BitVec.ofNat 32 (srValue s ⟨o, g⟩ sr.val L))
      let high := (View.mk o g).results s.now (d.val + 1) 6 fun L =>
        PWord.ok (BitVec.ofNat 32 (srValue s ⟨o, g⟩ sr.val L / 2 ^ 32))
      if srWide sr.val then (s.receive ⟨o, g⟩ low).receive ⟨o, g⟩ high else s.receive ⟨o, g⟩ low) := by
  have hbound : (!(View.mk o g).lanes.isEmpty && srEngine sr.val && (g.binding 28).toNat / 32 != 1) = false := by
    rw [Bool.and_assoc, Bool.and_eq_false_iff]
    by_cases hsr : srEngine sr.val = true
    · rcases hb hsr with hl | hcode
      · exact .inl (by simp [hl])
      · exact .inr (by rw [show (g.binding 28).toNat / 32 = 1 from hcode, bne_self_eq_false, Bool.and_false])
    · exact .inr (by rw [Bool.not_eq_true] at hsr; rw [hsr, Bool.false_and])
  rw [execSrd, runWord_issues hi]
  simp only [hbound, Bool.false_eq_true, if_false]
  split
  · next h =>
    rw [put2_plain s (hwide h) 6 fun L _ => rfl]
    rfl
  · rw [put_plain s _ _ _ _ hd, wordDone_ok]

end

/-! The values of Table 16-6. -/

theorem foldl_add_map (f : Nat → Nat) (ds : List Nat) (n : Nat) :
    ds.foldl (fun m d => m + f d) n = (ds.map f).foldl (· + ·) n := (List.foldl_map ..).symm

/-- The engine context that a group's binding of q0 names. -/
theorem engineKey_eq (g : Group) (c : Byte) : engineKey g c = (g.ctx * 1024 + g.core) * 4 + c.toNat % 4 := rfl

theorem princOf_eq {s : State} {ctx : Nat} {c : Ctx} (hc : lookup ctx s.ctxs = some c) :
    s.princOf ctx = if c.shade then c.princ else ctx := by
  rw [State.princOf, hc]

theorem clusterIndex_eq {s : State} {g : Group} {t : Team} {k : Cluster} (ht : lookup g.team s.teams = some t)
    (hk : lookup t.cluster s.clusters = some k) : s.clusterIndex g = k.index := by
  simp only [State.clusterIndex, ht, hk]

theorem kernelOf_eq {s : State} {g : Group} {t : Team} (ht : lookup g.team s.teams = some t) : s.kernelOf g = t.kernel := by
  simp only [State.kernelOf, ht]

theorem preqOf_eq {s : State} {g : Group} {c : Ctx} (hc : lookup g.ctx s.ctxs = some c) : s.preqOf g = c.preq := by
  simp only [State.preqOf, hc]

/-! Sets of enabled lanes that a word looks for. -/

/-- The enabled lanes that meet p, as a lane set. -/
def View.lanesWith (v : View) (p : Nat → Bool) : Word := maskOf fun L => v.on L && p L

theorem View.lanesOf_lanesWith (v : View) (p : Nat → Bool) : lanesOf (v.lanesWith p) = v.lanes.filter p := by
  rw [View.lanesWith, lanesOf_maskOf, View.lanes, List.filter_filter]
  exact List.filter_congr fun L _ => Bool.and_comm ..

theorem View.lanesWith_eq_zero {v : View} {p : Nat → Bool} (h : ∀ L ∈ v.lanes, p L = false) : v.lanesWith p = 0 :=
  maskOf_eq_zero fun L hL => by
    cases hon : v.on L with
    | false => rfl
    | true => exact h L (View.mem_lanes.mpr ⟨hL, hon⟩)

section
variable {v : View} {p : Nat → Bool} {L : Nat} {Ls : List Nat} (h : v.lanes.filter p = L :: Ls)
include h

theorem View.lanesWith_ne_zero : v.lanesWith p ≠ 0 := by
  intro hzero
  rw [← v.lanesOf_lanesWith, hzero, lanesOf_zero] at h
  cases h

/-- The poison-consumption trap of these lanes names the lowest of them. -/
theorem poisonTrap_lanesWith :
    poisonTrap (v.lanesWith p) = .trap { kind := 2, detail := BitVec.ofNat 32 L, tmask := v.lanesWith p } := by
  rw [poisonTrap, v.lanesOf_lanesWith, h]
  rfl

end

/-! SWR. -/

/-- The pair that lane L of an SWR reads, and whether it is poisoned. -/
def View.swrPair (v : View) (x : OpA) (L : Nat) : Bool × Nat := v.g.pairAt (v.src x.ap.val L) x.ar.val

section
variable {s : State} {o : Issue} {g : Group} (hi : Issues s o g) (sr : Reg) {x : OpA}
include hi

/-- A poisoned source stops SWR. -/
theorem execSwr_poisoned {L : Nat} {Ls : List Nat}
    (hbad : ((View.mk o g).lanes.filter fun J => ((View.mk o g).swrPair x J).1) = L :: Ls) :
    execSwr sr x s = .next (s.trapAtIssue o
      { kind := 2, detail := BitVec.ofNat 32 L, tmask := (View.mk o g).lanesWith fun J => ((View.mk o g).swrPair x J).1 }) := by
  rw [execSwr, runWord_issues hi]
  change Host.Outcome.next (s.wordDone o (if (View.mk o g).lanesWith (fun J => ((View.mk o g).swrPair x J).1) != 0 then
    .error (poisonTrap ((View.mk o g).lanesWith fun J => ((View.mk o g).swrPair x J).1)) else _)) = _
  rw [if_pos (bne_iff_ne.mpr (View.lanesWith_ne_zero hbad)), poisonTrap_lanesWith hbad, wordDone_trap]

/-- With a clean source SWR clears LOST where a shade's lane asks for it (R382). -/
theorem execSwr_clean (hclean : ∀ L ∈ (View.mk o g).lanes, ((View.mk o g).swrPair x L).1 = false) :
    execSwr sr x s = .next (State.issued <|
      if g.shade && (View.mk o g).lanes.any fun L => bitOf ((View.mk o g).swrPair x L).2 33 then
        s.setLoan (s.princOf g.ctx) g.core { s.loan (s.princOf g.ctx) g.core with lost := false } else s) := by
  rw [execSwr, runWord_issues hi]
  change Host.Outcome.next (s.wordDone o
    (if (View.mk o g).lanesWith (fun J => ((View.mk o g).swrPair x J).1) != 0 then _ else _)) = _
  rw [View.lanesWith_eq_zero hclean]
  rfl

end

/-- Settles O43, by the registers that need q0 bound, the values of the others, and the lanes of SWR's source. -/
theorem specialRegisters : Obligations.SpecialRegisters := by
  unfold Obligations.SpecialRegisters
  refine ⟨fun d sr hd hwide => ⟨?delivers, ?unbound⟩, ?values, fun sr x => ⟨?clears, ?leaves, ?poisoned⟩⟩
  case delivers =>
    intro s o g hi hb
    exact execSrd_delivers hi hd hwide fun hsr => hb (srEngine_iff.mp hsr).1 (srEngine_iff.mp hsr).2
  case unbound =>
    intro s o g hi hlow hhigh hl hb
    exact execSrd_unbound hi (srEngine_iff.mpr ⟨hlow, hhigh⟩) hl hb
  case values =>
    intro s v t k c kn L ht hk hc hkn
    refine ⟨rfl, rfl, clusterIndex_eq ht hk, rfl, rfl, ?_, ?_, ?_, ?_, ?_, congrArg Bool.toNat (preqOf_eq hc), rfl, rfl, rfl,
      fun i hi => ?_, ?_, ?_⟩
    · simp only [srValue, ht, Option.map_some, Option.getD_some]
    · simp only [srValue, ht, Option.map_some, Option.getD_some]
    · simp only [srValue, ht, Option.map_some, Option.getD_some]
    · simp only [srValue, hc, foldl_add_map (2 ^ ·)]
    · simp only [srValue, hc]
      omega
    · interval_cases i <;> rfl
    · rw [← princOf_eq hc]
      rfl
    · simp only [srValue, kernelOf_eq ht, hkn]
  case clears =>
    rintro s o g hi ⟨hshade, hclean, L, hL, hbit⟩
    have hasks : (g.shade && (View.mk o g).lanes.any fun L => bitOf ((View.mk o g).swrPair x L).2 33) = true := by
      rw [show g.shade = true from hshade, Bool.true_and, List.any_eq_true]
      exact ⟨L, hL, beq_iff_eq.mpr hbit⟩
    exact (execSwr_clean hi sr hclean).trans (by rw [if_pos hasks])
  case leaves =>
    rintro s o g hi ⟨hclean, hnone⟩
    have hasks : (g.shade && (View.mk o g).lanes.any fun L => bitOf ((View.mk o g).swrPair x L).2 33) = false := by
      rw [Bool.and_eq_false_iff, List.any_eq_false]
      refine hnone.imp id fun hbits L hL hbit => ?_
      exact Nat.zero_ne_one ((hbits L hL).symm.trans (beq_iff_eq.mp hbit))
    exact (execSwr_clean hi sr hclean).trans (by rw [hasks]; rfl)
  case poisoned => exact fun s o g L Ls hi hbad => execSwr_poisoned hi sr hbad

end Sys2Proof.Machine
end

section
/-! PROOFS. TKGET, TKPUT and TKDONE, and what a grant takes (spec 14_queue.md R333 to R338, R340). -/

namespace Sys2Proof.Machine

section
variable {s : State} {o : Issue} {g : Group} (hi : Issues s o g)
include hi

theorem execTkget_waits (try_ : Bool) (d : Reg) (hl : (View.mk o g).lanes ≠ []) (hacq : (View.mk o g).acquires) :
    execTkget try_ d s = .next ((s.spend g.team).waitFor ⟨o, g⟩
      (.tkget o ((View.mk o g).lanes.map fun L => g.regIdx L d.val) try_)).issued := by
  rw [execTkget, runWord_issues hi]
  simp only [List.isEmpty_iff, hl, if_false, View.acquire_ok hacq, bind, Except.bind]
  rfl

theorem execTkput_posts {r : Reg} {ws : List Word} (hlen : ws.length = 5) (hws : (View.mk o g).operandsAt r.val ws)
    (hok : recordOk g.code.words ws = true) (hrel : (View.mk o g).releases) (hroom : s.slotRoom (s.clusterOf g) ≠ 0) :
    execTkput r s = .next ((s.postTask (s.clusterOf g) ws).spend g.team).issued := by
  have hlowest : (View.mk o g).lowest r.val 5 = .ok (some ws) := hlen ▸ View.lowest_operandsAt hws
  rw [execTkput, runWord_issues hi]
  simp only [hlowest, hok, View.release_ok hrel, beq_iff_eq, hroom, bind, Except.bind, Bool.not_true, Bool.false_eq_true,
    if_false]
  rfl

/-- A TKDONE of a handle that names a live slot, of no more iterations than remain, and of the last of them only where none
is pending. -/
theorem execTkdone_reports {r : Reg} {hd n : Word} {k : Cluster} (hws : (View.mk o g).operandsAt r.val [hd, n])
    (hk : lookup (s.clusterOf g) s.clusters = some k) (hfull : (k.slot (hd.toNat % 64)).full = true)
    (hgen : (k.slot (hd.toNat % 64)).gen = hd.toNat / 65536) (hremain : n.toNat ≤ (k.slot (hd.toNat % 64)).remain)
    (hrel : (View.mk o g).releases) (hlast : n ≠ 0 → n.toNat = (k.slot (hd.toNat % 64)).remain →
      recWord (k.slot (hd.toNat % 64)).task 2 ≤ (k.slot (hd.toNat % 64)).next) :
    execTkdone r s = .next (State.issued <|
      let t := k.slot (hd.toNat % 64)
      let s1 := s.modCluster (s.clusterOf g) fun c => c.setSlot (hd.toNat % 64) { t with remain := t.remain - n.toNat }
      (if n ≠ 0 ∧ t.remain = n.toNat then s1.doChores (s.clusterOf g) [.retire (hd.toNat % 64)] else s1).spend g.team) := by
  have hlowest : (View.mk o g).lowest r.val 2 = .ok (some [hd, n]) := View.lowest_operandsAt hws
  have hzero : n.toNat = 0 ↔ n = 0 := by rw [← BitVec.toNat_inj]; rfl
  have hgood : (!(k.slot (hd.toNat % 64)).full || (k.slot (hd.toNat % 64)).gen != hd.toNat / 65536 ||
      (k.slot (hd.toNat % 64)).remain < n.toNat || (n.toNat != 0 && (k.slot (hd.toNat % 64)).remain == n.toNat &&
        recWord (k.slot (hd.toNat % 64)).task 2 - (k.slot (hd.toNat % 64)).next != 0)) = false := by
    simpa [hfull, hgen, hremain, hzero, Nat.sub_eq_zero_iff_le] using fun hn hall => hlast hn hall.symm
  have hwords : recWord [hd, n] 0 = hd.toNat ∧ recWord [hd, n] 1 = n.toNat := ⟨rfl, rfl⟩
  rw [execTkdone, runWord_issues hi]
  simp only [hlowest, hk, hwords, hgood, View.release_ok hrel, bind, Except.bind, Bool.false_eq_true, if_false, wordDone_ok,
    bne_iff_ne, ne_eq, Bool.and_eq_true, beq_iff_eq, hzero]

end

/-! Grants. -/

section
variable {c : Cluster} {n g units : Nat} (hg : 2 ^ bitsOf (recWord (c.slot n).task 3) 16 5 = g)
  (hunits : (recWord (c.slot n).task 2 - (c.slot n).next + g - 1) / g = units)
include hg hunits

/-- At most one grain is granted whole (R337). -/
theorem grant_whole (h : units ≤ 1) :
    c.grant n = ([(c.slot n).task.getD 0 0, BitVec.ofNat 32 (c.slot n).next, BitVec.ofNat 32 (recWord (c.slot n).task 2),
      (c.slot n).task.getD 4 0, BitVec.ofNat 32 (n + 65536 * (c.slot n).gen)],
      c.setSlot n { c.slot n with next := recWord (c.slot n).task 2 }) := by
  simp only [Cluster.grant, hg, hunits, h, if_true]

/-- Of more, half of the grains from the end (R337). -/
theorem grant_half (h : 1 < units) :
    c.grant n = ([(c.slot n).task.getD 0 0, BitVec.ofNat 32 (recWord (c.slot n).task 2 - g * (units / 2)),
      BitVec.ofNat 32 (recWord (c.slot n).task 2), (c.slot n).task.getD 4 0, BitVec.ofNat 32 (n + 65536 * (c.slot n).gen)],
      c.setSlot n { c.slot n with
        task := (c.slot n).task.set 2 (BitVec.ofNat 32 (recWord (c.slot n).task 2 - g * (units / 2))) }) := by
  simp only [Cluster.grant, hg, hunits, Nat.not_le.mpr h, if_false]

end

/-- Settles O38, by what each word does where its operands pass their checks, and by the grains that a grant finds. -/
theorem taskWordsAndGrants : Obligations.TaskWordsAndGrants := by
  unfold Obligations.TaskWordsAndGrants
  refine ⟨⟨fun try_ d => ?get, fun r ws hlen => ?put, fun r hd n k => ?done⟩, fun c n =>
    ⟨grant_whole rfl rfl, grant_half rfl rfl⟩⟩
  case get =>
    rintro s o g hi ⟨hl, hacq⟩
    exact execTkget_waits hi try_ d hl hacq
  case put =>
    rintro s o g hi ⟨hws, hok, hrel, hroom⟩
    exact execTkput_posts hi hlen hws hok hrel hroom
  case done =>
    rintro s o g hi ⟨hws, hk, hfull, hgen, hremain, hrel, hlast⟩
    exact execTkdone_reports hi hws hk hfull hgen hremain hrel hlast

end Sys2Proof.Machine
end

section
/-! PROOFS. DCSET, DCDEC and GCOND, and decrements of dependence counters (spec 15_kernel.md R349 to R352, R356). -/

namespace Sys2Proof.Machine

/-! The operands of the lowest enabled lane. -/

theorem View.lowest_idle {v : View} (h : v.lanes = []) (r n : Nat) : v.lowest r n = .ok none := by
  simp [View.lowest, View.first, h]

theorem View.lowest_poisoned {v : View} {L r n : Nat} (h : v.first = some L) (hp : ∃ i < n, (v.g.reg L (r + i)).psn = true) :
    v.lowest r n = .error (.trap { kind := 2, detail := BitVec.ofNat 32 L, tmask := maskOf (· == L) }) := by
  obtain ⟨i, hi, hpsn⟩ := hp
  have hL : L < 32 := (View.mem_lanes.mp (View.first_mem h)).1
  obtain ⟨w, hw⟩ : ∃ w, ((List.range n).map fun i => v.g.reg L (r + i)).find? (·.psn) = some w :=
    Option.isSome_iff_exists.mp (List.find?_isSome.mpr ⟨_, List.mem_map_of_mem (List.mem_range.mpr hi), hpsn⟩)
  simp [View.lowest, h, hw, poisonTrap, lanesOf_single hL]

/-! Operands that DCDEC checks. -/

theorem operandTrap_pass {v : View} {bad : Nat → Bool} (h : ∀ L ∈ v.lanes, bad L = false) : operandTrap v bad = .ok () :=
  if_neg fun hany => by
    obtain ⟨L, hL, hbad⟩ := List.any_eq_true.mp hany
    exact Bool.false_ne_true ((h L hL).symm.trans hbad)

theorem operandTrap_fail {v : View} {bad : Nat → Bool} {L : Nat} (hL : L ∈ v.lanes) (h : bad L = true) :
    operandTrap v bad = .error (.trap { kind := 10, tmask := v.en }) :=
  if_pos (List.any_eq_true.mpr ⟨L, hL, h⟩)

/-! DCSET. -/

/-- Operands of DCSET that break the rule, or name a counter that is Armed (R351). -/
def State.dcsetBad (s : State) (v : View) (w n : Word) (task : List Word) : Bool :=
  bitsOf w.toNat 8 23 != 0 || 2 ^ 24 ≤ n.toNat || (bitOf w.toNat 31 && !recordOk v.g.code.words task) ||
    match lookup (s.clusterOf v.g) s.clusters with
    | some k => (lookup (w.toNat % 256) k.counters).isSome
    | none => true

/-- What a DCSET does whose operands pass its checks (R351). -/
def State.dcset (s : State) (v : View) (w n : Word) (task : List Word) : Except Stop State :=
  let task_ := if bitOf w.toNat 31 then some task else none
  if n.toNat != 0 then
    .ok ((s.modCluster (s.clusterOf v.g) fun k =>
      { k with counters := insertAt (w.toNat % 256) ⟨n.toNat, task_⟩ k.counters }).spend v.g.team)
  else match task_ with
    | none => .ok (s.spend v.g.team)
    | some r => if s.slotRoom (s.clusterOf v.g) == 0 then .error (.stall .tkput)
      else .ok ((s.postTask (s.clusterOf v.g) r).spend v.g.team)

/-- DCSET's count and word are in range (R351). -/
def dcsetFits (w n : Word) : Prop := n.toNat < 2 ^ 24 ∧ w.toNat / 256 % 2 ^ 23 = 0

section
variable {s : State} {v : View} {w n : Word} {task : List Word}

theorem dcsetBad_eq_false : s.dcsetBad v w n task = false ↔ dcsetFits w n ∧
    (w.getLsbD 31 = true → recordOk v.g.code.words task = true) ∧
    ∃ k, lookup (s.clusterOf v.g) s.clusters = some k ∧ lookup (w.toNat % 256) k.counters = none := by
  have hcounter : (match lookup (s.clusterOf v.g) s.clusters with
      | some k => (lookup (w.toNat % 256) k.counters).isSome
      | none => true) = false ↔
      ∃ k, lookup (s.clusterOf v.g) s.clusters = some k ∧ lookup (w.toNat % 256) k.counters = none := by
    cases lookup (s.clusterOf v.g) s.clusters <;> simp
  simp only [State.dcsetBad, Bool.or_eq_false_iff, bne_eq_false_iff_eq, decide_eq_false_iff_not, Nat.not_le,
    Bool.and_eq_false_imp, Bool.not_eq_false', hcounter, dcsetFits, bitsOf, bitOf_toNat]
  rw [and_comm (a := w.toNat / 2 ^ 8 % 2 ^ 23 = 0), and_assoc]
  rfl

theorem dcset_arms (hn : n ≠ 0) : s.dcset v w n task = .ok ((s.modCluster (s.clusterOf v.g) fun k =>
    { k with counters := insertAt (w.toNat % 256) ⟨n.toNat, if w.getLsbD 31 then some task else none⟩ k.counters }).spend
      v.g.team) := by
  have hcount : (n.toNat != 0) = true := bne_iff_ne.mpr fun h => hn (BitVec.eq_of_toNat_eq h)
  rw [State.dcset, if_pos hcount, bitOf_toNat]

theorem dcset_zero : s.dcset v w 0 task = if w.getLsbD 31 then
    (if s.slotRoom (s.clusterOf v.g) = 0 then .error (.stall .tkput)
      else .ok ((s.postTask (s.clusterOf v.g) task).spend v.g.team))
    else .ok (s.spend v.g.team) := by
  rw [State.dcset, bitOf_toNat]
  cases w.getLsbD 31 <;> simp

end

section
variable {s : State} {o : Issue} {g : Group} (hi : Issues s o g)
include hi

section
variable {r : Reg} {w n : Word} {task : List Word} (hlen : task.length = 5)
  (hws : (View.mk o g).operandsAt r.val (w :: n :: task))
include hlen hws

theorem execDcset_operands : execDcset r s = .next (s.wordDone o (
    if s.dcsetBad ⟨o, g⟩ w n task then .error (objectTrap ⟨o, g⟩)
    else do
      (View.mk o g).release
      s.dcset ⟨o, g⟩ w n task)) := by
  have hlowest : (View.mk o g).lowest r.val 7 = .ok (some (w :: n :: task)) := by
    have h := View.lowest_operandsAt hws
    rwa [List.length_cons, List.length_cons, hlen] at h
  rw [execDcset, runWord_issues hi]
  simp only [hlowest, bind, Except.bind]
  rfl

theorem execDcset_bad (hbad : s.dcsetBad ⟨o, g⟩ w n task = true) :
    execDcset r s = .next (s.trapAtIssue o { kind := 10, tmask := (View.mk o g).en }) := by
  rw [execDcset_operands hi hlen hws, if_pos hbad]
  rfl

theorem execDcset_good (hgood : s.dcsetBad ⟨o, g⟩ w n task = false) (hrel : (View.mk o g).releases) :
    execDcset r s = .next (s.wordDone o (s.dcset ⟨o, g⟩ w n task)) := by
  rw [execDcset_operands hi hlen hws, hgood, if_neg Bool.false_ne_true, View.release_ok hrel]
  rfl

end

/-! DCDEC. -/

/-- Poison in an operand stops DCDEC before anything else of its operand is looked at. -/
theorem execDcdec_poisoned {x : OpA} (hx : x.ar.val < 28) {L : Nat} {Ls : List Nat}
    (hbad : ((View.mk o g).lanes.filter fun J => ((View.mk o g).source (some (x.ap.val, x.ar.val)) J).psn) = L :: Ls) :
    execDcdec x s = .next (s.trapAtIssue o
      { kind := 2, detail := BitVec.ofNat 32 L
        tmask := (View.mk o g).lanesWith fun J => ((View.mk o g).source (some (x.ap.val, x.ar.val)) J).psn }) := by
  have hne : (maskOf _ != 0) = true := bne_iff_ne.mpr (View.lanesWith_ne_zero hbad)
  have htrap : poisonTrap (maskOf _) = _ := poisonTrap_lanesWith hbad
  rw [execDcdec, runWord_issues hi]
  simp only [operand_source s _ _ hx, bind, Except.bind, hne, if_true, htrap, wordDone_trap]

/-- A clean DCDEC decrements the lanes' counters, where each of them is one (R352). -/
theorem execDcdec_clean {x : OpA} (hx : x.ar.val < 28)
    (hclean : ∀ L ∈ (View.mk o g).lanes, ((View.mk o g).source (some (x.ap.val, x.ar.val)) L).psn = false) :
    execDcdec x s = .next (s.wordDone o (do
      operandTrap ⟨o, g⟩ fun L => 256 ≤ ((View.mk o g).source (some (x.ap.val, x.ar.val)) L).val.toNat
      if (View.mk o g).lanes.isEmpty then .ok s
      else
        (View.mk o g).release
        .ok (((View.mk o g).lanes.foldl (fun t L => t.decrement (s.clusterOf g)
          ((View.mk o g).source (some (x.ap.val, x.ar.val)) L).val.toNat) s).spend g.team))) := by
  have hnone : maskOf _ = 0 := View.lanesWith_eq_zero hclean
  rw [execDcdec, runWord_issues hi]
  simp only [operand_source s _ _ hx, bind, Except.bind, hnone]
  rfl

/-! GCOND. -/

/-- What a GCOND of the word w does (R356). -/
def State.setCond (s : State) (g : Group) (n : Fin 8) (w : Word) : State :=
  match lookup (s.kernelOf g) s.kernels with
  | some k => match k.owner with
    | .node gr _ => { s with graphs := modifyAt gr (fun g => { g with cond := g.cond.set n.val w }) s.graphs }
    | .entry _ _ => s
  | none => s

theorem execGcond_single (n : Fin 8) {x : OpA} (hx : x.ar.val < 28) :
    execGcond n x s = .next (s.wordDone o (do
      match ← (View.mk o g).single ((View.mk o g).source (some (x.ap.val, x.ar.val))) with
      | none => .ok s
      | some (_, w) => .ok (s.setCond g n w))) := by
  rw [execGcond, runWord_issues hi]
  simp only [operand_source s _ _ hx, bind, Except.bind]
  rfl

/-- A clean operand in the lowest enabled lane is written (R356). -/
theorem execGcond_writes {n : Fin 8} {x : OpA} (hx : x.ar.val < 28) {w : Word}
    (hw : (View.mk o g).lowestWord (.gcond n x) w) : execGcond n x s = .next (s.setCond g n w).issued := by
  obtain ⟨L, hsingle⟩ := View.single_lowestWord hw
  rw [execGcond_single hi n hx, show (View.mk o g).single ((View.mk o g).source (some (x.ap.val, x.ar.val))) = _ from hsingle]
  rfl

/-! With no thread enabled, and with poison in the operands that only the lowest lane gives. -/

section
variable (hl : (View.mk o g).lanes = [])
include hl

theorem execDcset_idle (r : Reg) : execDcset r s = .next s.issued := by
  rw [execDcset, runWord_issues hi]
  simp only [View.lowest_idle hl]
  rfl

theorem execDcdec_idle {x : OpA} (hx : x.ar.val < 28) : execDcdec x s = .next s.issued := by
  have hnone {P : Nat → Prop} : ∀ L ∈ (View.mk o g).lanes, P L := fun L hL => absurd hL (hl ▸ List.not_mem_nil)
  rw [execDcdec_clean hi hx hnone, operandTrap_pass hnone, hl]
  rfl

theorem execGcond_idle (n : Fin 8) {x : OpA} (hx : x.ar.val < 28) : execGcond n x s = .next s.issued := by
  rw [execGcond_single hi n hx, View.single_idle hl]
  rfl

end

section
variable {L : Nat} (hL : (View.mk o g).first = some L)
include hL

theorem execDcset_poisoned {r : Reg} (hp : ∃ i < 7, (g.reg L (r.val + i)).psn = true) :
    execDcset r s = .next (s.trapAtIssue o { kind := 2, detail := BitVec.ofNat 32 L, tmask := maskOf (· == L) }) := by
  rw [execDcset, runWord_issues hi]
  simp only [View.lowest_poisoned hL hp]
  rfl

theorem execGcond_poisoned (n : Fin 8) {x : OpA} (hx : x.ar.val < 28)
    (hp : ((View.mk o g).source (some (x.ap.val, x.ar.val)) L).psn = true) :
    execGcond n x s = .next (s.trapAtIssue o { kind := 2, detail := BitVec.ofNat 32 L, tmask := maskOf (· == L) }) := by
  rw [execGcond_single hi n hx, View.single_poisoned hL hp]
  rfl

end

end

/-! Chores. -/

section
variable (kept : Nat) (c : Cluster) (d : Nat)

section
variable {dc : Nat} {k : Counter}

theorem chore_decrement_idle (h : lookup dc c.counters = none) : chore kept (c, d) (.decrement dc) = ((c, d + 1), []) := by
  simp only [chore, h]

theorem chore_decrement_zero (h : lookup dc c.counters = some k) (hzero : k.count = 0) :
    chore kept (c, d) (.decrement dc) = ((c, d + 1), []) := by
  simp [chore, h, hzero]

theorem chore_decrement_lowers (h : lookup dc c.counters = some k) (hmany : 1 < k.count) :
    chore kept (c, d) (.decrement dc) =
      (({ c with counters := insertAt dc { k with count := k.count - 1 } c.counters }, d), []) := by
  simp [chore, h, Nat.ne_of_gt hmany, Nat.ne_of_gt (Nat.lt_of_succ_lt hmany)]

theorem chore_decrement_last (h : lookup dc c.counters = some k) (hone : k.count = 1) (htask : k.task = none) :
    chore kept (c, d) (.decrement dc) = (({ c with counters := eraseAt dc c.counters }, d), []) := by
  simp [chore, h, hone, htask]

theorem chore_decrement_task (h : lookup dc c.counters = some k) (hone : k.count = 1) (htask : k.task ≠ none) :
    chore kept (c, d) (.decrement dc) =
      (({ c with counters := insertAt dc { k with count := 0 } c.counters }, d), [.fill]) := by
  obtain ⟨r, hr⟩ := Option.ne_none_iff_exists'.mp htask
  simp [chore, h, hone, hr]

theorem chore_fill_room {r : List Word} (h : c.waitingCounter = some (dc, r)) (hroom : kept < c.freeSlots) :
    chore kept (c, d) .fill = (({ c with counters := eraseAt dc c.counters }, d), [.post r, .fill]) := by
  simp [chore, h, hroom]

theorem chore_fill_full {r : List Word} (h : c.waitingCounter = some (dc, r)) (hfull : c.freeSlots ≤ kept) :
    chore kept (c, d) .fill = ((c, d), []) := by
  simp [chore, h, Nat.not_lt.mpr hfull]

end

section
variable (n : Nat) (r : List Word)

theorem chore_post (h : c.freeSlot = some n) (hrange : recWord r 1 < recWord r 2) :
    chore kept (c, d) (.post r) = ((c.take n r, d), []) := by
  simp [chore, h, Nat.ne_of_lt hrange]

theorem slot_take : (c.take n r).slot n =
    { full := true, task := r, next := recWord r 1, remain := recWord r 2 - recWord r 1
      gen := ((c.slot n).gen + 1) % 65536, seq := c.taskSeq } := by
  simp only [Cluster.take, Cluster.slot, Cluster.setSlot, readAt_writeAt_self]

end

end

/-- Settles O39, word by word, and chore by chore. -/
theorem counterWordsAndDecrements : Obligations.CounterWordsAndDecrements := by
  unfold Obligations.CounterWordsAndDecrements
  refine ⟨⟨fun r w n task hlen => ⟨fun hfits hn => ?arms, fun hfits hn => ⟨?empty, ?posts, ?waits⟩, ?bad⟩,
    fun x hx => ⟨?decrements, ?range⟩, fun n x w k hx => ⟨?node, ?entry⟩, ?idle, ?poisoned⟩, ?chores⟩
  case arms =>
    rintro s o g hi ⟨⟨hws, htask, hidle⟩, hrel⟩
    refine (execDcset_good hi hlen hws (dcsetBad_eq_false.mpr ⟨hfits, htask, hidle⟩) hrel).trans ?_
    rw [dcset_arms hn, wordDone_ok]
  case empty =>
    subst hn
    rintro s o g hi ⟨⟨hws, htask, hidle⟩, hrel, hw⟩
    refine (execDcset_good hi hlen hws (dcsetBad_eq_false.mpr ⟨hfits, htask, hidle⟩) hrel).trans ?_
    rw [dcset_zero, hw]
    rfl
  case posts =>
    subst hn
    rintro s o g hi ⟨⟨hws, htask, hidle⟩, hrel, hw, hroom⟩
    refine (execDcset_good hi hlen hws (dcsetBad_eq_false.mpr ⟨hfits, htask, hidle⟩) hrel).trans ?_
    rw [dcset_zero, if_pos hw, if_neg hroom, wordDone_ok]
  case waits =>
    subst hn
    rintro s o g hi ⟨hws, htask, hidle⟩ hrel hw hfull
    refine (execDcset_good hi hlen hws (dcsetBad_eq_false.mpr ⟨hfits, htask, hidle⟩) hrel).trans ?_
    rw [dcset_zero, if_pos hw, if_pos hfull]
    rfl
  case bad =>
    intro s o g hi hws hbad
    refine execDcset_bad hi hlen hws (Bool.not_eq_false _ ▸ fun hgood => ?_)
    obtain ⟨hfits, htask, k, hk, hx⟩ := dcsetBad_eq_false.mp hgood
    rcases hbad with hrule | ⟨hw, hrecord⟩ | ⟨k', x, hk', hx'⟩
    · exact hrule hfits
    · exact Bool.false_ne_true (hrecord.symm.trans (htask hw))
    · cases hk.symm.trans hk'
      cases hx.symm.trans hx'
  case decrements =>
    rintro s o g hi ⟨hl, hclean, hrange, hrel⟩
    refine (execDcdec_clean hi hx hclean).trans ?_
    rw [operandTrap_pass fun L hL => decide_eq_false (Nat.not_le.mpr (hrange L hL)), View.release_ok hrel]
    simp only [List.isEmpty_iff, hl, if_false, bind, Except.bind]
    rfl
  case range =>
    rintro s o g hi hclean ⟨L, hL, hrange⟩
    refine (execDcdec_clean hi hx hclean).trans ?_
    rw [operandTrap_fail hL (decide_eq_true hrange)]
    rfl
  case node =>
    rintro gr node howner s o g hi ⟨hw, hk⟩
    refine (execGcond_writes hi hx hw).trans ?_
    simp only [State.setCond, show lookup (s.kernelOf g) s.kernels = some k from hk, howner]
  case entry =>
    rintro q idx howner s o g hi ⟨hw, hk⟩
    refine (execGcond_writes hi hx hw).trans ?_
    simp only [State.setCond, show lookup (s.kernelOf g) s.kernels = some k from hk, howner]
  case idle =>
    rintro x n r hx i (rfl | rfl | rfl) s o g hi hl
    · exact execDcset_idle hi hl r
    · exact execDcdec_idle hi hl hx
    · exact execGcond_idle hi hl n hx
  case poisoned =>
    intro x n r s o g L Ls hx hi hlanes
    have hL : (View.mk o g).first = some L := congrArg List.head? hlanes
    refine ⟨execDcset_poisoned hi hL, fun hp => ⟨execDcdec_poisoned hi hx (Ls := Ls.filter fun J =>
      ((View.mk o g).source (some (x.ap.val, x.ar.val)) J).psn) ?_, execGcond_poisoned hi hL n hx hp⟩⟩
    rw [hlanes]
    exact List.filter_cons_of_pos (p := fun J => ((View.mk o g).source (some (x.ap.val, x.ar.val)) J).psn) hp
  case chores =>
    exact fun kept c d dc => ⟨chore_decrement_idle kept c d, fun k hk => ⟨chore_decrement_zero kept c d hk,
      chore_decrement_lowers kept c d hk, chore_decrement_last kept c d hk, chore_decrement_task kept c d hk⟩,
      fun r h => ⟨chore_fill_room kept c d h, chore_fill_full kept c d h⟩,
      fun r n h hrange => ⟨chore_post kept c d n r h hrange, slot_take c n r⟩⟩

end Sys2Proof.Machine
end

section
/-! PROOFS. The canonical form of the memories: what it says of each kind of result of the model's functions (spec
08_scratchpad.md, 18_page.md, 21_host_firmware.md). -/

namespace Sys2Proof.Machine

theorem memoryOk_ite {c : Prop} [Decidable c] {s t : State} (hs : s.memoryOk = true) (ht : t.memoryOk = true) :
    (if c then s else t).memoryOk = true := by
  split
  · exact hs
  · exact ht

/-- An outcome whose next state, if there is one, has its memories in canonical form. -/
def NextOk (r : Out) : Prop := ∀ t, r = .next t → t.memoryOk = true

theorem NextOk.next {t : State} (h : t.memoryOk = true) : NextOk (.next t) := fun _ e => Host.Outcome.next.inj e ▸ h

theorem NextOk.fault {r : Fault} : NextOk (.fault r) := fun _ e => nomatch e

theorem NextOk.refused {r : Refusal} : NextOk (.refused r) := fun _ e => nomatch e

theorem NextOk.ite {c : Prop} [Decidable c] {a b : Out} (ha : NextOk a) (hb : NextOk b) : NextOk (if c then a else b) := by
  split
  · exact ha
  · exact hb

/-- The state of an option, where there is one, has its memories in canonical form. -/
def SomeOk : Option State → Prop
  | some t => t.memoryOk = true
  | none => True

/-! The same of a result's state, for the results that carry one in some of their cases. -/

def Fetched.Ok : Fetched → Prop
  | .got _ _ t => t.memoryOk = true
  | .suspend _ t => t.memoryOk = true
  | .fail t => t.memoryOk = true
  | .hold => True

def Described.Ok : Described → Prop
  | .ok _ _ t => t.memoryOk = true
  | .refused t => t.memoryOk = true
  | .suspend _ _ t => t.memoryOk = true
  | .hold => True

def Launched.Ok : Launched → Prop
  | .ok t => t.memoryOk = true
  | .refused t => t.memoryOk = true
  | .suspend _ _ t => t.memoryOk = true
  | .hold => True

def Args.Ok : Args → Prop
  | .got _ t => t.memoryOk = true
  | .suspend _ _ t => t.memoryOk = true
  | .hold => True

def ArgsAll.Ok : ArgsAll → Prop
  | .got _ t => t.memoryOk = true
  | .suspend _ _ _ t => t.memoryOk = true
  | .hold => True

def Need.Ok : Need → Prop
  | .hold t => t.memoryOk = true
  | _ => True

def SomeNeedOk : Option Need → Prop
  | some e => e.Ok
  | none => True

def TriedOk {α : Type} (P : α → Prop) : Except Need α → Prop
  | .ok x => P x
  | .error e => e.Ok

theorem someOk_findSome {α : Type} {f : α → Option State} (hf : ∀ x, SomeOk (f x)) {l : List α} : SomeOk (l.findSome? f) := by
  induction l with
  | nil => trivial
  | cons x l ih =>
    have hx := hf x
    rw [List.findSome?_cons]
    split
    · next e => exact e ▸ hx
    · exact ih

def GraphRead.Ok : GraphRead → Prop
  | .got _ _ t => t.memoryOk = true
  | .refused t => t.memoryOk = true
  | .suspend _ _ t => t.memoryOk = true
  | .hold => True

def Landed.Ok : Landed → Prop
  | .ok t _ _ _ => t.memoryOk = true
  | .stop t _ e => t.memoryOk = true ∧ e.Ok
  | .flush => True

/-- A delivery that stops with state t and what it waits for. -/
def DeliveredOk (r : State × Cmd × Option Need) : Prop := r.1.memoryOk = true ∧ SomeNeedOk r.2.2

end Sys2Proof.Machine
end

section
/-! PROOFS. Groups, waits, queues of results, translations, near copies and reflections keep the memories canonical (spec
07_group.md, 08_scratchpad.md, 13_reflection.md, 18_page.md). -/

namespace Sys2Proof.Machine

section
variable {s : State} (h : s.memoryOk = true)
include h

theorem memoryOk_setGroup (gid : Nat) (g : Group) : (s.setGroup gid g).memoryOk = true := memoryOk_same h rfl rfl rfl
theorem memoryOk_endGroups (gids : List Nat) : (s.endGroups gids).memoryOk = true := memoryOk_same h rfl rfl rfl

theorem memoryOk_logUnhandled (g : Group) (rcd : List PWord) : (s.logUnhandled g rcd).memoryOk = true := by
  unfold State.logUnhandled
  exact memoryOk_logError h _

theorem memoryOk_takeTrap (gid : Nat) (rcd : List PWord) : (s.takeTrap gid rcd).memoryOk = true := by
  unfold State.takeTrap
  split
  · exact h
  · split
    · exact h
    · split
      · exact memoryOk_setGroup h _ _
      · split
        · exact memoryOk_endGroups (memoryOk_logUnhandled h _ _) _
        · split
          · exact memoryOk_endGroups (memoryOk_logUnhandled h _ _) _
          · exact memoryOk_ite (memoryOk_setGroup h _ _) (memoryOk_endGroups (memoryOk_logUnhandled h _ _) _)

theorem memoryOk_trapAtIssue (o : Issue) (t : Trap) : (s.trapAtIssue o t).memoryOk = true := by
  unfold State.trapAtIssue
  dsimp only
  split
  · exact h
  · exact memoryOk_same (memoryOk_takeTrap (memoryOk_setGroup h _ _) _ _) rfl rfl rfl

theorem memoryOk_setLoan (princ core : Nat) (l : Loan) : (s.setLoan princ core l).memoryOk = true := memoryOk_same h rfl rfl rfl

theorem memoryOk_startEclipse (princ core : Nat) (after : Word) : (s.startEclipse princ core after).memoryOk = true := by
  unfold State.startEclipse
  dsimp only
  exact memoryOk_ite (memoryOk_setLoan h _ _ _) h

theorem memoryOk_accessEclipse (princ core : Nat) (m : Word) : (s.accessEclipse princ core m).memoryOk = true := by
  unfold State.accessEclipse
  dsimp only
  exact memoryOk_ite (memoryOk_startEclipse h _ _ _) (memoryOk_ite (memoryOk_setLoan h _ _ _) h)

theorem memoryOk_modGroup (gid : Nat) (f : Group → Group) : (s.modGroup gid f).memoryOk = true := memoryOk_same h rfl rfl rfl

theorem memoryOk_stallAt (o : Issue) (w : Wait) : (s.stallAt o w).memoryOk = true := by
  unfold State.stallAt
  extract_lets ctx s1
  have h1 : s1.memoryOk = true := by
    unfold s1
    split
    · exact memoryOk_accessEclipse h _ _ _
    · exact h
  clear_value s1
  split
  · exact memoryOk_same h1 rfl rfl rfl
  · exact memoryOk_same h1 rfl rfl rfl
  · exact memoryOk_same h1 rfl rfl rfl

theorem memoryOk_wordDone (o : Issue) {r : Except Stop State} (hr : Yields r fun t => t.memoryOk = true) :
    (s.wordDone o r).memoryOk = true := by
  match r with
  | .ok t => exact memoryOk_same (hr.of_ok t rfl) rfl rfl rfl
  | .error (.trap t) => exact memoryOk_trapAtIssue h o t
  | .error (.stall w) => exact memoryOk_stallAt h o w

theorem memoryOk_setEngine (e' : Nat) (x : Engine) : (s.setEngine e' x).memoryOk = true := memoryOk_same h rfl rfl rfl
theorem memoryOk_modTeam (t : Nat) (f : Team → Team) : (s.modTeam t f).memoryOk = true := memoryOk_same h rfl rfl rfl
theorem memoryOk_spend (t : Nat) : (s.spend t).memoryOk = true := memoryOk_same h rfl rfl rfl

theorem memoryOk_modCluster (k : Nat) (f : Cluster → Cluster) :
    (s.modCluster k f).memoryOk = true := memoryOk_same h rfl rfl rfl

theorem pop_keepsOk (v : View) (c : Byte) (n : Nat) : Yields (s.pop v c n) fun x => x.2.memoryOk = true := by
  unfold State.pop
  dsimp only
  split
  · exact .ite .error (.ok (memoryOk_setEngine h _ _))
  · split
    · exact .error
    · split
      · exact .error
      · split
        · exact .error
        · exact .ok (memoryOk_spend (memoryOk_modCluster h _ _) _)
  · exact .error

theorem operand_keepsOk (v : View) (e' r' : Nat) : Yields (s.operand v e' r') fun x => x.2.memoryOk = true := by
  unfold State.operand
  split
  · split
    · exact .ok h
    · split
      · exact .error
      · next e2 => exact .ok ((pop_keepsOk h _ _ _).of_ok _ e2)
  · exact .ok h

theorem operands_keepsOk (v : View) (ea ra eb rb : Nat) : Yields (s.operands v ea ra eb rb) fun x => x.2.2.memoryOk = true := by
  unfold State.operands
  split
  · exact .error
  · next e =>
    split
    · exact .error
    · next e1 => exact .ok ((operand_keepsOk ((operand_keepsOk h _ _ _).of_ok _ e) _ _ _).of_ok _ e1)

theorem memoryOk_modKernel (k : Nat) (f : Kernel → Kernel) : (s.modKernel k f).memoryOk = true := memoryOk_same h rfl rfl rfl

theorem pushCheck_keepsOk (v : View) (c : Byte) (n : Nat) : Yields (s.pushCheck v c n) fun x => x.memoryOk = true := by
  unfold State.pushCheck
  dsimp only
  split
  · exact .ite .error (.ite .error (.ok h))
  · exact .ite .error (.ite .error (.ok h))
  · exact .ite .error (.ite .error (.ok (memoryOk_modKernel h _ _)))
  · exact .error

theorem memoryOk_modSelf (v : View) (f : Group → Group) : (s.modSelf v f).memoryOk = true := memoryOk_same h rfl rfl rfl
theorem memoryOk_setCore (c : Nat) (x : Core) : (s.setCore c x).memoryOk = true := memoryOk_same h rfl rfl rfl
theorem memoryOk_occupy (core pipe n : Nat) : (s.occupy core pipe n).memoryOk = true := memoryOk_same h rfl rfl rfl

theorem push_keepsOk (v : View) (c : Byte) (due : Option Nat) (srcs : List Nat) (ws : List PWord) :
    Yields (s.push v c due srcs ws) (fun x => x.memoryOk = true) := by
  unfold State.push
  split
  · exact .error
  · next e =>
    have hc := (pushCheck_keepsOk h _ _ _).of_ok _ e
    refine .ok (memoryOk_occupy ?_ _ _ _)
    split
    · exact memoryOk_same hc rfl rfl rfl
    · exact memoryOk_same hc rfl rfl rfl

theorem put_keepsOk (v : View) (r' n : Nat) (f : Lanes) : Yields (s.put v r' n f) fun x => x.memoryOk = true := by
  unfold State.put
  exact .ite (.ite (.ok h) (push_keepsOk h _ _ _ _ _)) (.ok (memoryOk_modSelf h _ _))

theorem put2_keepsOk (v : View) (r' n : Nat) (f : Nat → PWord × PWord) :
    Yields (s.put2 v r' n f) fun x => x.memoryOk = true := by
  unfold State.put2
  split
  · exact .error
  · next e => exact put_keepsOk ((put_keepsOk h _ _ _ _).of_ok _ e) _ _ _ _

theorem memoryOk_putPred (v : View) (p n : Nat) (f : Nat → Bool × Bool) : (s.putPred v p n f).memoryOk = true := by
  unfold State.putPred
  exact memoryOk_ite h (memoryOk_modSelf h _ _)

theorem memoryOk_defer (v : View) (ds : List Deferred) : (s.defer v ds).memoryOk = true := memoryOk_same h rfl rfl rfl

theorem winBases_keepsOk (v : View) (a : Lanes) : Yields (winBases s v a) fun x => x.memoryOk = true := by
  unfold winBases
  dsimp only
  split
  · exact .ite .error .error
  · exact .ok (memoryOk_defer h _ _)

theorem memoryOk_sendRemote (v : View) (target : Nat) (op : RemoteOp) (busy late : Nat) :
    (s.sendRemote v target op busy late).memoryOk = true := memoryOk_same h rfl rfl rfl

theorem memoryOk_waitFor (v : View) (w : Wait) : (s.waitFor v w).memoryOk = true := memoryOk_same h rfl rfl rfl

theorem storeOperands_keepsOk (v : View) (o : OpMem) : Yields (s.storeOperands v o) (fun x => x.2.2.memoryOk = true) := by
  unfold State.storeOperands
  split
  · exact operands_keepsOk h _ _ _ _ _
  · split
    · exact .error
    · next e =>
      have ha := (operand_keepsOk h _ _ _).of_ok _ e
      exact .ok ha

theorem memoryOk_logBlock (t : Nat) (nm : LogName) (old : List (Nat × PWord)) : (s.logBlock t nm old).memoryOk = true := by
  unfold State.logBlock
  split
  · exact h
  · split
    · exact h
    · exact memoryOk_ite h (memoryOk_ite (memoryOk_modTeam h _ _) (memoryOk_ite (memoryOk_spend h _) (memoryOk_modTeam h _ _)))

theorem memoryOk_stepLanes {α : Type} {f : State → α → List PWord × State}
    (hf : ∀ s x, s.memoryOk = true → (f s x).2.memoryOk = true) (xs : List (Nat × α)) :
    (stepLanes f xs s).2.memoryOk = true := by
  induction xs generalizing s with
  | nil => exact h
  | cons x xs ih => exact ih (hf s x.2 h)

theorem memoryOk_putWords (team core p : Nat) (ws : List PWord) : (s.putWords team core p ws).memoryOk = true := by
  unfold State.putWords
  exact memoryOk_spadWrites h _ _ _

theorem memoryOk_atomStep (team core p : Nat) (o : OpAtom) (b : List PWord) {r} (e : atomStep s team core p o b = r) :
    r.2.memoryOk = true := by
  subst e
  unfold atomStep
  dsimp only
  exact memoryOk_putWords h _ _ _ _

theorem memoryOk_casStep (team core p : Nat) (o : OpCas) (b d : List PWord) {r} (e : casStep s team core p o b d = r) :
    r.2.memoryOk = true := by
  subst e
  unfold casStep
  dsimp only
  split
  · exact h
  · exact memoryOk_putWords h _ _ _ _

theorem memoryOk_setWorks (core : Nat) (ws : List MWork) : (s.setWorks core ws).memoryOk = true := memoryOk_same h rfl rfl rfl

theorem memoryOk_queueWork (core gid t : Nat) (wide : Bool) (q : Int) (k : MKind) :
    (s.queueWork core gid t wide q k).memoryOk = true := memoryOk_same h rfl rfl rfl

theorem memoryOk_setScaleMem (core : Nat) (m : ScaleMem) : (s.setScaleMem core m).memoryOk = true := memoryOk_same h rfl rfl rfl

theorem ownScale_keepsOk (core ctx : Nat) : Yields (s.ownScale core ctx) fun x => x.memoryOk = true := by
  unfold State.ownScale
  dsimp only
  exact .ite (.ok h) (.ite .error (.ok (memoryOk_same h rfl rfl rfl)))

theorem memoryOk_writeTile (gid t : Nat) (f : Nat → Option (PWord × PWord)) : (s.writeTile gid t f).memoryOk = true := by
  unfold State.writeTile
  dsimp only
  split
  · exact h
  · exact memoryOk_modGroup (memoryOk_foldl (fun _ _ h1 => (memoryOk_ite (memoryOk_logBlock h1 _ _ _) h1)) _ _ h) _ _

theorem memoryOk_applyWork (core : Nat) (w : MWork) : (s.applyWork core w).memoryOk = true := by
  unfold State.applyWork
  split
  · exact h
  · split
    · exact memoryOk_modGroup (memoryOk_writeTile h _ _ _) _ _
    · exact memoryOk_modGroup (memoryOk_writeTile h _ _ _) _ _
    · exact memoryOk_modGroup (memoryOk_foldl (fun _ _ h => memoryOk_foldl (fun _ _ h => memoryOk_logError h _) _ _ h) _ _
        (memoryOk_writeTile h _ _ _)) _ _
    · exact memoryOk_writeTile h _ _ _

theorem memoryOk_transferTo (v : View) (f : Nat → Transfer) : (s.transferTo v f).memoryOk = true := memoryOk_same h rfl rfl rfl

theorem branchTargets_keepsOk (v : View) (t : Lanes) : Yields (branchTargets s v t) fun x => x.memoryOk = true := by
  unfold branchTargets
  dsimp only
  split
  · exact .ite .error .error
  · exact .ok (memoryOk_ite h (memoryOk_transferTo h _ _))

theorem objects_keepsOk (v : View) (o : OpM) (n : Nat) : Yields (s.objects v o n) fun x => x.2.2.memoryOk = true := by
  unfold State.objects
  split
  · exact .error
  · next e =>
    split
    · exact .error
    · exact .ok ((operand_keepsOk h _ _ _).of_ok _ e)

theorem memoryOk_arrive (team core off : Nat) (delta : Int) (bad : Bool) :
    (s.arrive team core off delta bad).memoryOk = true := by
  unfold State.arrive
  dsimp only
  exact memoryOk_ite h (memoryOk_putWords h _ _ _ _)

theorem memoryOk_objStep (team core off : Nat) (a : ObjAct) : (objStep s team core off a).memoryOk = true := by
  unfold objStep
  split
  · exact memoryOk_putWords h _ _ _ _
  · exact memoryOk_arrive h _ _ _ _ _
  · exact memoryOk_putWords h _ _ _ _
  · exact memoryOk_ite h (memoryOk_putWords h _ _ _ _)

theorem memoryOk_sendObjects (v : View) (check : Bool) (acts : List (Nat × Nat × Nat × ObjAct)) :
    (s.sendObjects v check acts).memoryOk = true := by
  unfold State.sendObjects
  split
  · exact h
  · exact memoryOk_waitFor (memoryOk_modSelf (memoryOk_sendRemote h _ _ _ _ _) _ _) _ _

theorem memoryOk_objectActs (v : View) (rs : List (Nat × SpadRef)) (check spends : Bool) (act : Nat → ObjAct) :
    (s.objectActs v rs check spends act).memoryOk = true := by
  unfold State.objectActs
  dsimp only
  exact memoryOk_sendObjects (memoryOk_ite (memoryOk_spend (memoryOk_foldl (fun _ _ h => memoryOk_objStep h _ _ _ _) _ _ h)
      _) (memoryOk_foldl (fun _ _ h => memoryOk_objStep h _ _ _ _) _ _ h)) _ _ _

theorem memoryOk_endWalk (die ctx va : Nat) (log : Bool) (o : Outcome) : (endWalk die ctx va log (o, s)).2.memoryOk = true := by
  unfold endWalk
  split
  · exact memoryOk_ite (memoryOk_logError h _) h
  · exact h

theorem memoryOk_cacheTables (die ctx va : Nat) (ts : List (Nat × Nat)) :
    (s.cacheTables die ctx va ts).memoryOk = true := memoryOk_same h rfl rfl rfl

theorem memoryOk_countAccess (die table page : Nat) :
    (s.countAccess die table page).memoryOk = true := memoryOk_same h rfl rfl rfl

theorem memoryOk_touchHome (stack off : Nat) : (s.touchHome stack off).memoryOk = true := by
  unfold State.touchHome
  dsimp only
  exact memoryOk_putHome (memoryOk_fetchHome h _ _) _

theorem memoryOk_touchEntries (die : Nat) (ps : List (Nat × Nat)) : (s.touchEntries die ps).memoryOk = true := by
  unfold State.touchEntries
  exact memoryOk_foldl (fun _ _ h => memoryOk_touchHome h _ _) _ _ h

theorem memoryOk_walkRead (die ctx va : Nat) (a : Access) {r} (e : s.walkRead die ctx va a = r) : r.2.memoryOk = true := by
  subst e
  unfold State.walkRead
  dsimp only
  split
  · exact h
  · split
    · exact h
    · split
      · split
        · exact memoryOk_cacheTables (memoryOk_touchEntries h _ _) _ _ _ _
        · split
          · split
            · exact memoryOk_same (memoryOk_touchEntries h _ _) rfl rfl rfl
            · exact memoryOk_same (memoryOk_touchEntries h _ _) rfl rfl rfl
          · exact memoryOk_cacheTables (memoryOk_touchEntries h _ _) _ _ _ _
      · exact memoryOk_cacheTables (memoryOk_touchEntries h _ _) _ _ _ _

theorem memoryOk_walk (die ctx va : Nat) (a : Access) {r} (e : s.walk die ctx va a = r) : r.2.memoryOk = true := by
  subst e
  exact memoryOk_endWalk (memoryOk_walkRead h _ _ _ _ rfl) _ _ _ _ _

theorem memoryOk_tlbAdd (core ctx : Nat) (l : Leaf) : (s.tlbAdd core ctx l).memoryOk = true := memoryOk_same h rfl rfl rfl

theorem memoryOk_translate (core ctx va : Nat) (a : Access) {r} (e : s.translate core ctx va a = r) : r.2.memoryOk = true := by
  subst e
  unfold State.translate
  dsimp only
  split
  · exact h
  · split
    · exact memoryOk_tlbAdd (memoryOk_walk h _ _ _ _ rfl) _ _ _
    · exact memoryOk_walk h _ _ _ _ rfl

theorem memoryOk_reflOutcomes (core ctx : Nat) (lanes : List (Nat × Word × Nat)) (lost : List Nat) {r}
    (e : s.reflOutcomes core ctx lanes lost = r) : r.2.memoryOk = true := by
  subst e
  refine List.foldlRecOn (motive := fun (r : _ × State) => r.2.memoryOk = true) lanes _ h fun r hr x _ => ?_
  dsimp only
  split
  · exact hr
  · exact memoryOk_translate hr _ _ _ _ rfl

theorem memoryOk_subscribe (gid pd size : Nat) (lanes : List (Nat × Nat × Nat × Nat × Nat × Bool)) :
    (s.subscribe gid pd size lanes).memoryOk = true := by
  unfold State.subscribe
  dsimp only
  refine memoryOk_foldl (fun _ _ h => ?_) _ _ h
  split
  · exact h
  · exact memoryOk_ite (memoryOk_same h rfl rfl rfl) (memoryOk_setGroup h _ _)

theorem memoryOk_reflWalk (gid : Nat) (g : Group) (lanes : List (Nat × Word × Nat)) :
    (s.reflWalk gid g lanes).memoryOk = true := by
  unfold State.reflWalk
  dsimp only
  split
  · exact h
  · exact memoryOk_same h rfl rfl rfl

theorem reflLanes_keepsOk (v : View) (ap ar : Nat) (d : Lanes) :
    Yields (s.reflLanes v ap ar d) fun x => x.2.memoryOk = true := by
  unfold State.reflLanes
  dsimp only
  split
  · exact .error
  · next e =>
    split
    · exact .error
    · split
      · exact .error
      · exact .ok ((operand_keepsOk h _ _ _).of_ok _ e)

theorem memoryOk_modRefl (n : Nat) (f : Refl → Refl) : (s.modRefl n f).memoryOk = true := memoryOk_same h rfl rfl rfl
theorem memoryOk_deliverResult (src : Nat) (v : PWord) : (s.deliverResult src v).memoryOk = true := memoryOk_same h rfl rfl rfl

theorem memoryOk_freeRefl (n : Nat) (r' : Refl) : (s.freeRefl n r').memoryOk = true := by
  unfold State.freeRefl
  exact memoryOk_foldl (fun _ _ h => memoryOk_deliverResult h _ _) _ _ (memoryOk_same h rfl rfl rfl)

theorem memoryOk_unsubscribe (n : Nat) (mark : Option Nat) : (s.unsubscribe n mark).memoryOk = true := by
  unfold State.unsubscribe
  dsimp only
  split
  · exact h
  · split
    · exact memoryOk_modRefl h _ _
    · exact memoryOk_modRefl h _ _
    · exact memoryOk_modRefl h _ _
    · exact memoryOk_freeRefl h _ _

theorem memoryOk_writeBack (c : CopyLine) : (s.writeBack c).memoryOk = true := by
  unfold State.writeBack
  exact memoryOk_ite (memoryOk_homeWrite h _) h

theorem memoryOk_writeBackWhere (p : CopyLine → Bool) : (s.writeBackWhere p).memoryOk = true := by
  unfold State.writeBackWhere
  exact memoryOk_foldl (fun _ _ h => memoryOk_writeBack h _) _ _ (memoryOk_same h rfl rfl rfl)

theorem memoryOk_dropWhere (p : CopyLine → Bool) : (s.dropWhere p).memoryOk = true := by
  unfold State.dropWhere
  dsimp only
  exact memoryOk_same (memoryOk_writeBackWhere h _) rfl rfl rfl

theorem memoryOk_dropDie (ctx die : Nat) : (s.dropDie ctx die).memoryOk = true := by
  unfold State.dropDie
  exact memoryOk_dropWhere h _

theorem memoryOk_acquireAt (ctx core : Nat) (sc : Scope) : (s.acquireAt ctx core sc).memoryOk = true := by
  unfold State.acquireAt
  exact memoryOk_ite (memoryOk_dropDie h _ _) h

theorem memoryOk_logDiscards (k : Cluster) (n : Nat) : (s.logDiscards k n).memoryOk = true := by
  induction n generalizing s with
  | zero => exact h
  | succ n ih => exact ih (memoryOk_logError h _)

theorem memoryOk_doChores (cl : Nat) (cs : List Chore) : (s.doChores cl cs).memoryOk = true := by
  unfold State.doChores
  dsimp only
  split
  · exact h
  · exact memoryOk_logDiscards (memoryOk_modCluster h _ _) _ _

theorem memoryOk_postTask (cl : Nat) (r' : List Word) : (s.postTask cl r').memoryOk = true := by
  unfold State.postTask
  exact memoryOk_doChores h _ _

theorem memoryOk_decrement (cl dc : Nat) : (s.decrement cl dc).memoryOk = true := by
  unfold State.decrement
  exact memoryOk_doChores h _ _

theorem memoryOk_writeBackDie (ctx die : Nat) : (s.writeBackDie ctx die).memoryOk = true := by
  unfold State.writeBackDie
  exact memoryOk_writeBackWhere h _

theorem memoryOk_charge (a : Agent) (die n : Nat) : (s.charge a die n).memoryOk = true := by
  unfold State.charge
  exact memoryOk_ite h ((memoryOk_debit _ _ _ _).trans h)

theorem memoryOk_putCopy (near : Bool) (a : Agent) (c : CopyLine) : (s.putCopy near a c).memoryOk = true := by
  have h1 := (memoryOk_withCopies s (s.copies.filter fun x => !serves near a c.stack c.line x)).trans h
  unfold State.putCopy
  extract_lets held s1 s2
  have h2 : s2.memoryOk = true := by
    unfold s2
    split
    · exact h1
    · split
      · exact memoryOk_leaveL2 h1 _
      · exact h1
  exact memoryOk_same h2 rfl rfl rfl

theorem memoryOk_copyWrite (a : Agent) (w : HomeWrite) : (s.copyWrite a w).memoryOk = true := by
  unfold State.copyWrite
  dsimp only
  exact memoryOk_putCopy h _ _ _

theorem memoryOk_write (a0 : Agent) (bytes : List Byte) (psn : Bool) (p : Place) :
    (s.write a0 bytes psn p).memoryOk = true := by
  unfold State.write
  dsimp only
  split
  · exact memoryOk_countAccess (memoryOk_hostWrite (memoryOk_ite h (memoryOk_charge h _ _ _)) _ _ _) _ _ _
  · exact memoryOk_ite (memoryOk_copyWrite h _ _) (memoryOk_homeWrite (memoryOk_ite h (memoryOk_charge h _ _ _)) _)

theorem memoryOk_storeDev (die ctx va : Nat) (bytes : List Byte) (psn : Bool) {r} (e : s.storeDev die ctx va bytes psn = r) :
    Fetched.Ok r := by
  subst e
  unfold State.storeDev
  split
  · next e => exact memoryOk_walk h _ _ _ _ e
  · next e => exact memoryOk_walk h _ _ _ _ e
  · next e =>
    split
    · exact memoryOk_walk h _ _ _ _ e
    · split
      · exact trivial
      · exact memoryOk_walk h _ _ _ _ e
      · exact memoryOk_write (memoryOk_walk h _ _ _ _ e) _ _ _ _

theorem memoryOk_launchWrite (q ctx a : Nat) (ws : List PWord) {r} (e : s.launchWrite q ctx a ws = r) : Fetched.Ok r := by
  subst e
  unfold State.launchWrite
  dsimp only
  split
  · split
    · next e1 => exact memoryOk_storeDev (memoryOk_storeDev h _ _ _ _ _ e1) _ _ _ _ _ rfl
    · exact memoryOk_storeDev h _ _ _ _ _ rfl
  · split
    · exact trivial
    · exact h
    · exact memoryOk_foldl (fun _ _ h2 => memoryOk_hostWrite h2 _ _ _) _ _ h

theorem memoryOk_setQueue (q : Nat) (x : Queue) : (s.setQueue q x).memoryOk = true := memoryOk_same h rfl rfl rfl

theorem memoryOk_settleQueue (q : Nat) : (s.settleQueue q).memoryOk = true := by
  unfold State.settleQueue
  dsimp only
  exact memoryOk_ite (memoryOk_same h rfl rfl rfl) h

theorem memoryOk_ring (q : Nat) (wr : Word) : (s.ring q wr).memoryOk = true := by
  unfold State.ring
  dsimp only
  exact memoryOk_settleQueue (memoryOk_setQueue h _ _) _

theorem memoryOk_openLoan (princ core : Nat) (m : Word) :
    (s.openLoan princ core m).memoryOk = true := memoryOk_same h rfl rfl rfl

theorem memoryOk_endHandler (v : View) : (s.endHandler v).memoryOk = true := memoryOk_same h rfl rfl rfl

theorem memoryOk_checkExit (gid : Nat) : (s.checkExit gid).memoryOk = true := by
  unfold State.checkExit
  split
  · exact h
  · exact memoryOk_ite (memoryOk_setGroup h _ _) h

theorem memoryOk_checkDeadlock (gid : Nat) : (s.checkDeadlock gid).memoryOk = true := by
  unfold State.checkDeadlock
  dsimp only
  split
  · exact h
  · exact memoryOk_ite (memoryOk_takeTrap h _ _) h

theorem memoryOk_evalJoin (gid a : Nat) : (s.evalJoin gid a).memoryOk = true := by
  unfold State.evalJoin
  dsimp only
  split
  · exact h
  · split
    · exact memoryOk_takeTrap h _ _
    · exact memoryOk_setGroup h _ _

theorem memoryOk_evalJoins (gid : Nat) : (s.evalJoins gid).memoryOk = true := by
  unfold State.evalJoins
  split
  · exact h
  · exact memoryOk_foldl (fun _ _ h1 => memoryOk_evalJoin h1 _ _) _ _ h

theorem memoryOk_logView (gid : Nat) (g h' : Group) : (s.logView gid g h').memoryOk = true := by
  unfold State.logView
  exact memoryOk_foldl (fun _ _ h => memoryOk_logBlock h _ _ _) _ _ h

theorem memoryOk_writeFrame (gid i : Nat) (v : PWord) (mask : Word) : (s.writeFrame gid i v mask).memoryOk = true := by
  unfold State.writeFrame
  dsimp only
  split
  · exact h
  · exact memoryOk_setGroup (memoryOk_logBlock h _ _ _) _ _

theorem memoryOk_landOne (gid : Nat) (r' : Result) : (s.landOne gid r').memoryOk = true := by
  unfold State.landOne
  split
  · exact memoryOk_writeFrame h _ _ _ _
  · exact memoryOk_modGroup h _ _
  · exact h

theorem memoryOk_landList (gid : Nat) (rs kept : List Result) {r} (e : landList gid rs kept s = r) : r.1.memoryOk = true := by
  subst e
  induction rs generalizing s kept with
  | nil => exact h
  | cons x rs ih =>
    unfold landList
    split
    · exact ih (memoryOk_landOne h _ _) _
    · exact ih h _

theorem memoryOk_land (gid : Nat) : (s.land gid).memoryOk = true := by
  unfold State.land
  dsimp only
  split
  · exact h
  · exact memoryOk_modGroup (memoryOk_landList h _ _ _ rfl) _ _

theorem memoryOk_modCtx (t : Nat) (f : Ctx → Ctx) : (s.modCtx t f).memoryOk = true := memoryOk_same h rfl rfl rfl
theorem memoryOk_usePark (ctx die : Nat) (n : Int) : (s.usePark ctx die n).memoryOk = true := memoryOk_same h rfl rfl rfl

theorem memoryOk_freeImage (g : Group) : (s.freeImage g).memoryOk = true := by
  unfold State.freeImage
  exact memoryOk_ite (memoryOk_usePark h _ _ _) h

theorem memoryOk_codePages (ctx : Nat) (dies : List Nat) (base words : Nat) {r} (e : s.codePages ctx dies base words = r) :
    r.2.memoryOk = true := by
  subst e
  refine List.foldlRecOn (motive := fun (r : _ × State) => r.2.memoryOk = true) _ _ h fun r hr i _ => ?_
  refine List.foldlRecOn (motive := fun (r : _ × State) => r.2.memoryOk = true) dies _ hr fun q hq die _ => ?_
  split
  · exact hq
  · split
    · next e => exact memoryOk_walk hq _ _ _ _ e
    · next e => exact memoryOk_walk hq _ _ _ _ e

theorem memoryOk_modDie (d : Nat) (f : Die → Die) : (s.modDie d f).memoryOk = true := memoryOk_same h rfl rfl rfl

theorem memoryOk_fault (die ctx va : Nat) (write : Bool) (core ch e' src reason num count : Nat) {r} (e : s.fault die ctx va
    write core ch e' src reason num count = r) :
    r.2.memoryOk = true := by
  subst e
  unfold State.fault
  dsimp only
  split
  · exact h
  · split
    · exact h
    · exact memoryOk_ite (memoryOk_same h rfl rfl rfl) (memoryOk_same h rfl rfl rfl)

theorem memoryOk_saveGroup (gid : Nat) (g : Group) (forced : Bool) : (s.saveGroup gid g forced).memoryOk = true := by
  unfold State.saveGroup
  dsimp only
  exact memoryOk_same (memoryOk_freeImage h _) rfl rfl rfl

theorem memoryOk_performTest (n : Nat) (x : Remote) (lanes : List (Nat × Nat × Nat)) (read : List (Nat × List PWord)) :
    (s.performTest n x lanes read).memoryOk = true := by
  unfold State.performTest
  dsimp only
  split
  · exact memoryOk_same h rfl rfl rfl
  · exact memoryOk_same h rfl rfl rfl

theorem memoryOk_trapInWait (o : Issue) (t : Trap) : (s.trapInWait o t).memoryOk = true := by
  unfold State.trapInWait
  dsimp only
  split
  · exact h
  · exact memoryOk_takeTrap (memoryOk_setGroup h _ _) _ _

theorem memoryOk_performObjects (n : Nat) (x : Remote) (o : Issue) (check : Bool) (acts : List (Nat × Nat × Nat × ObjAct)) :
    (s.performObjects n x o check acts).memoryOk = true := by
  have h0 : ({ s with inflight := eraseAt n s.inflight } : State).memoryOk = true := memoryOk_same h rfl rfl rfl
  unfold State.performObjects
  extract_lets owner bad s0 parts t
  have ht : t.memoryOk = true := memoryOk_foldl (fun _ _ h => memoryOk_objStep h _ _ _ _) _ _ h0
  split
  · exact memoryOk_trapInWait (memoryOk_modGroup h0 _ _) _ _
  · split
    · exact memoryOk_modGroup ht _ _
    · exact memoryOk_same ht rfl rfl rfl

theorem memoryOk_performRemote (n : Nat) (x : Remote) : (performRemote s n x).memoryOk = true := by
  unfold performRemote
  extract_lets s0 less owner
  have h0 : s0.memoryOk = true := memoryOk_same h rfl rfl rfl
  split
  · exact memoryOk_modGroup h0 _ _
  · exact memoryOk_performTest h _ _ _ _
  · exact memoryOk_modGroup (memoryOk_spadWrites h0 _ _ _) _ _
  · exact memoryOk_modGroup (memoryOk_stepLanes h0 (fun _ _ h => memoryOk_atomStep h _ _ _ _ _ rfl) _) _ _
  · exact memoryOk_modGroup (memoryOk_stepLanes h0 (fun _ _ h => memoryOk_casStep h _ _ _ _ _ _ rfl) _) _ _
  · exact memoryOk_performObjects h _ _ _ _ _

theorem memoryOk_spadHold (c : Cmd) (r' : SpadRef) (n : Nat) {r} (e : s.spadHold c r' n = r) : SomeOk r := by
  subst e
  unfold State.spadHold
  dsimp only
  split
  · split
    · split
      · exact h
      · exact trivial
    · exact trivial
  · split
    · exact memoryOk_accessEclipse h _ _ _
    · exact trivial

theorem memoryOk_completionHold (c : Cmd) {r} (e : s.completionHold c = r) : SomeOk r := by
  subst e
  exact someOk_findSome fun _ => memoryOk_spadHold h _ _ _ rfl

theorem memoryOk_setCmd (n : Nat) (c : Cmd) : (s.setCmd n c).memoryOk = true := memoryOk_same h rfl rfl rfl

theorem memoryOk_receiverArrives (c : Cmd) (code : Nat) (r' : Nat × Nat) : (s.receiverArrives c code r').memoryOk = true := by
  unfold State.receiverArrives
  split
  · exact h
  · exact memoryOk_arrive h _ _ _ _ _

theorem memoryOk_fillRing (team core off : Nat) (bad : Bool) : (s.fillRing team core off bad).memoryOk = true := by
  unfold State.fillRing
  dsimp only
  exact memoryOk_ite h (memoryOk_putWords h _ _ _ _)

theorem memoryOk_completionUpdate (c : Cmd) (code : Nat) : (s.completionUpdate c code).memoryOk = true := by
  unfold State.completionUpdate
  split
  · exact h
  · exact memoryOk_ite (memoryOk_arrive h _ _ _ _ _) (memoryOk_fillRing h _ _ _ _)

theorem memoryOk_complete (n : Nat) (c : Cmd) (code : Nat) : (s.complete n c code).memoryOk = true := by
  unfold State.complete
  dsimp only
  split
  · next e => exact memoryOk_setCmd (memoryOk_completionHold h _ e) _ _
  · exact memoryOk_same (memoryOk_ite (memoryOk_foldl (fun _ _ h1 => memoryOk_receiverArrives h1 _ _ _) _ _ h)
        (memoryOk_completionUpdate h _ _)) rfl rfl rfl

theorem memoryOk_leaveLanes (n : Nat) : (s.leaveLanes n).memoryOk = true := memoryOk_same h rfl rfl rfl

theorem memoryOk_flush (c : Cmd) (a2 : Option LineW) : (s.flush c a2).memoryOk = true := by
  unfold State.flush
  dsimp only
  split
  · exact h
  · exact memoryOk_ite (memoryOk_copyWrite h _ _) (memoryOk_homeWrite (memoryOk_ite h (memoryOk_charge h _ _ _)) _)

theorem memoryOk_settleLines (c : Cmd) : (s.settleLines c).memoryOk = true := by
  unfold State.settleLines
  dsimp only
  exact memoryOk_ite (memoryOk_dropDie (memoryOk_ite (memoryOk_writeBackDie (memoryOk_flush h _ _) _ _) (memoryOk_flush h _ _))
      _ _) (memoryOk_ite (memoryOk_writeBackDie (memoryOk_flush h _ _) _ _) (memoryOk_flush h _ _))

theorem memoryOk_nodeEnds (gr node code : Nat) : (s.nodeEnds gr node code).memoryOk = true := memoryOk_same h rfl rfl rfl

theorem memoryOk_finish (n code : Nat) : (s.finish n code).memoryOk = true := by
  unfold State.finish
  split
  · exact h
  · split
    · exact memoryOk_complete h _ _ _
    · extract_lets c s0
      have h0 : s0.memoryOk = true := memoryOk_leaveLanes (memoryOk_settleLines h _) _
      split
      · have h1 : ({ s0 with cmds := eraseAt n s0.cmds } : State).memoryOk = true := memoryOk_same h0 rfl rfl rfl
        exact memoryOk_nodeEnds h1 _ _ _
      · exact memoryOk_complete (memoryOk_ite h0 (memoryOk_setEngine h0 _ _)) _ _ _

theorem memoryOk_accept (key : Nat) (c : Cmd) : (s.accept key c).memoryOk = true := by
  unfold State.accept
  extract_lets e c1 src s1 rank s2
  have h1 : s1.memoryOk = true := memoryOk_same h rfl rfl rfl
  have h2 : s2.memoryOk = true := memoryOk_ite (memoryOk_spend h1 _) h1
  exact memoryOk_ite (memoryOk_finish h2 _ _) h2

theorem memoryOk_trapAtLanding (o : Issue) (t : Trap) : (s.trapAtLanding o t).memoryOk = true := by
  unfold State.trapAtLanding
  dsimp only
  split
  · exact h
  · exact memoryOk_takeTrap (memoryOk_setGroup h _ _) _ _

theorem memoryOk_acceptAll (fuel key : Nat) : (acceptAll fuel key s).memoryOk = true := by
  induction fuel generalizing s with
  | zero => exact h
  | succ fuel ih =>
    unfold acceptAll
    dsimp only
    split
    · exact h
    · split
      · exact h
      · exact ih (memoryOk_accept (memoryOk_setEngine h _ _) _ _)

theorem memoryOk_landPush (gid : Nat) (g : Group) (p : Push) : (s.landPush gid g p).memoryOk = true := by
  unfold State.landPush
  dsimp only
  split
  · exact memoryOk_ite (memoryOk_accept (memoryOk_setGroup h _ _) _ _) (memoryOk_ite (memoryOk_trapAtLanding (memoryOk_setGroup
        h _ _) _ _) (memoryOk_acceptAll (memoryOk_setEngine (memoryOk_setGroup h _ _) _ _) _ _))
  · exact memoryOk_ite (memoryOk_trapAtLanding (memoryOk_setGroup h _ _) _ _) (memoryOk_ite (memoryOk_trapAtLanding
        (memoryOk_setGroup h _ _) _ _) (memoryOk_spend (memoryOk_postTask (memoryOk_setGroup h _ _) _ _) _))
  · exact memoryOk_setCore (memoryOk_setGroup h _ _) _ _
  · exact memoryOk_setGroup h _ _

theorem memoryOk_startHold (c : Cmd) {r} (e : s.startHold c = r) : SomeOk r := by
  subst e
  unfold State.startHold
  split
  · trivial
  · refine someOk_findSome fun b => ?_
    cases s.cmdRef c false b.2 b.1 with
    | none => trivial
    | some r => exact memoryOk_spadHold h _ _ _ rfl

end

end Sys2Proof.Machine
end

section
/-! PROOFS. Commands at work keep the memories canonical: what a piece of work needs, reads, delivers and leaves (spec
09_transfer_engine.md, 19_host_side.md). -/

namespace Sys2Proof.Machine

section
variable {s : State} (h : s.memoryOk = true)
include h

theorem memoryOk_marked (c : Cmd) {r} (e : s.marked c = r) : r.1.memoryOk = true := by
  subst e
  unfold State.marked
  dsimp only
  exact memoryOk_ite (memoryOk_writeBackDie h _ _) h

theorem memoryOk_begin_ (n : Nat) (c : Cmd) : (s.begin_ n c).memoryOk = true := by
  unfold State.begin_
  dsimp only
  split
  · exact memoryOk_finish (memoryOk_setCmd h _ _) _ _
  · split
    · split
      · exact memoryOk_finish (memoryOk_arrive (memoryOk_setCmd h _ _) _ _ _ _ _) _ _
      · exact memoryOk_finish (memoryOk_setCmd h _ _) _ _
    · split
      · exact memoryOk_finish (memoryOk_decrement (memoryOk_setCmd h _ _) _ _) _ _
      · exact memoryOk_finish (memoryOk_setCmd h _ _) _ _
    · exact memoryOk_setCmd h _ _
  · exact memoryOk_same h rfl rfl rfl
  · exact memoryOk_same h rfl rfl rfl
  · exact memoryOk_setCmd h _ _
  · exact memoryOk_setCmd h _ _
  · exact memoryOk_ite (memoryOk_finish (memoryOk_setCmd h _ _) _ _) (memoryOk_setCmd h _ _)

theorem memoryOk_resolveCopyl (n : Nat) (c : Cmd) (ws : List Nat) (psn : Bool) :
    (s.resolveCopyl n c ws psn).memoryOk = true := by
  unfold State.resolveCopyl
  dsimp only
  exact memoryOk_ite (memoryOk_finish (memoryOk_setCmd h _ _) _ _) (memoryOk_ite (memoryOk_finish (memoryOk_setCmd h _ _) _ _)
      (memoryOk_begin_ h _ _))

theorem memoryOk_setPointer (c : Cmd) (bits : Nat) : (s.setPointer c bits).memoryOk = true := by
  unfold State.setPointer
  dsimp only
  exact memoryOk_ite h (memoryOk_setEngine h _ _)

theorem memoryOk_closeRun (n : Nat) : (s.closeRun n).memoryOk = true := by
  unfold State.closeRun
  split
  · exact h
  · exact memoryOk_ite h (memoryOk_setCmd (memoryOk_setPointer (memoryOk_flush h _ _) _ _) _ _)

theorem memoryOk_suspendCmd (n : Nat) (c : Cmd) (va : Nat) (write : Bool) (reason : Nat) :
    (s.suspendCmd n c va write reason).memoryOk = true := by
  unfold State.suspendCmd
  dsimp only
  exact memoryOk_setCmd (memoryOk_fault (memoryOk_closeRun (memoryOk_setCmd h _ _) _) _ _ _ _ _ _ _ _ _ _ _ rfl) _ _

theorem memoryOk_cmdTranslated (n : Nat) (c : Cmd) (w : Want) (o : Outcome) : (s.cmdTranslated n c w o).memoryOk = true := by
  unfold State.cmdTranslated
  split
  · exact memoryOk_ite (memoryOk_finish (memoryOk_setCmd h _ _) _ _) (memoryOk_setCmd h _ _)
  · exact memoryOk_suspendCmd h _ _ _ _ _
  · exact memoryOk_finish (memoryOk_setCmd h _ _) _ _

theorem memoryOk_askXl (n : Nat) (c : Cmd) (w : Want) : (s.askXl n c w).memoryOk = true := by
  unfold State.askXl
  dsimp only
  split
  · exact memoryOk_cmdTranslated h _ _ _ _
  · exact memoryOk_same h rfl rfl rfl

theorem memoryOk_copyRead (near : Bool) (a : Agent) (stack off n : Nat) {r} (e : s.copyRead near a stack off n = r) :
    r.2.1.memoryOk = true := by
  subst e
  unfold State.copyRead
  dsimp only
  exact memoryOk_putCopy (memoryOk_ite (memoryOk_touchHome h _ _) h) _ _ _

theorem memoryOk_homeRead (stack off n : Nat) (atStack : Bool) {r} (e : s.homeRead stack off n atStack = r) :
    r.2.memoryOk = true := by
  subst e
  unfold State.homeRead
  dsimp only
  exact memoryOk_ite ((memoryOk_stackRequest _ _ _).trans (memoryOk_toStack h _ _)) (memoryOk_touchHome h _ _)

theorem memoryOk_read (a0 : Agent) (n : Nat) (p : Place) {r} (e : s.read a0 n p = r) : r.2.memoryOk = true := by
  subst e
  unfold State.read
  dsimp only
  split
  · split
    · exact memoryOk_countAccess (memoryOk_ite h (memoryOk_charge h _ _ _)) _ _ _
    · exact h
  · split
    · split
      · exact memoryOk_ite (memoryOk_charge (memoryOk_copyRead h _ _ _ _ _ rfl) _ _ _) (memoryOk_copyRead h _ _ _ _ _ rfl)
      · exact memoryOk_homeRead (memoryOk_ite h (memoryOk_charge h _ _ _)) _ _ _ _ rfl
    · exact h

theorem memoryOk_keepRecord (c : Cmd) (a : Nat) (ws : List Nat) (bad : Bool) : (s.keepRecord c a ws bad).memoryOk = true := by
  unfold State.keepRecord
  dsimp only
  exact memoryOk_ite h (memoryOk_setCore h _ _)

theorem memoryOk_setLane (l : Nat) (x : TxLane) : (s.setLane l x).memoryOk = true := memoryOk_same h rfl rfl rfl

theorem memoryOk_pieceSpad (team core p : Nat) (x : Piece) : (s.pieceSpad team core p x).memoryOk = true := by
  unfold State.pieceSpad
  dsimp only
  exact memoryOk_foldl (fun _ _ h => memoryOk_writeSpad h _ _ _ _ _) _ _ h

theorem memoryOk_nibbleOver (c : Cmd) (run : Option LineW) (near : Bool) (stack off : Nat) {r} (e : s.nibbleOver c run near
    stack off = r) :
    r.2.memoryOk = true := by
  subst e
  unfold State.nibbleOver
  dsimp only
  split
  · exact h
  · split
    · exact memoryOk_read h _ _ _ rfl
    · exact h

theorem devPlace_triedOk (c : Cmd) (slot : Nat) (write : Bool) (a : Int) {r} (e : s.devPlace c slot write a = r) :
    TriedOk (fun _ => True) r := by
  subst e
  unfold State.devPlace
  split
  · trivial
  · dsimp only
    split
    · trivial
    · split
      · trivial
      · split
        · trivial
        · split
          · exact h
          · trivial

theorem spadPlace_triedOk (c : Cmd) (base : Nat) (delta : Int) (n : Nat) {r} (e : s.spadPlace c base delta n = r) :
    TriedOk (fun _ => True) r := by
  subst e
  unfold State.spadPlace
  dsimp only
  split
  · trivial
  · split
    · trivial
    · split
      · next e => exact memoryOk_spadHold h _ _ _ e
      · trivial

theorem destAt_triedOk (c : Cmd) (base slot : Nat) (delta : Int) (n : Nat) {r} (e : s.destAt c base slot delta n = r) :
    TriedOk (fun _ => True) r := by
  subst e
  unfold State.destAt
  split
  · refine List.foldlRecOn (motive := TriedOk fun _ => True) (s.chain c) _ trivial fun r hr x _ => ?_
    dsimp only
    split
    · exact hr
    · split
      · trivial
      · split
        · trivial
        · split
          · next e => exact memoryOk_spadHold h _ _ _ e
          · trivial
  · split
    · split
      · next e => exact spadPlace_triedOk h _ _ _ _ e
      · trivial
    · split
      · next e => exact devPlace_triedOk h _ _ _ _ e
      · trivial

theorem elemPlace_triedOk (c : Cmd) (o : Int) (also : Bool) {r} (e : s.elemPlace c o also = r) : TriedOk (fun _ => True) r := by
  subst e
  unfold State.elemPlace
  dsimp only
  split
  · trivial
  · split
    · split <;> trivial
    · trivial
  · next e => exact destAt_triedOk h _ _ _ _ _ e

theorem scalePlace_triedOk (c : Cmd) {r} (e : s.scalePlace c = r) : TriedOk (fun _ => True) r := by
  subst e
  unfold State.scalePlace
  dsimp only
  split
  · next e => exact destAt_triedOk h _ _ _ _ _ e
  · trivial

omit h in
theorem TriedOk.ite {α : Type} {P : α → Prop} {c : Prop} [Decidable c] {x y : Except Need α} (hx : TriedOk P x)
    (hy : TriedOk P y) :
    TriedOk P (if c then x else y) := by
  split
  · exact hx
  · exact hy

omit h in
/-- Mapping what was tried leaves what it needs. -/
theorem TriedOk.map {α β : Type} {f : α → β} {r : Except Need α} (hr : TriedOk (fun _ => True) r) :
    TriedOk (fun _ => True) (r.map f) := by
  cases r with
  | ok x => trivial
  | error e => exact hr

theorem elemPlaces_triedOk (c : Cmd) (o : Int) {r} (e : s.elemPlaces c o = r) : TriedOk (fun _ => True) r := by
  subst e
  unfold State.elemPlaces
  dsimp only
  split
  · next e => exact elemPlace_triedOk h _ _ _ e
  · split
    · exact (scalePlace_triedOk h _ rfl).map
    · trivial

theorem takeEntries_needOk (is : List Nat) (c : Cmd) {r} (e : s.takeEntries c is = r) : SomeNeedOk r.2 := by
  subst e
  induction is generalizing c with
  | nil => trivial
  | cons i is ih =>
    unfold State.takeEntries
    split
    · exact ih c
    · split
      · trivial
      · split
        · next e => exact memoryOk_spadHold h _ _ _ e
        · exact ih _

theorem dstCoords_triedOk (c : Cmd) {r} (e : s.dstCoords c = r) : TriedOk (fun _ => True) r.2 := by
  subst e
  unfold State.dstCoords
  dsimp only
  split
  · split
    · next e => exact takeEntries_needOk h _ _ e
    · trivial
  · trivial

theorem outputReady_triedOk (c : Cmd) (first other a n : Nat) {r} (e : s.outputReady c first other a n = r) :
    TriedOk (fun _ => True) r := by
  subst e
  refine List.foldlRecOn (motive := TriedOk fun _ => True) (List.range n) _ trivial fun r hr i _ => ?_
  split
  · exact hr
  · exact (devPlace_triedOk h _ _ _ _ rfl).map

theorem memoryOk_afterLanding (n : Nat) (c : Cmd) {e : Option Need} (he : SomeNeedOk e) :
    (s.afterLanding n c e).memoryOk = true := by
  unfold State.afterLanding
  split
  · exact memoryOk_askXl h _ _ _
  · exact memoryOk_finish (memoryOk_setCmd h _ _) _ _
  · exact memoryOk_setCmd he _ _
  · have hset := memoryOk_setCmd h n
    exact memoryOk_ite (memoryOk_ite (hset _) (memoryOk_finish (hset _) _ _)) (hset _)

theorem memoryOk_sideRead (c : Cmd) (d : SideD) (slot base : Nat) (delta : Int) (n : Nat) {r}
    (e : s.sideRead c d slot base delta n = r) : TriedOk (fun x => x.2.memoryOk = true) r := by
  subst e
  unfold State.sideRead
  split
  · split
    · next e => exact spadPlace_triedOk h _ _ _ _ e
    · exact h
  · split
    · next e => exact devPlace_triedOk h _ _ _ _ e
    · next p x _ => exact memoryOk_read (r := s.read c.agent n p) h _ _ _ rfl

theorem memoryOk_readElem (c : Cmd) (d : SideD) (slot : Nat) (o : Int) {r} (e : s.readElem c d slot o = r) :
    TriedOk (fun x => x.2.2.2.memoryOk = true) r := by
  subst e
  unfold State.readElem
  split
  · split
    · next e => exact memoryOk_sideRead h _ _ _ _ _ _ e
    · next e => exact memoryOk_sideRead h _ _ _ _ _ _ e
  · split
    · next e => exact memoryOk_sideRead h _ _ _ _ _ _ e
    · next e => exact memoryOk_sideRead h _ _ _ _ _ _ e

theorem memoryOk_readScale (c : Cmd) (d : SideD) (slot b : Nat) {r} (e : s.readScale c d slot b = r) :
    TriedOk (fun x => x.2.2.memoryOk = true) r := by
  subst e
  unfold State.readScale
  split
  · next e => exact memoryOk_sideRead h _ _ _ _ _ _ e
  · next e => exact memoryOk_sideRead h _ _ _ _ _ _ e

theorem memoryOk_srcScale (c : Cmd) (b : Nat) {r} (e : s.srcScale c b = r) : TriedOk (fun x => x.2.2.memoryOk = true) r := by
  subst e
  unfold State.srcScale
  split
  · split
    · exact h
    · exact memoryOk_readScale h _ _ _ _ rfl
  · exact memoryOk_readScale h _ _ _ _ rfl

theorem memoryOk_srcData (c : Cmd) (at_ : List Int) (scale : Option Nat) {r} (e : s.srcData c at_ scale = r) :
    r.1.memoryOk = true ∧ TriedOk (fun _ => True) r.2.2 := by
  subst e
  unfold State.srcData
  dsimp only
  split
  · next e => exact ⟨h, memoryOk_readElem h _ _ _ _ e⟩
  · next e => exact ⟨memoryOk_readElem h _ _ _ _ e, trivial⟩

theorem memoryOk_srcValue (c : Cmd) (n : Nat) {r} (e : s.srcValue c n = r) :
    r.1.memoryOk = true ∧ TriedOk (fun _ => True) r.2.2 := by
  subst e
  unfold State.srcValue
  dsimp only
  split
  · next e =>
    refine ⟨h, ?_⟩
    split at e
    · have hneed := takeEntries_needOk h (c.shape.entriesOf (coordsOf c.shape.ext n)) c rfl
      rwa [e] at hneed
    · cases e
  · split
    · exact ⟨h, trivial⟩
    · split
      · exact memoryOk_srcData h _ _ _ rfl
      · split
        · next e => exact ⟨h, memoryOk_srcScale h _ _ e⟩
        · next e => exact memoryOk_srcData (memoryOk_srcScale h _ _ e) _ _ _ rfl

theorem memoryOk_fillVals (fuel n : Nat) (c : Cmd) {r} (e : fillVals fuel n s c = r) : DeliveredOk r := by
  subst e
  induction fuel generalizing s c with
  | zero => exact ⟨h, trivial⟩
  | succ fuel ih =>
    unfold fillVals
    split
    · exact ⟨h, trivial⟩
    · split
      · next e => exact memoryOk_srcValue h _ _ e
      · next e => exact ih (memoryOk_srcValue h _ _ e).1 _

theorem memoryOk_deliverPiece (c : Cmd) (run : Option LineW) (x : Piece) (ds : List Dest) {t : State} {run1 : Option LineW}
    (e : s.deliverPiece c run x ds = some (t, run1)) : t.memoryOk = true := by
  induction ds generalizing s run with
  | nil =>
    cases e
    exact h
  | cons d ds ih =>
    unfold State.deliverPiece at e
    split at e
    · next hnil => cases hnil
    · next hcons =>
      cases hcons
      exact ih (memoryOk_pieceSpad h _ _ _ _) _ e
    · next hcons =>
      cases hcons
      split at e
      · exact ih h _ e
      · split at e
        · exact ih (memoryOk_write h _ _ _ _) _ e
        · dsimp only at e
          split at e
          · refine ih ?_ _ e
            split
            · exact memoryOk_nibbleOver h _ _ _ _ _ rfl
            · exact h
          · cases e

theorem memoryOk_putScale (c : Cmd) (es : List Dest) : (s.putScale c es).memoryOk = true := by
  unfold State.putScale
  split
  · next e => exact memoryOk_flush (memoryOk_deliverPiece h _ _ _ _ e) _ _
  · exact h

theorem memoryOk_oldValue (c : Cmd) (run : Option LineW) (o : Int) (ds : List Dest) {r} (e : s.oldValue c run o ds = r) :
    TriedOk (fun x => x.2.memoryOk = true) r := by
  subst e
  unfold State.oldValue
  extract_lets sh f held
  clear_value held
  split
  · exact h
  · split
    · next e => exact memoryOk_readElem h _ _ _ _ e
    · next e => exact memoryOk_readElem h _ _ _ _ e

theorem memoryOk_closeWord (w : Option WordRun) {r} (e : s.closeWord w = r) : r.1.memoryOk = true := by
  subst e
  unfold State.closeWord
  split
  · exact h
  · split
    · exact memoryOk_foldl (fun _ _ h => memoryOk_writeSpad h _ _ _ _ _) _ _ h
    · exact h

theorem memoryOk_putElement (c : Cmd) (run : Option LineW) (word : Option WordRun) (v : Val) {r}
    (e : s.putElement c run word v = r) : Landed.Ok r := by
  subst e
  unfold State.putElement
  dsimp only
  split
  · next e => exact ⟨h, dstCoords_triedOk h _ e⟩
  · exact h
  · split
    · next e => exact ⟨h, elemPlaces_triedOk h _ _ e⟩
    · split
      · next e =>
        refine ⟨h, ?_⟩
        split at e
        · cases e
        · exact memoryOk_oldValue h _ _ _ _ e
      · next e =>
        split
        · trivial
        · trivial
        · next ed _ =>
          refine memoryOk_closeWord (memoryOk_putScale (memoryOk_deliverPiece ?_ _ _ _ _ ed) _ _) _ rfl
          split at e
          · cases e
            exact h
          · exact memoryOk_oldValue h _ _ _ _ e

theorem memoryOk_landElement (c : Cmd) (run : Option LineW) (word : Option WordRun) {r} (e : s.landElement c run word = r) :
    Landed.Ok r := by
  subst e
  unfold State.landElement
  dsimp only
  split
  · exact memoryOk_putElement h _ _ _ _ rfl
  · split
    · next e => exact memoryOk_fillVals h _ _ _ e
    · next e => exact memoryOk_putElement (memoryOk_fillVals h _ _ _ e).1 _ _ _ _ rfl

theorem memoryOk_landPlan (c : Cmd) (run : Option LineW) {r} (e : s.landPlan c run = r) : Landed.Ok r := by
  conv_lhs at e => fun; fun; fun; delta State.landPlan
  subst e
  extract_lets +onlyGivenNames x
  split
  · next e => exact ⟨h, devPlace_triedOk h _ _ _ _ e⟩
  · dsimp only
    split
    · trivial
    · next e => exact memoryOk_deliverPiece h _ _ _ _ e

theorem memoryOk_landed (c : Cmd) (run : Option LineW) (word : Option WordRun) {need : Option Need} (hneed : SomeNeedOk need) {r}
    (e : s.landed c run word need = r) : DeliveredOk r := by
  subst e
  exact ⟨memoryOk_setPointer (memoryOk_flush h _ _) _ _, hneed⟩

theorem memoryOk_kept (c : Cmd) (run : Option LineW) (word : Option WordRun) {need : Option Need} (hneed : SomeNeedOk need) {r}
    (e : s.kept c run word need = r) : DeliveredOk r := by
  subst e
  unfold State.kept
  split
  · exact memoryOk_landed h _ _ _ hneed rfl
  · exact ⟨h, hneed⟩

theorem memoryOk_landRun (fuel : Nat) (c : Cmd) (run : Option LineW) (word : Option WordRun) {r}
    (e : landRun fuel s c run word = r) : DeliveredOk r := by
  subst e
  induction fuel generalizing s c run word with
  | zero => exact memoryOk_kept (need := none) h _ _ _ trivial rfl
  | succ fuel ih =>
    have hland : Landed.Ok (if c.op == 128 then s.landPlan c run else s.landElement c run word) := by
      split
      · exact memoryOk_landPlan h _ _ rfl
      · exact memoryOk_landElement h _ _ _ rfl
    unfold landRun
    split
    · exact memoryOk_landed (need := none) h _ _ _ trivial rfl
    · split
      · exact memoryOk_kept (need := none) h _ _ _ trivial rfl
      · split
        · exact memoryOk_landed (need := none) h _ _ _ trivial rfl
        · next e =>
          rw [e] at hland
          obtain ⟨h1, hneed⟩ := hland
          split
          · exact memoryOk_kept (need := some _) h1 _ _ _ hneed rfl
          · split
            · exact memoryOk_landed (need := none) h1 _ _ _ trivial rfl
            · exact memoryOk_landed (need := some _) h1 _ _ _ hneed rfl
        · next e =>
          rw [e] at hland
          exact memoryOk_landed (need := none) hland _ _ _ trivial rfl
        · next e =>
          rw [e] at hland
          exact ih hland _ _ _

theorem memoryOk_outputBytes (c : Cmd) (first other base : Nat) (psn : Bool) (bs : List Byte) (run : Option LineW) (a : Nat) {r}
    (e : s.outputBytes c first other base psn bs run a = r) : TriedOk (fun x => x.memoryOk = true) r := by
  subst e
  induction bs generalizing s run a with
  | nil => exact memoryOk_flush h _ _
  | cons b bs ih =>
    unfold State.outputBytes
    split
    · next e => exact devPlace_triedOk h _ _ _ _ e
    · split
      · next e => exact ih (memoryOk_deliverPiece h _ _ _ _ e) _ _
      · split
        · next e => exact ih (memoryOk_deliverPiece (memoryOk_flush h _ _) _ _ _ _ e) _ _
        · exact h

theorem memoryOk_inputBytes (c : Cmd) (i w : Nat) {r} (e : s.inputBytes c i w = r) :
    TriedOk (fun x => x.2.2.2.memoryOk = true) r := by
  subst e
  induction w with
  | zero => exact h
  | succ w ih =>
    rw [State.inputBytes]
    generalize s.inputBytes c i w = r at ih ⊢
    rcases r with need | ⟨bs, bad, down, s1⟩
    · exact ih
    · refine TriedOk.ite ih ?_
      extract_lets +onlyGivenNames a
      generalize er : s1.sideRead _ _ _ _ _ _ = r
      rcases r with need | ⟨g, s2⟩
      · exact memoryOk_sideRead ih _ _ _ _ _ _ er
      · exact memoryOk_sideRead ih _ _ _ _ _ _ er

theorem memoryOk_endRun (n : Nat) (c : Cmd) (t : List Byte) : (s.endRun n c t).memoryOk = true := by
  generalize e : s.endRun n c t = u
  conv_lhs at e => fun; fun; fun; fun; delta State.endRun
  subst e
  extract_lets +onlyGivenNames a
  generalize er : s.outputReady _ _ _ _ _ = r
  generalize eb : s.outputBytes _ _ _ _ _ _ _ _ = b
  rcases r with need | down
  · exact memoryOk_afterLanding (e := some need) h _ _ (outputReady_triedOk h _ _ _ _ _ er)
  · rcases b with need | s1
    · exact memoryOk_afterLanding (e := some need) h _ _ (memoryOk_outputBytes h _ _ _ _ _ _ _ _ eb)
    · exact memoryOk_finish (memoryOk_setCmd (memoryOk_outputBytes h _ _ _ _ _ _ _ _ eb) _ _) _ _

theorem memoryOk_runStep (n : Nat) (c : Cmd) : (s.runStep n c).memoryOk = true := by
  unfold State.runStep
  extract_lets t x sw w
  have hend := memoryOk_endRun h
  refine memoryOk_ite (hend _ _ _) (memoryOk_ite (hend _ _ _) (memoryOk_ite (hend _ _ _) ?_))
  split
  · next e => exact memoryOk_afterLanding h _ _ (memoryOk_inputBytes h _ _ _ e)
  · next e =>
    have h1 : State.memoryOk _ = true := memoryOk_inputBytes h _ _ _ e
    extract_lets key tr cons echo text out next a
    refine memoryOk_ite (memoryOk_setCmd h1 _ _) ?_
    split
    · next e => exact memoryOk_afterLanding h1 _ _ (outputReady_triedOk h1 _ _ _ _ _ e)
    · split
      · next e => exact memoryOk_afterLanding h1 _ _ (memoryOk_outputBytes h1 _ _ _ _ _ _ _ _ e)
      · next e => exact memoryOk_setCmd (memoryOk_setEngine (memoryOk_outputBytes h1 _ _ _ _ _ _ _ _ e) _ _) _ _

theorem memoryOk_fetchRecord (n : Nat) (c : Cmd) : (s.fetchRecord n c).memoryOk = true := by
  generalize e : s.fetchRecord n c = u
  conv_lhs at e => fun; fun; fun; delta State.fetchRecord
  subst e
  extract_lets +onlyGivenNames a
  split
  · next e => exact memoryOk_afterLanding h _ _ (devPlace_triedOk h _ _ _ _ e)
  · split
    · exact memoryOk_resolveCopyl (memoryOk_keepRecord (memoryOk_read h _ _ _ rfl) _ _ _ _) _ _ _ _
    · exact memoryOk_resolveCopyl (memoryOk_keepRecord (memoryOk_read (memoryOk_read h _ _ _ rfl) _ _ _ rfl) _ _ _ _) _ _ _ _

theorem memoryOk_signalStore (n : Nat) (c : Cmd) : (s.signalStore n c).memoryOk = true := by
  generalize e : s.signalStore n c = u
  conv_lhs at e => fun; fun; fun; delta State.signalStore
  subst e
  split
  · next e => exact memoryOk_afterLanding h _ _ (devPlace_triedOk h _ _ _ _ e)
  · exact memoryOk_finish (memoryOk_setCmd (memoryOk_setPointer (memoryOk_ite h (memoryOk_write h _ _ _ _)) _ _) _ _) _ _

theorem memoryOk_loadStep (n : Nat) (c : Cmd) : (s.loadStep n c).memoryOk = true := by
  generalize e : s.loadStep n c = u
  conv_lhs at e => fun; fun; fun; delta State.loadStep
  subst e
  extract_lets +onlyGivenNames l
  split
  · exact memoryOk_ite (memoryOk_finish (memoryOk_setLane h _ _) _ _) (memoryOk_finish (memoryOk_setLane h _ _) _ _)
  · split
    · next e => exact memoryOk_afterLanding h _ _ (memoryOk_sideRead h _ _ _ _ _ _ e)
    · next e => exact memoryOk_setCmd (memoryOk_setLane (memoryOk_sideRead h _ _ _ _ _ _ e) _ _) _ _

/-- The sectors that a PREFETCH reads. -/
theorem memoryOk_prefetched (c : Cmd) (place : Nat → Option Place) (sectors : List Nat) :
    (sectors.foldl (fun u a => match place a with
      | some p => (u.read c.agent 1 p).2
      | none => u) s).memoryOk = true :=
  memoryOk_foldl (fun u a hu => by
    split
    · exact memoryOk_read hu _ _ _ rfl
    · exact hu) _ _ h

theorem memoryOk_prefetch (n : Nat) (c : Cmd) : (s.prefetch n c).memoryOk = true := by
  unfold State.prefetch
  extract_lets +onlyGivenNames a first last lo hi
  have hread {r : Outcome × State} (e : s.translate c.core c.ctx first .read = r) : r.2.memoryOk = true :=
    memoryOk_translate h _ _ _ _ e
  refine memoryOk_ite (memoryOk_finish (memoryOk_setCmd ?_ _ _) _ _) (memoryOk_setCmd ?_ _ _)
  all_goals
    split
    · next e => exact memoryOk_ite (hread e) (memoryOk_prefetched (hread e) _ _ _)
    · next e => exact hread e

theorem memoryOk_landNext (n : Nat) (c : Cmd) : (s.landNext n c).memoryOk = true := by
  unfold State.landNext
  refine memoryOk_ite (memoryOk_finish h _ _) (memoryOk_ite (memoryOk_fetchRecord h _ _) ?_)
  split
  · split
    · exact memoryOk_finish h _ _
    · exact h
  · exact memoryOk_signalStore h _ _
  · exact memoryOk_loadStep h _ _
  · exact memoryOk_runStep h _ _
  · exact memoryOk_prefetch h _ _
  · exact memoryOk_afterLanding (memoryOk_landRun h _ _ _ _ rfl).1 _ _ (memoryOk_landRun h _ _ _ _ rfl).2

theorem memoryOk_applyAtomc (n : Nat) (c : Cmd) : (s.applyAtomc n c).memoryOk = true := by
  generalize e : s.applyAtomc n c = u
  conv_lhs at e => fun; fun; fun; delta State.applyAtomc
  subst e
  extract_lets +onlyGivenNames op ty w
  split
  · next e => exact memoryOk_afterLanding h _ _ (devPlace_triedOk h _ _ _ _ e)
  · split
    · exact memoryOk_finish (memoryOk_setCmd h _ _) _ _
    · split
      · next e => exact memoryOk_setCmd (memoryOk_spadHold h _ _ _ e) _ _
      · extract_lets down src a old opn bad oldN opN out s1 res c1
        have hold : old.2.memoryOk = true := memoryOk_read h _ _ _ rfl
        have h1 : s1.memoryOk = true := memoryOk_ite h (memoryOk_ite (memoryOk_ite hold (memoryOk_write hold _ _ _ _))
          (memoryOk_ite (memoryOk_write hold _ _ _ _) (memoryOk_write hold _ _ _ _)))
        exact memoryOk_finish (memoryOk_setCmd (memoryOk_setPointer (memoryOk_putWords h1 _ _ _ _) _ _) _ _) _ _

theorem memoryOk_applyRedc (n : Nat) (c : Cmd) : (s.applyRedc n c).memoryOk = true := by
  generalize e : s.applyRedc n c = u
  conv_lhs at e => fun; fun; fun; delta State.applyRedc
  subst e
  extract_lets +onlyGivenNames f
  split
  · next e => exact memoryOk_afterLanding h _ _ (memoryOk_readElem h _ _ _ _ e)
  · next e =>
    have h1 : State.memoryOk _ = true := memoryOk_readElem h _ _ _ _ e
    split
    · next e => exact memoryOk_afterLanding h1 _ _ (devPlace_triedOk h1 _ _ _ _ e)
    · exact memoryOk_afterLanding (e := none) (memoryOk_setPointer
        (memoryOk_ite h1 (memoryOk_write (memoryOk_read h1 _ _ _ rfl) _ _ _ _)) _ _) _ _ trivial

end

end Sys2Proof.Machine
end

section
/-! PROOFS. Queues, kernels, graphs, contexts, links, dies and what settles after a step keep the memories canonical (spec
14_queue.md to 21_host_firmware.md). -/

namespace Sys2Proof.Machine

theorem SomeOk.getD {o : Option State} {t : State} (ho : SomeOk o) (ht : t.memoryOk = true) : (o.getD t).memoryOk = true := by
  cases o with
  | none => exact ht
  | some s => exact ho

theorem memoryOk_setWord {s : State} (h : s.memoryOk = true) (k : Nat) (w : PWord) :
    ({ s with spad := writeAt PWord.zero k w s.spad } : State).memoryOk = true :=
  memoryOk_spad h (canonical_writeAt _ _ ((memoryOk_iff s).mp h).2.2)

section
variable {s : State} (h : s.memoryOk = true)
include h

theorem memoryOk_writeSlot (r : Refl) (data : List Byte) (psn : Bool × Bool) : (s.writeSlot r data psn).memoryOk = true :=
  memoryOk_foldl (fun _ _ ht => memoryOk_setWord ht _ _) _ _ h

theorem memoryOk_pushSlot (p : RPush) (x : Nat × Nat) : (s.pushSlot p x).memoryOk = true := by
  unfold State.pushSlot
  split
  · exact h
  · exact memoryOk_ite (memoryOk_modRefl (memoryOk_writeSlot h _ _ _) _ _) h

theorem memoryOk_touchRange (stack off n : Nat) : (s.touchRange stack off n).memoryOk = true := by
  unfold State.touchRange
  exact memoryOk_ite (memoryOk_touchHome h _ _) (memoryOk_touchHome (memoryOk_touchHome h _ _) _ _)

theorem memoryOk_reflLand (n : Nat) (r : Refl) : (s.reflLand n r).memoryOk = true := by
  unfold State.reflLand
  extract_lets lost keep s1 s2 data psn same kept ranges held live r1 s3 s4
  split
  · have h2 : s2.memoryOk = true :=
      memoryOk_deliverResult (memoryOk_modRefl (memoryOk_ite h (memoryOk_writeSlot h _ _ _)) _ _) _ _
    exact memoryOk_ite (memoryOk_unsubscribe h2 _ _) h2
  · have h0 : ({ s with ranges := ranges } : State).memoryOk = true := memoryOk_same h rfl rfl rfl
    have h4 : s4.memoryOk = true :=
      memoryOk_modRefl (memoryOk_deliverResult (memoryOk_writeSlot (memoryOk_touchRange h0 _ _ _) _ _ _) _ _) _ _
    exact memoryOk_ite (memoryOk_unsubscribe h4 _ _) h4

theorem memoryOk_enableQueue (q : Nat) : (s.enableQueue q).memoryOk = true := by
  unfold State.enableQueue
  dsimp only
  exact memoryOk_ite h (memoryOk_ite (memoryOk_setQueue h _ _) (memoryOk_settleQueue (memoryOk_setQueue h _ _) _))

theorem memoryOk_disableQueue (q : Nat) : (s.disableQueue q).memoryOk = true := by
  unfold State.disableQueue
  dsimp only
  split
  · exact memoryOk_setQueue h _ _
  · exact memoryOk_ite h (memoryOk_setQueue h _ _)
  · exact h

theorem memoryOk_suspendQueue (q : Nat) : (s.suspendQueue q).memoryOk = true := by
  unfold State.suspendQueue
  dsimp only
  exact memoryOk_settleQueue (memoryOk_setQueue h _ _) _

theorem memoryOk_unsuspendQueue (q : Nat) : (s.unsuspendQueue q).memoryOk = true := by
  unfold State.unsuspendQueue
  dsimp only
  exact memoryOk_settleQueue (memoryOk_setQueue h _ _) _

theorem memoryOk_writeBlock (q off : Nat) (w : Word) : (s.writeBlock q off w).memoryOk = true := by
  unfold State.writeBlock
  dsimp only
  split
  · exact memoryOk_ite (memoryOk_suspendQueue (memoryOk_ite (memoryOk_enableQueue (memoryOk_ite h (memoryOk_setQueue h _ _)) _)
        (memoryOk_disableQueue (memoryOk_ite h (memoryOk_setQueue h _ _)) _)) _) (memoryOk_unsuspendQueue (memoryOk_ite
            (memoryOk_enableQueue (memoryOk_ite h (memoryOk_setQueue h _ _)) _) (memoryOk_disableQueue (memoryOk_ite h
                (memoryOk_setQueue h _ _)) _)) _)
  · exact memoryOk_ite (memoryOk_setQueue h _ _) h
  · exact memoryOk_ite (memoryOk_setQueue h _ _) h
  · exact memoryOk_ite (memoryOk_setQueue h _ _) h
  · exact memoryOk_ring h _ _
  · exact h

theorem memoryOk_readPieces (a : Agent) (n : Nat) (p : Place) {r} (e : s.readPieces a n p = r) : r.2.2.memoryOk = true := by
  subst e
  refine List.foldlRecOn (motive := fun (r : List Byte × Bool × State) => r.2.2.memoryOk = true) _ _ h fun r hr i _ => ?_
  exact memoryOk_read hr _ _ _ rfl

theorem fetch_ok (a : Agent) (va n : Nat) (o : Outcome) : (a.fetch va n (o, s)).Ok := by
  unfold Agent.fetch
  split
  · next e =>
    cases e
    exact h
  · next e =>
    cases e
    exact h
  · next e =>
    cases e
    split
    · exact h
    · split
      · trivial
      · exact h
      · exact memoryOk_readPieces h _ _ _ rfl

theorem memoryOk_fetchDev (die ctx va n : Nat) {r} (e : s.fetchDev die ctx va n = r) : r.Ok := by
  subst e
  exact fetch_ok (memoryOk_walk h _ _ _ _ rfl) _ _ _ _

theorem memoryOk_fetchHost (die func a n : Nat) {r} (e : s.fetchHost die func a n = r) : Fetched.Ok r := by
  subst e
  unfold State.fetchHost
  split
  · exact trivial
  · exact h
  · exact h

theorem memoryOk_queueFault (q ctx va : Nat) (write : Bool) (reason : Nat) {r} (e : s.queueFault q ctx va write reason = r) :
    r.2.memoryOk = true := by
  subst e
  unfold State.queueFault
  exact memoryOk_fault h _ _ _ _ _ _ _ _ _ _ _ rfl

theorem memoryOk_idleQueue (q : Nat) : (s.idleQueue q).memoryOk = true := by
  unfold State.idleQueue
  dsimp only
  exact memoryOk_ite (memoryOk_setQueue h _ _) h

theorem memoryOk_completeEntry (q idx : Nat) : (s.completeEntry q idx).memoryOk = true := by
  unfold State.completeEntry
  dsimp only
  exact memoryOk_settleQueue (memoryOk_idleQueue (memoryOk_setQueue h _ _) _) _

theorem memoryOk_mgmtWrite (func a : Nat) (bytes : List Byte) : (s.mgmtWrite func a bytes).memoryOk = true := by
  unfold State.mgmtWrite
  exact memoryOk_ite (memoryOk_hostWrite h _ _ _) h

theorem memoryOk_answer (q idx status : Nat) (results : List Nat) : (s.answer q idx status results).memoryOk = true := by
  unfold State.answer
  dsimp only
  exact memoryOk_completeEntry (memoryOk_mgmtWrite h _ _ _) _ _

theorem memoryOk_entryFault (q idx ctx va : Nat) (write : Bool) (reason : Nat) :
    (s.entryFault q idx ctx va write reason).memoryOk = true := by
  unfold State.entryFault
  dsimp only
  exact memoryOk_setQueue (memoryOk_queueFault h _ _ _ _ _ rfl) _ _

theorem memoryOk_failEntry (q idx code : Nat) : (s.failEntry q idx code).memoryOk = true := memoryOk_same h rfl rfl rfl
theorem memoryOk_entryStarted (q idx : Nat) : (s.entryStarted q idx).memoryOk = true := memoryOk_same h rfl rfl rfl

theorem memoryOk_releaseAll (ctx : Nat) : (s.releaseAll ctx).memoryOk = true := by
  unfold State.releaseAll
  exact memoryOk_writeBackWhere h _

theorem memoryOk_acquireAll (ctx : Nat) : (s.acquireAll ctx).memoryOk = true := by
  unfold State.acquireAll
  exact memoryOk_dropWhere h _

theorem memoryOk_setHring (ctx ring : Nat) (h' : HRing) :
    (s.setHring ctx ring h').memoryOk = true := memoryOk_same h rfl rfl rfl

theorem memoryOk_raise (func vec : Nat) : (s.raise func vec).memoryOk = true := memoryOk_same h rfl rfl rfl

theorem memoryOk_writeRing (ctx ring : Nat) (d : List Nat) (vec : Nat) (ws : List PWord) :
    (s.writeRing ctx ring d vec ws).memoryOk = true := by
  unfold State.writeRing
  dsimp only
  exact memoryOk_ite (memoryOk_raise (memoryOk_setHring (memoryOk_hostWrite (memoryOk_foldl (fun _ _ h => (memoryOk_hostWrite h
      _ _ _)) _ _ h) _ _ _) _ _ _) _ _) (memoryOk_setHring (memoryOk_hostWrite (memoryOk_foldl (fun _ _ h =>
          (memoryOk_hostWrite h _ _ _)) _ _ h) _ _ _) _ _ _)

theorem memoryOk_zeroGranules (core base n : Nat) : (s.zeroGranules core base n).memoryOk = true :=
  memoryOk_spad h (canonical_filter _ ((memoryOk_iff s).mp h).2.2)

theorem memoryOk_takeCore (core ctx : Nat) : (s.takeCore core ctx).memoryOk = true := memoryOk_same h rfl rfl rfl
theorem memoryOk_renew (t : Nat) : (s.renew t).memoryOk = true := memoryOk_same h rfl rfl rfl

theorem memoryOk_addGroups (k : Kernel) (c : Ctx) (core team : Nat) : (s.addGroups k c core team).memoryOk = true := by
  refine memoryOk_foldl (fun t i h => ?_) _ _ h
  extract_lets slot g gid t1 t2
  have h1 : t1.memoryOk = true := memoryOk_same h rfl rfl rfl
  exact memoryOk_ite (memoryOk_setGroup h1 _ _) (memoryOk_setGroup (memoryOk_ite h1 (memoryOk_usePark h1 _ _ _)) _ _)

theorem memoryOk_addTeam (k : Kernel) (c : Ctx) (cl rank core : Nat) (args : List PWord) :
    (s.addTeam k c cl rank core args).memoryOk = true := by
  unfold State.addTeam
  extract_lets n base t src s1 s2 s3
  have h1 : s1.memoryOk = true :=
    memoryOk_same (memoryOk_zeroGranules (memoryOk_takeCore h core k.ctx) core base k.desc.scratch) rfl rfl rfl
  have h2 : s2.memoryOk = true := memoryOk_ite h1 (memoryOk_foldl
    (fun _ _ hu => memoryOk_setWord hu _ _) _ _ h1)
  exact memoryOk_renew (memoryOk_addGroups (memoryOk_ite h2 (memoryOk_startEclipse h2 _ _ _)) _ _ _ _) _

theorem memoryOk_admitCluster (n : Nat) (k : Kernel) (c : Ctx) (die x y : Nat) (args : List (List PWord)) :
    (s.admitCluster n k c die x y args).memoryOk = true := by
  unfold State.admitCluster
  extract_lets cl cores s1 teams s2 ks s3
  have h0 : ({ s with nextId := cl + 1 } : State).memoryOk = true := memoryOk_same h rfl rfl rfl
  have h1 : s1.memoryOk = true := memoryOk_foldl (fun _ _ ht => memoryOk_addTeam ht _ _ _ _ _ _) _ _ h0
  have h2 : s2.memoryOk = true := memoryOk_foldl (fun _ _ ht => memoryOk_modTeam ht _ _) _ _ h1
  have h3 : s3.memoryOk = true := memoryOk_modKernel h2 _ _
  exact memoryOk_same h3 rfl rfl rfl

theorem memoryOk_nodeFault (gr node : Nat) (g : Graph) (va r' : Nat) : (s.nodeFault gr node g va r').memoryOk = true := by
  unfold State.nodeFault
  dsimp only
  exact memoryOk_same (memoryOk_queueFault h _ _ _ _ _ rfl) rfl rfl rfl

theorem readBlocks_ok (die ctx n a : Nat) (acc : List Byte) {r} (e : readBlocks die ctx n a s acc = r) : r.1.Ok := by
  subst e
  induction n generalizing s a acc with
  | zero => exact h
  | succ n ih =>
    have hfetch := memoryOk_fetchDev h die ctx a 64 rfl
    unfold readBlocks
    split
    · next e =>
      rw [e] at hfetch
      split
      · exact hfetch
      · exact ih hfetch _ _
    · exact hfetch

theorem memoryOk_readGraph (die ctx a : Nat) {r} (e : s.readGraph die ctx a = r) : r.Ok := by
  subst e
  unfold State.readGraph
  split
  · exact h
  · split
    · trivial
    · next e => exact readBlocks_ok h _ _ _ _ _ e
    · next e => exact readBlocks_ok h _ _ _ _ _ e
    · next e =>
      have h1 : State.memoryOk _ = true := readBlocks_ok h _ _ _ _ _ e
      dsimp only
      split
      · exact h1
      · split
        · trivial
        · next e => exact readBlocks_ok h1 _ _ _ _ _ e
        · next e => exact readBlocks_ok h1 _ _ _ _ _ e
        · next e =>
          have h2 : State.memoryOk _ = true := readBlocks_ok h1 _ _ _ _ _ e
          split
          · exact h2
          · exact h2

theorem memoryOk_reloadGraph (gr : Nat) (g : Graph) : (s.reloadGraph gr g).memoryOk = true := by
  unfold State.reloadGraph
  split
  · exact h
  · next e => exact memoryOk_nodeFault (memoryOk_readGraph h _ _ _ e) _ _ _ _ _
  · next e =>
    have h1 : State.memoryOk _ = true := memoryOk_readGraph h _ _ _ e
    exact memoryOk_same h1 rfl rfl rfl
  · next e =>
    have h1 : State.memoryOk _ = true := memoryOk_readGraph h _ _ _ e
    exact memoryOk_same h1 rfl rfl rfl

theorem memoryOk_nodeStarted (gr node : Nat) : (s.nodeStarted gr node).memoryOk = true := memoryOk_same h rfl rfl rfl

theorem memoryOk_nodeFails (g : Graph) (code : Nat) : (s.nodeFails g code).memoryOk = true := by
  unfold State.nodeFails
  exact memoryOk_ite h (memoryOk_setQueue h _ _)

theorem memoryOk_endGraph (gr : Nat) (g : Graph) (failed : Bool) : (s.endGraph gr g failed).memoryOk = true := by
  unfold State.endGraph
  extract_lets t
  have ht : t.memoryOk = true := memoryOk_same h rfl rfl rfl
  exact memoryOk_ite (memoryOk_setQueue ht _ _) (memoryOk_completeEntry ht _ _)

theorem memoryOk_graphGoes (gr : Nat) : (s.graphGoes gr).memoryOk = true := by
  unfold State.graphGoes
  split
  · exact h
  · exact memoryOk_ite (memoryOk_ite (memoryOk_endGraph h _ _ _) h) (memoryOk_ite (memoryOk_ite (memoryOk_same h rfl rfl rfl)
        (memoryOk_endGraph h _ _ _)) h)

theorem memoryOk_retryAdmissions (die : Nat) : (s.retryAdmissions die).memoryOk = true := memoryOk_same h rfl rfl rfl

theorem memoryOk_idleCtx (ctx : Nat) : (s.idleCtx ctx).memoryOk = true := by
  unfold State.idleCtx
  exact memoryOk_ite h (memoryOk_modCtx h _ _)

theorem memoryOk_dropLayouts (cores : List Nat) : (s.dropLayouts cores).memoryOk = true := by
  unfold State.dropLayouts
  dsimp only
  exact memoryOk_foldl (fun _ _ h => memoryOk_setCore h _ _) _ _ h

theorem memoryOk_dropKernel (n : Nat) (k : Kernel) : (s.dropKernel n k).memoryOk = true := by
  unfold State.dropKernel
  dsimp only
  exact memoryOk_same (memoryOk_dropLayouts h _) rfl rfl rfl

theorem memoryOk_ownerEnds (o : Owner) (code : Nat) : (s.ownerEnds o code).memoryOk = true := by
  unfold State.ownerEnds
  split
  · exact memoryOk_ite (memoryOk_completeEntry h _ _) (memoryOk_failEntry h _ _ _)
  · exact memoryOk_nodeEnds h _ _ _

theorem memoryOk_endKernel (n : Nat) (k : Kernel) : (s.endKernel n k).memoryOk = true := by
  unfold State.endKernel
  extract_lets s1 s2
  have h2 : s2.memoryOk = true := memoryOk_dropLayouts (memoryOk_dropWhere (memoryOk_writeBackWhere h _) _) _
  have h3 : ({ s2 with kernels := eraseAt n s2.kernels } : State).memoryOk = true := memoryOk_same h2 rfl rfl rfl
  exact memoryOk_idleCtx (memoryOk_ownerEnds h3 _ _) _

theorem memoryOk_endCluster (cl : Nat) : (s.endCluster cl).memoryOk = true := by
  unfold State.endCluster
  split
  · exact h
  · next c _ =>
    extract_lets s1 s2
    have h2 : s2.memoryOk = true := memoryOk_same h rfl rfl rfl
    refine memoryOk_ite h ?_
    split
    · exact h2
    · exact memoryOk_ite h2 (memoryOk_ite (memoryOk_idleCtx (memoryOk_dropKernel h2 _ _) _)
        (memoryOk_ite (memoryOk_endKernel h2 _ _) h2))

theorem memoryOk_closeRuns (p : Cmd → Bool) : (s.closeRuns p).memoryOk = true := by
  unfold State.closeRuns
  exact memoryOk_foldl (fun _ _ h => memoryOk_closeRun h _) _ _ h

theorem memoryOk_haltCmds (tag : Nat) : (s.haltCmds tag).memoryOk = true := by
  unfold State.haltCmds
  dsimp only
  exact memoryOk_same (memoryOk_closeRuns h _) rfl rfl rfl

theorem memoryOk_drainPushes (n : Nat) : (s.drainPushes n).memoryOk = true := by
  unfold State.drainPushes
  dsimp only
  exact memoryOk_foldl (fun _ _ h => (memoryOk_foldl (fun _ _ h1 => memoryOk_pushSlot h1 _ _) _ _ h)) _ _ (memoryOk_same h
      rfl rfl rfl)

theorem memoryOk_saveFault (tag die va : Nat) (write : Bool) (reason : Nat) :
    (s.saveFault tag die va write reason).memoryOk = true := by
  unfold State.saveFault
  dsimp only
  exact memoryOk_modCtx (memoryOk_fault h _ _ _ _ _ _ _ _ _ _ _ rfl) _ _

theorem memoryOk_walkAll (die ctx : Nat) (a : Access) (pages : List Nat) : (s.walkAll die ctx a pages).memoryOk = true := by
  unfold State.walkAll
  exact memoryOk_foldl (fun _ _ h => (memoryOk_walk h _ _ _ _ rfl)) _ _ h

theorem memoryOk_freeSaved (tag : Nat) : (s.freeSaved tag).memoryOk = true := memoryOk_same h rfl rfl rfl

theorem memoryOk_writeWords (a : Agent) (p : Place) (ws : List Nat) : (s.writeWords a p ws).memoryOk = true := by
  refine memoryOk_foldl (fun t i ht => ?_) _ _ h
  dsimp only
  split
  · exact memoryOk_write ht _ _ _ _
  · exact memoryOk_write ht _ _ _ _

theorem memoryOk_writeSave (tag : Nat) (c : Ctx) (va : Nat) (ws : List Nat) : (s.writeSave tag c va ws).memoryOk = true := by
  unfold State.writeSave
  split
  · next e =>
    split
    · exact memoryOk_ite (memoryOk_writeWords (memoryOk_walk h _ _ _ _ e) _ _ _) (memoryOk_walk h _ _ _ _ e)
    · exact memoryOk_walk h _ _ _ _ e
  · next e => exact memoryOk_walk h _ _ _ _ e

theorem memoryOk_writeArea (tag : Nat) (c : Ctx) (i : Image) : (s.writeArea tag c i).memoryOk = true := by
  unfold State.writeArea
  dsimp only
  exact memoryOk_foldl (fun _ _ h => memoryOk_writeSave h _ _ _ _) _ _ (memoryOk_same h rfl rfl rfl)

theorem memoryOk_markSaved (tag : Nat) (on : Bool) : (s.markSaved tag on).memoryOk = true := by
  unfold State.markSaved
  dsimp only
  exact memoryOk_foldl (fun _ _ h => (memoryOk_settleQueue (memoryOk_setQueue h _ _) _)) _ _ h

theorem memoryOk_toSaved (tag : Nat) (c : Ctx) (i : Image) : (s.toSaved tag c i).memoryOk = true := by
  unfold State.toSaved
  extract_lets i s1
  have h1 : s1.memoryOk = true := memoryOk_freeSaved (memoryOk_writeArea h _ _ _) _
  have h2 : ({ s1 with images := insertAt tag i s1.images } : State).memoryOk = true := memoryOk_same h1 rfl rfl rfl
  exact memoryOk_modCtx (memoryOk_markSaved h2 _ _) _ _

theorem memoryOk_restoreGroup (i : Image) (gid core : Nat) (g : Group) : (s.restoreGroup i gid core g).memoryOk = true := by
  unfold State.restoreGroup
  dsimp only
  exact memoryOk_evalJoins (memoryOk_ite (memoryOk_setGroup h _ _) (memoryOk_setGroup (memoryOk_ite h (memoryOk_usePark h _ _
      _)) _ _)) _

theorem memoryOk_restoreTeam (i : Image) (t core : Nat) (x : Team) : (s.restoreTeam i t core x).memoryOk = true := by
  unfold State.restoreTeam
  extract_lets base live mine cleared s1 s2 s3 s4 l
  have h0 : cleared.memoryOk = true := memoryOk_zeroMap (memoryOk_takeCore h _ _) _ _
  have h1 : s1.memoryOk = true := memoryOk_foldl
    (fun _ _ hu => memoryOk_setWord hu _ _) _ _ h0
  have h2 : s2.memoryOk = true := memoryOk_same h1 rfl rfl rfl
  have h3 : s3.memoryOk = true := memoryOk_foldl (fun _ _ hu => memoryOk_restoreGroup hu _ _ _ _) _ _ h2
  have h4 : s4.memoryOk = true := memoryOk_ite (memoryOk_renew h3 _) h3
  exact memoryOk_ite (memoryOk_setLoan h4 _ _ _) h4

theorem memoryOk_restoreCluster (i : Image) (p : Nat × Cluster) (x y : Nat) : (s.restoreCluster i p x y).memoryOk = true := by
  unfold State.restoreCluster
  extract_lets cores src t1 t2
  have h1 : t1.memoryOk = true := memoryOk_same h rfl rfl rfl
  refine memoryOk_modKernel (memoryOk_foldl (fun u q hu => ?_) _ _ h1) _ _
  split
  · exact memoryOk_restoreTeam hu _ _ _ _
  · exact hu

theorem memoryOk_restoreClusters (i : Image) (c : Ctx) {r} (e : s.restoreClusters i c = r) : SomeOk r := by
  subst e
  refine List.foldlRecOn (motive := SomeOk) _ _ h fun r hr p _ => ?_
  cases r with
  | none => trivial
  | some t =>
    simp only [Option.bind_some]
    split
    · exact hr
    · cases t.originFor i _ c p with
      | none => trivial
      | some o => exact memoryOk_restoreCluster hr _ _ _ _

theorem memoryOk_restoreEngines (i : Image) : (s.restoreEngines i).memoryOk = true := by
  unfold State.restoreEngines
  exact memoryOk_foldl (fun _ _ h => memoryOk_setEngine h _ _) _ _ h

theorem memoryOk_restoreRefl (i : Image) (n : Nat) (r : Refl) : (s.restoreRefl i n r).memoryOk = true := by
  unfold State.restoreRefl
  split
  · extract_lets r1 lost
    have hlost : lost.memoryOk = true := memoryOk_same h rfl rfl rfl
    refine memoryOk_ite hlost ?_
    split
    · next e =>
      have hu : State.memoryOk _ = true := memoryOk_translate h _ _ _ _ e
      split
      · split
        · extract_lets r2
          refine memoryOk_reflLand ?_ _ _
          exact memoryOk_same hu rfl rfl rfl
        · exact memoryOk_same hu rfl rfl rfl
      · exact memoryOk_same hu rfl rfl rfl
    · next e =>
      have hu : State.memoryOk _ = true := memoryOk_translate h _ _ _ _ e
      exact memoryOk_same hu rfl rfl rfl
  · exact h

theorem memoryOk_retryCmd (n : Nat) (c : Cmd) : (s.retryCmd n c).memoryOk = true := by
  unfold State.retryCmd
  split
  · exact memoryOk_askXl h _ _ _
  · exact memoryOk_setCmd h _ _

theorem memoryOk_restoreCmds (i : Image) : (s.restoreCmds i).memoryOk = true := by
  unfold State.restoreCmds
  dsimp only
  exact memoryOk_foldl (fun _ _ h => (memoryOk_ite (memoryOk_finish h _ _) (memoryOk_ite (memoryOk_retryCmd h _ _) h))) _ _
      (memoryOk_same h rfl rfl rfl)

theorem memoryOk_meshReturn (i : Image) : (s.meshReturn i).memoryOk = true := by
  unfold State.meshReturn
  refine memoryOk_foldl (fun _ _ h => ?_) _ _ h
  split
  · exact memoryOk_same h rfl rfl rfl
  · exact h

theorem memoryOk_moveScales (tag : Nat) (i : Image) : (s.moveScales tag i).memoryOk = true := memoryOk_same h rfl rfl rfl

theorem memoryOk_restored (tag : Nat) (i : Image) : (s.restored tag i).memoryOk = true := by
  unfold State.restored
  extract_lets s1 graphs s2
  have h1 : s1.memoryOk = true := memoryOk_foldl (fun _ _ ht => memoryOk_restoreRefl ht _ _ _) _ _
    (memoryOk_restoreCmds (memoryOk_meshReturn (memoryOk_moveScales h _ _) _) _)
  have hg : ({ s1 with images := eraseAt tag s1.images, graphs := graphs } : State).memoryOk = true :=
    memoryOk_same h1 rfl rfl rfl
  exact memoryOk_foldl (fun _ _ ht => memoryOk_unsuspendQueue ht _) _ _ (memoryOk_modCtx (memoryOk_markSaved hg _ _) _ _)

theorem memoryOk_cancel (n code : Nat) : (s.cancel n code).memoryOk = true := by
  unfold State.cancel
  refine memoryOk_finish ?_ _ _
  exact memoryOk_same h rfl rfl rfl

theorem memoryOk_eclipseAll (princ : Nat) : (s.eclipseAll princ).memoryOk = true := by
  unfold State.eclipseAll
  exact memoryOk_foldl (fun _ _ h => memoryOk_startEclipse h _ _ _) _ _ h

theorem memoryOk_preemptLoans (tag : Nat) (c : Ctx) : (s.preemptLoans tag c).memoryOk = true := by
  unfold State.preemptLoans
  exact memoryOk_ite (memoryOk_foldl (fun _ _ h => memoryOk_cancel h _ _) _ _ h) (memoryOk_eclipseAll h _)

theorem memoryOk_beginSave (tag : Nat) (c : Ctx) : (s.beginSave tag c).memoryOk = true := by
  unfold State.beginSave
  dsimp only
  exact memoryOk_preemptLoans (memoryOk_foldl (fun _ _ h => memoryOk_suspendQueue h _) _ _ (memoryOk_modCtx h _ _)) _ _

theorem memoryOk_preemptCtx (tag : Nat) : (s.preemptCtx tag).memoryOk = true := by
  unfold State.preemptCtx
  dsimp only
  split
  · exact h
  · split
    · exact memoryOk_ite (memoryOk_beginSave h _ _) (memoryOk_toSaved (memoryOk_haltCmds (memoryOk_preemptLoans (memoryOk_foldl
          (fun _ _ h2 => memoryOk_suspendQueue h2 _) _ _ h) _ _) _) _ _ _)
    · exact memoryOk_beginSave h _ _
    · exact memoryOk_modCtx h _ _
    · exact h

theorem memoryOk_leaveTables (tag : Nat) : (s.leaveTables tag).memoryOk = true := by
  unfold State.leaveTables
  dsimp only
  exact memoryOk_same (memoryOk_foldl (fun _ _ h => memoryOk_leaveLanes h _) _ _ h) rfl rfl rfl

theorem memoryOk_unsubscribeTeam (team : Nat) : (s.unsubscribeTeam team).memoryOk = true := by
  unfold State.unsubscribeTeam
  exact memoryOk_foldl (fun _ _ h => memoryOk_unsubscribe h _ _) _ _ h

theorem memoryOk_killFrom (fuel tag : Nat) : (s.killFrom fuel tag).memoryOk = true := by
  induction fuel generalizing s tag with
  | zero => exact h
  | succ fuel ih =>
    unfold State.killFrom
    split
    · exact h
    · next c _ =>
      extract_lets s0 s1 gone s2 s3 s4 s5 s6 s7
      refine memoryOk_ite h ?_
      have h0 : s0.memoryOk = true := by
        unfold s0
        split
        · exact memoryOk_eclipseAll h _
        · split
          · exact ih h _
          · exact h
      have h1 : s1.memoryOk = true := memoryOk_foldl (fun _ _ ht => memoryOk_setQueue ht _ _) _ _ h0
      have h2 : s2.memoryOk = true := memoryOk_leaveTables (memoryOk_foldl (fun _ _ ht => memoryOk_dropKernel ht _ _) _ _ h1) _
      have h3 : s3.memoryOk = true := memoryOk_same h2 rfl rfl rfl
      have h4 : s4.memoryOk = true := memoryOk_foldl (fun _ _ ht => memoryOk_cancel ht _ _) _ _ h3
      have h5 : s5.memoryOk = true := memoryOk_endGroups h4 _
      clear_value s5
      have h6 : s6.memoryOk = true := memoryOk_same h5 rfl rfl rfl
      exact memoryOk_modCtx (memoryOk_foldl (fun _ _ ht => memoryOk_unsubscribeTeam ht _) _ _ h6) _ _

theorem memoryOk_killCtx (tag : Nat) : (s.killCtx tag).memoryOk = true := by
  unfold State.killCtx
  exact memoryOk_killFrom h _ _

theorem memoryOk_eclipseCmds (shade core : Nat) (m : Word) : (s.eclipseCmds shade core m).memoryOk = true := by
  unfold State.eclipseCmds
  extract_lets on s0 s1
  have h0 : s0.memoryOk = true := memoryOk_same h rfl rfl rfl
  have h1 : s1.memoryOk = true := memoryOk_foldl (fun _ _ ht => memoryOk_cancel ht _ _) _ _ h0
  exact memoryOk_same h1 rfl rfl rfl

theorem memoryOk_walkFor (w : Walk) (a : Access) (log : Bool) {r} (e : s.walkFor w a log = r) : r.2.memoryOk = true := by
  subst e
  unfold State.walkFor
  exact memoryOk_endWalk (memoryOk_walkRead h _ _ _ _ rfl) _ _ _ _ _

theorem memoryOk_walkedCmd (w : Walk) (n : Nat) (log : Bool) : (s.walkedCmd w n log).memoryOk = true := by
  unfold State.walkedCmd
  dsimp only
  split
  · exact h
  · split
    · exact h
    · refine memoryOk_cmdTranslated ?_ _ _ _ _
      split
      · exact memoryOk_tlbAdd (memoryOk_walkFor h _ _ _ rfl) _ _ _
      · exact memoryOk_walkFor h _ _ _ rfl

theorem memoryOk_reflGoOn (gid : Nat) (g : Group) (o : Issue) (pd size : Nat) (lanes : List (Nat × Word × Nat)) (lost : List
    Nat) :
    (s.reflGoOn gid g o pd size lanes lost).memoryOk = true := by
  unfold State.reflGoOn
  dsimp only
  split
  · exact memoryOk_trapInWait (memoryOk_reflOutcomes h _ _ _ _ rfl) _ _
  · exact memoryOk_modGroup (memoryOk_fault (memoryOk_reflOutcomes h _ _ _ _ rfl) _ _ _ _ _ _ _ _ _ _ _ rfl) _ _
  · exact memoryOk_modGroup (memoryOk_subscribe (memoryOk_modGroup (memoryOk_reflOutcomes h _ _ _ _ rfl) _ _) _ _ _ _) _ _

theorem memoryOk_walkedRefl (w : Walk) (gid : Nat) (log : Bool) : (s.walkedRefl w gid log).memoryOk = true := by
  unfold State.walkedRefl
  dsimp only
  split
  · exact h
  · split
    · split
      · exact memoryOk_ite (memoryOk_reflGoOn (memoryOk_tlbAdd (memoryOk_walkFor h _ _ _ rfl) _ _ _) _ _ _ _ _ _ _)
            (memoryOk_reflWalk (memoryOk_tlbAdd (memoryOk_walkFor h _ _ _ rfl) _ _ _) _ _ _)
      · exact memoryOk_reflGoOn h _ _ _ _ _ _ _
    · exact h

theorem memoryOk_walked (w : Walk) (log : Bool) : (s.walked w log).memoryOk = true := by
  unfold State.walked
  split
  · exact memoryOk_walkedCmd h _ _ _
  · exact memoryOk_walkedRefl h _ _ _
  · exact h

theorem memoryOk_serveWalk (ps : List (Nat × Walk)) : (s.serveWalk ps).memoryOk = true := by
  unfold State.serveWalk
  extract_lets t
  refine List.foldlRecOn (motive := fun (r : State × Bool) => r.1.memoryOk = true) _ _ ?_ fun r hr p _ => ?_
  · exact memoryOk_same h rfl rfl rfl
  · exact memoryOk_walked hr _ _

theorem memoryOk_failHandlers (f : FaultRec) : (s.failHandlers f).memoryOk = true := by
  unfold State.failHandlers
  exact memoryOk_foldl (fun _ _ h => (memoryOk_endGroups (memoryOk_logUnhandled h _ _) _)) _ _ h

theorem memoryOk_failQueues (f : FaultRec) : (s.failQueues f).memoryOk = true := by
  unfold State.failQueues
  dsimp only
  exact memoryOk_foldl (fun _ _ h => (memoryOk_foldl (fun _ _ h1 => (memoryOk_nodeEnds (memoryOk_nodeStarted h1 _ _) _ _ _)) _
      _ h)) _ _ (memoryOk_foldl (fun _ _ h => (memoryOk_foldl (fun _ _ h1 => memoryOk_failEntry h1 _ _ _) _ _ (memoryOk_ite
          (memoryOk_setQueue h _ _) h))) _ _ h)

theorem memoryOk_dropRecord (f : FaultRec) : (s.dropRecord f).memoryOk = true := memoryOk_same h rfl rfl rfl

theorem memoryOk_reflAgain (gid : Nat) (g : Group) (o : Issue) (pd size : Nat) (lanes : List (Nat × Word × Nat)) (lost : List
    Nat) :
    (s.reflAgain gid g o pd size lanes lost).memoryOk = true := by
  unfold State.reflAgain
  dsimp only
  exact memoryOk_ite (memoryOk_reflGoOn (memoryOk_modGroup h _ _) _ _ _ _ _ _ _) (memoryOk_reflWalk (memoryOk_modGroup h _ _) _
      _ _)

theorem memoryOk_savedCmds (f : FaultRec) (g : Cmd → Cmd) : (s.savedCmds f g).memoryOk = true := memoryOk_same h rfl rfl rfl
theorem memoryOk_lookAgain (f : FaultRec) : (s.lookAgain f).memoryOk = true := memoryOk_same h rfl rfl rfl

theorem memoryOk_failFault (f : FaultRec) : (s.failFault f).memoryOk = true := by
  unfold State.failFault
  extract_lets s0 s1 s2 s3 s4 s5 killed s6
  have h0 : s0.memoryOk = true := memoryOk_failHandlers (memoryOk_failQueues (memoryOk_dropRecord h _) _) _
  have h2 : s2.memoryOk = true := memoryOk_same h0 rfl rfl rfl
  have h3 : s3.memoryOk = true := memoryOk_foldl (fun t p ht => by
    split
    · exact memoryOk_reflAgain ht _ _ _ _ _ _ _
    · exact ht) _ _ h2
  have h4 : s4.memoryOk = true := memoryOk_foldl (fun _ _ ht => memoryOk_cancel ht _ _) _ _ h3
  have h6 : s6.memoryOk = true := memoryOk_lookAgain (memoryOk_savedCmds h4 _ _) _
  exact memoryOk_ite (memoryOk_killCtx h6 _) h6

theorem memoryOk_retryFault (f : FaultRec) : (s.retryFault f).memoryOk = true := by
  unfold State.retryFault
  dsimp only
  refine memoryOk_foldl (fun _ _ h => memoryOk_retryCmd h _ _) _ _ (memoryOk_foldl (fun _ _ h => ?_) _ _
    (memoryOk_savedCmds (memoryOk_lookAgain (memoryOk_dropDie (memoryOk_dropRecord h _) _ _) _) _ _))
  split
  · exact memoryOk_reflAgain h _ _ _ _ _ _ _
  · exact h

theorem memoryOk_answerFault (fail : Bool) (f : FaultRec) : (s.answerFault fail f).memoryOk = true := by
  unfold State.answerFault
  exact memoryOk_ite (memoryOk_failFault h _) (memoryOk_retryFault h _)

theorem memoryOk_setLink (l : Nat) (x : Link) : (s.setLink l x).memoryOk = true := memoryOk_same h rfl rfl rfl
theorem memoryOk_holdFlit (l die : Nat) (b : List Byte) : (s.holdFlit l die b).memoryOk = true := memoryOk_same h rfl rfl rfl

theorem memoryOk_sendFlit (l die : Nat) (b : List Byte) {r} (e : s.sendFlit l die b = r) : SomeOk r := by
  subst e
  unfold State.sendFlit
  dsimp only
  split
  · exact trivial
  · split
    · exact memoryOk_same h rfl rfl rfl
    · exact memoryOk_holdFlit h _ _ _

theorem memoryOk_carry (fuel die : Nat) (b : List Byte) {r} (e : s.carry fuel die b = r) : SomeOk r := by
  subst e
  have hhand : ({ s with handed := s.handed ++ [.here b] } : State).memoryOk = true := memoryOk_same h rfl rfl rfl
  induction fuel generalizing die with
  | zero => trivial
  | succ fuel ih =>
    unfold State.carry
    split
    · dsimp only
      split
      · exact hhand
      · split
        · exact hhand
        · exact memoryOk_holdFlit h _ _ _
        · trivial
    · dsimp only
      split
      · trivial
      · split
        · split
          · exact ih _
          · exact memoryOk_holdFlit h _ _ _
          · trivial
        · split
          · trivial
          · exact memoryOk_sendFlit h _ _ _ rfl

theorem memoryOk_refuseFlit (die : Nat) (b : List Byte) : (s.refuseFlit die b).memoryOk = true := by
  unfold State.refuseFlit
  extract_lets t
  have ht : t.memoryOk = true := memoryOk_same h rfl rfl rfl
  exact memoryOk_ite (SomeOk.getD (memoryOk_carry ht _ _ _ rfl) ht) ht

theorem memoryOk_routeFlit (die : Nat) (b : List Byte) : (s.routeFlit die b).memoryOk = true :=
  SomeOk.getD (memoryOk_carry h _ _ _ rfl) (memoryOk_refuseFlit h _ _)

theorem memoryOk_sendWaiting (l : Nat) : (s.sendWaiting l).memoryOk = true := by
  unfold State.sendWaiting
  extract_lets x send
  refine memoryOk_ite (memoryOk_foldl (fun t w ht => ?_) _ _ (memoryOk_setLink h _ _)) h
  exact memoryOk_ite (memoryOk_routeFlit ht _ _) (SomeOk.getD (memoryOk_sendFlit ht _ _ _ rfl) (memoryOk_refuseFlit ht _ _))

theorem memoryOk_replayAll (l : Nat) (x : Link) : (s.replayAll l x).memoryOk = true := memoryOk_same h rfl rfl rfl

theorem memoryOk_logLink (l code : Nat) : (s.logLink l code).memoryOk = true := by
  unfold State.logLink
  exact memoryOk_logError h _

theorem memoryOk_persistent (l : Nat) (x : Link) (recorded : Bool) : (s.persistent l x recorded).memoryOk = true := by
  unfold State.persistent
  exact memoryOk_logLink (memoryOk_setLink h _ _) _ _

theorem memoryOk_readFaultRing (ctx ring vec : Nat) :
    (s.readFaultRing ctx ring vec).memoryOk = true := memoryOk_same h rfl rfl rfl

theorem memoryOk_loseCopies (p : CopyLine → Bool) : (s.loseCopies p).memoryOk = true := by
  unfold State.loseCopies
  dsimp only
  exact memoryOk_foldl (fun _ _ h => memoryOk_logError h _) _ _ (memoryOk_same h rfl rfl rfl)

theorem memoryOk_loseRefl (n : Nat) : (s.loseRefl n).memoryOk = true := by
  unfold State.loseRefl
  split
  · exact h
  · split
    · exact memoryOk_modRefl h _ _
    · exact memoryOk_modRefl (memoryOk_drainPushes h _) _ _
    · exact h

theorem memoryOk_loseRefls (p : Refl → Bool) : (s.loseRefls p).memoryOk = true := by
  unfold State.loseRefls
  exact memoryOk_foldl (fun _ _ h => memoryOk_loseRefl h _) _ _ h

theorem memoryOk_modLinks (ls : List Nat) (f : Link → Link) : (s.modLinks ls f).memoryOk = true := by
  unfold State.modLinks
  exact memoryOk_foldl (fun _ _ h => memoryOk_setLink h _ _) _ _ h

theorem memoryOk_clearDie (d : Nat) : (s.clearDie d).memoryOk = true := by
  unfold State.clearDie
  extract_lets on gone dead cls s1 s2 s3
  have h1 : s1.memoryOk = true := memoryOk_same h rfl rfl rfl
  have h2 : s2.memoryOk = true := memoryOk_foldl (fun _ _ ht => memoryOk_endCluster ht _) _ _ h1
  exact memoryOk_same (memoryOk_dropKeys h2 274877906944 16777216 d) rfl rfl rfl

theorem memoryOk_poisonArray (a : CoreArray) : (s.poisonArray a).memoryOk = true := by
  have hfree : ({ s with free := s.free + 1 } : State).memoryOk = true := memoryOk_same h rfl rfl rfl
  cases a with
  | frame gid word => exact memoryOk_modGroup hfree _ _
  | predicate gid lane p => exact memoryOk_modGroup h _ _
  | spad core word => exact memoryOk_setWord hfree _ _
  | tile gid t elem => exact memoryOk_modGroup hfree _ _

theorem memoryOk_cancelSince (team : Nat) (c : Ckpt) : (s.cancelSince team c).memoryOk = true := by
  refine memoryOk_foldl (fun t n ht => memoryOk_cancel ?_ _ _) _ _ h
  exact memoryOk_same ht rfl rfl rfl

theorem memoryOk_stopTeam (team : Nat) (c : Ckpt) : (s.stopTeam team c).memoryOk = true := by
  unfold State.stopTeam
  dsimp only
  exact memoryOk_foldl (fun _ _ h => memoryOk_performRemote h _ _) _ _ (memoryOk_cancelSince (memoryOk_endGroups h _) _ _)

theorem memoryOk_undo (core : Nat) (e : LogEntry) : (s.undo core e).memoryOk = true := by
  unfold State.undo
  split
  · exact memoryOk_modGroup h _ _
  · refine memoryOk_spad h (List.foldlRecOn (motive := fun m => canonical PWord.zero m = true) _ _ ?_ fun m hm x _ => ?_)
    · exact ((memoryOk_iff s).mp h).2.2
    · split
      · exact hm
      · exact canonical_writeAt _ _ hm

theorem memoryOk_restoreWorks (x : Team) (c : Ckpt) : (s.restoreWorks x c).memoryOk = true := memoryOk_same h rfl rfl rfl

theorem memoryOk_withdraw (team cluster : Nat) (as : List (Bool × Nat × Nat)) :
    (s.withdraw team cluster as).memoryOk = true := by
  unfold State.withdraw
  dsimp only
  exact memoryOk_foldl (fun _ _ h => (memoryOk_ite (memoryOk_modCluster h _ _) (memoryOk_modTeam h _ _))) _ _ h

theorem memoryOk_replayTeam (team : Nat) (x : Team) (c : Ckpt) : (s.replayTeam team x c).memoryOk = true := by
  unfold State.replayTeam
  extract_lets s1 s2 s3 s4
  have h1 : s1.memoryOk = true := memoryOk_foldl (fun _ _ ht => memoryOk_undo ht _ _) _ _ (memoryOk_restoreWorks h _ _)
  have h2 : s2.memoryOk = true := memoryOk_foldl (fun _ _ ht => memoryOk_modGroup ht _ _) _ _ h1
  have h3 : s3.memoryOk = true := memoryOk_withdraw h2 _ _ _
  have h4 : s4.memoryOk = true := memoryOk_same h3 rfl rfl rfl
  exact memoryOk_modTeam h4 _ _

theorem memoryOk_rollback (team : Nat) (x : Team) (c : Ckpt) {r} (e : s.rollback team x c = r) : r.1.memoryOk = true := by
  subst e
  unfold State.rollback
  extract_lets s1 s2 s3
  have h2 : s2.memoryOk = true := memoryOk_same (memoryOk_stopTeam h team c) rfl rfl rfl
  split
  · exact memoryOk_replayTeam h2 _ _ _
  · exact memoryOk_same h2 rfl rfl rfl

theorem memoryOk_unreadable (die slice : Nat) : (s.unreadable die slice).memoryOk = true := memoryOk_same h rfl rfl rfl

theorem memoryOk_overfullMirrors (moved : List Nat) : (s.overfullMirrors moved).memoryOk = true := by
  unfold State.overfullMirrors
  refine memoryOk_foldl (fun _ _ h => ?_) _ _ h
  split
  · exact h
  · exact memoryOk_ite (memoryOk_loseRefl h _) h

theorem memoryOk_warmReset (d : Nat) (fatal : Bool) : (s.warmReset d fatal).memoryOk = true := by
  unfold State.warmReset
  extract_lets s1 s2 across s3 at_
  have h2 : s2.memoryOk = true := memoryOk_loseRefls (memoryOk_foldl (fun _ _ ht => memoryOk_killCtx ht _) _ _ h) _
  have h3 : s3.memoryOk = true := memoryOk_ite (memoryOk_loseCopies h2 _) (memoryOk_dropWhere h2 _)
  have h4 : ({ s3 with free := s3.free + 1 } : State).memoryOk = true := memoryOk_same h3 rfl rfl rfl
  exact memoryOk_ite h (memoryOk_modLinks (memoryOk_modDie h4 _ _) _ _)

theorem memoryOk_releaseXl (v : Inval) (n : Nat) : (s.releaseXl v n).memoryOk = true := by
  unfold State.releaseXl
  dsimp only
  exact memoryOk_same (memoryOk_closeRun h _) rfl rfl rfl

theorem memoryOk_beginInval (v : Inval) : (s.beginInval v).memoryOk = true := by
  unfold State.beginInval
  dsimp only
  exact memoryOk_foldl (fun _ _ h => memoryOk_releaseXl h _ _) _ _ (memoryOk_same (memoryOk_closeRuns h _) rfl rfl rfl)

theorem memoryOk_refuseAll (l : Nat) (x : Link) : (s.refuseAll l x).memoryOk = true := by
  unfold State.refuseAll
  exact memoryOk_foldl (fun _ _ h => memoryOk_refuseFlit h _ _) _ _ h

theorem memoryOk_failLink (l : Nat) (x : Link) : (s.failLink l x).memoryOk = true := by
  unfold State.failLink
  exact memoryOk_logLink (memoryOk_refuseAll (memoryOk_setLink h _ _) _ _) _ _

theorem memoryOk_attemptFails (l : Nat) (x : Link) : (s.attemptFails l x).memoryOk = true := by
  unfold State.attemptFails
  exact memoryOk_ite (memoryOk_failLink h _ _) (memoryOk_setLink h _ _)

theorem memoryOk_refuseDamaged (l : Nat) (x : Link) : (s.refuseDamaged l x).memoryOk = true := by
  unfold State.refuseDamaged
  extract_lets y src t
  have ht : t.memoryOk = true := by
    refine memoryOk_logLink ?_ _ _
    exact memoryOk_same h rfl rfl rfl
  exact memoryOk_ite (memoryOk_persistent ht _ _ _) ht

theorem memoryOk_edgeFlit (l : Nat) (x : Link) : (s.edgeFlit l x).memoryOk = true := by
  unfold State.edgeFlit
  split
  · exact memoryOk_same h rfl rfl rfl
  · exact memoryOk_same h rfl rfl rfl

theorem memoryOk_portFlit (l : Nat) (x : Link) (flit : List Byte) : (s.portFlit l x flit).memoryOk = true := by
  unfold State.portFlit
  dsimp only
  exact memoryOk_ite (memoryOk_routeFlit (memoryOk_sendWaiting (memoryOk_setLink h _ _) _) _ _) (memoryOk_ite (memoryOk_same
      (memoryOk_sendWaiting (memoryOk_setLink h _ _) _) rfl rfl rfl) (memoryOk_sendWaiting (memoryOk_setLink h _ _) _))

theorem memoryOk_reply (m : MgmtRef) (status : Nat) (results : List Nat) : (s.reply m status results).memoryOk = true := by
  unfold State.reply
  exact memoryOk_answer h _ _ _ _

theorem memoryOk_create (tag : Nat) (c : Ctx) : (s.create tag c).memoryOk = true := by
  unfold State.create
  extract_lets s1 s2 s3
  have h1 : s1.memoryOk = true := memoryOk_same h rfl rfl rfl
  have h2 : s2.memoryOk = true := memoryOk_foldl (fun _ _ ht => memoryOk_modDie ht _ _) _ _ h1
  have h3 : s3.memoryOk = true := memoryOk_foldl (fun _ _ ht => memoryOk_setQueue ht _ _) _ _ h2
  exact memoryOk_ite (memoryOk_same h3 rfl rfl rfl) h3

theorem memoryOk_destroy (tag : Nat) (c : Ctx) : (s.destroy tag c).memoryOk = true := by
  unfold State.destroy
  dsimp only
  exact memoryOk_same (memoryOk_foldl (fun _ _ h => (memoryOk_ite (memoryOk_modDie h _ _) h)) _ _ (memoryOk_foldl (fun _ _ h =>
      (memoryOk_setQueue h _ _)) _ _ (memoryOk_dropWhere (memoryOk_foldl (fun _ _ h => memoryOk_leaveLanes h _) _ _
          (memoryOk_leaveTables h _)) _))) rfl rfl rfl

theorem memoryOk_remapRefl (n : Nat) : (s.remapRefl n).memoryOk = true := by
  unfold State.remapRefl
  dsimp only
  split
  · exact h
  · split
    · next e1 =>
      split
      · split
        · exact h
        · split
          · exact memoryOk_loseRefl (memoryOk_walk h _ _ _ _ e1) _
          · refine memoryOk_same (memoryOk_drainPushes ?_ _) rfl rfl rfl
            split
            · exact memoryOk_ite h (memoryOk_pushRange h _ _ _)
            · exact h
      · exact memoryOk_loseRefl (memoryOk_walk h _ _ _ _ e1) _
    · next e1 => exact memoryOk_loseRefl (memoryOk_walk h _ _ _ _ e1) _

theorem memoryOk_remapRefls (v : Inval) : (s.remapRefls v).memoryOk = true := by
  unfold State.remapRefls
  exact memoryOk_foldl (fun _ _ h => memoryOk_remapRefl h _) _ _ h

theorem memoryOk_setBlock (on : Bool) (p : Nat × Nat) : (s.setBlock on p).memoryOk = true := by
  unfold State.setBlock
  dsimp only
  exact memoryOk_ite (memoryOk_ite ((memoryOk_setAttr _ _ _ _ _).trans h) h) (memoryOk_ite ((memoryOk_startDrain _ _ _ _).trans
      h) h)

theorem memoryOk_copyLogs (func buf ctx : Nat) (dies : List Nat) {r} (e : s.copyLogs func buf ctx dies = r) :
    r.2.memoryOk = true := by
  subst e
  refine memoryOk_mgmtWrite ?_ _ _ _
  exact memoryOk_same h rfl rfl rfl

theorem memoryOk_modBuckets (tag : Nat) (c : Ctx) (f : Bucket → Bucket) : (s.modBuckets tag c f).memoryOk = true := by
  refine memoryOk_foldl (fun t d ht => ?_) _ _ h
  exact memoryOk_same ht rfl rfl rfl

theorem memoryOk_ctxPolicy (tag : Nat) (c : Ctx) (item v : Nat) : (s.ctxPolicy tag c item v).memoryOk = true := by
  unfold State.ctxPolicy
  split
  · exact memoryOk_modCtx h _ _
  · exact memoryOk_modCtx h _ _
  · exact memoryOk_modBuckets h _ _ _
  · exact memoryOk_modBuckets h _ _ _

theorem memoryOk_wakeGroups (gids : List Nat) : (s.wakeGroups gids).memoryOk = true := by
  unfold State.wakeGroups
  exact memoryOk_foldl (fun _ _ h => memoryOk_modGroup h _ _) _ _ h

theorem memoryOk_finishBars (team : Nat) : (s.finishBars team).memoryOk = true := by
  unfold State.finishBars
  dsimp only
  split
  · exact h
  · exact memoryOk_foldl (fun _ _ h1 => (memoryOk_ite (memoryOk_renew (memoryOk_modTeam (memoryOk_wakeGroups h1 _) _ _) _) h1))
        _ _ h

theorem memoryOk_settleTeam (t : Nat) : (s.settleTeam t).memoryOk = true := by
  unfold State.settleTeam
  dsimp only
  split
  · exact memoryOk_ite (memoryOk_unsubscribeTeam (memoryOk_finishBars h _) _) (memoryOk_finishBars h _)
  · exact memoryOk_finishBars h _

theorem memoryOk_finishBarcs (cl : Nat) : (s.finishBarcs cl).memoryOk = true := by
  unfold State.finishBarcs
  dsimp only
  split
  · exact h
  · exact memoryOk_foldl (fun _ _ h1 => (memoryOk_ite (memoryOk_foldl (fun _ _ h2 => memoryOk_renew h2 _) _ _
        (memoryOk_modCluster (memoryOk_wakeGroups h1 _) _ _)) h1)) _ _ h

theorem memoryOk_settleCluster (cl : Nat) : (s.settleCluster cl).memoryOk = true := by
  unfold State.settleCluster
  dsimp only
  split
  · exact memoryOk_ite (memoryOk_doChores (memoryOk_finishBarcs h _) _ _) (memoryOk_finishBarcs h _)
  · exact memoryOk_finishBarcs h _

theorem memoryOk_waitPoison (o : Issue) (bad : List Nat) : (s.waitPoison o bad).memoryOk = true := by
  unfold State.waitPoison
  dsimp only
  exact memoryOk_trapInWait h _ _

theorem memoryOk_wakeGroup (gid : Nat) : (s.wakeGroup gid).memoryOk = true := memoryOk_same h rfl rfl rfl

theorem memoryOk_testBowait (gid : Nat) (o : Issue) (objs : List ObjWait) : (s.testBowait gid o objs).memoryOk = true := by
  unfold State.testBowait
  dsimp only
  exact memoryOk_ite h (memoryOk_ite (memoryOk_waitPoison h _ _) (memoryOk_ite (memoryOk_wakeGroup h _) h))

theorem memoryOk_wakeWith (gid : Nat) (rs : List (Nat × PWord)) :
    (s.wakeWith gid rs).memoryOk = true := memoryOk_same h rfl rfl rfl

theorem memoryOk_testRawait (gid : Nat) (o : Issue) (free : Bool) (objs : List RingWait) :
    (s.testRawait gid o free objs).memoryOk = true := by
  unfold State.testRawait
  dsimp only
  exact memoryOk_ite h (memoryOk_ite (memoryOk_waitPoison h _ _) (memoryOk_ite (memoryOk_wakeWith h _ _) h))

theorem memoryOk_tryTkget (gid : Nat) (g : Group) (dsts : List Nat) (try_ : Bool) :
    (s.tryTkget gid g dsts try_).memoryOk = true := by
  unfold State.tryTkget
  split
  · exact h
  · split
    · exact h
    · exact memoryOk_wakeWith (memoryOk_modCluster h _ _) _ _

theorem memoryOk_tryLaunch (gid : Nat) (g : Group) (q : Nat) : (s.tryLaunch gid g q).memoryOk = true := by
  unfold State.tryLaunch
  dsimp only
  split
  · exact memoryOk_modGroup h _ _
  · split
    · exact h
    · split
      · exact memoryOk_ite h (memoryOk_modGroup h _ _)
      · split
        · next e3 => exact memoryOk_setQueue (memoryOk_queueFault (memoryOk_walk h _ _ _ _ e3) _ _ _ _ _ rfl) _ _
        · split
          · exact memoryOk_ite h (memoryOk_modGroup h _ _)
          · exact memoryOk_modGroup h _ _
        · exact memoryOk_modGroup h _ _

theorem memoryOk_testWait (gid : Nat) : (s.testWait gid).memoryOk = true := by
  unfold State.testWait
  split
  · exact h
  · split
    · exact h
    · split
      · exact h
      · exact memoryOk_testBowait h _ _ _
      · exact memoryOk_testRawait h _ _ _ _
      · exact memoryOk_ite (memoryOk_wakeGroup (memoryOk_acquireAt h _ _ _) _) h
      · exact memoryOk_tryTkget h _ _ _ _
      · exact memoryOk_tryLaunch h _ _ _
      · exact memoryOk_ite (memoryOk_wakeWith h _ _) h
      · exact memoryOk_ite (memoryOk_wakeGroup h _) h

theorem memoryOk_releaseAt (ctx core : Nat) (sc : Scope) : (s.releaseAt ctx core sc).memoryOk = true := by
  unfold State.releaseAt
  exact memoryOk_ite (memoryOk_writeBackDie h _ _) h

theorem memoryOk_finishFence (gid : Nat) : (s.finishFence gid).memoryOk = true := by
  unfold State.finishFence
  dsimp only
  split
  · exact h
  · split
    · exact h
    · exact memoryOk_ite h (memoryOk_modGroup (memoryOk_ite (memoryOk_acquireAt (memoryOk_ite (memoryOk_releaseAt h _ _ _) h) _
          _ _) (memoryOk_ite (memoryOk_releaseAt h _ _ _) h)) _ _)

theorem memoryOk_restGroup (gid : Nat) : (s.restGroup gid).memoryOk = true := by
  unfold State.restGroup
  dsimp only
  split
  · exact h
  · exact memoryOk_ite (memoryOk_setGroup h _ _) h

theorem memoryOk_wakeSleepers (gid : Nat) : (s.wakeSleepers gid).memoryOk = true := by
  unfold State.wakeSleepers
  split
  · exact h
  · exact memoryOk_ite (memoryOk_ite (memoryOk_ite (memoryOk_setGroup h _ _) h) (memoryOk_setGroup h _ _)) h

theorem memoryOk_settleGroup (gid : Nat) : (s.settleGroup gid).memoryOk = true := by
  unfold State.settleGroup
  exact memoryOk_testWait (memoryOk_finishFence (memoryOk_restGroup (memoryOk_wakeSleepers h _) _) _) _

theorem memoryOk_settleKernel (n : Nat) : (s.settleKernel n).memoryOk = true := by
  unfold State.settleKernel
  split
  · exact h
  · exact memoryOk_ite (memoryOk_modKernel h _ _) h

theorem memoryOk_performPasses (core : Nat) : (s.performPasses core).memoryOk = true := by
  unfold State.performPasses
  exact memoryOk_foldl (fun _ _ h => memoryOk_performRemote h _ _) _ _ h

theorem memoryOk_settleLoan (key : Nat) : (s.settleLoan key).memoryOk = true := by
  unfold State.settleLoan
  dsimp only
  exact memoryOk_ite (memoryOk_performPasses h _) (memoryOk_ite h (memoryOk_ite (memoryOk_ite (memoryOk_startEclipse h _ _ _)
      h) (memoryOk_setLoan h _ _ _)))

theorem memoryOk_placeFault (n : Nat) (c : Cmd) : (s.placeFault n c).memoryOk = true := by
  unfold State.placeFault
  split
  · exact memoryOk_askXl h _ _ _
  · exact h

theorem memoryOk_placeFaults (die : Nat) : (s.placeFaults die).memoryOk = true := by
  unfold State.placeFaults
  dsimp only
  split
  · exact h
  · refine memoryOk_foldl (fun _ _ h1 => memoryOk_placeFault h1 _ _) _ _ (memoryOk_foldl (fun _ _ h1 => ?_) _ _
      (memoryOk_foldl (fun _ _ h1 => memoryOk_lookAgain h1 _) _ _ h))
    split
    · exact memoryOk_reflGoOn h1 _ _ _ _ _ _ _
    · exact h1

theorem memoryOk_settleDie (d : Nat) : (s.settleDie d).memoryOk = true := by
  unfold State.settleDie
  dsimp only
  split
  · exact memoryOk_ite (memoryOk_modDie h _ _) h
  · exact memoryOk_ite (memoryOk_modLinks h _ _) h
  · exact h

theorem memoryOk_settleInval (n : Nat) (v : Inval) : (s.settleInval n v).memoryOk = true := by
  unfold State.settleInval
  dsimp only
  exact memoryOk_ite h (memoryOk_same (memoryOk_foldl (fun _ _ h => memoryOk_releaseXl h _ _) _ _ h) rfl rfl rfl)

theorem memoryOk_settleLink (l : Nat) : (s.settleLink l).memoryOk = true := by
  unfold State.settleLink
  exact memoryOk_ite (memoryOk_attemptFails h _ _) h

theorem memoryOk_sendFaults (fuel ctx : Nat) : (sendFaults fuel ctx s).memoryOk = true := by
  induction fuel generalizing s with
  | zero => exact h
  | succ fuel ih =>
    unfold sendFaults
    split
    · split
      · split
        · refine ih ?_
          exact memoryOk_same (memoryOk_writeRing h _ _ _ _ _) rfl rfl rfl
        · exact h
      · exact h
    · exact h

theorem memoryOk_settle : (s.settle).memoryOk = true := by
  unfold State.settle
  dsimp only
  exact memoryOk_foldl (fun _ _ h => memoryOk_sendFaults h _ _) _ _ (memoryOk_foldl (fun _ _ h => (memoryOk_settleInval h _
      _)) _ _ (memoryOk_foldl (fun _ _ h => memoryOk_settleLink h _) _ _ (memoryOk_foldl (fun _ _ h => (memoryOk_placeFaults
          (memoryOk_settleDie h _) _)) _ _ (memoryOk_foldl (fun _ _ h => memoryOk_settleLoan h _) _ _ (memoryOk_foldl (fun _
              _ h => memoryOk_settleKernel h _) _ _ (memoryOk_foldl (fun _ _ h => memoryOk_settleQueue h _) _ _
                  (memoryOk_foldl (fun _ _ h => memoryOk_settleGroup h _) _ _ (memoryOk_foldl (fun _ _ h =>
                      (memoryOk_settleCluster h _)) _ _ (memoryOk_foldl (fun _ _ h => memoryOk_settleTeam h _) _ _ h)))))))))

theorem memoryOk_dropLink (l : Nat) : (s.dropLink l).memoryOk = true := by
  unfold State.dropLink
  dsimp only
  exact memoryOk_ite h (memoryOk_refuseAll (memoryOk_setLink h _ _) _ _)

theorem memoryOk_drainStep (n : Nat) {r} (e : s.drainStep n = r) : SomeOk r := by
  subst e
  unfold State.drainStep
  cases lookup n s.drains with
  | none => trivial
  | some d =>
    simp only [Option.bind_some]
    split
    · split
      · trivial
      · exact memoryOk_same ((memoryOk_setAttr s d.stack d.first d.blocks 2).trans h) rfl rfl rfl
    · cases s.drainNext d with
      | none => trivial
      | some slot =>
        refine memoryOk_storeBlock ?_ _ _ _
        exact memoryOk_same (memoryOk_logMalformed h d.stack (blockSectors (1024 * slot))) rfl rfl rfl

theorem memoryOk_pastEnd (gid : Nat) (t : Turn) : (s.pastEnd gid t).memoryOk = true := by
  unfold State.pastEnd
  exact memoryOk_trapAtIssue h _ _

theorem memoryOk_performAll (gid : Nat) : (s.performAll gid).memoryOk = true := by
  unfold State.performAll
  exact memoryOk_foldl (fun _ _ h => (memoryOk_ite (memoryOk_performRemote h _ _) h)) _ _ h

theorem memoryOk_finishPacket (gid : Nat) : (s.finishPacket gid).memoryOk = true := by
  unfold State.finishPacket
  dsimp only
  split
  · exact h
  · split
    · exact h
    · split
      · exact memoryOk_checkDeadlock (memoryOk_evalJoin (memoryOk_setGroup h _ _) _ _) _
      · exact memoryOk_checkExit (memoryOk_checkDeadlock (memoryOk_evalJoins (memoryOk_setGroup h _ _) _) _) _
      · split
        · exact memoryOk_setGroup h _ _
        · exact memoryOk_takeTrap (memoryOk_setGroup h _ _) _ _
      · exact memoryOk_setGroup h _ _

theorem memoryOk_endPacket (gid : Nat) : (s.endPacket gid).memoryOk = true := by
  unfold State.endPacket
  split
  · split
    · exact memoryOk_ite (memoryOk_finishPacket h _) h
    · exact h
  · exact h

theorem memoryOk_occupyAll (core : Nat) (ws : List (Nat × Insn)) : (s.occupyAll core ws).memoryOk = true := by
  unfold State.occupyAll
  dsimp only
  exact memoryOk_foldl (fun _ _ h => memoryOk_occupy h _ _ _) _ _ (memoryOk_foldl (fun _ _ h => memoryOk_occupy h _ _ _) _
      _ h)

theorem memoryOk_unitDone (gid core : Nat) (ws : List (Nat × Insn)) : (s.unitDone gid core ws).memoryOk = true := by
  unfold State.unitDone
  exact memoryOk_endPacket (memoryOk_modGroup (memoryOk_occupyAll h _ _) _ _) _

theorem memoryOk_keepUse (g : Group) : (s.keepUse g).memoryOk = true := by
  unfold State.keepUse
  split
  · exact h
  · exact memoryOk_modKernel h _ _

theorem memoryOk_tickOn : (s.tickOn).memoryOk = true := memoryOk_same h rfl rfl rfl

end

end Sys2Proof.Machine
end

section
/-! PROOFS. The words keep the memories canonical: each but for those with register results, whose frame says it (spec
03_encoding.md and the chapters of the words). -/

namespace Sys2Proof.Machine

section
variable {s : State} (h : s.memoryOk = true)
include h

theorem runBare_nextOk {body : View → Except Stop State} (hb : ∀ v, Yields (body v) fun t => t.memoryOk = true) :
    NextOk (runBare s body) := by
  unfold runBare
  split
  · exact .fault
  · split
    · exact .fault
    · exact .next (memoryOk_wordDone h _ (hb _))

theorem runWord_nextOk {body : View → Except Stop State} (hb : ∀ v, Yields (body v) fun t => t.memoryOk = true) :
    NextOk (runWord s body) := by
  refine runBare_nextOk h fun v => ?_
  split
  · exact .error
  · exact hb v

theorem runPrivileged_nextOk {may : Group → Bool} {body : View → Except Stop State}
    (hb : ∀ v, Yields (body v) fun t => t.memoryOk = true) : NextOk (runPrivileged s may body) := by
  refine runBare_nextOk h fun v => .ite .error ?_
  split
  · exact .error
  · exact hb v

theorem execPclrReg_nextOk (o : OpM) : NextOk (execPclrReg o s) := by
  unfold execPclrReg unaryWord
  refine runWord_nextOk (body := _) h fun _ => ?_
  split
  · exact .error
  · next e => exact put_keepsOk ((operand_keepsOk h _ _ _).of_ok _ e) _ _ _ _

theorem execSel_nextOk (o : OpR) : NextOk (execSel o s) := by
  unfold execSel
  dsimp only
  refine runBare_nextOk h (fun _ => ?_)
  split
  · exact .error
  · next e1 => exact put_keepsOk ((operands_keepsOk h _ _ _ _ _).of_ok _ e1) _ _ _ _

theorem execPset_nextOk (o : OpA) : NextOk (execPset o s) := by
  unfold execPset
  refine runWord_nextOk h (fun _ => ?_)
  split
  · exact .error
  · next e1 => exact .ok (memoryOk_foldl (fun _ _ h2 => memoryOk_putPred h2 _ _ _ _) _ _ ((operand_keepsOk h _ _ _).of_ok
        _ e1))

theorem execPchkReg_nextOk (pd : Pred) (o : OpA) : NextOk (execPchkReg pd o s) :=
  runWord_nextOk h fun _ => .bind (operand_keepsOk h _ _ _) fun _ ht => .ok (memoryOk_putPred ht _ _ _ _)

theorem execPchkPred_nextOk (pd pa : Pred) : NextOk (execPchkPred pd pa s) := by
  unfold execPchkPred
  exact runWord_nextOk h (fun _ => (.ok (memoryOk_putPred h _ _ _ _)))

theorem execPclrPred_nextOk (pd _pa : Pred) : NextOk (execPclrPred pd _pa s) := by
  unfold execPclrPred
  exact runWord_nextOk h (fun _ => (.ok (memoryOk_putPred h _ _ _ _)))

theorem execSrd_nextOk (d sr : Reg) : NextOk (execSrd d sr s) := by
  unfold execSrd
  exact runWord_nextOk h (fun _ => (.ite .error (.ite (put2_keepsOk h _ _ _ _) (put_keepsOk h _ _ _ _))))

theorem execWinImm_nextOk (n : Fin 16) : NextOk (execWinImm n s) := by
  unfold execWinImm
  exact runWord_nextOk h (fun _ => winBases_keepsOk h _ _)

theorem execWinReg_nextOk (o : OpA) : NextOk (execWinReg o s) := by
  unfold execWinReg
  refine runWord_nextOk h (fun _ => ?_)
  split
  · exact .error
  · next e1 => exact winBases_keepsOk ((operand_keepsOk h _ _ _).of_ok _ e1) _ _

theorem execPtn_nextOk (e' : Fin 8) (o : OpA) : NextOk (execPtn e' o s) := by
  unfold execPtn
  refine runWord_nextOk h (fun _ => ?_)
  split
  · exact .error
  · next e1 =>
    split
    · exact .error
    · exact .ok ((operand_keepsOk h _ _ _).of_ok _ e1)
    · exact .ok (memoryOk_ite ((operand_keepsOk h _ _ _).of_ok _ e1) (memoryOk_defer ((operand_keepsOk h _ _ _).of_ok _ e1)
          _ _))

theorem execQbind_nextOk (n : Fin 4) (o : OpA) : NextOk (execQbind n o s) := by
  unfold execQbind
  refine runPrivileged_nextOk h (fun _ => ?_)
  split
  · exact .error
  · next e1 =>
    split
    · exact .error
    · exact .ok ((operand_keepsOk h _ _ _).of_ok _ e1)
    · exact .ite (.ok (memoryOk_defer ((operand_keepsOk h _ _ _).of_ok _ e1) _ _)) .error

theorem loadWord_nextOk (o : OpMem) (localOnly : Bool) : NextOk (loadWord o localOnly s) := by
  refine runWord_nextOk h fun v => ?_
  split
  · exact .error
  · next e =>
    have ht : State.memoryOk _ = true := (operand_keepsOk h _ _ _).of_ok _ e
    split
    · exact .error
    · extract_lets near n c0 due cores at_ idOf isNear vals s2 s3 s4
      have h2 : s2.memoryOk = true := memoryOk_foldl (fun _ _ hu => memoryOk_sendRemote hu _ _ _ _ _) _ _ ht
      have h3 : s3.memoryOk = true := memoryOk_ite (memoryOk_same h2 rfl rfl rfl) h2
      have h4 : Yields s4 fun t => t.memoryOk = true :=
        .ite (.ite (.ok h3) (push_keepsOk h3 _ _ _ _ _)) (.ok (memoryOk_same h3 rfl rfl rfl))
      clear_value s4
      split
      · exact .error
      · next u =>
        have h5 := h4.of_ok u rfl
        exact .ok (memoryOk_ite (memoryOk_same h5 rfl rfl rfl) h5)

theorem storeWord_nextOk (o : OpMem) (localOnly : Bool) : NextOk (storeWord o localOnly s) := by
  unfold storeWord
  dsimp only
  refine runWord_nextOk h (fun _ => ?_)
  split
  · exact .error
  · next e1 =>
    split
    · exact .error
    · exact .ok (memoryOk_ite (memoryOk_ite (memoryOk_foldl (fun _ _ h3 => memoryOk_sendRemote h3 _ _ _ _ _) _ _
          (memoryOk_foldl (fun _ _ h3 => memoryOk_spadWrites h3 _ _ _) _ _ ((storeOperands_keepsOk h _ _).of_ok _ e1)))
              (memoryOk_occupy (memoryOk_foldl (fun _ _ h3 => memoryOk_sendRemote h3 _ _ _ _ _) _ _ (memoryOk_foldl (fun
                  _ _ h3 => memoryOk_spadWrites h3 _ _ _) _ _ ((storeOperands_keepsOk h _ _).of_ok _ e1))) _ _ _))
                      (memoryOk_waitFor (memoryOk_ite (memoryOk_foldl (fun _ _ h3 => memoryOk_sendRemote h3 _ _ _ _ _) _
                          _ (memoryOk_foldl (fun _ _ h3 => memoryOk_spadWrites h3 _ _ _) _ _ ((storeOperands_keepsOk h _
                              _).of_ok _ e1))) (memoryOk_occupy (memoryOk_foldl (fun _ _ h3 => (memoryOk_sendRemote h3 _ _
                                  _ _ _)) _ _ (memoryOk_foldl (fun _ _ h3 => memoryOk_spadWrites h3 _ _ _) _ _
                                      ((storeOperands_keepsOk h _ _).of_ok _ e1))) _ _ _)) _ _))

theorem execLdt_nextOk (o : OpMem) : NextOk (execLdt o s) := by
  unfold execLdt
  dsimp only
  refine runWord_nextOk h (fun _ => ?_)
  split
  · exact .error
  · next e1 =>
    split
    · exact .error
    · exact .ite (put_keepsOk (memoryOk_ite ((operand_keepsOk h _ _ _).of_ok _ e1) (memoryOk_occupy ((operand_keepsOk h _ _
          _).of_ok _ e1) _ _ _)) _ _ _ _) (.ok (memoryOk_modSelf (memoryOk_ite ((operand_keepsOk h _ _ _).of_ok _ e1)
              (memoryOk_occupy ((operand_keepsOk h _ _ _).of_ok _ e1) _ _ _)) _ _))

theorem execStt_nextOk (o : OpMem) : NextOk (execStt o s) := by
  unfold execStt
  dsimp only
  refine runWord_nextOk h (fun _ => ?_)
  split
  · exact .error
  · next e1 =>
    split
    · exact .error
    · exact .ok (memoryOk_ite (memoryOk_foldl (fun _ _ h3 => memoryOk_spadWrites h3 _ _ _) _ _ ((storeOperands_keepsOk h
          _ _).of_ok _ e1)) (memoryOk_occupy (memoryOk_foldl (fun _ _ h3 => memoryOk_spadWrites h3 _ _ _) _ _
              ((storeOperands_keepsOk h _ _).of_ok _ e1)) _ _ _))

theorem execLdr_nextOk (o : OpMem) : NextOk (execLdr o s) := by
  unfold execLdr
  dsimp only
  refine runWord_nextOk h (fun _ => ?_)
  split
  · exact .error
  · next e1 =>
    split
    · exact .error
    · split
      · exact .error
      · exact .ite (put_keepsOk (memoryOk_ite ((operand_keepsOk h _ _ _).of_ok _ e1) (memoryOk_occupy ((operand_keepsOk h _
            _ _).of_ok _ e1) _ _ _)) _ _ _ _) (.ok (memoryOk_modSelf (memoryOk_ite ((operand_keepsOk h _ _ _).of_ok _ e1)
                (memoryOk_occupy ((operand_keepsOk h _ _ _).of_ok _ e1) _ _ _)) _ _))

theorem execStr_nextOk (o : OpMem) : NextOk (execStr o s) := by
  unfold execStr
  refine runWord_nextOk h fun _ => ?_
  split
  · exact .error
  · next e1 =>
    split
    · exact .error
    · split
      · exact .error
      · extract_lets p hg s2
        have h2 : s2.memoryOk = true := memoryOk_foldl (fun _ _ ht => by
          dsimp only
          split
          · exact memoryOk_modSelf ht _ _
          · exact memoryOk_modSelf ht _ _) _ _ ((storeOperands_keepsOk h _ _).of_ok _ e1)
        exact .ok (memoryOk_ite h2 (memoryOk_occupy h2 _ _ _))

theorem atomicWord_nextOk (localOnly : Bool) (d ar w : Nat) {near : View → Nat → SpadRef → State → List PWord × State}
    (far : View → List (Nat × SpadRef) → RemoteOp)
    (hnear : ∀ v L r t, t.memoryOk = true → (near v L r t).2.memoryOk = true) :
    NextOk (atomicWord s localOnly d ar w near far) := by
  refine runWord_nextOk h fun v => ?_
  extract_lets a
  split
  · exact .error
  · extract_lets all_ two here cores p due r at_ isNear idOf s1 q s2 s3 s4
    have hr : r.2.memoryOk = true := memoryOk_stepLanes h (fun t (x : Nat × SpadRef) ht => hnear v x.1 x.2 t ht) _
    have h1 : s1.memoryOk = true := memoryOk_foldl (fun _ _ hu => memoryOk_sendRemote hu _ _ _ _ _) _ _ hr
    have h2 : s2.memoryOk = true := memoryOk_ite (memoryOk_same h1 rfl rfl rfl) h1
    have h4 : s4.memoryOk = true := memoryOk_ite (memoryOk_same h2 rfl rfl rfl) h2
    exact .ok (memoryOk_ite (memoryOk_same h4 rfl rfl rfl) h4)

theorem atomWord_nextOk (o : OpAtom) (localOnly : Bool) : NextOk (atomWord o localOnly s) := by
  unfold atomWord
  refine atomicWord_nextOk h _ _ _ _ _ fun v L r t ht => ?_
  exact memoryOk_atomStep ht _ _ _ _ _ rfl

theorem casWord_nextOk (o : OpCas) (localOnly : Bool) : NextOk (casWord o localOnly s) := by
  unfold casWord
  refine atomicWord_nextOk h _ _ _ _ _ fun v L r t ht => ?_
  exact memoryOk_casStep ht _ _ _ _ _ _ rfl

theorem postWord_nextOk (cmd nw : Nat) (o : OpQ) : NextOk (postWord cmd nw o s) := by
  unfold postWord
  dsimp only
  refine runWord_nextOk h (fun _ => (.ite (.ok h) (.ite .error ?_)))
  split
  · exact .error
  · next e1 => exact .ok (memoryOk_occupy (memoryOk_modSelf ((pushCheck_keepsOk h _ _ _).of_ok _ e1) _ _) _ _ _)

theorem memoryOk_mmaIssued {core gid t : Nat} {q : Int} {wide : Bool} {w : MKind} {f : Group → Group} {v : View}
    (sig : Option Nat) (n : Nat) :
    State.memoryOk (State.occupy (if sig.isSome then
      ((s.queueWork core gid t wide q w).modSelf v f).spend v.g.team else (s.queueWork core gid t wide q w).modSelf v f)
      core 3 n) = true :=
  memoryOk_occupy (memoryOk_ite (memoryOk_spend (memoryOk_modSelf (memoryOk_queueWork h _ _ _ _ _ _) _ _) _)
    (memoryOk_modSelf (memoryOk_queueWork h _ _ _ _ _ _) _ _)) _ _ _

theorem mmaWord_nextOk (shape : Nat) (o : OpT) (sig : Option Nat) : NextOk (mmaWord shape o sig s) := by
  refine runWord_nextOk h fun v => .ite (.ok h) (.andThen fun _ => .ite .error ?_)
  split
  · refine .ite .error (.ite .error (.ite .error (.ite .error ?_)))
    split
    · exact .error
    · refine .ite (.bind (ownScale_keepsOk h _ _) fun _ ht => .ite .error (.ok (memoryOk_mmaIssued ht _ _))) ?_
      exact .ite .error (.ok (memoryOk_mmaIssued h _ _))
  · exact .error

theorem execAgive_nextOk (t : Tile) (i64 : Bool) (o : OpA) : NextOk (execAgive t i64 o s) :=
  runWord_nextOk h fun _ => .bind (operand_keepsOk h _ _ _) fun _ ht => .andThen fun
    | none => .ok ht
    | some _ => .andThen fun _ => .andThen fun _ => .ite .error (.andThen fun _ => .ok (memoryOk_same ht rfl rfl rfl))

theorem execAtake_nextOk (t : Tile) (i64 : Bool) : NextOk (execAtake t i64 s) :=
  runWord_nextOk h fun _ => .ite (.ok h) (.andThen fun _ => .ite .error (.andThen fun _ => .ok (memoryOk_same h rfl rfl rfl)))

theorem execAzero_nextOk (t : Tile) (o : OpA) : NextOk (execAzero t o s) :=
  runWord_nextOk h fun _ => .bind (operand_keepsOk h _ _ _) fun _ ht => .andThen fun
    | none => .ok ht
    | some _ => .andThen fun _ => .ite .error (.ite .error (.ok (memoryOk_same ht rfl rfl rfl)))

theorem execMfmt_nextOk (n : Fin 8) (o : OpA) : NextOk (execMfmt n o s) :=
  runWord_nextOk h fun _ => .bind (operand_keepsOk h _ _ _) fun _ ht => .andThen fun
    | none => .ok ht
    | some _ => .ite .error (.ite .error (.ok (memoryOk_same ht rfl rfl rfl)))

theorem execMsld_nextOk (o : OpM) : NextOk (execMsld o s) :=
  runWord_nextOk h fun _ => .bind (operand_keepsOk h _ _ _) fun _ ht => .andThen fun
    | none => .ok ht
    | some _ => .ite .error (.ite .error (.ite .error (.andThen fun _ => .andThen fun _ =>
        .bind (ownScale_keepsOk ht _ _) fun _ hu => .ok (memoryOk_same hu rfl rfl rfl))))

theorem execAsts_nextOk (o : OpAst) : NextOk (execAsts o s) :=
  runWord_nextOk h fun _ => .andThen fun
    | none => .ok h
    | some _ => .andThen fun _ => .andThen fun _ => .ite .error (.andThen fun _ => .andThen fun _ =>
        .ite (.ok (memoryOk_spadWrites h _ _ _)) (.ok (memoryOk_waitFor (memoryOk_sendRemote h _ _ _ _ _) _ _)))

theorem execAstc_nextOk (o : OpAst) : NextOk (execAstc o s) :=
  runWord_nextOk h fun _ => .andThen fun
    | none => .ok h
    | some _ => .andThen fun _ => .andThen fun _ => .ite .error (.bind (pushCheck_keepsOk h _ _ _) fun _ ht =>
        .ok (memoryOk_same ht rfl rfl rfl))

theorem execAinfo_nextOk (d : Reg) (t : Tile) : NextOk (execAinfo d t s) :=
  runWord_nextOk h fun _ => .ite (.ok h) (.andThen fun _ => put_keepsOk h _ _ _ _)

theorem execBra_nextOk (imm : Fin 32768) : NextOk (execBra imm s) := by
  unfold execBra
  exact runWord_nextOk h (fun _ => branchTargets_keepsOk h _ _)

theorem execCall_nextOk (d : Reg) (imm : Fin 32768) : NextOk (execCall d imm s) :=
  runWord_nextOk h fun _ => .bind (branchTargets_keepsOk h _ _) fun _ ht => put_keepsOk ht _ _ _ _

theorem execNop_nextOk : NextOk (execNop s) := by
  unfold execNop
  exact runWord_nextOk h (fun _ => (.ok h))

theorem computedJump_nextOk (o : OpA) : NextOk (computedJump o s) :=
  runWord_nextOk h fun _ => .bind (operand_keepsOk h _ _ _) fun _ ht => branchTargets_keepsOk ht _ _

theorem execJoin_nextOk (_ar : Reg) : NextOk (execJoin _ar s) := by
  unfold execJoin
  exact runWord_nextOk h (fun _ => (.ok (memoryOk_ite h (memoryOk_transferTo h _ _))))

theorem execExit_nextOk : NextOk (execExit s) := by
  unfold execExit
  exact runWord_nextOk h (fun _ => (.ok (memoryOk_ite h (memoryOk_transferTo h _ _))))

theorem execTrap_nextOk (n : Fin 32) : NextOk (execTrap n s) := by
  unfold execTrap
  exact runWord_nextOk h (fun _ => (.ok (memoryOk_ite h (memoryOk_transferTo h _ _))))

theorem execSleep_nextOk (o : OpA) : NextOk (execSleep o s) :=
  runWord_nextOk h fun _ => .bind (operand_keepsOk h _ _ _) fun _ ht => .ite .error (.ok (memoryOk_same ht rfl rfl rfl))

theorem execPpt_nextOk (offs : Fin 16) (more : Bool) (live : Fin 268435456) (granules : Word) :
    NextOk (execPpt offs more live granules s) := by
  unfold execPpt
  dsimp only
  exact runWord_nextOk h (fun _ => (.ok (memoryOk_modSelf h _ _)))

theorem execFence_nextOk (k : FenceKind) (sc : Scope) : NextOk (execFence k sc s) :=
  runWord_nextOk h fun _ => .ite (.ok h) (.onlyIf fun _ => .ok (memoryOk_same h rfl rfl rfl))

theorem execTlwait_nextOk (d : Reg) (sc : Scope) (e : Fin 4) : NextOk (execTlwait d sc e s) :=
  runWord_nextOk h fun _ => .ite (.ok h) (.andThen fun _ => .ite .error (.andThen fun _ => .ok (memoryOk_waitFor h _ _)))

theorem barWord_nextOk (n : Nat) {arrive : State → View → State} (w : Wait) (harrive : ∀ v, (arrive s v).memoryOk = true) :
    NextOk (barWord s n arrive w) :=
  runPrivileged_nextOk h fun v => .ite (.ok h) (.ite .error (.andThen fun _ => .andThen fun _ => .ok
    (memoryOk_waitFor (harrive v) _ _)))

theorem execBar_nextOk (n : Fin 16) : NextOk (execBar n s) :=
  barWord_nextOk h _ _ fun _ => memoryOk_modTeam h _ _

theorem execBarc_nextOk (n : Fin 4) : NextOk (execBarc n s) :=
  barWord_nextOk h _ _ fun _ => memoryOk_modTeam (memoryOk_modCluster h _ _) _ _

theorem execBoinit_nextOk (o : OpM) : NextOk (execBoinit o s) :=
  runWord_nextOk h fun _ => .bind (objects_keepsOk h _ _ _) fun _ ht => .andThen fun _ => .andThen fun _ =>
    .ok (memoryOk_objectActs ht _ _ _ _ _)

theorem execBoarr_nextOk (rlx : Bool) (o : OpM) : NextOk (execBoarr rlx o s) :=
  runWord_nextOk h fun _ => .bind (objects_keepsOk h _ _ _) fun _ ht => .andThen fun _ => .andThen fun _ =>
    .onlyIf fun _ => .ok (memoryOk_objectActs ht _ _ _ _ _)

theorem execBowait_nextOk (o : OpM) : NextOk (execBowait o s) :=
  runWord_nextOk h fun _ => .bind (objects_keepsOk h _ _ _) fun _ ht => .andThen fun _ =>
    .ite (.ok ht) (.andThen fun _ => .ok (memoryOk_waitFor ht _ _))

theorem execBotest_nextOk (acq : Bool) (o : OpM) : NextOk (execBotest acq o s) := by
  refine runWord_nextOk h fun v => .bind (objects_keepsOk h _ _ _) fun (a, rs, t) ht => .onlyIf fun _ => ?_
  dsimp only at ht ⊢
  split
  · exact put_keepsOk ht _ _ _ _
  · have hs := memoryOk_sendRemote ht v
    exact .ite (.bind (push_keepsOk (hs _ _ _ _) _ _ _ _ _) fun _ hu => .ok (memoryOk_waitFor hu _ _))
      (.ok (memoryOk_waitFor (memoryOk_modSelf (hs _ _ _ _) _ _) _ _))

theorem execRainit_nextOk (o : OpM) : NextOk (execRainit o s) :=
  runWord_nextOk h fun _ => .bind (operand_keepsOk h _ _ _) fun _ ht => .andThen fun _ => .andThen fun _ => .andThen fun _ =>
    .andThen fun _ => .ok (memoryOk_objectActs ht _ _ _ _ _)

theorem ringWait_nextOk (free : Bool) (o : OpM) : NextOk (ringWait free o s) :=
  runWord_nextOk h fun _ => .bind (objects_keepsOk h _ _ _) fun _ ht =>
    .onlyIf fun _ => .ite (.ok ht) (.andThen fun _ => .ok (memoryOk_waitFor ht _ _))

theorem execRarel_nextOk (o : OpA) : NextOk (execRarel o s) :=
  runWord_nextOk h fun _ => .bind (objects_keepsOk h _ _ _) fun _ ht => .andThen fun _ =>
    .onlyIf fun _ => .ok (memoryOk_objectActs ht _ _ _ _ _)

theorem execWpwait_nextOk (d : Reg) (ch : Fin 4) : NextOk (execWpwait d ch s) :=
  runWord_nextOk h fun _ => .ite (.ok h) (.ite .error (.andThen fun _ => .andThen fun _ => .ok (memoryOk_waitFor h _ _)))

theorem execRefl_nextOk (pd : Pred) (ar : Reg) (z : ReflSize) : NextOk (execRefl pd ar z s) := by
  refine runWord_nextOk h fun v => .ite .error (.andThen fun _ => ?_)
  extract_lets lanes
  split
  · exact .error
  · refine .ite (.ok h) ?_
    split
    · have hr := memoryOk_reflOutcomes (memoryOk_spend h v.g.team) v.g.core v.g.ctx lanes [] rfl
      split
      · exact .error
      · exact .ok (memoryOk_same hr rfl rfl rfl)
      · exact .ok (memoryOk_subscribe hr _ _ _ _)
    · exact .ok (memoryOk_waitFor (memoryOk_reflWalk (memoryOk_spend h _) _ _ _) _ _)

theorem execUnrefl_nextOk (o : OpA) : NextOk (execUnrefl o s) := by
  refine runWord_nextOk h fun _ => .bind (reflLanes_keepsOk h _ _ _ _) fun _ ht => .ite (.ok ht) (.bind (operand_keepsOk h _ _ _)
    fun _ _ => .andThen fun _ => .ok (memoryOk_foldl (fun t n hu => ?_) _ _ (memoryOk_spend ht _)))
  split
  · extract_lets _ u
    have hm : u.memoryOk = true := memoryOk_same hu rfl rfl rfl
    exact memoryOk_unsubscribe hm _ _
  · exact hu

theorem execRseq_nextOk (acq : Bool) (o : OpM) : NextOk (execRseq acq o s) :=
  runWord_nextOk h fun _ => .bind (reflLanes_keepsOk h _ _ _ _) fun _ ht =>
    .onlyIf fun _ => put2_keepsOk (memoryOk_ite (memoryOk_acquireAt ht _ _ _) ht) _ _ _ _

theorem execRack_nextOk (o : OpM) : NextOk (execRack o s) := by
  refine runWord_nextOk h fun v => .bind (reflLanes_keepsOk h _ _ _ _) fun _ ht => .bind (operand_keepsOk h _ _ _) fun _ _ =>
    .andThen fun _ => .ite .error (.ok (memoryOk_foldl (fun t x hu => ?_) _ _ ht))
  split
  · exact hu
  · exact memoryOk_ite (memoryOk_modTeam (memoryOk_modRefl hu _ _) _ _) hu

theorem execTkget_nextOk (x : Bool) (d : Reg) : NextOk (execTkget x d s) :=
  runWord_nextOk h fun _ => .ite (.ok h) (.andThen fun _ => .ok (memoryOk_waitFor (memoryOk_spend h _) _ _))

theorem execTkput_nextOk (ar : Reg) : NextOk (execTkput ar s) :=
  runWord_nextOk h fun _ => .andThen fun
    | none => .ok h
    | some _ => .ite .error (.andThen fun _ => .ite .error (.ok (memoryOk_spend (memoryOk_postTask h _ _) _)))

theorem execTkdone_nextOk (ar : Reg) : NextOk (execTkdone ar s) := by
  refine runWord_nextOk h fun v => .andThen fun
    | none => .ok h
    | some r => ?_
  dsimp only
  split
  · exact .error
  · exact .ite .error (.andThen fun _ => .ok (memoryOk_spend
      (memoryOk_ite (memoryOk_doChores (memoryOk_modCluster h _ _) _ _) (memoryOk_modCluster h _ _)) _))

theorem execDcset_nextOk (ar : Reg) : NextOk (execDcset ar s) := by
  refine runWord_nextOk h fun v => .andThen fun
    | none => .ok h
    | some ws => .ite .error (.andThen fun _ => .ite (.ok (memoryOk_spend (memoryOk_modCluster h _ _) _)) ?_)
  split
  · exact .ok (memoryOk_spend h _)
  · exact .ite .error (.ok (memoryOk_spend (memoryOk_postTask h _ _) _))

theorem execDcdec_nextOk (o : OpA) : NextOk (execDcdec o s) :=
  runWord_nextOk h fun _ => .bind (operand_keepsOk h _ _ _) fun _ ht => .ite .error (.andThen fun _ => .ite (.ok ht)
    (.andThen fun _ => .ok (memoryOk_spend (memoryOk_foldl (fun _ _ hu => memoryOk_decrement hu _ _) _ _ ht) _)))

theorem execLaunch_nextOk (o : OpM) : NextOk (execLaunch o s) := by
  refine runWord_nextOk h fun v => .bind (operand_keepsOk h _ _ _) fun (a, t) ht => .andThen fun
    | none => .ok ht
    | some (L, ql) => .andThen fun _ => .andThen fun _ => .ite .error (.andThen fun _ => .ite .error ?_)
  dsimp only at ht ⊢
  split
  · exact .error
  · exact .error
  · next e =>
    have hf : Fetched.Ok (.fail _) := memoryOk_launchWrite (memoryOk_writeBackDie ht _ _) _ _ _ _ e
    exact .ok (memoryOk_spend (memoryOk_ring hf _ _) _)
  · next e =>
    have hf : Fetched.Ok (.got _ _ _) := memoryOk_launchWrite (memoryOk_writeBackDie ht _ _) _ _ _ _ e
    exact .ok (memoryOk_spend (memoryOk_ring hf _ _) _)

theorem execGcond_nextOk (n : Fin 8) (o : OpA) : NextOk (execGcond n o s) := by
  refine runWord_nextOk h fun v => .bind (operand_keepsOk h _ _ _) fun (a, t) ht => .andThen fun
    | none => .ok ht
    | some _ => .ok ?_
  split
  · split
    · exact memoryOk_same ht rfl rfl rfl
    · exact ht
  · exact ht

theorem execLend_nextOk (o : OpA) : NextOk (execLend o s) :=
  runWord_nextOk h fun _ => .bind (operand_keepsOk h _ _ _) fun _ ht => .andThen fun
    | none => .ok ht
    | some _ =>
      have hs := memoryOk_spend ht _
      .ite .error (.ite (.ok (memoryOk_setLoan hs _ _ _)) (.ite (.ok (memoryOk_startEclipse hs _ _ _))
        (.ite (.ok hs) (.ok (memoryOk_openLoan hs _ _ _)))))

theorem execRecall_nextOk (d : Reg) : NextOk (execRecall d s) :=
  runWord_nextOk h fun _ => .ite (.ok h) (.ite .error (.andThen fun _ => .ok
    (memoryOk_waitFor (memoryOk_startEclipse (memoryOk_spend h _) _ _ _) _ _)))

theorem execSwr_nextOk (_sr : Reg) (o : OpA) : NextOk (execSwr _sr o s) := by
  unfold execSwr
  dsimp only
  exact runWord_nextOk h (fun _ => (.ite .error (.ok (memoryOk_ite (memoryOk_setLoan h _ _ _) h))))

theorem execTres_nextOk (o : OpA) : NextOk (execTres o s) := by
  refine runPrivileged_nextOk h fun v => .bind (operand_keepsOk h _ _ _) fun (a, t) ht => .andThen fun
    | none => .ok ht
    | some (_, keep) => ?_
  dsimp only
  split
  · exact .ok (memoryOk_endHandler ht _)
  · refine .ite (.ok (memoryOk_endHandler ht _)) (.ite .error (.andThen fun _ => .ok ?_))
    exact memoryOk_checkExit (memoryOk_checkDeadlock (memoryOk_evalJoins
      (memoryOk_endHandler (memoryOk_setGroup (memoryOk_logView ht _ _ _) _ _) _) _) _) _

theorem execTkill_nextOk (team : Bool) : NextOk (execTkill team s) := by
  unfold execTkill
  dsimp only
  refine runPrivileged_nextOk h (fun _ => (.ite (.ok h) ?_))
  split
  · exact .ok (memoryOk_endHandler h _)
  · exact .ite (.ok (memoryOk_endHandler h _)) (.ok (memoryOk_endGroups (memoryOk_endHandler h _) _))

end

end Sys2Proof.Machine
end

section
/-! PROOFS. Events keep the memories canonical (spec 95_what_each_step_holds.md). -/

namespace Sys2Proof.Machine

section
variable {s : State} (h : s.memoryOk = true)
include h

theorem readArgs_ok (core ctx : Nat) (lost : List Nat) (fuel a n : Nat) (acc : List (Byte × Bool)) :
    (readArgs core ctx lost fuel a n s acc).Ok := by
  induction fuel generalizing s a n acc with
  | zero => exact h
  | succ fuel ih =>
    unfold readArgs
    split
    · exact h
    · extract_lets m bad
      split
      · exact ih h _ _ _
      · generalize e : s.translate core ctx a .read = r
        obtain ⟨o, u⟩ := r
        have hu : u.memoryOk = true := memoryOk_translate h _ _ _ _ e
        have hfetch := fetch_ok hu { ctx := ctx, core := core, free := true } a m o
        split
        · trivial
        · next e =>
          rw [e] at hfetch
          exact hfetch
        · next e =>
          rw [e] at hfetch
          exact ih hfetch _ _ _
        · next e =>
          rw [e] at hfetch
          exact ih hfetch _ _ _

theorem readAllArgs_ok (k : Kernel) (cores : List Nat) (acc : List (List (Byte × Bool))) : (readAllArgs k cores s acc).Ok := by
  induction cores generalizing s acc with
  | nil => exact h
  | cons core cores ih =>
    have hread := readArgs_ok h core k.ctx k.argsLost (k.desc.arglen + 1) k.arga k.desc.arglen []
    unfold readAllArgs
    split
    · trivial
    · next e =>
      rw [e] at hread
      exact hread
    · next e =>
      rw [e] at hread
      exact ih hread _

theorem checkDesc_ok (ctx : Nat) (ws : List Word) : (s.checkDesc ctx ws).Ok := by
  unfold State.checkDesc
  split
  · exact h
  · extract_lets w d
    split
    · exact h
    · split
      · next e => exact memoryOk_codePages h _ _ _ _ e
      · next e => exact memoryOk_codePages h _ _ _ _ e

theorem describe_ok (die ctx va : Nat) : (s.describe die ctx va).Ok := by
  unfold State.describe
  split
  · exact h
  · have hfetch := memoryOk_fetchDev h die ctx va 128 rfl
    split
    · trivial
    · next e =>
      rw [e] at hfetch
      exact hfetch
    · next e =>
      rw [e] at hfetch
      exact hfetch
    · next e =>
      rw [e] at hfetch
      split
      · exact hfetch
      · exact checkDesc_ok hfetch _ _

omit h in
theorem Described.Ok.launch {r : Described} (hr : r.Ok) (ctx arga gx gy gz seq : Nat) (o : Owner) :
    (r.launch ctx arga gx gy gz seq o).Ok := by
  unfold Described.launch
  split
  · trivial
  · exact hr
  · exact hr
  · extract_lets dim
    split
    · exact hr
    · exact memoryOk_same (s := _) hr rfl rfl rfl

theorem startEntry_nextOk (q idx ty : Nat) {go : QEntry → State → State}
    (hgo : ∀ e t, t.memoryOk = true → (go e t).memoryOk = true) : NextOk (s.startEntry q idx ty go) := by
  unfold State.startEntry
  split
  · exact .ite (.next (hgo _ _ (memoryOk_same h rfl rfl rfl))) .fault
  · exact .fault

theorem execIllegalPacket_nextOk (lowest : Fin 3) : NextOk (execIllegalPacket lowest s) := by
  unfold execIllegalPacket
  split
  · exact .fault
  · split
    · exact .fault
    · exact .next (memoryOk_trapAtIssue h _ _)

theorem execResultWriteback_nextOk (gid : Nat) : NextOk (execResultWriteback gid s) := by
  unfold execResultWriteback
  split
  · exact .fault
  · exact .next (memoryOk_land h _)

theorem execActiveSetEntry_nextOk (core : Nat) (shade : Bool) : NextOk (execActiveSetEntry core shade s) := by
  unfold execActiveSetEntry
  dsimp only
  split
  · exact .fault
  · exact .next (memoryOk_setGroup h _ _)

theorem execUnpark_nextOk (core : Nat) (shade : Bool) : NextOk (execUnpark core shade s) := by
  unfold execUnpark
  dsimp only
  split
  · exact .fault
  · exact .ite .fault (.next (memoryOk_setGroup (memoryOk_freeImage h _) _ _))

theorem execEviction_nextOk (core : Nat) : NextOk (execEviction core s) := by
  unfold execEviction
  dsimp only
  split
  · exact .fault
  · exact .next (memoryOk_setGroup (memoryOk_usePark h _ _ _) _ _)

theorem execGroupRetire_nextOk (gid : Nat) : NextOk (execGroupRetire gid s) := by
  unfold execGroupRetire
  split
  · exact .fault
  · have hf : ∀ g, State.memoryOk { s.freeImage g with groups := eraseAt gid s.groups } = true := fun g =>
      memoryOk_same (memoryOk_freeImage h g) rfl rfl rfl
    exact .ite (.next (memoryOk_ite (hf _) (memoryOk_modTeam (hf _) _ _))) .fault

theorem execSleepWake_nextOk (gid L : Nat) : NextOk (execSleepWake gid L s) := by
  unfold execSleepWake
  dsimp only
  split
  · exact .fault
  · exact .ite (.next (memoryOk_setGroup h _ _)) .fault

theorem execHandlerGroupStart_nextOk (gid : Nat) : NextOk (execHandlerGroupStart gid s) := by
  unfold execHandlerGroupStart
  split
  · exact .fault
  · split
    · split
      · split
        · next e =>
          have ht : State.memoryOk _ = true := memoryOk_codePages h _ _ _ _ e
          refine .ite .fault ?_
          split
          · exact .next (memoryOk_setGroup (memoryOk_fault ht _ _ _ _ _ _ _ _ _ _ _ rfl) _ _)
          · exact .next (memoryOk_endGroups (memoryOk_logUnhandled ht _ _) _)
        · next e =>
          have ht : State.memoryOk _ = true := memoryOk_codePages h _ _ _ _ e
          refine .ite ?_ .fault
          exact .next (memoryOk_setGroup (memoryOk_setGroup (by exact memoryOk_same ht rfl rfl rfl) _ _) _ _)
      · exact .fault
    · exact .fault

theorem execGroupSave_nextOk (gid : Nat) : NextOk (execGroupSave gid s) := by
  unfold execGroupSave
  split
  · exact .fault
  · exact .ite .fault (.next (memoryOk_saveGroup h _ _ _))

theorem execFlushByContextTag_nextOk (gid : Nat) : NextOk (execFlushByContextTag gid s) := by
  unfold execFlushByContextTag
  split
  · exact .fault
  · exact .ite (.next (memoryOk_setGroup h _ _)) .fault

theorem execFlushAcknowledge_nextOk (gid : Nat) : NextOk (execFlushAcknowledge gid s) := by
  unfold execFlushAcknowledge
  split
  · exact .fault
  · split
    · exact .fault
    · exact .ite (.next (memoryOk_setGroup h _ _)) .fault

theorem execRemoteAccessComplete_nextOk (n : Nat) : NextOk (execRemoteAccessComplete n s) := by
  unfold execRemoteAccessComplete
  split
  · exact .fault
  · exact .ite (.next (memoryOk_performRemote h _ _)) .fault

theorem execQueuePushLands_nextOk (gid : Nat) : NextOk (execQueuePushLands gid s) := by
  unfold execQueuePushLands
  split
  · exact .fault
  · split
    · exact .fault
    · exact .next (memoryOk_landPush h _ _ _)

theorem execCommandStart_nextOk (n : Nat) : NextOk (execCommandStart n s) := by
  unfold execCommandStart
  dsimp only
  split
  · exact .fault
  · split
    · exact .fault
    · split
      · next e2 => exact .next (memoryOk_startHold h _ e2)
      · split
        · split
          · exact .next (memoryOk_finish (memoryOk_setCmd (memoryOk_marked h _ rfl) _ _) _ _)
          · split
            · exact .next (memoryOk_resolveCopyl (memoryOk_marked h _ rfl) _ _ _ _)
            · exact .next (memoryOk_setCmd (memoryOk_marked h _ rfl) _ _)
        · exact .next (memoryOk_ite (memoryOk_finish (memoryOk_setCmd (memoryOk_marked h _ rfl) _ _) _ _) (memoryOk_begin_
              (memoryOk_marked h _ rfl) _ _))

theorem execElementLands_nextOk (n : Nat) : NextOk (execElementLands n s) := by
  unfold execElementLands
  split
  · exact .fault
  · exact .ite (.next (memoryOk_landNext h _ _)) .fault

theorem execMcastReceiverArrival_nextOk (n : Nat) : NextOk (execMcastReceiverArrival n s) := by
  unfold execMcastReceiverArrival
  split
  · exact .fault
  · refine .ite .fault ?_
    split
    · exact .next (memoryOk_finish (memoryOk_setCmd h _ _) _ _)
    · split
      · next e =>
        obtain ⟨p, -, hp⟩ := Option.bind_eq_some_iff.mp e
        exact .next (memoryOk_spadHold h _ _ _ hp)
      · have hr := fun c code r k => memoryOk_setCmd (memoryOk_receiverArrives h c code r) n k
        exact .next (memoryOk_ite (memoryOk_finish (hr _ _ _ _) _ _) (hr _ _ _ _))

theorem execStackAtomicApply_nextOk (n : Nat) : NextOk (execStackAtomicApply n s) := by
  unfold execStackAtomicApply
  split
  · exact .fault
  · split
    · exact .fault
    · split
      · exact .next (memoryOk_applyAtomc h _ _)
      · exact .next (memoryOk_applyRedc h _ _)
      · exact .fault

theorem execTxLaneStart_nextOk (l : Nat) : NextOk (execTxLaneStart l s) := by
  unfold execTxLaneStart
  dsimp only
  split
  · exact .fault
  · split
    · exact .fault
    · split
      · exact .fault
      · split
        · split
          · exact .ite (.next (memoryOk_finish h _ _)) (.next (memoryOk_setLane h _ _))
          · exact .next (memoryOk_setLane h _ _)
        · exact .ite (.next (memoryOk_finish h _ _)) (.next (memoryOk_setCmd (memoryOk_setLane h _ _) _ _))

theorem execMmaApply_nextOk (core : Nat) : NextOk (execMmaApply core s) := by
  unfold execMmaApply
  dsimp only
  split
  · exact .fault
  · refine .next ?_
    split
    · exact memoryOk_decrement (memoryOk_modTeam (memoryOk_setWorks (memoryOk_applyWork h _ _) _ _) _ _) _ _
    · exact memoryOk_setWorks (memoryOk_applyWork h _ _) _ _

theorem execTileConversionEnd_nextOk (gid t : Nat) : NextOk (execTileConversionEnd gid t s) := by
  unfold execTileConversionEnd
  split
  · exact .fault
  · split
    · exact .fault
    · exact .ite .fault (.next (memoryOk_setWorks (memoryOk_applyWork h _ _) _ _))

theorem execMsldTransferEnd_nextOk (core : Nat) : NextOk (execMsldTransferEnd core s) := by
  unfold execMsldTransferEnd
  dsimp only
  split
  · exact .fault
  · exact .ite .fault (.next (memoryOk_setScaleMem h _ _))

theorem execPushCoalesceExpiry_nextOk (n : Nat) : NextOk (execPushCoalesceExpiry n s) := by
  unfold execPushCoalesceExpiry
  split
  · exact .fault
  · exact .ite .fault (.next (memoryOk_pushRange h _ _ _))

theorem execPushApply_nextOk (n : Nat) : NextOk (execPushApply n s) := by
  unfold execPushApply
  dsimp only
  split
  · exact .fault
  · split
    · exact .fault
    · split
      · exact .fault
      · exact .next (memoryOk_same h rfl rfl rfl)
      · exact .next (memoryOk_foldl (fun _ _ h3 => memoryOk_pushSlot h3 _ _) _ _ (memoryOk_same h rfl rfl rfl))

theorem execReflLoadLands_nextOk (n : Nat) : NextOk (execReflLoadLands n s) := by
  unfold execReflLoadLands
  split
  · exact .fault
  · exact .ite .fault (.next (memoryOk_reflLand h _ _))

theorem execUnreflRetire_nextOk (n : Nat) : NextOk (execUnreflRetire n s) := by
  unfold execUnreflRetire
  split
  · exact .fault
  · exact .ite .fault (.next (memoryOk_freeRefl h _ _))

theorem execWqEnable_nextOk (q : Nat) : NextOk (execWqEnable q s) := by
  unfold execWqEnable
  exact .next (memoryOk_ite (memoryOk_enableQueue h _) h)

theorem execWqDisable_nextOk (q : Nat) : NextOk (execWqDisable q s) := by
  unfold execWqDisable
  exact .next (memoryOk_ite (memoryOk_disableQueue h _) h)

theorem execWqSuspend_nextOk (q : Nat) : NextOk (execWqSuspend q s) := by
  unfold execWqSuspend
  exact .next (memoryOk_ite (memoryOk_suspendQueue h _) h)

theorem execWqUnsuspend_nextOk (q : Nat) : NextOk (execWqUnsuspend q s) := by
  unfold execWqUnsuspend
  exact .next (memoryOk_ite (memoryOk_unsuspendQueue h _) h)

theorem execDoorbell_nextOk (q : Nat) (wr : Word) : NextOk (execDoorbell q wr s) := by
  unfold execDoorbell
  exact .next (memoryOk_ite (memoryOk_ring h _ _) h)

theorem execRegisterWrite_nextOk (func off : Nat) (w : Word) : NextOk (execRegisterWrite func off w s) := by
  unfold execRegisterWrite
  refine .next ?_
  split
  · exact memoryOk_writeBlock h _ _ _
  · exact h

theorem execWqEntryFetch_nextOk (q : Nat) : NextOk (execWqEntryFetch q s) := by
  unfold execWqEntryFetch
  refine .ite .fault ?_
  extract_lets x d a x1 got
  have hgot : Fetched.Ok got := by
    unfold got
    split
    · split
      · exact h
      · exact h
    · split
      · exact memoryOk_fetchDev h _ _ _ _ rfl
      · exact memoryOk_fetchHost h _ _ _ _ rfl
  clear_value got
  split
  · exact .next h
  · exact .next (memoryOk_setQueue (memoryOk_queueFault hgot _ _ _ _ _ rfl) _ _)
  · exact .next (memoryOk_setQueue hgot _ _)
  · next t =>
    have ht : t.memoryOk = true := hgot
    extract_lets e put
    have hput : ∀ (u : State) e, u.memoryOk = true → (put u e).memoryOk = true := fun u e hu =>
      memoryOk_setQueue (by exact memoryOk_same hu rfl rfl rfl) _ _
    clear_value put
    refine .ite (.next (memoryOk_setQueue ht _ _)) (.ite (.next ?_)
      (.ite (.next (memoryOk_setQueue ht _ _)) (.ite (.next (hput _ _ ht)) ?_)))
    · exact memoryOk_ite (memoryOk_answer (hput _ _ ht) _ _ _ _) (hput _ _ ht)
    · have hfetch := memoryOk_fetchDev ht d x.ctx (e.num 2) 128 rfl
      split
      · exact .next h
      · next e =>
        rw [e] at hfetch
        exact .next (memoryOk_setQueue (memoryOk_queueFault hfetch _ _ _ _ _ rfl) _ _)
      · next e =>
        rw [e] at hfetch
        exact .next (hput _ _ hfetch)
      · next e =>
        rw [e] at hfetch
        exact .next (hput _ _ hfetch)

theorem execNopEntry_nextOk (q idx : Nat) : NextOk (execNopEntry q idx s) :=
  startEntry_nextOk h _ _ _ fun _ _ ht => memoryOk_completeEntry ht _ _

theorem execKernelEntry_nextOk (q idx : Nat) : NextOk (execKernelEntry q idx s) := by
  refine startEntry_nextOk h _ _ _ fun e t ht => ?_
  extract_lets ctx w r
  have hr : r.Ok := by
    unfold r
    split
    · exact ht
    · exact checkDesc_ok ht _ _
  have hlaunch := hr.launch ctx (e.num 4) (w 6) (w 7) (w 8) e.seq (.entry q idx)
  clear_value r
  split
  · exact ht
  · next e =>
    rw [e] at hlaunch
    exact memoryOk_entryFault hlaunch _ _ _ _ _ _
  · next e =>
    rw [e] at hlaunch
    exact memoryOk_failEntry hlaunch _ _ _
  · next e =>
    rw [e] at hlaunch
    exact memoryOk_entryStarted hlaunch _ _

theorem execGraphEntry_nextOk (q idx : Nat) : NextOk (execGraphEntry q idx s) := by
  refine startEntry_nextOk h _ _ _ fun e t ht => ?_
  extract_lets ctx
  have hread := memoryOk_readGraph ht (t.homeDie q) ctx (e.num 2) rfl
  split
  · exact ht
  · next e =>
    rw [e] at hread
    exact memoryOk_entryFault hread _ _ _ _ _ _
  · next e =>
    rw [e] at hread
    exact memoryOk_failEntry hread _ _ _
  · next e =>
    rw [e] at hread
    have hx : State.memoryOk _ = true := hread
    exact memoryOk_entryStarted (by exact memoryOk_same hx rfl rfl rfl) _ _

theorem execWaitvEntry_nextOk (q idx : Nat) : NextOk (execWaitvEntry q idx s) :=
  startEntry_nextOk h _ _ _ fun _ _ ht => memoryOk_setQueue ht _ _

theorem execWritevEntry_nextOk (q idx : Nat) : NextOk (execWritevEntry q idx s) := by
  refine startEntry_nextOk h _ _ _ fun e t ht => ?_
  extract_lets ctx
  have hstore : Fetched.Ok _ := memoryOk_storeDev (memoryOk_releaseAll ht ctx) (t.homeDie q) ctx (e.num 2)
    ((List.range 8).map fun i => byteOf (e.num 4) i) false rfl
  split
  · exact ht
  · next e =>
    rw [e] at hstore
    exact memoryOk_entryFault hstore _ _ _ _ _ _
  · next e =>
    rw [e] at hstore
    exact memoryOk_failEntry hstore _ _ _
  · next e =>
    rw [e] at hstore
    exact memoryOk_completeEntry hstore _ _

theorem execWaitvReread_nextOk (q idx : Nat) : NextOk (execWaitvReread q idx s) := by
  unfold execWaitvReread
  dsimp only
  split
  · exact .fault
  · split
    · exact .fault
    · split
      · exact .next (memoryOk_setQueue h _ _)
      · next e2 => exact .next (memoryOk_entryFault (memoryOk_fetchDev h _ _ _ _ e2) _ _ _ _ _ _)
      · next e2 => exact .next (memoryOk_failEntry (memoryOk_fetchDev h _ _ _ _ e2) _ _ _)
      · next e2 => exact .ite (.next (memoryOk_failEntry (memoryOk_fetchDev h _ _ _ _ e2) _ _ _)) (.ite (.next
            (memoryOk_completeEntry (memoryOk_acquireAll (memoryOk_fetchDev h _ _ _ _ e2) _) _ _)) (.next (memoryOk_setQueue
                (memoryOk_fetchDev h _ _ _ _ e2) _ _)))

theorem execHostRingWrite_nextOk (ctx ring : Nat) : NextOk (execHostRingWrite ctx ring s) := by
  unfold execHostRingWrite
  extract_lets cs
  split
  · exact .fault
  · next c _ =>
    split
    · exact .fault
    · have h1 : State.memoryOk (if cs.length == 1 then s else { s with free := s.free + 1 }) = true :=
        memoryOk_ite h (memoryOk_same h rfl rfl rfl)
      have h2 := memoryOk_setCore h1 c
      exact .next (memoryOk_ite (memoryOk_writeRing (h2 _) _ _ _ _ _) (h2 _))

theorem execHostRingDeadline_nextOk (ctx ring : Nat) : NextOk (execHostRingDeadline ctx ring s) := by
  unfold execHostRingDeadline
  dsimp only
  exact .ite (.next (memoryOk_raise (memoryOk_setHring h _ _ _) _ _)) .fault

theorem execClusterAdmission_nextOk (n : Nat) : NextOk (execClusterAdmission n s) := by
  unfold execClusterAdmission
  split
  · exact .fault
  · next k _ =>
    split
    · next p _ _ =>
      refine .ite .fault ?_
      have hread := readAllArgs_ok h k (rectangle p.1 p.2.1 p.2.2 k.desc.w k.desc.h) []
      split
      · exact .next h
      · next e =>
        rw [e] at hread
        exact .next (memoryOk_modKernel (memoryOk_fault hread _ _ _ _ _ _ _ _ _ _ _ rfl) _ _)
      · next e =>
        rw [e] at hread
        exact .next (memoryOk_admitCluster hread _ _ _ _ _ _ _)
    · exact .fault

theorem execGraphNodeStart_nextOk (gr node : Nat) : NextOk (execGraphNodeStart gr node s) := by
  unfold execGraphNodeStart
  split
  · exact .fault
  · next g _ =>
    refine .ite .fault (.ite (.next (memoryOk_reloadGraph h _ _)) ?_)
    have hacq := memoryOk_acquireAll h g.ctx
    extract_lets +onlyGivenNames n die
    split
    · have hlaunch := (describe_ok hacq die g.ctx (nodeNum n 6)).launch g.ctx (nodeNum n 8) (nodeWord n 10) (nodeWord n 11)
        (nodeWord n 12) s.nextId (.node gr node)
      split
      · exact .next h
      · next e =>
        rw [e] at hlaunch
        exact .next (memoryOk_nodeFault hlaunch _ _ _ _ _)
      · next e =>
        rw [e] at hlaunch
        exact .next (memoryOk_nodeEnds (memoryOk_nodeStarted hlaunch _ _) _ _ _)
      · next e =>
        rw [e] at hlaunch
        exact .next (memoryOk_nodeStarted hlaunch _ _)
    · exact .next (memoryOk_same (memoryOk_nodeStarted hacq gr node) rfl rfl rfl)
    · extract_lets +onlyGivenNames f
      split
      · exact .next h
      · exact .next (memoryOk_nodeEnds (memoryOk_nodeStarted h _ _) _ _ _)
      · extract_lets +onlyGivenNames t
        have ht : t.memoryOk = true := memoryOk_nodeStarted (memoryOk_hostWrite hacq _ _ _) _ _
        clear_value t
        exact .next (memoryOk_nodeEnds (by exact memoryOk_same ht rfl rfl rfl) _ _ _)

theorem execGraphNodeComplete_nextOk (gr node : Nat) : NextOk (execGraphNodeComplete gr node s) := by
  unfold execGraphNodeComplete
  split
  · exact .fault
  · refine .ite .fault ?_
    split
    · have ht := fun ctx g code => memoryOk_nodeFails (memoryOk_releaseAll h ctx) g code
      exact .next (memoryOk_settleQueue (memoryOk_graphGoes (by exact memoryOk_same (ht _ _ _) rfl rfl rfl) _) _)
    · extract_lets n
      exact .ite (.next (memoryOk_same h rfl rfl rfl)) (.next (memoryOk_settleQueue (memoryOk_endGraph h _ _ _) _))

theorem execTeamEnd_nextOk (t : Nat) : NextOk (execTeamEnd t s) := by
  unfold execTeamEnd
  dsimp only
  split
  · exact .fault
  · exact .ite .fault (.next (memoryOk_retryAdmissions (memoryOk_endCluster (memoryOk_modTeam (memoryOk_ite
        (memoryOk_startEclipse h _ _ _) h) _ _) _) _))

theorem execPreemptionWatchdog_nextOk (tag : Nat) : NextOk (execPreemptionWatchdog tag s) := by
  unfold execPreemptionWatchdog
  split
  · exact .fault
  · exact .ite .fault (.next (memoryOk_modCtx (memoryOk_haltCmds h _) _ _))

theorem execContextSaveComplete_nextOk (tag : Nat) : NextOk (execContextSaveComplete tag s) := by
  unfold execContextSaveComplete
  dsimp only
  split
  · exact .fault
  · split
    · exact .fault
    · split
      · exact .next (memoryOk_saveFault (memoryOk_walkAll (memoryOk_foldl (fun _ _ h3 => memoryOk_drainPushes h3 _) _ _ h) _
            _ _ _) _ _ _ _ _)
      · exact .next (memoryOk_toSaved (memoryOk_foldl (fun _ _ h3 => memoryOk_drainPushes h3 _) _ _ h) _ _ _)

theorem execContextRestoreComplete_nextOk (tag : Nat) : NextOk (execContextRestoreComplete tag s) := by
  unfold execContextRestoreComplete
  dsimp only
  split
  · split
    · exact .fault
    · split
      · exact .next (memoryOk_saveFault (memoryOk_walkAll h _ _ _ _) _ _ _ _ _)
      · split
        · exact .next (memoryOk_saveFault (memoryOk_walkAll h _ _ _ _) _ _ _ _ _)
        · split
          · exact .fault
          · next e4 => exact .next (memoryOk_ite (memoryOk_preemptCtx (memoryOk_restored (memoryOk_restoreClusters
                (memoryOk_restoreEngines h _) _ _ e4) _ _) _) (memoryOk_restored (memoryOk_restoreClusters
                    (memoryOk_restoreEngines h _) _ _ e4) _ _))
      · exact .next (memoryOk_killCtx (memoryOk_walkAll h _ _ _ _) _)
  · exact .fault

theorem execContextTeardownDone_nextOk (tag : Nat) : NextOk (execContextTeardownDone tag s) := by
  unfold execContextTeardownDone
  split
  · exact .fault
  · exact .ite (.next (memoryOk_modCtx h _ _)) .fault

theorem execGranuleZeroingEnd_nextOk (core : Nat) : NextOk (execGranuleZeroingEnd core s) := by
  unfold execGranuleZeroingEnd
  dsimp only
  split
  · exact .fault
  · refine .next (memoryOk_foldl (fun _ _ h1 => ?_) _ _ h)
    split
    · exact memoryOk_setLoan (memoryOk_zeroMap h1 _ _) _ _ _
    · exact h1

theorem execGranulesReturn_nextOk (n : Nat) : NextOk (execGranulesReturn n s) := by
  unfold execGranulesReturn
  extract_lets +onlyGivenNames princ core l
  split
  · exact .fault
  · refine .ite .fault ?_
    extract_lets +onlyGivenNames s1 closed s2
    have h1 : s1.memoryOk = true := by
      unfold s1
      split
      · exact h
      · exact memoryOk_same (memoryOk_foldl (fun _ _ ht => memoryOk_land ht _) _ _ (memoryOk_eclipseCmds h _ _ _)) rfl rfl rfl
    have h2 : s2.memoryOk = true := memoryOk_setLoan h1 _ _ _
    exact .next (memoryOk_ite h2 (memoryOk_openLoan h2 _ _ _))

theorem execPageWalkComplete_nextOk (n : Nat) : NextOk (execPageWalkComplete n s) := by
  unfold execPageWalkComplete
  split
  · exact .fault
  · exact .ite .fault (.ite .fault (.ite (.next (memoryOk_same h rfl rfl rfl)) (.next (memoryOk_serveWalk h _))))

theorem execInvalComplete_nextOk (n : Nat) : NextOk (execInvalComplete n s) := by
  unfold execInvalComplete
  split
  · exact .fault
  · refine .ite .fault (.next ?_)
    have h1 := fun b : Bool => memoryOk_ite (c := b = true) (memoryOk_dropWhere h fun _ => true) h
    split
    · exact memoryOk_answer (by exact memoryOk_same (h1 _) rfl rfl rfl) _ _ _ _
    · exact memoryOk_same (h1 _) rfl rfl rfl

theorem execAccessCountHalving_nextOk (die : Nat) : NextOk (execAccessCountHalving die s) := by
  unfold execAccessCountHalving
  exact .ite .fault (.next (memoryOk_modDie (by exact memoryOk_same h rfl rfl rfl) _ _))

theorem execPriResponse_nextOk (func id : Nat) (ok : Bool) : NextOk (execPriResponse func id ok s) := by
  unfold execPriResponse
  split
  · exact .fault
  · split
    · exact .ite (.next (memoryOk_answerFault h _ _)) .fault
    · exact .fault

theorem execPageDrainComplete_nextOk (n : Nat) : NextOk (execPageDrainComplete n s) := by
  unfold execPageDrainComplete
  split
  · exact .fault
  · refine .ite .fault ?_
    extract_lets inside tab s1 s2 s3
    have h1 : s1.memoryOk = true := memoryOk_foldl (fun _ _ ht => memoryOk_fillSlot ht _ _ _ _) _ _ h
    have h2 : s2.memoryOk = true := memoryOk_foldl (fun _ _ ht => memoryOk_fillSlot ht _ _ _ _) _ _ h1
    have h3 : s3.memoryOk = true := (memoryOk_setAttr s2 _ _ _ _).trans h2
    exact .next (memoryOk_same h3 rfl rfl rfl)

theorem execFaultringRetry_nextOk (die : Nat) : NextOk (execFaultringRetry die s) := by
  unfold execFaultringRetry
  exact .ite .fault (.next (memoryOk_foldl (fun _ _ h => memoryOk_readFaultRing h _ _ _) _ _ h))

theorem execColdReset_nextOk (d : Nat) : NextOk (execColdReset d s) := by
  unfold execColdReset
  refine .ite .fault ?_
  extract_lets s1 s2 img good s3
  have h1 : s1.memoryOk = true := memoryOk_foldl (fun _ _ ht => memoryOk_killCtx ht _) _ _ h
  have h2 : s2.memoryOk = true := memoryOk_loseCopies (memoryOk_loseRefls h1 _) _
  have h3 : s3.memoryOk = true := memoryOk_modLinks (memoryOk_clearDie (by exact memoryOk_same h2 rfl rfl rfl) _) _ _
  exact .next (memoryOk_modDie h3 _ _)

theorem execWipeComplete_nextOk (d : Nat) : NextOk (execWipeComplete d s) := by
  unfold execWipeComplete
  exact .ite .fault (.ite (.next (memoryOk_modDie (memoryOk_clearDie h _) _ _)) (.next (memoryOk_modLinks (memoryOk_modDie
      (memoryOk_clearDie h _) _ _) _ _)))

theorem execHostPortLinkDown_nextOk (port state : Nat) : NextOk (execHostPortLinkDown port state s) := by
  unfold execHostPortLinkDown
  refine .ite .fault ?_
  extract_lets s1
  have h1 : s1.memoryOk = true := memoryOk_same h rfl rfl rfl
  exact .next (memoryOk_ite (memoryOk_logError h1 _) h1)

theorem execTokenBucketRefill_nextOk (ctx die : Nat) : NextOk (execTokenBucketRefill ctx die s) := by
  unfold execTokenBucketRefill
  dsimp only
  exact .ite (.next (memoryOk_same h rfl rfl rfl)) .fault

theorem execHostPortLinkUp_nextOk (port : Nat) : NextOk (execHostPortLinkUp port s) := by
  unfold execHostPortLinkUp
  exact .ite .fault (.next (memoryOk_same h rfl rfl rfl))

theorem execHostWrite_nextOk (func addr : Nat) (bytes : List Byte) : NextOk (execHostWrite func addr bytes s) := by
  unfold execHostWrite
  dsimp only
  exact .ite .fault (.next (memoryOk_homeWrite h _))

theorem execDependenceCounterDecrement_nextOk (cl dc : Nat) : NextOk (execDependenceCounterDecrement cl dc s) := by
  unfold execDependenceCounterDecrement
  split
  · exact .fault
  · exact .next (memoryOk_decrement h _ _)

theorem execCorrectableEcc_nextOk (die : Nat) : NextOk (execCorrectableEcc die s) := by
  unfold execCorrectableEcc
  refine .ite .fault ?_
  exact .next (memoryOk_logError (by exact memoryOk_same h rfl rfl rfl) _)

theorem execHbmSectorUncorrectable_nextOk (addr : Nat) : NextOk (execHbmSectorUncorrectable addr s) := by
  unfold execHbmSectorUncorrectable
  dsimp only
  exact .ite .fault (.next ((memoryOk_setSlotPsn _ _ _ _).trans (memoryOk_logError h _)))

theorem execL2DataUncorrectable_nextOk (die addr : Nat) : NextOk (execL2DataUncorrectable die addr s) := by
  unfold execL2DataUncorrectable
  extract_lets stack off k bit hits s1 log
  have hlog : ∀ ctx slice t, t.memoryOk = true → (log ctx slice t).memoryOk = true := fun _ _ _ ht => memoryOk_logError ht _
  clear_value log
  split
  · exact .fault
  · exact .next (hlog _ _ _ (memoryOk_same h rfl rfl rfl))
  · exact .next (hlog _ _ _ (memoryOk_same h rfl rfl rfl))

theorem execRegisterSpaceUncorrectable_nextOk (a : CoreArray) : NextOk (execRegisterSpaceUncorrectable a s) := by
  unfold execRegisterSpaceUncorrectable
  dsimp only
  split
  · exact .fault
  · split
    · exact .next (memoryOk_poisonArray (memoryOk_logError h _) _)
    · split
      · exact .next (memoryOk_poisonArray (memoryOk_logError h _) _)
      · exact .next (memoryOk_ite (memoryOk_rollback (memoryOk_logError h _) _ _ _ rfl) (memoryOk_poisonArray
            (memoryOk_rollback (memoryOk_logError h _) _ _ _ rfl) _))

theorem execSchedulingStateUncorrectable_nextOk (gid : Nat) : NextOk (execSchedulingStateUncorrectable gid s) := by
  unfold execSchedulingStateUncorrectable
  dsimp only
  split
  · exact .fault
  · split
    · exact .next (memoryOk_killCtx (memoryOk_setCore (memoryOk_logError h _) _ _) _)
    · exact .next (memoryOk_ite (memoryOk_rollback (memoryOk_logError h _) _ _ _ rfl) (memoryOk_killCtx (memoryOk_setCore
          (memoryOk_rollback (memoryOk_logError h _) _ _ _ rfl) _ _) _))

theorem execInstructionCacheError_nextOk (core : Nat) : NextOk (execInstructionCacheError core s) := by
  unfold execInstructionCacheError
  dsimp only
  exact .ite .fault (.next (memoryOk_logError (memoryOk_setCore h _ _) _))

theorem execParkingRegionUncorrectable_nextOk (gid word : Nat) : NextOk (execParkingRegionUncorrectable gid word s) := by
  unfold execParkingRegionUncorrectable
  split
  · exact .fault
  · refine .ite .fault ?_
    exact .next (memoryOk_logError (memoryOk_setGroup (by exact memoryOk_same h rfl rfl rfl) _ _) _)

theorem execL2SliceTagError_nextOk (die slice : Nat) : NextOk (execL2SliceTagError die slice s) := by
  unfold execL2SliceTagError
  refine .ite .fault ?_
  extract_lets here s0 s1 moved s2a home s2 s3 all
  have h1 : s1.memoryOk = true := memoryOk_foldl (fun _ _ ht => memoryOk_evictHome ht _) _ _ (memoryOk_unreadable h _ _)
  have h2a : s2a.memoryOk = true := memoryOk_modDie (memoryOk_dropWhere h1 _) _ _
  have h2 : s2.memoryOk = true := memoryOk_same h2a rfl rfl rfl
  have h3 : s3.memoryOk = true := memoryOk_logError (memoryOk_overfullMirrors h2 _) _
  exact .next (memoryOk_ite (memoryOk_warmReset (memoryOk_logError h3 _) _ _) h3)

theorem execCopyEngineInternalError_nextOk (n : Nat) : NextOk (execCopyEngineInternalError n s) := by
  unfold execCopyEngineInternalError
  split
  · exact .fault
  · exact .next (memoryOk_logError (memoryOk_cancel h _ _) _)

theorem execManagementControllerFault_nextOk (die : Nat) : NextOk (execManagementControllerFault die s) := by
  unfold execManagementControllerFault
  exact .ite .fault (.next (memoryOk_logError h _))

theorem execDieFatal_nextOk (d : Nat) : NextOk (execDieFatal d s) := by
  unfold execDieFatal
  exact .ite .fault (.next (memoryOk_warmReset (memoryOk_logError h _) _ _))

theorem execAtsInvalidation_nextOk (func addr len : Nat) : NextOk (execAtsInvalidation func addr len s) := by
  unfold execAtsInvalidation
  refine .ite .fault ?_
  exact .next (memoryOk_beginInval (by exact memoryOk_same h rfl rfl rfl) _)

theorem execLifecycleTransition_nextOk (d state : Nat) : NextOk (execLifecycleTransition d state s) := by
  unfold execLifecycleTransition
  dsimp only
  exact .ite .fault (.next (memoryOk_modDie (memoryOk_loseCopies (memoryOk_loseRefls (memoryOk_foldl (fun _ _ h =>
      (memoryOk_killCtx h _)) _ _ h) _) _) _ _))

theorem execThermalThrottle_nextOk (d : Nat) (on : Bool) : NextOk (execThermalThrottle d on s) := by
  unfold execThermalThrottle
  exact .ite .fault (.next (memoryOk_modDie h _ _))

theorem execCoolantLimit_nextOk (on : Bool) : NextOk (execCoolantLimit on s) := by
  unfold execCoolantLimit
  exact .ite (.next (memoryOk_same h rfl rfl rfl)) .fault

end

end Sys2Proof.Machine
end

section
/-! PROOFS. Link events and management commands keep the memories canonical (spec 20_link.md, 21_host_firmware.md). -/

namespace Sys2Proof.Machine

section
variable {s : State} (h : s.memoryOk = true)
include h

theorem linkEvent_nextOk (l : Nat) (changes : Link → Bool) {f : Link → State} (hf : ∀ x, (f x).memoryOk = true) :
    NextOk (linkEvent s l changes f) :=
  .ite .fault (.ite (.next (hf _)) (.next h))

omit h in
theorem linkFlit_nextOk (l : Nat) {f : Link → State} (hf : ∀ x, (f x).memoryOk = true) : NextOk (linkFlit s l f) :=
  .ite (.next (hf _)) .fault

theorem execLinkEnable_nextOk (l : Nat) : NextOk (execLinkEnable l s) :=
  linkEvent_nextOk h _ _ fun _ => memoryOk_setLink h _ _

theorem execLinkTrainingDone_nextOk (l lanes : Nat) : NextOk (execLinkTrainingDone l lanes s) :=
  .ite .fault (linkEvent_nextOk h _ _ fun _ => memoryOk_sendWaiting (memoryOk_setLink h _ _) _)

theorem execRetrainDone_nextOk (l : Nat) : NextOk (execRetrainDone l s) :=
  linkEvent_nextOk h _ _ fun _ => memoryOk_sendWaiting (memoryOk_replayAll (memoryOk_setLink h _ _) _ _) _

theorem execLinkDrained_nextOk (l : Nat) : NextOk (execLinkDrained l s) :=
  .ite .fault (linkEvent_nextOk h _ _ fun _ => memoryOk_setLink h _ _)

theorem execQuiesceTimeout_nextOk (l : Nat) : NextOk (execQuiesceTimeout l s) :=
  .ite (.next (memoryOk_persistent h _ _ _)) .fault

theorem execLinkTrainingFails_nextOk (l : Nat) : NextOk (execLinkTrainingFails l s) :=
  linkEvent_nextOk h _ _ fun _ => memoryOk_attemptFails h _ _

theorem execRetrainFails_nextOk (l : Nat) : NextOk (execRetrainFails l s) :=
  linkEvent_nextOk h _ _ fun _ => memoryOk_attemptFails h _ _

theorem execFlitReceived_nextOk (l : Nat) (good : Bool) (flit : List Byte) : NextOk (execFlitReceived l good flit s) :=
  linkFlit_nextOk _ fun _ => memoryOk_ite (memoryOk_refuseDamaged h _ _)
    (memoryOk_ite (memoryOk_edgeFlit h _ _) (memoryOk_portFlit h _ _ _))

theorem execReplayRequest_nextOk (l seq : Nat) : NextOk (execReplayRequest l seq s) := by
  refine linkFlit_nextOk _ fun x => ?_
  have hlink := memoryOk_setLink h l
  extract_lets again z
  exact memoryOk_ite (memoryOk_persistent h _ _ _) (memoryOk_same (hlink z) rfl rfl rfl)

/-! Management commands. -/

theorem memoryOk_startMgmt (m : MgmtRef) : (s.startMgmt m).memoryOk = true := memoryOk_setQueue h _ _

theorem reply_nextOk (m : MgmtRef) (st : Nat) (rs : List Nat) : NextOk (.next (s.reply m st rs)) :=
  .next (memoryOk_reply h _ _ _)

theorem runMgmt_nextOk (m : MgmtRef) (code : Nat) {go : QEntry → Out} (hgo : ∀ e, NextOk (go e)) :
    NextOk (runMgmt s m code go) := by
  unfold runMgmt
  split
  · exact .fault
  · refine .ite .fault ?_
    split
    · exact .next (memoryOk_answer h _ _ _ _)
    · exact hgo _

theorem runNamed_nextOk (m : MgmtRef) (code : Nat) (tag : QEntry → Nat) {go : QEntry → Nat → Ctx → Out}
    (hgo : ∀ e t c, NextOk (go e t c)) : NextOk (runNamed s m code tag go) := by
  refine runMgmt_nextOk h _ _ fun e => ?_
  split
  · exact reply_nextOk h _ _ _
  · split
    · exact reply_nextOk h _ _ _
    · exact .ite .fault (hgo _ _ _)

theorem execCtxcreate_nextOk (m : MgmtRef) : NextOk (execCtxcreate m s) := by
  refine runMgmt_nextOk h _ _ fun e => ?_
  extract_lets got ws w c
  refine .ite (reply_nextOk h _ _ _) ?_
  split
  · exact reply_nextOk h _ _ _
  · exact .ite (reply_nextOk h _ _ _) (reply_nextOk (memoryOk_create h _ _) _ _ _)

theorem execCtxdestroy_nextOk (m : MgmtRef) : NextOk (execCtxdestroy m s) := by
  refine runNamed_nextOk h _ _ _ fun e tag c => .ite .fault (.ite (reply_nextOk h _ _ _) (.ite .fault ?_))
  split
  · exact .next (memoryOk_killCtx (memoryOk_startMgmt h _) _)
  · exact reply_nextOk (memoryOk_destroy h _ _) _ _ _

theorem execCtxkill_nextOk (m : MgmtRef) : NextOk (execCtxkill m s) :=
  runNamed_nextOk h _ _ _ fun _ _ _ => reply_nextOk (memoryOk_killCtx h _) _ _ _

theorem execPreempt_nextOk (m : MgmtRef) : NextOk (execPreempt m s) :=
  runNamed_nextOk h _ _ _ fun _ _ _ => reply_nextOk (memoryOk_preemptCtx h _) _ _ _

theorem execCtxresume_nextOk (m : MgmtRef) : NextOk (execCtxresume m s) :=
  runNamed_nextOk h _ _ _ fun _ _ _ => reply_nextOk (memoryOk_modCtx h _ _) _ _ _

theorem execHandler_nextOk (m : MgmtRef) : NextOk (execHandler m s) := by
  refine runNamed_nextOk h _ _ _ fun e tag c => ?_
  extract_lets va
  refine .ite (reply_nextOk (memoryOk_modCtx h _ _) _ _ _) ?_
  have hdesc := describe_ok h c.lowDie tag va
  split
  · exact .next h
  · next e =>
    rw [e] at hdesc
    exact reply_nextOk hdesc _ _ _
  · next e =>
    rw [e] at hdesc
    exact reply_nextOk hdesc _ _ _
  · next t e =>
    rw [e] at hdesc
    have ht : t.memoryOk = true := hdesc
    exact .ite (reply_nextOk ht _ _ _) (reply_nextOk (memoryOk_modCtx ht _ _) _ _ _)

theorem execInval_nextOk (m : MgmtRef) : NextOk (execInval m s) :=
  runNamed_nextOk h _ _ _ fun _ _ _ => .ite (reply_nextOk h _ _ _)
    (.next (memoryOk_remapRefls (memoryOk_beginInval (memoryOk_dropDie (memoryOk_startMgmt h _) _ _) _) _))

theorem execResume_nextOk (m : MgmtRef) : NextOk (execResume m s) := by
  refine runMgmt_nextOk h _ _ fun e => .ite (reply_nextOk h _ _ _) (.ite ?_ ?_)
  · split
    · exact reply_nextOk h _ _ _
    · split
      · exact reply_nextOk h _ _ _
      · exact .ite .fault (reply_nextOk (memoryOk_foldl (fun _ _ ht => memoryOk_answerFault ht _ _) _ _ h) _ _ _)
  · split
    · exact reply_nextOk h _ _ _
    · exact reply_nextOk (memoryOk_answerFault h _ _) _ _ _

theorem execFaultring_nextOk (m : MgmtRef) : NextOk (execFaultring m s) :=
  runNamed_nextOk h _ _ _ fun _ _ _ => .ite (reply_nextOk h _ _ _) (reply_nextOk (memoryOk_readFaultRing h _ _ _) _ _ _)

theorem execPageattr_nextOk (m : MgmtRef) : NextOk (execPageattr m s) :=
  runMgmt_nextOk h _ _ fun _ => .ite (reply_nextOk h _ _ _)
    (reply_nextOk (memoryOk_foldl (fun _ _ ht => memoryOk_setBlock ht _ _) _ _ h) _ _ _)

theorem execErrlog_nextOk (m : MgmtRef) : NextOk (execErrlog m s) := by
  refine runMgmt_nextOk h _ _ fun e => ?_
  have hcopy := fun ctx dies => memoryOk_copyLogs h m.func (e.num 2) ctx dies rfl
  refine .ite (reply_nextOk (hcopy _ _) _ _ _) ?_
  split
  · exact reply_nextOk h _ _ _
  · split
    · exact reply_nextOk h _ _ _
    · exact .ite .fault (reply_nextOk (hcopy _ _) _ _ _)

theorem execLinkstat_nextOk (m : MgmtRef) : NextOk (execLinkstat m s) :=
  runMgmt_nextOk h _ _ fun _ => .ite (reply_nextOk h _ _ _) (reply_nextOk h _ _ _)

theorem execDiereset_nextOk (m : MgmtRef) : NextOk (execDiereset m s) :=
  runMgmt_nextOk h _ _ fun _ => .ite (reply_nextOk h _ _ _) (.ite (reply_nextOk h _ _ _)
    (.ite (reply_nextOk h _ _ _) (reply_nextOk (memoryOk_warmReset h _ _) _ _ _)))

theorem execPolicy_nextOk (m : MgmtRef) : NextOk (execPolicy m s) := by
  have hdie := fun f => reply_nextOk (memoryOk_modDie h m.die f) m
  refine runMgmt_nextOk h _ _ fun e => .ite (reply_nextOk h _ _ _) (.ite ?_
    (.ite (.ite (reply_nextOk h _ _ _) (hdie _ _ _)) (.ite (hdie _ _ _) (hdie _ _ _))))
  split
  · exact reply_nextOk h _ _ _
  · split
    · exact reply_nextOk h _ _ _
    · exact .ite .fault (reply_nextOk (memoryOk_ctxPolicy h _ _ _ _) _ _ _)

theorem execFwload_nextOk (m : MgmtRef) : NextOk (execFwload m s) :=
  runMgmt_nextOk h _ _ fun _ => .ite (reply_nextOk h _ _ _) (reply_nextOk (memoryOk_modDie h _ _) _ _ _)

theorem execAttest_nextOk (m : MgmtRef) : NextOk (execAttest m s) :=
  runMgmt_nextOk h _ _ fun _ => .ite (reply_nextOk h _ _ _) (reply_nextOk (memoryOk_mgmtWrite h _ _ _) _ _ _)

end

end Sys2Proof.Machine
end

section
/-! PROOFS. Every instruction, every action and every issue keeps the memories canonical, and so does a step (spec
95_what_each_step_holds.md). -/

namespace Sys2Proof.Machine

section
variable {s : State} (h : s.memoryOk = true)
include h

theorem IsRegisterWord.nextOk {r : Out} (hr : IsRegisterWord s r) (hm : KeepsMemory s r) : NextOk r := by
  intro t ht
  have field {α : Type} (f : State → α) : f t.memory = f s.memory := congrArg f (hm.of_next t ht)
  cases ho : s.cur with
  | none =>
    obtain ⟨body, rfl, -⟩ := hr
    simp [runWord, runBare, ho] at ht
  | some o =>
    cases hg : lookup o.gid s.groups with
    | none =>
      obtain ⟨body, rfl, -⟩ := hr
      simp [runWord, runBare, ho, hg] at ht
    | some g => exact memoryOk_same h (field State.mem) (field State.host) (hr.frame ho hg ht).1.spad

theorem exec_nextOk_of_intRule {i : Instr} (hi : intRule i ≠ none) : NextOk (exec i s) :=
  (intRule_isRegisterWord hi s).nextOk h (exec_keepsMemory_of_intRule s hi)

theorem exec_nextOk_of_floatRule {i : Instr} (hi : floatRule i ≠ none) : NextOk (exec i s) :=
  (floatRule_isRegisterWord hi s).nextOk h (exec_keepsMemory_of_floatRule s hi)

theorem exec_nextOk_of_pairRule {i : Instr} (hi : pairRule i ≠ none) : NextOk (exec i s) :=
  (pairRule_isRegisterWord hi s).nextOk h (exec_keepsMemory_of_pairRule s hi)

theorem exec_nextOk_of_predRule {i : Instr} (hi : predRule i ≠ none) : NextOk (exec i s) :=
  (predRule_isRegisterWord hi s).nextOk h (exec_keepsMemory_of_predRule s hi)

theorem exec_nextOk_of_crossRule {i : Instr} (hi : crossRule i ≠ none) : NextOk (exec i s) :=
  (crossRule_isRegisterWord hi s).nextOk h (exec_keepsMemory_of_crossRule s hi)

theorem execVote_nextOk (x : VoteOp) (pd pa : Pred) : NextOk (execVote x pd pa s) :=
  (execVote_isRegisterWord x pd pa s).nextOk h (execVote_keepsMemory s x pd pa)

/-- What an instruction leaves is canonical: a word with a register result by its frame, each other by its lemma. -/
theorem exec_nextOk (i : Instr) : NextOk (exec i s) := by
  cases i
  case iadd | isub | orn | imul | imulh | lea | imin | imax | and | or | xor | andn | shl | shr | sar | rotl | bfx | prmt |
      imad | bfi | popc | clz | ctz | brev | iabs | ineg | mov | shlImm | shrImm | sarImm | rotlImm | iaddImm | movi |
      movl | pget =>
    exact exec_nextOk_of_intRule h nofun
  case fadd | fsub | fmul | badd2 | bmul2 | fmin | fmax | bmin2 | bmax2 | fpack | ffma | ffms | bfma2 | fabs | fneg |
      fclass | frnd | frcp | frsq | fsqrt | fexp2 | flog2 | fsin | fcos | ftanh | f2i | i2f | fcvtBf16F32 |
      fcvtF32Bf16 | fcvtF16F32 | fcvtE4m3F32 | fcvtE5m2F32 =>
    exact exec_nextOk_of_floatRule h nofun
  case iaddc | imadw | iadd64 | isub64 | shl64 | shr64 | funpack => exact exec_nextOk_of_pairRule h nofun
  case isetp | fsetp | pand | por | pxor | pnot => exact exec_nextOk_of_predRule h nofun
  case voteBallot | redux | fredux | scan | matchLanes | shfl => exact exec_nextOk_of_crossRule h nofun
  case vote => exact execVote_nextOk h _ _ _
  case sel => exact execSel_nextOk h _
  case pset => exact execPset_nextOk h _
  case winImm => exact execWinImm_nextOk h _
  case winReg => exact execWinReg_nextOk h _
  case ptn => exact execPtn_nextOk h _ _
  case qbind => exact execQbind_nextOk h _ _
  case lds | ldx => exact loadWord_nextOk h _ _
  case sts | stx => exact storeWord_nextOk h _ _
  case ldt => exact execLdt_nextOk h _
  case stt => exact execStt_nextOk h _
  case ldr => exact execLdr_nextOk h _
  case str => exact execStr_nextOk h _
  case atoms | atomx => exact atomWord_nextOk h _ _
  case cass | casx => exact casWord_nextOk h _ _
  case copy | copyl | gath | scat | bgath | bscat | mcast | cfence | atomc | redc | fill | waitc | signal |
      txload | txrun | pref =>
    exact postWord_nextOk h _ _ _
  case mmaK16 | mmaK8 | mmas | mmaSig | mmasSig => exact mmaWord_nextOk h _ _ _
  case agive => exact execAgive_nextOk h _ _ _
  case atake => exact execAtake_nextOk h _ _
  case azero => exact execAzero_nextOk h _ _
  case mfmt => exact execMfmt_nextOk h _ _
  case msld => exact execMsld_nextOk h _
  case asts => exact execAsts_nextOk h _
  case astc => exact execAstc_nextOk h _
  case ainfo => exact execAinfo_nextOk h _ _
  case bra => exact execBra_nextOk h _
  case call => exact execCall_nextOk h _ _
  case nop => exact execNop_nextOk h
  case brx | ret => exact computedJump_nextOk h _
  case join ar => exact execJoin_nextOk h ar
  case exit => exact execExit_nextOk h
  case trap => exact execTrap_nextOk h _
  case sleep => exact execSleep_nextOk h _
  case ppt => exact execPpt_nextOk h _ _ _ _
  case fence => exact execFence_nextOk h _ _
  case tlwait => exact execTlwait_nextOk h _ _ _
  case bar => exact execBar_nextOk h _
  case barc => exact execBarc_nextOk h _
  case boinit => exact execBoinit_nextOk h _
  case boarr => exact execBoarr_nextOk h _ _
  case bowait => exact execBowait_nextOk h _
  case botest => exact execBotest_nextOk h _ _
  case rainit => exact execRainit_nextOk h _
  case rawait | rawaitFree => exact ringWait_nextOk h _ _
  case rarel => exact execRarel_nextOk h _
  case wpwait => exact execWpwait_nextOk h _ _
  case refl => exact execRefl_nextOk h _ _ _
  case unrefl => exact execUnrefl_nextOk h _
  case rseq => exact execRseq_nextOk h _ _
  case rack => exact execRack_nextOk h _
  case tkget => exact execTkget_nextOk h _ _
  case tkput => exact execTkput_nextOk h _
  case tkdone => exact execTkdone_nextOk h _
  case dcset => exact execDcset_nextOk h _
  case dcdec => exact execDcdec_nextOk h _
  case launch => exact execLaunch_nextOk h _
  case gcond => exact execGcond_nextOk h _ _
  case lend => exact execLend_nextOk h _
  case srd => exact execSrd_nextOk h _ _
  case swr sr o => exact execSwr_nextOk h sr o
  case tres => exact execTres_nextOk h _
  case tkill => exact execTkill_nextOk h _
  case pchkReg => exact execPchkReg_nextOk h _ _
  case pchkPred => exact execPchkPred_nextOk h _ _
  case pclrReg => exact execPclrReg_nextOk h _
  case pclrPred pd pa => exact execPclrPred_nextOk h pd pa
  case illegalPacket => exact execIllegalPacket_nextOk h _
  case resultWriteback => exact execResultWriteback_nextOk h _
  case activeSetEntry => exact execActiveSetEntry_nextOk h _ _
  case unpark => exact execUnpark_nextOk h _ _
  case eviction => exact execEviction_nextOk h _
  case groupRetire => exact execGroupRetire_nextOk h _
  case sleepWake => exact execSleepWake_nextOk h _ _
  case handlerGroupStart => exact execHandlerGroupStart_nextOk h _
  case groupSave => exact execGroupSave_nextOk h _
  case flushByContextTag => exact execFlushByContextTag_nextOk h _
  case flushAcknowledge => exact execFlushAcknowledge_nextOk h _
  case remoteAccessComplete => exact execRemoteAccessComplete_nextOk h _
  case queuePushLands => exact execQueuePushLands_nextOk h _
  case commandStart => exact execCommandStart_nextOk h _
  case elementLands => exact execElementLands_nextOk h _
  case mcastReceiverArrival => exact execMcastReceiverArrival_nextOk h _
  case stackAtomicApply => exact execStackAtomicApply_nextOk h _
  case txLaneStart => exact execTxLaneStart_nextOk h _
  case mmaApply => exact execMmaApply_nextOk h _
  case tileConversionEnd => exact execTileConversionEnd_nextOk h _ _
  case msldTransferEnd => exact execMsldTransferEnd_nextOk h _
  case pushCoalesceExpiry => exact execPushCoalesceExpiry_nextOk h _
  case pushApply => exact execPushApply_nextOk h _
  case reflLoadLands => exact execReflLoadLands_nextOk h _
  case unreflRetire => exact execUnreflRetire_nextOk h _
  case wqEnable => exact execWqEnable_nextOk h _
  case wqDisable => exact execWqDisable_nextOk h _
  case wqSuspend => exact execWqSuspend_nextOk h _
  case wqUnsuspend => exact execWqUnsuspend_nextOk h _
  case doorbell => exact execDoorbell_nextOk h _ _
  case registerWrite => exact execRegisterWrite_nextOk h _ _ _
  case wqEntryFetch => exact execWqEntryFetch_nextOk h _
  case nopEntry => exact execNopEntry_nextOk h _ _
  case kernelEntry => exact execKernelEntry_nextOk h _ _
  case graphEntry => exact execGraphEntry_nextOk h _ _
  case waitvEntry => exact execWaitvEntry_nextOk h _ _
  case writevEntry => exact execWritevEntry_nextOk h _ _
  case waitvReread => exact execWaitvReread_nextOk h _ _
  case hostRingWrite => exact execHostRingWrite_nextOk h _ _
  case hostRingDeadline => exact execHostRingDeadline_nextOk h _ _
  case clusterAdmission => exact execClusterAdmission_nextOk h _
  case graphNodeStart => exact execGraphNodeStart_nextOk h _ _
  case graphNodeComplete => exact execGraphNodeComplete_nextOk h _ _
  case teamEnd => exact execTeamEnd_nextOk h _
  case preemptionWatchdog => exact execPreemptionWatchdog_nextOk h _
  case contextSaveComplete => exact execContextSaveComplete_nextOk h _
  case contextRestoreComplete => exact execContextRestoreComplete_nextOk h _
  case contextTeardownDone => exact execContextTeardownDone_nextOk h _
  case granuleZeroingEnd => exact execGranuleZeroingEnd_nextOk h _
  case granulesReturn => exact execGranulesReturn_nextOk h _
  case pageWalkComplete => exact execPageWalkComplete_nextOk h _
  case invalComplete => exact execInvalComplete_nextOk h _
  case accessCountHalving => exact execAccessCountHalving_nextOk h _
  case priResponse => exact execPriResponse_nextOk h _ _ _
  case pageDrainComplete => exact execPageDrainComplete_nextOk h _
  case linkEnable => exact execLinkEnable_nextOk h _
  case linkTrainingDone => exact execLinkTrainingDone_nextOk h _ _
  case retrainDone => exact execRetrainDone_nextOk h _
  case linkDrained => exact execLinkDrained_nextOk h _
  case quiesceTimeout => exact execQuiesceTimeout_nextOk h _
  case faultringRetry => exact execFaultringRetry_nextOk h _
  case coldReset => exact execColdReset_nextOk h _
  case wipeComplete => exact execWipeComplete_nextOk h _
  case hostPortLinkDown => exact execHostPortLinkDown_nextOk h _ _
  case tokenBucketRefill => exact execTokenBucketRefill_nextOk h _ _
  case hostPortLinkUp => exact execHostPortLinkUp_nextOk h _
  case hostWrite => exact execHostWrite_nextOk h _ _ _
  case dependenceCounterDecrement => exact execDependenceCounterDecrement_nextOk h _ _
  case correctableEcc => exact execCorrectableEcc_nextOk h _
  case hbmSectorUncorrectable => exact execHbmSectorUncorrectable_nextOk h _
  case l2DataUncorrectable => exact execL2DataUncorrectable_nextOk h _ _
  case registerSpaceUncorrectable => exact execRegisterSpaceUncorrectable_nextOk h _
  case schedulingStateUncorrectable => exact execSchedulingStateUncorrectable_nextOk h _
  case instructionCacheError => exact execInstructionCacheError_nextOk h _
  case parkingRegionUncorrectable => exact execParkingRegionUncorrectable_nextOk h _ _
  case l2SliceTagError => exact execL2SliceTagError_nextOk h _ _
  case copyEngineInternalError => exact execCopyEngineInternalError_nextOk h _
  case managementControllerFault => exact execManagementControllerFault_nextOk h _
  case dieFatal => exact execDieFatal_nextOk h _
  case atsInvalidation => exact execAtsInvalidation_nextOk h _ _ _
  case linkTrainingFails => exact execLinkTrainingFails_nextOk h _
  case flitReceived => exact execFlitReceived_nextOk h _ _ _
  case replayRequest => exact execReplayRequest_nextOk h _ _
  case retrainFails => exact execRetrainFails_nextOk h _
  case ctxcreate => exact execCtxcreate_nextOk h _
  case ctxdestroy => exact execCtxdestroy_nextOk h _
  case ctxkill => exact execCtxkill_nextOk h _
  case preempt => exact execPreempt_nextOk h _
  case ctxresume => exact execCtxresume_nextOk h _
  case handler => exact execHandler_nextOk h _
  case inval => exact execInval_nextOk h _
  case resume => exact execResume_nextOk h _
  case faultring => exact execFaultring_nextOk h _
  case pageattr => exact execPageattr_nextOk h _
  case errlog => exact execErrlog_nextOk h _
  case linkstat => exact execLinkstat_nextOk h _
  case diereset => exact execDiereset_nextOk h _
  case policy => exact execPolicy_nextOk h _
  case fwload => exact execFwload_nextOk h _
  case attest => exact execAttest_nextOk h _
  case lifecycleTransition => exact execLifecycleTransition_nextOk h _ _
  case thermalThrottle => exact execThermalThrottle_nextOk h _ _
  case coolantLimit => exact execCoolantLimit_nextOk h _
  -- RECALL, whose constructor's name is a keyword of Mathlib
  next => exact execRecall_nextOk h _

theorem manage_nextOk (m : MgmtRef) (code : Nat) : NextOk (manage m code s) := by
  unfold manage
  split
  · exact execCtxcreate_nextOk h m
  · exact execCtxdestroy_nextOk h m
  · exact execCtxkill_nextOk h m
  · exact execPreempt_nextOk h m
  · exact execCtxresume_nextOk h m
  · exact execHandler_nextOk h m
  · exact execInval_nextOk h m
  · exact execResume_nextOk h m
  · exact execFaultring_nextOk h m
  · exact execPageattr_nextOk h m
  · exact execErrlog_nextOk h m
  · exact execLinkstat_nextOk h m
  · exact execDiereset_nextOk h m
  · exact execPolicy_nextOk h m
  · exact execFwload_nextOk h m
  · exact execAttest_nextOk h m
  · exact .fault

theorem act_nextOk (a : Action) : NextOk (act s a) := by
  cases a with
  | event i => exact exec_nextOk h i
  | command m code => exact manage_nextOk h m code
  | dropCopy n =>
    refine .next ?_
    split
    · exact memoryOk_dropWhere h _
    · exact h
  | peerReset l => exact .next (memoryOk_dropLink h l)
  | route d => exact .next (memoryOk_same h rfl rfl rfl)
  | drain n =>
    refine .next ?_
    have hdrain := memoryOk_drainStep h n rfl
    cases e : s.drainStep n with
    | none => exact h
    | some t =>
      rw [e] at hdrain
      exact hdrain
  | dropLeaf n => exact .next (memoryOk_same h rfl rfl rfl)
  | dropTable n => exact .next (memoryOk_same h rfl rfl rfl)

/-! Issue. -/

theorem execWord_nextOk (x : Issue × Instr) : NextOk (execWord s x) := exec_nextOk (by exact memoryOk_same h rfl rfl rfl) _

theorem execWords_nextOk (is : List (Issue × Instr)) {t : State} (ht : t.memoryOk = true) : NextOk (execWords s is t) := by
  induction is generalizing t with
  | nil => exact .next ht
  | cons x xs ih =>
    have hword := execWord_nextOk (memoryOk_ite (c := Instr.releasing x.2 = true) (memoryOk_performAll ht x.1.gid) ht) x
    unfold execWords
    split
    · next u e =>
      have hu := hword u e
      split
      · exact ih hu
      · exact .next (memoryOk_stallAt h _ _)
      · exact .next (memoryOk_trapAtIssue h _ _)
    · exact hword

theorem firstStop_nextOk {is : List (Issue × Instr)} {r : Out} (hr : firstStop s is = some r) : NextOk r := by
  induction is with
  | nil => cases hr
  | cons x xs ih =>
    have hword := execWord_nextOk h x
    unfold firstStop at hr
    split at hr
    · next t e =>
      split at hr
      · exact ih hr
      · exact Option.some.inj hr ▸ e ▸ hword
    · exact Option.some.inj hr ▸ hword

theorem issueUnit_nextOk (gid : Nat) (g : Group) : NextOk (s.issueUnit gid g) := by
  unfold State.issueUnit
  extract_lets +onlyGivenNames t s1
  have h1 : s1.memoryOk = true := memoryOk_setGroup h _ _
  refine .ite (.next (memoryOk_pastEnd h1 _ _)) ?_
  split
  · exact exec_nextOk (by exact memoryOk_same h1 rfl rfl rfl) _
  · extract_lets +onlyGivenNames is
    split
    · next e => exact firstStop_nextOk h1 e
    · have hwords := execWords_nextOk h1 is h1
      split
      · next e => exact .next (memoryOk_unitDone (hwords _ e) _ _ _)
      · exact hwords

theorem issueOn_nextOk (core : Nat) : NextOk (s.issueOn core) := by
  unfold State.issueOn
  split
  · exact .next (memoryOk_same h rfl rfl rfl)
  · next gid g c _ =>
    have hunit := issueUnit_nextOk h gid g
    split
    · next t0 e =>
      have ht := memoryOk_keepUse (hunit t0 e) g
      refine .next ?_
      split
      · exact memoryOk_same ht rfl rfl rfl
      · exact memoryOk_same ht rfl rfl rfl
    · exact hunit

omit h in
theorem NextOk.settled {r : Out} (hr : NextOk r) : NextOk (settled r) := by
  unfold Machine.settled
  split
  · exact .next (memoryOk_settle (hr _ rfl))
  · exact hr

theorem step_nextOk : NextOk (step s) := by
  unfold step
  split
  · exact (exec_nextOk (by exact memoryOk_same h rfl rfl rfl) _).settled
  · split
    · exact (exec_nextOk h _).settled
    · split
      · exact (act_nextOk (by exact memoryOk_same h rfl rfl rfl) _).settled
      · extract_lets +onlyGivenNames s1
        have h1 : s1.memoryOk = true := memoryOk_ite h (memoryOk_same h rfl rfl rfl)
        split
        · exact (issueOn_nextOk h1 _).settled
        · exact (NextOk.next (memoryOk_tickOn h1)).settled

end

/-- Settles O2: what each kind of step runs leaves the memories canonical. -/
theorem stepsKeepMemoryCanonical : Obligations.StepsKeepMemoryCanonical := by
  unfold Obligations.StepsKeepMemoryCanonical
  exact fun _ t h => step_nextOk h t

end Sys2Proof.Machine
end

section
/-! PROOFS. LAUNCH writes a queue entry and rings its doorbell (spec 14_queue.md R353, 19_host_side.md R391, R395). -/

namespace Sys2Proof.Machine

/-- The queue has room for the next entry, and no fault record of it is open. -/
def Queue.takesEntry (x : Queue) : Prop := x.outstanding < 2 ^ x.log2n ∧ x.fault = none

/-- What LAUNCH does once it has the queue's number of its context's package and the place of its 64 bytes. -/
def State.launchFrom (s : State) (v : View) (c : Ctx) (ql : Nat) (r : SpadRef) : Except Stop State := do
  let q := packageQueue c.mode c.dev ql
  let x := s.queue q
  if 8192 / c.mode ≤ ql || x.ctx != v.g.ctx || x.st == .disabled || x.st == .error then
    .error (.trap { kind := 10, tmask := v.en })
  else
    v.release
    if 2 ^ x.log2n ≤ x.outstanding || x.fault.isSome then .error (.stall (.launch q))
    else
      let w := s.writeBackDie v.g.ctx (dieOf v.g.core)
      match w.launchWrite q v.g.ctx (x.entryAddr x.wr) (w.spadWords r.core r.off 16) with
      | .hold | .suspend _ _ => .error (.stall (.launch q))
      | .fail t | .got _ _ t => .ok ((t.ring q (BitVec.ofNat 32 (x.wr + 1))).spend v.g.team)

/-- LAUNCH with clean operands, an address that passes its checks, and bytes that no loan holds. -/
theorem execLaunch_from {s : State} {o : Issue} {g : Group} (hi : Issues s o g) {x : OpM} (hx : x.ar.val < 28) {c : Ctx}
    (hc : lookup g.ctx s.ctxs = some c) {L : Nat} (hL : (View.mk o g).first = some L) {ql a : Word}
    (hql : g.reg L x.d.val = PWord.ok ql) (ha : (View.mk o g).source (some (x.ap.val, x.ar.val)) L = PWord.ok a)
    (hcheck : spadCheck s ⟨o, g⟩ true 64 64 (PWord.ok a) = none)
    (hheld : s.heldBack ⟨o, g⟩ (s.ref ⟨o, g⟩ 64 a) 64 = none) :
    execLaunch x s = .next (s.wordDone o (s.launchFrom ⟨o, g⟩ c ql.toNat (s.ref ⟨o, g⟩ 64 a))) := by
  have hsingle : (View.mk o g).single ((View.mk o g).lanesReg x.d.val) = .ok (some (L, ql)) := by
    rw [View.single_clean hL (show (g.reg L x.d.val).psn = false by rw [hql]; rfl)]
    exact congrArg (fun w : PWord => Except.ok (some (L, w.val))) hql
  have hpass : addressTrap [L] (fun L => spadCheck s ⟨o, g⟩ true 64 64 ((View.mk o g).source (some (x.ap.val, x.ar.val)) L))
      ((View.mk o g).source (some (x.ap.val, x.ar.val))) = .ok () :=
    addressTrap_pass (fun J hJ => by rw [List.mem_singleton.mp hJ, ha, hcheck]) _
  have hval : ((View.mk o g).source (some (x.ap.val, x.ar.val)) L).val = a := congrArg PWord.val ha
  rw [execLaunch, runWord_issues hi]
  simp only [operand_source s _ _ hx, hsingle, hpass, hval, granulesFree_one hheld, hc, bind, Except.bind, Option.getD_some]
  rfl

section
variable {s : State} {v : View} {c : Ctx} {ql q : Nat} (hq : packageQueue c.mode c.dev ql = q) (r : SpadRef)
include hq

theorem State.launchFrom_refuses (h : ¬ (ql < 8192 / c.mode ∧ (s.queue q).ctx = v.g.ctx ∧ (s.queue q).st ≠ .disabled ∧
    (s.queue q).st ≠ .error)) : s.launchFrom v c ql r = .error (.trap { kind := 10, tmask := v.en }) := by
  have hbad : (8192 / c.mode ≤ ql || (s.queue q).ctx != v.g.ctx || (s.queue q).st == .disabled ||
      (s.queue q).st == .error) = true := by
    by_contra hno
    simp only [Bool.or_eq_true, decide_eq_true_eq, bne_iff_ne, ne_eq, beq_iff_eq, not_or, Nat.not_le, not_not] at hno
    exact h ⟨hno.1.1.1, hno.1.1.2, hno.1.2, hno.2⟩
  simp only [State.launchFrom, hq, hbad, if_true]

section
variable (hgood : ql < 8192 / c.mode ∧ (s.queue q).ctx = v.g.ctx ∧ (s.queue q).st ≠ .disabled ∧ (s.queue q).st ≠ .error)
  (hrel : v.releases)
include hgood hrel

theorem State.launchFrom_good : s.launchFrom v c ql r =
    if 2 ^ (s.queue q).log2n ≤ (s.queue q).outstanding || (s.queue q).fault.isSome then .error (.stall (.launch q))
    else
      let w := s.writeBackDie v.g.ctx (dieOf v.g.core)
      match w.launchWrite q v.g.ctx ((s.queue q).entryAddr (s.queue q).wr) (w.spadWords r.core r.off 16) with
      | .hold | .suspend _ _ => .error (.stall (.launch q))
      | .fail t | .got _ _ t => .ok ((t.ring q (BitVec.ofNat 32 ((s.queue q).wr + 1))).spend v.g.team) := by
  obtain ⟨hnum, hctx, hdisabled, herror⟩ := hgood
  have hbad : (8192 / c.mode ≤ ql || (s.queue q).ctx != v.g.ctx || (s.queue q).st == .disabled ||
      (s.queue q).st == .error) = false := by simp [hnum, hctx, hdisabled, herror]
  simp only [State.launchFrom, hq, hbad, Bool.false_eq_true, if_false, View.release_ok hrel, bind, Except.bind]

theorem State.launchFrom_waits (h : ¬ (s.queue q).takesEntry) : s.launchFrom v c ql r = .error (.stall (.launch q)) := by
  rw [launchFrom_good hq r hgood hrel, if_pos]
  by_contra hno
  simp only [Bool.or_eq_true, decide_eq_true_eq, not_or, Nat.not_le, Option.not_isSome_iff_eq_none] at hno
  exact h hno

theorem State.launchFrom_writes (h : (s.queue q).takesEntry) {t : State}
    (ht : let w := s.writeBackDie v.g.ctx (dieOf v.g.core)
      let y := w.launchWrite q v.g.ctx ((s.queue q).entryAddr (s.queue q).wr) (w.spadWords r.core r.off 16)
      (∃ b p, y = .got b p t) ∨ y = .fail t) :
    s.launchFrom v c ql r = .ok ((t.ring q (BitVec.ofNat 32 ((s.queue q).wr + 1))).spend v.g.team) := by
  obtain ⟨hroom, hfault⟩ := h
  rw [launchFrom_good hq r hgood hrel, if_neg (by simp [hroom, hfault])]
  obtain ⟨b, p, hgot⟩ | hfail := ht
  · simp only [hgot]
  · simp only [hfail]

end
end

/-! A ring in host memory. -/

section
variable {s : State} {q : Nat} (hspace : (s.queue q).space = false) (ctx a : Nat) (ws : List PWord)
include hspace

theorem launchWrite_host (h : s.portReach (s.homeDie q) (s.funcOf ctx) a = .ok) : s.launchWrite q ctx a ws =
    .got [] false ((ws.mapIdx fun i w => (a + 4 * i, w)).foldl (fun t x => t.hostWrite x.1
      ((List.range 4).map fun j => byteOf x.2.val.toNat j) x.2.psn) s) := by
  simp only [State.launchWrite, hspace, h, Bool.false_eq_true, if_false]

theorem launchWrite_down (h : s.portReach (s.homeDie q) (s.funcOf ctx) a = .down) :
    s.launchWrite q ctx a ws = .got [] false s := by
  simp only [State.launchWrite, hspace, h, Bool.false_eq_true, if_false]

end

/-- Settles O40, by the queue that a LAUNCH names: not its context's, full, or with room. -/
theorem launchWritesQueueEntry : Obligations.LaunchWritesQueueEntry := by
  unfold Obligations.LaunchWritesQueueEntry
  refine ⟨fun x ql a c hx => ⟨?writes, ?stops⟩, fun s q ctx a ws hspace =>
    ⟨launchWrite_host hspace ctx a ws, launchWrite_down hspace ctx a ws⟩⟩
  case writes =>
    rintro t s o g hi ⟨⟨hc, ⟨L, hL, hql, ha⟩, hcheck, hheld⟩, hgood, hrel, hroom, hfault, ht⟩
    refine (execLaunch_from hi hx hc hL hql ha hcheck hheld).trans ?_
    rw [State.launchFrom_writes rfl _ hgood hrel ⟨hroom, hfault⟩ ht]
    rfl
  case stops =>
    rintro s o g hi ⟨hc, ⟨L, hL, hql, ha⟩, hcheck, hheld⟩
    have hexec := execLaunch_from hi hx hc hL hql ha hcheck hheld
    refine ⟨fun hbad => ?_, fun hgood hrel hfull => ?_⟩
    · exact hexec.trans (by rw [State.launchFrom_refuses (v := ⟨o, g⟩) rfl _ hbad]; rfl)
    · refine hexec.trans ?_
      rw [State.launchFrom_waits (v := ⟨o, g⟩) rfl _ hgood hrel fun hroom => ?_]
      · rfl
      · exact hfull.elim (Nat.not_le.mpr hroom.1) (absurd hroom.2)

end Sys2Proof.Machine
end

section
/-! PROOFS. Links train, replay, retrain and quiesce; buckets refill (spec 20_link.md R439 to R443, R446, R447). -/

namespace Sys2Proof.Machine

/-! Events of a link in the states of Table 20-4. -/

section
variable {s : State} {l : Nat} (hl : s.isLink l = true)
include hl

theorem linkEvent_changes {changes : Link → Bool} (h : changes (s.link l) = true) (f : Link → State) :
    linkEvent s l changes f = .next (f (s.link l)) := by
  simp [linkEvent, hl, h]

theorem linkEvent_keeps {changes : Link → Bool} (h : changes (s.link l) = false) (f : Link → State) :
    linkEvent s l changes f = .next s := by
  simp [linkEvent, hl, h]

theorem linkFlit_carries (h : (s.link l).st = .up ∨ (s.link l).st = .quiescing) (f : Link → State) :
    linkFlit s l f = .next (f (s.link l)) := by
  simp [linkFlit, hl, h]

end

/-! Attempts that fail (R442). -/

section
variable (s : State) (l : Nat) {x : Link}

theorem attemptFails_again (h : x.fails < 2) :
    s.attemptFails l x = s.setLink l { x with fails := x.fails + 1, since := s.now } := if_neg (Nat.not_le.mpr h)

theorem attemptFails_third (h : 2 ≤ x.fails) : s.attemptFails l x = s.failLink l x := if_pos h

theorem settleLink_over (hst : (s.link l).st = .training ∨ (s.link l).st = .retraining)
    (h : (s.link l).since + 2 ^ 17 ≤ s.now) : s.settleLink l = s.attemptFails l (s.link l) := by
  rw [State.settleLink, if_pos]
  simpa [State.attemptOver, hst] using h

end

/-! Training and retraining. -/

section
variable {s : State} {l : Nat}

theorem execLinkTrainingDone_trains (hl : s.isLink l = true) (hst : (s.link l).st = .training) {lanes : Nat}
    (hdies : ∀ d ∈ linkDies l, (s.die d).phase = .ready ∨ (s.die d).phase = .training) :
    execLinkTrainingDone l lanes s = .next ((s.setLink l { s.link l with
      st := .up, fails := 0, gap := false, lanes := lanesOfLink l lanes }).sendWaiting l) := by
  have hready : ((linkDies l).all fun d => (s.die d).phase == .ready || (s.die d).phase == .training) = true := by
    simpa using hdies
  simp only [execLinkTrainingDone, hready, Bool.not_true, Bool.and_false, Bool.false_eq_true, if_false]
  exact linkEvent_changes hl (by simp [hst]) _

theorem execLinkTrainingDone_keeps (hl : s.isLink l = true) (hst : (s.link l).st ≠ .training) (lanes : Nat) :
    execLinkTrainingDone l lanes s = .next s := by
  rw [execLinkTrainingDone, if_neg (by simp [hst])]
  exact linkEvent_keeps hl (by simp [hst]) _

theorem execLinkEnable_trains (hl : s.isLink l = true) (hst : (s.link l).st = .down ∨ (s.link l).st = .failed) :
    execLinkEnable l s = .next (s.setLink l { s.link l with st := .training, fails := 0, since := s.now }) :=
  linkEvent_changes hl (by simpa using hst) _

theorem execLinkEnable_keeps (hl : s.isLink l = true) (hdown : (s.link l).st ≠ .down) (hfailed : (s.link l).st ≠ .failed) :
    execLinkEnable l s = .next s := linkEvent_keeps hl (by simp [hdown, hfailed]) _

theorem execLinkTrainingFails_fails (hl : s.isLink l = true) (hst : (s.link l).st = .training) :
    execLinkTrainingFails l s = .next (s.attemptFails l (s.link l)) := linkEvent_changes hl (by simp [hst]) _

theorem execLinkTrainingFails_keeps (hl : s.isLink l = true) (hst : (s.link l).st ≠ .training) :
    execLinkTrainingFails l s = .next s := linkEvent_keeps hl (by simp [hst]) _

theorem execRetrainDone_ends (hl : s.isLink l = true) (hst : (s.link l).st = .retraining) {y : Link}
    (hy : y = { s.link l with
      st := if (s.link l).recorded then .quiescing else .up, recorded := false, fails := 0, since := s.now }) :
    execRetrainDone l s = .next (((s.setLink l y).replayAll l y).sendWaiting l) :=
  hy ▸ linkEvent_changes hl (by simp [hst]) _

theorem execRetrainDone_keeps (hl : s.isLink l = true) (hst : (s.link l).st ≠ .retraining) :
    execRetrainDone l s = .next s := linkEvent_keeps hl (by simp [hst]) _

theorem execRetrainFails_fails (hl : s.isLink l = true) (hst : (s.link l).st = .retraining) :
    execRetrainFails l s = .next (s.attemptFails l (s.link l)) := linkEvent_changes hl (by simp [hst]) _

theorem execRetrainFails_keeps (hl : s.isLink l = true) (hst : (s.link l).st ≠ .retraining) :
    execRetrainFails l s = .next s := linkEvent_keeps hl (by simp [hst]) _

theorem execLinkDrained_drains (hl : s.isLink l = true) (hst : (s.link l).st = .quiescing) (hreplay : (s.link l).replay = [])
    (howed : s.owed l = false) :
    execLinkDrained l s = .next (s.setLink l { s.link l with st := .quiesced, since := s.now }) := by
  rw [execLinkDrained, if_neg (by simp [State.drained, hst, hreplay, howed])]
  exact linkEvent_changes hl (by simp [hst]) _

theorem execLinkDrained_keeps (hl : s.isLink l = true) (hst : (s.link l).st ≠ .quiescing) :
    execLinkDrained l s = .next s := by
  rw [execLinkDrained, if_neg (by simp [hst])]
  exact linkEvent_keeps hl (by simp [hst]) _

theorem execQuiesceTimeout_retrains (hl : s.isLink l = true) (hst : (s.link l).st = .quiescing)
    (h : (s.link l).since + 8192 ≤ s.now) : execQuiesceTimeout l s = .next (s.persistent l (s.link l) true) := by
  simp [execQuiesceTimeout, hl, hst, h]

end

/-! Flits. -/

theorem isEdge_iff {l : Nat} : isEdge l = true ↔ l < 4 := decide_eq_true_iff

section
variable (s : State) (l : Nat) {x : Link}

/-- The link after a damaged flit: the flit is counted, and a replay that was under way is refused. -/
def Link.damaged (x : Link) : Link := { x with crc := x.crc + 1, gap := true, refused := if x.gap then x.refused + 1 else 0 }

theorem refuseDamaged_counts (h : x.damaged.refused < 8) : s.refuseDamaged l x =
    ({ s.setLink l x.damaged with handed := s.handed ++ [.replay l x.rx] } : State).logLink l 11 :=
  if_neg (Nat.not_le.mpr h)

theorem refuseDamaged_retrains (h : 8 ≤ x.damaged.refused) : s.refuseDamaged l x =
    (({ s.setLink l x.damaged with handed := s.handed ++ [.replay l x.rx] } : State).logLink l 11).persistent l
      { x.damaged with refused := 0 } (x.st == .quiescing) := if_pos h

/-- The link after a good flit of an edge. -/
def Link.passed (x : Link) : Link := { x with rx := (x.rx + 1) % 4096, gap := false, refused := 0, replay := [] }

theorem edgeFlit_next (h : x.gap = false) : s.edgeFlit l x = s.setLink l x.passed := by
  simp only [State.edgeFlit, h, Bool.false_and, Bool.false_eq_true, if_false]
  rfl

theorem edgeFlit_gap (h : x.gap = true) : s.edgeFlit l x = { s with free := s.free + 1 } ∨
    s.edgeFlit l x = ({ s with free := s.free + 1 } : State).setLink l x.passed := by
  simp only [State.edgeFlit, h, Bool.true_and, if_true]
  split
  · exact .inl rfl
  · exact .inr rfl

/-- How far a flit is ahead of the one that is expected. -/
def Link.ahead (x : Link) (flit : List Byte) : Nat := (flitSeq flit + 4096 - x.rx) % 4096

variable {flit : List Byte}

theorem portFlit_next (h : x.ahead flit = 0) : s.portFlit l x flit =
    ((s.setLink l { x.ack (flitAck flit) with rx := (x.rx + 1) % 4096, gap := false, refused := 0 }).sendWaiting l).routeFlit
      ((linkDies l).headD 2) flit :=
  if_pos (beq_iff_eq.mpr h)

theorem portFlit_early (h0 : 0 < x.ahead flit) (h : x.ahead flit < 2048) (hgap : x.gap = false) : s.portFlit l x flit =
    { (s.setLink l { x.ack (flitAck flit) with gap := true }).sendWaiting l with
      handed := ((s.setLink l (x.ack (flitAck flit))).sendWaiting l).handed ++ [.replay l x.rx] } :=
  (if_neg (by simpa [Link.ahead] using h0.ne')).trans (if_pos (by simpa [hgap, Link.ahead] using h))

theorem portFlit_dropped (h : 2048 ≤ x.ahead flit ∨ 0 < x.ahead flit ∧ x.gap = true) :
    s.portFlit l x flit = (s.setLink l (x.ack (flitAck flit))).sendWaiting l := by
  have h0 : x.ahead flit ≠ 0 := h.elim (fun h => by omega) fun h => h.1.ne'
  have hlate : ¬ (x.ahead flit < 2048 ∧ x.gap = false) := by
    rintro ⟨hlt, hgap⟩
    exact h.elim (Nat.not_le.mpr hlt) fun h => Bool.false_ne_true (hgap.symm.trans h.2)
  exact (if_neg (by simpa [Link.ahead] using h0)).trans (if_neg (by simpa [Link.ahead] using hlate))

end

section
variable {s : State} {l : Nat} (hl : s.isLink l = true) (hst : (s.link l).st = .up ∨ (s.link l).st = .quiescing)
  {good : Bool} {flit : List Byte}
include hl hst

theorem execFlitReceived_damaged (h : l < 4 ∧ good = false ∨ 4 ≤ l ∧ flitBad flit = true) :
    execFlitReceived l good flit s = .next (s.refuseDamaged l (s.link l)) := by
  refine (linkFlit_carries hl hst _).trans ?_
  obtain ⟨hedge, hgood⟩ | ⟨hport, hbad⟩ := h
  · simp [isEdge, hedge, hgood]
  · simp [isEdge, Nat.not_lt.mpr hport, hbad]

theorem execFlitReceived_edge (hedge : l < 4) (h : ¬ (l < 4 ∧ good = false ∨ 4 ≤ l ∧ flitBad flit = true)) :
    execFlitReceived l good flit s = .next (s.edgeFlit l (s.link l)) := by
  refine (linkFlit_carries hl hst _).trans ?_
  have hgood : good = true := by simpa [hedge, Nat.not_le.mpr hedge] using h
  simp [isEdge, hedge, hgood]

theorem execFlitReceived_port (hport : 4 ≤ l) (h : ¬ (l < 4 ∧ good = false ∨ 4 ≤ l ∧ flitBad flit = true)) :
    execFlitReceived l good flit s = .next (s.portFlit l (s.link l) flit) := by
  refine (linkFlit_carries hl hst _).trans ?_
  have hgood : flitBad flit = false := by simpa [hport, Nat.not_lt.mpr hport] using h
  simp [isEdge, Nat.not_lt.mpr hport, hgood]

end

/-! Replays (R441). -/

/-- The flits that a request to replay asks for, each sent once more. -/
def Link.again (x : Link) (l seq : Nat) : List Flit :=
  (if l < 4 then [(x.replay.find? fun f => f.seq == seq).getD { seq := seq, bytes := [] }]
    else (x.ack ((seq + 4095) % 4096)).replay).map fun f => { f with replays := f.replays + 1 }

theorem unacked_again (x : Link) (l seq : Nat) :
    ((x.unacked (isEdge l) seq).map fun f => ({ f with replays := f.replays + 1 } : Flit)) = x.again l seq := by
  unfold Link.unacked Link.again
  by_cases hedge : l < 4
  · rw [if_pos (isEdge_iff.mpr hedge), if_pos hedge]
    cases x.replay.find? fun f => f.seq == seq <;> rfl
  · rw [if_neg (isEdge_iff.not.mpr hedge), if_neg hedge]

section
variable {s : State} {l : Nat} (hl : s.isLink l = true) (hst : (s.link l).st = .up ∨ (s.link l).st = .quiescing) {seq : Nat}
include hl hst

theorem execReplayRequest_sends (h : ∀ f ∈ (s.link l).again l seq, f.replays ≤ 8) :
    execReplayRequest l seq s = .next { s.setLink l { s.link l with replay := (s.link l).again l seq } with
      handed := s.handed ++ if l < 4 then [] else ((s.link l).again l seq).map fun f => .out l f.bytes } := by
  refine (linkFlit_carries hl hst _).trans ?_
  simp only [unacked_again]
  rw [if_neg (by simpa using h)]
  simp only [isEdge, decide_eq_true_eq]

theorem execReplayRequest_retrains (h : ∃ f ∈ (s.link l).again l seq, 8 < f.replays) : execReplayRequest l seq s =
    .next (s.persistent l { s.link l with replay := (s.link l).again l seq } ((s.link l).st == .quiescing)) := by
  refine (linkFlit_carries hl hst _).trans ?_
  simp only [unacked_again]
  rw [if_pos (by simpa using h)]

end

/-! Acknowledgements. -/

theorem Link.ack_none {x : Link} {a : Nat} (h : ∀ f ∈ x.replay, f.seq ≠ a) : x.ack a = x := by
  have hnone : (x.replay.findIdx? fun f => f.seq == a) = none := List.findIdx?_eq_none_iff.mpr fun f hf => by simpa using h f hf
  simp only [Link.ack, hnone]

theorem Link.ack_drops {x : Link} {a : Nat} {before after : List Flit} {f : Flit} (hx : x.replay = before ++ f :: after)
    (hf : f.seq = a) (hbefore : ∀ g ∈ before, g.seq ≠ a) : x.ack a = { x with replay := after } := by
  have hno : (before.findIdx? fun f => f.seq == a) = none :=
    List.findIdx?_eq_none_iff.mpr fun g hg => by simpa using hbefore g hg
  have hsome : (x.replay.findIdx? fun f => f.seq == a) = some before.length := by
    simp [hx, List.findIdx?_append, hno, List.findIdx?_cons, hf]
  have hdrop : x.replay.drop (before.length + 1) = after := by simp [hx]
  simp only [Link.ack, hsome, hdrop]

/-! Buckets (R447). -/

theorem execTokenBucketRefill_refills {s : State} {ctx die : Nat} (hat : (s.bucket ctx die).at_ < s.now)
    (h : (s.bucket ctx die).level < (s.bucket ctx die).size ∨ (s.bucket ctx die).inj ≠ 0) :
    execTokenBucketRefill ctx die s =
      .next { s with buckets := insertAt (ctx * 4 + die) ((s.bucket ctx die).refill s.now) s.buckets } :=
  if_pos (by simpa [Bucket.stale, hat] using h)

theorem Bucket.refill_late {b : Bucket} {now : Nat} (h : b.at_ < now) : b.refill now =
    { b with
      level := min (b.size : Int) (max (-2147483648) (min (b.size : Int) (b.level + b.rate - b.inj)) +
        b.rate * ((now - b.at_ - 1 : Nat) : Int))
      inj := 0, at_ := now } := if_neg (Nat.not_le.mpr h)

/-- Settles O57: each event by the link's state, each flit by what it is found to be. -/
theorem linkEvents : Obligations.LinkEvents := by
  unfold Obligations.LinkEvents
  refine ⟨fun s l hl => ⟨?enable, ?enableKeeps, ?train, ?trainKeeps, fun hst => ⟨?flit, fun seq => ?replay⟩, ?retrain,
    ?retrainKeeps, ?late, ?quiesce, ?quiesceKeeps⟩, fun x a => ⟨Link.ack_none, fun _ _ _ => Link.ack_drops⟩,
    fun s ctx die hat h => ?bucket⟩
  case enable => exact execLinkEnable_trains hl
  case enableKeeps => exact execLinkEnable_keeps hl
  case train =>
    intro hst
    refine ⟨fun lanes hdies => ?_, _, execLinkTrainingFails_fails hl hst, attemptFails_again s l, attemptFails_third s l⟩
    refine (execLinkTrainingDone_trains hl hst hdies).trans ?_
    simp only [lanesOfLink, isEdge, decide_eq_true_eq]
  case trainKeeps =>
    exact fun hst => ⟨execLinkTrainingDone_keeps hl hst, execLinkTrainingFails_keeps hl hst⟩
  case flit =>
    intro good flit
    refine ⟨fun hbad => ⟨fun h => ?_, fun h => ?_⟩, fun hedge hgood => ⟨fun hgap => ?_, fun hgap => ?_⟩, fun hport hgood =>
      ⟨fun h => ?_, fun h0 h hgap => ?_, fun h => ?_⟩⟩
    · exact (execFlitReceived_damaged hl hst hbad).trans (congrArg _ (refuseDamaged_counts s l h))
    · exact (execFlitReceived_damaged hl hst hbad).trans (congrArg _ (refuseDamaged_retrains s l h))
    · exact (execFlitReceived_edge hl hst hedge hgood).trans (congrArg _ (edgeFlit_next s l hgap))
    · have hgot := execFlitReceived_edge hl hst hedge hgood
      exact (edgeFlit_gap s l hgap).imp (fun h => hgot.trans (congrArg _ h)) fun h => hgot.trans (congrArg _ h)
    · exact (execFlitReceived_port hl hst hport hgood).trans (congrArg _ (portFlit_next s l h))
    · exact (execFlitReceived_port hl hst hport hgood).trans (congrArg _ (portFlit_early s l h0 h hgap))
    · exact (execFlitReceived_port hl hst hport hgood).trans (congrArg _ (portFlit_dropped s l h))
  case replay => exact ⟨execReplayRequest_sends hl hst, execReplayRequest_retrains hl hst⟩
  case retrain =>
    intro hst
    exact ⟨fun _ => execRetrainDone_ends hl hst, _, execRetrainFails_fails hl hst, attemptFails_again s l,
      attemptFails_third s l⟩
  case retrainKeeps =>
    exact fun hst => ⟨execRetrainDone_keeps hl hst, execRetrainFails_keeps hl hst⟩
  case late =>
    intro hst hsince
    have hsettle := settleLink_over s l hst hsince
    exact ⟨fun h => hsettle.trans (attemptFails_again s l h), fun h => hsettle.trans (attemptFails_third s l h)⟩
  case quiesce => exact fun hst => ⟨execLinkDrained_drains hl hst, execQuiesceTimeout_retrains hl hst⟩
  case quiesceKeeps => exact execLinkDrained_keeps hl
  case bucket => exact (execTokenBucketRefill_refills hat h).trans (by rw [Bucket.refill_late hat])

end Sys2Proof.Machine
end

section
/-! PROOFS. Queue entries are fetched and start; WAITV rereads; host rings are written (spec 14_queue.md R329 to R331, R342 to
R346, 15_kernel.md R354). -/

namespace Sys2Proof.Machine

/-! Well-formed entries (R330). -/

theorem toNat_eq_zero {w : Word} : w.toNat = 0 ↔ w = 0 := by
  rw [← BitVec.toNat_inj]
  rfl

theorem anyWord_eq_false {e : QEntry} {ks : List Nat} :
    (ks.any fun i => (e.words.getD i 0).toNat != 0) = false ↔ ∀ i ∈ ks, e.words.getD i 0 = 0 := by
  simp only [List.any_eq_false, bne_iff_ne, ne_eq, not_not, toNat_eq_zero]

/-- The reserved words of a type from a word on. -/
theorem forall_mem_range' {m n : Nat} {p : Nat → Prop} : (∀ i ∈ List.range' m n, p i) ↔ ∀ i, m ≤ i → i < m + n → p i := by
  simp only [List.mem_range'_1, and_imp]

theorem entryBad_eq_false (e : QEntry) : entryBad e = false ↔ e.type ≤ 4 ∧ (e.words.getD 0 0).toNat % 2 ^ 23 = 0 ∧
    e.words.getD 1 0 = 0 ∧ (∀ i, 10 ≤ i → i < 16 → e.words.getD i 0 = 0) ∧
    (∀ i ∈ reservedWords e.type, e.words.getD i 0 = 0) ∧ (e.words.getD 2 0).toNat % entryAlign e.type = 0 := by
  have htail : ((List.range 6).any fun i => (e.words.getD (10 + i) 0).toNat != 0) = false ↔
      ∀ i, 10 ≤ i → i < 16 → e.words.getD i 0 = 0 := by
    rw [← forall_mem_range' (m := 10) (n := 6), ← anyWord_eq_false]
    rfl
  simp only [entryBad, Bool.or_eq_false_iff, htail, anyWord_eq_false, decide_eq_false_iff_not, bne_eq_false_iff_eq,
    toNat_eq_zero, and_assoc, Nat.not_le, Nat.lt_succ_iff]
  rfl

/-- What a type asks of its reserved words, and of the address that it names. -/
theorem rereachedbyType {p : Nat → Prop} {a ty : Nat} (h : ty ≤ 4) :
    (∀ i ∈ reservedWords ty, p i) ∧ a % entryAlign ty = 0 ↔
      (ty = 0 → ∀ i, 2 ≤ i → i < 10 → p i) ∧ (ty = 1 → p 9 ∧ a % 128 = 0) ∧
      (ty = 2 → (∀ i, 4 ≤ i → i < 10 → p i) ∧ a % 64 = 0) ∧
      (ty = 3 ∨ ty = 4 → (∀ i, 6 ≤ i → i < 10 → p i) ∧ a % 8 = 0) := by
  have h0 : (∀ i ∈ reservedWords 0, p i) ↔ _ := forall_mem_range' (m := 2) (n := 8)
  have h1 : (∀ i ∈ reservedWords 1, p i) ↔ p 9 := List.forall_mem_singleton
  have h2 : (∀ i ∈ reservedWords 2, p i) ↔ _ := forall_mem_range' (m := 4) (n := 6)
  have h3 : (∀ i ∈ reservedWords 3, p i) ↔ _ := forall_mem_range' (m := 6) (n := 4)
  have h4 : (∀ i ∈ reservedWords 4, p i) ↔ _ := forall_mem_range' (m := 6) (n := 4)
  match ty, h with
  | 0, _ => simp [h0, entryAlign, Nat.mod_one]
  | 1, _ => simp [h1, entryAlign]
  | 2, _ => simp [h2, entryAlign]
  | 3, _ => simp [h3, entryAlign]
  | 4, _ => simp [h4, entryAlign]

/-! Fetches (R329, R330). -/

section
variable {s : State} {q : Nat} (hq : isMgmt q = false) (hmay : s.mayFetch q = true)

/-- Where a dispatcher's queue has its ring. -/
def State.fetchEntry (s : State) (q : Nat) : Fetched :=
  let x := s.queue q
  if x.space then s.fetchDev (s.homeDie q) x.ctx (x.entryAddr x.rd) 64
  else s.fetchHost (s.homeDie q) (s.queueFunc q) (x.entryAddr x.rd) 64

/-- The queue with its next entry fetched. -/
def Queue.fetched (x : Queue) : Queue := { x with rd := (x.rd + 1) % 2 ^ 32 }

/-- A page of a fetch suspends: the queue waits for its fault record. -/
def State.fetchFaults (s t : State) (q va r : Nat) : State :=
  let f := t.queueFault q (s.queue q).ctx va false r
  f.2.setQueue q { s.queue q with fault := some f.1 }

/-- A fetched entry takes its place in the queue. -/
def State.putEntry (s t u : State) (q : Nat) (e : QEntry) : State :=
  ({ u with nextId := t.nextId + 1 } : State).setQueue q
    { (s.queue q).fetched with entries := insertAt (s.queue q).rd e (s.queue q).entries }

include hq hmay

theorem execWqEntryFetch_fails {t : State} (h : s.fetchEntry q = .fail t) :
    execWqEntryFetch q s = .next (t.setQueue q ((s.queue q).fetched.fail 5 (s.queue q).rd)) := by
  simp only [State.fetchEntry] at h
  simp only [execWqEntryFetch, hmay, hq, h, Bool.not_true, Bool.false_eq_true, if_false]
  rfl

theorem execWqEntryFetch_suspends {r : Nat} {t : State} (h : s.fetchEntry q = .suspend r t) :
    execWqEntryFetch q s = .next (s.fetchFaults t q ((s.queue q).entryAddr (s.queue q).rd) r) := by
  simp only [State.fetchEntry] at h
  simp only [execWqEntryFetch, hmay, hq, h, Bool.not_true, Bool.false_eq_true, if_false]
  rfl

section
variable {bs : List Byte} {psn : Bool} {t : State} (h : s.fetchEntry q = .got bs psn t) {e : QEntry}
  (he : ({ words := wordsOfBytes bs, seq := t.nextId } : QEntry) = e)
include h

theorem execWqEntryFetch_poisoned (hpsn : psn = true) :
    execWqEntryFetch q s = .next (t.setQueue q ((s.queue q).fetched.fail 5 (s.queue q).rd)) := by
  simp only [State.fetchEntry] at h
  simp only [execWqEntryFetch, hmay, hq, h, hpsn, Bool.not_true, Bool.false_eq_true, if_false, if_true]
  rfl

include he

theorem execWqEntryFetch_malformed (hpsn : psn = false) (hbad : entryBad e = true) :
    execWqEntryFetch q s = .next (t.setQueue q ((s.queue q).fetched.fail 1 (s.queue q).rd)) := by
  simp only [State.fetchEntry] at h
  simp only [execWqEntryFetch, hmay, hq, h, hpsn, he, hbad, Bool.not_true, Bool.false_eq_true, if_false, if_true]
  rfl

theorem execWqEntryFetch_put (hpsn : psn = false) (hbad : entryBad e = false) (hty : e.type ≠ 1) :
    execWqEntryFetch q s = .next (s.putEntry t t q e) := by
  simp only [State.fetchEntry] at h
  simp only [execWqEntryFetch, hmay, hq, h, hpsn, he, hbad, hty, bne_iff_ne, ne_eq, not_false_eq_true, Bool.not_true,
    Bool.false_eq_true, if_false, if_true]
  rfl

section
variable (hpsn : psn = false) (hbad : entryBad e = false) (hty : e.type = 1)
include hpsn hbad hty

theorem execWqEntryFetch_described {ds : List Byte} {p : Bool} {u : State}
    (hd : t.fetchDev (s.homeDie q) (s.queue q).ctx (e.num 2) 128 = .got ds p u) :
    execWqEntryFetch q s = .next (s.putEntry t u q { e with desc := if p then none else some (wordsOfBytes ds) }) := by
  subst he
  simp only [State.fetchEntry] at h
  simp only [execWqEntryFetch, hmay, hq, h, hpsn, hbad, hty, hd, bne_self_eq_false, Bool.not_true, Bool.false_eq_true,
    if_false]
  rfl

theorem execWqEntryFetch_undescribed {u : State}
    (hd : t.fetchDev (s.homeDie q) (s.queue q).ctx (e.num 2) 128 = .fail u) :
    execWqEntryFetch q s = .next (s.putEntry t u q e) := by
  simp only [State.fetchEntry] at h
  simp only [execWqEntryFetch, hmay, hq, h, hpsn, he, hbad, hty, hd, bne_self_eq_false, Bool.not_true, Bool.false_eq_true,
    if_false]
  rfl

theorem execWqEntryFetch_descSuspends {r : Nat} {u : State}
    (hd : t.fetchDev (s.homeDie q) (s.queue q).ctx (e.num 2) 128 = .suspend r u) :
    execWqEntryFetch q s = .next (s.fetchFaults u q (e.num 2) r) := by
  simp only [State.fetchEntry] at h
  simp only [execWqEntryFetch, hmay, hq, h, hpsn, he, hbad, hty, hd, bne_self_eq_false, Bool.not_true, Bool.false_eq_true,
    if_false]
  rfl

end
end
end

/-! Starts (R330, R344 to R346, R354). -/

/-- A die's dispatcher has come to a queue. -/
def State.reached (s : State) (q : Nat) : State := { s with lastQueue := insertAt (s.homeDie q) q s.lastQueue }

/-- The extents of a grid (R354). -/
def gridLegal (gx gy gz : Nat) : Prop :=
  (1 ≤ gx ∧ gx ≤ 65536) ∧ (1 ≤ gy ∧ gy ≤ 65536) ∧ (1 ≤ gz ∧ gz ≤ 65536) ∧ gx * gy * gz ≤ 2 ^ 31

theorem gridLegal_iff {size : Nat → Nat} (a : Nat) : gridLegal (size a) (size (a + 1)) (size (a + 2)) ↔
    (∀ i, a ≤ i → i ≤ a + 2 → 1 ≤ size i ∧ size i ≤ 65536) ∧ size a * size (a + 1) * size (a + 2) ≤ 2 ^ 31 := by
  have hthree : (∀ i, a ≤ i → i ≤ a + 2 → 1 ≤ size i ∧ size i ≤ 65536) ↔
      (1 ≤ size a ∧ size a ≤ 65536) ∧ (1 ≤ size (a + 1) ∧ size (a + 1) ≤ 65536) ∧
        (1 ≤ size (a + 2) ∧ size (a + 2) ≤ 65536) := by
    refine ⟨fun h => ⟨h a (by omega) (by omega), h _ (by omega) (by omega), h _ (by omega) (by omega)⟩, ?_⟩
    rintro ⟨h0, h1, h2⟩ i hlow hhigh
    obtain rfl | rfl | rfl : i = a ∨ i = a + 1 ∨ i = a + 2 := by omega
    · exact h0
    · exact h1
    · exact h2
  simp only [hthree, gridLegal, and_assoc]

theorem dims_bad_iff {gx gy gz : Nat} : ((gx == 0 || 65536 < gx) || (gy == 0 || 65536 < gy) || (gz == 0 || 65536 < gz) ||
    2147483648 < gx * gy * gz) = true ↔ ¬ gridLegal gx gy gz := by
  simp only [gridLegal, Bool.or_eq_true, beq_iff_eq, decide_eq_true_eq]
  omega

section
variable {d : KDesc} {c : Code} {t : State} {gx gy gz : Nat} (ctx arga seq : Nat) (o : Owner)

theorem launch_illegal (h : ¬ gridLegal gx gy gz) : (Described.ok d c t).launch ctx arga gx gy gz seq o = .refused t :=
  if_pos (dims_bad_iff.mpr h)

/-- The kernel of a legal grid is made, and waits for its first admission (R354). -/
theorem launch_legal (h : gridLegal gx gy gz) : (Described.ok d c t).launch ctx arga gx gy gz seq o =
    .ok { t with
      kernels := insertAt t.nextId
        { desc := d, code := c, gx := gx, gy := gy, gz := gz, arga := arga, ctx := ctx, owner := o, seq := seq } t.kernels
      nextId := t.nextId + 1 } :=
  if_neg fun hbad => dims_bad_iff.mp hbad h

end

/-! The reading of a graph (R357). -/

/-- A well-formed header passes its checks. -/
theorem graphHeader_good {hb : List Byte} {n : Nat}
    (hformed : 0 < n ∧ n ≤ 4096 ∧ ∀ i < 7, nodeWord (wordsOfBytes hb) (1 + i) = 0) :
    (n == 0 || 4096 < n || (List.range 7).any fun i => nodeWord (wordsOfBytes hb) (1 + i) != 0) = false := by
  obtain ⟨hpos, hmax, hzero⟩ := hformed
  simp only [Bool.or_eq_false_iff, beq_eq_false_iff_ne, decide_eq_false_iff_not, List.any_eq_false, List.mem_range,
    bne_iff_ne, ne_eq, not_not, Nat.not_lt]
  exact ⟨⟨hpos.ne', hmax⟩, hzero⟩

section
variable {s : State} {die ctx a : Nat} (ha : a % 64 = 0)
include ha

theorem readGraph_headFails {u : State} {va : Nat} (h : readBlocks die ctx 1 a s [] = (.fail u, va)) :
    s.readGraph die ctx a = .refused u := by
  simp [State.readGraph, ha, h]

theorem readGraph_headSuspends {r va : Nat} {u : State} (h : readBlocks die ctx 1 a s [] = (.suspend r u, va)) :
    s.readGraph die ctx a = .suspend va r u := by
  simp [State.readGraph, ha, h]

section
variable {hb : List Byte} {hp : Bool} {u : State} {va n : Nat} (h : readBlocks die ctx 1 a s [] = (.got hb hp u, va))
  (hn : nodeWord (wordsOfBytes hb) 0 = n)
include h hn

theorem readGraph_malformed (hbad : ¬ (0 < n ∧ n ≤ 4096 ∧ ∀ i < 7, nodeWord (wordsOfBytes hb) (1 + i) = 0)) :
    s.readGraph die ctx a = .refused u := by
  have hcond : (n == 0 || 4096 < n || (List.range 7).any fun i => nodeWord (wordsOfBytes hb) (1 + i) != 0) = true := by
    by_contra hno
    simp only [Bool.or_eq_true, beq_iff_eq, decide_eq_true_eq, List.any_eq_true, List.mem_range, bne_iff_ne, ne_eq, not_or,
      Nat.not_lt, not_exists, not_and, not_not] at hno
    exact hbad ⟨Nat.pos_of_ne_zero hno.1.1, hno.1.2, hno.2⟩
  simp only [State.readGraph, ha, h, hn, hcond, bne_self_eq_false, Bool.false_eq_true, if_false, if_true]

section
variable (hformed : 0 < n ∧ n ≤ 4096 ∧ ∀ i < 7, nodeWord (wordsOfBytes hb) (1 + i) = 0)
include hformed

theorem readGraph_nodesFail {x : State} {vb : Nat} (hr : readBlocks die ctx n (a + 64) u [] = (.fail x, vb)) :
    s.readGraph die ctx a = .refused x := by
  simp only [State.readGraph, ha, h, hn, graphHeader_good hformed, hr, bne_self_eq_false, Bool.false_eq_true, if_false]

theorem readGraph_nodesSuspend {r vb : Nat} {x : State} (hr : readBlocks die ctx n (a + 64) u [] = (.suspend r x, vb)) :
    s.readGraph die ctx a = .suspend vb r x := by
  simp only [State.readGraph, ha, h, hn, graphHeader_good hformed, hr, bne_self_eq_false, Bool.false_eq_true, if_false]

section
variable {nb : List Byte} {np : Bool} {x : State} {vb : Nat}
  (hr : readBlocks die ctx n (a + 64) u [] = (.got nb np x, vb)) {nodes : List (List Word)}
  (hnodes : splitNodes n (wordsOfBytes nb) = nodes)
include hr hnodes

theorem readGraph_bad (hbad : graphBad nodes = true) : s.readGraph die ctx a = .refused x := by
  simp only [State.readGraph, ha, h, hn, graphHeader_good hformed, hr, hnodes, hbad, bne_self_eq_false, Bool.false_eq_true,
    if_false, if_true]

theorem readGraph_got (hgood : graphBad nodes = false) :
    s.readGraph die ctx a = .got ((wordsOfBytes hb).drop 8) nodes x := by
  simp only [State.readGraph, ha, h, hn, graphHeader_good hformed, hr, hnodes, hgood, bne_self_eq_false, Bool.false_eq_true,
    if_false]

end
end
end
end

section
variable {s : State} {q idx : Nat} {e : QEntry} (hnext : (s.queue q).next = some (idx, e))
  (hchosen : s.chosenQueue (s.homeDie q) = some q)
include hnext hchosen

theorem startEntry_goes {ty : Nat} (hty : e.type = ty) (go : QEntry → State → State) :
    s.startEntry q idx ty go = .next (go e (s.reached q)) := by
  simp [State.startEntry, hnext, hchosen, hty, State.reached]

theorem execNopEntry_completes (hty : e.type = 0) : execNopEntry q idx s = .next ((s.reached q).completeEntry q idx) :=
  startEntry_goes hnext hchosen hty _

theorem execWaitvEntry_starts (hty : e.type = 3) : execWaitvEntry q idx s = .next ((s.reached q).setQueue q
    { (s.reached q).queue q with
      entries := modifyAt idx (fun y => { y with started := true, reread := s.now }) ((s.reached q).queue q).entries }) :=
  startEntry_goes hnext hchosen hty _

/-! WRITEV, by what becomes of its store. -/

section
variable (hty : e.type = 4)
include hty

/-- What WRITEV's store became. -/
def State.writevStore (s : State) (q : Nat) (e : QEntry) : Fetched :=
  (s.releaseAll (s.queue q).ctx).storeDev (s.homeDie q) (s.queue q).ctx (e.num 2)
    ((List.range 8).map fun i => byteOf (e.num 4) i) false

theorem execWritevEntry_writes {b : List Byte} {p : Bool} {u : State} (h : (s.reached q).writevStore q e = .got b p u) :
    execWritevEntry q idx s = .next (u.completeEntry q idx) := by
  rw [State.writevStore] at h
  exact (startEntry_goes hnext hchosen hty _).trans (by simp only [h])

theorem execWritevEntry_fails {u : State} (h : (s.reached q).writevStore q e = .fail u) :
    execWritevEntry q idx s = .next (u.failEntry q idx 5) := by
  rw [State.writevStore] at h
  exact (startEntry_goes hnext hchosen hty _).trans (by simp only [h])

theorem execWritevEntry_suspends {r : Nat} {u : State} (h : (s.reached q).writevStore q e = .suspend r u) :
    execWritevEntry q idx s = .next (u.entryFault q idx ((s.reached q).queue q).ctx (e.num 2) true r) := by
  rw [State.writevStore] at h
  exact (startEntry_goes hnext hchosen hty _).trans (by simp only [h])

end

/-! KERNEL, by its descriptor and its extents. -/

section
variable (hty : e.type = 1)
include hty

theorem execKernelEntry_unread (hd : e.desc = none) : execKernelEntry q idx s = .next ((s.reached q).failEntry q idx 4) :=
  (startEntry_goes hnext hchosen hty _).trans (by simp only [hd, Described.launch])

variable {ws : List Word} (hd : e.desc = some ws)
include hd

theorem execKernelEntry_refused {u : State} (h : (s.reached q).checkDesc ((s.reached q).queue q).ctx ws = .refused u) :
    execKernelEntry q idx s = .next (u.failEntry q idx 4) :=
  (startEntry_goes hnext hchosen hty _).trans (by simp only [hd, h, Described.launch])

variable {d : KDesc} {c : Code} {u : State} (h : (s.reached q).checkDesc ((s.reached q).queue q).ctx ws = .ok d c u)
include h

theorem execKernelEntry_illegal (hbad : ¬ gridLegal (e.words.getD 6 0).toNat (e.words.getD 7 0).toNat (e.words.getD 8 0).toNat) :
    execKernelEntry q idx s = .next (u.failEntry q idx 4) :=
  (startEntry_goes hnext hchosen hty _).trans (by simp only [hd, h, launch_illegal _ _ _ _ hbad])

theorem execKernelEntry_launches
    (hlegal : gridLegal (e.words.getD 6 0).toNat (e.words.getD 7 0).toNat (e.words.getD 8 0).toNat) :
    execKernelEntry q idx s = .next (({ u with
      kernels := insertAt u.nextId { desc := d, code := c, gx := (e.words.getD 6 0).toNat, gy := (e.words.getD 7 0).toNat
                                     gz := (e.words.getD 8 0).toNat, arga := e.num 4, ctx := ((s.reached q).queue q).ctx
                                     owner := .entry q idx, seq := e.seq } u.kernels
      nextId := u.nextId + 1 } : State).entryStarted q idx) :=
  (startEntry_goes hnext hchosen hty _).trans (by simp only [hd, h, launch_legal _ _ _ _ hlegal])

end

/-! GRAPH, by what its reading answers. -/

section
variable (hty : e.type = 2)
include hty

theorem execGraphEntry_refused {u : State}
    (h : (s.reached q).readGraph ((s.reached q).homeDie q) ((s.reached q).queue q).ctx (e.num 2) = .refused u) :
    execGraphEntry q idx s = .next (u.failEntry q idx 4) :=
  (startEntry_goes hnext hchosen hty _).trans (by simp only [h])

theorem execGraphEntry_suspends {va r : Nat} {u : State}
    (h : (s.reached q).readGraph ((s.reached q).homeDie q) ((s.reached q).queue q).ctx (e.num 2) = .suspend va r u) :
    execGraphEntry q idx s = .next (u.entryFault q idx ((s.reached q).queue q).ctx va false r) :=
  (startEntry_goes hnext hchosen hty _).trans (by simp only [h])

theorem execGraphEntry_starts {cond : List Word} {nodes : List (List Word)} {x : State}
    (h : (s.reached q).readGraph ((s.reached q).homeDie q) ((s.reached q).queue q).ctx (e.num 2) = .got cond nodes x) :
    execGraphEntry q idx s = .next (({ x with
      graphs := insertAt x.nextId { q := q, idx := idx, ctx := ((s.reached q).queue q).ctx, addr := e.num 2, nodes := nodes
                                    cond := cond, waits := nodes.map nodePreds } x.graphs
      nextId := x.nextId + 1 } : State).entryStarted q idx) :=
  (startEntry_goes hnext hchosen hty _).trans (by simp only [h])

end
end

/-! WAITV rereads (R346). -/

section
variable {s : State} {q idx : Nat} {e : QEntry} (he : lookup idx (s.queue q).entries = some e) (hmay : s.mayReread q idx = true)
include he hmay

theorem execWaitvReread_fails {u : State} (h : s.fetchDev (s.homeDie q) (s.queue q).ctx (e.num 2) 8 = .fail u) :
    execWaitvReread q idx s = .next (u.failEntry q idx 5) := by
  simp [execWaitvReread, he, hmay, h]

theorem execWaitvReread_suspends {r : Nat} {u : State}
    (h : s.fetchDev (s.homeDie q) (s.queue q).ctx (e.num 2) 8 = .suspend r u) :
    execWaitvReread q idx s = .next (u.entryFault q idx (s.queue q).ctx (e.num 2) false r) := by
  simp [execWaitvReread, he, hmay, h]

section
variable {bs : List Byte} {psn : Bool} {u : State}
  (h : s.fetchDev (s.homeDie q) (s.queue q).ctx (e.num 2) 8 = .got bs psn u)
include h

theorem execWaitvReread_poisoned (hpsn : psn = true) : execWaitvReread q idx s = .next (u.failEntry q idx 5) := by
  simp [execWaitvReread, he, hmay, h, hpsn]

theorem execWaitvReread_reached (hpsn : psn = false) (hval : e.num 4 ≤ leNat (fun i => bs.getD i 0) 8) :
    execWaitvReread q idx s = .next ((u.acquireAll (s.queue q).ctx).completeEntry q idx) := by
  simp only [execWaitvReread, he, hmay, h, hpsn, hval, Bool.not_true, Bool.false_eq_true, if_false, if_true]

theorem execWaitvReread_again (hpsn : psn = false) (hval : leNat (fun i => bs.getD i 0) 8 < e.num 4) :
    execWaitvReread q idx s = .next (u.setQueue q { u.queue q with
      entries := modifyAt idx (fun y => { y with
        reread := u.now + 4096, line := u.waitLine (s.homeDie q) (s.queue q).ctx (e.num 2) }) (u.queue q).entries }) := by
  simp only [execWaitvReread, he, hmay, h, hpsn, Nat.not_le.mpr hval, Bool.not_true, Bool.false_eq_true, if_false]

end
end

/-! Host rings (R342, R343). -/

section
variable (s : State) (ctx ring : Nat)

theorem execHostRingWrite_writes {c : Nat} {p : RingPush}
    (hc : (s.outReadyCores ctx ring)[Config.freeChoice s.free % max 1 (s.outReadyCores ctx ring).length]? = some c)
    (hp : s.outFirst c ctx ring = some p) :
    let s1 : State := if (s.outReadyCores ctx ring).length = 1 then s else { s with free := s.free + 1 }
    let t := s1.setCore c { s1.core c with outbound := (s1.core c).outbound.erase p }
    execHostRingWrite ctx ring s = .next (if s.portReach (dieOf c) (s.funcOf ctx) (ringAddr p.desc 0) = .ok
      then t.writeRing ctx ring p.desc (ringVec p.desc) p.words else t) := by
  simp only [execHostRingWrite, hc, hp, beq_iff_eq]

/-- The words of a push, and the write index, go to host memory. -/
def State.ringBytes (s : State) (ctx ring : Nat) (d : List Nat) (ws : List PWord) : State :=
  let put := fun (t : State) (x : Nat × PWord) =>
    t.hostWrite (ringAddr d 0 + 4 * (((s.hring ctx ring).w + x.1) % 2 ^ ringLog2w d))
      ((List.range 4).map fun j => byteOf x.2.val.toNat j) x.2.psn
  (((ws.mapIdx fun i w => (i, w)).foldl put s).hostWrite (ringAddr d 2)
    ((List.range 4).map fun j => byteOf (((s.hring ctx ring).w + ws.length) % 4294967296) j) false)

theorem hostWrite_msix (t : State) (x : Nat) (bs : List Byte) (p : Bool) : (t.hostWrite x bs p).msix = t.msix :=
  foldl_keeps (p := State.msix) (f := fun u (y : Nat × Byte) => u.setHostByte y.1 (if p then 0 else y.2)) (fun _ _ => rfl) _ t

theorem ringBytes_msix (d : List Nat) (ws : List PWord) : (s.ringBytes ctx ring d ws).msix = s.msix :=
  (hostWrite_msix ..).trans (foldl_keeps (p := State.msix) (fun _ _ => hostWrite_msix ..) _ s)

theorem hring_setHring (h : HRing) : (s.setHring ctx ring h).hring ctx ring = h := by
  rw [State.hring, State.setHring, lookup_insertAt_self]
  rfl

theorem writeRing_counts (d : List Nat) (vec : Nat) (ws : List PWord) :
    let h := s.hring ctx ring
    let u := h.u + ws.length
    let hit := ringIcnt d ≠ 0 ∧ ringIcnt d ≤ u
    let t := s.writeRing ctx ring d vec ws
    (t.hring ctx ring = { w := (h.w + ws.length) % 2 ^ 32, u := if hit then 0 else u
                          since := if h.u = 0 then s.now else h.since, desc := d, vec := vec }) ∧
    t.msix = if hit then (s.funcOf ctx, vec) :: s.msix else s.msix := by
  intro h u hit t
  let h1 : HRing := { w := (h.w + ws.length) % 2 ^ 32, u := if hit then 0 else u
                      since := if h.u = 0 then s.now else h.since, desc := d, vec := vec }
  have ht : t = if hit then ((s.ringBytes ctx ring d ws).setHring ctx ring h1).raise (s.funcOf ctx) vec
      else (s.ringBytes ctx ring d ws).setHring ctx ring h1 := by
    simp only [t, State.writeRing, Bool.and_eq_true, bne_iff_ne, decide_eq_true_eq, beq_iff_eq]
    rfl
  rw [ht]
  constructor
  · exact (apply_ite (fun t : State => t.hring ctx ring) hit _ _).trans ((ite_self _).trans (hring_setHring ..))
  · exact (apply_ite State.msix hit _ _).trans
      (congrArg₂ (ite hit) (congrArg (_ :: ·) (ringBytes_msix ..)) (ringBytes_msix ..))

theorem execHostRingDeadline_raises (h : s.ringDue (s.hring ctx ring) = true) : execHostRingDeadline ctx ring s =
    .next ((s.setHring ctx ring { s.hring ctx ring with u := 0 }).raise (s.funcOf ctx) (s.hring ctx ring).vec) := if_pos h

end

/-! Entries that end and complete (R331). -/

section
variable {s : State} {q idx : Nat}

theorem failEntry_keeps (h : (s.queue q).st ∈ [.disabled, .idle, .error]) (code : Nat) :
    s.failEntry q idx code = s.setQueue q ((s.queue q).endEntry idx) := by
  have hsame : ((s.queue q).endEntry idx).entryError code idx = (s.queue q).endEntry idx := by
    simp only [List.mem_cons, List.not_mem_nil, or_false] at h
    have hst : ((s.queue q).endEntry idx).st = (s.queue q).st := rfl
    rcases h with h | h | h <;> simp [Queue.entryError, Queue.fail, hst, h]
  rw [State.failEntry, hsame]

theorem failEntry_errors (h : (s.queue q).st ∈ [.active, .suspended]) (code : Nat) :
    s.failEntry q idx code = s.setQueue q { (s.queue q).endEntry idx with
      st := .error, err := code, erridx := idx % 2 ^ 32, fault := none
      entries := ((s.queue q).endEntry idx).entries.filter fun p => p.2.started } := by
  have hfail : ((s.queue q).endEntry idx).entryError code idx = ((s.queue q).endEntry idx).fail code idx ∧
      ((s.queue q).endEntry idx).st ≠ .error := by
    simp only [List.mem_cons, List.not_mem_nil, or_false] at h
    have hst : ((s.queue q).endEntry idx).st = (s.queue q).st := rfl
    rcases h with h | h <;> simp [Queue.entryError, hst, h]
  rw [State.failEntry, hfail.1, Queue.fail, if_neg (by simpa using hfail.2)]
  rfl

theorem idleQueue_of_st (h : (s.queue q).st ≠ .active) : s.idleQueue q = s := by
  simp [State.idleQueue, h]

theorem settleQueue_of_st (h : (s.queue q).st ≠ .active) : s.settleQueue q = s := by
  simp [State.settleQueue, h]

theorem Queue.advance_st (fuel : Nat) (x : Queue) : (Queue.advance fuel x).st = x.st := by
  induction fuel generalizing x with
  | zero => rfl
  | succ fuel ih =>
    unfold Queue.advance
    split
    · split
      · exact ih _
      · rfl
    · rfl

theorem Queue.advance_waits {x : Queue} {fuel : Nat} (h : ∀ e, lookup x.done x.entries = some e → e.finished = false) :
    Queue.advance fuel x = x := by
  cases fuel with
  | zero => rfl
  | succ fuel =>
    unfold Queue.advance
    split
    · next e he => rw [h e he]; rfl
    · rfl

theorem Queue.advance_passes {x : Queue} {fuel : Nat} {e : QEntry} (he : lookup x.done x.entries = some e)
    (hfinished : e.finished = true) : Queue.advance (fuel + 1) x =
      Queue.advance fuel { x with entries := eraseAt x.done x.entries, done := (x.done + 1) % 4294967296 } := by
  rw [Queue.advance, he]
  simp only [hfinished, if_true]

/-- The queue with an entry complete, before DONE follows. -/
def Queue.completed (x : Queue) (idx : Nat) : Queue :=
  { x with entries := modifyAt idx (fun e => { e with started := true, finished := true }) x.entries }

theorem completeEntry_inactive (h : (s.queue q).st ≠ .active) : s.completeEntry q idx =
    s.setQueue q (Queue.advance (((s.queue q).completed idx).entries.length + 1) ((s.queue q).completed idx)) := by
  have hst : (Queue.advance (((s.queue q).completed idx).entries.length + 1) ((s.queue q).completed idx)).st ≠ .active := by
    rw [Queue.advance_st]
    exact h
  change State.settleQueue (State.idleQueue (s.setQueue q _) q) q = _
  rw [idleQueue_of_st (by rw [State.queue_setQueue]; exact hst), settleQueue_of_st (by rw [State.queue_setQueue]; exact hst)]
  rfl

theorem completeEntry_later (h : (s.queue q).st ≠ .active) (hdone : (s.queue q).done ≠ idx)
    (hfirst : ∀ e, lookup (s.queue q).done (s.queue q).entries = some e → e.finished = false) :
    s.completeEntry q idx = s.setQueue q ((s.queue q).completed idx) := by
  rw [completeEntry_inactive h, Queue.advance_waits]
  intro e he
  simp only [Queue.completed] at he
  exact hfirst e ((lookup_modifyAt_ne _ hdone _).symm.trans he)

theorem completeEntry_first (h : (s.queue q).st ≠ .active) (hdone : (s.queue q).done = idx)
    (hidx : (lookup idx (s.queue q).entries).isSome) (hnext : lookup ((idx + 1) % 2 ^ 32) (s.queue q).entries = none) :
    s.completeEntry q idx = s.setQueue q { s.queue q with
      done := (idx + 1) % 2 ^ 32
      entries := eraseAt idx (modifyAt idx (fun e => { e with started := true, finished := true }) (s.queue q).entries) } := by
  obtain ⟨e, he⟩ := Option.isSome_iff_exists.mp hidx
  have hhead : lookup ((s.queue q).completed idx).done ((s.queue q).completed idx).entries =
      some { e with started := true, finished := true } := by
    simp only [Queue.completed, hdone, lookup_modifyAt_self, he, Option.map_some]
  have hne : (idx + 1) % 4294967296 ≠ idx := by omega
  rw [completeEntry_inactive h, Queue.advance_passes hhead rfl, Queue.advance_waits]
  · simp only [Queue.completed, hdone]
    rfl
  · intro y hy
    simp only [Queue.completed, hdone, lookup_eraseAt_ne hne, lookup_modifyAt_ne _ hne] at hy
    exact absurd (hnext.symm.trans hy) nofun

end

/-- Settles O53, entry by entry: what each fetch, start and read finds says what follows. -/
theorem queueEntries : Obligations.QueueEntries := by
  unfold Obligations.QueueEntries
  refine ⟨⟨fun s q hq hmay => ⟨fun t => ?fails, fun r t => ?suspends, fun bs psn t hgot => ?got⟩, fun e => ?formed,
    fun s q idx e hnext hchosen => ⟨?nop, ?waitv, fun hty => ?writev, fun hty => ?kernel, fun hty ha => ?graph⟩⟩,
    fun s q idx e he hmay => ?reread, fun s ctx ring c p hc hp => ?ringWrite, fun s ctx ring d vec ws => ?ringCounts,
    fun s ctx ring => ?deadline, fun s q idx code => ?ends⟩
  case fails => exact execWqEntryFetch_fails hq hmay
  case suspends => exact execWqEntryFetch_suspends hq hmay
  case got =>
    refine ⟨execWqEntryFetch_poisoned hq hmay hgot, execWqEntryFetch_malformed hq hmay hgot rfl,
      execWqEntryFetch_put hq hmay hgot rfl, fun hpsn hbad hty => ⟨fun ds p u => ?_, fun u => ?_, fun r u => ?_⟩⟩
    · exact execWqEntryFetch_described hq hmay hgot rfl hpsn hbad hty
    · exact execWqEntryFetch_undescribed hq hmay hgot rfl hpsn hbad hty
    · exact execWqEntryFetch_descSuspends hq hmay hgot rfl hpsn hbad hty
  case formed =>
    rw [entryBad_eq_false]
    exact and_congr_right fun hty => and_congr_right fun _ => and_congr_right fun _ => and_congr_right fun _ =>
      rereachedbyType hty
  case nop => exact execNopEntry_completes hnext hchosen
  case waitv => exact execWaitvEntry_starts hnext hchosen
  case writev =>
    exact ⟨fun _ _ _ => execWritevEntry_writes hnext hchosen hty, fun _ => execWritevEntry_fails hnext hchosen hty,
      fun _ _ => execWritevEntry_suspends hnext hchosen hty⟩
  case kernel =>
    refine ⟨execKernelEntry_unread hnext hchosen hty, fun ws hd => ⟨fun u => execKernelEntry_refused hnext hchosen hty hd,
      fun d c u h => ⟨fun hbad => ?_, fun hlegal => ?_⟩⟩⟩
    · exact execKernelEntry_illegal hnext hchosen hty hd h
        ((gridLegal_iff (size := fun i => (e.words.getD i 0).toNat) 6).not.mpr hbad)
    · exact execKernelEntry_launches hnext hchosen hty hd h
        ((gridLegal_iff (size := fun i => (e.words.getD i 0).toNat) 6).mpr hlegal)
  case graph =>
    refine ⟨fun u va h => ?_, fun r u va h => ?_, fun hb hp u va h => ⟨fun hbad => ?_, fun hformed => ⟨fun x vb hr => ?_,
      fun r x vb hr => ?_, fun nb np x vb hr => ⟨fun hbad => ?_, fun hgood => ?_⟩⟩⟩⟩
    · exact execGraphEntry_refused hnext hchosen hty (readGraph_headFails ha h)
    · exact execGraphEntry_suspends hnext hchosen hty (readGraph_headSuspends ha h)
    · exact execGraphEntry_refused hnext hchosen hty (readGraph_malformed ha h rfl hbad)
    · exact execGraphEntry_refused hnext hchosen hty (readGraph_nodesFail ha h rfl hformed hr)
    · exact execGraphEntry_suspends hnext hchosen hty (readGraph_nodesSuspend ha h rfl hformed hr)
    · exact execGraphEntry_refused hnext hchosen hty (readGraph_bad ha h rfl hformed hr rfl hbad)
    · exact execGraphEntry_starts hnext hchosen hty (readGraph_got ha h rfl hformed hr rfl hgood)
  case reread =>
    exact ⟨fun _ => execWaitvReread_fails he hmay, fun _ _ => execWaitvReread_suspends he hmay, fun bs psn u h =>
      ⟨execWaitvReread_poisoned he hmay h, execWaitvReread_reached he hmay h, execWaitvReread_again he hmay h⟩⟩
  case ringWrite => exact execHostRingWrite_writes s ctx ring hc hp
  case ringCounts => exact writeRing_counts s ctx ring d vec ws
  case deadline => exact execHostRingDeadline_raises s ctx ring
  case ends =>
    exact ⟨fun h => failEntry_keeps h code, fun h => failEntry_errors h code, completeEntry_later,
      fun h hdone hidx hnext _ => completeEntry_first h hdone hidx hnext⟩

end Sys2Proof.Machine
end

section
/-! PROOFS. What home writes and the drop of near copies change, of the whole machine (spec 11_memory_model.md
R269, 19_stack_logic.md R420): memory and its lines, buckets, counters, the error log, the pushes of reflections, and
when a WAITV reads again. -/

namespace Sys2Proof.Machine

/-- What a home write leaves of a work queue: all but its entries, of which a WAITV may read again sooner. -/
def Queue.besides (x : Queue) : Queue := { x with entries := [] }

/-- What a home write leaves of a reflection: all but what its next pushes skip. -/
def Refl.besides (r : Refl) : Refl := { r with skip := 0 }

/-- The machine but for what a home write may change. -/
def State.besides (s : State) : State :=
  { s with
    free := 0, nextId := 0, buckets := [], errlog := [], mem := [], memPsn := [], msix := [], copies := [], homes := []
    l2Uses := 0, attr := [], collisions := [], drains := [], counters := [], migreqs := [], ranges := [], rpushes := []
    refls := s.refls.map fun p => (p.1, p.2.besides), queues := s.queues.map fun p => (p.1, p.2.besides) }

section
variable {s t u : State}

theorem ite_besides {c : Prop} [Decidable c] (ht : t.besides = s.besides) (hu : u.besides = s.besides) :
    (if c then t else u).besides = s.besides := by
  split
  · exact ht
  · exact hu

end

/-- A change of a table's entries that a view does not show. -/
theorem map_tagged {α β : Type} {f : Nat × α → Nat × α} {g : α → β} (h : ∀ p, ((f p).1, g (f p).2) = (p.1, g p.2))
    {m : List (Nat × α)} : (m.map f).map (fun p => (p.1, g p.2)) = m.map fun p => (p.1, g p.2) := by
  simp only [List.map_map, Function.comp_def, h]

theorem State.besides_refls {s : State} {rs : List (Nat × Refl)}
    (h : rs.map (fun p => (p.1, p.2.besides)) = s.refls.map fun p => (p.1, p.2.besides)) :
    ({ s with refls := rs } : State).besides = s.besides := by
  simp only [State.besides, h]

theorem State.besides_queues {s : State} {qs : List (Nat × Queue)}
    (h : qs.map (fun p => (p.1, p.2.besides)) = s.queues.map fun p => (p.1, p.2.besides)) :
    ({ s with queues := qs } : State).besides = s.besides := by
  simp only [State.besides, h]

section
variable (s : State)

theorem State.logError_besides (e : ErrEntry) : (s.logError e).besides = s.besides := by
  obtain ⟨log, irq, hlog, -⟩ := s.logError_eq e
  rw [hlog]
  rfl

/-! Stacks. -/

theorem State.setSlotByte_besides (stack off : Nat) (b : Byte) : (s.setSlotByte stack off b).besides = s.besides := rfl

theorem State.setSlotPsn_besides (stack off : Nat) (p : Bool) : (s.setSlotPsn stack off p).besides = s.besides := rfl

theorem State.logMalformed_besides (stack : Nat) (offs : List Nat) : (s.logMalformed stack offs).besides = s.besides :=
  foldl_keeps (fun t _ => t.logError_besides _) _ s

theorem State.withCollisions_besides (m : List (Nat × List Nat)) :
    ({ s with collisions := m } : State).besides = s.besides := rfl

theorem State.setAttr_besides (stack first n a : Nat) : (s.setAttr stack first n a).besides = s.besides := rfl

theorem State.setPageAttr_besides (stack off a : Nat) : (s.setPageAttr stack off a).besides = s.besides := by
  unfold State.setPageAttr
  exact s.setAttr_besides ..

theorem State.stackRequest_besides (stack off : Nat) : (s.stackRequest stack off).besides = s.besides := by
  simp only [State.besides, State.stackRequest, State.countAccess]

theorem State.startDrain_besides (stack off : Nat) (begun : Bool) : (s.startDrain stack off begun).besides = s.besides := by
  have hpage : (if begun then s.setPageAttr stack off 2 else s).besides = s.besides :=
    ite_besides (s.setPageAttr_besides ..) rfl
  unfold State.startDrain
  generalize (if begun then s.setPageAttr stack off 2 else s) = u at hpage ⊢
  exact hpage

theorem State.fillSlot_besides (stack slot : Nat) (bytes : List Byte) (psn : BitVec 32) :
    (s.fillSlot stack slot bytes psn).besides = s.besides := by
  unfold State.fillSlot
  dsimp only
  generalize List.range 32 = sectors
  exact (foldl_keeps (fun t _ => t.setSlotPsn_besides ..) _ _).trans (foldl_keeps (fun t _ => t.setSlotByte_besides ..) _ _)

theorem State.overflow_besides (stack slot : Nat) (b : Block) : (s.overflow stack slot b).besides = s.besides := by
  unfold State.overflow
  extract_lets t
  have ht : t.besides = s.besides := ite_besides rfl (s.startDrain_besides ..)
  clear_value t
  exact ht

theorem State.storeBlock_besides (stack slot : Nat) (b : Block) : (s.storeBlock stack slot b).besides = s.besides := by
  have hdrop : (s.dropWaiting stack slot).besides = s.besides := rfl
  have hfree : ((s.dropWaiting stack slot).freeCollision stack slot).besides = s.besides := rfl
  have hfilled : ∀ bytes psn, ((s.dropWaiting stack slot).fillSlot stack slot bytes psn).besides = s.besides := fun _ _ =>
    (State.fillSlot_besides ..).trans hdrop
  have hfreed : ∀ bytes psn, (((s.dropWaiting stack slot).freeCollision stack slot).fillSlot stack slot bytes psn).besides =
    s.besides := fun _ _ => (State.fillSlot_besides ..).trans hfree
  unfold State.storeBlock
  extract_lets tab passed t
  generalize b.packed (s.markerOf stack) = packed
  generalize invertTail b.bytes = inverted
  generalize (leNat _ 8 != s.markerOf stack) = marked
  split
  · exact hfreed packed 0
  split
  · exact hfreed b.bytes b.psn
  split
  · exact hfilled inverted b.psn
  split
  · exact (State.withCollisions_besides ..).trans (hfilled _ _)
  · exact (State.overflow_besides ..).trans hdrop

theorem State.storeRaw_besides (w : HomeWrite) : (s.storeRaw w).besides = s.besides := by
  unfold State.storeRaw
  dsimp only
  refine (foldl_keeps (fun t k => ?_) _ _).trans (foldl_keeps (fun t _ => t.setSlotByte_besides ..) _ _)
  exact ite_besides (t.setSlotPsn_besides ..) (ite_besides (t.setSlotPsn_besides ..) rfl)

theorem State.stackWrite_besides (w : HomeWrite) : (s.stackWrite w).besides = s.besides := by
  have hpacked : ∀ offs slot b, ((s.logMalformed w.stack offs).storeBlock w.stack slot b).besides = s.besides :=
    fun offs slot b => (State.storeBlock_besides ..).trans (s.logMalformed_besides ..)
  have hraw := s.storeRaw_besides w
  unfold State.stackWrite
  extract_lets off t
  split
  · exact hpacked _ _ _
  · split
    · exact (t.setPageAttr_besides ..).trans hraw
    · exact hraw

/-! Home lines. -/

theorem State.evictHome_besides (h : HomeLine) : (s.evictHome h).besides = s.besides := by
  have hclean : (s.cleanHome h).besides = s.besides :=
    ite_besides rfl ((State.stackWrite_besides ..).trans (s.stackRequest_besides ..))
  exact hclean

theorem State.fetchHome_besides (h : HomeLine) (k : Nat) : (s.fetchHome h k).2.besides = s.besides := by
  unfold State.fetchHome
  split
  · rfl
  · exact (State.logMalformed_besides ..).trans (s.stackRequest_besides ..)

theorem State.writeHome_besides (h : HomeLine) (w : HomeWrite) : (s.writeHome h w).2.besides = s.besides :=
  foldl_keeps (p := fun r : HomeLine × State => r.2.besides) (fun r k => r.2.fetchHome_besides r.1 k) _ (h, s)

theorem State.debit_besides (ctx die n : Nat) : (s.debit ctx die n).besides = s.besides := rfl

theorem State.sendPush_besides (r : WRange) (n : Nat) (rel : Bool) : (s.sendPush r n rel).besides = s.besides := by
  unfold State.sendPush
  extract_lets subs all cores data psn s0
  have h0 : s0.besides = s.besides := State.besides_refls (map_tagged fun p => by split <;> rfl)
  refine (foldl_keeps (p := State.besides) (fun t c => ?_) cores s0).trans h0
  extract_lets mine p t1
  have ht : t1.besides = t.besides := rfl
  exact ite_besides ht ((foldl_keeps (fun u _ => u.debit_besides ..) mine t1).trans ht)

theorem State.storeRange_besides (r : WRange) (rel : Bool) : (s.storeRange r rel).besides = s.besides := by
  unfold State.storeRange
  split
  · exact ite_besides rfl (State.sendPush_besides ..)
  · exact State.sendPush_besides ..

theorem State.homeEffects_besides (w : HomeWrite) : (s.homeEffects w).besides = s.besides := by
  have htouch : (s.touchLine w.stack w.line).besides = s.besides :=
    ite_besides (State.besides_queues (by simp [List.map_map, Function.comp_def, Queue.besides])) rfl
  exact (foldl_keeps (fun t r => t.storeRange_besides r w.rel) _ _).trans htouch

theorem State.writeThrough_besides (w : HomeWrite) : (s.writeThrough w).besides = s.besides := by
  refine (State.homeEffects_besides ..).trans ?_
  split
  · next h _ => exact s.writeHome_besides h w
  · exact (State.stackWrite_besides ..).trans (s.stackRequest_besides ..)

theorem State.leaveL2_besides (x : L2Line) : (s.leaveL2 x).besides = s.besides := by
  cases x with
  | home h => exact s.evictHome_besides h
  | copy c => exact ite_besides (State.writeThrough_besides ..) rfl

theorem State.putHome_besides (h : HomeLine) : (s.putHome h).besides = s.besides := by
  refine ite_besides rfl ?_
  show State.besides (match s.displaced (s.homeOf h.stack (128 * h.line)) h.stack h.line false with
    | some v => s.leaveL2 v
    | none => s) = s.besides
  split
  · exact s.leaveL2_besides _
  · rfl

theorem State.toStack_besides (stack line : Nat) : (s.toStack stack line).besides = s.besides := by
  unfold State.toStack
  split
  · exact s.evictHome_besides _
  · rfl

theorem State.homeWrite_besides (w : HomeWrite) : (s.homeWrite w).besides = s.besides := by
  refine (State.homeEffects_besides ..).trans (ite_besides ?_ ?_)
  · exact (State.stackWrite_besides ..).trans (s.toStack_besides ..)
  · exact (State.putHome_besides ..).trans (s.writeHome_besides ..)

/-! Near copies. -/

theorem State.writeBackWhere_besides (p : CopyLine → Bool) : (s.writeBackWhere p).besides = s.besides :=
  foldl_keeps (p := State.besides) (fun t _ => ite_besides (t.homeWrite_besides _) rfl) _
    { s with copies := s.copies.map fun c => if p c then { c with dirty := 0, rel := false } else c }

theorem State.dropWhere_besides (p : CopyLine → Bool) : (s.dropWhere p).besides = s.besides := s.writeBackWhere_besides p

end

end Sys2Proof.Machine
end

section
/-! PROOFS. A context that is created or destroyed (spec 16_context.md R361 to R363, R366). -/

namespace Sys2Proof.Machine

/-- What one element of a fold brings about, and no element undoes, holds at its end. -/
theorem foldl_settles {σ α : Type} {f : σ → α → σ} {P : σ → Prop} {a : α} (hset : ∀ x, P (f x a)) (hkeep : ∀ x b, P x → P (f x b))
    {l : List α} (ha : a ∈ l) (x : σ) : P (l.foldl f x) := by
  induction l generalizing x with
  | nil => cases ha
  | cons b l ih =>
    rcases List.mem_cons.1 ha with rfl | hl
    · exact List.foldlRecOn (motive := P) l f (hset x) fun y hy b _ => hkeep y b hy
    · exact ih hl (f x b)

theorem mem_of_lookup {α : Type} {k : Nat} {x : α} {m : List (Nat × α)} (h : lookup k m = some x) : (k, x) ∈ m := by
  induction m with
  | nil => cases h
  | cons p m ih =>
    by_cases hp : p.1 = k
    · have hx : p.2 = x := by simpa [lookup, hp] using h
      simp [← hp, ← hx]
    · exact List.mem_cons_of_mem _ (ih (by simpa [lookup, hp] using h))

theorem State.queue_setQueue_ne (s : State) {q r : Nat} (h : r ≠ q) (x : Queue) : (s.setQueue q x).queue r = s.queue r :=
  readAt_writeAt_ne ({} : Queue) x h s.queues

theorem State.die_modDie_ne (s : State) {d e : Nat} (h : e ≠ d) (f : Die → Die) : (s.modDie d f).die e = s.die e := by
  rw [State.die, State.modDie, State.setDie, lookup_insertAt_ne _ h, State.die]

/-- What every changed queue shows, a queue that is changed twice shows too. -/
theorem queueP_setQueue {P : Queue → Prop} {f : Queue → Queue} (hf : ∀ x, P (f x)) (s : State) (q r : Nat) (h : P (s.queue q)) :
    P ((s.setQueue r (f (s.queue r))).queue q) := by
  by_cases hq : q = r
  · rw [hq, State.queue_setQueue]
    exact hf _
  · rwa [State.queue_setQueue_ne _ hq]

/-- The queues of a list that are changed one after another show what each change leaves. -/
theorem queueP_foldl_setQueue {P : Queue → Prop} {f : Queue → Queue} (hf : ∀ x, P (f x)) {q : Nat} {qs : List Nat} (hq : q ∈ qs)
    (s : State) : P ((qs.foldl (fun t q => t.setQueue q (f (t.queue q))) s).queue q) := by
  refine foldl_settles (P := fun t => P (t.queue q)) (fun t => ?_) (fun t r => queueP_setQueue hf t q r) hq s
  rw [State.queue_setQueue]
  exact hf _

theorem queue_foldl_setQueue_of_notMem {f : Queue → Queue} {q : Nat} {qs : List Nat} (hq : q ∉ qs) (s : State) :
    (qs.foldl (fun t q => t.setQueue q (f (t.queue q))) s).queue q = s.queue q :=
  List.foldlRecOn (motive := fun t : State => t.queue q = s.queue q) qs _ rfl fun t ht r hr => by
    rw [State.queue_setQueue_ne _ (fun h : q = r => hq (h ▸ hr)), ht]

/-! Creation. -/

/-- The device's dies in the context's mode. -/
def State.inMode (s : State) (ds : List Nat) (mode : Nat) : State :=
  ds.foldl (fun t d => t.modDie d fun x => { x with mode := mode }) s

theorem State.inMode_ctxs (s : State) (ds : List Nat) (mode : Nat) : (s.inMode ds mode).ctxs = s.ctxs :=
  foldl_keeps (p := State.ctxs) (fun _ _ => by rfl) ds s

theorem State.mode_inMode (s : State) {ds : List Nat} {d : Nat} (hd : d ∈ ds) (mode : Nat) :
    ((s.inMode ds mode).die d).mode = mode := by
  refine foldl_settles (P := fun t : State => (t.die d).mode = mode) (fun t => by rw [State.die_modDie]) (fun t e ht => ?_) hd s
  by_cases he : d = e
  · rw [he, State.die_modDie]
  · rwa [State.die_modDie_ne _ he]

/-- The queues of a list made a context's. -/
def State.giveQueues (s : State) (qs : List Nat) (tag : Nat) : State :=
  qs.foldl (fun t q => t.setQueue q { t.queue q with ctx := tag }) s

theorem State.giveQueues_ctxs (s : State) (qs : List Nat) (tag : Nat) : (s.giveQueues qs tag).ctxs = s.ctxs :=
  foldl_keeps (p := State.ctxs) (fun _ _ => by rfl) qs s

theorem State.giveQueues_dies (s : State) (qs : List Nat) (tag : Nat) : (s.giveQueues qs tag).dies = s.dies :=
  foldl_keeps (p := State.dies) (fun _ _ => by rfl) qs s

theorem State.create_eq (s : State) (tag : Nat) (c : Ctx) : ∃ loans, s.create tag c =
    { ((({ s with ctxs := insertAt tag c s.ctxs, free := s.free + 1 } : State).inMode (deviceDies c.mode c.dev) c.mode).giveQueues
        c.queues tag) with loans := loans } := by
  unfold State.create
  dsimp only
  split
  · exact ⟨_, rfl⟩
  · exact ⟨_, rfl⟩

theorem State.create_ctxs (s : State) (tag : Nat) (c : Ctx) : (s.create tag c).ctxs = insertAt tag c s.ctxs := by
  obtain ⟨loans, h⟩ := s.create_eq tag c
  rw [h]
  exact (State.giveQueues_ctxs ..).trans (State.inMode_ctxs ..)

theorem State.create_queue (s : State) (tag : Nat) (c : Ctx) {q : Nat} (hq : q ∈ c.queues) :
    ((s.create tag c).queue q).ctx = tag := by
  obtain ⟨loans, h⟩ := s.create_eq tag c
  rw [h]
  exact queueP_foldl_setQueue (P := fun x => x.ctx = tag) (f := fun x => { x with ctx := tag }) (fun _ => rfl) hq _

theorem State.create_mode (s : State) (tag : Nat) (c : Ctx) {d : Nat} (hd : d ∈ deviceDies c.mode c.dev) :
    ((s.create tag c).die d).mode = c.mode := by
  obtain ⟨loans, h⟩ := s.create_eq tag c
  rw [h]
  exact (congrArg Die.mode (State.die_of_dies (State.giveQueues_dies ..) d)).trans (State.mode_inMode _ hd c.mode)

/-! Destruction. -/

/-- The lanes are owned as before, but for what one context owned. -/
def State.unowned (s : State) (tag : Nat) : Prop := ∀ p ∈ s.txlanes, p.2.owner ≠ some tag

theorem TxLane.without_owner (x : TxLane) (n : Nat) : (x.without n).owner = x.owner := by
  unfold TxLane.without
  split <;> rfl

theorem State.leaveLanes_unowned {s : State} {tag : Nat} (h : s.unowned tag) (n : Nat) : (s.leaveLanes n).unowned tag := by
  intro p hp
  rw [State.leaveLanes_txlanes] at hp
  obtain ⟨x, hx, rfl⟩ := List.mem_map.1 hp
  simpa [TxLane.without_owner] using h x hx

theorem State.leaveTables_unowned (s : State) (tag : Nat) : (s.leaveTables tag).unowned tag := by
  intro p hp
  obtain ⟨x, -, rfl⟩ := List.mem_map.1 hp
  by_cases hx : x.2.owner = some tag
  · simp [hx]
  · simp [hx]

/-- The machine but for its transform lanes. -/
def State.lanesAside (s : State) : State := { s with txlanes := [] }

theorem State.leaveTables_aside (s : State) (tag : Nat) : (s.leaveTables tag).lanesAside = s.lanesAside :=
  foldl_keeps (p := State.lanesAside) (fun _ _ => by rfl) _ s

/-- A destroyed context's commands have left their lanes, and it owns no transform table and no near copy. -/
def State.cleared (s : State) (tag : Nat) : State :=
  (((s.cmds.filter fun p => p.2.ctx == tag).map (·.1)).foldl State.leaveLanes (s.leaveTables tag)).dropWhere fun k => k.ctx == tag

theorem State.cleared_besides (s : State) (tag : Nat) : ∃ t : State, t.lanesAside = s.lanesAside ∧ t.unowned tag ∧
    (s.cleared tag).besides = t.besides :=
  ⟨_, (foldl_keeps (p := State.lanesAside) (fun _ _ => by rfl) _ _).trans (s.leaveTables_aside tag),
    List.foldlRecOn (motive := fun t : State => t.unowned tag) _ _ (s.leaveTables_unowned tag) fun t ht n _ =>
      State.leaveLanes_unowned (s := t) ht n,
    State.dropWhere_besides ..⟩

/-- A queue of a destroyed context: Disabled, empty, and of no context. -/
def Queue.freed (x : Queue) : Queue :=
  { x with st := .disabled, ctx := 0, rd := x.wr, done := x.wr, err := 0, erridx := 0, entries := [], fault := none }

/-- The machine without the context's queues, and with the dies that are left idle in no mode. -/
def State.vacated (s : State) (tag : Nat) (c : Ctx) : State :=
  let idle := fun d => !s.ctxs.any fun p => p.1 != tag && (deviceDies p.2.mode p.2.dev).contains d
  (deviceDies c.mode c.dev).foldl (fun t d => if idle d then t.modDie d fun x => { x with mode := 0 } else t)
    ((s.queuesOf tag).foldl (fun t q => t.setQueue q (t.queue q).freed) (s.cleared tag))

/-- The machine but for its dies and its queues. -/
def State.diesAside (s : State) : State := { s with dies := [], queues := [] }

theorem State.vacated_queues (s : State) (tag : Nat) (c : Ctx) : (s.vacated tag c).queues =
    ((s.queuesOf tag).foldl (fun t q => t.setQueue q (t.queue q).freed) (s.cleared tag)).queues :=
  foldl_keeps (p := State.queues) (fun t d => by split <;> rfl) _ _

theorem State.vacated_aside (s : State) (tag : Nat) (c : Ctx) : (s.vacated tag c).diesAside = (s.cleared tag).diesAside :=
  (foldl_keeps (p := State.diesAside) (fun t d => by split <;> rfl) _ _).trans
    (foldl_keeps (p := State.diesAside) (fun _ _ => by rfl) _ _)

theorem State.vacated_besides (s : State) (tag : Nat) (c : Ctx) : ∃ t : State, t.lanesAside = s.lanesAside ∧ t.unowned tag ∧
    (s.vacated tag c).diesAside.besides = t.diesAside.besides := by
  obtain ⟨t, haside, hown, h⟩ := s.cleared_besides tag
  refine ⟨t, haside, hown, ?_⟩
  rw [State.vacated_aside]
  exact congrArg State.diesAside h

theorem State.vacated_ctxs (s : State) (tag : Nat) (c : Ctx) : (s.vacated tag c).ctxs = s.ctxs := by
  obtain ⟨t, haside, -, h⟩ := s.vacated_besides tag c
  have hctxs := congrArg State.ctxs h
  have hkept := congrArg State.ctxs haside
  exact hctxs.trans hkept

theorem State.vacated_images (s : State) (tag : Nat) (c : Ctx) : (s.vacated tag c).images = s.images := by
  obtain ⟨t, haside, -, h⟩ := s.vacated_besides tag c
  have himages := congrArg State.images h
  have hkept := congrArg State.images haside
  exact himages.trans hkept

theorem State.vacated_unowned (s : State) (tag : Nat) (c : Ctx) : (s.vacated tag c).unowned tag := by
  obtain ⟨t, -, hown, h⟩ := s.vacated_besides tag c
  have hlanes := congrArg State.txlanes h
  exact fun p hp => hown p (Eq.mp (congrArg (p ∈ ·) hlanes) hp)

theorem State.vacated_copies (s : State) (tag : Nat) (c : Ctx) : ∀ x ∈ (s.vacated tag c).copies, x.ctx ≠ tag := by
  have hcopies := congrArg State.copies (s.vacated_aside tag c)
  intro x hx
  have hleft : x ∈ (s.cleared tag).copies := Eq.mp (congrArg (x ∈ ·) hcopies) hx
  simpa using (List.mem_filter.1 hleft).2

/-- What shows of a queue is as what shows of the machine. -/
theorem State.queue_of_besides {s t : State} (h : t.besides = s.besides) (q : Nat) :
    (t.queue q).besides = (s.queue q).besides := by
  have shown : ∀ u : State, (u.queue q).besides = (lookup q u.besides.queues).getD {} := fun u => by
    have hmap : u.besides.queues = u.queues.map (Prod.map id Queue.besides) := rfl
    rw [State.queue, hmap, lookup_map]
    cases lookup q u.queues with
    | none => rfl
    | some x => rfl
  rw [shown, shown, h]

theorem State.cleared_ctx (s : State) (tag q : Nat) : ((s.cleared tag).queue q).ctx = (s.queue q).ctx := by
  obtain ⟨t, haside, -, h⟩ := s.cleared_besides tag
  have hq := congrArg State.queues haside
  have hctx := congrArg Queue.ctx (State.queue_of_besides h q)
  exact hctx.trans (congrArg (fun m => ((lookup q m).getD {}).ctx) hq)

theorem State.mem_queuesOf (s : State) {tag q : Nat} (hq : q < 8192) (htag : tag ≠ 0) (h : (s.queue q).ctx = tag) :
    q ∈ s.queuesOf tag := by
  rw [State.queue] at h
  cases hl : lookup q s.queues with
  | none =>
    rw [hl] at h
    exact absurd h.symm htag
  | some x =>
    rw [hl] at h
    exact List.mem_map.2 ⟨(q, x), List.mem_filter.2 ⟨mem_of_lookup hl, by simp [isMgmt, hq, show x.ctx = tag from h]⟩, rfl⟩

theorem State.vacated_queue (s : State) {tag q : Nat} (c : Ctx) (hq : q < 8192) (htag : tag ≠ 0) :
    ((s.vacated tag c).queue q).ctx ≠ tag ∧
      ((s.queue q).ctx = tag → ((s.vacated tag c).queue q).st = .disabled ∧ ((s.vacated tag c).queue q).entries = []) := by
  rw [show (s.vacated tag c).queue q = _ from congrArg (fun m => (lookup q m).getD ({} : Queue)) (s.vacated_queues tag c)]
  by_cases hin : q ∈ s.queuesOf tag
  · have hfreed := queueP_foldl_setQueue (P := fun x => x.ctx = 0 ∧ x.st = .disabled ∧ x.entries = []) (f := Queue.freed)
      (fun _ => ⟨rfl, rfl, rfl⟩) hin (s.cleared tag)
    obtain ⟨hctx, hrest⟩ := hfreed
    exact ⟨fun h => htag (h.symm.trans hctx), fun _ => hrest⟩
  · have hout : (s.queue q).ctx ≠ tag := fun h => hin (s.mem_queuesOf hq htag h)
    refine ⟨fun h => hout ?_, fun h => absurd h hout⟩
    have hsame := queue_foldl_setQueue_of_notMem (f := Queue.freed) hin (s.cleared tag)
    exact (s.cleared_ctx tag q).symm.trans ((congrArg Queue.ctx hsame).symm.trans h)

/-- What nothing of a filtered list meets. -/
theorem ne_of_mem_filter {α β : Type} [BEq β] [LawfulBEq β] {f : α → β} {b : β} {l : List α} :
    ∀ x ∈ l.filter (fun x => f x != b), f x ≠ b := fun x hx => by simpa using (List.mem_filter.1 hx).2

theorem State.destroy_ctxs (s : State) (tag : Nat) (c : Ctx) : (s.destroy tag c).ctxs = eraseAt tag s.ctxs :=
  congrArg (eraseAt tag) (s.vacated_ctxs tag c)

theorem State.destroy_images (s : State) (tag : Nat) (c : Ctx) : (s.destroy tag c).images = eraseAt tag s.images :=
  congrArg (eraseAt tag) (s.vacated_images tag c)

theorem State.destroy_queue (s : State) (tag q : Nat) (c : Ctx) : (s.destroy tag c).queue q = (s.vacated tag c).queue q := rfl

theorem State.destroy_scales (s : State) (tag : Nat) (c : Ctx) : ∀ p ∈ (s.destroy tag c).scales, p.2.owner ≠ some tag := by
  intro p hp
  obtain ⟨x, -, rfl⟩ := List.mem_map.1 hp
  by_cases hx : x.2.owner = some tag
  · simp [hx]
  · simp [hx]

end Sys2Proof.Machine
end

section
/-! PROOFS. Management commands and their answers (spec 21_host_firmware.md R452 to R455, 16_context.md R361 to R366, R375,
17_faults.md R383, R398, 18_page.md R406, R408, R492, 19_stack_logic.md R423, 20_link.md R448). -/

namespace Sys2Proof.Machine

section
variable {s : State} {m : MgmtRef} {e : QEntry} {code : Nat} {go : QEntry → Out}

theorem runMgmt_refused {status : Nat} (he : s.mgmtEntry m = some e) (hcode : e.type = code)
    (hr : (s.die m.die).refuses code = some status) : runMgmt s m code go = .next (s.reply m status []) := by
  simp [runMgmt, he, hcode, hr, State.reply]

theorem runMgmt_goes (he : s.mgmtEntry m = some e) (hcode : e.type = code) (hr : (s.die m.die).refuses e.type = none) :
    runMgmt s m code go = go e := by
  rw [hcode] at hr
  simp [runMgmt, he, hcode, hr]

theorem runNamed_unknown {tag : QEntry → Nat} {go : QEntry → Nat → Ctx → Out} (he : s.mgmtEntry m = some e)
    (hcode : e.type = code) (hr : (s.die m.die).refuses e.type = none) (hl : lookup (tag e) s.ctxs = none) :
    runNamed s m code tag go = .next (s.reply m 1 []) := by
  rw [runNamed, runMgmt_goes he hcode hr, hl]

theorem runNamed_goes {tag : QEntry → Nat} {go : QEntry → Nat → Ctx → Out} {c : Ctx} (he : s.mgmtEntry m = some e)
    (hcode : e.type = code) (hr : (s.die m.die).refuses e.type = none) (hl : lookup (tag e) s.ctxs = some c)
    (hlow : (s.die c.lowDie).refuses e.type = none) (hheld : s.ctxHeld m (tag e) = false) :
    runNamed s m code tag go = go e (tag e) c := by
  rw [hcode] at hlow
  rw [runNamed, runMgmt_goes he hcode hr, hl]
  simp [hlow, hheld]

end

/-! Commands of a context. -/

section
variable {s : State} {m : MgmtRef} {e : QEntry} {tag : Nat} {c : Ctx} (he : s.mgmtEntry m = some e)
  (hr : (s.die m.die).refuses e.type = none) (hl : lookup tag s.ctxs = some c) (hlow : (s.die c.lowDie).refuses e.type = none)
  (hheld : s.ctxHeld m tag = false)
include he hr hl hlow hheld

/-- A command that names its context in word 1 goes on. -/
theorem runTagged_goes {code : Nat} {go : QEntry → Nat → Ctx → Out} (hcode : e.type = code) (hw : e.w 1 = tag) :
    runNamed s m code tagWord go = go e tag c := by
  subst hw
  exact runNamed_goes (tag := tagWord) he hcode hr hl hlow hheld

theorem ctxkill_goes (hw : e.w 1 = tag) (hcode : e.type = 3) : exec (.ctxkill m) s = .next ((s.killCtx tag).reply m 0 []) := by
  show execCtxkill m s = _
  rw [execCtxkill, runTagged_goes he hr hl hlow hheld hcode hw]

theorem preempt_goes (hw : e.w 1 = tag) (hcode : e.type = 4) : exec (.preempt m) s = .next ((s.preemptCtx tag).reply m 0 []) := by
  show execPreempt m s = _
  rw [execPreempt, runTagged_goes he hr hl hlow hheld hcode hw]

theorem ctxresume_goes (hw : e.w 1 = tag) (hcode : e.type = 5) : exec (.ctxresume m) s = .next ((s.modCtx tag fun x =>
    { x with st := if x.st == .saved then .restoring else x.st }).reply m 0 []) := by
  show execCtxresume m s = _
  rw [execCtxresume, runTagged_goes he hr hl hlow hheld hcode hw]

theorem handler_removed (hw : e.w 1 = tag) (hcode : e.type = 6) (hva : e.num 2 = 0) :
    exec (.handler m) s = .next ((s.modCtx tag fun x => { x with handler := none }).reply m 0 []) := by
  show execHandler m s = _
  rw [execHandler, runTagged_goes he hr hl hlow hheld hcode hw]
  simp [hva]

theorem handler_refused (hw : e.w 1 = tag) (hcode : e.type = 6) (hva : e.num 2 ≠ 0) {t : State}
    (hd : s.describe c.lowDie tag (e.num 2) = .refused t ∨ ∃ va f, s.describe c.lowDie tag (e.num 2) = .suspend va f t) :
    exec (.handler m) s = .next (t.reply m 1 []) := by
  show execHandler m s = _
  rw [execHandler, runTagged_goes he hr hl hlow hheld hcode hw]
  obtain hd | ⟨va, f, hd⟩ := hd
  · simp [hva, hd]
  · simp [hva, hd]

theorem handler_set (hw : e.w 1 = tag) (hcode : e.type = 6) (hva : e.num 2 ≠ 0) {d : KDesc} {code : Code} {t : State}
    (hd : s.describe c.lowDie tag (e.num 2) = .ok d code t) :
    let alone := d.w = 1 ∧ d.h = 1 ∧ d.g = 1 ∧ d.scratch = 0 ∧ d.argoff = 0 ∧ d.arglen = 0
    (alone → exec (.handler m) s = .next ((t.modCtx tag fun x => { x with handler := some (d, code) }).reply m 0 [])) ∧
    (¬ alone → exec (.handler m) s = .next (t.reply m 1 [])) := by
  intro alone
  have hgo : exec (.handler m) s = if alone then
      .next ((t.modCtx tag fun x => { x with handler := some (d, code) }).reply m 0 []) else .next (t.reply m 1 []) := by
    show execHandler m s = _
    rw [execHandler, runTagged_goes he hr hl hlow hheld hcode hw]
    simp only [hd, beq_iff_eq, hva, if_false, Bool.or_eq_true, bne_iff_ne, alone]
    grind
  exact ⟨fun h => hgo.trans (if_pos h), fun h => hgo.trans (if_neg h)⟩

theorem faultring_goes (hw : e.w 1 = tag) (hcode : e.type = 9) (h2 : e.w 2 < 32) (h3 : e.w 3 < 2048) :
    exec (.faultring m) s = .next ((s.readFaultRing tag (e.w 2) (e.w 3)).reply m 0 []) := by
  show execFaultring m s = _
  rw [execFaultring, runTagged_goes he hr hl hlow hheld hcode hw]
  simp [Nat.not_le.2 h2, Nat.not_le.2 h3]

theorem ctxdestroy_goes (hw : e.w 1 = tag) (hcode : e.type = 2) (hst : c.st = .ready ∨ c.st = .saved ∨ c.st = .failed)
    (hshade : ∀ p ∈ s.ctxs, ¬ (p.2.shade = true ∧ p.2.princ = tag ∧ p.2.st = .killing)) :
    (s.shadeOf tag = none → exec (.ctxdestroy m) s = .next ((s.destroy tag c).reply m 0 [])) ∧
    ∀ sh, s.shadeOf tag = some sh → exec (.ctxdestroy m) s = .next ((s.startMgmt m).killCtx sh) := by
  have hexec : exec (.ctxdestroy m) s = execCtxdestroy m s := rfl
  have hnone : (s.ctxs.any fun p => p.2.shade && p.2.princ == tag && p.2.st == .killing) = false := by
    simpa [and_assoc] using hshade
  have hkill : (e.started && c.st == .killing) = false := by
    rcases hst with hst | hst | hst <;> simp [hst]
  have hmay : (c.st != .ready && c.st != .saved && c.st != .failed) = false := by
    rcases hst with hst | hst | hst <;> simp [hst]
  rw [hexec, execCtxdestroy, runTagged_goes he hr hl hlow hheld hcode hw]
  simp only [hnone, hkill, hmay, Bool.false_eq_true, if_false]
  exact ⟨fun h => by rw [h], fun sh h => by rw [h]⟩

theorem ctxdestroy_refused (hw : e.w 1 = tag) (hcode : e.type = 2) (hready : c.st ≠ .ready) (hsaved : c.st ≠ .saved)
    (hfailed : c.st ≠ .failed) (hstarted : e.started = true → c.st ≠ .killing) :
    exec (.ctxdestroy m) s = .next (s.reply m 1 []) := by
  show execCtxdestroy m s = _
  rw [execCtxdestroy, runTagged_goes he hr hl hlow hheld hcode hw]
  have hkill : (e.started && c.st == .killing) = false := by simpa using hstarted
  simp [hkill, hready, hsaved, hfailed]

theorem policy_ctx (hw : e.w 2 = tag) (hcode : e.type = 14) {item : Nat} (hitem : e.w 1 = item) (h0 : 0 < item) (h4 : item ≤ 4) :
    exec (.policy m) s = .next ((s.ctxPolicy tag c item (e.w 3)).reply m 0 []) := by
  show execPolicy m s = _
  rw [execPolicy, runMgmt_goes he hcode hr]
  rw [hcode] at hlow
  have hin : (item == 0 || decide (7 < item)) = false := by
    rw [Bool.or_eq_false_iff]
    exact ⟨by simpa using h0.ne', by simpa using (show item ≤ 7 by omega)⟩
  simp [hitem, hin, h4, hw, hl, hlow, hheld]

theorem inval_goes (hw : e.w 1 % 2 ^ 16 = tag) (hcode : e.type = 7) (hgood : invalBad e = false) :
    let all := e.w 1 / 2 ^ 16 % 2 = 1
    let v : Inval := { ctx := some tag, func := c.func, first := if all then 0 else e.num 2 / 65536
                       count := if all then 2 ^ 41 else e.w 4 * unitPages (e.w 1 / 2 ^ 17 % 4), ats := false
                       flush := (e.w 1 / 2 ^ 19) % 2 = 1, mgmt := some m, holders := [] }
    exec (.inval m) s = .next ((((s.startMgmt m).dropDie tag c.lowDie).beginInval v).remapRefls v) := by
  intro all v
  subst hw
  show execInval m s = _
  rw [execInval, runNamed_goes (tag := fun e => e.w 1 % 65536) he hcode hr hl hlow hheld]
  simp only [hgood, Bool.false_eq_true, if_false, bitOf, bitsOf, beq_iff_eq]
  rfl

theorem inval_refused (hw : e.w 1 % 2 ^ 16 = tag) (hcode : e.type = 7) (hbad : invalBad e = true) :
    exec (.inval m) s = .next (s.reply m 1 []) := by
  subst hw
  show execInval m s = _
  rw [execInval, runNamed_goes (tag := fun e => e.w 1 % 65536) he hcode hr hl hlow hheld]
  simp [hbad]

end

/-! A tag that is not live. -/

/-- The commands that name a context in word 1, but for POLICY, INVAL and the forms of other commands that do. -/
theorem exec_tagged (s : State) {m : MgmtRef} {code : Nat} {i : Instr} (h : (code = 2 ∧ i = .ctxdestroy m) ∨
    (code = 3 ∧ i = .ctxkill m) ∨ (code = 4 ∧ i = .preempt m) ∨ (code = 5 ∧ i = .ctxresume m) ∨ (code = 6 ∧ i = .handler m) ∨
    (code = 9 ∧ i = .faultring m)) : ∃ go, exec i s = runNamed s m code tagWord go := by
  rcases h with ⟨rfl, rfl⟩ | ⟨rfl, rfl⟩ | ⟨rfl, rfl⟩ | ⟨rfl, rfl⟩ | ⟨rfl, rfl⟩ | ⟨rfl, rfl⟩
  · exact ⟨_, Eq.trans (b := execCtxdestroy m s) rfl (by rw [execCtxdestroy])⟩
  · exact ⟨_, Eq.trans (b := execCtxkill m s) rfl (by rw [execCtxkill])⟩
  · exact ⟨_, Eq.trans (b := execPreempt m s) rfl (by rw [execPreempt])⟩
  · exact ⟨_, Eq.trans (b := execCtxresume m s) rfl (by rw [execCtxresume])⟩
  · exact ⟨_, Eq.trans (b := execHandler m s) rfl (by rw [execHandler])⟩
  · exact ⟨_, Eq.trans (b := execFaultring m s) rfl (by rw [execFaultring])⟩

/-! Creation. -/

section
variable {s : State} {m : MgmtRef} {e : QEntry} (he : s.mgmtEntry m = some e) (hcode : e.type = 1)
  (hr : (s.die m.die).refuses 1 = none)
include he hcode hr

theorem ctxcreate_goes (hup : s.portUp m.func = true) (hgot : (s.hostBytes (e.num 1) 64).2 = false) :
    let w := fun i => ((wordsOfBytes (s.hostBytes (e.num 1) 64).1).getD i 0).toNat
    let c := recordCtx s.part w m.func
    recordBad s.part w = false → (s.die c.lowDie).refuses 1 = none → s.createBad c = false → s.newTag ≠ 0 →
      exec (.ctxcreate m) s = .next ((s.create s.newTag c).reply m 0 [s.newTag]) := by
  intro w c hrec hlow hgood htag
  show execCtxcreate m s = _
  rw [execCtxcreate, runMgmt_goes he hcode (hcode ▸ hr)]
  have hread : ¬ (!s.portUp m.func || (s.hostBytes (e.num 1) 64).2 || recordBad s.part w) = true := by simp [hup, hgot, hrec]
  have hfree : ¬ (s.createBad c || s.newTag == 0) = true := by simp [hgood, htag]
  refine (if_neg hread).trans ?_
  show (match (s.die c.lowDie).refuses 1 with
    | some st => Host.Outcome.next (s.reply m st [])
    | none => _) = _
  rw [hlow]
  exact if_neg hfree

theorem ctxcreate_refused
    (hbad : (s.hostBytes (e.num 1) 64).2 = true ∨
      recordBad s.part (fun i => ((wordsOfBytes (s.hostBytes (e.num 1) 64).1).getD i 0).toNat) = true) :
    exec (.ctxcreate m) s = .next (s.reply m 1 []) := by
  show execCtxcreate m s = _
  rw [execCtxcreate, runMgmt_goes he hcode (hcode ▸ hr)]
  refine if_pos ?_
  rcases hbad with hbad | hbad
  · simp [hbad]
  · simp only [hbad, Bool.or_true]

end

/-! Commands of a die. -/

/-- The codes of the commands, and the command of each. -/
noncomputable def mgmtCommands (m : MgmtRef) : List (Nat × Instr) :=
  [(1, .ctxcreate m), (2, .ctxdestroy m), (3, .ctxkill m), (4, .preempt m), (5, .ctxresume m), (6, .handler m), (7, .inval m),
    (8, .resume m), (9, .faultring m), (10, .pageattr m), (11, .errlog m), (12, .linkstat m), (13, .diereset m), (14, .policy m),
    (15, .fwload m), (16, .attest m)]

/-- Every command runs under its code. -/
theorem exec_mgmt (s : State) {m : MgmtRef} {code : Nat} {i : Instr} (h : (code, i) ∈ mgmtCommands m) :
    ∃ go, exec i s = runMgmt s m code go := by
  simp only [mgmtCommands, List.mem_cons, Prod.mk.injEq, List.not_mem_nil, or_false] at h
  rcases h with ⟨rfl, rfl⟩ | ⟨rfl, rfl⟩ | ⟨rfl, rfl⟩ | ⟨rfl, rfl⟩ | ⟨rfl, rfl⟩ | ⟨rfl, rfl⟩ | ⟨rfl, rfl⟩ | ⟨rfl, rfl⟩ |
    ⟨rfl, rfl⟩ | ⟨rfl, rfl⟩ | ⟨rfl, rfl⟩ | ⟨rfl, rfl⟩ | ⟨rfl, rfl⟩ | ⟨rfl, rfl⟩ | ⟨rfl, rfl⟩ | ⟨rfl, rfl⟩ <;> exact ⟨_, rfl⟩

theorem mgmt_refused {s : State} {m : MgmtRef} {e : QEntry} {i : Instr} {status : Nat} (he : s.mgmtEntry m = some e)
    (hr : (s.die m.die).refuses e.type = some status) (hi : (e.type, i) ∈ mgmtCommands m) :
    exec i s = .next (s.reply m status []) := by
  obtain ⟨go, hgo⟩ := exec_mgmt s hi
  exact hgo.trans (runMgmt_refused he rfl hr)

theorem Die.refuses_warm {d : Die} (h : d.warmed = true) (code : Nat) : d.refuses code = some 3 := by simp [Die.refuses, h]

theorem Die.refuses_recovery {d : Die} {code : Nat} (hw : d.warmed = false) (h : d.phase = .recovery ∨ d.rejected = true)
    (hcode : code ≠ 15) : d.refuses code = some 1 := by
  rcases h with h | h <;> simp [Die.refuses, hw, h, hcode]

theorem Die.refuses_fwload {d : Die} (hw : d.warmed = false) : d.refuses 15 = none := by simp [Die.refuses, hw]

theorem fwload_goes {s : State} {m : MgmtRef} {e : QEntry} (he : s.mgmtEntry m = some e) (hw : (s.die m.die).warmed = false)
    (hcode : e.type = 15) (hup : s.portUp m.func = true) (hgot : (s.hostBytes (e.num 1) (e.w 3)).2 = false) :
    exec (.fwload m) s = .next (if s.imageOk m.die (s.hostBytes (e.num 1) (e.w 3)).1 then (s.modDie m.die fun d => { d with
      digest := Config.fwDigest (s.hostBytes (e.num 1) (e.w 3)).1
      svn := Config.fwSvn (s.hostBytes (e.num 1) (e.w 3)).1
      rejected := false
      phase := if d.phase == .recovery then .wiping else d.phase }).reply m 0 [] else s.reply m 4 []) := by
  show execFwload m s = _
  rw [execFwload, runMgmt_goes he hcode (by rw [hcode]; exact Die.refuses_fwload hw)]
  by_cases hok : s.imageOk m.die (s.hostBytes (e.num 1) (e.w 3)).1 = true
  · rw [if_pos hok, if_neg (by simp [hup, hgot, hok])]
  · rw [if_neg hok, if_pos (by simp [hok])]

section
variable {s : State} {m : MgmtRef} {e : QEntry} (he : s.mgmtEntry m = some e) (hr : (s.die m.die).refuses e.type = none)
include he hr

theorem resume_one (hcode : e.type = 8) (hgood : resumeBad e = false) (hone : e.w 1 / 2 % 2 = 0) :
    (∀ f, (s.faults.find? fun f => f.die == m.die && f.id == e.w 2) = some f →
      exec (.resume m) s = .next ((s.answerFault (e.w 1 % 2 == 1) f).reply m 0 [])) ∧
    ((s.faults.find? fun f => f.die == m.die && f.id == e.w 2) = none → exec (.resume m) s = .next (s.reply m 1 [])) := by
  have hbit : bitOf (e.w 1) 1 = false := by simp [bitOf, hone]
  have hfail : bitOf (e.w 1) 0 = (e.w 1 % 2 == 1) := by rw [bitOf, Nat.pow_zero, Nat.div_one]
  have hexec : exec (.resume m) s = execResume m s := rfl
  rw [hexec, execResume, runMgmt_goes he hcode hr]
  simp only [hgood, hbit, hfail, Bool.false_eq_true, if_false]
  exact ⟨fun f hf => by rw [hf], fun hf => by rw [hf]⟩

theorem resume_range (hcode : e.type = 8) (hgood : resumeBad e = false) (hrange : e.w 1 / 2 % 2 = 1) {c : Ctx}
    (hl : lookup (e.w 1 / 2 ^ 16) s.ctxs = some c) (hlow : (s.die c.lowDie).refuses 8 = none)
    (hheld : s.ctxHeld m (e.w 1 / 2 ^ 16) = false) : exec (.resume m) s =
      .next (((s.faults.filter fun f => f.ctx == e.w 1 / 2 ^ 16 && inPages (e.num 3 / 65536) (e.w 5) f.page).foldl
        (fun t f => t.answerFault (e.w 1 % 2 == 1) f) s).reply m 0 []) := by
  show execResume m s = _
  rw [execResume, runMgmt_goes he hcode hr]
  have hbit : bitOf (e.w 1) 1 = true := by simp [bitOf, hrange]
  have hfail : bitOf (e.w 1) 0 = (e.w 1 % 2 == 1) := by rw [bitOf, Nat.pow_zero, Nat.div_one]
  norm_num only at hl hheld ⊢
  simp only [hgood, hbit, hfail, hl, hlow, hheld, Bool.false_eq_true, if_true, if_false]

theorem resume_refused (hcode : e.type = 8) (hbad : resumeBad e = true) : exec (.resume m) s = .next (s.reply m 1 []) := by
  show execResume m s = _
  rw [execResume, runMgmt_goes he hcode hr]
  simp [hbad]

theorem errlog_die (hcode : e.type = 11) (hw : e.w 1 = 0) : exec (.errlog m) s =
    .next ((s.copyLogs m.func (e.num 2) 0 [m.die]).2.reply m 0 [(s.copyLogs m.func (e.num 2) 0 [m.die]).1]) := by
  show execErrlog m s = _
  rw [execErrlog, runMgmt_goes he hcode hr]
  simp [hw]

theorem errlog_ctx (hcode : e.type = 11) (hw : e.w 1 ≠ 0) {c : Ctx} (hl : lookup (e.w 1) s.ctxs = some c)
    (hlow : (s.die c.lowDie).refuses 11 = none) (hheld : s.ctxHeld m (e.w 1) = false) :
    exec (.errlog m) s = .next ((s.copyLogs m.func (e.num 2) (e.w 1) (deviceDies c.mode c.dev)).2.reply m 0
      [(s.copyLogs m.func (e.num 2) (e.w 1) (deviceDies c.mode c.dev)).1]) := by
  show execErrlog m s = _
  rw [execErrlog, runMgmt_goes he hcode hr]
  simp [hw, hl, hlow, hheld]

theorem linkstat_goes (hcode : e.type = 12) (hl : s.isLink (e.w 1) = true) : exec (.linkstat m) s = .next (s.reply m 0
    [(s.link (e.w 1)).status % 2 ^ 32, (s.link (e.w 1)).status / 2 ^ 32]) := by
  show execLinkstat m s = _
  rw [execLinkstat, runMgmt_goes he hcode hr]
  simp [hl]

theorem linkstat_refused (hcode : e.type = 12) (hl : s.isLink (e.w 1) = false) :
    exec (.linkstat m) s = .next (s.reply m 1 []) := by
  show execLinkstat m s = _
  rw [execLinkstat, runMgmt_goes he hcode hr]
  simp [hl]

theorem diereset_refused (hcode : e.type = 13)
    (hd : s.hasDie (e.w 1) = false ∨ (e.w 1 = m.die ∧ (s.die m.die).warmed = false)) :
    exec (.diereset m) s = .next (s.reply m 1 []) := by
  show execDiereset m s = _
  rw [execDiereset, runMgmt_goes he hcode hr]
  rcases hd with hd | ⟨hd, hw⟩
  · simp [hd]
  · simp [hd, hw]

theorem diereset_again (hcode : e.type = 13) (hd : s.hasDie (e.w 1) = true) (hw : (s.die (e.w 1)).warmed = true) :
    exec (.diereset m) s = .next (s.reply m 0 []) := by
  show execDiereset m s = _
  rw [execDiereset, runMgmt_goes he hcode hr]
  simp [hd, hw]

theorem diereset_goes (hcode : e.type = 13) (hd : s.hasDie (e.w 1) = true) (hne : e.w 1 ≠ m.die)
    (hw : (s.die (e.w 1)).warmed = false) (hother : (s.die (e.w 1)).mode ≠ 1 ∨ ∃ d < 4, d ≠ e.w 1 ∧ s.dieReady d = true) :
    exec (.diereset m) s = .next ((s.warmReset (e.w 1) false).reply m 0 []) := by
  have hmay : (e.w 1 == m.die || ((s.die (e.w 1)).mode == 1 &&
      (List.range 4).all fun x => x == e.w 1 || !s.dieReady x)) = false := by
    rw [Bool.or_eq_false_iff, Bool.and_eq_false_iff]
    refine ⟨by simpa using hne, ?_⟩
    rcases hother with hmode | ⟨d, hd, hde, hready⟩
    · exact .inl (by simpa using hmode)
    · exact .inr (List.all_eq_false.2 ⟨d, List.mem_range.2 hd, by simp [hde, hready]⟩)
  show execDiereset m s = _
  rw [execDiereset, runMgmt_goes he hcode hr]
  simp only [hd, hw, hmay, Bool.not_true, Bool.false_eq_true, if_false]

theorem pageattr_goes (hcode : e.type = 10) (haddr : e.num 1 % 65536 = 0) (hattr : e.w 3 ≤ 1) {mode dev : Nat}
    (hmode : (s.die m.die).mode = mode) (hdev : (mode = 1 ∧ dev = 0) ∨ (mode = 2 ∧ dev = m.die / 2) ∨ (mode = 4 ∧ dev = m.die))
    {bs : List (Nat × Nat)} (hbs : s.pageBlocks mode dev (e.num 1) = bs.map some) :
    exec (.pageattr m) s = .next ((bs.foldl (fun t p => t.setBlock (e.w 3 == 1) p) s).reply m 0 []) := by
  have hdevice : (if mode == 2 then m.die / 2 else if mode == 4 then m.die else 0) = dev := by
    rcases hdev with ⟨rfl, rfl⟩ | ⟨rfl, rfl⟩ | ⟨rfl, rfl⟩ <;> rfl
  have hmode0 : mode ≠ 0 := by omega
  show execPageattr m s = _
  rw [execPageattr, runMgmt_goes he hcode hr]
  simp only [hmode, hdevice, hbs]
  simp [hmode0, haddr, Nat.not_lt.2 hattr, List.filterMap_map]

theorem policy_marks (hcode : e.type = 14) (hw : e.w 1 = 5) (hlo : 0 < e.w 4) (hlt : e.w 4 < e.w 3) (hhi : e.w 3 ≤ 65535) :
    exec (.policy m) s = .next ((s.modDie m.die fun d => { d with hi := e.w 3, lo := e.w 4 }).reply m 0 []) := by
  show execPolicy m s = _
  rw [execPolicy, runMgmt_goes he hcode hr]
  simp [hw, hlo.ne', Nat.not_le.2 hlt, Nat.not_lt.2 hhi]

theorem policy_log (hcode : e.type = 14) (hw : e.w 1 = 6) :
    exec (.policy m) s = .next ((s.modDie m.die fun d => { d with logAt := min 256 (e.w 3) }).reply m 0 []) := by
  show execPolicy m s = _
  rw [execPolicy, runMgmt_goes he hcode hr]
  simp [hw, clamp]

theorem policy_power (hcode : e.type = 14) (hw : e.w 1 = 7) :
    exec (.policy m) s = .next ((s.modDie m.die fun d => { d with power := min s.part.envelope (e.w 3) }).reply m 0 []) := by
  show execPolicy m s = _
  rw [execPolicy, runMgmt_goes he hcode hr]
  simp [hw]

theorem attest_refused (hcode : e.type = 16) (hid : (s.die m.die).identity = false) :
    exec (.attest m) s = .next (s.reply m 1 []) := by
  show execAttest m s = _
  rw [execAttest, runMgmt_goes he hcode hr]
  simp [hid]

theorem attest_goes (hcode : e.type = 16) (hid : (s.die m.die).identity = true) :
    exec (.attest m) s = .next ((s.mgmtWrite m.func (e.num 9)
      (s.report m.die (bytesOfWords ((List.range 8).map fun i => e.w (1 + i))) ++ Config.sm2Sign m.die
        (Config.sm3 (s.report m.die (bytesOfWords ((List.range 8).map fun i => e.w (1 + i))))))).reply m 0 []) := by
  show execAttest m s = _
  rw [execAttest, runMgmt_goes he hcode hr]
  simp [hid]

end

/-- Settles O60: a created and a destroyed context are what the folds over its queues and dies leave; each command runs under its
code once its die and its context's lowest die serve it. -/
theorem managementCommands : Obligations.ManagementCommands := by
  unfold Obligations.ManagementCommands
  refine ⟨fun s tag c => ?_, fun s tag c _ => ?_, ⟨fun s m e tag c he hr hl hlow hheld => ⟨fun hw => ?_, fun hw hcode => ?_,
    fun hw hcode => ?_⟩, fun s m e he hr hl i hi => ?_, fun s m e he hcode hr hup => ?_⟩, fun s m e he =>
    ⟨fun hw i hi => ?_, fun hw h hcode i hi => ?_, fun hw hcode hup hgot => fwload_goes he hw hcode hup hgot, fun hr => ?_⟩⟩
  · refine ⟨?_, fun k hk => ?_, fun q hq => s.create_queue tag c hq, fun d hd => s.create_mode tag c hd⟩
    · rw [s.create_ctxs, lookup_insertAt_self]
    · rw [s.create_ctxs, lookup_insertAt_ne _ hk]
  · refine ⟨?_, fun k hk => ?_, ?_, fun k hk => ?_, fun q hq htag => s.vacated_queue c hq htag, ne_of_mem_filter,
      ne_of_mem_filter, ne_of_mem_filter, ne_of_mem_filter, ne_of_mem_filter, ne_of_mem_filter, ne_of_mem_filter,
      s.vacated_copies tag c,
      ne_of_mem_filter, ne_of_mem_filter, s.destroy_scales tag c, s.vacated_unowned tag c⟩
    · rw [s.destroy_ctxs, lookup_eraseAt_self]
    · rw [s.destroy_ctxs, lookup_eraseAt_ne hk]
    · rw [s.destroy_images, lookup_eraseAt_self]
    · rw [s.destroy_images, lookup_eraseAt_ne hk]
  · exact ⟨ctxkill_goes he hr hl hlow hheld hw, preempt_goes he hr hl hlow hheld hw, ctxresume_goes he hr hl hlow hheld hw,
      handler_removed he hr hl hlow hheld hw, fun hcode hva => ⟨fun t hd => handler_refused he hr hl hlow hheld hw hcode hva hd,
        fun d code t hd => handler_set he hr hl hlow hheld hw hcode hva hd⟩, faultring_goes he hr hl hlow hheld hw,
      ctxdestroy_goes he hr hl hlow hheld hw, ctxdestroy_refused he hr hl hlow hheld hw⟩
  · have hgo := fun item h => policy_ctx he hr hl hlow hheld hw hcode (item := item) h
    refine ⟨fun h => hgo 1 h (by decide) (by decide), fun h => ?_, fun h => hgo 3 h (by decide) (by decide),
      fun h => hgo 4 h (by decide) (by decide)⟩
    have hprio := hgo 2 h (by decide) (by decide)
    simpa [State.ctxPolicy, clamp] using hprio
  · exact ⟨inval_goes he hr hl hlow hheld hw hcode, inval_refused he hr hl hlow hheld hw hcode⟩
  · obtain ⟨go, hgo⟩ := exec_tagged s hi
    exact hgo.trans (runNamed_unknown he rfl hr hl)
  · exact ⟨fun hgot hrec hlow hgood htag => ctxcreate_goes he hcode hr hup hgot hrec hlow hgood htag,
      ctxcreate_refused he hcode hr⟩
  · exact mgmt_refused he (Die.refuses_warm hw _) hi
  · exact mgmt_refused he (Die.refuses_recovery hw h hcode) hi
  · refine ⟨fun hcode hgood hone => resume_one he hr hcode hgood hone,
      fun hcode hgood hrange c hl hlow hheld => resume_range he hr hcode hgood hrange hl hlow hheld, resume_refused he hr,
      errlog_die he hr, fun hcode hw c hl hlow hheld => errlog_ctx he hr hcode hw hl hlow hheld, linkstat_goes he hr,
      linkstat_refused he hr, diereset_refused he hr, diereset_again he hr, diereset_goes he hr,
      fun hcode haddr hattr mode dev hmode hdev bs hbs => pageattr_goes he hr hcode haddr hattr hmode hdev hbs,
      policy_marks he hr, policy_log he hr, policy_power he hr, attest_refused he hr, attest_goes he hr⟩

end Sys2Proof.Machine
end

section
/-! PROOFS. Walks and TLBs (spec 18_page.md R402 to R405), by the rules of Table 18-3 in their order. -/

namespace Sys2Proof.Machine

theorem bitOf_eq_testBit (w k : Nat) : bitOf w k = w.testBit k := by
  rw [bitOf, Nat.testBit_eq_decide_div_mod_eq]
  rfl

/-! Entries (Tables 18-1 and 18-2). -/

section
variable {e l : Nat}

theorem leafBad_eq_false_iff : leafBad e l = false ↔
    e / 2 ^ 52 % 2 ^ 12 = 0 ∧ e / 2 ^ 10 % 2 ^ 6 = 0 ∧ l < 3 ∧ e / 2 ^ 16 % 2 ^ 36 * 65536 % levelSpan l = 0 := by
  simp only [leafBad, bitsOf, Bool.or_eq_false_iff, bne_eq_false_iff_eq, decide_eq_false_iff_not, Nat.not_le]
  tauto

theorem tableBad_eq_false_iff : tableBad e l = false ↔
    e / 2 ^ 52 % 2 ^ 12 = 0 ∧ e / 2 ^ 2 % 2 ^ 6 = 0 ∧ l ≠ 0 ∧ e / 2 ^ 8 % 2 ^ 44 * 256 % tableAlign l = 0 := by
  simp only [tableBad, bitsOf, Bool.or_eq_false_iff, bne_eq_false_iff_eq, beq_eq_false_iff_ne]
  tauto

end

/-- A leaf does not permit an access. -/
def leafLacks (e : Nat) (a : Access) : Prop :=
  match a with
  | .read => e.testBit 2 = false
  | .write => e.testBit 3 = false
  | .exec => e.testBit 4 = false
  | .modify => e.testBit 2 = false ∨ e.testBit 3 = false

section
variable {e l va : Nat} {a : Access}

theorem Access.writes_iff : a.writes = true ↔ a = .write ∨ a = .modify := by
  cases a <;> simp [Access.writes]

theorem leafOutcome_reserved (h : e / 2 ^ 8 % 4 = 3) : leafOutcome e l va a = .fail 6 := by
  have hpsn : bitsOf e 8 2 = 3 := h
  unfold leafOutcome
  simp [hpsn]

theorem leafOutcome_poisoned (h : e / 2 ^ 8 % 4 = 2 ∨ e / 2 ^ 8 % 4 = 1 ∧ (a = .write ∨ a = .modify)) :
    leafOutcome e l va a = .fail 5 := by
  unfold leafOutcome
  rcases h with h | ⟨h, ha⟩
  · have hpsn : bitsOf e 8 2 = 2 := h
    simp [hpsn]
  · have hpsn : bitsOf e 8 2 = 1 := h
    simp [hpsn, Access.writes_iff.2 ha]

/-- Rules 8 to 10: a leaf that no poison stops. -/
theorem leafOutcome_clean (h : e / 2 ^ 8 % 4 = 0 ∨ e / 2 ^ 8 % 4 = 1 ∧ ¬ (a = .write ∨ a = .modify)) :
    (e.testBit 7 = true → leafOutcome e l va a = .suspend 3) ∧
    (e.testBit 7 = false → e.testBit 6 = true → leafOutcome e l va a = .suspend 2) ∧
    (e.testBit 7 = false → e.testBit 6 = false → leafLacks e a → leafOutcome e l va a = .fail 4) ∧
    (e.testBit 7 = false → e.testBit 6 = false → ¬ leafLacks e a → leafOutcome e l va a = .ok {
      base := va / levelSpan l * levelSpan l, size := levelSpan l, host := e.testBit 5, pa := e / 2 ^ 16 % 2 ^ 36 * 65536
      r := e.testBit 2, w := e.testBit 3, x := e.testBit 4, psn := decide (e / 2 ^ 8 % 4 = 1) }) := by
  have hpsn : (bitsOf e 8 2 == 3) = false ∧ (bitsOf e 8 2 == 2 || bitsOf e 8 2 == 1 && a.writes) = false := by
    rcases h with h | ⟨h, ha⟩
    · have hbits : bitsOf e 8 2 = 0 := h
      simp [hbits]
    · have hbits : bitsOf e 8 2 = 1 := h
      have hw : a.writes = false := Bool.eq_false_iff.2 fun hw => ha (Access.writes_iff.1 hw)
      simp [hbits, hw]
  obtain ⟨h3, h5⟩ := hpsn
  unfold leafOutcome
  simp only [h3, h5, Bool.false_eq_true, if_false, bitOf_eq_testBit]
  refine ⟨fun h7 => by simp [h7], fun h7 h6 => by simp [h7, h6], fun h7 h6 hl => ?_, fun h7 h6 hl => ?_⟩
  · cases a <;> simp_all [leafLacks]
  · cases a <;> simp_all [leafLacks, bitsOf] <;> rfl

end

/-! The walk. -/

section
variable {s : State} {die mode dev va l table : Nat} {a : Access} {ls : List Nat}

theorem walkFrom_none (h : s.readEntry die mode dev (table + 8 * levelIndex l va) = none) :
    (s.walkFrom die mode dev va a (l :: ls) table).1 = .fail 6 := by
  simp [State.walkFrom, h]

theorem walkFrom_poisoned {e : Nat} (h : s.readEntry die mode dev (table + 8 * levelIndex l va) = some (e, true)) :
    (s.walkFrom die mode dev va a (l :: ls) table).1 = .fail 8 := by
  simp [State.walkFrom, h]

section
variable {e : Nat} (h : s.readEntry die mode dev (table + 8 * levelIndex l va) = some (e, false))
include h

theorem walkFrom_unset (h0 : e.testBit 0 = false) : (s.walkFrom die mode dev va a (l :: ls) table).1 = .suspend 1 := by
  simp [State.walkFrom, h, bitOf_eq_testBit, h0]

theorem walkFrom_leaf (h0 : e.testBit 0 = true) (h1 : e.testBit 1 = true) :
    (s.walkFrom die mode dev va a (l :: ls) table).1 = if leafBad e l then .fail 6 else leafOutcome e l va a := by
  simp [State.walkFrom, h, bitOf_eq_testBit, h0, h1]

theorem walkFrom_table (h0 : e.testBit 0 = true) (h1 : e.testBit 1 = false) :
    (s.walkFrom die mode dev va a (l :: ls) table).1 = if tableBad e l then .fail 6
      else (s.walkFrom die mode dev va a ls (e / 2 ^ 8 % 2 ^ 44 * 256)).1 := by
  cases hbad : tableBad e l <;> simp [State.walkFrom, h, bitOf_eq_testBit, h0, h1, hbad, bitsOf]

end
end

/-- What a walk with a malformed address, or one that reads a poisoned entry, ends with. -/
theorem walk_high {s : State} {die ctx va : Nat} {a : Access} (hctx : lookup ctx s.ctxs ≠ none) (hva : 2 ^ 57 ≤ va) :
    s.walk die ctx va a = (.fail 7, s) := by
  obtain ⟨c, hc⟩ := Option.ne_none_iff_exists'.1 hctx
  have hhigh : 144115188075855872 ≤ va := hva
  simp [State.walk, State.walkRead, hc, hhigh, endWalk]

theorem walk_poisoned {s : State} {die ctx va : Nat} {a : Access} {c : Ctx} (hva : va < 2 ^ 57) (hc : lookup ctx s.ctxs = some c)
    (h : (s.walkTables die ctx va c a).2.1 = .fail 8) :
    ∃ t : State, s.walk die ctx va a = (.fail 5, t.logError ⟨die, ctx, 2, false, 0, 0, va, t.now, 0⟩) := by
  have hlow : ¬ 144115188075855872 ≤ va := Nat.not_le.2 hva
  simp only [State.walk, State.walkRead, hc, hlow, if_false, h]
  exact ⟨_, rfl⟩

/-! TLBs. -/

/-- An entry of a TLB serves an access. -/
def State.covers (s : State) (core ctx va : Nat) (a : Access) (e : TlbEntry) : Prop :=
  e.core = core ∧ e.ctx = ctx ∧ e.base ≤ va ∧ va < e.base + e.size ∧ e.leaf.permits a = true ∧
    (e.host = true → (s.funcOf ctx, (e.pa + (va - e.base)) / 65536) ∈ s.atsHeld)

section
variable {s : State} {core ctx va : Nat} {a : Access}

theorem tlbHit_some {l : Leaf} (h : s.tlbHit core ctx va a = some l) : ∃ e ∈ s.tlb, s.covers core ctx va a e ∧ e.leaf = l := by
  obtain ⟨e, he, hl⟩ := Option.map_eq_some_iff.1 h
  have hcond := List.find?_some he
  simp only [Bool.and_eq_true, beq_iff_eq, decide_eq_true_eq, Bool.or_eq_true, Bool.not_eq_true', List.contains_iff_mem] at hcond
  obtain ⟨⟨⟨⟨⟨hcore, hctx⟩, hbase⟩, hend⟩, hpermits⟩, hhost⟩ := hcond
  refine ⟨e, List.mem_of_find?_eq_some he, ⟨hcore, hctx, hbase, hend, hpermits, fun hh => ?_⟩, hl⟩
  exact hhost.resolve_left (by simp [hh])

theorem tlbHit_ne_none (h : ∃ e ∈ s.tlb, s.covers core ctx va a e) : s.tlbHit core ctx va a ≠ none := by
  obtain ⟨e, he, hcore, hctx, hbase, hend, hpermits, hhost⟩ := h
  intro hnone
  have hno := List.find?_eq_none.1 (Option.map_eq_none_iff.1 hnone) e he
  refine hno ?_
  simp only [Bool.and_eq_true, beq_iff_eq, decide_eq_true_eq, Bool.or_eq_true, Bool.not_eq_true', List.contains_iff_mem]
  refine ⟨⟨⟨⟨⟨hcore, hctx⟩, hbase⟩, hend⟩, hpermits⟩, ?_⟩
  cases hh : e.host with
  | false => exact .inl rfl
  | true => exact .inr (hhost hh)

theorem translate_hit {l : Leaf} (h : s.tlbHit core ctx va a = some l) :
    s.translate core ctx va a = (if l.psn = true ∧ a.writes = true then .fail 5 else .ok l, s) := by
  simp [State.translate, h]

end

/-! The end of a walk for its requests (R403). -/

section
variable {s : State} {n : Nat} {w : Walk} (hw : lookup n s.walks = some w)
  (hheld : ∃ p ∈ (s.walks.filter fun p => p.2.die == w.die).take 4096, p.1 = n)
  (hwait : s.walkWaits w.die w.ctx w.va .read = false)
include hw hheld hwait

theorem pageWalkComplete_eq : exec (.pageWalkComplete n) s =
    if w.stale then .next { s with walks := insertAt n { w with stale := false } s.walks }
    else .next (s.serveWalk (s.merged w)) := by
  have hexec : exec (.pageWalkComplete n) s = execPageWalkComplete n s := rfl
  have hhere : ((s.heldWalks w.die).all fun p => p.1 != n) = false := by
    obtain ⟨p, hp, hpn⟩ := hheld
    exact List.all_eq_false.2 ⟨p, hp, by simp [hpn]⟩
  simp only [hexec, execPageWalkComplete, hw, hhere, hwait, Bool.false_eq_true, if_false]

end

/-- After the first request of a walk, none is logged. -/
theorem serve_rest (ps : List (Nat × Walk)) (t : State) :
    (ps.foldl (fun (r : State × Bool) p => (r.1.walked p.2 r.2, false)) (t, false)).1 =
      ps.foldl (fun t q => t.walked q.2 false) t := by
  induction ps generalizing t with
  | nil => rfl
  | cons p ps ih => exact ih _

theorem serveWalk_cons (s : State) (p : Nat × Walk) (ps : List (Nat × Walk)) :
    s.serveWalk (p :: ps) = ps.foldl (fun t q => t.walked q.2 false)
      (({ s with walks := s.walks.filter fun q => !((p :: ps).map (·.1)).contains q.1 } : State).walked p.2 true) :=
  serve_rest ps _

end Sys2Proof.Machine
end

section
/-! PROOFS. Invalidation (spec 18_page.md R405, R406, 21_host_firmware.md R451): the runs that it closes change no context and no
walk, and what it releases names no page of it any more. -/

namespace Sys2Proof.Machine

/-! An open run that closes (R230). -/

section
variable (s : State)

theorem State.putCopy_besides (near : Bool) (a : Agent) (c : CopyLine) : (s.putCopy near a c).besides = s.besides := by
  unfold State.putCopy
  extract_lets held s1 s2
  have h2 : s2.besides = s.besides := by
    unfold s2
    split
    · rfl
    · split
      · exact State.leaveL2_besides ..
      · rfl
  exact h2

theorem State.flush_besides (c : Cmd) (l : Option LineW) : (s.flush c l).besides = s.besides := by
  cases l with
  | none => rfl
  | some l =>
    refine ite_besides (s.putCopy_besides ..) ((State.homeWrite_besides ..).trans ?_)
    exact ite_besides rfl (ite_besides rfl (s.debit_besides ..))

/-- The machine but for what the close of a run may change. -/
def State.runsAside : State := { s.besides with cmds := [], engines := [] }

theorem State.setPointer_aside (c : Cmd) (bits : Nat) : (s.setPointer c bits).runsAside = s.runsAside := by
  unfold State.setPointer
  dsimp only
  split <;> rfl

theorem State.setPointer_cmds (c : Cmd) (bits : Nat) : (s.setPointer c bits).cmds = s.cmds := by
  unfold State.setPointer
  dsimp only
  split <;> rfl

theorem State.closeRun_aside (n : Nat) : (s.closeRun n).runsAside = s.runsAside := by
  unfold State.closeRun
  split
  · rfl
  · next c _ =>
    split
    · rfl
    · have hflush := congrArg (fun t : State => { t with cmds := [], engines := [] }) (s.flush_besides c c.line)
      exact (State.setPointer_aside ..).trans hflush

theorem State.closeRun_cmd_ne {n k : Nat} (h : k ≠ n) : (s.closeRun n).cmd k = s.cmd k := by
  unfold State.closeRun
  split
  · rfl
  · next c _ =>
    split
    · rfl
    · have hflush := congrArg State.cmds (s.flush_besides c c.line)
      exact (lookup_insertAt_ne _ h _).trans (congrArg (lookup k) ((State.setPointer_cmds ..).trans hflush))

theorem State.closeRuns_aside (p : Cmd → Bool) : (s.closeRuns p).runsAside = s.runsAside :=
  foldl_keeps (p := State.runsAside) (fun t n => t.closeRun_aside n) _ s

end

/-! What an invalidation names. -/

section
variable {s t : State}

theorem invalNames_of_ctxs (h : t.ctxs = s.ctxs) (v : Inval) (ctx : Nat) : t.invalNames v ctx = s.invalNames v ctx := by
  simp only [State.invalNames, State.funcOf, h]

theorem invalXl_of_ctxs (h : t.ctxs = s.ctxs) (v : Inval) (ctx : Nat) (x : Xl) : t.invalXl v ctx x = s.invalXl v ctx x := by
  simp only [State.invalXl, invalNames_of_ctxs h]

theorem ctxs_of_aside (h : t.runsAside = s.runsAside) : t.ctxs = s.ctxs := by
  have hctxs := congrArg State.ctxs h
  exact hctxs

/-- A command holds no translation that an invalidation names. -/
def State.released (s t : State) (v : Inval) (n : Nat) : Prop :=
  ∀ c, t.cmd n = some c → ∀ x ∈ c.xls, s.invalXl v c.ctx x.2 = false

theorem State.releaseXl_aside (s : State) (v : Inval) (n : Nat) : (s.releaseXl v n).runsAside = s.runsAside := s.closeRun_aside n

theorem State.releaseXl_cmd_ne (s : State) (v : Inval) {n k : Nat} (h : k ≠ n) : (s.releaseXl v n).cmd k = s.cmd k := by
  rw [State.cmd, State.releaseXl, lookup_modifyAt_ne _ h]
  exact s.closeRun_cmd_ne h

theorem State.releaseXl_released (s : State) (v : Inval) (n : Nat) : s.released (s.releaseXl v n) v n := by
  intro c hc x hx
  rw [State.cmd, State.releaseXl, lookup_modifyAt_self] at hc
  obtain ⟨c0, -, rfl⟩ := Option.map_eq_some_iff.1 hc
  simpa using (List.mem_filter.1 hx).2

/-- The commands of a list release what an invalidation names, and the others stay as they are. -/
theorem State.releaseXl_fold (v : Inval) (ns : List Nat) (s : State) :
    let t := ns.foldl (fun t n => t.releaseXl v n) s
    t.runsAside = s.runsAside ∧ (∀ k, k ∉ ns → t.cmd k = s.cmd k) ∧ ∀ k ∈ ns, s.released t v k := by
  induction ns generalizing s with
  | nil => exact ⟨rfl, fun _ _ => rfl, fun k hk => by cases hk⟩
  | cons n ns ih =>
    obtain ⟨haside, hrest, hdone⟩ := ih (s.releaseXl v n)
    have hctx : (s.releaseXl v n).ctxs = s.ctxs := ctxs_of_aside (s.releaseXl_aside v n)
    refine ⟨haside.trans (s.releaseXl_aside v n), fun k hk => ?_, fun k hk => ?_⟩
    · obtain ⟨hkn, hks⟩ := not_or.1 (fun h => hk (List.mem_cons.2 h))
      exact (hrest k hks).trans (s.releaseXl_cmd_ne v hkn)
    · by_cases hks : k ∈ ns
      · intro c hc x hx
        rw [← invalXl_of_ctxs hctx]
        exact hdone k hks c hc x hx
      · have hkn : k = n := (List.mem_cons.1 hk).resolve_right hks
        subst hkn
        intro c hc x hx
        rw [List.foldl_cons, hrest k hks] at hc
        exact s.releaseXl_released v k c hc x hx

end

/-! The beginning of an invalidation. -/

section
variable (s : State) (v : Inval)

/-- The machine once the runs of the commands named have closed. -/
def State.runsClosed : State := s.closeRuns fun c => s.invalNames v c.ctx

/-- The commands that hold a translation that is named. -/
def State.namedCmds : List Nat := (s.cmds.filter fun p => s.holdsXl v p.2).map (·.1)

/-- Those of them that move. -/
def State.movingCmds : List Nat := (s.namedCmds v).filter fun n => match s.cmd n with
  | some c => c.st == .moving
  | none => false

theorem State.mem_movingCmds {n : Nat} (h : n ∈ s.movingCmds v) : ∃ c, s.cmd n = some c ∧ c.st = .moving := by
  have hmove := (List.mem_filter.1 h).2
  cases hc : s.cmd n with
  | none => simp [hc] at hmove
  | some c => exact ⟨c, rfl, by simpa [hc] using hmove⟩

theorem State.released_of_notMem {n : Nat} (h : n ∉ s.namedCmds v) : s.released s v n := by
  intro c hc x hx
  refine Bool.eq_false_iff.2 fun hnamed => h (List.mem_map.2 ⟨(n, c), List.mem_filter.2 ⟨mem_of_lookup hc, ?_⟩, rfl⟩)
  exact List.any_eq_true.2 ⟨x, hx, hnamed⟩

/-- The invalidation noted, its translations and walks gone, before the commands that stand still release theirs. -/
def State.invalNoted (s0 : State) : State :=
  { s with
    tlb := s.tlb.filter fun e => !(s0.invalNames v e.ctx &&
      (if v.ats then e.host && meetsPages v.first v.count e.pa e.size else meetsPages v.first v.count e.base e.size))
    walkCache := s.walkCache.filter fun w => !(s0.invalNames v w.ctx && !v.ats &&
      meetsPages v.first v.count (w.prefix_ * levelSpan (w.level + 1)) (levelSpan (w.level + 1)))
    walks := s.walks.map fun p => if s0.invalNames v p.2.ctx && (v.ats || inPages v.first v.count (p.2.va / 65536)) then
      (p.1, { p.2 with stale := true }) else p
    invals := insertAt s.nextId { v with holders := s.movingCmds v } s.invals
    nextId := s.nextId + 1 }

theorem State.beginInval_eq : s.beginInval v =
    (((s.runsClosed v).namedCmds v).filter fun n => !((s.runsClosed v).movingCmds v).contains n).foldl
      (fun t n => t.releaseXl v n) ((s.runsClosed v).invalNoted v s) := rfl

theorem State.runsClosed_aside : (s.runsClosed v).runsAside = s.runsAside := s.closeRuns_aside _

theorem State.beginInval_aside : (s.beginInval v).runsAside = ((s.runsClosed v).invalNoted v s).runsAside := by
  rw [s.beginInval_eq]
  exact (State.releaseXl_fold v _ _).1

theorem State.beginInval_tlb : (s.beginInval v).tlb = ((s.runsClosed v).invalNoted v s).tlb := by
  have htlb := congrArg State.tlb (s.beginInval_aside v)
  exact htlb

theorem State.beginInval_walks : (s.beginInval v).walks = ((s.runsClosed v).invalNoted v s).walks := by
  have hwalks := congrArg State.walks (s.beginInval_aside v)
  exact hwalks

theorem State.beginInval_invals : (s.beginInval v).invals = ((s.runsClosed v).invalNoted v s).invals := by
  have hinvals := congrArg State.invals (s.beginInval_aside v)
  exact hinvals

theorem State.beginInval_holder {n : Nat} (h : n ∈ (s.runsClosed v).movingCmds v) :
    ∃ c, (s.beginInval v).cmd n = some c ∧ c.st = .moving := by
  obtain ⟨c, hc, hmove⟩ := State.mem_movingCmds _ v h
  refine ⟨c, ?_, hmove⟩
  rw [s.beginInval_eq, (State.releaseXl_fold v _ _).2.1 n (by simp [h])]
  exact hc

theorem State.beginInval_released {n : Nat} (h : n ∉ (s.runsClosed v).movingCmds v) : s.released (s.beginInval v) v n := by
  have hctx : (s.runsClosed v).ctxs = s.ctxs := ctxs_of_aside (s.runsClosed_aside v)
  obtain ⟨-, hrest, hdone⟩ := State.releaseXl_fold v
    (((s.runsClosed v).namedCmds v).filter fun n => !((s.runsClosed v).movingCmds v).contains n) ((s.runsClosed v).invalNoted v s)
  rw [s.beginInval_eq]
  intro c hc x hx
  rw [← invalXl_of_ctxs hctx]
  by_cases hnamed : n ∈ (s.runsClosed v).namedCmds v
  · exact hdone n (List.mem_filter.2 ⟨hnamed, by simp [h]⟩) c hc x hx
  · rw [hrest n (fun hn => hnamed (List.mem_filter.1 hn).1)] at hc
    exact State.released_of_notMem _ v hnamed c hc x hx

end

end Sys2Proof.Machine
end

section
/-! PROOFS. Page events (spec 18_page.md R402 to R408, R413, 19_stack_logic.md R423, R428, 21_host_firmware.md R451, R453). -/

namespace Sys2Proof.Machine

/-! A drained page (R423, R428). -/

section
variable (s : State)

/-- The machine but for its memory. -/
def State.memAside : State := { s with mem := [], memPsn := [] }

theorem State.fillSlot_memAside (stack slot : Nat) (bytes : List Byte) (psn : BitVec 32) :
    (s.fillSlot stack slot bytes psn).memAside = s.memAside := by
  unfold State.fillSlot
  dsimp only
  generalize List.range 32 = sectors
  exact (foldl_keeps (p := State.memAside) (fun _ _ => by rfl) sectors _).trans
    (foldl_keeps (p := State.memAside) (fun _ _ => by rfl) _ _)

/-- A page of blocks that is marked shows the mark in each of them. -/
theorem attrAt_setAttr {stack first n a i : Nat} (hi : i < n) :
    (s.setAttr stack first n a).attrAt stack (4096 * (first + i)) = a := by
  rw [State.attrAt, Nat.mul_div_cancel_left _ (by decide : 0 < 4096), ← Nat.add_assoc]
  refine foldl_settles (P := fun m => readAt 3 m (stack * 16777216 + first + i) = a)
    (f := fun m j => writeAt 3 (stack * 16777216 + first + j) a m) (fun m => readAt_writeAt_self ..) (fun m j hm => ?_)
    (List.mem_range.2 hi) s.attr
  by_cases hj : i = j
  · rw [hj, readAt_writeAt_self]
  · rwa [readAt_writeAt_ne _ _ (by omega)]

/-- The waiting blocks of a drained page, and the bytes of its collisions, stand raw in memory. -/
def State.pageDrained (d : Drain) : State :=
  let tab := readAt [] s.collisions d.stack
  d.waiting.foldl (fun t x => t.fillSlot d.stack x.1 x.2.bytes x.2.psn) ((tab.filter fun slot => d.covers d.stack slot).foldl
    (fun t slot => t.fillSlot d.stack slot (s.loadBlock d.stack (1024 * slot)).bytes (s.loadBlock d.stack (1024 * slot)).psn) s)

theorem State.pageDrained_memAside (d : Drain) : (s.pageDrained d).memAside = s.memAside :=
  (foldl_keeps (p := State.memAside) (fun t _ => t.fillSlot_memAside ..) _ _).trans
    (foldl_keeps (p := State.memAside) (fun t _ => t.fillSlot_memAside ..) _ _)

theorem pageDrainComplete_eq {n : Nat} {d : Drain} (hd : lookup n s.drains = some d) (hbegun : d.begun = true)
    (hdone : ∀ slot, d.next ≤ slot → slot < 4 * (d.first + d.blocks) → s.compressed d.stack (1024 * slot) = false) :
    let t := (s.pageDrained d).setAttr d.stack d.first d.blocks 0
    exec (.pageDrainComplete n) s = .next { t with
      drains := eraseAt n t.drains
      collisions := writeAt [] d.stack ((readAt [] s.collisions d.stack).filter fun x => !d.covers d.stack x) t.collisions
      overflows := if d.overflow then t.overflows ++ [(d.stack, d.first)] else t.overflows } := by
  have hexec : exec (.pageDrainComplete n) s = execPageDrainComplete n s := rfl
  have hnext : (s.drainNext d).isSome = false := by
    rw [State.drainNext, Option.isSome_eq_false_iff, Option.isNone_iff_eq_none, List.find?_eq_none]
    intro slot hslot
    obtain ⟨hlow, hhigh⟩ := List.mem_range'_1.1 hslot
    rw [hdone slot hlow (by omega)]
    decide
  have hgo : (!d.begun || (s.drainNext d).isSome) = false := by rw [hbegun, hnext]; rfl
  simp only [hexec, execPageDrainComplete, hd, hgo, Bool.false_eq_true, if_false, State.pageDrained]

end

theorem pageDrainComplete_state {n : Nat} {d : Drain} (s : State) (hd : lookup n s.drains = some d) (hbegun : d.begun = true)
    (hdone : ∀ slot, d.next ≤ slot → slot < 4 * (d.first + d.blocks) → s.compressed d.stack (1024 * slot) = false) :
    ∃ t, exec (.pageDrainComplete n) s = .next t ∧ t.drains = eraseAt n s.drains ∧
      (∀ i < d.blocks, t.attrAt d.stack (4096 * (d.first + i)) = 0) ∧
      t.collisions = writeAt [] d.stack ((readAt [] s.collisions d.stack).filter fun x =>
        ¬ (d.first ≤ x / 4 ∧ x / 4 < d.first + d.blocks)) s.collisions ∧
      t.overflows = if d.overflow then s.overflows ++ [(d.stack, d.first)] else s.overflows := by
  have hdrains := congrArg State.drains (s.pageDrained_memAside d)
  have hcollisions := congrArg State.collisions (s.pageDrained_memAside d)
  have hoverflows := congrArg State.overflows (s.pageDrained_memAside d)
  refine ⟨_, pageDrainComplete_eq s hd hbegun hdone, congrArg (eraseAt n) hdrains, fun i hi => attrAt_setAttr _ hi, ?_, ?_⟩
  · have hcovers : (fun x => !d.covers d.stack x) = fun x => decide ¬ (d.first ≤ x / 4 ∧ x / 4 < d.first + d.blocks) := by
      funext x
      rw [Bool.eq_iff_iff]
      simp [Drain.covers]
    rw [hcovers]
    exact congrArg (writeAt [] d.stack _) hcollisions
  · exact congrArg (fun m => if d.overflow then m ++ [(d.stack, d.first)] else m) hoverflows

/-! Invalidations that end, and those of the host. -/

theorem invalComplete_goes {s : State} {n : Nat} {v : Inval} (hv : lookup n s.invals = some v) (hholders : v.holders = [])
    (hkernels : ∀ p ∈ s.kernels, s.invalCode v p.2.ctx p.2.code = false)
    (hgroups : ∀ p ∈ s.groups ++ s.images.flatMap fun i => i.2.groups, p.2.handles ≠ none →
      s.invalCode v p.2.ctx p.2.code = false) :
    let t : State := { (if v.flush then s.dropWhere fun _ => true else s) with invals := eraseAt n s.invals }
    exec (.invalComplete n) s = .next (match v.mgmt with
      | some m => t.answer (mgmtKey m.func m.die) m.idx 0 []
      | none => t) := by
  have hexec : exec (.invalComplete n) s = execInvalComplete n s := rfl
  have hdone : s.invalDone v = true := by
    simp only [State.invalDone, hholders, List.isEmpty_nil, Bool.true_and, Bool.and_eq_true, List.all_eq_true, Bool.or_eq_true,
      Bool.not_eq_true']
    refine ⟨hkernels, fun p hp => ?_⟩
    cases hh : p.2.handles with
    | none => exact .inl rfl
    | some k => exact .inr (hgroups p hp (by simp [hh]))
  intro t
  simp only [hexec, execInvalComplete, hv, hdone, Bool.not_true, Bool.false_eq_true, if_false]
  cases v.mgmt with
  | none => rfl
  | some m => rfl

theorem atsInvalidation_goes {s : State} {func addr len : Nat} (hfunc : func < s.part.ports) (hlen : len ≠ 0) :
    let first := addr / 65536
    let count := (addr + len - 1) / 65536 - first + 1
    let left := s.atsHeld.filter fun p => ¬ (p.1 = func ∧ first ≤ p.2 ∧ p.2 < first + count)
    exec (.atsInvalidation func addr len) s = .next (({ s with atsHeld := left } : State).beginInval
      { ctx := none, func := func, first := first, count := count, ats := true, flush := false, mgmt := none
        holders := [] }) := by
  intro first count left
  have hexec : exec (.atsInvalidation func addr len) s = execAtsInvalidation func addr len s := rfl
  have hgo : (decide (s.part.ports ≤ func) || len == 0) = false := by simp [hfunc, hlen]
  have hleft : (s.atsHeld.filter fun p => !(p.1 == func && inPages first count p.2)) = left := by
    refine List.filter_congr fun p _ => ?_
    rw [Bool.eq_iff_iff]
    simp [inPages]
  rw [hexec, execAtsInvalidation, if_neg (by simp [hfunc, hlen])]
  exact congrArg (fun held => Host.Outcome.next (({ s with atsHeld := held } : State).beginInval
    { ctx := none, func := func, first := first, count := count, ats := true, flush := false, mgmt := none
      holders := [] })) hleft

theorem State.beginInval_spec (s : State) (v : Inval) :
    let t := s.beginInval v
    let meets := fun base size : Nat => base < (v.first + v.count) * 65536 ∧ v.first * 65536 < base + size
    t.tlb = (s.tlb.filter fun e => ¬ (s.invalNames v e.ctx = true ∧
      if v.ats then e.host = true ∧ meets e.pa e.size else meets e.base e.size)) ∧
    (∀ n w, lookup n s.walks = some w → lookup n t.walks = some { w with
      stale := w.stale || (s.invalNames v w.ctx &&
        (v.ats || (decide (v.first ≤ w.va / 65536) && decide (w.va / 65536 < v.first + v.count)))) }) ∧
    ∃ id hs, lookup id t.invals = some { v with holders := hs } ∧
      (∀ n ∈ hs, ∃ c, t.cmd n = some c ∧ c.st = .moving) ∧
      ∀ n c, t.cmd n = some c → n ∉ hs → ∀ x ∈ c.xls, s.invalXl v c.ctx x.2 = false := by
  intro t meets
  have htlb := congrArg State.tlb (s.runsClosed_aside v)
  have hwalks := congrArg State.walks (s.runsClosed_aside v)
  refine ⟨(s.beginInval_tlb v).trans ?_, fun n w hw => ?_, (s.runsClosed v).nextId, (s.runsClosed v).movingCmds v, ?_,
    fun n hn => s.beginInval_holder v hn, fun n c hc hn => s.beginInval_released v hn c hc⟩
  · refine (congrArg (List.filter _) htlb).trans (List.filter_congr fun e _ => ?_)
    rw [Bool.eq_iff_iff]
    cases hats : v.ats <;> simp [meetsPages, meets]
  · have hmap : (s.beginInval v).walks = s.walks.map (Prod.map id fun w : Walk => { w with
        stale := w.stale || (s.invalNames v w.ctx &&
          (v.ats || (decide (v.first ≤ w.va / 65536) && decide (w.va / 65536 < v.first + v.count)))) }) := by
      refine ((s.beginInval_walks v).trans (congrArg (List.map _) hwalks)).trans (List.map_congr_left fun p _ => ?_)
      have hin : (decide (v.first ≤ p.2.va / 65536) && decide (p.2.va / 65536 < v.first + v.count)) =
        inPages v.first v.count (p.2.va / 65536) := rfl
      by_cases h : (s.invalNames v p.2.ctx && (v.ats || inPages v.first v.count (p.2.va / 65536))) = true
      · rw [if_pos h, Prod.map, hin, h, Bool.or_true]
        rfl
      · rw [if_neg h, Prod.map, hin, Bool.eq_false_iff.2 h, Bool.or_false]
        rfl
    rw [hmap, lookup_map, hw]
    rfl
  · rw [s.beginInval_invals v]
    exact lookup_insertAt_self ..

/-! The page-fault service and the access counters. -/

theorem priResponse_answers {s : State} {id : Nat} {p : PageReq} {f : FaultRec} (hp : lookup id s.pri = some p)
    (hf : (s.faults.find? fun x => x.die == p.die && x.id == p.fault) = some f) (ok : Bool) :
    exec (.priResponse p.func id ok) s = .next (s.answerFault (!ok) f) := by
  have hexec : exec (.priResponse p.func id ok) s = execPriResponse p.func id ok s := rfl
  simp only [hexec, execPriResponse, hp, hf, beq_self_eq_true, if_true]

theorem accessCountHalving_goes {s : State} {die : Nat} (hd : s.hasDie die = true)
    (hhalf : (s.die die).lastHalf + 2 ^ 20 ≤ s.now) : exec (.accessCountHalving die) s =
    .next (({ s with counters := s.counters.map fun p => if (tablesOf die).contains p.1
      then (p.1, p.2.map fun e => { e with count := e.count / 2, armed := e.armed || e.count / 2 ≤ (s.die die).lo })
      else p } : State).modDie die fun x => { x with lastHalf := (s.die die).lastHalf + 2 ^ 20 }) := by
  have hexec : exec (.accessCountHalving die) s = execAccessCountHalving die s := rfl
  have hnow : ¬ s.now < (s.die die).lastHalf + 1048576 := Nat.not_lt.2 hhalf
  rw [hexec, execAccessCountHalving, if_neg (by simp [hd, hnow])]
  rfl

theorem mem_waitingRings {s : State} {die ctx : Nat} {r : FaultRing} : (ctx, r) ∈ s.waitingRings die ↔
    ∃ c, (ctx, c) ∈ s.ctxs ∧ c.faultRing = some r ∧ c.lowDie = die ∧ (s.unsent ctx).isSome ∧ tick r.at_ + 1000 ≤ tick s.now := by
  simp only [State.waitingRings, List.mem_filterMap]
  constructor
  · rintro ⟨⟨k, c⟩, hc, hr⟩
    cases hring : c.faultRing with
    | none => simp [hring] at hr
    | some r' =>
      simp only [hring, Option.ite_none_right_eq_some, Bool.and_eq_true, beq_iff_eq, decide_eq_true_eq, Option.some.injEq,
        Prod.mk.injEq] at hr
      obtain ⟨⟨⟨hlow, hunsent⟩, htime⟩, rfl, rfl⟩ := hr
      exact ⟨c, hc, hring, hlow, hunsent, htime⟩
  · rintro ⟨c, hc, hring, hlow, hunsent, htime⟩
    exact ⟨(ctx, c), hc, by simp [hring, hlow, hunsent, htime]⟩

theorem faultringRetry_goes {s : State} {die : Nat} (hd : s.hasDie die = true) (hne : s.waitingRings die ≠ []) :
    exec (.faultringRetry die) s =
      .next ((s.waitingRings die).foldl (fun t p => t.readFaultRing p.1 p.2.ring p.2.vec) s) := by
  have hexec : exec (.faultringRetry die) s = execFaultringRetry die s := rfl
  rw [hexec, execFaultringRetry, if_neg (by simp [hd, hne])]

/-- What a command's walk ends with. -/
theorem walked_cmd {s : State} {w : Walk} {log : Bool} {k : Nat} {c : Cmd} {x : Want} (hreq : w.req = .cmd k)
    (hc : s.cmd k = some c) (hx : c.want = some x) :
    let r := s.walkFor w (c.access x) log
    s.walked w log = (match r.1 with
      | .ok l => r.2.tlbAdd w.core w.ctx l
      | _ => r.2).cmdTranslated k c x r.1 := by
  intro r
  have hwalk : s.walked w log = s.walkedCmd w k log := by rw [State.walked, hreq]
  simp only [hwalk, State.walkedCmd, hc, hx] <;> rfl

/-- Settles O56: walks by the rules of Table 18-3, the service of their requests, TLBs, and each page event by its own
equation. -/
theorem pageEvents : Obligations.PageEvents := by
  unfold Obligations.PageEvents
  refine ⟨⟨fun s n w hw => ?_, serveWalk_cons, fun s w log k c x hreq hc hx => walked_cmd hreq hc hx⟩,
    fun s die mode dev va a l ls table => ⟨walkFrom_none, fun e => walkFrom_poisoned, fun e he => ?_⟩,
    fun s die ctx va a hctx => ⟨walk_high hctx, fun hva c hc h => walk_poisoned hva hc h⟩,
    fun s core ctx va a => ⟨fun l h => ⟨tlbHit_some h, translate_hit h⟩, tlbHit_ne_none, fun h o t hwalk => ?_⟩,
    State.beginInval_spec, fun s n v hv hholders hkernels hgroups => invalComplete_goes hv hholders hkernels hgroups,
    fun s func addr len hfunc hlen => atsInvalidation_goes hfunc hlen,
    fun s id p f hp hf => ⟨priResponse_answers hp hf true, priResponse_answers hp hf false⟩,
    fun s die hd hhalf => accessCountHalving_goes hd hhalf,
    fun s die hd => ⟨fun ctx r => mem_waitingRings, faultringRetry_goes hd⟩,
    fun s n d hd hbegun hdone => pageDrainComplete_state s hd hbegun hdone⟩
  · intro held hheld hwait
    have hgo := pageWalkComplete_eq hw hheld hwait
    exact ⟨fun hstale => hgo.trans (if_pos hstale), fun hstale => hgo.trans (if_neg (by simp [hstale]))⟩
  · refine ⟨walkFrom_unset he, fun h0 h1 => ?_, fun h0 h1 => ?_⟩
    · have hleaf := walkFrom_leaf (a := a) (ls := ls) he h0 h1
      refine ⟨fun hbad => hleaf.trans (if_pos (Bool.of_not_eq_false fun hf => hbad (leafBad_eq_false_iff.1 hf))), fun hkept => ?_⟩
      have hgood := hleaf.trans (if_neg (by simp [leafBad_eq_false_iff.2 hkept]))
      refine ⟨fun h => hgood.trans (leafOutcome_reserved h), fun h => hgood.trans (leafOutcome_poisoned h), fun h => ?_⟩
      obtain ⟨h3, h2, h4, hok⟩ := leafOutcome_clean (l := l) (va := va) h
      exact ⟨fun h7 => hgood.trans (h3 h7), fun h7 h6 => hgood.trans (h2 h7 h6), fun h7 h6 hl => hgood.trans (h4 h7 h6 hl),
        fun h7 h6 hl => hgood.trans (hok h7 h6 hl)⟩
    · have htable := walkFrom_table (a := a) (ls := ls) he h0 h1
      exact ⟨fun hbad => htable.trans (if_pos (Bool.of_not_eq_false fun hf => hbad (tableBad_eq_false_iff.1 hf))),
        fun hleads => htable.trans (if_neg (by simp [tableBad_eq_false_iff.2 hleads]))⟩
  · rw [State.translate, h, hwalk]
    cases o <;> rfl

end Sys2Proof.Machine
end

section
/-! PROOFS. What the kill of a context leaves alone (spec 16_context.md R366, 20_link.md R448): the cycle, the dies, and every
context but those that it kills. -/

namespace Sys2Proof.Machine

/-- The cycle, the dies and the contexts. -/
def State.outline (s : State) : Nat × List (Nat × Die) × List (Nat × Ctx) := (s.now, s.dies, s.ctxs)

section
variable {s t u : State}

theorem outline_of_besides (h : t.besides = s.besides) : t.outline = s.outline := by
  have houtline := congrArg State.outline h
  exact houtline

theorem ite_outline {c : Prop} [Decidable c] (ht : t.outline = s.outline) (hu : u.outline = s.outline) :
    (if c then t else u).outline = s.outline := by
  split
  · exact ht
  · exact hu

end

section
variable (s : State)

/-! Scratchpad words and reflections. -/

theorem State.logBlock_outline (t : Nat) (nm : LogName) (old : List (Nat × PWord)) :
    (s.logBlock t nm old).outline = s.outline := by
  unfold State.logBlock
  split
  · rfl
  · split
    · rfl
    · exact ite_outline rfl (ite_outline rfl (ite_outline rfl rfl))

theorem State.writeSpad_outline (team core w : Nat) (x : PWord) (mask : Word) :
    (s.writeSpad team core w x mask).outline = s.outline := by
  unfold State.writeSpad
  dsimp only
  split
  · exact ite_outline (s := s) (s.logBlock_outline ..) rfl
  · rfl

theorem State.putWords_outline (team core p : Nat) (ws : List PWord) : (s.putWords team core p ws).outline = s.outline :=
  foldl_keeps (p := State.outline) (fun t _ => t.writeSpad_outline ..) _ s

theorem State.arrive_outline (team core off : Nat) (delta : Int) (bad : Bool) :
    (s.arrive team core off delta bad).outline = s.outline :=
  ite_outline rfl (s.putWords_outline ..)

theorem State.fillRing_outline (team core off : Nat) (bad : Bool) : (s.fillRing team core off bad).outline = s.outline :=
  ite_outline rfl (s.putWords_outline ..)

theorem State.freeRefl_outline (n : Nat) (r : Refl) : (s.freeRefl n r).outline = s.outline :=
  foldl_keeps (p := State.outline) (fun _ _ => by rfl) _ _

theorem State.unsubscribe_outline (n : Nat) (mark : Option Nat) : (s.unsubscribe n mark).outline = s.outline := by
  unfold State.unsubscribe
  split
  · rfl
  · dsimp only
    split
    · rfl
    · rfl
    · rfl
    · exact s.freeRefl_outline ..

theorem State.unsubscribeTeam_outline (team : Nat) : (s.unsubscribeTeam team).outline = s.outline :=
  foldl_keeps (p := State.outline) (fun t _ => t.unsubscribe_outline ..) _ s

theorem State.writeSlot_outline (r : Refl) (data : List Byte) (psn : Bool × Bool) :
    (s.writeSlot r data psn).outline = s.outline := by
  unfold State.writeSlot upTo
  exact foldl_keeps (p := State.outline) (fun _ _ => by rfl) _ s

theorem State.pushSlot_outline (p : RPush) (x : Nat × Nat) : (s.pushSlot p x).outline = s.outline := by
  unfold State.pushSlot
  split
  · rfl
  · exact ite_outline (s.writeSlot_outline ..) rfl

theorem State.drainPushes_outline (n : Nat) : (s.drainPushes n).outline = s.outline := by
  unfold State.drainPushes
  refine (foldl_keeps (p := State.outline) (fun t q => ?_) _ _).trans rfl
  exact foldl_keeps (p := State.outline) (fun u x => u.pushSlot_outline q.2 x) q.2.to_ t

theorem State.loseRefl_outline (n : Nat) : (s.loseRefl n).outline = s.outline := by
  unfold State.loseRefl
  split
  · rfl
  · split
    · rfl
    · exact s.drainPushes_outline n
    · rfl

theorem State.loseRefls_outline (p : Refl → Bool) : (s.loseRefls p).outline = s.outline :=
  foldl_keeps (p := State.outline) (fun t n => t.loseRefl_outline n) _ s

theorem State.loseCopies_outline (p : CopyLine → Bool) : (s.loseCopies p).outline = s.outline :=
  foldl_keeps (p := State.outline) (fun t _ => outline_of_besides (t.logError_besides _)) _ _

/-! Commands. -/

theorem State.startEclipse_outline (princ core : Nat) (after : Word) : (s.startEclipse princ core after).outline = s.outline :=
  ite_outline rfl rfl

theorem State.eclipseAll_outline (princ : Nat) : (s.eclipseAll princ).outline = s.outline :=
  foldl_keeps (p := State.outline) (fun t _ => t.startEclipse_outline ..) _ s

theorem State.spadHold_outline {t : State} {c : Cmd} {r : SpadRef} {n : Nat} (h : s.spadHold c r n = some t) :
    t.outline = s.outline := by
  unfold State.spadHold at h
  dsimp only at h
  split at h
  · split at h
    · split at h <;> cases h
      rfl
    · cases h
  · split at h <;> cases h
    exact ite_outline (s.startEclipse_outline ..) (ite_outline rfl rfl)

theorem State.completionHold_outline {t : State} {c : Cmd} (h : s.completionHold c = some t) : t.outline = s.outline := by
  unfold State.completionHold at h
  obtain ⟨r, -, hr⟩ := List.exists_of_findSome?_eq_some h
  exact s.spadHold_outline hr

theorem State.completionUpdate_outline (c : Cmd) (code : Nat) : (s.completionUpdate c code).outline = s.outline := by
  unfold State.completionUpdate
  split
  · rfl
  · exact ite_outline (s.arrive_outline ..) (s.fillRing_outline ..)

theorem State.receiverArrives_outline (c : Cmd) (code : Nat) (r : Nat × Nat) :
    (s.receiverArrives c code r).outline = s.outline := by
  unfold State.receiverArrives
  split
  · rfl
  · exact s.arrive_outline ..

theorem State.complete_outline (n : Nat) (c : Cmd) (code : Nat) : (s.complete n c code).outline = s.outline := by
  unfold State.complete
  split
  · next t h =>
    have ht : t.outline = s.outline := s.completionHold_outline h
    exact ht
  · extract_lets s1 e
    have h1 : s1.outline = s.outline :=
      ite_outline (foldl_keeps (p := State.outline) (fun t r => t.receiverArrives_outline c code r) _ s)
        (s.completionUpdate_outline ..)
    exact h1

theorem State.settleLines_outline (c : Cmd) : (s.settleLines c).outline = s.outline := by
  unfold State.settleLines
  extract_lets s1 s2
  have h1 : s1.outline = s.outline := outline_of_besides (s.flush_besides ..)
  have h2 : s2.outline = s.outline := ite_outline ((outline_of_besides (State.writeBackWhere_besides ..)).trans h1) h1
  exact ite_outline ((outline_of_besides (State.dropWhere_besides ..)).trans h2) h2

theorem State.finish_outline (n code : Nat) : (s.finish n code).outline = s.outline := by
  unfold State.finish
  split
  · rfl
  · split
    · exact s.complete_outline ..
    · extract_lets c s0
      have h0 : s0.outline = s.outline := s.settleLines_outline _
      split
      · exact h0
      · exact (State.complete_outline ..).trans (ite_outline h0 h0)

theorem State.cancel_outline (n code : Nat) : (s.cancel n code).outline = s.outline := State.finish_outline ..

theorem State.dropKernel_outline (n : Nat) (k : Kernel) : (s.dropKernel n k).outline = s.outline := by
  have hcores : (s.dropLayouts k.cores).outline = s.outline := foldl_keeps (p := State.outline) (fun _ _ => by rfl) _ s
  exact hcores

theorem State.leaveTables_outline (tag : Nat) : (s.leaveTables tag).outline = s.outline :=
  foldl_keeps (p := State.outline) (fun _ _ => by rfl) _ s

end

/-! The kill. -/

/-- What one kill leaves of another context, and what it makes of its own. -/
structure State.KillStep (s t : State) : Prop where
  now : t.now = s.now
  dies : t.dies = s.dies
  live : ∀ k, lookup k s.ctxs ≠ none → lookup k t.ctxs ≠ none
  dead : ∀ k x, lookup k s.ctxs = some x → x.st = .killing ∨ x.st = .failed →
    ∃ y, lookup k t.ctxs = some y ∧ (y.st = .killing ∨ y.st = .failed)

namespace State.KillStep

variable {s t u : State}

theorem of_outline (h : t.outline = s.outline) : s.KillStep t := by
  obtain ⟨hnow, hrest⟩ := Prod.mk.inj h
  obtain ⟨hdies, hctxs⟩ := Prod.mk.inj hrest
  exact ⟨hnow, hdies, fun k hk => by rwa [hctxs], fun k x hx hdead => ⟨x, by rwa [hctxs], hdead⟩⟩

theorem trans (h : s.KillStep t) (h' : t.KillStep u) : s.KillStep u := by
  refine ⟨h'.now.trans h.now, h'.dies.trans h.dies, fun k hk => h'.live k (h.live k hk), fun k x hx hdead => ?_⟩
  obtain ⟨y, hy, hyst⟩ := h.dead k x hx hdead
  exact h'.dead k y hy hyst

theorem kill (s : State) (tag : Nat) {f : Ctx → Ctx} (hf : ∀ x, (f x).st = .killing) : s.KillStep (s.modCtx tag f) := by
  have hsame : (s.modCtx tag f).ctxs = modifyAt tag f s.ctxs := rfl
  refine ⟨rfl, rfl, fun k hk => ?_, fun k x hx hdead => ?_⟩
  · rw [hsame]
    by_cases h : k = tag
    · rw [h] at hk ⊢
      rw [lookup_modifyAt_self]
      simpa using hk
    · rwa [lookup_modifyAt_ne _ h]
  · rw [hsame]
    by_cases h : k = tag
    · rw [h] at hx ⊢
      rw [lookup_modifyAt_self, hx]
      exact ⟨f x, rfl, .inl (hf x)⟩
    · rw [lookup_modifyAt_ne _ h]
      exact ⟨x, hx, hdead⟩

end State.KillStep

/-- A kill changes no cycle and no die; the context that it names is killing or failed afterwards, and so are those that were. -/
theorem State.killFrom_step (fuel : Nat) (s : State) (tag : Nat) : s.KillStep (s.killFrom fuel tag) ∧
    (0 < fuel → lookup tag s.ctxs ≠ none →
      ∃ y, lookup tag (s.killFrom fuel tag).ctxs = some y ∧ (y.st = .killing ∨ y.st = .failed)) := by
  induction fuel generalizing s tag with
  | zero => exact ⟨.of_outline rfl, fun h => absurd h (Nat.lt_irrefl 0)⟩
  | succ fuel ih =>
    unfold State.killFrom
    split
    · next hnone => exact ⟨.of_outline rfl, fun _ h => absurd hnone h⟩
    · next c hc =>
      split
      · next hdead => exact ⟨.of_outline rfl, fun _ _ => ⟨c, hc, by simpa using hdead⟩⟩
      · extract_lets s0 s1 gone s2 s3 s4 s5 s6 s7
        have h0 : s.KillStep s0 := by
          unfold s0
          split
          · exact .of_outline (s.eclipseAll_outline _)
          · split
            · exact (ih s _).1
            · exact .of_outline rfl
        have h1 : s1.outline = s0.outline := foldl_keeps (p := State.outline) (fun _ _ => by rfl) _ s0
        have h2 : s2.outline = s1.outline :=
          (State.leaveTables_outline ..).trans
            (foldl_keeps (p := State.outline) (fun t (p : Nat × Kernel) => t.dropKernel_outline p.1 p.2) _ s1)
        have h3 : s3.outline = s2.outline := rfl
        have h4 : s4.outline = s3.outline := foldl_keeps (p := State.outline) (fun t n => t.cancel_outline n 11) _ s3
        clear_value s4
        have h6 : s6.outline = s4.outline := rfl
        clear_value s6
        have h7 : s7.outline = s6.outline := foldl_keeps (p := State.outline) (fun t n => t.unsubscribeTeam_outline n) _ s6
        have hkept : s.KillStep s7 :=
          h0.trans (.of_outline (h7.trans (h6.trans (h4.trans (h3.trans (h2.trans h1))))))
        clear_value s7
        refine ⟨hkept.trans (.kill s7 tag fun _ => rfl), fun _ hlive => ?_⟩
        obtain ⟨x, hx⟩ := Option.ne_none_iff_exists'.1 (hkept.live tag hlive)
        rw [State.modCtx, lookup_modifyAt_self, hx]
        exact ⟨_, rfl, .inl rfl⟩

theorem State.killCtx_step (s : State) (tag : Nat) : s.KillStep (s.killCtx tag) := (State.killFrom_step 2 s tag).1

/-- Contexts killed one after another. -/
theorem State.killCtxs_step (tags : List Nat) (s : State) : s.KillStep (tags.foldl State.killCtx s) ∧
    ∀ tag ∈ tags, lookup tag s.ctxs ≠ none →
      ∃ y, lookup tag (tags.foldl State.killCtx s).ctxs = some y ∧ (y.st = .killing ∨ y.st = .failed) := by
  induction tags generalizing s with
  | nil => exact ⟨.of_outline rfl, fun _ h => by cases h⟩
  | cons tag tags ih =>
    obtain ⟨hstep, hkilled⟩ := State.killFrom_step 2 s tag
    obtain ⟨hrest, hall⟩ := ih (s.killCtx tag)
    refine ⟨hstep.trans hrest, fun k hk hlive => ?_⟩
    by_cases hin : k ∈ tags
    · exact hall k hin (hstep.live k hlive)
    · have hkt : k = tag := (List.mem_cons.1 hk).resolve_right hin
      subst hkt
      obtain ⟨y, hy, hdead⟩ := hkilled (by decide) hlive
      exact hrest.dead k y hy hdead

end Sys2Proof.Machine
end

section
/-! PROOFS. Resets, wipes, the life cycle and host ports (spec 20_link.md R448, R449, 21_host_firmware.md R455 to R459). -/

namespace Sys2Proof.Machine

/-! Links that change one after another. -/

theorem State.link_setLink (s : State) (l : Nat) (x : Link) : (s.setLink l x).link l = x := by
  rw [State.link, State.setLink, lookup_insertAt_self]
  rfl

theorem State.link_setLink_ne (s : State) {l k : Nat} (h : k ≠ l) (x : Link) : (s.setLink l x).link k = s.link k := by
  rw [State.link, State.setLink, lookup_insertAt_ne _ h, State.link]

/-- What a change gives every link, the links of a list show. -/
theorem State.link_modLinks {P : Link → Prop} {f : Link → Link} (hf : ∀ x, P (f x)) (s : State) {ls : List Nat} {l : Nat}
    (hl : l ∈ ls) : P ((s.modLinks ls f).link l) := by
  refine foldl_settles (P := fun t : State => P (t.link l)) (fun t => ?_) (fun t k ht => ?_) hl s
  · rw [State.link_setLink]
    exact hf _
  · by_cases h : l = k
    · rw [h, State.link_setLink]
      exact hf _
    · rwa [State.link_setLink_ne _ h]

/-- Links of a list without repetition change once. -/
theorem State.link_modLinks_once {f : Link → Link} (s : State) {ls : List Nat} (hls : ls.Nodup) {l : Nat} (hl : l ∈ ls) :
    (s.modLinks ls f).link l = f (s.link l) := by
  have hother : ∀ (t : State) (a i : Nat), a ≠ i → (t.setLink a (f (t.link a))).link i = t.link i := fun t a i h =>
    t.link_setLink_ne (Ne.symm h) _
  obtain ⟨y, hy, hdone⟩ := foldl_touched (key := id) hother (by simpa using hls) hl s
  exact hdone.trans ((y.link_setLink ..).trans (congrArg f hy))

/-- The machine but for its links. -/
def State.linksAside (s : State) : State := { s with links := [] }

theorem State.modLinks_aside (s : State) (ls : List Nat) (f : Link → Link) : (s.modLinks ls f).linksAside = s.linksAside :=
  foldl_keeps (p := State.linksAside) (fun _ _ => by rfl) ls s

theorem State.dieEdges_nodup (s : State) (d : Nat) : (s.dieEdges d).Nodup := List.Nodup.filter _ List.nodup_range

/-! A die that enters warm reset (R448). -/

theorem Refl.besides_st {x y : Refl} (h : x.besides = y.besides) : x.st = y.st := by
  have hst := congrArg Refl.st h
  exact hst

theorem Refl.besides_stack {x y : Refl} (h : x.besides = y.besides) : x.stack = y.stack := by
  have hstack := congrArg Refl.stack h
  exact hstack

/-- No reflection on a list is live that a predicate on its home names. -/
def State.noneLive (s : State) (d : Nat) : Prop := ∀ n r, lookup n s.refls = some r → r.stack / 4 = d → r.st ≠ .live

/-- What a state shows of its reflections. -/
theorem noneLive_of_besides {s t : State} {d : Nat} (h : t.besides = s.besides) (hs : s.noneLive d) : t.noneLive d := by
  have shown : ∀ (u : State) n, (lookup n u.refls).map Refl.besides = lookup n u.besides.refls := fun u n =>
    (lookup_map Refl.besides n u.refls).symm
  intro n r hr hd
  have hsame := (shown t n).trans ((congrArg (fun u : State => lookup n u.refls) h).trans (shown s n).symm)
  rw [hr] at hsame
  obtain ⟨x, hx, hxr⟩ := Option.map_eq_some_iff.1 hsame.symm
  rw [← Refl.besides_st hxr]
  exact hs n x hx (by rw [Refl.besides_stack hxr]; exact hd)

/-- A reflection that its home and its state describe. -/
def Refl.place (r : Refl) : Nat × ReflSt := (r.stack, r.st)

/-- The homes and the states of the reflections. -/
def State.reflPlaces (s : State) : List (Nat × (Nat × ReflSt)) := s.refls.map (Prod.map id Refl.place)

theorem lookup_reflPlaces (s : State) (n : Nat) : lookup n s.reflPlaces = (lookup n s.refls).map Refl.place := lookup_map ..

theorem State.modRefl_places (s : State) (n : Nat) {f : Refl → Refl} (hf : ∀ r, (f r).place = r.place) :
    (s.modRefl n f).reflPlaces = s.reflPlaces := by
  simp only [State.reflPlaces, State.modRefl, modifyAt, List.map_map]
  refine List.map_congr_left fun p _ => ?_
  by_cases h : p.1 = n
  · simp [Prod.map, ← h, hf]
  · simp [h]

theorem State.writeSlot_places (s : State) (r : Refl) (data : List Byte) (psn : Bool × Bool) :
    (s.writeSlot r data psn).reflPlaces = s.reflPlaces := by
  unfold State.writeSlot upTo
  exact foldl_keeps (p := State.reflPlaces) (fun _ _ => by rfl) _ s

theorem State.pushSlot_places (s : State) (p : RPush) (x : Nat × Nat) : (s.pushSlot p x).reflPlaces = s.reflPlaces := by
  unfold State.pushSlot
  split
  · rfl
  · split
    · exact (State.modRefl_places _ _ fun _ => by rfl).trans (s.writeSlot_places ..)
    · rfl

theorem State.drainPushes_places (s : State) (n : Nat) : (s.drainPushes n).reflPlaces = s.reflPlaces := by
  unfold State.drainPushes
  refine (foldl_keeps (p := State.reflPlaces) (fun t q => ?_) _ _).trans rfl
  exact foldl_keeps (p := State.reflPlaces) (fun u x => u.pushSlot_places q.2 x) q.2.to_ t

/-- A place once its reflection is lost, if it was live. -/
def lostPlace (x : Nat × ReflSt) : Nat × ReflSt := (x.1, if x.2 = .live then .lost else x.2)

theorem lostPlace_lostPlace (x : Nat × ReflSt) : lostPlace (lostPlace x) = lostPlace x := by
  obtain ⟨stack, st⟩ := x
  by_cases h : st = .live <;> simp [lostPlace, h]

theorem lostPlace_st (x : Nat × ReflSt) : (lostPlace x).2 ≠ .live := by
  obtain ⟨stack, st⟩ := x
  by_cases h : st = .live <;> simp [lostPlace, h]

theorem State.loseRefl_ne (s : State) {n k : Nat} (h : k ≠ n) : lookup k (s.loseRefl n).reflPlaces = lookup k s.reflPlaces := by
  have hother : ∀ (t : State) f, lookup k (t.modRefl n f).reflPlaces = lookup k t.reflPlaces := fun t f => by
    rw [lookup_reflPlaces, State.modRefl, lookup_modifyAt_ne _ h, lookup_reflPlaces]
  unfold State.loseRefl
  split
  · rfl
  · split
    · exact hother ..
    · rw [hother, s.drainPushes_places]
    · rfl

theorem State.loseRefl_self (s : State) (n : Nat) :
    lookup n (s.loseRefl n).reflPlaces = (lookup n s.reflPlaces).map lostPlace := by
  unfold State.loseRefl
  split
  · next hr => simp [lookup_reflPlaces, hr]
  · next r hr =>
    have hplace : lookup n s.reflPlaces = some r.place := by rw [lookup_reflPlaces, hr]; rfl
    split
    · next hst =>
      rw [s.modRefl_places n fun _ => by rfl, hplace]
      simp [lostPlace, Refl.place, hst]
    · next hst =>
      have hdrained := (lookup_reflPlaces (s.drainPushes n) n).symm.trans
        ((congrArg (lookup n) (s.drainPushes_places n)).trans hplace)
      obtain ⟨x, hx, hxr⟩ := Option.map_eq_some_iff.1 hdrained
      rw [lookup_reflPlaces, State.modRefl, lookup_modifyAt_self, hx, hplace]
      have hstack : x.stack = r.stack := congrArg Prod.fst hxr
      simp [lostPlace, Refl.place, hst, hstack]
    · next hreg hlive =>
      have hst : r.st ≠ .live := hlive
      simp [hplace, lostPlace, Refl.place, hst]

/-- Reflections lost one after another. -/
theorem State.loseRefl_fold (ns : List Nat) (s : State) (k : Nat) :
    lookup k (ns.foldl State.loseRefl s).reflPlaces =
      if k ∈ ns then (lookup k s.reflPlaces).map lostPlace else lookup k s.reflPlaces := by
  induction ns generalizing s with
  | nil => rfl
  | cons n ns ih =>
    rw [List.foldl_cons, ih]
    by_cases hkn : k = n
    · subst hkn
      rw [s.loseRefl_self, if_pos List.mem_cons_self]
      split
      · simp [Function.comp_def, lostPlace_lostPlace]
      · rfl
    · simp [s.loseRefl_ne hkn, hkn]

theorem State.loseRefls_noneLive (s : State) (d : Nat) : (s.loseRefls fun r => r.stack / 4 == d).noneLive d := by
  intro n r hr hd hlive
  have hplace : lookup n (s.loseRefls fun r => r.stack / 4 == d).reflPlaces = some r.place := by rw [lookup_reflPlaces, hr]; rfl
  rw [State.loseRefls, State.loseRefl_fold] at hplace
  split at hplace
  · obtain ⟨x, -, hx⟩ := Option.map_eq_some_iff.1 hplace
    exact lostPlace_st x ((congrArg Prod.snd hx).trans hlive)
  · next hout =>
    rw [lookup_reflPlaces] at hplace
    obtain ⟨x, hx, hxr⟩ := Option.map_eq_some_iff.1 hplace
    have hstack : x.stack = r.stack := congrArg Prod.fst hxr
    exact hout (List.mem_map.2 ⟨(n, x), List.mem_filter.2 ⟨mem_of_lookup hx, by simp [hstack, hd]⟩, rfl⟩)

theorem State.loseCopies_besides (s : State) (p : CopyLine → Bool) : (s.loseCopies p).besides = s.besides :=
  foldl_keeps (p := State.besides) (fun t _ => t.logError_besides _) _ { s with copies := s.copies.filter fun c => !p c }

theorem State.logError_copies (s : State) (e : ErrEntry) : (s.logError e).copies = s.copies := by
  obtain ⟨log, irq, hlog, -⟩ := s.logError_eq e
  rw [hlog]

theorem State.loseCopies_copies (s : State) (p : CopyLine → Bool) : (s.loseCopies p).copies = s.copies.filter fun c => !p c :=
  foldl_keeps (p := State.copies) (fun t _ => t.logError_copies _) _ { s with copies := s.copies.filter fun c => !p c }

/-- The machine once the die's contexts are killed, its reflections lost, and the copies that cross its bounds gone. -/
def State.cutOff (s : State) (d : Nat) (fatal : Bool) : State :=
  let t := ((s.ctxsOn d).foldl State.killCtx s).loseRefls fun r => r.stack / 4 == d
  let across := fun c : CopyLine => (c.stack / 4 == d) != (c.die == d)
  if fatal then t.loseCopies across else t.dropWhere across

section
variable (s : State) (d : Nat) (fatal : Bool)

theorem State.cutOff_besides : (s.cutOff d fatal).besides =
    (((s.ctxsOn d).foldl State.killCtx s).loseRefls fun r => r.stack / 4 == d).besides :=
  ite_besides (State.loseCopies_besides ..) (State.dropWhere_besides ..)

theorem State.cutOff_step : ((s.ctxsOn d).foldl State.killCtx s).KillStep (s.cutOff d fatal) :=
  .of_outline ((outline_of_besides (s.cutOff_besides d fatal)).trans (State.loseRefls_outline ..))

theorem State.cutOff_now : (s.cutOff d fatal).now = s.now :=
  ((State.killCtxs_step (s.ctxsOn d) s).1.trans (s.cutOff_step d fatal)).now

theorem State.cutOff_ctx {tag : Nat} {c : Ctx} (hc : lookup tag s.ctxs = some c) (hd : d ∈ deviceDies c.mode c.dev) :
    ∃ y, lookup tag (s.cutOff d fatal).ctxs = some y ∧ (y.st = .killing ∨ y.st = .failed) := by
  have hmem : tag ∈ s.ctxsOn d := List.mem_map.2 ⟨(tag, c), List.mem_filter.2 ⟨mem_of_lookup hc, by simpa using hd⟩, rfl⟩
  obtain ⟨y, hy, hdead⟩ := (State.killCtxs_step (s.ctxsOn d) s).2 tag hmem (by simp [hc])
  exact (s.cutOff_step d fatal).dead tag y hy hdead

theorem State.cutOff_noneLive : (s.cutOff d fatal).noneLive d :=
  noneLive_of_besides (s.cutOff_besides d fatal) (State.loseRefls_noneLive _ d)

theorem State.cutOff_copies : ∀ c ∈ (s.cutOff d fatal).copies, c.stack / 4 = d ↔ c.die = d := by
  have hfiltered : ∃ m : List CopyLine, (s.cutOff d fatal).copies = m.filter fun c => !((c.stack / 4 == d) != (c.die == d)) := by
    cases fatal with
    | true => exact ⟨_, State.loseCopies_copies ..⟩
    | false => exact ⟨_, rfl⟩
  obtain ⟨m, hm⟩ := hfiltered
  intro c hc
  rw [hm] at hc
  have hkept := (List.mem_filter.1 hc).2
  simp only [Bool.not_eq_true', bne_eq_false_iff_eq] at hkept
  rw [← beq_iff_eq, hkept, beq_iff_eq]

/-- The state of a die's ports after its reset. -/
theorem State.warmReset_eq (hw : (s.die d).warmed = false) : ∃ n, s.warmReset d fatal =
    ({ s.cutOff d fatal with free := (s.cutOff d fatal).free + 1 }.modDie d fun x => { x with
      phase := .warm, warmed := true, switchAt := s.now + n % 8193 }).modLinks (diePorts d) Link.close := by
  have hnow := s.cutOff_now d fatal
  refine ⟨Config.freeChoice (s.cutOff d fatal).free, ?_⟩
  rw [← hnow, State.warmReset, if_neg (by simp [hw])]
  rfl

end

end Sys2Proof.Machine
end

section
/-! PROOFS. Events of dies and of host ports (spec 20_link.md R448, R449, 21_host_firmware.md R455 to R459). -/

namespace Sys2Proof.Machine

theorem mem_dropKeys {α : Type} {n d : Nat} {m : List (Nat × α)} {p : Nat × α} (h : p ∈ dropKeys n d m) : p.1 / n ≠ d := by
  simpa using (List.mem_filter.1 h).2

theorem lookup_dropKeys {α : Type} {n d k : Nat} (hk : k / n = d) (m : List (Nat × α)) : lookup k (dropKeys n d m) = none := by
  cases h : lookup k (dropKeys n d m) with
  | none => rfl
  | some x => exact absurd hk (mem_dropKeys (mem_of_lookup h))

/-! The wipe (R456). -/

theorem of_mem_filter {α : Type} {p : α → Bool} {P : α → Prop} (hP : ∀ x, p x = true → P x) {l : List α} :
    ∀ x ∈ l.filter p, P x := fun x hx => hP x (List.mem_filter.1 hx).2

/-- What a wipe leaves of a die. -/
structure State.Wiped (d : Nat) (t : State) : Prop where
  mem : ∀ p ∈ t.mem, p.1 / 2 ^ 38 ≠ d
  spad : ∀ p ∈ t.spad, p.1 / 2 ^ 24 ≠ d
  groups : ∀ p ∈ t.groups, dieOf p.2.core ≠ d
  cmds : ∀ p ∈ t.cmds, dieOf p.2.core ≠ d
  refls : ∀ p ∈ t.refls, dieOf p.2.core ≠ d
  mwork : ∀ p ∈ t.mwork, dieOf p.1 ≠ d
  homes : ∀ h ∈ t.homes, h.stack / 4 ≠ d
  copies : ∀ c ∈ t.copies, c.die ≠ d ∧ c.stack / 4 ≠ d
  scales : ∀ core, dieOf core = d → t.scaleMem core = { owner := none, fill := 0, bytes := [], xfers := [] }
  txlanes : ∀ p ∈ t.txlanes, p.1 / 128 ≠ d

theorem State.clearDie_wiped (s : State) (d : Nat) : (s.clearDie d).Wiped d where
  mem _ hp := mem_dropKeys hp
  spad _ hp := mem_dropKeys hp
  groups := of_mem_filter (P := fun p : Nat × Group => dieOf p.2.core ≠ d) (by simp)
  cmds := of_mem_filter (P := fun p : Nat × Cmd => dieOf p.2.core ≠ d) (by simp)
  refls := of_mem_filter (P := fun p : Nat × Refl => dieOf p.2.core ≠ d) (by simp)
  mwork _ hp := mem_dropKeys hp
  homes := of_mem_filter (P := fun h : HomeLine => h.stack / 4 ≠ d) (by simp)
  copies := of_mem_filter (P := fun c : CopyLine => c.die ≠ d ∧ c.stack / 4 ≠ d) (by simp)
  scales core hcore := congrArg (fun x : Option ScaleMem => x.getD {}) (lookup_dropKeys hcore _)
  txlanes _ hp := mem_dropKeys hp

theorem State.Wiped.modDie {d : Nat} {s : State} (h : s.Wiped d) (e : Nat) (f : Die → Die) : (s.modDie e f).Wiped d :=
  ⟨h.mem, h.spad, h.groups, h.cmds, h.refls, h.mwork, h.homes, h.copies, h.scales, h.txlanes⟩

theorem State.Wiped.modLinks {d : Nat} {s : State} (h : s.Wiped d) (ls : List Nat) (f : Link → Link) :
    (s.modLinks ls f).Wiped d := by
  have haside : s.linksAside.Wiped d :=
    ⟨h.mem, h.spad, h.groups, h.cmds, h.refls, h.mwork, h.homes, h.copies, h.scales, h.txlanes⟩
  rw [← s.modLinks_aside ls f] at haside
  exact ⟨haside.mem, haside.spad, haside.groups, haside.cmds, haside.refls, haside.mwork, haside.homes, haside.copies,
    haside.scales, haside.txlanes⟩

theorem wipeComplete_goes {s : State} {d : Nat} (hd : s.hasDie d = true)
    (hmay : (s.die d).phase = .wiping ∨ ((s.die d).phase = .warm ∧ (s.die d).switchAt ≤ s.now ∧
      ∀ l < 4, s.isLink l = true → d ∈ linkDies l → (s.link l).st = .quiesced ∨ (s.link l).st = .failed)) :
    ∃ t : State, exec (.wipeComplete d) s = .next t ∧
      (t.die d).phase = (if (s.die d).rejected then .recovery else .training) ∧ t.Wiped d := by
  have hexec : exec (.wipeComplete d) s = execWipeComplete d s := rfl
  have hwipe : s.mayWipe d = true := by
    simp only [State.mayWipe, hd, Bool.true_and, Bool.or_eq_true, Bool.and_eq_true, beq_iff_eq, decide_eq_true_eq,
      List.all_eq_true]
    rcases hmay with hwiping | ⟨hwarm, hat, hquiet⟩
    · exact .inl hwiping
    · refine .inr ⟨⟨hwarm, hat⟩, fun l hl => ?_⟩
      obtain ⟨hrange, hedge⟩ := List.mem_filter.1 hl
      simp only [Bool.and_eq_true, List.contains_iff_mem] at hedge
      rcases hquiet l (List.mem_range.1 hrange) hedge.1 hedge.2 with hst | hst <;> simp [hst]
  rw [hexec, execWipeComplete, if_neg (by simp [hwipe])]
  by_cases hrej : (s.die d).rejected = true
  · rw [if_pos hrej, if_pos hrej]
    refine ⟨_, rfl, ?_, (s.clearDie_wiped d).modDie ..⟩
    rw [State.die_modDie]
  · rw [if_neg hrej, if_neg hrej]
    refine ⟨_, rfl, ?_, ((s.clearDie_wiped d).modDie ..).modLinks ..⟩
    rw [State.die_of_dies (State.modLinks_dies ..), State.die_modDie]

/-! Cold reset and the life cycle (R455, R456). -/

theorem coldReset_goes {s : State} {d : Nat} (hd : s.hasDie d = true) :
    let u := (((s.ctxsOn d).foldl State.killCtx s).loseRefls fun r => r.stack / 4 == d).loseCopies
      fun c => c.stack / 4 == d || c.die == d
    let img := Config.storedImage u.free
    let good := u.imageOk d img
    ∃ t, exec (.coldReset d) s = .next t ∧ (t.die d).warmed = false ∧ (t.die d).throttled = false ∧ (t.die d).rejected = !good ∧
      (good = true → (t.die d).phase = .wiping ∧ (t.die d).digest = Config.fwDigest img ∧ (t.die d).svn = Config.fwSvn img) ∧
      (good = false → (t.die d).phase = .recovery ∧ (t.die d).digest = [] ∧ (t.die d).svn = 0) ∧
      (∀ p ∈ t.mem, p.1 / 2 ^ 38 ≠ d) ∧ ∀ l ∈ s.dieEdges d ++ diePorts d, t.link l = {} := by
  intro u img good
  have hexec : exec (.coldReset d) s = execColdReset d s := rfl
  rw [hexec, execColdReset, if_neg (by simp [hd])]
  refine ⟨_, rfl, ?_⟩
  rw [State.die_modDie]
  refine ⟨rfl, rfl, rfl, fun hgood => ?_, fun hbad => ?_, ?_, fun l hl => ?_⟩
  · exact ⟨if_pos hgood, if_pos hgood, if_pos hgood⟩
  · have hno : ¬ good = true := by simp [hbad]
    exact ⟨if_neg hno, if_neg hno, if_neg hno⟩
  · exact (((State.clearDie_wiped _ d).modLinks ..).modDie ..).mem
  · exact State.link_modLinks (P := fun x => x = {}) (f := fun _ => {}) (fun _ => rfl) _ hl

theorem lifecycleTransition_goes {s : State} {d state : Nat} (hd : s.hasDie d = true) (hnext : state = (s.die d).life + 1)
    (hstate : state ≤ 3) : ∃ t, exec (.lifecycleTransition d state) s = .next t ∧ (t.die d).life = state ∧
      (t.die d).phase = (if (s.die d).phase = .boot then .boot else .wiping) ∧ (state = 3 → (t.die d).identity = false) := by
  have hexec : exec (.lifecycleTransition d state) s = execLifecycleTransition d state s := rfl
  have hdies : ((((s.ctxsOn d).foldl State.killCtx s).loseRefls fun r => r.stack / 4 == d).loseCopies
      fun c => c.stack / 4 == d || c.die == d).dies = s.dies :=
    ((State.killCtxs_step (s.ctxsOn d) s).1.trans
      (.of_outline ((State.loseCopies_outline ..).trans (State.loseRefls_outline ..)))).dies
  rw [hexec, execLifecycleTransition, if_neg (by simp [hd, ← hnext, Nat.not_lt.2 hstate])]
  refine ⟨_, rfl, ?_⟩
  rw [State.die_modDie, State.die_of_dies hdies]
  exact ⟨rfl, by simp, fun h => by simp [h]⟩

/-- A die that is not in warm reset yet: what its reset leaves. -/
theorem warmReset_first {s : State} {d : Nat} {fatal : Bool} (hw : (s.die d).warmed = false) :
    let t := s.warmReset d fatal
    (t.die d).phase = .warm ∧ (t.die d).warmed = true ∧ s.now ≤ (t.die d).switchAt ∧ (t.die d).switchAt ≤ s.now + 8192 ∧
      (∀ tag c, lookup tag s.ctxs = some c → d ∈ deviceDies c.mode c.dev →
        ∃ y, lookup tag t.ctxs = some y ∧ (y.st = .killing ∨ y.st = .failed)) ∧
      (∀ n r, lookup n t.refls = some r → r.stack / 4 = d → r.st ≠ .live) ∧
      (∀ c ∈ t.copies, c.stack / 4 = d ↔ c.die = d) ∧ ∀ l ∈ diePorts d, (t.link l).st = .down := by
  obtain ⟨n, heq⟩ := s.warmReset_eq d fatal hw
  have hn : n % 8193 ≤ 8192 := Nat.lt_succ_iff.1 (Nat.mod_lt _ (by decide))
  rw [heq]
  generalize hu : ({ s.cutOff d fatal with free := (s.cutOff d fatal).free + 1 }.modDie d fun x => { x with
    phase := .warm, warmed := true, switchAt := s.now + n % 8193 }) = u
  have hctxs : u.ctxs = (s.cutOff d fatal).ctxs := by rw [← hu]; rfl
  have hrefls : u.refls = (s.cutOff d fatal).refls := by rw [← hu]; rfl
  have hcopies : u.copies = (s.cutOff d fatal).copies := by rw [← hu]; rfl
  have haside := u.modLinks_aside (diePorts d) Link.close
  have hctxs' := (congrArg State.ctxs haside).trans hctxs
  have hrefls' := (congrArg State.refls haside).trans hrefls
  have hcopies' := (congrArg State.copies haside).trans hcopies
  have hphase : (u.die d).phase = .warm := by rw [← hu, State.die_modDie]
  have hwarmed : (u.die d).warmed = true := by rw [← hu, State.die_modDie]
  have hat : (u.die d).switchAt = s.now + n % 8193 := by rw [← hu, State.die_modDie]
  dsimp only
  rw [State.die_of_dies (u.modLinks_dies ..), hat]
  refine ⟨hphase, hwarmed, Nat.le_add_right .., Nat.add_le_add_left hn _, fun tag c hc hd => ?_, fun k r hr => ?_, fun c hc => ?_,
    fun l hl => State.link_modLinks (P := fun x => x.st = .down) (f := Link.close) (fun _ => rfl) u hl⟩
  · obtain ⟨y, hy, hdead⟩ := s.cutOff_ctx d fatal hc hd
    exact ⟨y, (congrArg (lookup tag) hctxs').trans hy, hdead⟩
  · exact s.cutOff_noneLive d fatal k r ((congrArg (lookup k) hrefls').symm.trans hr)
  · exact s.cutOff_copies d fatal c (Eq.mp (congrArg (c ∈ ·) hcopies') hc)

/-! A die that settles (R448, R457). -/

theorem settleDie_ready {s : State} {d : Nat} (hphase : (s.die d).phase = .training) (hw : (s.die d).warmed = true)
    (hup : ∀ l ∈ s.dieEdges d, (s.link l).st = .up) :
    s.settleDie d = s.modDie d fun y => { y with phase := .ready, warmed := false } := by
  have hall : ((s.dieEdges d).all fun l => (s.link l).st == .up) = true := List.all_eq_true.2 fun l hl => by simp [hup l hl]
  simp [State.settleDie, hphase, hw, hall]

theorem settleDie_quiesces {s : State} {d : Nat} (hphase : (s.die d).phase = .warm) (hat : (s.die d).switchAt ≤ s.now) {l : Nat}
    (hl : l ∈ s.dieEdges d) (hup : (s.link l).st = .up) : ((s.settleDie d).link l).st = .quiescing := by
  have hany : ((s.dieEdges d).any fun l => [LinkSt.up, .training, .down].contains (s.link l).st) = true :=
    List.any_eq_true.2 ⟨l, hl, by simp [hup]⟩
  simp only [State.settleDie, hphase, hat, hany, decide_true, Bool.and_self, if_true]
  rw [State.link_modLinks_once s (s.dieEdges_nodup d) hl, Link.quiesce, hup]

theorem settleDie_rest {s : State} {d : Nat} (htrain : (s.die d).phase ≠ .training) (hwarm : (s.die d).phase ≠ .warm) :
    s.settleDie d = s := by
  unfold State.settleDie
  dsimp only
  split
  · next h => exact absurd h htrain
  · next h => exact absurd h hwarm
  · rfl

/-! Host ports (R449). -/

theorem hostWrite_goes {s : State} {func stack off : Nat} {bytes : List Byte} (hfunc : func < s.part.ports)
    (hd : s.hasDie (stack / 4) = true) (hoff : off < 2 ^ 36) (hup : s.portUp func = true) (hready : s.dieReady (stack / 4) = true)
    (hne : bytes ≠ []) (hfit : off % 128 + bytes.length ≤ 128) :
    exec (.hostWrite func (stack * 2 ^ 36 + off) bytes) s = .next (s.homeWrite
      { stack := stack, line := off / 128, bytes := bytes.mapIdx fun i b => (off % 128 + i, b), psn := [], rel := false }) := by
  have hexec : exec (.hostWrite func (stack * 2 ^ 36 + off) bytes) s = execHostWrite func (stack * 2 ^ 36 + off) bytes s := rfl
  obtain ⟨hstack, hrest⟩ := stackAddr_parts stack hoff
  have hempty : bytes.isEmpty = false := by simpa using hne
  rw [hexec, execHostWrite]
  simp only [hstack, hrest]
  rw [if_neg (by simp [hfunc, hd, hup, hready, hempty, hfit])]

/-- Settles O58: the resets by what they leave of the die's contexts, reflections, copies and links, the wipe by what it clears,
and the other events by their own equations. -/
theorem dieAndHostEvents : Obligations.DieAndHostEvents := by
  unfold Obligations.DieAndHostEvents
  refine ⟨fun s d hd => coldReset_goes hd, fun s d hd hmay => ?_, fun s d hd => ?_, fun s d fatal => ⟨fun hw => ?_, fun hw => ?_⟩,
    fun s d => ⟨settleDie_ready, fun hphase hat l hl hup => settleDie_quiesces hphase hat hl hup, settleDie_rest⟩,
    fun s d state hd hnext hstate => lifecycleTransition_goes hd hnext hstate, fun s d on hd => ?_, fun s on hpart => ?_,
    fun s port state hport hstate => ⟨fun hup => ?_, fun hup => ⟨?_, ?_⟩⟩,
    fun s func stack off bytes hfunc hd hoff hup hready hne hfit => hostWrite_goes hfunc hd hoff hup hready hne hfit⟩
  · obtain ⟨t, hgo, hphase, h⟩ := wipeComplete_goes hd hmay
    exact ⟨t, hgo, hphase, h.mem, h.spad, h.groups, h.cmds, h.refls, h.mwork, h.homes, h.copies, h.scales, h.txlanes⟩
  · have hexec : exec (.dieFatal d) s = execDieFatal d s := rfl
    rw [hexec, execDieFatal, if_neg (by simp [hd])]
  · exact if_pos hw
  · exact warmReset_first hw
  · have hexec : exec (.thermalThrottle d on) s = execThermalThrottle d on s := rfl
    rw [hexec, execThermalThrottle, if_neg (by simp [hd])]
  · have hexec : exec (.coolantLimit on) s = execCoolantLimit on s := rfl
    rw [hexec, execCoolantLimit, if_pos hpart]
  · have hexec : exec (.hostPortLinkDown port state) s = execHostPortLinkDown port state s := rfl
    rw [hexec, execHostPortLinkDown, if_neg (by simp [hport, hstate])]
    exact congrArg Host.Outcome.next (if_pos hup)
  · have hexec : exec (.hostPortLinkDown port state) s = execHostPortLinkDown port state s := rfl
    rw [hexec, execHostPortLinkDown, if_neg (by simp [hport, hstate])]
    exact congrArg Host.Outcome.next (if_neg (by simp [hup]))
  · have hexec : exec (.hostPortLinkUp port) s = execHostPortLinkUp port s := rfl
    rw [hexec, execHostPortLinkUp, if_neg (by simp [hup])]

end Sys2Proof.Machine
end

section
/-! PROOFS. The admission of a cluster (spec 15_kernel.md R347, R348): new groups, teams and a cluster under new numbers, and
what it leaves as it was. -/

namespace Sys2Proof.Machine

/-- The machine but for what the admission of teams may change. -/
def State.unmanned (s : State) : State :=
  { s with cores := [], spad := [], teams := [], nextId := 0, loans := [], groups := [], ctxs := [] }

/-- A state that new teams and groups of a context have been added to. -/
structure State.Grows (ctx : Nat) (s t : State) : Prop where
  next : s.nextId ≤ t.nextId
  teams : ∀ m < s.nextId, lookup m t.teams = lookup m s.teams
  older : ∀ p ∈ t.teams, p ∈ s.teams ∨ s.nextId ≤ p.1
  groups : ∀ m < s.nextId, lookup m t.groups = lookup m s.groups
  ctxs : ∀ m, m ≠ ctx → lookup m t.ctxs = lookup m s.ctxs
  st : (lookup ctx t.ctxs).map Ctx.st = (lookup ctx s.ctxs).map Ctx.st
  aside : t.unmanned = s.unmanned

/-- What an admission speaks of. -/
def State.manning (s : State) : Nat × List (Nat × Team) × List (Nat × Group) × List (Nat × Ctx) × State :=
  (s.nextId, s.teams, s.groups, s.ctxs, s.unmanned)

namespace State.Grows

variable {ctx : Nat} {s t u : State}

theorem of_manning (h : t.manning = s.manning) : s.Grows ctx t := by
  simp only [State.manning, Prod.mk.injEq] at h
  obtain ⟨hnext, hteams, hgroups, hctxs, haside⟩ := h
  exact ⟨hnext.ge, fun m _ => by rw [hteams], fun p hp => .inl (hteams ▸ hp), fun m _ => by rw [hgroups],
    fun m _ => by rw [hctxs], by rw [hctxs], haside⟩

theorem trans (h : s.Grows ctx t) (h' : t.Grows ctx u) : s.Grows ctx u where
  next := h.next.trans h'.next
  teams m hm := (h'.teams m (hm.trans_le h.next)).trans (h.teams m hm)
  older p hp := (h'.older p hp).elim (h.older p) fun hnew => .inr (h.next.trans hnew)
  groups m hm := (h'.groups m (hm.trans_le h.next)).trans (h.groups m hm)
  ctxs m hm := (h'.ctxs m hm).trans (h.ctxs m hm)
  st := h'.st.trans h.st
  aside := h'.aside.trans h.aside

end State.Grows

theorem mem_modTeam {s : State} {i : Nat} {f : Team → Team} {p : Nat × Team} (h : p ∈ (s.modTeam i f).teams) :
    p.1 = i ∨ p ∈ s.teams := by
  obtain ⟨q, hq, rfl⟩ := List.mem_map.1 h
  by_cases hk : q.1 = i
  · exact .inl (by simp [hk])
  · exact .inr (by simpa [hk] using hq)

/-! Groups. -/

section
variable (s : State) (k : Kernel) (c : Ctx) (core team : Nat)

/-- One group of a new team. -/
def State.addGroup (i : Nat) : State :=
  let slot := (s.freeSchedSlot core).getD 0
  let g := newGroup k core slot team i c s.now
  let gid := s.nextId
  let t1 := { s with nextId := gid + 1 }
  if s.roomFor core c.shade k.desc.frame then t1.setGroup gid g
  else
    let t2 := if c.shade then t1 else t1.usePark k.ctx (dieOf core) (imageBytes k.desc.frame)
    t2.setGroup gid { g with st := .parked, resident := false, woken := true, image := !c.shade }

theorem State.addGroups_eq :
    s.addGroups k c core team = (List.range k.desc.g).foldl (fun t i => t.addGroup k c core team i) s := rfl

/-- A group as its team's admission makes it. -/
def Group.fresh (g : Group) (i : Nat) : Prop :=
  g.team = team ∧ g.num = i ∧ g.core = core ∧ g.ctx = k.ctx ∧ g.frame = [] ∧
    g.threads = List.replicate 32 (newThread k.desc.entry)

/-- The next number taken, and a context's parked bytes counted. -/
theorem usePark_grows (die : Nat) (n : Int) : s.Grows k.ctx ({ s with nextId := s.nextId + 1 }.usePark k.ctx die n) where
  next := Nat.le_succ _
  teams _ _ := rfl
  older _ hp := .inl hp
  groups _ _ := rfl
  ctxs m hm := by rw [State.usePark, State.modCtx, lookup_modifyAt_ne _ hm]
  st := by
    rw [State.usePark, State.modCtx, lookup_modifyAt_self]
    cases lookup k.ctx s.ctxs <;> rfl
  aside := rfl

theorem setGroup_grows {s t : State} (h : s.Grows k.ctx t) {gid : Nat} (hgid : s.nextId ≤ gid) (g : Group) :
    s.Grows k.ctx (t.setGroup gid g) :=
  { h with groups := fun m hm => (lookup_insertAt_ne _ (by omega) _).trans (h.groups m hm) }

theorem State.addGroup_spec (i : Nat) : s.Grows k.ctx (s.addGroup k c core team i) ∧
    (s.addGroup k c core team i).nextId = s.nextId + 1 ∧
    ∃ g, lookup s.nextId (s.addGroup k c core team i).groups = some g ∧ g.fresh k core team i := by
  have hnext : s.Grows k.ctx { s with nextId := s.nextId + 1 } :=
    ⟨Nat.le_succ _, fun _ _ => rfl, fun _ hp => .inl hp, fun _ _ => rfl, fun _ _ => rfl, rfl, rfl⟩
  unfold State.addGroup
  dsimp only
  split
  · exact ⟨setGroup_grows k hnext le_rfl _, rfl, _, lookup_insertAt_self .., rfl, rfl, rfl, rfl, rfl, rfl⟩
  · split
    · exact ⟨setGroup_grows k hnext le_rfl _, rfl, _, lookup_insertAt_self .., rfl, rfl, rfl, rfl, rfl, rfl⟩
    · exact ⟨setGroup_grows k (usePark_grows s k _ _) le_rfl _, rfl, _, lookup_insertAt_self .., rfl, rfl, rfl, rfl, rfl, rfl⟩

/-- The first n groups of a new team. -/
theorem State.addGroups_fold (n : Nat) :
    let t := (List.range n).foldl (fun t i => t.addGroup k c core team i) s
    s.Grows k.ctx t ∧ ∀ j < n, ∃ gid g, gid < t.nextId ∧ lookup gid t.groups = some g ∧ g.fresh k core team j := by
  induction n with
  | zero => exact ⟨.of_manning rfl, fun j hj => absurd hj (Nat.not_lt_zero j)⟩
  | succ n ih =>
    obtain ⟨hgrows, hgroups⟩ := ih
    rw [List.range_succ, List.foldl_append, List.foldl_cons, List.foldl_nil]
    generalize (List.range n).foldl (fun t i => t.addGroup k c core team i) s = t at hgrows hgroups ⊢
    obtain ⟨hstep, hnext, g, hg, hfresh⟩ := t.addGroup_spec k c core team n
    refine ⟨hgrows.trans hstep, fun j hj => ?_⟩
    by_cases hjn : j = n
    · rw [hjn]
      exact ⟨t.nextId, g, by omega, hg, hfresh⟩
    · obtain ⟨gid, x, hgid, hx, hxfresh⟩ := hgroups j (by omega)
      exact ⟨gid, x, by omega, (hstep.groups gid hgid).trans hx, hxfresh⟩

end

/-! Teams. -/

section
variable (s : State) (k : Kernel) (c : Ctx) (cl rank core : Nat) (args : List PWord)

/-- A team as a cluster's admission makes it. -/
def Team.fresh (u : Team) : Prop :=
  u.cluster = cl ∧ u.ctx = k.ctx ∧ u.core = core ∧ u.rank = rank ∧ u.live = true ∧ u.left = k.desc.g ∧
    u.granules = k.desc.scratch ∧ u.ckpt.isSome = !k.desc.noCkpt

/-- A new team stands, with its groups. -/
def State.hasTeam (t : State) (i : Nat) : Prop :=
  ∃ u, lookup i t.teams = some u ∧ u.fresh k cl rank core ∧
    ∀ j < k.desc.g, ∃ gid g, gid < t.nextId ∧ lookup gid t.groups = some g ∧ g.fresh k core i j

theorem State.hasTeam.grows {s t : State} {i : Nat} (h : s.hasTeam k cl rank core i) (hi : i < s.nextId) (hg : s.Grows k.ctx t) :
    t.hasTeam k cl rank core i := by
  obtain ⟨u, hu, hfresh, hgroups⟩ := h
  refine ⟨u, (hg.teams i hi).trans hu, hfresh, fun j hj => ?_⟩
  obtain ⟨gid, g, hgid, hlook, hgf⟩ := hgroups j hj
  exact ⟨gid, g, hgid.trans_le hg.next, (hg.groups gid hgid).trans hlook, hgf⟩

theorem State.renew_eq (i : Nat) : ∃ f : Team → Ckpt,
    s.renew i = s.modTeam i fun x => { x with ckpt := x.ckpt.map fun _ => f x } := ⟨_, rfl⟩

/-- A team that is renewed is as fresh as before. -/
theorem renew_spec {s t : State} {i : Nat} (hg : s.Grows k.ctx t) (hi : s.nextId ≤ i) (h : t.hasTeam k cl rank core i) :
    s.Grows k.ctx (t.renew i) ∧ (t.renew i).hasTeam k cl rank core i := by
  obtain ⟨u, hu, ⟨hcl, hctx, hcore, hrank, hlive, hleft, hgran, hckpt⟩, hgroups⟩ := h
  obtain ⟨f, hf⟩ := t.renew_eq i
  rw [hf]
  refine ⟨{ hg with teams := fun m hm => ?_, older := fun p hp => ?_ }, ?_⟩
  · rw [State.modTeam, lookup_modifyAt_ne _ (by omega)]
    exact hg.teams m hm
  · exact (mem_modTeam hp).elim (fun hk => .inr (by omega)) (hg.older p)
  · refine ⟨{ u with ckpt := u.ckpt.map fun _ => f u }, ?_, ⟨hcl, hctx, hcore, hrank, hlive, hleft, hgran, ?_⟩, hgroups⟩
    · rw [State.modTeam, lookup_modifyAt_self, hu]
      rfl
    · simpa using hckpt

theorem State.addTeam_spec : s.Grows k.ctx (s.addTeam k c cl rank core args) ∧
    s.nextId < (s.addTeam k c cl rank core args).nextId ∧ (s.addTeam k c cl rank core args).hasTeam k cl rank core s.nextId := by
  unfold State.addTeam
  extract_lets n base t s0 s1 s2 s3
  have hteams1 : s1.teams = insertAt n t s.teams := rfl
  have h1 : s.Grows k.ctx s1 :=
    { next := Nat.le_succ _
      teams := fun m hm => by rw [hteams1, lookup_insertAt_ne _ (Nat.ne_of_lt hm)]
      older := fun p hp => (mem_insertAt (hteams1 ▸ hp)).elim (fun h => .inr (by rw [h])) .inl
      groups := fun _ _ => rfl
      ctxs := fun _ _ => rfl
      st := rfl
      aside := rfl }
  have hteam : lookup n s1.teams = some t := lookup_insertAt_self ..
  have hnext : s1.nextId = n + 1 := rfl
  have hfresh : t.fresh k cl rank core := ⟨rfl, rfl, rfl, rfl, rfl, rfl, rfl, by cases hk : k.desc.noCkpt <;> simp [t, hk]⟩
  have h2 : s2.manning = s1.manning := by
    unfold s2
    split
    · rfl
    · exact foldl_keeps (p := State.manning) (fun _ _ => by rfl) _ s1
  have h3 : s3.manning = s1.manning := by
    refine Eq.trans ?_ h2
    unfold s3
    split
    · rfl
    · unfold State.startEclipse
      dsimp only
      split <;> rfl
  clear_value s1 t
  clear_value s3
  have hgrows3 : s1.Grows k.ctx s3 := .of_manning h3
  obtain ⟨hgrows, hgroups⟩ := s3.addGroups_fold k c core n k.desc.g
  rw [← State.addGroups_eq] at hgrows hgroups
  have hnext3 : s3.nextId = n + 1 := (congrArg Prod.fst h3).trans hnext
  have hteam3 : lookup n s3.teams = some t := (hgrows3.teams n (by omega)).trans hteam
  have hstands : (s3.addGroups k c core n).hasTeam k cl rank core n :=
    ⟨t, (hgrows.teams n (by omega)).trans hteam3, hfresh, hgroups⟩
  obtain ⟨hgrow, hhas⟩ := renew_spec k cl rank core ((h1.trans hgrows3).trans hgrows) le_rfl hstands
  exact ⟨hgrow, by have := hgrows.next; show n < (s3.addGroups k c core n).nextId; omega, hhas⟩

end

/-! Clusters. -/

section
variable (s : State) (k : Kernel) (c : Ctx) (cl : Nat) (core : Nat → Nat) (args : Nat → List PWord)

/-- The first n teams of a cluster. -/
theorem State.addTeams_fold (n : Nat) :
    let t := (List.range n).foldl (fun t r => t.addTeam k c cl r (core r) (args r)) s
    s.Grows k.ctx t ∧ ∀ r < n, ∃ i, i < t.nextId ∧ t.hasTeam k cl r (core r) i := by
  induction n with
  | zero => exact ⟨.of_manning rfl, fun r hr => absurd hr (Nat.not_lt_zero r)⟩
  | succ n ih =>
    obtain ⟨hgrows, hteams⟩ := ih
    rw [List.range_succ, List.foldl_append, List.foldl_cons, List.foldl_nil]
    generalize (List.range n).foldl (fun t r => t.addTeam k c cl r (core r) (args r)) s = t at hgrows hteams ⊢
    obtain ⟨hstep, hnext, hnew⟩ := t.addTeam_spec k c cl n (core n) (args n)
    refine ⟨hgrows.trans hstep, fun r hr => ?_⟩
    by_cases hrn : r = n
    · rw [hrn]
      exact ⟨t.nextId, hnext, hnew⟩
    · obtain ⟨i, hi, hold⟩ := hteams r (by omega)
      exact ⟨i, hi.trans_le hstep.next, hold.grows k cl r (core r) hi hstep⟩

end

/-- Teams given a kernel. -/
theorem lookup_modTeams {f : Team → Team} (hf : ∀ x, f (f x) = f x) (ns : List Nat) (s : State) (i : Nat) :
    lookup i (ns.foldl (fun t n => t.modTeam n f) s).teams = if i ∈ ns then (lookup i s.teams).map f else lookup i s.teams := by
  induction ns generalizing s with
  | nil => rfl
  | cons n ns ih =>
    rw [List.foldl_cons, ih]
    by_cases hin : i = n
    · subst hin
      rw [State.modTeam, lookup_modifyAt_self, if_pos List.mem_cons_self]
      split
      · simp [Function.comp_def, hf]
      · rfl
    · rw [State.modTeam, lookup_modifyAt_ne _ hin]
      simp [hin]

end Sys2Proof.Machine
end

section
/-! PROOFS. A cluster that is admitted, and the reading of its arguments (spec 15_kernel.md R347, R348). -/

namespace Sys2Proof.Machine

/-- The core of a rank of a kernel's cluster at a place. -/
def Kernel.coreAt (k : Kernel) (die x y r : Nat) : Nat := die * 256 + (y + r / k.desc.w) * 16 + x + r % k.desc.w

theorem mapIdx_map_range {α β : Type} (f : Nat → α) (g : Nat → α → β) (n : Nat) :
    ((List.range n).map f).mapIdx g = (List.range n).map fun r => g r (f r) := by
  apply List.ext_getElem <;> simp

section
variable (s : State) (n : Nat) (k : Kernel) (c : Ctx) (die x y : Nat) (args : List (List PWord))

/-- The machine with the teams of a cluster that is admitted. -/
def State.staffed : State :=
  (List.range (k.desc.w * k.desc.h)).foldl
    (fun t r => t.addTeam k c s.nextId r (k.coreAt die x y r) (args.getD r [])) { s with nextId := s.nextId + 1 }

/-- Its teams, in the order of their numbers. -/
def State.clusterTeams (cl : Nat) : List Nat := (s.teams.filter fun p => p.2.cluster == cl).map (·.1)

/-- The record of an admitted cluster. -/
def Kernel.cluster (teams : List Nat) : Cluster :=
  { kernel := n, ctx := k.ctx, index := k.next, die := die, x := x, y := y, w := k.desc.w, h := k.desc.h, teams := teams }

/-- A kernel that has one cluster more. -/
def Kernel.admits (k m : Kernel) : Kernel :=
  { m with
    next := m.next + 1, live := m.live + 1, argsLost := [], place := none
    cores := (m.cores ++ (List.range (k.desc.w * k.desc.h)).map (k.coreAt die x y)).eraseDups }

/-- A context that runs. -/
def Ctx.runs (m : Ctx) : Ctx := { m with st := if m.st == .ready then .running else m.st }

/-- A machine whose new teams are made a kernel's cluster. -/
def State.enlisted (s : State) (cl n : Nat) (k : Kernel) (die x y : Nat) : State :=
  let s2 := (s.clusterTeams cl).foldl (fun t i => t.modTeam i fun m => { m with kernel := n }) s
  let s3 := (s2.modKernel n (k.admits die x y)).modCtx k.ctx Ctx.runs
  { s3 with clusters := insertAt cl (k.cluster n die x y (s.clusterTeams cl)) s3.clusters }

theorem State.admitCluster_eq :
    s.admitCluster n k c die x y args = (s.staffed k c die x y args).enlisted s.nextId n k die x y := by
  have hcores : (rectangle die x y k.desc.w k.desc.h).mapIdx (fun r core => (r, core)) =
      (List.range (k.desc.w * k.desc.h)).map fun r => (r, k.coreAt die x y r) := mapIdx_map_range ..
  have hstaff : ((rectangle die x y k.desc.w k.desc.h).mapIdx fun r core => (r, core)).foldl
      (fun t p => t.addTeam k c s.nextId p.1 p.2 (args.getD p.1 [])) { s with nextId := s.nextId + 1 } =
      s.staffed k c die x y args := by
    rw [hcores, List.foldl_map]
    rfl
  exact congrArg (fun t : State => t.enlisted s.nextId n k die x y) hstaff

/-- The machine but for its teams. -/
def State.teamsAside : State := { s with teams := [] }

theorem staffed_grows : s.Grows k.ctx (s.staffed k c die x y args) ∧
    (∀ p ∈ (s.staffed k c die x y args).teams, p ∈ s.teams ∨ s.nextId < p.1) ∧
    ∀ r < k.desc.w * k.desc.h, ∃ i, (s.staffed k c die x y args).hasTeam k s.nextId r (k.coreAt die x y r) i := by
  have hnumber : s.Grows k.ctx { s with nextId := s.nextId + 1 } :=
    ⟨Nat.le_succ _, fun _ _ => rfl, fun _ hp => .inl hp, fun _ _ => rfl, fun _ _ => rfl, rfl, rfl⟩
  obtain ⟨hgrows, hteams⟩ := State.addTeams_fold { s with nextId := s.nextId + 1 } k c s.nextId (k.coreAt die x y)
    (fun r => args.getD r []) (k.desc.w * k.desc.h)
  exact ⟨hnumber.trans hgrows, hgrows.older, fun r hr => (hteams r hr).imp fun _ h => h.2⟩

/-- What an admitted cluster's machine shows of each of its tables. -/
theorem admitCluster_tables :
    let s1 := s.staffed k c die x y args
    let t := s.admitCluster n k c die x y args
    (∀ i, lookup i t.teams = if i ∈ s1.clusterTeams s.nextId then (lookup i s1.teams).map (fun m : Team => { m with kernel := n })
      else lookup i s1.teams) ∧
    t.groups = s1.groups ∧ t.ctxs = modifyAt k.ctx Ctx.runs s1.ctxs ∧ t.kernels = modifyAt n (k.admits die x y) s.kernels ∧
    t.clusters = insertAt s.nextId (k.cluster n die x y (s1.clusterTeams s.nextId)) s.clusters ∧
    t.mem = s.mem ∧ t.host = s.host ∧ t.queues = s.queues ∧ t.cmds = s.cmds ∧ t.images = s.images ∧ t.refls = s.refls := by
  intro s1 t
  have hkept : s1.unmanned = s.unmanned := (staffed_grows s k c die x y args).1.aside
  have hlook := lookup_modTeams (f := fun m => { m with kernel := n }) (fun _ => rfl) (s1.clusterTeams s.nextId) s1
  have haside : ((s1.clusterTeams s.nextId).foldl (fun t i => t.modTeam i fun m => { m with kernel := n }) s1).teamsAside =
      s1.teamsAside := foldl_keeps (p := State.teamsAside) (fun _ _ => by rfl) _ s1
  have ht : t = s1.enlisted s.nextId n k die x y := s.admitCluster_eq n k c die x y args
  rw [ht, State.enlisted]
  generalize (s1.clusterTeams s.nextId).foldl (fun t i => t.modTeam i fun m => { m with kernel := n }) s1 = u at hlook haside ⊢
  have hplain : u.unmanned = s.unmanned := (congrArg State.unmanned haside).trans hkept
  have hgroups := congrArg State.groups haside
  have hctxs := congrArg State.ctxs haside
  have hkernels := congrArg State.kernels hplain
  have hclusters := congrArg State.clusters hplain
  have hmem := congrArg State.mem hplain
  have hhost := congrArg State.host hplain
  have hqueues := congrArg State.queues hplain
  have hcmds := congrArg State.cmds hplain
  have himages := congrArg State.images hplain
  have hrefls := congrArg State.refls hplain
  exact ⟨hlook, hgroups, congrArg (modifyAt _ _) hctxs, congrArg (modifyAt _ _) hkernels, congrArg (insertAt _ _) hclusters,
    hmem, hhost, hqueues, hcmds, himages, hrefls⟩

theorem mem_clusterTeams {t : State} {cl i : Nat} {u : Team} (h : lookup i t.teams = some u) (hcl : u.cluster = cl) :
    i ∈ t.clusterTeams cl :=
  List.mem_map.2 ⟨(i, u), List.mem_filter.2 ⟨mem_of_lookup h, by simp [hcl]⟩, rfl⟩

theorem of_mem_clusterTeams {t : State} {cl i : Nat} (h : i ∈ t.clusterTeams cl) : ∃ u, (i, u) ∈ t.teams ∧ u.cluster = cl := by
  obtain ⟨p, hp, rfl⟩ := List.mem_map.1 h
  obtain ⟨hin, hcl⟩ := List.mem_filter.1 hp
  exact ⟨p.2, hin, by simpa using hcl⟩

/-- A fresh team of an admitted cluster, of its kernel. -/
theorem admitCluster_team {r : Nat} (hr : r < k.desc.w * k.desc.h) :
    let t := s.admitCluster n k c die x y args
    ∃ i u, lookup i t.teams = some u ∧ u.kernel = n ∧ u.fresh k s.nextId r (k.coreAt die x y r) ∧
      ∀ j < k.desc.g, ∃ gid g, lookup gid t.groups = some g ∧ g.fresh k (k.coreAt die x y r) i j := by
  intro t
  obtain ⟨hteams, hgroups, -⟩ := admitCluster_tables s n k c die x y args
  obtain ⟨i, u, hu, hfresh, hgs⟩ := (staffed_grows s k c die x y args).2.2 r hr
  refine ⟨i, { u with kernel := n }, ?_, rfl, hfresh, fun j hj => ?_⟩
  · rw [hteams i, if_pos (mem_clusterTeams hu hfresh.1), hu]
    rfl
  · obtain ⟨gid, g, -, hg, hgf⟩ := hgs j hj
    exact ⟨gid, g, (congrArg (lookup gid) hgroups).trans hg, hgf⟩

theorem admitCluster_ctx (hc : lookup k.ctx s.ctxs = some c) :
    ∃ v, lookup k.ctx (s.admitCluster n k c die x y args).ctxs = some v ∧ v.st = if c.st = .ready then .running else c.st := by
  obtain ⟨-, -, hctxs, -⟩ := admitCluster_tables s n k c die x y args
  have hst := (staffed_grows s k c die x y args).1.st
  rw [hc] at hst
  obtain ⟨v, hv, hvst⟩ := Option.map_eq_some_iff.1 hst
  refine ⟨v.runs, ?_, by simp [Ctx.runs, hvst]⟩
  rw [hctxs, lookup_modifyAt_self, hv]
  rfl

theorem admitCluster_oldTeams (hfree : ∀ p ∈ s.teams, p.2.cluster ≠ s.nextId) {m : Nat} (hm : m < s.nextId) :
    lookup m (s.admitCluster n k c die x y args).teams = lookup m s.teams := by
  obtain ⟨hteams, -⟩ := admitCluster_tables s n k c die x y args
  obtain ⟨hgrows, holder, -⟩ := staffed_grows s k c die x y args
  rw [hteams m, if_neg fun hin => ?_]
  · exact hgrows.teams m hm
  · obtain ⟨u, hu, hcl⟩ := of_mem_clusterTeams hin
    exact (holder _ hu).elim (fun h => hfree _ h hcl) fun h => absurd h (Nat.lt_asymm hm)

end

/-! The reading of arguments. -/

section
variable {s : State} {n : Nat} {k : Kernel} {c : Ctx} {die x y : Nat} (hk : lookup n s.kernels = some k)
  (hc : lookup k.ctx s.ctxs = some c) (hplace : s.placeFor k = some (die, x, y)) (hmay : s.mayAdmit n = true)
include hk hc hplace hmay

theorem clusterAdmission_admits {bs : List (List (Byte × Bool))} {t : State}
    (h : readAllArgs k ((List.range (k.desc.w * k.desc.h)).map (k.coreAt die x y)) s [] = .got bs t) :
    exec (.clusterAdmission n) s = .next (t.admitCluster n k c die x y (bs.map (argWords k.desc.const k.arga))) := by
  have hexec : exec (.clusterAdmission n) s = execClusterAdmission n s := rfl
  have hread : readAllArgs k (rectangle die x y k.desc.w k.desc.h) s [] = .got bs t := h
  simp only [hexec, execClusterAdmission, hk, hc, hplace, hmay, hread, Bool.not_true, Bool.false_eq_true, if_false]

theorem clusterAdmission_suspends {core va r : Nat} {t : State}
    (h : readAllArgs k ((List.range (k.desc.w * k.desc.h)).map (k.coreAt die x y)) s [] = .suspend core va r t) :
    let f := t.fault die k.ctx va false core 0 0 3 r 0 0
    exec (.clusterAdmission n) s = .next (f.2.modKernel n fun m =>
      { m with fault := some (die * 2 ^ 32 + f.1), place := some (die, x, y) }) := by
  have hexec : exec (.clusterAdmission n) s = execClusterAdmission n s := rfl
  have hread : readAllArgs k (rectangle die x y k.desc.w k.desc.h) s [] = .suspend core va r t := h
  simp only [hexec, execClusterAdmission, hk, hc, hplace, hmay, hread, Bool.not_true, Bool.false_eq_true, if_false]
  rfl

end

end Sys2Proof.Machine
end

section
/-! PROOFS. Graphs that proceed, and the end of a team (spec 15_kernel.md R349, R355 to R359, 16_context.md R371). -/

namespace Sys2Proof.Machine

/-! Nodes that start (R355, R494). -/

section
variable {s : State} {gr node : Nat} {g : Graph} (hg : lookup gr s.graphs = some g) (hmay : s.mayStartNode gr node = true)
include hg hmay

theorem graphNodeStart_reloads (hnodes : g.nodes = []) : exec (.graphNodeStart gr node) s = .next (s.reloadGraph gr g) := by
  have hexec : exec (.graphNodeStart gr node) s = execGraphNodeStart gr node s := rfl
  simp [hexec, execGraphNodeStart, hg, hmay, hnodes]

section
variable (hnodes : g.nodes ≠ [])
include hnodes

theorem graphNodeStart_kernel (hkind : nodeKind (g.nodes.getD node []) = 0) {r : Launched}
    (hr : ((s.acquireAll g.ctx).describe (s.homeDie g.q) g.ctx (nodeNum (g.nodes.getD node []) 6)).launch g.ctx
      (nodeNum (g.nodes.getD node []) 8) (nodeWord (g.nodes.getD node []) 10) (nodeWord (g.nodes.getD node []) 11)
      (nodeWord (g.nodes.getD node []) 12) s.nextId (.node gr node) = r) :
    (∀ t, r = .refused t → exec (.graphNodeStart gr node) s = .next ((t.nodeStarted gr node).nodeEnds gr node 4)) ∧
    (∀ va f t, r = .suspend va f t → exec (.graphNodeStart gr node) s = .next (t.nodeFault gr node g va f)) ∧
    ∀ t, r = .ok t → exec (.graphNodeStart gr node) s = .next (t.nodeStarted gr node) := by
  have hexec : exec (.graphNodeStart gr node) s = execGraphNodeStart gr node s := rfl
  have hempty : g.nodes.isEmpty = false := by simpa using hnodes
  simp only [hexec, execGraphNodeStart, hg, hmay, hempty, hkind, hr, Bool.not_true, Bool.false_eq_true, if_false]
  exact ⟨fun t h => by rw [h], fun va f t h => by rw [h], fun t h => by rw [h]⟩

theorem graphNodeStart_copy (hkind : nodeKind (g.nodes.getD node []) = 1) :
    let t := (s.acquireAll g.ctx).nodeStarted gr node
    exec (.graphNodeStart gr node) s = .next { t with
      cmds := insertAt t.nextId (nodeCopy gr node g (s.homeDie g.q)) t.cmds, nextId := t.nextId + 1 } := by
  have hexec : exec (.graphNodeStart gr node) s = execGraphNodeStart gr node s := rfl
  have hempty : g.nodes.isEmpty = false := by simpa using hnodes
  simp only [hexec, execGraphNodeStart, hg, hmay, hempty, hkind, Bool.not_true, Bool.false_eq_true, if_false]

theorem graphNodeStart_write (hkind : nodeKind (g.nodes.getD node []) = 3) :
    (s.portReach (s.homeDie g.q) (s.funcOf g.ctx) (nodeNum (g.nodes.getD node []) 6) = .down →
      exec (.graphNodeStart gr node) s = .next ((s.nodeStarted gr node).nodeEnds gr node 0)) ∧
    (s.portReach (s.homeDie g.q) (s.funcOf g.ctx) (nodeNum (g.nodes.getD node []) 6) = .ok →
      let t := ((s.acquireAll g.ctx).hostWrite (nodeNum (g.nodes.getD node []) 6)
        ((List.range 8).map fun i => byteOf (nodeNum (g.nodes.getD node []) 8) i) false).nodeStarted gr node
      exec (.graphNodeStart gr node) s = .next (({ t with
        msix := (s.funcOf g.ctx, nodeWord (g.nodes.getD node []) 10) :: t.msix } : State).nodeEnds gr node 0)) := by
  have hexec : exec (.graphNodeStart gr node) s = execGraphNodeStart gr node s := rfl
  have hempty : g.nodes.isEmpty = false := by simpa using hnodes
  simp only [hexec, execGraphNodeStart, hg, hmay, hempty, hkind, Bool.not_true, Bool.false_eq_true, if_false]
  exact ⟨fun h => by rw [h], fun h => by rw [h]⟩

end
end

theorem reloadGraph_refused {s t : State} {gr : Nat} {g : Graph} (h : s.readGraph (s.homeDie g.q) g.ctx g.addr = .refused t) :
    s.reloadGraph gr g = ({ t with graphs := eraseAt gr t.graphs } : State).failEntry g.q g.idx 4 := by
  simp only [State.reloadGraph, h]

theorem reloadGraph_suspends {s t : State} {gr va r : Nat} {g : Graph}
    (h : s.readGraph (s.homeDie g.q) g.ctx g.addr = .suspend va r t) : s.reloadGraph gr g = t.nodeFault gr 0 g va r := by
  simp only [State.reloadGraph, h]

theorem reloadGraph_got {s t : State} {gr : Nat} {g : Graph} {cond : List Word} {nodes : List (List Word)}
    (h : s.readGraph (s.homeDie g.q) g.ctx g.addr = .got cond nodes t) : s.reloadGraph gr g =
      { t with graphs := insertAt gr { g with nodes := nodes, waits := waitsAfter nodes g.done } t.graphs } := by
  simp only [State.reloadGraph, h]

/-! Completions (Table 15-4). -/

section
variable {s : State} {gr node : Nat} {g : Graph} (hg : lookup gr s.graphs = some g) (hmay : s.mayComplete gr node = true)
include hg hmay

/-- A graph of which a node has completed with a code. -/
def Graph.completed (g : Graph) (node code : Nat) : Graph :=
  { g with
    ended := g.ended.filter fun e => e.1 != node
    done := g.done ++ [node]
    waits := (if code = 0 then nodeSuccs (g.nodes.getD node []) else []).foldl (fun w x => w.modify x (· - 1)) g.waits
    st := if code = 0 then g.st else .failing
    cause := if g.st = .running ∧ code ≠ 0 then code else g.cause }

theorem graphNodeComplete_ended {code : Nat} (he : (g.ended.find? fun e => e.1 == node) = some (node, code)) :
    let u := (s.releaseAll g.ctx).nodeFails g code
    exec (.graphNodeComplete gr node) s =
      .next ((({ u with graphs := insertAt gr (g.completed node code) u.graphs } : State).graphGoes gr).settleQueue g.q) := by
  have hexec : exec (.graphNodeComplete gr node) s = execGraphNodeComplete gr node s := rfl
  have hgraph : ({ g with
      ended := g.ended.filter fun e => e.1 != node
      done := g.done ++ [node]
      waits := (if code == 0 then nodeSuccs (g.nodes.getD node []) else []).foldl (fun w x => w.modify x (· - 1)) g.waits
      st := if code != 0 then .failing else g.st
      cause := if g.st == .running && code != 0 then code else g.cause } : Graph) = g.completed node code := by
    by_cases hcode : code = 0 <;> simp [Graph.completed, hcode]
  simp only [hexec, execGraphNodeComplete, hg, hmay, he, hgraph, Bool.not_true, Bool.false_eq_true, if_false]

theorem graphNodeComplete_conditional (he : g.ended = []) :
    let w := g.nodes.getD node []
    let again := g.cond.getD (nodeWord w 6 % 8) 0 ≠ 0 ∧ (nodeWord w 7 = 0 ∨ g.passes + 1 < nodeWord w 7)
    (again → exec (.graphNodeComplete gr node) s =
      .next { s with graphs := modifyAt gr (fun g => { g.pass with st := .running, passes := g.passes + 1 }) s.graphs }) ∧
    (¬ again → exec (.graphNodeComplete gr node) s =
      .next ((({ s with graphs := eraseAt gr s.graphs } : State).completeEntry g.q g.idx).settleQueue g.q)) := by
  intro w again
  have hexec : exec (.graphNodeComplete gr node) s = execGraphNodeComplete gr node s := rfl
  have hnone : (g.ended.find? fun e => e.1 == node) = none := by rw [he]; rfl
  have hcond : (g.cond.getD (nodeWord w 6 % 8) 0 != 0 && (nodeWord w 7 == 0 || decide (g.passes + 1 < nodeWord w 7))) =
      true ↔ again := by
    simp [again]
  simp only [hexec, execGraphNodeComplete, hg, hmay, hnone, Bool.not_true, Bool.false_eq_true, if_false]
  exact ⟨fun h => if_pos (hcond.2 h), fun h => if_neg fun hc => h (hcond.1 hc)⟩

end

/-- The failure of a node puts its graph's queue into Error, unless the graph fails already. -/
theorem nodeFails_eq (t : State) (g : Graph) (code : Nat) :
    let x := t.queue g.q
    t.nodeFails g code = if code = 0 ∨ code = failedQuietly ∨ g.st ≠ .running then t
      else t.setQueue g.q (if x.st ∈ [.disabled, .idle, .error] then x else { x with
        st := .error, err := code, erridx := g.idx % 2 ^ 32, fault := none
        entries := x.entries.filter fun p => p.2.started }) := by
  intro x
  have hqueue : x.entryError code g.idx = if x.st ∈ [.disabled, .idle, .error] then x else { x with
      st := .error, err := code, erridx := g.idx % 2 ^ 32, fault := none, entries := x.entries.filter fun p => p.2.started } := by
    cases hst : x.st <;> simp [Queue.entryError, Queue.fail, hst]
  unfold State.nodeFails
  by_cases h : code = 0 ∨ code = failedQuietly ∨ g.st ≠ .running
  · rw [if_pos h, if_pos (by simpa [or_assoc] using h)]
  · rw [if_neg h, if_neg (by simpa [or_assoc] using h)]
    exact congrArg (t.setQueue g.q) hqueue

/-! What follows a completion. -/

theorem Graph.quiet_iff {g : Graph} : g.quiet = true ↔ g.ended = [] ∧ ∀ n ∈ g.started, n ∈ g.done := by
  simp [Graph.quiet, List.all_eq_true]

theorem Graph.passDone_iff {g : Graph} : g.passDone = true ↔
    g.nodes ≠ [] ∧ ∀ i < g.nodes.length, nodeKind (g.nodes.getD i []) = 2 ∨ i ∈ g.done := by
  simp [Graph.passDone, List.all_eq_true]

theorem Graph.conditional_iff {g : Graph} :
    g.conditional.isSome = true ↔ ∃ i < g.nodes.length, nodeKind (g.nodes.getD i []) = 2 := by
  rw [Graph.conditional, List.findIdx?_isSome, List.any_eq_true]
  constructor
  · rintro ⟨w, hw, hkind⟩
    obtain ⟨i, hi, rfl⟩ := List.getElem_of_mem hw
    exact ⟨i, hi, by simpa [hi] using hkind⟩
  · rintro ⟨i, hi, hkind⟩
    exact ⟨g.nodes[i], List.getElem_mem hi, by simpa [hi] using hkind⟩

section
variable {s : State} {gr : Nat} {g : Graph} (hg : lookup gr s.graphs = some g)
include hg

theorem graphGoes_failing (hst : g.st = .failing) :
    s.graphGoes gr = if g.quiet then s.endGraph gr g true else s := by
  simp [State.graphGoes, hg, hst]

theorem graphGoes_waits (hst : g.st ≠ .failing) (h : ¬ (g.passDone = true ∧ g.quiet = true)) : s.graphGoes gr = s := by
  have hcond : (g.passDone && g.quiet) = false := Bool.eq_false_iff.2 fun hc => h (Bool.and_eq_true_iff.1 hc)
  simp [State.graphGoes, hg, hst, hcond]

theorem graphGoes_passed (hst : g.st ≠ .failing) (hpass : g.passDone = true) (hquiet : g.quiet = true) :
    s.graphGoes gr = if g.conditional.isSome then
      { s with graphs := modifyAt gr (fun g => { g with st := .evaluating }) s.graphs } else s.endGraph gr g false := by
  simp [State.graphGoes, hg, hst, hpass, hquiet]

end

/-! The end of a team (R359, R371). -/

theorem teamEnd_goes {s : State} {t : Nat} {x : Team} (hx : lookup t s.teams = some x) (hlive : x.live = true)
    (hleft : x.left = 0) (hcmds : ∀ p ∈ s.cmds, p.2.team = t → p.2.node ≠ none) (hrefls : ∀ p ∈ s.refls, p.2.team ≠ t) :
    let lent := x.shade = false ∧ ∃ i < x.granules, (s.loan x.ctx x.core).map.getLsbD (x.base + i) = true
    let ended := fun u : State =>
      ((u.modTeam t fun y => { y with live := false, ckpt := none }).endCluster x.cluster).retryAdmissions (dieOf x.core)
    (lent → exec (.teamEnd t) s = .next (ended (s.startEclipse x.ctx x.core 0))) ∧
    (¬ lent → exec (.teamEnd t) s = .next (ended s)) := by
  intro lent ended
  have hexec : exec (.teamEnd t) s = execTeamEnd t s := rfl
  have hmay : s.mayEnd t = true := by
    have hnone : s.teamRefls t = [] := List.filter_eq_nil_iff.2 fun p hp => by simpa using hrefls p hp
    have hdone : (s.cmds.all fun p => p.2.team != t || p.2.node.isSome) = true := by
      refine List.all_eq_true.2 fun p hp => ?_
      by_cases hpt : p.2.team = t
      · simpa [hpt, Option.isSome_iff_ne_none] using hcmds p hp hpt
      · simp [hpt]
    simp [State.mayEnd, hx, hlive, hleft, hdone, hnone]
  have hlent : (!x.shade && (List.range x.granules).any fun i => (s.loan x.ctx x.core).map.getLsbD (x.base + i)) =
      true ↔ lent := by
    simp [lent]
  simp only [hexec, execTeamEnd, hx, hmay, Bool.not_true, Bool.false_eq_true, if_false]
  exact ⟨fun h => by rw [if_pos (hlent.2 h)], fun h => by rw [if_neg fun hc => h (hlent.1 hc)]⟩

/-- A team has ended on a die: the kernels of its device that found no room try again. -/
theorem retryAdmissions_eq (v : State) (die : Nat) : v.retryAdmissions die =
    { v with kernels := v.kernels.map fun p => match lookup p.2.ctx v.ctxs with
      | some c => if die ∈ deviceDies c.mode c.dev then (p.1, { p.2 with missed := false }) else p
      | none => p } := by
  unfold State.retryAdmissions
  refine congrArg (fun ks => { v with kernels := ks }) (List.map_congr_left fun p _ => ?_)
  cases lookup p.2.ctx v.ctxs with
  | none => rfl
  | some c => simp

/-- Settles O54: an admission by the new numbers it takes, graphs by the cases of their nodes and of what follows a completion,
and the end of a team. -/
theorem kernelsAndGraphsProceed : Obligations.KernelsAndGraphsProceed := by
  unfold Obligations.KernelsAndGraphsProceed
  refine ⟨fun s n k c die x y hk hc hplace hmay => ⟨fun bs t h => clusterAdmission_admits hk hc hplace hmay h,
      fun core va r t h => clusterAdmission_suspends hk hc hplace hmay h⟩, fun s n k c die x y args hk hc => ?_,
    fun s gr node g hg hmay hnodes => ?_, fun s gr node g hg hmay hnodes => ⟨fun hkind => ?_, graphNodeStart_copy hg hmay hnodes,
      graphNodeStart_write hg hmay hnodes⟩, fun s gr node g hg hmay => ⟨fun code he => ?_, graphNodeComplete_conditional hg hmay⟩,
    fun s gr g hg => ?_, fun s cl dc k hk => ?_, fun s t x hx hlive hleft hcmds hrefls => ?_⟩
  · obtain ⟨-, hgroups, hctxs, hkernels, hclusters, hrest⟩ := admitCluster_tables s n k c die x y args
    have hgrows := (staffed_grows s k c die x y args).1
    refine ⟨⟨(s.staffed k c die x y args).clusterTeams s.nextId, ?_⟩, fun r hr => ?_, ?_,
      admitCluster_ctx s n k c die x y args hc, fun m hm => ?_, fun m hm => ?_, fun m hm => ?_, fun m hm => ?_,
      fun hfree m hm => admitCluster_oldTeams s n k c die x y args hfree hm, hrest⟩
    · rw [hclusters, lookup_insertAt_self]
      rfl
    · obtain ⟨i, u, hu, hkernel, ⟨hcl, hctx, hcore, hrank, hlive, hleft, hgran, hckpt⟩, hgs⟩ :=
        admitCluster_team s n k c die x y args hr
      exact ⟨i, u, hu, hcl, hkernel, hctx, hcore, hrank, hlive, hleft, hgran, hckpt, hgs⟩
    · rw [hkernels, lookup_modifyAt_self, hk]
      rfl
    · rw [hclusters, lookup_insertAt_ne _ hm]
    · rw [hkernels, lookup_modifyAt_ne _ hm]
    · rw [hctxs, lookup_modifyAt_ne _ hm]
      exact hgrows.ctxs m hm
    · rw [hgroups]
      exact hgrows.groups m hm
  · have hgo := graphNodeStart_reloads hg hmay hnodes
    exact ⟨fun t h => by rw [hgo, reloadGraph_refused h], fun va r t h => by rw [hgo, reloadGraph_suspends h]; rfl,
      fun cond nodes t h => by rw [hgo, reloadGraph_got h]⟩
  · obtain ⟨hrefused, hsuspends, hlaunched⟩ := graphNodeStart_kernel hg hmay hnodes hkind rfl
    refine ⟨fun t h => hrefused t (by rw [h]; rfl), fun va r t h => hsuspends va r t (by rw [h]; rfl),
      fun d c t h => ⟨fun hbad => hrefused t ?_, fun hlegal => hlaunched _ ?_⟩⟩
    · rw [h]
      exact launch_illegal _ _ _ _ fun hlegal => hbad ((gridLegal_iff 10).1 hlegal)
    · rw [h]
      exact launch_legal _ _ _ _ ((gridLegal_iff 10).2 hlegal)
  · have hgo := graphNodeComplete_ended hg hmay he
    dsimp only at hgo ⊢
    rw [hgo, nodeFails_eq]
    rfl
  · refine ⟨fun hst hquiet => ?_, fun hst hquiet => ?_, fun hst hno => ?_, fun hst hpass hquiet hcond => ?_,
      fun hst hpass hquiet hcond => ?_⟩
    · rw [graphGoes_failing hg hst, if_pos (Graph.quiet_iff.2 hquiet)]
      rfl
    · rw [graphGoes_failing hg hst, if_neg fun h => hquiet (Graph.quiet_iff.1 h)]
    · exact graphGoes_waits hg hst fun h => hno ⟨Graph.passDone_iff.1 h.1, Graph.quiet_iff.1 h.2⟩
    · rw [graphGoes_passed hg hst (Graph.passDone_iff.2 hpass) (Graph.quiet_iff.2 hquiet), if_pos (Graph.conditional_iff.2 hcond)]
    · have hnone : ¬ g.conditional.isSome = true := fun h =>
        (Graph.conditional_iff.1 h).elim fun i hi => hcond i hi.1 hi.2
      rw [graphGoes_passed hg hst (Graph.passDone_iff.2 hpass) (Graph.quiet_iff.2 hquiet), if_neg hnone]
      rfl
  · have hexec : exec (.dependenceCounterDecrement cl dc) s = execDependenceCounterDecrement cl dc s := rfl
    simp only [hexec, execDependenceCounterDecrement, hk, State.decrement]
  · obtain ⟨hlent, hkept⟩ := teamEnd_goes hx hlive hleft hcmds hrefls
    dsimp only at hlent hkept ⊢
    exact ⟨fun h => (hlent h).trans (congrArg Host.Outcome.next (retryAdmissions_eq ..)),
      fun h => (hkept h).trans (congrArg Host.Outcome.next (retryAdmissions_eq ..))⟩

end Sys2Proof.Machine
end
